-- ==== Sys2Proof/Word.lean ====
section
/-! DEFINITION. The word types of the machine and their plainest arithmetic (R2, R141). -/
namespace Sys2Proof

/-- A 32-bit register or memory word. -/
abbrev Word := BitVec 32
/-- A byte of memory. -/
abbrev Byte := BitVec 8
/-- A 64-bit value: an address, a program counter, a register pair. -/
abbrev DWord := BitVec 64
/-- A 7-bit operand code (R27). -/
abbrev Reg := BitVec 7
/-- A predicate number, 0 to 7 (R27). -/
abbrev PredNo := BitVec 3

/-- S(x) of R141: the signed reading. -/
def sInt (x : Word) : Int := x.toInt
/-- N(x) of R141: the unsigned reading. -/
def nInt (x : Word) : Int := (x.toNat : Int)
/-- The low 32 bits of an exact integer (R7). -/
def wrap32 (t : Int) : Word := BitVec.ofInt 32 t

end Sys2Proof
end

