-- ==== Sys2Proof/Machine/Map.lean ====
section
/-! DEFINITION. Finite tables kept as lists of key and value, sorted when only the functions below build them; what
no entry lists is the caller's default (the value at reset). Structural recursion only, so the kernel can run them. -/
namespace Sys2Proof.Machine

/-- A table from natural-number keys. -/
abbrev Map (α : Type) := List (Nat × α)

/-- The value at a key, if listed. -/
def mFind {α : Type} : Map α → Nat → Option α
  | [], _ => none
  | (k', v) :: t, k => if k' = k then some v else mFind t k

/-- The value at a key, the default where nothing is listed. -/
def mGet {α : Type} (m : Map α) (dflt : α) (k : Nat) : α := (mFind m k).getD dflt

/-- Store a value at a key, in its place in the order. -/
def mSet {α : Type} : Map α → Nat → α → Map α
  | [], k, v => [(k, v)]
  | (k', v') :: t, k, v =>
    if k' = k then (k, v) :: t else if k < k' then (k, v) :: (k', v') :: t else (k', v') :: mSet t k v

/-- Remove a key. -/
def mErase {α : Type} : Map α → Nat → Map α
  | [], _ => []
  | (k', v') :: t, k => if k' = k then mErase t k else (k', v') :: mErase t k

/-- Change the value at a key, starting from the default where nothing is listed. -/
def mUpd {α : Type} (m : Map α) (dflt : α) (k : Nat) (f : α → α) : Map α := mSet m k (f (mGet m dflt k))

/-- Change the value at a key if one is listed. -/
def mMod {α : Type} : Map α → Nat → (α → α) → Map α
  | [], _, _ => []
  | (k', v') :: t, k, f => if k' = k then (k', f v') :: t else (k', v') :: mMod t k f

/-- Apply a function at the index of each element. -/
def mapIdxFrom {α β : Type} (f : Nat → α → β) : Nat → List α → List β
  | _, [] => []
  | i, x :: t => f i x :: mapIdxFrom f (i + 1) t

/-- Change element `i` of a list. -/
def listMod {α : Type} : List α → Nat → (α → α) → List α
  | [], _, _ => []
  | x :: t, 0, f => f x :: t
  | x :: t, i + 1, f => x :: listMod t i f

/-- The first element that a test accepts, with its index. -/
def findIdx {α : Type} (p : α → Bool) : List α → Nat → Option (Nat × α)
  | [], _ => none
  | x :: t, i => if p x then some (i, x) else findIdx p t (i + 1)

/-- The numbers from a to a + n - 1. -/
def rangeFrom : Nat → Nat → List Nat
  | _, 0 => []
  | a, n + 1 => a :: rangeFrom (a + 1) n

end Sys2Proof.Machine
end

