-- ==== Sys2Proof/Machine/Memory.lean ====
section
/-! DEFINITION. Bytes by address in one canonical form: addresses strictly rising, no entry equal to what an unlisted
address reads as. Words are little-endian (R2). An unlisted byte reads 0: windows and exchange banks by R94, HBM by the
model's choice (DESIGN CHOICE, log 2). -/
namespace Sys2Proof.Machine

/-- A space of bytes. -/
abbrev Memory := List Host.Cell

/-- What an address that nothing lists reads as (R94 for windows; DESIGN CHOICE for HBM, log 2). -/
def memDefault : Byte := 0

/-- The byte at an address. -/
def memRead (m : Memory) (a : Nat) : Byte := mGet m memDefault a

/-- Write one byte; the default removes the entry, so that equal memories are equal data. -/
def memWrite (m : Memory) (a : Nat) (v : Byte) : Memory := if v = memDefault then mErase m a else mSet m a v

/-- Write bytes upward from an address. -/
def memWriteBytes (m : Memory) (a : Nat) : List Byte → Memory
  | [] => m
  | v :: t => memWriteBytes (memWrite m a v) (a + 1) t

/-- The `n` bytes from an address. -/
def memReadBytes (m : Memory) (a : Nat) : Nat → List Byte
  | 0 => []
  | n + 1 => memRead m a :: memReadBytes m (a + 1) n

/-- The canonical form. -/
def Memory.wf : Memory → Bool
  | [] => true
  | [(_, v)] => v != memDefault
  | (a, v) :: (b, u) :: t => v != memDefault && decide (a < b) && Memory.wf ((b, u) :: t)

/-- The little-endian number of some bytes (R2). -/
def leNat : List Byte → Nat
  | [] => 0
  | b :: t => b.toNat + 256 * leNat t

/-- The `n` little-endian bytes of a number (R2). -/
def leBytes (x : Nat) : Nat → List Byte
  | 0 => []
  | n + 1 => BitVec.ofNat 8 x :: leBytes (x / 256) n

/-- A 32-bit word of some bytes. -/
def leWord (bs : List Byte) : Word := BitVec.ofNat 32 (leNat bs)
/-- The bytes of a 32-bit word. -/
def wordBytes (w : Word) : List Byte := leBytes w.toNat 4

/-- The 32-bit word at an address. -/
def memRead32 (m : Memory) (a : Nat) : Word := leWord (memReadBytes m a 4)
/-- Write a 32-bit word. -/
def memWrite32 (m : Memory) (a : Nat) (w : Word) : Memory := memWriteBytes m a (wordBytes w)

/-- The `n` words of some bytes. -/
def leWords (bs : List Byte) : Nat → List Word
  | 0 => []
  | n + 1 => leWord (bs.take 4) :: leWords (bs.drop 4) n

end Sys2Proof.Machine
end

