-- ==== Sys2Proof/Machine/Aes.lean ====
section
/-! DEFINITION. AES-256-XTS over a 128-byte sector (R371), by the public standards that the rule's name stands for
(PRESUMED, log 6): a key of 512 bits, little-endian, of which the low half enciphers the data and the high half the
tweak, and the sector's number PA[51:7] as the tweak. -/
namespace Sys2Proof.Machine

/-! ### Bytes as the field GF(2^8) -/
/-- Times x modulo x^8 + x^4 + x^3 + x + 1. -/
def gfTwice (b : Nat) : Nat := if 256 ≤ 2 * b then (2 * b) ^^^ 0x11B else 2 * b
/-- The product, over the bits of `b` from the lowest. -/
def gfGo : Nat → Nat → Nat → Nat → Nat
  | 0, _, _, r => r
  | n + 1, a, b, r => gfGo n (gfTwice a) (b / 2) (if b % 2 = 1 then r ^^^ a else r)
def gfMul (a b : Nat) : Nat := gfGo 8 a b 0
/-- a^254, the inverse; 0 for 0. -/
def gfInv (a : Nat) : Nat :=
  let a2 := gfMul a a
  let a3 := gfMul a2 a
  let a6 := gfMul a3 a3
  let a12 := gfMul a6 a6
  let a15 := gfMul a12 a3
  let a30 := gfMul a15 a15
  let a60 := gfMul a30 a30
  let a120 := gfMul a60 a60
  let a126 := gfMul a120 a6
  let a127 := gfMul a126 a
  gfMul a127 a127
/-- A byte turned left. -/
def rotByte (b n : Nat) : Nat := (b * 2 ^ n) % 256 + b / 2 ^ (8 - n)
/-- The S-box. -/
def subByte (b : Nat) : Nat :=
  let i := gfInv b
  i ^^^ rotByte i 1 ^^^ rotByte i 2 ^^^ rotByte i 3 ^^^ rotByte i 4 ^^^ 0x63
/-- Its inverse. -/
def invByte (b : Nat) : Nat := gfInv (rotByte b 1 ^^^ rotByte b 3 ^^^ rotByte b 6 ^^^ 0x05)

/-! ### The cipher: 16 bytes in columns of four -/
def xorBytes (a b : List Nat) : List Nat := (a.zip b).map fun p => p.1 ^^^ p.2
/-- The 60 words of the key schedule, `n` of them still to come. -/
def expandGo : Nat → Nat → List (List Nat) → List (List Nat)
  | 0, _, ws => ws
  | n + 1, i, ws =>
    let prev := ws.getD (i - 1) []
    let t :=
      if i % 8 = 0 then xorBytes ((prev.drop 1 ++ prev.take 1).map subByte) [Nat.repeat gfTwice (i / 8 - 1) 1, 0, 0, 0]
      else if i % 8 = 4 then prev.map subByte else prev
    expandGo n (i + 1) (ws ++ [xorBytes (ws.getD (i - 8) []) t])
/-- The round keys of a 32-byte key. -/
def roundKeys (key : List Nat) : List (List Nat) :=
  let ws := expandGo 52 8 ((rangeFrom 0 8).map fun i => (key.drop (4 * i)).take 4)
  (rangeFrom 0 15).map fun r => ((ws.drop (4 * r)).take 4).flatten
/-- Row r turns left by r places; `d` is 1 for the cipher and 3 for its inverse. -/
def shiftRows (d : Nat) (x : List Nat) : List Nat :=
  (rangeFrom 0 16).map fun k => x.getD (4 * ((k / 4 + d * (k % 4)) % 4) + k % 4) 0
/-- Each column times the circulant matrix of a row of coefficients. -/
def mixColumns (cs : List Nat) (x : List Nat) : List Nat :=
  (rangeFrom 0 16).map fun k => (rangeFrom 0 4).foldl (fun r j =>
    r ^^^ gfMul (cs.getD ((j + 4 - k % 4) % 4) 0) (x.getD (k / 4 * 4 + j) 0)) 0
/-- One block enciphered under its round keys. -/
def aesEnc (ks : List (List Nat)) (x : List Nat) : List Nat :=
  let mid := (rangeFrom 1 13).foldl (fun x r =>
    xorBytes (mixColumns [2, 3, 1, 1] (shiftRows 1 (x.map subByte))) (ks.getD r [])) (xorBytes x (ks.getD 0 []))
  xorBytes (shiftRows 1 (mid.map subByte)) (ks.getD 14 [])
/-- One block deciphered. -/
def aesDec (ks : List (List Nat)) (x : List Nat) : List Nat :=
  let mid := (rangeFrom 1 13).foldl (fun x r =>
    mixColumns [14, 11, 13, 9] (xorBytes ((shiftRows 3 x).map invByte) (ks.getD (14 - r) []))) (xorBytes x (ks.getD 14 []))
  xorBytes ((shiftRows 3 mid).map invByte) (ks.getD 0 [])

/-! ### XTS -/
/-- The `n` little-endian bytes of a number. -/
def natBytes (x : Nat) : Nat → List Nat
  | 0 => []
  | n + 1 => x % 256 :: natBytes (x / 256) n
/-- The number of some little-endian bytes. -/
def bytesNat : List Nat → Nat
  | [] => 0
  | b :: t => b + 256 * bytesNat t
/-- The next block's tweak. -/
def nextTweak (t : Nat) : Nat := if 2 ^ 128 ≤ 2 * t then (2 * t % 2 ^ 128) ^^^ 0x87 else 2 * t
/-- `n` blocks, each whitened by its tweak around a block function. -/
def xtsGo (f : List Nat → List Nat) : Nat → Nat → List Nat → List Nat
  | 0, _, _ => []
  | n + 1, t, x =>
    let tw := natBytes t 16
    xorBytes (f (xorBytes (x.take 16) tw)) tw ++ xtsGo f n (nextTweak t) (x.drop 16)
/-- A sector under a key: enciphered or deciphered. -/
def xtsSector (enc : Bool) (key sector : Nat) (x : List Nat) : List Nat :=
  let k1 := roundKeys (natBytes key 32)
  let k2 := roundKeys (natBytes (key / 2 ^ 256) 32)
  xtsGo (if enc then aesEnc k1 else aesDec k1) 8 (bytesNat (aesEnc k2 (natBytes (sector % 2 ^ 45) 16))) x
/-- A 128-byte sector that HBM holds enciphered under one key and that is deciphered under another (R371): `old` is its
plaintext under the first. A key is numbered one above its value, and 0 is no encryption. -/
def recryptSector (k0 k sector : Nat) (old : List Byte) : List Byte :=
  if k0 = k then old else
    let x := old.map (·.toNat)
    let c := if k0 = 0 then x else xtsSector true (k0 - 1) sector x
    (if k = 0 then c else xtsSector false (k - 1) sector c).map fun b => BitVec.ofNat 8 b
/-- Byte i of it. -/
def recrypt (k0 k sector : Nat) (old : List Byte) (i : Nat) : Byte := (recryptSector k0 k sector old).getD i 0

end Sys2Proof.Machine
end

