-- ==== Sys2Proof/Machine/Codes.lean ====
section
/-! DEFINITION. The sub-codes of the instruction formats (R57, R61 to R66) as named alternatives, and the
records that the machine's events carry (launch records, group configurations, pod windows, bring-up input). -/
namespace Sys2Proof

/-- .wrap, .sat_s, .sat_n of IADD and ISUB (R143). -/
inductive SatMode where | wrap | satS | satN
deriving DecidableEq, Repr
/-- .lo, .hi_s, .hi_n of IMUL and IMAD (R144). -/
inductive MulPart where | lo | hiS | hiN
deriving DecidableEq, Repr
/-- The sub-codes of IMNMX (R145). -/
inductive MnMx where | minS | maxS | minN | maxN
deriving DecidableEq, Repr
/-- The sub-codes of LOP (R149). -/
inductive LopOp where | and | or | xor | andn | orn | xnor
deriving DecidableEq, Repr
/-- The sub-codes of SHF (R150). -/
inductive ShfOp where | shl | shrN | shrS | rol | ror
deriving DecidableEq, Repr
/-- The sub-codes of IUNA (R151). -/
inductive UnaOp where | popc | clz | ctz | brev | absS | neg | not
deriving DecidableEq, Repr
/-- The integer conditions of R62. -/
inductive Cond where | eq | ne | ltS | leS | ltN | leN | gtS | gtN
deriving DecidableEq, Repr
/-- The sub-codes of IDIV (R148). -/
inductive DivOp where | divS | divN | remS | remN
deriving DecidableEq, Repr
/-- The sub-codes of PLOP (R160). -/
inductive PlopOp where | and | or | xor | andn | not
deriving DecidableEq, Repr
/-- The rounding codes of R57. -/
inductive Rnd where | rn | rz | rd | ru | ra | ro | rs | rdyn
deriving DecidableEq, Repr
/-- The sub-codes of FMNMX (R163). -/
inductive FmnOp where | min | max | minnum | maxnum
deriving DecidableEq, Repr
/-- The conditions of FSET and DSET (R164). -/
inductive FCond where | eq | ne | lt | le | gt | ge | unord | ord
deriving DecidableEq, Repr
/-- The functions of SFU (R168). -/
inductive SfuOp where | rcp | rsq | sqrt | ex2 | lg2 | sin2pi | cos2pi | tanh
deriving DecidableEq, Repr
/-- The functions of DSFU (R170). -/
inductive DsfuOp where | rcp | rsq | sqrt
deriving DecidableEq, Repr
/-- The conversion codes of R65, 0x00 to 0x14. -/
inductive CvtOp where
  | f32Bf16 | f32F16 | bf16F32 | f16F32 | f32E4m3 | f32E5m2 | e4m3F32 | e5m2F32 | f32F4x | f4xF32
  | f32S32 | f32N32 | s32F32 | n32F32 | f64F32 | f32F64 | f64S32 | s32F64 | xa48F32 | f32Xa48 | xa48F64
deriving DecidableEq, Repr
/-- The sub-codes of SHFL (R173). -/
inductive ShflOp where | idx | up | down | xor | bcast
deriving DecidableEq, Repr
/-- The sub-codes of VOTE (R174). -/
inductive VoteOp where | any | all | ballot | count
deriving DecidableEq, Repr
/-- The reduction kinds of R63. -/
inductive RedKind where | addB32 | addF32 | minS32 | maxS32 | minN32 | maxN32 | and | or
deriving DecidableEq, Repr
/-- The sz field of format LM (R52). -/
inductive Size where | b8 | b16 | b32 | b64
deriving DecidableEq, Repr
/-- The placement qualifiers of LDG (R184). -/
inductive LdgQ where | normal | ef | retain | nol1
deriving DecidableEq, Repr
/-- The qualifiers of LDS (R185). -/
inductive LdsQ where | sp | xfront | ab | cb
deriving DecidableEq, Repr
/-- The qualifiers of STS (R185). -/
inductive StsQ where | sp | xremote | ab | cb
deriving DecidableEq, Repr
/-- The scopes of R14. -/
inductive Scope where | w | b | c | d | p
deriving DecidableEq, Repr
/-- The atomic operations of R61. -/
inductive Aop where | add | minS | maxS | minN | maxN | and | or | xor | exch | cas | fadd
deriving DecidableEq, Repr
/-- The uses of R191. -/
inductive Use where | plain | unpaired | comm | nonord | quantum | spec
deriving DecidableEq, Repr
/-- The ty field of format LA (R52). -/
inductive AtomTy where | b32 | b64 | f32
deriving DecidableEq, Repr
/-- The operations of GALU and GALUI (R66). -/
inductive GaluOp where | add | sub | and | or | xor | shl | shr | mul
deriving DecidableEq, Repr
/-- The operations of BARX (R202). -/
inductive BarxOp where | init | arrive | arriveExpect | expect | test | wait
deriving DecidableEq, Repr

/-- The matrix operand formats of R282; INT8 pairs only with itself. -/
inductive MxFmt where | f4x | e4m3 | e5m2 | bf16 | int8
deriving DecidableEq, Repr

/-- One entry of the pod window table (R383). -/
structure PodWindow where
  base : Nat
  len : Nat
  local_ : Nat
  r : Bool
  w : Bool
  atomic : Bool
  key : Nat
  /-- the source peer, or any peer -/
  peer : Option Nat
deriving DecidableEq, Repr

/-- A group's configuration, as firmware writes it into one slot of one engine (R339). -/
structure GroupCfg where
  l0 : Nat
  l1 : Nat
  l2 : Nat
  /-- DEVICE of the member at each coordinate, in increasing c (R353) -/
  devs : List Nat
  /-- the package's own coordinate c -/
  own : Nat
  /-- mask of the dies that take part -/
  dies : BitVec 4
  /-- step timeout in units of 1,024 local cycles, 0 for none -/
  timeout : Nat
  part : Nat
deriving DecidableEq, Repr

/-- What firmware supplies at bring-up (R388). -/
structure BringUpArgs where
  /-- the image's signature verifies against the fused key (R386) -/
  verified : Bool
  /-- SHA-512 of the image -/
  image : Nat
  /-- key slots loaded: slot and key -/
  keys : List (Nat × Nat)
  /-- root table of each partition -/
  roots : List (Nat × Nat)
  device : Nat
  windows : List (Nat × PodWindow)
deriving DecidableEq, Repr

/-- A request of a UALink peer (R381): a read, a write of at most one sector, an atomic, an op on a barrier object by a
party (DEVICE, BLKX) of the peer (R392), or another kind. -/
inductive PeerReq where
  | read (addr len : Nat)
  | write (addr : Nat) (data : List Byte)
  | atomic (addr : Nat) (aop : Aop) (ty : AtomTy) (x y : DWord)
  | barx (addr dev blkx : Nat) (op : BarxOp) (val : Word)
  | other
deriving DecidableEq, Repr

/-- What an error-correction event strikes (R385): memory, a typed-buffer or scratchpad window of a block, a latch
bank, a collective's working store, a cell of an engine's staging. -/
inductive EccSite where
  | hbm (pa : Nat)
  | ab (bk off : Nat)
  | wb (bk off : Nat)
  | cb (bk off : Nat)
  | sp (bk off : Nat)
  | bank (quad bank col : Nat)
  | staging (die slot q elem : Nat)
  | cell (die : Nat) (out : Bool) (i elem : Nat)
deriving DecidableEq, Repr

/-- Firmware's choice when a grid's block is dispatched (R92): the core of each block placed, and the partition it
assigns when it is the grid's first; `none` leaves R92's own policy. -/
structure Placement where
  cores : Option (List Nat)
  part : Nat
deriving DecidableEq, Repr

end Sys2Proof
end

