-- ==== Sys2Proof/Machine/Flags.lean ====
section
/-! DEFINITION. The flags of FPFLAGS (R74) and the conditions of R62, each as a function of its operands. -/
namespace Sys2Proof.Machine

/-- Invalid operation. -/
def fNV : BitVec 5 := 0b10000
/-- An exact infinity from a finite operand. -/
def fDZ : BitVec 5 := 0b01000
/-- Overflow. -/
def fOF : BitVec 5 := 0b00100
/-- Tiny and inexact. -/
def fUF : BitVec 5 := 0b00010
/-- Inexact. -/
def fNX : BitVec 5 := 0b00001

/-- The flags of all lanes ORed (R75). -/
def orFlags : List (BitVec 5) → BitVec 5
  | [] => 0
  | f :: t => f ||| orFlags t

/-- The integer conditions (R62). -/
def condHolds (c : Cond) (a b : Word) : Bool :=
  match c with
  | .eq => a == b
  | .ne => a != b
  | .ltS => a.slt b
  | .leS => a.sle b
  | .ltN => a.ult b
  | .leN => a.ule b
  | .gtS => b.slt a
  | .gtN => b.ult a

/-- What a SETC of FPFLAGS leaves: written 1 bits clear, but a flag raised in the same local cycle stays (R75). -/
def clearFlags (old written raised : BitVec 5) : BitVec 5 := (old &&& ~~~ written) ||| (old &&& raised)

end Sys2Proof.Machine
end

