-- ==== Sys2Proof/Config.lean ====
section
/-! DEFINITION. The free values of the model: what the spec leaves open, as constants without a body, and the few
figures an implementation fixes (DESIGN CHOICE, log 3). Nothing in Lean can evaluate them; a statement holds for every value. -/
namespace Sys2Proof.Config

/-- Which alternative the machine takes the `tick`-th time it chooses, at place `i` (R6, R50). -/
opaque freeChoice (tick i : Nat) : Bool
/-- The hash that spreads the 1 KiB lines over the slices (R373: set at bring-up, unseen by software). -/
opaque homeHash (line : Nat) : Nat
/-- The LLC slice, of 192 (R11), that is the home of line `line`. -/
def homeOf (line : Nat) : Nat := homeHash line % 192
/-- A byte that a peer answers to the `tick`-th remote request, for physical address `pa` of peer `peer` (R372). -/
opaque peerByte (tick peer pa : Nat) : Byte
/-- Whether a compare-and-swap sent to a peer succeeded, the `tick`-th time (R323, R324). -/
opaque peerCas (tick peer addr : Nat) : Bool
/-- The hash that spreads a slice's lines over its sets (R11: unseen by software). -/
opaque setHash (line : Nat) : Nat
/-- The set, of the slice's 512 (R11), that line `line` lies in. -/
def setOf (line : Nat) : Nat := setHash line % 512
/-- Which of the lines that stand first for replacement alike makes way for a fill of line `line` (R369). -/
opaque victim (line : Nat) (lines : List Nat) : Nat
/-- The signature of an attestation report over the given words (R386). -/
opaque signature (report : List Nat) : Nat
/-- The fuse identity of the package (R386). -/
opaque fuseId : Nat
/-- C0 of a barrier object before a phase's first arrival, and every other word that holds no defined value (R329). -/
opaque undefinedWord (tick : Nat) : Word

end Sys2Proof.Config
end

