-- ==== Sys2Proof/Syntax.lean ====
section
/-! DEFINITION. The instructions and steps of the machine: one constructor per row of spec/opcode_table.json. The
first 107 are encoded words (R61, R64), `illegal` is every other word (R68), the rest are the steps of the engines, of
the memory side, of firmware and of the host, which have no encoding. `sw` is the switch marker, bit 30 (R48). -/
namespace Sys2Proof

inductive Instr where
  -- lane set, arithmetic (07_lane_arith_instructions.md)
  | iadd (sw : Bool) (m : SatMode) (d a b : Reg)
  | isub (sw : Bool) (m : SatMode) (d a b : Reg)
  | imul (sw : Bool) (m : MulPart) (d a b : Reg)
  | imad (sw : Bool) (m : MulPart) (d a b : Reg)
  | imnmx (sw : Bool) (m : MnMx) (d a b : Reg)
  | lop (sw : Bool) (m : LopOp) (d a b : Reg)
  | shf (sw : Bool) (m : ShfOp) (d a b : Reg)
  | iuna (sw : Bool) (m : UnaOp) (d a : Reg)
  | bfe (sw : Bool) (signed : Bool) (d a b : Reg)
  | bfi (sw : Bool) (d a b : Reg)
  | iset (sw : Bool) (c : Cond) (p : PredNo) (a b : Reg)
  | sel (sw : Bool) (p : PredNo) (d a b : Reg)
  | lea (sw : Bool) (sh : BitVec 3) (d a b : Reg)
  | iadd64 (sw : Bool) (sub : Bool) (d a b : Reg)
  | idiv (sw : Bool) (m : DivOp) (d a b : Reg)
  | iaddi (sw : Bool) (d a : Reg) (imm : BitVec 10)
  | andi (sw : Bool) (d a : Reg) (imm : BitVec 10)
  | ori (sw : Bool) (d a : Reg) (imm : BitVec 10)
  | xori (sw : Bool) (d a : Reg) (imm : BitVec 10)
  | shli (sw : Bool) (d a : Reg) (count : BitVec 5)
  | shri (sw : Bool) (d a : Reg) (count : BitVec 5)
  | movl (sw : Bool) (d : Reg) (imm : BitVec 16)
  | movh (sw : Bool) (d : Reg) (imm : BitVec 16)
  | iseti (sw : Bool) (c : Cond) (p : PredNo) (a : Reg) (imm : BitVec 10)
  | mov (sw : Bool) (d a : Reg)
  | plop (sw : Bool) (m : PlopOp) (d a b : PredNo)
  | fadd (sw : Bool) (m : Rnd) (d a b : Reg)
  | fsub (sw : Bool) (m : Rnd) (d a b : Reg)
  | fmul (sw : Bool) (m : Rnd) (d a b : Reg)
  | ffma (sw : Bool) (m : Rnd) (d a b : Reg)
  | fmnmx (sw : Bool) (m : FmnOp) (d a b : Reg)
  | fset (sw : Bool) (c : FCond) (p : PredNo) (a b : Reg)
  | dadd (sw : Bool) (m : Rnd) (d a b : Reg)
  | dmul (sw : Bool) (m : Rnd) (d a b : Reg)
  | dfma (sw : Bool) (m : Rnd) (d a b : Reg)
  | bfma2 (sw : Bool) (m : Rnd) (d a b : Reg)
  | hfma2 (sw : Bool) (m : Rnd) (d a b : Reg)
  | fdot2 (sw : Bool) (m : Rnd) (d a b : Reg)
  | sfu (sw : Bool) (f : SfuOp) (m : Rnd) (d a : Reg)
  | dsfu (sw : Bool) (f : DsfuOp) (m : Rnd) (d a : Reg)
  | cvt (sw : Bool) (m : Rnd) (c : CvtOp) (sat : Bool) (d a : Reg)
  | prmt (sw : Bool) (d a b : Reg)
  | dset (sw : Bool) (c : FCond) (p : PredNo) (a b : Reg)
  | fcls (sw : Bool) (f64 : Bool) (d a : Reg)
  | shfl (sw : Bool) (m : ShflOp) (d a b : Reg)
  | vote (sw : Bool) (m : VoteOp) (d a : Reg)
  | matchv (sw : Bool) (d a : Reg) (p : PredNo)
  | red (sw : Bool) (k : RedKind) (d a : Reg)
  -- lane set, memory (08_lane_control_memory_instructions.md)
  | ldg (sw : Bool) (sz : Size) (q : LdgQ) (t a : Reg) (off : BitVec 6)
  | stg (sw : Bool) (sz : Size) (nt : Bool) (t a : Reg) (off : BitVec 6)
  | lds (sw : Bool) (sz : Size) (q : LdsQ) (t a : Reg) (off : BitVec 6)
  | sts (sw : Bool) (sz : Size) (q : StsQ) (t a : Reg) (off : BitVec 6)
  | lda (sw : Bool) (b64 : Bool) (sc : Scope) (sp : Bool) (t a : Reg) (off : BitVec 5)
  | stl (sw : Bool) (b64 : Bool) (sc : Scope) (sp : Bool) (t a : Reg) (off : BitVec 5)
  | atom (sw : Bool) (aop : Aop) (u : Use) (ty : AtomTy) (sp : Bool) (t a : Reg)
  | ldrRo (sw : Bool) (sz : Size) (t a : Reg) (off : BitVec 6)
  | ldrUse (sw : Bool) (sz : Size) (discard : Bool) (count : BitVec 5) (t a : Reg)
  -- group set, control and system
  | nop (sw : Bool)
  | bra (sw : Bool) (neg : Bool) (p : PredNo) (disp : BitVec 20)
  | bray (sw : Bool) (neg : Bool) (p : PredNo) (disp : BitVec 20)
  | call (sw : Bool) (neg : Bool) (p : PredNo) (disp : BitVec 20)
  | join (sw : Bool) (a : Reg)
  | calli (sw : Bool) (a : Reg)
  | brai (sw : Bool) (a : Reg)
  | ret (sw : Bool) (a : Reg)
  | exit (sw : Bool)
  | refill (sw : Bool) (a : Reg)
  | region (sw : Bool)
  | trap (sw : Bool) (code : BitVec 17)
  | bpt (sw : Bool) (code : BitVec 17)
  | waitm (sw : Bool) (c : Cond) (a b : Reg)
  | bar (sw : Bool) (cluster : Bool)
  | barx (sw : Bool) (op : BarxOp) (d a b : Reg)
  | fence (sw : Bool) (sc : Scope) (imm : BitVec 7)
  | drain (sw : Bool) (sc : Scope)
  | roinv (sw : Bool)
  | gmov (sw : Bool) (d a : Reg)
  | galu (sw : Bool) (op : GaluOp) (d a b : Reg)
  | galui (sw : Bool) (op : GaluOp) (d : Reg) (imm : BitVec 14)
  | gmovl (sw : Bool) (d : Reg) (imm : BitVec 17)
  | gmovh (sw : Bool) (d : Reg) (imm : BitVec 17)
  | gred (sw : Bool) (k : RedKind) (d a : Reg)
  | gset (sw : Bool) (c : Cond) (p : PredNo) (a b : Reg)
  | getc (sw : Bool) (d : Reg) (idx : BitVec 17)
  | setc (sw : Bool) (d : Reg) (idx : BitVec 17)
  | setcRole (sw : Bool) (d : Reg)
  | setcFpflags (sw : Bool) (d : Reg)
  | setcRingbase (sw : Bool) (d : Reg)
  | setcRingsize (sw : Bool) (d : Reg)
  | setcQuota (sw : Bool) (d : Reg)
  | setcFrm (sw : Bool) (d : Reg)
  | clk (sw : Bool) (d : Reg)
  | free (sw : Bool) (d a b : Reg)
  | reggive (sw : Bool) (n : BitVec 7)
  | regclaim (sw : Bool) (n : BitVec 7)
  -- group set, engines (15, 17, 20, 23)
  | cpwp (sw : Bool) (ch : BitVec 3) (d : Reg)
  | cpwait (sw : Bool) (ch : BitVec 3) (d a : Reg)
  | cpstat (sw : Bool) (ch : BitVec 3) (d : Reg)
  | mxpost (sw : Bool) (d a : Reg)
  | mxstat (sw : Bool) (d a : Reg)
  | tkpost (sw : Bool) (d a : Reg)
  | tksig (sw : Bool) (set : Bool) (a b : Reg)
  | tkjoin (sw : Bool) (d a : Reg)
  | tkread (sw : Bool) (fail : Bool) (d a : Reg)
  | wdq (sw : Bool) (d a b : Reg)
  | cxpost (sw : Bool) (d a : Reg)
  | cxstat (sw : Bool) (d a : Reg)
  | cxreset (sw : Bool) (a : Reg)
  -- every word that is not an instruction (R68)
  | illegal (w : Word)
  -- steps of the lane engine and the memory side
  | outstandingResultReturn (wk id : Nat) (late : Bool)
  | backBankArrival (id : Nat)
  | barrierCompletion (bk : Nat) (cluster : Bool)
  | exchangeStoreArrival (id : Nat)
  | waitmReadAgain (wk g : Nat)
  | refillAnswer (wk : Nat)
  | performStore (wk n : Nat)
  | evict (core sector : Nat)
  | arrive (fid : Nat)
  | drop (ro : Bool) (unit sector : Nat)
  | llcFill (line victim : Nat)
  -- faults, pre-emption, launch
  | faultRecordPost
  | resume (seq : Nat)
  | handler (seq : Nat)
  | taskDrop (seq : Nat)
  | kill (seq : Nat)
  | preempt (bk : Nat) (areas : List Nat) (parea : Nat)
  | preemptTurnTimeout (bk : Nat)
  | discard (bk : Nat)
  | restore (id : Nat) (cores : Option (List Nat))
  | dstall (gid : Nat)
  | watchdog (gid : Nat)
  | blockDispatch (queue : Nat) (pl : Placement)
  -- yard, copy, matrix, distributor, collectives
  | waveStart (quad : Nat)
  | poolEntryFree (quad : Nat)
  | mxEntryFree (quad : Nat)
  | wdQueueRoom
  | copyCommandStart (bk ch : Nat)
  | copyDelivery (bk ch : Nat)
  | admission (quad jid : Nat)
  | reload (quad : Nat)
  | passGrant (quad : Nat)
  | passWrite (quad : Nat)
  | governorWindow (quad : Nat)
  | wdQuery
  | leaseExpiry (n : Nat)
  | arrivalLog (id : Nat)
  | completionSignal (dev quad ctr : Nat)
  | collectiveAdmission (die cid : Nat)
  | packet (die : Nat) (hdr : List Word) (mask : Nat) (payload : List Byte)
  | sendPermit (die link : Nat)
  | stepTimeout (die cid : Nat)
  | collectiveCompletion (die cid : Nat)
  -- host, pod, firmware, reliability
  | launch (queue tag : Nat) (rec : List Word)
  | complete (gid : Nat)
  | flush (part va len tag : Nat)
  | flushdone
  | memwrite (pa : Nat) (data : List Byte) (tag : Nat)
  | memread (pa len tag : Nat)
  | attest (nonce tag : Nat)
  | stats (tag : Nat)
  | jalliaOtherKind (kind tag : Nat)
  | ualinkRequest (peer : Nat) (req : PeerReq)
  | ualinkTimeout (peer : Nat)
  | eccError (correctable lasting : Bool) (site : EccSite)
  | timetableWrite (core sched : Nat) (table : List Byte) (strict : Bool)
  | budgetSet (quad v : Nat)
  | counterAssign (quad ctr : Nat) (part : Option Nat)
  | groupConfigure (die slot : Nat) (cfg : GroupCfg)
  | podWindowWrite (n : Nat) (w : Option PodWindow)
  | keyLoad (slot : Nat) (key : Option Nat)
  | thermalTrip
  | powerLoss
  | bringUp (args : BringUpArgs)
  | atomicPerformAtHome (id : Nat)
  | isolationClear (peer : Nat)
  | watchdogReduction (gid v : Nat)
  | wayPartitionMaskSet (wp : Nat) (mask : BitVec 16)
  | budgetCeilingChange (quad v : Nat)
deriving DecidableEq, Repr

end Sys2Proof
end

