-- ==== Sys2Proof/Decode.lean ====
section
/-! DEFINITION. From a 32-bit word to an instruction, total on every word, rejecting by name (R46 to R68), and the
encoder written from the same format tables. A rejected word is `Instr.illegal` when it is executed (R68). -/
namespace Sys2Proof

/-- Why a word is no instruction (R68): its opcode, a sub-field value, a reserved field that is not 0. -/
inductive Reject where | opcode | subcode | reserved
deriving DecidableEq, Repr

/-- The field value of each `SatMode` (R61, R64). -/
def satModeCode : SatMode → BitVec 3
  | .wrap => 0#3
  | .satS => 1#3
  | .satN => 2#3
/-- The `SatMode` a field value names; every value not listed is none. -/
def satModeOf (x : BitVec 3) : Option SatMode :=
  match x.toNat with
  | 0 => some .wrap
  | 1 => some .satS
  | 2 => some .satN
  | _ => none

/-- The field value of each `MulPart` (R61, R64). -/
def mulPartCode : MulPart → BitVec 3
  | .lo => 0#3
  | .hiS => 1#3
  | .hiN => 2#3
/-- The `MulPart` a field value names; every value not listed is none. -/
def mulPartOf (x : BitVec 3) : Option MulPart :=
  match x.toNat with
  | 0 => some .lo
  | 1 => some .hiS
  | 2 => some .hiN
  | _ => none

/-- The field value of each `MnMx` (R61, R64). -/
def mnMxCode : MnMx → BitVec 3
  | .minS => 0#3
  | .maxS => 1#3
  | .minN => 2#3
  | .maxN => 3#3
/-- The `MnMx` a field value names; every value not listed is none. -/
def mnMxOf (x : BitVec 3) : Option MnMx :=
  match x.toNat with
  | 0 => some .minS
  | 1 => some .maxS
  | 2 => some .minN
  | 3 => some .maxN
  | _ => none

/-- The field value of each `LopOp` (R61, R64). -/
def lopOpCode : LopOp → BitVec 3
  | .and => 0#3
  | .or => 1#3
  | .xor => 2#3
  | .andn => 3#3
  | .orn => 4#3
  | .xnor => 5#3
/-- The `LopOp` a field value names; every value not listed is none. -/
def lopOpOf (x : BitVec 3) : Option LopOp :=
  match x.toNat with
  | 0 => some .and
  | 1 => some .or
  | 2 => some .xor
  | 3 => some .andn
  | 4 => some .orn
  | 5 => some .xnor
  | _ => none

/-- The field value of each `ShfOp` (R61, R64). -/
def shfOpCode : ShfOp → BitVec 3
  | .shl => 0#3
  | .shrN => 1#3
  | .shrS => 2#3
  | .rol => 3#3
  | .ror => 4#3
/-- The `ShfOp` a field value names; every value not listed is none. -/
def shfOpOf (x : BitVec 3) : Option ShfOp :=
  match x.toNat with
  | 0 => some .shl
  | 1 => some .shrN
  | 2 => some .shrS
  | 3 => some .rol
  | 4 => some .ror
  | _ => none

/-- The field value of each `UnaOp` (R61, R64). -/
def unaOpCode : UnaOp → BitVec 3
  | .popc => 0#3
  | .clz => 1#3
  | .ctz => 2#3
  | .brev => 3#3
  | .absS => 4#3
  | .neg => 5#3
  | .not => 6#3
/-- The `UnaOp` a field value names; every value not listed is none. -/
def unaOpOf (x : BitVec 3) : Option UnaOp :=
  match x.toNat with
  | 0 => some .popc
  | 1 => some .clz
  | 2 => some .ctz
  | 3 => some .brev
  | 4 => some .absS
  | 5 => some .neg
  | 6 => some .not
  | _ => none

/-- The field value of each `Cond` (R61, R64). -/
def condCode : Cond → BitVec 3
  | .eq => 0#3
  | .ne => 1#3
  | .ltS => 2#3
  | .leS => 3#3
  | .ltN => 4#3
  | .leN => 5#3
  | .gtS => 6#3
  | .gtN => 7#3
/-- The `Cond` a field value names; every value not listed is none. -/
def condOf (x : BitVec 3) : Option Cond :=
  match x.toNat with
  | 0 => some .eq
  | 1 => some .ne
  | 2 => some .ltS
  | 3 => some .leS
  | 4 => some .ltN
  | 5 => some .leN
  | 6 => some .gtS
  | 7 => some .gtN
  | _ => none

/-- The field value of each `DivOp` (R61, R64). -/
def divOpCode : DivOp → BitVec 3
  | .divS => 0#3
  | .divN => 1#3
  | .remS => 2#3
  | .remN => 3#3
/-- The `DivOp` a field value names; every value not listed is none. -/
def divOpOf (x : BitVec 3) : Option DivOp :=
  match x.toNat with
  | 0 => some .divS
  | 1 => some .divN
  | 2 => some .remS
  | 3 => some .remN
  | _ => none

/-- The field value of each `PlopOp` (R61, R64). -/
def plopOpCode : PlopOp → BitVec 3
  | .and => 0#3
  | .or => 1#3
  | .xor => 2#3
  | .andn => 3#3
  | .not => 4#3
/-- The `PlopOp` a field value names; every value not listed is none. -/
def plopOpOf (x : BitVec 3) : Option PlopOp :=
  match x.toNat with
  | 0 => some .and
  | 1 => some .or
  | 2 => some .xor
  | 3 => some .andn
  | 4 => some .not
  | _ => none

/-- The field value of each `Rnd` (R61, R64). -/
def rndCode : Rnd → BitVec 3
  | .rn => 0#3
  | .rz => 1#3
  | .rd => 2#3
  | .ru => 3#3
  | .ra => 4#3
  | .ro => 5#3
  | .rs => 6#3
  | .rdyn => 7#3
/-- The `Rnd` a field value names; every value not listed is none. -/
def rndOf (x : BitVec 3) : Option Rnd :=
  match x.toNat with
  | 0 => some .rn
  | 1 => some .rz
  | 2 => some .rd
  | 3 => some .ru
  | 4 => some .ra
  | 5 => some .ro
  | 6 => some .rs
  | 7 => some .rdyn
  | _ => none

/-- The field value of each `FmnOp` (R61, R64). -/
def fmnOpCode : FmnOp → BitVec 3
  | .min => 0#3
  | .max => 1#3
  | .minnum => 2#3
  | .maxnum => 3#3
/-- The `FmnOp` a field value names; every value not listed is none. -/
def fmnOpOf (x : BitVec 3) : Option FmnOp :=
  match x.toNat with
  | 0 => some .min
  | 1 => some .max
  | 2 => some .minnum
  | 3 => some .maxnum
  | _ => none

/-- The field value of each `FCond` (R61, R64). -/
def fCondCode : FCond → BitVec 3
  | .eq => 0#3
  | .ne => 1#3
  | .lt => 2#3
  | .le => 3#3
  | .gt => 4#3
  | .ge => 5#3
  | .unord => 6#3
  | .ord => 7#3
/-- The `FCond` a field value names; every value not listed is none. -/
def fCondOf (x : BitVec 3) : Option FCond :=
  match x.toNat with
  | 0 => some .eq
  | 1 => some .ne
  | 2 => some .lt
  | 3 => some .le
  | 4 => some .gt
  | 5 => some .ge
  | 6 => some .unord
  | 7 => some .ord
  | _ => none

/-- The field value of each `SfuOp` (R61, R64). -/
def sfuOpCode : SfuOp → BitVec 3
  | .rcp => 0#3
  | .rsq => 1#3
  | .sqrt => 2#3
  | .ex2 => 3#3
  | .lg2 => 4#3
  | .sin2pi => 5#3
  | .cos2pi => 6#3
  | .tanh => 7#3
/-- The `SfuOp` a field value names; every value not listed is none. -/
def sfuOpOf (x : BitVec 3) : Option SfuOp :=
  match x.toNat with
  | 0 => some .rcp
  | 1 => some .rsq
  | 2 => some .sqrt
  | 3 => some .ex2
  | 4 => some .lg2
  | 5 => some .sin2pi
  | 6 => some .cos2pi
  | 7 => some .tanh
  | _ => none

/-- The field value of each `DsfuOp` (R61, R64). -/
def dsfuOpCode : DsfuOp → BitVec 3
  | .rcp => 0#3
  | .rsq => 1#3
  | .sqrt => 2#3
/-- The `DsfuOp` a field value names; every value not listed is none. -/
def dsfuOpOf (x : BitVec 3) : Option DsfuOp :=
  match x.toNat with
  | 0 => some .rcp
  | 1 => some .rsq
  | 2 => some .sqrt
  | _ => none

/-- The field value of each `CvtOp` (R61, R64). -/
def cvtOpCode : CvtOp → BitVec 6
  | .f32Bf16 => 0#6
  | .f32F16 => 1#6
  | .bf16F32 => 2#6
  | .f16F32 => 3#6
  | .f32E4m3 => 4#6
  | .f32E5m2 => 5#6
  | .e4m3F32 => 6#6
  | .e5m2F32 => 7#6
  | .f32F4x => 8#6
  | .f4xF32 => 9#6
  | .f32S32 => 10#6
  | .f32N32 => 11#6
  | .s32F32 => 12#6
  | .n32F32 => 13#6
  | .f64F32 => 14#6
  | .f32F64 => 15#6
  | .f64S32 => 16#6
  | .s32F64 => 17#6
  | .xa48F32 => 18#6
  | .f32Xa48 => 19#6
  | .xa48F64 => 20#6
/-- The `CvtOp` a field value names; every value not listed is none. -/
def cvtOpOf (x : BitVec 6) : Option CvtOp :=
  match x.toNat with
  | 0 => some .f32Bf16
  | 1 => some .f32F16
  | 2 => some .bf16F32
  | 3 => some .f16F32
  | 4 => some .f32E4m3
  | 5 => some .f32E5m2
  | 6 => some .e4m3F32
  | 7 => some .e5m2F32
  | 8 => some .f32F4x
  | 9 => some .f4xF32
  | 10 => some .f32S32
  | 11 => some .f32N32
  | 12 => some .s32F32
  | 13 => some .n32F32
  | 14 => some .f64F32
  | 15 => some .f32F64
  | 16 => some .f64S32
  | 17 => some .s32F64
  | 18 => some .xa48F32
  | 19 => some .f32Xa48
  | 20 => some .xa48F64
  | _ => none

/-- The field value of each `ShflOp` (R61, R64). -/
def shflOpCode : ShflOp → BitVec 3
  | .idx => 0#3
  | .up => 1#3
  | .down => 2#3
  | .xor => 3#3
  | .bcast => 4#3
/-- The `ShflOp` a field value names; every value not listed is none. -/
def shflOpOf (x : BitVec 3) : Option ShflOp :=
  match x.toNat with
  | 0 => some .idx
  | 1 => some .up
  | 2 => some .down
  | 3 => some .xor
  | 4 => some .bcast
  | _ => none

/-- The field value of each `VoteOp` (R61, R64). -/
def voteOpCode : VoteOp → BitVec 3
  | .any => 0#3
  | .all => 1#3
  | .ballot => 2#3
  | .count => 3#3
/-- The `VoteOp` a field value names; every value not listed is none. -/
def voteOpOf (x : BitVec 3) : Option VoteOp :=
  match x.toNat with
  | 0 => some .any
  | 1 => some .all
  | 2 => some .ballot
  | 3 => some .count
  | _ => none

/-- The field value of each `RedKind` (R61, R64). -/
def redKindCode : RedKind → BitVec 3
  | .addB32 => 0#3
  | .addF32 => 1#3
  | .minS32 => 2#3
  | .maxS32 => 3#3
  | .minN32 => 4#3
  | .maxN32 => 5#3
  | .and => 6#3
  | .or => 7#3
/-- The `RedKind` a field value names; every value not listed is none. -/
def redKindOf (x : BitVec 3) : Option RedKind :=
  match x.toNat with
  | 0 => some .addB32
  | 1 => some .addF32
  | 2 => some .minS32
  | 3 => some .maxS32
  | 4 => some .minN32
  | 5 => some .maxN32
  | 6 => some .and
  | 7 => some .or
  | _ => none

/-- The field value of each `Size` (R61, R64). -/
def sizeCode : Size → BitVec 2
  | .b8 => 0#2
  | .b16 => 1#2
  | .b32 => 2#2
  | .b64 => 3#2
/-- The `Size` a field value names; every value not listed is none. -/
def sizeOf_ (x : BitVec 2) : Option Size :=
  match x.toNat with
  | 0 => some .b8
  | 1 => some .b16
  | 2 => some .b32
  | 3 => some .b64
  | _ => none

/-- The field value of each `LdgQ` (R61, R64). -/
def ldgQCode : LdgQ → BitVec 2
  | .normal => 0#2
  | .ef => 1#2
  | .retain => 2#2
  | .nol1 => 3#2
/-- The `LdgQ` a field value names; every value not listed is none. -/
def ldgQOf (x : BitVec 2) : Option LdgQ :=
  match x.toNat with
  | 0 => some .normal
  | 1 => some .ef
  | 2 => some .retain
  | 3 => some .nol1
  | _ => none

/-- The field value of each `LdsQ` (R61, R64). -/
def ldsQCode : LdsQ → BitVec 2
  | .sp => 0#2
  | .xfront => 1#2
  | .ab => 2#2
  | .cb => 3#2
/-- The `LdsQ` a field value names; every value not listed is none. -/
def ldsQOf (x : BitVec 2) : Option LdsQ :=
  match x.toNat with
  | 0 => some .sp
  | 1 => some .xfront
  | 2 => some .ab
  | 3 => some .cb
  | _ => none

/-- The field value of each `StsQ` (R61, R64). -/
def stsQCode : StsQ → BitVec 2
  | .sp => 0#2
  | .xremote => 1#2
  | .ab => 2#2
  | .cb => 3#2
/-- The `StsQ` a field value names; every value not listed is none. -/
def stsQOf (x : BitVec 2) : Option StsQ :=
  match x.toNat with
  | 0 => some .sp
  | 1 => some .xremote
  | 2 => some .ab
  | 3 => some .cb
  | _ => none

/-- The field value of each `Scope` (R61, R64). -/
def scopeCode : Scope → BitVec 3
  | .w => 0#3
  | .b => 1#3
  | .c => 2#3
  | .d => 3#3
  | .p => 4#3
/-- The `Scope` a field value names; every value not listed is none. -/
def scopeOf (x : BitVec 3) : Option Scope :=
  match x.toNat with
  | 0 => some .w
  | 1 => some .b
  | 2 => some .c
  | 3 => some .d
  | 4 => some .p
  | _ => none

/-- The field value of each `Aop` (R61, R64). -/
def aopCode : Aop → BitVec 4
  | .add => 0#4
  | .minS => 1#4
  | .maxS => 2#4
  | .minN => 3#4
  | .maxN => 4#4
  | .and => 5#4
  | .or => 6#4
  | .xor => 7#4
  | .exch => 8#4
  | .cas => 9#4
  | .fadd => 12#4
/-- The `Aop` a field value names; every value not listed is none. -/
def aopOf (x : BitVec 4) : Option Aop :=
  match x.toNat with
  | 0 => some .add
  | 1 => some .minS
  | 2 => some .maxS
  | 3 => some .minN
  | 4 => some .maxN
  | 5 => some .and
  | 6 => some .or
  | 7 => some .xor
  | 8 => some .exch
  | 9 => some .cas
  | 12 => some .fadd
  | _ => none

/-- The field value of each `Use` (R61, R64). -/
def useCode : Use → BitVec 3
  | .plain => 0#3
  | .unpaired => 1#3
  | .comm => 2#3
  | .nonord => 3#3
  | .quantum => 4#3
  | .spec => 5#3
/-- The `Use` a field value names; every value not listed is none. -/
def useOf (x : BitVec 3) : Option Use :=
  match x.toNat with
  | 0 => some .plain
  | 1 => some .unpaired
  | 2 => some .comm
  | 3 => some .nonord
  | 4 => some .quantum
  | 5 => some .spec
  | _ => none

/-- The field value of each `AtomTy` (R61, R64). -/
def atomTyCode : AtomTy → BitVec 2
  | .b32 => 0#2
  | .b64 => 1#2
  | .f32 => 2#2
/-- The `AtomTy` a field value names; every value not listed is none. -/
def atomTyOf (x : BitVec 2) : Option AtomTy :=
  match x.toNat with
  | 0 => some .b32
  | 1 => some .b64
  | 2 => some .f32
  | _ => none

/-- The field value of each `GaluOp` (R61, R64). -/
def galuOpCode : GaluOp → BitVec 3
  | .add => 0#3
  | .sub => 1#3
  | .and => 2#3
  | .or => 3#3
  | .xor => 4#3
  | .shl => 5#3
  | .shr => 6#3
  | .mul => 7#3
/-- The `GaluOp` a field value names; every value not listed is none. -/
def galuOpOf (x : BitVec 3) : Option GaluOp :=
  match x.toNat with
  | 0 => some .add
  | 1 => some .sub
  | 2 => some .and
  | 3 => some .or
  | 4 => some .xor
  | 5 => some .shl
  | 6 => some .shr
  | 7 => some .mul
  | _ => none

/-- The field value of each `BarxOp` (R61, R64). -/
def barxOpCode : BarxOp → BitVec 3
  | .init => 0#3
  | .arrive => 1#3
  | .arriveExpect => 2#3
  | .expect => 3#3
  | .test => 4#3
  | .wait => 5#3
/-- The `BarxOp` a field value names; every value not listed is none. -/
def barxOpOf (x : BitVec 3) : Option BarxOp :=
  match x.toNat with
  | 0 => some .init
  | 1 => some .arrive
  | 2 => some .arriveExpect
  | 3 => some .expect
  | 4 => some .test
  | 5 => some .wait
  | _ => none
/-! ### The fields of a word (R46, R52, R53) -/
/-- bit 31 -/
def fSet (w : Word) : BitVec 1 := w.extractLsb' 31 1
/-- bit 30, the switch marker -/
def fSw (w : Word) : Bool := w.getLsbD 30
/-- bits 29:24 -/
def fOp (w : Word) : BitVec 6 := w.extractLsb' 24 6
/-- m of LR, GR and GE, bits 23:21 -/
def fM (w : Word) : BitVec 3 := w.extractLsb' 21 3
/-- d of LR, GR and GE, bits 20:14 -/
def fD (w : Word) : Reg := w.extractLsb' 14 7
/-- a of LR, GR and GE, bits 13:7 -/
def fA (w : Word) : Reg := w.extractLsb' 7 7
/-- b of LR and GR, imm7 of GE, bits 6:0 -/
def fB (w : Word) : Reg := w.extractLsb' 0 7
/-- d or t of LI, LH, LM, LO, LA and GI, bits 23:17 -/
def fT (w : Word) : Reg := w.extractLsb' 17 7
/-- a of LI, LM, LO and LA, bits 16:10 -/
def fA10 (w : Word) : Reg := w.extractLsb' 10 7

/-- Reject unless the condition holds. -/
def need (c : Bool) (r : Reject) (k : Except Reject Instr) : Except Reject Instr := if c then k else .error r
/-- Reject a sub-field value that names nothing. -/
def sub {α : Type} (o : Option α) (k : α → Except Reject Instr) : Except Reject Instr :=
  match o with
  | some x => k x
  | none => .error .subcode
/-- A field that must be 0 (R5). -/
def zeroF {n : Nat} (x : BitVec n) (k : Except Reject Instr) : Except Reject Instr := need (x == 0#n) .reserved k
/-- A 7-bit field that carries a predicate: bits [6:3] are reserved (R55). -/
def predF (x : Reg) (k : PredNo → Except Reject Instr) : Except Reject Instr :=
  zeroF (x.extractLsb' 3 4) (k (x.extractLsb' 0 3))

/-- Format LR with the three operand fields as they stand (R52). -/
def lr3 (w : Word) (f : Bool → Reg → Reg → Reg → Instr) : Except Reject Instr :=
  .ok (f (fSw w) (fD w) (fA w) (fB w))

/-- The lane-set opcodes (R61). -/
def decodeLane (w : Word) : Except Reject Instr :=
  match (fOp w).toNat with
  | 0x01 => sub (satModeOf (fM w)) fun m => lr3 w fun s => .iadd s m
  | 0x02 => sub (satModeOf (fM w)) fun m => lr3 w fun s => .isub s m
  | 0x03 => sub (mulPartOf (fM w)) fun m => lr3 w fun s => .imul s m
  | 0x04 => sub (mulPartOf (fM w)) fun m => lr3 w fun s => .imad s m
  | 0x05 => sub (mnMxOf (fM w)) fun m => lr3 w fun s => .imnmx s m
  | 0x06 => sub (lopOpOf (fM w)) fun m => lr3 w fun s => .lop s m
  | 0x07 => sub (shfOpOf (fM w)) fun m => lr3 w fun s => .shf s m
  | 0x08 => sub (unaOpOf (fM w)) fun m => zeroF (fB w) (.ok (.iuna (fSw w) m (fD w) (fA w)))
  | 0x09 => need ((fM w).toNat ≤ 1) .subcode (.ok (.bfe (fSw w) (w.getLsbD 21) (fD w) (fA w) (fB w)))
  | 0x0A => need (fM w == 0#3) .subcode (lr3 w fun s => .bfi s)
  | 0x0B => sub (condOf (fM w)) fun c => predF (fD w) fun p => .ok (.iset (fSw w) c p (fA w) (fB w))
  | 0x0C => .ok (.sel (fSw w) (fM w) (fD w) (fA w) (fB w))
  | 0x0D => .ok (.lea (fSw w) (fM w) (fD w) (fA w) (fB w))
  | 0x0E => need ((fM w).toNat ≤ 1) .subcode (.ok (.iadd64 (fSw w) (w.getLsbD 21) (fD w) (fA w) (fB w)))
  | 0x0F => sub (divOpOf (fM w)) fun m => lr3 w fun s => .idiv s m
  | 0x10 => .ok (.iaddi (fSw w) (fT w) (fA10 w) (w.extractLsb' 0 10))
  | 0x11 => .ok (.andi (fSw w) (fT w) (fA10 w) (w.extractLsb' 0 10))
  | 0x12 => .ok (.ori (fSw w) (fT w) (fA10 w) (w.extractLsb' 0 10))
  | 0x13 => .ok (.xori (fSw w) (fT w) (fA10 w) (w.extractLsb' 0 10))
  | 0x14 => zeroF (w.extractLsb' 5 5) (.ok (.shli (fSw w) (fT w) (fA10 w) (w.extractLsb' 0 5)))
  | 0x15 => zeroF (w.extractLsb' 5 5) (.ok (.shri (fSw w) (fT w) (fA10 w) (w.extractLsb' 0 5)))
  | 0x16 => zeroF (w.extractLsb' 16 1) (.ok (.movl (fSw w) (fT w) (w.extractLsb' 0 16)))
  | 0x17 => zeroF (w.extractLsb' 16 1) (.ok (.movh (fSw w) (fT w) (w.extractLsb' 0 16)))
  | 0x18 => sub (condOf (fM w)) fun c => zeroF (w.extractLsb' 20 1)
      (.ok (.iseti (fSw w) c (w.extractLsb' 17 3) (fA10 w) (w.extractLsb' 0 10)))
  | 0x19 => zeroF (fM w) (zeroF (fB w) (.ok (.mov (fSw w) (fD w) (fA w))))
  | 0x1A => sub (plopOpOf (fM w)) fun m => predF (fD w) fun d => predF (fA w) fun a => predF (fB w) fun b =>
      need (m != .not || b == 0#3) .reserved (.ok (.plop (fSw w) m d a b))
  | 0x20 => sub (rndOf (fM w)) fun m => lr3 w fun s => .fadd s m
  | 0x21 => sub (rndOf (fM w)) fun m => lr3 w fun s => .fsub s m
  | 0x22 => sub (rndOf (fM w)) fun m => lr3 w fun s => .fmul s m
  | 0x23 => sub (rndOf (fM w)) fun m => lr3 w fun s => .ffma s m
  | 0x24 => sub (fmnOpOf (fM w)) fun m => lr3 w fun s => .fmnmx s m
  | 0x25 => sub (fCondOf (fM w)) fun c => predF (fD w) fun p => .ok (.fset (fSw w) c p (fA w) (fB w))
  | 0x26 => sub (rndOf (fM w)) fun m => lr3 w fun s => .dadd s m
  | 0x27 => sub (rndOf (fM w)) fun m => lr3 w fun s => .dmul s m
  | 0x28 => sub (rndOf (fM w)) fun m => lr3 w fun s => .dfma s m
  | 0x29 => sub (rndOf (fM w)) fun m => lr3 w fun s => .bfma2 s m
  | 0x2A => sub (rndOf (fM w)) fun m => lr3 w fun s => .hfma2 s m
  | 0x2B => sub (rndOf (fM w)) fun m => lr3 w fun s => .fdot2 s m
  | 0x2C => sub (sfuOpOf (fM w)) fun f => zeroF (w.extractLsb' 3 4) (sub (rndOf (w.extractLsb' 0 3)) fun m =>
      .ok (.sfu (fSw w) f m (fD w) (fA w)))
  | 0x2D => sub (dsfuOpOf (fM w)) fun f => zeroF (w.extractLsb' 3 4) (sub (rndOf (w.extractLsb' 0 3)) fun m =>
      .ok (.dsfu (fSw w) f m (fD w) (fA w)))
  | 0x2E => sub (rndOf (fM w)) fun m => sub (cvtOpOf (w.extractLsb' 0 6)) fun c =>
      .ok (.cvt (fSw w) m c (w.getLsbD 6) (fD w) (fA w))
  | 0x2F => need (fM w == 0#3) .subcode (lr3 w fun s => .prmt s)
  | 0x30 => sub (fCondOf (fM w)) fun c => predF (fD w) fun p => .ok (.dset (fSw w) c p (fA w) (fB w))
  | 0x31 => need ((fM w).toNat ≤ 1) .subcode (zeroF (fB w) (.ok (.fcls (fSw w) (w.getLsbD 21) (fD w) (fA w))))
  | 0x34 => sub (shflOpOf (fM w)) fun m => need (m != .bcast || fB w == 0#7) .reserved (lr3 w fun s => .shfl s m)
  | 0x35 => sub (voteOpOf (fM w)) fun m => zeroF (fB w) (.ok (.vote (fSw w) m (fD w) (fA w)))
  | 0x36 => need (fM w == 0#3) .subcode (predF (fB w) fun p => .ok (.matchv (fSw w) (fD w) (fA w) p))
  | 0x37 => sub (redKindOf (fM w)) fun k => zeroF (fB w) (.ok (.red (fSw w) k (fD w) (fA w)))
  | 0x38 => sub (sizeOf_ (w.extractLsb' 8 2)) fun sz => sub (ldgQOf (w.extractLsb' 6 2)) fun q =>
      .ok (.ldg (fSw w) sz q (fT w) (fA10 w) (w.extractLsb' 0 6))
  | 0x39 => sub (sizeOf_ (w.extractLsb' 8 2)) fun sz =>
      need (w.extractLsb' 6 2 == 0#2 || w.extractLsb' 6 2 == 3#2) .subcode
        (.ok (.stg (fSw w) sz (w.getLsbD 6) (fT w) (fA10 w) (w.extractLsb' 0 6)))
  | 0x3A => sub (sizeOf_ (w.extractLsb' 8 2)) fun sz => sub (ldsQOf (w.extractLsb' 6 2)) fun q =>
      .ok (.lds (fSw w) sz q (fT w) (fA10 w) (w.extractLsb' 0 6))
  | 0x3B => sub (sizeOf_ (w.extractLsb' 8 2)) fun sz => sub (stsQOf (w.extractLsb' 6 2)) fun q =>
      .ok (.sts (fSw w) sz q (fT w) (fA10 w) (w.extractLsb' 0 6))
  | 0x3C => sub (scopeOf (w.extractLsb' 6 3)) fun sc =>
      .ok (.lda (fSw w) (w.getLsbD 9) sc (w.getLsbD 5) (fT w) (fA10 w) (w.extractLsb' 0 5))
  | 0x3D => sub (scopeOf (w.extractLsb' 6 3)) fun sc =>
      .ok (.stl (fSw w) (w.getLsbD 9) sc (w.getLsbD 5) (fT w) (fA10 w) (w.extractLsb' 0 5))
  | 0x3E => sub (aopOf (w.extractLsb' 3 4)) fun aop => sub (useOf (w.extractLsb' 7 3)) fun u =>
      sub (atomTyOf (w.extractLsb' 0 2)) fun ty => .ok (.atom (fSw w) aop u ty (w.getLsbD 2) (fT w) (fA10 w))
  | 0x3F => sub (sizeOf_ (w.extractLsb' 8 2)) fun sz =>
      need (w.getLsbD 7 == false) .subcode
        (.ok (if w.getLsbD 6 then .ldrUse (fSw w) sz (w.getLsbD 5) (w.extractLsb' 0 5) (fT w) (fA10 w)
              else .ldrRo (fSw w) sz (fT w) (fA10 w) (w.extractLsb' 0 6)))
  | _ => .error .opcode

/-- A GB word: negate, guard, displacement (R53). -/
def gb (w : Word) (f : Bool → Bool → PredNo → BitVec 20 → Instr) : Except Reject Instr :=
  .ok (f (fSw w) (w.getLsbD 23) (w.extractLsb' 20 3) (w.extractLsb' 0 20))
/-- A GR word that uses only a. -/
def grA (w : Word) (f : Bool → Reg → Instr) : Except Reject Instr :=
  zeroF (fM w) (zeroF (fD w) (zeroF (fB w) (.ok (f (fSw w) (fA w)))))
/-- A GR word all of whose fields are reserved. -/
def gr0 (w : Word) (f : Bool → Instr) : Except Reject Instr := zeroF (w.extractLsb' 0 24) (.ok (f (fSw w)))
/-- A GR word that uses d and a. -/
def grDA (w : Word) (f : Bool → Reg → Reg → Instr) : Except Reject Instr :=
  zeroF (fM w) (zeroF (fB w) (.ok (f (fSw w) (fD w) (fA w))))

/-- SETC by its index: the six writable registers have rows of their own (R209). -/
def setcOf (s : Bool) (d : Reg) (idx : BitVec 17) : Instr :=
  match idx.toNat with
  | 0x09 => .setcRole s d
  | 0x0A => .setcFpflags s d
  | 0x20 => .setcRingbase s d
  | 0x21 => .setcRingsize s d
  | 0x22 => .setcQuota s d
  | 0xA1 => .setcFrm s d
  | _ => .setc s d idx

/-- The group-set opcodes (R64). -/
def decodeGroup (w : Word) : Except Reject Instr :=
  match (fOp w).toNat with
  | 0x00 => gr0 w .nop
  | 0x01 => gb w .bra
  | 0x02 => gb w .bray
  | 0x03 => gb w .call
  | 0x04 => grA w .join
  | 0x05 => grA w .calli
  | 0x06 => grA w .brai
  | 0x07 => grA w .ret
  | 0x08 => gr0 w .exit
  | 0x09 => grA w .refill
  | 0x0A => gr0 w .region
  | 0x0B => zeroF (fT w) (.ok (.trap (fSw w) (w.extractLsb' 0 17)))
  | 0x0C => zeroF (fT w) (.ok (.bpt (fSw w) (w.extractLsb' 0 17)))
  | 0x0D => sub (condOf (fM w)) fun c => zeroF (fD w) (.ok (.waitm (fSw w) c (fA w) (fB w)))
  | 0x10 => need ((fM w).toNat ≤ 1) .subcode (zeroF (w.extractLsb' 0 21) (.ok (.bar (fSw w) (w.getLsbD 21))))
  | 0x11 => sub (barxOpOf (fM w)) fun op =>
      need (op == .test || op == .wait || fD w == 0#7) .reserved
        (need (op != .arrive || fB w == 0#7) .reserved (.ok (.barx (fSw w) op (fD w) (fA w) (fB w))))
  | 0x12 => sub (scopeOf (fM w)) fun sc => zeroF (fD w) (zeroF (fA w) (.ok (.fence (fSw w) sc (fB w))))
  | 0x13 => sub (scopeOf (fM w)) fun sc => zeroF (w.extractLsb' 0 21) (.ok (.drain (fSw w) sc))
  | 0x14 => gr0 w .roinv
  | 0x15 => grDA w .gmov
  | 0x16 => sub (galuOpOf (fM w)) fun op => .ok (.galu (fSw w) op (fD w) (fA w) (fB w))
  | 0x17 => sub (galuOpOf (w.extractLsb' 14 3)) fun op => .ok (.galui (fSw w) op (fT w) (w.extractLsb' 0 14))
  | 0x18 => .ok (.gmovl (fSw w) (fT w) (w.extractLsb' 0 17))
  | 0x19 => .ok (.gmovh (fSw w) (fT w) (w.extractLsb' 0 17))
  | 0x1A => sub (redKindOf (fM w)) fun k => zeroF (fB w) (.ok (.gred (fSw w) k (fD w) (fA w)))
  | 0x1B => sub (condOf (fM w)) fun c => predF (fD w) fun p => .ok (.gset (fSw w) c p (fA w) (fB w))
  | 0x1C => .ok (.getc (fSw w) (fT w) (w.extractLsb' 0 17))
  | 0x1D => .ok (setcOf (fSw w) (fT w) (w.extractLsb' 0 17))
  | 0x1E => zeroF (fM w) (zeroF (fA w) (zeroF (fB w) (.ok (.clk (fSw w) (fD w)))))
  | 0x1F => zeroF (fM w) (.ok (.free (fSw w) (fD w) (fA w) (fB w)))
  | 0x20 => zeroF (w.extractLsb' 7 17) (.ok (.reggive (fSw w) (fB w)))
  | 0x21 => zeroF (w.extractLsb' 7 17) (.ok (.regclaim (fSw w) (fB w)))
  | 0x28 => zeroF (fA w) (zeroF (fB w) (.ok (.cpwp (fSw w) (fM w) (fD w))))
  | 0x29 => zeroF (fB w) (.ok (.cpwait (fSw w) (fM w) (fD w) (fA w)))
  | 0x2A => grDA w .mxpost
  | 0x2B => grDA w .mxstat
  | 0x2C => grDA w .tkpost
  | 0x2D => need ((fM w).toNat ≤ 1) .subcode (zeroF (fD w) (.ok (.tksig (fSw w) (w.getLsbD 21) (fA w) (fB w))))
  | 0x2E => grDA w .tkjoin
  | 0x2F => zeroF (fA w) (zeroF (fB w) (.ok (.cpstat (fSw w) (fM w) (fD w))))
  | 0x30 => zeroF (fM w) (.ok (.wdq (fSw w) (fD w) (fA w) (fB w)))
  | 0x31 => need ((fM w).toNat ≤ 1) .subcode (zeroF (fB w) (.ok (.tkread (fSw w) (w.getLsbD 21) (fD w) (fA w))))
  | 0x32 => grDA w .cxpost
  | 0x33 => grDA w .cxstat
  | 0x34 => zeroF (fD w) (grDA w fun s _ a => .cxreset s a)
  | _ => .error .opcode

/-- The decoder, total on every word; bit 31 selects the set (R46). -/
def decodeWord (w : Word) : Except Reject Instr :=
  if fSet w == 0#1 then decodeLane w else decodeGroup w

/-- What a fetched word executes as: the instruction, or the step ILLEGAL (R68). -/
def decodeOrIllegal (w : Word) : Instr :=
  match decodeWord w with
  | .ok i => i
  | .error _ => .illegal w

/-- The host's probe: every instruction is one 32-bit word (R46), little-endian, so the bits are those of the word. -/
def decodeTableWord (nbits w : Nat) : Option Instr :=
  if nbits ≤ 32 then
    match decodeWord (BitVec.ofNat 32 w) with
    | .ok i => some i
    | .error _ => none
  else none

/-! ### The encoder -/
/-- One bit. -/
def bit1 (b : Bool) : BitVec 1 := BitVec.ofBool b
/-- A register-format word, LR (set 0), GR or GE (set 1). -/
def encR (set : BitVec 1) (s : Bool) (op : BitVec 6) (m : BitVec 3) (d a b : Reg) : Word :=
  set ++ bit1 s ++ op ++ m ++ d ++ a ++ b
/-- An immediate-format word with d, a and ten low bits: LI, LM, LO, LA. -/
def encI (s : Bool) (op : BitVec 6) (d a : Reg) (x : BitVec 10) : Word :=
  (0#1 ++ bit1 s ++ op ++ d ++ a ++ x : BitVec 32)
/-- A word with d and seventeen low bits: LH and GI. -/
def encG (set : BitVec 1) (s : Bool) (op : BitVec 6) (d : Reg) (x : BitVec 17) : Word :=
  (set ++ bit1 s ++ op ++ d ++ x : BitVec 32)
/-- A GB word. -/
def encB (s : Bool) (op : BitVec 6) (neg : Bool) (p : PredNo) (x : BitVec 20) : Word :=
  (1#1 ++ bit1 s ++ op ++ bit1 neg ++ p ++ x : BitVec 32)
/-- A predicate in a 7-bit field. -/
def p7 (p : PredNo) : Reg := (0#4 ++ p : BitVec 7)

/-- The word of an instruction (R52, R53, R61, R64); 0, which is no instruction, for a step that has no encoding. -/
def encode : Instr → Word
  | .iadd s m d a b => encR 0 s 0x01 (satModeCode m) d a b
  | .isub s m d a b => encR 0 s 0x02 (satModeCode m) d a b
  | .imul s m d a b => encR 0 s 0x03 (mulPartCode m) d a b
  | .imad s m d a b => encR 0 s 0x04 (mulPartCode m) d a b
  | .imnmx s m d a b => encR 0 s 0x05 (mnMxCode m) d a b
  | .lop s m d a b => encR 0 s 0x06 (lopOpCode m) d a b
  | .shf s m d a b => encR 0 s 0x07 (shfOpCode m) d a b
  | .iuna s m d a => encR 0 s 0x08 (unaOpCode m) d a 0
  | .bfe s g d a b => encR 0 s 0x09 (0#2 ++ bit1 g) d a b
  | .bfi s d a b => encR 0 s 0x0A 0 d a b
  | .iset s c p a b => encR 0 s 0x0B (condCode c) (p7 p) a b
  | .sel s p d a b => encR 0 s 0x0C p d a b
  | .lea s sh d a b => encR 0 s 0x0D sh d a b
  | .iadd64 s g d a b => encR 0 s 0x0E (0#2 ++ bit1 g) d a b
  | .idiv s m d a b => encR 0 s 0x0F (divOpCode m) d a b
  | .iaddi s d a x => encI s 0x10 d a x
  | .andi s d a x => encI s 0x11 d a x
  | .ori s d a x => encI s 0x12 d a x
  | .xori s d a x => encI s 0x13 d a x
  | .shli s d a n => encI s 0x14 d a (0#5 ++ n)
  | .shri s d a n => encI s 0x15 d a (0#5 ++ n)
  | .movl s d x => encG 0 s 0x16 d (0#1 ++ x)
  | .movh s d x => encG 0 s 0x17 d (0#1 ++ x)
  | .iseti s c p a x => (0#1 ++ bit1 s ++ 0x18#6 ++ condCode c ++ 0#1 ++ p ++ a ++ x : BitVec 32)
  | .mov s d a => encR 0 s 0x19 0 d a 0
  | .plop s m d a b => encR 0 s 0x1A (plopOpCode m) (p7 d) (p7 a) (p7 b)
  | .fadd s m d a b => encR 0 s 0x20 (rndCode m) d a b
  | .fsub s m d a b => encR 0 s 0x21 (rndCode m) d a b
  | .fmul s m d a b => encR 0 s 0x22 (rndCode m) d a b
  | .ffma s m d a b => encR 0 s 0x23 (rndCode m) d a b
  | .fmnmx s m d a b => encR 0 s 0x24 (fmnOpCode m) d a b
  | .fset s c p a b => encR 0 s 0x25 (fCondCode c) (p7 p) a b
  | .dadd s m d a b => encR 0 s 0x26 (rndCode m) d a b
  | .dmul s m d a b => encR 0 s 0x27 (rndCode m) d a b
  | .dfma s m d a b => encR 0 s 0x28 (rndCode m) d a b
  | .bfma2 s m d a b => encR 0 s 0x29 (rndCode m) d a b
  | .hfma2 s m d a b => encR 0 s 0x2A (rndCode m) d a b
  | .fdot2 s m d a b => encR 0 s 0x2B (rndCode m) d a b
  | .sfu s f m d a => encR 0 s 0x2C (sfuOpCode f) d a (0#4 ++ rndCode m)
  | .dsfu s f m d a => encR 0 s 0x2D (dsfuOpCode f) d a (0#4 ++ rndCode m)
  | .cvt s m c sat d a => encR 0 s 0x2E (rndCode m) d a (bit1 sat ++ cvtOpCode c)
  | .prmt s d a b => encR 0 s 0x2F 0 d a b
  | .dset s c p a b => encR 0 s 0x30 (fCondCode c) (p7 p) a b
  | .fcls s g d a => encR 0 s 0x31 (0#2 ++ bit1 g) d a 0
  | .shfl s m d a b => encR 0 s 0x34 (shflOpCode m) d a b
  | .vote s m d a => encR 0 s 0x35 (voteOpCode m) d a 0
  | .matchv s d a p => encR 0 s 0x36 0 d a (p7 p)
  | .red s k d a => encR 0 s 0x37 (redKindCode k) d a 0
  | .ldg s sz q t a o => encI s 0x38 t a (sizeCode sz ++ ldgQCode q ++ o)
  | .stg s sz nt t a o => encI s 0x39 t a (sizeCode sz ++ bit1 nt ++ bit1 nt ++ o)
  | .lds s sz q t a o => encI s 0x3A t a (sizeCode sz ++ ldsQCode q ++ o)
  | .sts s sz q t a o => encI s 0x3B t a (sizeCode sz ++ stsQCode q ++ o)
  | .lda s z sc sp t a o => encI s 0x3C t a (bit1 z ++ scopeCode sc ++ bit1 sp ++ o)
  | .stl s z sc sp t a o => encI s 0x3D t a (bit1 z ++ scopeCode sc ++ bit1 sp ++ o)
  | .atom s aop u ty sp t a => encI s 0x3E t a (useCode u ++ aopCode aop ++ bit1 sp ++ atomTyCode ty)
  | .ldrRo s sz t a o => encI s 0x3F t a (sizeCode sz ++ 0#2 ++ o)
  | .ldrUse s sz dz n t a => encI s 0x3F t a (sizeCode sz ++ 1#2 ++ bit1 dz ++ n)
  | .nop s => encR 1 s 0x00 0 0 0 0
  | .bra s n p x => encB s 0x01 n p x
  | .bray s n p x => encB s 0x02 n p x
  | .call s n p x => encB s 0x03 n p x
  | .join s a => encR 1 s 0x04 0 0 a 0
  | .calli s a => encR 1 s 0x05 0 0 a 0
  | .brai s a => encR 1 s 0x06 0 0 a 0
  | .ret s a => encR 1 s 0x07 0 0 a 0
  | .exit s => encR 1 s 0x08 0 0 0 0
  | .refill s a => encR 1 s 0x09 0 0 a 0
  | .region s => encR 1 s 0x0A 0 0 0 0
  | .trap s c => encG 1 s 0x0B 0 c
  | .bpt s c => encG 1 s 0x0C 0 c
  | .waitm s c a b => encR 1 s 0x0D (condCode c) 0 a b
  | .bar s c => encR 1 s 0x10 (0#2 ++ bit1 c) 0 0 0
  | .barx s op d a b => encR 1 s 0x11 (barxOpCode op) d a b
  | .fence s sc x => encR 1 s 0x12 (scopeCode sc) 0 0 x
  | .drain s sc => encR 1 s 0x13 (scopeCode sc) 0 0 0
  | .roinv s => encR 1 s 0x14 0 0 0 0
  | .gmov s d a => encR 1 s 0x15 0 d a 0
  | .galu s op d a b => encR 1 s 0x16 (galuOpCode op) d a b
  | .galui s op d x => encG 1 s 0x17 d (galuOpCode op ++ x)
  | .gmovl s d x => encG 1 s 0x18 d x
  | .gmovh s d x => encG 1 s 0x19 d x
  | .gred s k d a => encR 1 s 0x1A (redKindCode k) d a 0
  | .gset s c p a b => encR 1 s 0x1B (condCode c) (p7 p) a b
  | .getc s d x => encG 1 s 0x1C d x
  | .setc s d x => encG 1 s 0x1D d x
  | .setcRole s d => encG 1 s 0x1D d 0x09
  | .setcFpflags s d => encG 1 s 0x1D d 0x0A
  | .setcRingbase s d => encG 1 s 0x1D d 0x20
  | .setcRingsize s d => encG 1 s 0x1D d 0x21
  | .setcQuota s d => encG 1 s 0x1D d 0x22
  | .setcFrm s d => encG 1 s 0x1D d 0xA1
  | .clk s d => encR 1 s 0x1E 0 d 0 0
  | .free s d a b => encR 1 s 0x1F 0 d a b
  | .reggive s n => encR 1 s 0x20 0 0 0 n
  | .regclaim s n => encR 1 s 0x21 0 0 0 n
  | .cpwp s ch d => encR 1 s 0x28 ch d 0 0
  | .cpwait s ch d a => encR 1 s 0x29 ch d a 0
  | .mxpost s d a => encR 1 s 0x2A 0 d a 0
  | .mxstat s d a => encR 1 s 0x2B 0 d a 0
  | .tkpost s d a => encR 1 s 0x2C 0 d a 0
  | .tksig s g a b => encR 1 s 0x2D (0#2 ++ bit1 g) 0 a b
  | .tkjoin s d a => encR 1 s 0x2E 0 d a 0
  | .cpstat s ch d => encR 1 s 0x2F ch d 0 0
  | .wdq s d a b => encR 1 s 0x30 0 d a b
  | .tkread s g d a => encR 1 s 0x31 (0#2 ++ bit1 g) d a 0
  | .cxpost s d a => encR 1 s 0x32 0 d a 0
  | .cxstat s d a => encR 1 s 0x33 0 d a 0
  | .cxreset s a => encR 1 s 0x34 0 0 a 0
  | .illegal w => w
  | .outstandingResultReturn _ _ _ | .backBankArrival _ | .barrierCompletion _ _ | .exchangeStoreArrival _
  | .waitmReadAgain _ _ | .refillAnswer _ | .performStore _ _ | .evict _ _ | .arrive _ | .drop _ _ _ | .llcFill _ _
  | .faultRecordPost | .resume _ | .handler _ | .taskDrop _ | .kill _ | .preempt _ _ _ | .preemptTurnTimeout _
  | .discard _ | .restore _ _ | .dstall _ | .watchdog _ | .blockDispatch _ _ | .waveStart _ | .poolEntryFree _
  | .mxEntryFree _ | .wdQueueRoom | .copyCommandStart _ _ | .copyDelivery _ _ | .admission _ _ | .reload _
  | .passGrant _ | .passWrite _ | .governorWindow _ | .wdQuery | .leaseExpiry _ | .arrivalLog _
  | .completionSignal _ _ _ | .collectiveAdmission _ _ | .packet _ _ _ _ | .sendPermit _ _ | .stepTimeout _ _
  | .collectiveCompletion _ _ | .launch _ _ _ | .complete _ | .flush _ _ _ _ | .flushdone | .memwrite _ _ _
  | .memread _ _ _ | .attest _ _ | .stats _ | .jalliaOtherKind _ _ | .ualinkRequest _ _ | .ualinkTimeout _
  | .eccError _ _ _ | .timetableWrite _ _ _ _ | .budgetSet _ _ | .counterAssign _ _ _ | .groupConfigure _ _ _
  | .podWindowWrite _ _ | .keyLoad _ _ | .thermalTrip | .powerLoss | .bringUp _ | .atomicPerformAtHome _
  | .isolationClear _ | .watchdogReduction _ _ | .wayPartitionMaskSet _ _ | .budgetCeilingChange _ _ => 0

/-- An instruction that words encode: a step has none, and `illegal` stands for words that encode nothing. -/
def hasWord : Instr → Bool
  | .illegal _ => false
  | .outstandingResultReturn _ _ _ | .backBankArrival _ | .barrierCompletion _ _ | .exchangeStoreArrival _
  | .waitmReadAgain _ _ | .refillAnswer _ | .performStore _ _ | .evict _ _ | .arrive _ | .drop _ _ _ | .llcFill _ _
  | .faultRecordPost | .resume _ | .handler _ | .taskDrop _ | .kill _ | .preempt _ _ _ | .preemptTurnTimeout _
  | .discard _ | .restore _ _ | .dstall _ | .watchdog _ | .blockDispatch _ _ | .waveStart _ | .poolEntryFree _
  | .mxEntryFree _ | .wdQueueRoom | .copyCommandStart _ _ | .copyDelivery _ _ | .admission _ _ | .reload _
  | .passGrant _ | .passWrite _ | .governorWindow _ | .wdQuery | .leaseExpiry _ | .arrivalLog _
  | .completionSignal _ _ _ | .collectiveAdmission _ _ | .packet _ _ _ _ | .sendPermit _ _ | .stepTimeout _ _
  | .collectiveCompletion _ _ | .launch _ _ _ | .complete _ | .flush _ _ _ _ | .flushdone | .memwrite _ _ _
  | .memread _ _ _ | .attest _ _ | .stats _ | .jalliaOtherKind _ _ | .ualinkRequest _ _ | .ualinkTimeout _
  | .eccError _ _ _ | .timetableWrite _ _ _ _ | .budgetSet _ _ | .counterAssign _ _ _ | .groupConfigure _ _ _
  | .podWindowWrite _ _ | .keyLoad _ _ | .thermalTrip | .powerLoss | .bringUp _ | .atomicPerformAtHome _
  | .isolationClear _ | .watchdogReduction _ _ | .wayPartitionMaskSet _ _ | .budgetCeilingChange _ _ => false
  | _ => true

end Sys2Proof
end

