-- ==== Sys2Proof/Machine/State.lean ====
section
/-! DEFINITION. The state of the machine as plain data: everything the spec gives the package (INVENTORY.md, State),
the reasons a step can stop, and the state after reset. -/
namespace Sys2Proof.Machine

/-- Why the machine stops. No instruction of the spec stops it: the spec's own faults are taken, as R240 to R243 say. -/
inductive Fault where
  /-- A host access names a physical address beyond the 52-bit space (R362). Raised by MEMWRITE and MEMREAD; safe. -/
  | beyondPhysical (pa : Nat)
deriving DecidableEq, Repr

/-- Why the machine has no meaning for a step. -/
inductive Refusal where
  /-- The instruction has no meaning yet. Raised by an arm of exec; safe. -/
  | notModelled (mnemonic : String)
deriving DecidableEq, Repr

/-! ### Lanes and warps -/

/-- The five lane states of R101. -/
inductive LaneSt where | active | parkedFault | waitingJoin | vacant | serialWaiting
deriving DecidableEq, Repr

/-- One lane (R101, R250). -/
structure Lane where
  pc : DWord
  depth : BitVec 6
  yld : Bool
  region : DWord
  regionRetired : DWord
  st : LaneSt
  /-- p0 to p6 -/
  preds : BitVec 7
  joinMask : Word
  handler : Bool
  entryDepth : BitVec 6
  isTask : Bool
  taskId : Word
  joinEn : Bool
  joinCtr : BitVec 11
deriving DecidableEq, Repr

/-- Where a register or predicate write lands. -/
inductive Dest where
  | lane (r l : Nat)
  | ply (r p : Nat)
  | warp (r : Nat)
  | pred (p l : Nat)
deriving DecidableEq, Repr

/-- One 32-bit register write, or one predicate write (nonzero is true). -/
structure RegWrite where
  dest : Dest
  val : Word
deriving DecidableEq, Repr

/-- How an instruction ends once its result is in place: whether it ends the region of its lanes (R197, R244), whether
its issue counts (R116), and the predicate writes that go with the result (R175). -/
structure Ending where
  commits : Bool
  counts : Bool
  preds : List RegWrite
deriving DecidableEq, Repr

/-- What the home needs to know of the page an access went through (R369, R371). -/
structure PageAttr where
  key : Nat
  way : Nat
  pol : Nat
deriving DecidableEq, Repr

/-- A translated access of one lane (R179, R362). -/
structure LaneAcc where
  lane : Nat
  /-- virtual address, or the offset in a local space -/
  va : Nat
  pa : Nat
  attr : PageAttr
  /-- the peer that holds a remote page (R372) -/
  peer : Option Nat
  /-- a discarded page, which reads as zeros (R368) -/
  zero : Bool
deriving DecidableEq, Repr

/-- The local spaces (R179, R287). -/
inductive LSpace where | sp | ab | wb | cb | xfront
deriving DecidableEq, Repr

/-- Which path a load reads through (R184, R187, R188, R220). -/
inductive LoadKind where
  | normal
  | nol1
  | use (count : Nat) (discard : Bool)
  | ro
  | acq (sc : Scope)
  | loc (space : LSpace)
  | locAcq (sc : Scope)
deriving DecidableEq, Repr

/-- A load whose bytes may still be taken (R219 Load). -/
structure LoadSrc where
  kind : LoadKind
  accs : List LaneAcc
  size : Nat
deriving DecidableEq, Repr

/-- A barrier-object test that a result waits on (R202): local object or global, address, parity awaited. -/
structure ObjWait where
  loc : Bool
  addr : Nat
  parity : Bool
deriving DecidableEq, Repr

/-- An outstanding result (R49). -/
structure Out where
  id : Nat
  /-- lanes of the issuing bundle -/
  mask : Word
  /-- bound for a ply, warp or wider register: every marker of the warp waits for it (R48) -/
  wide : Bool
  /-- destination code and whether it is a pair -/
  dest : Reg
  pair : Bool
  writes : List RegWrite
  /-- per-lane values of an agreement write that is compared at the return (R123) -/
  vals : List (Nat × DWord)
  agree : Bool
  /-- FPFLAGS raised at the return (R75) -/
  flags : BitVec 5
  load : Option LoadSrc
  obj : Option ObjWait
  /-- an atomic whose return has not come yet (R227) -/
  waitAtom : Bool
  /-- a queued operation of the warp must perform first -/
  waitOp : Bool
  /-- UALink request to this peer (R382) -/
  peer : Option Nat
  /-- the address of the load or atomic, where a lane whose request times out is parked (R102, R183) -/
  pc : DWord
  /-- a read has already taken the new value (R50) -/
  seen : Bool
  /-- lanes that have issued a region boundary since: a pre-emption lets it return for them (R248) -/
  kept : Word
  /-- how the instruction ends when the bundle waits for the return; `counts` says that the issue has counted or will
  (R116) -/
  fin : Ending
deriving DecidableEq, Repr

/-- One byte of a write on its way (R218). -/
structure PWrite where
  pa : Nat
  val : Byte
  wid : Nat
  attr : PageAttr
  peer : Option Nat
deriving DecidableEq, Repr

/-- A byte written to a local space of a block (R185). -/
structure LWrite where
  space : LSpace
  off : Nat
  val : Byte
deriving DecidableEq, Repr

/-- A release that has not completed (R223): not begun, or waiting for writes in flight to arrive. -/
inductive Gate where
  | begin (sc : Scope)
  | wait (sc : Scope) (fids : List Nat)
deriving DecidableEq, Repr

/-- An issued memory operation that has not performed (the issue stream of R217). -/
structure MemOp where
  id : Nat
  /-- the write id of its bytes, in the order of issue over the package -/
  wid : Nat
  /-- every later operation of the warp waits for it: FENCE and DRAIN (R204) -/
  fence : Bool
  /-- gathers the warp's non-temporal stores first: DRAIN (R229) -/
  drain : Bool
  gate : Option Gate
  acq : Option Scope
  /-- bytes for the store pool, or for the homes when `nt` -/
  ws : List PWrite
  nt : Bool
  lws : List LWrite
  /-- the release whose store this is: scope and write id (R225) -/
  rel : Option (Scope × Nat)
  /-- the outstanding load that performs here -/
  load : Option Nat
  roinv : Bool
  /-- this operation is a local one (R233) -/
  isLocal : Bool
deriving DecidableEq, Repr

/-- Why a group of lanes is not eligible although active (R104, R123). -/
inductive ParkWhy where
  | bar (cluster : Bool)
  | waitm (loc : Bool) (acc : LaneAcc) (c : Cond) (v : Word)
  | cpwait (ch : Nat) (target : Word) (d : Reg)
  | tkjoin (ctr : Nat) (d : Reg)
  | regclaim (n : Nat)
  | mxEntry (card : List Word) (addr : DWord) (d : Reg)
  | poolEntry (rec : List Word) (d : Reg)
  | wdRoom (desc off : Nat) (comp : Option (Word × Word))
  | bank (id : Nat)
  | compare (id : Nat)
deriving DecidableEq, Repr

/-- A parked group: the lanes of one bundle at one instruction. -/
structure Park where
  mask : Word
  pc : DWord
  why : ParkWhy
deriving DecidableEq, Repr

/-- A pending REFILL request (R112, R196). -/
structure Refill where
  entry : DWord
  cap : Nat
  depth : BitVec 6
  order : Nat
deriving DecidableEq, Repr

/-- One warp or wave (R90, R95, R314). -/
structure Warp where
  bk : Nat
  idx : Nat
  isWave : Bool
  retiredW : Bool
  lanes : List Lane
  /-- v registers, at key 32·register + lane -/
  vregs : Map Word
  /-- mapped lane registers (R133), bit n for vn -/
  mapped : BitVec 88
  /-- ply registers, at key 4·ply + register -/
  sregs : Map Word
  wregs : Map Word
  fpflags : BitVec 5
  frm : BitVec 3
  role : Byte
  limit : BitVec 7
  retired : DWord
  serial : Bool
  fault : Word
  faddr : DWord
  passed : Nat
  outs : List Out
  memq : List MemOp
  hb : List Nat
  parks : List Park
  refill : Option Refill
  nextId : Nat
  /-- non-temporal writes of the warp still in flight (R229) -/
  ntFids : List Nat
deriving DecidableEq, Repr

/-! ### Scoped registers and blocks -/

/-- What a back bank has taken in the phase (R126). -/
inductive BankMode where | none | agreed | red (k : RedKind)
deriving DecidableEq, Repr

/-- A block, cluster or grid register (R118, R87, R250): `acc` is the exact accumulator at weight 2^-149. -/
structure ScopedReg where
  front : Word
  back : Word
  mode : BankMode
  acc : Int
  posInf : Bool
  negInf : Bool
  nan : Bool
  allNegZero : Bool
deriving DecidableEq, Repr

/-- A copy command that the engine has taken (R266, R274). -/
structure CopyCmd where
  idx : Nat
  words : List Word
  jid : Nat
  started : Bool
  /-- bytes delivered, the write pointer when the command started, and the count that the pointer showed before a
  restore (R273) -/
  delivered : Nat
  p0 : Word
  shown : Nat
  /-- the ENGINE detail that holds it (R272) -/
  held : Option Nat
  /-- the held entry's disposition was resume: it is skipped when C reaches it -/
  skip : Bool
  failed : Bool
  /-- parked by a page fault (R272) -/
  parked : Bool
  /-- the source sectors that it read last, none for a byte that failed (R274) -/
  sectors : List (Nat × List (Option Byte))
  /-- the slice of a block table that it has reached and the slice's base, none for one that failed (R280) -/
  slice : Option (Nat × Option Nat)
deriving DecidableEq, Repr

/-- One channel of a block's copy engine (R264 to R267, R278). -/
structure Chan where
  /-- log2 of the ring's size, 0 for no ring -/
  log2 : Nat
  base : Nat
  t : Word
  c : Word
  wp : Word
  cmds : List CopyCmd
deriving DecidableEq, Repr

/-- A batch of .quantum values (R191). -/
structure Batch where
  pa : Nat
  addend : DWord
  b64 : Bool
  next : DWord
  left : Nat
deriving DecidableEq, Repr

/-- How far a pre-emption has come (R248, R262). -/
inductive StopSt where
  | run
  /-- the context save area, the partition area, and the local cycles of the two schedulers at the request -/
  | asked (area parea c0 c1 : Nat)
  | stopped (area parea : Nat)
deriving DecidableEq, Repr

/-- One resident block (R90 to R96). -/
structure Block where
  bk : Nat
  gid : Nat
  part : Nat
  core : Nat
  slot : Nat
  age : Nat
  x : Nat
  y : Nat
  z : Nat
  ck : Nat
  rank : Nat
  nwarps : Nat
  regs : Nat
  sp : Memory
  ab : Memory
  wb : Memory
  cb : Memory
  spSize : Nat
  abSize : Nat
  wbSize : Nat
  cbSize : Nat
  hasX : Bool
  xfront : Memory
  xback : Memory
  bregs : Map ScopedReg
  bphase : Word
  pool : Nat
  ringBase : Word
  ringSize : Word
  chans : Map Chan
  batches : List Batch
  stop : StopSt
  /-- cards that the pre-emption has taken out of the yard, with their addresses, in arrival order (R295) -/
  cards : List (List Word × DWord)
  /-- retired counts to regain after a restore, by WARPIDX (R263) -/
  catchUp : Map DWord
  /-- scratchpad bytes last written by a releasing store, with its write id -/
  spRel : Map Nat
  /-- writes ordered before the arrivals at local barrier objects -/
  objHb : Map (List Nat)
deriving DecidableEq, Repr

/-- A cluster (R90, R118). -/
structure Cluster where
  quad : Nat
  idx : Nat
  blocks : List Nat
  cregs : Map ScopedReg
deriving DecidableEq, Repr

/-- A grid from acceptance to completion (R378, R379). -/
structure Grid where
  gid : Nat
  queue : Nat
  tag : Nat
  record : List Word
  part : Nat
  gregs : Map ScopedReg
  launchVals : List Word
  /-- the grid whose published values it waits for (R378) -/
  src : Option Nat
  next : Nat
  ended : Nat
  firstPlaced : Bool
  dstall : Nat
  watchdog : Nat
  killed : Option Nat
  /-- writes of its ended blocks that had not arrived (R379) -/
  fids : List Nat
  /-- the launch never runs (R378) -/
  never : Bool
  done : Bool
deriving DecidableEq, Repr

/-! ### Cores -/

/-- An op on a barrier object of the block's scratchpad in the current cycle (R202), and the result it returns into. -/
structure LateObj where
  wk : Nat
  bk : Nat
  off : Nat
  op : BarxOp
  val : Word
  out : Option Nat
  /-- the writes ordered before an arrival (R203) -/
  hbs : List Nat
deriving DecidableEq, Repr

/-- One issue scheduler (R97 to R100, R114, R115). -/
structure Sched where
  /-- entries 0 to 63; an unlisted entry is the reset value 0 -/
  table : Map Byte
  strict : Bool
  /-- local cycles begun -/
  cycle : DWord
  /-- per partition: the turn pointer, as 32·block slot + WARPIDX (R114) -/
  turn : Map Nat
  /-- the partitions whose turn has ended here and waits for the other scheduler (R115) -/
  ended : List Nat
  /-- bundle B of this cycle still to issue: warp key, lanes -/
  pendB : Option (Nat × Word)
  /-- ops on local barrier objects of this cycle that have not taken effect (R202) -/
  late : List LateObj
deriving DecidableEq, Repr

/-- A byte with the write that made it (R218). -/
structure HByte where
  val : Byte
  wid : Nat
deriving DecidableEq, Repr

/-- One byte of a store pool (R217), with the page it was written through. -/
structure PoolByte where
  val : Byte
  wid : Nat
  attr : PageAttr
  peer : Option Nat
deriving DecidableEq, Repr

/-- One translation a core holds (R367): the leaf and its level. -/
structure TlbEntry where
  leaf : DWord
  level : Nat
deriving DecidableEq, Repr

/-- One core (R13, R217). -/
structure Core where
  scheds : Map Sched
  pool : Map PoolByte
  snaps : Map (List HByte)
  tlb : Map TlbEntry
  /-- the channel that the copy engine served last, as 8 * block slot + channel (R264) -/
  served : Option Nat
deriving DecidableEq, Repr

/-! ### Yard and matrix engine -/

/-- One dependence counter (R309, R310) (R20). -/
structure Ctr where
  value : Word
  failed : Bool
  failId : Word
  owner : Option Nat
  /-- writes ordered before its signals (R226) -/
  hb : List Nat
deriving DecidableEq, Repr

/-- One pending task (R312, R326). -/
structure Task where
  slot : Nat
  id : Word
  gid : Nat
  bk : Nat
  part : Nat
  record : List Word
  role : Byte
  /-- position in the order of readiness, and the yard cycle of readiness -/
  ready : Option (Nat × Nat)
  /-- the wave that holds it while the wave finds no place (R314) -/
  wave : Option Nat
deriving DecidableEq, Repr

/-- The spaces of footprints (R17), with the latch banks of R284. -/
inductive JSpace where
  | global (gid : Nat)
  | sp (core : Nat)
  | exch (core : Nat)
  | ab (core : Nat)
  | wb (core : Nat)
  | cb (core : Nat)
  | bank (b : Nat)
deriving DecidableEq, Repr

/-- One region of a footprint: [lo, hi), read or written. -/
structure Region where
  space : JSpace
  lo : Nat
  hi : Nat
  write : Bool
deriving DecidableEq, Repr

/-- A matrix job (R281, R296, R306). -/
structure MxJob where
  entry : Nat
  serial : Nat
  card : List Word
  addr : DWord
  bank : Nat
  reloads : Bool
  reloadLeft : Nat
  reloadDone : Bool
  granted : Bool
  rows : Nat
  written : Nat
  wt : Nat
  stalled : Nat
  failed : Bool
deriving DecidableEq, Repr

/-- The kinds of job a yard orders (R17). -/
inductive JobKind where
  | copy (ch idx : Nat)
  | mx (m : MxJob)
  | coll (die cid : Nat)
deriving DecidableEq, Repr

/-- A job that has arrived and not completed (R18). -/
structure Job where
  jid : Nat
  gid : Nat
  bk : Nat
  part : Nat
  core : Nat
  kind : JobKind
  regions : List Region
  edges : List Nat
  admitted : Bool
  /-- the counter it waits on, if any, and whether that wait is over (R311) -/
  wait : Option Nat
  waitDone : Bool
deriving DecidableEq, Repr

/-- A latch bank: its record (R283) and the latched weight planes and side bytes. -/
structure LatchBank where
  valid : Bool
  core : Nat
  slot : Nat
  bk : Nat
  tag : Word
  wfmt : MxFmt
  wboff : Nat
  wside : Nat
  k : Nat
  n : Nat
  planes : List Byte
  side : List Byte
  /-- columns whose weights have an uncorrectable error (R294) -/
  badCols : List Nat
deriving DecidableEq, Repr

/-- A pass between its grant and its write (R303). -/
structure Pass where
  jid : Nat
  row : Nat
  doneAt : Nat
  aRow : List Byte
  aSide : List Byte
  /-- an uncorrectable error in the activations (R294) -/
  bad : Bool
  /-- the slots to accumulate on, read in the cycle in which the row has left the array (R303), with their errors -/
  prior : Option (List (Nat × Bool))
deriving DecidableEq, Repr

/-- What a reservation entry remembers of its last completed job (R306). -/
structure LastJob where
  bk : Nat
  serial : Nat
  failed : Bool
  bank : Nat
  reloads : Bool
deriving DecidableEq, Repr

/-- A counter that TKSIG has set in the present local cycle of the yard (R309): what the cycle's decrements act on, which
come before the sets, and the place of the standing set in the order of R127. -/
structure CtrSet where
  pre : Ctr
  key : Nat
deriving DecidableEq, Repr

/-- What a partition pre-empted as a whole left of its yard (R252): the area's address, the counters, and the tasks. -/
structure YardArea where
  addr : Nat
  ctrs : List (Nat × Ctr)
  tasks : List Task
deriving DecidableEq, Repr

/-- One quad: yard, matrix engine, read-only path (R13). -/
structure Quad where
  ctrs : Map Ctr
  tasks : List Task
  entered : Nat
  /-- the counters set in the present local cycle -/
  sets : Map CtrSet
  yardCycle : Nat
  nextRefill : Nat
  jobs : List Job
  nextJid : Nat
  banks : Map LatchBank
  lastBank : Option Nat
  arrived : Nat
  lastDone : Map LastJob
  mxCycle : Nat
  freeAt : Nat
  grants : Nat
  /-- the job whose pass is granted in the current cycle (R290) -/
  grantee : Option Nat
  budget : Nat
  ceiling : Nat
  stalled : Nat
  passes : List Pass
  roSnaps : Map (List HByte)
  /-- per partition pre-empted as a whole: its counters and tasks are held here until restore (R252) -/
  areas : Map YardArea
deriving DecidableEq, Repr

/-! ### The memory side -/

/-- The scope record of a line (R230): scope and the releaser's place. -/
structure ScopeRec where
  sc : Scope
  core : Nat
  warpIdx : Nat
  slot : Nat
  quad : Nat
  clusterIdx : Nat
deriving DecidableEq, Repr

/-- A line present in its slice (R369 to R371). -/
structure Line where
  /-- dirty bytes by offset in the 1 KiB line -/
  dirty : Map Byte
  key : Nat
  use : Option Nat
  discard : Bool
  pol : Nat
  way : Nat
  /-- the way of its set that it stands in, 0 to 15 -/
  slot : Nat
  srec : Option ScopeRec
deriving DecidableEq, Repr

/-- Writes that left together toward one home (R219). -/
structure Flight where
  fid : Nat
  /-- the source: a core 0-511, or 512 and above for an engine -/
  src : Nat
  home : Nat
  ws : List PWrite
  nt : Bool
deriving DecidableEq, Repr

/-- What a releasing store's write carries (R225). -/
structure RelInfo where
  sc : Scope
  core : Nat
  slot : Nat
  cidx : Nat
  bk : Nat
  ck : Nat
  wk : Nat
  hb : List Nat
deriving DecidableEq, Repr

/-- A global atomic that has not been performed (R227, R228). -/
structure AtomReq where
  id : Nat
  wk : Nat
  core : Nat
  acc : LaneAcc
  aop : Aop
  b64 : Bool
  use : Use
  x : DWord
  y : DWord
  /-- the outstanding result it returns into, and the destination register -/
  out : Option Nat
  dest : Reg
  wid : Nat
  /-- a scratchpad atomic, performed at the block's window (R190) -/
  loc : Bool
  /-- operation number in the warp's stream, for fences ahead of it -/
  opId : Nat
deriving DecidableEq, Repr

/-- A write on its way to a cluster or grid back bank (R124). -/
structure BankWrite where
  id : Nat
  wk : Nat
  mask : Word
  code : Reg
  pair : Bool
  red : Option RedKind
  vals : List (Nat × DWord)
  /-- FPFLAGS raised when the bank accepts the write (R75, R123), and how its instruction ends then -/
  flags : BitVec 5
  fin : Ending
  /-- the bundle issued from here -/
  core : Nat
  gid : Nat
deriving DecidableEq, Repr

/-- A remote exchange store on its way (R186). -/
structure XStore where
  id : Nat
  src : Nat
  wk : Nat
  opId : Nat
  toBk : Nat
  off : Nat
  data : List Byte
  slot : Nat
deriving DecidableEq, Repr

/-- An operation on a global barrier object on its way to its home (R202, R321). -/
structure ObjOp where
  id : Nat
  /-- the warp and the outstanding result that the op returns into -/
  wk : Option Nat
  out : Option Nat
  attr : PageAttr
  dev : Nat
  blkx : Nat
  part : Nat
  hbs : List Nat
  va : Nat
  pa : Nat
  /-- the peer that holds a remote page (R372), and whether the page is discarded and reads as zeros (R368) -/
  peer : Option Nat
  zero : Bool
  op : BarxOp
  val : Word
deriving DecidableEq, Repr

/-- A peer on the switch plane (R382). -/
structure Peer where
  isolated : Bool
  lost : Nat
  /-- local cycles through which requests to it have been outstanding -/
  waited : Nat
deriving DecidableEq, Repr

/-- The memory side (R217, R362 to R373). -/
structure Mem where
  hbm : Memory
  lines : Map Line
  flights : List Flight
  nextFid : Nat
  /-- the writes that have arrived at a byte, the current one first -/
  arrived : Map (List Nat)
  preds : Map (List Nat)
  rels : Map RelInfo
  nextWid : Nat
  atoms : List AtomReq
  nextAtom : Nat
  bankq : List BankWrite
  xq : List XStore
  objq : List ObjOp
  /-- completion signals to send: DEVICE, QUAD, counter, partition (R322) -/
  signals : List (Nat × Nat × Nat × Option Nat)
  nextQ : Nat
  /-- the key slots that hold a key (R371) -/
  keys : Map Nat
  /-- per 128-byte sector, the key its HBM bytes are stored under, plus 1; 0 for none (R371) -/
  secKey : Map Nat
  ways : Map (BitVec 16)
  roots : Map Nat
  peers : Map Peer
  /-- the timeout that firmware has set, in local cycles (R382, R384) -/
  linkTimeout : Nat
  windows : Map PodWindow
  objPart : Map Nat
  /-- per global barrier object, the party whose arrival brought pending to 0 (R321): DEVICE and BLKX -/
  objLast : Map (Nat × Nat)
  objHb : Map (List Nat)
  ecc : List Nat
  /-- local cycles that every home slice has counted, and those a slice has counted besides (R3, R321) -/
  homeCycle : Nat
  homeSkew : Map Nat
deriving DecidableEq, Repr

/-! ### Faults, launch unit, distributor, collectives, host -/

/-- Which engine job a fault record stands for (R272, R294, R335, R351). -/
inductive FaultRef where
  | lanes (wk : Nat)
  | copy (bk ch : Nat)
  | pub (bk ch : Nat)
  | mx (quad : Nat)
  | coll (die cid : Nat)
  | query (id : Nat)
  | none
deriving DecidableEq, Repr

/-- A fault record (R241). -/
structure FaultRec where
  code : Byte
  detail : BitVec 17
  origin : Nat
  gid : Nat
  channel : Nat
  slot : Nat
  core : Nat
  warpIdx : Nat
  lanes : Word
  faddr : DWord
  seq : Nat
  ref : FaultRef
  /-- the disposition handler was given and waits (R390) -/
  waiting : Bool
deriving DecidableEq, Repr

/-- The device fault queue (R241). -/
structure Faults where
  pend : List FaultRec
  queue : List FaultRec
  seq : Nat
deriving DecidableEq, Repr

/-- One block of a saved context: its number and its context save area; and what the area has no place for (DESIGN CHOICE, log 21): its rank,
the rows above .regs, at key 2816·WARPIDX + 32·register + lane, and of each channel's parked command the write pointer
at its start and its failure. -/
structure SavedBlock where
  bk : Nat
  area : Nat
  rank : Nat
  rows : Map Word
  parked : Map (Word × Bool)
  /-- the addresses of its matrix cards (R294) -/
  addrs : List DWord
deriving DecidableEq, Repr

/-- A saved cluster (R248, R253), its blocks in rank order. The registers c0-c3 of a cluster of one stay here. -/
structure Saved where
  id : Nat
  gid : Nat
  ck : Nat
  part : Nat
  quad : Nat
  blocks : List SavedBlock
  cregs : Map ScopedReg
deriving DecidableEq, Repr

/-- The launch unit (R92, R378). -/
structure Launch where
  /-- messages held until the queues open: queue, tag, record (R388) -/
  held : List (Nat × Nat × List Word)
  /-- grids accepted, per queue, in order, not fully dispatched -/
  queues : Map (List Nat)
  grids : Map Grid
  accepted : Nat
  published : List (Nat × List Word)
  rr : Nat
  restores : List (Nat × Option (List Nat))
  saved : Map Saved
  nextBk : Nat
  nextAge : Nat
  nextSaved : Nat
  cycle : Nat
deriving DecidableEq, Repr

/-- How far a query has been served (R319): its completion comes first; then the front of the set, at an index that it
has drawn; then expired leases and stealing. -/
inductive QStage where | start | front | at_ (i : Nat) | back
deriving DecidableEq, Repr

/-- A query to the work distributor (R319, R335). -/
structure Query where
  id : Nat
  gid : Nat
  bk : Nat
  part : Nat
  desc : Nat
  off : Nat
  comp : Option (Word × Word)
  held : Bool
  stage : QStage
deriving DecidableEq, Repr

/-- A watched tile-map entry (R325). -/
structure Watch where
  part : Nat
  desc : Nat
  i : Nat
  d : Nat
  s : Nat
  /-- cycles left; none never expires -/
  left : Option Nat
deriving DecidableEq, Repr

/-- The work distributor (R317 to R325). -/
structure Wd where
  queries : List Query
  watch : List Watch
  cycle : Nat
  nextId : Nat
deriving DecidableEq, Repr

/-- A collective that has been posted (R339 to R358). -/
structure Coll where
  cid : Nat
  slot : Nat
  q : Nat
  desc : List Word
  bk : Nat
  gid : Nat
  part : Nat
  core : Nat
  jid : Nat
  /-- 0 posted, 1 in its tag round, 2 in its stages, 3 ended and to be reported -/
  phase : Nat
  /-- position in the list of stages -/
  stage : Nat
  /-- the gather pass of an all-reduce (R341) -/
  back : Bool
  /-- the vector that entered each reducing stage, the current one last; 2^32 stands for a missing element -/
  vecs : List (List Nat)
  /-- where the current vector lies in the whole -/
  off : Nat
  /-- elements of the stage's chunks received or passed on, at key 2^48·chunk + element -/
  got : Map Nat
  excl : Nat
  status : Nat
  /-- it holds at a page fault (R351) -/
  held : Bool
  /-- its block is pre-empted (R349) -/
  saved : Bool
  /-- it has been admitted -/
  begun : Bool
  /-- units and side bytes of the destination written so far (R351, R359) -/
  put : Nat
  timer : Nat
deriving DecidableEq, Repr

/-- One group slot of a collective engine (R339, R358). -/
structure GroupSlot where
  cfg : Option GroupCfg
  seq : Nat
  faulted : Bool
  /-- the last 16 collectives completed: q, status and mask of excluded members, newest first -/
  last : List (Nat × Nat × Nat)
  /-- the q of collectives of killed grids, for which the engine no longer answers (R350) -/
  silent : List Nat
deriving DecidableEq, Repr

/-- A packet between two engines of the package, or to another package (R343, R360). -/
structure Pkt where
  dev : Nat
  die : Nat
  /-- the die that sent it -/
  src : Nat
  hdr : List Word
  mask : Nat
  payload : List Byte
deriving DecidableEq, Repr

/-- One collective engine (R338). -/
structure Die where
  slots : Map GroupSlot
  colls : List Coll
  nextCid : Nat
  inbox : List Pkt
  /-- packets waiting for a permit, with their link, and permits held per link (R344); a link is named by the engine at its
  other end, 4·DEVICE + die (R338) -/
  outbox : List (Nat × Pkt)
  permits : Map Nat
  errs : Nat
deriving DecidableEq, Repr

/-- Messages the device sends (R376, R379, R381). -/
inductive Msg where
  | launched (tag gid : Nat)
  | complete (queue : Nat) (rec : List Word)
  | flushdone (part tag : Nat)
  | written (tag : Nat)
  | data (tag : Nat) (bytes : List Byte)
  | report (tag nonce device : Nat) (images : List Nat) (fuse sig : Nat)
  | stats (tag : Nat) (counters : List Nat)
  | error (tag : Nat)
  | peerData (peer : Nat) (bytes : List Byte)
  | peerDone (peer : Nat)
  | peerError (peer : Nat)
  | readToPeer (peer pa n : Nat)
  | writeToPeer (peer : Nat) (ws : List (Nat × Byte))
  | atomToPeer (peer pa : Nat) (aop : Aop) (b64 : Bool) (x y : DWord)
  | objToPeer (peer pa : Nat) (op : BarxOp) (val : Word)
  | packet (p : Pkt)
  | permit (dev die link : Nat)
  | signal (dev quad ctr : Nat)
deriving DecidableEq, Repr

/-- A flush in progress (R374). -/
structure Flush where
  part : Nat
  va : Nat
  len : Nat
  tag : Nat
  /-- accesses with a lower write id were translated before the entries were dropped -/
  wid : Nat
  /-- the same for ops on global barrier objects -/
  q : Nat
deriving DecidableEq, Repr

/-- What the host sees and what the pod sees (R376, R387). -/
structure HostSide where
  out : List Msg
  flushes : List Flush
  /-- MEMWRITEs not yet acknowledged: the writes under way, and the tag (R377) -/
  posted : List (Nat × Nat)
  chanOpen : Bool
  device : Nat
deriving DecidableEq, Repr

/-- Reliability and bring-up (R385 to R388). -/
structure Reliab where
  /-- bring-up steps done, 0 to 6 -/
  stage : Nat
  verified : Bool
  images : List Nat
  loadBuffer : Memory
  soft : Nat
  lasting : Nat
  fenced : List EccSite
  /-- SRAM bytes and units with an uncorrectable error -/
  sram : List EccSite
deriving DecidableEq, Repr

/-! ### The whole -/

/-- The bundle being executed (R105), or no bundle for a step without one. -/
structure Cur where
  core : Nat
  sched : Nat
  wk : Nat
  mask : Word
  pc : DWord
  word : Word
  isB : Bool
  /-- lanes that have faulted in this instruction (R182) -/
  faulted : Word
  /-- FPFLAGS that bundle A of this cycle has raised (R75) -/
  flags : BitVec 5
deriving DecidableEq, Repr

/-- One move of the environment (DESIGN CHOICE, log 1): an event of the opcode table, an issue cycle of a scheduler, n local
cycles of a unit that pass without an event, an act of firmware that is no event of the table, or bytes of a copy command
that stand in their places before they count (R267). -/
inductive Move where
  | event (i : Instr)
  | cycle (core sched : Nat)
  | tickYard (quad n : Nat)
  | tickMx (quad n : Nat)
  | tickWd (n : Nat)
  | tickHome (home n : Nat)
  | tickLaunch (n : Nat)
  | tickColl (die n : Nat)
  | tickLink (peer n : Nat)
  | setLinkTimeout (n : Nat)
  | setRoot (part root : Nat)
  | earlyCopy (bk ch places : Nat)
deriving DecidableEq, Repr

/-- The machine. -/
structure State where
  cur : Cur
  agenda : List Move
  nextSched : Nat
  tick : Nat
  /-- warps and waves, at key 32·block + WARPIDX -/
  warps : Map Warp
  blocks : Map Block
  clusters : Map Cluster
  cores : Map Core
  quads : Map Quad
  dies : Map Die
  mem : Mem
  faults : Faults
  launch : Launch
  wd : Wd
  host : HostSide
  rel : Reliab
deriving DecidableEq, Repr

/-! ### Reset -/

/-- A lane at its warp's start (R95): active at the entry, depth 0, yield 0, region at the entry, p0-p6 false
(DESIGN CHOICE, log 11). -/
def Lane.start (pc : DWord) : Lane :=
  { pc := pc, depth := 0, yld := false, region := pc, regionRetired := 0, st := .active, preds := 0, joinMask := 0,
    handler := false, entryDepth := 0, isTask := false, taskId := 0xFFFFFFFF, joinEn := false, joinCtr := 0 }

/-- No page. -/
def PageAttr.none : PageAttr := { key := 0, way := 0, pol := 0 }

/-- A warp with no lanes: what a key that names no warp reads as. -/
def Warp.none : Warp :=
  { bk := 0, idx := 0, isWave := false, retiredW := true, lanes := [], vregs := [], mapped := 0, sregs := [],
    wregs := [], fpflags := 0, frm := 0, role := 0, limit := 0, retired := 0, serial := false, fault := 0, faddr := 0,
    passed := 0, outs := [], memq := [], hb := [], parks := [], refill := Option.none, nextId := 0, ntFids := [] }

/-- A scoped register whose two banks hold `v` (R119, R130); the accumulator starts at the front value (R124). -/
def ScopedReg.init (v : Word) : ScopedReg :=
  { front := v, back := v, mode := .none, acc := 0, posInf := false, negInf := false, nan := false, allNegZero := false }

/-- A channel whose ring is not enabled (R213, R267). -/
def Chan.init : Chan := { log2 := 0, base := 0, t := 0, c := 0, wp := 0, cmds := [] }

/-- What a key that names no block reads as. -/
def Block.none : Block :=
  { bk := 0, gid := 0, part := 0, core := 0, slot := 0, age := 0, x := 0, y := 0, z := 0, ck := 0, rank := 0,
    nwarps := 0, regs := 0, sp := [], ab := [], wb := [], cb := [], spSize := 0, abSize := 0, wbSize := 0, cbSize := 0,
    hasX := false, xfront := [], xback := [], bregs := [], bphase := 0, pool := 0, ringBase := 0, ringSize := 0,
    chans := [], batches := [], stop := .run, cards := [], catchUp := [], spRel := [], objHb := [] }

/-- What a key that names no cluster reads as. -/
def Cluster.none : Cluster := { quad := 0, idx := 0, blocks := [], cregs := [] }

/-- What an id that names no grid reads as. -/
def Grid.none : Grid :=
  { gid := 0, queue := 0, tag := 0, record := [], part := 0, gregs := [], launchVals := [], src := Option.none, next := 0,
    ended := 0, firstPlaced := false, dstall := 0, watchdog := 0, killed := Option.none, fids := [], never := false, done := false }

/-- A scheduler at reset (R97). -/
def Sched.init : Sched := { table := [], strict := false, cycle := 0, turn := [], ended := [], pendB := Option.none, late := [] }

/-- A core at reset. -/
def Core.init : Core := { scheds := [], pool := [], snaps := [], tlb := [], served := Option.none }

/-- A counter at bring-up (R309, R310). -/
def Ctr.init : Ctr := { value := 0, failed := false, failId := 0xFFFFFFFF, owner := Option.none, hb := [] }

/-- A latch bank at bring-up: its record is invalid (R283). -/
def LatchBank.init : LatchBank :=
  { valid := false, core := 0, slot := 0, bk := 0, tag := 0, wfmt := .f4x, wboff := 0, wside := 0, k := 0, n := 0,
    planes := [], side := [], badCols := [] }

/-- A quad at bring-up: BUDGET 64 (R291), no counter owned (R310) (DESIGN CHOICE, log 13). -/
def Quad.init : Quad :=
  { ctrs := [], tasks := [], entered := 0, sets := [], yardCycle := 0, nextRefill := 0, jobs := [], nextJid := 0,
    banks := [], lastBank := Option.none, arrived := 0, lastDone := [], mxCycle := 0, freeAt := 0, grants := 0,
    grantee := Option.none, budget := 64, ceiling := 64, stalled := 0, passes := [], roSnaps := [], areas := [] }

/-- A group slot that firmware has not configured (R339). -/
def GroupSlot.init : GroupSlot := { cfg := Option.none, seq := 0, faulted := false, last := [], silent := [] }

/-- A collective engine at bring-up. -/
def Die.init : Die := { slots := [], colls := [], nextCid := 0, inbox := [], outbox := [], permits := [], errs := 0 }

/-- A peer that nothing has been sent to (R382). -/
def Peer.init : Peer := { isolated := false, lost := 0, waited := 0 }

/-- A line just filled. -/
def Line.init : Line :=
  { dirty := [], key := 0, use := Option.none, discard := false, pol := 0, way := 0, slot := 0, srec := Option.none }

/-- The memory side at power-on: nothing listed, nothing in flight, no key loaded (R387). -/
def Mem.init : Mem :=
  { hbm := [], lines := [], flights := [], nextFid := 0, arrived := [], preds := [], rels := [], nextWid := 1,
    atoms := [], nextAtom := 0, bankq := [], xq := [], objq := [], signals := [], nextQ := 0, keys := [], secKey := [], ways := [],
    roots := [], peers := [], linkTimeout := 0, windows := [], objPart := [], objLast := [], objHb := [], ecc := [], homeCycle := 0, homeSkew := [] }

/-- No bundle. -/
def Cur.none : Cur :=
  { core := 0, sched := 0, wk := 0, mask := 0, pc := 0, word := 0, isB := false, faulted := 0, flags := 0 }

/-- The launch unit at bring-up (R378). -/
def Launch.init : Launch :=
  { held := [], queues := [], grids := [], accepted := 0, published := [], rr := 0, restores := [], saved := [],
    nextBk := 0, nextAge := 0, nextSaved := 0, cycle := 0 }

/-- Nothing verified, no image, no error counted (R385, R388). -/
def Reliab.init : Reliab :=
  { stage := 0, verified := false, images := [], loadBuffer := [], soft := 0, lasting := 0, fenced := [], sram := [] }

/-- The machine right after reset: nothing resident, every table at its reset value, bring-up not begun (R388), and the
environment's agenda empty (DESIGN CHOICE, log 1). Values the spec does not give stand in logs 2, 11, 12 and 13. -/
def State.reset : State :=
  { cur := Cur.none, agenda := [], nextSched := 0, tick := 0, warps := [], blocks := [], clusters := [], cores := [],
    quads := [], dies := [], mem := Mem.init, faults := { pend := [], queue := [], seq := 0 }, launch := Launch.init,
    wd := { queries := [], watch := [], cycle := 0, nextId := 0 },
    host := { out := [], flushes := [], posted := [], chanOpen := true, device := 0 }, rel := Reliab.init }

end Sys2Proof.Machine
end

