-- ==== Sys2Proof/WellFormed.lean ====
section
/-! DEFINITION. The well-formedness of an instruction: the combinations of fields that are each valid alone and that
R59, R61, R64, R188, R189, R204, R209 and R216 still exclude, and the reserved fields of BARX, PLOP and SHFL. A word
that decodes to an ill-formed instruction raises ILLEGAL (R68). -/
namespace Sys2Proof

/-- The table of R189 without its column for t. -/
def atomCombo (aop : Aop) (u : Use) (ty : AtomTy) : Bool :=
  match aop with
  | .fadd => ty == .f32 && (u == .plain || u == .unpaired || u == .comm || u == .nonord)
  | .add => ty != .f32 && u != .spec
  | .minS | .maxS | .minN | .maxN | .and | .or => ty != .f32 && u != .quantum
  | .xor => ty != .f32 && u != .quantum && u != .spec
  | .exch | .cas => ty != .f32 && (u == .plain || u == .unpaired || u == .nonord)

/-- The indices of the control-register table (R209). -/
def ctrlIndex (x : BitVec 17) : Bool :=
  x.toNat ≤ 0x12 || x.toNat == 0x20 || x.toNat == 0x21 || x.toNat == 0x22 || x.toNat == 0x30 || x.toNat == 0xA1

/-- An index whose register has a SETC row of its own (R209). -/
def setcOwnRow (x : BitVec 17) : Bool :=
  x.toNat == 0x09 || x.toNat == 0x0A || x.toNat == 0x20 || x.toNat == 0x21 || x.toNat == 0x22 || x.toNat == 0xA1

/-- Stochastic rounding is excluded on the instructions whose prior(d) is their addend or side bytes (R59). -/
def notRs (m : Rnd) : Bool := m != .rs

/-- An encodable instruction that is not ILLEGAL. Steps without an encoding are well formed. -/
def wellFormed : Instr → Bool
  | .ffma _ m _ _ _ | .dfma _ m _ _ _ | .bfma2 _ m _ _ _ | .hfma2 _ m _ _ _ | .fdot2 _ m _ _ _ => notRs m
  | .cvt _ m c _ _ _ => !(c == .f32F4x || c == .f4xF32) || notRs m
  | .plop _ m _ _ b => m != .not || b == 0
  | .shfl _ m _ _ b => m != .bcast || b == 0
  | .atom _ aop u ty _ _ _ => atomCombo aop u ty
  | .ldrUse _ _ _ n _ _ => n != 0
  | .barx _ op d _ b => (op == .test || op == .wait || d == 0) && (op != .arrive || b == 0)
  | .fence _ _ x => x == 1 || x == 2 || x == 3
  | .getc _ _ x => ctrlIndex x
  | .setc _ _ x => ctrlIndex x && !setcOwnRow x
  | .reggive _ n | .regclaim _ n => n.toNat ≤ 88
  | .illegal _ => false
  | _ => true

end Sys2Proof
end

