-- ==== Sys2Proof/Machine/Ops.lean ====
section
/-! DEFINITION. The named operations over the state: parts by key, lanes of a bundle, the end of an issue (R116, R197),
taking a fault (R102, R240, R241), entering and leaving the trap handler (R243). -/
namespace Sys2Proof.Machine

/-! ### Parts of the state, one setter each -/
def State.setCur (s : State) (c : Cur) : State := { s with cur := c }
def State.setAgenda (s : State) (a : List Move) : State := { s with agenda := a }
def State.setNextSched (s : State) (n : Nat) : State := { s with nextSched := n }
def State.setTick (s : State) (n : Nat) : State := { s with tick := n }
def State.setWarps (s : State) (m : Map Warp) : State := { s with warps := m }
def State.setBlocks (s : State) (m : Map Block) : State := { s with blocks := m }
def State.setClusters (s : State) (m : Map Cluster) : State := { s with clusters := m }
def State.setCores (s : State) (m : Map Core) : State := { s with cores := m }
def State.setQuads (s : State) (m : Map Quad) : State := { s with quads := m }
def State.setDies (s : State) (m : Map Die) : State := { s with dies := m }
def State.setMem (s : State) (m : Mem) : State := { s with mem := m }
def State.setFaults (s : State) (f : Faults) : State := { s with faults := f }
def State.setLaunch (s : State) (l : Launch) : State := { s with launch := l }
def State.setWd (s : State) (w : Wd) : State := { s with wd := w }
def State.setHost (s : State) (h : HostSide) : State := { s with host := h }
def State.setRel (s : State) (r : Reliab) : State := { s with rel := r }

/-- The warp at a key. -/
def State.warp (s : State) (wk : Nat) : Warp := mGet s.warps Warp.none wk
/-- The block at a key. -/
def State.block (s : State) (bk : Nat) : Block := mGet s.blocks Block.none bk
/-- The cluster at a key. -/
def State.cluster (s : State) (ck : Nat) : Cluster := mGet s.clusters Cluster.none ck
/-- The core of a number. -/
def State.coreAt (s : State) (c : Nat) : Core := mGet s.cores Core.init c
/-- The quad of a number. -/
def State.quad (s : State) (q : Nat) : Quad := mGet s.quads Quad.init q
/-- The collective engine of a die. -/
def State.die (s : State) (d : Nat) : Die := mGet s.dies Die.init d
/-- The grid of an id. -/
def State.grid (s : State) (g : Nat) : Grid := mGet s.launch.grids Grid.none g

/-- Change a warp that exists. -/
def State.updWarp (s : State) (wk : Nat) (f : Warp → Warp) : State := s.setWarps (mMod s.warps wk f)
/-- Change a block that exists. -/
def State.updBlock (s : State) (bk : Nat) (f : Block → Block) : State := s.setBlocks (mMod s.blocks bk f)
/-- Change a cluster that exists. -/
def State.updCluster (s : State) (ck : Nat) (f : Cluster → Cluster) : State := s.setClusters (mMod s.clusters ck f)
/-- Change a core. -/
def State.updCore (s : State) (c : Nat) (f : Core → Core) : State := s.setCores (mUpd s.cores Core.init c f)
/-- Change a quad. -/
def State.updQuad (s : State) (q : Nat) (f : Quad → Quad) : State := s.setQuads (mUpd s.quads Quad.init q f)
/-- Change a collective engine. -/
def State.updDie (s : State) (d : Nat) (f : Die → Die) : State := s.setDies (mUpd s.dies Die.init d f)
/-- Change the memory side. -/
def State.updMem (s : State) (f : Mem → Mem) : State := s.setMem (f s.mem)
/-- Change the launch unit. -/
def State.updLaunch (s : State) (f : Launch → Launch) : State := s.setLaunch (f s.launch)
/-- Change a grid that exists. -/
def State.updGrid (s : State) (g : Nat) (f : Grid → Grid) : State :=
  s.updLaunch fun l => { l with grids := mMod l.grids g f }
/-- Use one free value (DESIGN CHOICE, log 3). -/
def State.bump (s : State) : State := s.setTick (s.tick + 1)
/-- Send a message to the host or the pod. -/
def State.send (s : State) (m : Msg) : State := s.setHost { s.host with out := s.host.out ++ [m] }

/-- Some warps in order of age (R99): by the placement of their blocks, then by WARPIDX. -/
def aged (s : State) (ws : List (Nat × Warp)) : List (Nat × Warp) :=
  (ws.foldl (fun (m : Map (Nat × Warp)) kw => mSet m (32 * (s.block kw.2.bk).age + kw.2.idx) kw) []).map (·.2)

/-- The key of warp `idx` of block `bk`. -/
def warpKey (bk idx : Nat) : Nat := 32 * bk + idx
/-- The quad of a core (R12) (R11). -/
def quadOf (core : Nat) : Nat := core / 4
/-- The die of a core (R12) (R11). -/
def dieOf (core : Nat) : Nat := core / 128

/-- The warp of the bundle being executed. -/
def State.cw (s : State) : Warp := s.warp s.cur.wk
/-- The block of the bundle being executed. -/
def State.cb (s : State) : Block := s.block s.cw.bk
/-- The grid of the bundle being executed. -/
def State.cg (s : State) : Grid := s.grid s.cb.gid
/-- The yard of the bundle's core. -/
def State.cq (s : State) : Nat := quadOf s.cur.core
/-- Change the warp of the bundle. -/
def State.updCw (s : State) (f : Warp → Warp) : State := s.updWarp s.cur.wk f
/-- Change the block of the bundle. -/
def State.updCb (s : State) (f : Block → Block) : State := s.updBlock s.cw.bk f

/-! ### A grid's launch record (R378) -/
/-- Bits [lo+n-1 : lo] of a word. -/
def bitsAt (x : Word) (lo n : Nat) : Nat := x.toNat / 2 ^ lo % 2 ^ n
/-- Word n of a record. -/
def recWord (r : List Word) (n : Nat) : Word := r.getD n 0
/-- The 64-bit value of words n and n+1. -/
def recWord64 (r : List Word) (n : Nat) : DWord := (recWord r (n + 1) ++ recWord r n : BitVec 64)
def Grid.entry (g : Grid) : DWord := recWord64 g.record 0
def Grid.params (g : Grid) : DWord := recWord64 g.record 2
def Grid.gx (g : Grid) : Nat := bitsAt (recWord g.record 4) 0 16
def Grid.gy (g : Grid) : Nat := bitsAt (recWord g.record 4) 16 16
def Grid.gz (g : Grid) : Nat := bitsAt (recWord g.record 5) 0 16
def Grid.csize (g : Grid) : Nat := bitsAt (recWord g.record 5) 16 2 + 1
def Grid.nwarps (g : Grid) : Nat := bitsAt (recWord g.record 5) 18 5 + 1
def Grid.regs (g : Grid) : Nat := bitsAt (recWord g.record 5) 23 7
def Grid.det (g : Grid) : Bool := (recWord g.record 5).getLsbD 30
def Grid.stream (g : Grid) : Bool := (recWord g.record 5).getLsbD 31
def Grid.scratchK (g : Grid) : Nat := bitsAt (recWord g.record 6) 0 9
def Grid.abK (g : Grid) : Nat := bitsAt (recWord g.record 6) 9 10
def Grid.wbK (g : Grid) : Nat := bitsAt (recWord g.record 6) 19 10
def Grid.cbK (g : Grid) : Nat := bitsAt (recWord g.record 7) 0 10
def Grid.role (g : Grid) : Byte := BitVec.ofNat 8 (bitsAt (recWord g.record 7) 10 8)
def Grid.gsrc (g : Grid) : Bool := (recWord g.record 7).getLsbD 22
def Grid.handler (g : Grid) : DWord := recWord64 g.record 8
def Grid.budget (g : Grid) : Nat := (recWord g.record 10).toNat
/-- The number of a grid's blocks. -/
def Grid.blocks (g : Grid) : Nat := g.gx * g.gy * g.gz

/-! ### Lanes -/
/-- What a lane number outside a warp reads as: a vacant lane. -/
def Lane.none : Lane := { Lane.start 0 with st := .vacant }
/-- Lane `l` of a warp. -/
def Warp.lane (w : Warp) (l : Nat) : Lane := w.lanes.getD l Lane.none
/-- Change the lanes of a mask. -/
def Warp.updLanes (w : Warp) (m : Word) (f : Nat → Lane → Lane) : Warp :=
  { w with lanes := mapIdxFrom (fun l x => if m.getLsbD l then f l x else x) 0 w.lanes }
/-- The lane numbers of a mask, increasing. -/
def maskLanes (m : Word) : List Nat := (rangeFrom 0 32).filter fun l => m.getLsbD l
/-- The mask of one lane. -/
def laneBit (l : Nat) : Word := 1#32 <<< l
/-- The mask of some lanes. -/
def lanesMask : List Nat → Word
  | [] => 0
  | l :: t => laneBit l ||| lanesMask t
/-- The mask of a warp's lanes that a test accepts. -/
def Warp.maskOf (w : Warp) (p : Lane → Bool) : Word :=
  lanesMask ((rangeFrom 0 32).filter fun l => p (w.lane l))
/-- The lanes of a bundle, lowest first. -/
def State.bl (s : State) : List Nat := maskLanes s.cur.mask
/-- The lowest lane of a mask. -/
def lowLane (m : Word) : Nat := (maskLanes m).headD 0
/-- The lanes of the bundle that have not faulted. -/
def State.live (s : State) : Word := s.cur.mask &&& ~~~ s.cur.faulted

/-- A pre-emption has stopped the block (R248). -/
def Block.isStopped (b : Block) : Bool :=
  match b.stop with
  | .stopped _ _ => true
  | _ => false

/-! ### The end of an issue -/
/-- One more bundle issue without a fault (R116). -/
def retireIssue (s : State) : State :=
  if s.cur.faulted = 0 then s.updCw fun w => { w with retired := w.retired + 1 } else s

/-- A region boundary for lanes of a warp: the region starts at the lane's next instruction, and the retired count is
recorded with it (R197, R244). Results outstanding for these lanes were issued before it (R248). -/
def Warp.boundary (m : Word) (w : Warp) : Warp :=
  let w1 := w.updLanes m fun _ x => { x with region := x.pc, regionRetired := w.retired }
  { w1 with outs := w1.outs.map fun o => { o with kept := o.kept ||| (o.mask &&& m) } }
/-- The same for the warp of the bundle. -/
def boundary (m : Word) (s : State) : State := s.updCw (Warp.boundary m)

/-- The lanes of a mask go on to the next word. -/
def advance (m : Word) (s : State) : State :=
  s.updCw fun w => w.updLanes m fun _ x => { x with pc := s.cur.pc + 4 }

/-- The instruction is complete for the lanes that did not fault. -/
def done (s : State) : State := retireIssue (advance s.live s)
/-- The same, for an instruction that ends the region of its lanes (R197, R244). -/
def doneB (s : State) : State := boundary s.live (done s)

/-- An instruction whose lanes have taken their own next address (branches). -/
def doneBranch (s : State) : State := retireIssue s

/-! ### Taking a fault -/
/-- One lane's fault. -/
structure LaneFault where
  lane : Nat
  code : Byte
  detail : BitVec 17
  faddr : DWord
deriving DecidableEq, Repr

/-- Post a record behind those that wait for the queue (R241). -/
def postRecord (r : FaultRec) (s : State) : State := s.setFaults { s.faults with pend := s.faults.pend ++ [r] }

/-- The record of a fault of the bundle's lanes (R241). -/
def laneRecord (s : State) (m : Word) (code : Byte) (detail : BitVec 17) (faddr : DWord) : FaultRec :=
  { code := code, detail := detail, origin := 0, gid := s.cb.gid, channel := 0, slot := s.cb.slot, core := s.cur.core,
    warpIdx := s.cw.idx, lanes := m, faddr := faddr, seq := 0, ref := .lanes s.cur.wk, waiting := false }

/-- TAKING A FAULT (R102, R240, R241): the lanes become parked-fault at their PC, which saves the faulting address for
resume or handler entry, and one record is posted. -/
def raiseMask (m : Word) (code : Byte) (detail : BitVec 17) (faddr : DWord) (s : State) : State :=
  let s1 := postRecord (laneRecord s m code detail faddr) s
  let s2 := s1.updCw fun w => w.updLanes m fun _ x => { x with st := .parkedFault }
  s2.setCur { s2.cur with faulted := s2.cur.faulted ||| m }

/-- A fault of the whole bundle (R240): its lanes are parked and nothing else changes. -/
def raiseBundle (code : Byte) (detail : BitVec 17) (faddr : DWord) (s : State) : State :=
  raiseMask s.cur.mask code detail faddr s

/-- The faults of some lanes of one instruction share one record: the code and FADDR of the lowest (R182, R247) (R8). -/
def raiseLanes (fs : List LaneFault) (s : State) : State :=
  match fs with
  | [] => s
  | f :: _ => raiseMask (lanesMask (fs.map (·.lane))) f.code f.detail f.faddr s

/-- ILLEGAL for the bundle (R47): DETAIL is bits [31:24] of the word. -/
def raiseIllegal (s : State) : State := raiseBundle 0x01 ((s.cur.word >>> 24).setWidth 17) s.cur.pc s
/-- OPERAND for the bundle (R240): position and code. -/
def raiseOperand (pos : Nat) (code : Reg) (s : State) : State :=
  raiseBundle 0x02 (BitVec.ofNat 17 (128 * pos + code.toNat)) s.cur.pc s
/-- AGREE for the bundle. -/
def raiseAgree (d : Reg) (s : State) : State := raiseBundle 0x04 (d.setWidth 17) s.cur.pc s
/-- MIXED for the bundle. -/
def raiseMixed (d : Reg) (s : State) : State := raiseBundle 0x05 (d.setWidth 17) s.cur.pc s
/-- PRIV for the bundle. -/
def raisePriv (s : State) : State := raiseBundle 0x0E 0 s.cur.pc s
/-- ENGINE for the bundle with a DETAIL and FADDR. -/
def raiseEngine (detail : Nat) (faddr : DWord) (s : State) : State :=
  raiseBundle 0x11 (BitVec.ofNat 17 detail) faddr s
/-- REGQUOTA for the bundle (R135, R136). -/
def raiseQuota (n : Nat) (s : State) : State := raiseBundle 0x15 (BitVec.ofNat 17 n) s.cur.pc s

/-- An engine's record: it parks no lane (R241). -/
def engineRecord (code : Byte) (detail : Nat) (origin gid channel slot core : Nat) (faddr : Nat) (ref : FaultRef) :
    FaultRec :=
  { code := code, detail := BitVec.ofNat 17 detail, origin := origin, gid := gid, channel := channel, slot := slot,
    core := core, warpIdx := 0, lanes := 0, faddr := BitVec.ofNat 64 faddr, seq := 0, ref := ref, waiting := false }

/-! ### The trap handler (R243) -/
/-- Handler entry of one lane: a CALLI to the handler, with the handler bit, the entry depth and a region of its own.
`x.pc` is the faulting instruction's address, or the next one after TRAP and BPT, as the lane holds it. -/
def enterHandler (target : DWord) (retired : DWord) (x : Lane) : Lane :=
  { x with pc := target, depth := x.depth + 1, yld := false, handler := true, entryDepth := x.depth + 1,
           region := target, regionRetired := retired, st := .active }

/-- The handler bit clears when a RET returns the lane below its entry depth (R243). `x.depth` is the new depth. -/
def leaveHandler (x : Lane) : Lane :=
  if x.handler && decide (x.depth.toNat < x.entryDepth.toNat) then { x with handler := false } else x

/-- While any lane of the warp has its handler bit set, the warp holds privilege (R210, R243). -/
def Warp.privileged (w : Warp) : Bool := w.lanes.any (·.handler)

/-- Park the bundle's lanes that did not fault at this instruction (R104); the PC stays. -/
def parkBundle (why : ParkWhy) (s : State) : State :=
  s.updCw fun w => { w with parks := w.parks ++ [{ mask := s.live, pc := s.cur.pc, why := why }] }

/-- The bundle of a parked group becomes the one being executed, for the completion of its instruction. -/
def resumeCur (wk : Nat) (p : Park) (s : State) : State :=
  let w := s.warp wk
  s.setCur { Cur.none with core := (s.block w.bk).core, sched := w.idx % 2, wk := wk, mask := p.mask, pc := p.pc }
/-- A parked group is parked no longer; its lanes stand at the instruction still. -/
def unpark (wk : Nat) (p : Park) (s : State) : State :=
  s.updWarp wk fun w => { w with parks := w.parks.filter (· != p) }
/-- Take up a parked group and finish its instruction as `f` says; the bundle being executed stays what it was. -/
def takeUp (wk : Nat) (p : Park) (f : State → State) (s : State) : State :=
  (f (resumeCur wk p (unpark wk p s))).setCur s.cur
/-- Fences and drains of the warp that have not completed hold its posts back (R236). -/
def Warp.fencePending (w : Warp) : Bool := w.memq.any (·.fence)

/-- A guard in front of a meaning: the ill-formed combination raises ILLEGAL (R47, R68). -/
def legalOr (ok : Bool) (s : State) (k : State) : State := if ok then k else raiseIllegal s

end Sys2Proof.Machine
end

