-- ==== Sys2Proof/Machine/Operands.lean ====
section
/-! DEFINITION. Operand codes: their classes (R55, R56), reading downward (R120, R50), writing at each rank with its
faults in the order of R139 (R121 to R124, R133 to R135), and outstanding results (R49, R51). -/
namespace Sys2Proof.Machine

/-! ### Classes (R55, R56) -/
/-- Lane source: 0-126. -/
def laneSrc (c : Reg) : Bool := c.toNat ≤ 126
/-- Lane destination: 0-124. -/
def laneDst (c : Reg) : Bool := c.toNat ≤ 124
/-- Uniform source and destination: 92-124. -/
def uniCode (c : Reg) : Bool := decide (92 ≤ c.toNat) && decide (c.toNat ≤ 124)
/-- Lane target: 0-87 and 92-124. -/
def laneTgt (c : Reg) : Bool := decide (c.toNat ≤ 87) || uniCode c
/-- RED destination: 88-123. -/
def redTgt (c : Reg) : Bool := decide (88 ≤ c.toNat) && decide (c.toNat ≤ 123)
/-- GRED destination: 108-123. -/
def gredTgt (c : Reg) : Bool := decide (108 ≤ c.toNat) && decide (c.toNat ≤ 123)
/-- w0-w15 or z. -/
def warpOrZ (c : Reg) : Bool := (decide (92 ≤ c.toNat) && decide (c.toNat ≤ 107)) || c == 124
/-- The first code of a pair: an even code below 124, or 124. -/
def evenCode (c : Reg) : Bool := c.toNat % 2 == 0 && decide (c.toNat ≤ 124)
/-- FREE: 0-87 and z. -/
def freeCode (c : Reg) : Bool := decide (c.toNat ≤ 87) || c == 124

/-- One operand position: its number in FAULT.DETAIL (0 d or t, 1 a, 2 b), its code, whether its class accepts it. -/
structure OpPos where
  pos : Nat
  code : Reg
  ok : Bool
deriving DecidableEq, Repr

/-- The first position, in the order d or t, a, b, whose class does not accept its code (R240). -/
def firstBad : List OpPos → Option OpPos
  | [] => none
  | p :: t => if p.ok then firstBad t else some p

/-- OPERAND stands in front of every row of an instruction's own table (R47). -/
def operandsOr (ps : List OpPos) (s : State) (k : State) : State :=
  match firstBad ps with
  | some p => raiseOperand p.pos p.code s
  | none => k

/-! ### Outstanding writes (R49 to R51) -/
/-- The result's value is not there yet: its operation, its atomic or its object is waited for. -/
def Out.unknown (o : Out) : Bool := o.waitOp || o.waitAtom || o.obj.isSome
/-- The value of an outstanding write to a destination, the latest issued, where it is known. -/
def pendingWrite (outs : List Out) (d : Dest) : Option Word :=
  match outs with
  | [] => none
  | o :: t =>
    match pendingWrite t d with
    | some v => some v
    | none => if o.unknown then none else (o.writes.find? fun x => x.dest == d).map (·.val)

/-- A number for a destination, for the free choice of R50. -/
def destKey : Dest → Nat
  | .lane r l => 32 * r + l
  | .ply r p => 2816 + 4 * p + r
  | .warp r => 2832 + r
  | .pred p l => 2848 + 32 * p + l

/-- A register or predicate with an outstanding write reads as the prior value or the new one (R50, R6). -/
def chosen (tick : Nat) (outs : List Out) (d : Dest) (prior : Word) : Word :=
  match pendingWrite outs d with
  | some v => if Config.freeChoice tick (destKey d) then v else prior
  | none => prior

/-! ### Reading downward (R120) -/
/-- A lane register as it stands: 0 where nothing is mapped (R133). -/
def Warp.vreg (w : Warp) (r l : Nat) : Word := mGet w.vregs 0 (32 * r + l)
/-- A ply register. -/
def Warp.sreg (w : Warp) (r p : Nat) : Word := mGet w.sregs 0 (4 * p + r)
/-- A warp register. -/
def Warp.wreg (w : Warp) (r : Nat) : Word := mGet w.wregs 0 r

/-- The scoped register of a code 108-123, at its home. -/
def scopedOf (s : State) (b : Block) (c : Nat) : ScopedReg :=
  if c < 116 then mGet b.bregs (ScopedReg.init 0) (c - 108)
  else if c < 120 then mGet (s.cluster b.ck).cregs (ScopedReg.init 0) (c - 116)
  else mGet (s.grid b.gid).gregs (ScopedReg.init 0) (c - 120)

/-- An operand code as seen by lane l of warp w (R120, R138, R27) (R129). -/
def readCode (s : State) (w : Warp) (pc : DWord) (l : Nat) (c : Reg) : Word :=
  let n := c.toNat
  if n < 88 then chosen s.tick w.outs (.lane n l) (w.vreg n l)
  else if n < 92 then chosen s.tick w.outs (.ply (n - 88) (l / 8)) (w.sreg (n - 88) (l / 8))
  else if n < 108 then chosen s.tick w.outs (.warp (n - 92)) (w.wreg (n - 92))
  else if n < 124 then (scopedOf s (s.block w.bk) n).front
  else if n = 125 then BitVec.ofNat 32 l
  else if n = 126 then pc.setWidth 32
  else 0

/-- Operand c as lane l of the bundle sees it. -/
def State.src (s : State) (c : Reg) (l : Nat) : Word := readCode s s.cw s.cur.pc l c
/-- A 64-bit operand: z gives 0 in both halves (R56). -/
def State.src64 (s : State) (c : Reg) (l : Nat) : DWord :=
  if c = 124 then 0 else (s.src (c + 1) l ++ s.src c l : BitVec 64)
/-- A uniform operand, the same for every lane (R177). -/
def State.usrc (s : State) (c : Reg) : Word := s.src c (lowLane s.cur.mask)
/-- A uniform pair. -/
def State.usrc64 (s : State) (c : Reg) : DWord := s.src64 c (lowLane s.cur.mask)
/-- Predicate p of a lane; p7 is true (R27). -/
def State.pred (s : State) (p : PredNo) (l : Nat) : Bool :=
  if p.toNat = 7 then true
  else chosen s.tick s.cw.outs (.pred p.toNat l) (if (s.cw.lane l).preds.getLsbD p.toNat then 1 else 0) != 0
/-- Codes whose reading makes a result outstanding: c0-c3 and g0-g3 (R49). -/
def scopedSrc (c : Reg) : Bool := decide (116 ≤ c.toNat) && decide (c.toNat ≤ 123)

/-! ### The register file's rows (R133 to R135) -/
/-- The number of mapped registers. -/
def countBits {n : Nat} (x : BitVec n) : Nat := ((rangeFrom 0 n).filter fun i => x.getLsbD i).length
/-- Rows of a warp above its quota, which live in the core's backing region (R135). -/
def Warp.excess (w : Warp) : Nat := countBits w.mapped - w.limit.toNat
/-- Rows in the backing region of a core (512 rows, R133 heading). -/
def backingUsed (s : State) (core : Nat) : Nat :=
  (s.warps.map fun kw => if (s.block kw.2.bk).core = core ∧ ¬ kw.2.retiredW then kw.2.excess else 0).sum
/-- Whether the registers named can have rows: within the quota, or in the backing region (R135). -/
def rowsFit (s : State) (rs : List Nat) : Bool :=
  let w := s.cw
  let new := rs.filter fun r => !w.mapped.getLsbD r
  let m := countBits w.mapped + new.length
  new.isEmpty || decide (m ≤ w.limit.toNat) ||
    decide (backingUsed s s.cur.core + (m - w.limit.toNat) - w.excess ≤ 512)

/-! ### Writing -/
/-- R51: a later-issued write discards the outstanding one. -/
def dropPending (d : Dest) (w : Warp) : Warp :=
  { w with outs := w.outs.map fun o => { o with writes := o.writes.filter fun x => x.dest != d } }

/-- Store one value in the warp. -/
def storeDest (x : RegWrite) (w : Warp) : Warp :=
  match x.dest with
  | .lane r l => { w with vregs := mSet w.vregs (32 * r + l) x.val, mapped := w.mapped ||| (1#88 <<< r) }
  | .ply r p => { w with sregs := mSet w.sregs (4 * p + r) x.val }
  | .warp r => { w with wregs := mSet w.wregs r x.val }
  | .pred p l => w.updLanes (laneBit l) fun _ y =>
      { y with preds := if x.val = 0 then y.preds &&& ~~~ (1#7 <<< p) else y.preds ||| (1#7 <<< p) }

/-- A write at issue: it replaces the value and discards an outstanding one. -/
def writeNow (x : RegWrite) (w : Warp) : Warp := storeDest x (dropPending x.dest w)

/-- Writes in order. -/
def writeAll (xs : List RegWrite) (w : Warp) : Warp := xs.foldl (fun w x => writeNow x w) w

/-- The writes of per-lane values to a lane-register destination. -/
def laneWrites (d : Reg) (pair : Bool) : List (Nat × DWord) → List RegWrite
  | [] => []
  | (l, v) :: t =>
    { dest := .lane d.toNat l, val := v.setWidth 32 } ::
      (if pair then { dest := .lane (d.toNat + 1) l, val := (v >>> 32).setWidth 32 } :: laneWrites d pair t
       else laneWrites d pair t)

/-- The writes of one value to a warp or ply destination. -/
def warpWrites (d : Reg) (pair : Bool) (v : DWord) : List RegWrite :=
  { dest := .warp (d.toNat - 92), val := v.setWidth 32 } ::
    (if pair then [{ dest := .warp (d.toNat - 91), val := (v >>> 32).setWidth 32 }] else [])
/-- The same for ply p. -/
def plyWrites (d : Reg) (pair : Bool) (p : Nat) (v : DWord) : List RegWrite :=
  { dest := .ply (d.toNat - 88) p, val := v.setWidth 32 } ::
    (if pair then [{ dest := .ply (d.toNat - 87) p, val := (v >>> 32).setWidth 32 }] else [])

/-- The values of the bundle's lanes agree over the whole destination (R121). -/
def allAgree : List (Nat × DWord) → Bool
  | [] => true
  | (_, v) :: t => t.all fun x => x.2 == v

/-- The values of ply p. -/
def plyVals (p : Nat) (vals : List (Nat × DWord)) : List (Nat × DWord) := vals.filter fun x => x.1 / 8 == p

/-- The writes of an agreed bundle to s or w registers; none when it disagrees. -/
def agreeWrites (d : Reg) (pair : Bool) (vals : List (Nat × DWord)) : Option (List RegWrite) :=
  if d.toNat < 92 then
    if (rangeFrom 0 4).all fun p => allAgree (plyVals p vals) then
      some ((rangeFrom 0 4).flatMap fun p =>
        match plyVals p vals with
        | [] => []
        | (_, v) :: _ => plyWrites d pair p v)
    else none
  else if allAgree vals then some (warpWrites d pair ((vals.headD (0, 0)).2)) else none

/-! ### Back banks (R122, R126) -/
/-- What a write to one back bank meets: accepted with the new register, AGREE, or MIXED. -/
inductive BankRes where
  | ok (r : ScopedReg)
  | agree
  | mixed
deriving DecidableEq, Repr

/-- An agreement write reaches a back bank (R122, R126). -/
def bankAgree (r : ScopedReg) (v : Word) : BankRes :=
  match r.mode with
  | .none => .ok { r with mode := .agreed, back := v }
  | .agreed => if r.back = v then .ok r else .agree
  | .red _ => .mixed

/-- Put back a scoped register of a block (108-115), its cluster (116-119) or grid (120-123). -/
def setScoped (s : State) (b : Block) (c : Nat) (r : ScopedReg) : State :=
  if c < 116 then s.updBlock b.bk fun x => { x with bregs := mSet x.bregs (c - 108) r }
  else if c < 120 then s.updCluster b.ck fun x => { x with cregs := mSet x.cregs (c - 116) r }
  else s.updGrid b.gid fun x => { x with gregs := mSet x.gregs (c - 120) r }

/-- An agreement write of a value, or of a pair's two halves, to the bank of a code: both registers or neither. AGREE of
either half stands above MIXED of the other (R139, R8). -/
def bankWriteAgree (s : State) (b : Block) (c : Nat) (pair : Bool) (v : DWord) : Except Bool State :=
  let lo := bankAgree (scopedOf s b c) (v.setWidth 32)
  let hi := if pair then bankAgree (scopedOf s b (c + 1)) ((v >>> 32).setWidth 32) else lo
  match lo, hi with
  | .agree, _ => .error false
  | _, .agree => .error false
  | .mixed, _ => .error true
  | _, .mixed => .error true
  | .ok r, .ok r' => .ok (if pair then setScoped (setScoped s b c r) b (c + 1) r' else setScoped s b c r)

/-- Flags ORed into FPFLAGS (R75). -/
def raiseFlags (f : BitVec 5) (s : State) : State :=
  let s1 := s.updCw fun w => { w with fpflags := w.fpflags ||| f }
  s1.setCur { s1.cur with flags := s1.cur.flags ||| f }

/-- An instruction that writes its result and goes on. -/
def Ending.plain : Ending := ⟨false, true, []⟩
/-- The same for a committing instruction (R197). -/
def Ending.commit : Ending := ⟨true, true, []⟩
/-- The end of an instruction whose result is in place. -/
def Ending.apply (e : Ending) (s : State) : State :=
  let s1 := match e.preds with
    | [] => s
    | ps => s.updCw (writeAll ps)
  let s2 := advance s.live s1
  let s3 := if e.counts then retireIssue s2 else s2
  if e.commits then boundary s.live s3 else s3

/-- A write bound for a cluster or grid bank leaves for its home; the bundle waits for the acceptance (R123), and the
flags are raised with it (R75). -/
def sendBank (e : Ending) (code : Reg) (pair : Bool) (red : Option RedKind) (vals : List (Nat × DWord)) (f : BitVec 5)
    (s : State) : State :=
  let id := s.mem.nextQ
  let s1 := parkBundle (.bank id) s
  s1.updMem fun m => { m with nextQ := id + 1, bankq := m.bankq ++
    [{ id := id, wk := s.cur.wk, mask := s.cur.mask, code := code, pair := pair, red := red, vals := vals, flags := f,
       fin := e, core := s.cur.core, gid := s.cb.gid }] }

/-- WRITING A RESULT at issue: values per lane of the bundle to a destination code, with the fault rows of R139 in
their order, and the instruction's end. -/
def writeNowResult (e : Ending) (d : Reg) (pair : Bool) (vals : List (Nat × DWord)) (f : BitVec 5)
    (s : State) : State :=
  let n := d.toNat
  if n < 88 then
    if rowsFit s (if pair then [n, n + 1] else [n]) then
      e.apply (raiseFlags f (s.updCw (writeAll (laneWrites d pair vals))))
    else raiseQuota 0 s
  else if n < 108 then
    match agreeWrites d pair vals with
    | some xs => e.apply (raiseFlags f (s.updCw (writeAll xs)))
    | none => raiseAgree d s
  else if n < 124 then
    if allAgree vals then
      if s.cw.isWave && decide (n < 120) then raiseEngine 0x42 s.cur.pc s
      else if n < 116 then
        match bankWriteAgree s s.cb n pair ((vals.headD (0, 0)).2) with
        | .ok s1 => e.apply (raiseFlags f s1)
        | .error true => raiseMixed d s
        | .error false => raiseAgree d s
      else sendBank e d pair none vals f s
    else raiseAgree d s
  else e.apply (raiseFlags f s)

/-- The first number from n on that is above every number of a list. -/
def above (n : Nat) (ids : List Nat) : Nat := ids.foldl (fun m i => max m (i + 1)) n
/-- A number that no operation and no result of a warp has: the next of its stream. -/
def Warp.fresh (w : Warp) : Nat := above w.nextId (w.outs.map (·.id) ++ w.memq.map (·.id))
/-- A fresh number in the stream of the bundle's warp. -/
def freshId (s : State) : Nat := s.cw.fresh

/-- An outstanding result with nothing in it. -/
def Out.blank (id : Nat) (mask : Word) (d : Reg) (pair : Bool) : Out :=
  { id := id, mask := mask, wide := decide (88 ≤ d.toNat) && decide (d.toNat < 124), dest := d, pair := pair, writes := [],
    vals := [], agree := false, flags := 0, load := none, obj := none, waitAtom := false, waitOp := false, peer := none,
    pc := 0, seen := false, kept := 0, fin := .plain }

/-- Add an outstanding result; its registers lose any earlier outstanding write (R51). -/
def addOut (o : Out) (s : State) : State :=
  s.updCw fun w =>
    let w1 := o.writes.foldl (fun w x => dropPending x.dest w) w
    { w1 with outs := w1.outs ++ [o], nextId := o.id + 1 }

/-- Rows found at issue for a lane destination: the registers become mapped (R135). -/
def mapRows (rs : List Nat) (s : State) : State :=
  s.updCw fun w => { w with mapped := rs.foldl (fun m r => m ||| (1#88 <<< r)) w.mapped }

/-- The register writes of per-lane values in the warp: none where an agreement fails. Those of a wider bank are made at
the bank. -/
def dueWrites (d : Reg) (pair : Bool) (vals : List (Nat × DWord)) : Option (List RegWrite) :=
  if d.toNat < 88 then some (laneWrites d pair vals)
  else if d.toNat < 108 then agreeWrites d pair vals
  else some []

/-- WRITING AN OUTSTANDING RESULT (R49): the values are those sampled at issue. A lane destination gets its rows now
(R135). An agreement write takes its place in the warp's order now (R128); it is compared when the result returns, and the
bundle waits for it (R123). `per` says that the values are per lane (a lane-set instruction); a group-set write to w
registers is plain. `o` carries what the return needs. -/
def outResult (e : Ending) (per : Bool) (d : Reg) (pair : Bool) (vals : List (Nat × DWord)) (o : Out)
    (s : State) : State :=
  let n := d.toNat
  let e1 := { e with preds := [] }
  if n < 88 then
    let rs := if pair then [n, n + 1] else [n]
    if rowsFit s rs then
      e1.apply (mapRows rs (addOut { o with writes := laneWrites d pair vals ++ e.preds, vals := vals } s))
    else raiseQuota 0 s
  else if n = 124 then e1.apply (addOut { o with writes := e.preds, vals := vals } s)
  else if !per && decide (92 ≤ n) && decide (n < 108) then
    e1.apply (addOut { o with writes := warpWrites d pair ((vals.headD (0, 0)).2) ++ e.preds, vals := vals } s)
  else
    parkBundle (.compare o.id)
      (addOut { o with writes := (dueWrites d pair vals).getD [], vals := vals, agree := true, fin := e } s)

/-- The result of a register instruction: fixed latency, or outstanding when a source is c0-g3 (R49). -/
def writeResult (srcs : List Reg) (d : Reg) (pair : Bool) (vals : List (Nat × DWord)) (f : BitVec 5) (s : State) :
    State :=
  if srcs.any scopedSrc then
    outResult .plain true d pair vals { Out.blank (freshId s) s.cur.mask d pair with flags := f } s
  else writeNowResult .plain d pair vals f s

/-- The same for a group-set instruction: one value for the warp. -/
def writeUniform (srcs : List Reg) (d : Reg) (pair : Bool) (v : DWord) (s : State) : State :=
  if srcs.any scopedSrc then
    outResult .plain false d pair [(lowLane s.cur.mask, v)] (Out.blank (freshId s) s.cur.mask d pair) s
  else writeNowResult .plain d pair [(lowLane s.cur.mask, v)] 0 s

/-- The writes of a predicate; p7 takes none (R138). -/
def predWrites (p : PredNo) : List (Nat × Bool) → List RegWrite
  | [] => []
  | (l, v) :: t => if p.toNat = 7 then [] else
    { dest := .pred p.toNat l, val := if v then 1 else 0 } :: predWrites p t

/-- Writing a predicate of the bundle's lanes, outstanding when a source is c0-g3 (R49). -/
def writePred (srcs : List Reg) (p : PredNo) (vals : List (Nat × Bool)) (f : BitVec 5) (s : State) : State :=
  if srcs.any scopedSrc then
    done (addOut { Out.blank (freshId s) s.cur.mask 124 false with writes := predWrites p vals, flags := f } s)
  else done (raiseFlags f (s.updCw (writeAll (predWrites p vals))))

/-- The values of a function at the bundle's lanes. -/
def State.perLane {α : Type} (s : State) (f : Nat → α) : List (Nat × α) := s.bl.map fun l => (l, f l)
/-- 32-bit values as destination values. -/
def z64 (x : Word) : DWord := x.setWidth 64

end Sys2Proof.Machine
end

