-- ==== Sys2Proof/Machine/IntArith.lean ====
section
/-! DEFINITION. Integer, logic, immediate and predicate instructions, opcodes 0x01 to 0x1A (R138 to R160): the value
function of each, and its meaning over the shared operations. -/
namespace Sys2Proof.Machine

/-- The outcome of every meaning here: a next state. -/
abbrev Res := Host.Outcome State Fault Refusal

/-! ### Shapes -/
/-- d := f(a, b) per lane, 32 bits. -/
def lane2 (f : Word → Word → Word) (d a b : Reg) (s : State) : State :=
  operandsOr [⟨0, d, laneDst d⟩, ⟨1, a, laneSrc a⟩, ⟨2, b, laneSrc b⟩] s
    (writeResult [a, b] d false (s.perLane fun l => z64 (f (s.src a l) (s.src b l))) 0 s)
/-- d := f(prior d, a, b) per lane (R60). -/
def lane3 (f : Word → Word → Word → Word) (d a b : Reg) (s : State) : State :=
  operandsOr [⟨0, d, laneDst d⟩, ⟨1, a, laneSrc a⟩, ⟨2, b, laneSrc b⟩] s
    (writeResult [a, b] d false (s.perLane fun l => z64 (f (s.src d l) (s.src a l) (s.src b l))) 0 s)
/-- d := f(a) per lane. -/
def lane1 (f : Word → Word) (d a : Reg) (s : State) : State :=
  operandsOr [⟨0, d, laneDst d⟩, ⟨1, a, laneSrc a⟩] s
    (writeResult [a] d false (s.perLane fun l => z64 (f (s.src a l))) 0 s)
/-- p := f(a, b) per lane. -/
def lanePred (f : Word → Word → Bool) (p : PredNo) (a b : Reg) (s : State) : State :=
  operandsOr [⟨1, a, laneSrc a⟩, ⟨2, b, laneSrc b⟩] s
    (writePred [a, b] p (s.perLane fun l => f (s.src a l) (s.src b l)) 0 s)

/-! ### Values -/
/-- Sat(t, .s) and Sat(t, .n) as 32-bit patterns (R141). -/
def satS (t : Int) : Word := wrap32 (max (-2147483648) (min t 2147483647))
def satN (t : Int) : Word := wrap32 (max 0 (min t 4294967295))

/-- IADD (R143). -/
def iaddVal (m : SatMode) (x y : Word) : Word :=
  match m with
  | .wrap => x + y
  | .satS => satS (sInt x + sInt y)
  | .satN => satN (nInt x + nInt y)
/-- ISUB (R143). -/
def isubVal (m : SatMode) (x y : Word) : Word :=
  match m with
  | .wrap => x - y
  | .satS => satS (sInt x - sInt y)
  | .satN => satN (nInt x - nInt y)
/-- The word that IMUL and IMAD keep of the product (R144). -/
def mulWord (m : MulPart) (x y : Word) : Word :=
  match m with
  | .lo => x * y
  | .hiS => (BitVec.ofInt 64 (sInt x * sInt y) >>> 32).setWidth 32
  | .hiN => (BitVec.ofInt 64 (nInt x * nInt y) >>> 32).setWidth 32
/-- IMNMX (R145): equal operands give a. -/
def mnmxVal (m : MnMx) (x y : Word) : Word :=
  match m with
  | .minS => if y.slt x then y else x
  | .maxS => if x.slt y then y else x
  | .minN => if y.ult x then y else x
  | .maxN => if x.ult y then y else x
/-- LOP (R149). -/
def lopVal (m : LopOp) (x y : Word) : Word :=
  match m with
  | .and => x &&& y
  | .or => x ||| y
  | .xor => x ^^^ y
  | .andn => x &&& ~~~ y
  | .orn => x ||| ~~~ y
  | .xnor => ~~~ (x ^^^ y)
/-- SHF (R150): the amount is the whole word. -/
def shfVal (m : ShfOp) (x y : Word) : Word :=
  match m with
  | .shl => if y.toNat < 32 then x <<< y.toNat else 0
  | .shrN => if y.toNat < 32 then x >>> y.toNat else 0
  | .shrS => x.sshiftRight (min y.toNat 32)
  | .rol => x.rotateLeft (y.toNat % 32)
  | .ror => x.rotateRight (y.toNat % 32)
/-- The count of 1 bits. -/
def popc (x : Word) : Nat := countBits x
/-- Leading 0 bits; 32 for 0. -/
def clzOf (x : Word) : Nat := 31 - Nat.log2 x.toNat + if x = 0 then 1 else 0
/-- Trailing 0 bits; 32 for 0. -/
def ctzOf (x : Word) : Nat := ((rangeFrom 0 32).find? fun i => x.getLsbD i).getD 32
/-- Bit i moved to bit 31 - i. -/
def brevOf (x : Word) : Word := lanesMask ((rangeFrom 0 32).filter fun i => x.getLsbD (31 - i))
/-- IUNA (R151). -/
def unaVal (m : UnaOp) (x : Word) : Word :=
  match m with
  | .popc => BitVec.ofNat 32 (popc x)
  | .clz => BitVec.ofNat 32 (clzOf x)
  | .ctz => BitVec.ofNat 32 (ctzOf x)
  | .brev => brevOf x
  | .absS => if x.getLsbD 31 then 0 - x else x
  | .neg => 0 - x
  | .not => ~~~ x
/-- The position of a bit field, b[4:0] (R152). -/
def fieldPos (y : Word) : Nat := y.toNat % 32
/-- The length of a bit field, b[12:8], cut at bit 31 (R152). -/
def fieldLen (y : Word) : Nat := min (y.toNat / 256 % 32) (32 - fieldPos y)
/-- BFE (R152). -/
def bfeVal (signed : Bool) (x y : Word) : Word :=
  let p := fieldPos y
  let n := fieldLen y
  let f := x.toNat / 2 ^ p % 2 ^ n
  if n = 0 then 0
  else if signed && decide (2 ^ (n - 1) ≤ f) then BitVec.ofInt 32 ((f : Int) - 2 ^ n)
  else BitVec.ofNat 32 f
/-- BFI (R153): a's low bits into prior(d). -/
def bfiVal (d x y : Word) : Word :=
  let p := fieldPos y
  let n := fieldLen y
  let m : Word := BitVec.ofNat 32 ((2 ^ n - 1) * 2 ^ p)
  (d &&& ~~~ m) ||| ((x <<< p) &&& m)
/-- IDIV (R148): no fault on 0. -/
def divVal (m : DivOp) (x y : Word) : Word :=
  match m with
  | .divS => if y = 0 then 0xFFFFFFFF else wrap32 (Int.tdiv (sInt x) (sInt y))
  | .divN => if y = 0 then 0xFFFFFFFF else BitVec.ofNat 32 (x.toNat / y.toNat)
  | .remS => if y = 0 then x else wrap32 (Int.tmod (sInt x) (sInt y))
  | .remN => if y = 0 then x else BitVec.ofNat 32 (x.toNat % y.toNat)
/-- PRMT's result byte i (R154). -/
def prmtByte (sel x y : Word) (i : Nat) : Nat :=
  let e := sel.toNat / 2 ^ (4 * i) % 16
  let k := e % 8
  let v := if k < 4 then x.toNat / 2 ^ (8 * k) % 256 else y.toNat / 2 ^ (8 * (k - 4)) % 256
  if e < 8 then v else if 128 ≤ v then 255 else 0
/-- PRMT (R154). -/
def prmtVal (d x y : Word) : Word :=
  BitVec.ofNat 32 (prmtByte d x y 0 + 256 * prmtByte d x y 1 + 65536 * prmtByte d x y 2 + 16777216 * prmtByte d x y 3)
/-- PLOP (R160). -/
def plopVal (m : PlopOp) (x y : Bool) : Bool :=
  match m with
  | .and => x && y
  | .or => x || y
  | .xor => x != y
  | .andn => x && !y
  | .not => !x

/-! ### Meanings -/
/-- IADD (R143). -/
def execIadd (_sw : Bool) (m : SatMode) (d a b : Reg) (s : State) : Res := .next (lane2 (iaddVal m) d a b s)
/-- ISUB (R143). -/
def execIsub (_sw : Bool) (m : SatMode) (d a b : Reg) (s : State) : Res := .next (lane2 (isubVal m) d a b s)
/-- IMUL (R144). -/
def execImul (_sw : Bool) (m : MulPart) (d a b : Reg) (s : State) : Res := .next (lane2 (mulWord m) d a b s)
/-- IMAD (R144): prior(d) is the addend. -/
def execImad (_sw : Bool) (m : MulPart) (d a b : Reg) (s : State) : Res :=
  .next (lane3 (fun p x y => p + mulWord m x y) d a b s)
/-- IMNMX (R145). -/
def execImnmx (_sw : Bool) (m : MnMx) (d a b : Reg) (s : State) : Res := .next (lane2 (mnmxVal m) d a b s)
/-- LOP (R149). -/
def execLop (_sw : Bool) (m : LopOp) (d a b : Reg) (s : State) : Res := .next (lane2 (lopVal m) d a b s)
/-- SHF (R150). -/
def execShf (_sw : Bool) (m : ShfOp) (d a b : Reg) (s : State) : Res := .next (lane2 (shfVal m) d a b s)
/-- IUNA (R151). -/
def execIuna (_sw : Bool) (m : UnaOp) (d a : Reg) (s : State) : Res := .next (lane1 (unaVal m) d a s)
/-- BFE (R152). -/
def execBfe (_sw : Bool) (signed : Bool) (d a b : Reg) (s : State) : Res := .next (lane2 (bfeVal signed) d a b s)
/-- BFI (R153). -/
def execBfi (_sw : Bool) (d a b : Reg) (s : State) : Res := .next (lane3 bfiVal d a b s)
/-- ISET (R158). -/
def execIset (_sw : Bool) (c : Cond) (p : PredNo) (a b : Reg) (s : State) : Res := .next (lanePred (condHolds c) p a b s)
/-- SEL (R159). -/
def execSel (_sw : Bool) (p : PredNo) (d a b : Reg) (s : State) : Res :=
  .next (operandsOr [⟨0, d, laneDst d⟩, ⟨1, a, laneSrc a⟩, ⟨2, b, laneSrc b⟩] s
    (writeResult [a, b] d false (s.perLane fun l => z64 (if s.pred p l then s.src a l else s.src b l)) 0 s))
/-- LEA (R147). -/
def execLea (_sw : Bool) (sh : BitVec 3) (d a b : Reg) (s : State) : Res :=
  .next (lane2 (fun x y => x + (y <<< sh.toNat)) d a b s)
/-- IADD64 (R146), on pairs. -/
def execIadd64 (_sw : Bool) (sub : Bool) (d a b : Reg) (s : State) : Res :=
  .next (operandsOr [⟨0, d, evenCode d⟩, ⟨1, a, evenCode a⟩, ⟨2, b, evenCode b⟩] s
    (writeResult [a, b] d true
      (s.perLane fun l => if sub then s.src64 a l - s.src64 b l else s.src64 a l + s.src64 b l) 0 s))
/-- IDIV (R148): the result is outstanding (R49). -/
def execIdiv (_sw : Bool) (m : DivOp) (d a b : Reg) (s : State) : Res :=
  .next (operandsOr [⟨0, d, laneDst d⟩, ⟨1, a, laneSrc a⟩, ⟨2, b, laneSrc b⟩] s
    (outResult .plain true d false (s.perLane fun l => z64 (divVal m (s.src a l) (s.src b l)))
      (Out.blank (freshId s) s.cur.mask d false) s))
/-- The 10-bit immediate, sign-extended (R155). -/
def immS (imm : BitVec 10) : Word := imm.signExtend 32
/-- IADDI (R155). -/
def execIaddi (_sw : Bool) (d a : Reg) (imm : BitVec 10) (s : State) : Res := .next (lane1 (fun x => x + immS imm) d a s)
/-- ANDI (R155). -/
def execAndi (_sw : Bool) (d a : Reg) (imm : BitVec 10) (s : State) : Res := .next (lane1 (fun x => x &&& immS imm) d a s)
/-- ORI (R155). -/
def execOri (_sw : Bool) (d a : Reg) (imm : BitVec 10) (s : State) : Res := .next (lane1 (fun x => x ||| immS imm) d a s)
/-- XORI (R155). -/
def execXori (_sw : Bool) (d a : Reg) (imm : BitVec 10) (s : State) : Res := .next (lane1 (fun x => x ^^^ immS imm) d a s)
/-- SHLI (R155). -/
def execShli (_sw : Bool) (d a : Reg) (n : BitVec 5) (s : State) : Res := .next (lane1 (fun x => x <<< n.toNat) d a s)
/-- SHRI (R155). -/
def execShri (_sw : Bool) (d a : Reg) (n : BitVec 5) (s : State) : Res := .next (lane1 (fun x => x >>> n.toNat) d a s)
/-- A constant for every lane of the bundle. -/
def laneConst (v : Word) (d : Reg) (s : State) : State :=
  operandsOr [⟨0, d, laneDst d⟩] s (writeResult [] d false (s.perLane fun _ => z64 v) 0 s)
/-- MOVL (R156). -/
def execMovl (_sw : Bool) (d : Reg) (imm : BitVec 16) (s : State) : Res := .next (laneConst (imm.setWidth 32) d s)
/-- MOVH (R156). -/
def execMovh (_sw : Bool) (d : Reg) (imm : BitVec 16) (s : State) : Res :=
  .next (laneConst (imm.setWidth 32 <<< 16) d s)
/-- ISETI (R158). -/
def execIseti (_sw : Bool) (c : Cond) (p : PredNo) (a : Reg) (imm : BitVec 10) (s : State) : Res :=
  .next (operandsOr [⟨1, a, laneSrc a⟩] s (writePred [a] p (s.perLane fun l => condHolds c (s.src a l) (immS imm)) 0 s))
/-- MOV (R157). -/
def execMov (_sw : Bool) (d a : Reg) (s : State) : Res := .next (lane1 (fun x => x) d a s)
/-- PLOP (R160). -/
def execPlop (_sw : Bool) (m : PlopOp) (d a b : PredNo) (s : State) : Res :=
  .next (legalOr (wellFormed (.plop _sw m d a b)) s
    (writePred [] d (s.perLane fun l => plopVal m (s.pred a l) (s.pred b l)) 0 s))
/-- PRMT (R154). -/
def execPrmt (_sw : Bool) (d a b : Reg) (s : State) : Res := .next (lane3 prmtVal d a b s)

end Sys2Proof.Machine
end

