-- ==== Sys2Proof/Machine/Num.lean ====
section
/-! DEFINITION. Number formats and rounding (04_number_formats.md, R57 to R84): decoding a pattern, exact values, one
rounding in each mode with its flags, and the exact operations that the floating-point instructions share. -/
namespace Sys2Proof.Machine

/-- A binary format (R69, R76, R81): exponent and fraction widths, bias, infinities, signalling NaNs. -/
structure Fmt where
  ebits : Nat
  fbits : Nat
  bias : Nat
  hasInf : Bool
  hasSnan : Bool
deriving DecidableEq, Repr

def fp64 : Fmt := ⟨11, 52, 1023, true, true⟩
def fp32 : Fmt := ⟨8, 23, 127, true, true⟩
def bf16 : Fmt := ⟨8, 7, 127, true, true⟩
def fp16 : Fmt := ⟨5, 10, 15, true, true⟩
def e4m3 : Fmt := ⟨4, 3, 7, false, false⟩
def e5m2 : Fmt := ⟨5, 2, 15, true, false⟩
/-- XA48 without its 16 zero bits (R81). -/
def xa48 : Fmt := ⟨9, 38, 255, true, false⟩

/-- A decoded value: ±mant·2^exp, an infinity, or a NaN. -/
inductive FV where
  | fin (neg : Bool) (mant : Nat) (exp : Int)
  | inf (neg : Bool)
  | nan (signalling : Bool)
deriving DecidableEq, Repr

/-- The value of a pattern (R69, R71, R76, R81). -/
def decodeF (f : Fmt) (x : Nat) : FV :=
  let neg := x / 2 ^ (f.ebits + f.fbits) % 2 == 1
  let e := x / 2 ^ f.fbits % 2 ^ f.ebits
  let fr := x % 2 ^ f.fbits
  let top := 2 ^ f.ebits - 1
  if f.hasInf && e == top then
    if fr == 0 then .inf neg else .nan (f.hasSnan && decide (fr < 2 ^ (f.fbits - 1)))
  else if !f.hasInf && e == top && fr == 2 ^ f.fbits - 1 then .nan false
  else if e == 0 then .fin neg fr (1 - (f.bias : Int) - f.fbits)
  else .fin neg (2 ^ f.fbits + fr) ((e : Int) - f.bias - f.fbits)

/-- The canonical NaN (R69, R76, R81). -/
def canonNan (f : Fmt) : Nat :=
  if f.hasInf then (2 ^ f.ebits - 1) * 2 ^ f.fbits + 2 ^ (f.fbits - 1) else 2 ^ (f.ebits + f.fbits) - 1
/-- The sign bit in place. -/
def signPat (f : Fmt) (neg : Bool) : Nat := if neg then 2 ^ (f.ebits + f.fbits) else 0
/-- An infinity's pattern; in E4M3 the NaN of that sign (R83). -/
def infPat (f : Fmt) (neg : Bool) : Nat :=
  signPat f neg + if f.hasInf then (2 ^ f.ebits - 1) * 2 ^ f.fbits else 2 ^ (f.ebits + f.fbits) - 1
/-- The largest finite magnitude as a pattern (R69, R76). -/
def maxPat (f : Fmt) (neg : Bool) : Nat :=
  signPat f neg + if f.hasInf then (2 ^ f.ebits - 1) * 2 ^ f.fbits - 1 else 2 ^ (f.ebits + f.fbits) - 2
/-- The exponent of the unit in the last place at the largest binade, and the largest significand there. -/
def maxQ (f : Fmt) : Int := (2 ^ f.ebits : Nat) - (if f.hasInf then 2 else 1 : Nat) - (f.bias : Int) - f.fbits
def maxT (f : Fmt) : Nat := 2 ^ (f.fbits + 1) - (if f.hasInf then 1 else 2)

/-- An exact real ±(mant + δ)·2^exp, with 0 < δ < 1 when `sticky` and δ = 0 otherwise. -/
structure Ex where
  neg : Bool
  mant : Nat
  exp : Int
  sticky : Bool
deriving DecidableEq, Repr

/-- The rounding modes of R57 once .rdyn is resolved, with the random word of R59. -/
structure Mode where
  m : Rnd
  rnd : Nat
  /-- the result's expansion counts as unbounded (R59) -/
  full : Bool
deriving DecidableEq, Repr
/-- Round to nearest, ties to even. -/
def rne : Mode := ⟨.rn, 0, false⟩

/-- Trailing zero bits of a number below 2^n. -/
def trailZeros (x n : Nat) : Nat := ((rangeFrom 0 n).find? fun i => x.testBit i).getD n

/-- The magnitude of x in units of 2^q, rounded in a mode, and whether a discarded bit was nonzero (R57, R59). -/
def roundUnits (md : Mode) (x : Ex) (q : Int) : Nat × Bool :=
  if q ≤ x.exp then (x.mant * 2 ^ (x.exp - q).toNat, x.sticky)
  else
    let d := (q - x.exp).toNat
    let t := x.mant / 2 ^ d
    let r := x.mant % 2 ^ d
    let inexact := r != 0 || x.sticky
    let half := 2 ^ (d - 1)
    let up : Bool :=
      match md.m with
      | .rn => decide (half < r) || (r == half && (x.sticky || t % 2 == 1))
      | .ra => decide (half ≤ r)
      | .rd => x.neg && inexact
      | .ru => !x.neg && inexact
      | .rs =>
        let k := if md.full || x.sticky then 32 else min 32 (d - trailZeros r d)
        let fk := if k ≤ d then r / 2 ^ (d - k) else r * 2 ^ (k - d)
        decide (2 ^ k ≤ fk + md.rnd % 2 ^ k)
      | .rz | .ro | .rdyn => false
    let t1 := if md.m == .ro && inexact then t ||| 1 else t
    (t1 + if up then 1 else 0, inexact)

/-- Round(x, mode) to a format: the pattern and the flags (R72, R73). `satInf` gives the largest finite value in place
of an infinity (R83). -/
def roundF (f : Fmt) (md : Mode) (satInf : Bool) (x : Ex) : Nat × BitVec 5 :=
  if x.mant = 0 ∧ ¬ x.sticky then (signPat f x.neg, 0)
  else
    let e : Int := (Nat.log2 x.mant : Int) + x.exp
    let emin : Int := 1 - (f.bias : Int)
    let q := (max e emin) - f.fbits
    let (t, inexact) := roundUnits md x q
    if maxQ f < q ∨ (q = maxQ f ∧ maxT f < t) then
      let toInf := match md.m with
        | .rn | .ra | .rs => true
        | .rd => x.neg
        | .ru => !x.neg
        | .rz | .ro | .rdyn => false
      (if toInf && !satInf then infPat f x.neg else maxPat f x.neg, fOF ||| fNX)
    else
      let tiny : Bool :=
        if emin ≤ e then false
        else if e < emin - 1 then true
        else decide ((roundUnits md x (e - f.fbits)).1 < 2 ^ (f.fbits + 1))
      let be := (q + f.fbits + f.bias).toNat
      let pat := if 2 ^ f.fbits ≤ t then be * 2 ^ f.fbits + (t - 2 ^ f.fbits) else t
      (signPat f x.neg + pat, (if inexact then fNX else 0) ||| (if inexact && tiny then fUF else 0))

/-! ### Exact sums and products -/
/-- A signed integer at an exponent. -/
def exOf (v : Int) (exp : Int) : Ex := ⟨decide (v < 0), v.natAbs, exp, false⟩

/-- One addend: its sign, magnitude and exponent. -/
abbrev Term := Bool × Nat × Int
/-- The least exponent of some addends. -/
def minExp : List Term → Int
  | [] => 0
  | [(_, _, e)] => e
  | (_, _, e) :: t => min e (minExp t)
/-- The exact sum of finite addends (R71): a zero sum takes the addends' common zero sign, or the mode's. -/
def sumEx (md : Mode) (ts : List Term) : Ex :=
  let m := minExp ts
  let v : Int := (ts.map fun t => (if t.1 then -1 else 1) * ((t.2.1 * 2 ^ (t.2.2 - m).toNat : Nat) : Int)).sum
  if v = 0 then
    let allZero := ts.all fun t => t.2.1 == 0
    let neg := if allZero && ts.all (·.1) then true
      else if allZero && ts.all (fun t => !t.1) then false
      else md.m == .rd
    ⟨neg, 0, m, false⟩
  else exOf v m

/-- A value that is signalling raises NV (R71). -/
def FV.snan : FV → Bool
  | .nan b => b
  | _ => false
def FV.isNan : FV → Bool
  | .nan _ => true
  | _ => false
def FV.isInf : FV → Bool
  | .inf _ => true
  | _ => false
def FV.isZero : FV → Bool
  | .fin _ 0 _ => true
  | _ => false
def FV.neg? : FV → Bool
  | .fin b _ _ => b
  | .inf b => b
  | .nan _ => false
/-- The addend of a finite value. -/
def FV.term : FV → Term
  | .fin b m e => (b, m, e)
  | _ => (false, 0, 0)
/-- The product of two factors that are not NaN: a term, an infinity, or 0 × ∞. -/
inductive Prod where
  | fin (t : Term)
  | inf (neg : Bool)
  | invalid
deriving DecidableEq, Repr
def mulFV (a b : FV) : Prod :=
  let neg := a.neg? != b.neg?
  if a.isInf || b.isInf then (if a.isZero || b.isZero then .invalid else .inf neg)
  else match a, b with
    | .fin _ m e, .fin _ n g => .fin (neg, m * n, e + g)
    | _, _ => .invalid

/-- NV when any operand is signalling. -/
def snanFlag (vs : List FV) : BitVec 5 := if vs.any (·.snan) then fNV else 0

/-- The sum of products and of one addend, rounded once: FADD with no product, the fused forms, FDOT2 (R71, R161,
R166, R167). 0 × ∞ raises NV whatever the addend. -/
def dotF (f : Fmt) (md : Mode) (ps : List (FV × FV)) (cs : List FV) : Nat × BitVec 5 :=
  let ops := ps.flatMap (fun p => [p.1, p.2]) ++ cs
  let sn := snanFlag ops
  let prods := ps.map fun p => if p.1.isNan || p.2.isNan then Prod.fin (false, 0, 0) else mulFV p.1 p.2
  let infs := prods.filterMap (fun p => match p with | .inf b => some b | _ => none)
    ++ cs.filterMap (fun c => match c with | .inf b => some b | _ => none)
  if prods.any (· == .invalid) || (infs.contains true && infs.contains false) then (canonNan f, fNV)
  else if ops.any (·.isNan) then (canonNan f, sn)
  else
    match infs with
    | b :: _ => (infPat f b, 0)
    | [] =>
      let terms := prods.filterMap (fun p => match p with | .fin t => some t | _ => none) ++ cs.map (·.term)
      roundF f md false (sumEx md terms)

/-- A value negated; a NaN stays as it is. -/
def FV.negate : FV → FV
  | .fin b m e => .fin (!b) m e
  | .inf b => .inf (!b)
  | .nan s => .nan s

/-- FADD, FSUB, FMUL on patterns of one format (R161, R162). -/
def addF (f : Fmt) (md : Mode) (a b : Nat) : Nat × BitVec 5 := dotF f md [] [decodeF f a, decodeF f b]
def subF (f : Fmt) (md : Mode) (a b : Nat) : Nat × BitVec 5 := dotF f md [] [decodeF f a, (decodeF f b).negate]
def mulF (f : Fmt) (md : Mode) (a b : Nat) : Nat × BitVec 5 := dotF f md [(decodeF f a, decodeF f b)] []
/-- a·b + c with one rounding. -/
def fmaF (f : Fmt) (md : Mode) (a b c : Nat) : Nat × BitVec 5 :=
  dotF f md [(decodeF f a, decodeF f b)] [decodeF f c]

/-- The numeric order of two values that are not NaN: -1, 0 or 1; -0 equals +0. -/
def cmpFV (a b : FV) : Int :=
  match a, b with
  | .inf x, .inf y => if x == y then 0 else if x then -1 else 1
  | .inf x, _ => if x then -1 else 1
  | _, .inf y => if y then 1 else -1
  | .fin x m e, .fin y n g =>
    let k := min e g
    let u : Int := (if x then -1 else 1) * ((m * 2 ^ (e - k).toNat : Nat) : Int)
    let v : Int := (if y then -1 else 1) * ((n * 2 ^ (g - k).toNat : Nat) : Int)
    if u < v then -1 else if v < u then 1 else 0
  | _, _ => 0

/-- Whether a ranks below b when -0 ranks below +0 (R71). -/
def belowFV (a b : FV) : Bool :=
  cmpFV a b == -1 || (cmpFV a b == 0 && a.neg? && !b.neg?)

/-- FMNMX on patterns (R163). -/
def fmnmxF (f : Fmt) (op : FmnOp) (a b : Nat) : Nat × BitVec 5 :=
  let x := decodeF f a
  let y := decodeF f b
  let fl := snanFlag [x, y]
  let isMax := op == .max || op == .maxnum
  let num := op == .minnum || op == .maxnum
  if x.isNan && y.isNan then (canonNan f, fl)
  else if x.isNan then (if num then b else canonNan f, fl)
  else if y.isNan then (if num then a else canonNan f, fl)
  else ((if isMax then (if belowFV x y then b else a) else (if belowFV y x then b else a)), fl)

/-- FSET and DSET on patterns (R164). -/
def fsetF (f : Fmt) (c : FCond) (a b : Nat) : Bool × BitVec 5 :=
  let x := decodeF f a
  let y := decodeF f b
  let un := x.isNan || y.isNan
  let k := cmpFV x y
  let v := match c with
    | .eq => !un && k == 0
    | .ne => un || k != 0
    | .lt => !un && k == -1
    | .le => !un && k != 1
    | .gt => !un && k == 1
    | .ge => !un && k != -1
    | .unord => un
    | .ord => !un
  (v, snanFlag [x, y])

/-- FCLS (R165): one bit. -/
def fclsF (f : Fmt) (a : Nat) : Nat :=
  let sub : Bool := a / 2 ^ f.fbits % 2 ^ f.ebits == 0
  match decodeF f a with
  | .nan true => 1
  | .nan false => 2
  | .inf true => 4
  | .inf false => 512
  | .fin true 0 _ => 32
  | .fin false 0 _ => 64
  | .fin true _ _ => if sub then 16 else 8
  | .fin false _ _ => if sub then 128 else 256

/-! ### Conversions between formats -/
/-- A float to another float format (R83): `sat` is b[6]. -/
def cvtFF (src dst : Fmt) (md : Mode) (sat : Bool) (a : Nat) : Nat × BitVec 5 :=
  match decodeF src a with
  | .nan s => (canonNan dst, if s then fNV else 0)
  | .inf b =>
    if dst.hasInf then (infPat dst b, 0)
    else if sat then (maxPat dst b, fOF ||| fNX) else (infPat dst b, fNV)
  | .fin b m e => roundF dst md sat ⟨b, m, e, false⟩

/-- A float to an integer of 32 bits (R84). -/
def cvtFI (src : Fmt) (md : Mode) (signed : Bool) (a : Nat) : Nat × BitVec 5 :=
  let lo : Int := if signed then -2147483648 else 0
  let hi : Int := if signed then 2147483647 else 4294967295
  let pat (v : Int) : Nat := (BitVec.ofInt 32 v).toNat
  match decodeF src a with
  | .nan _ => (0, fNV)
  | .inf b => (pat (if b then lo else hi), fNV)
  | .fin b m e =>
    let (t, inexact) := roundUnits md ⟨b, m, e, false⟩ 0
    let v : Int := if b then -(t : Int) else t
    if v < lo then (pat lo, fNV) else if hi < v then (pat hi, fNV) else (pat v, if inexact then fNX else 0)

/-- An integer to a float (R83). -/
def cvtIF (dst : Fmt) (md : Mode) (v : Int) : Nat × BitVec 5 := roundF dst md false (exOf v 0)

/-- An XA48 pattern of 64 bits without its low 16 (R81). -/
def xaIn (x : DWord) : Nat := x.toNat / 65536
/-- An XA48 value as 64 bits. -/
def xaOut (x : Nat) : DWord := BitVec.ofNat 64 (x * 65536)

/-! ### F4X (R78 to R80) -/
/-- Twice the magnitude of a code's low three bits (R78). -/
def f4xMag2 (c : Nat) : Nat :=
  match c % 8 with
  | 0 => 0 | 1 => 1 | 2 => 2 | 3 => 3 | 4 => 4 | 5 => 6 | 6 => 8 | _ => 12

/-- The value of a code under side bytes S and X, as a value at scale 2^(S-127) (R79). -/
def f4xVal (c s x : Nat) : FV :=
  if s = 255 then .nan false
  else if c = 8 then
    match decodeF e4m3 x with
    | .fin b m e => .fin b m (e + (s : Int) - 127)
    | v => v
  else .fin (decide (8 ≤ c)) (f4xMag2 c) ((s : Int) - 127 - 1)

/-- The candidates of R80 in q: code and value at exponent -10 (E4M3's least unit is 2^-9, a regular code's 2^-1). -/
def f4xCands (x : Nat) : List (Nat × Int) :=
  let reg := ((rangeFrom 0 16).filter (· != 8)).map fun c =>
    (c, (if 8 ≤ c then -1 else 1) * ((f4xMag2 c * 512 : Nat) : Int))
  match decodeF e4m3 x with
  | .fin b m e => reg ++ [(8, (if b then -1 else 1) * ((m * 2 ^ (e + 10).toNat : Nat) : Int))]
  | _ => reg

/-- A code counts as odd when bit 0 is 1; the extra code is odd (R80). -/
def f4xOdd (c : Nat) : Bool := c == 8 || c % 2 == 1

/-- The better of two candidates by a rank (less is better). -/
def pickBy (rank : Nat × Int → Int × Nat) : List (Nat × Int) → Option (Nat × Int)
  | [] => none
  | x :: t =>
    match pickBy rank t with
    | none => some x
    | some y => if (rank x).1 < (rank y).1 ∨ ((rank x).1 = (rank y).1 ∧ (rank x).2 ≤ (rank y).2) then some x else some y

/-- CVT 0x08: an FP32 pattern to a code under S and X (R80). q is exact: num·2^exp with candidates scaled alike. -/
def cvtF4x (md : Rnd) (s x a : Nat) : Nat × BitVec 5 :=
  let nanCode := if (decodeF e4m3 x).isNan then 8 else 0
  let v := decodeF fp32 a
  if s = 255 ∨ v.isNan then (nanCode, fNV)
  else
    let cs := f4xCands x
    -- q and the candidates as integers at one exponent
    let (qn, sh) : Int × Nat := match v with
      | .fin b m e =>
        let e1 : Int := e - ((s : Int) - 127)
        let k := min e1 (-10)
        ((if b then -1 else 1) * ((m * 2 ^ (e1 - k).toNat : Nat) : Int), (-10 - k).toNat)
      | .inf b => ((if b then -1 else 1) * 1000000, 0)
      | .nan _ => (0, 0)
    let val (c : Nat × Int) : Int := c.2 * (2 ^ sh : Nat)
    let isInf := v.isInf
    let mx := (cs.map val).foldl max 0
    let mn := (cs.map val).foldl min 0
    let below := cs.filter fun c => val c ≤ qn
    let above := cs.filter fun c => qn ≤ val c
    let pref (c : Nat × Int) : Nat := if c.1 = 8 then 1 else 0
    let floorC := (pickBy (fun c => (-(val c), pref c)) below).orElse fun _ => pickBy (fun c => (val c, pref c)) cs
    let ceilC := (pickBy (fun c => (val c, pref c)) above).orElse fun _ => pickBy (fun c => (-(val c), pref c)) cs
    let rzC := if 0 ≤ qn then floorC else ceilC
    let far := if 0 ≤ qn then pickBy (fun c => (val c, pref c)) (cs.filter fun c => qn < val c)
               else pickBy (fun c => (-(val c), pref c)) (cs.filter fun c => val c < qn)
    let dist (c : Nat × Int) : Int := ((val c - qn).natAbs : Int)
    let near := pickBy (fun c => (dist c, if f4xOdd c.1 then (if c.1 = 8 then 2 else 1) else 0)) cs
    let nearA := pickBy (fun c => (dist c * 2, 0)) (cs.filter fun c =>
      cs.all fun d => decide (dist c < dist d) || (dist c == dist d && decide ((val d).natAbs ≤ (val c).natAbs)))
    let chosen := match md with
      | .rn | .rs | .rdyn => near
      | .ra =>
        match nearA with
        | some c => pickBy (fun d => (0, pref d)) (cs.filter fun d => val d == val c)
        | none => none
      | .rd => floorC
      | .ru => ceilC
      | .rz => rzC
      | .ro =>
        match rzC with
        | some c => if val c = qn ∨ f4xOdd c.1 then some c else (match far with | some d => some d | none => some c)
        | none => none
    match chosen with
    | none => (0, 0)
    | some c0 =>
      -- when a regular code holds the chosen value, it is the result
      let c := ((cs.find? fun d => d.1 != 8 && val d == val c0).getD c0)
      let differs := isInf || val c != qn
      let beyond := (isInf || decide (mx < qn) || decide (qn < mn)) && (isInf || decide ((val c).natAbs < qn.natAbs))
      let code := if val c = 0 ∧ c.1 ≠ 8 then 0 else if val c = 0 then 0 else c.1
      (code, (if differs then fNX else 0) ||| (if beyond then fOF ||| fNX else 0))

/-- CVT 0x09: a code to FP32 (R80). -/
def cvtFromF4x (md : Mode) (s x a : Nat) : Nat × BitVec 5 :=
  match f4xVal (a % 16) s x with
  | .fin b m e => roundF fp32 md false ⟨b, m, e, false⟩
  | .inf b => (infPat fp32 b, 0)
  | .nan _ => (canonNan fp32, 0)

/-! ### Reciprocals and roots -/
/-- ⌊√n⌋ by trying bits from the top; 4^(k) > n for the first k. -/
def isqrtGo (n : Nat) : Nat → Nat → Nat
  | 0, r => r
  | k + 1, r => let c := r + 2 ^ k; if c * c ≤ n then isqrtGo n k c else isqrtGo n k r
def isqrt (n : Nat) : Nat := isqrtGo n (Nat.log2 n / 2 + 1) 0

/-- 1/x for x = m·2^e, m > 0, to 160 bits. -/
def rcpEx (neg : Bool) (m : Nat) (e : Int) : Ex :=
  let k := Nat.log2 m + 160
  ⟨neg, 2 ^ k / m, -e - k, 2 ^ k % m != 0⟩
/-- √x for x = m·2^e, m > 0. -/
def sqrtEx (m : Nat) (e : Int) : Ex :=
  let (m1, e1) := if e % 2 = 0 then (m, e) else (2 * m, e - 1)
  let n := m1 * 2 ^ 320
  let r := isqrt n
  ⟨false, r, e1 / 2 - 160, r * r != n⟩
/-- 1/√x. -/
def rsqEx (m : Nat) (e : Int) : Ex :=
  let (m1, e1) := if e % 2 = 0 then (m, e) else (2 * m, e - 1)
  let k := 2 * (Nat.log2 m1 + 160)
  let r := isqrt (2 ^ k / m1)
  ⟨false, r, -(e1 / 2) - (k / 2 : Nat), r * r * m1 != 2 ^ k⟩

/-- .rcp, .rsq and .sqrt with the special results of R169. -/
def rootF (f : Fmt) (op : DsfuOp) (md : Mode) (a : Nat) : Nat × BitVec 5 :=
  match decodeF f a with
  | .nan s => (canonNan f, if s then fNV else 0)
  | .inf b =>
    match op with
    | .rcp => (signPat f b, 0)
    | .rsq => if b then (canonNan f, fNV) else (0, 0)
    | .sqrt => if b then (canonNan f, fNV) else (infPat f false, 0)
  | .fin b m e =>
    if m = 0 then
      match op with
      | .rcp | .rsq => (infPat f b, fDZ)
      | .sqrt => (signPat f b, 0)
    else
      match op with
      | .rcp => roundF f md false (rcpEx b m e)
      | .rsq => if b then (canonNan f, fNV) else roundF f md false (rsqEx m e)
      | .sqrt => if b then (canonNan f, fNV) else roundF f md false (sqrtEx m e)

end Sys2Proof.Machine
end

