-- ==== Sys2Proof/Machine/Trans.lean ====
section
/-! DEFINITION. The transcendental functions of SFU (R168, R169, R89), correctly rounded: fixed-point evaluation with
416 fraction bits, far beyond what any FP32 operand needs, then one rounding. -/
namespace Sys2Proof.Machine

/-- Fraction bits of the fixed-point numbers here. -/
def tp : Nat := 416
/-- 1 in fixed point. -/
def tOne : Nat := 2 ^ 416

/-- Sum of z^(2i+1)/(2i+1), signs alternating when `alt`: atanh or atan of z, |z| < 1. -/
def atanGo (alt : Bool) (z2 : Nat) : Nat → Nat → Nat → Bool → Int → Int
  | 0, _, _, _, acc => acc
  | n + 1, p, i, neg, acc =>
    let t : Int := (p / i : Nat)
    atanGo alt z2 n (p * z2 / tOne) (i + 2) (alt && !neg) (if neg then acc - t else acc + t)
/-- atanh z for a fixed-point z ≤ 1/3. -/
def atanhFix (z : Nat) : Nat := (atanGo false (z * z / tOne) 140 z 1 false 0).toNat
/-- atan (1/n). -/
def atanInv (n : Nat) : Int := atanGo true (tOne / (n * n)) 210 (tOne / n) 1 false 0

/-- ln 2 = 2 atanh(1/3). -/
def ln2Fix : Nat := 2 * atanhFix (tOne / 3)
/-- 2π, by Machin's formula. -/
def twoPiFix : Nat := (8 * (4 * atanInv 5 - atanInv 239)).toNat

/-- Σ y^i / i!, with signs and steps chosen by the caller: e^y. -/
def expGo (y : Nat) : Nat → Nat → Nat → Nat → Nat
  | 0, _, _, acc => acc
  | n + 1, t, i, acc => expGo y n (t * y / tOne / i) (i + 1) (acc + t)
/-- 2^f for a fixed-point f in [0, 1). -/
def pow2Fix (f : Nat) : Nat := expGo (f * ln2Fix / tOne) 110 tOne 1 0

/-- sin y = Σ (-1)^i y^(2i+1)/(2i+1)! for a fixed-point y in [0, π/2]. -/
def sinGo (y2 : Nat) : Nat → Nat → Nat → Bool → Int → Int
  | 0, _, _, _, acc => acc
  | n + 1, t, i, neg, acc =>
    sinGo y2 n (t * y2 / tOne / ((i + 1) * (i + 2))) (i + 2) (!neg) (if neg then acc - t else acc + (t : Int))
/-- sin 2πr for a fixed-point r in [0, 1/4]. -/
def sinTurn (r : Nat) : Nat :=
  let y := r * twoPiFix / tOne
  (sinGo (y * y / tOne) 60 y 1 false 0).toNat

/-- A fixed-point magnitude as an inexact real; the last 32 bits are dropped. -/
def fixEx (neg : Bool) (x : Nat) : Ex := ⟨neg, x / 2 ^ 32, 32 - (tp : Int), true⟩

/-- |x| = m·2^e in fixed point, for a value whose bits all lie within. -/
def toFix (m : Nat) (e : Int) : Nat := if -(tp : Int) ≤ e then m * 2 ^ (e + tp).toNat else m / 2 ^ (-(e + tp)).toNat

/-- 2^x for x = ±m·2^e. -/
def ex2Ex (neg : Bool) (m : Nat) (e : Int) : Ex :=
  if m = 0 then ⟨false, 1, 0, false⟩
  else if 12 < (Nat.log2 m : Int) + e then ⟨false, 1, if neg then -4096 else 4096, false⟩
  else
    let v := toFix m e
    let (n, f) : Int × Nat :=
      if neg then (let k := (v + tOne - 1) / tOne; (-(k : Int), k * tOne - v)) else ((v / tOne : Nat), v % tOne)
    if f = 0 then ⟨false, 1, n, false⟩
    else let r := fixEx false (pow2Fix f); { r with exp := r.exp + n }

/-- log2 x for x = m·2^e > 0. -/
def lg2Ex (m : Nat) (e : Int) : Ex :=
  let k := Nat.log2 m
  let n : Int := (k : Int) + e
  if m = 2 ^ k then exOf n 0
  else
    let num := (m - 2 ^ k) * tOne / (m + 2 ^ k)
    let l : Int := (n * tOne) + ((2 * atanhFix num * tOne / ln2Fix : Nat) : Int)
    fixEx (decide (l < 0)) l.natAbs

/-- sin 2πx for x = m·2^e ≥ 0: the sign of the result for positive x, and its magnitude; exact cases by R169. -/
def sinEx (m : Nat) (e : Int) : Ex :=
  let r := if 0 ≤ e then 0 else toFix m e % tOne
  let h := tOne / 2
  let neg := decide (h ≤ r)
  let u := r % h
  if u = 0 then ⟨false, 0, 0, false⟩
  else if u = h / 2 then ⟨neg, 1, 0, false⟩
  else fixEx neg (sinTurn (if u < h / 2 then u else h - u))

/-- cos 2πx. -/
def cosEx (m : Nat) (e : Int) : Ex :=
  let r0 := if 0 ≤ e then 0 else toFix m e % tOne
  let h := tOne / 2
  let r := if h < r0 then tOne - r0 else r0
  let q := tOne / 4
  if r = q then ⟨false, 0, 0, false⟩
  else if r = 0 then ⟨false, 1, 0, false⟩
  else if r = h then ⟨true, 1, 0, false⟩
  else if Nat.log2 m + e < -80 then ⟨false, 2 ^ 200 - 1, -200, true⟩
  else if r < q then fixEx false (sinTurn (q - r)) else fixEx true (sinTurn (r - q))

/-- tanh |x|: below 2^-60 a value just under |x|, beyond 64 a value just under 1. -/
def tanhEx (neg : Bool) (m : Nat) (e : Int) : Ex :=
  let k : Int := (Nat.log2 m : Int) + e
  if k < -60 then ⟨neg, m * 2 ^ 200 - 1, e - 200, true⟩
  else if 6 ≤ k then ⟨neg, 2 ^ 200 - 1, -200, true⟩
  else
    let y := 2 * toFix m e * tOne / ln2Fix
    let t := pow2Fix (y % tOne) * 2 ^ (y / tOne)
    fixEx neg ((t - tOne) * tOne / (t + tOne))

/-- An SFU function on an FP32 pattern (R169). -/
def sfuF (op : SfuOp) (md0 : Mode) (a : Nat) : Nat × BitVec 5 :=
  let f := fp32
  let md : Mode := { md0 with full := true }
  match op with
  | .rcp => rootF f .rcp md a
  | .rsq => rootF f .rsq md a
  | .sqrt => rootF f .sqrt md a
  | .ex2 =>
    match decodeF f a with
    | .nan s => (canonNan f, if s then fNV else 0)
    | .inf b => (if b then 0 else infPat f false, 0)
    | .fin b m e => roundF f md false (ex2Ex b m e)
  | .lg2 =>
    match decodeF f a with
    | .nan s => (canonNan f, if s then fNV else 0)
    | .inf b => if b then (canonNan f, fNV) else (infPat f false, 0)
    | .fin b m e =>
      if m = 0 then (infPat f true, fDZ) else if b then (canonNan f, fNV) else roundF f md false (lg2Ex m e)
  | .sin2pi =>
    match decodeF f a with
    | .nan s => (canonNan f, if s then fNV else 0)
    | .inf _ => (canonNan f, fNV)
    | .fin b m e =>
      let x := sinEx m e
      if x.mant = 0 ∧ ¬ x.sticky then (signPat f b, 0) else roundF f md false { x with neg := x.neg != b }
  | .cos2pi =>
    match decodeF f a with
    | .nan s => (canonNan f, if s then fNV else 0)
    | .inf _ => (canonNan f, fNV)
    | .fin _ m e => roundF f md false (cosEx m e)
  | .tanh =>
    match decodeF f a with
    | .nan s => (canonNan f, if s then fNV else 0)
    | .inf b => roundF f md false ⟨b, 1, 0, false⟩
    | .fin b m e => if m = 0 then (signPat f b, 0) else roundF f md false (tanhEx b m e)

end Sys2Proof.Machine
end

