-- ==== Sys2Proof/Machine/FloatArith.lean ====
section
/-! DEFINITION. Floating-point instructions and conversions, opcodes 0x20 to 0x31 but for 0x2F (R161 to R172), over the
numerics of Num.lean and Trans.lean. -/
namespace Sys2Proof.Machine

/-- The rounding an instruction takes: .rdyn is FRM's code at issue (R57, R58). -/
def State.rmode (s : State) (m : Rnd) : Rnd := if m = .rdyn then (rndOf s.cw.frm).getD .rn else m

/-- Whether the rounding is excluded on an instruction whose prior(d) is its addend or side bytes (R58, R59). -/
def State.rsExcluded (s : State) (m : Rnd) : Bool := s.rmode m == .rs

/-- The random bits of R59: prior(d), from the low register of a pair; 0 with d = z. -/
def State.md (s : State) (m : Rnd) (d : Reg) (l : Nat) : Mode := ⟨s.rmode m, (s.src d l).toNat, false⟩

/-- Per-lane results with their flags, written to d; the flags of all lanes are ORed (R75). -/
def writeFloat (srcs : List Reg) (d : Reg) (pair : Bool) (f : Nat → Nat × BitVec 5) (s : State) : State :=
  writeResult srcs d pair (s.perLane fun l => BitVec.ofNat 64 (f l).1) (orFlags (s.bl.map fun l => (f l).2)) s

/-- d := f(mode, prior d, a, b) on 32-bit patterns. -/
def float3 (f : Mode → Nat → Nat → Nat → Nat × BitVec 5) (m : Rnd) (d a b : Reg) (s : State) : State :=
  operandsOr [⟨0, d, laneDst d⟩, ⟨1, a, laneSrc a⟩, ⟨2, b, laneSrc b⟩] s
    (writeFloat [a, b] d false
      (fun l => f (s.md m d l) (s.src d l).toNat (s.src a l).toNat (s.src b l).toNat) s)

/-- The same on FP64 pairs. -/
def double3 (f : Mode → Nat → Nat → Nat → Nat × BitVec 5) (m : Rnd) (d a b : Reg) (s : State) : State :=
  operandsOr [⟨0, d, evenCode d⟩, ⟨1, a, evenCode a⟩, ⟨2, b, evenCode b⟩] s
    (writeFloat [a, b] d true
      (fun l => f (s.md m d l) (s.src64 d l).toNat (s.src64 a l).toNat (s.src64 b l).toNat) s)

/-- Two packed 16-bit elements, each rounded on its own (R166). -/
def packedFma (f : Fmt) (md : Mode) (p a b : Nat) : Nat × BitVec 5 :=
  let (x0, f0) := fmaF f md (a % 65536) (b % 65536) (p % 65536)
  let (x1, f1) := fmaF f md (a / 65536) (b / 65536) (p / 65536)
  (x0 + 65536 * x1, f0 ||| f1)

/-- FDOT2 (R167): the two BF16 products and the FP32 addend, exact, then one rounding. -/
def fdot2F (md : Mode) (p a b : Nat) : Nat × BitVec 5 :=
  dotF fp32 md [(decodeF bf16 (a % 65536), decodeF bf16 (b % 65536)), (decodeF bf16 (a / 65536), decodeF bf16 (b / 65536))]
    [decodeF fp32 p]

/-- FADD (R161). -/
def execFadd (_sw : Bool) (m : Rnd) (d a b : Reg) (s : State) : Res :=
  .next (float3 (fun md _ x y => addF fp32 md x y) m d a b s)
/-- FSUB (R161). -/
def execFsub (_sw : Bool) (m : Rnd) (d a b : Reg) (s : State) : Res :=
  .next (float3 (fun md _ x y => subF fp32 md x y) m d a b s)
/-- FMUL (R161). -/
def execFmul (_sw : Bool) (m : Rnd) (d a b : Reg) (s : State) : Res :=
  .next (float3 (fun md _ x y => mulF fp32 md x y) m d a b s)
/-- FFMA (R161): prior(d) is the addend; stochastic rounding is ILLEGAL (R58, R59). -/
def execFfma (_sw : Bool) (m : Rnd) (d a b : Reg) (s : State) : Res :=
  .next (legalOr (!s.rsExcluded m) s (float3 (fun md p x y => fmaF fp32 md x y p) m d a b s))
/-- FMNMX (R163). -/
def execFmnmx (_sw : Bool) (op : FmnOp) (d a b : Reg) (s : State) : Res :=
  .next (float3 (fun _ _ x y => fmnmxF fp32 op x y) .rn d a b s)
/-- FSET (R164). -/
def execFset (_sw : Bool) (c : FCond) (p : PredNo) (a b : Reg) (s : State) : Res :=
  .next (operandsOr [⟨1, a, laneSrc a⟩, ⟨2, b, laneSrc b⟩] s
    (writePred [a, b] p (s.perLane fun l => (fsetF fp32 c (s.src a l).toNat (s.src b l).toNat).1)
      (orFlags (s.bl.map fun l => (fsetF fp32 c (s.src a l).toNat (s.src b l).toNat).2)) s))
/-- DADD (R162). -/
def execDadd (_sw : Bool) (m : Rnd) (d a b : Reg) (s : State) : Res :=
  .next (double3 (fun md _ x y => addF fp64 md x y) m d a b s)
/-- DMUL (R162). -/
def execDmul (_sw : Bool) (m : Rnd) (d a b : Reg) (s : State) : Res :=
  .next (double3 (fun md _ x y => mulF fp64 md x y) m d a b s)
/-- DFMA (R162). -/
def execDfma (_sw : Bool) (m : Rnd) (d a b : Reg) (s : State) : Res :=
  .next (legalOr (!s.rsExcluded m) s (double3 (fun md p x y => fmaF fp64 md x y p) m d a b s))
/-- BFMA2 (R166). -/
def execBfma2 (_sw : Bool) (m : Rnd) (d a b : Reg) (s : State) : Res :=
  .next (legalOr (!s.rsExcluded m) s (float3 (fun md p x y => packedFma bf16 md p x y) m d a b s))
/-- HFMA2 (R166). -/
def execHfma2 (_sw : Bool) (m : Rnd) (d a b : Reg) (s : State) : Res :=
  .next (legalOr (!s.rsExcluded m) s (float3 (fun md p x y => packedFma fp16 md p x y) m d a b s))
/-- FDOT2 (R167). -/
def execFdot2 (_sw : Bool) (m : Rnd) (d a b : Reg) (s : State) : Res :=
  .next (legalOr (!s.rsExcluded m) s (float3 fdot2F m d a b s))

/-- A long-latency result: outstanding, its flags with it (R49, R75). -/
def outFloat (d : Reg) (pair : Bool) (f : Nat → Nat × BitVec 5) (s : State) : State :=
  outResult .plain true d pair (s.perLane fun l => BitVec.ofNat 64 (f l).1)
    { Out.blank (freshId s) s.cur.mask d pair with flags := orFlags (s.bl.map fun l => (f l).2) } s
/-- SFU (R168, R169). -/
def execSfu (_sw : Bool) (f : SfuOp) (m : Rnd) (d a : Reg) (s : State) : Res :=
  .next (operandsOr [⟨0, d, laneDst d⟩, ⟨1, a, laneSrc a⟩] s
    (outFloat d false (fun l => sfuF f (s.md m d l) (s.src a l).toNat) s))
/-- DSFU (R170). -/
def execDsfu (_sw : Bool) (f : DsfuOp) (m : Rnd) (d a : Reg) (s : State) : Res :=
  .next (operandsOr [⟨0, d, evenCode d⟩, ⟨1, a, evenCode a⟩] s
    (outFloat d true (fun l => rootF fp64 f (s.md m d l) (s.src64 a l).toNat) s))

/-- Whether a conversion reads a pair, and writes one (R171). -/
def cvtPairs : CvtOp → Bool × Bool
  | .f64F32 | .f64S32 | .xa48F32 => (true, false)
  | .f32F64 | .s32F64 | .f32Xa48 => (false, true)
  | .xa48F64 => (true, true)
  | .f32Bf16 | .f32F16 | .bf16F32 | .f16F32 | .f32E4m3 | .f32E5m2 | .e4m3F32 | .e5m2F32 | .f32F4x | .f4xF32
  | .f32S32 | .f32N32 | .s32F32 | .n32F32 => (false, false)

/-- A conversion's result and flags (R172, R80 to R84): `p` is prior(d), `a` the source pattern. -/
def cvtVal (c : CvtOp) (sat : Bool) (md : Mode) (p a : Nat) : Nat × BitVec 5 :=
  let lo := a % 2 ^ 32
  match c with
  | .f32Bf16 => cvtFF fp32 bf16 md sat lo
  | .f32F16 => cvtFF fp32 fp16 md sat lo
  | .bf16F32 => cvtFF bf16 fp32 md false (a % 65536)
  | .f16F32 => cvtFF fp16 fp32 md false (a % 65536)
  | .f32E4m3 => cvtFF fp32 e4m3 md sat lo
  | .f32E5m2 => cvtFF fp32 e5m2 md sat lo
  | .e4m3F32 => cvtFF e4m3 fp32 md false (a % 256)
  | .e5m2F32 => cvtFF e5m2 fp32 md false (a % 256)
  | .f32F4x => cvtF4x md.m (p % 256) (p / 256 % 256) lo
  | .f4xF32 => cvtFromF4x md (p % 256) (p / 256 % 256) a
  | .f32S32 => cvtFI fp32 md true lo
  | .f32N32 => cvtFI fp32 md false lo
  | .s32F32 => cvtIF fp32 md (BitVec.ofNat 32 lo).toInt
  | .n32F32 => cvtIF fp32 md (lo : Int)
  | .f64F32 => cvtFF fp64 fp32 md sat a
  | .f32F64 => cvtFF fp32 fp64 md false lo
  | .f64S32 => cvtFI fp64 md true a
  | .s32F64 => cvtIF fp64 md (BitVec.ofNat 32 lo).toInt
  | .xa48F32 => cvtFF xa48 fp32 md false (a / 65536)
  | .f32Xa48 =>
    match decodeF fp32 lo with
    | .inf b => ((if sat then maxPat xa48 b else infPat xa48 b) * 65536, 0)
    | .nan sg => (canonNan xa48 * 65536, if sg then fNV else 0)
    | .fin b m e => ((roundF xa48 md false ⟨b, m, e, false⟩).1 * 65536, 0)
  | .xa48F64 => cvtFF xa48 fp64 md false (a / 65536)

/-- CVT (R171, R172). -/
def execCvt (_sw : Bool) (m : Rnd) (c : CvtOp) (sat : Bool) (d a : Reg) (s : State) : Res :=
  let pr := cvtPairs c
  .next (legalOr (!((c == .f32F4x || c == .f4xF32) && s.rsExcluded m)) s
    (operandsOr [⟨0, d, if pr.2 then evenCode d else laneDst d⟩, ⟨1, a, if pr.1 then evenCode a else laneSrc a⟩] s
      (writeFloat [a] d pr.2
        (fun l => cvtVal c sat (s.md m d l) (s.src d l).toNat
          (if pr.1 then (s.src64 a l).toNat else (s.src a l).toNat)) s)))

/-- DSET (R164). -/
def execDset (_sw : Bool) (c : FCond) (p : PredNo) (a b : Reg) (s : State) : Res :=
  .next (operandsOr [⟨1, a, evenCode a⟩, ⟨2, b, evenCode b⟩] s
    (writePred [a, b] p (s.perLane fun l => (fsetF fp64 c (s.src64 a l).toNat (s.src64 b l).toNat).1)
      (orFlags (s.bl.map fun l => (fsetF fp64 c (s.src64 a l).toNat (s.src64 b l).toNat).2)) s))
/-- FCLS (R165): no flag. -/
def execFcls (_sw : Bool) (f64 : Bool) (d a : Reg) (s : State) : Res :=
  .next (operandsOr [⟨0, d, laneDst d⟩, ⟨1, a, if f64 then evenCode a else laneSrc a⟩] s
    (writeResult [a] d false
      (s.perLane fun l => BitVec.ofNat 64
        (if f64 then fclsF fp64 (s.src64 a l).toNat else fclsF fp32 (s.src a l).toNat)) 0 s))

end Sys2Proof.Machine
end

