-- ==== Sys2Proof/Machine/Exchange.lean ====
section
/-! DEFINITION. Exchange within a bundle (SHFL, VOTE, MATCH: R173 to R175) and reductions into wider ranks (RED, GRED:
R176, R124 to R126, R87, R205), with publication (R130). -/
namespace Sys2Proof.Machine

/-! ### Exchange -/
/-- The lane that SHFL reads from, before the test that it is in B (R173). -/
def shflLane (m : ShflOp) (mask : Word) (l : Nat) (b : Word) : Int :=
  let δ := b.toNat % 32
  match m with
  | .idx => δ
  | .up => (l : Int) - δ
  | .down => (l : Int) + δ
  | .xor => ((l ^^^ δ : Nat) : Int)
  | .bcast => lowLane mask
/-- SHFL's value at lane l. -/
def shflVal (s : State) (m : ShflOp) (a b : Reg) (l : Nat) : Word :=
  let k := shflLane m s.cur.mask l (s.src b l)
  if 0 ≤ k ∧ k < 32 ∧ s.cur.mask.getLsbD k.toNat then s.src a k.toNat else s.src a l
/-- SHFL (R173): .bcast has no operand b. -/
def execShfl (_sw : Bool) (m : ShflOp) (d a b : Reg) (s : State) : Res :=
  .next (legalOr (m != .bcast || b == 0) s
    (operandsOr [⟨0, d, laneDst d⟩, ⟨1, a, laneSrc a⟩, ⟨2, b, laneSrc b⟩] s
      (writeResult (if m = .bcast then [a] else [a, b]) d false (s.perLane fun l => z64 (shflVal s m a b l)) 0 s)))

/-- The lanes of the bundle whose operand a is not 0. -/
def voteMask (s : State) (a : Reg) : Word := lanesMask (s.bl.filter fun l => s.src a l != 0)
/-- VOTE's one value (R174). -/
def voteVal (m : VoteOp) (mask votes : Word) : Word :=
  match m with
  | .any => if votes = 0 then 0 else 1
  | .all => if votes = mask then 1 else 0
  | .ballot => votes
  | .count => BitVec.ofNat 32 (popc votes)
/-- VOTE (R174). -/
def execVote (_sw : Bool) (m : VoteOp) (d a : Reg) (s : State) : Res :=
  .next (operandsOr [⟨0, d, laneDst d⟩, ⟨1, a, laneSrc a⟩] s
    (writeResult [a] d false (s.perLane fun _ => z64 (voteVal m s.cur.mask (voteMask s a))) 0 s))

/-- The lanes of the bundle that hold lane l's value (R175). -/
def matchMask (s : State) (a : Reg) (l : Nat) : Word := lanesMask (s.bl.filter fun k => s.src a k == s.src a l)
/-- MATCH (R175): d and the predicate of the lowest lane of each group, written together or outstanding together. -/
def execMatchv (_sw : Bool) (d a : Reg) (p : PredNo) (s : State) : Res :=
  let vals := s.perLane fun l => z64 (matchMask s a l)
  let leads := s.perLane fun l => lowLane (matchMask s a l) == l
  .next (operandsOr [⟨0, d, laneDst d⟩, ⟨1, a, laneSrc a⟩] s
    (let e : Ending := { Ending.plain with preds := predWrites p leads }
     if scopedSrc a then outResult e true d false vals (Out.blank (freshId s) s.cur.mask d false) s
     else writeNowResult e d false vals 0 s))

/-! ### Reductions (R124, R63) -/
/-- The signed value of a 32-bit pattern of a finite FP32 number at weight 2^-149 (R87). -/
def fixedF32 (x : Word) : Int :=
  match decodeF fp32 x.toNat with
  | .fin neg m e => let v : Int := (m * 2 ^ (e + 149).toNat : Nat); if neg then -v else v
  | _ => 0
/-- A kind but add_f32 on two values (R63, R124). -/
def redWord (k : RedKind) (x y : Word) : Word :=
  match k with
  | .addB32 => x + y
  | .addF32 => x
  | .minS32 => if y.slt x then y else x
  | .maxS32 => if x.slt y then y else x
  | .minN32 => if y.ult x then y else x
  | .maxN32 => if x.ult y then y else x
  | .and => x &&& y
  | .or => x ||| y
/-- A ply or warp register reduced by a bundle's contributions: add_f32 is the exact sum with one RNE rounding (R85). -/
def redPlain (k : RedKind) (prior : Word) (vals : List Word) : Word × BitVec 5 :=
  match k with
  | .addF32 =>
    let (x, f) := dotF fp32 rne [] (decodeF fp32 prior.toNat :: vals.map fun v => decodeF fp32 v.toNat)
    (BitVec.ofNat 32 x, f)
  | k => (vals.foldl (redWord k) prior, 0)

/-- One contribution of add_f32 in an accumulator (R87). -/
def accAdd (r : ScopedReg) (x : Word) : ScopedReg :=
  match decodeF fp32 x.toNat with
  | .nan _ => { r with nan := true, allNegZero := false }
  | .inf false => { r with posInf := true, allNegZero := false }
  | .inf true => { r with negInf := true, allNegZero := false }
  | .fin neg m _ =>
    { r with acc := r.acc + fixedF32 x, allNegZero := r.allNegZero && neg && m == 0 }
/-- The accumulator at the first add_f32 of a phase: the front value counts as a contribution (R87). -/
def accStart (r : ScopedReg) : ScopedReg :=
  accAdd { r with acc := 0, posInf := false, negInf := false, nan := false, allNegZero := true } r.front

/-- Contributions reach a back bank (R126); none is applied when the phase's mode is another. -/
def bankReduce (r : ScopedReg) (k : RedKind) (vals : List Word) : BankRes :=
  let go (r : ScopedReg) : ScopedReg :=
    match k with
    | .addF32 => vals.foldl accAdd r
    | k => { r with back := vals.foldl (redWord k) r.back }
  match r.mode with
  | .none =>
    let r0 := { r with mode := .red k, back := r.front }
    .ok (go (if k = .addF32 then accStart r0 else r0))
  | .red k' => if k = k' then .ok (go r) else .mixed
  | .agreed => .mixed

/-- The value an add_f32 accumulator publishes (R87). -/
def accValue (r : ScopedReg) : Word :=
  if r.nan || (r.posInf && r.negInf) then 0x7FC00000
  else if r.posInf then 0x7F800000
  else if r.negInf then 0xFF800000
  else if r.acc = 0 then (if r.allNegZero then 0x80000000 else 0)
  else BitVec.ofNat 32 (roundF fp32 rne false (exOf r.acc (-149))).1
/-- Publication (R130): the new back bank is a copy of the new front, with no mode. -/
def publish (r : ScopedReg) : ScopedReg :=
  match r.mode with
  | .none => ScopedReg.init r.front
  | .agreed => ScopedReg.init r.back
  | .red .addF32 => ScopedReg.init (accValue r)
  | .red _ => ScopedReg.init r.back

/-- The ply and warp writes of RED, with the flags of their roundings. -/
def redWrites (s : State) (k : RedKind) (d a : Reg) : List (RegWrite × BitVec 5) :=
  if d.toNat < 92 then
    (rangeFrom 0 4).filterMap fun p =>
      match s.bl.filter fun l => l / 8 == p with
      | [] => none
      | l :: ls =>
        let (v, f) := redPlain k (s.src d l) ((l :: ls).map (s.src a))
        some ({ dest := .ply (d.toNat - 88) p, val := v }, f)
  else
    let (v, f) := redPlain k (s.usrc d) (s.bl.map (s.src a))
    [({ dest := .warp (d.toNat - 92), val := v }, f)]

/-- Contributions to a bank: a block register at once, a cluster or grid register on arrival (R123, R124, R125). -/
def redBank (k : RedKind) (d : Reg) (vals : List (Nat × DWord)) (s : State) : State :=
  if s.cw.isWave && decide (d.toNat < 120) then raiseEngine 0x42 s.cur.pc s
  else if d.toNat < 116 then
    match bankReduce (scopedOf s s.cb d.toNat) k (vals.map fun x => x.2.setWidth 32) with
    | .ok r => doneB (setScoped s s.cb d.toNat r)
    | _ => raiseMixed d s
  else sendBank .commit d false (some k) vals 0 s

/-- RED (R176). Committing (R125). -/
def execRed (_sw : Bool) (k : RedKind) (d a : Reg) (s : State) : Res :=
  .next (operandsOr [⟨0, d, redTgt d⟩, ⟨1, a, laneSrc a⟩] s
    (if d.toNat < 108 then
      let xs := redWrites s k d a
      doneB (raiseFlags (orFlags (xs.map (·.2))) (s.updCw (writeAll (xs.map (·.1)))))
    else redBank k d (s.perLane fun l => z64 (s.src a l)) s))

end Sys2Proof.Machine
end

