-- ==== Sys2Proof/Machine/MemSys.lean ====
section
/-! DEFINITION. The memory side: translation (R362 to R368), lines, keys and use counts at the homes (R369 to R371),
writes in flight and their arrival (R218, R219), loads (R220), acquires (R224, R225), engine ports (R235). -/
namespace Sys2Proof.Machine

/-! ### Keys and HBM (R371) -/
/-- The key a slot holds, plus 1; 0 for key id 0, which means no encryption. -/
def Mem.keyOf (m : Mem) (slot : Nat) : Nat := if slot = 0 then 0 else mGet m.keys 0 slot + 1
/-- The 128 bytes of a sector as HBM holds them, in the view of the key they are stored under. -/
def Mem.sectorRaw (m : Mem) (sec : Nat) : List Byte := memReadBytes m.hbm (128 * sec) 128
/-- A byte of HBM as read under key k: other bytes when it is stored under another key. -/
def Mem.hbmView (m : Mem) (k pa : Nat) : Byte :=
  let k0 := mGet m.secKey 0 (pa / 128)
  if k0 = k then memRead m.hbm pa else recrypt k0 k (pa / 128) (m.sectorRaw (pa / 128)) (pa % 128)
/-- Hold a sector in the view of key k: the ciphertext is the same (R371) (DEDUCED, log 6). -/
def Mem.rebase (m : Mem) (k sec : Nat) : Mem :=
  let k0 := mGet m.secKey 0 sec
  if k0 = k then m else
    let old := m.sectorRaw sec
    { m with hbm := memWriteBytes m.hbm (128 * sec) ((rangeFrom 0 128).map (recrypt k0 k sec old)),
             secKey := if k = 0 then mErase m.secKey sec else mSet m.secKey sec k }
/-- A masked write of one byte into HBM under key k. -/
def Mem.hbmPut (m : Mem) (k pa : Nat) (v : Byte) : Mem :=
  let m1 := m.rebase k (pa / 128)
  { m1 with hbm := memWrite m1.hbm pa v }

/-! ### Lines of the LLC (R369 to R371) -/
/-- Whether an access leaves nothing in the slice: policy 11, or an empty way mask (R369). -/
def Mem.bypass (m : Mem) (a : PageAttr) : Bool := a.pol == 3 || mGet m.ways 0xFFFF a.way == 0
/-- Write a line's dirty bytes back under its tag's key. -/
def Mem.writeBack (m : Mem) (ln : Nat) (l : Line) : Mem :=
  let k := m.keyOf l.key
  (l.dirty.filter fun ov => decide (ov.1 < 1024)).foldr (fun ov m => m.hbmPut k (1024 * ln + ov.1) ov.2) m
/-- A line leaves its slice, with or without write-back; its scope record and count go with it (R230, R370). -/
def Mem.dropLine (m : Mem) (back : Bool) (ln : Nat) : Mem :=
  match mFind m.lines ln with
  | none => m
  | some l => let m1 := if back then m.writeBack ln l else m; { m1 with lines := mErase m1.lines ln }
/-- The line that a fill brings into a way. -/
def newLine (a : PageAttr) (use : Option (Nat × Bool)) (slot : Nat) : Line :=
  { Line.init with key := a.key, use := use.map (·.1), discard := (use.map (·.2)).getD false, pol := a.pol, way := a.way,
                   slot := slot }
/-- Two lines lie in one set of one slice (R11). -/
def sameSet (a b : Nat) : Bool := Config.homeOf a == Config.homeOf b && Config.setOf a == Config.setOf b
/-- The other lines of a line's set. -/
def Mem.mates (m : Mem) (ln : Nat) : Map Line := m.lines.filter fun kl => kl.1 != ln && sameSet kl.1 ln
/-- The ways that a partition may fill (R369). -/
def Mem.waysOf (m : Mem) (way : Nat) : List Nat := (rangeFrom 0 16).filter fun k => (mGet m.ways 0xFFFF way).getLsbD k
/-- A policy's place in replacement: evict-first first, retain last (R369). -/
def polRank (pol : Nat) : Nat := if pol = 1 then 0 else if pol = 2 then 2 else 1
/-- The lines that a fill of a line may displace: in its set, in a way of its partition, and first for replacement among
those (R369). -/
def Mem.victims (m : Mem) (way ln : Nat) : List Nat :=
  let ls := (m.mates ln).filter fun kl => (m.waysOf way).contains kl.2.slot
  (ls.filter fun kl => ls.all fun x => decide (polRank kl.2.pol ≤ polRank x.2.pol)).map (·.1)
/-- A way of the partition for a fill, a free one where there is one; else a line makes way (R11, R369). -/
def Mem.makeRoom (m : Mem) (way ln : Nat) : Nat × Mem :=
  match (m.waysOf way).find? fun k => !(m.mates ln).any fun kl => kl.2.slot == k with
  | some k => (k, m)
  | none =>
    let vs := m.victims way ln
    let v := vs.getD (Config.victim ln vs % vs.length) ln
    (((mFind m.lines v).getD Line.init).slot, m.dropLine true v)
/-- An access brings its line into the slice: a line under another key is written back first (R371), a line already
present keeps its count (R370). The Bool says that this access filled it. -/
def Mem.fillLine (m : Mem) (a : PageAttr) (use : Option (Nat × Bool)) (ln : Nat) : Bool × Mem :=
  let m1 := match mFind m.lines ln with
    | some l => if l.key = a.key then m else m.dropLine true ln
    | none => m
  match mFind m1.lines ln with
  | some _ => (false, m1)
  | none => if m1.bypass a then (false, m1) else
      let (slot, m2) := m1.makeRoom a.way ln
      (true, { m2 with lines := mSet m2.lines ln (newLine a use slot) })
/-- A read was served at the slice: the use count falls, and at zero the line is freed (R370) (DEDUCED, log 6). -/
def Mem.countRead (m : Mem) (ln : Nat) : Mem :=
  match mFind m.lines ln with
  | none => m
  | some l =>
    match l.use with
    | none => m
    | some n => if n ≤ 1 then m.dropLine (!l.discard) ln
                else { m with lines := mSet m.lines ln { l with use := some (n - 1) } }
/-- Reads of some addresses, each served at its slice (R370). -/
def Mem.countReads (m : Mem) (ads : List Nat) : Mem := ads.foldl (fun m pa => m.countRead (pa / 1024)) m
/-- A byte of a line in the view of its own tag. -/
def Mem.linePlain (m : Mem) (ln : Nat) (l : Line) (o : Nat) : Byte :=
  (mFind l.dirty o).getD (m.hbmView (m.keyOf l.key) (1024 * ln + o))
/-- A sector of a line has been written in the slice. -/
def Line.dirtyIn (l : Line) (o : Nat) : Bool := l.dirty.any fun ov => decide (ov.1 < 1024 ∧ ov.1 / 128 = o / 128)
/-- The home's current byte as an access under key k reads it. -/
def Mem.byteUnder (m : Mem) (k pa : Nat) : Byte :=
  match mFind m.lines (pa / 1024) with
  | none => m.hbmView k pa
  | some l =>
    if m.keyOf l.key = k then m.linePlain (pa / 1024) l (pa % 1024)
    else if l.dirtyIn (pa % 1024) then
      recrypt (m.keyOf l.key) k (pa / 128) ((rangeFrom (pa % 1024 / 128 * 128) 128).map (m.linePlain (pa / 1024) l)) (pa % 128)
    else m.hbmView k pa
/-- The write that the home's current byte is (R218); 0 for the initial write. -/
def Mem.currentWid (m : Mem) (pa : Nat) : Nat := (mGet m.arrived [] pa).headD 0
/-- The home's current byte with its write. -/
def Mem.homeByte (m : Mem) (slot pa : Nat) : HByte := { val := m.byteUnder (m.keyOf slot) pa, wid := m.currentWid pa }
/-- A read of one sector served at its slice: its bytes, and the slice afterwards (R370: the read that brings the count
with its fill is not counted). -/
def Mem.serveSector (m : Mem) (a : PageAttr) (use : Option (Nat × Bool)) (sec : Nat) : List HByte × Mem :=
  let (filled, m1) := m.fillLine a use (sec / 8)
  let bs := (rangeFrom (128 * sec) 128).map (m1.homeByte a.key)
  (bs, if filled && use.isSome then m1 else m1.countRead (sec / 8))

/-! ### Writes at the homes (R218, R219) -/
/-- The writes ordered before a write. -/
def Mem.predsOf (m : Mem) (w : Nat) : List Nat := mGet m.preds [] w
/-- A write that the home already holds succeeds this one (R219 Arrive). -/
def Mem.superseded (m : Mem) (pa wid : Nat) : Bool :=
  (mGet m.arrived [] pa).any fun w => (m.predsOf w).contains wid
/-- The home's current byte becomes v, the write wid. -/
def Mem.homeWrite (m : Mem) (a : PageAttr) (pa : Nat) (v : Byte) (wid : Nat) : Mem :=
  let (_, m1) := m.fillLine a none (pa / 1024)
  let m2 := match mFind m1.lines (pa / 1024) with
    | some l => { m1 with lines := mSet m1.lines (pa / 1024) { l with dirty := mSet l.dirty (pa % 1024) v } }
    | none => m1.hbmPut (m1.keyOf a.key) pa v
  let kept := (mGet m2.arrived [] pa).filter fun w => !(m2.predsOf w).isEmpty
  { m2 with arrived := mSet m2.arrived pa (wid :: kept) }
/-- An STL's write arrives: its line records the releaser (R230). -/
def Mem.recordScope (m : Mem) (pa : Nat) (r : RelInfo) : Mem :=
  { m with lines := mMod m.lines (pa / 1024) fun l =>
      { l with srec := some { sc := r.sc, core := r.core, warpIdx := r.wk % 32, slot := r.slot, quad := quadOf r.core,
                              clusterIdx := r.cidx } } }
/-- One byte of a write arrives at its home. -/
def Mem.arriveByte (m : Mem) (w : PWrite) : Mem :=
  if m.superseded w.pa w.wid then m else
    let m1 := m.homeWrite w.attr w.pa w.val w.wid
    match mFind m1.rels w.wid with
    | some r => m1.recordScope w.pa r
    | none => m1

/-- Which peer's memory a byte lies in, as one key with its address: local bytes are below 2^52. -/
def pkey (peer : Option Nat) (pa : Nat) : Nat :=
  match peer with
  | none => pa
  | some p => pa + (p + 1) * 2 ^ 52
def PWrite.key (w : PWrite) : Nat := pkey w.peer w.pa
/-- The home of a place: a slice, or a peer. -/
def homeAt (peer : Option Nat) (pa : Nat) : Nat :=
  match peer with
  | none => Config.homeOf (pa / 1024)
  | some p => 2 ^ 52 + p
/-- The home a write travels to. -/
def homeOfWrite (w : PWrite) : Nat := homeAt w.peer w.pa
/-- The sector of a peer that a request writes, plus 1: each request carries one (R372, R381); 0 for a home here. -/
def peerSector (w : PWrite) : Nat :=
  match w.peer with
  | none => 0
  | some _ => w.pa / 128 + 1

/-- Stores that a peer never took are counted (R382). -/
def Mem.lose (m : Mem) (p n : Nat) : Mem :=
  if n = 0 then m else { m with peers := mUpd m.peers Peer.init p fun x => { x with lost := x.lost + n } }
/-- A peer is isolated (R382). -/
def Mem.cutOff (m : Mem) (p : Nat) : Bool := (mGet m.peers Peer.init p).isolated
/-- A flight is one request to a peer. -/
def Flight.peer (f : Flight) : Option Nat := if f.home < 2 ^ 52 then none else some (f.home - 2 ^ 52)
/-- One byte of a write arrives at its home here (R219). -/
def arriveWrite (s : State) (w : PWrite) : State :=
  match w.peer with
  | none => s.setMem (s.mem.arriveByte w)
  | some _ => s
/-- A write request reaches a peer, as one message; a store to an isolated peer is lost and counted (R372, R381, R382). -/
def reachPeer (p : Nat) (ws : List PWrite) (s : State) : State :=
  if s.mem.cutOff p then s.updMem fun m => m.lose p 1 else s.send (.writeToPeer p (ws.map fun w => (w.pa, w.val)))
/-- A flight's writes arrive. -/
def arriveWrites (peer : Option Nat) (ws : List PWrite) (s : State) : State :=
  match peer with
  | none => ws.foldl arriveWrite s
  | some p => reachPeer p ws s
/-- An acknowledgement that waits for a flight is sent (R377). -/
def ackFlight (fid : Nat) (s : State) : State :=
  match s.host.posted.find? fun x => x.1 == fid with
  | none => s
  | some x => (s.setHost { s.host with posted := s.host.posted.filter fun y => y.1 != fid }).send (.written x.2)
/-- Take one flight out and let it arrive. -/
def arriveFlight (f : Flight) (s : State) : State :=
  let s1 := s.updMem fun m => { m with flights := m.flights.filter fun g => g.fid != f.fid }
  ackFlight f.fid (arriveWrites f.peer f.ws s1)
/-- The index of the byte that arrives next of those that left together: the machine's choice (R219, R6)
(DESIGN CHOICE, log 3). -/
def pickWrite (tick : Nat) : Nat → Nat
  | 0 => 0
  | n + 1 => if Config.freeChoice tick n then n + 1 else pickWrite tick n
/-- ONE WRITE of a flight arrives (R218, R219): writes that left together arrive one by one, in any order; at a peer a
request arrives as a whole. -/
def arriveOne (f : Flight) (s : State) : State :=
  if f.peer.isSome then arriveFlight f s else
  let i := pickWrite s.tick (f.ws.length - 1)
  let rest := f.ws.eraseIdx i
  let left (l : List Flight) : List Flight :=
    if rest.isEmpty then l.filter fun g => g.fid != f.fid
    else l.map fun g => if g.fid = f.fid then { g with ws := rest } else g
  let s1 := arriveWrites none ((f.ws.drop i).take 1) (s.updMem fun m => { m with flights := left m.flights })
  if rest.isEmpty then ackFlight f.fid s1 else s1.bump
/-- The requests that a load makes to a peer, one for each sector (R372). -/
def LoadSrc.requests (l : LoadSrc) (p : Nat) : List Nat :=
  ((l.accs.filter fun a => a.peer == some p && !a.zero).map fun a => a.pa / 128).dedup
/-- The requests of an outstanding result that are out at a peer: those of a load that has asked, and a returning atomic's. -/
def Out.requests (o : Out) (p : Nat) : Nat :=
  match o.load with
  | some l => if o.waitOp then 0 else (l.requests p).length
  | none => if o.peer == some p && !o.waitAtom && o.obj.isNone then 1 else 0
/-- The requests that lanes' results have out at a peer (R382). -/
def lanesAsk (s : State) (p : Nat) : Nat :=
  (s.warps.map fun kw => (kw.2.outs.map fun o => o.requests p).foldl (· + ·) 0).foldl (· + ·) 0
/-- The stores under way to a peer. -/
def storesTo (p : Nat) (fs : List Flight) : Nat := (fs.filter fun f => f.peer == some p).length
/-- The queue slice of a peer, of 64 requests, has room for n more behind some stores (R382). -/
def sliceRoom (s : State) (p n : Nat) (fs : List Flight) : Bool := decide (lanesAsk s p + storesTo p fs + n ≤ 64)
/-- The slices have room for the requests of a load. -/
def LoadSrc.room (l : LoadSrc) (s : State) : Bool :=
  ((l.accs.filterMap (·.peer)).dedup).all fun p => sliceRoom s p (l.requests p).length s.mem.flights
/-- In the order of one source and one home (R219, R373); a non-temporal store is outside it (R229). A store to a peer has
its place in the slice. -/
def flightFirst (s : State) (f : Flight) : Bool :=
  let ahead := s.mem.flights.takeWhile fun g => g.fid != f.fid
  (f.nt || !ahead.any fun g => !g.nt && g.src == f.src && g.home == f.home) &&
    match f.peer with
    | none => true
    | some p => sliceRoom s p 1 ahead
/-- What one source sent to one home arrives, in order (the condition of a Fill, R219). -/
def drainHome (src home : Nat) (s : State) : State :=
  (s.mem.flights.filter fun f => !f.nt && f.src == src && f.home == home).foldl (fun s f => arriveFlight f s) s

/-- Send writes toward one home as one flight. -/
def addFlight (src home : Nat) (nt : Bool) (ws : List PWrite) (s : State) : State :=
  s.updMem fun m => { m with flights := m.flights ++ [{ fid := m.nextFid, src := src, home := home, ws := ws, nt := nt }],
                             nextFid := m.nextFid + 1 }
/-- Writes leave together, one flight for each home they go to and each sector of a peer. -/
def sendWrites (src : Nat) (nt : Bool) (ws : List PWrite) (s : State) : State :=
  let place (w : PWrite) : Nat × Nat := (homeOfWrite w, peerSector w)
  ((ws.map place).dedup).foldl (fun s h => addFlight src h.1 nt (ws.filter fun w => place w == h) s) s

/-- The writes of a store pool's bytes. -/
def poolWrites (c : Core) (p : Nat → Bool) : List PWrite :=
  (c.pool.filter fun kb => p kb.1).map fun kb =>
    { pa := kb.1 % 2 ^ 52, val := kb.2.val, wid := kb.2.wid, attr := kb.2.attr, peer := kb.2.peer }
/-- The dirty bytes of the sectors that a test picks go in flight, and the core's snapshots of those sectors are
dropped (R219 Evict, R223). -/
def evictWhere (core : Nat) (p : Nat → Bool) (s : State) : State :=
  let c := s.coreAt core
  let ws := poolWrites c fun k => p (k / 128)
  let secs := (ws.map fun w => w.key / 128).dedup
  let s1 := s.updCore core fun c =>
    { c with pool := c.pool.filter fun kb => !p (kb.1 / 128),
             snaps := c.snaps.filter fun kv => !secs.contains kv.1 }
  secs.foldl (fun s sec => sendWrites core false (ws.filter fun w => w.key / 128 == sec) s) s1

/-- Sectors that a core's L1 holds, dirty ones and snapshots. -/
def Core.sectors (c : Core) : Nat := (c.pool.map (fun (kb : Nat × PoolByte) => kb.1 / 128) ++ c.snaps.map (fun (kv : Nat × List HByte) => kv.1)).dedup.length
/-- The L1 has no room for n sectors more: 256 KiB less the 64 KiB backing region carved from it (R11)
(DEDUCED, log 10). -/
def Core.full (c : Core) (n : Nat) : Bool :=
  decide (1536 < c.pool.length + c.snaps.length + n) && decide (1536 < c.sectors + n)
/-- Room for n sectors: a full L1 sends its dirty bytes out and drops its snapshots, by Evict and Drop (R219)
(DESIGN CHOICE, log 10). -/
def makeL1Room (core n : Nat) (s : State) : State :=
  if (s.coreAt core).full n then (evictWhere core (fun _ => true) s).updCore core fun c => { c with snaps := [] } else s

/-! ### Translation (R362 to R368) -/
/-- The kind of an access. -/
inductive Acc where | read | write | fetch
deriving DecidableEq, Repr
/-- A fault of an access: code and DETAIL (R240). -/
structure MemFault where
  code : Byte
  detail : Nat
deriving DecidableEq, Repr
/-- DETAIL of a page fault: [0] write, [1] fetch. -/
def Acc.detail : Acc → Nat
  | .read => 0
  | .write => 1
  | .fetch => 2
/-- A 64-bit table entry read at its home, past every L1 (R362). -/
def Mem.readPte (m : Mem) (pa : Nat) : DWord := BitVec.ofNat 64 (leNat ((rangeFrom pa 8).map (m.byteUnder 0)))
/-- A set reserved bit of a leaf (R363). -/
def leafReserved (x : DWord) : Bool :=
  x.getLsbD 13 || x.getLsbD 12 || (x.getLsbD 52 && (x.getLsbD 63 || x.getLsbD 15 || x.getLsbD 14))
/-- Any of R, W, X makes an entry a leaf. -/
def isLeaf (x : DWord) : Bool := x.getLsbD 1 || x.getLsbD 2 || x.getLsbD 3
/-- The table a pointer entry names; none for an invalid entry or a leaf. -/
def pointerTo (x : DWord) : Option Nat :=
  if x.getLsbD 0 && !isLeaf x && !x.getLsbD 13 && !x.getLsbD 12 then some (x.toNat / 2 ^ 16 % 2 ^ 36 * 2 ^ 16) else none
/-- A walk: the leaf's address, its level and the leaf (R362) (DEDUCED, log 5). -/
def Mem.walk (m : Mem) (root va : Nat) : Option (Nat × Nat × DWord) :=
  match pointerTo (m.readPte (root + 8 * (va / 2 ^ 42 % 2 ^ 13))) with
  | none => none
  | some t2 =>
    let a2 := t2 + 8 * (va / 2 ^ 29 % 2 ^ 13)
    let e2 := m.readPte a2
    if isLeaf e2 then
      if e2.getLsbD 0 && !leafReserved e2 && e2.toNat / 2 ^ 16 % 2 ^ 13 == 0 then some (a2, 2, e2) else none
    else match pointerTo e2 with
      | none => none
      | some t3 =>
        let a3 := t3 + 8 * (va / 2 ^ 16 % 2 ^ 13)
        let e3 := m.readPte a3
        if isLeaf e3 && e3.getLsbD 0 && !leafReserved e3 then some (a3, 3, e3) else none
/-- The places that a walk reads: its entries (R362). -/
def Mem.walkReads (m : Mem) (root va : Nat) : List Nat :=
  let a1 := root + 8 * (va / 2 ^ 42 % 2 ^ 13)
  match pointerTo (m.readPte a1) with
  | none => [a1]
  | some t2 =>
    let a2 := t2 + 8 * (va / 2 ^ 29 % 2 ^ 13)
    match pointerTo (m.readPte a2) with
    | none => [a1, a2]
    | some t3 => [a1, a2, t3 + 8 * (va / 2 ^ 16 % 2 ^ 13)]
/-- The key slot of a leaf. -/
def leafKey (x : DWord) : Nat := x.toNat / 2 ^ 53 * 4 + x.toNat / 2 ^ 14 % 4
/-- The peer of a leaf with REMOTE = 1. -/
def leafPeer (x : DWord) : Option Nat := if x.getLsbD 52 then some (x.toNat / 2 ^ 53 % 1024) else none
/-- The physical address under a leaf of a level. -/
def leafPa (level : Nat) (x : DWord) (va : Nat) : Nat :=
  if level = 2 then x.toNat / 2 ^ 29 % 2 ^ 23 * 2 ^ 29 + va % 2 ^ 29
  else x.toNat / 2 ^ 16 % 2 ^ 36 * 2 ^ 16 + va % 2 ^ 16
/-- The permission checks against a leaf, in the order of R183 (R364, R368, R371, R382). -/
def leafFault (m : Mem) (k : Acc) (x : DWord) : Option MemFault :=
  let prot : Option MemFault := some ⟨0x08, k.detail⟩
  match k with
  | .fetch => if !x.getLsbD 3 || x.getLsbD 52 || x.getLsbD 6 then prot
              else if leafKey x != 0 && (mFind m.keys (leafKey x)).isNone then prot else none
  | _ =>
    if (k == .read && !x.getLsbD 1) || (k == .write && !x.getLsbD 2) then prot
    else if x.getLsbD 6 then (if k == .write then some ⟨0x09, 0⟩ else none)
    else match leafPeer x with
      | some p => if (mGet m.peers Peer.init p).isolated then some ⟨0x0B, p⟩ else none
      | none => if leafKey x != 0 && (mFind m.keys (leafKey x)).isNone then prot else none
/-- The walker's swap of A and D (R366); none on a discarded page (R368). -/
def withAD (k : Acc) (x : DWord) : DWord :=
  if x.getLsbD 6 then x else if k = .write then x ||| 0x30#64 else x ||| 0x10#64
/-- A fresh write id. -/
def freshWid (s : State) : Nat × State := (s.mem.nextWid, s.updMem fun m => { m with nextWid := m.nextWid + 1 })
/-- Bytes written at the homes as one write of an observer of device scope (R235). -/
def homeStore (a : PageAttr) (pa : Nat) (bs : List Byte) (s : State) : State :=
  let (wid, s1) := freshWid s
  s1.updMem fun m => (mapIdxFrom (fun i v => (i, v)) 0 bs).foldl (fun m iv => m.homeWrite a (pa + iv.1) iv.2 wid) m
/-- The access that a leaf gives lane `lane` at va. -/
def leafAcc (level : Nat) (x : DWord) (lane va : Nat) : LaneAcc :=
  { lane := lane, va := va, pa := leafPa level x va, peer := leafPeer x, zero := x.getLsbD 6,
    attr := match leafPeer x with
      | some _ => PageAttr.none
      | none => { key := leafKey x, way := x.toNat / 2 ^ 10 % 4, pol := x.toNat / 2 ^ 8 % 4 } }
/-- The TLB key of a page of a partition's space: of 512 MiB at level 2, of 64 KiB at level 3 (R367). -/
def tlbKey (part level va : Nat) : Nat := part * 2 ^ 40 + if level = 2 then 2 ^ 39 + va / 2 ^ 29 else va / 2 ^ 16
/-- The translation that a TLB holds for an address (DESIGN CHOICE, log 5: a page of 512 MiB comes first). -/
def tlbFind (tlb : Map TlbEntry) (part va : Nat) : Option TlbEntry :=
  (mFind tlb (tlbKey part 2 va)).or (mFind tlb (tlbKey part 3 va))
/-- A TLB takes a page's translation in the place of what it held for the address. -/
def tlbFill (tlb : Map TlbEntry) (part va : Nat) (e : TlbEntry) : Map TlbEntry :=
  mSet (mErase (mErase tlb (tlbKey part 2 va)) (tlbKey part 3 va)) (tlbKey part e.level va) e
/-- The reads of a walk and its swap are served at the slices (R370). -/
def countWalk (part va : Nat) (swap : List Nat) (m0 : Mem) (s : State) : State :=
  s.updMem fun m => m.countReads (m0.walkReads (mGet m0.roots 0 part) va ++ swap)
/-- A walk with its checks and the swap; a core's TLB keeps the leaf (R366, R367). -/
def walkAccess (core : Option Nat) (part : Nat) (k : Acc) (lane va : Nat) (s : State) : Except MemFault LaneAcc × State :=
  match s.mem.walk (mGet s.mem.roots 0 part) va with
  | none => (.error ⟨0x07, k.detail⟩, countWalk part va [] s.mem s)
  | some (pa, level, x) =>
    match leafFault s.mem k x with
    | some f => (.error f, countWalk part va [] s.mem s)
    | none =>
      let y := withAD k x
      let s1 := countWalk part va (if y = x then [] else [pa]) s.mem
        (if y = x then s else homeStore PageAttr.none pa (leBytes y.toNat 8) s)
      let s2 := match core with
        | none => s1
        | some c => s1.updCore c fun c => { c with tlb := tlbFill c.tlb part va { leaf := y, level := level } }
      (.ok (leafAcc level y lane va), s2)
/-- TRANSLATION of one address (R362, R366, R367): through the core's TLB where it holds the page, else by a walk. A
write through an entry with D = 0 goes back to the walker (DEDUCED, log 5) (R375). Where a CONTIG group breaks its
conditions, an address translates through its own leaf (DESIGN CHOICE, log 5). -/
def translate (core : Option Nat) (part : Nat) (k : Acc) (lane : Nat) (va : Nat) (s : State) :
    Except MemFault LaneAcc × State :=
  if 2 ^ 55 ≤ va then (.error ⟨0x07, k.detail⟩, s) else
  match core.bind fun c => tlbFind (s.coreAt c).tlb part va with
  | none => walkAccess core part k lane va s
  | some e =>
    if k = .write ∧ e.leaf.getLsbD 5 = false ∧ e.leaf.getLsbD 6 = false then walkAccess core part k lane va s
    else match leafFault s.mem k e.leaf with
      | some f => (.error f, s)
      | none => (.ok (leafAcc e.level e.leaf lane va), s)

/-! ### Loads (R220, R229, R232) -/
/-- The bytes of an access. -/
def LaneAcc.keys (a : LaneAcc) (n : Nat) : List Nat := rangeFrom (pkey a.peer a.pa) n
/-- A byte of the warp's own unperformed stores, the latest issued before operation `before` (R221) (DEDUCED, log 32). -/
def ownByte (w : Warp) (before : Nat) (k : Nat) : Option HByte :=
  (w.memq.reverse.filterMap fun o =>
    if o.id < before then (o.ws.reverse.find? fun x => x.key == k).map fun x => ⟨x.val, x.wid⟩ else none).head?
/-- A byte of the warp's own unperformed stores, or of the core's store pool. -/
def frontByte (s : State) (w : Warp) (core before k : Nat) : Option HByte :=
  match ownByte w before k with
  | some b => some b
  | none => (mFind (s.coreAt core).pool k).map fun b => ⟨b.val, b.wid⟩
/-- The warp's non-temporal stores to the bytes of a load arrive first (R229). -/
def arriveNt (wk : Nat) (ks : List Nat) (s : State) : State :=
  (s.mem.flights.filter fun f => f.nt && (s.warp wk).ntFids.contains f.fid && f.ws.any fun w => ks.contains w.key).foldl
    (fun s f => arriveFlight f s) s
/-- A Fill of one sector for a core (R219): what the core sent to that home arrives first. -/
def serveFor (core : Nat) (a : PageAttr) (use : Option (Nat × Bool)) (sec : Nat) (s : State) : List HByte × State :=
  let s1 := drainHome core (Config.homeOf (sec / 8)) s
  let (bs, m) := s1.mem.serveSector a use sec
  (bs, s1.setMem m)
/-- The bytes of one sector for a load of a kind: what its snapshot or its home holds (R220, R188). -/
def sectorBytes (core : Nat) (k : LoadKind) (a : PageAttr) (sec : Nat) (s : State) : List HByte × State :=
  match k with
  | .nol1 => serveFor core a none sec s
  | .use n d => serveFor core a (some (n, d)) sec s
  | .ro =>
    match mFind (s.quad (quadOf core)).roSnaps sec with
    | some bs => (bs, s)
    | none =>
      let (bs, m) := s.mem.serveSector a none sec
      (bs, (s.setMem m).updQuad (quadOf core) fun q => { q with roSnaps := mSet q.roSnaps sec bs })
  | _ =>
    match mFind (s.coreAt core).snaps sec with
    | some bs => (bs, s)
    | none =>
      let (bs, s1) := serveFor core a none sec (makeL1Room core 1 s)
      (bs, s1.updCore core fun c => { c with snaps := mSet c.snaps sec bs })
/-- The read-only path does not look at the warp's or the core's own stores (R221). -/
def LoadKind.isRo : LoadKind → Bool
  | .ro => true
  | _ => false
/-- LDR.use reads at the LLC, whatever the core itself holds (R188). -/
def LoadKind.isUse : LoadKind → Bool
  | .use _ _ => true
  | _ => false
/-- One byte of a local page, given its sector. -/
def pickByte (s : State) (w : Warp) (core before : Nat) (ro : Bool) (bs : List HByte) (key : Nat) : HByte :=
  (if ro then none else frontByte s w core before key).getD (bs.getD (key % 128) ⟨0, 0⟩)
/-- The values of the lanes whose access lies in one sector. -/
def loadSector (wk core before : Nat) (k : LoadKind) (n : Nat) (sec : Nat) (accs : List LaneAcc)
    (r : Map (List HByte) × State) : Map (List HByte) × State :=
  let s := r.2
  let mine := accs.filter fun a => a.peer.isNone && !a.zero && a.pa / 128 == sec
  let w := s.warp wk
  let needs := k.isRo || k.isUse || mine.any fun a => (a.keys n).any fun key => (frontByte s w core before key).isNone
  let (bs, s1) := if needs then sectorBytes core k (mine.headD (leafAcc 3 0 0 0)).attr sec s else ([], s)
  (mine.foldl (fun m a => mSet m a.lane ((a.keys n).map (pickByte s w core before k.isRo bs))) r.1, s1)
/-- One lane's access to a peer's page or to a discarded page (R368, R372). -/
def loadOther (wk core before : Nat) (k : LoadKind) (n : Nat) (r : Map (List HByte) × State) (a : LaneAcc) :
    Map (List HByte) × State :=
  let s := r.2
  if a.zero then (mSet r.1 a.lane (List.replicate n ⟨0, 0⟩), s)
  else match a.peer with
    | none => r
    | some p =>
      let bs := mapIdxFrom (fun i key =>
        (if k.isRo then none else frontByte s (s.warp wk) core before key).getD ⟨Config.peerByte s.tick p (a.pa + i), 0⟩)
        0 (a.keys n)
      (mSet r.1 a.lane bs, s.bump)
/-- A load's requests to peers go out, one for each sector of which the warp's and the core's own stores do not hold all
that it reads (R372, R381). -/
def askPeers (wk core before : Nat) (k : LoadKind) (n : Nat) (accs : List LaneAcc) (s : State) : State :=
  let need := accs.filter fun a => a.peer.isSome && !a.zero &&
    (k.isRo || (a.keys n).any fun key => (frontByte s (s.warp wk) core before key).isNone)
  ((need.map fun a => (a.peer.getD 0, a.pa / 128)).dedup).foldl (fun s x => s.send (.readToPeer x.1 (128 * x.2) 128)) s
/-- LOADING FROM GLOBAL MEMORY (R220): the bytes of every lane, and the state after the fills. `before` is the load's
number in its warp's stream. -/
def loadGlobal (wk core before : Nat) (k : LoadKind) (n : Nat) (accs : List LaneAcc) (s : State) :
    Map (List HByte) × State :=
  let s0 := if k.isRo then s else arriveNt wk (accs.flatMap fun a => a.keys n) s
  let secs := ((accs.filter fun a => a.peer.isNone && !a.zero).map fun a => a.pa / 128).dedup
  let r := secs.foldl (fun r sec => loadSector wk core before k n sec accs r) ([], s0)
  accs.foldl (loadOther wk core before k n) (r.1, askPeers wk core before k n accs r.2)

/-- The bytes of a local space. -/
def Block.space (b : Block) : LSpace → Memory
  | .sp => b.sp
  | .ab => b.ab
  | .wb => b.wb
  | .cb => b.cb
  | .xfront => b.xfront
/-- Replace a local space. -/
def Block.setSpace (b : Block) (q : LSpace) (m : Memory) : Block :=
  match q with
  | .sp => { b with sp := m }
  | .ab => { b with ab := m }
  | .wb => { b with wb := m }
  | .cb => { b with cb := m }
  | .xfront => { b with xfront := m }
/-- The bytes of every lane from a local space (R233). -/
def loadLocal (b : Block) (q : LSpace) (n : Nat) (accs : List LaneAcc) : Map (List HByte) :=
  accs.foldl (fun m a => mSet m a.lane ((rangeFrom a.va n).map fun o => ⟨memRead (b.space q) o, mGet b.spRel 0 o⟩)) []

/-! ### Acquires (R224, R225) -/
/-- Two parties lie in one instance of a scope (R14): releaser and acquirer by core, block, cluster and warp. -/
def scopeCovers (sc : Scope) (r : RelInfo) (wk bk ck : Nat) : Bool :=
  match sc with
  | .w => r.wk == wk
  | .b => r.bk == bk
  | .c => r.ck == ck
  | .d | .p => true
/-- Whether a scope reaches beyond the core's L1. -/
def scopeWide (sc : Scope) : Bool := sc == .c || sc == .d || sc == .p
/-- Writes that have not arrived: only these can still be overtaken. -/
def State.pendingWids (s : State) : List Nat :=
  (s.warps.flatMap fun kw => (kw.2.memq.filter fun o => !o.ws.isEmpty || !o.lws.isEmpty).map (·.wid)) ++
  (s.cores.flatMap fun kc => kc.2.pool.map fun kb => kb.2.wid) ++
  (s.mem.flights.flatMap fun f => f.ws.map (·.wid)) ++ s.mem.atoms.map (·.wid)
/-- The writes of a list that have not arrived. -/
def State.prune (s : State) (l : List Nat) : List Nat :=
  if l.isEmpty then [] else let p := s.pendingWids; (l.filter p.contains).dedup
/-- Writes become ordered before what a warp does next. -/
def addHb (wk : Nat) (l : List Nat) (s : State) : State :=
  if l.isEmpty then s else s.updWarp wk fun w => { w with hb := s.prune (l ++ w.hb) }
/-- An acquire of a scope drops the core's snapshots of global lines (R224). -/
def acquireDrop (core : Nat) (sc : Scope) (s : State) : State :=
  if scopeWide sc then s.updCore core fun c => { c with snaps := [] } else s
/-- AN ACQUIRE after a load (R224, R225): the releases whose stores it read are matched where both scopes cover the
parties, and the snapshots are dropped. -/
def acquire (wk core : Nat) (sc : Scope) (wids : List Nat) (s : State) : State :=
  let w := s.warp wk
  let hs := wids.dedup.flatMap fun i =>
    match mFind s.mem.rels i with
    | some r => if scopeCovers sc r wk w.bk (s.block w.bk).ck && scopeCovers r.sc r wk w.bk (s.block w.bk).ck then i :: r.hb else []
    | none => []
  acquireDrop core sc (addHb wk hs s)

/-! ### Engine ports (R235) -/
/-- An engine reads one byte at its home, at a physical place. -/
def engineByte (s : State) (a : LaneAcc) (i : Nat) : Byte :=
  if a.zero then 0 else
  match a.peer with
  | some p => Config.peerByte s.tick p (a.pa + i)
  | none => s.mem.byteUnder (s.mem.keyOf a.attr.key) (a.pa + i)
/-- An engine reads n bytes within one sector or of one page piece: each sector is one read at its slice. -/
def enginePiece (a : LaneAcc) (n : Nat) (use : Option (Nat × Bool)) (s : State) : List Byte × State :=
  let bs0 := (rangeFrom 0 n).map (engineByte s a)
  if a.zero then (bs0, s) else
  match a.peer with
  | some p => (bs0, (s.send (.readToPeer p a.pa n)).bump)
  | none =>
    let (bs, m) := s.mem.serveSector a.attr use (a.pa / 128)
    ((bs.map (·.val)).drop (a.pa % 128) |>.take n, s.setMem m)
/-- The pieces of a virtual range within sectors: address and length. `fuel` bounds their number. -/
def pieces : Nat → Nat → Nat → List (Nat × Nat)
  | 0, _, _ => []
  | fuel + 1, va, n =>
    if n = 0 then [] else
      let k := min n (128 - va % 128)
      (va, k) :: pieces fuel (va + k) (n - k)
/-- The sector pieces of n bytes from va. -/
def sectorPieces (va n : Nat) : List (Nat × Nat) := pieces (n / 128 + 2) va n
/-- AN ENGINE READ of n bytes at a virtual address (R235, R272): the bytes, or the first fault with its address. -/
def engineRead (part va n : Nat) (use : Option (Nat × Bool)) (s : State) : Except (MemFault × Nat) (List Byte) × State :=
  (sectorPieces va n).foldl (fun r p =>
    match r.1 with
    | .error e => (.error e, r.2)
    | .ok bs =>
      match translate none part .read 0 p.1 r.2 with
      | (.error f, s1) => (.error (f, p.1), s1)
      | (.ok a, s1) =>
        if (rangeFrom a.pa p.2).any s1.mem.ecc.contains && a.peer.isNone && !a.zero then (.error (⟨0x0C, 0⟩, p.1), s1)
        else let (b, s2) := enginePiece a p.2 use s1; (.ok (bs ++ b), s2)) (.ok [], s)
/-- AN ENGINE WRITE of bytes at a virtual address: applied at the homes (R235); the first fault stops it. -/
def engineWrite (part va : Nat) (bs : List Byte) (s : State) : Option (MemFault × Nat) × State :=
  (sectorPieces va bs.length).foldl (fun r p =>
    match r.1 with
    | some e => (some e, r.2)
    | none =>
      match translate none part .write 0 p.1 r.2 with
      | (.error f, s1) => (some (f, p.1), s1)
      | (.ok a, s1) =>
        let d := (bs.drop (p.1 - va)).take p.2
        match a.peer with
        | some q => (none, s1.send (.writeToPeer q (mapIdxFrom (fun i v => (a.pa + i, v)) 0 d)))
        | none => (none, homeStore a.attr a.pa d s1)) (none, s)
/-- Whether every page of a range can be accessed, without an access: the first fault with its address. -/
def engineCheck (part va n : Nat) (k : Acc) (s : State) : Option (MemFault × Nat) :=
  (sectorPieces va n).findSome? fun p =>
    match (translate none part k 0 p.1 s).1 with
    | .error f => some (f, p.1)
    | .ok _ => none

end Sys2Proof.Machine
end

