-- ==== Sys2Proof/Machine/YardOps.lean ====
section
/-! DEFINITION. The yard: dependence counters and their events (R309 to R311), jobs with footprints and edges (R17 to
R19), waiting TKJOINs (R334). -/
namespace Sys2Proof.Machine

/-! ### Footprints and edges (R17, R18) -/
/-- Two regions conflict: one space, overlapping bytes, at least one write. -/
def Region.conflicts (a b : Region) : Bool :=
  a.space == b.space && decide (a.lo < b.hi) && decide (b.lo < a.hi) && (a.write || b.write)
/-- Two footprints conflict. -/
def footprintsConflict (a b : List Region) : Bool := a.any fun x => b.any x.conflicts
/-- A region of a block's local window; windows of different blocks of a core do not meet. -/
def localRegion (sp : JSpace) (slot lo hi : Nat) (write : Bool) : Region :=
  { space := sp, lo := 2 ^ 32 * slot + lo, hi := 2 ^ 32 * slot + hi, write := write }
/-- A job arrives: it takes an edge from every earlier job that conflicts and has not completed. -/
def addJob (q : Nat) (j : Job) (s : State) : State :=
  s.updQuad q fun x =>
    let es := (x.jobs.filter fun o => footprintsConflict o.regions j.regions).map (·.jid)
    { x with jobs := x.jobs ++ [{ j with jid := x.nextJid, edges := es }], nextJid := x.nextJid + 1 }
/-- A job leaves the yard, completed, skipped or dropped: the edges from it clear. -/
def removeJob (q jid : Nat) (s : State) : State :=
  s.updQuad q fun x => { x with jobs := (x.jobs.filter fun j => j.jid != jid).map fun j =>
    { j with edges := j.edges.filter (· != jid) } }
/-- A job by its number. -/
def State.job (s : State) (q jid : Nat) : Option Job := (s.quad q).jobs.find? fun j => j.jid == jid
/-- Change a job. -/
def updJob (q jid : Nat) (f : Job → Job) (s : State) : State :=
  s.updQuad q fun x => { x with jobs := x.jobs.map fun j => if j.jid = jid then f j else j }

/-! ### Counters (R309 to R311) -/
/-- A counter. -/
def State.ctr (s : State) (q c : Nat) : Ctr := mGet (s.quad q).ctrs Ctr.init c
/-- Store a counter. -/
def putCtr (q c : Nat) (x : Ctr) (s : State) : State := s.updQuad q fun y => { y with ctrs := mSet y.ctrs c x }
/-- A partition owns the counter (R310). -/
def ctrOwned (s : State) (q c part : Nat) : Bool := (s.ctr q c).owner == some part
/-- The wait counter of a task record, when it is enabled (R326). -/
def taskWait (r : List Word) : Option Nat :=
  if (recWord r 2).getLsbD 11 then some (bitsAt (recWord r 2) 0 11) else none
/-- The join counter of a task record, when it is enabled. -/
def taskJoin (r : List Word) : Option Nat :=
  if (recWord r 2).getLsbD 23 then some (bitsAt (recWord r 2) 12 11) else none

/-- A TKJOIN returns: FAILED and FAILID as they stand, and a device-scope acquire (R334, R226). -/
def tkjoinDone (q c : Nat) (d : Reg) (s : State) : State :=
  let x := s.ctr q c
  let v : DWord := (x.failId ++ (if x.failed then 1#32 else 0#32) : BitVec 64)
  let s1 := if d = 124 then s else s.updCw (writeAll (warpWrites d true v))
  done (acquireDrop s.cur.core .d (addHb s.cur.wk x.hb s1))
/-- A parked TKJOIN returns. -/
def finishTkjoin (q c : Nat) (wk : Nat) (p : Park) (d : Reg) (s : State) : State := takeUp wk p (tkjoinDone q c d) s
/-- The parked TKJOINs of a quad on one counter. -/
def tkjoinsOn (s : State) (q c : Nat) : List (Nat × Park × Reg) :=
  s.warps.flatMap fun kw =>
    if quadOf (s.block kw.2.bk).core = q then
      kw.2.parks.filterMap fun p =>
        match p.why with
        | .tkjoin c' d => if c' = c then some (kw.1, p, d) else none
        | _ => none
    else []
/-- A pool entry's place in the order of readiness: by the yard's local cycle, then by the entry (R313). -/
def readyAt (cycle slot : Nat) : Nat × Nat := (512 * cycle + slot, cycle)
/-- Tasks that wait on a counter become ready (R311, R313). -/
def readyTasks (c : Nat) (x : Quad) : Quad :=
  { x with tasks := x.tasks.map fun t =>
      if t.ready.isNone && taskWait t.record == some c then { t with ready := some (readyAt x.yardCycle t.slot) } else t }
/-- A COUNTER'S VALUE BECOMES ZERO (R311): its tasks and jobs become ready, once, and its TKJOINs return. -/
def becomeZero (q c : Nat) (s : State) : State :=
  let s1 := s.updQuad q fun x =>
    let y := readyTasks c x
    { y with jobs := y.jobs.map fun j => if j.wait = some c then { j with waitDone := true } else j }
  (tkjoinsOn s1 q c).foldl (fun s t => finishTkjoin q c t.1 t.2.1 t.2.2 s) s1

/-- How a completion marks its counter (R309). -/
inductive FailMark where | no | failed | task (id : Word)
deriving DecidableEq, Repr
/-- The marks of R309: FAILID changes only while FAILED is 0. -/
def Ctr.mark (x : Ctr) : FailMark → Ctr
  | .no => x
  | .failed => { x with failed := true }
  | .task i => { x with failed := true, failId := if x.failed then x.failId else i }
/-- A counter as the present cycle's decrements see it: before the cycle's sets (R309). -/
def Quad.before (x : Quad) (c : Nat) : Ctr :=
  match mFind x.sets c with
  | some e => e.pre
  | none => mGet x.ctrs Ctr.init c
/-- What a decrement leaves: a set of the same cycle stands over it. -/
def Quad.putBefore (c : Nat) (y : Ctr) (x : Quad) : Quad :=
  match mFind x.sets c with
  | some e => { x with sets := mSet x.sets c { e with pre := y } }
  | none => { x with ctrs := mSet x.ctrs c y }
/-- A DECREMENT by n (R309): one larger than VALUE leaves 0 and posts an ENGINE record of the yard. -/
def decrement (q c n : Nat) (mark : FailMark) (gid : Nat) (s : State) : State :=
  let x := (s.quad q).before c
  let v := x.value.toNat
  let s1 := s.updQuad q (Quad.putBefore c { x.mark mark with value := BitVec.ofNat 32 (v - n) })
  let s2 := if v < n then postRecord (engineRecord 0x11 c 4 gid 0 0 (4 * q) 0 .none) s1 else s1
  if v ≤ n ∧ v ≠ 0 then becomeZero q c s2 else s2
/-- TKSIG's set form (R309, R311): of the sets of one cycle the last in the order of R127, `key`, stands. -/
def setCtr (q c : Nat) (v : Word) (key : Nat) (s : State) : State :=
  let stands := (mFind (s.quad q).sets c).all fun e => decide (e.key ≤ key)
  let s1 := if stands then putCtr q c { s.ctr q c with value := v, failed := false, failId := 0xFFFFFFFF }
      (s.updQuad q fun x => { x with sets := mSet x.sets c { pre := x.before c, key := key } })
    else s
  if v = 0 then becomeZero q c s1 else s1
/-- A releasing party's writes are ordered before the acquires through a counter (R226). -/
def ctrRelease (q c : Nat) (hb : List Nat) (s : State) : State :=
  if hb.isEmpty then s else putCtr q c { s.ctr q c with hb := s.prune (hb ++ (s.ctr q c).hb) } s
/-- Whether a wait counter lets a task or job be ready at arrival (R311). -/
def waitOver (s : State) (q : Nat) : Option Nat → Bool
  | none => true
  | some c => (s.ctr q c).value == 0

end Sys2Proof.Machine
end

