-- ==== Sys2Proof/Machine/BarObj.lean ====
section
/-! DEFINITION. Barrier objects (R202, R203, R329), the remote exchange banks (R186, R234), and the windows of a block
(R94). -/
namespace Sys2Proof.Machine

/-- The words of R202: w0 (EXPECTED, OVER, PARITY), w1 PENDING, w2 BYTES. -/
structure BarObj where
  w0 : Word
  pending : Word
  bytes : Word
deriving DecidableEq, Repr

/-- The phase parity. -/
def BarObj.parity (o : BarObj) : Bool := o.w0.getLsbD 0
/-- The arrivals expected per phase. -/
def BarObj.expected (o : BarObj) : Word := BitVec.ofNat 32 (bitsAt o.w0 16 16)
/-- The completion test, after every change: the parity flips and the object rearms (R202). -/
def BarObj.settle (o : BarObj) : BarObj × Bool :=
  if o.pending = 0 ∧ o.bytes = 0 then ({ o with w0 := o.w0 ^^^ 1, pending := o.expected }, true) else (o, false)
/-- An arrival: OVER is set where none is due. -/
def BarObj.arrive (o : BarObj) : BarObj :=
  if o.pending = 0 then { o with w0 := o.w0 ||| 2 } else { o with pending := o.pending - 1 }
/-- One BARX op on the words, with the completion it brings (R202). -/
def BarObj.step (o : BarObj) (op : BarxOp) (b : Word) : BarObj × Bool :=
  match op with
  | .init => ({ w0 := BitVec.ofNat 32 (65536 * bitsAt b 0 16), pending := BitVec.ofNat 32 (bitsAt b 0 16), bytes := 0 }, false)
  | .expect => { o with bytes := o.bytes + b }.settle
  | .arrive => o.arrive.settle
  | .arriveExpect => { o with bytes := o.bytes + b }.arrive.settle
  | .test | .wait => (o, false)
/-- Bytes delivered to an object (R186). -/
def BarObj.deliver (o : BarObj) (n : Nat) : BarObj × Bool := { o with bytes := o.bytes - BitVec.ofNat 32 n }.settle

/-! ### Objects at a block's scratchpad -/
/-- The object at an offset. -/
def Block.obj (b : Block) (off : Nat) : BarObj :=
  { w0 := memRead32 b.sp off, pending := memRead32 b.sp (off + 4), bytes := memRead32 b.sp (off + 8) }
/-- Store an object's words. -/
def Block.putObj (b : Block) (off : Nat) (o : BarObj) : Block :=
  { b with sp := memWriteBytes b.sp off (wordBytes o.w0 ++ wordBytes o.pending ++ wordBytes o.bytes) }
/-- An outstanding wait on an object that the new parity satisfies. -/
def Out.awaits (o : Out) (loc : Bool) (addr : Nat) (parity : Bool) : Bool :=
  match o.obj with
  | some x => x.loc == loc && x.addr == addr && x.parity != parity
  | none => false
/-- A completed phase satisfies the waits of a warp that await the other parity; the writes ordered before the phase's
arrivals are then ordered before what the warp does next (R203, R225). -/
def satisfyObj (loc : Bool) (addr : Nat) (parity : Bool) (hb : List Nat) (w : Warp) : Warp :=
  if w.outs.any (·.awaits loc addr parity) then
    { w with outs := w.outs.map fun o => if o.awaits loc addr parity then { o with obj := none } else o,
             hb := (hb ++ w.hb).dedup }
  else w
/-- A change of a local object (R202): its words, and the waits it satisfies. -/
def localObjChange (bk off : Nat) (r : BarObj × Bool) (s : State) : State :=
  let s1 := s.updBlock bk fun b => b.putObj off r.1
  if r.2 then
    let hb := mGet (s1.block bk).objHb [] off
    s1.setWarps (s1.warps.map fun kw => if kw.2.bk = bk then (kw.1, satisfyObj true off r.1.parity hb kw.2) else kw)
  else s1

/-! ### Remote exchange (R186, R234) -/
/-- The block of a rank in a cluster. -/
def clusterBlock (s : State) (ck rank : Nat) : Option Nat :=
  (s.cluster ck).blocks.find? fun bk => (s.block bk).rank == rank
/-- The size of a local window in bytes. -/
def Block.windowSize (b : Block) : LSpace → Nat
  | .sp => b.spSize
  | .ab => b.abSize
  | .wb => b.wbSize
  | .cb => b.cbSize
  | .xfront => if b.hasX then 65536 else 0
/-- A remote form of n bytes can be delivered: the storing block holds exchange banks, the rank and the object are
within reach (R179, R186). -/
def remoteOk (s : State) (b : Block) (addr n : Nat) : Bool :=
  let rank := addr / 65536 % 4
  let slot := addr / 262144
  b.hasX && decide (addr % 65536 + n ≤ 65536) && decide (rank < (s.grid b.gid).csize) &&
    match clusterBlock s b.ck rank with
    | none => false
    | some r => slot == 0 || decide (16 * slot + 16 ≤ (s.block r).spSize)
/-- Bytes reach a receiver's back bank, and its object counts them (R186). -/
def deliverRemote (toBk off slot : Nat) (data : List Byte) (s : State) : State :=
  let s1 := s.updBlock toBk fun b => { b with xback := memWriteBytes b.xback off data }
  if slot = 0 then s1 else localObjChange toBk (16 * slot) (((s1.block toBk).obj (16 * slot)).deliver data.length) s1

end Sys2Proof.Machine
end

