-- ==== Sys2Proof/Machine/Planes.lean ====
section
/-! DEFINITION. Bit planes (R298, R299, R301, R308) and the conversion of XA48 slots (R88, R277). -/
namespace Sys2Proof.Machine

/-- The exponent and significand widths of a format and its plane count (R298): E, w, P. -/
def mxShape : MxFmt → Nat × Nat × Nat
  | .f4x => (2, 2, 5)
  | .e4m3 => (4, 4, 9)
  | .e5m2 => (5, 3, 9)
  | .bf16 => (8, 8, 17)
  | .int8 => (0, 7, 8)
/-- P, the plane count. -/
def mxPlanes (f : MxFmt) : Nat := (mxShape f).2.2
/-- The packed width of an element in bits (R308). -/
def mxBits : MxFmt → Nat
  | .f4x => 4
  | .bf16 => 16
  | _ => 8
/-- Bit p of the plane image of a code (R298): sign, exponent bits, fraction bits, hidden bit. -/
def planeBit (f : MxFmt) (code p : Nat) : Bool :=
  let (e, w, _) := mxShape f
  let nb := mxBits f
  if p = 0 then code.testBit (nb - 1)
  else if f = .int8 then code.testBit (p - 1)
  else if p ≤ e then code.testBit (w - 1 + (p - 1))
  else if p < e + w then code.testBit (p - 1 - e)
  else code / 2 ^ (w - 1) % 2 ^ e != 0
/-- Byte o of a group of planes: 32 bytes for each plane, element k at bit k mod 8 of byte k/8 (R298, R301). -/
def planeByte (f : MxFmt) (codes : List Nat) (o : Nat) : Byte :=
  BitVec.ofNat 8 (((rangeFrom 0 8).map fun i =>
    if planeBit f (codes.getD (8 * (o % 32) + i) 0) (o / 32) && decide (8 * (o % 32) + i < codes.length)
    then 2 ^ i else 0).sum)
/-- Element i of packed source bytes (R308, R79). -/
def packedCode (f : MxFmt) (bs : List Byte) (i : Nat) : Nat :=
  match f with
  | .f4x => (bs.getD (i / 2) 0).toNat / (if i % 2 = 0 then 1 else 16) % 16
  | .bf16 => (bs.getD (2 * i) 0).toNat + 256 * (bs.getD (2 * i + 1) 0).toNat
  | _ => (bs.getD i 0).toNat

/-! ### Conversion of accumulator slots (R88, R277) -/
/-- The exact value of a slot of CB, whose low 16 bits are ignored (R81). -/
def slotVal (x : Nat) : FV := decodeF xa48 (x / 65536)
/-- Whether m·2^e ≤ n/4, for natural numbers m and n. -/
def leQuarter (m : Nat) (e : Int) (n : Nat) : Bool :=
  if 0 ≤ e + 2 then decide (m * 2 ^ (e + 2).toNat ≤ n) else decide (m ≤ n * 2 ^ (-(e + 2)).toNat)
/-- Whether m·2^e < n/4. -/
def ltQuarter (m : Nat) (e : Int) (n : Nat) : Bool :=
  if 0 ≤ e + 2 then decide (m * 2 ^ (e + 2).toNat < n) else decide (m < n * 2 ^ (-(e + 2)).toNat)
/-- The regular F4X code nearest to a magnitude, ties to the even code (R80 .rn, X = 0). The midpoints of neighbouring
magnitudes are 1, 3, 5, 7, 10, 14 and 20 quarters. -/
def nearestMag (m : Nat) (e : Int) : Nat :=
  ((mapIdxFrom (fun i n => (i, n)) 0 [1, 3, 5, 7, 10, 14, 20]).filter fun (i, n) =>
    if i % 2 = 0 then !leQuarter m e n else !ltQuarter m e n).length
/-- S of a block of slots (R277): the least S with M ≤ 6·2^(S-127); 0xFF with a NaN or an infinity. -/
def blockScale (vs : List FV) : Nat :=
  if vs.any fun v => v.isNan || v.isInf then 255 else
    ((rangeFrom 0 255).find? fun (k : Nat) => vs.all fun v =>
      match v with
      | .fin _ m e => leQuarter m (e - ((k : Int) - 127)) 24
      | _ => true).getD 254
/-- The code of one slot under its block's S and X = 0 (R277, R80). -/
def f4xOut (sc : Nat) (v : FV) : Nat :=
  if sc = 255 then 0 else
  match v with
  | .fin neg m e =>
    let c := nearestMag m (e - ((sc : Int) - 127))
    if neg && c != 0 then c + 8 else c
  | _ => 0
/-- A slot to a format of one value each, RNE (R88): FORMAT 1 to 5 of R274. -/
def slotOut (fmt : Nat) (x : Nat) : Nat :=
  let p := x / 65536
  if fmt = 1 then (cvtFF xa48 e4m3 rne false p).1
  else if fmt = 2 then (cvtFF xa48 e5m2 rne false p).1
  else if fmt = 3 then (cvtFF xa48 bf16 rne false p).1
  else if fmt = 4 then
    let v := (BitVec.ofNat 32 (cvtFI xa48 rne true p).1).toInt
    (BitVec.ofInt 8 (max (-128) (min v 127))).toNat
  else (cvtFF xa48 fp32 rne false p).1
/-- Bytes of one converted element: FORMAT 1 to 5. -/
def slotWidth (fmt : Nat) : Nat := if fmt = 5 then 4 else if fmt = 3 then 2 else 1

end Sys2Proof.Machine
end

