-- ==== Sys2Proof/Machine/CopyOps.lean ====
section
/-! DEFINITION. The copy engine's operations: command entries and their checks (R269, R270, R274, R275), footprints
(R271, R276), rings and publication (R266, R278), delivery positions (R267, R268, R277, R301), completion (R265). -/
namespace Sys2Proof.Machine

/-! ### The fields of an entry (R274) -/
def cKind (r : List Word) : Nat := bitsAt (recWord r 0) 0 8
def cDir (r : List Word) : Bool := (recWord r 0).getLsbD 8
def cChan (r : List Word) : Nat := bitsAt (recWord r 0) 9 3
def cSignal (r : List Word) : Bool := (recWord r 0).getLsbD 12
def cSpace (r : List Word) : Nat := bitsAt (recWord r 0) 13 3
def cE (r : List Word) : Nat := 2 ^ bitsAt (recWord r 0) 16 2
def cFmt (r : List Word) : Nat := bitsAt (recWord r 0) 18 3
def cCtr (r : List Word) : Nat := bitsAt (recWord r 0) 21 11
def cGaddr (r : List Word) : Nat := (recWord r 1).toNat + 2 ^ 32 * bitsAt (recWord r 2) 0 23
def cUse (r : List Word) : Nat := bitsAt (recWord r 2) 24 8
def cDiscard (r : List Word) : Bool := (recWord r 2).getLsbD 23
def cLocal (r : List Word) : Nat := (recWord r 3).toNat
def cD0 (r : List Word) : Nat := bitsAt (recWord r 4) 0 16
def cD1 (r : List Word) : Nat := bitsAt (recWord r 4) 16 16
def cD2 (r : List Word) : Nat := bitsAt (recWord r 5) 0 16
def cD3 (r : List Word) : Nat := bitsAt (recWord r 5) 16 16
def cG1 (r : List Word) : Nat := bitsAt (recWord r 6) 0 16
def cG2 (r : List Word) : Nat := bitsAt (recWord r 6) 16 16
def cG3 (r : List Word) : Nat := bitsAt (recWord r 7) 0 16
def cPitch (r : List Word) : Nat := bitsAt (recWord r 7) 16 16

/-- The plane format of FORMAT 0 to 4 (R274). -/
def cMx (r : List Word) : MxFmt :=
  if cFmt r = 0 then .f4x else if cFmt r = 1 then .e4m3 else if cFmt r = 2 then .e5m2 else if cFmt r = 3 then .bf16
  else .int8
/-- The elements of a linear command (DEDUCED, log 7). -/
def cLinear (r : List Word) : Nat := cD0 r + 65536 * cD1 r
/-- Whether some count that the kind uses is 0: the command moves nothing (R268). -/
def cEmpty (r : List Word) : Bool :=
  if cKind r = 1 then cLinear r == 0
  else if cKind r = 4 then cD0 r == 0 || cD1 r == 0
  else cD0 r == 0 || cD1 r == 0 || cD2 r == 0 || cD3 r == 0
/-- The local element width: 8 for CB slots, e elsewhere. -/
def cLe (r : List Word) : Nat := if cKind r = 6 then 8 else cE r
/-- R, the local row pitch in bytes (R268, R276). -/
def cRow (r : List Word) : Nat := if cPitch r = 0 then cD0 r * cLe r else 16 * cPitch r
/-- Q, a plane row's pitch (R301), and the bytes of one row of planes. -/
def cPlaneRow (r : List Word) : Nat := 32 * mxPlanes (cMx r) * ((cD0 r + 255) / 256)
def cQ (r : List Word) : Nat := if cPitch r = 0 then cPlaneRow r else 16 * cPitch r
/-- The bytes of a row's elements on the global side: the target of CB-out, or e. -/
def cGrow (r : List Word) : Nat :=
  if cKind r = 6 then (if cFmt r = 0 then cD0 r / 2 else cD0 r * slotWidth (cFmt r))
  else cD0 r * cE r
/-- The global span of a command (R276), for nonzero counts; the span of planes takes e, which is 1 (DEDUCED, log 7). -/
def cSpan (r : List Word) : Nat :=
  if cKind r = 1 then cLinear r * cE r
  else if cKind r = 3 then 8 * cD3 r
  else if cKind r = 4 then cD0 r * cE r + 16 * ((cD1 r - 1) * cG1 r)
  else cGrow r + 16 * ((cD1 r - 1) * cG1 r + (cD2 r - 1) * cG2 r + (cD3 r - 1) * cG3 r)
/-- The local bytes a command reaches, from LOCAL (R276, R301). -/
def cLspan (r : List Word) : Nat :=
  if cKind r = 1 then cLinear r * cE r
  else if cKind r = 4 then cQ r * (cD1 r - 1) + cPlaneRow r
  else cRow r * (cD1 r * cD2 r * cD3 r - 1) + cD0 r * cLe r
/-- Whether the command has a local side, and a global one. -/
def cHasLocal (r : List Word) : Bool := !(cKind r == 5 && cDir r)
def cHasGlobal (r : List Word) : Bool := !(cKind r == 5 && !cDir r)
/-- The local space of SPACE 0 to 3. -/
def cLSpace (n : Nat) : LSpace := if n = 1 then .ab else if n = 2 then .wb else if n = 3 then .cb else .sp
/-- The footprint's space of a local space of one core. -/
def jSpace (q : LSpace) (core : Nat) : JSpace :=
  match q with
  | .sp => .sp core
  | .ab => .ab core
  | .wb => .wb core
  | .cb => .cb core
  | .xfront => .exch core
/-- The footprint (R271, R276): a block table is read in either direction. -/
def cRegions (s : State) (b : Block) (r : List Word) : List Region :=
  if cEmpty r || cKind r == 0 || decide (6 < cKind r) then [] else
    let g := cGaddr r
    let glob := if cHasGlobal r then [{ space := .global b.gid, lo := g, hi := g + cSpan r, write := cDir r && cKind r != 3 }] else []
    let side := if cKind r = 6 ∧ cFmt r = 0 then
      [{ space := .global b.gid, lo := g + 16 * cG3 r, hi := g + 16 * cG3 r + 2 * (cD2 r * cD1 r * (cD0 r / 32)), write := true }]
      else []
    let loc := if !cHasLocal r then [] else
      if cSpace r = 4 then
        match clusterBlock s b.ck (cLocal r / 65536 % 4) with
        | some x => [{ space := .exch (s.block x).core, lo := cLocal r % 65536, hi := cLocal r % 65536 + cLspan r, write := !cDir r }]
        | none => []
      else if cSpace r ≤ 3 then
        [localRegion (jSpace (cLSpace (cSpace r)) b.core) b.slot (cLocal r) (cLocal r + cLspan r) (!cDir r)]
      else []
    glob ++ side ++ loc

/-! ### The checks of R275, in order -/
/-- The combinations of R269. -/
def cCombo (r : List Word) : Bool :=
  let k := cKind r; let sp := cSpace r
  if k ≤ 3 then (if cDir r then sp == 0 else sp ≤ 2 || sp == 4)
  else if k = 4 then !cDir r && (sp == 1 || sp == 2)
  else if k = 5 then (if cDir r then sp ≤ 4 else sp ≤ 2 || sp == 4)
  else cDir r && sp == 3
/-- The alignment that GADDR and LOCAL need (DEDUCED, log 7). -/
def cAlign (r : List Word) : Nat :=
  if cKind r = 6 then (if cFmt r = 0 then 16 else slotWidth (cFmt r)) else cE r
/-- Row 0x07. -/
def cMisaligned (r : List Word) : Bool :=
  (cHasGlobal r && cGaddr r % cAlign r != 0) || (cHasLocal r && cLocal r % cAlign r != 0) ||
    (cKind r == 3 && cGaddr r % 8 != 0)
/-- Row 0x09: every local byte lies within its window, or within the remote bank's reach; the rank and the object of
space 4 are checked for a command that moves nothing as well. -/
def cOutside (s : State) (b : Block) (r : List Word) : Bool :=
  if !cHasLocal r then false
  else if cSpace r = 4 then !remoteOk s b (cLocal r) (if cEmpty r then 0 else cLspan r)
  else !cEmpty r && decide (b.windowSize (cLSpace (cSpace r)) < cLocal r + cLspan r)
/-- Row 0x0A. -/
def cBadTable (r : List Word) : Bool :=
  cKind r == 3 && (cG3 r == 0 ||
    (!cEmpty r && decide (16 * cG3 r ≤ cD0 r * cE r - 1 + 16 * ((cD1 r - 1) * cG1 r + (cD2 r - 1) * cG2 r))))
/-- Row 0x0B. -/
def cBadBlock (r : List Word) : Bool :=
  (cKind r == 4 && cD0 r % 32 != 0) || (cKind r == 6 && cFmt r == 0 && (cD0 r % 32 != 0 || cD3 r != 1))
/-- Row 0x0C. -/
def cBadUse (r : List Word) : Bool :=
  (decide (cDir r ∨ cKind r = 5) && (cUse r != 0 || cDiscard r)) || (cDiscard r && cUse r == 0)
/-- The first row of R275 that holds for an entry. -/
def cCheck (s : State) (b : Block) (ch : Nat) (r : List Word) : Option Nat :=
  let k := cKind r
  if k = 0 ∨ 6 < k then some 0x02
  else if cChan r ≠ ch then some 0x03
  else if !cCombo r then some 0x04
  else if (k = 4 ∧ cE r ≠ 1) ∨ (k = 6 ∧ cE r ≠ 8) then some 0x05
  else if ((k = 4 ∨ k = 6) ∧ 6 ≤ cFmt r) ∨ (k = 4 ∧ cFmt r = 5) then some 0x06
  else if cMisaligned r then some 0x07
  else if k ≠ 1 ∧ cPitch r ≠ 0 ∧ 16 * cPitch r < cD0 r * cE r then some 0x08
  else if cOutside s b r then some 0x09
  else if cBadTable r then some 0x0A
  else if cBadBlock r then some 0x0B
  else if cBadUse r then some 0x0C
  else if cSignal r ∧ !ctrOwned s (quadOf b.core) (cCtr r) b.part then some 0x41
  else none

/-! ### Rings (R213, R266, R278) -/
/-- log2 of the ring of a channel in RINGSIZE; 0 for no ring. -/
def ringLog (size : Word) (ch : Nat) : Nat := bitsAt size (4 * ch) 4
/-- The bytes of a ring of a channel. -/
def ringBytes (size : Word) (ch : Nat) : Nat := if ringLog size ch = 0 then 0 else 16 + 32 * 2 ^ ringLog size ch
/-- Where a channel's ring starts. -/
def ringStart (base size : Word) (ch : Nat) : Nat :=
  16 * bitsAt base 4 14 + ((rangeFrom 0 ch).map (ringBytes size)).sum
/-- The flags of a channel (R278): HELD, and PARKED by a fault or, in a block that has stopped, for pre-emption. -/
def Chan.flags (stopped : Bool) (c : Chan) : Nat :=
  (if c.cmds.head?.any fun x => x.held.isSome then 2 else 0) +
    if c.cmds.head?.any fun x => x.parked || (stopped && x.started && x.delivered % 1024 == 0) then 1 else 0
/-- The header words of a channel (R278). -/
def headerBytes (stopped : Bool) (c : Chan) : List Byte :=
  wordBytes c.c ++ wordBytes (BitVec.ofNat 32 c.log2) ++ wordBytes (BitVec.ofNat 32 (c.flags stopped))
/-- The engine rewrites words +4 to +15 of an enabled channel's header. -/
def writeHeader (bk ch : Nat) (s : State) : State :=
  s.updBlock bk fun b =>
    let c := mGet b.chans Chan.init ch
    if c.log2 = 0 then b else { b with sp := memWriteBytes b.sp (c.base + 4) (headerBytes b.isStopped c) }
/-- A channel of a block. -/
def State.chan (s : State) (bk ch : Nat) : Chan := mGet (s.block bk).chans Chan.init ch
/-- Change a channel; its header is rewritten where C or the flags change (R278). -/
def updChan (bk ch : Nat) (f : Chan → Chan) (s : State) : State :=
  let s1 := s.updBlock bk fun b => { b with chans := mUpd b.chans Chan.init ch f }
  let stopped := (s.block bk).isStopped
  if (s1.chan bk ch).c = (s.chan bk ch).c ∧ (s1.chan bk ch).flags stopped = (s.chan bk ch).flags stopped then s1
  else writeHeader bk ch s1
/-- A block has stopped: the headers of commands that stand parked for pre-emption say so (R278). -/
def parkHeaders (bk : Nat) (s : State) : State :=
  (s.block bk).chans.foldl (fun s kc => if kc.2.flags true = kc.2.flags false then s else writeHeader bk kc.1 s) s
/-- An accepted SETC of RINGBASE or RINGSIZE lays the rings out afresh (R266): T and C of an enabled ring start at 0 and
its header is written; the write pointers stay, and so do T and C of a channel without a ring. -/
def layoutRings (bk : Nat) (base size : Word) (s : State) : State :=
  let s1 := s.updBlock bk fun b => { b with ringBase := base, ringSize := size }
  (rangeFrom 0 8).foldl (fun s ch =>
    let start := ringStart base size ch
    if ringLog size ch = 0 then s.updBlock bk fun b => { b with chans := mUpd b.chans Chan.init ch fun c => { c with log2 := 0, base := start } }
    else writeHeader bk ch (s.updBlock bk fun b =>
      { b with chans := mUpd b.chans Chan.init ch fun c => { c with log2 := ringLog size ch, base := start, t := 0, c := 0 },
               sp := memWrite32 b.sp start 0 })) s1
/-- The place of entry k in its ring. -/
def entryOff (c : Chan) (k : Word) : Nat := c.base + 16 + 32 * (k.toNat % 2 ^ c.log2)

/-- A record of the copy engine (R272). -/
def copyRecord (b : Block) (ch : Nat) (code : Byte) (detail faddr : Nat) (ref : FaultRef) : FaultRec :=
  engineRecord code detail 1 b.gid ch b.slot b.core faddr ref
/-- The engine takes one entry: it arrives at the yard with its footprint, held where a check fails (R18, R272). -/
def takeEntry (bk ch : Nat) (k : Word) (s : State) : State :=
  let b := s.block bk
  let c := s.chan bk ch
  let off := entryOff c k
  let ws := leWords (memReadBytes b.sp off 32) 8
  let bad := cCheck s b ch ws
  let q := quadOf b.core
  let jid := (s.quad q).nextJid
  let cmd : CopyCmd := { idx := k.toNat, words := ws, jid := jid, started := false, delivered := 0, p0 := 0, shown := 0,
                         held := bad, skip := false, failed := false, parked := false, sectors := [], slice := none }
  let job : Job := { jid := jid, gid := b.gid, bk := bk, part := b.part, core := b.core, kind := .copy ch k.toNat,
                     regions := cRegions s b ws, edges := [], admitted := false, wait := none, waitDone := true }
  let s1 := updChan bk ch (fun c => { c with t := k + 1, cmds := c.cmds ++ [cmd] }) (addJob q job s)
  match bad with
  | some d => postRecord (copyRecord b ch 0x11 d off (.copy bk ch)) s1
  | none => s1
/-- Entries T to V - 1, in index order. -/
def takeEntries (bk ch : Nat) : Nat → State → State
  | 0, s => s
  | n + 1, s => takeEntries bk ch n (takeEntry bk ch (s.chan bk ch).t s)
/-- A PUBLICATION (R266): a write to a ring's notify word has performed. -/
def publishRing (bk ch : Nat) (s : State) : State :=
  let b := s.block bk
  let c := s.chan bk ch
  let v := memRead32 b.sp c.base
  if 2 ^ 31 ≤ (v - c.t).toNat then s
  else if 2 ^ c.log2 < (v - c.c).toNat then
    postRecord (copyRecord b ch 0x11 0x01 c.base (.pub bk ch)) s
  else takeEntries bk ch (v - c.t).toNat s
/-- The publications of a performed write to scratchpad bytes. -/
def publishAt (bk : Nat) (offs : List Nat) (s : State) : State :=
  (rangeFrom 0 8).foldl (fun s ch =>
    let c := s.chan bk ch
    if c.log2 ≠ 0 ∧ (offs.any fun o => decide (c.base ≤ o ∧ o < c.base + 4)) then publishRing bk ch s else s) s
/-- A command of the block is outstanding (R213). -/
def Block.copyBusy (b : Block) : Bool := b.chans.any fun kc => !kc.2.cmds.isEmpty

/-! ### Delivery (R267, R268) -/
/-- The bytes a command delivers in all. -/
def cTotal (r : List Word) : Nat :=
  if cEmpty r then 0
  else if cKind r = 1 then cLinear r * cE r
  else if cKind r = 4 then cD1 r * cPlaneRow r
  else if cKind r = 6 then
    (if cFmt r = 0 then 18 * (cD0 r / 32) * cD1 r * cD2 r * cD3 r
     else slotWidth (cFmt r) * cD0 r * cD1 r * cD2 r * cD3 r)
  else cE r * cD0 r * cD1 r * cD2 r * cD3 r
/-- The coordinates of element n, i0 fastest. -/
def cCoord (r : List Word) (n : Nat) : Nat × Nat × Nat × Nat :=
  (n % cD0 r, n / cD0 r % cD1 r, n / cD0 r / cD1 r % cD2 r, n / cD0 r / cD1 r / cD2 r)
/-- The local offset of element n from LOCAL. -/
def cLoff (r : List Word) (n : Nat) : Nat :=
  if cKind r = 1 then n * cE r else n % cD0 r * cLe r + cRow r * (n / cD0 r)
/-- The global offset of element n of width w from GADDR; a block table's third stride is its own. -/
def cGoff (r : List Word) (w n : Nat) : Nat :=
  if cKind r = 1 then n * w else
    let (i0, i1, i2, i3) := cCoord r n
    i0 * w + 16 * (i1 * cG1 r + i2 * cG2 r + if cKind r = 3 then 0 else i3 * cG3 r)
/-- A byte of a fill's pattern: the low e bytes of the word, repeated for e = 8. -/
def fillByte (r : List Word) (k : Nat) : Byte :=
  (wordBytes (if cDir r then recWord r 3 else recWord r 1)).getD (k % 4) 0

/-- Where one delivered byte comes from. -/
inductive CSrc where
  | global (va : Nat)
  | loc (off : Nat)
  | const (v : Byte)
  | plane (row : Nat) (group o : Nat)
  | slot (off k : Nat)
  | f4x (off : Nat) (k : Nat)
deriving DecidableEq, Repr
/-- Where one delivered byte goes to. -/
inductive CDst where
  | global (va : Nat)
  | loc (off : Nat)
  | nowhere
deriving DecidableEq, Repr

/-- Source and destination of the byte at delivered position p; `tab` is the base of a block table's slice. -/
def cByte (r : List Word) (tab p : Nat) : CSrc × CDst :=
  let e := cE r
  if cKind r = 4 then
    let row := p / cPlaneRow r
    let o := p % cPlaneRow r
    let gb := 32 * mxPlanes (cMx r)
    (.plane row (o / gb) (o % gb), .loc (cLocal r + row * cQ r + o))
  else if cKind r = 5 then
    if cDir r then (.const (fillByte r (p % e)), .global (cGaddr r + cGoff r e (p / e) + p % e))
    else (.const (fillByte r (p % e)), .loc (cLocal r + cLoff r (p / e) + p % e))
  else if cKind r = 6 then
    if cFmt r = 0 then
      let blk := p / 18
      let k := p % 18
      let n := blk * 32
      let (i0, i1, i2, _) := cCoord r n
      (.f4x (cLocal r + cLoff r n) k,
        if k < 16 then .global (cGaddr r + i0 / 2 + 16 * (i1 * cG1 r + i2 * cG2 r) + k)
        else .global (cGaddr r + 16 * cG3 r + 2 * ((i2 * cD1 r + i1) * (cD0 r / 32) + i0 / 32) + (k - 16)))
    else
      let w := slotWidth (cFmt r)
      (.slot (cLocal r + cLoff r (p / w)) (p % w), .global (cGaddr r + cGoff r w (p / w) + p % w))
  else
    let g := if cKind r = 3 then tab + cGoff r e (p / e) + p % e else cGaddr r + cGoff r e (p / e) + p % e
    let l := cLocal r + cLoff r (p / e) + p % e
    if cDir r then (.loc l, if cKind r = 3 ∧ tab = 0 then .nowhere else .global g)
    else (if cKind r = 3 ∧ tab = 0 then .const 0 else .global g, .loc l)

/-- What a delivery carries along: the state, the sectors and the slice's base that the command has read, the first
fault that stops it, the first one that does not, and the bytes delivered. -/
structure Deliv where
  s : State
  sectors : List (Nat × List (Option Byte))
  slice : Option (Nat × Option Nat)
  fault : Option (MemFault × Nat)
  bad : Option MemFault
  n : Nat

/-- Whether a fault lets the command run on without the byte: ECC and PEER (R272). -/
def softFault (f : MemFault) : Bool := f.code == 0x0C || f.code == 0x0B
/-- A fault of a delivery: one that lets the command run on is noted once. -/
def Deliv.failed (f : MemFault) (a : Nat) (d : Deliv) : Deliv :=
  if softFault f then { d with bad := d.bad <|> some f } else { d with fault := some (f, a) }
/-- Read one source sector at its home (R235): a byte with an uncorrectable error, or of an isolated package, fails. -/
def dSector (part sec : Nat) (use : Option (Nat × Bool)) (va : Nat) (d : Deliv) : List (Option Byte) × Deliv :=
  match translate none part .read 0 (128 * sec) d.s with
  | (.error f, s1) => ([], { d with s := s1 }.failed f va)
  | (.ok a, s1) =>
    let (bs, s2) := enginePiece a 128 use s1
    let good (i : Nat) : Bool := a.peer.isSome || a.zero || !s1.mem.ecc.contains (a.pa + i)
    (mapIdxFrom (fun i v => if good i then some v else none) 0 bs, { d with s := s2 })
/-- Read one global byte through the sectors read last: a command reads a sector once as it passes it
(DESIGN CHOICE, log 7). -/
def dRead (part : Nat) (r : List Word) (va : Nat) (d : Deliv) : Option Byte × Deliv :=
  let use := if cUse r = 0 then none else some (cUse r, cDiscard r)
  let got : List (Option Byte) × Deliv :=
    match d.sectors.find? fun x => x.1 == va / 128 with
    | some x => (x.2, d)
    | none =>
      let (bs, d1) := dSector part (va / 128) use va d
      (bs, if d1.fault.isSome then d1 else { d1 with sectors := (va / 128, bs) :: d1.sectors.take 4 })
  match got.1.getD (va % 128) none with
  | some v => (some v, got.2)
  | none => (none, if got.2.fault.isSome then got.2 else got.2.failed ⟨0x0C, 0⟩ va)
/-- The packed source bytes of one group of a planes row (R308). -/
def dGroup (part : Nat) (r : List Word) (row g : Nat) (d : Deliv) : List (Option Byte) × Deliv :=
  let n := min 256 (cD0 r - 256 * g) * mxBits (cMx r) / 8
  let va := cGaddr r + 16 * cG1 r * row + 256 * g * mxBits (cMx r) / 8
  (rangeFrom va n).foldl (fun x va =>
    if x.2.fault.isSome then x else
      let (v, d1) := dRead part r va x.2
      (x.1 ++ [v], d1)) ([], d)
/-- The source bytes of the eight elements whose bits make plane byte o. -/
def planeSources (f : MxFmt) (bs : List (Option Byte)) (o : Nat) : List (Option Byte) := (bs.drop (o % 32 * mxBits f)).take (mxBits f)
/-- Whether some byte of a local range has an uncorrectable error. -/
def badLocal (s : State) (site : Nat → EccSite) (off n : Nat) : Bool := (rangeFrom off n).any fun o => s.rel.sram.contains (site o)
/-- A byte from a local range, or an ECC failure of an SRAM (R240). -/
def dLocal (bad : Bool) (v : Nat) (d : Deliv) : Option Byte × Deliv :=
  if bad then (none, d.failed ⟨0x0C, 1⟩ 0) else (some (BitVec.ofNat 8 v), d)
/-- The value of one delivered byte: none where a byte that it is made from has failed. -/
def dSource (b : Block) (r : List Word) (src : CSrc) (d : Deliv) : Option Byte × Deliv :=
  match src with
  | .const v => (some v, d)
  | .loc off => dLocal (badLocal d.s (.sp b.bk) off 1) (memRead (d.s.block b.bk).sp off).toNat d
  | .global va => dRead b.part r va d
  | .plane row g o =>
    let (bs, d1) := dGroup b.part r row g d
    let n := min 256 (cD0 r - 256 * g)
    if (planeSources (cMx r) bs o).any (·.isNone) then (none, d1)
    else (some (planeByte (cMx r) ((rangeFrom 0 n).map (packedCode (cMx r) (bs.map (·.getD 0)))) o), d1)
  | .slot off k =>
    dLocal (badLocal d.s (.cb b.bk) off 8) (slotOut (cFmt r) (leNat (memReadBytes (d.s.block b.bk).cb off 8)) / 256 ^ k) d
  | .f4x off k =>
    let vs := (rangeFrom 0 32).map fun i => slotVal (leNat (memReadBytes (d.s.block b.bk).cb (off + 8 * i) 8))
    let sc := blockScale vs
    let v := if k < 16 then f4xOut sc (vs.getD (2 * k) (.nan false)) + 16 * f4xOut sc (vs.getD (2 * k + 1) (.nan false))
      else if k = 16 then sc else 0
    dLocal (badLocal d.s (.cb b.bk) off 256) v d
/-- The receiver of a command into the remote exchange bank. -/
def cReceiver (s : State) (b : Block) (r : List Word) : Option Nat := clusterBlock s b.ck (cLocal r / 65536 % 4)
/-- Put one delivered byte in its place. -/
def dDest (b : Block) (r : List Word) (dst : CDst) (v : Byte) (d : Deliv) : Deliv :=
  match dst with
  | .nowhere => d
  | .loc off =>
    if cSpace r = 4 then
      match cReceiver d.s b r with
      | some rx => { d with s := deliverRemote rx (off % 65536) 0 [v] d.s }
      | none => d
    else
      let q := cLSpace (cSpace r)
      { d with s := d.s.updBlock b.bk fun x => x.setSpace q (memWrite (x.space q) off v) }
  | .global va =>
    match engineWrite b.part va [v] d.s with
    | (none, s1) => { d with s := s1 }
    | (some (f, a), s1) => { d with s := s1 }.failed f a
/-- The base of a block table's slice, one 8-byte read at the home when the slice is reached (R280); none where that read
has failed. -/
def dTable (b : Block) (r : List Word) (p : Nat) (d : Deliv) : Option Nat × Deliv :=
  if cKind r ≠ 3 then (some 0, d) else
    let i3 := p / cE r / cD0 r / cD1 r / cD2 r
    match d.slice.filter fun x => x.1 == i3 with
    | some x => (x.2, d)
    | none =>
      match engineRead b.part (cGaddr r + 8 * i3) 8 none d.s with
      | (.ok bs, s1) => (some (leNat bs), { d with s := s1, slice := some (i3, some (leNat bs)) })
      | (.error (f, a), s1) =>
        let d1 := { d with s := s1 }.failed f a
        (none, if d1.fault.isSome then d1 else { d1 with slice := some (i3, none) })
/-- One delivered byte: a fault stops the delivery before it; a byte that has failed leaves its place as it is and still
counts (R272). -/
def dByte (b : Block) (r : List Word) (d : Deliv) (p : Nat) : Deliv :=
  if d.fault.isSome then d else
    let t := dTable b r p d
    let v := match t.1 with
      | some tab => dSource b r (cByte r tab p).1 t.2
      | none => (none, t.2)
    let d1 := if v.2.fault.isSome then v.2 else
      match v.1 with
      | some x => dDest b r (cByte r (t.1.getD 0) p).2 x v.2
      | none => v.2
    if d1.fault.isSome then d1 else { d1 with n := d1.n + 1 }
/-- A delivery of some positions of a command. -/
def deliver (b : Block) (x : CopyCmd) (ps : List Nat) (s : State) : Deliv :=
  ps.foldl (dByte b x.words) { s := s, sectors := x.sectors, slice := x.slice, fault := none, bad := none, n := 0 }
/-- A delivery into a nonzero slot of the remote exchange bank subtracts its bytes from the object, at once (R269). -/
def countRemote (b : Block) (r : List Word) (n : Nat) (s : State) : State :=
  let slot := cLocal r / 262144
  if cSpace r ≠ 4 ∨ !cHasLocal r ∨ slot = 0 ∨ n = 0 then s else
    match cReceiver s b r with
    | some rx => localObjChange rx (16 * slot) (((s.block rx).obj (16 * slot)).deliver n) s
    | none => s

/-- The write pointer's count: it rises at 128-byte multiples of the delivered count and at the end, and never falls
below what it showed before a restore (R267, R273). -/
def cShown (cmd : CopyCmd) : Nat :=
  max cmd.shown (if cmd.delivered = cTotal cmd.words then cmd.delivered else cmd.delivered / 128 * 128)
/-- The head command of a channel changes, and the pointer with it. -/
def updHead (bk ch : Nat) (f : CopyCmd → CopyCmd) (s : State) : State :=
  updChan bk ch (fun c =>
    match c.cmds with
    | [] => c
    | x :: t => let y := f x
                { c with cmds := y :: t, wp := if y.started then y.p0 + BitVec.ofNat 32 (cShown y) else c.wp }) s
/-- COMPLETION OF A COMMAND (R265): the pointer is final, C advances, the counter is decremented (R237). -/
def completeCopy (bk ch : Nat) (s : State) : State :=
  match (s.chan bk ch).cmds with
  | [] => s
  | x :: t =>
    let b := s.block bk
    let s1 := updChan bk ch (fun c => { c with c := c.c + 1, cmds := t }) s
    let s2 := removeJob (quadOf b.core) x.jid s1
    if cSignal x.words then
      decrement (quadOf b.core) (cCtr x.words) 1 (if x.failed then .failed else .no) b.gid s2
    else s2
/-- A held entry is skipped (R272): no counter is decremented. -/
def skipCopy (bk ch : Nat) (s : State) : State :=
  match (s.chan bk ch).cmds with
  | [] => s
  | x :: t =>
    removeJob (quadOf (s.block bk).core) x.jid (updChan bk ch (fun c => { c with c := c.c + 1, cmds := t }) s)

end Sys2Proof.Machine
end

