-- ==== Sys2Proof/Machine/MemOps.lean ====
section
/-! DEFINITION. The issue stream (R217, R219): performing a warp's memory operations in the order the machine allows,
releases and their gates (R223), non-temporal stores (R229), local writes (R233), sampling a load (R220), and atomics at
their home (R190, R191, R227, R228). -/
namespace Sys2Proof.Machine

/-! ### Queued operations -/
/-- An operation with nothing in it. -/
def MemOp.blank (id wid : Nat) : MemOp :=
  { id := id, wid := wid, fence := false, drain := false, gate := none, acq := none, ws := [], nt := false, lws := [],
    rel := none, load := none, roinv := false, isLocal := false }
/-- A load of global memory and nothing else: only fences hold it back. -/
def MemOp.pureLoad (o : MemOp) : Bool := o.load.isSome && !o.isLocal
/-- The scope of a load that acquires. -/
def LoadKind.acquires : LoadKind → Option Scope
  | .acq sc | .locAcq sc => some sc
  | _ => none
/-- The operation writes a byte that an earlier one writes. -/
def MemOp.overwrites (o x : MemOp) : Bool := o.ws.any fun w => x.ws.any fun v => v.key == w.key
/-- An operation waits for earlier ones of its warp (R204, R219, R225, R233): a load for fences and acquires; a
non-temporal store for fences and for earlier stores to its bytes (R229); a fence for all; a local operation that releases
nothing for fences, acquires and local operations; any other for all that are not plain loads. -/
def MemOp.blockedBy (o : MemOp) (earlier : List MemOp) : Bool :=
  if o.pureLoad then earlier.any fun x => x.fence || x.acq.isSome || x.roinv
  else if o.fence then !earlier.isEmpty
  else if o.nt then earlier.any fun x => x.fence || x.acq.isSome || o.overwrites x
  else if o.isLocal && o.gate.isNone then earlier.any fun x => x.fence || x.acq.isSome || x.isLocal
  else earlier.any fun x => !x.pureLoad || x.acq.isSome
/-- The global bytes that an operation reads or writes. -/
def MemOp.keys (o : MemOp) (w : Warp) : List Nat :=
  match o.load.bind fun id => (w.outs.find? fun x => x.id == id).bind (·.load) with
  | some l => if l.kind.isRo then [] else l.accs.flatMap fun a => a.keys l.size
  | none => o.ws.map (·.key)
/-- The size of an atomic's location. -/
def atomSize (b64 : Bool) : Nat := if b64 then 8 else 4
/-- The bytes of an atomic. -/
def AtomReq.keys (a : AtomReq) : List Nat := a.acc.keys (atomSize a.b64)
/-- An atomic orders the operation behind it: a release or fence waits for all (R228), a local operation for scratchpad
atomics (R233), a load or store for atomics on its bytes but .nonord ones (R191, R221, R228). -/
def MemOp.waitsAtom (o : MemOp) (ks : List Nat) (a : AtomReq) : Bool :=
  o.fence || o.gate.isSome || (o.isLocal && a.loc) ||
    (!o.isLocal && !a.loc && a.use != .nonord && a.keys.any ks.contains)
/-- An atomic of the warp that was issued earlier and that the operation waits for. -/
def MemOp.atomAhead (o : MemOp) (wk : Nat) (s : State) : Bool :=
  let mine := s.mem.atoms.filter fun a => a.wk == wk && decide (a.opId < o.id)
  !mine.isEmpty && mine.any (o.waitsAtom (o.keys (s.warp wk)))
/-- Another warp's operation, ordered before what this warp does next by an acquire (R225), has not performed: what
the warp issued after that operation waits for it. `wid` is the write id of what waits. -/
def hbHeld (s : State) (wk wid : Nat) : Bool :=
  let hb := (s.warp wk).hb
  !hb.isEmpty && s.warps.any fun kw => kw.1 != wk && kw.2.memq.any fun x => decide (x.wid < wid) && hb.contains x.wid
/-- Results that have their bytes take no other: a fence or a release stands behind their loads. -/
def settleOuts (w : Warp) : Warp := { w with outs := w.outs.map fun o => { o with seen := true } }
/-- A load of a local space. -/
def LoadKind.isLoc : LoadKind → Bool
  | .loc _ | .locAcq _ => true
  | _ => false
/-- Local loads have performed: what the warp accesses locally next performs after them (R233). -/
def settleLocal (w : Warp) : Warp :=
  { w with outs := w.outs.map fun o => if o.load.any (·.kind.isLoc) then { o with seen := true } else o }
/-- Put an operation in its warp's stream (R239). -/
def pushOp (o : MemOp) (s : State) : State :=
  s.updCw fun w =>
    let w1 := if o.fence || o.gate.isSome then settleOuts w
      else if o.isLocal && o.load.isNone then settleLocal w else w
    { w1 with memq := w.memq ++ [o], nextId := o.id + 1 }

/-! ### Effects of an operation -/
/-- A plain store's bytes enter the store pool (R219 Perform store), which has room for their sectors (R11). -/
def poolStore (core : Nat) (ws : List PWrite) (s : State) : State :=
  let put (m : Map PoolByte) (w : PWrite) : Map PoolByte :=
    mSet m w.key { val := w.val, wid := w.wid, attr := w.attr, peer := w.peer }
  (makeL1Room core (ws.map fun w => w.key / 128).dedup.length s).updCore core fun c => { c with pool := ws.foldl put c.pool }
/-- A non-temporal store leaves at once, after the core's dirty bytes at the same addresses (R229). -/
def ntStore (wk core : Nat) (ws : List PWrite) (s : State) : State :=
  let secs := (ws.map fun w => w.key / 128).dedup
  let hit := ((s.coreAt core).pool.filter fun kb => ws.any fun w => w.key == kb.1).map fun kb => kb.1 / 128
  let s1 := evictWhere core hit.contains s
  let s2 := s1.updCore core fun c => { c with snaps := c.snaps.filter fun kv => !secs.contains kv.1 }
  let s3 := sendWrites core true ws s2
  s3.updWarp wk fun w => { w with ntFids := w.ntFids ++ rangeFrom s2.mem.nextFid (s3.mem.nextFid - s2.mem.nextFid) }
/-- Bytes written to a block's local spaces (R185, R233), with the publications they make (R266). -/
def localStore (bk : Nat) (lws : List LWrite) (rel : Option (Scope × Nat)) (s : State) : State :=
  let s1 := s.updBlock bk fun b => lws.foldl (fun b w => b.setSpace w.space (memWrite (b.space w.space) w.off w.val)) b
  let offs := (lws.filter fun w => w.space == .sp).map (·.off)
  let mark (m : Map Nat) (o : Nat) : Map Nat := match rel with
    | some (_, wid) => mSet m o wid
    | none => mErase m o
  let s2 := s1.updBlock bk fun b => { b with spRel := offs.foldl mark b.spRel }
  if offs.isEmpty then s2 else publishAt bk offs s2

/-! ### Loads -/
/-- The value of a lane's bytes, zero-extended (R184). -/
def loadVal (bs : List HByte) : DWord := BitVec.ofNat 64 (leNat (bs.map (·.val)))
/-- Replace the values of the writes that are still due (R51). -/
def refreshWrites (old new : List RegWrite) : List RegWrite :=
  old.map fun x => (new.find? fun y => y.dest == x.dest).getD x
/-- Change an outstanding result. -/
def updOut (wk id : Nat) (f : Out → Out) (s : State) : State :=
  s.updWarp wk fun w => { w with outs := w.outs.map fun o => if o.id = id then f o else o }
/-- A result loses some of its lanes. -/
def Out.without (m : Word) (o : Out) : Out :=
  let vals := o.vals.filter fun x => !m.getLsbD x.1
  { o with mask := o.mask &&& ~~~ m, vals := vals,
           load := o.load.map fun l => { l with accs := l.accs.filter fun a => !m.getLsbD a.lane },
           writes := o.writes.filter fun x => match x.dest with
             | .lane _ l | .pred _ l => !m.getLsbD l
             | .ply _ p => vals.any fun y => y.1 / 8 == p
             | .warp _ => !vals.isEmpty }
/-- Lanes leave the groups they wait in. -/
def Warp.unparkLanes (m : Word) (w : Warp) : Warp :=
  { w with parks := (w.parks.map fun p => { p with mask := p.mask &&& ~~~ m }).filter fun p => p.mask != 0 }
/-- FAULTS OF LANES WHOSE RESULT IS OUTSTANDING (R102, R183): they are parked at the load or atomic, to execute it again, with
one record; an issue that has counted counts no more (R116). -/
def lateFaults (wk : Nat) (o : Out) (fs : List LaneFault) (s : State) : State :=
  match fs with
  | [] => s
  | f :: _ =>
    let m := lanesMask (fs.map (·.lane))
    let w := s.warp wk
    let b := s.block w.bk
    let r : FaultRec := { engineRecord f.code f.detail.toNat 0 b.gid 0 b.slot b.core f.faddr.toNat (.lanes wk) with
                          warpIdx := w.idx, lanes := m }
    let s1 := s.updMem fun a => { a with atoms := a.atoms.filter fun x =>
      !(x.wk == wk && x.out == some o.id && m.getLsbD x.acc.lane) }
    let more := s1.mem.atoms.any fun x => x.wk == wk && x.out == some o.id
    let cut (x : Out) : Out := if x.id = o.id then
        { x.without m with fin := { x.fin with counts := false }, waitAtom := x.waitAtom && more } else x
    let park (w : Warp) : Warp :=
      (Warp.unparkLanes m { w with
        outs := (w.outs.map cut).filter (fun x => x.mask != 0),
        retired := if o.fin.counts && !o.agree then w.retired - 1 else w.retired }).updLanes m fun _ x =>
          { x with st := .parkedFault, pc := o.pc }
    postRecord r (s1.updWarp wk park)
/-- A LOAD TAKES ITS BYTES (R219 Load): the values of its result, and the acquire of an LDA. -/
def sampleLoad (wk id : Nat) (s : State) : State :=
  let w := s.warp wk
  match w.outs.find? fun o => o.id == id with
  | none => s
  | some o =>
    match o.load with
    | none => s
    | some src =>
      let b := s.block w.bk
      let (m, s1) : Map (List HByte) × State := match src.kind with
        | .loc q => (loadLocal b q src.size src.accs, s)
        | .locAcq _ => (loadLocal b .sp src.size src.accs, s)
        | k => loadGlobal wk b.core id k src.size src.accs s
      let vals := src.accs.map fun a => (a.lane, loadVal (mGet m [] a.lane))
      let due := (dueWrites o.dest o.pair vals).getD []
      let ws := o.writes.filterMap fun x => due.find? fun y => y.dest == x.dest
      let s2 := updOut wk id (fun o => { o with waitOp := false, vals := vals, writes := ws }) s1
      match src.kind with
      | .acq sc | .locAcq sc => acquire wk b.core sc ((m.flatMap fun kv => kv.2.map (·.wid)).dedup) s2
      | _ => s2

/-! ### Performing -/
/-- An operation's effect, once nothing holds it: it leaves the stream. -/
def finishOp (wk : Nat) (o : MemOp) (s : State) : State :=
  let w := s.warp wk
  let core := (s.block w.bk).core
  let s1 := s.updWarp wk fun w => { w with memq := w.memq.filter fun x => x.id != o.id }
  let s2 := match o.acq with
    | some sc => acquireDrop core sc s1
    | none => s1
  let s3 := if o.roinv then s2.updQuad (quadOf core) fun q => { q with roSnaps := [] } else s2
  let s4 := if o.ws.isEmpty then s3 else if o.nt then ntStore wk core o.ws s3 else poolStore core o.ws s3
  let s5 := if o.lws.isEmpty then s4 else localStore w.bk o.lws o.rel s4
  match o.load with
  | some id => sampleLoad wk id s5
  | none => s5
/-- The flights a release waits for (R223): the core's own to homes on the package, with scope .p those to peers too. -/
def releaseFids (core : Nat) (sc : Scope) (s : State) : List Nat :=
  if scopeWide sc then
    (s.mem.flights.filter fun f => f.src == core && !f.nt && (sc == .p || decide (f.home < 2 ^ 52))).map (·.fid)
  else []
/-- A release begins: a wide one moves the whole store pool (R223). -/
def releaseBegin (core : Nat) (sc : Scope) (s : State) : State :=
  if scopeWide sc then evictWhere core (fun _ => true) s else s
/-- Some of these flights have not arrived. -/
def stillFlying (s : State) (fids : List Nat) : Bool := s.mem.flights.any fun f => fids.contains f.fid
/-- A load of a peer's page waits for room in the peer's queue slice (R382). -/
def MemOp.noRoom (o : MemOp) (wk : Nat) (s : State) : Bool :=
  match o.load.bind fun id => ((s.warp wk).outs.find? fun x => x.id == id).bind (·.load) with
  | some l => !l.room s
  | none => false
/-- Something holds an operation of a warp back. -/
def MemOp.held (o : MemOp) (wk : Nat) (s : State) : Bool :=
  o.blockedBy ((s.warp wk).memq.takeWhile fun x => x.id != o.id) || o.atomAhead wk s || hbHeld s wk o.wid || o.noRoom wk s
/-- PERFORM one operation of a warp if nothing holds it back; otherwise nothing happens. -/
def performOp (wk id : Nat) (s : State) : State :=
  let w := s.warp wk
  match w.memq.find? fun o => o.id == id with
  | none => s
  | some o =>
    if o.held wk s then s else
    let core := (s.block w.bk).core
    match o.gate with
    | none => finishOp wk o s
    | some (.begin sc) =>
      if o.drain && stillFlying s w.ntFids then s else
        let s1 := releaseBegin core sc s
        let fids := releaseFids core sc s1
        if fids.isEmpty then finishOp wk o s1 else
          let go (x : MemOp) : MemOp := if x.id = id then { x with gate := some (.wait sc fids) } else x
          s1.updWarp wk fun w => { w with memq := w.memq.map go }
    | some (.wait _ fids) => if stillFlying s fids then s else finishOp wk o s

/-! ### Atomics -/
/-- The value an atomic writes; none when a compare fails (R190). -/
def atomNew (aop : Aop) (b64 : Bool) (old x y : DWord) : Option DWord :=
  let w (v : Word) : DWord := v.setWidth 64
  let o32 : Word := old.setWidth 32
  let x32 : Word := x.setWidth 32
  match aop with
  | .add => some (if b64 then old + x else w (o32 + x32))
  | .minS => some (if b64 then (if x.slt old then x else old) else w (if x32.slt o32 then x32 else o32))
  | .maxS => some (if b64 then (if old.slt x then x else old) else w (if o32.slt x32 then x32 else o32))
  | .minN => some (if x.ult old then x else old)
  | .maxN => some (if old.ult x then x else old)
  | .and => some (old &&& x)
  | .or => some (old ||| x)
  | .xor => some (old ^^^ x)
  | .exch => some x
  | .cas => if old = x then some y else none
  | .fadd => some (BitVec.ofNat 64 (addF fp32 rne o32.toNat x32.toNat).1)
/-- An atomic's old value returns to its result (R190); the result is complete when every lane's atomic has been
performed. -/
def returnAtom (a : AtomReq) (old : DWord) (s : State) : State :=
  match a.out with
  | none => s
  | some id =>
    let more := s.mem.atoms.any fun x => x.wk == a.wk && x.out == some id
    let ws := laneWrites a.dest a.b64 [(a.acc.lane, old)]
    updOut a.wk id (fun o => { o with waitAtom := more, writes := refreshWrites o.writes ws }) s
/-- A scratchpad atomic at the block's scratchpad (R190, R191). -/
def performLocalAtom (a : AtomReq) (s : State) : State :=
  let bk := (s.warp a.wk).bk
  let n := atomSize a.b64
  let old : DWord := BitVec.ofNat 64 (leNat (memReadBytes (s.block bk).sp a.acc.va n))
  let s1 := match atomNew a.aop a.b64 old a.x a.y with
    | some v => localStore bk (mapIdxFrom (fun i (b : Byte) => ({ space := .sp, off := a.acc.va + i, val := b } : LWrite)) 0
        (leBytes v.toNat n)) none s
    | none => s
  returnAtom a old s1
/-- What the core sent to the atomic's home earlier arrives before it (R373). -/
def drainForAtom (a : AtomReq) (s : State) : State :=
  drainHome a.core (homeAt a.acc.peer a.acc.pa) s
/-- The core's own earlier writes to the atomic's bytes arrive, and the snapshot goes (R228 .plain) (DEDUCED, log 32). -/
def flushForAtom (a : AtomReq) (s : State) : State :=
  let sec := pkey a.acc.peer a.acc.pa / 128
  let s1 := evictWhere a.core (fun x => x == sec) s
  (arriveNt a.wk a.keys (drainForAtom a s1)).updCore a.core fun c => { c with snaps := mErase c.snaps sec }
/-- One entry of a home's atomic queue (R227): the old value and the home afterwards. A peer is asked by the operation and
its operands (R381). -/
def homeAtom (acc : LaneAcc) (b64 : Bool) (ask : Aop × DWord × DWord) (wid : Nat) (f : DWord → Option DWord) (s : State) :
    DWord × State :=
  let n := atomSize b64
  match acc.peer with
  | some p =>
    let old : DWord := BitVec.ofNat 64 (leNat ((rangeFrom acc.pa n).map (Config.peerByte s.tick p)))
    (old, (s.send (.atomToPeer p acc.pa ask.1 b64 ask.2.1 ask.2.2)).bump)
  | none =>
    let (bs, m) := s.mem.serveSector acc.attr none (acc.pa / 128)
    let old : DWord := BitVec.ofNat 64 (leNat (((bs.drop (acc.pa % 128)).take n).map (·.val)))
    let m1 := match f old with
      | some v => (mapIdxFrom (fun i b => (i, b)) 0 (leBytes v.toNat n)).foldl
          (fun m ib => m.homeWrite acc.attr (acc.pa + ib.1) ib.2 wid) m
      | none => m
    (old, s.setMem m1)
/-- A .quantum request takes from its block's batch, or takes a new batch from the home (R191, R228). -/
def quantumAtom (a : AtomReq) (s : State) : DWord × State :=
  let bk := (s.warp a.wk).bk
  let same (x : Batch) : Bool := x.pa == pkey a.acc.peer a.acc.pa && x.addend == a.x && x.b64 == a.b64
  match (s.block bk).batches.find? fun x => same x && decide (0 < x.left) with
  | some x =>
    let take (y : Batch) : Batch :=
      if same y && decide (0 < y.left) then { y with next := y.next + a.x, left := y.left - 1 } else y
    (x.next, s.updBlock bk fun b => { b with batches := b.batches.map take })
  | none =>
    let (q, s1) := homeAtom a.acc a.b64 (.add, 32 * a.x, 0) a.wid (fun old => atomNew .add a.b64 old (32 * a.x) 0) s
    let fresh : Batch := { pa := pkey a.acc.peer a.acc.pa, addend := a.x, b64 := a.b64, next := q + a.x, left := 31 }
    (q, s1.updBlock bk fun b => { b with batches := (b.batches.filter fun y => !same y) ++ [fresh] })
/-- An atomic must wait: for an earlier fence of its warp, for an earlier lane's atomic on the same bytes, for an
earlier local operation when it is local, and for the warp's own earlier stores to its bytes unless it is .nonord. -/
def atomBlocked (s : State) (a : AtomReq) : Bool :=
  let w := s.warp a.wk
  hbHeld s a.wk a.wid ||
  (w.memq.any fun o => decide (o.id < a.opId) &&
    (o.fence || (a.loc && o.isLocal) ||
      (!a.loc && a.use != .nonord && o.ws.any fun x => a.keys.contains x.key))) ||
  ((s.mem.atoms.takeWhile fun x => x.id != a.id).any fun x =>
    x.wk == a.wk && x.loc == a.loc && (a.loc || x.keys.any a.keys.contains))
/-- Pending .comm .fadd atomics on one location that are combined with this one before their home (R258); which, the machine
chooses (DESIGN CHOICE, log 3). For the other operations combining is one entry after another. -/
def commMates (a : AtomReq) (s : State) : List AtomReq :=
  if a.loc || a.use != .comm || a.aop != .fadd || a.acc.peer.isSome then [] else
    s.mem.atoms.filter fun x => x.id != a.id && !x.loc && x.use == .comm && x.aop == .fadd &&
      pkey x.acc.peer x.acc.pa == pkey a.acc.peer a.acc.pa && !atomBlocked s x && Config.freeChoice s.tick x.id
/-- What an atomic writes, with those combined with it: the exact total of the operands, rounded once at the home. -/
def combinedNew (a : AtomReq) (ms : List AtomReq) (old : DWord) : Option DWord :=
  match ms with
  | [] => atomNew a.aop a.b64 old a.x a.y
  | _ => some (BitVec.ofNat 64 (dotF fp32 rne [] ((old :: a.x :: ms.map (·.x)).map fun v =>
      decodeF fp32 ((v.setWidth 32 : Word).toNat))).1)
/-- PERFORM an atomic (R190, R227, R228). -/
def performAtom (a : AtomReq) (s : State) : State :=
  let ms := commMates a s
  let gone := a.id :: ms.map (·.id)
  let s1 := s.updMem fun m => { m with atoms := m.atoms.filter fun x => !gone.contains x.id }
  if a.loc then performLocalAtom a s1 else
    let s2 := if a.use = .nonord then drainForAtom a s1 else (a :: ms).foldl (fun s x => flushForAtom x s) s1
    if a.use = .quantum then let (q, s3) := quantumAtom a s2; returnAtom a q s3
    else let (old, s3) := homeAtom a.acc a.b64 (a.aop, a.x, a.y) a.wid (combinedNew a ms) s2
         returnAtom a old s3

end Sys2Proof.Machine
end

