-- ==== Sys2Proof/Machine/LaneMem.lean ====
section
/-! DEFINITION. The memory instructions of the lanes, opcodes 0x38 to 0x3F (R179 to R191): addresses, the fault rows of
R183 in their order, and the operations they put into the warp's issue stream. -/
namespace Sys2Proof.Machine

/-! ### Addresses and their faults (R179 to R183) -/
/-- The lanes' accesses, the lanes' faults, and the state after the translations. -/
structure LaneRes where
  accs : List LaneAcc
  faults : List LaneFault
  s : State

/-- An extra check of one access after its translation (SCOPE, ECC). -/
abbrev AccCheck := State → LaneAcc → Option LaneFault
/-- A byte of a local page comes from HBM for a load of a kind: neither the warp's or the core's own stores hold it, nor a
snapshot, nor the line's dirty bytes (R220). -/
def fromHbm (s : State) (w : Warp) (core before : Nat) (k : LoadKind) (pa : Nat) : Bool :=
  let front := if k.isRo then none else frontByte s w core before pa
  let snap := match k with
    | .ro => mFind (s.quad (quadOf core)).roSnaps (pa / 128)
    | .nol1 | .use _ _ => none
    | _ => mFind (s.coreAt core).snaps (pa / 128)
  let line := (mFind s.mem.lines (pa / 1024)).bind fun l => mFind l.dirty (pa % 1024)
  front.isNone && snap.isNone && line.isNone
/-- A byte in HBM with an uncorrectable error that a read would take (R183, R385). -/
def hbmBad (s : State) (w : Warp) (core before : Nat) (k : LoadKind) (n : Nat) (a : LaneAcc) : Bool :=
  a.peer.isNone && !a.zero &&
    (rangeFrom a.pa n).any fun pa => s.mem.ecc.contains pa && fromHbm s w core before k pa
/-- ECC for a read of the bundle (R183). -/
def eccCheck (k : LoadKind) (n : Nat) (s : State) (a : LaneAcc) : Option LaneFault :=
  if hbmBad s s.cw s.cur.core (freshId s) k n a then some ⟨a.lane, 0x0C, 0, BitVec.ofNat 64 a.va⟩ else none
/-- No extra check. -/
def noCheck (_ : State) (_ : LaneAcc) : Option LaneFault := none
/-- The codes of R14. -/
def scopeNo : Scope → Nat
  | .w => 0
  | .b => 1
  | .c => 2
  | .d => 3
  | .p => 4
/-- The members of a cluster that stand on a core. -/
def memberOn (s : State) (ck core : Nat) : List Nat := (s.cluster ck).blocks.filter fun bk => (s.block bk).core == core
/-- A warp or live wave of a block of a list holds a WARPIDX on a core, or the index is one of a block's own warps, which
keep it from placement on (R95, R314). -/
def indexOn (s : State) (bks : List Nat) (core idx : Nat) : Bool :=
  bks.any fun bk => (s.block bk).core == core &&
    (decide (idx < (s.block bk).nwarps) || s.warps.any fun kw => kw.2.bk == bk && kw.2.idx == idx)
/-- The instance of warp `wk` at a scope contains the party of a record (R231). -/
def instanceHolds (s : State) (wk : Nat) (sc : Scope) (r : ScopeRec) : Bool :=
  let w := s.warp wk
  let b := s.block w.bk
  match sc, r.sc with
  | .p, _ => true
  | .d, .p => false
  | .d, _ => true
  | .c, .c => r.quad == quadOf b.core && r.clusterIdx == (s.cluster b.ck).idx
  | .c, .b => (memberOn s b.ck r.core).any fun bk => (s.block bk).slot == r.slot
  | .c, .w => indexOn s (memberOn s b.ck r.core) r.core r.warpIdx
  | .b, .b => r.core == b.core && r.slot == b.slot
  | .b, .w => r.core == b.core && indexOn s [w.bk] r.core r.warpIdx
  | .w, .w => r.core == b.core && r.warpIdx == w.idx
  | _, _ => false
/-- SCOPE for an acquire of a scope by warp `wk` on a recorded line; `atom` never fails on a pod record (R231)
(DEDUCED, log 10). -/
def scopeFault (wk : Nat) (sc : Scope) (atom : Bool) (s : State) (a : LaneAcc) : Option LaneFault :=
  if a.peer.isSome || a.zero then none else
  match (mFind s.mem.lines (a.pa / 1024)).bind (·.srec) with
  | none => none
  | some r =>
    if instanceHolds s wk sc r || (atom && r.sc == .p) then none
    else some ⟨a.lane, 0x0A, BitVec.ofNat 17 (scopeNo r.sc + 8 * scopeNo sc), BitVec.ofNat 64 a.va⟩
/-- SCOPE for the bundle. -/
def scopeCheck (sc : Scope) (atom : Bool) (s : State) (a : LaneAcc) : Option LaneFault := scopeFault s.cur.wk sc atom s a
/-- Two checks, the first first. -/
def bothChecks (c d : AccCheck) : AccCheck := fun s a =>
  match c s a with
  | some f => some f
  | none => d s a

/-- One lane's global access. A lane that faults on SCOPE or ECC leaves A and D as they were (R366). -/
def globalLane (k : Acc) (n : Nat) (addr : Nat → DWord) (chk : AccCheck) (r : LaneRes) (l : Nat) : LaneRes :=
  let va := addr l
  if va.toNat % n ≠ 0 then { r with faults := r.faults ++ [⟨l, 0x03, BitVec.ofNat 17 n, va⟩] } else
  match translate (some r.s.cur.core) r.s.cb.part k l va.toNat r.s with
  | (.error f, s1) => { r with faults := r.faults ++ [⟨l, f.code, BitVec.ofNat 17 f.detail, va⟩], s := s1 }
  | (.ok a, s1) =>
    match chk s1 a with
    | some f => { r with faults := r.faults ++ [f] }
    | none => { r with accs := r.accs ++ [a], s := s1 }
/-- The global accesses of the bundle's lanes. -/
def globalLanes (k : Acc) (n : Nat) (addr : Nat → DWord) (chk : AccCheck) (s : State) : LaneRes :=
  s.bl.foldl (globalLane k n addr chk) ⟨[], [], s⟩
/-- DETAIL of BUFACC. -/
def spaceNo : LSpace → Nat
  | .sp => 0
  | .xfront => 1
  | .ab => 2
  | .cb => 3
  | .wb => 4
/-- The bytes of a block that hold an uncorrectable error (R385). -/
def sramBad (s : State) (bk : Nat) (q : LSpace) (off n : Nat) : Bool :=
  (rangeFrom off n).any fun o =>
    match q with
    | .sp => s.rel.sram.contains (.sp bk o)
    | .ab => s.rel.sram.contains (.ab bk o)
    | .wb => s.rel.sram.contains (.wb bk o)
    | .cb => s.rel.sram.contains (.cb bk o)
    | .xfront => false
/-- The lanes of a load that fault when its bytes are taken later than at its issue (R183, R231). -/
def loadFaults (wk : Nat) (o : Out) (l : LoadSrc) (s : State) : List LaneFault :=
  let w := s.warp wk
  let core := (s.block w.bk).core
  let sram (q : LSpace) (a : LaneAcc) : Option LaneFault :=
    if sramBad s w.bk q a.va l.size then some ⟨a.lane, 0x0C, 1, BitVec.ofNat 64 a.va⟩ else none
  let hbm (a : LaneAcc) : Option LaneFault :=
    if hbmBad s w core o.id l.kind l.size a then some ⟨a.lane, 0x0C, 0, BitVec.ofNat 64 a.va⟩ else none
  l.accs.filterMap fun a => match l.kind with
    | .loc q => sram q a
    | .locAcq _ => sram .sp a
    | .acq sc => (scopeFault wk sc false s a).or (hbm a)
    | _ => hbm a
/-- A load that takes its bytes after its issue is checked then. -/
def recheckLoad (wk id : Nat) (s : State) : State :=
  match (s.warp wk).outs.find? fun o => o.id == id with
  | none => s
  | some o =>
    match o.load with
    | some l => lateFaults wk o (loadFaults wk o l s) s
    | none => s
/-- PERFORM an operation that did not perform at its issue. -/
def performLate (wk id : Nat) (s : State) : State :=
  match (s.warp wk).memq.find? fun o => o.id == id with
  | none => s
  | some o =>
    if o.held wk s then s else
      match o.load with
      | some out => performOp wk id (recheckLoad wk out s)
      | none => performOp wk id s
/-- The fault of an atomic that did not perform at its issue (R183, R231). -/
def atomFault (a : AtomReq) (s : State) : Option LaneFault :=
  let w := s.warp a.wk
  if a.loc then
    if sramBad s w.bk .sp a.acc.va (atomSize a.b64) then some ⟨a.acc.lane, 0x0C, 1, BitVec.ofNat 64 a.acc.va⟩ else none
  else
    (if a.use = .spec then none else scopeFault a.wk .d true s a.acc).or
      (if hbmBad s w a.core a.opId .nol1 (atomSize a.b64) a.acc then some ⟨a.acc.lane, 0x0C, 0, BitVec.ofNat 64 a.acc.va⟩
       else none)
/-- PERFORM an atomic that did not perform at its issue; one that returns nothing consumes nothing. -/
def performAtomLate (a : AtomReq) (s : State) : State :=
  match a.out.bind (fun id => (s.warp a.wk).outs.find? fun o => o.id == id), atomFault a s with
  | some o, some f => lateFaults a.wk o [f] s
  | _, _ => performAtom a s
/-- An access to a local space. -/
def localAcc (l off : Nat) : LaneAcc := { lane := l, va := off, pa := off, attr := PageAttr.none, peer := none, zero := false }
/-- One lane's local access (R179, R180, R183). -/
def localLane (q : LSpace) (rd : Bool) (n : Nat) (addr : Nat → Word) (s : State) (r : LaneRes) (l : Nat) : LaneRes :=
  let off := (addr l).toNat
  let fail (code : Byte) (d : Nat) : LaneRes :=
    { r with faults := r.faults ++ [⟨l, code, BitVec.ofNat 17 d, BitVec.ofNat 64 off⟩] }
  if s.cb.windowSize q < off + n then fail 0x0D (spaceNo q)
  else if off % n ≠ 0 then fail 0x03 n
  else if rd && sramBad s s.cw.bk q off n then fail 0x0C 1
  else { r with accs := r.accs ++ [localAcc l off] }
/-- The local accesses of the bundle's lanes. -/
def localLanes (q : LSpace) (rd : Bool) (n : Nat) (addr : Nat → Word) (s : State) : LaneRes :=
  s.bl.foldl (localLane q rd n addr s) ⟨[], [], s⟩
/-- One lane's remote exchange store. -/
def remoteLane (n : Nat) (addr : Nat → Word) (s : State) (r : LaneRes) (l : Nat) : LaneRes :=
  let a := (addr l).toNat
  let fail (code : Byte) (d : Nat) : LaneRes :=
    { r with faults := r.faults ++ [⟨l, code, BitVec.ofNat 17 d, BitVec.ofNat 64 a⟩] }
  if !remoteOk s s.cb a n then fail 0x0D 1
  else if a % n ≠ 0 then fail 0x03 n
  else { r with accs := r.accs ++ [localAcc l a] }

/-- Bytes of a size code. -/
def sizeBytes : Size → Nat
  | .b8 => 1
  | .b16 => 2
  | .b32 => 4
  | .b64 => 8
/-- A global address: the pair plus the scaled offset (R179). -/
def gAddr (s : State) (a : Reg) {k : Nat} (off : BitVec k) (n : Nat) (l : Nat) : DWord :=
  s.src64 a l + BitVec.ofInt 64 (off.toInt * n)
/-- A local address (R179). -/
def lAddr (s : State) (a : Reg) {k : Nat} (off : BitVec k) (n : Nat) (l : Nat) : Word :=
  s.src a l + BitVec.ofInt 32 (off.toInt * n)
/-- The class of a lane destination or source of an access size: a pair for 8 bytes (R55, R56). -/
def memReg (dst : Bool) (n : Nat) (t : Reg) : Bool := if n = 8 then evenCode t else if dst then laneDst t else laneSrc t
/-- The rows that a load or atomic needs for its destination (R135). -/
def destRows (t : Reg) (pair : Bool) : List Nat :=
  if t.toNat < 88 then (if pair then [t.toNat, t.toNat + 1] else [t.toNat]) else []

/-! ### Loads -/
/-- A load's result becomes outstanding, and the load stands in the stream; it takes its bytes at once unless an
earlier operation holds it back (R219, R49). -/
def issueLoad (k : LoadKind) (isLocal : Bool) (n : Nat) (t : Reg) (r : LaneRes) : State :=
  let s1 := raiseLanes r.faults r.s
  if r.accs.isEmpty then s1 else
    let (wid, s2) := freshWid s1
    let id := freshId s2
    let pair := n == 8
    let agree := decide (88 ≤ t.toNat ∧ t.toNat < 124)
    let o : Out := { Out.blank id s2.live t pair with
      load := some { kind := k, accs := r.accs, size := n }, waitOp := true, agree := agree,
      writes := if t = 124 then [] else (dueWrites t pair (r.accs.map fun a => (a.lane, 0))).getD [],
      peer := r.accs.findSome? (·.peer), pc := r.s.cur.pc, fin := { Ending.plain with counts := s2.cur.faulted == 0 } }
    let s3 := mapRows (destRows t pair) (addOut o s2)
    let s4 := pushOp { MemOp.blank id wid with load := some id, isLocal := isLocal, acq := k.acquires } s3
    let s5 := if agree then parkBundle (.compare id) s4 else done s4
    performOp r.s.cur.wk id s5
/-- A global load of a kind: its fault rows, then its issue. -/
def globalLoad (k : LoadKind) (n : Nat) (t a : Reg) (addr : Nat → DWord) (chk : AccCheck) (s : State) : State :=
  operandsOr [⟨0, t, memReg true n t⟩, ⟨1, a, evenCode a⟩] s
    (if rowsFit s (destRows t (n == 8)) then issueLoad k false n t (globalLanes .read n addr chk s) else raiseQuota 0 s)
/-- A local load. -/
def localLoad (q : LSpace) (k : LoadKind) (n : Nat) (t a : Reg) (addr : Nat → Word) (s : State) : State :=
  operandsOr [⟨0, t, memReg true n t⟩, ⟨1, a, laneSrc a⟩] s
    (if rowsFit s (destRows t (n == 8)) then issueLoad k true n t (localLanes q true n addr s) else raiseQuota 0 s)
/-- A load's own qualifier overrides the page's policy for the lines it fills (R184, R369). -/
def withPolicy (q : LdgQ) (r : LaneRes) : LaneRes :=
  let go (a : LaneAcc) : LaneAcc :=
    if a.attr.pol = 3 then a else
    match q with
    | .ef => { a with attr := { a.attr with pol := 1 } }
    | .retain => { a with attr := { a.attr with pol := 2 } }
    | _ => a
  { r with accs := r.accs.map go }

/-- LDG (R184). -/
def execLdg (_sw : Bool) (sz : Size) (q : LdgQ) (t a : Reg) (off : BitVec 6) (s : State) : Res :=
  let n := sizeBytes sz
  .next (operandsOr [⟨0, t, memReg true n t⟩, ⟨1, a, evenCode a⟩] s
    (if rowsFit s (destRows t (n == 8)) then
      issueLoad (if q = .nol1 then .nol1 else .normal) false n t
        (withPolicy q (globalLanes .read n (gAddr s a off n) (eccCheck (if q = .nol1 then .nol1 else .normal) n) s))
    else raiseQuota 0 s))
/-- The space that a qualifier of LDS names (R185). -/
def ldsSpace : LdsQ → LSpace
  | .sp => .sp
  | .xfront => .xfront
  | .ab => .ab
  | .cb => .cb
/-- LDS (R185). -/
def execLds (_sw : Bool) (sz : Size) (q : LdsQ) (t a : Reg) (off : BitVec 6) (s : State) : Res :=
  let n := sizeBytes sz
  .next (localLoad (ldsSpace q) (.loc (ldsSpace q)) n t a (lAddr s a off n) s)
/-- LDA (R187). -/
def execLda (_sw : Bool) (b64 : Bool) (sc : Scope) (sp : Bool) (t a : Reg) (off : BitVec 5) (s : State) : Res :=
  let n := atomSize b64
  .next (if sp then localLoad .sp (.locAcq sc) n t a (lAddr s a off n) s
    else globalLoad (.acq sc) n t a (gAddr s a off n) (bothChecks (scopeCheck sc false) (eccCheck (.acq sc) n)) s)
/-- LDR.ro (R188). -/
def execLdrRo (_sw : Bool) (sz : Size) (t a : Reg) (off : BitVec 6) (s : State) : Res :=
  let n := sizeBytes sz
  .next (globalLoad .ro n t a (gAddr s a off n) (eccCheck .ro n) s)
/-- LDR.use (R188): a count of 0 is ILLEGAL. -/
def execLdrUse (_sw : Bool) (sz : Size) (discard : Bool) (count : BitVec 5) (t a : Reg) (s : State) : Res :=
  let n := sizeBytes sz
  .next (legalOr (count != 0) s
    (globalLoad (.use count.toNat discard) n t a (fun l => s.src64 a l) (eccCheck (.use count.toNat discard) n) s))

/-! ### Stores -/
/-- The bytes a lane stores. -/
def storeBytes (s : State) (t : Reg) (n l : Nat) : List Byte :=
  leBytes (if n = 8 then (s.src64 t l).toNat else (s.src t l).toNat) n
/-- The writes of a store's lanes, lowest lane first. -/
def laneStores (s : State) (t : Reg) (n wid : Nat) (accs : List LaneAcc) : List PWrite :=
  accs.flatMap fun a => mapIdxFrom (fun i v => { pa := a.pa + i, val := v, wid := wid, attr := a.attr, peer := a.peer }) 0
    (storeBytes s t n a.lane)
/-- The local writes of a store's lanes. -/
def laneLStores (s : State) (t : Reg) (n : Nat) (q : LSpace) (accs : List LaneAcc) : List LWrite :=
  accs.flatMap fun a => mapIdxFrom (fun i v => { space := q, off := a.va + i, val := v }) 0 (storeBytes s t n a.lane)
/-- A write's place in its warp's order (R218): the writes before it, and it before the next. -/
def orderWrite (wid : Nat) (s : State) : State :=
  let w := s.cw
  let hb := s.prune w.hb
  let s1 := if hb.isEmpty then s else s.updMem fun m => { m with preds := mSet m.preds wid hb }
  s1.updCw fun w => { w with hb := wid :: hb }
/-- What a releasing store's write carries (R225). -/
def relInfo (s : State) (sc : Scope) : RelInfo :=
  { sc := sc, core := s.cur.core, slot := s.cb.slot, cidx := (s.cluster s.cb.ck).idx, bk := s.cw.bk, ck := s.cb.ck,
    wk := s.cur.wk, hb := s.cw.hb }
/-- The core's dirty bytes at a non-temporal store's addresses leave ahead of it (R229): the warp's earlier stores to them
perform, with what stands before them. -/
def performOverwritten (wk id : Nat) (s : State) : State :=
  let q := (s.warp wk).memq.takeWhile fun x => x.id != id
  match (s.warp wk).memq.find? fun x => x.id == id with
  | some o => if q.any o.overwrites then q.foldl (fun s x => performOp wk x.id s) s else s
  | none => s
/-- A global store issues: its operation stands in the stream until PERFORM_STORE performs it; a non-temporal one leaves
at once where nothing holds it (R219, R229). -/
def issueStore (n : Nat) (t : Reg) (nt : Bool) (rel : Option Scope) (r : LaneRes) : State :=
  let s1 := raiseLanes r.faults r.s
  if r.accs.isEmpty then s1 else
    let (wid, s2) := freshWid s1
    let id := freshId s2
    let s3 := match rel with
      | some sc => s2.updMem fun m => { m with rels := mSet m.rels wid (relInfo s2 sc) }
      | none => s2
    let s4 := done (pushOp { MemOp.blank id wid with
      ws := laneStores r.s t n wid r.accs, nt := nt, gate := rel.map Gate.begin, rel := rel.map fun sc => (sc, wid) } (orderWrite wid s3))
    if nt then performOp r.s.cur.wk id (performOverwritten r.s.cur.wk id s4) else s4
/-- A local store issues and performs at once where nothing holds it (R233). -/
def issueLStore (q : LSpace) (n : Nat) (t : Reg) (rel : Option Scope) (r : LaneRes) : State :=
  let s1 := raiseLanes r.faults r.s
  if r.accs.isEmpty then s1 else
    let (wid, s2) := freshWid s1
    let id := freshId s2
    let s3 := match rel with
      | some sc => s2.updMem fun m => { m with rels := mSet m.rels wid (relInfo s2 sc) }
      | none => s2
    let s4 := done (pushOp { MemOp.blank id wid with
      lws := laneLStores r.s t n q r.accs, isLocal := true, gate := rel.map Gate.begin, rel := rel.map fun sc => (sc, wid) } s3)
    performOp r.s.cur.wk id s4

/-- STG (R184): .nt needs the streaming privilege (R183). -/
def execStg (_sw : Bool) (sz : Size) (nt : Bool) (t a : Reg) (off : BitVec 6) (s : State) : Res :=
  let n := sizeBytes sz
  .next (operandsOr [⟨0, t, memReg false n t⟩, ⟨1, a, evenCode a⟩] s
    (if nt && !s.cg.stream then raisePriv s
     else issueStore n t nt none (globalLanes .write n (gAddr s a off n) noCheck s)))
/-- The receiver, the offset and the slot of a remote form (R179). -/
def remoteStore (s : State) (t : Reg) (n opId : Nat) (a : LaneAcc) : XStore :=
  { id := 0, src := s.cur.core, wk := s.cur.wk, opId := opId,
    toBk := (clusterBlock s s.cb.ck (a.va / 65536 % 4)).getD 0, off := a.va % 65536, data := storeBytes s t n a.lane,
    slot := a.va / 262144 }
/-- Remote exchange stores set out (R186, R234); a nonzero slot ends the region of every lane (R244). -/
def issueRemote (n : Nat) (t : Reg) (ends : Bool) (r : LaneRes) : State :=
  let s1 := raiseLanes r.faults r.s
  if r.accs.isEmpty then s1 else
    let id := freshId s1
    let xs := r.accs.map (remoteStore r.s t n id)
    let s2 := s1.updMem fun m =>
      { m with xq := m.xq ++ mapIdxFrom (fun i x => { x with id := m.nextQ + i }) 0 xs, nextQ := m.nextQ + xs.length }
    let s3 := s2.updCw fun w => { w with nextId := id + 1 }
    if ends then doneB s3 else done s3
/-- The space of a store qualifier. -/
def stsSpace : StsQ → LSpace
  | .ab => .ab
  | .cb => .cb
  | _ => .sp
/-- STS (R185, R186). -/
def execSts (_sw : Bool) (sz : Size) (q : StsQ) (t a : Reg) (off : BitVec 6) (s : State) : Res :=
  let n := sizeBytes sz
  .next (operandsOr [⟨0, t, memReg false n t⟩, ⟨1, a, laneSrc a⟩] s
    (if q = .xremote then issueRemote n t (s.bl.any fun l => decide (262144 ≤ (lAddr s a off n l).toNat)) (s.bl.foldl (remoteLane n (lAddr s a off n) s) ⟨[], [], s⟩)
     else issueLStore (stsSpace q) n t none (localLanes (stsSpace q) false n (lAddr s a off n) s)))
/-- STL (R187): a release of its scope, then the store. -/
def execStl (_sw : Bool) (b64 : Bool) (sc : Scope) (sp : Bool) (t a : Reg) (off : BitVec 5) (s : State) : Res :=
  let n := atomSize b64
  .next (operandsOr [⟨0, t, memReg false n t⟩, ⟨1, a, if sp then laneSrc a else evenCode a⟩] s
    (if sp then issueLStore .sp n t (some sc) (localLanes .sp false n (lAddr s a off n) s)
     else issueStore n t false (some sc) (globalLanes .write n (gAddr s a off n) noCheck s)))

/-! ### Atomics -/
/-- The column for t of R189. -/
def atomT (aop : Aop) (b64 : Bool) (t : Reg) : Bool :=
  t == 124 || (if aop = .cas then
      (if b64 then t.toNat % 4 == 0 && decide (t.toNat ≤ 84) else t.toNat % 2 == 0 && decide (t.toNat ≤ 86))
    else if b64 then t.toNat % 2 == 0 && decide (t.toNat ≤ 86) else decide (t.toNat ≤ 87))
/-- The operands of a lane's atomic: the operand, or compare and new (R189, R190). -/
def atomArgs (s : State) (aop : Aop) (b64 : Bool) (t : Reg) (l : Nat) : DWord × DWord :=
  if t = 124 then (0, 0)
  else if b64 then (s.src64 t l, if aop = .cas then s.src64 (t + 2) l else 0)
  else (z64 (s.src t l), if aop = .cas then z64 (s.src (t + 1) l) else 0)
/-- One lane's atomic. -/
def atomReq (s : State) (aop : Aop) (b64 : Bool) (u : Use) (sp : Bool) (t : Reg) (wid opId : Nat) (out : Option Nat)
    (i : Nat) (a : LaneAcc) : AtomReq :=
  { id := s.mem.nextAtom + i, wk := s.cur.wk, core := s.cur.core, acc := a, aop := aop, b64 := b64,
    use := if sp && u != .comm then .plain else u,
    x := (atomArgs s aop b64 t a.lane).1, y := (atomArgs s aop b64 t a.lane).2, out := out, dest := t, wid := wid, loc := sp,
    opId := opId }
/-- Perform the scratchpad atomics of an operation that nothing holds back, in lane order. -/
def tryLocalAtoms (wk opId : Nat) : Nat → State → State
  | 0, s => s
  | n + 1, s =>
    match s.mem.atoms.find? fun a => a.loc && a.wk == wk && a.opId == opId with
    | some a => if atomBlocked s a then s else tryLocalAtoms wk opId n (performAtom a s)
    | none => s
/-- Atomics set out toward their home, or perform at the scratchpad (R190, R233); committing but for .spec. -/
def issueAtom (aop : Aop) (b64 : Bool) (u : Use) (sp : Bool) (t : Reg) (r : LaneRes) : State :=
  let s1 := raiseLanes r.faults r.s
  if r.accs.isEmpty then s1 else
    let (wid, s2) := freshWid s1
    let id := freshId s2
    let zeros := laneWrites t b64 (r.accs.map fun a => (a.lane, 0))
    let o : Out := { Out.blank id s2.live t b64 with waitAtom := true, writes := if t = 124 then [] else zeros,
                                                      peer := r.accs.findSome? (·.peer), pc := r.s.cur.pc,
                                                      fin := { Ending.plain with counts := s2.cur.faulted == 0 } }
    let s3 := if u = .comm then s2.updCw fun w => { w with nextId := id + 1 }
      else mapRows (destRows t b64) (addOut o s2)
    let s4 := if sp then s3.updCw settleLocal else orderWrite wid s3
    let reqs := mapIdxFrom (atomReq r.s aop b64 u sp t wid id (if u = .comm then none else some id)) 0 r.accs
    let s5 := s4.updMem fun m => { m with atoms := m.atoms ++ reqs, nextAtom := m.nextAtom + reqs.length }
    let s6 := if u = .spec && !sp then done s5 else doneB s5
    if sp then tryLocalAtoms r.s.cur.wk id 32 s6 else s6
/-- ATOM (R189 to R191): a combination that the table excludes is ILLEGAL. -/
def execAtom (_sw : Bool) (aop : Aop) (u : Use) (ty : AtomTy) (sp : Bool) (t a : Reg) (s : State) : Res :=
  let b64 := ty == .b64
  let n := atomSize b64
  let chk : AccCheck := if u = .comm ∨ u = .spec then eccCheck .nol1 n else bothChecks (scopeCheck .d true) (eccCheck .nol1 n)
  .next (legalOr (atomCombo aop u ty) s
    (operandsOr [⟨0, t, atomT aop b64 t⟩, ⟨1, a, if sp then laneSrc a else evenCode a⟩] s
      (if u ≠ .comm ∧ !rowsFit s (destRows t b64) then raiseQuota 0 s
       else issueAtom aop b64 u sp t
        (if sp then localLanes .sp true n (fun l => s.src a l) s else globalLanes .write n (fun l => s.src64 a l) chk s))))

end Sys2Proof.Machine
end

