-- ==== Sys2Proof/Machine/Lifecycle.lean ====
section
/-! DEFINITION. Lanes and warps through their life: releases that an instruction waits for (R223, R226), JOIN release
(R194), serial mode's end (R102), task end (R315), warp retirement (R113), register quota (R136), block end (R113, R265,
R316). -/
namespace Sys2Proof.Machine

/-! ### Waiting for a stream or a release within one step (DESIGN CHOICE, log 14) -/
/-- Flights arrive, in their order. -/
def forceFlights (p : Flight → Bool) (s : State) : State :=
  (s.mem.flights.filter p).foldl (fun s f => arriveFlight f s) s
/-- An operation of a warp's stream performs, with the arrivals that it waits for. -/
def forceOp (wk id : Nat) (s : State) : State :=
  let drain := (s.warp wk).memq.any fun o => o.id == id && o.drain
  let s1 := if drain then forceFlights (fun f => (s.warp wk).ntFids.contains f.fid) s else s
  let s2 := performLate wk id s1
  match ((s2.warp wk).memq.find? fun x => x.id == id).bind (·.gate) with
  | some (.wait _ fids) => performOp wk id (forceFlights (fun f => fids.contains f.fid) s2)
  | _ => s2
/-- The core runs in deterministic mode: a block of a deterministic grid is resident (R114 heading). -/
def coreDet (s : State) (core : Nat) : Bool := s.blocks.any fun kb => kb.2.core == core && (s.grid kb.2.gid).det
/-- The warps whose streams stand in front of a warp's: its own, and those of its core where an acquire has ordered
another's operation before its next ones (R225), or where the core's atomics keep their order of issue (R115). -/
def streamWith (s : State) (wk k : Nat) : Bool :=
  let core (k : Nat) : Nat := (s.block (s.warp k).bk).core
  k == wk || (core k == core wk && (coreDet s (core wk) || hbHeld s wk s.mem.nextWid))
/-- The write ids of what a warp's stream has to perform, in their order of issue. -/
def streamWids (s : State) (wk : Nat) : List Nat :=
  let own (p : Nat → Bool) : List Nat :=
    (s.warps.filter fun kw => p kw.1).flatMap (fun kw => kw.2.memq.map (·.wid)) ++
      (s.mem.atoms.filter fun a => p a.wk).map (·.wid)
  let top := (own (· == wk) ++ (s.warp wk).hb).foldl max 0
  ((own (streamWith s wk)).filter (fun x => decide (x ≤ top))).foldl (fun (m : Map Unit) x => mSet m x ()) [] |>.map (·.1)
/-- The operation or the atomics of a write id perform. -/
def forceWid (x : Nat) (s : State) : State :=
  let s1 := match s.warps.findSome? fun kw => (kw.2.memq.find? fun o => o.wid == x).map fun o => (kw.1, o.id) with
    | some (wk, id) => forceOp wk id s
    | none => s
  (s1.mem.atoms.filter fun a => a.wid == x).foldl (fun s a => performAtomLate a s) s1
/-- Every operation of a warp's stream and every atomic of the warp performs, with what stands before them. -/
def forceStream (wk : Nat) (s : State) : State := (streamWids s wk).foldl (fun s x => forceWid x s) s
/-- A RELEASE of a scope by a warp completes (R223): its stream has performed, and with a wide scope the core's stores
have arrived (DESIGN CHOICE, log 14). -/
def forceRelease (wk : Nat) (sc : Scope) (s : State) : State :=
  let core := (s.block (s.warp wk).bk).core
  let s1 := (forceStream wk s).updWarp wk settleOuts
  let s2 := releaseBegin core sc s1
  forceFlights (fun f => (releaseFids core sc s2).contains f.fid) s2
/-- A RELEASE of block scope (R223): nothing moves, and the stores that the warp has issued need not have performed; they
stand before what an acquiring warp does next (R225). Atomics that may wait are performed (R228). -/
def blockRelease (wk : Nat) (s : State) : State :=
  let s1 := (if s.mem.atoms.any fun a => a.wk == wk && a.use != .comm then forceStream wk s else s).updWarp wk settleOuts
  addHb wk ((s1.warp wk).memq.map (·.wid)) s1
/-- What a post or a reading of the scratchpad by the warp has to follow: its fences and drains (R236), and its own local
operations, which perform in the order of issue (R233) and may publish a copy command (R18). -/
def streamPending (s : State) (wk : Nat) : Bool :=
  ((s.warp wk).memq.any fun o => o.fence || o.isLocal) || s.mem.atoms.any fun a => a.wk == wk && a.loc
/-- Every FENCE and DRAIN, and every local operation, that the warp issued has completed (R236, R18) (DESIGN CHOICE,
log 14). -/
def forceFences (wk : Nat) (s : State) : State := if streamPending s wk then forceStream wk s else s

/-! ### JOIN and serial mode -/
/-- The lanes waiting at a JOIN address may all go on (R194). -/
def joinReady (w : Warp) (addr : DWord) : Bool :=
  w.lanes.all fun x =>
    !(x.st == .waitingJoin && x.pc == addr) ||
      (mapIdxFrom (fun l y => (l, y)) 0 w.lanes).all fun (l, y) =>
        !x.joinMask.getLsbD l || (y.st == .waitingJoin && y.pc == addr) || y.st == .vacant || y.st == .serialWaiting
/-- Release the JOINs of a warp that may go on: every one of their lanes, once (R194). -/
def joinRelease (wk : Nat) (s : State) : State :=
  s.updWarp wk fun w =>
    { w with lanes := w.lanes.map fun x =>
        if x.st == .waitingJoin && joinReady w x.pc then { x with st := .active, pc := x.pc + 4 } else x }
/-- A lane becomes vacant: its handler bit clears (R243), and it runs no task. -/
def Lane.vacate (x : Lane) : Lane :=
  { x with st := .vacant, handler := false, isTask := false, joinEn := false, taskId := 0xFFFFFFFF }
/-- Serial-waiting lanes become vacant, all together, when no other kind is left (R102). -/
def serialEnd (w : Warp) : Word :=
  if w.lanes.all fun x => x.st == .serialWaiting || x.st == .vacant then w.maskOf fun x => x.st == .serialWaiting else 0

/-! ### Tasks (R315) -/
/-- A TASK ENDS: a release of device scope, then the join counter's decrement (R309). -/
def taskEnd (wk l : Nat) (mark : Word → FailMark) (s : State) : State :=
  let x := (s.warp wk).lane l
  if !x.isTask then s else
    let s1 := forceRelease wk .d s
    let b := s1.block (s1.warp wk).bk
    if x.joinEn then
      decrement (quadOf b.core) x.joinCtr.toNat 1 (mark x.taskId) b.gid
        (ctrRelease (quadOf b.core) x.joinCtr.toNat (s1.warp wk).hb s1)
    else s1
/-- Lanes of a warp become vacant, their tasks ending as the mark says. -/
def vacateLanes (wk : Nat) (m : Word) (mark : Word → FailMark) (s : State) : State :=
  let s1 := (maskLanes m).foldl (fun s l => taskEnd wk l mark s) s
  s1.updWarp wk fun w => w.updLanes m fun _ x => x.vacate

/-! ### Quota (R136) -/
/-- The warps and live waves of a block. -/
def blockWarps (s : State) (bk : Nat) : List (Nat × Warp) := s.warps.filter fun kw => kw.2.bk == bk && !kw.2.retiredW
/-- The REGCLAIMs that a warp waits in: one, or those of a cycle's two bundles. -/
def Warp.claims (w : Warp) : List (Park × Nat) :=
  w.parks.filterMap fun p => match p.why with
    | .regclaim n => some (p, n)
    | _ => Option.none
/-- A waiting REGCLAIM that POOL meets completes. -/
def retryClaim (wk : Nat) (s : State) (c : Park × Nat) : State :=
  let bk := (s.warp wk).bk
  if (s.block bk).pool < c.2 then s else
    let s1 := s.updBlock bk fun b => { b with pool := b.pool - c.2 }
    let s2 := s1.updWarp wk fun w => { w with limit := w.limit + BitVec.ofNat 7 c.2 }
    takeUp wk c.1 doneB s2
/-- POOL has grown: waiting claims retry, the oldest warp first. -/
def retryClaims (bk : Nat) (s : State) : State :=
  (blockWarps s bk).foldl (fun s kw => kw.2.claims.foldl (retryClaim kw.1) s) s
/-- Every non-retired warp and live wave of the block waits in a REGCLAIM that POOL does not meet: each raises REGQUOTA
(R136). -/
def claimDeadlock (bk : Nat) (s : State) : State :=
  let ws := blockWarps s bk
  if !ws.isEmpty && ws.all (fun kw => !kw.2.claims.isEmpty && kw.2.claims.all fun c => decide ((s.block bk).pool < c.2)) then
    ws.foldl (fun s kw => kw.2.claims.foldl (fun s c => takeUp kw.1 c.1 (raiseQuota c.2) s) s) s
  else s
/-- Rows go to a block's pool; in deterministic mode a claim that they meet is released for the next turn (R115). -/
def givePool (bk n : Nat) (s : State) : State :=
  let s1 := s.updBlock bk fun b => { b with pool := b.pool + n }
  if coreDet s (s.block bk).core then s1 else retryClaims bk s1

/-! ### Retirement and the block's end -/
/-- A grid's block has ended. -/
def countEnded (gid : Nat) (s : State) : State := s.updGrid gid fun g => { g with ended := g.ended + 1 }
/-- The latch banks that a test picks become invalid (R285). -/
def invalidateBanks (q : Nat) (p : LatchBank → Bool) (s : State) : State :=
  s.updQuad q fun x => { x with banks := x.banks.map fun kb => if p kb.2 then (kb.1, { kb.2 with valid := false }) else kb }
/-- A block leaves its core with its warps; its slot and windows return (R113). -/
def removeBlock (bk : Nat) (s : State) : State :=
  let b := s.block bk
  let s1 := (s.setWarps (s.warps.filter fun kw => kw.2.bk != bk)).setBlocks (mErase s.blocks bk)
  let s2 := s1.setClusters (mMod s1.clusters b.ck fun c => { c with blocks := c.blocks.filter (· != bk) })
  s2.setClusters (s2.clusters.filter fun kc => !(kc.1 == b.ck && kc.2.blocks.isEmpty))
/-- A block's stores set out for their homes, and its atomics are performed (R258); its grid's completion waits for the
arrivals (R379). -/
def flushBlock (bk : Nat) (s : State) : State :=
  let b := s.block bk
  let wks := (s.warps.filter fun kw => kw.2.bk == bk).map (·.1)
  let s1 := releaseBegin b.core .p (wks.foldl (fun s wk => forceStream wk s) s)
  let nts := wks.flatMap fun wk => (s1.warp wk).ntFids
  let fids := releaseFids b.core .p s1 ++ nts.filter fun f => s1.mem.flights.any fun x => x.fid == f
  s1.updGrid b.gid fun g => { g with fids := g.fids ++ fids }
/-- A block ends once its warps and waves have retired, its copy commands have completed or been skipped, no job of it
stands in the yard and no task it posted is pending (R113, R265, R316) (DEDUCED, log 26). -/
def blockEnd (bk : Nat) (s : State) : State :=
  let b := s.block bk
  let q := quadOf b.core
  if (mFind s.blocks bk).isNone || b.copyBusy || !(blockWarps s bk).isEmpty ||
      (s.quad q).jobs.any (fun j => j.bk == bk) || s.quads.any (fun kq => kq.2.tasks.any fun t => t.bk == bk) then s else
    countEnded b.gid (removeBlock bk (invalidateBanks q (fun x => x.bk == bk) (flushBlock bk s)))
/-- A WARP RETIRES when every lane is vacant and no REFILL is pending (R113): its quota goes to the pool; a wave's rows
return to the core but for what it holds above .regs (R314). -/
def warpRetire (wk : Nat) (s : State) : State :=
  let w := s.warp wk
  if w.retiredW || w.refill.isSome || !(w.lanes.all fun x => x.st == .vacant) then s else
    let regs := (s.grid (s.block w.bk).gid).regs
    let n := if w.isWave then w.limit.toNat - regs else w.limit.toNat
    let s1 := s.updWarp wk fun w => { w with retiredW := true, parks := [] }
    blockEnd w.bk (claimDeadlock w.bk (givePool w.bk n s1))
/-- What follows from a change of a warp's lanes: serial-waiting lanes leave, JOINs are released, the warp may retire. -/
def afterLanes (wk : Nat) (s : State) : State :=
  let m := serialEnd (s.warp wk)
  let s1 := if m = 0 then s else vacateLanes wk m (fun _ => .no) s
  warpRetire wk (joinRelease wk s1)

end Sys2Proof.Machine
end

