-- ==== Sys2Proof/Machine/Control.lean ====
section
/-! DEFINITION. Control flow: branches and calls (R192, R193), JOIN (R194), EXIT, REFILL, REGION, NOP (R195 to R198),
TRAP and BPT (R199), and words that are no instruction (R47, R68). -/
namespace Sys2Proof.Machine

/-! ### Branches (R192, R193) -/
/-- The guard of a branch for a lane (R54). -/
def guardOf (s : State) (neg : Bool) (p : PredNo) (l : Nat) : Bool := s.pred p l != neg
/-- The target of a displacement. -/
def dispTarget (s : State) (disp : BitVec 20) : DWord := s.cur.pc + 4 + 4 * disp.signExtend 64
/-- The link register takes the return address of some lanes (R192, R389). -/
def link (ls : List Nat) (s : State) : State :=
  s.updCw (writeAll (ls.map fun l => { dest := .lane 87 l, val := (s.cur.pc + 4).setWidth 32 }))
/-- The same for a target in `a`: outstanding when it is read from c0-g3 (R49). -/
def linkFrom (a : Reg) (ls : List Nat) (s : State) : State :=
  if scopedSrc a && !ls.isEmpty then
    mapRows [87] (addOut { Out.blank (freshId s) (lanesMask ls) 87 false with
      writes := ls.map fun l => { dest := .lane 87 l, val := (s.cur.pc + 4).setWidth 32 } } s)
  else link ls s
/-- Lanes of the bundle that do not fault go to their own addresses, with a change of their own. -/
def goTo (target : Nat → DWord) (f : Lane → Lane) (taken : Word) (s : State) : State :=
  s.updCw fun w => w.updLanes s.live fun l x =>
    if taken.getLsbD l then { f x with pc := target l } else { x with pc := s.cur.pc + 4 }
/-- DEPTH for a lane: the word's address, the lane's depth (R240). -/
def depthFault (s : State) (l : Nat) : LaneFault := ⟨l, 0x06, (s.cw.lane l).depth.setWidth 17, s.cur.pc⟩
/-- The lanes of the bundle whose guard is true. -/
def takenLanes (s : State) (neg : Bool) (p : PredNo) : List Nat := s.bl.filter fun l => guardOf s neg p l

/-- BRA (R192). -/
def execBra (_sw : Bool) (neg : Bool) (p : PredNo) (disp : BitVec 20) (s : State) : Res :=
  .next (doneBranch (goTo (fun _ => dispTarget s disp) (fun x => x) (lanesMask (takenLanes s neg p)) s))
/-- BRAY (R192): a taken branch yields. -/
def execBray (_sw : Bool) (neg : Bool) (p : PredNo) (disp : BitVec 20) (s : State) : Res :=
  .next (doneBranch (goTo (fun _ => dispTarget s disp) (fun x => { x with yld := true })
    (lanesMask (takenLanes s neg p)) s))
/-- CALL (R192): DEPTH at depth 63. -/
def execCall (_sw : Bool) (neg : Bool) (p : PredNo) (disp : BitVec 20) (s : State) : Res :=
  let ls := takenLanes s neg p
  let bad := ls.filter fun l => (s.cw.lane l).depth == 63
  let good := ls.filter fun l => (s.cw.lane l).depth != 63
  let s1 := raiseLanes (bad.map (depthFault s)) s
  .next (if !good.isEmpty && !rowsFit s [87] then raiseQuota 0 s else
    doneBranch (link good (goTo (fun _ => dispTarget s disp) (fun x => { x with depth := x.depth + 1 })
      (lanesMask good) s1)))

/-- The target of a lane in a register: the high half of its PC stays (R193). -/
def regTarget (s : State) (a : Reg) (l : Nat) : DWord :=
  ((s.cur.pc >>> 32).setWidth 32 ++ s.src a l : BitVec 64)
/-- Register branches: ALIGN, then DEPTH where the test says so (R193). -/
def regBranch (a : Reg) (deep : Lane → Bool) (f : Lane → Lane) (lk : Bool) (s : State) : State :=
  operandsOr [⟨1, a, laneTgt a⟩] s (
    let badAlign := s.bl.filter fun l => (s.src a l) &&& 3 != 0
    let badDepth := s.bl.filter fun l => (s.src a l) &&& 3 == 0 && deep (s.cw.lane l)
    let good := s.bl.filter fun l => (s.src a l) &&& 3 == 0 && !deep (s.cw.lane l)
    let fs := (s.bl.filter fun l => badAlign.contains l || badDepth.contains l).map fun l =>
      if badAlign.contains l then (⟨l, 0x03, 0, regTarget s a l⟩ : LaneFault) else depthFault s l
    if lk && !good.isEmpty && !rowsFit s [87] then raiseQuota 0 s else
    let s1 := goTo (regTarget s a) f (lanesMask good) (raiseLanes fs s)
    doneBranch (if lk then linkFrom a good s1 else s1))
/-- CALLI (R193). -/
def execCalli (_sw : Bool) (a : Reg) (s : State) : Res :=
  .next (regBranch a (fun x => x.depth == 63) (fun x => { x with depth := x.depth + 1 }) true s)
/-- BRAI (R193). -/
def execBrai (_sw : Bool) (a : Reg) (s : State) : Res := .next (regBranch a (fun _ => false) (fun x => x) false s)
/-- RET (R193); below its entry depth a lane leaves its handler (R243). -/
def execRet (_sw : Bool) (a : Reg) (s : State) : Res :=
  .next (regBranch a (fun x => x.depth == 0) (fun x => leaveHandler { x with depth := x.depth - 1 }) false s)

/-! ### Reconvergence and exit -/
/-- JOIN (R194): the lanes wait under their masks, yield bits clear (R109), and what may go on is released. -/
def execJoin (_sw : Bool) (a : Reg) (s : State) : Res :=
  .next (operandsOr [⟨1, a, laneTgt a⟩] s (
    let s1 := s.updCw fun w =>
      let w1 := w.updLanes s.cur.mask fun l x =>
        { x with st := .waitingJoin, joinMask := if a = 124 then 0xFFFFFFFF else s.src a l }
      { w1 with lanes := w1.lanes.map fun x => { x with yld := false } }
    joinRelease s.cur.wk (retireIssue s1)))
/-- EXIT (R195, R111, R110): committing; the lanes become vacant, or serial-waiting in serial mode. -/
def execExit (_sw : Bool) (s : State) : Res :=
  .next (let s1 := doneB s
    let s2 := if s.cw.serial then
        s1.updCw fun w => w.updLanes s.cur.mask fun _ x => { x with st := .serialWaiting, handler := false }
      else vacateLanes s.cur.wk s.cur.mask (fun _ => .no) s1
    afterLanes s.cur.wk s2)
/-- REFILL (R196): a request to the yard, or complete at once with no task; committing. -/
def execRefill (_sw : Bool) (a : Reg) (s : State) : Res :=
  .next (operandsOr [⟨1, a, uniCode a⟩] s (
    let w := s.cw
    let vacant := (w.lanes.filter fun x => x.st == .vacant).length
    let n := if s.usrc a != 0 ∧ (s.usrc a).toNat < vacant then (s.usrc a).toNat else vacant
    if n = 0 ∨ w.refill.isSome ∨ w.serial then doneB s else
      let q := s.cq
      let r : Refill := { entry := s.cur.pc + 4, cap := n, depth := (w.lane (lowLane s.cur.mask)).depth,
                          order := (s.quad q).nextRefill }
      doneB ((s.updQuad q fun x => { x with nextRefill := x.nextRefill + 1 }).updCw fun w =>
        { w with refill := some r })))
/-- REGION (R197). -/
def execRegion (_sw : Bool) (s : State) : Res := .next (doneB s)
/-- NOP (R198). -/
def execNop (_sw : Bool) (s : State) : Res := .next (done s)

/-! ### Software faults (R199) -/
/-- The instruction is complete as it faults: the lanes hold the next address, and the issue counts (R116). -/
def softTrap (fcode : Byte) (code : BitVec 17) (s : State) : State :=
  raiseBundle fcode code s.cur.pc (done s)
/-- TRAP (R199). -/
def execTrap (_sw : Bool) (code : BitVec 17) (s : State) : Res := .next (softTrap 0x0F code s)
/-- BPT (R199). -/
def execBpt (_sw : Bool) (code : BitVec 17) (s : State) : Res := .next (softTrap 0x10 code s)

/-- A word that is not an instruction: ILLEGAL for the bundle (R47, R68), DETAIL its bits [31:24]. -/
def execIllegal (w : Word) (s : State) : Res :=
  .next (raiseBundle 0x01 ((w >>> 24).setWidth 17) s.cur.pc s)

end Sys2Proof.Machine
end

