-- ==== Sys2Proof/Machine/Sync.lean ====
section
/-! DEFINITION. Waiting and ordering: WAITM (R200), BAR (R201), BARX (R202, R203), FENCE and DRAIN (R204), ROINV (R205). -/
namespace Sys2Proof.Machine

/-! ### Uniform addresses (R181) -/
/-- Bits [63:32] all 1 name the block's scratchpad. -/
def localAlias (a : DWord) : Bool := a >>> 32 == 0xFFFFFFFF
/-- Every lane of the bundle faults at one address. -/
def bundleAt (code : Byte) (detail : Nat) (addr : DWord) (s : State) : State :=
  raiseBundle code (BitVec.ofNat 17 detail) addr s
/-- The place of an n-byte object or record at a uniform address, with the rows of R183: local offset or translated access.
FADDR is the address as the pair holds it, but for BUFACC the local offset (R240). -/
def uniformAcc (k : Acc) (n align : Nat) (a : DWord) (s : State) : Except State (Bool × LaneAcc) × State :=
  if localAlias a then
    let off := a.toNat % 2 ^ 32
    if s.cb.spSize < off + n then (.error (bundleAt 0x0D 0 (BitVec.ofNat 64 off) s), s)
    else if off % align ≠ 0 then (.error (bundleAt 0x03 align a s), s)
    else if k == .read && sramBad s s.cw.bk .sp off n then (.error (bundleAt 0x0C 1 a s), s)
    else (.ok (true, localAcc 0 off), s)
  else if a.toNat % align ≠ 0 then (.error (bundleAt 0x03 align a s), s)
  else match translate (some s.cur.core) s.cb.part k 0 a.toNat s with
    | (.error f, s1) => (.error (bundleAt f.code f.detail a s1), s1)
    | (.ok x, s1) =>
      if k == .read && x.peer.isNone && !x.zero && (rangeFrom x.pa n).any s1.mem.ecc.contains
      then (.error (bundleAt 0x0C 0 a s1), s1) else (.ok (false, x), s1)

/-! ### WAITM (R200) -/
/-- One reading of a waited word: the scratchpad, or the home with the core's own dirty bytes. -/
def waitmRead (wk : Nat) (loc : Bool) (a : LaneAcc) (s : State) : List HByte × State :=
  let w := s.warp wk
  if loc then (mGet (loadLocal (s.block w.bk) .sp 4 [a]) [] 0, s)
  else
    let (m, s1) := loadGlobal wk (s.block w.bk).core w.nextId .nol1 4 [a] s
    (mGet m [] 0, s1)
/-- A reading has to wait: for a store that an acquire has ordered before it (R225), or for the warp's own earlier atomic on
the word (R228). -/
def waitmHeld (s : State) (wk : Nat) (loc : Bool) (a : LaneAcc) : Bool :=
  hbHeld s wk s.mem.nextWid ||
    (!loc && s.mem.atoms.any fun x => x.wk == wk && !x.loc && x.use != .nonord && x.keys.any (a.keys 4).contains)
/-- WAITM's test, and its completion with the acquire of the satisfying read. The Bool says that it is satisfied. -/
def waitmTry (wk : Nat) (loc : Bool) (a : LaneAcc) (c : Cond) (v : Word) (s : State) : Bool × State :=
  if waitmHeld s wk loc a then (false, s) else
  let (bs, s1) := waitmRead wk loc a s
  let x : Word := (loadVal bs).setWidth 32
  if condHolds c x v then
    (true, acquire wk (s1.block (s1.warp wk).bk).core (if loc then .b else .d) (bs.map (·.wid)) s1)
  else (false, s1)
/-- WAITM (R200). -/
def execWaitm (_sw : Bool) (c : Cond) (a b : Reg) (s : State) : Res :=
  .next (operandsOr [⟨1, a, uniCode a && evenCode a⟩, ⟨2, b, uniCode b⟩] s
    (match uniformAcc .read 4 4 (s.usrc64 a) s with
     | (.error t, _) => t
     | (.ok (loc, x), s1) =>
       match waitmTry s.cur.wk loc x c (s.usrc b) (forceFences s.cur.wk s1) with
       | (true, s2) => done s2
       | (false, s2) => parkBundle (.waitm loc x c (s.usrc b)) s2))

/-! ### BAR (R201) -/
/-- Every lane of the warp that is neither vacant nor serial-waiting waits at a BAR of one kind. -/
def barArrived (w : Warp) (cluster : Bool) : Bool :=
  let m := w.parks.foldl (fun m p => if p.why == .bar cluster then m ||| p.mask else m) (0 : Word)
  (mapIdxFrom (fun l x => (l, x)) 0 w.lanes).all fun (l, x) =>
    x.st == .vacant || x.st == .serialWaiting || m.getLsbD l
/-- A warp that has arrived has issued its BAR as a region boundary (R197, R244). -/
def barBoundary (cluster : Bool) (w : Warp) : Warp :=
  if barArrived w cluster then
    w.boundary (w.parks.foldl (fun m p => if p.why == .bar cluster then m ||| p.mask else m) 0)
  else w
/-- BAR (R201): the lanes wait at it, and a warp that has thus arrived makes its release. A wave raises ENGINE (R314). -/
def execBar (_sw : Bool) (cluster : Bool) (s : State) : Res :=
  .next (if s.cw.isWave then raiseEngine 0x42 s.cur.pc s else
    let s1 := parkBundle (.bar cluster) (done s)
    if barArrived (s1.warp s.cur.wk) cluster then
      let s2 := s1.updCw (barBoundary cluster)
      if cluster then forceRelease s.cur.wk .c s2 else blockRelease s.cur.wk s2
    else s1)

/-! ### BARX (R202, R203) -/
/-- Whether an op needs to write the object. -/
def barxWrites (op : BarxOp) : Bool := op != .test && op != .wait
/-- Whether an op arrives: it releases, and it is committing. -/
def barxArrives (op : BarxOp) : Bool := op == .arrive || op == .arriveExpect
/-- The end of an issue of an op. -/
def barxDone (op : BarxOp) (s : State) : State := if barxArrives op then doneB s else done s
/-- The result of a test or a wait, as an outstanding result (R203, R49) (DEDUCED, log 33). -/
def barxOut (d : Reg) (v : Word) (obj : Option ObjWait) (waitOp : Bool) (s : State) : State :=
  outResult .plain false d false [(lowLane s.cur.mask, z64 v)]
    { Out.blank (freshId s) s.cur.mask d false with obj := obj, waitOp := waitOp } s
/-- A .test or a .wait has seen its object: the result's value, or the phase that it waits for. -/
def objAnswer (op : BarxOp) (w : ObjWait) (ok : Bool) (wk id : Nat) (s : State) : State :=
  let v : Word := if ok then 1 else 0
  updOut wk id (fun x =>
    if op = .test then
      { x with waitOp := false, vals := x.vals.map fun y => (y.1, z64 v), writes := x.writes.map fun y => { y with val := v } }
    else { x with waitOp := false, obj := if ok then none else some w }) s
/-- The order in which the updates of one cycle reach an object (R202). -/
def objClass : BarxOp → Nat
  | .init => 0
  | .arrive | .arriveExpect => 1
  | .expect => 2
  | .test | .wait => 3
/-- One op of the cycle acts on its object. -/
def applyLate (s : State) (x : LateObj) : State :=
  let b := s.block x.bk
  match x.out with
  | some id =>
    let want := x.val.getLsbD 0
    let ok := (b.obj x.off).parity != want
    objAnswer x.op { loc := true, addr := x.off, parity := want } ok x.wk id
      (if ok then addHb x.wk (mGet b.objHb [] x.off) s else s)
  | none =>
    let s1 := if x.hbs.isEmpty then s else
      s.updBlock x.bk fun b => { b with objHb := mSet b.objHb x.off (x.hbs ++ mGet b.objHb [] x.off).dedup }
    localObjChange x.bk x.off (((s1.block x.bk).obj x.off).step x.op x.val) s1
/-- THE CYCLE'S OPS ON LOCAL OBJECTS TAKE EFFECT, by class and then in the order A, B (R202, R127). -/
def flushObjs (core sched : Nat) (s : State) : State :=
  let xs := (mGet (s.coreAt core).scheds Sched.init sched).late
  if xs.isEmpty then s else
    let s1 := s.updCore core fun c => { c with scheds := mUpd c.scheds Sched.init sched fun x => { x with late := [] } }
    ((rangeFrom 0 4).flatMap fun k => xs.filter fun x => objClass x.op == k).foldl applyLate s1
/-- An op on an object at the block's scratchpad: it takes effect with those of the cycle's other bundle (R202). -/
def barxLocal (op : BarxOp) (d : Reg) (off : Nat) (v : Word) (s : State) : State :=
  let s1 := if barxArrives op then blockRelease s.cur.wk s else s
  let rd := !barxWrites op
  let x : LateObj := { wk := s.cur.wk, bk := s.cw.bk, off := off, op := op, val := v,
                       out := if rd then some (freshId s1) else none, hbs := if barxArrives op then s1.cw.hb else [] }
  let sc := mGet (s.coreAt s.cur.core).scheds Sched.init s.cur.sched
  let s2 := if rd then barxOut d (if v.getLsbD 0 then 0 else 1) none true s1 else barxDone op s1
  if sc.pendB.isNone && sc.late.isEmpty then applyLate s2 x else
    let s3 := s2.updCore s.cur.core fun c =>
      { c with scheds := mUpd c.scheds Sched.init s.cur.sched fun y => { y with late := y.late ++ [x] } }
    if sc.pendB.isSome then s3 else flushObjs s.cur.core s.cur.sched s3
/-- An op on a global object sets out toward the object's home (R203: an arrival is a release of pod scope). -/
def barxGlobal (op : BarxOp) (d : Reg) (x : LaneAcc) (v : Word) (s : State) : State :=
  let s1 := if barxArrives op then forceRelease s.cur.wk .p s else s
  let rd := !barxWrites op
  let q : ObjOp := { id := s1.mem.nextQ, wk := some s.cur.wk, out := if rd then some (freshId s1) else none,
                     attr := x.attr, dev := s.host.device, blkx := s.cb.x, part := s.cb.part, hbs := s1.cw.hb, va := x.va,
                     pa := x.pa, peer := x.peer, zero := x.zero, op := op, val := v }
  let s2 := s1.updMem fun m => { m with objq := m.objq ++ [q], nextQ := m.nextQ + 1 }
  if rd then barxOut d (if v.getLsbD 0 then 0 else 1) none true s2 else barxDone op s2
/-- BARX (R202): reserved fields, the rows of R183, .init's range, then the object. The DETAIL of .init's ENGINE is not stated (DESIGN CHOICE, log 3). -/
def execBarx (_sw : Bool) (op : BarxOp) (d a b : Reg) (s : State) : Res :=
  let rd := !barxWrites op
  .next (legalOr ((rd || d == 0) && (op != .arrive || b == 0)) s
    (operandsOr [⟨0, d, !rd || uniCode d⟩, ⟨1, a, uniCode a && evenCode a⟩, ⟨2, b, op == .arrive || uniCode b⟩] s (
      let v := if op = .arrive then 0 else s.usrc b
      let n := if localAlias (s.usrc64 a) then 16 else 32
      match uniformAcc (if rd then .read else .write) n n (s.usrc64 a) s with
      | (.error t, _) => t
      | (.ok (loc, x), s1) =>
        if op = .init ∧ (v = 0 ∨ v >>> 16 ≠ 0) then
          raiseBundle 0x11 ((Config.undefinedWord s1.tick).setWidth 17) s1.cur.pc s1.bump
        else if loc then barxLocal op d x.va v s1 else barxGlobal op d x v s1)))

/-! ### FENCE, DRAIN, ROINV (R204, R205) -/
/-- An ordering operation takes its place in the stream and performs when what stands before it has. -/
def issueOrder (k : State → State) (f : MemOp → MemOp) (s : State) : State :=
  let (wid, s1) := freshWid s
  let id := freshId s1
  performOp s.cur.wk id (k (pushOp (f (MemOp.blank id wid)) s1))
/-- FENCE (R204): imm7 1 is .acq, 2 .rel, 3 .acq_rel. -/
def execFence (_sw : Bool) (sc : Scope) (imm : BitVec 7) (s : State) : Res :=
  .next (legalOr (imm == 1 || imm == 2 || imm == 3) s (issueOrder done (fun o =>
    { o with fence := true, gate := if imm.getLsbD 1 then some (.begin sc) else none,
             acq := if imm.getLsbD 0 then some sc else none }) s))
/-- DRAIN (R204, R229): committing. -/
def execDrain (_sw : Bool) (sc : Scope) (s : State) : Res :=
  .next (issueOrder doneB (fun o => { o with fence := true, drain := true, gate := some (.begin sc) }) s)
/-- ROINV (R205). -/
def execRoinv (_sw : Bool) (s : State) : Res := .next (issueOrder done (fun o => { o with roinv := true }) s)

end Sys2Proof.Machine
end

