-- ==== Sys2Proof/Machine/Uniform.lean ====
section
/-! DEFINITION. The uniform pipe: GMOV, GALU, GALUI, GMOVL, GMOVH (R206), GRED (R207), GSET (R208). -/
namespace Sys2Proof.Machine

/-- The operations of R66; a shift count is the low 5 bits. -/
def galuVal (op : GaluOp) (x y : Word) : Word :=
  match op with
  | .add => x + y
  | .sub => x - y
  | .and => x &&& y
  | .or => x ||| y
  | .xor => x ^^^ y
  | .shl => x <<< (y.toNat % 32)
  | .shr => x >>> (y.toNat % 32)
  | .mul => x * y
/-- GMOV (R206). -/
def execGmov (_sw : Bool) (d a : Reg) (s : State) : Res :=
  .next (operandsOr [⟨0, d, uniCode d⟩, ⟨1, a, uniCode a⟩] s (writeUniform [a] d false (z64 (s.usrc a)) s))
/-- GALU (R206). -/
def execGalu (_sw : Bool) (op : GaluOp) (d a b : Reg) (s : State) : Res :=
  .next (operandsOr [⟨0, d, uniCode d⟩, ⟨1, a, uniCode a⟩, ⟨2, b, uniCode b⟩] s
    (writeUniform [a, b] d false (z64 (galuVal op (s.usrc a) (s.usrc b))) s))
/-- GALUI (R206, R60): the left operand is prior(d). -/
def execGalui (_sw : Bool) (op : GaluOp) (d : Reg) (imm : BitVec 14) (s : State) : Res :=
  .next (operandsOr [⟨0, d, uniCode d⟩] s
    (writeUniform [] d false (z64 (galuVal op (s.usrc d) (imm.setWidth 32))) s))
/-- GMOVL (R206). -/
def execGmovl (_sw : Bool) (d : Reg) (imm : BitVec 17) (s : State) : Res :=
  .next (operandsOr [⟨0, d, uniCode d⟩] s (writeUniform [] d false (z64 (imm.setWidth 32)) s))
/-- GMOVH (R206). -/
def execGmovh (_sw : Bool) (d : Reg) (imm : BitVec 17) (s : State) : Res :=
  .next (operandsOr [⟨0, d, uniCode d⟩] s (writeUniform [] d false (z64 (imm.setWidth 32 <<< 15)) s))
/-- GRED (R207): one contribution for each bundle, committing. -/
def execGred (_sw : Bool) (k : RedKind) (d a : Reg) (s : State) : Res :=
  .next (operandsOr [⟨0, d, gredTgt d⟩, ⟨1, a, uniCode a⟩] s
    (redBank k d [(lowLane s.cur.mask, z64 (s.usrc a))] s))
/-- GSET (R208): the predicate of every lane of the bundle. -/
def execGset (_sw : Bool) (c : Cond) (p : PredNo) (a b : Reg) (s : State) : Res :=
  .next (operandsOr [⟨1, a, uniCode a⟩, ⟨2, b, uniCode b⟩] s
    (writePred [a, b] p (s.perLane fun _ => condHolds c (s.usrc a) (s.usrc b)) 0 s))

end Sys2Proof.Machine
end

