-- ==== Sys2Proof/Machine/CtrlRegs.lean ====
section
/-! DEFINITION. Control registers (R209 to R214, R74, R58, R103, R137, R307), CLK (R215), FREE, REGGIVE and REGCLAIM
(R134, R136, R216). -/
namespace Sys2Proof.Machine

/-- The issue scheduler of the bundle. -/
def State.csched (s : State) : Sched := mGet (s.coreAt s.cur.core).scheds Sched.init s.cur.sched
/-- MODE (R103). -/
def modeWord (s : State) : Word :=
  (if coreDet s s.cur.core then 1 else 0) ||| (if s.cg.stream then 2 else 0) ||| (if s.cw.serial then 4 else 0) |||
    (if s.csched.strict then 8 else 0)
/-- QUOTA (R137). -/
def quotaWord (s : State) : Word :=
  BitVec.ofNat 32 (s.cw.limit.toNat + 128 * countBits s.cw.mapped + 16384 * s.cb.pool)
/-- MXGOV (R214). -/
def mxgovWord (s : State) : Word :=
  let q := s.quad s.cq
  BitVec.ofNat 32 (q.budget % 256 + 65536 * min q.stalled 0xFFFF)
/-- A control register as GETC reads it (R209) (R4). -/
def ctrlRead (s : State) (idx : Nat) : DWord :=
  let n (x : Nat) : DWord := BitVec.ofNat 64 x
  if idx = 0x00 then n s.cw.idx
  else if idx = 0x01 then n s.cb.x
  else if idx = 0x02 then n s.cb.y
  else if idx = 0x03 then n s.cb.z
  else if idx = 0x04 then n (s.cluster s.cb.ck).idx
  else if idx = 0x05 then n s.cb.gid
  else if idx = 0x06 then n s.cur.core
  else if idx = 0x07 then n s.cq
  else if idx = 0x08 then n s.host.device
  else if idx = 0x09 then s.cw.role.setWidth 64
  else if idx = 0x0A then s.cw.fpflags.setWidth 64
  else if idx = 0x0B then z64 s.cw.fault
  else if idx = 0x0C then s.cw.faddr
  else if idx = 0x0D then s.cw.retired &&& 0xFFFFFFFF
  else if idx = 0x0E then z64 (modeWord s)
  else if idx = 0x0F then z64 s.cb.bphase
  else if idx = 0x10 then z64 (s.cw.maskOf fun x => x.st != .vacant)
  else if idx = 0x11 then z64 (s.cw.maskOf fun x => x.st == .parkedFault)
  else if idx = 0x12 then n s.cb.part
  else if idx = 0x20 then z64 s.cb.ringBase
  else if idx = 0x21 then z64 s.cb.ringSize
  else if idx = 0x22 then z64 (quotaWord s)
  else if idx = 0x30 then z64 (mxgovWord s)
  else s.cw.frm.setWidth 64
/-- GETC (R209): FADDR takes a pair. -/
def execGetc (_sw : Bool) (d : Reg) (idx : BitVec 17) (s : State) : Res :=
  let pair := idx == 0x0C
  .next (legalOr (ctrlIndex idx) s
    (operandsOr [⟨0, d, uniCode d && (!pair || evenCode d)⟩] s (writeUniform [] d pair (ctrlRead s idx.toNat) s)))
/-- SETC of a read-only register: OPERAND (R68); every writable one has its own row. -/
def execSetc (_sw : Bool) (d : Reg) (idx : BitVec 17) (s : State) : Res :=
  .next (legalOr (ctrlIndex idx && !setcOwnRow idx) s (raiseOperand 0 d s))
/-- SETC ROLE (R210): privilege. -/
def execSetcRole (_sw : Bool) (d : Reg) (s : State) : Res :=
  .next (operandsOr [⟨0, d, uniCode d⟩] s
    (if s.cw.privileged then done (s.updCw fun w => { w with role := (s.usrc d).setWidth 8 }) else raisePriv s))
/-- SETC FPFLAGS (R74, R75): ones clear; a flag raised in the same cycle stays. -/
def execSetcFpflags (_sw : Bool) (d : Reg) (s : State) : Res :=
  .next (operandsOr [⟨0, d, uniCode d⟩] s
    (done (s.updCw fun w => { w with fpflags := (w.fpflags &&& ~~~ (s.usrc d).setWidth 5) ||| s.cur.flags })))
/-- SETC FRM (R58): 111 is stored as 000. -/
def execSetcFrm (_sw : Bool) (d : Reg) (s : State) : Res :=
  let v : BitVec 3 := (s.usrc d).setWidth 3
  .next (operandsOr [⟨0, d, uniCode d⟩] s (done (s.updCw fun w => { w with frm := if v = 7 then 0 else v })))
/-- Where a layout's rings end (DESIGN CHOICE, log 3). -/
def ringsEnd (base size : Word) : Nat := ringStart base size 8
/-- An accepted or refused write of RINGBASE or RINGSIZE (R213, R266). The FADDR of its BUFACC is not stated (DESIGN CHOICE, log 3). -/
def setRings (base size : Word) (s : State) : State :=
  if s.cb.copyBusy then raiseEngine 0x11 s.cur.pc s
  else if s.cb.spSize < ringsEnd base size ∧ size ≠ 0 then
    raiseBundle 0x0D 0 (z64 (Config.undefinedWord s.tick)) s.bump
  else done (layoutRings s.cw.bk base size s)
/-- SETC RINGBASE (R213). -/
def execSetcRingbase (_sw : Bool) (d : Reg) (s : State) : Res :=
  .next (operandsOr [⟨0, d, uniCode d⟩] s (setRings (s.usrc d &&& 0x3FFF0) s.cb.ringSize s))
/-- SETC RINGSIZE (R213). -/
def execSetcRingsize (_sw : Bool) (d : Reg) (s : State) : Res :=
  let v := s.usrc d
  let ok := (rangeFrom 0 8).all fun ch => ringLog v ch == 0 || (decide (3 ≤ ringLog v ch) && decide (ringLog v ch ≤ 8))
  .next (operandsOr [⟨0, d, uniCode d⟩] s
    (if ok then setRings s.cb.ringBase v s else raiseEngine 0x10 s.cur.pc s))

/-! ### Quota (R136, R137) -/
/-- REGGIVE n. -/
def giveRows (n : Nat) (s : State) : State :=
  if s.cw.limit.toNat < n then raiseQuota n s else
    let s1 := doneB (s.updCw fun w => { w with limit := w.limit - BitVec.ofNat 7 n })
    claimDeadlock s.cw.bk (givePool s.cw.bk n s1)
/-- REGCLAIM n; `wait` is false for a SETC of QUOTA, which faults instead of waiting. -/
def claimRows (n : Nat) (wait : Bool) (s : State) : State :=
  if 88 < s.cw.limit.toNat + n then raiseQuota n s
  else if n ≤ s.cb.pool then
    doneB ((s.updCb fun b => { b with pool := b.pool - n }).updCw fun w => { w with limit := w.limit + BitVec.ofNat 7 n })
  else if wait then claimDeadlock s.cw.bk (parkBundle (.regclaim n) s)
  else raiseQuota n s
/-- SETC QUOTA (R137). -/
def execSetcQuota (_sw : Bool) (d : Reg) (s : State) : Res :=
  let v := (s.usrc d).toNat % 128
  let lim := s.cw.limit.toNat
  .next (operandsOr [⟨0, d, uniCode d⟩] s
    (if 88 < v then raiseQuota (v - lim) s
     else if v < lim then giveRows (lim - v) s else claimRows (v - lim) false s))
/-- REGGIVE (R136, R216). -/
def execReggive (_sw : Bool) (n : BitVec 7) (s : State) : Res :=
  .next (legalOr (decide (n.toNat ≤ 88)) s (giveRows n.toNat s))
/-- REGCLAIM (R136, R216). -/
def execRegclaim (_sw : Bool) (n : BitVec 7) (s : State) : Res :=
  .next (legalOr (decide (n.toNat ≤ 88)) s (claimRows n.toNat true s))

/-! ### CLK and FREE -/
/-- CLK (R215, R261): the retired count in deterministic mode, the scheduler's local cycle count elsewhere; `cycle` counts
the cycles begun. -/
def execClk (_sw : Bool) (d : Reg) (s : State) : Res :=
  .next (operandsOr [⟨0, d, uniCode d && evenCode d⟩] s
    (writeUniform [] d true (if coreDet s s.cur.core then s.cw.retired else s.csched.cycle - 1) s))
/-- A register released in some lanes reads 0 there; its row returns once every lane reads 0 (R134). -/
def freeReg (m : Word) (c : Reg) (w : Warp) : Warp :=
  if c.toNat < 88 then
    let r := c.toNat
    let v := (maskLanes m).foldl (fun v l => mErase v (32 * r + l)) w.vregs
    let w1 := { w with vregs := v }
    if (rangeFrom 0 32).all fun l => w1.vreg r l == 0 then { w1 with mapped := w1.mapped &&& ~~~ (1#88 <<< r) } else w1
  else w
/-- FREE (R216). -/
def execFree (_sw : Bool) (d a b : Reg) (s : State) : Res :=
  .next (operandsOr [⟨0, d, freeCode d⟩, ⟨1, a, freeCode a⟩, ⟨2, b, freeCode b⟩] s
    (done (s.updCw fun w => freeReg s.cur.mask b (freeReg s.cur.mask a (freeReg s.cur.mask d w)))))

end Sys2Proof.Machine
end

