-- ==== Sys2Proof/Machine/CopyInstr.lean ====
section
/-! DEFINITION. CPWP, CPWAIT and CPSTAT (R279), with the acquires of R238. -/
namespace Sys2Proof.Machine

/-- A channel is idle: T = C, with no command parked or held (R279). -/
def Chan.idle (c : Chan) : Bool := c.cmds.isEmpty
/-- The pointer has reached a target (R267). -/
def Chan.reached (c : Chan) (target : Word) : Bool := decide ((c.wp - target).toNat < 2 ^ 31)
/-- The acquire below a write pointer (R238): local bytes at block scope, global ones at device scope (DEDUCED, log 17). -/
def copyAcquire (s : State) : State := acquireDrop s.cur.core .d s
/-- CPWP (R279). -/
def execCpwp (_sw : Bool) (ch : BitVec 3) (d : Reg) (s : State) : Res :=
  .next (operandsOr [⟨0, d, uniCode d⟩] s
    (outResult .plain false d false [(lowLane s.cur.mask, z64 (s.chan s.cw.bk ch.toNat).wp)]
      (Out.blank (freshId s) s.cur.mask d false) (copyAcquire s)))
/-- The completion of a CPWAIT. -/
def cpwaitDone (ch : Nat) (d : Reg) (s : State) : State :=
  writeNowResult .plain d false [(lowLane s.cur.mask, z64 (s.chan s.cw.bk ch).wp)] 0 (copyAcquire s)
/-- CPWAIT (R279): its result is never outstanding. -/
def execCpwait (_sw : Bool) (ch : BitVec 3) (d a : Reg) (s : State) : Res :=
  let c := s.chan s.cw.bk ch.toNat
  .next (operandsOr [⟨0, d, uniCode d⟩, ⟨1, a, uniCode a⟩] s
    (if c.idle || c.reached (s.usrc a) then cpwaitDone ch.toNat d s
     else parkBundle (.cpwait ch.toNat (s.usrc a) d) s))
/-- The second word of CPSTAT. -/
def chanStatus (c : Chan) : Word :=
  BitVec.ofNat 32 ((c.t - c.c).toNat % 512 + (if c.cmds.head?.any (·.parked) then 512 else 0) +
    (if c.cmds.head?.any (·.held.isSome) then 1024 else 0) + (if c.log2 = 0 then 0 else 2048))
/-- CPSTAT (R279). -/
def execCpstat (_sw : Bool) (ch : BitVec 3) (d : Reg) (s : State) : Res :=
  let c := s.chan s.cw.bk ch.toNat
  .next (operandsOr [⟨0, d, uniCode d && evenCode d⟩] s
    (outResult .plain false d true [(lowLane s.cur.mask, (chanStatus c ++ c.c : BitVec 64))]
      (Out.blank (freshId s) s.cur.mask d true) s))

/-! ### Parked CPWAITs -/
/-- One parked group whose CPWAIT may complete. -/
def tryCpwait (bk ch wk : Nat) (p : Park) (s : State) : State :=
  match p.why with
  | .cpwait c t d =>
    let x := s.chan bk ch
    if c = ch ∧ (x.idle || x.reached t) then takeUp wk p (cpwaitDone ch d) s else s
  | _ => s
/-- The CPWAITs of a block on a channel complete where they may, after the channel has changed. -/
def checkCpwaits (bk ch : Nat) (s : State) : State :=
  (blockWarps s bk).foldl (fun s kw => kw.2.parks.foldl (fun s p => tryCpwait bk ch kw.1 p s) s) s

end Sys2Proof.Machine
end

