-- ==== Sys2Proof/Machine/MatrixUnit.lean ====
section
/-! DEFINITION. The matrix engine: job cards and footprints (R296, R297, R302), latch banks (R283 to R285), admission,
reloads, passes and the governor (R286, R289 to R291, R303), arithmetic (R281, R298 to R300, R88), completion (R292). -/
namespace Sys2Proof.Machine

/-! ### The job card (R296) -/
def kKind (c : List Word) : Nat := bitsAt (recWord c 0) 0 8
def kPrio (c : List Word) : Nat := bitsAt (recWord c 0) 8 8
def kReload (c : List Word) : Bool := (recWord c 0).getLsbD 16
def kAcc (c : List Word) : Bool := (recWord c 0).getLsbD 17
def kAfmt (c : List Word) : Nat := bitsAt (recWord c 0) 18 3
def kWfmt (c : List Word) : Nat := bitsAt (recWord c 0) 21 3
def kWboff (c : List Word) : Nat := (recWord c 1).toNat
def kTag (c : List Word) : Word := recWord c 2
def kK (c : List Word) : Nat := bitsAt (recWord c 3) 0 16
def kN (c : List Word) : Nat := bitsAt (recWord c 3) 16 16
def kAboff (c : List Word) : Nat := (recWord c 4).toNat
def kM (c : List Word) : Nat := bitsAt (recWord c 5) 0 16
def kApitch (c : List Word) : Nat := bitsAt (recWord c 5) 16 16
def kCbslot (c : List Word) : Nat := (recWord c 6).toNat
def kCpitch (c : List Word) : Nat := bitsAt (recWord c 7) 0 16
def kAside (c : List Word) : Nat := (recWord c 8).toNat
def kWside (c : List Word) : Nat := (recWord c 9).toNat
def kSig (c : List Word) : Option Nat := if (recWord c 10).getLsbD 11 then some (bitsAt (recWord c 10) 0 11) else none
def kWait (c : List Word) : Option Nat := if (recWord c 11).getLsbD 11 then some (bitsAt (recWord c 11) 0 11) else none
/-- The reserved fields of a card. -/
def kReserved (c : List Word) : Bool :=
  bitsAt (recWord c 0) 24 8 != 0 || bitsAt (recWord c 7) 16 16 != 0 || bitsAt (recWord c 10) 12 20 != 0 ||
    bitsAt (recWord c 11) 12 20 != 0 || (rangeFrom 12 4).any fun i => recWord c i != 0
/-- The format of a code 0 to 4 (R282). -/
def fmtOf (n : Nat) : MxFmt :=
  if n = 0 then .f4x else if n = 1 then .e4m3 else if n = 2 then .e5m2 else if n = 3 then .bf16 else .int8
def kA (c : List Word) : MxFmt := fmtOf (kAfmt c)
def kW (c : List Word) : MxFmt := fmtOf (kWfmt c)
/-- B_k, the blocks of 32 along K. -/
def kBlocks (c : List Word) : Nat := (kK c + 31) / 32
/-- Side bytes of a block: S and X, S alone, or none (R300). -/
def sideBytes : MxFmt → Nat
  | .f4x => 2
  | .e4m3 | .e5m2 => 1
  | _ => 0

/-! ### Footprint and checks (R302, R297) -/
/-- A row's AB planes start here; its side bytes here. -/
def kRowOff (c : List Word) (m : Nat) : Nat := kAboff c + 32 * kApitch c * m
def kRowSide (c : List Word) (m : Nat) : Nat := kAside c + sideBytes (kA c) * kBlocks c * m
/-- The five regions: window, first and last byte + 1, written, and whether the job has it. -/
def kRegions (c : List Word) (reloads : Bool) : List (LSpace × Nat × Nat × Bool) :=
  let a := kA c
  let w := kW c
  let cb := (8 * kCbslot c, 8 * (kCbslot c + kCpitch c * (kM c - 1) + kN c))
  [(.ab, kAboff c, kAboff c + 32 * (kApitch c * (kM c - 1) + mxPlanes a), false)] ++
  (if sideBytes a = 0 then [] else [(.ab, kAside c, kAside c + sideBytes a * kBlocks c * kM c, false)]) ++
  (if reloads then [(.wb, kWboff c, kWboff c + 32 * mxPlanes w * kK c, false)] else []) ++
  (if reloads ∧ sideBytes w ≠ 0 then [(.wb, kWside c, kWside c + sideBytes w * kBlocks c * kN c, false)] else []) ++
  [(.cb, cb.1, cb.2, true)]
/-- The first row of R297 that holds, then R310's. -/
def kCheck (s : State) (b : Block) (c : List Word) : Option Nat :=
  if kKind c ≠ 0x10 then some 0x20
  else if kReserved c then some 0x21
  else if 5 ≤ kAfmt c ∨ 5 ≤ kWfmt c ∨ (kAfmt c = 4) ≠ (kWfmt c = 4) then some 0x22
  else if kK c = 0 ∨ 256 < kK c ∨ kN c = 0 ∨ 256 < kN c ∨ kM c = 0 then some 0x23
  else if kAboff c % 32 ≠ 0 ∨ kWboff c % 32 ≠ 0 ∨ (kAfmt c = 0 ∧ kAside c % 2 ≠ 0) ∨ (kWfmt c = 0 ∧ kWside c % 2 ≠ 0)
  then some 0x24
  else if 1 < kM c ∧ kCpitch c < kN c then some 0x25
  else if b.abSize = 0 ∨ b.wbSize = 0 ∨ b.cbSize = 0 then some 0x27
  else if (kRegions c true).any fun r => decide (b.windowSize r.1 < r.2.2.1) then some 0x26
  else if (kSig c).any (fun n => !ctrOwned s (quadOf b.core) n b.part) ||
      (kWait c).any (fun n => !ctrOwned s (quadOf b.core) n b.part) then some 0x41
  else none

/-! ### Arrival (R283, R284, R289, R305) -/
/-- A bank's record equals a job's values (R283). -/
def bankMatches (x : LatchBank) (b : Block) (c : List Word) : Bool :=
  x.valid && x.core == b.core && x.slot == b.slot && x.tag == kTag c && x.wfmt == kW c && x.wboff == kWboff c &&
    x.wside == kWside c && x.k == kK c && x.n == kN c
/-- The bank a job uses, and whether it reloads: a card that arrives again after a restore always does (R295). -/
def bankDecision (again : Bool) (x : Quad) (b : Block) (c : List Word) : Nat × Bool :=
  let hit := (rangeFrom 0 2).find? fun i => bankMatches (mGet x.banks LatchBank.init i) b c
  match (if again || kReload c || kTag c == 0 then none else hit) with
  | some i => (i, false)
  | none => (match x.lastBank with
      | some i => 1 - i
      | none => 0, true)
/-- The matrix jobs of a quad. -/
def Quad.mxJobs (x : Quad) : List (Job × MxJob) :=
  x.jobs.filterMap fun j => match j.kind with
    | .mx m => some (j, m)
    | _ => none
/-- The lowest free reservation entry (DESIGN CHOICE, log 18). -/
def freeEntry (x : Quad) : Option Nat :=
  (rangeFrom 0 64).find? fun e => !x.mxJobs.any fun jm => jm.2.entry == e
/-- A ticket (R305). -/
def ticketWord (q serial entry : Nat) : Word := BitVec.ofNat 32 (2 ^ 25 * q + 64 * (serial % 2 ^ 19) + entry)
/-- The record of a bank that a job reloads is set at once (R283). -/
def claimBank (b : Block) (c : List Word) (x : LatchBank) : LatchBank :=
  { x with valid := true, core := b.core, slot := b.slot, bk := b.bk, tag := kTag c, wfmt := kW c, wboff := kWboff c,
           wside := kWside c, k := kK c, n := kN c }
/-- THE JOB ARRIVES at the yard with its edges and its bank (R18, R283, R284). -/
def mxArrive (again : Bool) (b : Block) (c : List Word) (addr : DWord) (entry : Nat) (s : State) : State :=
  let q := quadOf b.core
  let x := s.quad q
  let (bank, reloads) := bankDecision again x b c
  let m : MxJob := { entry := entry, serial := x.arrived, card := c, addr := addr, bank := bank, reloads := reloads,
                     reloadLeft := 0, reloadDone := !reloads, granted := false, rows := 0, written := 0, wt := 0,
                     stalled := 0, failed := false }
  let regs := (kRegions c reloads).map (fun r => localRegion (jSpace r.1 b.core) b.slot r.2.1 r.2.2.1 r.2.2.2) ++
    [{ space := .bank bank, lo := 0, hi := 1, write := reloads }]
  let j : Job := { jid := 0, gid := b.gid, bk := b.bk, part := b.part, core := b.core, kind := .mx m, regions := regs,
                   edges := [], admitted := false, wait := kWait c, waitDone := waitOver s q (kWait c) }
  (addJob q j s).updQuad q fun x =>
    { x with arrived := x.arrived + 1, lastBank := some bank,
             banks := if reloads then mUpd x.banks LatchBank.init bank (claimBank b c) else x.banks }
/-- Change a matrix job. -/
def updMx (q jid : Nat) (f : MxJob → MxJob) (s : State) : State :=
  updJob q jid (fun j => match j.kind with
    | .mx m => { j with kind := .mx (f m) }
    | _ => j) s

/-! ### Elements (R299, R300) -/
/-- Bit k of plane p, from the planes of one row. -/
def planesBit (planes : List Byte) (p k : Nat) : Bool := (planes.getD (32 * p + k / 8) 0).getLsbD (k % 8)
/-- A value scaled by 2^(S - 127); S = 0xFF makes it a NaN (R77). -/
def scaleFV (sc : Nat) (v : FV) : FV :=
  if sc = 255 then .nan false else
    match v with
    | .fin b m e => .fin b m (e + ((sc : Int) - 127))
    | v => v
/-- The value of element k of a row of planes under its block's side bytes S and X (R299, R77, R79). -/
def elemFV (f : MxFmt) (planes : List Byte) (k sc x : Nat) : FV :=
  let (e, w, _) := mxShape f
  let bit (p : Nat) : Nat := if planesBit planes p k then 1 else 0
  let num (p n : Nat) : Nat := ((rangeFrom 0 n).map fun i => bit (p + i) * 2 ^ i).sum
  let neg := bit 0 == 1
  if f = .int8 then
    let v : Int := (num 1 7 : Int) - 128 * (bit 0 : Int)
    .fin (decide (v < 0)) v.natAbs 0
  else
    let ex := num 1 e
    let fr := num (1 + e) (w - 1)
    let sig := num (1 + e) w
    let bias := 2 ^ (e - 1) - 1
    let v : FV :=
      if f = .f4x ∧ neg ∧ ex = 0 ∧ fr = 0 then decodeF e4m3 x
      else if f = .e4m3 ∧ ex = 15 ∧ fr = 7 then .nan false
      else if (f = .e5m2 ∨ f = .bf16) ∧ ex = 2 ^ e - 1 then (if fr = 0 then .inf neg else .nan false)
      else .fin neg sig (((max ex 1 : Nat) : Int) - bias - (w - 1 : Nat))
    if sideBytes f = 0 then v else scaleFV sc v
/-- Side byte i of block j, from side bytes `n` to a block. -/
def sideAt (side : List Byte) (n j i : Nat) : Nat := (side.getD (n * j + i) 0).toNat
/-- The activations of a pass (R288). -/
def passRow (c : List Word) (p : Pass) : List FV :=
  let n := sideBytes (kA c)
  (rangeFrom 0 (kK c)).map fun k => elemFV (kA c) p.aRow k (sideAt p.aSide n (k / 32) 0) (sideAt p.aSide n (k / 32) 1)
/-- Weight w[k][n] of a latched bank. -/
def weightAt (c : List Word) (x : LatchBank) (k n : Nat) : FV :=
  let f := kW c
  let row := (x.planes.drop (32 * mxPlanes f * k)).take (32 * mxPlanes f)
  let blk := k / 32 * kN c + n
  elemFV f row n (sideAt x.side (sideBytes f) blk 0) (sideAt x.side (sideBytes f) blk 1)
/-- One slot: chunk after chunk of 32 products, each sum rounded once into XA48 (R281, R88). -/
def slotSum (c : List Word) (x : LatchBank) (row : List FV) (n : Nat) (acc : Nat) : Nat :=
  (rangeFrom 0 (kBlocks c)).foldl (fun acc b =>
    let ks := (rangeFrom (32 * b) (min 32 (kK c - 32 * b)))
    (dotF xa48 rne (ks.map fun k => (row.getD k (.nan false), weightAt c x k n)) [decodeF xa48 acc]).1) acc

/-! ### Errors (R294) -/
/-- The job runs on as failed, with one record. -/
def mxFail (q : Nat) (j : Job) (m : MxJob) (s : State) : State :=
  if m.failed then s else
    let slot := (s.block j.bk).slot
    postRecord (engineRecord 0x0C 1 2 j.gid 0 slot j.core m.addr.toNat (.mx q)) (updMx q j.jid (fun m => { m with failed := true }) s)
/-- Columns whose weights lie in bad bytes of WB. -/
def badColumns (s : State) (j : Job) (c : List Word) : List Nat :=
  let f := kW c
  (rangeFrom 0 (kN c)).filter fun n =>
    ((rangeFrom 0 (kK c)).any fun k => (rangeFrom 0 (mxPlanes f)).any fun p =>
      s.rel.sram.contains (.wb j.bk (kWboff c + 32 * mxPlanes f * k + 32 * p + n / 8))) ||
    ((rangeFrom 0 (kBlocks c)).any fun b =>
      sramBad s j.bk .wb (kWside c + sideBytes f * (b * kN c + n)) (sideBytes f))

/-- An uncorrectable error in the bytes of an AB row that hold its elements: those of k below K in each plane. -/
def badRow (s : State) (bk : Nat) (c : List Word) (m : Nat) : Bool :=
  (rangeFrom 0 (mxPlanes (kA c))).any fun p => sramBad s bk .ab (kRowOff c m + 32 * p) ((kK c + 7) / 8)

/-! ### Admission, reloads and passes -/
/-- The cycles of a reload (R303): it starts in the cycle after admission. -/
def reloadCycles (c : List Word) : Nat :=
  (32 * mxPlanes (kW c) * kK c + sideBytes (kW c) * kBlocks c * kN c + 1023) / 1024
/-- Edges and counter allow a job's admission (R18, R289). -/
def Job.admissible (j : Job) : Bool := !j.admitted && j.edges.isEmpty && (j.wait.isNone || j.waitDone)
/-- ADMISSION of a copy command or a matrix job. -/
def admitJob (q : Nat) (j : Job) (s : State) : State :=
  let s1 := updJob q j.jid (fun j => { j with admitted := true }) s
  match j.kind with
  | .mx m => if m.reloads then updMx q j.jid (fun m => { m with reloadLeft := reloadCycles m.card + 1 }) s1 else s1
  | _ => s1
/-- The reloads that are over: admitted jobs whose cycles have passed. -/
def dueReloads (x : Quad) : List (Job × MxJob) :=
  x.mxJobs.filter fun jm => jm.1.admitted && jm.2.reloads && !jm.2.reloadDone && jm.2.reloadLeft == 0
/-- A RELOAD latches the weights and their side bytes (R283, R303) (DEDUCED, log 8). -/
def doReload (q : Nat) (j : Job) (m : MxJob) (s : State) : State :=
  let c := m.card
  let wb := (s.block j.bk).wb
  let bad := badColumns s j c
  let s1 := s.updQuad q fun x => { x with banks := mUpd x.banks LatchBank.init m.bank fun y =>
    { y with planes := memReadBytes wb (kWboff c) (32 * mxPlanes (kW c) * kK c),
             side := memReadBytes wb (kWside c) (sideBytes (kW c) * kBlocks c * kN c), badCols := bad } }
  let s2 := updMx q j.jid (fun m => { m with reloadDone := true, granted := true }) s1
  if bad.isEmpty then s2 else mxFail q j m s2
/-- The jobs with a grantable pass (R289). -/
def grantable (x : Quad) : List (Job × MxJob) :=
  x.mxJobs.filter fun jm => jm.1.admitted && jm.2.reloadDone && decide (jm.2.rows < kM jm.2.card)
/-- The effective priority (R290). -/
def effPrio (m : MxJob) : Nat := min 255 (kPrio m.card + m.wt / 4096)
/-- The arbiter's choice: the highest effective priority, the first arrival among equals. -/
def arbitrate (x : Quad) : Option (Job × MxJob) :=
  (grantable x).foldl (fun best jm =>
    match best with
    | none => some jm
    | some b => if effPrio b.2 < effPrio jm.2 then some jm else best) none
/-- The array can take a row in this cycle. -/
def Quad.arrayFree (x : Quad) : Bool := decide (x.freeAt ≤ x.mxCycle)
/-- The governor's figure in force (R291). -/
def Quad.allowed (x : Quad) : Nat := min x.budget x.ceiling
/-- The cycles a row holds the array (R286). -/
def rowCycles (c : List Word) (row : List Byte) : Nat :=
  match kA c with
  | .f4x => if (rangeFrom 0 (kK c)).any fun k => planesBit row 0 k && !planesBit row 1 k && !planesBit row 2 k && !planesBit row 3 k
            then 2 else 1
  | .e4m3 | .e5m2 => 2
  | _ => 4
/-- A PASS IS GRANTED: the next row of the job enters the array (R290, R303). -/
def grantPass (q : Nat) (j : Job) (m : MxJob) (s : State) : State :=
  let c := m.card
  let ab := (s.block j.bk).ab
  let row := memReadBytes ab (kRowOff c m.rows) (32 * mxPlanes (kA c))
  let n := sideBytes (kA c) * kBlocks c
  let side := memReadBytes ab (kRowSide c m.rows) n
  let bad := badRow s j.bk c m.rows || sramBad s j.bk .ab (kRowSide c m.rows) n
  let cyc := rowCycles c row
  let s1 := s.updQuad q fun x =>
    { x with freeAt := x.mxCycle + cyc, grants := x.grants + 1, grantee := some j.jid,
             passes := x.passes ++ [{ jid := j.jid, row := m.rows, doneAt := x.mxCycle + cyc + 264, aRow := row,
                                      aSide := side, bad := bad, prior := none }] }
  updMx q j.jid (fun m => { m with rows := m.rows + 1, granted := true }) s1
/-- The pass that may be granted now. -/
def nextGrant (x : Quad) : Option (Job × MxJob) :=
  if x.arrayFree && decide (x.grants < x.allowed) then arbitrate x else none

/-! ### Writes and completion (R292, R303) -/
/-- JOB COMPLETION: the counter, the entry, the edges, in this order. -/
def completeMx (q : Nat) (j : Job) (m : MxJob) (s : State) : State :=
  let s1 := match kSig m.card with
    | some n => decrement q n 1 (if m.failed then .failed else .no) j.gid s
    | none => s
  let s2 := (removeJob q j.jid s1).updQuad q fun x =>
    { x with lastDone := mSet x.lastDone m.entry { bk := j.bk, serial := m.serial, failed := m.failed, bank := m.bank,
                                                   reloads := m.reloads } }
  blockEnd j.bk s2
/-- Where slot n of a pass lies in CB. -/
def slotOff (c : List Word) (row n : Nat) : Nat := 8 * (kCbslot c + kCpitch c * row + n)
/-- The slots that a pass accumulates on, and whether each has an uncorrectable error. -/
def readPrior (s : State) (j : Job) (m : MxJob) (p : Pass) : List (Nat × Bool) :=
  (rangeFrom 0 (kN m.card)).map fun n =>
    let off := slotOff m.card p.row n
    (leNat (memReadBytes (s.block j.bk).cb off 8) / 65536, sramBad s j.bk .cb off 8)
/-- The slots that a pass has read (R303). -/
def passPrior (s : State) (j : Job) (m : MxJob) (p : Pass) : List (Nat × Bool) := p.prior.getD (readPrior s j m p)
/-- The slots of a pass (DEDUCED, log 8). -/
def passSlots (s : State) (q : Nat) (j : Job) (m : MxJob) (p : Pass) : List (Nat × Nat × Bool) :=
  let c := m.card
  let x := mGet (s.quad q).banks LatchBank.init m.bank
  let row := passRow c p
  (rangeFrom 0 (kN c)).map fun n =>
    let old := (passPrior s j m p).getD n (0, false)
    let bad := p.bad || x.badCols.contains n || (kAcc c && old.2)
    (slotOff c p.row n, if bad then canonNan xa48 else slotSum c x row n (if kAcc c then old.1 else 0), bad)
/-- A PASS WRITES its slots (R281, R294, R303) (R293). -/
def writePass (q : Nat) (j : Job) (m : MxJob) (p : Pass) (s : State) : State :=
  let slots := passSlots s q j m p
  let s1 := s.updBlock j.bk fun b => { b with cb := slots.foldl (fun mem x => memWriteBytes mem x.1 (leBytes (x.2.1 * 65536) 8)) b.cb }
  let s2 := s1.updQuad q fun x => { x with passes := x.passes.filter (· != p) }
  let s3 := updMx q j.jid (fun m => { m with written := m.written + 1 }) s2
  let s4 := if slots.any (·.2.2) then mxFail q j m s3 else s3
  if m.written + 1 < kM m.card then s4 else
    completeMx q j { m with failed := m.failed || slots.any (·.2.2) } s4
/-- The matrix job of a number. -/
def mxJobAt (s : State) (q jid : Nat) : Option (Job × MxJob) := (s.quad q).mxJobs.find? fun jm => jm.1.jid == jid
/-- The pass whose write is due. -/
def duePass (x : Quad) : Option Pass := x.passes.find? fun p => decide (p.doneAt ≤ x.mxCycle)
/-- The due pass writes. -/
def passWrite (q : Nat) (p : Pass) (s : State) : State :=
  match mxJobAt s q p.jid with
  | some (j, m) => writePass q j m p s
  | none => s.updQuad q fun x => { x with passes := x.passes.filter (· != p) }

/-! ### The engine's local cycles (R290, R291) -/
/-- Rows that have left the array read the slots they accumulate on, in cycle g + c (R303). -/
def readSlots (q : Nat) (s : State) : State :=
  let read (p : Pass) : Pass :=
    if p.prior.isSome || decide ((s.quad q).mxCycle + 264 < p.doneAt) then p else
      match mxJobAt s q p.jid with
      | some (j, m) => if kAcc m.card then { p with prior := some (readPrior s j m p) } else p
      | none => p
  s.updQuad q fun x => { x with passes := x.passes.map read }
/-- What falls due in the current cycle happens before the next one begins: writes, reads of slots, reloads, a grant. -/
def mxDue (q : Nat) (s : State) : State :=
  let s1 := (s.quad q).passes.foldl (fun s p => if p.doneAt ≤ (s.quad q).mxCycle then passWrite q p s else s) s
  let s2 := (dueReloads (s1.quad q)).foldl (fun s jm => doReload q jm.1 jm.2 s) (readSlots q s1)
  match nextGrant (s2.quad q) with
  | some (j, m) => grantPass q j m s2
  | none => s2
/-- The counts of a cycle that ends: waiting (R290), withheld passes (R291), the cycles of running reloads. -/
def mxCount (x : Quad) : Quad :=
  let held := if x.arrayFree && decide (x.allowed ≤ x.grants) then (arbitrate x).map (·.1.jid) else none
  let ready := (grantable x).map (·.1.jid)
  let go (j : Job) : Job :=
    match j.kind with
    | .mx m =>
      let m1 := if ready.contains j.jid ∧ x.grantee ≠ some j.jid then { m with wt := m.wt + 1 } else m
      let m2 := if held = some j.jid then { m1 with stalled := min 0xFFFF (m1.stalled + 1) } else m1
      let m3 := if j.admitted ∧ 0 < m.reloadLeft then { m2 with reloadLeft := m.reloadLeft - 1, granted := true } else m2
      { j with kind := .mx m3 }
    | _ => j
  { x with jobs := x.jobs.map go, stalled := if held.isSome then min 0xFFFF (x.stalled + 1) else x.stalled }
/-- The next local cycle begins; at a multiple of 64 a new governor window does. -/
def mxNext (x : Quad) : Quad :=
  let c := x.mxCycle + 1
  { x with mxCycle := c, grantee := none, grants := if c % 64 = 0 then 0 else x.grants }
/-- n local cycles of a matrix engine. -/
def tickMx (q : Nat) : Nat → State → State
  | 0, s => s
  | n + 1, s => tickMx q n ((mxDue q s).updQuad q fun x => mxNext (mxCount x))

end Sys2Proof.Machine
end

