-- ==== Sys2Proof/Machine/MatrixInstr.lean ====
section
/-! DEFINITION. MXPOST and MXSTAT (R304 to R306) and the matrix engine's steps. -/
namespace Sys2Proof.Machine

/-! ### Posts (R181, R236) -/
/-- The n bytes of a record at a checked place: the scratchpad as performed, or the home through the engine port. -/
def readRecord (n : Nat) (loc : Bool) (x : LaneAcc) (s : State) : List Byte × State :=
  if loc then (memReadBytes s.cb.sp x.va n, s) else enginePiece x n none s
/-- A post reads the record of n bytes that its pair names, after every FENCE and DRAIN of the warp (R236); its alignment
stands first in its tables (DEDUCED, log 8). -/
def withRecord (n align : Nat) (a : Reg) (k : List Word → State → State) (s : State) : State :=
  let s0 := forceFences s.cur.wk s
  if (s.usrc64 a).toNat % align ≠ 0 then bundleAt 0x03 align (s.usrc64 a) s0 else
  match uniformAcc .read n align (s.usrc64 a) s0 with
  | (.error t, _) => t
  | (.ok (loc, x), s1) => let (bs, s2) := readRecord n loc x s1; k (leWords bs (n / 4)) s2
/-- The parked groups of a quad whose reason a test picks, the oldest warp's first; not those of pre-empted blocks. -/
def parksOn {α : Type} (s : State) (q : Nat) (f : ParkWhy → Option α) : List (Nat × Park × α) :=
  (aged s s.warps).flatMap fun kw =>
    if quadOf (s.block kw.2.bk).core = q ∧ !(s.block kw.2.bk).isStopped then kw.2.parks.filterMap fun p => (f p.why).map fun x => (kw.1, p, x) else []
/-- An outstanding one-word result of the bundle, after a committing instruction. -/
def outWordB (d : Reg) (v : Word) (s : State) : State :=
  outResult .commit false d false [(lowLane s.cur.mask, z64 v)] (Out.blank (freshId s) s.cur.mask d false) s
/-- An outstanding pair: low word and high word. -/
def outPair (d : Reg) (lo hi : Word) (s : State) : State :=
  outResult .plain false d true [(lowLane s.cur.mask, (hi ++ lo : BitVec 64))] (Out.blank (freshId s) s.cur.mask d true) s

/-! ### MXPOST (R304, R305) -/
/-- The job arrives in an entry and the ticket returns. -/
def mxTicket (card : List Word) (addr : DWord) (d : Reg) (entry : Nat) (s : State) : State :=
  outWordB d (ticketWord s.cq (s.quad s.cq).arrived entry) (mxArrive false s.cb card addr entry s)
/-- MXPOST (R304). -/
def execMxpost (_sw : Bool) (d a : Reg) (s : State) : Res :=
  .next (operandsOr [⟨0, d, warpOrZ d⟩, ⟨1, a, uniCode a && evenCode a⟩] s
    (withRecord 64 64 a (fun card s1 =>
      match kCheck s1 s1.cb card with
      | some n => raiseEngine n (s.usrc64 a) s1
      | none =>
        match freeEntry (s1.quad s1.cq) with
        | some e => mxTicket card (s.usrc64 a) d e s1
        | none => parkBundle (.mxEntry card (s.usrc64 a) d) s1) s))
/-- Saved cards of a restored block arrive in their order while entries are free (R253, step 3), and each reloads (R295). -/
def arriveCards (bk : Nat) : List (List Word × DWord) → State → State
  | [], s => s
  | c :: t, s =>
    match freeEntry (s.quad (quadOf (s.block bk).core)) with
    | some e => arriveCards bk t (mxArrive true (s.block bk) c.1 c.2 e (s.updBlock bk fun b => { b with cards := b.cards.drop 1 }))
    | none => s
/-- The blocks of a quad with saved cards that have not arrived again. -/
def cardsWaiting (s : State) (q : Nat) : List Nat :=
  (s.blocks.filter fun kb => quadOf kb.2.core == q && !kb.2.isStopped && !kb.2.cards.isEmpty).map (·.1)
/-- MX_ENTRY_FREE: an entry is free; a restored block's saved card arrives, or the oldest warp's waiting post (R289). -/
def mxEntryFree (q : Nat) (s : State) : State :=
  match cardsWaiting s q with
  | bk :: _ => arriveCards bk (s.block bk).cards s
  | [] =>
  match freeEntry (s.quad q), (parksOn s q fun w => match w with
    | .mxEntry c a d => some (c, a, d)
    | _ => none) with
  | some e, (wk, p, (c, a, d)) :: _ => takeUp wk p (mxTicket c a d e) s
  | _, _ => s
/-- MX_ENTRY_FREE. -/
def execMxEntryFree (quad : Nat) (s : State) : Res := .next (mxEntryFree quad s)

/-! ### MXSTAT (R306) -/
/-- The status pair of a ticket, and whether it reports the job complete. -/
def mxStatus (s : State) (t : Word) : Word × Word × Bool :=
  let q := s.cq
  let e := bitsAt t 0 6
  let ser := bitsAt t 6 19
  let word (st eff : Nat) (bank : Nat) (rel failed : Bool) : Word :=
    BitVec.ofNat 32 (st + (if failed then 4 else 0) + (if rel then 8 else 0) + 16 * bank + 256 * eff)
  if bitsAt t 25 7 ≠ q then (3, 0, false) else
    match (s.quad q).mxJobs.find? fun jm => jm.2.entry == e && jm.2.serial % 2 ^ 19 == ser with
    | some (j, m) =>
      (word (if j.admitted then 1 else 0) (if j.admitted then effPrio m else 0) m.bank m.reloads false,
        BitVec.ofNat 32 (65536 * m.stalled + m.rows), false)
    | none =>
      match mFind (s.quad q).lastDone e with
      | some x => if x.serial % 2 ^ 19 = ser then (word 2 0 x.bank x.reloads x.failed, 0, true) else (3, 0, false)
      | none => (3, 0, false)
/-- MXSTAT (R306): a report of completion is an acquire of device scope (R226). -/
def execMxstat (_sw : Bool) (d a : Reg) (s : State) : Res :=
  .next (operandsOr [⟨0, d, warpOrZ d && evenCode d⟩, ⟨1, a, uniCode a⟩] s
    (let (lo, hi, isDone) := mxStatus s (s.usrc a)
     outPair d lo hi (if isDone then acquireDrop s.cur.core .d s else s)))

/-! ### The engine's steps -/
/-- ADMISSION of a copy command or a matrix job whose edges and counter allow it (R18, R289, R236). -/
def execAdmission (quad jid : Nat) (s : State) : Res :=
  .next (match s.job quad jid with
    | some j => if j.admissible then (match j.kind with
        | .coll _ _ => s
        | _ => admitJob quad j s) else s
    | none => s)
/-- RELOAD (R283, R303): a reload whose cycles have passed. -/
def execReload (quad : Nat) (s : State) : Res :=
  .next (match (dueReloads (s.quad quad)).head? with
    | some (j, m) => doReload quad j m s
    | none => s)
/-- PASS_GRANT (R290, R291). -/
def execPassGrant (quad : Nat) (s : State) : Res :=
  .next (match nextGrant (s.quad quad) with
    | some (j, m) => grantPass quad j m s
    | none => s)
/-- PASS_WRITE (R303, R292). -/
def execPassWrite (quad : Nat) (s : State) : Res :=
  .next (match duePass (s.quad quad) with
    | some p => passWrite quad p s
    | none => s)
/-- GOVERNOR_WINDOW (R291): the engine's cycles pass up to the next multiple of 64, where a window begins. -/
def execGovernorWindow (quad : Nat) (s : State) : Res := .next (tickMx quad (64 - (s.quad quad).mxCycle % 64) s)

end Sys2Proof.Machine
end

