-- ==== Sys2Proof/Machine/Select.lean ====
section
/-! DEFINITION. Issue: instruction fetch, switch markers (R48), keys and bundles (R104 to R110), the timetable and the
oldest-first choice (R97 to R100), turns in deterministic mode and the catch-up of a restored block (R114, R115, R260,
R262, R263). -/
namespace Sys2Proof.Machine

/-! ### Fetch -/
/-- The word at an instruction's address (R182, R364), read at its home (R370) (DEDUCED, log 15). -/
def fetchWord (core part : Nat) (pc : DWord) (s : State) : Except MemFault Word × State :=
  match translate (some core) part .fetch 0 pc.toNat s with
  | (.error f, s1) => (.error f, s1)
  | (.ok a, s1) =>
    if (rangeFrom a.pa 4).any s1.mem.ecc.contains then (.error ⟨0x0C, 0⟩, s1)
    else (.ok (leWord ((rangeFrom a.pa 4).map (s1.mem.byteUnder (s1.mem.keyOf a.attr.key)))),
      s1.updMem fun m => m.countRead (a.pa / 1024))
/-- The word that a group would fetch; 0 where the fetch would fault (DEDUCED, log 35). -/
def peekWord (core part : Nat) (pc : DWord) (s : State) : Word :=
  match (fetchWord core part pc s).1 with
  | .ok w => w
  | .error _ => 0
/-- The memory class (R67): lane opcodes 0x38 to 0x3F, WAITM, FENCE, DRAIN and ROINV (R178). -/
def memClass (w : Word) : Bool :=
  let op := bitsAt w 24 6
  if w.getLsbD 31 then op == 0x0D || op == 0x12 || op == 0x13 || op == 0x14 else decide (0x38 ≤ op)
/-- A group stands at a switch marker with a result of its lanes, or of its warp's wider registers, outstanding (R48). -/
def markerBlocked (w : Warp) (mask word : Word) : Bool :=
  word.getLsbD 30 && w.outs.any fun o => o.wide || o.mask &&& mask != 0

/-! ### Keys and bundles (R104 to R106, R109, R110) -/
/-- The key (yield, 63 - depth, PC) as one number. -/
def laneKey (x : Lane) : Nat := (if x.yld then 2 ^ 70 else 0) + (63 - x.depth.toNat) * 2 ^ 64 + x.pc.toNat
/-- The lanes parked at an instruction. -/
def Warp.parkedMask (w : Warp) : Word := w.parks.foldl (fun m p => m ||| p.mask) 0
/-- Some lanes by key, lowest key first. -/
def Warp.byKey (w : Warp) (p : Nat → Lane → Bool) : Map Word :=
  (rangeFrom 0 32).foldl (fun m l =>
    if p l (w.lane l) then mUpd m 0 (laneKey (w.lane l)) (fun x => x ||| laneBit l) else m) []
/-- The eligible lanes by key (R104). -/
def Warp.groups (w : Warp) : Map Word :=
  let parked := w.parkedMask
  w.byKey fun l x => x.st == .active && !parked.getLsbD l
/-- Before a selection: yield bits clear when every active lane is yielded (R109); serial mode is entered at 9 keys and
left at 4 (R110). -/
def prepSel (w : Warp) : Warp :=
  let act := w.lanes.filter fun x => x.st == .active
  let w1 := if act.all (·.yld) then { w with lanes := w.lanes.map fun x => { x with yld := false } } else w
  let n := (w1.byKey fun _ x => x.st == .active).length
  { w1 with serial := if w1.serial then decide (4 < n) else decide (9 ≤ n) }
/-- The address of a group. -/
def groupPc (w : Warp) (m : Word) : DWord := (w.lane (lowLane m)).pc
/-- The groups in the order in which they are selected: single lanes in serial mode. -/
def orderedGroups (w : Warp) : List Word :=
  if w.serial then w.groups.flatMap fun km => (maskLanes km.2).map laneBit else w.groups.map (·.2)
/-- A and B of a warp, when A may issue. Groups at a marker are passed by, but not in deterministic mode (R108, R114). -/
def bundlesOf (s : State) (w : Warp) (det : Bool) : Option (Word × Option Word) :=
  let b := s.block w.bk
  let word (m : Word) : Word := peekWord b.core b.part (groupPc w m) s
  let free (m : Word) : Bool := w.outs.isEmpty || !markerBlocked w m (word m)
  let gs := if det then (match orderedGroups w with
      | [] => []
      | a :: t => if free a then a :: ((t.take 1).filter free) else [])
    else (orderedGroups w).filter free
  match gs with
  | [] => none
  | [a] => some (a, none)
  | a :: c :: _ => if w.serial || (memClass (word a) && memClass (word c)) then some (a, none) else some (a, some c)

/-! ### The timetable (R97 to R100) -/
/-- What a cycle of a scheduler issues. -/
structure Pick where
  wk : Nat
  a : Word
  b : Option Word
/-- The warps and waves on a scheduler, oldest first (R95, R99). -/
def schedWarps (s : State) (core sched : Nat) : List (Nat × Warp) :=
  aged s (s.warps.filter fun kw => kw.2.idx % 2 == sched && (s.block kw.2.bk).core == core)
/-- A scheduler of a core. -/
def State.schedAt (s : State) (core sched : Nat) : Sched := mGet (s.coreAt core).scheds Sched.init sched
/-- Change a scheduler. -/
def updSched (core sched : Nat) (f : Sched → Sched) (s : State) : State :=
  s.updCore core fun c => { c with scheds := mUpd c.scheds Sched.init sched f }
/-- One local cycle of a scheduler passes. -/
def schedTick (core sched : Nat) (s : State) : State := updSched core sched (fun x => { x with cycle := x.cycle + 1 }) s
/-- The partition of table entry i. -/
def entryPart (x : Sched) (i : Nat) : Nat := (mGet x.table 0 (i % 64)).toNat % 8
/-- The ready warps with their bundles. -/
def readyWarps (s : State) (core sched : Nat) : List (Nat × Nat × Pick) :=
  (schedWarps s core sched).filterMap fun kw =>
    let w := prepSel kw.2
    let b := s.block w.bk
    if w.retiredW || b.stop != .run || !w.claims.isEmpty then none else
      (bundlesOf s w false).map fun ab => (b.part, w.passed, { wk := kw.1, a := ab.1, b := ab.2 })
/-- The partition that a cycle goes to (R98). -/
def cyclePart (x : Sched) (ready : Nat → Bool) : Option Nat :=
  let i := x.cycle.toNat % 64
  if ready (entryPart x i) then some (entryPart x i)
  else if (mGet x.table 0 i).getLsbD 3 && !x.strict then
    ((rangeFrom (i + 1) 63).map (entryPart x)).find? ready
  else none
/-- A picked warp takes the state of its selection. -/
def takePick (p : Pick) (s : State) : State := s.updWarp p.wk prepSel
/-- The pass-over counts after a cycle (R99): 0 for the warp that issues and for a warp that is not ready; one more for a
ready warp of the partition that the cycle was given to. `got` is that partition and the warp. -/
def passOver (core sched : Nat) (got : Option (Nat × Nat)) (ready : List Nat) (s : State) : State :=
  (schedWarps s core sched).foldl (fun s kw =>
    let count (n : Nat) : Nat :=
      if !ready.contains kw.1 || got.any (fun g => g.2 == kw.1) then 0
      else if got.any fun g => g.1 == (s.block kw.2.bk).part then n + 1 else n
    s.updWarp kw.1 fun w => { w with passed := count w.passed }) s
/-- THE CHOICE of a cycle outside deterministic mode (R98, R99). -/
def selectOldest (core sched : Nat) (s : State) : Option Pick × State :=
  let ready := readyWarps s core sched
  let wks := ready.map fun r => r.2.2.wk
  match cyclePart (s.schedAt core sched) fun p => ready.any fun r => r.1 == p with
  | none => (none, passOver core sched none wks s)
  | some part =>
    let mine := ready.filter fun r => r.1 == part
    match (mine.find? fun r => decide (31 ≤ r.2.1)).or mine.head? with
    | none => (none, passOver core sched none wks s)
    | some (_, _, p) => (some p, takePick p (passOver core sched (some (part, p.wk)) wks s))

/-! ### Turns (R114, R115) -/
/-- A warp at the turn pointer: what its cycle brings. -/
inductive TurnRes where
  | issue (p : Pick)
  | hold
  | pass
/-- A wait at which the pointer moves on (R114, third row). A wait for a bank's acceptance or for a compare (R123) stands in
no row: the pointer stays (DESIGN CHOICE, log 12). -/
def ParkWhy.passes : ParkWhy → Bool
  | .bar _ | .waitm _ _ _ _ => true
  | _ => false
/-- The lanes that do not wait at a BAR or in a WAITM, and those parked-fault, by key: the lowest decides R114's row. -/
def Warp.standing (w : Warp) : Map Word :=
  let waits := (w.parks.filter fun p => p.why.passes).foldl (fun m p => m ||| p.mask) (0 : Word)
  w.byKey fun l x => x.st == .parkedFault || (x.st == .active && !waits.getLsbD l)
/-- The lowest-keyed group of a warp is parked-fault. -/
def Warp.lowFault (w : Warp) : Bool :=
  match w.standing with
  | [] => false
  | (k, _) :: _ => !(w.groups.any fun g => g.1 == k) &&
      w.lanes.any fun x => x.st == .parkedFault && laneKey x == k
/-- The outcome of R114 for a warp; one that waits in a REGCLAIM is excluded as a whole (R136, R216). -/
def turnOf (s : State) (wk : Nat) : TurnRes :=
  let w := prepSel (s.warp wk)
  let b := s.block w.bk
  if w.retiredW || b.isStopped || !w.claims.isEmpty then .pass else
    match w.standing with
    | [] => .pass
    | (k, _) :: _ =>
      match w.groups with
      | [] => .hold
      | (k', _) :: _ =>
        if k' ≠ k then .hold else
          match bundlesOf s w true with
          | none => .hold
          | some (a, c) => .issue { wk := wk, a := a, b := c }
/-- A partition's warps on a scheduler with their places, in order of block slot and then WARPIDX; retired ones keep their
place (R260). -/
def rotation (s : State) (core sched part : Nat) : Map Nat :=
  (schedWarps s core sched).foldl (fun (m : Map Nat) kw =>
    let b := s.block kw.2.bk
    if b.part = part then mSet m (32 * b.slot + kw.2.idx) kw.1 else m) []
/-- A rotation from a place on, wrapping round. -/
def fromPlace (order : Map Nat) (at_ : Nat) : Map Nat :=
  (order.filter fun x => decide (at_ ≤ x.1)) ++ order.filter fun x => decide (x.1 < at_)
/-- The place of a warp in a rotation. -/
def placeOf (order : Map Nat) (wk : Nat) : Nat := ((order.find? fun x => x.2 == wk).map (·.1)).getD 0
/-- The warps of a partition from a scheduler's turn pointer on. -/
def turnLine (s : State) (core sched part : Nat) : List Nat :=
  (fromPlace (rotation s core sched part) (mGet (s.schedAt core sched).turn 0 part)).map (·.2)
/-- The turn of a scheduler ends: the pointer goes past a warp. -/
def endTurn (core sched part wk : Nat) (s : State) : State :=
  let order := rotation s core sched part
  let next := (((fromPlace order (placeOf order wk)).map (·.1)).drop 1).headD (placeOf order wk)
  updSched core sched (fun x => { x with turn := mSet x.turn part next, ended := part :: x.ended.filter (· != part) }) s
/-- The partition that owns a cycle under a strict table. -/
def ownerPart (x : Sched) : Nat := entryPart x (x.cycle.toNat % 64)
/-- A pre-emption of a partition's block on the core waits for the end of the turn (R262). -/
def stopAsked (s : State) (core part : Nat) : Bool := s.blocks.any fun kb =>
  kb.2.core == core && kb.2.part == part && match kb.2.stop with
    | .asked _ _ _ _ => true
    | _ => false
/-- The card of a job that is neither a copy command nor granted, with its address. -/
def ungranted (j : Job) : Option (List Word × DWord) :=
  match j.kind with
  | .mx m => if m.granted then none else some (m.card, m.addr)
  | _ => none
/-- A BLOCK STOPS (R248, step 1): none of its bundles issues any more; its ungranted matrix jobs leave the yard with
their cards kept (R295), its latch records become invalid (R285), and warps held at a barrier stand behind their BAR
(DEDUCED, log 23). -/
def stopBlock (bk area parea : Nat) (s : State) : State :=
  let q := quadOf (s.block bk).core
  let mine := (s.quad q).jobs.filter fun j => j.bk == bk && (ungranted j).isSome
  let s1 := s.updBlock bk fun b => { b with stop := .stopped area parea, cards := mine.filterMap ungranted ++ b.cards }
  let s2 := invalidateBanks q (fun x => x.bk == bk) (mine.foldl (fun s j => removeJob q j.jid s) s1)
  let s3 := parkHeaders bk s2
  s3.setWarps (s3.warps.map fun kw => if kw.2.bk = bk then (kw.1, barBoundary true (barBoundary false kw.2)) else kw)
/-- The pre-emptions asked for of a partition's blocks on a core take effect. -/
def stopNow (core part : Nat) (s : State) : State :=
  (s.blocks.filter fun kb => kb.2.core == core && kb.2.part == part).foldl (fun s kb =>
    match kb.2.stop with
    | .asked a p _ _ => stopBlock kb.1 a p s
    | _ => s) s
/-- A scheduler's turn of a partition is open again. -/
def reopen (core part : Nat) (s : State) : State :=
  (rangeFrom 0 2).foldl (fun s i => updSched core i (fun x => { x with ended := x.ended.filter (· != part) }) s) s
/-- A new turn of a partition starts on both schedulers; claims that the last turn's gifts meet are released (R115). -/
def newTurn (core part : Nat) (s : State) : State :=
  ((reopen core part s).blocks.filter fun kb => kb.2.core == core && kb.2.part == part).foldl
    (fun s kb => retryClaims kb.1 s) (reopen core part s)
/-- A scheduler has ended its turn of a partition, or has no warp of it, which does not hold the other back (R115). -/
def turnDone (s : State) (core sched part : Nat) : Bool :=
  (s.schedAt core sched).ended.contains part || (rotation s core sched part).isEmpty
/-- Both schedulers of a core stand between two turns of a partition, or the core is not in deterministic mode. -/
def betweenTurns (s : State) (core part : Nat) : Bool :=
  !coreDet s core || (turnDone s core 0 part && turnDone s core 1 part) ||
    !((s.schedAt core 0).ended.contains part || (s.schedAt core 1).ended.contains part)
/-- The key under which a block's catch-up holds the saved TURN warp of a scheduler. -/
def turnKey (sched : Nat) : Nat := 100 + sched
/-- A warp of a restored block has caught up, or is passed over: held at a BAR, a JOIN or a WAITM, or parked-fault (R263). -/
def caughtUp (s : State) (wk : Nat) : Bool :=
  let w := prepSel (s.warp wk)
  match mFind (s.block w.bk).catchUp w.idx with
  | none => true
  | some n => w.retiredW || decide (n.toNat ≤ w.retired.toNat) || w.standing.isEmpty || w.lowFault
/-- A partition's blocks on a core that catch up. -/
def catching (s : State) (core part : Nat) : List (Nat × Block) :=
  s.blocks.filter fun kb => kb.2.core == core && kb.2.part == part && !kb.2.catchUp.isEmpty
/-- The catch-up of a partition's blocks is over: ordinary turns resume with the pointers at TURN. -/
def endCatchUp (core part : Nat) (s : State) : State :=
  let s1 := (catching s core part).foldl (fun s kb =>
    (rangeFrom 0 2).foldl (fun s i =>
      match mFind kb.2.catchUp (turnKey i) with
      | some t => updSched core i (fun x => { x with turn := mSet x.turn part (32 * kb.2.slot + t.toNat) }) s
      | none => s) s) (reopen core part s)
  s1.setBlocks (s1.blocks.map fun kb => if kb.2.core = core ∧ kb.2.part = part then (kb.1, { kb.2 with catchUp := [] }) else kb)
/-- A turn's cycle for the warp at the pointer. -/
def runTurn (core sched part wk : Nat) (s : State) : Option Pick × State :=
  match turnOf s wk with
  | .issue p => (some p, takePick p (endTurn core sched part wk s))
  | .hold => (none, s)
  | .pass => (none, endTurn core sched part wk s)
/-- The warp that a scheduler's turn of a partition goes to: in a catch-up the first that has not caught up. -/
def turnWarp (s : State) (core sched part : Nat) : Option Nat :=
  if (catching s core part).isEmpty then (turnLine s core sched part).head?
  else (turnLine s core sched part).find? fun wk => !caughtUp s wk
/-- A turn issues an instruction of the memory class. -/
def TurnRes.memory (s : State) : TurnRes → Bool
  | .issue p =>
    let w := s.warp p.wk
    let word (m : Word) : Word := peekWord (s.block w.bk).core (s.block w.bk).part (groupPc w m) s
    memClass (word p.a) || p.b.any fun m => memClass (word m)
  | _ => false
/-- Scheduler 1 waits while scheduler 0 has its turn to take: where scheduler 0 can take it now, and, as memory instructions
of one turn are ordered scheduler 0 first, where scheduler 1 would issue one (R115) (DEDUCED, log 35). -/
def waitsForFirst (s : State) (core sched part : Nat) : Bool :=
  decide (sched = 1) && !turnDone s core 0 part &&
    match turnWarp s core 0 part, turnWarp s core 1 part with
    | some w0, some w1 => (match turnOf s w0 with
      | .hold => (turnOf s w1).memory s
      | _ => true)
    | _, _ => false
/-- THE CHOICE of a cycle in deterministic mode, for the partition that owns it (R114, R115, R262, R263). -/
def selectTurn (core sched : Nat) (s : State) : Option Pick × State :=
  let part := ownerPart (s.schedAt core sched)
  let both := turnDone s core 0 part && turnDone s core 1 part
  if (rotation s core sched part).isEmpty then (none, s)
  else if both && stopAsked s core part then (none, stopNow core part s)
  else if !both && turnDone s core sched part then (none, s)
  else
    let s1 := if both then newTurn core part s else s
    if waitsForFirst s1 core sched part then (none, s1)
    else match turnWarp s1 core sched part with
      | some wk => runTurn core sched part wk s1
      | none =>
        if ((rotation s1 core (1 - sched) part).map (·.2)).all (caughtUp s1) then (none, endCatchUp core part s1)
        else (none, updSched core sched (fun x => { x with ended := part :: x.ended }) s1)

/-- One local cycle of a scheduler: what it issues. -/
def selectCycle (core sched : Nat) (s : State) : Option Pick × State :=
  let (p, s1) := if coreDet s core then selectTurn core sched s else selectOldest core sched s
  (p, schedTick core sched s1)

/-! ### The bundle that issues -/
/-- Register codes that a word may name, with their pairs. -/
def namedCodes (w : Word) : List Nat :=
  [bitsAt w 14 7, bitsAt w 7 7, bitsAt w 0 7].flatMap fun c => [c, c + 1]
/-- Results that the word may read take no later bytes (R50). -/
def markSeen (w : Word) (x : Warp) : Warp :=
  let cs := namedCodes w
  { x with outs := x.outs.map fun o =>
      if cs.contains o.dest.toNat || (o.pair && cs.contains (o.dest.toNat + 1)) then { o with seen := true } else o }
/-- The instruction a word stands for: an ill-formed one is ILLEGAL (R68). -/
def wordInstr (w : Word) : Instr :=
  match decodeWord w with
  | .ok i => if wellFormed i then i else .illegal w
  | .error _ => .illegal w
/-- The bundle becomes the one being executed. FPFLAGS raised by A stay in `flags` for B of the same cycle (R75). -/
def setBundle (core sched wk : Nat) (mask : Word) (isB : Bool) (pc : DWord) (w : Word) (s : State) : State :=
  let c : Cur := { core := core, sched := sched, wk := wk, mask := mask, pc := pc, word := w, isB := isB, faulted := 0,
                   flags := if isB then s.cur.flags else 0 }
  (s.setCur c).bump
/-- FETCH for a bundle: its instruction, or none after a fetch fault (R182). -/
def fetchBundle (core sched wk : Nat) (mask : Word) (isB : Bool) (s : State) : Option Instr × State :=
  let w := s.warp wk
  let pc := groupPc w mask
  match fetchWord core (s.block w.bk).part pc s with
  | (.error f, s1) => (none, raiseBundle f.code (BitVec.ofNat 17 f.detail) pc (setBundle core sched wk mask isB pc 0 s1))
  | (.ok x, s1) => (some (wordInstr x), (setBundle core sched wk mask isB pc x s1).updWarp wk (markSeen x))
/-- Bundle B of the cycle waits for A's issue. -/
def setPendB (core sched : Nat) (b : Option (Nat × Word)) (s : State) : State :=
  updSched core sched (fun x => { x with pendB := b }) s
/-- Bundle B of the cycle whose A has just issued. -/
def pendingB (s : State) : Option (Nat × Word) := (s.schedAt s.cur.core s.cur.sched).pendB

/-! ### Which scheduler is next (DESIGN CHOICE, log 1) -/
/-- The schedulers that hold warps, as 2·core + scheduler. -/
def busyScheds (s : State) : List Nat :=
  (s.blocks.filter fun kb => kb.2.stop == .run || coreDet s kb.2.core).flatMap fun kb => [2 * kb.2.core, 2 * kb.2.core + 1]
/-- The next busy scheduler in rotation. -/
def nextBusy (s : State) : Option Nat :=
  let l := busyScheds s
  match (l.filter fun k => decide (s.nextSched ≤ k)).min? with
  | some k => some k
  | none => l.min?

end Sys2Proof.Machine
end

