-- ==== Sys2Proof/Machine/TaskInstr.lean ====
section
/-! DEFINITION. The yard's instructions TKPOST, TKSIG, TKJOIN, TKREAD and WDQ (R331 to R335), the pending pool (R312),
REFILL answers and waves (R112, R313, R314). -/
namespace Sys2Proof.Machine

/-! ### Counter operands (R331) -/
/-- A counter id register: bits [31:11] are 0, and the poster's partition owns the counter. -/
def withCtr (s : State) (c : Word) (k : Nat → State) : State :=
  if 2048 ≤ c.toNat then raiseEngine 0x45 s.cur.pc s
  else if !ctrOwned s s.cq c.toNat s.cb.part then raiseEngine 0x41 s.cur.pc s
  else k c.toNat

/-! ### TKPOST (R312, R332) -/
/-- The lowest free pool entry (DESIGN CHOICE, log 18). -/
def freeSlot (x : Quad) : Option Nat := (rangeFrom 0 512).find? fun e => !x.tasks.any fun t => t.slot == e
/-- A task's id (R312). -/
def taskIdWord (q entered slot : Nat) : Word := BitVec.ofNat 32 (2 ^ 25 * q + 512 * (entered % 65536) + slot)
/-- A task enters the pool, ready at once where its counter lets it (R311). -/
def addTask (q : Nat) (b : Block) (role : Byte) (r : List Word) (slot : Nat) (s : State) : State :=
  let atOnce := waitOver s q (taskWait r)
  s.updQuad q fun x =>
    let t : Task := { slot := slot, id := taskIdWord q x.entered slot, gid := b.gid, bk := b.bk, part := b.part,
                      record := r, role := role, ready := if atOnce then some (readyAt x.yardCycle slot) else none,
                      wave := none }
    { x with tasks := x.tasks ++ [t], entered := x.entered + 1 }
/-- The post completes with the task's id. -/
def taskEnter (r : List Word) (d : Reg) (slot : Nat) (s : State) : State :=
  outWordB d (taskIdWord s.cq (s.quad s.cq).entered slot) (addTask s.cq s.cb s.cw.role r slot s)
/-- The checks of R332, in order (DEDUCED, log 24). -/
def taskCheck (s : State) (r : List Word) : Option Nat :=
  if bitsAt (recWord r 0) 0 2 ≠ 0 ∨ bitsAt (recWord r 1) 23 9 ≠ 0 then some 0x40
  else if bitsAt (recWord r 2) 24 8 ≠ 0 then some 0x43
  else if (taskJoin r).any (fun n => !ctrOwned s s.cq n s.cb.part) || (taskWait r).any (fun n => !ctrOwned s s.cq n s.cb.part)
  then some 0x41 else none
/-- TKPOST (R332). -/
def execTkpost (_sw : Bool) (d a : Reg) (s : State) : Res :=
  .next (operandsOr [⟨0, d, warpOrZ d⟩, ⟨1, a, uniCode a && evenCode a⟩] s
    (withRecord 32 32 a (fun r s1 =>
      match taskCheck s1 r with
      | some n => raiseEngine n s1.cur.pc s1
      | none =>
        match freeSlot (s1.quad s1.cq) with
        | some e => taskEnter r d e s1
        | none => parkBundle (.poolEntry r d) s1) s))
/-- POOL_ENTRY_FREE: the oldest warp's waiting post enters its task (R312). -/
def poolEntryFree (q : Nat) (s : State) : State :=
  match freeSlot (s.quad q), (parksOn s q fun w => match w with
    | .poolEntry r d => some (r, d)
    | _ => none) with
  | some e, (wk, p, (r, d)) :: _ => takeUp wk p (taskEnter r d e) s
  | _, _ => s
/-- POOL_ENTRY_FREE. -/
def execPoolEntryFree (quad : Nat) (s : State) : Res := .next (poolEntryFree quad s)

/-! ### TKSIG (R333) -/
/-- The place of the executing bundle in the order of R127: CORE, then scheduler, then bundle. -/
def bundleOrder (s : State) : Nat := 4 * s.cur.core + 2 * s.cur.sched + if s.cur.isB then 1 else 0
/-- A device-scope release, then the event of R309. -/
def signalCtr (set : Bool) (c : Nat) (v : Word) (s : State) : State :=
  let s1 := forceRelease s.cur.wk .d s
  let s2 := ctrRelease s.cq c s1.cw.hb s1
  doneB (if set then setCtr s.cq c v (bundleOrder s) s2 else decrement s.cq c v.toNat .no s.cb.gid s2)
/-- TKSIG (R333). -/
def execTksig (_sw set : Bool) (a b : Reg) (s : State) : Res :=
  .next (operandsOr [⟨1, a, uniCode a⟩, ⟨2, b, uniCode b⟩] s
    (withCtr s (s.usrc a) fun c =>
      if !set ∧ (s.usrc b = 0 ∨ 65535 < (s.usrc b).toNat) then raiseEngine 0x44 s.cur.pc s
      else signalCtr set c (s.usrc b) s))

/-! ### TKJOIN and TKREAD (R334) -/
/-- TKJOIN (R334). -/
def execTkjoin (_sw : Bool) (d a : Reg) (s : State) : Res :=
  .next (operandsOr [⟨0, d, warpOrZ d && evenCode d⟩, ⟨1, a, uniCode a⟩] s
    (withCtr s (s.usrc a) fun c =>
      if (s.ctr s.cq c).value = 0 then tkjoinDone s.cq c d s else parkBundle (.tkjoin c d) s))
/-- TKREAD (R334). -/
def execTkread (_sw fail : Bool) (d a : Reg) (s : State) : Res :=
  .next (operandsOr [⟨0, d, warpOrZ d && evenCode d⟩, ⟨1, a, uniCode a⟩] s
    (withCtr s (s.usrc a) fun c =>
      let x := s.ctr s.cq c
      outPair d (if fail then x.failId else x.value) (if x.failed then 1 else 0) s))

/-! ### WDQ (R335) -/
/-- A query arrives at the distributor (R319). -/
def queryArrive (desc off : Nat) (comp : Option (Word × Word)) (s : State) : State :=
  doneB (s.setWd { s.wd with nextId := s.wd.nextId + 1, queries := s.wd.queries ++
    [{ id := s.wd.nextId, gid := s.cb.gid, bk := s.cb.bk, part := s.cb.part, desc := desc, off := off, comp := comp,
       held := false, stage := .start }] })
/-- The completion that a pair carries; z carries none. -/
def completionOf (s : State) (b : Reg) : Option (Word × Word) := if b = 124 then none else some (s.usrc b, s.usrc (b + 1))
/-- A WDQ that waits for room; the warp's later ones arrive behind it (R319). -/
def ParkWhy.wdWaits : ParkWhy → Bool
  | .wdRoom _ _ _ => true
  | _ => false
/-- WDQ (R335). -/
def execWdq (_sw : Bool) (d a b : Reg) (s : State) : Res :=
  let off := s.usrc d
  let desc := s.usrc64 a
  .next (operandsOr [⟨0, d, uniCode d⟩, ⟨1, a, uniCode a && evenCode a⟩, ⟨2, b, uniCode b && evenCode b⟩] s
    (if off.toNat % 8 ≠ 0 then bundleAt 0x03 8 (z64 off) s
     else if s.cb.spSize < off.toNat + 8 then bundleAt 0x0D 0 (z64 off) s
     else if desc.toNat % 64 ≠ 0 then bundleAt 0x03 64 desc s
     else if localAlias desc then raiseEngine 0x46 s.cur.pc s
     else
       let s1 := forceFences s.cur.wk s
       if decide (1024 ≤ s1.wd.queries.length) || s1.cw.parks.any (·.why.wdWaits) then parkBundle (.wdRoom desc.toNat off.toNat (completionOf s b)) s1
       else queryArrive desc.toNat off.toNat (completionOf s b) s1))
/-- The WDQs that wait for room, the oldest warp first. -/
def waitingQueries (s : State) : List (Nat × Park × (Nat × Nat × Option (Word × Word))) :=
  ((aged s s.warps).filter fun kw => !(s.block kw.2.bk).isStopped).flatMap fun kw => kw.2.parks.filterMap fun p => match p.why with
    | .wdRoom desc off comp => some (kw.1, p, (desc, off, comp))
    | _ => none
/-- WD_QUEUE_ROOM (R319). -/
def execWdQueueRoom (s : State) : Res :=
  .next (match waitingQueries s with
    | (wk, p, (desc, off, comp)) :: _ =>
      if s.wd.queries.length < 1024 then takeUp wk p (queryArrive desc off comp) s else s
    | [] => s)

/-! ### Ready tasks and REFILL (R112, R313) -/
/-- A block that is resident and not pre-empted. -/
def blockRuns (s : State) (bk : Nat) : Bool := (mFind s.blocks bk).any fun b => b.stop == .run
/-- The ready tasks of a quad, in the order in which they became ready, those of one cycle by pool entry (R313). -/
def readyOrder (s : State) (q : Nat) : List Task :=
  let ts := (s.quad q).tasks.filter fun t => blockRuns s t.bk
  (ts.foldl (fun (m : Map Task) t => match t.ready with
    | some (n, _) => mSet m (512 * n + t.slot) t
    | none => m) []).map (·.2)
/-- The entry address of a task. -/
def Task.entry (t : Task) : DWord := recWord64 t.record 0
/-- The pending REFILL requests of a quad, oldest first. -/
def refillsOf (s : State) (q : Nat) : List (Nat × Refill) :=
  (s.warps.foldl (fun (m : Map (Nat × Refill)) kw =>
    match kw.2.refill with
    | some r => if quadOf (s.block kw.2.bk).core = q then mSet m r.order (kw.1, r) else m
    | none => m) []).map (·.2)
/-- A request takes a task (R313). -/
def refillTakes (s : State) (wk : Nat) (r : Refill) (t : Task) : Bool :=
  (s.block (s.warp wk).bk).gid == t.gid && r.entry == t.entry && t.wave.isNone && blockRuns s (s.warp wk).bk
/-- A lane filled with a task: its place, its task's identity, its arguments (R112, R95). -/
def taskLane (pc : DWord) (depth : BitVec 6) (retired : DWord) (t : Task) (x : Lane) : Lane :=
  { x with pc := pc, depth := depth, yld := false, region := pc, regionRetired := retired, st := .active, isTask := true,
           taskId := t.id, joinEn := (taskJoin t.record).isSome, joinCtr := BitVec.ofNat 11 ((taskJoin t.record).getD 0) }
/-- v0 to v4 take the arguments, v5 the task id. -/
def taskWrites (l : Nat) (t : Task) : List RegWrite :=
  (rangeFrom 0 5).map (fun i => { dest := .lane i l, val := recWord t.record (3 + i) }) ++ [{ dest := .lane 5 l, val := t.id }]
/-- Fill one lane of a warp. -/
def fillLane (wk l : Nat) (pc : DWord) (depth : BitVec 6) (t : Task) (s : State) : State :=
  s.updWarp wk fun w => writeAll (taskWrites l t) (w.updLanes (laneBit l) fun _ x => taskLane pc depth w.retired t x)
/-- Tasks leave the pool. -/
def dropTasks (q : Nat) (slots : List Nat) (s : State) : State :=
  s.updQuad q fun x => { x with tasks := x.tasks.filter fun t => !slots.contains t.slot }
/-- No older request of the grid for the same entry stands before this one, and its block runs (DEDUCED, log 26). -/
def refillFirst (s : State) (q wk : Nat) (r : Refill) : Bool :=
  !(s.block (s.warp wk).bk).isStopped && !(refillsOf s q).any fun x =>
    decide (x.2.order < r.order) && x.2.entry == r.entry && !(s.block (s.warp x.1).bk).isStopped &&
      (s.block (s.warp x.1).bk).gid == (s.block (s.warp wk).bk).gid
/-- The request that a warp's REFILL made is answered with the ready tasks it takes, in their order (R112, R313). An
older request of the grid for the same entry is answered first; a stopped block's request is not answered (R248). -/
def refillAnswer (wk : Nat) (s : State) : State :=
  let w := s.warp wk
  match w.refill with
  | none => s
  | some r =>
    let q := quadOf (s.block w.bk).core
    if !refillFirst s q wk r then s else
      let ts := ((readyOrder s q).filter (refillTakes s wk r)).take r.cap
      let ls := maskLanes (w.maskOf fun x => x.st == .vacant)
      let pairs := ls.zip ts
      let s1 := dropTasks q (pairs.map fun x => x.2.slot) (s.updWarp wk fun w => { w with refill := none })
      let s2 := pairs.foldl (fun s x => fillLane wk x.1 r.entry r.depth x.2 s) s1
      (ts.map (·.bk)).dedup.foldl (fun s bk => blockEnd bk s) (afterLanes wk s2)
/-- REFILL_ANSWER. -/
def execRefillAnswer (wk : Nat) (s : State) : Res := .next (refillAnswer wk s)

/-! ### Waves (R313, R314) -/
/-- Rows of the register file in use on a core: the pools of its blocks, and LIMIT of each of their warps and waves that
has not retired (R93, R136, R314). -/
def rowsUsed (s : State) (core : Nat) : Nat :=
  ((s.blocks.filter fun kb => kb.2.core == core).map fun kb => kb.2.pool).sum +
  ((s.warps.filter fun kw => !kw.2.retiredW && (s.block kw.2.bk).core == core).map fun kw => kw.2.limit.toNat).sum
/-- Warp slots in use on a scheduler of a core. -/
def slotsUsed (s : State) (core sched : Nat) : Nat := ((schedWarps s core sched).filter fun kw => !kw.2.retiredW).length
/-- The WARPIDX that a new wave of a block takes, if it finds an index, a slot and rows. -/
def waveIndex (s : State) (b : Block) : Option Nat :=
  match (rangeFrom 0 32).find? fun i => (mFind s.warps (warpKey b.bk i)).all (·.retiredW) with
  | none => none
  | some i => if slotsUsed s b.core (i % 2) < 32 ∧ rowsUsed s b.core + b.regs ≤ 2048 then some i else none
/-- The waves that wait for a place, in the order in which they formed, each with the tasks it holds (R314). -/
def heldWaves (s : State) (q : Nat) : List (List Task) :=
  ((readyOrder s q).foldl (fun (m : Map (List Task)) t => match t.wave with
    | some n => mUpd m [] n (fun l => l ++ [t])
    | none => m) []).map (·.2)
/-- A new wave's tasks: the first group by entry and posting block that is full or whose oldest task has waited 256
local cycles of the yard; tasks that a pending REFILL takes are left to it (R21). -/
def newWave (s : State) (q : Nat) : List Task :=
  let rs := refillsOf s q
  let ts := (readyOrder s q).filter fun t => t.wave.isNone && !rs.any fun x => refillTakes s x.1 x.2 t
  let group (t : Task) : List Task := (ts.filter fun u => u.entry == t.entry && u.bk == t.bk).take 32
  let old (t : Task) : Bool := match t.ready with
    | some (_, c) => decide (c + 256 ≤ (s.quad q).yardCycle)
    | none => false
  match ts.find? fun t => (group t).length == 32 || (group t).head?.any old with
  | some t => group t
  | none => []
/-- The tasks of the next wave: of one that waits and finds a place now, else of one that forms. -/
def waveTasks (s : State) (q : Nat) : List Task :=
  ((heldWaves s q).find? fun g => g.head?.any fun t => (waveIndex s (s.block t.bk)).isSome).getD (newWave s q)
/-- A wave that finds no place waits, with its tasks held. -/
def holdWave (q : Nat) (ts : List Task) (s : State) : State :=
  s.updQuad q fun x =>
    let n := (x.tasks.filterMap (·.wave)).foldl (fun m i => max m (i + 1)) 0
    { x with tasks := x.tasks.map fun t => if ts.any fun u => u.slot == t.slot then { t with wave := some n } else t }
/-- The registers of a warp at its start: w0 holds the low half of the launch's parameter value (R95, R42). -/
def startWregs (g : Grid) : Map Word := if g.params.setWidth 32 = (0 : Word) then [] else [(0, g.params.setWidth 32)]
/-- A wave's warp before its lanes are filled. -/
def waveWarp (b : Block) (g : Grid) (i : Nat) (role : Byte) : Warp :=
  { Warp.none with bk := b.bk, idx := i, isWave := true, retiredW := false, lanes := List.replicate 32 Lane.none,
                   wregs := startWregs g, role := role, limit := BitVec.ofNat 7 b.regs }
/-- A WAVE STARTS (R314) with the acquire of device scope of its start (R226). What a retired warp of its index has issued
performs first (DEDUCED, log 14); the numbers of its stream go on. -/
def waveStart (q : Nat) (s : State) : State :=
  let ts := waveTasks s q
  match ts with
  | [] => s
  | t :: _ =>
    let b := s.block t.bk
    match waveIndex s b with
    | none => holdWave q ts s
    | some i =>
      let wk := warpKey b.bk i
      let s0 := forceStream wk s
      let old := s0.warp wk
      let w := { waveWarp b (s.grid b.gid) i t.role with nextId := old.fresh, ntFids := old.ntFids }
      let hb := ts.flatMap fun t => match taskWait t.record with
        | some c => (s.ctr q c).hb
        | none => []
      let s1 := dropTasks q (ts.map (·.slot)) (s0.setWarps (mSet s0.warps wk w))
      let s2 := ((rangeFrom 0 ts.length).zip ts).foldl (fun s x => fillLane wk x.1 t.entry 0 x.2 s) s1
      acquireDrop b.core .d (addHb wk hb s2)
/-- WAVE_START. -/
def execWaveStart (quad : Nat) (s : State) : Res := .next (waveStart quad s)

end Sys2Proof.Machine
end

