-- ==== Sys2Proof/Machine/CollEngine.lean ====
section
/-! DEFINITION. The collective engine: descriptors (R352, R353, R355), rings and stages (R339, R341), packets, routes and
permits (R343, R344, R360), the tag round (R345, R346), sums and spreading (R341, R342), exclusion (R347), faults (R351),
completion (R357). The inner layout of payloads is the model's (DESIGN CHOICE, log 19). -/
namespace Sys2Proof.Machine

/-! ### The descriptor (R352) -/
def xReserved (r : List Word) : Bool :=
  bitsAt (recWord r 0) 22 10 != 0 || bitsAt (recWord r 1) 28 4 != 0 || bitsAt (recWord r 3) 28 4 != 0 ||
    bitsAt (recWord r 3) 12 4 != 0 || recWord r 14 != 0 || recWord r 15 != 0
def xKind (r : List Word) : Nat := bitsAt (recWord r 0) 0 8
def xColl (r : List Word) : Nat := bitsAt (recWord r 0) 8 3
def xOp (r : List Word) : Nat := bitsAt (recWord r 0) 11 2
def xFmt (r : List Word) : Nat := bitsAt (recWord r 0) 13 3
def xSlot (r : List Word) : Nat := bitsAt (recWord r 0) 16 6
def xTag (r : List Word) : Nat := bitsAt (recWord r 1) 0 16
def xRoot (r : List Word) : Nat := bitsAt (recWord r 1) 16 12
def xN (r : List Word) : Nat := (recWord r 2).toNat
def xSig (r : List Word) : Option Nat := if (recWord r 3).getLsbD 11 then some (bitsAt (recWord r 3) 0 11) else none
def xWait (r : List Word) : Option Nat := if (recWord r 3).getLsbD 27 then some (bitsAt (recWord r 3) 16 11) else none
def xSrc (r : List Word) : Nat := (recWord64 r 4).toNat
def xDst (r : List Word) : Nat := (recWord64 r 6).toNat
def xSside (r : List Word) : Nat := (recWord64 r 8).toNat
def xDside (r : List Word) : Nat := (recWord64 r 10).toNat
def xRrec (r : List Word) : Nat := (recWord64 r 12).toNat

/-- Side bytes travel with formats 4 to 6 (R353). -/
def xSided (r : List Word) : Bool := decide (4 ≤ xFmt r)
/-- The unit that travels: an element of formats 0 to 3, a byte of the others. -/
def xUnit (r : List Word) : Nat := if xFmt r = 0 ∨ xFmt r = 2 then 2 else if xFmt r = 1 ∨ xFmt r = 3 then 4 else 1
/-- Elements of one unit. -/
def xPer (r : List Word) : Nat := if xFmt r = 4 then 2 else 1
/-- Units of n elements, and their side bytes. -/
def xElems (r : List Word) : Nat := xN r / xPer r
def xSides (r : List Word) : Nat := if xFmt r = 4 then xN r / 32 * 2 else if xSided r then xN r / 32 else 0
/-- Units and side bytes of one rank's part. -/
def xPart (r : List Word) : Nat := xElems r + xSides r
/-- The collective sums. -/
def xReduces (r : List Word) : Bool := decide (xColl r ≤ 1)
/-- The wire format of a sum. -/
def xWire (r : List Word) : Fmt := if xFmt r = 0 then bf16 else fp32

/-! ### Groups (R339, R353) -/
/-- The dies of a group, by number. -/
def gDies (g : GroupCfg) : List Nat := (rangeFrom 0 4).filter fun d => g.dies.getLsbD d
/-- The members. -/
def gMembers (g : GroupCfg) : Nat := g.l0 * g.l1 * g.l2
/-- P, the ranks. -/
def gRanks (g : GroupCfg) : Nat := (gDies g).length * gMembers g
/-- The position of a die among the set bits. -/
def diePos (g : GroupCfg) (die : Nat) : Nat := ((gDies g).filter fun d => decide (d < die)).length
/-- The rank of a die of the package. -/
def gRank (g : GroupCfg) (die : Nat) : Nat := diePos g die + (gDies g).length * g.own
/-- The stages that are not skipped, in their order (R341): 0 and 1 package x and y, 2 to 4 pod dimensions. -/
def gStages (g : GroupCfg) : List Nat :=
  (if (gDies g).length = 4 then [0, 1] else if (gDies g).length = 2 then [0] else []) ++
  (if 1 < g.l0 then [2] else []) ++ (if 1 < g.l1 then [3] else []) ++ (if 1 < g.l2 then [4] else [])
/-- The size of a stage's rings. -/
def stageLen (g : GroupCfg) (st : Nat) : Nat :=
  if st < 2 then 2 else if st = 2 then g.l0 else if st = 3 then g.l1 else g.l2
/-- The coordinate of a member's die in a stage. -/
def stageCoord (g : GroupCfg) (die c st : Nat) : Nat :=
  if st = 0 then (if (gDies g).length = 4 then die % 2 else diePos g die)
  else if st = 1 then die / 2
  else if st = 2 then c % g.l0 else if st = 3 then c / g.l0 % g.l1 else c / g.l0 / g.l1
/-- A place of a ring: die and member. -/
structure Place where
  die : Nat
  c : Nat
deriving DecidableEq, Repr
/-- The place at a coordinate of the ring through a die of the package. -/
def ringPlace (g : GroupCfg) (die st j : Nat) : Place :=
  let c := g.own
  if st = 0 then ⟨if (gDies g).length = 4 then die / 2 * 2 + j else (gDies g).getD j die, c⟩
  else if st = 1 then ⟨2 * j + die % 2, c⟩
  else if st = 2 then ⟨die, c / g.l0 * g.l0 + j⟩
  else if st = 3 then ⟨die, c % g.l0 + g.l0 * (j + g.l1 * (c / g.l0 / g.l1))⟩
  else ⟨die, c % (g.l0 * g.l1) + g.l0 * g.l1 * j⟩
/-- A coordinate whose member is excluded; the engine's own package never is, to itself. -/
def exclAt (g : GroupCfg) (die st excl j : Nat) : Bool :=
  let p := ringPlace g die st j
  p.c != g.own && excl.testBit p.c
/-- The first place from coordinate j on, in increasing coordinate, that is not excluded. -/
def firstFrom (g : GroupCfg) (die st excl j : Nat) : Nat :=
  let l := stageLen g st
  (((rangeFrom j l).map (· % l)).find? fun i => !exclAt g die st excl i).getD (stageCoord g die g.own st)
/-- The next place of the ring after coordinate j. -/
def nextOn (g : GroupCfg) (die st excl j : Nat) : Nat := firstFrom g die st excl (j + 1)
/-- The place before coordinate j. -/
def prevOn (g : GroupCfg) (die st excl j : Nat) : Nat :=
  let l := stageLen g st
  (((rangeFrom 1 l).map fun i => (j + l - i % l) % l).find? fun i => !exclAt g die st excl i).getD j
/-- The bounds of chunk j of n elements in L chunks (R341). -/
def chunkLo (n l j : Nat) : Nat := min n (j * ((n + l - 1) / l))
def chunkLen (n l j : Nat) : Nat := chunkLo n l (j + 1) - chunkLo n l j

/-! ### Collectives of an engine -/
/-- A collective by its number. -/
def collAt (s : State) (die cid : Nat) : Option Coll := (s.die die).colls.find? fun x => x.cid == cid
/-- Change a collective. -/
def updColl (die cid : Nat) (f : Coll → Coll) (s : State) : State :=
  s.updDie die fun d => { d with colls := d.colls.map fun x => if x.cid = cid then f x else x }
/-- A slot of an engine. -/
def slotAt (s : State) (die n : Nat) : GroupSlot := mGet (s.die die).slots GroupSlot.init n
/-- Change a slot. -/
def updSlot (die n : Nat) (f : GroupSlot → GroupSlot) (s : State) : State :=
  s.updDie die fun d => { d with slots := mUpd d.slots GroupSlot.init n f }
/-- A collective stands still: it holds at a page fault, or its block is pre-empted. -/
def Coll.still (x : Coll) : Bool := x.held || x.saved
/-- The running collective of a slot and a sequence number. -/
def collOf (s : State) (die n q : Nat) : Option Coll :=
  (s.die die).colls.find? fun x => x.slot == n && x.q == q && decide (x.phase < 3)
/-- The rank of a status: the highest is recorded (R357). -/
def statusRank (n : Nat) : Nat :=
  if n = 0x14 then 5 else if n = 3 then 4 else if n = 0x0C then 3 else if n = 1 then 2 else if n = 2 then 1 else 0
/-- A status applies. -/
def Coll.mark (x : Coll) (n : Nat) : Coll := if statusRank x.status < statusRank n then { x with status := n } else x
/-- A collective ends with a status. -/
def endColl (die cid n : Nat) (s : State) : State := updColl die cid (fun x => { x.mark n with phase := 3 }) s
/-- The group of a collective. -/
def collCfg (s : State) (die : Nat) (x : Coll) : Option GroupCfg := (slotAt s die x.slot).cfg
/-- A record of the engine (R351). -/
def collRecord (x : Coll) (code : Byte) (detail faddr : Nat) (die : Nat) : FaultRec :=
  engineRecord code detail 3 x.gid 0 0 x.core faddr (.coll die x.cid)
/-- The stage code a collective is at. -/
def Coll.stageNo (x : Coll) (g : GroupCfg) : Nat := (gStages g).getD x.stage 0
/-- The vector in hand. -/
def Coll.cur (x : Coll) : List Nat := x.vecs.getLastD []

/-! ### Packets (R343, R344, R360) -/
/-- A header with one route entry. -/
def mkHeader (dev stage slot q tagBits chunk len first to_ action : Nat) : List Word :=
  [BitVec.ofNat 32 (dev + 1024 * slot + 65536 * stage + 2 ^ 19), BitVec.ofNat 32 q, BitVec.ofNat 32 tagBits,
   BitVec.ofNat 32 (chunk + 1024 * len), BitVec.ofNat 32 first, BitVec.ofNat 32 (to_ + 1024 * action), 0, 0]
/-- w2 of a collective's packets. -/
def Coll.tagBits (x : Coll) : Nat := 65536 * bitsAt (recWord x.desc 0) 8 8 + xTag x.desc
def hStage (h : List Word) : Nat := bitsAt (recWord h 0) 16 3
def hSlot (h : List Word) : Nat := bitsAt (recWord h 0) 10 6
def hDev (h : List Word) : Nat := bitsAt (recWord h 0) 0 10
def hRouteLen (h : List Word) : Nat := bitsAt (recWord h 0) 19 4
def hQ (h : List Word) : Nat := (recWord h 1).toNat
def hChunk (h : List Word) : Nat := bitsAt (recWord h 3) 0 10
def hLen (h : List Word) : Nat := bitsAt (recWord h 3) 10 12
def hFirst (h : List Word) : Nat := (recWord h 4).toNat
/-- The packet's collective sums (w2 holds COLL as w0 of the descriptor does). -/
def hSums (h : List Word) : Bool := decide (bitsAt (recWord h 2) 16 3 ≤ 1)
/-- The route as one number of 96 bits. -/
def hRoute (h : List Word) : Nat := (recWord h 5).toNat + 2 ^ 32 * (recWord h 6).toNat + 2 ^ 64 * (recWord h 7).toNat
/-- The action of the entry popped. -/
def hAction (h : List Word) : Nat := if hRouteLen h = 0 then 2 else hRoute h / 1024 % 4
/-- The header after a pop. -/
def popRoute (h : List Word) : List Word :=
  let r := hRoute h / 4096
  if hRouteLen h = 0 then h else
  [BitVec.ofNat 32 ((recWord h 0).toNat - 2 ^ 19), recWord h 1, recWord h 2, recWord h 3, recWord h 4,
   BitVec.ofNat 32 r, BitVec.ofNat 32 (r / 2 ^ 32), BitVec.ofNat 32 (r / 2 ^ 64)]
/-- A packet with a reserved bit, or a route too long, is foreign (R360). -/
def badHeader (h : List Word) : Bool :=
  decide (8 < hRouteLen h) || bitsAt (recWord h 0) 23 9 != 0 || bitsAt (recWord h 2) 24 8 != 0 ||
    bitsAt (recWord h 3) 22 10 != 0
/-- The stage of a leg between an engine and another one, by the dimension in which they differ: for packets whose STAGE
names none, those of the gather pass and tokens (DEDUCED, log 19). -/
def legStage (g : GroupCfg) (die other c code : Nat) : Nat :=
  if code ≤ 4 then code
  else if c = g.own then (if (gDies g).length = 4 ∧ other / 2 ≠ die / 2 then 1 else 0)
  else if c % g.l0 ≠ g.own % g.l0 then 2
  else if c / g.l0 % g.l1 ≠ g.own / g.l0 % g.l1 then 3 else 4
/-- The member of a DEVICE. -/
def memberOf (g : GroupCfg) (dev : Nat) : Nat := (g.devs.takeWhile (· != dev)).length
/-- The stage of a packet that a die received from another. -/
def pktStage (g : GroupCfg) (die src : Nat) (h : List Word) : Nat := legStage g die src (memberOf g (hDev h)) (hStage h)
/-- A link, named by the engine at its other end (R338). -/
def linkKey (dev die : Nat) : Nat := 4 * dev + die

/-- Put a packet on its way: into the staging of a die of this package, or out to the pod. -/
def transmit (p : Pkt) (s : State) : State :=
  if p.dev = s.host.device then s.updDie p.die fun d => { d with inbox := d.inbox ++ [p] } else s.send (.packet p)
/-- Permits held on a link. -/
def permitsOf (s : State) (die link : Nat) : Nat := mGet (s.die die).permits 64 link
/-- A packet leaves with a permit of its link, or waits for one (R344). -/
def sendPkt (die : Nat) (p : Pkt) (s : State) : State :=
  let link := linkKey p.dev p.die
  let n := permitsOf s die link
  if 0 < n ∧ !(s.die die).outbox.any (fun o => o.1 == link) then
    transmit p (s.updDie die fun d => { d with permits := mSet d.permits link (n - 1) })
  else s.updDie die fun d => { d with outbox := d.outbox ++ [(link, p)] }
/-- A permit comes back; the first packet that waits for it leaves. -/
def givePermit (die link : Nat) (s : State) : State :=
  let d := s.die die
  match d.outbox.find? fun o => o.1 == link with
  | some o => transmit o.2 (s.updDie die fun d => { d with outbox := d.outbox.erase o })
  | none => s.updDie die fun d => { d with permits := mSet d.permits link (min 64 (mGet d.permits 64 link + 1)) }
/-- A packet's cell is free: its permit goes back to the die that sent it. -/
def returnPermit (die src : Nat) (h : List Word) (s : State) : State :=
  let link := linkKey s.host.device die
  if hDev h = s.host.device then givePermit src link s else s.send (.permit (hDev h) die link)
/-- Send a packet of a collective to the place after its own in a ring. -/
def sendNext (die : Nat) (g : GroupCfg) (x : Coll) (st code chunk first : Nat) (act : Nat → Nat) (payload : List Byte)
    (s : State) : State :=
  let j := nextOn g die st x.excl (stageCoord g die g.own st)
  let p := ringPlace g die st j
  let dev := g.devs.getD p.c 0
  let h := mkHeader s.host.device code x.slot x.q x.tagBits chunk payload.length first dev (act j)
  sendPkt die { dev := dev, die := p.die, src := die, mask := x.excl, payload := payload, hdr := h } s
/-- Send a packet on to the DEVICE that its route names next (R343). -/
def sendRoute (die : Nat) (g : GroupCfg) (x : Coll) (st : Nat) (h : List Word) (payload : List Byte) (s : State) : State :=
  let dev := hRoute h % 1024
  let to_ := if dev = s.host.device then (ringPlace g die st (nextOn g die st x.excl (stageCoord g die g.own st))).die else die
  let w0 := BitVec.ofNat 32 ((recWord h 0).toNat - hDev h + s.host.device)
  sendPkt die { dev := dev, die := to_, src := die, mask := x.excl, payload := payload, hdr := w0 :: h.drop 1 } s
/-- Pieces of at most 2,048 bytes: the first unit's place and the units. Missing units are not sent. -/
def cutPieces (per : Nat) : Nat → Nat → List Nat → List (Nat × List Nat)
  | 0, _, _ => []
  | fuel + 1, at_, us =>
    match us with
    | [] => []
    | u :: t =>
      if 2 ^ 32 ≤ u then cutPieces per fuel (at_ + 1) t else
        let run := (us.takeWhile fun v => decide (v < 2 ^ 32)).take per
        (at_, run) :: cutPieces per fuel (at_ + run.length) (us.drop run.length)
/-- The pieces of some units of a width. -/
def piecesOf (w : Nat) (us : List Nat) : List (Nat × List Nat) := cutPieces (2048 / w) us.length 0 us
/-- The bytes of some units. -/
def unitBytes (w : Nat) (us : List Nat) : List Byte := us.flatMap fun u => leBytes u w
/-- The units of some bytes. -/
def unitsOf (w : Nat) : Nat → List Byte → List Nat
  | 0, _ => []
  | n + 1, bs => leNat (bs.take w) :: unitsOf w n (bs.drop w)

/-! ### One stage (R341) -/
/-- The key of an element of a chunk. -/
def gotKey (chunk e : Nat) : Nat := 2 ^ 48 * chunk + e
/-- Store units of a chunk. -/
def putGot (chunk first : Nat) (us : List Nat) (x : Coll) : Coll :=
  { x with got := (mapIdxFrom (fun i u => (i, u)) 0 us).foldl (fun m iu => mSet m (gotKey chunk (first + iu.1)) iu.2) x.got }
/-- Combine two elements (R341): a rounded sum, or the smaller or larger. -/
def combine (r : List Word) (a b : Nat) : Nat :=
  if xOp r = 0 then (addF (xWire r) rne a b).1
  else (fmnmxF (xWire r) (if xOp r = 1 then .min else .max) a b).1
/-- Own contribution to a chunk. -/
def ownChunk (x : Coll) (l j : Nat) : List Nat :=
  let v := x.cur
  (v.drop (chunkLo v.length l j)).take (chunkLen v.length l j)
/-- What an engine needs of its ring before a stage is over. -/
structure StageView where
  g : GroupCfg
  die : Nat
  st : Nat
  l : Nat
  me : Nat
  excl : Nat
/-- The view of a stage under an exclusion mask. -/
def viewAt (g : GroupCfg) (die st excl : Nat) : StageView :=
  { g := g, die := die, st := st, l := stageLen g st, me := stageCoord g die g.own st, excl := excl }
/-- The view of a collective's present stage. -/
def viewOf (g : GroupCfg) (die : Nat) (x : Coll) : StageView := viewAt g die (x.stageNo g) x.excl
/-- Every other place of the ring is excluded. -/
def StageView.alone (v : StageView) : Bool := nextOn v.g v.die v.st v.excl v.me == v.me
/-- Where chunk j starts, and whether j itself is excluded. -/
def StageView.start (v : StageView) (j : Nat) : Nat := firstFrom v.g v.die v.st v.excl (j + 1)
def StageView.out (v : StageView) (j : Nat) : Bool := exclAt v.g v.die v.st v.excl j
/-- Who spreads chunk j: its place, or the one that bypasses it. -/
def StageView.origin (v : StageView) (j : Nat) : Nat := if v.out j then v.start j else j
/-- The units that the place at coordinate j brings to a spreading stage. -/
def partLen (g : GroupCfg) (die : Nat) (x : Coll) (j : Nat) : Nat :=
  let r := x.desc
  if x.back then chunkLen ((x.vecs.getD x.stage []).length) (stageLen g (x.stageNo g)) j
  else if xColl r = 2 ∨ xColl r = 4 then xPart r * (((gStages g).take x.stage).map (stageLen g)).prod
  else
    let rootDie := (gDies g).getD (xRoot r % (gDies g).length) 0
    let rootC := xRoot r / (gDies g).length
    let later := ((gStages g).drop (x.stage + 1)).all fun st => stageCoord g rootDie rootC st == stageCoord g die g.own st
    if later ∧ j = stageCoord g rootDie rootC (x.stageNo g) then (if xColl r = 3 then xPart r else gRanks g * xPart r) else 0
/-- The place of a packet's first unit within chunk j of n units: w4 gives it modulo 2^32, and the first such place that has
not come is meant (DEDUCED, log 19). None where every one has. -/
def freshAt (x : Coll) (j n first : Nat) : Option Nat :=
  ((rangeFrom 0 (n / 2 ^ 32 + 1)).map fun i => first + 2 ^ 32 * i).find? fun e => (mFind x.got (gotKey j e)).isNone
/-- Whether all units of chunk j are in. -/
def allGot (x : Coll) (j n : Nat) : Bool := (rangeFrom 0 n).all fun e => (mFind x.got (gotKey j e)).isSome
/-- A reducing stage is over: every chunk that passes here has passed, and the own one is final. -/
def reduceOver (v : StageView) (x : Coll) : Bool :=
  (rangeFrom 0 v.l).all fun j =>
    (v.start j == v.me && !v.out j && !v.alone) || allGot x j (chunkLen x.cur.length v.l j)
/-- A spreading stage is over. -/
def spreadOver (v : StageView) (x : Coll) : Bool :=
  (rangeFrom 0 v.l).all fun j =>
    (v.out j && (v.alone || !(x.back && x.stage + 1 == (gStages v.g).length))) || allGot x j (partLen v.g v.die x j)
/-- The bytes' action for the leg to a place: deliver to the last one, combine and forward before (R343). -/
def legAction (v : StageView) (j to_ : Nat) : Nat := if to_ = j ∨ to_ = v.start j then 2 else 1
/-- The action for the leg to a place of a spreading stage: the last one only delivers. -/
def spreadAction (v : StageView) (j to_ : Nat) : Nat := if nextOn v.g v.die v.st v.excl to_ = v.origin j then 2 else 3
/-- Pass a finished piece of a chunk on, or keep it where the chunk ends. -/
def passOn (v : StageView) (x : Coll) (j first : Nat) (us : List Nat) (s : State) : State :=
  if v.me = j ∨ v.alone then s else
    sendNext v.die v.g x v.st v.st j first (legAction v j) (unitBytes (xUnit x.desc) us) s
/-- Send a chunk round a spreading stage. -/
def spread (v : StageView) (x : Coll) (j : Nat) (us : List Nat) (s : State) : State :=
  if v.alone then s else
    (piecesOf (xUnit x.desc) us).foldl (fun s p =>
      sendNext v.die v.g x v.st (if x.back then 5 else v.st) j p.1 (spreadAction v j) (unitBytes (xUnit x.desc) p.2) s) s
/-- Begin a reducing stage: the chunks that start here set out. -/
def beginReduce (g : GroupCfg) (die : Nat) (x : Coll) (s : State) : State :=
  let v := viewOf g die x
  ((rangeFrom 0 v.l).filter fun j => v.start j == v.me).foldl (fun s j =>
    let us := ownChunk x v.l j
    let s1 := if v.alone then updColl die x.cid (putGot j 0 us) s else s
    (piecesOf (xUnit x.desc) us).foldl (fun s p => passOn v x j p.1 p.2 s) s1) s
/-- Begin a spreading stage: the own part is in, and sets out. In the gather pass a bypassed place's chunk does too. -/
def beginSpread (g : GroupCfg) (die : Nat) (x : Coll) (s : State) : State :=
  let v := viewOf g die x
  let own := putGot v.me 0 x.cur { x with got := if x.back ∧ x.stage + 1 = (gStages g).length then x.got else [] }
  let kept (j : Nat) : List Nat := (rangeFrom 0 (partLen g die x j)).map fun e => mGet own.got (2 ^ 32) (gotKey j e)
  let s1 := spread v x v.me x.cur (updColl die x.cid (fun _ => { own with
    got := own.got.filter fun kv => kv.1 / 2 ^ 48 == v.me || (v.out (kv.1 / 2 ^ 48) && v.start (kv.1 / 2 ^ 48) == v.me) }) s)
  if x.back ∧ x.stage + 1 = (gStages g).length then
    ((rangeFrom 0 v.l).filter fun j => v.out j && v.start j == v.me).foldl (fun s j => spread v x j (kept j) s) s1
  else s1
/-- Send the engine's own token round a stage (R345): stage, place of origin, mismatch mark, n. -/
def sendToken (g : GroupCfg) (die : Nat) (x : Coll) (s : State) : State :=
  let v := viewOf g die x
  sendNext die g x v.st 7 0 0 (fun _ => 1)
    (leBytes v.st 4 ++ leBytes v.me 4 ++ leBytes 0 4 ++ leBytes (xN x.desc) 4) s
/-- Record the peers of a stage's ring that are isolated, and exclude them (R351). -/
def noteIsolated (g : GroupCfg) (die : Nat) (x : Coll) (s : State) : State :=
  ((rangeFrom 0 (stageLen g (x.stageNo g))).map fun j => (ringPlace g die (x.stageNo g) j).c).dedup.foldl (fun s c =>
    let dev := g.devs.getD c 0
    if c ≠ g.own ∧ (mGet s.mem.peers Peer.init dev).isolated ∧ !x.excl.testBit c then
      postRecord (collRecord x 0x0B dev 0 die)
        (updColl die x.cid (fun x => { x.mark 2 with excl := x.excl ||| 2 ^ c }) s)
    else s) s
/-- Begin the present stage of a collective, whatever its kind. -/
def beginStage (die cid : Nat) (s : State) : State :=
  match collAt s die cid with
  | none => s
  | some x0 =>
    match collCfg s die x0 with
    | none => s
    | some g =>
      let s1 := noteIsolated g die x0 (updColl die cid (fun x => { x with timer := 0 }) s)
      match collAt s1 die cid with
      | none => s1
      | some x =>
        if x.phase = 1 then
          (if nextOn g die (x.stageNo g) x.excl (viewOf g die x).me = (viewOf g die x).me then s1 else sendToken g die x s1)
        else if xReduces x.desc && !x.back then
          beginReduce g die { x with got := [] } (updColl die cid (fun x => { x with got := [] }) s1)
        else beginSpread g die x s1

/-! ### From stage to stage -/
/-- The vector that a stage leaves. -/
def stageResult (v : StageView) (x : Coll) : List Nat :=
  let part (j n : Nat) : List Nat := (rangeFrom 0 n).map fun e => mGet x.got (2 ^ 32) (gotKey j e)
  if xReduces x.desc && !x.back then part v.me (chunkLen x.cur.length v.l v.me)
  else (rangeFrom 0 v.l).flatMap fun j => part j (partLen v.g v.die x j)
/-- After a reducing stage the chunk is the vector; after the last one an all-reduce turns round. -/
def nextReduce (v : StageView) (x : Coll) : Coll :=
  let y := { x with vecs := x.vecs ++ [stageResult v x], off := x.off + chunkLo x.cur.length v.l v.me }
  if x.stage + 1 < (gStages v.g).length then { y with stage := x.stage + 1 }
  else if xColl x.desc = 0 then { y with back := true, off := 0 }
  else { y with phase := 3 }
/-- After a spreading stage. -/
def nextSpread (v : StageView) (x : Coll) : Coll :=
  let y := { x with vecs := (if x.back then x.vecs.take x.stage else []) ++ [stageResult v x] }
  if x.back then (if x.stage = 0 then { y with phase := 3 } else { y with stage := x.stage - 1 })
  else if x.stage + 1 < (gStages v.g).length then { y with stage := x.stage + 1 } else { y with phase := 3 }
/-- Go on as far as the stages that are over allow. -/
def goOn (die cid : Nat) : Nat → State → State
  | 0, s => s
  | n + 1, s =>
    match collAt s die cid with
    | none => s
    | some x =>
      match collCfg s die x with
      | none => s
      | some g =>
        let v := viewOf g die x
        if x.phase = 1 then
          (if (gStages g).isEmpty || (v.alone && x.stage + 1 == (gStages g).length) then
            let s1 := updColl die cid (fun x => { x with phase := if (gStages g).isEmpty then 3 else 2, stage := 0 }) s
            goOn die cid n (if (gStages g).isEmpty then s1 else beginStage die cid s1)
          else if v.alone then goOn die cid n (beginStage die cid (updColl die cid (fun x => { x with stage := x.stage + 1 }) s))
          else s)
        else if x.phase ≠ 2 then s
        else if xReduces x.desc && !x.back then
          (if reduceOver v x then goOn die cid n (beginStage die cid (updColl die cid (fun _ => nextReduce v x) s)) else s)
        else if spreadOver v x then goOn die cid n (beginStage die cid (updColl die cid (fun _ => nextSpread v x) s)) else s
/-- Stages enough for any group. -/
def goOnAll (die cid : Nat) (s : State) : State := goOn die cid 24 s

/-! ### Admission (R340, R348, R356) -/
/-- Read a source range: its bytes with the places of failed ones, or the fault that holds the collective (R351). -/
def readSource (part va n : Nat) (s : State) : Except (MemFault × Nat) (List Byte × List Nat) × State :=
  (sectorPieces va n).foldl (fun r p =>
    match r.1 with
    | .error e => (.error e, r.2)
    | .ok (bs, bad) =>
      match translate none part .read 0 p.1 r.2 with
      | (.error f, s1) => (.error (f, p.1), s1)
      | (.ok a, s1) =>
        let hit := if a.peer.isSome || a.zero then [] else
          (rangeFrom 0 p.2).filter fun i => s1.mem.ecc.contains (a.pa + i)
        let (b, s2) := enginePiece a p.2 none s1
        (.ok (bs ++ b, bad ++ hit.map (· + (p.1 - va))), s2)) (.ok ([], []), s)
/-- The source ranges of a rank, elements and sides (R353). -/
def sourceLens (g : GroupCfg) (die : Nat) (r : List Word) : Nat × Nat :=
  let root := gRank g die == xRoot r
  let m := if xColl r = 3 then (if root then 1 else 0) else if xColl r = 5 then (if root then gRanks g else 0) else 1
  (m * xElems r * xUnit r, m * xSides r)
/-- Parts with their sides, rank after rank. -/
def interleave (m e d : Nat) (es ds : List Nat) : List Nat :=
  (rangeFrom 0 m).flatMap fun i => (es.drop (i * e)).take e ++ (ds.drop (i * d)).take d
/-- An admitted collective holds at a page fault of its source (R351). -/
def holdAdmission (die : Nat) (x : Coll) (e : MemFault × Nat) (s : State) : State :=
  updJob (quadOf x.core) x.jid (fun j => { j with admitted := true })
    (postRecord (collRecord x e.1.code e.1.detail e.2 die)
      (updColl die x.cid (fun x => { x with held := true, begun := true }) s))
/-- A COLLECTIVE IS ADMITTED: it reads its source, and its tag round begins. -/
def admitColl (die cid : Nat) (s : State) : State :=
  match collAt s die cid with
  | none => s
  | some x =>
    match collCfg s die x with
    | none => s
    | some g =>
      let r := x.desc
      let (ne, nd) := sourceLens g die r
      match readSource x.part (xSrc r) ne s with
      | (.error e, s1) => holdAdmission die x e s1
      | (.ok (bs, bad), s1) =>
        match readSource x.part (xSside r) nd s1 with
        | (.error e, s2) => holdAdmission die x e s2
        | (.ok (ds, bad2), s2) =>
          let w := xUnit r
          let es := mapIdxFrom (fun i u =>
            if xReduces r && bad.any (fun b => b / w == i) then canonNan (xWire r) else u) 0 (unitsOf w (ne / w) bs)
          let v := interleave (ne / w / max 1 (xElems r)) (xElems r) (xSides r) es (ds.map (·.toNat))
          let failed := !(bad.isEmpty && bad2.isEmpty)
          let s3 := updColl die cid (fun x =>
            let y := if failed then x.mark 0x0C else x
            { y with phase := 1, stage := 0, vecs := [v], got := [], begun := true, timer := 0 }) s2
          let s4 := if failed then postRecord (collRecord x 0x0C 0 (xSrc r) die) s3 else s3
          let s5 := updJob (quadOf x.core) x.jid (fun j => { j with admitted := true }) s4
          goOnAll die cid (if (gStages g).isEmpty then s5 else beginStage die cid s5)
/-- A collective may be admitted: its edges and counter allow it, and no earlier one of its slot stands (R340, R356). One
that has held at its source goes on (R351). -/
def collReady (s : State) (die : Nat) (x : Coll) : Bool :=
  x.phase == 0 && !x.still && (x.begun || (s.job (quadOf x.core) x.jid).any Job.admissible) &&
    ((s.die die).colls.find? fun y => y.slot == x.slot).any fun y => y.cid == x.cid

/-! ### Mismatch (R346) -/
/-- A slot becomes FAULTED: every collective on it ends with CXMISMATCH. -/
def faultSlot (die n : Nat) (s : State) : State :=
  let s1 := updSlot die n (fun x => { x with faulted := true }) s
  ((s1.die die).colls.filter fun x => x.slot == n && decide (x.phase < 3)).foldl (fun s x =>
    postRecord (collRecord x 0x14 n 0 die) (endColl die x.cid 0x14 s)) s1

/-! ### Exclusion (R347) -/
/-- What the place at coordinate k sends of its own has arrived: its token, the chunk that starts there, or its part. -/
def heardFrom (v : StageView) (x : Coll) (k : Nat) : Bool :=
  if x.phase = 1 then (mFind x.got (gotKey v.st k)).isSome
  else if xReduces x.desc && !x.back then
    (rangeFrom 0 v.l).all fun j =>
      v.start j != k || chunkLen x.cur.length v.l j == 0 || allGot x j (chunkLen x.cur.length v.l j)
  else allGot x k (partLen v.g v.die x k)
/-- A packet waits to be sent for a collective. -/
def isOf (x : Coll) (o : Nat × Pkt) : Bool := hSlot o.2.hdr == x.slot && hQ o.2.hdr == x.q
/-- The member that a collective waits for: the one a packet of it waits to be sent to, or the nearest place before its
own that has not been heard from; the own member where there is none (DEDUCED, log 20). -/
def waitedFor (s : State) (die : Nat) (g : GroupCfg) (x : Coll) : Nat :=
  match (s.die die).outbox.find? (isOf x) with
  | some o => memberOf g o.2.dev
  | none =>
    let v := viewOf g die x
    match ((rangeFrom 1 v.l).map fun i => (v.me + v.l - i % v.l) % v.l).find? fun k =>
        k != v.me && !v.out k && !heardFrom v x k with
    | some k => (ringPlace g die v.st k).c
    | none => g.own
/-- Packets waiting to go to an excluded member go to the place after it, over that place's link (R347). -/
def reroute (die : Nat) (g : GroupCfg) (x : Coll) (c : Nat) (s : State) : State :=
  let dev := g.devs.getD c 0
  let mine (o : Nat × Pkt) : Bool := o.2.dev == dev && isOf x o
  let moved := (s.die die).outbox.filter mine
  let s1 := s.updDie die fun d => { d with outbox := d.outbox.filter fun o => !mine o }
  moved.foldl (fun s o =>
    let code := hStage o.2.hdr
    let v := viewAt g die (legStage g die o.2.die c code) x.excl
    let act := if code = 7 then fun _ => 1
      else if decide (code ≤ 4) && xReduces x.desc then legAction v (hChunk o.2.hdr) else spreadAction v (hChunk o.2.hdr)
    if v.alone then s else sendNext die g x v.st code (hChunk o.2.hdr) (hFirst o.2.hdr) act o.2.payload s) s1
/-- A waiting combine forwards its partial sums without the member; chunks that set out from here have gone. -/
def forwardOwn (die cid : Nat) (g : GroupCfg) (gone : List Nat) (s : State) : State :=
  match collAt s die cid with
  | none => s
  | some x =>
    if !(x.phase == 2 && xReduces x.desc && !x.back) then s else
      let v := viewOf g die x
      (rangeFrom 0 v.l).foldl (fun s j =>
        let us := mapIdxFrom (fun e u => if (mFind x.got (gotKey j e)).isSome then 2 ^ 32 else u) 0 (ownChunk x v.l j)
        if gone.contains j && !v.alone then s else
          (piecesOf (xUnit x.desc) us).foldl (fun s p =>
            passOn v x j p.1 p.2 (updColl die cid (putGot j p.1 p.2) s)) s) s
/-- A member is excluded from a collective, which goes on without it (DEDUCED, log 20). -/
def excludeMember (die cid c : Nat) (s : State) : State :=
  match collAt s die cid with
  | none => s
  | some x0 =>
    match collCfg s die x0 with
    | none => s
    | some g =>
      let before := viewOf g die x0
      let pred := (ringPlace g die before.st (prevOn g die before.st x0.excl before.me)).c == c
      let startsAt := (rangeFrom 0 before.l).filter fun j => before.start j == before.me
      let s1 := updColl die cid (fun x => { x.mark 2 with excl := x.excl ||| 2 ^ c, timer := 0 }) s
      match collAt s1 die cid with
      | none => s1
      | some x =>
        let s2 := reroute die g x c s1
        let s3 := if x.phase = 1 then (if (viewOf g die x).alone then s2 else sendToken g die x s2)
          else if pred then forwardOwn die cid g startsAt s2 else s2
        goOnAll die cid s3
/-- An exclusion that a packet's mask makes known (R347). -/
def learnMask (die cid mask : Nat) (s : State) : State :=
  if mask = 0 then s else
    match collAt s die cid with
    | none => s
    | some x =>
      ((rangeFrom 0 1024).filter fun c => mask.testBit c && !x.excl.testBit c).foldl (fun s c => excludeMember die cid c s) s

/-! ### Receiving (R343) -/
/-- A packet names a slot that the receiver holds for the sender. -/
def ownPacket (s : State) (die : Nat) (h : List Word) : Bool :=
  !badHeader h && (slotAt s die (hSlot h)).cfg.any fun g => g.devs.contains (hDev h) || hDev h == s.host.device
/-- A packet's stage and pass are those of a collective at present. -/
def atStage (g : GroupCfg) (x : Coll) (st : Nat) (h : List Word) : Bool :=
  x.phase == 2 && x.back == (hStage h == 5) && x.stageNo g == st
/-- A packet's stage is behind a collective. -/
def isPast (g : GroupCfg) (x : Coll) (st : Nat) (h : List Word) : Bool :=
  if hStage h = 5 then x.back && decide (x.stageNo g < st)
  else x.phase == 2 && (x.back || decide (st < x.stageNo g))
/-- The tag rounds of the stages before a token's have matched here, so that it can be compared (R346) (DEDUCED, log 20). -/
def tokenReady (g : GroupCfg) (x : Coll) (st : Nat) : Bool :=
  decide (2 ≤ x.phase) || decide ((gStages g).idxOf st ≤ if x.phase = 1 then x.stage else 0)
/-- What the receiver can do with a packet now: drop a foreign one, take it up, pass over a late one, give no answer, or leave
it in its cell. -/
inductive PktVerdict where | drop | take | stale | silent | wait
deriving DecidableEq, Repr
/-- The verdict on a packet that a die received from another. -/
def pktVerdict (s : State) (die src : Nat) (h : List Word) : PktVerdict :=
  if !ownPacket s die h then .drop else
    let sl := slotAt s die (hSlot h)
    match sl.cfg, collOf s die (hSlot h) (hQ h) with
    | some g, some x =>
      let st := pktStage g die src h
      if x.still then .wait
      else if hStage h = 6 then .take
      else if hStage h = 7 then (if tokenReady g x st then .take else .wait)
      else if atStage g x st h then .take else if isPast g x st h then .stale else .wait
    | _, _ =>
      if sl.silent.contains (hQ h) then .silent
      else if sl.faulted ∨ ((sl.seq + 2 ^ 32 - hQ h) % 2 ^ 32 ≤ 2 ^ 31 ∧ sl.seq ≠ hQ h) then
        (if hStage h = 7 then .take else .stale)
      else .wait
/-- A contribution's sender is in the mask of its collective, which runs, has ended, or lies more than 16 completions back
(R347) (DEDUCED, log 20). -/
def senderExcluded (s : State) (die : Nat) (g : GroupCfg) (h : List Word) : Bool :=
  let c := memberOf g (hDev h)
  let sl := slotAt s die (hSlot h)
  c != g.own && match (s.die die).colls.find? fun x => x.slot == hSlot h && x.q == hQ h with
    | some x => x.excl.testBit c
    | none => match sl.last.find? fun e => e.1 == hQ h with
      | some e => e.2.2.testBit c
      | none => !sl.faulted
/-- A contribution that reaches a combine after its sender is in the mask goes back to it as LATE, with a permit of the link
(R344, R347). Any other packet that comes too late is dropped. -/
def returnLate (die : Nat) (g : GroupCfg) (h : List Word) (mask : Nat) (s : State) : State :=
  if hDev h = s.host.device ∨ 4 < hStage h ∨ !hSums h ∨ !senderExcluded s die g h then s else
    let late := mkHeader s.host.device 6 (hSlot h) (hQ h) (recWord h 2).toNat (hChunk h) 0 0 (hDev h) 2
    sendPkt die { dev := hDev h, die := die, src := die, mask := mask, payload := [], hdr := late } s
/-- A token arrives (R345, R346): the own one back, or another to compare and pass on. A collective that has ended here
has matched its ring already, and its engine passes the token on as it is. -/
def takeToken (die src : Nat) (g : GroupCfg) (h : List Word) (mask : Nat) (payload : List Byte) (s : State) : State :=
  let st := pktStage g die src h
  let from_ := leNat ((payload.drop 4).take 4)
  let marked := leNat ((payload.drop 8).take 4) != 0
  let me := stageCoord g die g.own st
  let x0? := collOf s die (hSlot h) (hQ h)
  let s := match x0? with
    | some x => learnMask die x.cid mask (updColl die x.cid (fun x =>
        if x.phase = 1 then { x with got := mSet x.got (gotKey st from_) 1, timer := 0 } else x) s)
    | none => s
  let x? := collOf s die (hSlot h) (hQ h)
  let faulted := (slotAt s die (hSlot h)).faulted
  if from_ = me then
    match x? with
    | none => s
    | some x =>
      if marked then faultSlot die (hSlot h) s
      else if x.phase = 1 ∧ x.stageNo g = st then
        let s1 := updColl die x.cid (fun x => { x with
          phase := if x.stage + 1 < (gStages g).length then 1 else 2,
          stage := if x.stage + 1 < (gStages g).length then x.stage + 1 else 0 }) s
        goOnAll die x.cid (beginStage die x.cid s1)
      else s
  else
    let differs := match x? with
      | some x => decide (x.tagBits ≠ (recWord h 2).toNat % 2 ^ 24 ∨ xN x.desc ≠ leNat ((payload.drop 12).take 4))
      | none => false
    let bad := marked || faulted || differs
    let excl := (x?.map (·.excl)).getD mask
    let j := nextOn g die st excl me
    let p := ringPlace g die st j
    let dev := g.devs.getD p.c 0
    let body := payload.take 8 ++ leBytes (if bad then 1 else 0) 4 ++ payload.drop 12
    let hd := mkHeader s.host.device 7 (hSlot h) (hQ h) (recWord h 2).toNat 0 16 0 dev 1
    sendPkt die { dev := dev, die := p.die, src := die, mask := excl, payload := body, hdr := hd } s
/-- A piece goes on from here (R343): to the rest of its route unless the action popped is a mere deliver, else by the next
leg of the stage, which this engine builds. -/
def sendOn (die : Nat) (g : GroupCfg) (x : Coll) (st : Nat) (h : List Word) (bs : List Byte) (leg : State → State) (s : State) :
    State :=
  if 0 < hRouteLen (popRoute h) then (if hAction h = 2 then s else sendRoute die g x st (popRoute h) bs s) else leg s
/-- A piece arrives at a combine (R341, R347): the own contribution is combined unless the action is a mere forward (R343). -/
def takeReduce (g : GroupCfg) (die : Nat) (x : Coll) (h : List Word) (us : List Nat) (s : State) : State :=
  let v := viewOf g die x
  let j := hChunk h
  let first := hFirst h
  let final := v.start j == v.me && v.out j
  if !final && (v.start j == v.me || (mFind x.got (gotKey j first)).isSome) then s else
    let own := (ownChunk x v.l j).drop first
    let ys := if final ∨ hAction h = 0 then us else (us.zip own).map fun p => combine x.desc p.1 p.2
    let s1 := updColl die x.cid (putGot j first ys) s
    if final then s1 else sendOn die g x v.st h (unitBytes (xUnit x.desc) ys) (passOn v x j first ys) s1
/-- A piece arrives in a spreading stage: it is delivered here if its action says so (R343), and forwarded unless its round
is done. -/
def takeSpread (g : GroupCfg) (die : Nat) (x : Coll) (h : List Word) (us : List Nat) (s : State) : State :=
  let v := viewOf g die x
  let j := hChunk h
  match freshAt x j (partLen g die x j) (hFirst h) with
  | none => s
  | some first =>
    let s1 := if 2 ≤ hAction h then updColl die x.cid (putGot j first us) s else s
    let to_ := nextOn g die v.st x.excl v.me
    let leg (s : State) : State :=
      if to_ = v.origin j ∨ to_ = v.me then s else
        sendNext die g x v.st (hStage h) j (hFirst h) (spreadAction v j) (unitBytes (xUnit x.desc) us) s
    sendOn die g x v.st h (unitBytes (xUnit x.desc) us) leg s1
/-- A packet that the engine takes up. -/
def takePacket (die src : Nat) (g : GroupCfg) (h : List Word) (mask : Nat) (payload : List Byte) (s : State) : State :=
  if hStage h = 7 then takeToken die src g h mask payload s else
    match collOf s die (hSlot h) (hQ h) with
    | none => s
    | some x =>
      if hStage h = 6 then endColl die x.cid 1 s
      else
        let from_ := memberOf g (hDev h)
        let late := x.excl.testBit from_ && from_ != g.own
        let s1 := learnMask die x.cid mask (updColl die x.cid (fun x => { x with timer := 0 }) s)
        let y := (collAt s1 die x.cid).getD x
        let w := xUnit x.desc
        let us := unitsOf w (payload.length / w) payload
        if !atStage g y (pktStage g die src h) h then s1
        else if late && xReduces x.desc && !x.back then returnLate die g h y.excl s1
        else goOnAll die x.cid
          (if xReduces x.desc && !x.back then takeReduce g die y h us s1 else takeSpread g die y h us s1)
/-- A packet in a die's staging can be taken up, passed over or dropped. -/
def canTake (s : State) (die : Nat) (p : Pkt) : Bool := pktVerdict s die p.src p.hdr != .wait
/-- The first packet in a die's staging that can be taken up or dropped. -/
def readyPacket (s : State) (die : Nat) : Option Pkt := (s.die die).inbox.find? (canTake s die)
/-- PACKET: a packet reaches an engine, from the pod or from the staging it waits in. -/
def recvPacket (die : Nat) (hdr : List Word) (mask : Nat) (payload : List Byte) (s : State) : State :=
  let same (p : Pkt) : Bool := p.hdr == hdr && p.mask == mask && p.payload == payload
  let held := ((s.die die).inbox.find? fun p => same p && canTake s die p) <|> (s.die die).inbox.find? same
  let src := (held.map (·.src)).getD die
  let s1 := match held with
    | some p => s.updDie die fun d => { d with inbox := d.inbox.erase p }
    | none => s
  match pktVerdict s1 die src hdr, (slotAt s1 die (hSlot hdr)).cfg with
  | .wait, _ =>
    let p : Pkt := { dev := s.host.device, die := die, src := src, hdr := hdr, mask := mask, payload := payload }
    if held.isSome then s else s.updDie die fun d => { d with inbox := d.inbox ++ [p] }
  | .take, some g => takePacket die src g hdr mask payload (returnPermit die src hdr s1)
  | .stale, some g => returnLate die g hdr mask (returnPermit die src hdr s1)
  | .silent, _ => returnPermit die src hdr s1
  | _, _ => s1.updDie die fun d => { d with errs := d.errs + 1 }

/-! ### Step timeouts (R347) -/
/-- The engine still waits for others: in the tag round, in a stage, or for a permit to send (DEDUCED, log 20). -/
def collWaits (s : State) (die : Nat) (x : Coll) : Bool :=
  !x.still && (x.phase == 1 || x.phase == 2 || (x.phase == 3 && (s.die die).outbox.any (isOf x)))
/-- A step timeout is due. -/
def timeoutDue (s : State) (die : Nat) (x : Coll) : Bool :=
  collWaits s die x && (collCfg s die x).any fun g => g.timeout != 0 && decide (1024 * g.timeout ≤ x.timer)
/-- STEP_TIMEOUT (R347): the member waited for is excluded; while only its own package keeps it waiting, it waits
on, and a token lost on the way is sent again. -/
def stepTimeout (die cid : Nat) (s : State) : State :=
  match collAt s die cid with
  | none => s
  | some x =>
    match collCfg s die x with
    | none => s
    | some g =>
      if !timeoutDue s die x then s
      else if waitedFor s die g x = g.own then
        let s1 := updColl die cid (fun x => { x with timer := 0 }) s
        if x.phase = 1 then sendToken g die x s1 else s1
      else excludeMember die cid (waitedFor s die g x) s
/-- n local cycles of an engine pass for its waiting collectives. -/
def tickColl (die n : Nat) (s : State) : State :=
  if (s.die die).colls.isEmpty then s else
    s.updDie die fun d => { d with colls := d.colls.map fun x => if collWaits s die x then { x with timer := x.timer + n } else x }
/-- A collective excludes a peer that stands on its present ring, or that a packet of it waits for (R351, R347). -/
def collTimeout (p die cid : Nat) (s : State) : State :=
  match collAt s die cid with
  | none => s
  | some x =>
    match collCfg s die x with
    | none => s
    | some g =>
      let c := memberOf g p
      let ring := (rangeFrom 0 (stageLen g (x.stageNo g))).map fun j => (ringPlace g die (x.stageNo g) j).c
      let near := (x.phase != 3 && ring.contains c) || (s.die die).outbox.any fun o => isOf x o && o.2.dev == p
      if collWaits s die x ∧ c < gMembers g ∧ c ≠ g.own ∧ near ∧ !x.excl.testBit c then
        excludeMember die cid c (postRecord (collRecord x 0x0B p 0 die) s)
      else s

/-! ### Completion (R357) -/
/-- The destination of a collective at a rank: units from an element on, side bytes, and the destination's length. -/
structure DestView where
  units : List Nat
  start : Nat
  sides : List Nat
  len : Nat
/-- What a collective leaves at its destination (R353), whatever its status. -/
def fullDest (g : GroupCfg) (die : Nat) (x : Coll) : DestView :=
  let r := x.desc
  let v := x.cur
  let rank := gRank g die
  let e := xElems r
  let part (i : Nat) : List Nat := (v.drop (i * xPart r)).take (xPart r)
  let len := if xColl r = 2 then gRanks g * xN r
    else if xColl r = 4 then (if rank = xRoot r then gRanks g * xN r else 0) else xN r
  if xColl r = 4 then
    (if rank = xRoot r then
      { units := (rangeFrom 0 (gRanks g)).flatMap fun i => (part i).take e, start := 0,
        sides := (rangeFrom 0 (gRanks g)).flatMap fun i => (part i).drop e, len := len }
    else { units := [], start := 0, sides := [], len := len })
  else if xColl r = 5 then { units := (part rank).take e, start := 0, sides := (part rank).drop e, len := len }
  else { units := v, start := x.off, sides := [], len := len }
/-- What it writes there: one that has ended otherwise writes no more than it has (R357, R359). -/
def destOf (g : GroupCfg) (die : Nat) (x : Coll) : DestView :=
  let d := fullDest g die x
  if x.phase == 3 && (x.status == 0 || x.status == 2 || x.status == 0x0C) then d
  else { d with units := d.units.take x.put, sides := d.sides.take (x.put - d.units.length) }
/-- Write the units that arrived, run after run. -/
def writeUnits (part va w : Nat) (us : List Nat) (s : State) : Option (MemFault × Nat) × State :=
  (piecesOf w us).foldl (fun r p =>
    match r.1 with
    | some e => (some e, r.2)
    | none => engineWrite part (va + w * p.1) (unitBytes w p.2) r.2) (none, s)
/-- The elements that a destination received. -/
def DestView.has (d : DestView) (per e : Nat) : Bool :=
  decide (d.start * per ≤ e) && decide (d.units.getD (e / per - d.start) (2 ^ 32) < 2 ^ 32)
/-- The status recorded: the highest that applies. -/
def finalStatus (x : Coll) : Nat := if x.status = 0 ∧ x.excl ≠ 0 then 2 else x.status
/-- The 192 bytes of a result record. -/
def resultRecord (x : Coll) (d : DestView) : List Byte :=
  let per := xPer x.desc
  let got := (d.units.filter fun u => decide (u < 2 ^ 32)).length * per
  let step := max 1 ((d.len + 255) / 256)
  let bits := ((rangeFrom 0 256).map fun k =>
    if decide (k * step < d.len) && (rangeFrom (k * step) (min step (d.len - k * step))).all (d.has per) then 2 ^ k else 0).sum
  let excl := ((rangeFrom 0 1024).filter fun c => x.excl.testBit c).length
  leBytes (finalStatus x + if got < d.len then 256 else 0) 4 ++ leBytes x.q 4 ++
    leBytes (xTag x.desc + 65536 * (excl % 1024)) 4 ++ leBytes got 4 ++ leBytes 0 16 ++ leBytes bits 32 ++ leBytes x.excl 128
/-- A page fault at the destination holds the collective, which has written so many units and side bytes (R351). -/
def holdColl (die : Nat) (x : Coll) (put : Nat) (e : MemFault × Nat) (s : State) : State :=
  postRecord (collRecord x e.1.code e.1.detail e.2 die) (updColl die x.cid (fun x => { x with held := true, put := put }) s)
/-- The engine forgets a collective and keeps its status for CXSTAT (R358). -/
def retireColl (die : Nat) (x : Coll) (s : State) : State :=
  let s1 := s.updDie die fun d => { d with colls := d.colls.filter fun y => y.cid != x.cid }
  let s2 := updSlot die x.slot (fun sl => { sl with last := ((x.q, finalStatus x, x.excl) :: sl.last).take 16 }) s1
  blockEnd x.bk (removeJob (quadOf x.core) x.jid s2)
/-- Write the destination from where the collective stands: its units, then its side bytes; a fault with what is written. -/
def writeDest (x : Coll) (d : DestView) (s : State) : Option (Nat × MemFault × Nat) × State :=
  let r := x.desc
  let w := xUnit r
  let at_ := xDst r + w * d.start
  match writeUnits x.part (at_ + w * x.put) w (d.units.drop x.put) s with
  | (some e, s1) => (some (max x.put ((e.2 - at_) / w), e), s1)
  | (none, s1) =>
    let k := x.put - d.units.length
    match writeUnits x.part (xDside r + k) 1 (d.sides.drop k) s1 with
    | (some e, s2) => (some (d.units.length + max k (e.2 - xDside r), e), s2)
    | (none, s2) => (none, s2)
/-- A COLLECTIVE ENDS (R357): destination, record, counter, status, in this order. -/
def completeColl (die cid : Nat) (s : State) : State :=
  match collAt s die cid with
  | none => s
  | some x =>
    let r := x.desc
    let d := match collCfg s die x with
      | some g => destOf g die x
      | none => { units := [], start := 0, sides := [], len := 0 }
    match writeDest x d s with
    | (some (n, e), s1) => holdColl die x n e s1
    | (none, s1) =>
      match (if xRrec r = 0 then (none, s1) else engineWrite x.part (xRrec r) (resultRecord x d) s1) with
      | (some e, s2) => holdColl die x (d.units.length + d.sides.length) e s2
      | (none, s2) =>
        let fine := finalStatus x = 0 ∨ finalStatus x = 2
        let s3 := match xSig r with
          | some n => decrement (quadOf x.core) n 1 (if fine then .no else .failed) x.gid s2
          | none => s2
        retireColl die x s3

end Sys2Proof.Machine
end

