-- ==== Sys2Proof/Machine/CollInstr.lean ====
section
/-! DEFINITION. CXPOST, CXSTAT and CXRESET (R354 to R359), and the collective engines' steps. -/
namespace Sys2Proof.Machine

/-! ### CXPOST (R355, R356) -/
/-- The combinations of R353. -/
def xAccepted (r : List Word) : Bool :=
  let c := xColl r
  if c ≤ 1 then decide (xOp r ≤ 2) && decide (xFmt r ≤ 1)
  else if c ≤ 3 then xOp r == 0 && decide (xFmt r ≤ 3)
  else decide (c ≤ 5) && xOp r == 0 && decide (xFmt r ≤ 6)
/-- A misplaced address. -/
def xMisplaced (r : List Word) : Bool :=
  xSrc r % 16 != 0 || xDst r % 16 != 0 || (xSided r && (xSside r % 2 != 0 || xDside r % 2 != 0)) || xRrec r % 64 != 0 ||
    [xSrc r, xDst r, xSside r, xDside r, xRrec r].any fun a => decide (2 ^ 55 ≤ a)
/-- The first row of R355 that holds. -/
def xCheck (s : State) (b : Block) (r : List Word) : Option Nat :=
  let die := dieOf b.core
  if xKind r ≠ 0x20 ∨ xReserved r then some 0x50
  else if !xAccepted r then some 0x51
  else if xN r = 0 ∨ 0x0FFFFFFF < xN r ∨ (xSided r ∧ xN r % 32 ≠ 0) then some 0x52
  else
    match (slotAt s die (xSlot r)).cfg with
    | none => some 0x53
    | some g =>
      if !g.dies.getLsbD die || g.part != b.part then some 0x53
      else if (if 3 ≤ xColl r then decide (gRanks g ≤ xRoot r) else xRoot r != 0) then some 0x54
      else if xMisplaced r then some 0x55
      else if (xSig r).any (fun n => !ctrOwned s (quadOf b.core) n b.part) ||
          (xWait r).any (fun n => !ctrOwned s (quadOf b.core) n b.part) then some 0x41
      else none
/-- The footprint (R348, R353). -/
def xRegions (s : State) (b : Block) (r : List Word) : List Region :=
  match (slotAt s (dieOf b.core) (xSlot r)).cfg with
  | none => []
  | some g =>
    let (ne, nd) := sourceLens g (dieOf b.core) r
    let m := if xColl r = 2 then gRanks g
      else if xColl r = 4 then (if gRank g (dieOf b.core) = xRoot r then gRanks g else 0) else 1
    let reg (lo n : Nat) (w : Bool) : List Region :=
      if n = 0 then [] else [{ space := .global b.gid, lo := lo, hi := lo + n, write := w }]
    reg (xSrc r) ne false ++ reg (xSside r) nd false ++ reg (xDst r) (m * xElems r * xUnit r) true ++
      reg (xDside r) (m * xSides r) true ++ (if xRrec r = 0 then [] else reg (xRrec r) 192 true)
/-- A ticket (R356). -/
def cxTicket (die slot q : Nat) : Word := BitVec.ofNat 32 (2 ^ 30 * die + 2 ^ 24 * slot + q % 2 ^ 24)
/-- The collective arrives at the yard and takes its q; on a FAULTED slot it completes at once with CXMISMATCH. -/
def collArrive (b : Block) (r : List Word) (s : State) : State :=
  let die := dieOf b.core
  let q := quadOf b.core
  let sl := slotAt s die (xSlot r)
  let cid := (s.die die).nextCid
  let j : Job := { jid := 0, gid := b.gid, bk := b.bk, part := b.part, core := b.core, kind := .coll die cid,
                   regions := xRegions s b r, edges := [], admitted := false, wait := xWait r,
                   waitDone := waitOver s q (xWait r) }
  let x : Coll := { cid := cid, slot := xSlot r, q := sl.seq, desc := r, bk := b.bk, gid := b.gid, part := b.part,
                    core := b.core, jid := (s.quad q).nextJid, phase := 0, stage := 0, back := false, vecs := [], off := 0,
                    got := [], excl := 0, status := 0, held := false, saved := false, begun := false, put := 0, timer := 0 }
  let s1 := (addJob q j s).updDie die fun d => { d with colls := d.colls ++ [x], nextCid := cid + 1 }
  let s2 := updSlot die (xSlot r) (fun y => { y with seq := (y.seq + 1) % 2 ^ 32 }) s1
  if sl.faulted then
    completeColl die cid (postRecord (collRecord x 0x14 (xSlot r) 0 die) (endColl die cid 0x14 s2))
  else s2
/-- CXPOST (R356): committing; the record is read after the warp's fences. -/
def execCxpost (_sw : Bool) (d a : Reg) (s : State) : Res :=
  .next (operandsOr [⟨0, d, warpOrZ d⟩, ⟨1, a, uniCode a && evenCode a⟩] s
    (withRecord 64 64 a (fun r s1 =>
      match xCheck s1 s1.cb r with
      | some n => raiseEngine n s1.cur.pc s1
      | none =>
        let die := dieOf s1.cur.core
        outWordB d (cxTicket die (xSlot r) (slotAt s1 die (xSlot r)).seq) (collArrive s1.cb r s1)) s))

/-! ### CXSTAT (R358) -/
/-- The status pair of a ticket: state and status, q, and whether it reports the collective complete. -/
def cxStatus (s : State) (t : Word) : Nat × Nat × Bool :=
  let die := dieOf s.cur.core
  let n := bitsAt t 24 6
  let q := bitsAt t 0 24
  if bitsAt t 30 2 ≠ die then (3, 0, false) else
    match (s.die die).colls.find? fun x => x.slot == n && x.q % 2 ^ 24 == q with
    | some x => (if x.phase = 0 ∧ !x.begun then 0 else 1, x.q, false)
    | none =>
      match (slotAt s die n).last.find? fun x => x.1 % 2 ^ 24 == q with
      | some x => (2 + 256 * x.2.1, x.1, true)
      | none => (3, 0, false)
/-- CXSTAT (R358): a report of completion is an acquire of device scope (R226). -/
def execCxstat (_sw : Bool) (d a : Reg) (s : State) : Res :=
  .next (operandsOr [⟨0, d, warpOrZ d && evenCode d⟩, ⟨1, a, uniCode a⟩] s
    (let (st, q, isDone) := cxStatus s (s.usrc a)
     outPair d (BitVec.ofNat 32 st) (BitVec.ofNat 32 q) (if isDone then acquireDrop s.cur.core .d s else s)))

/-! ### CXRESET (R359) -/
/-- Every collective of the slot that has not completed ends with STATUS 0x03; the slot is as configured afresh. -/
def resetSlot (die n : Nat) (s : State) : State :=
  let cs := (s.die die).colls.filter fun x => x.slot == n
  let s1 := cs.foldl (fun s x => completeColl die x.cid (endColl die x.cid 3 s)) s
  let s2 := s1.updDie die fun d => { d with outbox := d.outbox.filter fun o => hSlot o.2.hdr != n }
  updSlot die n (fun y => { y with faulted := false, seq := 0, silent := [] }) s2
/-- CXRESET (R359): not committing. -/
def execCxreset (_sw : Bool) (a : Reg) (s : State) : Res :=
  .next (operandsOr [⟨1, a, uniCode a⟩] s
    (let v := s.usrc a
     let die := dieOf s.cur.core
     if 64 ≤ v.toNat ∨ !((slotAt s die v.toNat).cfg.any fun g => g.part == s.cb.part) then raiseEngine 0x53 s.cur.pc s
     else done (resetSlot die v.toNat s)))

/-! ### The engines' steps -/
/-- COLLECTIVE_ADMISSION (R340, R348, R356). -/
def execCollectiveAdmission (die cid : Nat) (s : State) : Res :=
  .next (match collAt s die cid with
    | some x => if collReady s die x then admitColl die cid s else s
    | none => s)
/-- PACKET (R343). -/
def execPacket (die : Nat) (hdr : List Word) (mask : Nat) (payload : List Byte) (s : State) : Res :=
  .next (recvPacket die hdr mask payload s)
/-- SEND_PERMIT (R344). -/
def execSendPermit (die link : Nat) (s : State) : Res := .next (givePermit die link s)
/-- STEP_TIMEOUT (R347). -/
def execStepTimeout (die cid : Nat) (s : State) : Res := .next (stepTimeout die cid s)
/-- A collective that has ended can be reported: it stands still for no fault and no pre-emption, and its packets have
left (DEDUCED, log 20). -/
def collDone (s : State) (die : Nat) (x : Coll) : Bool := x.phase == 3 && !x.still && !(s.die die).outbox.any (isOf x)
/-- COLLECTIVE_COMPLETION (R357). -/
def execCollectiveCompletion (die cid : Nat) (s : State) : Res :=
  .next (match collAt s die cid with
    | some x => if collDone s die x then completeColl die cid s else s
    | none => s)

end Sys2Proof.Machine
end

