-- ==== Sys2Proof/Machine/EvLane.lean ====
section
/-! DEFINITION. Steps of the lane engine: the return of outstanding results (R49 to R51, R123), arrivals at back banks (R124,
R127), barrier completion (R15, R16, R130, R201), remote exchange stores (R186), WAITM's further readings (R200). A step
whose condition does not hold leaves the state as it is. -/
namespace Sys2Proof.Machine

/-! ### Outstanding results -/
/-- A result's bytes may still be taken anew: a plain load that nothing has looked at since, and that no later local access
of its warp has passed (R219 Load, R50, R233). -/
def Out.resamples (o : Out) : Bool := o.load.any fun x => x.kind.acquires.isNone && !o.seen
/-- The registers take the values (R51 has removed those written since) and the flags are raised (R75). -/
def deliverOut (wk : Nat) (o : Out) (s : State) : State :=
  s.updWarp wk fun w =>
    let w1 := o.writes.foldl (fun w x => storeDest x w) w
    { w1 with fpflags := w1.fpflags ||| o.flags }
/-- An agreed result reaches its ply or warp registers, but for those that a later issue has written (R51, R128). -/
def agreedOut (o : Out) (s : State) : State :=
  match agreeWrites o.dest o.pair o.vals with
  | some _ => o.fin.apply (raiseFlags o.flags (s.updCw fun w => o.writes.foldl (fun w x => storeDest x w) w))
  | none => raiseAgree o.dest s
/-- An agreement write is compared when its result returns, and its instruction ends (R123). -/
def compareOut (wk : Nat) (o : Out) (s : State) : State :=
  match (s.warp wk).parks.find? fun p => p.why == .compare o.id with
  | some p =>
    takeUp wk p (if o.dest.toNat < 108 then agreedOut o else writeNowResult o.fin o.dest o.pair o.vals o.flags) s
  | none => s
/-- A result returns. -/
def returnOut (wk : Nat) (o : Out) (s : State) : State :=
  let s1 := s.updWarp wk fun w => { w with outs := w.outs.filter fun x => x.id != o.id }
  if o.agree then compareOut wk o s1 else deliverOut wk o s1
/-- The result of a number, if it can return. -/
def readyOut (s : State) (wk id : Nat) : Option Out := (s.warp wk).outs.find? fun o => o.id == id && !o.unknown
/-- OUTSTANDING_RESULT_RETURN: with `late`, a plain load takes its bytes at the return, not at the issue. -/
def execOutstandingResultReturn (wk id : Nat) (late : Bool) (s : State) : Res :=
  .next (match readyOut s wk id with
    | none => s
    | some o =>
      if late && o.resamples then
        let s1 := sampleLoad wk id (recheckLoad wk id s)
        match readyOut s1 wk id with
        | some o1 => returnOut wk o1 s1
        | none => s1
      else returnOut wk o s)

/-! ### Back banks of clusters and grids (R123 to R127) -/
/-- Writes of one core reach the banks in their order of issue (DEDUCED, log 10). -/
def bankFirst (s : State) (x : BankWrite) : Bool :=
  !(s.mem.bankq.takeWhile fun y => y.id != x.id).any fun y => y.core == x.core
/-- The write is checked and applied, for the bundle that waits on its acceptance. -/
def bankApply (x : BankWrite) (s : State) : State :=
  match x.red with
  | none =>
    match bankWriteAgree s s.cb x.code.toNat x.pair ((x.vals.headD (0, 0)).2) with
    | .ok s1 => x.fin.apply (raiseFlags x.flags s1)
    | .error true => raiseMixed x.code s
    | .error false => raiseAgree x.code s
  | some k =>
    match bankReduce (scopedOf s s.cb x.code.toNat) k (x.vals.map fun v => v.2.setWidth 32) with
    | .ok r => x.fin.apply (setScoped s s.cb x.code.toNat r)
    | _ => raiseMixed x.code s
/-- A write arrives at its bank. -/
def bankArrive (x : BankWrite) (s : State) : State :=
  let s1 := s.updMem fun m => { m with bankq := m.bankq.filter fun y => y.id != x.id }
  match (s1.warp x.wk).parks.find? fun p => p.why == .bank x.id with
  | some p => takeUp x.wk p (bankApply x) s1
  | none => s1
/-- BACK_BANK_ARRIVAL. -/
def execBackBankArrival (id : Nat) (s : State) : Res :=
  .next (match s.mem.bankq.find? fun x => x.id == id with
    | some x => if bankFirst s x then bankArrive x s else s
    | none => s)

/-! ### Barriers (R15, R16, R201) -/
/-- The blocks a barrier of a block spans. -/
def barrierBlocks (s : State) (bk : Nat) (cluster : Bool) : List Nat :=
  if cluster then (s.cluster (s.block bk).ck).blocks else [bk]
/-- The warps that a barrier waits for: not retired, and no waves. -/
def barrierWarps (s : State) (bks : List Nat) : List (Nat × Warp) :=
  s.warps.filter fun kw => bks.contains kw.2.bk && !kw.2.retiredW && !kw.2.isWave
/-- Writes of R16 that have not reached their banks; for a cluster barrier those of blocks that have ended too. -/
def bankPending (s : State) (cluster : Bool) (bks : List Nat) : Bool :=
  (s.mem.bankq.any fun x => bks.contains (s.warp x.wk).bk && decide (x.code.toNat < 120)) ||
    s.mem.xq.any fun x => bks.contains (s.warp x.wk).bk || (cluster && bks.contains x.toBk)
/-- A barrier may complete. -/
def barrierReady (s : State) (bk : Nat) (cluster : Bool) : Bool :=
  let bks := barrierBlocks s bk cluster
  let ws := barrierWarps s bks
  bks.contains bk && !ws.isEmpty && ws.all (fun kw => barArrived kw.2 cluster) &&
    !bankPending s cluster bks && bks.all fun k => !(s.block k).isStopped && betweenTurns s (s.block k).core (s.block k).part
/-- The registers and banks of a block that a barrier swaps. -/
def swapBlock (cluster : Bool) (b : Block) : Block :=
  { b with bregs := b.bregs.map fun kr => (kr.1, publish kr.2), bphase := b.bphase + 1,
           xfront := if cluster then b.xback else b.xfront }
/-- Lanes go on from a barrier, and yield bits clear (R109). -/
def leaveBarrier (cluster : Bool) (w0 : Warp) : Warp :=
  let w := barBoundary cluster w0
  { w with parks := w.parks.filter fun p => p.why != .bar cluster, lanes := w.lanes.map fun x => { x with yld := false } }
/-- A BARRIER COMPLETES: the release of every warp, the swap of the banks, the acquire of every warp. With block scope the
releases have moved nothing, and what has not performed stands before what the warps do next (R223, R225)
(DEDUCED, log 10). -/
def completeBarrier (bk : Nat) (cluster : Bool) (s : State) : State :=
  let sc : Scope := if cluster then .c else .b
  let bks := barrierBlocks s bk cluster
  let wks := (barrierWarps s bks).map (·.1)
  let s1 := if cluster then wks.foldl (fun s wk => forceRelease wk sc s) s else s
  let hb := wks.flatMap fun wk => (s1.warp wk).hb
  let s2 := bks.foldl (fun s k => s.updBlock k (swapBlock cluster)) s1
  let s3 := if cluster then
      s2.updCluster (s.block bk).ck fun c => { c with cregs := c.cregs.map fun kr => (kr.1, publish kr.2) }
    else s2
  wks.foldl (fun s wk =>
    acquireDrop (s.block (s.warp wk).bk).core sc ((addHb wk hb s).updWarp wk (leaveBarrier cluster))) s3
/-- BARRIER_COMPLETION. -/
def execBarrierCompletion (bk : Nat) (cluster : Bool) (s : State) : Res :=
  .next (if barrierReady s bk cluster then completeBarrier bk cluster s else s)

/-! ### Remote exchange stores (R186, R234) -/
/-- In the issue order of one core, behind the fences that its warp issued before it. -/
def xstoreFirst (s : State) (x : XStore) : Bool :=
  !((s.mem.xq.takeWhile fun y => y.id != x.id).any fun y => y.src == x.src) &&
    !((s.warp x.wk).memq.any fun o => o.fence && decide (o.id < x.opId))
/-- A remote store's bytes arrive. -/
def xstoreArrive (x : XStore) (s : State) : State :=
  deliverRemote x.toBk x.off x.slot x.data (s.updMem fun m => { m with xq := m.xq.filter fun y => y.id != x.id })
/-- EXCHANGE_STORE_ARRIVAL. -/
def execExchangeStoreArrival (id : Nat) (s : State) : Res :=
  .next (match s.mem.xq.find? fun x => x.id == id with
    | some x => if xstoreFirst s x then xstoreArrive x s else s
    | none => s)

/-! ### WAITM (R200) -/
/-- A WAITM that completes starts the count of a dispatch stall again (R255). -/
def restartStall (gid : Nat) (s : State) : State := s.updGrid gid fun g => { g with dstall := 0 }
/-- A satisfied WAITM completes. -/
def waitmEnds (wk : Nat) (p : Park) (r : Bool × State) : State :=
  if r.1 then restartStall (r.2.block (r.2.warp wk).bk).gid (takeUp wk p done r.2) else r.2
/-- The address of a waited word, as the pair holds it. -/
def waitmAddr (loc : Bool) (a : LaneAcc) : DWord := BitVec.ofNat 64 (if loc then 0xFFFFFFFF * 2 ^ 32 + a.va else a.va)
/-- A reading goes through its checks and translation again; a fault is raised for the waiting lanes (R183, R200). -/
def waitmAgain (wk : Nat) (p : Park) (loc : Bool) (a : LaneAcc) (c : Cond) (v : Word) (s : State) : State :=
  match uniformAcc .read 4 4 (waitmAddr loc a) (resumeCur wk p s) with
  | (.error _, _) =>
    takeUp wk p (fun s => match uniformAcc .read 4 4 (waitmAddr loc a) s with
      | (.error t, _) => t
      | (.ok _, t) => t) s
  | (.ok x, s1) => waitmEnds wk p (waitmTry wk loc x.2 c v (s1.setCur s.cur))
/-- WAITM_READ_AGAIN: the g-th parked group of a warp reads its word again. -/
def execWaitmReadAgain (wk g : Nat) (s : State) : Res :=
  .next (match (s.warp wk).parks[g]? with
    | some p => (match p.why with
      | .waitm loc a c v =>
        if !betweenTurns s (s.block (s.warp wk).bk).core (s.block (s.warp wk).bk).part then s
        else waitmAgain wk p loc a c v s
      | _ => s)
    | none => s)

end Sys2Proof.Machine
end

