-- ==== Sys2Proof/Machine/EvMemory.lean ====
section
/-! DEFINITION. Steps of the ordering machine (R219) and of the homes (R222, R227). A step whose condition does not hold
leaves the state as it is. -/
namespace Sys2Proof.Machine

/-- The i-th operation of a warp's stream. -/
def opAt (s : State) (wk i : Nat) : Option MemOp := (s.warp wk).memq[i]?
/-- PERFORM_STORE (R219): the i-th operation of a warp's stream performs, if nothing holds it. -/
def execPerformStore (wk i : Nat) (s : State) : Res :=
  .next (match opAt s wk i with
    | some o => performLate wk o.id s
    | none => s)
/-- EVICT (R219). -/
def execEvict (core sector : Nat) (s : State) : Res := .next (evictWhere core (fun x => x == sector) s)
/-- ARRIVE (R219): one write of a flight. -/
def execArrive (fid : Nat) (s : State) : Res :=
  .next (match s.mem.flights.find? fun f => f.fid == fid with
    | some f => if flightFirst s f then arriveOne f s else s
    | none => s)
/-- DROP (R219, R232): a core's snapshot, or a quad's read-only one. -/
def execDrop (ro : Bool) (unit sector : Nat) (s : State) : Res :=
  .next (if ro then s.updQuad unit fun q => { q with roSnaps := mErase q.roSnaps sector }
    else s.updCore unit fun c => { c with snaps := mErase c.snaps sector })
/-- LLC_FILL (R222, R369): a line's fill displaces another line of its set, in a way that its partition may fill and first
for replacement there; dirty bytes go back to HBM, count and scope record are lost (R230, R370) (DEDUCED, log 6). -/
def execLlcFill (line victim : Nat) (s : State) : Res :=
  .next (match mFind s.mem.lines line with
    | some l => if (s.mem.victims l.way line).contains victim then s.updMem fun m => m.dropLine true victim else s
    | none => s)
/-- In deterministic mode the atomics of a core reach their homes in issue order (R115). -/
def atomInTurn (s : State) (a : AtomReq) : Bool :=
  !coreDet s a.core || !((s.mem.atoms.takeWhile fun x => x.id != a.id).any fun x => x.core == a.core)
/-- An atomic may be performed; one at a peer takes a place in the peer's queue slice (R382). -/
def atomReady (s : State) (a : AtomReq) : Bool :=
  !atomBlocked s a && atomInTurn s a && (a.acc.peer.all fun p => sliceRoom s p 1 s.mem.flights)
/-- ATOMIC_PERFORM_AT_HOME (R190, R191, R227, R228). -/
def execAtomicPerformAtHome (id : Nat) (s : State) : Res :=
  .next (match s.mem.atoms.find? fun a => a.id == id with
    | some a => if atomReady s a then performAtomLate a s else s
    | none => s)

end Sys2Proof.Machine
end

