-- ==== Sys2Proof/Machine/EvCopy.lean ====
section
/-! DEFINITION. Steps of the copy engine (R264 to R267, R272). A step whose condition does not hold leaves the state as it
is. -/
namespace Sys2Proof.Machine

/-- The command at a channel's C. -/
def headCmd (s : State) (bk ch : Nat) : Option CopyCmd := (s.chan bk ch).cmds.head?
/-- A channel's head has gone: parked CPWAITs look again, and the block may end (R265, R279). -/
def afterHead (bk ch : Nat) (s : State) : State := blockEnd bk (checkCpwaits bk ch s)
/-- A held entry whose disposition was resume is skipped once C has reached it (R272). -/
def canSkip (x : CopyCmd) : Bool := x.held.isSome && x.skip
/-- A command may start: the yard has admitted it, and none of its block's pre-emption stands in the way (R264). -/
def canStart (s : State) (bk : Nat) (x : CopyCmd) : Bool :=
  x.held.isNone && !x.started && !(s.block bk).isStopped &&
    (s.job (quadOf (s.block bk).core) x.jid).any (·.admitted)
/-- A command starts at the channel's pointer; one that moves nothing completes at once (R268). -/
def startCopy (bk ch : Nat) (x : CopyCmd) (s : State) : State :=
  let p := (s.chan bk ch).wp
  let s1 := updHead bk ch (fun y => { y with started := true, p0 := p }) s
  if cTotal x.words = 0 then afterHead bk ch (completeCopy bk ch s1) else s1
/-- COPY_COMMAND_START. -/
def execCopyCommandStart (bk ch : Nat) (s : State) : Res :=
  .next (match headCmd s bk ch with
    | some x => if canSkip x then afterHead bk ch (skipCopy bk ch s)
        else if canStart s bk x then startCopy bk ch x s else s
    | none => s)

/-- A command may deliver: it runs, and a pre-emption lets it reach the next 1 KiB multiple only (R248, R273). -/
def canDeliver (s : State) (bk : Nat) (x : CopyCmd) : Bool :=
  x.started && !x.parked && !((s.block bk).isStopped && x.delivered % 1024 == 0)
/-- The positions of the next chunk, up to a 128-byte multiple of the delivered count. -/
def nextChunk (x : CopyCmd) : List Nat :=
  rangeFrom x.delivered (min (cTotal x.words) (x.delivered / 128 * 128 + 128) - x.delivered)
/-- What the head command of a channel has read goes into it. -/
def keepReads (bk ch : Nat) (d : Deliv) : State := updHead bk ch (fun y => { y with sectors := d.sectors, slice := d.slice }) d.s
/-- A running command of a killed grid is dropped: its pointer keeps the last value it reached (R257, R273). -/
def dropCopy (bk ch : Nat) (s : State) : State :=
  match headCmd s bk ch with
  | some x => afterHead bk ch (removeJob (quadOf (s.block bk).core) x.jid (updChan bk ch (fun c => { c with cmds := [] }) s))
  | none => s
/-- What follows a chunk: the bytes count (R267, R269), a soft failure marks the command, once with a record; a page fault
parks it (R272). A killed grid's command goes on to the next line of its delivered bytes only (R257)
(DESIGN CHOICE, log 9). -/
def settleChunk (bk ch : Nat) (b : Block) (x : CopyCmd) (d : Deliv) : State :=
  let n := x.delivered + d.n
  let s1 := updHead bk ch (fun y => { y with delivered := n, failed := y.failed || d.bad.isSome })
    (countRemote b x.words d.n (keepReads bk ch d))
  let killed := (s1.grid b.gid).killed.isSome
  let s2 := match d.bad with
    | some f => if x.failed || killed then s1 else
        postRecord (copyRecord b ch f.code f.detail (cGaddr x.words) .none) s1
    | none => s1
  let s3 := match d.fault with
    | some (f, a) => if killed then s2 else
      postRecord (copyRecord b ch f.code f.detail a (.copy bk ch)) (updHead bk ch (fun y => { y with parked := true }) s2)
    | none => s2
  if n = cTotal x.words then afterHead bk ch (completeCopy bk ch s3)
  else if killed && (d.fault.isSome || n % 1024 == 0) then dropCopy bk ch s3
  else checkCpwaits bk ch s3
/-- The running commands of a core's copy engine that may deliver, as 8 * block slot + channel. -/
def copyReady (s : State) (core : Nat) : List Nat :=
  (s.blocks.filter fun kb => kb.2.core == core).flatMap fun kb => (kb.2.chans.filter fun kc =>
    kc.2.cmds.head?.any (canDeliver s kb.1)).map fun kc => 8 * kb.2.slot + kc.1
/-- How far a channel stands behind the one served last. -/
def copyDist (served : Option Nat) (k : Nat) : Nat :=
  match served with
  | some n => if n < k then k else k + 2 ^ 16
  | none => k
/-- ROUND-ROBIN (R264): a channel is next where no other that may deliver comes before it, after the one served last
(DEDUCED, log 9). -/
def copyTurn (s : State) (bk ch : Nat) : Bool :=
  let b := s.block bk
  let last := (s.coreAt b.core).served
  (copyReady s b.core).all fun k => decide (copyDist last (8 * b.slot + ch) ≤ copyDist last k)
/-- The engine has served a channel. -/
def serveChan (bk ch : Nat) (s : State) : State :=
  s.updCore (s.block bk).core fun c => { c with served := some (8 * (s.block bk).slot + ch) }
/-- COPY_DELIVERY (R264, R267): the next chunk is delivered and counted. -/
def execCopyDelivery (bk ch : Nat) (s : State) : Res :=
  .next (match headCmd s bk ch with
    | some x =>
      if canDeliver s bk x && copyTurn s bk ch then
        settleChunk bk ch (s.block bk) x (deliver (s.block bk) x (nextChunk x) (serveChan bk ch s))
      else s
    | none => s)
/-- The positions of the next chunk that a mask names. -/
def earlyPlaces (x : CopyCmd) (places : Nat) : List Nat :=
  (mapIdxFrom (fun i p => (i, p)) 0 (nextChunk x)).filterMap fun ip => if places.testBit ip.1 then some ip.2 else none
/-- EARLY BYTES: bytes at or above the pointer may hold new values before they count (R267, R10). The named bytes of the next
chunk are written; nothing is counted (DESIGN CHOICE, log 9). -/
def earlyCopy (bk ch places : Nat) (s : State) : State :=
  match headCmd s bk ch with
  | some x =>
    if canDeliver s bk x then
      let d := deliver (s.block bk) x (earlyPlaces x places) s
      if d.fault.isSome || d.bad.isSome then s else keepReads bk ch d
    else s
  | none => s

end Sys2Proof.Machine
end

