-- ==== Sys2Proof/Machine/EvFault.lean ====
section
/-! DEFINITION. The device fault queue (R241), firmware's dispositions (R242, R243, R315, R390, R391), and killing a grid
(R257, R258, R295, R350). A step whose condition does not hold leaves the state as it is. -/
namespace Sys2Proof.Machine

/-! ### The queue (R241) -/
/-- FAULT_RECORD_POST: the oldest waiting record enters the queue while it has room, with the next sequence number. -/
def execFaultRecordPost (s : State) : Res :=
  .next (match s.faults.pend with
    | r :: t =>
      if s.faults.queue.length < 4096 then
        s.setFaults { pend := t, queue := s.faults.queue ++ [{ r with seq := s.faults.seq }],
                      seq := (s.faults.seq + 1) % 2 ^ 32 }
      else s
    | [] => s)
/-- The 32 bytes of a record, w0 to w7 (R241). -/
def FaultRec.bytes (r : FaultRec) : List Byte :=
  [BitVec.ofNat 32 (65536 * (r.warpIdx % 32) + 256 * (r.origin % 8) + r.code.toNat), r.detail.setWidth 32,
   BitVec.ofNat 32 r.gid, BitVec.ofNat 32 (8192 * (r.channel % 8) + 512 * (r.slot % 16) + r.core % 512), r.lanes,
   BitVec.ofNat 32 r.seq, r.faddr.setWidth 32, (r.faddr >>> 32).setWidth 32].flatMap wordBytes
/-- The warp of a record. -/
def recordWarp (r : FaultRec) : Option Nat :=
  match r.ref with
  | .lanes wk => some wk
  | _ => none
/-- A record whose handler disposition waits while lanes of its warp are in their handler (R390). -/
def stillWaits (s : State) (r : FaultRec) : Bool := r.waiting && (recordWarp r).any fun wk => (s.warp wk).privileged
/-- The record that is disposed of next: the first in queue order that does not still wait (R390). -/
def nextRecord (s : State) : Option FaultRec := s.faults.queue.find? fun r => !stillWaits s r
/-- The record that a disposition names, where it is next. -/
def dueRecord (s : State) (seq : Nat) : Option FaultRec := (nextRecord s).filter fun r => r.seq == seq
/-- A record has been disposed of. -/
def dropRecord (r : FaultRec) (s : State) : State :=
  s.setFaults { s.faults with queue := s.faults.queue.filter fun x => x.seq != r.seq }
/-- Records that a test picks are withdrawn (R248, R257). -/
def withdraw (p : FaultRec → Bool) (s : State) : State :=
  s.setFaults { s.faults with pend := s.faults.pend.filter fun r => !p r, queue := s.faults.queue.filter fun r => !p r }

/-! ### Killing a grid (R257) -/
/-- The .comm atomics of a warp are performed; its other atomics are dropped (R257, R258). -/
def killAtoms (wk : Nat) (s : State) : State :=
  let mine := s.mem.atoms.filter fun a => a.wk == wk
  let s1 := (mine.filter fun a => a.use == .comm).foldl (fun s a => performAtom a s) s
  s1.updMem fun m => { m with atoms := m.atoms.filter fun a => a.wk != wk }
/-- What a warp has not performed is dropped (R248, step 3): results, stores, the refill request, what travels to banks. -/
def dropWarpWork (wk : Nat) (s : State) : State :=
  let s1 := s.updWarp wk fun w => { w with outs := [], memq := [], refill := none }
  s1.updMem fun m => { m with bankq := m.bankq.filter fun x => x.wk != wk, xq := m.xq.filter fun x => x.wk != wk,
                              objq := m.objq.map fun x => if x.wk = some wk then { x with wk := none, out := none } else x }
/-- The core's store pool and the warps' non-temporal stores go to their homes, as a release of pod scope (R248, step 4). -/
def releaseCore (core : Nat) (wks : List Nat) (s : State) : State :=
  let s1 := releaseBegin core .p s
  let nts := wks.flatMap fun wk => (s1.warp wk).ntFids
  let fids := releaseFids core .p s1 ++ nts
  forceFlights (fun f => fids.contains f.fid) s1
/-- Jobs of a block that are not granted leave the yard (R295); a granted matrix job stays. -/
def mxGranted (j : Job) : Bool :=
  match j.kind with
  | .mx m => m.granted
  | _ => false
/-- The jobs of a block that a test picks leave the yard. -/
def removeJobs (q : Nat) (p : Job → Bool) (s : State) : State :=
  ((s.quad q).jobs.filter p).foldl (fun s j => removeJob q j.jid s) s
/-- The engines' work for a block of a killed grid stops: commands, ungranted cards, latch records (R257, R285, R295). -/
def killJobs (bk : Nat) (s : State) : State :=
  let q := quadOf (s.block bk).core
  let goesOn (x : CopyCmd) : Bool := x.started && !x.parked && x.delivered % 1024 != 0
  let stay := (s.block bk).chans.flatMap fun kc => (kc.2.cmds.filter goesOn).map (·.jid)
  let s1 := s.updBlock bk fun b =>
    { b with chans := b.chans.map fun kc => (kc.1, { kc.2 with cmds := kc.2.cmds.filter goesOn }), stop := .stopped 0 0 }
  invalidateBanks q (fun x => x.bk == bk) (removeJobs q (fun j => j.bk == bk && !mxGranted j && !stay.contains j.jid) s1)
/-- A collective's engine forgets it, reports no completion and no longer answers for it (R350). -/
def killColls (gid : Nat) (s : State) : State :=
  let gone (d : Die) (h : List Word) : Bool := d.colls.any fun x => x.gid == gid && hSlot h == x.slot && hQ h == x.q
  let quiet (d : Die) (n : Nat) : List Nat := (d.colls.filter fun x => x.gid == gid && x.slot == n).map (·.q)
  s.setDies (s.dies.map fun kd => (kd.1, { kd.2 with
                                                     slots := kd.2.slots.map fun ks =>
                                                       (ks.1, { ks.2 with silent := ks.2.silent ++ quiet kd.2 ks.1 }),
                                                     colls := kd.2.colls.filter fun x => x.gid != gid,
                                                     outbox := kd.2.outbox.filter fun o => !gone kd.2 o.2.hdr }))
/-- A pending task of a killed grid ends as a killed one (R257, R315). -/
def killTask (q : Nat) (t : Task) (s : State) : State :=
  let s1 := dropTasks q [t.slot] s
  match taskJoin t.record with
  | some n => decrement q n 1 (.task t.id) t.gid s1
  | none => s1
/-- One resident block of a killed grid. -/
def killBlock (bk : Nat) (s : State) : State :=
  let core := (s.block bk).core
  let wks := (s.warps.filter fun kw => kw.2.bk == bk).map (·.1)
  let s1 := wks.foldl (fun s wk => dropWarpWork wk (killAtoms wk s)) s
  let s2 := killJobs bk (releaseCore core wks s1)
  let s3 := wks.foldl (fun s wk => vacateLanes wk 0xFFFFFFFF .task s) s2
  s3.setWarps (s3.warps.filter fun kw => kw.2.bk != bk)
/-- The completions that tasks saved in a partition's area owe their counters there. -/
def killSavedTasks (gid : Nat) (a : YardArea) : YardArea :=
  let dec (x : Ctr) (i : Word) : Ctr := { x.mark (.task i) with value := if x.value = 0 then 0 else x.value - 1 }
  { a with tasks := a.tasks.filter fun t => t.gid != gid,
           ctrs := (a.tasks.filter fun t => t.gid == gid).foldl (fun cs t =>
             match taskJoin t.record with
             | some n => cs.map fun kc => if kc.1 = n then (n, dec kc.2 t.id) else kc
             | none => cs) a.ctrs }
/-- The tasks that the lanes of a saved block run, each with its join counter (R250). -/
def savedTasks (s : State) (area : Nat) : List (Word × Option Nat) :=
  let at_ (off n : Nat) : Nat := leNat ((rangeFrom (area + off) n).map (s.mem.byteUnder 0))
  (rangeFrom 0 (min 32 (at_ 0x8C 2))).flatMap fun w => (rangeFrom 0 32).filterMap fun l =>
    let x := at_ (0x1800 + 1536 * w + 32 * l + 28) 4
    if x.testBit 18 then
      some (BitVec.ofNat 32 (at_ (0x1800 + 1536 * w + 0x500 + 4 * l) 4), if x.testBit 17 then some (x / 64 % 2048) else none)
    else none
/-- A task of a saved lane ends as a killed one, at its counter in the yard or in its partition's area (R257, R315). -/
def killSavedTask (q part gid : Nat) (s : State) (t : Word × Option Nat) : State :=
  match t.2 with
  | none => s
  | some n =>
    match mFind (s.quad q).areas part with
    | none => decrement q n 1 (.task t.1) gid s
    | some a => s.updQuad q fun x => { x with areas := mSet x.areas part { a with ctrs := a.ctrs.map fun kc =>
        if kc.1 = n then (n, { kc.2.mark (.task t.1) with value := if kc.2.value = 0 then 0 else kc.2.value - 1 }) else kc } }
/-- The tasks that the lanes and waves of a grid's saved contexts run end as killed ones. -/
def killSavedLanes (gid : Nat) (s : State) : State :=
  (s.launch.saved.filter fun kv => kv.2.gid == gid).foldl (fun s kv =>
    kv.2.blocks.foldl (fun s sb => (savedTasks s sb.area).foldl (killSavedTask kv.2.quad kv.2.part gid) s) s) s
/-- A GRID IS KILLED with a status: its blocks discard, its engines' work stops, its tasks end as killed, its contexts and
records are withdrawn, and nothing more of it is dispatched (R257) (R259). -/
def killGrid (gid code : Nat) (s : State) : State :=
  let g := s.grid gid
  if g.gid = 0 || g.done || g.killed.isSome then s else
    let s1 := s.updGrid gid fun g => { g with killed := some code, next := g.blocks }
    let bks := (s1.blocks.filter fun kb => kb.2.gid == gid).map (·.1)
    let s2 := bks.foldl (fun s bk => killBlock bk s) (killColls gid s1)
    let s3 := (s2.quads.flatMap fun kq => (kq.2.tasks.filter fun t => t.gid == gid).map fun t => (kq.1, t)).foldl
      (fun s qt => killTask qt.1 qt.2 s) s2
    let s4 := killSavedLanes gid (s3.setQuads (s3.quads.map fun kq =>
      (kq.1, { kq.2 with areas := kq.2.areas.map fun ka => (ka.1, killSavedTasks gid ka.2) })))
    let gone := (s4.launch.saved.filter fun kv => kv.2.gid == gid).map (·.1)
    let s5 := s4.updLaunch fun l =>
      { l with saved := l.saved.filter fun kv => kv.2.gid != gid,
               restores := l.restores.filter fun r => !gone.contains r.1 }
    let s6 := s5.setWd { s5.wd with queries := s5.wd.queries.filter fun x => !(x.gid == gid && x.held) }
    let n := ((s4.launch.saved.filter fun kv => kv.2.gid == gid).map fun kv => kv.2.blocks.length).sum
    let s7 := (rangeFrom 0 n).foldl (fun s _ => countEnded gid s) (withdraw (fun r => r.gid == gid) s6)
    bks.foldl (fun s bk => blockEnd bk s) s7

/-! ### Dispositions -/
/-- Kill (R242). -/
def disposeKill (r : FaultRec) (s : State) : State := killGrid r.gid r.code.toNat (dropRecord r s)
/-- Lanes of a record that are still parked. -/
def recordLanes (s : State) (r : FaultRec) (wk : Nat) : Word :=
  r.lanes &&& (s.warp wk).maskOf fun x => x.st == .parkedFault
/-- A channel's oldest held entry is to be skipped; its parked command goes on (R272). -/
def resumeChan (r : FaultRec) (c : Chan) : Chan :=
  if r.code = 0x11 then
    match findIdx (fun x : CopyCmd => x.held.isSome && !x.skip) c.cmds 0 with
    | some (i, _) => { c with cmds := listMod c.cmds i fun x => { x with skip := true } }
    | none => c
  else { c with cmds := c.cmds.map fun x => { x with parked := false } }
/-- Resume (R242, R272, R335, R351): lanes execute again, a job goes on from where it stands. -/
def disposeResume (r : FaultRec) (s : State) : State :=
  let s1 := dropRecord r s
  match r.ref with
  | .lanes wk => s1.updWarp wk fun w => w.updLanes (recordLanes s r wk) fun _ x => { x with st := .active }
  | .copy bk ch => updChan bk ch (resumeChan r) s1
  | .coll die cid =>
    if r.code = 0x0B ∨ r.code = 0x0C ∨ r.code = 0x14 then s1 else updColl die cid (fun x => { x with held := false }) s1
  | .query id => s1.setWd { s1.wd with queries := s1.wd.queries.map fun x => if x.id = id then { x with held := false } else x }
  | _ => s1
/-- Handler is allowed: lanes of a kernel with a handler, none of them in its handler (R242, R243). -/
def handlerAllowed (s : State) (r : FaultRec) : Bool :=
  (recordWarp r).any fun wk =>
    (s.grid r.gid).handler != 0 && (maskLanes r.lanes).all fun l =>
      !((s.warp wk).lane l).handler && ((s.warp wk).lane l).depth != 63
/-- The lanes of a record enter the trap handler (R243). Entry maps v87 whatever the warp's quota: the check of R135 is of a
bundle's write, and the spec states none for entry (DESIGN CHOICE, log 24). -/
def enterAll (r : FaultRec) (wk : Nat) (s : State) : State :=
  let m := recordLanes s r wk
  let target := (s.grid r.gid).handler
  s.updWarp wk fun w =>
    let outs := w.outs.map fun o => { o with kept := o.kept ||| (o.mask &&& m) }
    let w1 := { w with outs := outs, fault := (r.detail.setWidth 32 <<< 8) ||| r.code.setWidth 32, faddr := r.faddr }
    let w2 := writeAll ((maskLanes m).map fun l =>
      ({ dest := .lane 87 l, val := (w.lane l).pc.setWidth 32 } : RegWrite)) w1
    w2.updLanes m fun _ x => enterHandler target w.retired x
/-- Handler (R243, R390, R391): entry, a wait for the warp's lanes to leave their handler, or a kill. -/
def disposeHandler (r : FaultRec) (s : State) : State :=
  match recordWarp r with
  | none => disposeKill r s
  | some wk =>
    if !handlerAllowed s r then disposeKill r s
    else if (s.warp wk).privileged then
      s.setFaults { s.faults with queue := s.faults.queue.map fun x => if x.seq = r.seq then { x with waiting := true } else x }
    else enterAll r wk (dropRecord r s)
/-- Drop is allowed: every lane of the record runs a task (R315, R391). -/
def dropAllowed (s : State) (r : FaultRec) : Bool :=
  (recordWarp r).any fun wk => r.lanes != 0 && (maskLanes r.lanes).all fun l => ((s.warp wk).lane l).isTask
/-- Drop (R315): the lanes become vacant, their tasks end as failed. -/
def disposeDrop (r : FaultRec) (s : State) : State :=
  match recordWarp r with
  | none => disposeKill r s
  | some wk =>
    if !dropAllowed s r then disposeKill r s
    else afterLanes wk (vacateLanes wk (recordLanes s r wk) .task (dropRecord r s))
/-- A disposition is applied to the record it names; a record that has waited keeps the one it was given (R390). -/
def disposeOf (seq : Nat) (f : FaultRec → State → State) (s : State) : State :=
  match dueRecord s seq with
  | some r => if r.waiting then disposeHandler r s else f r s
  | none => s
/-- RESUME: not for a record of the launch unit, where it acts as kill. -/
def execResume (seq : Nat) (s : State) : Res :=
  .next (disposeOf seq (fun r => if r.origin = 5 then disposeKill r else disposeResume r) s)
/-- HANDLER. -/
def execHandler (seq : Nat) (s : State) : Res := .next (disposeOf seq disposeHandler s)
/-- TASK_DROP. -/
def execTaskDrop (seq : Nat) (s : State) : Res := .next (disposeOf seq disposeDrop s)
/-- KILL. -/
def execKill (seq : Nat) (s : State) : Res := .next (disposeOf seq disposeKill s)

end Sys2Proof.Machine
end

