-- ==== Sys2Proof/Machine/Placing.lean ====
section
/-! DEFINITION. Placing blocks on cores: what a core can give (R93), the launch unit's own choice (R92), block slots and
cluster slots (R96). -/
namespace Sys2Proof.Machine

/-- What a block takes of its core (R93): warp slots per scheduler, rows, windows in bytes, exchange banks. -/
structure Need where
  slots0 : Nat
  slots1 : Nat
  rows : Nat
  sp : Nat
  ab : Nat
  wb : Nat
  cb : Nat
  hasX : Bool
deriving DecidableEq, Repr
/-- The need of a block of `g` (R93). -/
def Grid.need (g : Grid) : Need :=
  { slots0 := (g.nwarps + 1) / 2, slots1 := g.nwarps / 2, rows := g.nwarps * g.regs, sp := 1024 * g.scratchK,
    ab := 1024 * g.abK, wb := 1024 * g.wbK, cb := 1024 * g.cbK, hasX := decide (2 ≤ g.csize) }
/-- An empty core can give it. -/
def Need.fits (n : Need) : Bool :=
  decide (n.slots0 ≤ 32 ∧ n.slots1 ≤ 32 ∧ n.rows ≤ 2048 ∧ n.sp ≤ 262144 ∧ n.ab ≤ 524288 ∧ n.wb ≤ 524288 ∧ n.cb ≤ 524288)
/-- The blocks resident on a core. -/
def coreBlocks (s : State) (core : Nat) : List Block := (s.blocks.filter fun kb => kb.2.core == core).map (·.2)
/-- The block slot that a placed block takes: the lowest free one of the core (R93) (DESIGN CHOICE, log 12). -/
def freeBlockSlot (s : State) (core : Nat) : Option Nat :=
  (rangeFrom 0 16).find? fun i => !(coreBlocks s core).any fun b => b.slot == i
/-- A core can give a block every resource at once. -/
def coreTakes (s : State) (n : Need) (core : Nat) : Bool :=
  let bs := coreBlocks s core
  decide (core < 512) && (freeBlockSlot s core).isSome &&
    decide (slotsUsed s core 0 + n.slots0 ≤ 32) && decide (slotsUsed s core 1 + n.slots1 ≤ 32) &&
    decide (rowsUsed s core + n.rows ≤ 2048) &&
    decide ((bs.map (·.spSize)).sum + n.sp ≤ 262144) && decide ((bs.map (·.abSize)).sum + n.ab ≤ 524288) &&
    decide ((bs.map (·.wbSize)).sum + n.wb ≤ 524288) && decide ((bs.map (·.cbSize)).sum + n.cb ≤ 524288) &&
    !(n.hasX && bs.any (·.hasX))
/-- The cores of a quad (R12). -/
def quadCores (q : Nat) : List Nat := rangeFrom (4 * q) 4
/-- Of some cores, the one with the fewest resident blocks, the first among equals. -/
def fewest (s : State) : List Nat → Option Nat
  | [] => none
  | c :: t =>
    match fewest s t with
    | some d => if (coreBlocks s d).length < (coreBlocks s c).length then some d else some c
    | none => some c
/-- Distinct cores for some needs, the lowest first. -/
def assign (s : State) : List Need → List Nat → Option (List Nat)
  | [], _ => some []
  | n :: t, cs =>
    match cs.find? (coreTakes s n) with
    | none => none
    | some c => (assign s t (cs.filter (· != c))).map (c :: ·)
/-- The launch unit's own choice on one quad (R92). -/
def chooseOn (s : State) (ns : List Need) (q : Nat) : Option (List Nat) :=
  match ns with
  | [n] => (fewest s ((quadCores q).filter (coreTakes s n))).map ([·])
  | _ => assign s ns (quadCores q)
/-- THE LAUNCH UNIT'S OWN CHOICE (R92): the lowest quad that can take the block or the cluster. -/
def chooseCores (s : State) (ns : List Need) (ok : Nat → Bool) : Option (List Nat) :=
  ((rangeFrom 0 128).filter ok).findSome? (chooseOn s ns)
/-- A choice of firmware's can be met: distinct cores of one quad, each with what its block needs (R90, R93). -/
def coresOk (s : State) (ns : List Need) (ok : Nat → Bool) (cs : List Nat) : Bool :=
  cs.length == ns.length && cs.dedup.length == cs.length &&
    (cs.all fun c => quadOf c == quadOf (cs.headD 0)) && ok (quadOf (cs.headD 0)) &&
    (cs.zip ns).all fun cn => coreTakes s cn.2 cn.1
/-- The cores that some blocks go to now: firmware's, or the launch unit's own. -/
def placeOn (s : State) (ns : List Need) (ok : Nat → Bool) (wish : Option (List Nat)) : Option (List Nat) :=
  match wish with
  | some cs => if coresOk s ns ok cs then some cs else none
  | none => chooseCores s ns ok
/-- The cluster slot that a placed cluster takes: the lowest free one of the quad (R96) (DESIGN CHOICE, log 12). -/
def freeCluster (s : State) (q : Nat) : Nat :=
  ((rangeFrom 0 64).find? fun i => !s.clusters.any fun kc => kc.2.quad == q && kc.2.idx == i).getD 0

end Sys2Proof.Machine
end

