-- ==== Sys2Proof/Machine/SaveArea.lean ====
section
/-! DEFINITION. The layout of the context save area (R249 to R251, R361) and of the partition area (R252): the bytes that
a pre-emption writes, and what a restore reads of them. -/
namespace Sys2Proof.Machine

/-! ### Bytes and fields -/
/-- n zero bytes. -/
def zeroBytes (n : Nat) : List Byte := List.replicate n 0
/-- Some bytes, filled up with zeros to n. -/
def padTo (n : Nat) (bs : List Byte) : List Byte := bs.take n ++ zeroBytes (n - bs.length)
/-- The number in n bytes from an offset. -/
def fieldAt (bs : List Byte) (off n : Nat) : Nat := leNat ((bs.drop off).take n)
/-- A 32-bit field. -/
def wordAt (bs : List Byte) (off : Nat) : Word := BitVec.ofNat 32 (fieldAt bs off 4)
/-- The next multiple of a size. -/
def roundUp (n k : Nat) : Nat := (n + k - 1) / k * k
/-- n bytes of the package's memory, read at their homes. -/
def areaRead (s : State) (pa n : Nat) : List Byte := (rangeFrom pa n).map (s.mem.byteUnder 0)
/-- A number with a bit for each index of a list. -/
def bitSet (l : List Nat) : Nat := (l.map fun i => 2 ^ i).sum
/-- A Boolean as a number. -/
def bit01 (b : Bool) : Nat := if b then 1 else 0

/-! ### Scoped registers and lanes (R250) -/
/-- The reduction kinds by their code (R63). -/
def redKinds : List RedKind := [.addB32, .addF32, .minS32, .maxS32, .minN32, .maxN32, .and, .or]
/-- MODE. -/
def modeCode : BankMode → Nat
  | .none => 0
  | .agreed => 1
  | .red k => 16 + (redKinds.takeWhile (· != k)).length
/-- The mode of a code. -/
def modeOf (n : Nat) : BankMode :=
  if n = 1 then .agreed else
    match redKinds[n - 16]? with
    | some k => if 16 ≤ n then .red k else .none
    | none => .none
/-- A record of a block or cluster register (R132). -/
def scopedBytes (r : ScopedReg) : List Byte :=
  wordBytes r.front ++ wordBytes r.back ++ leBytes (modeCode r.mode) 1 ++
    leBytes (bit01 r.posInf + 2 * bit01 r.negInf + 4 * bit01 r.nan + 8 * bit01 r.allNegZero) 1 ++ zeroBytes 6 ++
    leBytes (r.acc % 2 ^ 384).toNat 48
/-- A block or cluster register from its record. -/
def scopedFrom (bs : List Byte) : ScopedReg :=
  let f := fieldAt bs 9 1
  { front := wordAt bs 0, back := wordAt bs 4, mode := modeOf (fieldAt bs 8 1), acc := (BitVec.ofNat 384 (fieldAt bs 16 48)).toInt,
    posInf := f.testBit 0, negInf := f.testBit 1, nan := f.testBit 2, allNegZero := f.testBit 3 }
/-- The states of R101 by their code. -/
def laneStates : List LaneSt := [.active, .parkedFault, .waitingJoin, .vacant, .serialWaiting]
/-- The state of a lane. -/
def laneBytes (x : Lane) : List Byte :=
  leBytes x.pc.toNat 8 ++ leBytes x.region.toNat 8 ++ leBytes x.regionRetired.toNat 8 ++
    leBytes (x.depth.toNat + 64 * bit01 x.yld + 128 * bit01 x.handler +
      256 * (laneStates.takeWhile (· != x.st)).length + 65536 * x.preds.toNat) 4 ++
    leBytes (x.entryDepth.toNat + 64 * x.joinCtr.toNat + 131072 * bit01 x.joinEn + 262144 * bit01 x.isTask) 4
/-- A lane as a restore makes it (R245, R246, R254): one that was active, waiting or faulted restarts at its region start. -/
def laneFrom (bs : List Byte) (taskId : Word) : Lane :=
  let a := fieldAt bs 24 4
  let b := fieldAt bs 28 4
  let st := laneStates.getD (a / 256 % 8) .vacant
  let stays := st == .vacant || st == .serialWaiting
  let region : DWord := BitVec.ofNat 64 (fieldAt bs 8 8)
  { pc := if stays then BitVec.ofNat 64 (fieldAt bs 0 8) else region, depth := BitVec.ofNat 6 a, yld := a.testBit 6,
    region := region, regionRetired := BitVec.ofNat 64 (fieldAt bs 16 8), st := if stays then st else .active,
    preds := BitVec.ofNat 7 (a / 65536), joinMask := 0, handler := a.testBit 7, entryDepth := BitVec.ofNat 6 b,
    isTask := b.testBit 18, taskId := taskId, joinEn := b.testBit 17, joinCtr := BitVec.ofNat 11 (b / 64) }

/-! ### Warp records (R250) -/
/-- A warp's record. -/
def warpBytes (w : Warp) : List Byte :=
  (rangeFrom 0 32).flatMap (fun l => laneBytes (w.lane l)) ++
    (rangeFrom 0 4).flatMap (fun p => (rangeFrom 0 4).flatMap fun r => wordBytes (w.sreg r p)) ++
    (rangeFrom 0 16).flatMap (fun r => wordBytes (w.wreg r)) ++
    leBytes w.fpflags.toNat 4 ++ leBytes w.frm.toNat 4 ++ leBytes w.role.toNat 4 ++ leBytes w.limit.toNat 4 ++
    leBytes w.mapped.toNat 16 ++ leBytes w.retired.toNat 8 ++ leBytes (bit01 w.serial + 2 * bit01 w.isWave) 4 ++
    wordBytes w.fault ++ leBytes w.faddr.toNat 8 ++ zeroBytes 72 ++
    (rangeFrom 0 32).flatMap (fun l => wordBytes (w.lane l).taskId) ++ zeroBytes 128
/-- A warp's lane rows below .regs. -/
def rowBytes (regs : Nat) (w : Warp) : List Byte :=
  (rangeFrom 0 regs).flatMap fun r => (rangeFrom 0 32).flatMap fun l => wordBytes (w.vreg r l)
/-- A table from the values of a function that are not 0. -/
def tableOf (n : Nat) (f : Nat → Word) : Map Word := ((rangeFrom 0 n).map fun i => (i, f i)).filter fun kv => kv.2 != 0
/-- The retired count of a restored warp (R254): the smallest region-start count of the lanes that restart, else the
saved count. -/
def restoredCount (ls : List Lane) (saved : DWord) : DWord :=
  match ((ls.filter fun x => x.st == .active).map fun x => x.regionRetired.toNat).min? with
  | some n => BitVec.ofNat 64 n
  | none => saved
/-- A warp from its record and its rows; one without a record has retired. -/
def warpFrom (bk idx regs : Nat) (bs rows : List Byte) (kept : Map Word) : Warp :=
  let ls := (rangeFrom 0 32).map fun l => laneFrom ((bs.drop (32 * l)).take 32) (wordAt bs (0x500 + 4 * l))
  let x := fieldAt bs 0x4A8 4
  { Warp.none with
    bk := bk, idx := idx, isWave := x.testBit 1, retiredW := bs.all (· == 0), lanes := ls,
    vregs := (tableOf (32 * regs) fun i => wordAt rows (4 * i)) ++
      ((kept.filter fun kv => kv.1 / 2816 == idx).map fun kv => (kv.1 % 2816, kv.2)),
    mapped := BitVec.ofNat 88 (fieldAt bs 0x490 16),
    sregs := tableOf 16 fun i => wordAt bs (0x400 + 16 * (i / 4) + 4 * (i % 4)),
    wregs := tableOf 16 fun i => wordAt bs (0x440 + 4 * i),
    fpflags := BitVec.ofNat 5 (fieldAt bs 0x480 4), frm := BitVec.ofNat 3 (fieldAt bs 0x484 4),
    role := BitVec.ofNat 8 (fieldAt bs 0x488 4), limit := BitVec.ofNat 7 (fieldAt bs 0x48C 4),
    retired := restoredCount ls (BitVec.ofNat 64 (fieldAt bs 0x4A0 8)), serial := x.testBit 0,
    fault := wordAt bs 0x4AC, faddr := BitVec.ofNat 64 (fieldAt bs 0x4B0 8) }

/-! ### Channels (R251) -/
/-- The parked command of a channel. -/
def Chan.parkedCmd (c : Chan) : Option CopyCmd := c.cmds.head?.filter (·.started)
/-- A channel's record. -/
def chanBytes (c : Chan) : List Byte :=
  wordBytes c.c ++ wordBytes c.wp ++
    leBytes ((c.parkedCmd.map fun x => x.delivered / 1024 * 1024).getD 0) 4 ++ leBytes (bit01 c.parkedCmd.isSome) 4 ++ zeroBytes 16

/-! ### Collectives (R361) -/
/-- The inner state of a collective as numbers: the "partial sums", in a layout of the model's (DESIGN CHOICE, log 19). -/
def collNumbers (x : Coll) : List Nat :=
  [x.phase, x.stage, bit01 x.back, x.off, x.status, x.timer, x.vecs.length] ++ x.vecs.flatMap (fun v => v.length :: v) ++
    x.got.flatMap fun kv => [kv.1, kv.2]
/-- n vectors, each behind its length, and the rest. -/
def takeVecs : Nat → List Nat → List (List Nat) × List Nat
  | 0, l => ([], l)
  | _ + 1, [] => ([], [])
  | n + 1, k :: t => let r := takeVecs n (t.drop k); (t.take k :: r.1, r.2)
/-- Pairs of numbers as a table. -/
def takePairs : List Nat → Map Nat
  | k :: v :: t => (k, v) :: takePairs t
  | _ => []
/-- The inner state put back. -/
def collFrom (l : List Nat) (x : Coll) : Coll :=
  let r := takeVecs (l.getD 6 0) (l.drop 7)
  { x with phase := l.getD 0 0, stage := l.getD 1 0, back := l.getD 2 0 == 1, off := l.getD 3 0, status := l.getD 4 0,
           timer := l.getD 5 0, vecs := r.1, got := takePairs r.2 }
/-- The hop index: how many places of the present ring have been heard from (DEDUCED, log 19). -/
def hopIndex (g : GroupCfg) (die : Nat) (x : Coll) : Nat :=
  let v := viewOf g die x
  ((rangeFrom 0 v.l).filter fun k => k != v.me && heardFrom v x k).length
/-- The engines at the other ends of the link slots of a group (R338): package x and y, then the next and the previous
member of each pod dimension; none where a stage is skipped. -/
def linkSlots (g : GroupCfg) (dev die : Nat) : List (Option Nat) :=
  let at_ (st d : Nat) : Option Nat :=
    if !(gStages g).contains st then none else
      let p := ringPlace g die st ((stageCoord g die g.own st + d) % stageLen g st)
      some (linkKey (if st < 2 then dev else g.devs.getD p.c 0) p.die)
  [at_ 0 1, at_ 1 1, at_ 2 1, at_ 2 (g.l0 - 1), at_ 3 1, at_ 3 (g.l1 - 1), at_ 4 1, at_ 4 (g.l2 - 1)]
/-- Permits held, one byte per link slot. -/
def permitBytes (s : State) (die : Nat) (x : Coll) : List Byte :=
  ((collCfg s die x).map fun g => (linkSlots g s.host.device die).flatMap fun k =>
    leBytes ((k.map (permitsOf s die)).getD 0) 1).getD (zeroBytes 8)
/-- A collective's record. -/
def collBytes (s : State) (die : Nat) (x : Coll) : List Byte :=
  let sums := (collNumbers x).flatMap fun n => leBytes n 8
  let stage := if x.phase = 1 then 7 else if x.back then 5 else ((collCfg s die x).map x.stageNo).getD 0
  padTo 64 (x.desc.flatMap wordBytes) ++ leBytes x.q 4 ++ leBytes (stage + 256 * ((collCfg s die x).map fun g => hopIndex g die x % 1024).getD 0) 4 ++
    permitBytes s die x ++ leBytes x.excl 128 ++ leBytes sums.length 4 ++
    zeroBytes 44 ++ padTo (roundUp sums.length 256) sums
/-- The collectives of a block, in order of slot and then q. -/
def blockColls (s : State) (die bk : Nat) : List Coll :=
  (rangeFrom 0 64).flatMap fun n => (s.die die).colls.filter fun x => x.bk == bk && x.slot == n
/-- The collective state of a block. -/
def collArea (s : State) (b : Block) : List Byte :=
  let xs := blockColls s (dieOf b.core) b.bk
  leBytes xs.length 4 ++ zeroBytes 60 ++ xs.flatMap (collBytes s (dieOf b.core))

/-! ### The area of a block (R249) -/
/-- The live warp of an index. -/
def liveWarp (s : State) (bk i : Nat) : Option Warp := (mFind s.warps (warpKey bk i)).filter fun w => !w.retiredW
/-- Indices whose live warp a test accepts. -/
def warpsWhere (s : State) (bk : Nat) (p : Warp → Bool) : List Nat := (rangeFrom 0 32).filter fun i => (liveWarp s bk i).any p
/-- H. -/
def recordCount (s : State) (b : Block) : Nat := max b.nwarps (((warpsWhere s b.bk fun _ => true).map (· + 1)).foldl max 0)
/-- The turn warp of a scheduler, as an index of the block. -/
def turnIdx (s : State) (b : Block) (sched : Nat) : Nat :=
  ((turnLine s b.core sched b.part).find? fun wk => wk / 32 == b.bk).getD 0 % 32
/-- A warp of the block has arrived at a barrier of a kind. -/
def heldAt (cluster : Bool) (w : Warp) : Bool :=
  !w.isWave && (w.parks.any fun p => p.why == .bar cluster) && barArrived w cluster
/-- FLAGS. -/
def saveFlags (s : State) (b : Block) : Nat :=
  let g := s.grid b.gid
  bit01 g.det + 2 * bit01 g.stream + 4 * bit01 b.hasX + 8 * bit01 (b.rank == 0 && decide (2 ≤ g.csize))
/-- The variable parts, each with its size on the area: lane rows, scratchpad, exchange banks, AB, WB, CB, collectives. -/
def saveParts (s : State) (b : Block) : List (List Byte) :=
  [(rangeFrom 0 (recordCount s b)).flatMap (fun i => match liveWarp s b.bk i with
     | some w => rowBytes b.regs w
     | none => zeroBytes (128 * b.regs)),
   memReadBytes b.sp 0 b.spSize,
   if b.hasX then memReadBytes b.xfront 0 65536 ++ memReadBytes b.xback 0 65536 else [],
   memReadBytes b.ab 0 b.abSize, memReadBytes b.wb 0 b.wbSize, memReadBytes b.cb 0 b.cbSize, collArea s b]
/-- Where each part starts, and where the area ends. -/
def partStarts : Nat → List (List Byte) → List Nat
  | at_, [] => [at_]
  | at_, p :: t => at_ :: partStarts (roundUp (at_ + p.length) 1024) t
/-- The area's first 0x200 bytes. -/
def saveHead (s : State) (b : Block) (starts : List Nat) : List Byte :=
  padTo 0x200 (
    leBytes 1 4 ++ leBytes (starts.getLastD 0 / 1024) 4 ++ leBytes b.gid 4 ++
    leBytes b.x 4 ++ leBytes b.y 4 ++ leBytes b.z 4 ++ leBytes (saveFlags s b) 4 ++ leBytes b.nwarps 2 ++ leBytes b.regs 2 ++
    wordBytes b.bphase ++ leBytes (bitSet (warpsWhere s b.bk (heldAt false))) 4 ++
    leBytes (bitSet (warpsWhere s b.bk (heldAt true))) 4 ++ leBytes b.pool 4 ++
    wordBytes b.ringBase ++ wordBytes b.ringSize ++
    leBytes (if (s.grid b.gid).det then turnIdx s b 0 + 256 * turnIdx s b 1 else 0) 4 ++ leBytes b.cards.length 4 ++
    (starts.take 7).flatMap (fun n => leBytes n 8) ++ leBytes b.spSize 4 ++ leBytes b.abSize 4 ++ leBytes b.wbSize 4 ++
    leBytes b.cbSize 4 ++ leBytes (bitSet (warpsWhere s b.bk (·.isWave))) 4 ++ leBytes (recordCount s b) 2)
/-- THE CONTEXT SAVE AREA of a block (R249). -/
def saveArea (s : State) (b : Block) : List Byte :=
  let h := recordCount s b
  let parts := saveParts s b
  let first := roundUp (0x1800 + 1536 * h) 1024
  let starts := partStarts first parts
  let cregs := if b.rank = 0 ∧ 2 ≤ (s.grid b.gid).csize then
      (rangeFrom 0 4).flatMap fun i => scopedBytes (mGet (s.cluster b.ck).cregs (ScopedReg.init 0) i)
    else []
  saveHead s b starts ++ (rangeFrom 0 8).flatMap (fun i => scopedBytes (mGet b.bregs (ScopedReg.init 0) i)) ++
    padTo 256 cregs ++ (rangeFrom 0 8).flatMap (fun ch => chanBytes (mGet b.chans Chan.init ch)) ++ zeroBytes 512 ++
    padTo 4096 (b.cards.flatMap fun c => padTo 64 (c.1.flatMap wordBytes)) ++
    padTo (first - 0x1800) ((rangeFrom 0 h).flatMap fun i => match liveWarp s b.bk i with
      | some w => warpBytes w
      | none => zeroBytes 1536) ++
    parts.flatMap fun p => padTo (roundUp p.length 1024) p

/-! ### The partition area (R252) -/
/-- Bits as bytes. -/
def bitBytes (n : Nat) (p : Nat → Bool) : List Byte :=
  (rangeFrom 0 n).map fun i => BitVec.ofNat 8 (bitSet ((rangeFrom 0 8).filter fun j => p (8 * i + j)))
/-- The bytes of a partition's counters and pending tasks. -/
def partArea (a : YardArea) : List Byte :=
  let c (i : Nat) : Ctr := mGet a.ctrs Ctr.init i
  (rangeFrom 0 2048).flatMap (fun i => wordBytes (c i).value) ++ bitBytes 256 (fun i => (c i).failed) ++
    padTo 64 (leBytes a.tasks.length 4) ++ padTo 16384 (a.tasks.flatMap fun t => padTo 32 (t.record.flatMap wordBytes))

end Sys2Proof.Machine
end

