-- ==== Sys2Proof/Machine/EvPreempt.lean ====
section
/-! DEFINITION. Pre-emption and restore (R248 to R254, R262, R263, R273, R295, R349). A step whose condition does not hold
leaves the state as it is. -/
namespace Sys2Proof.Machine

/-! ### Stop (R248, step 1; R262) -/
/-- The blocks of a block's cluster, in rank order. -/
def clusterBlocks (s : State) (bk : Nat) : List Nat := (s.cluster (s.block bk).ck).blocks
/-- A cluster can be asked to stop: resident, running, with an area for each block. -/
def canPreempt (s : State) (bk : Nat) (areas : List Nat) : Bool :=
  let bks := clusterBlocks s bk
  bks.contains bk && bks.length == areas.length && (bks.all fun k => (s.block k).stop == .run) &&
    (s.grid (s.block bk).gid).killed.isNone
/-- One block is asked to stop: at once, or at the end of a turn in deterministic mode. -/
def askStop (bk area parea : Nat) (s : State) : State :=
  let core := (s.block bk).core
  if coreDet s core then
    s.updBlock bk fun b =>
      { b with stop := .asked area parea (s.schedAt core 0).cycle.toNat (s.schedAt core 1).cycle.toNat }
  else stopBlock bk area parea s
/-- PREEMPT: firmware pre-empts the cluster of a block, with a context save area for each of its blocks and an area for
its partition's yard. -/
def execPreempt (bk : Nat) (areas : List Nat) (parea : Nat) (s : State) : Res :=
  .next (if canPreempt s bk areas then
      ((clusterBlocks s bk).zip areas).foldl (fun s ba => askStop ba.1 ba.2 parea s) s
    else s)
/-- The turn has not ended within 65,536 local cycles of a scheduler. -/
def stopOverdue (s : State) (b : Block) : Option (Nat × Nat) :=
  match b.stop with
  | .asked a p c0 c1 =>
    if c0 + 65536 ≤ (s.schedAt b.core 0).cycle.toNat ∨ c1 + 65536 ≤ (s.schedAt b.core 1).cycle.toNat then some (a, p) else none
  | _ => none
/-- PREEMPT_TURN_TIMEOUT (R262): the stop takes effect at once. -/
def execPreemptTurnTimeout (bk : Nat) (s : State) : Res :=
  .next (match stopOverdue s (s.block bk) with
    | some (a, p) => stopBlock bk a p s
    | none => s)

/-! ### Complete (step 2) -/
/-- The warps and waves of a block, with their keys. -/
def warpKeysOf (s : State) (bk : Nat) : List Nat := (s.warps.filter fun kw => kw.2.bk == bk).map (·.1)
/-- Nothing that has to complete is left in a warp: results from before a region boundary, atomics and bank writes that
have not been accepted, results that wait to be compared. -/
def warpQuiet (w : Warp) : Bool :=
  (w.outs.all fun o => o.kept == 0 || !o.unknown) && w.parks.all fun p =>
    match p.why with
    | .bank _ => false
    | .compare id => (w.outs.find? fun o => o.id == id).all (·.obj.isSome)
    | _ => true
/-- Nothing that has to complete is under way for some warps in the memory system. -/
def trafficQuiet (s : State) (wks : List Nat) : Bool :=
  !(s.mem.atoms.any fun a => wks.contains a.wk) && !(s.mem.bankq.any fun x => wks.contains x.wk) &&
    !(s.mem.xq.any fun x => wks.contains x.wk) && !(s.mem.objq.any fun x => x.wk.any wks.contains)
/-- The block's engine work has completed or parked (R273, R295). -/
def enginesQuiet (s : State) (b : Block) : Bool :=
  !(s.wd.queries.any fun x => x.bk == b.bk) &&
    !((s.quad (quadOf b.core)).jobs.any fun j => j.bk == b.bk && mxGranted j) &&
    b.chans.all fun kc => kc.2.cmds.head?.all fun x => !x.started || x.parked || x.delivered % 1024 == 0
/-- Step 2 of a block has ended (DEDUCED, log 23). -/
def blockQuiet (s : State) (bk : Nat) : Bool :=
  let b := s.block bk
  b.isStopped && (s.grid b.gid).killed.isNone && ((warpKeysOf s bk).all fun wk => warpQuiet (s.warp wk)) &&
    trafficQuiet s (warpKeysOf s bk) && enginesQuiet s b

/-! ### Discard, release, save, free (steps 3 to 6) -/
/-- The writes of a result for the lanes that issued it before their current region. -/
def keptWrites (o : Out) : List RegWrite :=
  if o.kept = 0 then [] else if o.wide then o.writes else
    o.writes.filter fun x =>
      match x.dest with
      | .lane _ l | .pred _ l => o.kept.getLsbD l
      | _ => true
/-- Such results return; barriers hold their warps still; every other wait is given up. -/
def settleWarp (w : Warp) : Warp :=
  let w1 := w.outs.foldl (fun w o =>
    let w1 := (keptWrites o).foldl (fun w x => storeDest x w) w
    if o.kept = 0 then w1 else { w1 with fpflags := w1.fpflags ||| o.flags }) w
  { w1 with parks := w1.parks.filter fun p => p.why == .bar false || p.why == .bar true }
/-- A record is of a block: of its lanes, its copy engine, its matrix jobs, its collectives. -/
def recordOf (s : State) (b : Block) (r : FaultRec) : Bool :=
  match r.ref with
  | .coll die cid => (collAt s die cid).any fun x => x.bk == b.bk
  | _ => decide (r.origin ≤ 2) && r.gid == b.gid && r.core == b.core && r.slot == b.slot
/-- Steps 3 and 4 for one block (DEDUCED, log 23). -/
def discardBlock (bk : Nat) (s : State) : State :=
  let b := s.block bk
  let wks := warpKeysOf s bk
  let s1 := wks.foldl (fun s wk => dropWarpWork wk (s.updWarp wk settleWarp)) s
  releaseCore b.core wks (withdraw (recordOf s1 b) s1)
/-- A block's collectives are held (R349), and its jobs leave the yard. -/
def suspendEngines (bk : Nat) (s : State) : State :=
  let b := s.block bk
  let s1 := (blockColls s (dieOf b.core) bk).foldl (fun s x => updColl (dieOf b.core) x.cid (fun x => { x with saved := true }) s) s
  removeJobs (quadOf b.core) (fun j => j.bk == bk) s1
/-- What of a block the area has no place for. -/
def savedBlock (s : State) (bk area : Nat) : SavedBlock :=
  let b := s.block bk
  { bk := bk, area := area, rank := b.rank,
    rows := (warpsWhere s bk fun _ => true).flatMap fun i =>
      ((s.warp (warpKey bk i)).vregs.filter fun kv => decide (b.regs ≤ kv.1 / 32)).map fun kv => (2816 * i + kv.1, kv.2),
    parked := b.chans.filterMap fun kc => kc.2.parkedCmd.map fun x => (kc.1, (x.p0, x.failed)),
    addrs := b.cards.map (·.2) }
/-- The area of a stopped block, and its partition's. -/
def Block.areas (b : Block) : Nat × Nat :=
  match b.stop with
  | .stopped a p => (a, p)
  | _ => (0, 0)
/-- Step 5 for one block. -/
def saveBlock (bk : Nat) (s : State) : State :=
  let b := s.block bk
  suspendEngines bk (homeStore PageAttr.none b.areas.1 (saveArea s b) s)
/-- The yard writes a partition's area once no block of the partition is left on the quad (R252); its counters and tasks
leave the yard. -/
def saveYard (q part parea : Nat) (s : State) : State :=
  if s.blocks.any fun kb => quadOf kb.2.core == q && kb.2.part == part then s else
    let x := s.quad q
    let a : YardArea := { addr := parea, ctrs := x.ctrs.filter fun kc => kc.2.owner == some part,
                          tasks := x.tasks.filter fun t => t.part == part }
    let s1 := s.updQuad q fun x => { x with ctrs := x.ctrs.filter fun kc => kc.2.owner != some part, sets := [],
                                            tasks := x.tasks.filter fun t => t.part != part,
                                            areas := mSet x.areas part a }
    homeStore PageAttr.none parea (partArea a) s1
/-- DISCARD for a cluster. -/
def discardCluster (bk : Nat) (s : State) : State :=
  let bks := clusterBlocks s bk
  let b := s.block bk
  let s1 := bks.foldl (fun s k => discardBlock k s) s
  let sv : Saved :=
    { id := s.launch.nextSaved, gid := b.gid, ck := b.ck, part := b.part, quad := quadOf b.core,
      blocks := bks.map fun k => savedBlock s1 k (s1.block k).areas.1,
      cregs := if 2 ≤ (s.grid b.gid).csize ∧ (bks.any fun k => (s.block k).rank == 0) then [] else (s.cluster b.ck).cregs }
  let s2 := bks.foldl (fun s k => saveBlock k s) s1
  let s3 := bks.foldl (fun s k => removeBlock k s) s2
  let s4 := s3.updLaunch fun l => { l with saved := mSet l.saved sv.id sv, nextSaved := l.nextSaved + 1 }
  saveYard sv.quad sv.part b.areas.2 s4
/-- DISCARD: steps 3 to 6 of R248, for every block of the cluster, once step 2 has ended for all. -/
def execDiscard (bk : Nat) (s : State) : Res :=
  let bks := clusterBlocks s bk
  .next (if bks.contains bk && bks.all (blockQuiet s) then discardCluster bk s else s)

/-! ### Restore: what the areas say (R253) -/
/-- The fixed part of a saved block's area. -/
def savedHead (s : State) (sb : SavedBlock) : List Byte := areaRead s sb.area 0x1800
/-- The indices with a wave. -/
def savedWaves (h : List Byte) : List Nat := (rangeFrom 0 32).filter fun i => (fieldAt h 0x88 4).testBit i
/-- What a saved block needs of a core. -/
def savedNeed (h : List Byte) : Need :=
  let w := fieldAt h 0x1C 2
  let on (k : Nat) : Nat := ((rangeFrom 0 32).filter fun i => i % 2 == k && (decide (i < w) || (savedWaves h).contains i)).length
  { slots0 := on 0, slots1 := on 1, rows := (w + (savedWaves h).length) * fieldAt h 0x1E 2, sp := fieldAt h 0x78 4,
    ab := fieldAt h 0x7C 4, wb := fieldAt h 0x80 4, cb := fieldAt h 0x84 4, hasX := (fieldAt h 0x18 4).testBit 2 }
/-- Where part i of the area starts: lane rows, scratchpad, exchange banks, AB, WB, CB, collective state. -/
def partOff (h : List Byte) (i : Nat) : Nat := fieldAt h (0x40 + 8 * i) 8
/-- A channel from its record. -/
def chanFrom (h : List Byte) (ch : Nat) : Chan :=
  let r := (h.drop (0x500 + 32 * ch)).take 32
  let size := wordAt h 0x34
  { log2 := ringLog size ch, base := ringStart (wordAt h 0x30) size ch, t := wordAt r 0, c := wordAt r 0, wp := wordAt r 4,
    cmds := [] }
/-- The saved matrix cards, with the addresses that the machine keeps (DESIGN CHOICE, log 21). -/
def savedCards (h : List Byte) (addrs : List DWord) : List (List Word × DWord) :=
  (rangeFrom 0 (min 64 (fieldAt h 0x3C 4))).map fun i => (leWords ((h.drop (0x800 + 64 * i)).take 64) 16, addrs.getD i 0)
/-- A block from its area, placed on a core. -/
def blockFrom (s : State) (sv : Saved) (sb : SavedBlock) (core rank : Nat) : Block :=
  let h := savedHead s sb
  let n := savedNeed h
  let part (i len : Nat) : Memory := memWriteBytes [] 0 (areaRead s (sb.area + partOff h i) len)
  { Block.none with
    bk := sb.bk, gid := sv.gid, part := sv.part, core := core, slot := (freeBlockSlot s core).getD 0,
    age := s.launch.nextAge, x := fieldAt h 0x0C 4, y := fieldAt h 0x10 4, z := fieldAt h 0x14 4, ck := sv.ck, rank := rank,
    nwarps := fieldAt h 0x1C 2, regs := fieldAt h 0x1E 2, sp := part 1 n.sp, ab := part 3 n.ab, wb := part 4 n.wb,
    cb := part 5 n.cb, spSize := n.sp, abSize := n.ab, wbSize := n.wb, cbSize := n.cb, hasX := n.hasX,
    xfront := if n.hasX then part 2 65536 else [],
    xback := if n.hasX then memWriteBytes [] 0 (areaRead s (sb.area + partOff h 2 + 65536) 65536) else [],
    bregs := (rangeFrom 0 8).map fun i => (i, scopedFrom ((h.drop (0x200 + 64 * i)).take 64)), bphase := wordAt h 0x20,
    pool := fieldAt h 0x2C 4, ringBase := wordAt h 0x30, ringSize := wordAt h 0x34,
    chans := (rangeFrom 0 8).map fun ch => (ch, chanFrom h ch), cards := savedCards h sb.addrs }
/-- The warps of a saved block: its own, retired ones among them, and its waves. -/
def warpsFrom (s : State) (sb : SavedBlock) : List (Nat × Warp) :=
  let h := savedHead s sb
  let regs := fieldAt h 0x1E 2
  (rangeFrom 0 (min 32 (fieldAt h 0x8C 2))).filterMap fun i =>
    let bs := areaRead s (sb.area + 0x1800 + 1536 * i) 1536
    let w := warpFrom sb.bk i regs bs (areaRead s (sb.area + partOff h 0 + 128 * regs * i) (128 * regs)) sb.rows
    let held (off : Nat) (cluster : Bool) : List Park :=
      if (fieldAt h off 4).testBit i then
        [{ mask := w.maskOf fun x => x.st == .active, pc := (w.lane 0).pc, why := .bar cluster }]
      else []
    if w.retiredW && decide (fieldAt h 0x1C 2 ≤ i) then none
    else some (warpKey sb.bk i, { w with parks := held 0x24 false ++ held 0x28 true })

/-! ### Restore: the steps of R253 -/
/-- The partition's counters and tasks return to the yard of a quad (R252). -/
def restoreYard (old part q : Nat) (s : State) : State :=
  match mFind (s.quad old).areas part with
  | none => s
  | some a =>
    let bs := areaRead s a.addr 0x6140
    let ctr (i : Nat) (c : Ctr) : Ctr :=
      { c with value := wordAt bs (4 * i), failed := (fieldAt bs (0x2000 + i / 8) 1).testBit (i % 8), failId := 0xFFFFFFFF }
    let rec_ (i : Nat) (t : Task) : Task := { t with record := leWords ((bs.drop (0x2140 + 32 * i)).take 32) 8 }
    let order (t : Task) : Option Nat := t.ready.map fun r => (a.tasks.filter fun u => u.ready.any fun x => decide (x.1 < r.1)).length
    let put (x : Quad) (t : Task) : Quad :=
      let slot := if x.tasks.any fun u => u.slot == t.slot then (freeSlot x).getD t.slot else t.slot
      { x with tasks := x.tasks ++ [{ t with slot := slot, ready := (order t).map fun n => (readyAt x.yardCycle n) }] }
    (s.updQuad old fun x => { x with areas := mErase x.areas part }).updQuad q fun x =>
      let y := (mapIdxFrom rec_ 0 a.tasks).foldl put x
      { y with ctrs := a.ctrs.foldl (fun m kc => mSet m kc.1 (ctr kc.1 kc.2)) y.ctrs }
/-- Step 1 for one block: windows, banks, registers. -/
def loadBlock (sv : Saved) (sb : SavedBlock) (core rank : Nat) (s : State) : State :=
  let b := blockFrom s sv sb core rank
  let s1 := s.setBlocks (mSet s.blocks sb.bk b)
  let s2 := s1.setWarps ((warpsFrom s sb).foldl (fun m kw => mSet m kw.1 kw.2) s1.warps)
  s2.updLaunch fun l => { l with nextAge := l.nextAge + 1 }
/-- The registers c0-c3 of a saved cluster. -/
def cregsFrom (s : State) (sv : Saved) : Map ScopedReg :=
  match sv.blocks.head? with
  | some sb =>
    let h := savedHead s sb
    if (fieldAt h 0x18 4).testBit 3 then (rangeFrom 0 4).map fun i => (i, scopedFrom ((h.drop (0x400 + 64 * i)).take 64))
    else sv.cregs
  | none => sv.cregs
/-- Step 2 for one channel: the parked command goes on from its saved count, then the entries up to the notify word. -/
def resumeChannel (sb : SavedBlock) (h : List Byte) (ch : Nat) (s : State) : State :=
  let r := (h.drop (0x500 + 32 * ch)).take 32
  let s1 := if (fieldAt r 12 4).testBit 0 then
      let s2 := takeEntry sb.bk ch (wordAt r 0) s
      let (p0, failed) := mGet sb.parked (wordAt r 4 - wordAt r 8, false) ch
      let s3 := updHead sb.bk ch (fun x => { x with started := true, delivered := fieldAt r 8 4, p0 := p0,
                                                     shown := (wordAt r 4 - p0).toNat, failed := failed }) s2
      match headCmd s3 sb.bk ch with
      | some x => updJob (quadOf (s.block sb.bk).core) x.jid (fun j => { j with admitted := true }) s3
      | none => s3
    else s
  if (s1.chan sb.bk ch).log2 = 0 then s1 else publishRing sb.bk ch (writeHeader sb.bk ch s1)
/-- The collective state of an area: descriptor, q, exclusion mask and inner numbers of each. -/
def collsFrom (s : State) : Nat → Nat → List (List Word × Nat × Nat × List Nat)
  | 0, _ => []
  | n + 1, pa =>
    let h := areaRead s pa 256
    let k := fieldAt h 208 4
    let bs := areaRead s (pa + 256) k
    (leWords h 16, fieldAt h 64 4, fieldAt h 80 128, unitsOf 8 (k / 8) bs) :: collsFrom s n (pa + 256 + roundUp k 256)
/-- A collective excludes the peers that have been isolated while it was saved (R351). -/
def excludeIsolated (die cid : Nat) (s : State) : State :=
  s.mem.peers.foldl (fun s kp => if kp.2.isolated then collTimeout kp.1 die cid s else s) s
/-- One collective goes on from its saved state, at the engine that has held it. -/
def restoreColl (b : Block) (c : List Word × Nat × Nat × List Nat) (s : State) : State :=
  let die := dieOf b.core
  match (s.die die).colls.find? fun x => x.bk == b.bk && x.slot == xSlot c.1 && x.q == c.2.1 with
  | none => s
  | some x =>
    let q := quadOf b.core
    let y := if x.phase = 3 then x else { collFrom c.2.2.2 x with desc := c.1, excl := c.2.2.1 }
    let j : Job := { jid := 0, gid := b.gid, bk := b.bk, part := b.part, core := b.core, kind := .coll die x.cid,
                     regions := xRegions s b y.desc, edges := [], admitted := y.begun, wait := xWait y.desc,
                     waitDone := y.begun || waitOver s q (xWait y.desc) }
    let jid := (s.quad q).nextJid
    excludeIsolated die x.cid
      (updColl die x.cid (fun _ => { y with held := false, saved := false, core := b.core, jid := jid }) (addJob q j s))
/-- The turn pointers and the catch-up of a block of a deterministic grid (R254, R263). -/
def startCatchUp (bk : Nat) (h : List Byte) (counts : List (Nat × DWord)) (s : State) : State :=
  let b := s.block bk
  if !(s.grid b.gid).det then s else
    let t (i : Nat) : Nat := fieldAt h (0x38 + i) 1 % 32
    let s1 := (rangeFrom 0 2).foldl (fun s i => updSched b.core i (fun x => { x with turn := mSet x.turn b.part (32 * b.slot + t i) }) s) s
    s1.updBlock bk fun b => { b with catchUp := counts ++ (rangeFrom 0 2).map fun i => (turnKey i, BitVec.ofNat 64 (t i)) }
/-- Steps 2 to 6 for one block. -/
def resumeBlock (sb : SavedBlock) (s : State) : State :=
  let h := savedHead s sb
  let b := s.block sb.bk
  let q := quadOf b.core
  let s1 := (rangeFrom 0 8).foldl (fun s ch => resumeChannel sb h ch s) s
  let s2 := invalidateBanks q (fun _ => true) (arriveCards sb.bk b.cards s1)
  let at_ := sb.area + partOff h 6
  let s3 := (collsFrom s2 (fieldAt (areaRead s2 at_ 4) 0 4) (at_ + 64)).foldl (fun s c => restoreColl b c s) s2
  let live := warpsWhere s3 sb.bk fun _ => true
  let counts := live.map fun i => (i, BitVec.ofNat 64 (fieldAt (areaRead s3 (sb.area + 0x1800 + 1536 * i + 0x4A0) 8) 0 8))
  live.foldl (fun s i => afterLanes (warpKey sb.bk i) s) (startCatchUp sb.bk h counts (acquireDrop b.core .d s3))
/-- No quad holds a record of a saved block's completed jobs any more (R306). -/
def forgetJobs (bks : List Nat) (s : State) : State :=
  s.setQuads (s.quads.map fun kq => (kq.1, { kq.2 with lastDone := kq.2.lastDone.filter fun x => !bks.contains x.2.bk }))
/-- A saved cluster returns on some cores. -/
def restoreCluster (sv : Saved) (cores : List Nat) (s : State) : State :=
  let q := quadOf (cores.headD 0)
  let s0 := forgetJobs (sv.blocks.map (·.bk)) (restoreYard sv.quad sv.part q s)
  let c : Cluster := { quad := q, idx := freeCluster s0 q, blocks := sv.blocks.map (·.bk), cregs := cregsFrom s0 sv }
  let s1 := s0.setClusters (mSet s0.clusters sv.ck c)
  let s2 := (sv.blocks.zip cores).foldl (fun s bc => loadBlock sv bc.1 bc.2 bc.1.rank s) s1
  let s3 := s2.updLaunch fun l => { l with saved := mErase l.saved sv.id, restores := l.restores.filter fun r => r.1 != sv.id }
  sv.blocks.foldl (fun s sb => resumeBlock sb s) s3
/-- Quads that a saved cluster may go to: those of its engine's die while it holds collectives (DEDUCED, log 22). -/
def restoreQuads (s : State) (sv : Saved) (q : Nat) : Bool :=
  q / 32 == sv.quad / 32 || !(s.dies.any fun kd => kd.2.colls.any fun x => sv.blocks.any fun sb => sb.bk == x.bk)
/-- Where a saved cluster can go now (DEDUCED, log 23). -/
def restorePlace (s : State) (sv : Saved) (cores : Option (List Nat)) : Option (List Nat) :=
  placeOn s (sv.blocks.map fun sb => savedNeed (savedHead s sb)) (restoreQuads s sv) cores
/-- RESTORE (R253): a saved block or cluster is placed, or waits in the launch unit behind the restores asked for before
it; given again, it is placed once it stands first and cores are free. -/
def execRestore (id : Nat) (cores : Option (List Nat)) (s : State) : Res :=
  .next (match mFind s.launch.saved id with
    | none => s
    | some sv =>
      match s.launch.restores with
      | [] => (match restorePlace s sv cores with
        | some cs => restoreCluster sv cs s
        | none => s.updLaunch fun l => { l with restores := [(id, cores)] })
      | (first, wish) :: _ =>
        if first = id then
          (match restorePlace s sv wish with
          | some cs => restoreCluster sv cs s
          | none => s)
        else if s.launch.restores.any fun r => r.1 == id then s
        else s.updLaunch fun l => { l with restores := l.restores ++ [(id, cores)] })

end Sys2Proof.Machine
end

