-- ==== Sys2Proof/Machine/EvLaunch.lean ====
section
/-! DEFINITION. The launch unit: launches and completions (R377 to R379), dispatch (R92 to R96, R119), dispatch stall and
watchdog (R255, R256). A step whose condition does not hold leaves the state as it is. -/
namespace Sys2Proof.Machine

/-! ### LAUNCH (R378) -/
/-- The GRIDID of the next launch accepted: the count modulo 2^32 with 0 skipped. -/
def nextGrid (accepted : Nat) : Nat := accepted % (2 ^ 32 - 1) + 1
/-- A record that breaks a limit of R378, or that no core could ever take (R93) (DEDUCED, log 34). -/
def badLaunch (g : Grid) : Bool :=
  decide (2 ^ 55 ≤ g.entry.toNat) || g.entry.toNat % 4 != 0 || g.gx == 0 || g.gy == 0 || g.gz == 0 || g.regs == 0 ||
    decide (88 < g.regs) || g.gx % g.csize != 0 || !g.need.fits
/-- The words that seed g0-g3, or name the grid that does. -/
def launchWords (r : List Word) : List Word := (rangeFrom 12 4).map (recWord r)
/-- Grid registers at a grid's start (R119): both banks hold the launch values. -/
def seedRegs (vs : List Word) : Map ScopedReg := mapIdxFrom (fun i v => (i, ScopedReg.init v)) 0 vs
/-- A grid takes its launch values. -/
def Grid.seed (vs : List Word) (g : Grid) : Grid := { g with gregs := seedRegs vs, launchVals := vs, src := Option.none }
/-- Where a launch takes its g0-g3 from (R378): its record, a grid yet to complete, one of the last 256, or nowhere. -/
inductive SeedFrom where
  | now (vs : List Word)
  | later (gid : Nat)
  | never
def seedOf (s : State) (g : Grid) : SeedFrom :=
  if !g.gsrc then .now (launchWords g.record)
  else
    let n := (recWord g.record 12).toNat
    if (mFind s.launch.grids n).isSome then .later n
    else match s.launch.published.find? fun x => x.1 == n with
      | some x => .now x.2
      | none => .never
/-- A launch that never runs stands as a grid with nothing to dispatch; launch values that nothing gives are free (DESIGN CHOICE, log 3). -/
def neverGrid (tick : Nat) (g : Grid) : Grid :=
  { g with never := true, next := g.blocks,
           launchVals := if g.gsrc then (rangeFrom 0 4).map fun i => Config.undefinedWord (tick + i) else launchWords g.record }
/-- THE LAUNCH UNIT ACCEPTS A LAUNCH: it gets its GRIDID, and the response carries it. -/
def acceptLaunch (queue tag : Nat) (r : List Word) (s : State) : State :=
  let gid := nextGrid s.launch.accepted
  let g0 : Grid := { Grid.none with gid := gid, queue := queue, tag := tag, record := r }
  let g1 := { g0 with watchdog := 1024 * g0.budget }
  let g := if badLaunch g1 then neverGrid s.tick g1 else
    match seedOf s g1 with
    | .now vs => g1.seed vs
    | .later n => { g1 with src := some n }
    | .never => neverGrid s.tick g1
  let s1 := s.updLaunch fun l =>
    { l with accepted := l.accepted + 1, grids := mSet l.grids gid g,
             queues := if g.never then l.queues else mUpd l.queues [] queue (· ++ [gid]) }
  (if g.never && g.gsrc then s1.setTick (s1.tick + 4) else s1).send (.launched tag gid)
/-- The launch queues are open (R388). -/
def queuesOpen (s : State) : Bool := s.rel.stage == 6 && s.host.chanOpen
/-- LAUNCH: accepted in order; held while the queues are not open. -/
def execLaunch (queue tag : Nat) (rec : List Word) (s : State) : Res :=
  .next (if !s.host.chanOpen then s
    else if queuesOpen s then acceptLaunch (queue % 16) tag rec s
    else s.updLaunch fun l => { l with held := l.held ++ [(queue % 16, tag, rec)] })

/-! ### Dispatch (R92) -/
/-- A grid with blocks still to dispatch. -/
def Grid.waiting (g : Grid) : Bool := decide (g.next < g.blocks)
/-- The grid at the head of a queue. -/
def queueHead (s : State) (queue : Nat) : Option Grid :=
  ((mGet s.launch.queues [] queue).map s.grid).find? Grid.waiting
/-- The cores for a grid's next block or cluster. -/
def dispatchCores (s : State) (g : Grid) (wish : Option (List Nat)) : Option (List Nat) :=
  if g.src.isSome || !s.launch.restores.isEmpty then none
  else placeOn s (List.replicate g.csize g.need) (fun _ => true) wish
/-- A warp of a grid at its start (R95, R210). -/
def startWarp (g : Grid) (bk i : Nat) : Warp :=
  { Warp.none with bk := bk, idx := i, retiredW := false, lanes := List.replicate 32 (Lane.start g.entry),
                   wregs := startWregs g, role := g.role, limit := BitVec.ofNat 7 g.regs }
/-- A block at its start (R94, R119): windows and exchange banks read zero, registers hold 0. -/
def startBlock (s : State) (g : Grid) (bk ck rank core n : Nat) : Block :=
  { Block.none with
    bk := bk, gid := g.gid, part := g.part, core := core, slot := (freeBlockSlot s core).getD 0, age := s.launch.nextAge,
    x := n % g.gx, y := n / g.gx % g.gy, z := n / g.gx / g.gy, ck := ck, rank := rank, nwarps := g.nwarps, regs := g.regs,
    spSize := 1024 * g.scratchK, abSize := 1024 * g.abK, wbSize := 1024 * g.wbK, cbSize := 1024 * g.cbK,
    hasX := decide (2 ≤ g.csize) }
/-- One block is placed on a core. -/
def placeBlockOn (g : Grid) (ck rank core : Nat) (s : State) : State :=
  let bk := s.launch.nextBk
  let b := startBlock s g bk ck rank core (g.next + rank)
  let s1 := s.setBlocks (mSet s.blocks bk b)
  let s2 := s1.setWarps ((rangeFrom 0 g.nwarps).foldl (fun m i => mSet m (warpKey bk i) (startWarp g bk i)) s1.warps)
  let s3 := s2.updCluster ck fun c => { c with blocks := c.blocks ++ [bk] }
  s3.updLaunch fun l => { l with nextBk := bk + 1, nextAge := l.nextAge + 1 }
/-- Before the first block of a grid issues, every snapshot of the package is dropped (R377, R232). -/
def dropSnapshots (s : State) : State :=
  let s1 := s.setCores (s.cores.map fun kc => (kc.1, { kc.2 with snaps := [] }))
  s1.setQuads (s1.quads.map fun kq => (kq.1, { kq.2 with roSnaps := [] }))
/-- A BLOCK, OR A CLUSTER, IS DISPATCHED: all its blocks in one step. -/
def dispatch (g0 : Grid) (cores : List Nat) (part : Nat) (s : State) : State :=
  let g := if g0.firstPlaced then g0 else { g0 with part := part % 8, firstPlaced := true }
  let s0 := if g0.firstPlaced then s else dropSnapshots s
  let q := quadOf (cores.headD 0)
  let ck := s0.launch.nextBk
  let s1 := s0.setClusters (mSet s0.clusters ck { quad := q, idx := freeCluster s0 q, blocks := [], cregs := [] })
  let s2 := (mapIdxFrom (fun i c => (i, c)) 0 cores).foldl (fun s ic => placeBlockOn g ck ic.1 ic.2 s) s1
  let g1 := { g with next := g.next + g.csize }
  s2.updLaunch fun l =>
    { l with grids := mSet l.grids g.gid g1, rr := (g.queue + 1) % 16,
             queues := if g1.waiting then l.queues else mUpd l.queues [] g.queue (·.filter (· != g.gid)) }
/-- BLOCK_DISPATCH: the next block or cluster of the grid at a queue's head. -/
def execBlockDispatch (queue : Nat) (pl : Placement) (s : State) : Res :=
  .next (if !queuesOpen s then s else
    match queueHead s queue with
    | none => s
    | some g =>
      match dispatchCores s g pl.cores with
      | some cs => dispatch g cs pl.part s
      | none => s)
/-- The queue that the launch unit serves next when firmware leaves the choice to it (R92). -/
def nextQueue (s : State) : Option Nat :=
  ((rangeFrom s.launch.rr 16).map (· % 16)).find? fun q => (queueHead s q).any fun g => (dispatchCores s g none).isSome

/-! ### Completion (R379, R131) -/
/-- Nothing of a grid is left on the package. -/
def gridEnded (s : State) (g : Grid) : Bool :=
  !g.waiting && !(s.blocks.any fun kb => kb.2.gid == g.gid) && (g.killed.isSome || g.ended == g.blocks) &&
    !(s.quads.any fun kq => kq.2.jobs.any fun j => j.gid == g.gid) &&
    !(s.dies.any fun kd => kd.2.colls.any fun x => x.gid == g.gid) && !(s.wd.queries.any fun x => x.gid == g.gid) &&
    !(s.mem.bankq.any fun x => x.gid == g.gid) && !(s.mem.flights.any fun f => g.fids.contains f.fid)
/-- A grid's completion can be reported. -/
def canComplete (s : State) (g : Grid) : Bool := g.gid != 0 && s.host.chanOpen && (g.never || gridEnded s g)
/-- STATUS of a completion. -/
def Grid.status (g : Grid) : Nat := if g.never then 0x11 else g.killed.getD 0
/-- What a grid publishes: its registers at the end, or its launch values when it was killed or never ran. -/
def Grid.results (g : Grid) : List Word :=
  if g.never || g.killed.isSome then g.launchVals
  else (rangeFrom 0 4).map fun i => (publish (mGet g.gregs (ScopedReg.init 0) i)).front
/-- COMPLETE: the record is sent, the values are published, and launches that waited for them take them. -/
def completeGrid (g : Grid) (s : State) : State :=
  let vs := g.results
  let r := [BitVec.ofNat 32 g.gid, BitVec.ofNat 32 g.status] ++ vs ++ [BitVec.ofNat 32 g.queue, 0]
  let take (x : Grid) : Grid := if x.src = some g.gid then x.seed vs else x
  (s.updLaunch fun l =>
    { l with grids := (mErase l.grids g.gid).map fun kx => (kx.1, take kx.2),
             queues := l.queues.map fun kq => (kq.1, kq.2.filter (· != g.gid)),
             published := ((g.gid, vs) :: l.published).take 256 }).send (.complete g.queue r)
/-- COMPLETE. -/
def execComplete (gid : Nat) (s : State) : Res :=
  .next (if canComplete s (s.grid gid) then completeGrid (s.grid gid) s else s)

/-! ### Dispatch stall and watchdog (R255, R256) -/
/-- A lane does not keep a grid from stalling: it waits in WAITM, at a JOIN or at a BAR, or is not there. -/
def laneStalls (w : Warp) (l : Nat) : Bool :=
  let x := w.lane l
  x.st == .vacant || x.st == .serialWaiting || x.st == .waitingJoin ||
    w.parks.any fun p => p.mask.getLsbD l && match p.why with
      | .bar _ | .waitm _ _ _ _ => true
      | _ => false
/-- A warp has a lane in WAITM. -/
def inWaitm (w : Warp) : Bool := w.parks.any fun p => match p.why with
  | .waitm _ _ _ _ => true
  | _ => false
/-- The two conditions of R255. -/
def gridStalls (s : State) (g : Grid) : Bool :=
  let ws := s.warps.filter fun kw => (s.block kw.2.bk).gid == g.gid && !kw.2.retiredW
  (ws.all fun kw => (rangeFrom 0 32).all (laneStalls kw.2)) && (ws.any fun kw => inWaitm kw.2) && g.waiting
/-- A block of the grid is resident. -/
def gridResident (s : State) (gid : Nat) : Bool := s.blocks.any fun kb => kb.2.gid == gid
/-- n local cycles of the launch unit pass for a grid. -/
def tickGrid (s : State) (n : Nat) (g : Grid) : Grid :=
  { g with dstall := if gridStalls s g then g.dstall + n else 0,
           watchdog := if gridResident s g.gid then g.watchdog - n else g.watchdog }
/-- n local cycles of the launch unit. -/
def tickLaunch (n : Nat) (s : State) : State :=
  s.updLaunch fun l => { l with cycle := l.cycle + n, grids := l.grids.map fun kg => (kg.1, tickGrid s n kg.2) }
/-- A dispatch stall is due. -/
def dstallDue (s : State) (g : Grid) : Bool := g.killed.isNone && decide (65536 ≤ g.dstall) && gridStalls s g
/-- A watchdog has run out. -/
def watchdogDue (g : Grid) : Bool := g.killed.isNone && !g.never && g.budget != 0 && g.watchdog == 0
/-- The launch unit kills a grid, with a record of its own (DEDUCED, log 24). -/
def unitKill (gid code : Nat) (s : State) : State :=
  postRecord (engineRecord (BitVec.ofNat 8 code) 0 5 gid 0 0 0 0 .none) (killGrid gid code s)
/-- DSTALL (R255). -/
def execDstall (gid : Nat) (s : State) : Res := .next (if dstallDue s (s.grid gid) then unitKill gid 0x12 s else s)
/-- WATCHDOG (R256). -/
def execWatchdog (gid : Nat) (s : State) : Res :=
  .next (if (s.grid gid).gid ≠ 0 ∧ watchdogDue (s.grid gid) then unitKill gid 0x13 s else s)
/-- WATCHDOG_REDUCTION (R256, R384): the local cycles left are lowered, never raised, and never to 0, which would mean
no watchdog (DEDUCED, log 30). -/
def execWatchdogReduction (gid v : Nat) (s : State) : Res :=
  .next (s.updGrid gid fun g =>
    if g.budget ≠ 0 ∧ 0 < v ∧ v < g.watchdog then { g with watchdog := v } else g)

end Sys2Proof.Machine
end

