-- ==== Sys2Proof/Machine/EvWd.lean ====
section
/-! DEFINITION. The work distributor (R317 to R320, R323 to R328, R335). A step whose condition does not hold leaves the
state as it is. -/
namespace Sys2Proof.Machine

/-! ### The descriptor and the map (R317, R318, R327, R328) -/
def tX (d : List Word) : Nat := bitsAt (recWord d 0) 0 13
def tY (d : List Word) : Nat := bitsAt (recWord d 0) 16 13
def tOrder (d : List Word) : Nat := bitsAt (recWord d 0) 29 2
def tSteal (d : List Word) : Bool := (recWord d 0).getLsbD 31
def tEnd (d : List Word) : Nat := (recWord d 2).toNat
def tLease (d : List Word) : Nat := (recWord d 3).toNat
def tMap (d : List Word) : Nat := (recWord64 d 4).toNat
def tSrec (d : List Word) : Nat := (recWord64 d 6).toNat
/-- Neighbour j's DEVICE, if its valid bit is set. -/
def tNeighbour (d : List Word) (j : Nat) : Option Nat :=
  let w := recWord d (9 + j / 2)
  if w.getLsbD (16 * (j % 2) + 10) then some (bitsAt w (16 * (j % 2)) 10) else none
/-- The reserved fields. -/
def tReserved (d : List Word) : Bool :=
  bitsAt (recWord d 0) 13 3 != 0 || bitsAt (recWord d 8) 10 6 != 0 ||
    ([9, 10].any fun i => bitsAt (recWord d i) 11 5 != 0 || bitsAt (recWord d i) 27 5 != 0) ||
    (rangeFrom 11 5).any fun i => recWord d i != 0
/-- A malformed descriptor (R335). -/
def tMalformed (d : List Word) : Bool :=
  tOrder d == 3 || tX d == 0 || tY d == 0 || decide (tX d * tY d < tEnd d) || tReserved d || tMap d % 8 != 0
/-- The coordinate of an index (R317): (y << 16) | x. -/
def tCoord (d : List Word) (i : Nat) : Nat :=
  let (x, y) := if tOrder d = 1 then (i / tY d, i % tY d)
    else if tOrder d = 2 ∧ i / tX d % 2 = 1 then (tX d - 1 - i % tX d, i / tX d) else (i % tX d, i / tX d)
  65536 * y + x
/-- The index of a coordinate, if it lies in the set. -/
def tIndex (d : List Word) (x y : Nat) : Option Nat :=
  if tX d ≤ x ∨ tY d ≤ y then none
  else some (if tOrder d = 1 then x * tY d + y else if tOrder d = 2 ∧ y % 2 = 1 then y * tX d + (tX d - 1 - x) else y * tX d + x)
/-- queued(s), taken(d, s) and done(d, s). -/
def queuedWord (s : Nat) : DWord := BitVec.ofNat 64 (s * 2 ^ 32)
def takenWord (d s : Nat) : DWord := BitVec.ofNat 64 (s * 2 ^ 32 + d * 256 + 1)
def doneWord (d s : Nat) : DWord := BitVec.ofNat 64 (s * 2 ^ 32 + d * 256 + 2)
/-- A map entry as the WD sees it (R318, R328): anything malformed counts as done. -/
inductive TileSt where
  | queued (s : Nat)
  | taken (d s : Nat)
  | other
deriving DecidableEq, Repr
def tileSt (e : DWord) : TileSt :=
  let s := e.toNat / 2 ^ 32
  let d := e.toNat / 256 % 4096
  if s = 0 ∨ 1024 ≤ d ∨ e.toNat / 4 % 64 ≠ 0 ∨ e.toNat / 2 ^ 20 % 4096 ≠ 0 then .other
  else if e = queuedWord s then .queued s else if e.toNat % 4 = 1 then .taken d s else .other
/-- The next sequence. -/
def nextSeq (s : Nat) : Nat := if s = 2 ^ 32 - 1 then 1 else s + 1

/-! ### Accesses of the owner's package -/
/-- What an access of the WD brings. -/
abbrev WdRes (α : Type) := Except (MemFault × Nat) α × State
/-- Go on after an access that did not fault. -/
def WdRes.andThen {α β : Type} (r : WdRes α) (k : α → State → WdRes β) : WdRes β :=
  match r with
  | (.ok a, s) => k a s
  | (.error e, s) => (.error e, s)
/-- An atomic on an aligned word at its home (R227). -/
def wdAtom (part va : Nat) (aop : Aop) (b64 : Bool) (x y : DWord) (s : State) : WdRes DWord :=
  match translate none part .write 0 va s with
  | (.error e, s1) => (.error (e, va), s1)
  | (.ok a, s1) =>
    if a.peer.isNone && (rangeFrom a.pa (atomSize b64)).any s1.mem.ecc.contains then (.error (⟨0x0C, 0⟩, va), s1) else
    let (wid, s2) := freshWid s1
    let (old, s3) := homeAtom a b64 (aop, x, y) wid (fun old => atomNew aop b64 old x y) s2
    (.ok old, s3)
/-- A compare-and-swap; the Bool says that it succeeded. -/
def wdCas (part va : Nat) (old new : DWord) (s : State) : WdRes Bool :=
  (wdAtom part va .cas true old new s).andThen fun x s1 => (.ok (x == old), s1)
/-- The descriptor. -/
def readDesc (x : Query) (s : State) : WdRes (List Word) :=
  WdRes.andThen (engineRead x.part x.desc 64 none s) fun bs s1 => (.ok (leWords bs 16), s1)
/-- Map entry i. -/
def readEntry (x : Query) (d : List Word) (i : Nat) (s : State) : WdRes DWord :=
  WdRes.andThen (engineRead x.part (tMap d + 8 * i) 8 none s) fun bs s1 => (.ok (BitVec.ofNat 64 (leNat bs)), s1)

/-! ### Accesses of a neighbour (R323) -/
/-- n bytes that a neighbour answers: free values (DESIGN CHOICE, log 3). -/
def peerRead (p va n : Nat) (s : State) : List Byte × State :=
  ((rangeFrom va n).map (Config.peerByte s.tick p),
   ((sectorPieces va n).foldl (fun s x => s.send (.readToPeer p x.1 x.2)) s).bump)
/-- A compare-and-swap at a neighbour: whether it succeeds is not this package's to say (DESIGN CHOICE, log 3). -/
def peerCas (p va : Nat) (old new : DWord) (s : State) : Bool × State :=
  (Config.peerCas s.tick p va, (s.send (.atomToPeer p va .cas true old new)).bump)
/-- The STRAGGLER flag of the member that gates a neighbour's set (R321, R323, R330). -/
def gateFlag (p : Nat) (d : List Word) (s : State) : Bool × State :=
  let a := tSrec d
  if a = 0 ∨ a % 32 ≠ 0 then (false, s) else
    let (h, s1) := peerRead p a 4 s
    let find (r : Option Bool × State) (i : Nat) : Option Bool × State :=
      if r.1.isSome then r else
        let (e, s2) := peerRead p (a + 32 + 16 * i) 16 r.2
        let k := leWord (e.drop 12)
        if bitsAt k 16 16 = bitsAt (recWord d 8) 16 16 ∧ bitsAt k 0 10 = bitsAt (recWord d 8) 0 10 then
          (some ((leWord (e.drop 4)).getLsbD 0), s2)
        else (none, s2)
    let (r, s3) := (rangeFrom 0 (min 1024 (fieldAt h 0 2))).foldl find (none, s1)
    (r.getD false, s3)
/-- Scan a neighbour's map downward from an index; a failed CAS reads the same entry again. The answer is the index and
its sequence (DEDUCED, log 25). -/
def scanTiles (p : Nat) (d : List Word) : Nat → Nat → State → Option (Nat × Nat) × State
  | 0, _, s => (none, s)
  | fuel + 1, left, s =>
    if left = 0 then (none, s) else
      let i := left - 1
      let (e, s1) := peerRead p (tMap d + 8 * i) 8 s
      match tileSt (BitVec.ofNat 64 (leNat e)) with
      | .queued n =>
        let (flag, s2) := gateFlag p d s1
        if !flag then (none, s2) else
          let (ok, s3) := peerCas p (tMap d + 8 * i) (queuedWord n) (takenWord s2.host.device n) s2
          if ok then (some (i, n), s3) else scanTiles p d fuel left s3
      | _ => (none, s1)
/-- Steal from one neighbour: answer words of a stolen tile. -/
def stealFrom (desc j p : Nat) (s : State) : Option (Word × Word) × State :=
  if (mGet s.mem.peers Peer.init p).isolated then (none, s) else
    let (bs, s1) := peerRead p desc 64 s
    let d := leWords bs 16
    let names := (rangeFrom 0 4).any fun i => tNeighbour d i == some s1.host.device
    if tMalformed d || !tSteal d || tMap d == 0 || !names then (none, s1) else
      let (flag, s2) := gateFlag p d s1
      if !flag then (none, s2) else
        match scanTiles p d (tEnd d + 64) (tEnd d) s2 with
        | (some (i, n), s3) => (some (BitVec.ofNat 32 (2 ^ 31 + 2 ^ 29 * j + tCoord d i), BitVec.ofNat 32 n), s3)
        | (none, s3) => (none, s3)
/-- Steal from the neighbours, in list order. -/
def steal (x : Query) (d : List Word) (s : State) : Option (Word × Word) × State :=
  (rangeFrom 0 4).foldl (fun r j =>
    if r.1.isSome then r else
      match tNeighbour d j with
      | some p => stealFrom x.desc j p r.2
      | none => r) (none, s)

/-! ### Serving a query (R319, R320, R324, R325) -/
/-- The head query changes. -/
def updQuery (f : Query → Query) (s : State) : State :=
  s.setWd { s.wd with queries := match s.wd.queries with
    | [] => []
    | x :: t => f x :: t }
/-- AN ANSWER (R320): word 0, then the sequence word, at the scratchpad of the posting block while it is there (R336). -/
def answer (x : Query) (w0 w1 : Word) (s : State) : State :=
  let s1 := s.setWd { s.wd with queries := s.wd.queries.drop 1 }
  let put (off : Nat) (w : Word) (s : State) : State :=
    localStore x.bk (mapIdxFrom (fun i b => ({ space := .sp, off := off + i, val := b } : LWrite)) 0 (wordBytes w)) none s
  if (mFind s.blocks x.bk).any fun b => (s.grid b.gid).killed.isNone then put (x.off + 4) w1 (put x.off w0 s1) else s1
/-- The end token. -/
def answerEnd (x : Query) (s : State) : State := answer x 0xFFFFFFFF 0xFFFFFFFF s
/-- DONE at a neighbour (R324). -/
def doneStolen (x : Query) (p tx ty sq : Nat) (s : State) : State :=
  if (mGet s.mem.peers Peer.init p).isolated then s else
    let (bs, s1) := peerRead p x.desc 64 s
    let d := leWords bs 16
    if tMalformed d || tMap d == 0 then s1 else
      match tIndex d tx ty with
      | some i => (peerCas p (tMap d + 8 * i) (takenWord s.host.device sq) (doneWord s.host.device sq) s1).2
      | none => s1
/-- DONE (R324): the completion that a query carries. -/
def doTile (x : Query) (d : List Word) (w0 w1 : Word) (s : State) : WdRes Unit :=
  let tx := bitsAt w0 0 16
  let ty := bitsAt w0 16 13
  if w0.getLsbD 31 then
    match tNeighbour d (bitsAt w0 29 2) with
    | some p => (.ok (), doneStolen x p tx ty w1.toNat s)
    | none => (.ok (), s)
  else if tMap d = 0 then (.ok (), s)
  else match tIndex d tx ty with
    | none => (.ok (), s)
    | some i =>
      (wdCas x.part (tMap d + 8 * i) (takenWord s.host.device w1.toNat) (doneWord s.host.device w1.toNat) s).andThen
        fun _ s1 => (.ok (), s1)
/-- Watch a tile that another package has taken; a full list takes none (R325). -/
def watchTile (x : Query) (d : List Word) (i dev sq : Nat) (s : State) : State :=
  if 64 ≤ s.wd.watch.length then s else
    s.setWd { s.wd with watch := s.wd.watch ++
      [{ part := x.part, desc := x.desc, i := i, d := dev, s := sq, left := if tLease d = 0 then none else some (tLease d) }] }
/-- Serve the entry at an index that the query has drawn. The Bool says that the query is answered. -/
def serveIndex (x : Query) (d : List Word) (i : Nat) (s : State) : WdRes Bool :=
  if tMap d = 0 then (.ok true, answer x (BitVec.ofNat 32 (tCoord d i)) (BitVec.ofNat 32 (i + 1)) s) else
    (readEntry x d i s).andThen fun e s1 =>
      match tileSt e with
      | .queued n =>
        (wdCas x.part (tMap d + 8 * i) (queuedWord n) (takenWord s1.host.device n) s1).andThen fun ok s2 =>
          if ok then (.ok true, answer x (BitVec.ofNat 32 (tCoord d i)) (BitVec.ofNat 32 n) s2) else (.ok false, s2)
      | .taken dev n => (.ok false, if dev = s1.host.device then s1 else watchTile x d i dev n s1)
      | .other => (.ok false, s1)
/-- The entries of a set on the watch list. -/
def watchedBy (s : State) (x : Query) : List Watch := s.wd.watch.filter fun w => w.part == x.part && w.desc == x.desc
/-- An entry leaves the watch list. -/
def unwatch (w : Watch) (s : State) : State := s.setWd { s.wd with watch := s.wd.watch.filter (· != w) }
/-- RECLAIM of an expired entry (R325), and its claim as at the front. -/
def reclaim (x : Query) (d : List Word) (w : Watch) (s : State) : WdRes Bool :=
  let va := tMap d + 8 * w.i
  let n := nextSeq w.s
  (wdCas x.part va (takenWord w.d w.s) (queuedWord n) s).andThen fun ok s1 =>
    let s2 := unwatch w s1
    if !ok then (.ok false, s2) else
      (wdCas x.part va (queuedWord n) (takenWord s2.host.device n) s2).andThen fun got s3 =>
        if got then (.ok true, answer x (BitVec.ofNat 32 (tCoord d w.i)) (BitVec.ofNat 32 n) s3) else (.ok false, s3)
/-- The expired entries of some, one after the other, until one answers. -/
def reclaimAny (x : Query) (d : List Word) : List Watch → State → WdRes Bool
  | [], s => (.ok false, s)
  | w :: t, s => (reclaim x d w s).andThen fun ok s1 => if ok then (.ok true, s1) else reclaimAny x d t s1
/-- The set is past its end: expired leases, then stealing, then the end token, or a wait. -/
def serveBack (x : Query) (d : List Word) (s : State) : WdRes Unit :=
  (reclaimAny x d ((watchedBy s x).filter fun w => w.left == some 0) s).andThen fun ok s1 =>
    if ok then (.ok (), s1) else
      match (if tSteal d then steal x d s1 else (none, s1)) with
      | (some (w0, w1), s2) => (.ok (), answer x w0 w1 s2)
      | (none, s2) => (.ok (), if (watchedBy s2 x).isEmpty then answerEnd x s2 else s2)
/-- The loop over the front of the set; `fuel` bounds its indices. -/
def serveFront (x : Query) (d : List Word) : Nat → Option Nat → State → WdRes Unit
  | 0, _, s => (.ok (), s)
  | fuel + 1, drawn, s =>
    let index : WdRes Nat := match drawn with
      | some i => (.ok i, s)
      | none => (wdAtom x.part (x.desc + 4) .add false 1 0 s).andThen fun v s1 => (.ok v.toNat, s1)
    index.andThen fun i s1 =>
      if i < tEnd d then
        (serveIndex x d i (updQuery (fun y => { y with stage := .at_ i }) s1)).andThen fun ok s2 =>
          if ok then (.ok (), s2) else serveFront x d fuel none (updQuery (fun y => { y with stage := .front }) s2)
      else serveBack x d (updQuery (fun y => { y with stage := .back }) s1)
/-- A query from where it stands, with its descriptor. -/
def serveFrom (x : Query) (d : List Word) (s : State) : WdRes Unit :=
  match x.stage with
  | .start =>
    (match x.comp with
     | some (w0, w1) => doTile x d w0 w1 s
     | none => (.ok (), s)).andThen fun _ s1 => serveFront x d (tEnd d + 2) none (updQuery (fun y => { y with stage := .front }) s1)
  | .front => serveFront x d (tEnd d + 2) none s
  | .at_ i => serveFront x d (tEnd d + 2) (some i) s
  | .back => serveBack x d s
/-- The record of the WD (R335). -/
def wdRecord (x : Query) (code : Byte) (detail faddr : Nat) (ref : FaultRef) : FaultRec :=
  engineRecord code detail 4 x.gid 0 0 0 faddr ref
/-- WHAT THE WD DOES WITH THE QUERY AT ITS HEAD (R319): a fault on the owner's package holds it, with one record (R335). -/
def serveQuery (x : Query) (s : State) : State :=
  let r : WdRes Unit := (readDesc x s).andThen fun d s1 =>
    if tMalformed d then (.ok (), answerEnd x (postRecord (wdRecord x 0x11 0x48 x.desc .none) s1)) else serveFrom x d s1
  match r with
  | (.ok _, s1) => s1
  | (.error (f, a), s1) =>
    postRecord (wdRecord x f.code f.detail a (.query x.id)) (updQuery (fun y => { y with held := true }) s1)
/-- WD_QUERY. -/
def execWdQuery (s : State) : Res :=
  .next (match s.wd.queries with
    | x :: _ => if x.held then s else serveQuery x s
    | [] => s)
/-- The head query waits for a lease of its set. -/
def leaseDue (s : State) (i : Nat) : Option (Query × Watch) :=
  match s.wd.queries, s.wd.watch[i]? with
  | x :: _, some w =>
    if !x.held && x.stage == .back && w.part == x.part && w.desc == x.desc && w.left == some 0 then some (x, w) else none
  | _, _ => none
/-- LEASE_EXPIRY (R325): the i-th watched entry has expired; the waiting query reclaims it and takes it
(DEDUCED, log 25). -/
def execLeaseExpiry (i : Nat) (s : State) : Res :=
  .next (match leaseDue s i with
    | none => s
    | some (x, w) =>
      match (readDesc x s).andThen fun d s1 => reclaim x d w s1 with
      | (.ok _, s1) => s1
      | (.error (f, a), s1) =>
        postRecord (wdRecord x f.code f.detail a (.query x.id)) (updQuery (fun y => { y with held := true }) s1))
/-- n local cycles of the WD: leases count down. -/
def tickWd (n : Nat) (s : State) : State :=
  s.setWd { s.wd with cycle := s.wd.cycle + n, watch := s.wd.watch.map fun w => { w with left := w.left.map (· - n) } }
/-- The head query can be served to some effect: it does not wait for a lease that runs. -/
def queryReady (s : State) : Bool :=
  match s.wd.queries with
  | x :: _ => !x.held && (x.stage != .back || (watchedBy s x).isEmpty || (watchedBy s x).any fun w => w.left == some 0)
  | [] => false

end Sys2Proof.Machine
end

