-- ==== Sys2Proof/Machine/EvObj.lean ====
section
/-! DEFINITION. Global barrier objects at their homes (R202, R203, R321, R322, R329, R330, R392) and completion signals.
A step whose condition does not hold leaves the state as it is. -/
namespace Sys2Proof.Machine

/-! ### The object's words (R329) -/
/-- Word i of the object. -/
def objWord (s : State) (o : ObjOp) (i : Nat) : Word :=
  leWord ((rangeFrom (o.pa + 4 * i) 4).map (s.mem.byteUnder (s.mem.keyOf o.attr.key)))
/-- The words of R202. -/
def objOf (s : State) (o : ObjOp) : BarObj := { w0 := objWord s o 0, pending := objWord s o 1, bytes := objWord s o 2 }
/-- Write words from word i on. -/
def putObjWords (o : ObjOp) (i : Nat) (ws : List Word) (s : State) : State :=
  homeStore o.attr (o.pa + 4 * i) (ws.flatMap wordBytes) s
/-- The partition an object belongs to (R392). -/
def objPartOf (s : State) (o : ObjOp) : Option Nat := mFind s.mem.objPart o.pa
/-- An op gives its object a partition: an .init does, and the first arrival from this package where none has. -/
def claimObj (o : ObjOp) (s : State) : State :=
  if o.wk.isSome && (o.op == .init || (barxArrives o.op && (objPartOf s o).isNone)) then
    s.updMem fun m => { m with objPart := mSet m.objPart o.pa o.part }
  else s

/-! ### Straggler records (R321, R322, R330) -/
/-- The header: COUNT, K, L. -/
def readHeader (part srec : Nat) (s : State) : WdRes (Nat × Nat × Nat) :=
  WdRes.andThen (engineRead part srec 8 none s) fun bs s1 =>
    (.ok (min 1024 (fieldAt bs 0 2), fieldAt bs 4 4 % 32, fieldAt bs 6 2), s1)
/-- The first of the member entries from i on whose key matches; `n` entries are left. -/
def findMember (part srec : Nat) (key : Nat × Nat) : Nat → Nat → State → WdRes (Option Nat)
  | 0, _, s => (.ok none, s)
  | n + 1, i, s =>
    WdRes.andThen (engineRead part (srec + 32 + 16 * i + 12) 4 none s) fun bs s1 =>
      if fieldAt bs 0 2 % 1024 = key.1 ∧ fieldAt bs 2 2 = key.2 % 65536 then (.ok (some i), s1)
      else findMember part srec key n (i + 1) s1
/-- What the home keeps of a member. -/
structure Member where
  bitmap : Nat
  lagAvg : Nat
  straggler : Bool
  arrivals : Nat
deriving DecidableEq, Repr
/-- A member entry is updated as one write of its first 12 bytes. -/
def updMember (part srec i : Nat) (f : Member → Member) (s : State) : WdRes Unit :=
  let va := srec + 32 + 16 * i
  WdRes.andThen (engineRead part va 12 none s) fun bs s1 =>
    let m := f { bitmap := fieldAt bs 0 2, lagAvg := fieldAt bs 2 2, straggler := fieldAt bs 4 1 % 2 == 1, arrivals := fieldAt bs 8 4 }
    match engineWrite part va (leBytes m.bitmap 2 ++ leBytes m.lagAvg 2 ++ leBytes (bit01 m.straggler) 4 ++ leBytes m.arrivals 4) s1 with
    | (some e, s2) => (.error e, s2)
    | (none, s2) => (.ok (), s2)
/-- An arrival's lag enters its member's entry. -/
def logLag (lag : Nat) (m : Member) : Member :=
  { m with lagAvg := (m.lagAvg - m.lagAvg / 8 + lag / 8) % 65536, arrivals := (m.arrivals + 1) % 2 ^ 32 }
/-- A completed phase in a member's entry (R322): the bitmap shifts, and the flag is set, cleared or left. -/
def logPhase (k l : Nat) (last : Bool) (m : Member) : Member :=
  let b := (2 * m.bitmap + bit01 last) % 65536
  let n := ((rangeFrom 0 16).filter fun i => b.testBit i).length
  { m with bitmap := b, straggler :=
      if k ≤ n ∧ l ≤ m.lagAvg then true else if n + 4 < k ∨ m.lagAvg < l / 2 then false else m.straggler }
/-- The members of a record from i on take a completed phase. -/
def logPhases (part srec k l : Nat) (last : Option Nat) : Nat → Nat → State → WdRes Unit
  | 0, _, s => (.ok (), s)
  | n + 1, i, s =>
    (updMember part srec i (logPhase k l (last == some i)) s).andThen fun _ s1 => logPhases part srec k l last n (i + 1) s1
/-- A fault in a straggler record skips the logging, with a record that is tied to no grid (R392). -/
def skipOnFault (r : WdRes Unit) : State :=
  match r with
  | (.ok _, s) => s
  | (.error (f, a), s) => postRecord (engineRecord f.code f.detail 4 0 0 0 0 a .none) s
/-- Where an object logs: its partition and its straggler record, if it has both (R329). -/
def logPlace (s : State) (o : ObjOp) : Option (Nat × Nat) :=
  let a := (objWord s o 5 ++ objWord s o 4 : BitVec 64).toNat
  if a = 0 ∨ a % 32 ≠ 0 then none else (objPartOf s o).map fun p => (p, a)
/-- AN ARRIVAL IS LOGGED (R321) with its lag. -/
def logArrival (o : ObjOp) (lag : Nat) (s : State) : State :=
  match logPlace s o with
  | none => s
  | some (p, a) =>
    skipOnFault ((readHeader p a s).andThen fun h s1 =>
      (findMember p a (o.dev, o.blkx) h.1 0 s1).andThen fun r s2 =>
        match r with
        | some i => updMember p a i (logLag lag) s2
        | none => (.ok (), s2))
/-- Steps 1 and 2 of R322. -/
def logCompletion (o : ObjOp) (s : State) : State :=
  match logPlace s o with
  | none => s
  | some (p, a) =>
    skipOnFault ((readHeader p a s).andThen fun h s1 =>
      (match mFind s1.mem.objLast o.pa with
       | some key => findMember p a key h.1 0 s1
       | none => (.ok none, s1) : WdRes (Option Nat)).andThen fun last s2 => logPhases p a h.2.1 h.2.2 last h.1 0 s2)

/-! ### A phase completes (R322) -/
/-- Step 4: the completion signal. -/
def sendSignal (o : ObjOp) (s : State) : State :=
  let w := objWord s o 7
  let dev := bitsAt w 19 10
  let quad := bitsAt w 12 7
  let ctr := bitsAt w 0 11
  if !w.getLsbD 11 then s
  else if dev ≠ s.host.device then s.send (.signal dev quad ctr)
  else match objPartOf s o with
    | some p =>
      if ctrOwned s quad ctr p then s.updMem fun m => { m with signals := m.signals ++ [(dev, quad, ctr, some p)] }
      else postRecord (engineRecord 0x11 0x41 4 0 0 0 0 0 .none) s
    | none => postRecord (engineRecord 0x11 0x41 4 0 0 0 0 0 .none) s
/-- Waits on the object that the new parity satisfies return, each an acquire of pod scope (R203). -/
def wakeObj (o : ObjOp) (parity : Bool) (s : State) : State :=
  let hb := mGet s.mem.objHb [] o.pa
  let woken := s.warps.filter fun kw => kw.2.outs.any fun x => x.awaits false o.pa parity
  let s1 := s.setWarps (s.warps.map fun kw => (kw.1, satisfyObj false o.pa parity hb kw.2))
  woken.foldl (fun s kw => acquireDrop (s.block kw.2.bk).core .p s) s1
/-- A GLOBAL OBJECT'S PHASE COMPLETES. -/
def completeObj (o : ObjOp) (s : State) : State :=
  let s1 := logCompletion o s
  let s2 := putObjWords o 3 [objWord s1 o 3 + 1] s1
  wakeObj o (objOf s2 o).parity (sendSignal o s2)

/-! ### An op reaches its home (R202) -/
/-- The local cycle of an object's home slice as C0 keeps it (R3, R321). -/
def homeNow (s : State) (o : ObjOp) : Nat :=
  (s.mem.homeCycle + mGet s.mem.homeSkew 0 (Config.homeOf (o.pa / 1024))) % 2 ^ 32
/-- The lag of an arrival: 0 for a phase's first. -/
def lagOf (s : State) (o : ObjOp) (first : Bool) : Nat :=
  if first then 0 else min 65535 ((homeNow s o + 2 ^ 32 - (objWord s o 6).toNat) % 2 ^ 32 / 64)
/-- C0 holds no defined value before a phase's first arrival (R329): a free value (DESIGN CHOICE, log 33). -/
def openC0 (o : ObjOp) (s : State) : State := (putObjWords o 6 [Config.undefinedWord s.tick] s).bump
/-- An op reads its object at the slice, once (R370). -/
def serveObj (o : ObjOp) (s : State) : State := if o.zero then s else s.updMem fun m => m.countRead (o.pa / 1024)
/-- An op that changes the object. -/
def changeObj (o : ObjOp) (s : State) : State :=
  let old := objOf s o
  let arrives := barxArrives o.op
  let first := arrives && old.pending == old.expected
  let lag := lagOf s o first
  let r := old.step o.op o.val
  let s1 := putObjWords o 0 ([r.1.w0, r.1.pending, r.1.bytes] ++ if o.op = .init then [0] else []) (claimObj o (serveObj o s))
  let s2 := if first then putObjWords o 6 [BitVec.ofNat 32 (homeNow s o)] s1 else s1
  let s3 := if arrives then logArrival o lag (s2.updMem fun m =>
      { m with objHb := if o.hbs.isEmpty then m.objHb else mUpd m.objHb [] o.pa (fun l => (o.hbs ++ l).dedup),
               objLast := if old.pending = 1 then mSet m.objLast o.pa (o.dev, o.blkx) else m.objLast })
    else s2
  let s4 := if r.2 then completeObj o s3 else s3
  if r.2 || o.op == .init then openC0 o s4 else s4
/-- A .test or a .wait that sees the new parity is an acquire of pod scope (R203, R226). -/
def objAcquire (wk pa : Nat) (s : State) : State :=
  acquireDrop (s.block (s.warp wk).bk).core .p (addHb wk (mGet s.mem.objHb [] pa) s)
/-- A .test or a .wait sees the object; a discarded page reads as zeros (R368). -/
def readObj (o : ObjOp) (s : State) : State :=
  match o.wk, o.out with
  | some wk, some id =>
    let want := o.val.getLsbD 0
    let ok := (!o.zero && (objOf s o).parity) != want
    objAnswer o.op { loc := false, addr := if o.zero then 2 ^ 60 + o.pa else o.pa, parity := want } ok wk id
      (if ok then objAcquire wk o.pa (serveObj o s) else serveObj o s)
  | _, _ => s
/-- An op reaches a peer that holds its object. What the peer answers is free (DESIGN CHOICE, log 3); a .wait that is not
answered asks again. -/
def peerObj (p : Nat) (o : ObjOp) (s : State) : State :=
  if s.mem.cutOff p then (if barxWrites o.op then s.updMem fun m => m.lose p 1 else s) else
  let s1 := s.send (.objToPeer p o.pa o.op o.val)
  match o.wk, o.out with
  | some wk, some id =>
    let ok := Config.freeChoice s.tick o.pa
    if o.op = .wait && !ok then s1.bump.updMem fun m => { m with objq := m.objq ++ [o] }
    else objAnswer o.op { loc := false, addr := o.pa, parity := false } ok wk id (if ok then objAcquire wk o.pa s1.bump else s1.bump)
  | _, _ => s1
/-- An op acts on its object. -/
def applyObj (o : ObjOp) (s : State) : State :=
  match o.peer with
  | some p => peerObj p o s
  | none => if barxWrites o.op then changeObj o s else readObj o s
/-- The home an op travels to. -/
def ObjOp.home (o : ObjOp) : Nat := homeAt o.peer o.pa
/-- The core an op comes from. -/
def ObjOp.core (o : ObjOp) (s : State) : Option Nat := o.wk.map fun wk => (s.block (s.warp wk).bk).core
/-- Ops of one core reach one home in their order (R373) (DEDUCED, log 33). -/
def objFirst (s : State) (o : ObjOp) : Bool :=
  !(s.mem.objq.takeWhile fun y => y.id != o.id).any fun y =>
    (o.core s).isSome && y.core s == o.core s && y.home == o.home
/-- What the core sent to the op's home earlier arrives before it (R373). -/
def drainForObj (o : ObjOp) (s : State) : State :=
  match o.core s with
  | some c => drainHome c o.home s
  | none => s
/-- ARRIVAL_LOG: an op on a global barrier object reaches the object's home. -/
def execArrivalLog (id : Nat) (s : State) : Res :=
  .next (match s.mem.objq.find? fun o => o.id == id with
    | some o =>
      if objFirst s o then
        applyObj o (drainForObj o (s.updMem fun m => { m with objq := m.objq.filter fun y => y.id != id }))
      else s
    | none => s)

/-! ### COMPLETION_SIGNAL -/
/-- A decrement that comes over UALink: a partition of this package has to own the counter (R310, R322). -/
def signalFromPeer (quad ctr : Nat) (s : State) : State :=
  if quad < 128 ∧ ctr < 2048 ∧ (s.ctr quad ctr).owner.isSome then decrement quad ctr 1 .no 0 s else s
/-- COMPLETION_SIGNAL: a signal on its way within the package reaches its counter, or one comes from another package. -/
def execCompletionSignal (dev quad ctr : Nat) (s : State) : Res :=
  .next (if dev ≠ s.host.device then s else
    match s.mem.signals.find? fun x => x.2.1 == quad && x.2.2.1 == ctr with
    | some x =>
      let s1 := s.updMem fun m => { m with signals := m.signals.erase x }
      decrement quad ctr 1 .no 0 s1
    | none => signalFromPeer quad ctr s)

end Sys2Proof.Machine
end

