-- ==== Sys2Proof/Machine/EvHost.lean ====
section
/-! DEFINITION. The host's messages (R374, R376 to R380, R386), the pod (R381 to R383), firmware's writes (R97, R291, R310,
R339, R369, R371, R382 to R384), errors (R385), power and bring-up (R387, R388). A step whose condition does not hold
leaves the state as it is. -/
namespace Sys2Proof.Machine

/-! ### Translation flush (R374, R380) -/
/-- Two ranges meet. -/
def rangesMeet (a n b m : Nat) : Bool := decide (a < b + m) && decide (b < a + n)
/-- The pages of a translation that a core holds, as a range of its partition's space. -/
def tlbRange (key : Nat) (e : TlbEntry) : Nat × Nat :=
  if e.level = 2 then (key % 2 ^ 39 * 2 ^ 29, 2 ^ 29) else (key % 2 ^ 39 * 2 ^ 16, 2 ^ 16)
/-- A flush covers a translation. -/
def flushCovers (part va len key : Nat) (e : TlbEntry) : Bool :=
  key / 2 ^ 40 == part && (len == 0 || rangesMeet va len (tlbRange key e).1 (tlbRange key e).2)
/-- Every core drops the translations that a flush covers. -/
def dropTlb (part va len : Nat) (s : State) : State :=
  s.setCores (s.cores.map fun kc => (kc.1, { kc.2 with tlb := kc.2.tlb.filter fun ke => !flushCovers part va len ke.1 ke.2 }))
/-- FLUSH: the entries go at once; what was translated through them is still to perform. -/
def execFlush (part va len tag : Nat) (s : State) : Res :=
  .next (if !s.host.chanOpen || !s.rel.verified then s else
    let f : Flush := { part := part % 8, va := va, len := len, tag := tag, wid := s.mem.nextWid, q := s.mem.nextQ }
    let s1 := dropTlb (part % 8) va len s
    s1.setHost { s1.host with flushes := s1.host.flushes ++ [f] })
/-- The source of the host's writes. -/
def hostSrc : Nat := 512
/-- No access that was translated before a flush has still to perform; the host's own writes name physical places. -/
def flushQuiet (s : State) (f : Flush) : Bool :=
  !((s.updMem fun m => { m with flights := m.flights.filter fun g => g.src != hostSrc }).pendingWids.any fun w => decide (w < f.wid)) &&
    !(s.warps.any fun kw => kw.2.memq.any fun o => decide (o.wid < f.wid)) && !(s.mem.objq.any fun o => decide (o.id < f.q))
/-- The flush that can complete: those of one partition complete in order (R380). -/
def dueFlush (s : State) : Option Flush :=
  s.host.flushes.find? fun f =>
    flushQuiet s f && ((s.host.flushes.find? fun g => g.part == f.part) == some f)
/-- FLUSHDONE: loads that are still outstanding keep the bytes they have. -/
def execFlushdone (s : State) : Res :=
  .next (match dueFlush s with
    | some f =>
      let s1 := s.setWarps (s.warps.map fun kw => (kw.1, settleOuts kw.2))
      (s1.setHost { s1.host with flushes := s1.host.flushes.erase f }).send (.flushdone f.part f.tag)
    | none => s)

/-! ### The host's other messages (R376, R377, R386) -/
/-- The writes of a MEMWRITE, one for each byte (R218). -/
def hostWrites (pa wid : Nat) (data : List Byte) : List PWrite :=
  mapIdxFrom (fun i v => { pa := pa + i, val := v, wid := wid, attr := PageAttr.none, peer := none }) 0 data
/-- MEMWRITE: into the load buffer while no image is verified (R386), else toward the homes; the acknowledgement waits for
the last byte's arrival (R377). HBM is 1,536 GiB (R11); an address above it and below 2^52 holds its byte like any
other (DESIGN CHOICE, log 4). -/
def execMemwrite (pa : Nat) (data : List Byte) (tag : Nat) (s : State) : Res :=
  if 2 ^ 52 < pa + data.length then .fault (.beyondPhysical pa)
  else if !s.rel.verified then
    .next ((s.setRel { s.rel with loadBuffer := memWriteBytes s.rel.loadBuffer pa data }).send (.written tag))
  else
    let (wid, s1) := freshWid s
    .next (addFlight hostSrc 0 true (hostWrites pa wid data)
      (s1.setHost { s1.host with posted := s1.host.posted ++ [(s1.mem.nextFid, tag)] }))
/-- The bytes of a physical range, sector by sector; none where one holds an uncorrectable error. -/
def readPhysical (pa n : Nat) (s : State) : Option (List Byte) × State :=
  (sectorPieces pa n).foldl (fun r p =>
    match r.1 with
    | none => r
    | some bs =>
      if (rangeFrom p.1 p.2).any r.2.mem.ecc.contains then (none, r.2) else
        let (b, s1) := enginePiece { localAcc 0 p.1 with attr := PageAttr.none } p.2 none r.2
        (some (bs ++ b), s1)) (some [], s)
/-- MEMREAD (DEDUCED, log 27). -/
def execMemread (pa len tag : Nat) (s : State) : Res :=
  if 2 ^ 52 < pa + len then .fault (.beyondPhysical pa)
  else .next (if !s.rel.verified then s else
    match readPhysical pa len s with
    | (some bs, s1) => s1.send (.data tag bs)
    | (none, s1) => s1.send (.error tag))
/-- ATTEST: nonce, DEVICE, the images' digests, the fuse identity, and the signature over them (DESIGN CHOICE, log 3). -/
def execAttest (nonce tag : Nat) (s : State) : Res :=
  .next (if !s.host.chanOpen || !s.rel.verified then s else
    s.send (.report tag nonce s.host.device s.rel.images Config.fuseId
      (Config.signature ([nonce, s.host.device] ++ s.rel.images ++ [Config.fuseId]))))
/-- The counters that STATS reports: soft and lasting errors, the four collective engines, the lost stores of 1,024 peers
(DEDUCED, log 27). -/
def statsOf (s : State) : List Nat :=
  [s.rel.soft, s.rel.lasting] ++ ((rangeFrom 0 4).map fun d => (s.die d).errs) ++
    (rangeFrom 0 1024).map fun p => (mGet s.mem.peers Peer.init p).lost
/-- STATS: the counters are reported and cleared. -/
def execStats (tag : Nat) (s : State) : Res :=
  .next (if !s.host.chanOpen || !s.rel.verified then s else
    let s1 := s.send (.stats tag (statsOf s))
    let s2 := s1.setRel { s1.rel with soft := 0, lasting := 0 }
    let s3 := s2.setDies (s2.dies.map fun kd => (kd.1, { kd.2 with errs := 0 }))
    s3.updMem fun m => { m with peers := m.peers.map fun kp => (kp.1, { kp.2 with lost := 0 }) })
/-- The kinds of R376. -/
def jalliaKinds : List Nat := [0x01, 0x02, 0x03, 0x04, 0x10, 0x11, 0x20, 0x30]
/-- A message of another KIND gets an error response, and nothing else changes. -/
def execJalliaOtherKind (kind tag : Nat) (s : State) : Res :=
  .next (if !s.host.chanOpen || !s.rel.verified || jalliaKinds.contains kind then s else s.send (.error tag))

/-! ### Requests of a peer (R381, R383) -/
/-- The lowest-numbered window that matches an address and a peer. -/
def windowFor (s : State) (peer addr : Nat) : Option PodWindow :=
  (s.mem.windows.find? fun iw =>
    decide (iw.2.base ≤ addr) && decide (addr < iw.2.base + iw.2.len) && (iw.2.peer.isNone || iw.2.peer == some peer)).map (·.2)
/-- The physical access that a window gives: within the address space, within one sector, under a key that is loaded. -/
def windowAcc (s : State) (w : PodWindow) (addr n : Nat) : Option LaneAcc :=
  let pa := w.local_ + (addr - w.base)
  if n = 0 ∨ 128 < pa % 128 + n ∨ 2 ^ 52 < pa + n ∨ (w.key ≠ 0 ∧ (mFind s.mem.keys w.key).isNone) then none
  else some { localAcc 0 pa with attr := { key := w.key, way := 0, pol := 0 } }
/-- An atomic that R189 knows, by its type. -/
def peerAtomOk (aop : Aop) (ty : AtomTy) : Bool := (aop == .fadd) == (ty == .f32)
/-- A request is served through its window, or refused with no byte changed (DEDUCED, log 28). -/
def serveRequest (peer : Nat) (w : PodWindow) (req : PeerReq) (s : State) : State :=
  let no := s.send (.peerError peer)
  match req with
  | .read addr n =>
    if !w.r then no else
      match windowAcc s w addr n with
      | none => no
      | some a => match readPhysicalAt a n s with
        | (some bs, s1) => s1.send (.peerData peer bs)
        | (none, s1) => s1.send (.peerError peer)
  | .write addr data =>
    if !w.w then no else
      match windowAcc s w addr data.length with
      | none => no
      | some a => (homeStore a.attr a.pa data s).send (.peerDone peer)
  | .atomic addr aop ty x y =>
    let b64 := ty == .b64
    if !w.atomic || !peerAtomOk aop ty || addr % atomSize b64 != 0 then no else
      match windowAcc s w addr (atomSize b64) with
      | none => no
      | some a =>
        let cut (v : DWord) : DWord := if b64 then v else z64 (v.setWidth 32)
        let (wid, s1) := freshWid s
        let (old, s2) := homeAtom a b64 (aop, cut x, cut y) wid (fun old => atomNew aop b64 old (cut x) (cut y)) s1
        s2.send (.peerData peer (leBytes old.toNat (atomSize b64)))
  | .barx addr dev blkx op val =>
    if !w.atomic || !barxWrites op || addr % 32 != 0 then no else
      match windowAcc s w addr 32 with
      | none => no
      | some a =>
        (applyObj { id := s.mem.nextQ, wk := none, out := none, attr := a.attr, dev := dev, blkx := blkx, part := 0, hbs := [],
                    va := 0, pa := a.pa, peer := none, zero := false, op := op, val := val } s).send (.peerDone peer)
  | .other => no
where
  /-- Bytes within one sector at a home. -/
  readPhysicalAt (a : LaneAcc) (n : Nat) (s : State) : Option (List Byte) × State :=
    if (rangeFrom a.pa n).any s.mem.ecc.contains then (none, s)
    else ((enginePiece a n none s).1, (enginePiece a n none s).2)
/-- Where a request goes. -/
def reqAddr : PeerReq → Nat
  | .read a _ | .write a _ | .atomic a _ _ _ _ | .barx a _ _ _ _ => a
  | .other => 0
/-- UALINK_REQUEST (R381, R383): an error completion where no window matches. -/
def execUalinkRequest (peer : Nat) (req : PeerReq) (s : State) : Res :=
  .next (match windowFor s peer (reqAddr req) with
    | some w => serveRequest peer w req s
    | none => s.send (.peerError peer))

/-! ### A peer that does not answer (R382, R183, R351) -/
/-- The lanes of a result that wait for a peer, with their addresses, lowest first. -/
def lanesOn (s : State) (p wk : Nat) (o : Out) : List (Nat × Nat) :=
  let loads := match o.load with
    | some src => (src.accs.filter fun a => a.peer == some p && !a.zero).map fun a => (a.lane, a.va)
    | none => []
  let atoms := (s.mem.atoms.filter fun a => a.wk == wk && a.out == some o.id && a.acc.peer == some p).map fun a =>
    (a.acc.lane, a.acc.va)
  let objs := (s.mem.objq.filter fun q => q.wk == some wk && q.out == some o.id && q.peer == some p).flatMap fun q =>
    (maskLanes o.mask).map fun l => (l, q.va)
  (loads ++ atoms ++ objs).filter fun x => ((s.warp wk).lane x.1).st != .vacant && ((s.warp wk).lane x.1).st != .serialWaiting
/-- A result's lanes that wait for a peer end with PEER (R102, R183). -/
def peerLanes (p wk : Nat) (s : State) (o : Out) : State :=
  lateFaults wk o ((lanesOn s p wk o).map fun x => ⟨x.1, 0x0B, BitVec.ofNat 17 p, BitVec.ofNat 64 x.2⟩) s
/-- Stores under way to a peer are lost and counted; atomics that return nothing are too. -/
def loseStores (p : Nat) (s : State) : State :=
  let gone (f : Flight) : Bool := f.peer == some p
  let drop (a : AtomReq) : Bool := a.acc.peer == some p && a.out.isNone
  let sent (o : ObjOp) : Bool := o.peer == some p
  let n := storesTo p s.mem.flights + (s.mem.atoms.filter drop).length + (s.mem.objq.filter fun o => sent o && barxWrites o.op).length
  s.updMem fun m => Mem.lose { m with flights := m.flights.filter (!gone ·), atoms := m.atoms.filter (!drop ·),
                                      objq := m.objq.filter (!sent ·) } p n
/-- UALINK_TIMEOUT: a request has outlived the timeout that firmware has set; the requests outstanding to the peer end, and
the peer is isolated (DEDUCED, log 28). -/
def execUalinkTimeout (peer : Nat) (s : State) : Res :=
  .next (if (mGet s.mem.peers Peer.init peer).waited < s.mem.linkTimeout then s else
    let s0 := s.updMem fun m => { m with peers := mUpd m.peers Peer.init peer fun x => { x with isolated := true, waited := 0 } }
    let s1 := s0.warps.foldl (fun s kw => kw.2.outs.reverse.foldl (peerLanes peer kw.1) s) s0
    let s2 := loseStores peer s1
    s2.dies.foldl (fun s kd => kd.2.colls.foldl (fun s x => collTimeout peer kd.1 x.cid s) s) s2)
/-- ISOLATION_CLEAR (R382). -/
def execIsolationClear (peer : Nat) (s : State) : Res :=
  .next (s.updMem fun m => { m with peers := mMod m.peers peer fun x => { x with isolated := false } })

/-! ### Errors (R385, R285, R294, R351) -/
/-- An entry of a list of sites appears or goes (DEDUCED, log 29). -/
def setSite {α : Type} [DecidableEq α] (on : Bool) (x : α) (l : List α) : List α :=
  if on then (if l.contains x then l else l ++ [x]) else l.filter (· != x)
/-- The failed data of a collective takes the canonical NaN where it sums; a record, and the collective is marked (R351,
R240). -/
def markBad (die : Nat) (f : Coll → Coll) (x : Coll) (s : State) : State :=
  postRecord (collRecord x 0x0C 1 0 die) (updColl die x.cid (fun x => (if xReduces x.desc then f x else x).mark 0x0C) s)
/-- An element of a collective's working store is bad. -/
def storeBad (die n q elem : Nat) (s : State) : State :=
  let hit (x : Coll) : Coll :=
    let nan := canonNan (xWire x.desc)
    { x with got := mMod x.got elem fun _ => nan,
             vecs := if (mFind x.got elem).isSome then x.vecs else x.vecs.dropLast ++ [listMod x.cur elem fun _ => nan] }
  match (s.die die).colls.find? fun x => x.slot == n && x.q == q with
  | some x => markBad die hit x s
  | none => s
/-- A packet with the canonical NaN in place of one unit, where its collective sums. -/
def Pkt.spoil (elem : Nat) (p : Pkt) : Pkt :=
  let fmt := if bitsAt (recWord p.hdr 2) 21 3 = 0 then bf16 else fp32
  let w := if bitsAt (recWord p.hdr 2) 21 3 = 0 then 2 else 4
  if !hSums p.hdr ∨ 5 < hStage p.hdr then p else
    { p with payload := unitBytes w (listMod (unitsOf w (p.payload.length / w) p.payload) elem fun _ => canonNan fmt) }
/-- A unit of the i-th packet in a die's staging is bad, of those that came in or of those that wait to go out. -/
def cellBad (die : Nat) (out : Bool) (i elem : Nat) (s : State) : State :=
  let p? := if out then ((s.die die).outbox[i]?).map (·.2) else (s.die die).inbox[i]?
  match p? with
  | none => s
  | some p =>
    let s1 := s.updDie die fun d =>
      if out then { d with outbox := listMod d.outbox i fun o => (o.1, o.2.spoil elem) }
      else { d with inbox := listMod d.inbox i (Pkt.spoil elem) }
    match (s.die die).colls.find? fun x => x.slot == hSlot p.hdr && x.q == hQ p.hdr with
    | some x => markBad die id x s1
    | none => s1
/-- What an error leaves at its site: an uncorrectable one stands until a later event there is correctable. -/
def strike (bad : Bool) (site : EccSite) (s : State) : State :=
  match site with
  | .hbm pa => s.updMem fun m => { m with ecc := setSite bad pa m.ecc }
  | .bank quad b col =>
    if bad then s.updQuad quad fun q => { q with banks := mMod q.banks b fun x =>
      { x with valid := false, badCols := setSite true col x.badCols } }
    else s
  | .staging die n q elem => if bad then storeBad die n q elem s else s
  | .cell die out i elem => if bad then cellBad die out i elem s else s
  | x => s.setRel { s.rel with sram := setSite bad x s.rel.sram }
/-- ECC_ERROR: the self-test classes the error, and both classes are counted. -/
def execEccError (correctable lasting : Bool) (site : EccSite) (s : State) : Res :=
  .next (
    let s1 := strike (!correctable) site s
    s1.setRel (if lasting then { s1.rel with lasting := s1.rel.lasting + 1, fenced := setSite true site s1.rel.fenced }
      else { s1.rel with soft := s1.rel.soft + 1 }))

/-! ### Firmware's writes -/
/-- TIMETABLE_WRITE (R97): 64 entries of LEND and PARTITION; the reserved bits read 0. -/
def execTimetableWrite (core sched : Nat) (table : List Byte) (strict : Bool) (s : State) : Res :=
  .next (if 512 ≤ core ∨ 2 ≤ sched then s else
    s.updCore core fun c => { c with scheds := mUpd c.scheds Sched.init sched fun x =>
      { x with table := mapIdxFrom (fun i b => (i, b &&& 0x0F)) 0 (table.take 64), strict := strict } })
/-- BUDGET_SET (R291): 1 to 64, within the ceiling; STALLED clears (DEDUCED, log 30). -/
def execBudgetSet (quad v : Nat) (s : State) : Res :=
  .next (if 128 ≤ quad ∨ v = 0 ∨ 64 < v then s else
    s.updQuad quad fun q => { q with budget := min v q.ceiling, stalled := 0 })
/-- BUDGET_CEILING_CHANGE (R291, R387). -/
def execBudgetCeilingChange (quad v : Nat) (s : State) : Res :=
  .next (if 128 ≤ quad then s else
    s.updQuad quad fun q => { q with ceiling := min v 64, budget := min q.budget v })
/-- COUNTER_ASSIGN (R310). -/
def execCounterAssign (quad ctr : Nat) (part : Option Nat) (s : State) : Res :=
  .next (if 128 ≤ quad ∨ 2048 ≤ ctr then s else
    s.updQuad quad fun q => { q with ctrs := mUpd q.ctrs Ctr.init ctr fun c => { c with owner := part.map (· % 8) } })
/-- A configuration that firmware accepts (R339): sizes, members and a DIES mask of 1, 2 or 4 bits (DEDUCED, log 30). -/
def groupOk (g : GroupCfg) : Bool :=
  decide (0 < g.l0 ∧ 0 < g.l1 ∧ 0 < g.l2) && decide (gMembers g ≤ 1024) && g.devs.length == gMembers g &&
    decide (g.own < gMembers g) && ((gDies g).length == 1 || (gDies g).length == 2 || (gDies g).length == 4)
/-- GROUP_CONFIGURE (R339): the sequence number is 0 and FAULTED is clear. -/
def execGroupConfigure (die slot : Nat) (cfg : GroupCfg) (s : State) : Res :=
  .next (if 4 ≤ die ∨ 64 ≤ slot ∨ !groupOk cfg then s else
    updSlot die slot (fun x => { x with cfg := some cfg, seq := 0, faulted := false, silent := [] }) s)
/-- A window's base and length are multiples of 512 MiB (R383) (DEDUCED, log 30). -/
def windowAligned (w : PodWindow) : PodWindow :=
  { w with base := w.base / 2 ^ 29 * 2 ^ 29, len := w.len / 2 ^ 29 * 2 ^ 29 }
/-- The pod window table with an entry written or removed. -/
def putWindow (m : Map PodWindow) (i : Nat) (w : Option PodWindow) : Map PodWindow :=
  if 256 ≤ i then m else
  match w with
  | some w => mSet m i (windowAligned w)
  | none => mErase m i
/-- POD_WINDOW_WRITE (R383). -/
def execPodWindowWrite (i : Nat) (w : Option PodWindow) (s : State) : Res :=
  .next (s.updMem fun m => { m with windows := putWindow m.windows i w })
/-- Every line tagged with a key slot is written back and dropped. -/
def Mem.dropKey (m : Mem) (slot : Nat) : Mem :=
  (m.lines.filter fun kl => kl.2.key == slot).foldl (fun m kl => m.dropLine true kl.1) m
/-- Every line under a key is written back and dropped. -/
def Mem.dropKeyed (m : Mem) : Mem := (m.lines.filter fun kl => kl.2.key != 0).foldl (fun m kl => m.dropLine true kl.1) m
/-- KEY_LOAD (R371): slot 0 means no encryption and takes no key (DEDUCED, log 6). -/
def execKeyLoad (slot : Nat) (key : Option Nat) (s : State) : Res :=
  .next (if slot = 0 ∨ 8192 ≤ slot then s else
    s.updMem fun m =>
      let m1 := m.dropKey slot
      { m1 with keys := match key with
        | some k => mSet m1.keys slot k
        | none => mErase m1.keys slot })
/-- WAY_PARTITION_MASK_SET (R369). -/
def execWayPartitionMaskSet (wp : Nat) (mask : BitVec 16) (s : State) : Res :=
  .next (if 4 ≤ wp then s else s.updMem fun m => { m with ways := mSet m.ways wp mask })

/-! ### Power and bring-up (R387, R388) -/
/-- The memory side after a trip: what lay in HBM, in the slices and in firmware's tables stands; nothing is under way
(DEDUCED, log 31). -/
def Mem.afterTrip (m : Mem) : Mem :=
  { Mem.init with hbm := m.hbm, lines := m.lines, keys := m.keys, secKey := m.secKey, ways := m.ways, roots := m.roots,
                  peers := m.peers, linkTimeout := m.linkTimeout, windows := m.windows, nextWid := m.nextWid, ecc := m.ecc,
                  homeCycle := m.homeCycle, homeSkew := m.homeSkew }
/-- THERMAL_TRIP (R387): issue stops everywhere, no COMPLETE is sent, the command channel closes, bring-up starts again. -/
def execThermalTrip (s : State) : Res :=
  .next { State.reset with
    agenda := s.agenda, tick := s.tick, mem := s.mem.afterTrip,
    host := { s.host with flushes := [], posted := [], chanOpen := false },
    rel := { s.rel with stage := 0, verified := false, images := [] } }
/-- POWER_LOSS (R387): the package is as it was before any bring-up; what it has sent is sent (DEDUCED, log 31). -/
def execPowerLoss (s : State) : Res :=
  .next { State.reset with agenda := s.agenda, tick := s.tick, host := { State.reset.host with out := s.host.out } }
/-- The launches held are accepted, in order (R388). -/
def acceptHeld (s : State) : State :=
  s.launch.held.foldl (fun s x => acceptLaunch x.1 x.2.1 x.2.2 s) (s.updLaunch fun l => { l with held := [] })
/-- BRING_UP: the next of the six steps. An image that does not verify stops the first. -/
def execBringUp (args : BringUpArgs) (s : State) : Res :=
  .next (
    let s1 := s.setRel { s.rel with stage := s.rel.stage + 1 }
    match s.rel.stage with
    | 0 => if args.verified then
        (s1.setRel { s1.rel with verified := true, images := s1.rel.images ++ [args.image] }).setHost { s1.host with chanOpen := true }
      else s
    | 1 => s1
    | 2 => s1.updMem fun m =>
        { m.dropKeyed with keys := args.keys.foldl (fun k x => if x.1 = 0 ∨ 8192 ≤ x.1 then k else mSet k x.1 x.2) [],
                           roots := args.roots.foldl (fun r x => mSet r (x.1 % 8) (x.2 % 2 ^ 52 / 2 ^ 16 * 2 ^ 16)) [] }
    | 3 => s1.setHost { s1.host with device := args.device % 1024 }
    | 4 => s1.updMem fun m => { m with windows := args.windows.foldl (fun w x => putWindow w x.1 (some x.2)) [] }
    | 5 => acceptHeld s1
    | _ => s)

end Sys2Proof.Machine
end

