-- ==== Sys2Proof/Machine/Dispatch.lean ====
section
/-! DEFINITION. The meaning of every instruction and event: one arm per constructor of Instr. -/
namespace Sys2Proof.Machine

/-- What an instruction or event does to a state. -/
def exec (i : Instr) (s : State) : Host.Outcome State Fault Refusal :=
  match i with
  | .iadd sw m d a b => Sys2Proof.Machine.execIadd sw m d a b s
  | .isub sw m d a b => Sys2Proof.Machine.execIsub sw m d a b s
  | .imul sw m d a b => Sys2Proof.Machine.execImul sw m d a b s
  | .imad sw m d a b => Sys2Proof.Machine.execImad sw m d a b s
  | .imnmx sw m d a b => Sys2Proof.Machine.execImnmx sw m d a b s
  | .lop sw m d a b => Sys2Proof.Machine.execLop sw m d a b s
  | .shf sw m d a b => Sys2Proof.Machine.execShf sw m d a b s
  | .iuna sw m d a => Sys2Proof.Machine.execIuna sw m d a s
  | .bfe sw signed d a b => Sys2Proof.Machine.execBfe sw signed d a b s
  | .bfi sw d a b => Sys2Proof.Machine.execBfi sw d a b s
  | .iset sw c p a b => Sys2Proof.Machine.execIset sw c p a b s
  | .sel sw p d a b => Sys2Proof.Machine.execSel sw p d a b s
  | .lea sw sh d a b => Sys2Proof.Machine.execLea sw sh d a b s
  | .iadd64 sw sub d a b => Sys2Proof.Machine.execIadd64 sw sub d a b s
  | .idiv sw m d a b => Sys2Proof.Machine.execIdiv sw m d a b s
  | .iaddi sw d a imm => Sys2Proof.Machine.execIaddi sw d a imm s
  | .andi sw d a imm => Sys2Proof.Machine.execAndi sw d a imm s
  | .ori sw d a imm => Sys2Proof.Machine.execOri sw d a imm s
  | .xori sw d a imm => Sys2Proof.Machine.execXori sw d a imm s
  | .shli sw d a count => Sys2Proof.Machine.execShli sw d a count s
  | .shri sw d a count => Sys2Proof.Machine.execShri sw d a count s
  | .movl sw d imm => Sys2Proof.Machine.execMovl sw d imm s
  | .movh sw d imm => Sys2Proof.Machine.execMovh sw d imm s
  | .iseti sw c p a imm => Sys2Proof.Machine.execIseti sw c p a imm s
  | .mov sw d a => Sys2Proof.Machine.execMov sw d a s
  | .plop sw m d a b => Sys2Proof.Machine.execPlop sw m d a b s
  | .fadd sw m d a b => Sys2Proof.Machine.execFadd sw m d a b s
  | .fsub sw m d a b => Sys2Proof.Machine.execFsub sw m d a b s
  | .fmul sw m d a b => Sys2Proof.Machine.execFmul sw m d a b s
  | .ffma sw m d a b => Sys2Proof.Machine.execFfma sw m d a b s
  | .fmnmx sw m d a b => Sys2Proof.Machine.execFmnmx sw m d a b s
  | .fset sw c p a b => Sys2Proof.Machine.execFset sw c p a b s
  | .dadd sw m d a b => Sys2Proof.Machine.execDadd sw m d a b s
  | .dmul sw m d a b => Sys2Proof.Machine.execDmul sw m d a b s
  | .dfma sw m d a b => Sys2Proof.Machine.execDfma sw m d a b s
  | .bfma2 sw m d a b => Sys2Proof.Machine.execBfma2 sw m d a b s
  | .hfma2 sw m d a b => Sys2Proof.Machine.execHfma2 sw m d a b s
  | .fdot2 sw m d a b => Sys2Proof.Machine.execFdot2 sw m d a b s
  | .sfu sw f m d a => Sys2Proof.Machine.execSfu sw f m d a s
  | .dsfu sw f m d a => Sys2Proof.Machine.execDsfu sw f m d a s
  | .cvt sw m c sat d a => Sys2Proof.Machine.execCvt sw m c sat d a s
  | .prmt sw d a b => Sys2Proof.Machine.execPrmt sw d a b s
  | .dset sw c p a b => Sys2Proof.Machine.execDset sw c p a b s
  | .fcls sw f64 d a => Sys2Proof.Machine.execFcls sw f64 d a s
  | .shfl sw m d a b => Sys2Proof.Machine.execShfl sw m d a b s
  | .vote sw m d a => Sys2Proof.Machine.execVote sw m d a s
  | .matchv sw d a p => Sys2Proof.Machine.execMatchv sw d a p s
  | .red sw k d a => Sys2Proof.Machine.execRed sw k d a s
  | .ldg sw sz q t a off => Sys2Proof.Machine.execLdg sw sz q t a off s
  | .stg sw sz nt t a off => Sys2Proof.Machine.execStg sw sz nt t a off s
  | .lds sw sz q t a off => Sys2Proof.Machine.execLds sw sz q t a off s
  | .sts sw sz q t a off => Sys2Proof.Machine.execSts sw sz q t a off s
  | .lda sw b64 sc sp t a off => Sys2Proof.Machine.execLda sw b64 sc sp t a off s
  | .stl sw b64 sc sp t a off => Sys2Proof.Machine.execStl sw b64 sc sp t a off s
  | .atom sw aop u ty sp t a => Sys2Proof.Machine.execAtom sw aop u ty sp t a s
  | .ldrRo sw sz t a off => Sys2Proof.Machine.execLdrRo sw sz t a off s
  | .ldrUse sw sz discard count t a => Sys2Proof.Machine.execLdrUse sw sz discard count t a s
  | .nop sw => Sys2Proof.Machine.execNop sw s
  | .bra sw neg p disp => Sys2Proof.Machine.execBra sw neg p disp s
  | .bray sw neg p disp => Sys2Proof.Machine.execBray sw neg p disp s
  | .call sw neg p disp => Sys2Proof.Machine.execCall sw neg p disp s
  | .join sw a => Sys2Proof.Machine.execJoin sw a s
  | .calli sw a => Sys2Proof.Machine.execCalli sw a s
  | .brai sw a => Sys2Proof.Machine.execBrai sw a s
  | .ret sw a => Sys2Proof.Machine.execRet sw a s
  | .exit sw => Sys2Proof.Machine.execExit sw s
  | .refill sw a => Sys2Proof.Machine.execRefill sw a s
  | .region sw => Sys2Proof.Machine.execRegion sw s
  | .trap sw code => Sys2Proof.Machine.execTrap sw code s
  | .bpt sw code => Sys2Proof.Machine.execBpt sw code s
  | .waitm sw c a b => Sys2Proof.Machine.execWaitm sw c a b s
  | .bar sw cluster => Sys2Proof.Machine.execBar sw cluster s
  | .barx sw op d a b => Sys2Proof.Machine.execBarx sw op d a b s
  | .fence sw sc imm => Sys2Proof.Machine.execFence sw sc imm s
  | .drain sw sc => Sys2Proof.Machine.execDrain sw sc s
  | .roinv sw => Sys2Proof.Machine.execRoinv sw s
  | .gmov sw d a => Sys2Proof.Machine.execGmov sw d a s
  | .galu sw op d a b => Sys2Proof.Machine.execGalu sw op d a b s
  | .galui sw op d imm => Sys2Proof.Machine.execGalui sw op d imm s
  | .gmovl sw d imm => Sys2Proof.Machine.execGmovl sw d imm s
  | .gmovh sw d imm => Sys2Proof.Machine.execGmovh sw d imm s
  | .gred sw k d a => Sys2Proof.Machine.execGred sw k d a s
  | .gset sw c p a b => Sys2Proof.Machine.execGset sw c p a b s
  | .getc sw d idx => Sys2Proof.Machine.execGetc sw d idx s
  | .setc sw d idx => Sys2Proof.Machine.execSetc sw d idx s
  | .setcRole sw d => Sys2Proof.Machine.execSetcRole sw d s
  | .setcFpflags sw d => Sys2Proof.Machine.execSetcFpflags sw d s
  | .setcRingbase sw d => Sys2Proof.Machine.execSetcRingbase sw d s
  | .setcRingsize sw d => Sys2Proof.Machine.execSetcRingsize sw d s
  | .setcQuota sw d => Sys2Proof.Machine.execSetcQuota sw d s
  | .setcFrm sw d => Sys2Proof.Machine.execSetcFrm sw d s
  | .clk sw d => Sys2Proof.Machine.execClk sw d s
  | .free sw d a b => Sys2Proof.Machine.execFree sw d a b s
  | .reggive sw n => Sys2Proof.Machine.execReggive sw n s
  | .regclaim sw n => Sys2Proof.Machine.execRegclaim sw n s
  | .cpwp sw ch d => Sys2Proof.Machine.execCpwp sw ch d s
  | .cpwait sw ch d a => Sys2Proof.Machine.execCpwait sw ch d a s
  | .cpstat sw ch d => Sys2Proof.Machine.execCpstat sw ch d s
  | .mxpost sw d a => Sys2Proof.Machine.execMxpost sw d a s
  | .mxstat sw d a => Sys2Proof.Machine.execMxstat sw d a s
  | .tkpost sw d a => Sys2Proof.Machine.execTkpost sw d a s
  | .tksig sw set a b => Sys2Proof.Machine.execTksig sw set a b s
  | .tkjoin sw d a => Sys2Proof.Machine.execTkjoin sw d a s
  | .tkread sw fail d a => Sys2Proof.Machine.execTkread sw fail d a s
  | .wdq sw d a b => Sys2Proof.Machine.execWdq sw d a b s
  | .cxpost sw d a => Sys2Proof.Machine.execCxpost sw d a s
  | .cxstat sw d a => Sys2Proof.Machine.execCxstat sw d a s
  | .cxreset sw a => Sys2Proof.Machine.execCxreset sw a s
  | .illegal w => Sys2Proof.Machine.execIllegal w s
  | .outstandingResultReturn wk id late => Sys2Proof.Machine.execOutstandingResultReturn wk id late s
  | .backBankArrival id => Sys2Proof.Machine.execBackBankArrival id s
  | .barrierCompletion bk cluster => Sys2Proof.Machine.execBarrierCompletion bk cluster s
  | .exchangeStoreArrival id => Sys2Proof.Machine.execExchangeStoreArrival id s
  | .waitmReadAgain wk g => Sys2Proof.Machine.execWaitmReadAgain wk g s
  | .refillAnswer wk => Sys2Proof.Machine.execRefillAnswer wk s
  | .performStore wk n => Sys2Proof.Machine.execPerformStore wk n s
  | .evict core sector => Sys2Proof.Machine.execEvict core sector s
  | .arrive fid => Sys2Proof.Machine.execArrive fid s
  | .drop ro unit sector => Sys2Proof.Machine.execDrop ro unit sector s
  | .llcFill line victim => Sys2Proof.Machine.execLlcFill line victim s
  | .faultRecordPost => Sys2Proof.Machine.execFaultRecordPost s
  | .resume seq => Sys2Proof.Machine.execResume seq s
  | .handler seq => Sys2Proof.Machine.execHandler seq s
  | .taskDrop seq => Sys2Proof.Machine.execTaskDrop seq s
  | .kill seq => Sys2Proof.Machine.execKill seq s
  | .preempt bk areas parea => Sys2Proof.Machine.execPreempt bk areas parea s
  | .preemptTurnTimeout bk => Sys2Proof.Machine.execPreemptTurnTimeout bk s
  | .discard bk => Sys2Proof.Machine.execDiscard bk s
  | .restore id cores => Sys2Proof.Machine.execRestore id cores s
  | .dstall gid => Sys2Proof.Machine.execDstall gid s
  | .watchdog gid => Sys2Proof.Machine.execWatchdog gid s
  | .blockDispatch queue pl => Sys2Proof.Machine.execBlockDispatch queue pl s
  | .waveStart quad => Sys2Proof.Machine.execWaveStart quad s
  | .poolEntryFree quad => Sys2Proof.Machine.execPoolEntryFree quad s
  | .mxEntryFree quad => Sys2Proof.Machine.execMxEntryFree quad s
  | .wdQueueRoom => Sys2Proof.Machine.execWdQueueRoom s
  | .copyCommandStart bk ch => Sys2Proof.Machine.execCopyCommandStart bk ch s
  | .copyDelivery bk ch => Sys2Proof.Machine.execCopyDelivery bk ch s
  | .admission quad jid => Sys2Proof.Machine.execAdmission quad jid s
  | .reload quad => Sys2Proof.Machine.execReload quad s
  | .passGrant quad => Sys2Proof.Machine.execPassGrant quad s
  | .passWrite quad => Sys2Proof.Machine.execPassWrite quad s
  | .governorWindow quad => Sys2Proof.Machine.execGovernorWindow quad s
  | .wdQuery => Sys2Proof.Machine.execWdQuery s
  | .leaseExpiry n => Sys2Proof.Machine.execLeaseExpiry n s
  | .arrivalLog id => Sys2Proof.Machine.execArrivalLog id s
  | .completionSignal dev quad ctr => Sys2Proof.Machine.execCompletionSignal dev quad ctr s
  | .collectiveAdmission die cid => Sys2Proof.Machine.execCollectiveAdmission die cid s
  | .packet die hdr mask payload => Sys2Proof.Machine.execPacket die hdr mask payload s
  | .sendPermit die link => Sys2Proof.Machine.execSendPermit die link s
  | .stepTimeout die cid => Sys2Proof.Machine.execStepTimeout die cid s
  | .collectiveCompletion die cid => Sys2Proof.Machine.execCollectiveCompletion die cid s
  | .launch queue tag rec => Sys2Proof.Machine.execLaunch queue tag rec s
  | .complete gid => Sys2Proof.Machine.execComplete gid s
  | .flush part va len tag => Sys2Proof.Machine.execFlush part va len tag s
  | .flushdone => Sys2Proof.Machine.execFlushdone s
  | .memwrite pa data tag => Sys2Proof.Machine.execMemwrite pa data tag s
  | .memread pa len tag => Sys2Proof.Machine.execMemread pa len tag s
  | .attest nonce tag => Sys2Proof.Machine.execAttest nonce tag s
  | .stats tag => Sys2Proof.Machine.execStats tag s
  | .jalliaOtherKind kind tag => Sys2Proof.Machine.execJalliaOtherKind kind tag s
  | .ualinkRequest peer req => Sys2Proof.Machine.execUalinkRequest peer req s
  | .ualinkTimeout peer => Sys2Proof.Machine.execUalinkTimeout peer s
  | .eccError correctable lasting site => Sys2Proof.Machine.execEccError correctable lasting site s
  | .timetableWrite core sched table strict => Sys2Proof.Machine.execTimetableWrite core sched table strict s
  | .budgetSet quad v => Sys2Proof.Machine.execBudgetSet quad v s
  | .counterAssign quad ctr part => Sys2Proof.Machine.execCounterAssign quad ctr part s
  | .groupConfigure die slot cfg => Sys2Proof.Machine.execGroupConfigure die slot cfg s
  | .podWindowWrite n w => Sys2Proof.Machine.execPodWindowWrite n w s
  | .keyLoad slot key => Sys2Proof.Machine.execKeyLoad slot key s
  | .thermalTrip => Sys2Proof.Machine.execThermalTrip s
  | .powerLoss => Sys2Proof.Machine.execPowerLoss s
  | .bringUp args => Sys2Proof.Machine.execBringUp args s
  | .atomicPerformAtHome id => Sys2Proof.Machine.execAtomicPerformAtHome id s
  | .isolationClear peer => Sys2Proof.Machine.execIsolationClear peer s
  | .watchdogReduction gid v => Sys2Proof.Machine.execWatchdogReduction gid v s
  | .wayPartitionMaskSet wp mask => Sys2Proof.Machine.execWayPartitionMaskSet wp mask s
  | .budgetCeilingChange quad v => Sys2Proof.Machine.execBudgetCeilingChange quad v s

end Sys2Proof.Machine
end

