-- ==== Sys2Proof/Machine/Auto.lean ====
section
/-! DEFINITION. The machine's own moves (DESIGN CHOICE, log 1): which step of the machine itself is enabled, in a fixed order, and the local
cycles that pass for its units. Any other order is a choice of the environment, through the agenda. -/
namespace Sys2Proof.Machine

/-! ### A warp's steps -/
/-- A result can return. -/
def autoOut (kw : Nat × Warp) : Option Instr :=
  (kw.2.outs.find? fun o => !o.unknown).map fun o => .outstandingResultReturn kw.1 o.id false
/-- An operation of a stream can go on: nothing holds it, and its gate is open. -/
def opReady (s : State) (wk : Nat) (w : Warp) (o : MemOp) : Bool :=
  !o.held wk s &&
    match o.gate with
    | none => true
    | some (.begin _) => !(o.drain && stillFlying s w.ntFids)
    | some (.wait _ fids) => !stillFlying s fids
/-- An operation can perform. -/
def autoOp (s : State) (kw : Nat × Warp) : Option Instr :=
  (findIdx (opReady s kw.1 kw.2) kw.2.memq 0).map fun x => .performStore kw.1 x.1
/-- A waited word now satisfies its WAITM, or can no longer be read. -/
def waitmReady (s : State) (wk : Nat) (p : Park) : Bool :=
  betweenTurns s (s.block (s.warp wk).bk).core (s.block (s.warp wk).bk).part && !(s.block (s.warp wk).bk).isStopped &&
    match p.why with
    | .waitm loc a c v =>
      (match uniformAcc .read 4 4 (waitmAddr loc a) (resumeCur wk p s) with
       | (.error _, _) => true
       | (.ok x, s1) => (waitmTry wk loc x.2 c v s1).1)
    | _ => false
/-- A WAITM can end. -/
def autoWaitm (s : State) (kw : Nat × Warp) : Option Instr :=
  (findIdx (waitmReady s kw.1) kw.2.parks 0).map fun x => .waitmReadAgain kw.1 x.1
/-- A REFILL request can be answered. -/
def autoRefill (s : State) (kw : Nat × Warp) : Option Instr :=
  match kw.2.refill with
  | some r => if refillFirst s (quadOf (s.block kw.2.bk).core) kw.1 r then some (.refillAnswer kw.1) else none
  | none => none
/-- A step of some warp. -/
def autoWarp (s : State) (kw : Nat × Warp) : Option Instr :=
  autoOut kw <|> autoOp s kw <|> autoWaitm s kw <|> autoRefill s kw

/-! ### What is under way -/
/-- Something under way arrives, or an atomic is performed. -/
def autoTraffic (s : State) : Option Instr :=
  ((s.mem.flights.find? (flightFirst s)).map fun f => .arrive f.fid) <|>
  ((s.mem.atoms.find? (atomReady s)).map fun a => .atomicPerformAtHome a.id) <|>
  (s.mem.bankq.head?.map fun x => .backBankArrival x.id) <|>
  ((s.mem.xq.find? (xstoreFirst s)).map fun x => .exchangeStoreArrival x.id) <|>
  (s.mem.objq.head?.map fun o => .arrivalLog o.id) <|>
  (s.mem.signals.head?.map fun x => .completionSignal x.1 x.2.1 x.2.2.1)

/-! ### A block's steps -/
/-- A step of a channel. -/
def autoChan (s : State) (bk ch : Nat) : Option Instr :=
  match headCmd s bk ch with
  | some x => if canSkip x || canStart s bk x then some (.copyCommandStart bk ch)
      else if canDeliver s bk x && copyTurn s bk ch then some (.copyDelivery bk ch) else none
  | none => none
/-- A step of some block: a barrier, a pre-emption, a channel. -/
def autoBlock (s : State) (kb : Nat × Block) : Option Instr :=
  (if barrierReady s kb.1 false then some (.barrierCompletion kb.1 false) else none) <|>
  (if barrierReady s kb.1 true then some (.barrierCompletion kb.1 true) else none) <|>
  (if (stopOverdue s kb.2).isSome then some (.preemptTurnTimeout kb.1) else none) <|>
  (if (clusterBlocks s kb.1).contains kb.1 && (clusterBlocks s kb.1).all (blockQuiet s) then some (.discard kb.1) else none) <|>
  kb.2.chans.findSome? fun kc => autoChan s kb.1 kc.1

/-! ### A quad's and a die's steps -/
/-- Posts that wait for a matrix entry, or saved cards. -/
def mxWaits (s : State) (q : Nat) : Bool :=
  !(cardsWaiting s q).isEmpty || !(parksOn s q fun w => match w with
    | .mxEntry _ _ _ => some ()
    | _ => none).isEmpty
/-- Posts that wait for a place in the task pool. -/
def poolWaits (s : State) (q : Nat) : Bool :=
  !(parksOn s q fun w => match w with
    | .poolEntry _ _ => some ()
    | _ => none).isEmpty
/-- The yard admits a copy command or a matrix job. -/
def Job.plainReady (j : Job) : Bool :=
  j.admissible && match j.kind with
    | .coll _ _ => false
    | _ => true
/-- A step of a quad. -/
def autoQuad (s : State) (kq : Nat × Quad) : Option Instr :=
  ((kq.2.jobs.find? Job.plainReady).map fun j => .admission kq.1 j.jid) <|>
  (if mxWaits s kq.1 && (freeEntry kq.2).isSome then some (.mxEntryFree kq.1) else none) <|>
  (if poolWaits s kq.1 && (freeSlot kq.2).isSome then some (.poolEntryFree kq.1) else none) <|>
  (if (waveTasks s kq.1).isEmpty then none else some (.waveStart kq.1))
/-- A step of a collective engine. -/
def autoDie (s : State) (kd : Nat × Die) : Option Instr :=
  ((readyPacket s kd.1).map fun p => .packet kd.1 p.hdr p.mask p.payload) <|>
  ((kd.2.colls.find? fun x => collReady s kd.1 x).map fun x => .collectiveAdmission kd.1 x.cid) <|>
  ((kd.2.colls.find? (collDone s kd.1)).map fun x => .collectiveCompletion kd.1 x.cid) <|>
  ((kd.2.colls.find? fun x => timeoutDue s kd.1 x).map fun x => .stepTimeout kd.1 x.cid)

/-! ### Faults, the distributor, the launch unit, flushes -/
/-- R391: handler where R242 allows it, kill otherwise; a handler that waits is given again once its warp has left its
handler (R390) (DEDUCED, log 24). -/
def autoFault (s : State) : Option Instr :=
  (if !s.faults.pend.isEmpty && decide (s.faults.queue.length < 4096) then some .faultRecordPost else none) <|>
  ((nextRecord s).map fun r => if r.waiting || handlerAllowed s r then .handler r.seq else .kill r.seq)
/-- A step of the work distributor. -/
def autoWd (s : State) : Option Instr :=
  (if !(waitingQueries s).isEmpty && decide (s.wd.queries.length < 1024) then some .wdQueueRoom else none) <|>
  (if queryReady s then some .wdQuery else none) <|>
  (((rangeFrom 0 s.wd.watch.length).find? fun i => (leaseDue s i).isSome).map .leaseExpiry)
/-- A restore that waits can be placed. -/
def autoRestore (s : State) : Option Instr :=
  match s.launch.restores with
  | (id, wish) :: _ =>
    if (mFind s.launch.saved id).any fun sv => (restorePlace s sv wish).isSome then some (.restore id wish) else none
  | [] => none
/-- A step of the launch unit. -/
def autoLaunch (s : State) : Option Instr :=
  ((s.launch.grids.find? fun kg => dstallDue s kg.2).map fun kg => .dstall kg.1) <|>
  ((s.launch.grids.find? fun kg => watchdogDue kg.2).map fun kg => .watchdog kg.1) <|>
  ((s.launch.grids.find? fun kg => canComplete s kg.2).map fun kg => .complete kg.1) <|>
  autoRestore s <|>
  (if queuesOpen s then (nextQueue s).map fun q => .blockDispatch q { cores := none, part := 0 } else none)
/-- A core's dirty bytes leave (R219). -/
def autoEvict (s : State) : Option Instr :=
  s.cores.findSome? fun kc => kc.2.pool.head?.map fun kb => .evict kc.1 (kb.1 / 128)
/-- THE MACHINE'S OWN NEXT STEP, or none (DESIGN CHOICE, log 1) (R117). -/
def autoEvent (s : State) : Option Instr :=
  s.warps.findSome? (autoWarp s) <|> autoTraffic s <|> s.blocks.findSome? (autoBlock s) <|>
  s.quads.findSome? (autoQuad s) <|> s.dies.findSome? (autoDie s) <|> autoFault s <|> autoWd s <|> autoLaunch s <|>
  (if (dueFlush s).isSome then some .flushdone else none) <|> autoEvict s

/-! ### Local cycles -/
/-- n local cycles of a yard. -/
def tickYard (q n : Nat) (s : State) : State :=
  if n = 0 then s else s.updQuad q fun x => { x with yardCycle := x.yardCycle + n, sets := [] }
/-- n local cycles of one home slice (R3). -/
def tickHome (home n : Nat) (s : State) : State := s.updMem fun m => { m with homeSkew := mUpd m.homeSkew 0 home (· + n) }
/-- One local cycle of every home slice. -/
def tickHomes (s : State) : State := s.updMem fun m => { m with homeCycle := m.homeCycle + 1 }
/-- Something that waits for a peer is outstanding (R382). -/
def peerBusy (s : State) (p : Nat) : Bool :=
  decide (0 < lanesAsk s p + storesTo p s.mem.flights) || (s.mem.atoms.any fun a => a.acc.peer == some p) ||
    s.mem.objq.any fun o => o.peer == some p
/-- n local cycles of the link to a peer: requests outstanding grow older (DEDUCED, log 28). -/
def tickLink (p n : Nat) (s : State) : State :=
  s.updMem fun m => { m with peers := mUpd m.peers Peer.init p fun x => { x with waited := if peerBusy s p then x.waited + n else 0 } }
/-- Firmware sets the link timeout (R382, R384). -/
def setLinkTimeout (n : Nat) (s : State) : State := s.updMem fun m => { m with linkTimeout := n }
/-- Firmware sets a partition's root table as it assigns the partition (R362, R96): aligned to 64 KiB. -/
def setRoot (part root : Nat) (s : State) : State :=
  s.updMem fun m => { m with roots := mSet m.roots (part % 8) (root % 2 ^ 52 / 2 ^ 16 * 2 ^ 16) }
/-- One local cycle of every unit that is in use. -/
def tickUnits (s : State) : State :=
  let s1 := s.quads.foldl (fun s kq => tickMx kq.1 1 (tickYard kq.1 1 s)) s
  let s2 := s1.dies.foldl (fun s kd => tickColl kd.1 1 s) s1
  let s3 := s2.mem.peers.foldl (fun s kp => tickLink kp.1 1 s) s2
  tickLaunch 1 (tickHomes (tickWd 1 s3))
/-- Local cycles of one unit, as the environment has them (R3), what firmware sets by no event of the table, and early bytes of
a copy command (R267). -/
def tickMove (m : Move) (s : State) : State :=
  match m with
  | .event _ | .cycle _ _ => s
  | .tickYard q n => tickYard q n s
  | .tickMx q n => tickMx q n s
  | .tickWd n => tickWd n s
  | .tickHome h n => tickHome h n s
  | .tickLaunch n => tickLaunch n s
  | .tickColl die n => tickColl die n s
  | .tickLink p n => tickLink p n s
  | .setLinkTimeout n => setLinkTimeout n s
  | .setRoot part root => setRoot part root s
  | .earlyCopy bk ch places => earlyCopy bk ch places s

end Sys2Proof.Machine
end

