-- ==== Sys2Proof/Machine/Place.lean ====
section
/-! DEFINITION. A program placed from outside: the state in which the next step issues a given word (DESIGN CHOICE, log 16). -/
namespace Sys2Proof.Machine

/-- Where the placed word stands. -/
def placePc : Nat := 0x10000
/-- The launch record of the placed grid: entry, one block of one warp, 88 registers, 1 KiB of scratchpad. -/
def placeRecord : List Word :=
  [0x10000, 0, 0, 0, 0x00010001, 0x2C000001, 1, 0, 0, 0, 0, 0, 0, 0, 0, 0]
/-- The bytes of the program and of its page tables: the root at 0x20000000 names a level-2 table, whose first leaf maps
512 MiB onto themselves with V, R, W, X, A and D set (R362, R363). -/
def placeMemory (w : Word) (m : Memory) : Memory :=
  memWriteBytes (memWriteBytes (memWriteBytes m placePc (wordBytes w)) 0x20000000 (leBytes 0x20010001 8))
    0x20010000 (leBytes 0x3F 8)
/-- The placed block. -/
def placeBlock : Block := { Block.none with nwarps := 1, regs := 88, spSize := 1024 }
/-- Its one warp: 32 lanes at the word. -/
def placeWarp : Warp :=
  { Warp.none with retiredW := false, lanes := List.replicate 32 (Lane.start (BitVec.ofNat 64 placePc)), limit := 88 }
/-- The placed grid. -/
def placeGrid : Grid := { Grid.none with gid := 1, record := placeRecord, next := 1, firstPlaced := true }
/-- THE PROGRAM IS LOADED FROM OUTSIDE (DESIGN CHOICE, log 16): the word, the tables of partition 0, and one block of one warp on
scheduler 0 of core 0, whose lanes stand at the word. -/
def placeWord (w : Word) (s : State) : State :=
  let m := { s.mem with hbm := placeMemory w s.mem.hbm, roots := mSet s.mem.roots 0 0x20000000 }
  let s1 := (((s.setMem m).setCur Cur.none).setAgenda []).setNextSched 0
  let s2 := ((s1.setWarps [(0, placeWarp)]).setBlocks [(0, { placeBlock with gid := 1 })]).setClusters
    [(0, { Cluster.none with blocks := [0] })]
  let s3 := s2.setCores (mSet s2.cores 0 Core.init)
  s3.setLaunch { s3.launch with grids := mSet s3.launch.grids 1 placeGrid, nextBk := max 1 s3.launch.nextBk,
                                nextAge := max 1 s3.launch.nextAge, accepted := max 1 s3.launch.accepted }

end Sys2Proof.Machine
end

