-- ==== Sys2Proof/Machine/Step.lean ====
section
/-! DEFINITION. One step of the machine (DESIGN CHOICE, log 1): bundle B of the cycle that has issued its A; else the environment's next
move; else the first enabled step of the machine's own; else one local cycle of the next busy scheduler. -/
namespace Sys2Proof.Machine

/-- A bundle issues: its instruction is fetched and executed. -/
def runBundle (core sched wk : Nat) (mask : Word) (isB : Bool) (s : State) : Host.Outcome State Fault Refusal :=
  match fetchBundle core sched wk mask isB s with
  | (none, s1) => .next s1
  | (some i, s1) => exec i s1

/-- One local cycle of a scheduler: bundle A issues, and B waits for the next step. -/
def issueCycle (core sched : Nat) (s : State) : Host.Outcome State Fault Refusal :=
  match selectCycle core sched s with
  | (none, s1) => .next s1
  | (some p, s1) => runBundle core sched p.wk p.a false (setPendB core sched (p.b.map fun m => (p.wk, m)) s1)

/-- Bundle B of a cycle issues (R86, R128); then the cycle's ops on local barrier objects have taken effect (R202). -/
def issueB (wk : Nat) (mask : Word) (s : State) : Host.Outcome State Fault Refusal :=
  match runBundle s.cur.core s.cur.sched wk mask true (setPendB s.cur.core s.cur.sched none s) with
  | .next t => .next (flushObjs s.cur.core s.cur.sched t)
  | o => o

/-- A move of the environment. -/
def runMove (m : Move) (s : State) : Host.Outcome State Fault Refusal :=
  match m with
  | .event i => exec i s
  | .cycle core sched => issueCycle core sched s
  | m => .next (tickMove m s)

/-- The machine's own next move, when nothing comes from outside (DESIGN CHOICE, log 1). -/
def runOwn (s : State) : Host.Outcome State Fault Refusal :=
  match autoEvent s with
  | some i => exec i s
  | none =>
    match nextBusy s with
    | some k =>
      let s1 := if k < s.nextSched then tickUnits s else s
      issueCycle (k / 2) (k % 2) (s1.setNextSched (k + 1))
    | none => .next (tickUnits s)

/-- ONE STEP. -/
def step (s : State) : Host.Outcome State Fault Refusal :=
  match pendingB s with
  | some (wk, mask) => issueB wk mask s
  | none =>
    match s.agenda with
    | m :: t => runMove m (s.setAgenda t)
    | [] => runOwn s

/-- The state in which the next step fetches and runs a given word: the word is placed as a program is loaded
(`placeWord`, log 16). -/
def State.withFetchWord (s : State) (_nbits w : Nat) : State := placeWord (BitVec.ofNat 32 w) s

end Sys2Proof.Machine
end

