-- ==== Sys2Proof/Safety.lean ====
section
/-! DEFINITION. The words in which claims about this machine are made: bundles that can execute, registers and memory as
they read, what an instruction leaves as it was, results and faults. No lane fault is unsafe: the spec's faults are taken as
R240 to R243 say, and a step that stops the machine is the only unsafe one. -/
namespace Sys2Proof.Machine

/-! ### Bundles -/
/-- A bundle is being executed: its warp is there with 32 lanes, it has a lane, and none of its lanes has faulted. -/
def State.inBundle (s : State) : Bool :=
  (mFind s.warps s.cur.wk).isSome && s.cw.lanes.length == 32 && s.cur.faulted == 0 && s.cur.mask != 0
/-- Its block is resident too, under its own key. -/
def State.inBlock (s : State) : Bool := s.inBundle && (mFind s.blocks s.cw.bk).isSome && s.cb.bk == s.cw.bk

/-! ### Registers and memory as they read -/
/-- A register or predicate of a warp as it stands. -/
def regAt (w : Warp) : Dest → Word
  | .lane r l => w.vreg r l
  | .ply r p => w.sreg r p
  | .warp r => w.wreg r
  | .pred p l => if (w.lane l).preds.getLsbD p then 1 else 0
/-- The registers and predicates that exist: v0-v87 and p0-p6 of 32 lanes, s0-s3 of 4 plies, w0-w15. -/
def destExists : Dest → Bool
  | .lane r l => decide (r < 88) && decide (l < 32)
  | .ply r p => decide (r < 4) && decide (p < 4)
  | .warp r => decide (r < 16)
  | .pred p l => decide (p < 7) && decide (l < 32)
/-- Every byte of memory reads as before: at its home, and in every window and exchange bank of every block. -/
def sameMemory (s t : State) : Prop :=
  (∀ k pa, t.mem.byteUnder k pa = s.mem.byteUnder k pa) ∧
    ∀ bk q o, memRead ((t.block bk).space q) o = memRead ((s.block bk).space q) o

/-! ### What an instruction leaves as it was -/
/-- Of the whole machine nothing has changed but the warp of the bundle, and the mark of FPFLAGS raised in this cycle. -/
def onlyWarp (s t : State) : Prop :=
  t = (s.setWarps t.warps).setCur { s.cur with flags := t.cur.flags } ∧
    ∀ k, k ≠ s.cur.wk → mFind t.warps k = mFind s.warps k
/-- Of the warp nothing has changed but registers, lanes and results due, FPFLAGS by an OR, and the retired count by 1. -/
def warpWentOn (fl : BitVec 5) (s t : State) : Prop :=
  t.cw = { s.cw with lanes := t.cw.lanes, vregs := t.cw.vregs, mapped := t.cw.mapped, sregs := t.cw.sregs,
                     wregs := t.cw.wregs, outs := t.cw.outs, retired := s.cw.retired + 1,
                     fpflags := s.cw.fpflags ||| fl }
/-- The lanes of the bundle stand at the next word; of a lane nothing else changes but its predicates. -/
def lanesWentOn (s t : State) : Prop :=
  ∀ l, l < 32 → t.cw.lane l = { s.cw.lane l with
    pc := if s.cur.mask.getLsbD l then s.cur.pc + 4 else (s.cw.lane l).pc, preds := (t.cw.lane l).preds }
/-- The same, and a region of the bundle's lanes starts there (R197, R244). -/
def lanesCommitted (s t : State) : Prop :=
  ∀ l, l < 32 → t.cw.lane l =
    if s.cur.mask.getLsbD l then
      { s.cw.lane l with pc := s.cur.pc + 4, region := s.cur.pc + 4, regionRetired := s.cw.retired + 1,
                         preds := (t.cw.lane l).preds }
    else { s.cw.lane l with preds := (t.cw.lane l).preds }
/-- Every register and predicate reads what `v` gives it, or as before; an older outstanding write to one that `v` writes is
discarded (R51). -/
def registersBecome (v : Dest → Option Word) (s t : State) : Prop :=
  (∀ x, destExists x = true → regAt t.cw x = (v x).getD (regAt s.cw x)) ∧
    t.cw.outs = s.cw.outs.map fun o => { o with writes := o.writes.filter fun x => (v x.dest).isNone }
/-- The same of an instruction that commits: a result on the way also notes the lanes whose region has ended (R248). -/
def registersCommit (v : Dest → Option Word) (s t : State) : Prop :=
  (∀ x, destExists x = true → regAt t.cw x = (v x).getD (regAt s.cw x)) ∧
    t.cw.outs = s.cw.outs.map fun o =>
      { o with writes := o.writes.filter fun x => (v x.dest).isNone, kept := o.kept ||| (o.mask &&& s.cur.mask) }
/-- The registers with rows: those of before, and the lane registers that have been written (R133). -/
def rowsBecome (rs : List Nat) (s t : State) : Prop :=
  ∀ r, r < 88 → t.cw.mapped.getLsbD r = (s.cw.mapped.getLsbD r || rs.contains r)
/-- The lane registers of a destination code. -/
def laneRows (d : Reg) (pair : Bool) : List Nat :=
  if d.toNat < 88 then (if pair then [d.toNat, d.toNat + 1] else [d.toNat]) else []

/-! ### Results -/
/-- What a result of `f` per lane of the bundle gives each register (R55, R121): v registers take each lane's value, s
registers their ply's, w registers the bundle's; with `pair`, the next code takes bits [63:32]. -/
def resultDest (d : Reg) (pair : Bool) (m : Word) (f : Nat → DWord) : Dest → Option Word
  | .lane r l =>
    if d.toNat < 88 ∧ m.getLsbD l then half r d.toNat pair (f l) else none
  | .ply r p =>
    if 88 ≤ d.toNat ∧ d.toNat < 92 then
      match (maskLanes m).find? fun l => l / 8 == p with
      | some l => half (r + 88) d.toNat pair (f l)
      | none => none
    else none
  | .warp r =>
    if 92 ≤ d.toNat ∧ d.toNat < 108 then half (r + 92) d.toNat pair (f (lowLane m)) else none
  | .pred _ _ => none
where
  /-- The low half for code d, the high half for the next code of a pair. -/
  half (r d : Nat) (pair : Bool) (v : DWord) : Option Word :=
    if r = d then some (v.setWidth 32) else if pair ∧ r = d + 1 then some ((v >>> 32).setWidth 32) else none
/-- What predicate p takes of `f` per lane; p7 takes nothing (R138). -/
def predDest (p : PredNo) (m : Word) (f : Nat → Bool) : Dest → Option Word
  | .pred q l => if q = p.toNat ∧ p.toNat ≠ 7 ∧ m.getLsbD l then some (if f l then 1 else 0) else none
  | _ => none
/-- The values of the bundle can be written to d at once: rows for a lane register (R135), agreement over a ply or the warp
(R121); codes 0-107 and z. -/
def takesNow (s : State) (d : Reg) (pair : Bool) (f : Nat → DWord) : Prop :=
  (d.toNat < 88 ∧ rowsFit s (laneRows d pair) = true) ∨
  (88 ≤ d.toNat ∧ d.toNat < 92 ∧
    ∀ l < 32, ∀ k < 32, s.cur.mask.getLsbD l = true → s.cur.mask.getLsbD k = true → l / 8 = k / 8 → f l = f k) ∨
  (92 ≤ d.toNat ∧ d.toNat < 108 ∧
    ∀ l < 32, ∀ k < 32, s.cur.mask.getLsbD l = true → s.cur.mask.getLsbD k = true → f l = f k) ∨
  d = 124
/-- A RESULT WRITTEN AT ONCE, and everything that it leaves as it was. -/
def resultNow (d : Reg) (pair : Bool) (f : Nat → DWord) (fl : BitVec 5) (s t : State) : Prop :=
  onlyWarp s t ∧ sameMemory s t ∧ warpWentOn fl s t ∧ lanesWentOn s t ∧
    registersBecome (resultDest d pair s.cur.mask f) s t ∧ rowsBecome (laneRows d pair) s t
/-- A PREDICATE WRITTEN AT ONCE. -/
def predNow (p : PredNo) (f : Nat → Bool) (fl : BitVec 5) (s t : State) : Prop :=
  onlyWarp s t ∧ sameMemory s t ∧ warpWentOn fl s t ∧ lanesWentOn s t ∧
    registersBecome (predDest p s.cur.mask f) s t ∧ rowsBecome [] s t
/-- An instruction that writes no register is complete: the bundle stands at the next word. -/
def wentOn (s t : State) : Prop :=
  onlyWarp s t ∧ sameMemory s t ∧ warpWentOn 0 s t ∧ lanesWentOn s t ∧ registersBecome (fun _ => none) s t ∧ rowsBecome [] s t
/-- A committing instruction is complete: `v` gives the registers, and a region starts at the next word. -/
def committed (v : Dest → Option Word) (fl : BitVec 5) (s t : State) : Prop :=
  onlyWarp s t ∧ sameMemory s t ∧ warpWentOn fl s t ∧ lanesCommitted s t ∧ registersCommit v s t ∧ rowsBecome [] s t
/-- AN OUTSTANDING RESULT (R49): no register has its value yet; the warp holds one result more, with the values sampled at
issue, and results on the way to the same registers are discarded. -/
def resultDue (v : Dest → Option Word) (rows : List Nat) (fl : BitVec 5) (s t : State) : Prop :=
  onlyWarp s t ∧ sameMemory s t ∧
  t.cw = { s.cw with lanes := t.cw.lanes, mapped := t.cw.mapped, outs := t.cw.outs, nextId := freshId s + 1,
                     retired := s.cw.retired + 1 } ∧
  lanesWentOn s t ∧ (∀ x, destExists x = true → regAt t.cw x = regAt s.cw x) ∧ rowsBecome rows s t ∧
  ∃ o : Out, t.cw.outs = (s.cw.outs.map fun o => { o with writes := o.writes.filter fun x => (v x.dest).isNone }) ++ [o] ∧
    o.id = freshId s ∧ o.mask = s.cur.mask ∧ o.flags = fl ∧
    ∀ x, pendingWrite [o] x = v x

/-! ### Back banks -/
/-- A back bank takes an agreement write of v (R122, R126): it is the phase's first, or equal to the first. -/
def bankTakes (r : ScopedReg) (v : Word) : Prop := r.mode = .none ∨ (r.mode = .agreed ∧ r.back = v)
/-- A block register's bank as a write leaves it: the front keeps its value (R118). -/
def bankAgreed (r : ScopedReg) (v : Word) : ScopedReg := { r with mode := .agreed, back := v }
/-- The block registers change as told (codes 108-115); nothing else of the machine changes but the bundle's warp. -/
def bankBecomes (f : Nat → ScopedReg → ScopedReg) (s t : State) : Prop :=
  t = ((s.setWarps t.warps).setBlocks t.blocks).setCur { s.cur with flags := t.cur.flags } ∧
  (∀ k, k ≠ s.cur.wk → mFind t.warps k = mFind s.warps k) ∧ (∀ k, k ≠ s.cw.bk → mFind t.blocks k = mFind s.blocks k) ∧
  t.block s.cw.bk = { s.cb with bregs := (t.block s.cw.bk).bregs } ∧ sameMemory s t ∧
  ∀ c, 108 ≤ c → c < 116 → scopedOf t (t.block s.cw.bk) c = f c (scopedOf s s.cb c)
/-- AN AGREEMENT WRITE INTO A BLOCK REGISTER'S BACK BANK: nothing else changes. -/
def bankNow (d : Reg) (pair : Bool) (v : DWord) (fl : BitVec 5) (s t : State) : Prop :=
  bankBecomes (fun c r => if c = d.toNat then bankAgreed r (v.setWidth 32)
    else if pair ∧ c = d.toNat + 1 then bankAgreed r ((v >>> 32).setWidth 32) else r) s t ∧
  warpWentOn fl s t ∧ lanesWentOn s t ∧ registersBecome (fun _ => none) s t ∧ rowsBecome [] s t
/-- A REDUCTION INTO A BLOCK REGISTER'S BACK BANK, which commits: the bank becomes `r'`, and nothing else changes. -/
def bankReduced (d : Reg) (r' : ScopedReg) (s t : State) : Prop :=
  bankBecomes (fun c r => if c = d.toNat then r' else r) s t ∧ warpWentOn 0 s t ∧ lanesCommitted s t ∧
  registersCommit (fun _ => none) s t ∧ rowsBecome [] s t
/-- A WRITE TO A CLUSTER OR GRID REGISTER sets out for its home, codes 116-123 (R123): the bundle waits at its instruction
for the acceptance, with which the flags are raised (R75). -/
def bankSent (d : Reg) (pair : Bool) (red : Option RedKind) (vals : List (Nat × DWord)) (fl : BitVec 5) (s t : State) : Prop :=
  ∃ q : BankWrite, q.wk = s.cur.wk ∧ q.mask = s.cur.mask ∧ q.code = d ∧ q.pair = pair ∧ q.red = red ∧ q.vals = vals ∧ q.flags = fl ∧
    t.mem = { s.mem with bankq := s.mem.bankq ++ [q], nextQ := q.id + 1 } ∧
    t.cw = { s.cw with parks := s.cw.parks ++ [{ mask := s.cur.mask, pc := s.cur.pc, why := .bank q.id }] } ∧
    t = (s.setWarps t.warps).setMem t.mem ∧
    (∀ k, k ≠ s.cur.wk → mFind t.warps k = mFind s.warps k) ∧ sameMemory s t

/-- What RED leaves in a ply or warp register (R124): the prior value and the bundle's contributions under the kind. -/
def redDest (s : State) (k : RedKind) (d a : Reg) : Dest → Option Word
  | .ply r p =>
    if r + 88 = d.toNat ∧ d.toNat < 92 then
      match s.bl.filter fun l => l / 8 == p with
      | [] => none
      | l :: ls => some (redPlain k (s.src d l) ((l :: ls).map (s.src a))).1
    else none
  | .warp r =>
    if r + 92 = d.toNat ∧ d.toNat < 108 then some (redPlain k (s.usrc d) (s.bl.map (s.src a))).1 else none
  | _ => none

/-! ### Faults -/
/-- A FAULT IS TAKEN by the lanes of m (R102, R240, R241): they are parked at their PC, one record is posted, and nothing else
changes. -/
def faultTaken (m : Word) (code : Byte) (detail : BitVec 17) (faddr : DWord) (s t : State) : Prop :=
  t = ((s.setWarps t.warps).setFaults t.faults).setCur { s.cur with faulted := s.cur.faulted ||| m } ∧
  (∀ k, k ≠ s.cur.wk → mFind t.warps k = mFind s.warps k) ∧
  t.cw = { s.cw with lanes := t.cw.lanes } ∧
  (∀ l, l < 32 → t.cw.lane l = if m.getLsbD l then { s.cw.lane l with st := .parkedFault } else s.cw.lane l) ∧
  sameMemory s t ∧
  ∃ r : FaultRec, t.faults = { s.faults with pend := s.faults.pend ++ [r] } ∧ r.code = code ∧ r.detail = detail ∧
    r.faddr = faddr ∧ r.lanes = m ∧ r.origin = 0 ∧ r.gid = s.cb.gid ∧ r.core = s.cur.core ∧ r.slot = s.cb.slot ∧
    r.warpIdx = s.cw.idx ∧ r.ref = .lanes s.cur.wk

/-! ### The forms of the instructions that compute -/
/-- An instruction that computes a value for every lane of the bundle: whether it is legal here, its operand classes, its
sources, its destination, the value and the flags. -/
structure AluForm where
  legal : Bool
  ops : List OpPos
  srcs : List Reg
  d : Reg
  pair : Bool
  val : Nat → DWord
  flags : BitVec 5

/-- The three operand classes of most lane instructions (R61). -/
def ops3 (d a b : Reg) : List OpPos := [⟨0, d, laneDst d⟩, ⟨1, a, laneSrc a⟩, ⟨2, b, laneSrc b⟩]
/-- The classes of an instruction on pairs. -/
def opsPair (d a b : Reg) : List OpPos := [⟨0, d, evenCode d⟩, ⟨1, a, evenCode a⟩, ⟨2, b, evenCode b⟩]
/-- d and one source. -/
def ops2 (d a : Reg) : List OpPos := [⟨0, d, laneDst d⟩, ⟨1, a, laneSrc a⟩]

/-- Integer and logic instructions (R143 to R159) with a register result at fixed latency. -/
def intForm (s : State) : Instr → Option AluForm
  | .iadd _ m d a b => some ⟨true, ops3 d a b, [a, b], d, false, fun l => z64 (iaddVal m (s.src a l) (s.src b l)), 0⟩
  | .isub _ m d a b => some ⟨true, ops3 d a b, [a, b], d, false, fun l => z64 (isubVal m (s.src a l) (s.src b l)), 0⟩
  | .imul _ m d a b => some ⟨true, ops3 d a b, [a, b], d, false, fun l => z64 (mulWord m (s.src a l) (s.src b l)), 0⟩
  | .imad _ m d a b => some ⟨true, ops3 d a b, [a, b], d, false,
      fun l => z64 (s.src d l + mulWord m (s.src a l) (s.src b l)), 0⟩
  | .imnmx _ m d a b => some ⟨true, ops3 d a b, [a, b], d, false, fun l => z64 (mnmxVal m (s.src a l) (s.src b l)), 0⟩
  | .lop _ m d a b => some ⟨true, ops3 d a b, [a, b], d, false, fun l => z64 (lopVal m (s.src a l) (s.src b l)), 0⟩
  | .shf _ m d a b => some ⟨true, ops3 d a b, [a, b], d, false, fun l => z64 (shfVal m (s.src a l) (s.src b l)), 0⟩
  | .iuna _ m d a => some ⟨true, ops2 d a, [a], d, false, fun l => z64 (unaVal m (s.src a l)), 0⟩
  | .bfe _ g d a b => some ⟨true, ops3 d a b, [a, b], d, false, fun l => z64 (bfeVal g (s.src a l) (s.src b l)), 0⟩
  | .bfi _ d a b => some ⟨true, ops3 d a b, [a, b], d, false,
      fun l => z64 (bfiVal (s.src d l) (s.src a l) (s.src b l)), 0⟩
  | .prmt _ d a b => some ⟨true, ops3 d a b, [a, b], d, false,
      fun l => z64 (prmtVal (s.src d l) (s.src a l) (s.src b l)), 0⟩
  | .sel _ p d a b => some ⟨true, ops3 d a b, [a, b], d, false,
      fun l => z64 (if s.pred p l then s.src a l else s.src b l), 0⟩
  | .lea _ sh d a b => some ⟨true, ops3 d a b, [a, b], d, false,
      fun l => z64 (s.src a l + (s.src b l <<< sh.toNat)), 0⟩
  | .iadd64 _ sub d a b => some ⟨true, opsPair d a b, [a, b], d, true,
      fun l => if sub then s.src64 a l - s.src64 b l else s.src64 a l + s.src64 b l, 0⟩
  | .iaddi _ d a x => some ⟨true, ops2 d a, [a], d, false, fun l => z64 (s.src a l + x.signExtend 32), 0⟩
  | .andi _ d a x => some ⟨true, ops2 d a, [a], d, false, fun l => z64 (s.src a l &&& x.signExtend 32), 0⟩
  | .ori _ d a x => some ⟨true, ops2 d a, [a], d, false, fun l => z64 (s.src a l ||| x.signExtend 32), 0⟩
  | .xori _ d a x => some ⟨true, ops2 d a, [a], d, false, fun l => z64 (s.src a l ^^^ x.signExtend 32), 0⟩
  | .shli _ d a n => some ⟨true, ops2 d a, [a], d, false, fun l => z64 (s.src a l <<< n.toNat), 0⟩
  | .shri _ d a n => some ⟨true, ops2 d a, [a], d, false, fun l => z64 (s.src a l >>> n.toNat), 0⟩
  | .movl _ d x => some ⟨true, [⟨0, d, laneDst d⟩], [], d, false, fun _ => z64 (x.setWidth 32), 0⟩
  | .movh _ d x => some ⟨true, [⟨0, d, laneDst d⟩], [], d, false, fun _ => z64 (x.setWidth 32 <<< 16), 0⟩
  | .mov _ d a => some ⟨true, ops2 d a, [a], d, false, fun l => z64 (s.src a l), 0⟩
  | _ => none

/-- The results and flags of the lanes, as a float instruction gives them. -/
def floatPart (s : State) (legal : Bool) (ops : List OpPos) (srcs : List Reg) (d : Reg) (pair : Bool)
    (f : Nat → Nat × BitVec 5) : Option AluForm :=
  some ⟨legal, ops, srcs, d, pair, fun l => BitVec.ofNat 64 (f l).1, orFlags (s.bl.map fun l => (f l).2)⟩
/-- Floating-point instructions (R161 to R167, R171, R172) with a register result at fixed latency. -/
def floatForm (s : State) : Instr → Option AluForm
  | .fadd _ m d a b => three true d a b fun l => addF fp32 (s.md m d l) (s.src a l).toNat (s.src b l).toNat
  | .fsub _ m d a b => three true d a b fun l => subF fp32 (s.md m d l) (s.src a l).toNat (s.src b l).toNat
  | .fmul _ m d a b => three true d a b fun l => mulF fp32 (s.md m d l) (s.src a l).toNat (s.src b l).toNat
  | .ffma _ m d a b => three (s.rmode m != .rs) d a b fun l =>
      fmaF fp32 (s.md m d l) (s.src a l).toNat (s.src b l).toNat (s.src d l).toNat
  | .fmnmx _ op d a b => three true d a b fun l => fmnmxF fp32 op (s.src a l).toNat (s.src b l).toNat
  | .dadd _ m d a b => threeD true d a b fun l => addF fp64 (s.md m d l) (s.src64 a l).toNat (s.src64 b l).toNat
  | .dmul _ m d a b => threeD true d a b fun l => mulF fp64 (s.md m d l) (s.src64 a l).toNat (s.src64 b l).toNat
  | .dfma _ m d a b => threeD (s.rmode m != .rs) d a b fun l =>
      fmaF fp64 (s.md m d l) (s.src64 a l).toNat (s.src64 b l).toNat (s.src64 d l).toNat
  | .bfma2 _ m d a b => three (s.rmode m != .rs) d a b fun l =>
      packedFma bf16 (s.md m d l) (s.src d l).toNat (s.src a l).toNat (s.src b l).toNat
  | .hfma2 _ m d a b => three (s.rmode m != .rs) d a b fun l =>
      packedFma fp16 (s.md m d l) (s.src d l).toNat (s.src a l).toNat (s.src b l).toNat
  | .fdot2 _ m d a b => three (s.rmode m != .rs) d a b fun l =>
      fdot2F (s.md m d l) (s.src d l).toNat (s.src a l).toNat (s.src b l).toNat
  | .cvt _ m c sat d a =>
      floatPart s (!((c == .f32F4x || c == .f4xF32) && s.rmode m == .rs))
        [⟨0, d, if (cvtPairs c).2 then evenCode d else laneDst d⟩, ⟨1, a, if (cvtPairs c).1 then evenCode a else laneSrc a⟩]
        [a] d (cvtPairs c).2 fun l => cvtVal c sat (s.md m d l) (s.src d l).toNat
          (if (cvtPairs c).1 then (s.src64 a l).toNat else (s.src a l).toNat)
  | .fcls _ f64 d a => some ⟨true, [⟨0, d, laneDst d⟩, ⟨1, a, if f64 then evenCode a else laneSrc a⟩], [a], d, false,
      fun l => BitVec.ofNat 64 (if f64 then fclsF fp64 (s.src64 a l).toNat else fclsF fp32 (s.src a l).toNat), 0⟩
  | _ => none
where
  /-- Three 32-bit operands. -/
  three (legal : Bool) (d a b : Reg) (f : Nat → Nat × BitVec 5) : Option AluForm :=
    floatPart s legal (ops3 d a b) [a, b] d false f
  /-- Three FP64 pairs. -/
  threeD (legal : Bool) (d a b : Reg) (f : Nat → Nat × BitVec 5) : Option AluForm :=
    floatPart s legal (opsPair d a b) [a, b] d true f

/-- Exchange within the bundle (R173, R174). -/
def exchForm (s : State) : Instr → Option AluForm
  | .shfl _ m d a b => some ⟨m != .bcast || b == 0, ops3 d a b, if m = .bcast then [a] else [a, b], d, false,
      fun l => z64 (shflVal s m a b l), 0⟩
  | .vote _ m d a => some ⟨true, ops2 d a, [a], d, false, fun _ => z64 (voteVal m s.cur.mask (voteMask s a)), 0⟩
  | _ => none
/-- The uniform pipe (R206), and what GETC and CLK read (R209, R215). -/
def uniForm (s : State) : Instr → Option AluForm
  | .gmov _ d a => some ⟨true, [⟨0, d, uniCode d⟩, ⟨1, a, uniCode a⟩], [a], d, false, fun _ => z64 (s.usrc a), 0⟩
  | .galu _ op d a b => some ⟨true, [⟨0, d, uniCode d⟩, ⟨1, a, uniCode a⟩, ⟨2, b, uniCode b⟩], [a, b], d, false,
      fun _ => z64 (galuVal op (s.usrc a) (s.usrc b)), 0⟩
  | .galui _ op d x => some ⟨true, [⟨0, d, uniCode d⟩], [], d, false,
      fun _ => z64 (galuVal op (s.usrc d) (x.setWidth 32)), 0⟩
  | .gmovl _ d x => some ⟨true, [⟨0, d, uniCode d⟩], [], d, false, fun _ => z64 (x.setWidth 32), 0⟩
  | .gmovh _ d x => some ⟨true, [⟨0, d, uniCode d⟩], [], d, false, fun _ => z64 (x.setWidth 32 <<< 15), 0⟩
  | .getc _ d x => some ⟨ctrlIndex x, [⟨0, d, uniCode d && (!(x == 0x0C) || evenCode d)⟩], [], d, x == 0x0C,
      fun _ => ctrlRead s x.toNat, 0⟩
  | .clk _ d => some ⟨true, [⟨0, d, uniCode d && evenCode d⟩], [], d, true,
      fun _ => if coreDet s s.cur.core then s.cw.retired else s.csched.cycle - 1, 0⟩
  | _ => none
/-- Long-latency instructions (R148, R168, R170): their results are outstanding (R49). -/
def longForm (s : State) : Instr → Option AluForm
  | .idiv _ m d a b => some ⟨true, ops3 d a b, [a, b], d, false, fun l => z64 (divVal m (s.src a l) (s.src b l)), 0⟩
  | .sfu _ f m d a => floatPart s true (ops2 d a) [a] d false fun l => sfuF f (s.md m d l) (s.src a l).toNat
  | .dsfu _ f m d a => floatPart s true [⟨0, d, evenCode d⟩, ⟨1, a, evenCode a⟩] [a] d true
      fun l => rootF fp64 f (s.md m d l) (s.src64 a l).toNat
  | _ => none
/-- An instruction that computes a predicate for every lane of the bundle. -/
structure PredForm where
  legal : Bool
  ops : List OpPos
  srcs : List Reg
  p : PredNo
  val : Nat → Bool
  flags : BitVec 5
/-- The classes of two lane sources, of two pairs, of two uniform sources. -/
def ops12 (cls : Reg → Bool) (a b : Reg) : List OpPos := [⟨1, a, cls a⟩, ⟨2, b, cls b⟩]
/-- The instructions that write a predicate (R158, R160, R164, R208). -/
def predForm (s : State) : Instr → Option PredForm
  | .iset _ c p a b => some ⟨true, ops12 laneSrc a b, [a, b], p, fun l => condHolds c (s.src a l) (s.src b l), 0⟩
  | .iseti _ c p a x => some ⟨true, [⟨1, a, laneSrc a⟩], [a], p, fun l => condHolds c (s.src a l) (x.signExtend 32), 0⟩
  | .plop _ m d a b => some ⟨m != .not || b == 0, [], [], d, fun l => plopVal m (s.pred a l) (s.pred b l), 0⟩
  | .fset _ c p a b => some ⟨true, ops12 laneSrc a b, [a, b], p,
      fun l => (fsetF fp32 c (s.src a l).toNat (s.src b l).toNat).1,
      orFlags (s.bl.map fun l => (fsetF fp32 c (s.src a l).toNat (s.src b l).toNat).2)⟩
  | .dset _ c p a b => some ⟨true, ops12 evenCode a b, [a, b], p,
      fun l => (fsetF fp64 c (s.src64 a l).toNat (s.src64 b l).toNat).1,
      orFlags (s.bl.map fun l => (fsetF fp64 c (s.src64 a l).toNat (s.src64 b l).toNat).2)⟩
  | .gset _ c p a b => some ⟨true, ops12 uniCode a b, [a, b], p, fun _ => condHolds c (s.usrc a) (s.usrc b), 0⟩
  | _ => none
/-- Every instruction whose result is a value of the bundle at fixed latency. -/
def aluForm (s : State) (i : Instr) : Option AluForm :=
  (intForm s i).or ((floatForm s i).or ((exchForm s i).or (uniForm s i)))

/-! ### Predicates, comparisons, branches -/
/-- A RESULT THAT IS COMPARED WHEN IT RETURNS (R49, R123): the warp holds it with its values and its lanes wait at their
instruction for the comparison; the writes of an agreed bundle to ply and warp registers are outstanding, and outstanding ones
of before to the same registers, `gone`, are discarded (R51, R128); nothing else changes. -/
def compareDue (d : Reg) (pair : Bool) (vals : List (Nat × DWord)) (fl : BitVec 5) (s t : State) : Prop :=
  ∃ (o : Out) (gone : Dest → Bool), o.id = freshId s ∧ o.mask = s.cur.mask ∧ o.dest = d ∧ o.pair = pair ∧ o.vals = vals ∧ o.agree = true ∧
    o.flags = fl ∧ o.fin = Ending.plain ∧ o.writes = (dueWrites d pair vals).getD [] ∧ o.unknown = false ∧
    (∀ y ∈ o.writes, gone y.dest = true) ∧ (∀ x, gone x = true → (resultDest d pair s.cur.mask (fun _ => 0) x).isSome = true) ∧
    t = (s.setWarps t.warps) ∧ (∀ k, k ≠ s.cur.wk → mFind t.warps k = mFind s.warps k) ∧
    t.cw = { s.cw with
      outs := (s.cw.outs.map fun p => { p with writes := p.writes.filter fun x => !gone x.dest }) ++ [o],
      nextId := freshId s + 1,
      parks := s.cw.parks ++ [{ mask := s.cur.mask, pc := s.cur.pc, why := .compare o.id }] }
/-- The lanes of the bundle become `g` of what they were, the registers what `v` says; nothing else of the machine changes
but the retired count. -/
def lanesTake (g : Nat → Lane → Lane) (v : Dest → Option Word) (rows : List Nat) (s t : State) : Prop :=
  onlyWarp s t ∧ sameMemory s t ∧ warpWentOn 0 s t ∧ registersBecome v s t ∧ rowsBecome rows s t ∧
  ∀ l, l < 32 → t.cw.lane l = if s.cur.mask.getLsbD l then g l (s.cw.lane l) else s.cw.lane l
/-- A branch's lanes: those that take it go to their target with a change of their own, the others to the next word. -/
def branchLanes (s : State) (taken : Nat → Bool) (target : Nat → DWord) (f : Lane → Lane) (l : Nat) (x : Lane) : Lane :=
  if taken l then { f x with pc := target l } else { x with pc := s.cur.pc + 4 }
/-- v87 of the lanes that take a call: the return address (R192). -/
def linkDest (s : State) (taken : Nat → Bool) : Dest → Option Word
  | .lane r l => if r = 87 ∧ s.cur.mask.getLsbD l ∧ taken l then some ((s.cur.pc + 4).setWidth 32) else none
  | _ => none

/-! ### Lanes that wait for each other (R194) -/
/-- The lanes that wait at a JOIN address may go on: every lane that a waiting lane's mask names waits there too, or has no
way to come. `f` gives the lanes. -/
def joinMet (f : Nat → Lane) (p : DWord) : Prop :=
  ∀ k < 32, (f k).st = .waitingJoin → (f k).pc = p → ∀ j < 32, (f k).joinMask.getLsbD j = true →
    ((f j).st = .waitingJoin ∧ (f j).pc = p) ∨ (f j).st = .vacant ∨ (f j).st = .serialWaiting
/-- The lanes of w are those of `f` after the JOINs that may go on have let their lanes go. -/
def lanesReleased (f : Nat → Lane) (w : Warp) : Prop :=
  ∀ l < 32, ((f l).st = .waitingJoin → joinMet f (f l).pc → w.lane l = { f l with st := .active, pc := (f l).pc + 4 }) ∧
    (¬ ((f l).st = .waitingJoin ∧ joinMet f (f l).pc) → w.lane l = f l)
/-- A lane when its bundle has issued JOIN: every yield bit of the warp clears. -/
def joinLane (s : State) (a : Reg) (l : Nat) : Lane :=
  if s.cur.mask.getLsbD l then
    { s.cw.lane l with st := .waitingJoin, yld := false, joinMask := if a = 124 then 0xFFFFFFFF else s.src a l }
  else { s.cw.lane l with yld := false }
/-- A lane when its bundle has issued EXIT: vacant, or serial-waiting in serial mode, with its handler bit clear. -/
def exitLane (s : State) (l : Nat) : Lane :=
  let x := { s.cw.lane l with pc := s.cur.pc + 4, region := s.cur.pc + 4, regionRetired := s.cw.retired + 1, handler := false }
  if s.cur.mask.getLsbD l then
    if s.cw.serial then { x with st := .serialWaiting }
    else { x with st := .vacant, isTask := false, joinEn := false, taskId := 0xFFFFFFFF }
  else s.cw.lane l
/-- Nothing changes but the bundle's warp, and there only the lanes, the retired count by 1 and the notes of R248. -/
def onlyLanes (s t : State) : Prop :=
  onlyWarp s t ∧ sameMemory s t ∧
  t.cw = { s.cw with lanes := t.cw.lanes, outs := t.cw.outs, retired := s.cw.retired + 1 } ∧
  (t.cw.outs.map fun o => { o with kept := 0 }) = s.cw.outs.map fun o => { o with kept := 0 }
/-- No warp of the block waits in a REGCLAIM. -/
def noClaims (s : State) (bk : Nat) : Prop :=
  ∀ x ∈ s.warps, x.2.bk = bk → x.2.claims = [] ∧ (s.warp x.1).claims = []

/-! ### Waiting and ordering -/
/-- Nothing that the warp of the bundle has issued to memory is still to perform, nor anything of another warp that an acquire
or the core's order puts in front of what it issues next (R225, R115). -/
def streamEmpty (s : State) : Prop :=
  s.cw.memq = [] ∧ (∀ a ∈ s.mem.atoms, a.wk ≠ s.cur.wk) ∧ streamWids s s.cur.wk = [] ∧
    ∀ n, hbHeld s s.cur.wk n = false
/-- The core of the bundle has no store on its way: none in its pool, none in flight. -/
def coreQuiet (s : State) : Prop := (s.coreAt (s.block s.cw.bk).core).pool = [] ∧ s.mem.flights = []
/-- A number for the warp's stream and one for the writes of the package are used. -/
def counted (s : State) : State :=
  (s.updMem fun m => { m with nextWid := m.nextWid + 1 }).updCw fun w => { w with nextId := w.fresh + 1 }
/-- Every load of the warp has the bytes it will return. -/
def settled (s : State) : State := s.updCw fun w => { w with outs := w.outs.map fun o => { o with seen := true } }
/-- Every core reads as before, but that the snapshots of core c are dropped where `drop` says so (R224). -/
def coresDropped (c : Nat) (drop : Bool) (s t : State) : Prop :=
  ∀ k, t.coreAt k = if k = c ∧ drop = true then { s.coreAt k with snaps := [] } else s.coreAt k
/-- The lanes of the warp that wait at a BAR of a kind, the bundle's own among them. -/
def barWaiting (s : State) (cluster : Bool) (l : Nat) : Bool :=
  s.cur.mask.getLsbD l || s.cw.parks.any fun p => p.why == .bar cluster && p.mask.getLsbD l
/-- The bundle waits at its instruction for a reason; nothing else of the state changes. -/
def parkedFor (why : ParkWhy) (s t : State) : Prop :=
  t = s.updCw fun w => { w with parks := w.parks ++ [{ mask := s.cur.mask, pc := s.cur.pc, why := why }] }
/-- The words of a barrier object at a scratchpad offset become `o`, and every other byte of the block's windows stays. -/
def objectBecomes (off : Nat) (o : BarObj) (s t : State) : Prop :=
  (t.block s.cw.bk).obj off = o ∧
  (∀ x, x < off ∨ off + 12 ≤ x → memRead (t.block s.cw.bk).sp x = memRead s.cb.sp x) ∧
  ∀ q, q ≠ .sp → (t.block s.cw.bk).space q = s.cb.space q

/-! ### Accesses to memory -/
/-- A write number of the package is used. -/
def numbered (s : State) : State := (freshWid s).2
/-- Nothing has changed but the memory side: homes, L1s, TLBs and snapshots, and what goes to peers. -/
structure memSide (s t : State) : Prop where
  cur : t.cur = s.cur
  agenda : t.agenda = s.agenda
  nextSched : t.nextSched = s.nextSched
  warps : t.warps = s.warps
  blocks : t.blocks = s.blocks
  clusters : t.clusters = s.clusters
  dies : t.dies = s.dies
  faults : t.faults = s.faults
  launch : t.launch = s.launch
  wd : t.wd = s.wd
  rel : t.rel = s.rel
/-- The same, but for the warp of the bundle. -/
def memWarp (s t : State) : Prop :=
  memSide s (t.setWarps s.warps) ∧ ∀ k, k ≠ s.cur.wk → mFind t.warps k = mFind s.warps k
/-- Every lane of the bundle can access n bytes of a local space at its address (R180, R183). -/
def windowOk (s : State) (q : LSpace) (rd : Bool) (n : Nat) (addr : Nat → Word) : Prop :=
  ∀ l < 32, s.cur.mask.getLsbD l = true → (addr l).toNat + n ≤ s.cb.windowSize q ∧ (addr l).toNat % n = 0 ∧
    (rd = true → sramBad s s.cw.bk q (addr l).toNat n = false)
/-- The n bytes that a lane reads in a local space. -/
def windowVal (s : State) (q : LSpace) (n : Nat) (addr : Nat → Word) (l : Nat) : DWord :=
  BitVec.ofNat 64 (leNat (memReadBytes (s.cb.space q) (addr l).toNat n))
/-- A global load: its kind, size, destination, address register, addresses, checks (R184, R187, R188). -/
structure LoadForm where
  kind : LoadKind
  n : Nat
  t : Reg
  a : Reg
  addr : Nat → DWord
  chk : AccCheck
  pol : LdgQ
/-- The loads of global memory. -/
def loadForm (s : State) : Instr → Option LoadForm
  | .ldg _ sz q t a off => form (if q = .nol1 then .nol1 else .normal) (sizeBytes sz) t a (gAddr s a off (sizeBytes sz)) q
  | .ldrRo _ sz t a off => form .ro (sizeBytes sz) t a (gAddr s a off (sizeBytes sz)) .normal
  | .ldrUse _ sz d c t a => if c = 0 then none else form (.use c.toNat d) (sizeBytes sz) t a (fun l => s.src64 a l) .normal
  | .lda _ b64 sc false t a off => some ⟨.acq sc, atomSize b64, t, a, gAddr s a off (atomSize b64),
      bothChecks (scopeCheck sc false) (eccCheck (.acq sc) (atomSize b64)), .normal⟩
  | _ => none
where
  /-- A load with the check of R183. -/
  form (k : LoadKind) (n : Nat) (t a : Reg) (addr : Nat → DWord) (q : LdgQ) : Option LoadForm :=
    some ⟨k, n, t, a, addr, eccCheck k n, q⟩
/-- The accesses of a global load, lowest lane first, and the state after the translations. -/
def LoadForm.accesses (x : LoadForm) (s : State) : LaneRes := withPolicy x.pol (globalLanes .read x.n x.addr x.chk s)

/-- A lane's value: byte by byte the core's stored byte where its pool holds one, else what `f` gives for the address. -/
def readVal (s : State) (core : Nat) (y : LaneAcc) (n : Nat) (f : Nat → Byte) : DWord :=
  BitVec.ofNat 64 (leNat ((rangeFrom y.pa n).map fun p => ((mFind (s.coreAt core).pool p).map (·.val)).getD (f p)))
/-- One local space of one block becomes `m`; every other byte of memory reads as before. -/
def windowBecomes (bk : Nat) (q : LSpace) (m : Memory) (s t : State) : Prop :=
  (∀ k pa, t.mem.byteUnder k pa = s.mem.byteUnder k pa) ∧
    ∀ bk' q' o, memRead ((t.block bk').space q') o =
      if bk' = bk ∧ q' = q then memRead m o else memRead ((s.block bk').space q') o
/-- A block's enabled rings keep their notify words clear of some offsets: a store there publishes nothing (R266). -/
def noNotify (b : Block) (p : Nat → Prop) : Prop :=
  ∀ ch < 8, (mGet b.chans Chan.init ch).log2 ≠ 0 → ∀ o, p o →
    o < (mGet b.chans Chan.init ch).base ∨ (mGet b.chans Chan.init ch).base + 4 ≤ o
/-- An instruction that accesses global memory: whether its operands and privilege allow it here, the kind, the size, the
lanes' addresses. -/
def globalAccess (s : State) : Instr → Option (Bool × Acc × Nat × (Nat → DWord))
  | .ldg _ sz _ t a off => load (sizeBytes sz) t a (gAddr s a off (sizeBytes sz))
  | .ldrRo _ sz t a off => load (sizeBytes sz) t a (gAddr s a off (sizeBytes sz))
  | .ldrUse _ sz _ c t a => if c = 0 then none else load (sizeBytes sz) t a fun l => s.src64 a l
  | .lda _ b64 _ false t a off => load (atomSize b64) t a (gAddr s a off (atomSize b64))
  | .stg _ sz nt t a off => some (memReg false (sizeBytes sz) t && evenCode a && (!nt || s.cg.stream), .write, sizeBytes sz,
      gAddr s a off (sizeBytes sz))
  | .stl _ b64 _ false t a off => some (memReg false (atomSize b64) t && evenCode a, .write, atomSize b64,
      gAddr s a off (atomSize b64))
  | .atom _ aop u ty false t a => some (atomCombo aop u ty && atomT aop (ty == .b64) t && evenCode a &&
      (u == .comm || rowsFit s (laneRows t (ty == .b64))), .write, atomSize (ty == .b64), fun l => s.src64 a l)
  | _ => none
where
  /-- A load. -/
  load (n : Nat) (t a : Reg) (addr : Nat → DWord) : Option (Bool × Acc × Nat × (Nat → DWord)) :=
    some (memReg true n t && evenCode a && rowsFit s (laneRows t (n == 8)), .read, n, addr)
/-- The same for the local spaces of the block. -/
def localAccess (s : State) : Instr → Option (Bool × LSpace × Nat × (Nat → Word))
  | .lds _ sz q t a off => load (ldsSpace q) (sizeBytes sz) t a (lAddr s a off (sizeBytes sz))
  | .lda _ b64 _ true t a off => load .sp (atomSize b64) t a (lAddr s a off (atomSize b64))
  | .sts _ sz q t a off => if q = .xremote then none else
      some (memReg false (sizeBytes sz) t && laneSrc a, stsSpace q, sizeBytes sz, lAddr s a off (sizeBytes sz))
  | .stl _ b64 _ true t a off => some (memReg false (atomSize b64) t && laneSrc a, .sp, atomSize b64,
      lAddr s a off (atomSize b64))
  | .atom _ aop u ty true t a => some (atomCombo aop u ty && atomT aop (ty == .b64) t && laneSrc a &&
      (u == .comm || rowsFit s (laneRows t (ty == .b64))), .sp, atomSize (ty == .b64), fun l => s.src a l)
  | _ => none
where
  /-- A load. -/
  load (q : LSpace) (n : Nat) (t a : Reg) (addr : Nat → Word) : Option (Bool × LSpace × Nat × (Nat → Word)) :=
    some (memReg true n t && laneSrc a && rowsFit s (laneRows t (n == 8)), q, n, addr)

/-! ### Posts -/
/-- AN OUTSTANDING RESULT OF A COMMITTING INSTRUCTION (R49, R197). -/
def resultDueB (v : Dest → Option Word) (s t : State) : Prop :=
  onlyWarp s t ∧ sameMemory s t ∧
  t.cw = { s.cw with lanes := t.cw.lanes, outs := t.cw.outs, nextId := freshId s + 1, retired := s.cw.retired + 1 } ∧
  lanesCommitted s t ∧ (∀ x, destExists x = true → regAt t.cw x = regAt s.cw x) ∧
  t.cw.outs.length = s.cw.outs.length + 1 ∧
  ∃ o ∈ t.cw.outs, o.id = freshId s ∧ o.mask = s.cur.mask ∧ ∀ x, pendingWrite [o] x = v x
/-- The words of the record of n bytes that a pair names, as performed at the scratchpad or at the home (R181, R236), for a
warp with no fence and no local operation outstanding; `u` is the state after the reading. -/
def recordRead (n align : Nat) (a : Reg) (r : List Word) (s u : State) : Prop :=
  streamPending s s.cur.wk = false ∧ (s.usrc64 a).toNat % align = 0 ∧
  ∃ loc x v, uniformAcc .read n align (s.usrc64 a) s = (.ok (loc, x), v) ∧
    (loc = true → u = v ∧ r = leWords (memReadBytes s.cb.sp x.va n) (n / 4)) ∧
    (loc = false → ∃ bs, enginePiece x n none v = (bs, u) ∧ r = leWords bs (n / 4))
/-- The task that a record makes in a pool entry (R312). -/
def taskOf (u : State) (r : List Word) (e : Nat) : Task :=
  { slot := e, id := BitVec.ofNat 32 (2 ^ 25 * u.cq + 2 ^ 9 * ((u.quad u.cq).entered % 2 ^ 16) + e), gid := u.cb.gid,
    bk := u.cb.bk, part := u.cb.part, record := r, role := u.cw.role,
    ready := if waitOver u u.cq (taskWait r) then some (512 * (u.quad u.cq).yardCycle + e, (u.quad u.cq).yardCycle) else none,
    wave := none }
/-- It stands in the pool. -/
def taskStands (r : List Word) (e : Nat) (u : State) : State :=
  u.updQuad u.cq fun q => { q with tasks := q.tasks ++ [taskOf u r e], entered := q.entered + 1 }
/-- A counter of the warp's yard becomes x; nothing else of the machine changes. -/
def counterBecomes (c : Nat) (x : Ctr) (s : State) : State :=
  s.updQuad s.cq fun q => { q with ctrs := mSet q.ctrs c x }

/-- A query of the warp's block stands last in the distributor's queue (R319). -/
def queryJoins (desc off : Nat) (comp : Option (Word × Word)) (s : State) : State :=
  let q : Query := { id := s.wd.nextId, gid := s.cb.gid, bk := s.cb.bk, part := s.cb.part, desc := desc, off := off,
                     comp := comp, held := false, stage := .start }
  s.setWd { s.wd with nextId := s.wd.nextId + 1, queries := s.wd.queries ++ [q] }

/-! ### Events -/
/-- The bundle of a parked group as it stands at its instruction, taken up again. -/
def resumed (wk : Nat) (p : Park) (s : State) : State := resumeCur wk p (unpark wk p s)

/-- A fault record has been disposed of: it leaves the queue; beside it only its warp has changed. -/
def recordLeaves (r : FaultRec) (wk : Nat) (s t : State) : Prop :=
  t.faults = { s.faults with queue := s.faults.queue.filter fun x => x.seq != r.seq } ∧ t.mem = s.mem ∧ t.blocks = s.blocks ∧
    t.launch = s.launch ∧ ∀ k, k ≠ wk → mFind t.warps k = mFind s.warps k

/-- A grid runs with one block resident and nothing on its way: no store, atomic, task, matrix job, copy command or saved context. -/
def killQuiet (s : State) (gid bk : Nat) : Prop :=
  (∃ g, mFind s.launch.grids gid = some g ∧ g.gid ≠ 0 ∧ g.done = false ∧ g.killed = none) ∧
  (∃ b, mFind s.blocks bk = some b ∧ (s.blocks.filter fun kb => kb.2.gid == gid) = [(bk, b)] ∧
    (∀ kc ∈ b.chans, kc.2.cmds = []) ∧ ∀ j ∈ (s.quad (quadOf b.core)).jobs, j.bk ≠ bk) ∧
  (s.warps.map (·.1)).Nodup ∧
  (∀ kw ∈ s.warps, kw.2.bk = bk → kw.2.memq = [] ∧ kw.2.ntFids = [] ∧ (∀ x ∈ kw.2.lanes, x.isTask = false) ∧
    ∀ a ∈ s.mem.atoms, a.wk ≠ kw.1) ∧
  (∀ k, (s.coreAt k).pool = []) ∧ s.mem.flights = [] ∧
  (∀ kq ∈ s.quads, ∀ x ∈ kq.2.tasks, x.gid ≠ gid ∧ x.bk ≠ bk) ∧ ∀ kv ∈ s.launch.saved, kv.2.gid ≠ gid
/-- The grid has been killed with a status (R257): its block and warps are gone and count as ended, no block of it is
dispatched any more, its fault records and collectives are withdrawn; the homes keep their bytes. `fs` are the records. -/
def gridKilled (gid bk code : Nat) (fs : List FaultRec) (s t : State) : Prop :=
  (∀ k pa, t.mem.byteUnder k pa = s.mem.byteUnder k pa) ∧
  t.warps = s.warps.filter (fun kw => kw.2.bk != bk) ∧ t.blocks = mErase s.blocks bk ∧
  t.grid gid = { s.grid gid with killed := some code, next := (s.grid gid).blocks, ended := (s.grid gid).ended + 1 } ∧
  (∀ g, g ≠ gid → t.grid g = s.grid g) ∧
  t.faults.pend = (s.faults.pend.filter fun x => x.gid != gid) ++ fs ∧ (∀ x ∈ t.faults.queue, x.gid ≠ gid) ∧
  ∀ kd ∈ t.dies, ∀ x ∈ kd.2.colls, x.gid ≠ gid

/-- A block's save area shows no parked copy command, no ring, no matrix card and no collective. -/
def plainArea (s : State) (sb : SavedBlock) : Prop :=
  let h := savedHead s sb
  (∀ ch < 8, (fieldAt ((h.drop (0x500 + 32 * ch)).take 32) 12 4).testBit 0 = false ∧ ringLog (wordAt h 0x34) ch = 0) ∧
  savedCards h sb.addrs = [] ∧ fieldAt (areaRead s (sb.area + partOff h 6) 4) 0 4 = 0

/-- THE LAUNCH UNIT HAS ACCEPTED A LAUNCH (R378): the response carries its GRIDID, the count of launches; the record decides
whether it never runs, where its launch values come from, and whether it joins its queue. -/
def launchAccepted (queue tag : Nat) (r : List Word) (s t : State) : Prop :=
  let gid := nextGrid s.launch.accepted
  let g := t.grid gid
  let bare : Grid := { Grid.none with record := r }
  let n := (recWord r 12).toNat
  let joins := (mGet t.launch.queues [] queue) = mGet s.launch.queues [] queue ++ [gid]
  let stays := t.launch.queues = s.launch.queues
  t.host.out = s.host.out ++ [.launched tag gid] ∧ t.launch.accepted = s.launch.accepted + 1 ∧
  (∀ k, k ≠ gid → t.grid k = s.grid k) ∧ (∀ q, q ≠ queue → mGet t.launch.queues [] q = mGet s.launch.queues [] q) ∧
  g.gid = gid ∧ g.queue = queue ∧ g.tag = tag ∧ g.record = r ∧ g.watchdog = 1024 * bare.budget ∧
  t.mem = s.mem ∧ t.warps = s.warps ∧ t.blocks = s.blocks ∧
  (badLaunch bare = true → g.never = true ∧ stays) ∧
  (badLaunch bare = false →
    (bare.gsrc = false → g = { g with never := false, launchVals := launchWords r, gregs := seedRegs (launchWords r), src := none } ∧ joins) ∧
    (bare.gsrc = true → (mFind s.launch.grids n).isSome = true → g.never = false ∧ g.src = some n ∧ joins) ∧
    (bare.gsrc = true → (mFind s.launch.grids n).isSome = false →
      (∀ x, s.launch.published.find? (fun x => x.1 == n) = some x →
        g = { g with never := false, launchVals := x.2, gregs := seedRegs x.2, src := none } ∧ joins) ∧
      (s.launch.published.find? (fun x => x.1 == n) = none → g.never = true ∧ stays)))

/-- ONE BLOCK OF A GRID HAS BEEN DISPATCHED to a core (R92, R94 to R96, R119): it has the next index, windows and registers of
zeros and its warps at the entry; the grid's first block drops every snapshot (R232). -/
def blockPlaced (g : Grid) (part core : Nat) (s t : State) : Prop :=
  let bk := s.launch.nextBk
  let b := t.block bk
  t.mem = s.mem ∧ t.launch.nextBk = bk + 1 ∧
  b.gid = g.gid ∧ b.core = core ∧ b.part = (if g.firstPlaced then g.part else part % 8) ∧ b.nwarps = g.nwarps ∧ b.regs = g.regs ∧
  b.x + g.gx * (b.y + g.gy * b.z) = g.next ∧ (0 < g.gx → b.x < g.gx) ∧ (0 < g.gy → b.y < g.gy) ∧
  (∀ q o, memRead (b.space q) o = 0) ∧ b.bregs = [] ∧ b.spSize = 1024 * g.scratchK ∧ b.abSize = 1024 * g.abK ∧
  b.wbSize = 1024 * g.wbK ∧ b.cbSize = 1024 * g.cbK ∧
  (∀ i < g.nwarps, let w := t.warp (warpKey bk i)
    (∀ l < 32, w.lane l = Lane.start g.entry) ∧ (∀ r l, w.vreg r l = 0) ∧ w.sregs = [] ∧
    (∀ r, w.wreg r = if r = 0 then g.params.setWidth 32 else 0) ∧ w.retired = 0 ∧ w.fpflags = 0) ∧
  (∀ k, k ≠ bk → mFind t.blocks k = mFind s.blocks k) ∧
  (∀ k, (∀ i < g.nwarps, k ≠ warpKey bk i) → mFind t.warps k = mFind s.warps k) ∧
  (t.grid g.gid).next = g.next + 1 ∧ (∀ k, k ≠ g.gid → t.grid k = s.grid k) ∧
  (g.firstPlaced = false → (∀ k, (t.coreAt k).snaps = []) ∧ ∀ q, (t.quad q).roSnaps = [])

/-- THE WORK DISTRIBUTOR HAS ANSWERED its head query (R320): it leaves the queue, and its two words stand in the block's
scratchpad. -/
def answered (x : Query) (w0 w1 : Word) (u t : State) : Prop :=
  t = (u.setWd { u.wd with queries := u.wd.queries.drop 1 }).setBlocks t.blocks ∧
  memRead32 (t.block x.bk).sp x.off = w0 ∧ memRead32 (t.block x.bk).sp (x.off + 4) = w1 ∧
  (∀ o, o < x.off ∨ x.off + 8 ≤ o → memRead (t.block x.bk).sp o = memRead (u.block x.bk).sp o) ∧
  (∀ q, q ≠ .sp → (t.block x.bk).space q = (u.block x.bk).space q) ∧
  ∀ k, k ≠ x.bk → mFind t.blocks k = mFind u.blocks k

/-- The posting block of a query is there and its grid runs; the answer meets no notify word (R320, R266). -/
def answerable (u : State) (x : Query) : Prop :=
  (mFind u.blocks x.bk).isSome = true ∧ (u.grid (u.block x.bk).gid).killed = none ∧
    noNotify (u.block x.bk) fun o => x.off ≤ o ∧ o < x.off + 8
/-- The head query stands at a stage of its service. -/
def queryAt (st : QStage) (u : State) : State := updQuery (fun y => { y with stage := st }) u

/-! ### Issue -/
/-- A partition has a ready warp on a scheduler (R98): one with a bundle A that may issue. -/
def readyFor (s : State) (core sched part : Nat) : Bool := (readyWarps s core sched).any fun r => r.1 == part
/-- The partition of the timetable entry n places after that of the scheduler's cycle. -/
def slotPart (s : State) (core sched n : Nat) : Nat :=
  entryPart (s.schedAt core sched) ((s.schedAt core sched).cycle.toNat % 64 + n)
/-- LEND of the entry of the scheduler's cycle. -/
def slotLends (s : State) (core sched : Nat) : Bool :=
  (mGet (s.schedAt core sched).table 0 ((s.schedAt core sched).cycle.toNat % 64)).getLsbD 3
/-- The cycle issues a ready warp of this partition (R99): the oldest of those passed over in 31 cycles, else the oldest. -/
def issuesFor (s : State) (core sched part : Nat) : Prop :=
  ∃ p n pre post, (selectCycle core sched s).1 = some p ∧
    (readyWarps s core sched).filter (fun r => r.1 == part) = pre ++ (part, n, p) :: post ∧
    (∀ r ∈ pre, r.2.1 < 31) ∧ (31 ≤ n ∨ (pre = [] ∧ ∀ r ∈ post, r.2.1 < 31)) ∧
    ∃ kw ∈ s.warps, kw.1 = p.wk ∧ (s.block kw.2.bk).part = part
/-- A lane that R104 lets be selected, but for switch markers. -/
def eligible (w : Warp) (l : Nat) : Bool := (w.lane l).st == .active && !w.parkedMask.getLsbD l
/-- Of the lanes that `p` tells, a lane with the lowest key. -/
def lowestOf (w : Warp) (p : Nat → Bool) (l : Nat) : Prop :=
  p l = true ∧ ∀ k < 32, p k = true → laneKey (w.lane l) ≤ laneKey (w.lane k)
/-- The word at a group's address. -/
def groupWord (s : State) (w : Warp) (m : Word) : Word :=
  peekWord (s.block w.bk).core (s.block w.bk).part (groupPc w m) s
/-- The lanes that would be selected with a lane: those of its key, or in serial mode itself alone. -/
def keyMates (w : Warp) (l : Nat) : Word :=
  if w.serial then laneBit l
  else lanesMask ((rangeFrom 0 32).filter fun k => eligible w k && laneKey (w.lane k) == laneKey (w.lane l))
/-- A lane that may be selected in this cycle: eligible (R104), and no switch marker holds its group (R48, R108). -/
def selectable (s : State) (w : Warp) (l : Nat) : Bool :=
  eligible w l && !markerBlocked w (keyMates w l) (groupWord s w (keyMates w l))

end Sys2Proof.Machine
end

