-- ==== Sys2Proof/Certificates/Slice0/Obligations.lean ====
section
/-! DEFINITION. The statements for the provers. Each def's docstring names the rules of spec/ that it formalises. -/
open Sys2Proof Sys2Proof.Machine

/-! ### Instructions that compute -/
/-- INTEGER AND LOGIC (R143 to R159). On operands of its classes every one completes: its destination takes each lane's
value, with no flag; z takes nothing; every other register, flag, lane, special register and byte stays (R121, R135, R138).
FLOATING POINT (R161 to R167, R171, R172). The same, with the flags of all lanes ORed into FPFLAGS (R75). -/
def Obligations.ArithmeticResults : Prop :=
  (∀ (s : State) (i : Instr) (x : AluForm), intForm s i = some x → s.inBundle = true → x.ops.all (·.ok) = true →
    x.srcs.any scopedSrc = false → takesNow s x.d x.pair x.val →
    ∃ t, exec i s = .next t ∧ resultNow x.d x.pair x.val 0 s t) ∧
  ∀ (s : State) (i : Instr) (x : AluForm), floatForm s i = some x → s.inBundle = true → x.legal = true →
    x.ops.all (·.ok) = true → x.srcs.any scopedSrc = false → takesNow s x.d x.pair x.val →
    ∃ t, exec i s = .next t ∧ resultNow x.d x.pair x.val x.flags s t
/-- EXCHANGE (R173, R174: SHFL, VOTE), and THE UNIFORM PIPE (R206), GETC (R209) and CLK (R215): a w register takes the one
value, z nothing. -/
def Obligations.ExchangeAndUniformResults : Prop :=
  (∀ (s : State) (i : Instr) (x : AluForm), exchForm s i = some x → s.inBundle = true → x.legal = true →
    x.ops.all (·.ok) = true → x.srcs.any scopedSrc = false → takesNow s x.d x.pair x.val →
    ∃ t, exec i s = .next t ∧ resultNow x.d x.pair x.val 0 s t) ∧
  ∀ (s : State) (i : Instr) (x : AluForm), uniForm s i = some x → s.inBundle = true → x.legal = true →
    x.ops.all (·.ok) = true → x.srcs.any scopedSrc = false → x.d.toNat < 108 ∨ x.d = 124 →
    ∃ t, exec i s = .next t ∧ resultNow x.d x.pair x.val 0 s t
/-- OUTSTANDING (R49). The same instructions with a source c0-c3 or g0-g3: the result is outstanding; a lane destination has
its rows at once (R135), and the values are those sampled at issue. -/
def Obligations.ScopedSourceIsOutstanding : Prop :=
  ∀ (s : State) (i : Instr) (x : AluForm), aluForm s i = some x → s.inBundle = true → x.legal = true →
    x.ops.all (·.ok) = true → x.srcs.any scopedSrc = true →
    (x.d.toNat < 88 ∧ rowsFit s (laneRows x.d x.pair) = true) ∨ x.d = 124 ∨ (92 ≤ x.d.toNat ∧ x.d.toNat < 108 ∧
      (uniForm s i).isSome = true) →
    ∃ t, exec i s = .next t ∧ resultDue (resultDest x.d x.pair s.cur.mask x.val) (laneRows x.d x.pair) x.flags s t
/-- BLOCK REGISTERS (R118, R122): an agreement write goes to the back bank, as the phase's first or equal to the first; the
front keeps its value until the barrier. -/
def Obligations.BlockRegisterTakesAgreement : Prop :=
  ∀ (s : State) (i : Instr) (x : AluForm) (v : DWord), aluForm s i = some x → s.inBlock = true → s.cw.isWave = false →
    x.legal = true → x.ops.all (·.ok) = true → x.srcs.any scopedSrc = false → 108 ≤ x.d.toNat → x.d.toNat < 116 →
    (∀ l < 32, s.cur.mask.getLsbD l = true → x.val l = v) → bankTakes (scopedOf s s.cb x.d.toNat) (v.setWidth 32) →
    (x.pair = true → bankTakes (scopedOf s s.cb (x.d.toNat + 1)) ((v >>> 32).setWidth 32)) →
    ∃ t, exec i s = .next t ∧ bankNow x.d x.pair v x.flags s t
/-- CLUSTER AND GRID REGISTERS (R123): the write sets out for its home, and the bundle waits at its instruction. -/
def Obligations.ClusterAndGridWritesTravel : Prop :=
  ∀ (s : State) (i : Instr) (x : AluForm) (v : DWord), aluForm s i = some x → s.inBundle = true →
    (s.cw.isWave = false ∨ 120 ≤ x.d.toNat) → x.legal = true → x.ops.all (·.ok) = true →
    x.srcs.any scopedSrc = false → 116 ≤ x.d.toNat → x.d.toNat < 124 →
    (∀ l < 32, s.cur.mask.getLsbD l = true → x.val l = v) →
    ∃ t vals, exec i s = .next t ∧ bankSent x.d x.pair none vals x.flags s t ∧ (vals.headD (0, 0)).2 = v
/-- DISAGREEMENT (R121, R139, R240): lanes of a bundle that bring different values to one w register, or to one bank, fault
with AGREE, and nothing is written; values that a bank's phase does not take raise AGREE or MIXED (R122, R126), and AGREE of one
half of a pair stands above MIXED of the other. -/
def Obligations.DisagreementRaisesAgree : Prop :=
  (∀ (s : State) (i : Instr) (x : AluForm) (l k : Nat), (intForm s i = some x ∨ floatForm s i = some x ∨ exchForm s i = some x) →
    s.inBundle = true → x.legal = true → x.ops.all (·.ok) = true → x.srcs.any scopedSrc = false → 92 ≤ x.d.toNat →
    x.d.toNat < 124 → l < 32 → k < 32 → s.cur.mask.getLsbD l = true → s.cur.mask.getLsbD k = true → x.val l ≠ x.val k →
    ∃ t, exec i s = .next t ∧ faultTaken s.cur.mask 0x04 (x.d.setWidth 17) s.cur.pc s t) ∧
  (∀ (s : State) (i : Instr) (x : AluForm) (v : DWord), aluForm s i = some x → s.inBlock = true → s.cw.isWave = false →
    x.legal = true → x.ops.all (·.ok) = true → x.srcs.any scopedSrc = false → 108 ≤ x.d.toNat → x.d.toNat < 116 →
    (∀ l < 32, s.cur.mask.getLsbD l = true → x.val l = v) →
    let off : Prop := ((scopedOf s s.cb x.d.toNat).mode = .agreed ∧ (scopedOf s s.cb x.d.toNat).back ≠ v.setWidth 32) ∨
      (x.pair = true ∧ (scopedOf s s.cb (x.d.toNat + 1)).mode = .agreed ∧
        (scopedOf s s.cb (x.d.toNat + 1)).back ≠ (v >>> 32).setWidth 32)
    (off → ∃ t, exec i s = .next t ∧ faultTaken s.cur.mask 0x04 (x.d.setWidth 17) s.cur.pc s t) ∧
    (¬ off → (∃ k, (scopedOf s s.cb x.d.toNat).mode = .red k ∨
        (x.pair = true ∧ (scopedOf s s.cb (x.d.toNat + 1)).mode = .red k)) →
      ∃ t, exec i s = .next t ∧ faultTaken s.cur.mask 0x05 (x.d.setWidth 17) s.cur.pc s t))
/-- OPERAND AND ILLEGAL (R47, R68, R240): an ill-formed combination, and a word that is no instruction, fault the whole bundle
before their operands are looked at, DETAIL bits [31:24] of the word; else the first position in the order d, a, b whose class
excludes its code is named in the record. -/
def Obligations.BadFormsRaise : Prop :=
  (∀ (s : State) (i : Instr) (x : AluForm) (p : OpPos), aluForm s i = some x → s.inBundle = true → x.legal = true →
    firstBad x.ops = some p →
    ∃ t, exec i s = .next t ∧ faultTaken s.cur.mask 0x02 (BitVec.ofNat 17 (128 * p.pos + p.code.toNat)) s.cur.pc s t) ∧
  (∀ (s : State) (i : Instr) (x : AluForm), aluForm s i = some x → s.inBundle = true → x.legal = false →
    ∃ t, exec i s = .next t ∧ faultTaken s.cur.mask 0x01 ((s.cur.word >>> 24).setWidth 17) s.cur.pc s t) ∧
  (∀ (s : State) (i : Instr) (x : PredForm), predForm s i = some x → s.inBundle = true → x.legal = false →
    ∃ t, exec i s = .next t ∧ faultTaken s.cur.mask 0x01 ((s.cur.word >>> 24).setWidth 17) s.cur.pc s t) ∧
  ∀ (s : State) (w : Word), s.inBundle = true →
    ∃ t, exec (.illegal w) s = .next t ∧ faultTaken s.cur.mask 0x01 ((w >>> 24).setWidth 17) s.cur.pc s t
/-- PREDICATES (R158, R160, R164, R208): every lane of the bundle takes its test, p7 nothing (R138); with a source c0-c3 or
g0-g3 the predicate is outstanding (R49). -/
def Obligations.PredicateResults : Prop :=
  ∀ (s : State) (i : Instr) (x : PredForm), predForm s i = some x → s.inBundle = true → x.legal = true →
    x.ops.all (·.ok) = true →
    (x.srcs.any scopedSrc = false → ∃ t, exec i s = .next t ∧ predNow x.p x.val x.flags s t) ∧
    (x.srcs.any scopedSrc = true →
      ∃ t, exec i s = .next t ∧ resultDue (predDest x.p s.cur.mask x.val) [] x.flags s t)
/-- LONG LATENCY (R49, R148, R168, R170): division and the special functions leave an outstanding result; into a ply, warp or
wider register it is compared when it returns, and the bundle waits for that (R123). -/
def Obligations.LongLatencyResults : Prop :=
  ∀ (s : State) (i : Instr) (x : AluForm), longForm s i = some x → s.inBundle = true → x.ops.all (·.ok) = true →
    ((x.d.toNat < 88 ∧ rowsFit s (laneRows x.d x.pair) = true) ∨ x.d = 124 →
      ∃ t, exec i s = .next t ∧ resultDue (resultDest x.d x.pair s.cur.mask x.val) (laneRows x.d x.pair) x.flags s t) ∧
    (88 ≤ x.d.toNat → x.d.toNat < 124 →
      ∃ t, exec i s = .next t ∧ compareDue x.d x.pair (s.perLane x.val) x.flags s t)
/-- MATCH (R175, R49): every lane takes the mask of the lanes that hold its value, and the predicate is true in the lowest lane
of each such mask; with a source c0-c3 or g0-g3 both are one outstanding result. -/
def Obligations.MatchResults : Prop :=
  ∀ (s : State) (sw : Bool) (d a : Reg) (p : PredNo), s.inBundle = true → laneDst d = true → laneSrc a = true →
    let v : Dest → Option Word := fun x => (resultDest d false s.cur.mask (fun l => z64 (matchMask s a l)) x).or
      (predDest p s.cur.mask (fun l => lowLane (matchMask s a l) == l) x)
    (scopedSrc a = false → takesNow s d false (fun l => z64 (matchMask s a l)) →
      ∃ t, exec (.matchv sw d a p) s = .next t ∧ onlyWarp s t ∧ sameMemory s t ∧ warpWentOn 0 s t ∧ lanesWentOn s t ∧
        registersBecome v s t ∧ rowsBecome (laneRows d false) s t) ∧
    (scopedSrc a = true → (d.toNat < 88 ∧ rowsFit s (laneRows d false) = true) ∨ d = 124 →
      ∃ t, exec (.matchv sw d a p) s = .next t ∧ resultDue v (laneRows d false) 0 s t)
/-- RED INTO A PLY OR WARP REGISTER (R176, R124): the prior value and the contributions of the lanes, as the kind reduces
them; committing (R125). -/
def Obligations.ReductionIntoPlyOrWarp : Prop :=
  ∀ (s : State) (sw : Bool) (k : RedKind) (d a : Reg), s.inBundle = true → 88 ≤ d.toNat → d.toNat < 108 → laneSrc a = true →
    ∃ t, exec (.red sw k d a) s = .next t ∧
      committed (redDest s k d a) (orFlags ((redWrites s k d a).map (·.2))) s t
/-- RED AND GRED INTO A BANK (R124, R126, R207): a phase of the same kind, or a new phase, takes the contributions, one for each
lane for RED and one for GRED; any other phase raises MIXED; a cluster or grid register's contributions travel (R123). -/
def Obligations.ReductionIntoBank : Prop :=
  ∀ (s : State) (i : Instr) (k : RedKind) (d : Reg) (vals : List (Nat × DWord)),
    (∃ sw a, laneSrc a = true ∧ i = .red sw k d a ∧ vals = s.perLane fun l => z64 (s.src a l)) ∨
    (∃ sw a, uniCode a = true ∧ i = .gred sw k d a ∧ vals = [(lowLane s.cur.mask, z64 (s.usrc a))]) →
    s.inBlock = true → s.cw.isWave = false → 108 ≤ d.toNat → d.toNat < 124 →
    (d.toNat < 116 → ∀ r', bankReduce (scopedOf s s.cb d.toNat) k (vals.map fun x => x.2.setWidth 32) = .ok r' →
      ∃ t, exec i s = .next t ∧ bankReduced d r' s t) ∧
    (d.toNat < 116 → (scopedOf s s.cb d.toNat).mode ≠ .none → (scopedOf s s.cb d.toNat).mode ≠ .red k →
      ∃ t, exec i s = .next t ∧ faultTaken s.cur.mask 0x05 (d.setWidth 17) s.cur.pc s t) ∧
    (116 ≤ d.toNat → ∃ t, exec i s = .next t ∧ bankSent d false (some k) vals 0 s t)

/-! ### Control flow -/
/-- NOP, REGION (R198, R197), and REFILL (R196): with nothing to ask for it only commits; with vacant lanes, no request pending
and no serial mode, the warp holds a request for the next word, for as many lanes as are asked for and vacant; committing. -/
def Obligations.NopRegionRefill : Prop :=
  (∀ (s : State) (sw : Bool), s.inBundle = true →
    (∃ t, exec (.nop sw) s = .next t ∧ wentOn s t) ∧
    (∃ t, exec (.region sw) s = .next t ∧ committed (fun _ => none) 0 s t) ∧
    ∀ a, uniCode a = true → (∀ l < 32, (s.cw.lane l).st ≠ .vacant) →
      ∃ t, exec (.refill sw a) s = .next t ∧ committed (fun _ => none) 0 s t) ∧
  ∀ (s : State) (sw : Bool) (a : Reg), s.inBundle = true → uniCode a = true → s.cw.refill = none → s.cw.serial = false →
    (∃ l < 32, (s.cw.lane l).st = .vacant) →
    ∃ t n, exec (.refill sw a) s = .next t ∧ 1 ≤ n ∧
      n = min (if s.usrc a = 0 then 32 else (s.usrc a).toNat) (s.cw.lanes.filter fun x => x.st == .vacant).length ∧
      committed (fun _ => none) 0
        ((s.updQuad s.cq fun q => { q with nextRefill := q.nextRefill + 1 }).updCw fun w =>
          { w with refill := some { entry := s.cur.pc + 4, cap := n, depth := (s.cw.lane (lowLane s.cur.mask)).depth,
                                    order := (s.quad s.cq).nextRefill } }) t

/-- BRANCHES (R192): the lanes whose guard holds go to the target, BRAY's with their yield bit set and CALL's with one more
level and the return address in v87; the others go on. A lane at depth 63 whose guard holds faults (see the next). -/
def Obligations.Branches : Prop :=
  ∀ (s : State) (sw neg : Bool) (p : PredNo) (disp : BitVec 20), s.inBundle = true →
    (∃ t, exec (.bra sw neg p disp) s = .next t ∧
      lanesTake (branchLanes s (guardOf s neg p) (fun _ => dispTarget s disp) id) (fun _ => none) [] s t) ∧
    (∃ t, exec (.bray sw neg p disp) s = .next t ∧
      lanesTake (branchLanes s (guardOf s neg p) (fun _ => dispTarget s disp) fun x => { x with yld := true })
        (fun _ => none) [] s t) ∧
    ((∀ l < 32, s.cur.mask.getLsbD l = true → guardOf s neg p l = true → (s.cw.lane l).depth ≠ 63) → rowsFit s [87] = true →
      ∃ t, exec (.call sw neg p disp) s = .next t ∧
        lanesTake (branchLanes s (guardOf s neg p) (fun _ => dispTarget s disp) fun x => { x with depth := x.depth + 1 })
          (linkDest s (guardOf s neg p)) (if takenLanes s neg p = [] then [] else [87]) s t)
/-- REGISTER BRANCHES (R193): each lane goes to the word its register names, in the 4 GiB of the branch; CALLI adds a level and
the link (outstanding where the target is read from c0-c3 or g0-g3, R49), RET takes a level and below the handler's entry depth clears the handler bit (R243). -/
def Obligations.RegisterBranches : Prop :=
  ∀ (s : State) (sw : Bool) (a : Reg), s.inBundle = true → laneTgt a = true →
    (∀ l < 32, s.cur.mask.getLsbD l = true → s.src a l &&& 3 = 0) →
    (∃ t, exec (.brai sw a) s = .next t ∧
      lanesTake (branchLanes s (fun _ => true) (regTarget s a) id) (fun _ => none) [] s t) ∧
    ((∀ l < 32, s.cur.mask.getLsbD l = true → (s.cw.lane l).depth ≠ 63) → rowsFit s [87] = true →
      (scopedSrc a = false → ∃ t, exec (.calli sw a) s = .next t ∧
        lanesTake (branchLanes s (fun _ => true) (regTarget s a) fun x => { x with depth := x.depth + 1 })
          (linkDest s fun _ => true) [87] s t) ∧
      (scopedSrc a = true → ∃ t, exec (.calli sw a) s = .next t ∧ onlyWarp s t ∧
        (∃ o, t.cw.outs = (s.cw.outs.map fun o =>
            { o with writes := o.writes.filter fun x => (linkDest s (fun _ => true) x.dest).isNone }) ++ [o] ∧
          o.id = freshId s ∧ o.mask = s.cur.mask ∧ ∀ x, pendingWrite [o] x = linkDest s (fun _ => true) x) ∧
        (∀ x, destExists x = true → regAt t.cw x = regAt s.cw x) ∧ rowsBecome [87] s t ∧
        ∀ l, l < 32 → t.cw.lane l = if s.cur.mask.getLsbD l then
          branchLanes s (fun _ => true) (regTarget s a) (fun x => { x with depth := x.depth + 1 }) l (s.cw.lane l)
          else s.cw.lane l)) ∧
    ((∀ l < 32, s.cur.mask.getLsbD l = true → (s.cw.lane l).depth ≠ 0) →
      ∃ t, exec (.ret sw a) s = .next t ∧
        lanesTake (branchLanes s (fun _ => true) (regTarget s a) fun x =>
          { x with depth := x.depth - 1,
                   handler := x.handler && !decide ((x.depth - 1).toNat < x.entryDepth.toNat) }) (fun _ => none) [] s t)
/-- DEPTH, ALIGN, TRAP, BPT (R192, R193, R199, R240): a bundle all of whose lanes are at depth 63 cannot call, one at depth 0
cannot return, and a register branch to an address that is no word's faults; FADDR is the target then, else the branch's
address. TRAP and BPT are complete, and then their lanes fault with the code as DETAIL. -/
def Obligations.ControlFaults : Prop :=
  (∀ (s : State) (sw : Bool), s.inBundle = true →
    (∀ (neg : Bool) (p : PredNo) (disp : BitVec 20),
      (∀ l < 32, s.cur.mask.getLsbD l = true → guardOf s neg p l = true ∧ (s.cw.lane l).depth = 63) →
      ∃ t, exec (.call sw neg p disp) s = .next t ∧ faultTaken s.cur.mask 0x06 63 s.cur.pc s t) ∧
    ∀ a, laneTgt a = true →
      ((∀ l < 32, s.cur.mask.getLsbD l = true → s.src a l &&& 3 = 0 ∧ (s.cw.lane l).depth = 0) →
        ∃ t, exec (.ret sw a) s = .next t ∧ faultTaken s.cur.mask 0x06 0 s.cur.pc s t) ∧
      ((∀ l < 32, s.cur.mask.getLsbD l = true → s.src a l &&& 3 = 0 ∧ (s.cw.lane l).depth = 63) →
        ∃ t, exec (.calli sw a) s = .next t ∧ faultTaken s.cur.mask 0x06 63 s.cur.pc s t) ∧
      ((∀ l < 32, s.cur.mask.getLsbD l = true → s.src a l &&& 3 ≠ 0) →
        ∀ i ∈ [Instr.brai sw a, .calli sw a, .ret sw a], ∃ t, exec i s = .next t ∧
          faultTaken s.cur.mask 0x03 0 (regTarget s a (lowLane s.cur.mask)) s t)) ∧
  ∀ (s : State) (sw : Bool) (code : BitVec 17), s.inBundle = true →
    (∃ m t, wentOn s m ∧ exec (.trap sw code) s = .next t ∧ faultTaken s.cur.mask 0x0F code s.cur.pc m t) ∧
    (∃ m t, wentOn s m ∧ exec (.bpt sw code) s = .next t ∧ faultTaken s.cur.mask 0x10 code s.cur.pc m t)

/-- JOIN (R194): the lanes wait under their masks, all yield bits of the warp clear, and the lanes of every JOIN address that
may go on go on together. -/
def Obligations.JoinWaitsAndReleases : Prop :=
  ∀ (s : State) (sw : Bool) (a : Reg), s.inBundle = true → laneTgt a = true →
    ∃ t, exec (.join sw a) s = .next t ∧ onlyLanes s t ∧ lanesReleased (joinLane s a) t.cw
/-- EXIT (R195, R111, R113, R136): the lanes become vacant, in serial mode serial-waiting, and JOINs that waited for them go
on, where another lane of the warp has not left and no lane of the bundle runs a task. RETIREMENT: the last lanes leave, no
REFILL is pending, and no warp of the block waits in a REGCLAIM: the warp retires and its quota goes to the block's pool (here
another warp keeps the block). -/
def Obligations.ExitAndRetirement : Prop :=
  (∀ (s : State) (sw : Bool) (k : Nat), s.inBundle = true → k < 32 → s.cur.mask.getLsbD k = false →
    (s.cw.lane k).st ≠ .vacant → (s.cw.lane k).st ≠ .serialWaiting →
    (∀ l < 32, s.cur.mask.getLsbD l = true → (s.cw.lane l).isTask = false) →
    ∃ t, exec (.exit sw) s = .next t ∧ onlyLanes s t ∧ lanesReleased (exitLane s) t.cw) ∧
  ∀ (s : State) (sw : Bool) (k : Nat) (w : Warp), s.inBlock = true → s.cw.retiredW = false → s.cw.isWave = false →
    s.cw.serial = false → s.cw.refill = none → noClaims s s.cw.bk →
    (∀ l < 32, s.cur.mask.getLsbD l = false → (s.cw.lane l).st = .vacant) →
    (∀ l < 32, s.cur.mask.getLsbD l = true → (s.cw.lane l).isTask = false) →
    k ≠ s.cur.wk → mFind s.warps k = some w → w.bk = s.cw.bk → w.retiredW = false →
    ∃ t, exec (.exit sw) s = .next t ∧ t = (s.setWarps t.warps).setBlocks t.blocks ∧
      (∀ k, k ≠ s.cur.wk → mFind t.warps k = mFind s.warps k) ∧ (∀ k, k ≠ s.cw.bk → mFind t.blocks k = mFind s.blocks k) ∧
      t.block s.cw.bk = { s.cb with pool := s.cb.pool + s.cw.limit.toNat } ∧
      t.cw.retiredW = true ∧ t.cw.parks = [] ∧ t.cw.limit = s.cw.limit ∧ t.cw.retired = s.cw.retired + 1 ∧
      (∀ l < 32, (t.cw.lane l).st = .vacant) ∧ ∀ x, destExists x = true → regAt t.cw x = regAt s.cw x
/-! ### Control registers and quota -/
/-- SETC (R210, R74, R75, R58, R68): ROLE needs privilege and raises PRIV without it; ones written to FPFLAGS clear the flags
that this cycle has not raised; FRM takes 3 bits, 111 as 000; a register that is only read refuses with OPERAND. -/
def Obligations.SetcOfWarpRegisters : Prop :=
  ∀ (s : State) (sw : Bool) (d : Reg), s.inBundle = true → uniCode d = true →
    (s.cw.privileged = true → ∃ t, exec (.setcRole sw d) s = .next t ∧
      wentOn (s.updCw fun w => { w with role := (s.usrc d).setWidth 8 }) t) ∧
    (s.cw.privileged = false → ∃ t, exec (.setcRole sw d) s = .next t ∧ faultTaken s.cur.mask 0x0E 0 s.cur.pc s t) ∧
    (∃ t f, exec (.setcFpflags sw d) s = .next t ∧ wentOn (s.updCw fun w => { w with fpflags := f }) t ∧
      ∀ n < 5, f.getLsbD n = true ↔
        s.cur.flags.getLsbD n = true ∨ (s.cw.fpflags.getLsbD n = true ∧ (s.usrc d).getLsbD n = false)) ∧
    (∃ t v, exec (.setcFrm sw d) s = .next t ∧ wentOn (s.updCw fun w => { w with frm := v }) t ∧
      v.toNat = if (s.usrc d).toNat % 8 = 7 then 0 else (s.usrc d).toNat % 8) ∧
    ∀ x, ctrlIndex x = true → setcOwnRow x = false →
      ∃ t, exec (.setc sw d x) s = .next t ∧ faultTaken s.cur.mask 0x02 (BitVec.ofNat 17 d.toNat) s.cur.pc s t
/-- RING REGISTERS (R213, R266): a layout that fits, written while no command is outstanding, is laid out afresh; sizes are 0
or 3 to 8, and a write while a command is outstanding is refused. -/
def Obligations.RingRegisters : Prop :=
  ∀ (s : State) (sw : Bool) (d : Reg), s.inBundle = true → uniCode d = true →
    (s.cb.copyBusy = false → ringsEnd (s.usrc d &&& 0x3FFF0) s.cb.ringSize ≤ s.cb.spSize ∨ s.cb.ringSize = 0 →
      ∃ t, exec (.setcRingbase sw d) s = .next t ∧
        wentOn (layoutRings s.cw.bk (s.usrc d &&& 0x3FFF0) s.cb.ringSize s) t) ∧
    ((∀ ch < 8, ringLog (s.usrc d) ch = 0 ∨ (3 ≤ ringLog (s.usrc d) ch ∧ ringLog (s.usrc d) ch ≤ 8)) →
      s.cb.copyBusy = false → ringsEnd s.cb.ringBase (s.usrc d) ≤ s.cb.spSize ∨ s.usrc d = 0 →
      ∃ t, exec (.setcRingsize sw d) s = .next t ∧ wentOn (layoutRings s.cw.bk s.cb.ringBase (s.usrc d) s) t) ∧
    (s.cb.copyBusy = true → ∃ t, exec (.setcRingbase sw d) s = .next t ∧
      faultTaken s.cur.mask 0x11 0x11 s.cur.pc s t) ∧
    ((∃ ch < 8, ringLog (s.usrc d) ch ≠ 0 ∧ (ringLog (s.usrc d) ch < 3 ∨ 8 < ringLog (s.usrc d) ch)) →
      ∃ t, exec (.setcRingsize sw d) s = .next t ∧ faultTaken s.cur.mask 0x11 0x10 s.cur.pc s t)
/-- ROWS AND QUOTA (R216, R134, R136, R137). FREE: the registers named read 0 in the lanes of the bundle, and one that then reads
0 in every lane gives its row back. REGGIVE, REGCLAIM and SETC of QUOTA move rows between the warp's LIMIT and the block's pool,
as committing instructions; giving more than LIMIT, or claiming beyond 88, raises REGQUOTA; a SETC that the pool does not meet
raises it too. -/
def Obligations.RowsAndQuota : Prop :=
  (∀ (s : State) (sw : Bool) (d a b : Reg), s.inBundle = true → freeCode d = true → freeCode a = true → freeCode b = true →
    ∃ t, exec (.free sw d a b) s = .next t ∧ onlyWarp s t ∧ sameMemory s t ∧ warpWentOn 0 s t ∧ lanesWentOn s t ∧
      t.cw.outs = s.cw.outs ∧ t.cw.sregs = s.cw.sregs ∧ t.cw.wregs = s.cw.wregs ∧
      (∀ l, l < 32 → (t.cw.lane l).preds = (s.cw.lane l).preds) ∧
      (∀ r < 88, ∀ l < 32, t.cw.vreg r l =
        if (r = d.toNat ∨ r = a.toNat ∨ r = b.toNat) ∧ s.cur.mask.getLsbD l = true then 0 else s.cw.vreg r l) ∧
      (∀ r < 88, t.cw.mapped.getLsbD r = true ↔ s.cw.mapped.getLsbD r = true ∧
        ¬ ((r = d.toNat ∨ r = a.toNat ∨ r = b.toNat) ∧ ∀ l < 32, t.cw.vreg r l = 0))) ∧
  ∀ (s : State) (sw : Bool), s.inBlock = true →
    (∀ n : BitVec 7, n.toNat ≤ s.cw.limit.toNat → s.cw.limit.toNat ≤ 88 → noClaims s s.cw.bk →
      ∃ m t, exec (.reggive sw n) s = .next t ∧
        committed (fun _ => none) 0 (s.updCw fun w => { w with limit := w.limit - n }) m ∧
        t = m.updBlock s.cw.bk fun b => { b with pool := b.pool + n.toNat }) ∧
    (∀ n : BitVec 7, n.toNat ≤ 88 → s.cw.limit.toNat < n.toNat →
      ∃ t, exec (.reggive sw n) s = .next t ∧ faultTaken s.cur.mask 0x15 (BitVec.ofNat 17 n.toNat) s.cur.pc s t) ∧
    (∀ n : BitVec 7, n.toNat ≤ 88 → 88 < s.cw.limit.toNat + n.toNat →
      ∃ t, exec (.regclaim sw n) s = .next t ∧ faultTaken s.cur.mask 0x15 (BitVec.ofNat 17 n.toNat) s.cur.pc s t) ∧
    (∀ n : BitVec 7, s.cw.limit.toNat + n.toNat ≤ 88 → n.toNat ≤ s.cb.pool →
      ∃ t, exec (.regclaim sw n) s = .next t ∧ committed (fun _ => none) 0
        ((s.updBlock s.cw.bk fun b => { b with pool := b.pool - n.toNat }).updCw fun w => { w with limit := w.limit + n }) t) ∧
    ∀ d, uniCode d = true →
      ((s.usrc d).toNat % 128 < s.cw.limit.toNat → s.cw.limit.toNat ≤ 88 → noClaims s s.cw.bk →
        ∃ m t, exec (.setcQuota sw d) s = .next t ∧ committed (fun _ => none) 0
          (s.updCw fun w => { w with limit := BitVec.ofNat 7 ((s.usrc d).toNat % 128) }) m ∧
          t = m.updBlock s.cw.bk fun b => { b with pool := b.pool + (s.cw.limit.toNat - (s.usrc d).toNat % 128) }) ∧
      (s.cw.limit.toNat ≤ (s.usrc d).toNat % 128 → (s.usrc d).toNat % 128 ≤ 88 →
        (s.usrc d).toNat % 128 - s.cw.limit.toNat ≤ s.cb.pool →
        ∃ t, exec (.setcQuota sw d) s = .next t ∧ committed (fun _ => none) 0
          ((s.updBlock s.cw.bk fun b => { b with pool := b.pool - ((s.usrc d).toNat % 128 - s.cw.limit.toNat) }).updCw
            fun w => { w with limit := BitVec.ofNat 7 ((s.usrc d).toNat % 128) }) t) ∧
      (s.cw.limit.toNat ≤ (s.usrc d).toNat % 128 → (s.usrc d).toNat % 128 ≤ 88 →
        s.cb.pool < (s.usrc d).toNat % 128 - s.cw.limit.toNat →
        ∃ t, exec (.setcQuota sw d) s = .next t ∧
          faultTaken s.cur.mask 0x15 (BitVec.ofNat 17 ((s.usrc d).toNat % 128 - s.cw.limit.toNat)) s.cur.pc s t)
/-! ### Waiting and ordering -/
/-- FENCE, DRAIN, ROINV (R204, R205, R223, R224, R229): behind an empty stream, with no store on its way where the scope is
wide, each is performed at once: an acquire of a wide scope drops the core's snapshots, ROINV the quad's; DRAIN commits. -/
def Obligations.FencesOrderTheStream : Prop :=
  ∀ (s : State) (sw : Bool) (sc : Scope), s.inBundle = true →
    (streamEmpty s → (scopeWide sc = true → coreQuiet s) → (∀ f ∈ s.mem.flights, f.fid ∉ s.cw.ntFids) →
      (∀ imm : BitVec 7, imm = 1 ∨ imm = 2 ∨ imm = 3 → ∃ c t, exec (.fence sw sc imm) s = .next t ∧
        wentOn (settled ((counted s).setCores c)) t ∧ coresDropped (s.block s.cw.bk).core (imm.getLsbD 0 && scopeWide sc) s t) ∧
      (∃ c t, exec (.drain sw sc) s = .next t ∧ committed (fun _ => none) 0 (settled ((counted s).setCores c)) t ∧
        coresDropped (s.block s.cw.bk).core false s t) ∧
      ∃ t, exec (.roinv sw) s = .next t ∧
        wentOn ((counted s).updQuad (quadOf (s.block s.cw.bk).core) fun q => { q with roSnaps := [] }) t) ∧
    ∀ imm : BitVec 7, imm ≠ 1 → imm ≠ 2 → imm ≠ 3 → ∃ t, exec (.fence sw sc imm) s = .next t ∧
      faultTaken s.cur.mask 0x01 ((s.cur.word >>> 24).setWidth 17) s.cur.pc s t
/-- WAITM AT THE SCRATCHPAD (R200, R181): where the condition holds of the word, the bundle goes on, with what the word's
release ordered before it; where not, it waits. A place outside the window raises BUFACC with the offset. -/
def Obligations.WaitmAtTheScratchpad : Prop :=
  ∀ (s : State) (sw : Bool) (c : Cond) (a b : Reg) (off : Nat), s.inBundle = true → uniCode a = true → evenCode a = true →
    uniCode b = true → s.usrc64 a = BitVec.ofNat 64 (0xFFFFFFFF00000000 + off) → off < 2 ^ 32 →
    (off + 4 ≤ s.cb.spSize → off % 4 = 0 → sramBad s s.cw.bk .sp off 4 = false → streamPending s s.cur.wk = false →
      hbHeld s s.cur.wk s.mem.nextWid = false →
      (condHolds c (memRead32 s.cb.sp off) (s.usrc b) = true →
        ∃ t h, exec (.waitm sw c a b) s = .next t ∧ wentOn (s.updCw fun w => { w with hb := h }) t) ∧
      (condHolds c (memRead32 s.cb.sp off) (s.usrc b) = false →
        ∃ t, exec (.waitm sw c a b) s = .next t ∧ parkedFor (.waitm true (localAcc 0 off) c (s.usrc b)) s t)) ∧
    (s.cb.spSize < off + 4 →
      ∃ t, exec (.waitm sw c a b) s = .next t ∧ faultTaken s.cur.mask 0x0D 0 (BitVec.ofNat 64 off) s t)
/-- BAR (R201, R197, R314): the lanes wait at the word after; while another lane of the warp has not come nothing more
happens; when all have, a region starts at each and the warp's release is made. A wave raises ENGINE. -/
def Obligations.BarWaits : Prop :=
  ∀ (s : State) (sw cluster : Bool), s.inBundle = true →
    (s.cw.isWave = true → ∃ t, exec (.bar sw cluster) s = .next t ∧ faultTaken s.cur.mask 0x11 0x42 s.cur.pc s t) ∧
    (s.cw.isWave = false →
      (∃ l < 32, (s.cw.lane l).st ≠ .vacant ∧ (s.cw.lane l).st ≠ .serialWaiting ∧ barWaiting s cluster l = false) →
      ∃ m t, wentOn s m ∧ exec (.bar sw cluster) s = .next t ∧ parkedFor (.bar cluster) m t) ∧
    (s.cw.isWave = false →
      (∀ l < 32, (s.cw.lane l).st ≠ .vacant → (s.cw.lane l).st ≠ .serialWaiting → barWaiting s cluster l = true) →
      streamEmpty s → (cluster = true → coreQuiet s) →
      ∃ t, exec (.bar sw cluster) s = .next t ∧ t = (s.setWarps t.warps).setCores t.cores ∧
        (∀ k, k ≠ s.cur.wk → mFind t.warps k = mFind s.warps k) ∧ (∀ k, t.coreAt k = s.coreAt k) ∧
        t.cw = { s.cw with lanes := t.cw.lanes, outs := t.cw.outs, retired := s.cw.retired + 1,
                           parks := s.cw.parks ++ [{ mask := s.cur.mask, pc := s.cur.pc, why := .bar cluster }] } ∧
        ∀ l < 32, t.cw.lane l =
          (let x := if s.cur.mask.getLsbD l then { s.cw.lane l with pc := s.cur.pc + 4 } else s.cw.lane l
           if barWaiting s cluster l then { x with region := x.pc, regionRetired := s.cw.retired + 1 } else x))
/-- BARX ON A LOCAL OBJECT (R202, R203), as the last bundle of its cycle: the words become what the op makes of them, and nothing else of the windows
changes; an arrival commits; a test and a satisfied wait leave their value outstanding, an unsatisfied wait an outstanding
result that waits for the phase. -/
def Obligations.BarxAtTheScratchpad : Prop :=
  ∀ (s : State) (sw : Bool) (op : BarxOp) (d a b : Reg) (off : Nat), s.inBlock = true →
    ((op = .test ∨ op = .wait) ∨ d = 0) → (op = .arrive → b = 0) → ((op ≠ .test ∧ op ≠ .wait) ∨ uniCode d = true) →
    uniCode a = true → evenCode a = true → (op = .arrive ∨ uniCode b = true) →
    s.usrc64 a = BitVec.ofNat 64 (0xFFFFFFFF00000000 + off) → off + 16 ≤ s.cb.spSize → off % 16 = 0 → off < 2 ^ 32 →
    sramBad s s.cw.bk .sp off 16 = false →
    (op = .init → 1 ≤ (s.usrc b).toNat ∧ (s.usrc b).toNat < 65536) →
    (op = .arrive ∨ op = .arriveExpect → streamEmpty s) →
    (s.schedAt s.cur.core s.cur.sched).pendB = none → (s.schedAt s.cur.core s.cur.sched).late = [] →
    (op ≠ .test → op ≠ .wait → ∃ t, exec (.barx sw op d a b) s = .next t ∧
      objectBecomes off ((s.cb.obj off).step op (if op = .arrive then 0 else s.usrc b)).1 s t ∧
      (if op = .arrive ∨ op = .arriveExpect then lanesCommitted s t else lanesWentOn s t) ∧
      (∀ x, destExists x = true → regAt t.cw x = regAt s.cw x) ∧ t.mem = s.mem) ∧
    (92 ≤ d.toNat ∧ d.toNat < 108 ∨ d = 124 →
      (op = .test → ∃ t h, exec (.barx sw op d a b) s = .next t ∧
        resultDue (resultDest d false s.cur.mask fun _ =>
          if (s.cb.obj off).parity = (s.usrc b).getLsbD 0 then 0 else 1) [] 0 (s.updCw fun w => { w with hb := h }) t) ∧
      (op = .wait → (s.cb.obj off).parity ≠ (s.usrc b).getLsbD 0 → ∃ t h, exec (.barx sw op d a b) s = .next t ∧
        resultDue (resultDest d false s.cur.mask fun _ => if (s.usrc b).getLsbD 0 then 0 else 1) [] 0
          (s.updCw fun w => { w with hb := h }) t) ∧
      (op = .wait → (s.cb.obj off).parity = (s.usrc b).getLsbD 0 → ∃ t o, exec (.barx sw op d a b) s = .next t ∧
        onlyWarp s t ∧ lanesWentOn s t ∧ o ∈ t.cw.outs ∧ o.id = freshId s ∧ o.mask = s.cur.mask ∧ o.dest = d ∧
        o.obj = some { loc := true, addr := off, parity := (s.usrc b).getLsbD 0 } ∧
        ∀ x, destExists x = true → regAt t.cw x = regAt s.cw x))

/-! ### Memory instructions -/
/-- LOADS FROM A LOCAL SPACE (R185, R187, R233): behind an empty stream, the result is outstanding with the bytes that the
space holds, zero-extended; LDA is an acquire of its scope (R224). Into a ply, warp or wider register it is compared. -/
def Obligations.LocalLoads : Prop :=
  ∀ (s : State) (i : Instr) (q : LSpace) (n : Nat) (t a : Reg) (addr : Nat → Word) (acq : Option Scope),
    (∃ sw sz q' off, i = .lds sw sz q' t a off ∧ q = ldsSpace q' ∧ n = sizeBytes sz ∧ addr = lAddr s a off n ∧ acq = none) ∨
    (∃ sw b64 sc off, i = .lda sw b64 sc true t a off ∧ q = .sp ∧ n = atomSize b64 ∧ addr = lAddr s a off n ∧ acq = some sc) →
    s.inBundle = true → memReg true n t = true → laneSrc a = true → rowsFit s (laneRows t (n == 8)) = true →
    streamEmpty s → windowOk s q true n addr →
    ∃ t' c h, exec i s = .next t' ∧ coresDropped (s.block s.cw.bk).core (acq.any scopeWide) s (s.setCores c) ∧
      (acq = none → c = s.cores ∧ h = s.cw.hb) ∧
      (t.toNat < 88 ∨ t = 124 → resultDue (resultDest t (n == 8) s.cur.mask (windowVal s q n addr)) (laneRows t (n == 8)) 0
        (((numbered s).setCores c).updCw fun w => { w with hb := h }) t') ∧
      (88 ≤ t.toNat → t.toNat < 124 → compareDue t (n == 8) (s.perLane (windowVal s q n addr)) 0
        (((numbered s).setCores c).updCw fun w => { w with hb := h }) t')
/-- LOADS FROM GLOBAL MEMORY (R184, R187, R188, R219): where every lane's address translates, the result is outstanding with
its bytes taken; registers keep their values, and nothing changes but this warp and the memory side. A load of a peer's page
has room in the peer's queue slice (R382). LDR.use with a count of 0 is ILLEGAL. -/
def Obligations.GlobalLoads : Prop :=
  (∀ (s : State) (i : Instr) (x : LoadForm), loadForm s i = some x → s.inBundle = true → memReg true x.n x.t = true →
    evenCode x.a = true → rowsFit s (laneRows x.t (x.n == 8)) = true → streamEmpty s → (x.accesses s).faults = [] →
    LoadSrc.room { kind := x.kind, accs := (x.accesses s).accs, size := x.n } (x.accesses s).s = true →
    ∃ t' o, exec i s = .next t' ∧ memWarp s t' ∧ t'.cw.memq = [] ∧ o.id = freshId s ∧ o.mask = s.cur.mask ∧ o.dest = x.t ∧
      o.pair = (x.n == 8) ∧ o.load = some { kind := x.kind, accs := (x.accesses s).accs, size := x.n } ∧ o.unknown = false ∧
      (∀ y, destExists y = true → regAt t'.cw y = regAt s.cw y) ∧
      t'.cw.outs = (s.cw.outs.map fun p => { p with writes := p.writes.filter fun w =>
        (resultDest x.t (x.n == 8) s.cur.mask (fun _ => 0) w.dest).isNone }) ++ [o] ∧
      (x.t.toNat < 88 ∨ x.t = 124 → lanesWentOn s t' ∧ rowsBecome (laneRows x.t (x.n == 8)) s t' ∧
        t'.cw = { s.cw with lanes := t'.cw.lanes, mapped := t'.cw.mapped, outs := t'.cw.outs, hb := t'.cw.hb,
                            nextId := freshId s + 1, retired := s.cw.retired + 1 }) ∧
      (88 ≤ x.t.toNat → x.t.toNat < 124 →
        t'.cw = { s.cw with outs := t'.cw.outs, hb := t'.cw.hb, nextId := freshId s + 1,
                            parks := s.cw.parks ++ [{ mask := s.cur.mask, pc := s.cur.pc, why := .compare o.id }] })) ∧
  ∀ (s : State) (sw : Bool) (sz : Size) (d : Bool) (t a : Reg), s.inBundle = true →
    ∃ t', exec (.ldrUse sw sz d 0 t a) s = .next t' ∧ faultTaken s.cur.mask 0x01 ((s.cur.word >>> 24).setWidth 17) s.cur.pc s t'
/-- WHAT A LOAD READS (R220, R221): a lane's byte is the core's own stored byte where the pool holds one, else the byte of the
core's snapshot; with no snapshot, room for one, and none of the core's stores on their way, the byte that the home holds under the
page's key. -/
def Obligations.LoadsReadPoolSnapshotHome : Prop :=
  ∀ (s : State) (sw : Bool) (sz : Size) (q : LdgQ) (t a : Reg) (off : BitVec 6) (x : LoadForm),
    loadForm s (.ldg sw sz q t a off) = some x → s.inBundle = true → memReg true x.n t = true → evenCode a = true →
    rowsFit s (laneRows t (x.n == 8)) = true → streamEmpty s → s.mem.flights = [] → (x.accesses s).faults = [] →
    (x.accesses s).s = s → (∀ y ∈ (x.accesses s).accs, y.peer = none ∧ y.zero = false) →
    ((q ≠ .nol1 → (∀ y ∈ (x.accesses s).accs, (mFind (s.coreAt (s.block s.cw.bk).core).snaps (y.pa / 128)).isSome = true) →
      ∃ t' o, exec (.ldg sw sz q t a off) s = .next t' ∧ o ∈ t'.cw.outs ∧ o.id = freshId s ∧ t'.mem = (numbered s).mem ∧
        o.vals = (x.accesses s).accs.map fun y => (y.lane, readVal s (s.block s.cw.bk).core y x.n
          (fun p => (((mFind (s.coreAt (s.block s.cw.bk).core).snaps (p / 128)).getD []).getD (p % 128) ⟨0, 0⟩).val))) ∧
     (∀ sec, (∀ y ∈ (x.accesses s).accs, y.pa / 128 = sec) →
      (q = .nol1 ∨ (mFind (s.coreAt (s.block s.cw.bk).core).snaps sec = none ∧
        (s.coreAt (s.block s.cw.bk).core).full 1 = false)) →
      (∀ y ∈ (x.accesses s).accs, ∀ z ∈ (x.accesses s).accs, y.attr = z.attr) →
      ∃ t' o, exec (.ldg sw sz q t a off) s = .next t' ∧ o ∈ t'.cw.outs ∧ o.id = freshId s ∧
        o.vals = (x.accesses s).accs.map fun y => (y.lane, readVal s (s.block s.cw.bk).core y x.n
          (s.mem.byteUnder (s.mem.keyOf y.attr.key)))))
/-- STORES TO GLOBAL MEMORY (R184, R187, R219, R225): the operation joins the warp's stream with the bytes of its lanes, and no
byte of memory changes yet; STL is a release of its scope. A non-temporal store behind an empty stream leaves for the homes
at once; without the streaming privilege it raises PRIV. -/
def Obligations.GlobalStores : Prop :=
  ∀ (s : State) (i : Instr) (n : Nat) (t a : Reg) (addr : Nat → DWord) (nt : Bool) (rel : Option Scope),
    (∃ sw sz off, i = .stg sw sz nt t a off ∧ n = sizeBytes sz ∧ addr = gAddr s a off n ∧ rel = none) ∨
    (∃ sw b64 sc off, i = .stl sw b64 sc false t a off ∧ n = atomSize b64 ∧ addr = gAddr s a off n ∧ rel = some sc ∧ nt = false) →
    s.inBundle = true → memReg false n t = true → evenCode a = true →
    (nt = true → s.cg.stream = false → ∃ t', exec i s = .next t' ∧ faultTaken s.cur.mask 0x0E 0 s.cur.pc s t') ∧
    ((nt = true → s.cg.stream = true ∧ streamEmpty s) → (globalLanes .write n addr noCheck s).faults = [] →
      ∃ t' ws u, exec i s = .next t' ∧ u = (globalLanes .write n addr noCheck s).s ∧
        ws = laneStores s t n u.mem.nextWid (globalLanes .write n addr noCheck s).accs ∧ sameMemory u t' ∧ memWarp s t' ∧
        lanesWentOn s t' ∧ (∀ y, destExists y = true → regAt t'.cw y = regAt s.cw y) ∧
        t'.cw = { s.cw with lanes := t'.cw.lanes, outs := t'.cw.outs, memq := t'.cw.memq, hb := t'.cw.hb, ntFids := t'.cw.ntFids,
                            nextId := freshId s + 1, retired := s.cw.retired + 1 } ∧
        (nt = false → t'.cw.memq = s.cw.memq ++ [{ MemOp.blank (freshId s) u.mem.nextWid with
            ws := ws, gate := rel.map Gate.begin, rel := rel.map fun sc => (sc, u.mem.nextWid) }] ∧
          t'.mem.flights = u.mem.flights ∧ t'.cores = u.cores) ∧
        (nt = true → t'.cw.memq = [] ∧
          (∀ w ∈ ws, ∃ f ∈ t'.mem.flights, f.nt = true ∧ f.src = (s.block s.cw.bk).core ∧ f.home = homeOfWrite w ∧ w ∈ f.ws) ∧
          ∀ f ∈ t'.mem.flights, f ∈ u.mem.flights ∨ f.nt = false ∨ ∀ w ∈ f.ws, w ∈ ws))
/-- STORES TO A LOCAL SPACE (R185, R187, R233): behind an empty stream they perform at once, lane after lane; the space
changes in these bytes only. STL is a release of its scope, here of a core whose stores have arrived. -/
def Obligations.LocalStores : Prop :=
  ∀ (s : State) (i : Instr) (q : LSpace) (n : Nat) (t a : Reg) (addr : Nat → Word) (rel : Option Scope),
    (∃ sw sz q' off, i = .sts sw sz q' t a off ∧ q' ≠ .xremote ∧ q = stsSpace q' ∧ n = sizeBytes sz ∧ addr = lAddr s a off n ∧
      rel = none) ∨
    (∃ sw b64 sc off, i = .stl sw b64 sc true t a off ∧ q = .sp ∧ n = atomSize b64 ∧ addr = lAddr s a off n ∧ rel = some sc) →
    s.inBlock = true → memReg false n t = true → laneSrc a = true → streamEmpty s → windowOk s q false n addr →
    (rel.any scopeWide = true → coreQuiet s) →
    (q = .sp → noNotify s.cb fun o => ∃ l < 32, s.cur.mask.getLsbD l = true ∧ (addr l).toNat ≤ o ∧ o < (addr l).toNat + n) →
    ∃ t', exec i s = .next t' ∧ lanesWentOn s t' ∧ (∀ y, destExists y = true → regAt t'.cw y = regAt s.cw y) ∧
      t'.cw.memq = [] ∧ (∀ k, k ≠ s.cur.wk → mFind t'.warps k = mFind s.warps k) ∧
      windowBecomes s.cw.bk q ((laneLStores s t n q (s.bl.map fun l => localAcc l (addr l).toNat)).foldl
        (fun m w => memWrite m w.off w.val) (s.cb.space q)) s t'
/-- REMOTE EXCHANGE STORES (R186, R234, R244): one message for each lane sets out, no byte changes yet; a form that counts at an
object ends the region of its lanes. -/
def Obligations.RemoteStoresTravel : Prop :=
  ∀ (s : State) (sw : Bool) (sz : Size) (t a : Reg) (off : BitVec 6), s.inBundle = true →
    memReg false (sizeBytes sz) t = true → laneSrc a = true →
    (∀ l < 32, s.cur.mask.getLsbD l = true → remoteOk s s.cb (lAddr s a off (sizeBytes sz) l).toNat (sizeBytes sz) = true ∧
      (lAddr s a off (sizeBytes sz) l).toNat % sizeBytes sz = 0) →
    ∃ t', exec (.sts sw sz .xremote t a off) s = .next t' ∧ sameMemory s t' ∧ memWarp s t' ∧
      (∃ xs, t'.mem = { s.mem with xq := s.mem.xq ++ xs, nextQ := s.mem.nextQ + s.bl.length } ∧
        xs = mapIdxFrom (fun k (l : Nat) => { remoteStore s t (sizeBytes sz) (freshId s)
          (localAcc l (lAddr s a off (sizeBytes sz) l).toNat) with id := s.mem.nextQ + k }) 0 s.bl) ∧
      (∀ y, destExists y = true → regAt t'.cw y = regAt s.cw y) ∧
      (if s.bl.any fun l => decide (262144 ≤ (lAddr s a off (sizeBytes sz) l).toNat) then lanesCommitted s t' else lanesWentOn s t')
/-- ATOMICS (R189, R190, R191, R227): a global one sets out toward its home, lane by lane, and its result is outstanding; no byte
changes yet. At the scratchpad, behind an empty stream, it performs at once: here of one lane, the old value returns and the new
one stands there. Committing but for .spec of global memory. -/
def Obligations.Atomics : Prop :=
  ∀ (s : State) (sw : Bool) (aop : Aop) (u : Use) (ty : AtomTy) (sp : Bool) (t a : Reg), s.inBundle = true →
    atomCombo aop u ty = true → atomT aop (ty == .b64) t = true → (if sp then laneSrc a else evenCode a) = true →
    (u = .comm ∨ rowsFit s (laneRows t (ty == .b64)) = true) →
    (sp = false → ∀ r, r = globalLanes .write (atomSize (ty == .b64)) (fun l => s.src64 a l)
        (if u = .comm ∨ u = .spec then eccCheck .nol1 (atomSize (ty == .b64))
         else bothChecks (scopeCheck .d true) (eccCheck .nol1 (atomSize (ty == .b64)))) s → r.faults = [] →
      ∃ t', exec (.atom sw aop u ty sp t a) s = .next t' ∧ sameMemory r.s t' ∧ memWarp s t' ∧
        t'.mem.atoms = r.s.mem.atoms ++ mapIdxFrom (atomReq r.s aop (ty == .b64) u false t r.s.mem.nextWid (freshId s)
          (if u = .comm then none else some (freshId s))) 0 r.accs ∧
        (∀ y, destExists y = true → regAt t'.cw y = regAt s.cw y) ∧
        (if u = .spec then lanesWentOn s t' else lanesCommitted s t') ∧
        (u ≠ .comm → rowsBecome (laneRows t (ty == .b64)) s t' ∧ ∃ o ∈ t'.cw.outs, o.id = freshId s ∧ o.waitAtom = true ∧
          o.mask = s.cur.mask ∧ o.dest = t) ∧
        (u = .comm → rowsBecome [] s t' ∧ t'.cw.outs.length = s.cw.outs.length)) ∧
    (sp = true → ∀ l, s.inBlock = true → s.cur.mask = laneBit l → l < 32 → streamEmpty s →
      windowOk s .sp true (atomSize (ty == .b64)) (fun l => s.src a l) →
      noNotify s.cb (fun o => (s.src a l).toNat ≤ o ∧ o < (s.src a l).toNat + atomSize (ty == .b64)) →
      ∃ t' old, exec (.atom sw aop u ty sp t a) s = .next t' ∧
        old = windowVal s .sp (atomSize (ty == .b64)) (fun l => s.src a l) l ∧
        windowBecomes s.cw.bk .sp (match atomNew aop (ty == .b64) old (atomArgs s aop (ty == .b64) t l).1
            (atomArgs s aop (ty == .b64) t l).2 with
          | some v => memWriteBytes s.cb.sp (s.src a l).toNat (leBytes v.toNat (atomSize (ty == .b64)))
          | none => s.cb.sp) s t' ∧
        (∀ y, destExists y = true → regAt t'.cw y = regAt s.cw y) ∧ lanesCommitted s t' ∧
        (u ≠ .comm → ∃ o ∈ t'.cw.outs, o.id = freshId s ∧ o.unknown = false ∧ o.mask = s.cur.mask ∧
          ∀ x, pendingWrite [o] x = resultDest t (ty == .b64) s.cur.mask (fun _ => old) x))
/-- FAULTS OF ACCESSES (R179, R182, R183, R240): in the order of the rows, an address that is no multiple of the size raises
ALIGN, one beyond the address space PAGE, one that the page's leaf forbids PROT; a place outside a local space raises BUFACC
with the space, and FADDR is the lowest lane's address. -/
def Obligations.AccessFaults : Prop :=
  (∀ (s : State) (i : Instr) (k : Acc) (n : Nat) (addr : Nat → DWord), globalAccess s i = some (true, k, n, addr) →
    s.inBundle = true →
    ((∀ l < 32, s.cur.mask.getLsbD l = true → (addr l).toNat % n ≠ 0) →
      ∃ t, exec i s = .next t ∧ faultTaken s.cur.mask 0x03 (BitVec.ofNat 17 n) (addr (lowLane s.cur.mask)) s t) ∧
    ((∀ l < 32, s.cur.mask.getLsbD l = true → (addr l).toNat % n = 0 ∧ 2 ^ 55 ≤ (addr l).toNat) →
      ∃ t, exec i s = .next t ∧ faultTaken s.cur.mask 0x07 (if k = .write then 1 else 0) (addr (lowLane s.cur.mask)) s t) ∧
    ((∀ l < 32, s.cur.mask.getLsbD l = true → (addr l).toNat % n = 0 ∧ (addr l).toNat < 2 ^ 55 ∧ ∃ e : TlbEntry,
        tlbFind (s.coreAt s.cur.core).tlb s.cb.part (addr l).toNat = some e ∧
        (if k = .write then e.leaf.getLsbD 2 = false ∧ e.leaf.getLsbD 5 = true else e.leaf.getLsbD 1 = false)) →
      ∃ t, exec i s = .next t ∧ faultTaken s.cur.mask 0x08 (if k = .write then 1 else 0) (addr (lowLane s.cur.mask)) s t)) ∧
  ∀ (s : State) (i : Instr) (q : LSpace) (n : Nat) (addr : Nat → Word), localAccess s i = some (true, q, n, addr) →
    s.inBundle = true →
    ((∀ l < 32, s.cur.mask.getLsbD l = true → s.cb.windowSize q < (addr l).toNat + n) →
      ∃ t, exec i s = .next t ∧ faultTaken s.cur.mask 0x0D (BitVec.ofNat 17 (spaceNo q))
        ((addr (lowLane s.cur.mask)).setWidth 64) s t) ∧
    ((∀ l < 32, s.cur.mask.getLsbD l = true → (addr l).toNat + n ≤ s.cb.windowSize q ∧ (addr l).toNat % n ≠ 0) →
      ∃ t, exec i s = .next t ∧ faultTaken s.cur.mask 0x03 (BitVec.ofNat 17 n) ((addr (lowLane s.cur.mask)).setWidth 64) s t)

/-! ### Rings, tickets, yard -/
/-- CPWP, CPWAIT, CPSTAT (R279, R238, R267). The write pointer, or C and the pending count with the flags, is the result,
outstanding but for CPWAIT's; CPWP and CPWAIT drop the core's snapshots. A CPWAIT whose pointer falls short waits while its
channel is busy. -/
def Obligations.RingPointers : Prop :=
  ∀ (s : State) (sw : Bool) (ch : BitVec 3) (d a : Reg) (c : Chan), s.inBundle = true → uniCode d = true → uniCode a = true →
    c = s.chan s.cw.bk ch.toNat →
    (∃ k t, exec (.cpwp sw ch d) s = .next t ∧ coresDropped s.cur.core true s (s.setCores k) ∧
      (d.toNat < 108 ∨ d = 124 → resultDue (resultDest d false s.cur.mask fun _ => z64 c.wp) [] 0 (s.setCores k) t) ∧
      (108 ≤ d.toNat → d ≠ 124 → compareDue d false [(lowLane s.cur.mask, z64 c.wp)] 0 (s.setCores k) t)) ∧
    (c.cmds = [] ∨ (c.wp - s.usrc a).toNat < 2 ^ 31 → ∃ k t, exec (.cpwait sw ch d a) s = .next t ∧
      coresDropped s.cur.core true s (s.setCores k) ∧
      (d.toNat < 108 ∨ d = 124 → resultNow d false (fun _ => z64 c.wp) 0 (s.setCores k) t) ∧
      (108 ≤ d.toNat → d.toNat < 116 → s.inBlock = true → s.cw.isWave = false → bankTakes (scopedOf s s.cb d.toNat) c.wp →
        bankNow d false (z64 c.wp) 0 (s.setCores k) t) ∧
      (116 ≤ d.toNat → d ≠ 124 → s.cw.isWave = false ∨ 120 ≤ d.toNat →
        bankSent d false none [(lowLane s.cur.mask, z64 c.wp)] 0 (s.setCores k) t)) ∧
    (c.cmds ≠ [] → 2 ^ 31 ≤ (c.wp - s.usrc a).toNat → ∃ t, exec (.cpwait sw ch d a) s = .next t ∧
      parkedFor (.cpwait ch.toNat (s.usrc a) d) s t) ∧
    (evenCode d = true → ∃ t v, exec (.cpstat sw ch d) s = .next t ∧ v.setWidth 32 = c.c ∧ v.toNat / 2 ^ 32 < 2 ^ 12 ∧
      v.toNat / 2 ^ 32 % 2 ^ 9 = (c.t - c.c).toNat % 2 ^ 9 ∧ v.getLsbD 41 = c.cmds.head?.any (·.parked) ∧
      v.getLsbD 42 = c.cmds.head?.any (·.held.isSome) ∧ v.getLsbD 43 = decide (c.log2 ≠ 0) ∧
      (d.toNat < 108 ∨ d = 124 → resultDue (resultDest d true s.cur.mask fun _ => v) [] 0 s t) ∧
      (108 ≤ d.toNat → d ≠ 124 → compareDue d true [(lowLane s.cur.mask, v)] 0 s t))
/-- MXSTAT, CXSTAT, CXRESET (R306, R358, R359). Each completes whatever the ticket. MXSTAT reports a job with its bank, its
reload, its effective priority and its counts, STATE 0 or 1 while it stands; the last job completed in its entry with STATE 2;
else STATE 3. CXSTAT reports a collective with STATE 0 or 1 while it stands, with STATE 2 and its status when it is among the
last completed of its slot, else STATE 3. A report of completion drops the core's snapshots (R226). CXRESET ends what the slot
has outstanding, and clears FAULTED and the sequence number; a slot of another partition, or none, raises ENGINE. -/
def Obligations.TicketReports : Prop :=
  ∀ (s : State) (sw : Bool) (d a : Reg), s.inBundle = true → warpOrZ d = true → evenCode d = true → uniCode a = true →
    let job : Option (Job × MxJob) := (s.quad s.cq).mxJobs.find? fun jm =>
      jm.2.entry == bitsAt (s.usrc a) 0 6 && jm.2.serial % 2 ^ 19 == bitsAt (s.usrc a) 6 19
    let coll : Option Coll := (s.die (dieOf s.cur.core)).colls.find? fun x =>
      x.slot == bitsAt (s.usrc a) 24 6 && x.q % 2 ^ 24 == bitsAt (s.usrc a) 0 24
    let old := (slotAt s (dieOf s.cur.core) (bitsAt (s.usrc a) 24 6)).last.find? fun x => x.1 % 2 ^ 24 == bitsAt (s.usrc a) 0 24
    (∃ (k : Map Core) (t : State) (lo hi : Word), exec (.mxstat sw d a) s = .next t ∧
      resultDue (resultDest d true s.cur.mask fun _ => (hi ++ lo : BitVec 64)) [] 0 (s.setCores k) t ∧
      coresDropped s.cur.core (lo.toNat % 4 == 2) s (s.setCores k) ∧
      (bitsAt (s.usrc a) 25 7 ≠ s.cq → lo = 3 ∧ hi = 0) ∧
      (bitsAt (s.usrc a) 25 7 = s.cq →
        (∀ j m, job = some (j, m) →
          lo = BitVec.ofNat 32 ((if j.admitted then 1 else 0) + (if m.reloads then 8 else 0) + 16 * m.bank +
            256 * (if j.admitted then effPrio m else 0)) ∧ hi = BitVec.ofNat 32 (65536 * m.stalled + m.rows)) ∧
        (job = none → hi = 0 ∧
          (∀ x, mFind (s.quad s.cq).lastDone (bitsAt (s.usrc a) 0 6) = some x → x.serial % 2 ^ 19 = bitsAt (s.usrc a) 6 19 →
            lo = BitVec.ofNat 32 (2 + (if x.failed then 4 else 0) + (if x.reloads then 8 else 0) + 16 * x.bank)) ∧
          ((∀ x, mFind (s.quad s.cq).lastDone (bitsAt (s.usrc a) 0 6) = some x → x.serial % 2 ^ 19 ≠ bitsAt (s.usrc a) 6 19) →
            lo = 3)))) ∧
    (∃ (k : Map Core) (t : State) (st q : Nat), exec (.cxstat sw d a) s = .next t ∧
      resultDue (resultDest d true s.cur.mask fun _ => (BitVec.ofNat 32 q ++ BitVec.ofNat 32 st : BitVec 64)) [] 0
        (s.setCores k) t ∧
      coresDropped s.cur.core (st % 4 == 2) s (s.setCores k) ∧
      (bitsAt (s.usrc a) 30 2 ≠ dieOf s.cur.core → st = 3 ∧ q = 0) ∧
      (bitsAt (s.usrc a) 30 2 = dieOf s.cur.core →
        (∀ x, coll = some x → st = (if x.phase = 0 ∧ x.begun = false then 0 else 1) ∧ q = x.q) ∧
        (coll = none → (∀ y, old = some y → st = 2 + 256 * y.2.1 ∧ q = y.1) ∧ (old = none → st = 3 ∧ q = 0)))) ∧
    (∀ n g, (s.usrc a).toNat = n → n < 64 → (slotAt s (dieOf s.cur.core) n).cfg = some g → g.part = s.cb.part →
      (∃ t, exec (.cxreset sw a) s = .next t ∧ (slotAt t (dieOf s.cur.core) n).faulted = false ∧
        (slotAt t (dieOf s.cur.core) n).seq = 0) ∧
      ((∀ x ∈ (s.die (dieOf s.cur.core)).colls, x.slot ≠ n) →
        ∃ m t, exec (.cxreset sw a) s = .next t ∧ wentOn (s.setDies m) t ∧
          slotAt t (dieOf s.cur.core) n = { slotAt s (dieOf s.cur.core) n with faulted := false, seq := 0, silent := [] } ∧
          (∀ k, k ≠ n → slotAt t (dieOf s.cur.core) k = slotAt s (dieOf s.cur.core) k) ∧
          (t.die (dieOf s.cur.core)).colls = (s.die (dieOf s.cur.core)).colls)) ∧
    (64 ≤ (s.usrc a).toNat ∨ (∀ g, (slotAt s (dieOf s.cur.core) (s.usrc a).toNat).cfg = some g → g.part ≠ s.cb.part) →
      ∃ t, exec (.cxreset sw a) s = .next t ∧ faultTaken s.cur.mask 0x11 0x53 s.cur.pc s t)
/-- POSTS (R312, R332, R304, R305, R289, R355, R356). A record that its checks accept enters the task pool, the matrix
engine's entries or the collective slot's order, and the id or ticket is the result; with every entry taken the bundle
waits with it. A record that they refuse raises ENGINE with the first check's number, and nothing enters. -/
def Obligations.PostsEnter : Prop :=
  ∀ (s u : State) (sw : Bool) (d a : Reg) (r : List Word), s.inBundle = true → warpOrZ d = true → uniCode a = true →
    evenCode a = true →
    (recordRead 32 32 a r s u → memSide s u ∧
      (taskCheck u r = none →
        (∀ e < 512, (∀ x ∈ (u.quad u.cq).tasks, x.slot ≠ e) → (∀ f < e, ∃ x ∈ (u.quad u.cq).tasks, x.slot = f) →
          ∃ t, exec (.tkpost sw d a) s = .next t ∧
            resultDueB (resultDest d false s.cur.mask fun _ => z64 (taskOf u r e).id) (taskStands r e u) t) ∧
        ((∀ e < 512, ∃ x ∈ (u.quad u.cq).tasks, x.slot = e) →
          ∃ t, exec (.tkpost sw d a) s = .next t ∧ parkedFor (.poolEntry r d) u t)) ∧
      (∀ n, taskCheck u r = some n → ∃ t, exec (.tkpost sw d a) s = .next t ∧
        faultTaken s.cur.mask 0x11 (BitVec.ofNat 17 n) s.cur.pc u t)) ∧
    (recordRead 64 64 a r s u → memSide s u ∧
      (kCheck u u.cb r = none →
        (∀ e < 64, (∀ x ∈ (u.quad u.cq).mxJobs, x.2.entry ≠ e) → (∀ f < e, ∃ x ∈ (u.quad u.cq).mxJobs, x.2.entry = f) →
          ∃ t, exec (.mxpost sw d a) s = .next t ∧ resultDueB (resultDest d false s.cur.mask fun _ =>
            z64 (BitVec.ofNat 32 (2 ^ 25 * u.cq + 2 ^ 6 * ((u.quad u.cq).arrived % 2 ^ 19) + e)))
            (mxArrive false u.cb r (s.usrc64 a) e u) t) ∧
        ((∀ e < 64, ∃ x ∈ (u.quad u.cq).mxJobs, x.2.entry = e) →
          ∃ t, exec (.mxpost sw d a) s = .next t ∧ parkedFor (.mxEntry r (s.usrc64 a) d) u t)) ∧
      (∀ n, kCheck u u.cb r = some n → ∃ t, exec (.mxpost sw d a) s = .next t ∧
        faultTaken s.cur.mask 0x11 (BitVec.ofNat 17 n) (s.usrc64 a) u t) ∧
      (xCheck u u.cb r = none → (slotAt u (dieOf u.cb.core) (xSlot r)).faulted = false → u.cb.core = u.cur.core →
        ∃ t, exec (.cxpost sw d a) s = .next t ∧ resultDueB (resultDest d false s.cur.mask fun _ =>
          z64 (BitVec.ofNat 32 (2 ^ 30 * dieOf u.cur.core + 2 ^ 24 * xSlot r +
            (slotAt u (dieOf u.cur.core) (xSlot r)).seq % 2 ^ 24))) (collArrive u.cb r u) t ∧
          (slotAt t (dieOf u.cur.core) (xSlot r)).seq = ((slotAt u (dieOf u.cur.core) (xSlot r)).seq + 1) % 2 ^ 32) ∧
      (∀ n, xCheck u u.cb r = some n → ∃ t, exec (.cxpost sw d a) s = .next t ∧
        faultTaken s.cur.mask 0x11 (BitVec.ofNat 17 n) s.cur.pc u t))
/-- COUNTERS AND THE DISTRIBUTOR'S QUEUE (R309, R311, R333, R334, R335, R319). TKSIG counts down or sets, behind its release, here as
the first set of the counter in its cycle;
TKJOIN returns at zero and waits else; TKREAD reads; WDQ joins a queue of at most 1,024,
behind an earlier one of its warp that waits for room. A counter of another partition and
an id beyond 2,047 raise ENGINE. -/
def Obligations.CounterInstructions : Prop :=
  ∀ (s : State) (sw : Bool) (d a b : Reg) (n : Nat) (x : Ctr), s.inBundle = true → uniCode a = true →
    (s.usrc a).toNat = n → x = s.ctr s.cq n →
    (n < 2048 → x.owner = some s.cb.part →
      (uniCode b = true → streamEmpty s → coreQuiet s →
        (0 < (s.usrc b).toNat → (s.usrc b).toNat < 65536 → (s.usrc b).toNat < x.value.toNat → mFind (s.quad s.cq).sets n = none → ∃ k g t,
          exec (.tksig sw false a b) s = .next t ∧ coresDropped s.cur.core false s (s.setCores k) ∧ committed (fun _ => none) 0
            (counterBecomes n { x with value := x.value - s.usrc b, hb := g } (settled (s.setCores k))) t) ∧
        (s.usrc b ≠ 0 → mFind (s.quad s.cq).sets n = none → ∃ k g t, exec (.tksig sw true a b) s = .next t ∧ coresDropped s.cur.core false s (s.setCores k) ∧
          committed (fun _ => none) 0
            (counterBecomes n { x with value := s.usrc b, failed := false, failId := 0xFFFFFFFF, hb := g }
              ((settled (s.setCores k)).updQuad s.cq fun q =>
                { q with sets := mSet q.sets n { pre := { x with hb := g }, key := bundleOrder s } })) t)) ∧
      (uniCode b = true → s.usrc b = 0 ∨ 65535 < (s.usrc b).toNat →
        ∃ t, exec (.tksig sw false a b) s = .next t ∧ faultTaken s.cur.mask 0x11 0x44 s.cur.pc s t) ∧
      (warpOrZ d = true → evenCode d = true →
        (x.value = 0 → ∃ k h t, exec (.tkjoin sw d a) s = .next t ∧ coresDropped s.cur.core true s (s.setCores k) ∧
          resultNow d true (fun _ => (x.failId ++ (if x.failed then 1#32 else 0#32) : BitVec 64)) 0
            ((s.setCores k).updCw fun w => { w with hb := h }) t) ∧
        (x.value ≠ 0 → ∃ t, exec (.tkjoin sw d a) s = .next t ∧ parkedFor (.tkjoin n d) s t) ∧
        ∀ fail : Bool, ∃ t, exec (.tkread sw fail d a) s = .next t ∧ resultDue (resultDest d true s.cur.mask fun _ =>
          ((if x.failed then 1#32 else 0#32) ++ (if fail then x.failId else x.value) : BitVec 64)) [] 0 s t)) ∧
    (warpOrZ d = true → evenCode d = true → ∀ (m : Nat), (m = 0x45 ∧ 2048 ≤ n) ∨ (m = 0x41 ∧ n < 2048 ∧ x.owner ≠ some s.cb.part) →
      ∀ i ∈ [Instr.tksig sw false a 92, .tkjoin sw d a, .tkread sw false d a], ∃ t, exec i s = .next t ∧
        faultTaken s.cur.mask 0x11 (BitVec.ofNat 17 m) s.cur.pc s t) ∧
    (uniCode d = true → evenCode a = true → uniCode b = true → evenCode b = true → streamPending s s.cur.wk = false →
      (s.usrc d).toNat % 8 = 0 → (s.usrc d).toNat + 8 ≤ s.cb.spSize → (s.usrc64 a).toNat % 64 = 0 →
      localAlias (s.usrc64 a) = false → ∀ comp, comp = (if b = 124 then none else some (s.usrc b, s.usrc (b + 1))) →
      (s.wd.queries.length < 1024 → (∀ p ∈ s.cw.parks, p.why.wdWaits = false) → ∃ t, exec (.wdq sw d a b) s = .next t ∧ committed (fun _ => none) 0
        (queryJoins (s.usrc64 a).toNat (s.usrc d).toNat comp s) t) ∧
      (1024 ≤ s.wd.queries.length ∨ (∃ p ∈ s.cw.parks, p.why.wdWaits = true) → ∃ t, exec (.wdq sw d a b) s = .next t ∧
        parkedFor (.wdRoom (s.usrc64 a).toNat (s.usrc d).toNat comp) s t))

/-! ### Memory events -/
/-- STEPS OF THE ORDERING MACHINE (R218, R219, R222, R369, R371), each with a next state. PERFORM_STORE: a store that nothing holds
back enters the core's pool, which has room, and one behind another operation waits. EVICT sends a sector's dirty bytes out and drops
its snapshot. ARRIVE: one write of a flight whose turn it is reaches its home, or its request reaches the peer. DROP forgets a
snapshot. LLC_FILL: a line leaves its set for another's fill, first for replacement there, its dirty bytes written back.
Only ARRIVE changes what a home reads. -/
def Obligations.OrderingSteps : Prop :=
  (∀ (s : State) (wk core : Nat) (o : MemOp) (rest : List MemOp), (mFind s.warps wk).isSome = true →
    core = (s.block (s.warp wk).bk).core →
    o.fence = false → o.gate = none → o.acq = none → o.roinv = false → o.lws = [] → o.load = none → o.nt = false →
    o.isLocal = false →
    ((s.warp wk).memq = o :: rest → o.atomAhead wk s = false → hbHeld s wk o.wid = false →
      (s.coreAt core).full (o.ws.map fun w => w.key / 128).dedup.length = false →
      ∃ t, exec (.performStore wk 0) s = .next t ∧ sameMemory s t ∧
        (t.warp wk).memq = rest.filter (fun x => x.id != o.id) ∧ (t.coreAt core).snaps = (s.coreAt core).snaps ∧
        ∀ k, mFind (t.coreAt core).pool k = match o.ws.reverse.find? fun w => w.key == k with
          | some w => some { val := w.val, wid := w.wid, attr := w.attr, peer := w.peer }
          | none => mFind (s.coreAt core).pool k) ∧
    (∀ p, (s.warp wk).memq = p :: o :: rest → p.id ≠ o.id → p.load = none →
      exec (.performStore wk 1) s = .next s)) ∧
  (∀ (s : State) (core sec : Nat), ∃ t, exec (.evict core sec) s = .next t ∧ sameMemory s t ∧
    (∀ k, mFind (t.coreAt core).pool k = if k / 128 = sec then none else mFind (s.coreAt core).pool k) ∧
    ((∀ kb ∈ (s.coreAt core).pool, pkey kb.2.peer (kb.1 % 2 ^ 52) = kb.1) →
      ∀ x, mFind (t.coreAt core).snaps x = if x = sec ∧ (s.coreAt core).pool.any (fun kb => kb.1 / 128 == sec) = true then none
        else mFind (s.coreAt core).snaps x) ∧
    (∀ kb ∈ (s.coreAt core).pool, kb.1 / 128 = sec → ∃ f ∈ t.mem.flights, f.src = core ∧ f.nt = false ∧
      ∃ w ∈ f.ws, w.pa = kb.1 % 2 ^ 52 ∧ w.val = kb.2.val ∧ w.wid = kb.2.wid ∧ w.peer = kb.2.peer ∧ f.home = homeOfWrite w) ∧
    ∀ f ∈ s.mem.flights, f ∈ t.mem.flights) ∧
  (∀ (s : State) (f : Flight), s.mem.flights.find? (fun g => g.fid == f.fid) = some f → flightFirst s f = true →
    (f.peer = none → f.ws ≠ [] → (∀ w ∈ f.ws, w.peer = none ∧ s.mem.superseded w.pa w.wid = false) →
      ∃ t i w, exec (.arrive f.fid) s = .next t ∧ f.ws[i]? = some w ∧
        t.mem.flights = (if f.ws.length = 1 then s.mem.flights.filter fun g => g.fid != f.fid
          else s.mem.flights.map fun g => if g.fid = f.fid then { g with ws := f.ws.eraseIdx i } else g) ∧
        (∀ k pa, pa / 128 ≠ w.pa / 128 ∨ k = s.mem.keyOf w.attr.key →
          t.mem.byteUnder k pa = if pa = w.pa then w.val else s.mem.byteUnder k pa) ∧
        t.warps = s.warps ∧ t.blocks = s.blocks ∧ t.cores = s.cores) ∧
    (∀ p, f.peer = some p → (∀ x ∈ s.host.posted, x.1 ≠ f.fid) →
      ∃ t, exec (.arrive f.fid) s = .next t ∧ t.mem.flights = (s.mem.flights.filter fun g => g.fid != f.fid) ∧ sameMemory s t ∧
        (s.mem.cutOff p = false → t.host.out = s.host.out ++ [.writeToPeer p (f.ws.map fun w => (w.pa, w.val))]) ∧
        (s.mem.cutOff p = true → t.host.out = s.host.out ∧
          (mGet t.mem.peers Peer.init p).lost = (mGet s.mem.peers Peer.init p).lost + 1))) ∧
  (∀ (s : State) (unit sec : Nat),
    (∃ t, exec (.drop false unit sec) s = .next t ∧ sameMemory s t ∧ (t.coreAt unit).pool = (s.coreAt unit).pool ∧
      ∀ x, mFind (t.coreAt unit).snaps x = if x = sec then none else mFind (s.coreAt unit).snaps x) ∧
    ∃ t, exec (.drop true unit sec) s = .next t ∧ sameMemory s t ∧
      ∀ x, mFind (t.quad unit).roSnaps x = if x = sec then none else mFind (s.quad unit).roSnaps x) ∧
  ∀ (s : State) (line victim : Nat) (l : Line), mFind s.mem.lines line = some l →
    (∀ v, mFind s.mem.lines victim = some v → line ≠ victim → sameSet victim line = true →
      (mGet s.mem.ways 0xFFFF l.way).getLsbD v.slot = true →
      (∀ x ∈ s.mem.lines, x.1 ≠ line → sameSet x.1 line = true → (mGet s.mem.ways 0xFFFF l.way).getLsbD x.2.slot = true →
        polRank v.pol ≤ polRank x.2.pol) →
      ∃ t, exec (.llcFill line victim) s = .next t ∧ sameMemory s t ∧
        ∀ x, mFind t.mem.lines x = if x = victim then none else mFind s.mem.lines x) ∧
    ((∀ x ∈ s.mem.lines, x.1 = victim → (mGet s.mem.ways 0xFFFF l.way).getLsbD x.2.slot = false) →
      exec (.llcFill line victim) s = .next s)
/-- ATOMICS AT THEIR HOME (R190, R191, R227, R228, R258): an atomic that nothing holds back, and whose checks find no fault, reads the
home's bytes and writes what its operation makes of them as one change, with the .comm sums combined with it; the old value
goes to its result. Here of cores with no store on their way. -/
def Obligations.AtomicsAtTheHome : Prop :=
  ∀ (s : State) (a : AtomReq) (ms : List AtomReq) (n : Nat) (old : DWord), s.mem.atoms.find? (fun x => x.id == a.id) = some a →
    atomReady s a = true → a.out = none ∨ atomFault a s = none → a.loc = false → a.use ≠ .quantum → a.acc.peer = none →
    n = atomSize a.b64 → a.acc.pa % n = 0 → ms = commMates a s →
    (∀ x ∈ a :: ms, (s.coreAt x.core).pool = []) → s.mem.flights = [] →
    (∀ l, mFind s.mem.lines (a.acc.pa / 1024) = some l → l.use = none) →
    old = BitVec.ofNat 64 (leNat ((rangeFrom a.acc.pa n).map (s.mem.byteUnder (s.mem.keyOf a.acc.attr.key)))) →
    ∃ t, exec (.atomicPerformAtHome a.id) s = .next t ∧
      t.mem.atoms = (s.mem.atoms.filter fun x => !(a :: ms).any fun y => y.id == x.id) ∧
      (∀ pa, t.mem.byteUnder (s.mem.keyOf a.acc.attr.key) pa =
        (if a.acc.pa ≤ pa ∧ pa < a.acc.pa + n then
          (match combinedNew a ms old with
           | some v => (leBytes v.toNat n).getD (pa - a.acc.pa) 0
           | none => s.mem.byteUnder (s.mem.keyOf a.acc.attr.key) pa)
         else s.mem.byteUnder (s.mem.keyOf a.acc.attr.key) pa)) ∧
      (∀ bk q o, memRead ((t.block bk).space q) o = memRead ((s.block bk).space q) o) ∧
      ∀ id, a.out = some id → (mFind s.warps a.wk).isSome = true → (t.warp a.wk).outs = (s.warp a.wk).outs.map fun o =>
        if o.id = id then { o with
          waitAtom := t.mem.atoms.any (fun x => x.wk == a.wk && x.out == some id),
          writes := refreshWrites o.writes (laneWrites a.dest a.b64 [(a.acc.lane, old)]) } else o

/-! ### Events of the lane engine -/
/-- OUTSTANDING RESULTS AND ARRIVALS (R49, R51, R123, R124, R127, R186). A result returns: its registers take their values,
or, when it is one to be compared, its bundle's instruction ends: with agreed values the registers take those that no later
issue has written, lanes that disagree fault. A write arrives at its back bank, whose bundle then goes on with its flags raised,
or faults. A remote store's bytes arrive in the target's exchange bank. -/
def Obligations.ReturnsAndArrivals : Prop :=
  (∀ (s : State) (wk id : Nat) (late : Bool) (o : Out), readyOut s wk id = some o → (late = true → o.resamples = false) →
    (mFind s.warps wk).isSome = true →
    (o.agree = false → (s.warp wk).lanes.length = 32 → (o.writes.map (·.dest)).Nodup →
      (∀ x ∈ o.writes, destExists x.dest = true ∧ ∀ p l, x.dest = .pred p l → x.val = 0 ∨ x.val = 1) →
      ∃ t, exec (.outstandingResultReturn wk id late) s = .next t ∧ t = s.setWarps t.warps ∧
        (∀ k, k ≠ wk → mFind t.warps k = mFind s.warps k) ∧
        (t.warp wk).outs = (s.warp wk).outs.filter (fun x => x.id != o.id) ∧
        (t.warp wk).fpflags = (s.warp wk).fpflags ||| o.flags ∧
        (∀ l, ((t.warp wk).lane l).pc = ((s.warp wk).lane l).pc) ∧
        ∀ x, destExists x = true →
          regAt (t.warp wk) x = ((o.writes.find? fun y => y.dest == x).map (·.val)).getD (regAt (s.warp wk) x)) ∧
    (o.agree = true → ∀ (p : Park) (u : State) (f : Nat → DWord),
      (s.warp wk).parks.find? (fun p => p.why == .compare o.id) = some p →
      u = resumed wk p (s.updWarp wk fun w => { w with outs := w.outs.filter fun x => x.id != o.id }) →
      u.inBundle = true → o.vals = u.perLane f → (o.pair = true → o.dest.toNat % 2 = 0) →
      88 ≤ o.dest.toNat → o.dest.toNat < 108 →
      (takesNow u o.dest o.pair f → o.fin = Ending.plain → (o.writes.map (·.dest)).Nodup →
        (∀ x ∈ o.writes, destExists x.dest = true ∧ ∀ p l, x.dest ≠ .pred p l) →
        ∃ v, exec (.outstandingResultReturn wk id late) s = .next (v.setCur s.cur) ∧
          onlyWarp u v ∧ sameMemory u v ∧ warpWentOn o.flags u v ∧ lanesWentOn u v ∧ v.cw.outs = u.cw.outs ∧ rowsBecome [] u v ∧
          ∀ x, destExists x = true →
            regAt v.cw x = ((o.writes.find? fun y => y.dest == x).map (·.val)).getD (regAt u.cw x)) ∧
      ∀ l k, 92 ≤ o.dest.toNat → l < 32 → k < 32 → u.cur.mask.getLsbD l = true → u.cur.mask.getLsbD k = true → f l ≠ f k →
        ∃ v, exec (.outstandingResultReturn wk id late) s = .next (v.setCur s.cur) ∧
          faultTaken u.cur.mask 0x04 (o.dest.setWidth 17) u.cur.pc u v)) ∧
  (∀ (s : State) (x : BankWrite) (p : Park) (u : State), s.mem.bankq.find? (fun y => y.id == x.id) = some x →
    bankFirst s x = true → (s.warp x.wk).parks.find? (fun p => p.why == .bank x.id) = some p →
    u = resumed x.wk p (s.updMem fun m => { m with bankq := m.bankq.filter fun y => y.id != x.id }) → u.inBundle = true →
    (x.red = none → x.pair = false → x.fin = Ending.plain → ∀ w : Word, w = ((x.vals.headD (0, 0)).2).setWidth 32 →
      bankTakes (scopedOf u u.cb x.code.toNat) w →
      ∃ v b, exec (.backBankArrival x.id) s = .next (v.setCur s.cur) ∧
        b = setScoped u u.cb x.code.toNat (bankAgreed (scopedOf u u.cb x.code.toNat) w) ∧ onlyWarp b v ∧ sameMemory b v ∧
        warpWentOn x.flags b v ∧ lanesWentOn b v ∧ registersBecome (fun _ => none) b v ∧ rowsBecome [] b v) ∧
    (x.red = none → x.pair = false → ∀ w : Word, w = ((x.vals.headD (0, 0)).2).setWidth 32 →
      (scopedOf u u.cb x.code.toNat).mode = .agreed → (scopedOf u u.cb x.code.toNat).back ≠ w →
      ∃ v, exec (.backBankArrival x.id) s = .next (v.setCur s.cur) ∧
        faultTaken u.cur.mask 0x04 (x.code.setWidth 17) u.cur.pc u v) ∧
    ∀ (k : RedKind) (r : ScopedReg), x.red = some k → x.fin = Ending.commit →
      bankReduce (scopedOf u u.cb x.code.toNat) k (x.vals.map fun v => v.2.setWidth 32) = .ok r →
      ∃ v, exec (.backBankArrival x.id) s = .next (v.setCur s.cur) ∧
        committed (fun _ => none) 0 (setScoped u u.cb x.code.toNat r) v) ∧
  ∀ (s : State) (x : XStore), s.mem.xq.find? (fun y => y.id == x.id) = some x → xstoreFirst s x = true →
    (mFind s.blocks x.toBk).isSome = true → ∃ t, exec (.exchangeStoreArrival x.id) s = .next t ∧
      t.mem = { s.mem with xq := s.mem.xq.filter fun y => y.id != x.id } ∧
      (∀ o, memRead (t.block x.toBk).xback o = if x.off ≤ o ∧ o < x.off + x.data.length then x.data.getD (o - x.off) 0
        else memRead (s.block x.toBk).xback o) ∧
      (∀ k, k ≠ x.toBk → mFind t.blocks k = mFind s.blocks k) ∧
      (x.slot = 0 → t.warps = s.warps ∧ (t.block x.toBk).sp = (s.block x.toBk).sp) ∧
      (x.slot ≠ 0 → (t.block x.toBk).obj (16 * x.slot) = (((s.block x.toBk).obj (16 * x.slot)).deliver x.data.length).1)
/-- BARRIERS, WAITM AND REFILL (R15, R16, R109, R112, R200, R201, R313). A barrier that every warp has reached publishes the
banks and lets the lanes go, with their yield bits clear (a cluster barrier here of warps with nothing on its way). A WAITM at the scratchpad
that reads a word meeting its condition goes on. A REFILL's answer fills vacant lanes with ready tasks, in their order. -/
def Obligations.BarriersAndRefills : Prop :=
  (∀ (s : State) (bk : Nat) (cluster : Bool) (bks : List Nat), bks = barrierBlocks s bk cluster → bks.Nodup →
    barrierReady s bk cluster = true → (∀ k ∈ bks, (mFind s.blocks k).isSome = true) → (s.warps.map (·.1)).Nodup →
    (cluster = true → s.mem.flights = [] ∧ (∀ k, (s.coreAt k).pool = []) ∧ ∀ kw ∈ barrierWarps s bks, streamWids s kw.1 = []) →
    ∃ t, exec (.barrierCompletion bk cluster) s = .next t ∧ t.mem = s.mem ∧ t.cur = s.cur ∧
      (∀ k ∈ bks, t.block k = { s.block k with bregs := (s.block k).bregs.map fun kr => (kr.1, publish kr.2), bphase := (s.block k).bphase + 1, xfront := if cluster then (s.block k).xback else (s.block k).xfront }) ∧
      (∀ k, k ∉ bks → mFind t.blocks k = mFind s.blocks k) ∧
      (cluster = true → (t.cluster (s.block bk).ck).cregs =
        (s.cluster (s.block bk).ck).cregs.map fun kr => (kr.1, publish kr.2)) ∧
      (∀ kw ∈ barrierWarps s bks, (t.warp kw.1).parks = kw.2.parks.filter (fun p => p.why != .bar cluster) ∧
        (t.warp kw.1).vregs = kw.2.vregs ∧ (t.warp kw.1).sregs = kw.2.sregs ∧ (t.warp kw.1).wregs = kw.2.wregs ∧
        ∀ l, ((t.warp kw.1).lane l).pc = (kw.2.lane l).pc ∧ ((t.warp kw.1).lane l).st = (kw.2.lane l).st ∧
          ((t.warp kw.1).lane l).yld = false) ∧
      ∀ k, (∀ kw ∈ barrierWarps s bks, kw.1 ≠ k) → mFind t.warps k = mFind s.warps k) ∧
  (∀ (s : State) (wk g off : Nat) (p : Park) (c : Cond) (v : Word), (s.warp wk).parks[g]? = some p →
    p.why = .waitm true (localAcc 0 off) c v → betweenTurns s (s.block (s.warp wk).bk).core (s.block (s.warp wk).bk).part = true →
    off % 4 = 0 → off < 2 ^ 32 → off + 4 ≤ (s.block (s.warp wk).bk).spSize → sramBad s (s.warp wk).bk .sp off 4 = false →
    hbHeld s wk s.mem.nextWid = false → (mFind s.warps wk).isSome = true → (resumed wk p s).inBundle = true →
    (condHolds c (memRead32 (s.block (s.warp wk).bk).sp off) v = true → ∃ h x,
      exec (.waitmReadAgain wk g) s = .next ((x.setCur s.cur).updGrid (s.block (s.warp wk).bk).gid fun y => { y with dstall := 0 }) ∧
      wentOn ((resumed wk p s).updCw fun w => { w with hb := h }) x) ∧
    (condHolds c (memRead32 (s.block (s.warp wk).bk).sp off) v = false → exec (.waitmReadAgain wk g) s = .next s)) ∧
  ∀ (s : State) (wk q : Nat) (r : Refill) (ts : List Task) (ls : List Nat), (mFind s.warps wk).isSome = true →
    (s.warp wk).lanes.length = 32 → (s.warp wk).retiredW = false → (s.warp wk).refill = some r →
    q = quadOf (s.block (s.warp wk).bk).core → refillFirst s q wk r = true →
    ts = ((readyOrder s q).filter (refillTakes s wk r)).take r.cap → ts ≠ [] → (∀ x ∈ ts, x.bk = (s.warp wk).bk) →
    ls = (rangeFrom 0 32).filter (fun l => ((s.warp wk).lane l).st == .vacant) → ls ≠ [] →
    ∃ t, exec (.refillAnswer wk) s = .next t ∧ (t.warp wk).refill = none ∧
      (t.quad q).tasks = (s.quad q).tasks.filter (fun x => !((ls.zip ts).map fun y => y.2.slot).contains x.slot) ∧
      (∀ l x, (l, x) ∈ ls.zip ts →
        (t.warp wk).lane l = taskLane r.entry r.depth (s.warp wk).retired x ((s.warp wk).lane l) ∧
        (∀ i < 5, regAt (t.warp wk) (.lane i l) = recWord x.record (3 + i)) ∧ regAt (t.warp wk) (.lane 5 l) = x.id) ∧
      ∀ l < 32, ((s.warp wk).lane l).st ≠ .vacant → ((s.warp wk).lane l).st ≠ .waitingJoin →
        (t.warp wk).lane l = (s.warp wk).lane l ∧ ∀ i < 88, regAt (t.warp wk) (.lane i l) = regAt (s.warp wk) (.lane i l)

/-! ### Faults and firmware's dispositions -/
/-- THE FAULT QUEUE AND FIRMWARE'S DISPOSITIONS (R241, R242, R243, R257, R315, R390). The oldest record enters the queue while
it has room, with the next sequence number. Resume lets a record's lanes execute again; handler sends them to the kernel's trap
handler, or waits while the warp is in it, and is then taken up again in the queue's order; drop ends their tasks; kill stops the record's grid (here one with one block resident and nothing on its way). -/
def Obligations.FaultDispositions : Prop :=
  (∀ (s : State) (r : FaultRec) (rest : List FaultRec), s.faults.pend = r :: rest →
    (s.faults.queue.length < 4096 → exec .faultRecordPost s = .next (s.setFaults { pend := rest, queue := s.faults.queue ++ [{ r with seq := s.faults.seq }], seq := (s.faults.seq + 1) % 2 ^ 32 })) ∧
    (4096 ≤ s.faults.queue.length → exec .faultRecordPost s = .next s)) ∧
  (∀ (s : State) (seq wk : Nat) (r : FaultRec), dueRecord s seq = some r → r.ref = .lanes wk →
    (mFind s.warps wk).isSome = true → (s.warp wk).lanes.length = 32 →
    (r.waiting = false → r.origin ≠ 5 → ∃ t, exec (.resume seq) s = .next t ∧ recordLeaves r wk s t ∧
      t.warp wk = { s.warp wk with lanes := (t.warp wk).lanes } ∧
      ∀ l < 32, (t.warp wk).lane l = if r.lanes.getLsbD l = true ∧ ((s.warp wk).lane l).st = .parkedFault
        then { (s.warp wk).lane l with st := .active } else (s.warp wk).lane l) ∧
    (handlerAllowed s r = true → (s.warp wk).privileged = false → ∃ t, exec (.handler seq) s = .next t ∧
      recordLeaves r wk s t ∧ (t.warp wk).fault = (r.detail.setWidth 32 <<< 8) ||| r.code.setWidth 32 ∧
      (t.warp wk).faddr = r.faddr ∧
      (∀ l < 32, (t.warp wk).lane l = if r.lanes.getLsbD l = true ∧ ((s.warp wk).lane l).st = .parkedFault
        then enterHandler (s.grid r.gid).handler (s.warp wk).retired ((s.warp wk).lane l) else (s.warp wk).lane l) ∧
      ∀ i l, i < 88 → l < 32 → regAt (t.warp wk) (.lane i l) =
        if i = 87 ∧ r.lanes.getLsbD l = true ∧ ((s.warp wk).lane l).st = .parkedFault
        then ((s.warp wk).lane l).pc.setWidth 32 else regAt (s.warp wk) (.lane i l)) ∧
    (handlerAllowed s r = true → (s.warp wk).privileged = true → exec (.handler seq) s = .next (s.setFaults { s.faults with queue := s.faults.queue.map fun x => if x.seq = r.seq then { x with waiting := true } else x })) ∧
    (r.waiting = false → dropAllowed s r = true → (∀ l < 32, ((s.warp wk).lane l).joinEn = false) → streamWids s wk = [] →
      (∀ k, (s.coreAt k).pool = []) → s.mem.flights = [] →
      (∃ l < 32, r.lanes.getLsbD l = false ∧ ((s.warp wk).lane l).st = .active) →
      ∃ t, exec (.taskDrop seq) s = .next t ∧ recordLeaves r wk s t ∧
        ∀ l < 32, (((s.warp wk).lane l).st = .parkedFault → r.lanes.getLsbD l = true →
            (t.warp wk).lane l = ((s.warp wk).lane l).vacate) ∧
          (r.lanes.getLsbD l = false → ((s.warp wk).lane l).st ≠ .waitingJoin →
            (t.warp wk).lane l = (s.warp wk).lane l))) ∧
  ∀ (s : State) (seq bk : Nat) (r : FaultRec), dueRecord s seq = some r → r.waiting = false → killQuiet s r.gid bk →
    ∃ t, exec (.kill seq) s = .next t ∧ gridKilled r.gid bk r.code.toNat [] s t

/-! ### Pre-emption and the launch unit's limits -/
/-- PRE-EMPTION AND RESTORE (R248, R252, R253, R262). A pre-empted cluster stops at once, or, on a core in deterministic mode,
is asked to stop at the end of a turn, and at the latest after 65,536 local cycles. DISCARD frees its cores and slots once
everything that must complete has completed, and leaves a saved context. RESTORE makes the block resident again with what its
area holds, or waits for cores. (Here a restored context of one block with no copy ring, matrix card or collective.) -/
def Obligations.PreemptionAndRestore : Prop :=
  (∀ (s : State) (bk : Nat) (areas : List Nat) (parea : Nat), canPreempt s bk areas = true → (clusterBlocks s bk).Nodup →
    (∀ k ∈ clusterBlocks s bk, (mFind s.blocks k).isSome = true) →
    ∃ t, exec (.preempt bk areas parea) s = .next t ∧ t.mem = s.mem ∧
      (∀ ba ∈ (clusterBlocks s bk).zip areas, (t.block ba.1).stop = if coreDet s (s.block ba.1).core then
          .asked ba.2 parea (s.schedAt (s.block ba.1).core 0).cycle.toNat (s.schedAt (s.block ba.1).core 1).cycle.toNat
        else .stopped ba.2 parea) ∧
      ∀ k, k ∉ clusterBlocks s bk → mFind t.blocks k = mFind s.blocks k) ∧
  (∀ (s : State) (bk a p c0 c1 : Nat), (mFind s.blocks bk).isSome = true → (s.block bk).stop = .asked a p c0 c1 →
    (c0 + 65536 ≤ (s.schedAt (s.block bk).core 0).cycle.toNat ∨ c1 + 65536 ≤ (s.schedAt (s.block bk).core 1).cycle.toNat →
      ∃ t, exec (.preemptTurnTimeout bk) s = .next t ∧ t.mem = s.mem ∧ (t.block bk).stop = .stopped a p) ∧
    ((s.schedAt (s.block bk).core 0).cycle.toNat < c0 + 65536 → (s.schedAt (s.block bk).core 1).cycle.toNat < c1 + 65536 →
      exec (.preemptTurnTimeout bk) s = .next s)) ∧
  (∀ (s : State) (bk : Nat), bk ∈ clusterBlocks s bk → (∀ k ∈ clusterBlocks s bk, blockQuiet s k = true) →
    ∃ t sv, exec (.discard bk) s = .next t ∧ (∀ k ∈ clusterBlocks s bk, mFind t.blocks k = none) ∧
      (∀ kw ∈ t.warps, kw.2.bk ∉ clusterBlocks s bk) ∧ mFind t.launch.saved s.launch.nextSaved = some sv ∧
      sv.gid = (s.block bk).gid ∧ sv.part = (s.block bk).part ∧ sv.blocks.map (·.bk) = clusterBlocks s bk) ∧
  ∀ (s : State) (id : Nat) (sv : Saved) (cores : Option (List Nat)), mFind s.launch.saved id = some sv → sv.id = id →
    s.launch.restores = [] →
    (restorePlace s sv cores = none → exec (.restore id cores) s = .next (s.updLaunch fun l => { l with restores := [(id, cores)] })) ∧
    ∀ (sb : SavedBlock) (core : Nat), sv.blocks = [sb] → sb.rank = 0 → restorePlace s sv cores = some [core] →
      mFind (s.quad sv.quad).areas sv.part = none → (s.grid sv.gid).det = false → plainArea s sb →
      (∀ i < 32, mFind s.warps (warpKey sb.bk i) = none) →
      (∀ kw ∈ warpsFrom s sb, ∃ l < 32, (kw.2.lane l).st = .active) →
      ∃ t, exec (.restore id cores) s = .next t ∧ t.mem = s.mem ∧ mFind t.launch.saved id = none ∧
        t.block sb.bk = blockFrom s sv sb core 0 ∧ (∀ k, k ≠ sb.bk → mFind t.blocks k = mFind s.blocks k) ∧
        (∀ kw ∈ warpsFrom s sb, (t.warp kw.1).vregs = kw.2.vregs ∧ (t.warp kw.1).sregs = kw.2.sregs ∧
          (t.warp kw.1).wregs = kw.2.wregs ∧
          ∀ l < 32, (kw.2.lane l).st ≠ .waitingJoin → (t.warp kw.1).lane l = kw.2.lane l) ∧
        ∀ k, (∀ i < 32, k ≠ warpKey sb.bk i) → mFind t.warps k = mFind s.warps k
/-- THE LAUNCH UNIT'S LIMITS (R255, R256, R384): a dispatch stall and a watchdog that has run out kill their grid and post a
record of origin 5 (here of a grid with one block and nothing on its way); a reduction lowers the watchdog's cycles left, and
never raises them. -/
def Obligations.LaunchUnitLimits : Prop :=
  (∀ (s : State) (gid bk : Nat), dstallDue s (s.grid gid) = true → killQuiet s gid bk →
    ∃ t, exec (.dstall gid) s = .next t ∧ gridKilled gid bk 0x12 [engineRecord 0x12 0 5 gid 0 0 0 0 .none] s t) ∧
  (∀ (s : State) (gid bk : Nat), (s.grid gid).gid ≠ 0 → watchdogDue (s.grid gid) = true → killQuiet s gid bk →
    ∃ t, exec (.watchdog gid) s = .next t ∧ gridKilled gid bk 0x13 [engineRecord 0x13 0 5 gid 0 0 0 0 .none] s t) ∧
  ∀ (s : State) (gid v : Nat), (mFind s.launch.grids gid).isSome = true →
    ∃ t, exec (.watchdogReduction gid v) s = .next t ∧ t = s.setLaunch { s.launch with grids := t.launch.grids } ∧
      t.grid gid = { s.grid gid with watchdog := if (s.grid gid).budget ≠ 0 ∧ 0 < v ∧ v < (s.grid gid).watchdog then v else (s.grid gid).watchdog } ∧
      ∀ g, g ≠ gid → t.grid g = s.grid g

/-! ### Launches, the work distributor, objects and signals -/
/-- LAUNCHES, DISPATCH AND COMPLETION (R377 to R379, R92, R94 to R96, R119, R131, R388). A launch is held until bring-up is over
and is then accepted; a grid's next block (here a cluster of one) goes to a core that takes it; a grid with nothing left
completes: its record is sent, its values are published, and launches that waited for them take them. -/
def Obligations.LaunchesAndCompletions : Prop :=
  (∀ (s : State) (queue tag : Nat) (r : List Word), queue < 16 → s.host.chanOpen = true →
    (s.rel.stage ≠ 6 → exec (.launch queue tag r) s = .next (s.updLaunch fun l => { l with held := l.held ++ [(queue, tag, r)] })) ∧
    (s.rel.stage = 6 → ∃ t, exec (.launch queue tag r) s = .next t ∧ launchAccepted queue tag r s t)) ∧
  (∀ (s : State) (queue core : Nat) (pl : Placement) (g : Grid), queuesOpen s = true → queueHead s queue = some g → g.csize = 1 →
    dispatchCores s g pl.cores = some [core] → ∃ t, exec (.blockDispatch queue pl) s = .next t ∧ blockPlaced g pl.part core s t) ∧
  ∀ (s : State) (gid : Nat), canComplete s (s.grid gid) = true → (s.grid gid).gid = gid →
    ∃ t, exec (.complete gid) s = .next t ∧ t = (s.setLaunch t.launch).setHost t.host ∧
      t.host.out = s.host.out ++ [.complete (s.grid gid).queue ([BitVec.ofNat 32 gid, BitVec.ofNat 32 (s.grid gid).status] ++
        (s.grid gid).results ++ [BitVec.ofNat 32 (s.grid gid).queue, 0])] ∧
      mFind t.launch.grids gid = none ∧ t.launch.published.find? (fun x => x.1 == gid) = some (gid, (s.grid gid).results) ∧
      ∀ k, k ≠ gid → t.grid k = if (s.grid k).src = some gid then (s.grid k).seed (s.grid gid).results else s.grid k
/-- THE WORK DISTRIBUTOR (R317, R319, R320, R325, R335). A malformed descriptor is answered with the end token and a record; a
set without a map with the coordinate of the next index, or with the end token past its end; an expired lease is reclaimed and
taken by a compare-and-swap; a WDQ that waited for room enters the queue. -/
def Obligations.DistributorServes : Prop :=
  (∀ (s u : State) (x : Query) (d : List Word), s.wd.queries.head? = some x → x.held = false → readDesc x s = (.ok d, u) →
    (tMalformed d = true → answerable u x → ∃ t, exec .wdQuery s = .next t ∧
      answered x 0xFFFFFFFF 0xFFFFFFFF (postRecord (engineRecord 0x11 0x48 4 x.gid 0 0 0 x.desc .none) u) t) ∧
    (tMalformed d = false → x.stage = .start → x.comp = none → ∀ (v : DWord) (u' : State),
      wdAtom x.part (x.desc + 4) .add false 1 0 (queryAt .front u) = (.ok v, u') → answerable u' x →
      (tMap d = 0 → v.toNat < tEnd d → ∃ t, exec .wdQuery s = .next t ∧
        answered x (BitVec.ofNat 32 (tCoord d v.toNat)) (BitVec.ofNat 32 (v.toNat + 1)) (queryAt (.at_ v.toNat) u') t) ∧
      (tEnd d ≤ v.toNat → tSteal d = false → watchedBy u' x = [] → ∃ t, exec .wdQuery s = .next t ∧
        answered x 0xFFFFFFFF 0xFFFFFFFF (queryAt .back u') t))) ∧
  (∀ (s u u1 : State) (i : Nat) (x : Query) (w : Watch) (d : List Word), leaseDue s i = some (x, w) →
    readDesc x s = (.ok d, u) →
    (wdCas x.part (tMap d + 8 * w.i) (takenWord w.d w.s) (queuedWord (nextSeq w.s)) u = (.ok false, u1) →
      exec (.leaseExpiry i) s = .next (unwatch w u1)) ∧
    (wdCas x.part (tMap d + 8 * w.i) (takenWord w.d w.s) (queuedWord (nextSeq w.s)) u = (.ok true, u1) → ∀ u2,
      wdCas x.part (tMap d + 8 * w.i) (queuedWord (nextSeq w.s)) (takenWord (unwatch w u1).host.device (nextSeq w.s)) (unwatch w u1) =
        (.ok true, u2) → answerable u2 x → ∃ t, exec (.leaseExpiry i) s = .next t ∧
        answered x (BitVec.ofNat 32 (tCoord d w.i)) (BitVec.ofNat 32 (nextSeq w.s)) u2 t)) ∧
  ∀ (s : State) (wk desc off : Nat) (p : Park) (comp : Option (Word × Word)), (waitingQueries s).head? = some (wk, p, desc, off, comp) →
    s.wd.queries.length < 1024 → (resumed wk p s).inBundle = true → ∃ v, exec .wdQueueRoom s = .next (v.setCur s.cur) ∧
      committed (fun _ => none) 0 (queryJoins desc off comp (resumed wk p s)) v
/-- GLOBAL BARRIER OBJECTS AND COMPLETION SIGNALS (R202, R203, R322, R329). An op that reaches its home changes the object's
words as R202 says, the arrivals' cycle (until the phase completes) and the phase count with them, and a new parity satisfies its waits; a .test or a .wait
sees the object; a signal decrements its counter, which no set of this cycle has written. (Here an object without straggler record or signal.) -/
def Obligations.ObjectsAndSignals : Prop :=
  (∀ (s : State) (o : ObjOp), s.mem.objq.find? (fun y => y.id == o.id) = some o → objFirst s o = true →
    o.pa % 32 = 0 → o.peer = none → (∀ c, o.core s = some c → ∀ f ∈ s.mem.flights, f.src ≠ c) →
    (∀ l, mFind s.mem.lines (o.pa / 1024) = some l → l.use = none) →
    (barxWrites o.op = true → objWord s o 4 = 0 → objWord s o 5 = 0 → (objWord s o 7).getLsbD 11 = false →
      ∃ t hb, exec (.arrivalLog o.id) s = .next t ∧ objOf t o = ((objOf s o).step o.op o.val).1 ∧
        objWord t o 3 = (if o.op = .init then 0 else if ((objOf s o).step o.op o.val).2 then objWord s o 3 + 1 else objWord s o 3) ∧
        (o.op ≠ .init → ((objOf s o).step o.op o.val).2 = false → objWord t o 6 = if barxArrives o.op ∧ (objOf s o).pending = (objOf s o).expected then BitVec.ofNat 32 (homeNow s o) else objWord s o 6) ∧
        (∀ pa, pa < o.pa ∨ (o.pa + 16 ≤ pa ∧ pa < o.pa + 24) ∨ o.pa + 28 ≤ pa → t.mem.byteUnder (s.mem.keyOf o.attr.key) pa =
          s.mem.byteUnder (s.mem.keyOf o.attr.key) pa) ∧
        (∀ k pa, pa / 1024 ≠ o.pa / 1024 → t.mem.byteUnder k pa = s.mem.byteUnder k pa) ∧ t.blocks = s.blocks ∧
        t.mem.objq = s.mem.objq.filter (fun y => y.id != o.id) ∧
        t.warps = if ((objOf s o).step o.op o.val).2 then
          s.warps.map (fun kw => (kw.1, satisfyObj false o.pa ((objOf s o).step o.op o.val).1.parity hb kw.2)) else s.warps) ∧
    (∀ wk id, o.wk = some wk → o.out = some id → o.zero = false → ∀ ok, ok = ((objOf s o).parity != o.val.getLsbD 0) →
      (o.op = .test → ∃ t, exec (.arrivalLog o.id) s = .next t ∧ sameMemory s t ∧ (t.warp wk).outs = (s.warp wk).outs.map fun x =>
        if x.id = id then { x with waitOp := false, vals := x.vals.map (fun y => (y.1, if ok then 1 else 0)), writes := x.writes.map fun y => { y with val := if ok then 1 else 0 } } else x) ∧
      (o.op = .wait → ∃ t, exec (.arrivalLog o.id) s = .next t ∧ sameMemory s t ∧ (t.warp wk).outs = (s.warp wk).outs.map fun x =>
        if x.id = id then { x with waitOp := false, obj := if ok then none else some { loc := false, addr := o.pa, parity := o.val.getLsbD 0 } } else x))) ∧
  ∀ (s u : State) (quad ctr : Nat), mFind (s.quad quad).sets ctr = none →
    (∃ x, s.mem.signals.find? (fun x => x.2.1 == quad && x.2.2.1 == ctr) = some x ∧
      u = s.updMem fun m => { m with signals := m.signals.erase x }) ∨
    (s.mem.signals.find? (fun x => x.2.1 == quad && x.2.2.1 == ctr) = none ∧ quad < 128 ∧ ctr < 2048 ∧
      (s.ctr quad ctr).owner.isSome = true ∧ u = s) →
    (1 < (s.ctr quad ctr).value.toNat → exec (.completionSignal s.host.device quad ctr) s =
      .next (putCtr quad ctr { s.ctr quad ctr with value := (s.ctr quad ctr).value - 1 } u)) ∧
    ((s.ctr quad ctr).value = 0 → exec (.completionSignal s.host.device quad ctr) s =
      .next (postRecord (engineRecord 0x11 ctr 4 0 0 0 (4 * quad) 0 .none) (putCtr quad ctr (s.ctr quad ctr) u)))

/-! ### The engines' steps -/
/-- THE YARD, THE MATRIX ENGINE AND THE COPY ENGINE (R18, R264, R267, R281, R283, R286, R289 to R291, R303, R312 to R314). A
waiting post enters once an entry is free; a wave starts with the tasks of its group, their arguments in v0 to v4 and their ids
in v5, or holds them until it finds a place; a job without edges is admitted; a reload latches its weights; a pass takes a row of AB and, 264 cycles after the row has left the array, writes
its slots to CB, on those read when it left where ACC is set; a window of 64 cycles begins with no grants; a command starts at its channel's pointer, and a fill whose
channel's turn it is delivers its pattern; firmware sets a budget within its ceiling. -/
def Obligations.EngineSteps : Prop :=
  (∀ (s u : State) (q e wk : Nat) (p : Park) (r : List Word) (d : Reg), freeSlot (s.quad q) = some e →
    (parksOn s q fun w => match w with | .poolEntry r d => some (r, d) | _ => none).head? = some (wk, p, (r, d)) →
    u = resumed wk p s → u.inBundle = true → warpOrZ d = true →
    ∃ v, exec (.poolEntryFree q) s = .next (v.setCur s.cur) ∧
      resultDueB (resultDest d false u.cur.mask fun _ => z64 (taskOf u r e).id) (taskStands r e u) v) ∧
  (∀ (s u : State) (q e wk : Nat) (p : Park) (c : List Word) (a : DWord) (d : Reg), cardsWaiting s q = [] →
    freeEntry (s.quad q) = some e →
    (parksOn s q fun w => match w with | .mxEntry c a d => some (c, a, d) | _ => none).head? = some (wk, p, (c, a, d)) →
    u = resumed wk p s → u.inBundle = true → warpOrZ d = true →
    ∃ v, exec (.mxEntryFree q) s = .next (v.setCur s.cur) ∧ resultDueB (resultDest d false u.cur.mask fun _ =>
      z64 (BitVec.ofNat 32 (2 ^ 25 * u.cq + 2 ^ 6 * ((u.quad u.cq).arrived % 2 ^ 19) + e))) (mxArrive false u.cb c a e u) v) ∧
  (∀ (s : State) (q i wk : Nat) (x : Task) (ts : List Task) (b : Block), waveTasks s q = x :: ts → (x :: ts).length ≤ 32 →
    b = s.block x.bk → waveIndex s b = some i → wk = warpKey b.bk i → streamWids s wk = [] →
    ∃ t, exec (.waveStart q) s = .next t ∧ (t.warp wk).isWave = true ∧ (t.warp wk).bk = b.bk ∧ (t.warp wk).role = x.role ∧
      (t.quad q).tasks = (s.quad q).tasks.filter (fun y => !((x :: ts).map (·.slot)).contains y.slot) ∧
      (∀ l y, (l, y) ∈ (rangeFrom 0 (x :: ts).length).zip (x :: ts) →
        ((t.warp wk).lane l).st = .active ∧ ((t.warp wk).lane l).pc = x.entry ∧ ((t.warp wk).lane l).taskId = y.id ∧
        (∀ j < 5, regAt (t.warp wk) (.lane j l) = recWord y.record (3 + j)) ∧ regAt (t.warp wk) (.lane 5 l) = y.id) ∧
      (∀ l < 32, (x :: ts).length ≤ l → ((t.warp wk).lane l).st = .vacant) ∧ t.mem = s.mem ∧ t.blocks = s.blocks ∧
      (t.coreAt b.core).snaps = [] ∧ ∀ k, k ≠ wk → mFind t.warps k = mFind s.warps k) ∧
  (∀ (s : State) (q : Nat) (x : Task) (ts : List Task), waveTasks s q = x :: ts → waveIndex s (s.block x.bk) = none →
    ∃ t n, exec (.waveStart q) s = .next t ∧ t = s.setQuads t.quads ∧ (t.quad q).tasks = (s.quad q).tasks.map fun y =>
      if (x :: ts).any (fun u => u.slot == y.slot) = true then { y with wave := some n } else y) ∧
  (∀ (s : State) (q jid : Nat) (j : Job), s.job q jid = some j → j.admissible = true →
    (∀ ch n, j.kind = .copy ch n → ∃ t, exec (.admission q jid) s = .next t ∧ t = s.setQuads t.quads ∧
      t.job q jid = some { j with admitted := true }) ∧
    ∀ m, j.kind = .mx m → ∃ t, exec (.admission q jid) s = .next t ∧ t = s.setQuads t.quads ∧
      t.job q jid = some { j with admitted := true, kind := .mx { m with reloadLeft := if m.reloads then reloadCycles m.card + 1 else m.reloadLeft } }) ∧
  (∀ (s : State) (q : Nat) (j : Job) (m : MxJob), s.job q j.jid = some j → j.kind = .mx m →
    ((dueReloads (s.quad q)).head? = some (j, m) → badColumns s j m.card = [] → ∃ t, exec (.reload q) s = .next t ∧ t = s.setQuads t.quads ∧
      t.job q j.jid = some { j with kind := .mx { m with reloadDone := true, granted := true } } ∧
      (mGet (t.quad q).banks LatchBank.init m.bank).planes = memReadBytes (s.block j.bk).wb (kWboff m.card) (32 * mxPlanes (kW m.card) * kK m.card) ∧
      (mGet (t.quad q).banks LatchBank.init m.bank).side =
        memReadBytes (s.block j.bk).wb (kWside m.card) (sideBytes (kW m.card) * kBlocks m.card * kN m.card)) ∧
    (nextGrant (s.quad q) = some (j, m) → ∀ row, row = memReadBytes (s.block j.bk).ab (kRowOff m.card m.rows) (32 * mxPlanes (kA m.card)) →
      ∃ t p, exec (.passGrant q) s = .next t ∧ t = s.setQuads t.quads ∧ (t.quad q).passes = (s.quad q).passes ++ [p] ∧
        p.jid = j.jid ∧ p.row = m.rows ∧ p.aRow = row ∧ p.doneAt = (s.quad q).mxCycle + rowCycles m.card row + 264 ∧
        (t.quad q).freeAt = (s.quad q).mxCycle + rowCycles m.card row ∧ (t.quad q).grants = (s.quad q).grants + 1 ∧
        t.job q j.jid = some { j with kind := .mx { m with rows := m.rows + 1, granted := true } })) ∧
  (∀ (s : State) (q : Nat) (p : Pass) (j : Job) (m : MxJob) (x : LatchBank), duePass (s.quad q) = some p →
    mxJobAt s q p.jid = some (j, m) → (mFind s.blocks j.bk).isSome = true → (∀ y ∈ passSlots s q j m p, y.2.2 = false) →
    m.written + 1 < kM m.card → x = mGet (s.quad q).banks LatchBank.init m.bank → ∃ t, exec (.passWrite q) s = .next t ∧
      (∀ n < kN m.card, ∀ off, off = 8 * (kCbslot m.card + kCpitch m.card * p.row + n) →
        memReadBytes (t.block j.bk).cb off 8 = leBytes (65536 * slotSum m.card x (passRow m.card p) n
          (if kAcc m.card then ((passPrior s j m p).getD n (0, false)).1 else 0)) 8) ∧
      (∀ o, o < 8 * (kCbslot m.card + kCpitch m.card * p.row) ∨ 8 * (kCbslot m.card + kCpitch m.card * p.row + kN m.card) ≤ o →
        memRead (t.block j.bk).cb o = memRead (s.block j.bk).cb o) ∧
      (∀ y, y ≠ .cb → (t.block j.bk).space y = (s.block j.bk).space y) ∧
      (∀ k, k ≠ j.bk → mFind t.blocks k = mFind s.blocks k) ∧ p ∉ (t.quad q).passes ∧ t.mem = s.mem ∧ t.warps = s.warps) ∧
  (∀ (s : State) (q : Nat), (s.quad q).mxJobs = [] → (s.quad q).passes = [] →
    ∃ t, exec (.governorWindow q) s = .next t ∧ t = s.setQuads t.quads ∧
      (t.quad q).mxCycle = ((s.quad q).mxCycle / 64 + 1) * 64 ∧ (t.quad q).grants = 0) ∧
  (∀ (s : State) (bk ch : Nat) (x : CopyCmd) (c : Chan), (mFind s.blocks bk).isSome = true → c = s.chan bk ch → c.cmds.head? = some x →
    (canSkip x = false → canStart s bk x = true → cTotal x.words ≠ 0 → ∃ t y, exec (.copyCommandStart bk ch) s = .next t ∧
      t = s.setBlocks t.blocks ∧ (t.chan bk ch).cmds = y :: c.cmds.tail ∧ y = { x with started := true, p0 := c.wp }) ∧
    (canDeliver s bk x = true → (s.block bk).bk = bk → cKind x.words = 5 → cDir x.words = false → cSpace x.words ≠ 4 →
      x.delivered + (nextChunk x).length < cTotal x.words → (∀ kw ∈ s.warps, kw.2.bk = bk → kw.2.parks = []) →
      copyTurn s bk ch = true → (s.grid (s.block bk).gid).killed = none →
      ∃ t, exec (.copyDelivery bk ch) s = .next t ∧ t = (s.setBlocks t.blocks).setCores t.cores ∧
        (∀ o, (cLSpace (cSpace x.words) = .sp → c.log2 ≠ 0 → o < c.base + 4 ∨ c.base + 16 ≤ o) →
          memRead ((t.block bk).space (cLSpace (cSpace x.words))) o =
            memRead ((nextChunk x).foldl (fun m p => memWrite m (cLocal x.words + cLoff x.words (p / cE x.words) + p % cE x.words)
              (fillByte x.words (p % cE x.words))) ((s.block bk).space (cLSpace (cSpace x.words)))) o) ∧
        (t.chan bk ch).cmds = { x with delivered := x.delivered + (nextChunk x).length } :: c.cmds.tail)) ∧
  ∀ (s : State) (q v : Nat), q < 128 →
    (0 < v → v ≤ 64 → ∃ t, exec (.budgetSet q v) s = .next t ∧ t = s.setQuads t.quads ∧
      t.quad q = { s.quad q with budget := min v (s.quad q).ceiling, stalled := 0 } ∧ ∀ k, k ≠ q → t.quad k = s.quad k) ∧
    ∃ t, exec (.budgetCeilingChange q v) s = .next t ∧ t = s.setQuads t.quads ∧
      t.quad q = { s.quad q with ceiling := min v 64, budget := min (s.quad q).budget v } ∧ ∀ k, k ≠ q → t.quad k = s.quad k

/-! ### Collectives -/
/-- THE COLLECTIVE ENGINES (R340 to R345, R347, R356, R357, R360). A permit lets the first waiting packet of its link go; a
packet that names no slot of its sender is dropped and counted, one that comes early stays in its cell, LATE ends the collective
with status 1, a piece is combined with the own contribution or delivered; a member waited for too long is excluded; an
admitted collective has read its source and sends its token; a collective that ends writes its destination, then leaves. -/
def Obligations.CollectiveSteps : Prop :=
  (∀ (s : State) (die link : Nat),
    (∀ o, (s.die die).outbox.find? (fun o => o.1 == link) = some o → o.2.dev ≠ s.host.device →
      ∃ t, exec (.sendPermit die link) s = .next t ∧ t = (s.setDies t.dies).setHost t.host ∧
        t.host = { s.host with out := s.host.out ++ [.packet o.2] } ∧
        t.die die = { s.die die with outbox := (s.die die).outbox.erase o }) ∧
    ((s.die die).outbox.find? (fun o => o.1 == link) = none → ∃ t, exec (.sendPermit die link) s = .next t ∧
      t = s.setDies t.dies ∧ permitsOf t die link = min 64 (permitsOf s die link + 1))) ∧
  (∀ (s : State) (die mask : Nat) (h : List Word) (pl : List Byte), (∀ p ∈ (s.die die).inbox, p.hdr ≠ h) →
    (ownPacket s die h = false → ∃ t, exec (.packet die h mask pl) s = .next t ∧ t = s.setDies t.dies ∧
      t.die die = { s.die die with errs := (s.die die).errs + 1 }) ∧
    (pktVerdict s die die h = .wait → ∃ t, exec (.packet die h mask pl) s = .next t ∧ t = s.setDies t.dies ∧
      t.die die = { s.die die with inbox := (s.die die).inbox ++ [{ dev := s.host.device, die := die, src := die, hdr := h, mask := mask, payload := pl }] }) ∧
    ∀ (g : GroupCfg) (x : Coll) (us : List Nat), ownPacket s die h = true → hDev h ≠ s.host.device →
      (slotAt s die (hSlot h)).cfg = some g → collOf s die (hSlot h) (hQ h) = some x → collAt s die x.cid = some x →
      x.still = false → x.slot = hSlot h → us = unitsOf (xUnit x.desc) (pl.length / xUnit x.desc) pl →
      (hStage h = 6 → ∃ t, exec (.packet die h mask pl) s = .next t ∧ t = (s.setDies t.dies).setHost t.host ∧
        collAt t die x.cid = some { x.mark 1 with phase := 3 } ∧ t.host.out = s.host.out ++ [.permit (hDev h) die (linkKey s.host.device die)]) ∧
      (hStage h ≤ 4 → mask = 0 → atStage g x (pktStage g die die h) h = true → hRouteLen (popRoute h) = 0 → mFind x.got (gotKey (hChunk h) (hFirst h)) = none →
        (∀ v y, v = viewOf g die x → y = { putGot (hChunk h) (hFirst h) us x with timer := 0 } → xReduces x.desc = false →
          nextOn g die v.st x.excl v.me = v.origin (hChunk h) → spreadOver v y = false → 2 ≤ hAction h →
          ∃ t, exec (.packet die h mask pl) s = .next t ∧ collAt t die x.cid = some y ∧
            t.host.out = s.host.out ++ [.permit (hDev h) die (linkKey s.host.device die)]) ∧
        (∀ v y, v = viewOf g die x → y = { putGot (hChunk h) (hFirst h)
            ((us.zip ((ownChunk x v.l v.me).drop (hFirst h))).map fun p => combine x.desc p.1 p.2) x with timer := 0 } →
          xReduces x.desc = true → x.back = false → x.excl.testBit (memberOf g (hDev h)) = false → hChunk h = v.me →
          v.start v.me ≠ v.me → hAction h ≠ 0 → reduceOver v y = false →
          ∃ t, exec (.packet die h mask pl) s = .next t ∧ collAt t die x.cid = some y ∧
            t.host.out = s.host.out ++ [.permit (hDev h) die (linkKey s.host.device die)]))) ∧
  (∀ (s : State) (die cid : Nat) (x : Coll) (g : GroupCfg), collAt s die cid = some x → collCfg s die x = some g →
    timeoutDue s die x = true → x.phase = 2 →
    (waitedFor s die g x = g.own → ∃ t, exec (.stepTimeout die cid) s = .next t ∧ t = s.setDies t.dies ∧
      collAt t die cid = some { x with timer := 0 }) ∧
    (∀ c y, waitedFor s die g x = c → c ≠ g.own → (s.die die).outbox = [] → xReduces x.desc = false →
      y = { x.mark 2 with excl := x.excl ||| 2 ^ c, timer := 0 } → spreadOver (viewOf g die y) y = false →
      ∃ t, exec (.stepTimeout die cid) s = .next t ∧ t = s.setDies t.dies ∧ collAt t die cid = some y)) ∧
  (∀ (s u v : State) (die cid : Nat) (x : Coll) (g : GroupCfg) (bs ds : List Byte) (src : List Nat), collAt s die cid = some x →
    collCfg s die x = some g → collReady s die x = true →
    readSource x.part (xSrc x.desc) (sourceLens g die x.desc).1 s = (.ok (bs, []), u) →
    readSource x.part (xSside x.desc) (sourceLens g die x.desc).2 u = (.ok (ds, []), v) →
    src = interleave ((sourceLens g die x.desc).1 / xUnit x.desc / max 1 (xElems x.desc)) (xElems x.desc) (xSides x.desc)
      (unitsOf (xUnit x.desc) ((sourceLens g die x.desc).1 / xUnit x.desc) bs) (ds.map (·.toNat)) →
    collAt v die cid = some x → collCfg v die x = some g → v.quads = s.quads →
    (gStages g = [] → ∃ t, exec (.collectiveAdmission die cid) s = .next t ∧
      collAt t die cid = some { x with phase := 3, stage := 0, vecs := [src], got := [], begun := true, timer := 0 } ∧
      t.job (quadOf x.core) x.jid = (s.job (quadOf x.core) x.jid).map fun j => { j with admitted := true }) ∧
    ∀ st sts w, gStages g = st :: sts → w = viewOf g die { x with stage := 0 } → (∀ d, (mGet v.mem.peers Peer.init d).isolated = false) →
      w.alone = false → (v.die die).outbox = [] →
      ∀ p dev, p = ringPlace g die st (nextOn g die st x.excl w.me) → dev = g.devs.getD p.c 0 → dev ≠ v.host.device →
      0 < permitsOf v die (linkKey dev p.die) →
      ∃ t, exec (.collectiveAdmission die cid) s = .next t ∧
        collAt t die cid = some { x with phase := 1, stage := 0, vecs := [src], got := [], begun := true, timer := 0 } ∧
        t.job (quadOf x.core) x.jid = (s.job (quadOf x.core) x.jid).map (fun j => { j with admitted := true }) ∧
        permitsOf t die (linkKey dev p.die) = permitsOf v die (linkKey dev p.die) - 1 ∧ t.host.out = v.host.out ++ [.packet {
          dev := dev, die := p.die, src := die, hdr := mkHeader v.host.device 7 x.slot x.q x.tagBits 0 16 0 dev 1, mask := x.excl,
          payload := leBytes st 4 ++ leBytes w.me 4 ++ leBytes 0 4 ++ leBytes (xN x.desc) 4 }]) ∧
  ∀ (s v w : State) (die cid : Nat) (x : Coll) (g : GroupCfg) (d : DestView), collAt s die cid = some x → x.phase = 3 → x.still = false →
    (∀ o ∈ (s.die die).outbox, isOf x o = false) →
    collCfg s die x = some g → d = destOf g die x →
    writeDest x d s = (none, v) →
    (if xRrec x.desc = 0 then (none, v) else engineWrite x.part (xRrec x.desc) (resultRecord x d) v) = (none, w) →
    xSig x.desc = none → blockWarps w x.bk ≠ [] →
    ∃ t, exec (.collectiveCompletion die cid) s = .next t ∧ t = (w.setDies t.dies).setQuads t.quads ∧
      (t.die die).colls = (w.die die).colls.filter (fun y => y.cid != x.cid) ∧
      (slotAt t die x.slot).last = ((x.q, finalStatus x, x.excl) :: (slotAt w die x.slot).last).take 16 ∧
      t.job (quadOf x.core) x.jid = none

/-! ### The host, the pod, firmware, power -/
/-- THE HOST'S MESSAGES (R374, R376, R380, R385, R386). A flush takes its translations from every core, and is answered once
nothing translated before it has still to perform; MEMWRITE sends its bytes toward memory, one write each, and is
answered when the last has arrived, and MEMREAD reads memory, at physical addresses (MEMWRITE fills the load buffer while no
image is verified); an address past the space stops the step. -/
def Obligations.HostMessages : Prop :=
  (∀ (s : State) (tag : Nat), s.host.chanOpen = true → s.rel.verified = true →
    (∀ part va len, ∃ t f, exec (.flush part va len tag) s = .next t ∧ t = (s.setCores t.cores).setHost t.host ∧
      t.host = { s.host with flushes := s.host.flushes ++ [f] } ∧ f.part = part % 8 ∧ f.tag = tag ∧
      ∀ c x, x ∈ (t.coreAt c).tlb ↔ x ∈ (s.coreAt c).tlb ∧ flushCovers (part % 8) va len x.1 x.2 = false) ∧
    (∀ nonce, exec (.attest nonce tag) s = .next (s.send (.report tag nonce s.host.device s.rel.images Config.fuseId
      (Config.signature ([nonce, s.host.device] ++ s.rel.images ++ [Config.fuseId]))))) ∧
    (∃ t, exec (.stats tag) s = .next t ∧ t.host = { s.host with out := s.host.out ++ [.stats tag (statsOf s)] } ∧
      t.rel = { s.rel with soft := 0, lasting := 0 } ∧ (∀ d, t.die d = { s.die d with errs := 0 }) ∧
      (∀ p, mGet t.mem.peers Peer.init p = { mGet s.mem.peers Peer.init p with lost := 0 }) ∧ t.warps = s.warps ∧
      t.mem = { s.mem with peers := t.mem.peers }) ∧
    ∀ kind, jalliaKinds.contains kind = false → exec (.jalliaOtherKind kind tag) s = .next (s.send (.error tag))) ∧
  (∀ (s : State) (f : Flush), dueFlush s = some f → ∃ t, exec .flushdone s = .next t ∧ t = (s.setWarps t.warps).setHost t.host ∧
    t.host = { s.host with flushes := s.host.flushes.erase f, out := s.host.out ++ [.flushdone f.part f.tag] } ∧
    ∀ k, mFind t.warps k = (mFind s.warps k).map settleOuts) ∧
  (∀ (s : State) (pa tag : Nat) (data : List Byte),
    (2 ^ 52 < pa + data.length → exec (.memwrite pa data tag) s = .fault (.beyondPhysical pa)) ∧
    (pa + data.length ≤ 2 ^ 52 → s.rel.verified = false → ∃ t, exec (.memwrite pa data tag) s = .next t ∧
      t.host.out = s.host.out ++ [.written tag] ∧ t.mem = s.mem ∧ ∀ q, memRead t.rel.loadBuffer q =
        if pa ≤ q ∧ q < pa + data.length then data.getD (q - pa) 0 else memRead s.rel.loadBuffer q) ∧
    (pa + data.length ≤ 2 ^ 52 → s.rel.verified = true →
      ∃ t f, exec (.memwrite pa data tag) s = .next t ∧ t = (s.setMem t.mem).setHost t.host ∧ sameMemory s t ∧
        t.mem.flights = s.mem.flights ++ [f] ∧ f.fid = s.mem.nextFid ∧ f.src = hostSrc ∧ f.peer = none ∧
        f.ws = hostWrites pa s.mem.nextWid data ∧ t.host = { s.host with posted := s.host.posted ++ [(f.fid, tag)] })) ∧
  (∀ (s : State) (f : Flight) (w : PWrite) (tag : Nat), s.mem.flights.find? (fun g => g.fid == f.fid) = some f →
    flightFirst s f = true → f.peer = none → f.ws = [w] → w.peer = none → w.attr = PageAttr.none →
    s.mem.superseded w.pa w.wid = false → s.host.posted.find? (fun x => x.1 == f.fid) = some (f.fid, tag) →
    ∃ t, exec (.arrive f.fid) s = .next t ∧ t.host.out = s.host.out ++ [.written tag] ∧
      ∀ q, t.mem.byteUnder 0 q = if q = w.pa then w.val else s.mem.byteUnder 0 q) ∧
  ∀ (s : State) (pa tag len : Nat),
    (2 ^ 52 < pa + len → exec (.memread pa len tag) s = .fault (.beyondPhysical pa)) ∧
    (pa + len ≤ 2 ^ 52 → s.rel.verified = true → (∀ ln l, mFind s.mem.lines ln = some l → l.use = none) →
      (∀ q, pa ≤ q → q < pa + len → q ∉ s.mem.ecc) → ∃ t, exec (.memread pa len tag) s = .next t ∧
        t.host = { s.host with out := s.host.out ++ [.data tag ((rangeFrom pa len).map (s.mem.byteUnder 0))] } ∧
        t = (s.setMem t.mem).setHost t.host ∧ ∀ q, t.mem.byteUnder 0 q = s.mem.byteUnder 0 q)
/-- THE POD (R381 to R383). A request that no window matches gets an error completion; one that its window allows reads,
writes, does its atomic or its barrier operation at the window's place under its key. A peer that does not answer within firmware's timeout is isolated:
the stores under way to it are lost and counted, and lanes that wait for it fault with PEER at their load. -/
def Obligations.PodRequests : Prop :=
  (∀ (s : State) (peer : Nat) (req : PeerReq), windowFor s peer (reqAddr req) = none →
    exec (.ualinkRequest peer req) s = .next (s.send (.peerError peer))) ∧
  (∀ (s : State) (peer addr n : Nat) (w : PodWindow) (a : LaneAcc), windowFor s peer addr = some w → windowAcc s w addr n = some a →
    (∀ l, mFind s.mem.lines (a.pa / 1024) = some l → l.use = none) →
    a.pa = w.local_ + (addr - w.base) ∧
    (w.r = true → (∀ q, a.pa ≤ q → q < a.pa + n → q ∉ s.mem.ecc) → ∃ t, exec (.ualinkRequest peer (.read addr n)) s = .next t ∧
      t.host = { s.host with out := s.host.out ++ [.peerData peer ((rangeFrom a.pa n).map (s.mem.byteUnder (s.mem.keyOf w.key)))] } ∧
      t = (s.setMem t.mem).setHost t.host ∧ ∀ q, t.mem.byteUnder (s.mem.keyOf w.key) q = s.mem.byteUnder (s.mem.keyOf w.key) q) ∧
    (∀ data, data.length = n → w.w = true → ∃ t, exec (.ualinkRequest peer (.write addr data)) s = .next t ∧
      t.host = { s.host with out := s.host.out ++ [.peerDone peer] } ∧ t = (s.setMem t.mem).setHost t.host ∧
      ∀ q, t.mem.byteUnder (s.mem.keyOf w.key) q =
        if a.pa ≤ q ∧ q < a.pa + n then data.getD (q - a.pa) 0 else s.mem.byteUnder (s.mem.keyOf w.key) q) ∧
    (∀ aop ty x y old, n = atomSize (ty == .b64) → w.atomic = true → peerAtomOk aop ty = true → addr % n = 0 → a.pa % n = 0 →
      old = BitVec.ofNat 64 (leNat ((rangeFrom a.pa n).map (s.mem.byteUnder (s.mem.keyOf w.key)))) →
      ∃ t, exec (.ualinkRequest peer (.atomic addr aop ty x y)) s = .next t ∧
        t.host = { s.host with out := s.host.out ++ [.peerData peer (leBytes old.toNat n)] } ∧
        ∀ q, t.mem.byteUnder (s.mem.keyOf w.key) q = if a.pa ≤ q ∧ q < a.pa + n then
          (match atomNew aop (ty == .b64) old (if ty == .b64 then x else z64 (x.setWidth 32)) (if ty == .b64 then y else z64 (y.setWidth 32)) with
            | some v => (leBytes v.toNat n).getD (q - a.pa) 0
            | none => s.mem.byteUnder (s.mem.keyOf w.key) q)
          else s.mem.byteUnder (s.mem.keyOf w.key) q) ∧
    ∀ dev blkx op val, n = 32 → w.atomic = true → barxWrites op = true → addr % 32 = 0 →
      exec (.ualinkRequest peer (.barx addr dev blkx op val)) s = .next ((applyObj {
        id := s.mem.nextQ, wk := none, out := none, attr := a.attr, dev := dev, blkx := blkx, part := 0, hbs := [],
        va := 0, pa := a.pa, peer := none, zero := false, op := op, val := val } s).send (.peerDone peer))) ∧
  (∀ (s : State) (peer : Nat), (mGet s.mem.peers Peer.init peer).waited < s.mem.linkTimeout →
    exec (.ualinkTimeout peer) s = .next s) ∧
  (∀ (s : State) (peer : Nat), s.mem.linkTimeout ≤ (mGet s.mem.peers Peer.init peer).waited → (∀ kd ∈ s.dies, kd.2.colls = []) →
    ((∀ kw ∈ s.warps, ∀ o ∈ kw.2.outs, lanesOn s peer kw.1 o = []) → ∃ t, exec (.ualinkTimeout peer) s = .next t ∧
      t = s.setMem t.mem ∧ mGet t.mem.peers Peer.init peer = { isolated := true, waited := 0, lost := (mGet s.mem.peers Peer.init peer).lost +
        (storesTo peer s.mem.flights + (s.mem.atoms.filter fun a => a.acc.peer == some peer && a.out.isNone).length +
          (s.mem.objq.filter fun o => o.peer == some peer && barxWrites o.op).length) } ∧
      (∀ f, f ∈ t.mem.flights ↔ f ∈ s.mem.flights ∧ f.peer ≠ some peer) ∧
      (∀ o, o ∈ t.mem.objq ↔ o ∈ s.mem.objq ∧ o.peer ≠ some peer) ∧
      ∀ a, a ∈ t.mem.atoms ↔ a ∈ s.mem.atoms ∧ (a.acc.peer ≠ some peer ∨ a.out ≠ none)) ∧
    ∀ wk w o m, mFind s.warps wk = some w → w.lanes.length = 32 →
      s.warps.flatMap (fun kw => kw.2.outs.map fun o => (kw.1, o)) = [(wk, o)] → lanesOn s peer wk o ≠ [] →
      m = lanesMask ((lanesOn s peer wk o).map (·.1)) → ∃ t, exec (.ualinkTimeout peer) s = .next t ∧
        (mGet t.mem.peers Peer.init peer).isolated = true ∧ (∀ l < 32, (t.warp wk).lane l =
          if m.getLsbD l then { w.lane l with st := .parkedFault, pc := o.pc } else w.lane l) ∧
        (∀ k, k ≠ wk → mFind t.warps k = mFind s.warps k) ∧
        ∃ r : FaultRec, t.faults = { s.faults with pend := s.faults.pend ++ [r] } ∧ r.code = 0x0B ∧ r.detail = BitVec.ofNat 17 peer ∧
          r.lanes = m ∧ r.ref = .lanes wk) ∧
  ∀ (s : State) (k : Nat),
    (∃ t, exec (.isolationClear k) s = .next t ∧ t = s.setMem t.mem ∧ t.mem = { s.mem with peers := t.mem.peers } ∧
      (∀ p, mGet t.mem.peers Peer.init p = { mGet s.mem.peers Peer.init p with isolated := (mGet s.mem.peers Peer.init p).isolated && p != k })) ∧
    ∀ w, k < 256 → ∃ t, exec (.podWindowWrite k w) s = .next t ∧ t = s.setMem t.mem ∧ t.mem = { s.mem with windows := t.mem.windows } ∧
      ∀ i, mFind t.mem.windows i = if i = k then w.map windowAligned else mFind s.mem.windows i
/-- FIRMWARE, ERRORS, POWER AND BRING-UP (R97, R310, R339, R369, R371, R385, R387, R388). Each write changes what it names and
nothing else; a key that is loaded finds no line of its slot in the slices; an error is counted by its class; a trip takes
everything resident and keeps memory; a power loss is a reset; the six steps of bring-up, and launches held are accepted at the
last. -/
def Obligations.FirmwareAndPower : Prop :=
  (∀ (s : State) (core n : Nat) (table : List Byte) (strict : Bool), core < 512 → n < 2 →
    ∃ t, exec (.timetableWrite core n table strict) s = .next t ∧ t = s.setCores t.cores ∧
      (t.schedAt core n).strict = strict ∧ (t.schedAt core n).cycle = (s.schedAt core n).cycle ∧
      (∀ i < 64, mGet (t.schedAt core n).table 0 i = table.getD i 0 &&& 0x0F) ∧ ∀ k, k ≠ core → t.coreAt k = s.coreAt k) ∧
  (∀ (s : State) (q ctr : Nat) (part : Option Nat), q < 128 → ctr < 2048 → ∃ t, exec (.counterAssign q ctr part) s = .next t ∧
    t = s.setQuads t.quads ∧ ∀ k c, t.ctr k c = if k = q ∧ c = ctr then { s.ctr q ctr with owner := part.map (· % 8) } else s.ctr k c) ∧
  (∀ (s : State) (die n : Nat) (g : GroupCfg), die < 4 → n < 64 → groupOk g = true → ∃ t, exec (.groupConfigure die n g) s = .next t ∧
    t = s.setDies t.dies ∧ ∀ k c, slotAt t k c = if k = die ∧ c = n then { slotAt s die n with cfg := some g, seq := 0, faulted := false, silent := [] } else slotAt s k c) ∧
  (∀ (s : State) (n : Nat),
    (∀ mask, n < 4 → ∃ t, exec (.wayPartitionMaskSet n mask) s = .next t ∧ t = s.setMem t.mem ∧
      t.mem = { s.mem with ways := t.mem.ways } ∧ ∀ k, mFind t.mem.ways k = if k = n then some mask else mFind s.mem.ways k) ∧
    ∀ key, n ≠ 0 → n < 8192 → (s.mem.lines.map (·.1)).Nodup →
      (∀ x ∈ s.mem.lines, (x.2.dirty.map (·.1)).Nodup ∧ ∀ y ∈ x.2.dirty, y.1 < 1024) →
      ∃ t, exec (.keyLoad n key) s = .next t ∧ t = s.setMem t.mem ∧
        (∀ k, mFind t.mem.keys k = if k = n then key else mFind s.mem.keys k) ∧
        (∀ ln, mFind t.mem.lines ln = (mFind s.mem.lines ln).filter fun l => l.key != n) ∧
        ∀ pa, (mFind s.mem.lines (pa / 1024)).any (fun l => l.key == n) = true →
          t.mem.hbmView (s.mem.keyOf n) pa = s.mem.byteUnder (s.mem.keyOf n) pa) ∧
  (∀ (s : State) (correctable lasting : Bool) (site : EccSite), ∃ t, exec (.eccError correctable lasting site) s = .next t ∧
    t.rel.soft = s.rel.soft + (if lasting then 0 else 1) ∧ t.rel.lasting = s.rel.lasting + (if lasting then 1 else 0) ∧
    (site ∈ t.rel.fenced ↔ lasting = true ∨ site ∈ s.rel.fenced) ∧
    (∀ pa, site = .hbm pa → ∀ q, q ∈ t.mem.ecc ↔ if q = pa then correctable = false else q ∈ s.mem.ecc) ∧
    ∀ q b col, site = .bank q b col → correctable = false → (mFind (s.quad q).banks b).isSome = true →
      (mGet (t.quad q).banks LatchBank.init b).valid = false) ∧
  (∀ (s : State),
    (∃ t, exec .thermalTrip s = .next t ∧ t.warps = [] ∧ t.blocks = [] ∧ t.launch = Launch.init ∧ t.host.out = s.host.out ∧
      t.host.chanOpen = false ∧ t.rel.stage = 0 ∧ t.rel.verified = false ∧ ∀ k pa, t.mem.byteUnder k pa = s.mem.byteUnder k pa) ∧
    exec .powerLoss s = .next { State.reset with agenda := s.agenda, tick := s.tick, host := { State.reset.host with out := s.host.out } }) ∧
  ∀ (s : State) (x : BringUpArgs),
    (s.rel.stage = 0 → x.verified = false → exec (.bringUp x) s = .next s) ∧
    (s.rel.stage = 0 → x.verified = true → ∃ t, exec (.bringUp x) s = .next t ∧ t = (s.setRel t.rel).setHost t.host ∧
      t.rel = { s.rel with stage := 1, verified := true, images := s.rel.images ++ [x.image] } ∧ t.host = { s.host with chanOpen := true }) ∧
    (s.rel.stage = 3 → ∃ t, exec (.bringUp x) s = .next t ∧ t.rel.stage = 4 ∧ t.host = { s.host with device := x.device % 1024 }) ∧
    (s.rel.stage = 5 → ∃ t, exec (.bringUp x) s = .next t ∧ t.rel.stage = 6 ∧ t.launch.held = [] ∧
      (s.launch.held = [] → t = s.setRel t.rel) ∧ ∀ n tag r, s.launch.held = [(n, tag, r)] →
        t = acceptLaunch n tag r ((s.setRel t.rel).updLaunch fun l => { l with held := [] })) ∧
    ∀ n, s.rel.stage = n → n = 1 ∨ n = 2 ∨ n = 4 → ∃ t, exec (.bringUp x) s = .next t ∧ t.rel = { s.rel with stage := n + 1 } ∧
      t = (s.setRel t.rel).setMem t.mem ∧ (n = 1 → t.mem = s.mem) ∧
      (n = 2 → (∀ x ∈ s.mem.lines, x.2.key = 0) →
        t.mem = { s.mem with keys := t.mem.keys, roots := t.mem.roots }) ∧ (n = 4 → t.mem = { s.mem with windows := t.mem.windows })

/-! ### Issue -/
/-- THE TIMETABLE (R97, R98, R99), outside deterministic mode. The partition of entry c mod 64 issues where it has a ready warp;
else, where the entry lends and the table is not strict, that of the nearest following entry that has one; else the cycle is
idle. A ready warp passed over in 31 cycles goes first, else the oldest. A table as reset leaves it lets partition 0 alone
issue. -/
def Obligations.SchedulersFollowTheTimetable : Prop :=
  ∀ (s : State) (core sched : Nat), coreDet s core = false →
    (readyFor s core sched (slotPart s core sched 0) = true → issuesFor s core sched (slotPart s core sched 0)) ∧
    (readyFor s core sched (slotPart s core sched 0) = false → slotLends s core sched = true → (s.schedAt core sched).strict = false →
      ∀ n < 63, readyFor s core sched (slotPart s core sched (n + 1)) = true →
        (∀ k < n, readyFor s core sched (slotPart s core sched (k + 1)) = false) →
        issuesFor s core sched (slotPart s core sched (n + 1))) ∧
    (readyFor s core sched (slotPart s core sched 0) = false →
      (slotLends s core sched = false ∨ (s.schedAt core sched).strict = true ∨
        ∀ n < 63, readyFor s core sched (slotPart s core sched (n + 1)) = false) → (selectCycle core sched s).1 = none) ∧
    ((s.schedAt core sched).table = [] → ∀ p, (selectCycle core sched s).1 = some p →
      ∃ kw ∈ s.warps, kw.1 = p.wk ∧ (s.block kw.2.bk).part = 0)
/-- BUNDLES (R104 to R106, R108 to R110), outside deterministic mode. Of the lanes that may be selected, A is those with the
lowest key and B those with the lowest key of the rest; B is held back where both are of the memory class, and no other group
takes its place; in serial mode A is one lane and there is no B; with no such lane nothing issues. A group at a switch marker
that waits is passed by. Keys compare as the triples (yield, 63 - depth, PC). -/
def Obligations.BundlesByKey : Prop :=
  (∀ x y : Lane, laneKey x < laneKey y ↔ (x.yld = false ∧ y.yld = true) ∨ (x.yld = y.yld ∧ (y.depth.toNat < x.depth.toNat ∨
      (x.depth = y.depth ∧ x.pc.toNat < y.pc.toNat)))) ∧
  (∀ (s : State) (w : Warp), w.serial = false → (∃ l < 32, selectable s w l = true) →
    ∃ a b, bundlesOf s w false = some (a, b) ∧ (∀ l < 32, a.getLsbD l = true ↔ lowestOf w (selectable s w) l) ∧
      (∀ m, b = some m → ∀ l < 32, m.getLsbD l = true ↔ lowestOf w (fun k => selectable s w k && !a.getLsbD k) l) ∧
      (b = none ↔ (∀ l < 32, selectable s w l = true → a.getLsbD l = true) ∨
        ∃ m, (∀ l < 32, m.getLsbD l = true ↔ lowestOf w (fun k => selectable s w k && !a.getLsbD k) l) ∧
          memClass (groupWord s w a) = true ∧ memClass (groupWord s w m) = true)) ∧
  (∀ (s : State) (w : Warp), w.serial = true → (∃ l < 32, selectable s w l = true) →
    ∃ l < 32, bundlesOf s w false = some (laneBit l, none) ∧ lowestOf w (selectable s w) l ∧
      ∀ k < 32, lowestOf w (selectable s w) k → l ≤ k) ∧
  (∀ (s : State) (w : Warp), (∀ l < 32, selectable s w l = false) → bundlesOf s w false = none) ∧
  ∀ w : Warp, ((∀ x ∈ w.lanes, x.st = .active → x.yld = true) → ∀ x ∈ (prepSel w).lanes, x.yld = false) ∧
    ((∃ x ∈ w.lanes, x.st = .active ∧ x.yld = false) → (prepSel w).lanes = w.lanes)

/-! ### Encodings, the step, reset and memory -/
/-- ROUND TRIP (R46, R51 to R64, R68): decoding the word of a well-formed instruction gives the instruction back. -/
def Obligations.RoundTrip : Prop :=
  ∀ i : Instr, wellFormed i = true → hasWord i = true → decodeWord (encode i) = .ok i
/-- EXACT DECODING (R53, R68): a word that decodes is the word of its instruction, so no bit of it is passed over, and no two
words are one instruction. -/
def Obligations.DecodingIsExact : Prop :=
  ∀ (w : Word) (i : Instr), decodeWord w = .ok i → hasWord i = true ∧ encode i = w
/-- SPEC WORDS (R46, R52, R53, R61, R64, R68): words written out from their fields, among them the spec's worked decodings, read
as what they stand for, and words of its fate table as no instruction. -/
def Obligations.SpecWords : Prop :=
  decodeWord (0#1 ++ 0#1 ++ 0x01#6 ++ 1#3 ++ 3#7 ++ 1#7 ++ 2#7) = .ok (.iadd false .satS 3 1 2) ∧
  decodeWord (0#1 ++ 0#1 ++ 0x2E#6 ++ 0#3 ++ 10#7 ++ 3#7 ++ 0x44#7) = .ok (.cvt false .rn .f32E4m3 true 10 3) ∧
  decodeWord (0#1 ++ 1#1 ++ 0x3A#6 ++ 12#7 ++ 1#7 ++ 2#2 ++ 1#2 ++ 2#6) = .ok (.lds true .b32 .xfront 12 1 2) ∧
  decodeWord (0#1 ++ 0#1 ++ 0x3C#6 ++ 3#7 ++ 92#7 ++ 0#1 ++ 3#3 ++ 0#1 ++ 1#5) = .ok (.lda false false .d false 3 92 1) ∧
  decodeWord (0#1 ++ 0#1 ++ 0x3E#6 ++ 4#7 ++ 3#7 ++ 0#3 ++ 0#4 ++ 1#1 ++ 0#2) = .ok (.atom false .add .plain .b32 true 4 3) ∧
  decodeWord (0#1 ++ 0#1 ++ 0x18#6 ++ 4#3 ++ 0#1 ++ 0#3 ++ 125#7 ++ 8#10) = .ok (.iseti false .ltN 0 125 8) ∧
  decodeWord (1#1 ++ 0#1 ++ 0x01#6 ++ 1#1 ++ 2#3 ++ 0xFFFFD#20) = .ok (.bra false true 2 0xFFFFD) ∧
  decodeWord (1#1 ++ 0#1 ++ 0x17#6 ++ 95#7 ++ 0#3 ++ 100#14) = .ok (.galui false .add 95 100) ∧
  decodeWord (1#1 ++ 0#1 ++ 0x12#6 ++ 3#3 ++ 0#7 ++ 0#7 ++ 2#7) = .ok (.fence false .d 2) ∧
  decodeWord (1#1 ++ 0#1 ++ 0x11#6 ++ 1#3 ++ 0#7 ++ 94#7 ++ 0#7) = .ok (.barx false .arrive 0 94 0) ∧
  decodeWord (1#1 ++ 1#1 ++ 0x00#6 ++ 0#24) = .ok (.nop true) ∧
  decodeWord (1#1 ++ 0#1 ++ 0x30#6 ++ 0#3 ++ 100#7 ++ 94#7 ++ 102#7) = .ok (.wdq false 100 94 102) ∧
  wordInstr 0x23C14307 = .illegal 0x23C14307 ∧ wordInstr 0 = .illegal 0 ∧ wordInstr 0x40000000 = .illegal 0x40000000 ∧
  wordInstr 0xFFFFFFFF = .illegal 0xFFFFFFFF
/-- THE STEP (log 1). Bundle B of the cycle comes first, then the environment's move, the machine's own next event, and the next
busy scheduler's cycle. A bundle's step is `exec` of the instruction that the word at its address stands for, at that
bundle; a word that is no well-formed instruction is ILLEGAL (R68), a fetch that faults is taken by the bundle (R182). After
bundle B the ops on local barrier objects that the two bundles of the cycle share take effect (R202). -/
def Obligations.StepRunsTheInstruction : Prop :=
  (∀ (s : State) (wk : Nat) (m : Word), pendingB s = some (wk, m) →
    step s = (match runBundle s.cur.core s.cur.sched wk m true (setPendB s.cur.core s.cur.sched none s) with
      | .next t => .next (flushObjs s.cur.core s.cur.sched t)
      | o => o) ∧
    ∀ t : State, (t.schedAt s.cur.core s.cur.sched).late = [] → flushObjs s.cur.core s.cur.sched t = t) ∧
  (∀ (s : State) (i : Instr) (l : List Move), pendingB s = none → s.agenda = .event i :: l → step s = exec i (s.setAgenda l)) ∧
  (∀ (s u : State) (core sched : Nat) (l : List Move) (x : Option Pick), pendingB s = none → s.agenda = .cycle core sched :: l →
    selectCycle core sched (s.setAgenda l) = (x, u) → step s = (match x with
      | some p => runBundle core sched p.wk p.a false (setPendB core sched (p.b.map fun m => (p.wk, m)) u)
      | none => .next u)) ∧
  (∀ (s : State) (i : Instr), pendingB s = none → s.agenda = [] → autoEvent s = some i → step s = exec i s) ∧
  (∀ (s u : State) (k : Nat) (x : Option Pick), pendingB s = none → s.agenda = [] → autoEvent s = none → nextBusy s = some k →
    selectCycle (k / 2) (k % 2) ((if k < s.nextSched then tickUnits s else s).setNextSched (k + 1)) = (x, u) →
    step s = (match x with
      | some p => runBundle (k / 2) (k % 2) p.wk p.a false (setPendB (k / 2) (k % 2) (p.b.map fun m => (p.wk, m)) u)
      | none => .next u)) ∧
  ∀ (s u : State) (core sched wk : Nat) (m : Word) (isB : Bool) (w : Warp), mFind s.warps wk = some w →
    (∀ x, fetchWord core (s.block w.bk).part (groupPc w m) s = (.ok x, u) →
      (∀ i, decodeWord x = .ok i → wellFormed i = true → runBundle core sched wk m isB s =
        exec i ((setBundle core sched wk m isB (groupPc w m) x u).updWarp wk (markSeen x))) ∧
      ((∀ i, decodeWord x = .ok i → wellFormed i = false) → runBundle core sched wk m isB s =
        exec (.illegal x) ((setBundle core sched wk m isB (groupPc w m) x u).updWarp wk (markSeen x))) ∧
      (u.warps = s.warps → w.lanes.length = 32 → m ≠ 0 →
        ((setBundle core sched wk m isB (groupPc w m) x u).updWarp wk (markSeen x)).inBundle = true)) ∧
    (∀ f, fetchWord core (s.block w.bk).part (groupPc w m) s = (.error f, u) → runBundle core sched wk m isB s =
      .next (raiseBundle f.code (BitVec.ofNat 17 f.detail) (groupPc w m) (setBundle core sched wk m isB (groupPc w m) 0 u))) ∧
    ∀ a, translate (some core) (s.block w.bk).part .fetch 0 (groupPc w m).toNat s = (.ok a, u) →
      (∀ o < 4, a.pa + o ∉ u.mem.ecc) → ∃ x : Word,
        fetchWord core (s.block w.bk).part (groupPc w m) s = (.ok x, u.updMem fun m => m.countRead (a.pa / 1024)) ∧
        ∀ o < 4, x.extractLsb' (8 * o) 8 = u.mem.byteUnder (u.mem.keyOf a.attr.key) (a.pa + o)
/-- RESET (R97, R291, R310, R387, R388): memory lists nothing and is in its canonical form; no work is resident; every
timetable entry gives its cycle to partition 0 without lending; no key is loaded, no counter owned; bring-up has not begun. -/
def Obligations.ResetState : Prop :=
  Memory.wf State.reset.mem.hbm = true ∧ State.reset.mem.hbm = [] ∧ State.reset.warps = [] ∧ State.reset.blocks = [] ∧
  (∀ core sched i, entryPart (State.reset.schedAt core sched) i = 0 ∧ (State.reset.schedAt core sched).strict = false ∧
    (mGet (State.reset.schedAt core sched).table 0 i).getLsbD 3 = false) ∧
  (∀ q c, (mGet (State.reset.quad q).ctrs Ctr.init c).owner = none) ∧ (∀ q, (State.reset.quad q).budget = 64) ∧
  State.reset.mem.keys = [] ∧ State.reset.rel.stage = 0 ∧ State.reset.rel.verified = false
/-- CANONICAL MEMORY: no step of the machine, of whatever agent, leaves memory out of its canonical form, in which equal
memories are equal data. -/
def Obligations.MemoryStaysCanonical : Prop :=
  ∀ s t : State, Memory.wf s.mem.hbm = true → step s = .next t → Memory.wf t.mem.hbm = true
end

