-- ==== Sys2Proof/Laws/Map.lean ====
section
/-! SUPPORT. The laws of tables (read after write, writes leave other keys alone) and of memory: every memory operation
keeps the canonical form. -/
namespace Sys2Proof.Machine

/-! ### Tables -/
@[simp] theorem mFind_mSet {α : Type} (m : Map α) (k j : Nat) (v : α) :
    mFind (mSet m k v) j = if k = j then some v else mFind m j := by
  induction m with
  | nil => simp [mSet, mFind]
  | cons x t ih =>
    obtain ⟨k', v'⟩ := x
    simp only [mSet]
    split
    · subst k'; simp only [mFind]; split <;> rfl
    · split
      · simp only [mFind]
      · simp only [mFind, ih]
        split <;> split <;> simp_all
@[simp] theorem mFind_mErase {α : Type} (m : Map α) (k j : Nat) :
    mFind (mErase m k) j = if k = j then none else mFind m j := by
  induction m with
  | nil => simp [mErase, mFind]
  | cons x t ih =>
    obtain ⟨k', v'⟩ := x
    simp only [mErase]
    split
    · subst k'; rw [ih]; simp only [mFind]; split <;> simp_all
    · simp only [mFind, ih]; split <;> split <;> simp_all
@[simp] theorem mFind_mMod {α : Type} (m : Map α) (k j : Nat) (f : α → α) :
    mFind (mMod m k f) j = if k = j then (mFind m j).map f else mFind m j := by
  induction m with
  | nil => simp [mMod, mFind]
  | cons x t ih =>
    obtain ⟨k', v'⟩ := x
    simp only [mMod]
    split
    · subst k'; simp only [mFind]; split <;> simp_all
    · simp only [mFind, ih]; split <;> split <;> simp_all
@[simp] theorem mGet_mSet {α : Type} (m : Map α) (d : α) (k j : Nat) (v : α) :
    mGet (mSet m k v) d j = if k = j then v else mGet m d j := by
  simp only [mGet, mFind_mSet]; split <;> rfl
@[simp] theorem mGet_mErase {α : Type} (m : Map α) (d : α) (k j : Nat) :
    mGet (mErase m k) d j = if k = j then d else mGet m d j := by
  simp only [mGet, mFind_mErase]; split <;> rfl
@[simp] theorem mGet_mUpd {α : Type} (m : Map α) (d e : α) (k j : Nat) (f : α → α) :
    mGet (mUpd m d k f) e j = if k = j then f (mGet m d k) else mGet m e j := by
  simp [mUpd]
/-- A listed key's value is changed in place. -/
theorem mGet_mMod {α : Type} (m : Map α) (d : α) (k j : Nat) (f : α → α) (h : (mFind m k).isSome) :
    mGet (mMod m k f) d j = if k = j then f (mGet m d k) else mGet m d j := by
  simp only [mGet, mFind_mMod]
  split
  · subst j; cases hx : mFind m k <;> simp_all
  · rfl

/-! ### The canonical form of memory -/
/-- The keys rise strictly, and no entry is the default. -/
theorem Memory.wf_iff (m : Memory) :
    Memory.wf m = true ↔ m.Pairwise (fun x y => x.1 < y.1) ∧ ∀ x ∈ m, x.2 ≠ memDefault := by
  induction m with
  | nil => simp [Memory.wf]
  | cons x t ih =>
    obtain ⟨a, v⟩ := x
    cases t with
    | nil => simp [Memory.wf]
    | cons y t =>
      obtain ⟨b, u⟩ := y
      simp only [Memory.wf, Bool.and_eq_true, decide_eq_true_eq, ih, bne_iff_ne, List.pairwise_cons,
        List.forall_mem_cons]
      constructor
      · rintro ⟨⟨h1, h2⟩, ⟨h3, h4⟩, h5, h6⟩
        exact ⟨⟨⟨h2, fun z hz => Nat.lt_trans h2 (h3 z hz)⟩, h3, h4⟩, h1, h5, h6⟩
      · rintro ⟨⟨⟨h2, _⟩, h3, h4⟩, h1, h5, h6⟩
        exact ⟨⟨h1, h2⟩, ⟨h3, h4⟩, h5, h6⟩
theorem mem_mErase {α : Type} (m : Map α) (k : Nat) (x : Nat × α) : x ∈ mErase m k → x ∈ m := by
  induction m with
  | nil => simp [mErase]
  | cons y t ih =>
    simp only [mErase]
    split
    · exact fun h => List.mem_cons_of_mem _ (ih h)
    · simp only [List.mem_cons]; exact fun h => h.imp id ih
theorem mem_mSet {α : Type} (m : Map α) (k : Nat) (v : α) (x : Nat × α) : x ∈ mSet m k v → x = (k, v) ∨ x ∈ m := by
  induction m with
  | nil => simp [mSet]
  | cons y t ih =>
    simp only [mSet]
    split
    · simp only [List.mem_cons]; exact fun h => h.imp id .inr
    · split
      · simp only [List.mem_cons]; exact fun h => h
      · simp only [List.mem_cons]
        rintro (h | h)
        · exact .inr (.inl h)
        · exact (ih h).imp id .inr
theorem pairwise_mErase {α : Type} (m : Map α) (k : Nat) (h : m.Pairwise (fun x y => x.1 < y.1)) :
    (mErase m k).Pairwise (fun x y => x.1 < y.1) := by
  induction m with
  | nil => simp [mErase]
  | cons y t ih =>
    rw [List.pairwise_cons] at h
    simp only [mErase]
    split
    · exact ih h.2
    · exact List.pairwise_cons.2 ⟨fun z hz => h.1 z (mem_mErase t k z hz), ih h.2⟩
theorem pairwise_mSet {α : Type} (m : Map α) (k : Nat) (v : α) (h : m.Pairwise (fun x y => x.1 < y.1)) :
    (mSet m k v).Pairwise (fun x y => x.1 < y.1) := by
  induction m with
  | nil => simp [mSet]
  | cons y t ih =>
    have h' := List.pairwise_cons.1 h
    simp only [mSet]
    split
    · rename_i e; subst e
      exact List.pairwise_cons.2 ⟨h'.1, h'.2⟩
    · split
      · rename_i e
        refine List.pairwise_cons.2 ⟨fun z hz => ?_, h⟩
        rcases List.mem_cons.1 hz with rfl | hz
        · exact e
        · exact Nat.lt_trans e (h'.1 z hz)
      · rename_i e1 e2
        refine List.pairwise_cons.2 ⟨fun z hz => ?_, ih h'.2⟩
        rcases mem_mSet t k v z hz with rfl | hz
        · show y.1 < k; omega
        · exact h'.1 z hz
/-- A byte's write keeps the canonical form. -/
theorem memWrite_wf (m : Memory) (a : Nat) (v : Byte) (h : Memory.wf m = true) : Memory.wf (memWrite m a v) = true := by
  rw [Memory.wf_iff] at h ⊢
  unfold memWrite
  split
  · exact ⟨pairwise_mErase m a h.1, fun x hx => h.2 x (mem_mErase m a x hx)⟩
  · rename_i hv
    refine ⟨pairwise_mSet m a v h.1, fun x hx => ?_⟩
    rcases mem_mSet m a v x hx with rfl | hx
    · exact hv
    · exact h.2 x hx
/-- So does a write of many bytes. -/
theorem memWriteBytes_wf (bs : List Byte) (m : Memory) (a : Nat) (h : Memory.wf m = true) :
    Memory.wf (memWriteBytes m a bs) = true := by
  induction bs generalizing m a with
  | nil => exact h
  | cons v t ih => exact ih _ _ (memWrite_wf m a v h)
/-- Read after write, and every other byte is left alone. -/
@[simp] theorem memRead_memWrite (m : Memory) (a b : Nat) (v : Byte) :
    memRead (memWrite m a v) b = if a = b then v else memRead m b := by
  unfold memWrite memRead
  split
  · rename_i h; subst h; simp
  · simp
/-- Bytes written upward read back, and every other byte is left alone. -/
theorem memRead_memWriteBytes (bs : List Byte) (m : Memory) (a b : Nat) :
    memRead (memWriteBytes m a bs) b =
      if a ≤ b ∧ b < a + bs.length then bs.getD (b - a) 0 else memRead m b := by
  induction bs generalizing m a with
  | nil =>
    simp [memWriteBytes]
  | cons v t ih =>
    rw [memWriteBytes, ih, memRead_memWrite, List.length_cons]
    by_cases h1 : a = b
    · subst h1
      simp
    · by_cases h2 : a ≤ b ∧ b < a + (t.length + 1)
      · obtain ⟨c, rfl⟩ : ∃ c, b = a + 1 + c := ⟨b - a - 1, by omega⟩
        have h3 : a + 1 ≤ a + 1 + c ∧ a + 1 + c < a + 1 + t.length := by omega
        have h4 : a + 1 + c - a = c + 1 := by omega
        have h5 : a + 1 + c - (a + 1) = c := by omega
        rw [if_pos h3, if_pos h2, h4, h5]; rfl
      · have h3 : ¬ (a + 1 ≤ b ∧ b < a + 1 + t.length) := by omega
        rw [if_neg h3, if_neg h1, if_neg h2]
/-- Reset's memory is in canonical form. -/
theorem memory_nil_wf : Memory.wf [] = true := rfl

end Sys2Proof.Machine
end

