-- ==== Sys2Proof/Laws/State.lean ====
section
/-! SUPPORT. One lemma for each field and each update of State, true by rfl, and the readings of the keyed parts. -/
namespace Sys2Proof.Machine

/-! ### The setters -/
@[simp] theorem State.setCur_cur (s : State) (x : Cur) : (s.setCur x).cur = x := rfl
@[simp] theorem State.setCur_agenda (s : State) (x : Cur) : (s.setCur x).agenda = s.agenda := rfl
@[simp] theorem State.setCur_nextSched (s : State) (x : Cur) : (s.setCur x).nextSched = s.nextSched := rfl
@[simp] theorem State.setCur_tick (s : State) (x : Cur) : (s.setCur x).tick = s.tick := rfl
@[simp] theorem State.setCur_warps (s : State) (x : Cur) : (s.setCur x).warps = s.warps := rfl
@[simp] theorem State.setCur_blocks (s : State) (x : Cur) : (s.setCur x).blocks = s.blocks := rfl
@[simp] theorem State.setCur_clusters (s : State) (x : Cur) : (s.setCur x).clusters = s.clusters := rfl
@[simp] theorem State.setCur_cores (s : State) (x : Cur) : (s.setCur x).cores = s.cores := rfl
@[simp] theorem State.setCur_quads (s : State) (x : Cur) : (s.setCur x).quads = s.quads := rfl
@[simp] theorem State.setCur_dies (s : State) (x : Cur) : (s.setCur x).dies = s.dies := rfl
@[simp] theorem State.setCur_mem (s : State) (x : Cur) : (s.setCur x).mem = s.mem := rfl
@[simp] theorem State.setCur_faults (s : State) (x : Cur) : (s.setCur x).faults = s.faults := rfl
@[simp] theorem State.setCur_launch (s : State) (x : Cur) : (s.setCur x).launch = s.launch := rfl
@[simp] theorem State.setCur_wd (s : State) (x : Cur) : (s.setCur x).wd = s.wd := rfl
@[simp] theorem State.setCur_host (s : State) (x : Cur) : (s.setCur x).host = s.host := rfl
@[simp] theorem State.setCur_rel (s : State) (x : Cur) : (s.setCur x).rel = s.rel := rfl
@[simp] theorem State.setAgenda_cur (s : State) (x : List Move) : (s.setAgenda x).cur = s.cur := rfl
@[simp] theorem State.setAgenda_agenda (s : State) (x : List Move) : (s.setAgenda x).agenda = x := rfl
@[simp] theorem State.setAgenda_nextSched (s : State) (x : List Move) : (s.setAgenda x).nextSched = s.nextSched := rfl
@[simp] theorem State.setAgenda_tick (s : State) (x : List Move) : (s.setAgenda x).tick = s.tick := rfl
@[simp] theorem State.setAgenda_warps (s : State) (x : List Move) : (s.setAgenda x).warps = s.warps := rfl
@[simp] theorem State.setAgenda_blocks (s : State) (x : List Move) : (s.setAgenda x).blocks = s.blocks := rfl
@[simp] theorem State.setAgenda_clusters (s : State) (x : List Move) : (s.setAgenda x).clusters = s.clusters := rfl
@[simp] theorem State.setAgenda_cores (s : State) (x : List Move) : (s.setAgenda x).cores = s.cores := rfl
@[simp] theorem State.setAgenda_quads (s : State) (x : List Move) : (s.setAgenda x).quads = s.quads := rfl
@[simp] theorem State.setAgenda_dies (s : State) (x : List Move) : (s.setAgenda x).dies = s.dies := rfl
@[simp] theorem State.setAgenda_mem (s : State) (x : List Move) : (s.setAgenda x).mem = s.mem := rfl
@[simp] theorem State.setAgenda_faults (s : State) (x : List Move) : (s.setAgenda x).faults = s.faults := rfl
@[simp] theorem State.setAgenda_launch (s : State) (x : List Move) : (s.setAgenda x).launch = s.launch := rfl
@[simp] theorem State.setAgenda_wd (s : State) (x : List Move) : (s.setAgenda x).wd = s.wd := rfl
@[simp] theorem State.setAgenda_host (s : State) (x : List Move) : (s.setAgenda x).host = s.host := rfl
@[simp] theorem State.setAgenda_rel (s : State) (x : List Move) : (s.setAgenda x).rel = s.rel := rfl
@[simp] theorem State.setNextSched_cur (s : State) (x : Nat) : (s.setNextSched x).cur = s.cur := rfl
@[simp] theorem State.setNextSched_agenda (s : State) (x : Nat) : (s.setNextSched x).agenda = s.agenda := rfl
@[simp] theorem State.setNextSched_nextSched (s : State) (x : Nat) : (s.setNextSched x).nextSched = x := rfl
@[simp] theorem State.setNextSched_tick (s : State) (x : Nat) : (s.setNextSched x).tick = s.tick := rfl
@[simp] theorem State.setNextSched_warps (s : State) (x : Nat) : (s.setNextSched x).warps = s.warps := rfl
@[simp] theorem State.setNextSched_blocks (s : State) (x : Nat) : (s.setNextSched x).blocks = s.blocks := rfl
@[simp] theorem State.setNextSched_clusters (s : State) (x : Nat) : (s.setNextSched x).clusters = s.clusters := rfl
@[simp] theorem State.setNextSched_cores (s : State) (x : Nat) : (s.setNextSched x).cores = s.cores := rfl
@[simp] theorem State.setNextSched_quads (s : State) (x : Nat) : (s.setNextSched x).quads = s.quads := rfl
@[simp] theorem State.setNextSched_dies (s : State) (x : Nat) : (s.setNextSched x).dies = s.dies := rfl
@[simp] theorem State.setNextSched_mem (s : State) (x : Nat) : (s.setNextSched x).mem = s.mem := rfl
@[simp] theorem State.setNextSched_faults (s : State) (x : Nat) : (s.setNextSched x).faults = s.faults := rfl
@[simp] theorem State.setNextSched_launch (s : State) (x : Nat) : (s.setNextSched x).launch = s.launch := rfl
@[simp] theorem State.setNextSched_wd (s : State) (x : Nat) : (s.setNextSched x).wd = s.wd := rfl
@[simp] theorem State.setNextSched_host (s : State) (x : Nat) : (s.setNextSched x).host = s.host := rfl
@[simp] theorem State.setNextSched_rel (s : State) (x : Nat) : (s.setNextSched x).rel = s.rel := rfl
@[simp] theorem State.setTick_cur (s : State) (x : Nat) : (s.setTick x).cur = s.cur := rfl
@[simp] theorem State.setTick_agenda (s : State) (x : Nat) : (s.setTick x).agenda = s.agenda := rfl
@[simp] theorem State.setTick_nextSched (s : State) (x : Nat) : (s.setTick x).nextSched = s.nextSched := rfl
@[simp] theorem State.setTick_tick (s : State) (x : Nat) : (s.setTick x).tick = x := rfl
@[simp] theorem State.setTick_warps (s : State) (x : Nat) : (s.setTick x).warps = s.warps := rfl
@[simp] theorem State.setTick_blocks (s : State) (x : Nat) : (s.setTick x).blocks = s.blocks := rfl
@[simp] theorem State.setTick_clusters (s : State) (x : Nat) : (s.setTick x).clusters = s.clusters := rfl
@[simp] theorem State.setTick_cores (s : State) (x : Nat) : (s.setTick x).cores = s.cores := rfl
@[simp] theorem State.setTick_quads (s : State) (x : Nat) : (s.setTick x).quads = s.quads := rfl
@[simp] theorem State.setTick_dies (s : State) (x : Nat) : (s.setTick x).dies = s.dies := rfl
@[simp] theorem State.setTick_mem (s : State) (x : Nat) : (s.setTick x).mem = s.mem := rfl
@[simp] theorem State.setTick_faults (s : State) (x : Nat) : (s.setTick x).faults = s.faults := rfl
@[simp] theorem State.setTick_launch (s : State) (x : Nat) : (s.setTick x).launch = s.launch := rfl
@[simp] theorem State.setTick_wd (s : State) (x : Nat) : (s.setTick x).wd = s.wd := rfl
@[simp] theorem State.setTick_host (s : State) (x : Nat) : (s.setTick x).host = s.host := rfl
@[simp] theorem State.setTick_rel (s : State) (x : Nat) : (s.setTick x).rel = s.rel := rfl
@[simp] theorem State.setWarps_cur (s : State) (x : Map Warp) : (s.setWarps x).cur = s.cur := rfl
@[simp] theorem State.setWarps_agenda (s : State) (x : Map Warp) : (s.setWarps x).agenda = s.agenda := rfl
@[simp] theorem State.setWarps_nextSched (s : State) (x : Map Warp) : (s.setWarps x).nextSched = s.nextSched := rfl
@[simp] theorem State.setWarps_tick (s : State) (x : Map Warp) : (s.setWarps x).tick = s.tick := rfl
@[simp] theorem State.setWarps_warps (s : State) (x : Map Warp) : (s.setWarps x).warps = x := rfl
@[simp] theorem State.setWarps_blocks (s : State) (x : Map Warp) : (s.setWarps x).blocks = s.blocks := rfl
@[simp] theorem State.setWarps_clusters (s : State) (x : Map Warp) : (s.setWarps x).clusters = s.clusters := rfl
@[simp] theorem State.setWarps_cores (s : State) (x : Map Warp) : (s.setWarps x).cores = s.cores := rfl
@[simp] theorem State.setWarps_quads (s : State) (x : Map Warp) : (s.setWarps x).quads = s.quads := rfl
@[simp] theorem State.setWarps_dies (s : State) (x : Map Warp) : (s.setWarps x).dies = s.dies := rfl
@[simp] theorem State.setWarps_mem (s : State) (x : Map Warp) : (s.setWarps x).mem = s.mem := rfl
@[simp] theorem State.setWarps_faults (s : State) (x : Map Warp) : (s.setWarps x).faults = s.faults := rfl
@[simp] theorem State.setWarps_launch (s : State) (x : Map Warp) : (s.setWarps x).launch = s.launch := rfl
@[simp] theorem State.setWarps_wd (s : State) (x : Map Warp) : (s.setWarps x).wd = s.wd := rfl
@[simp] theorem State.setWarps_host (s : State) (x : Map Warp) : (s.setWarps x).host = s.host := rfl
@[simp] theorem State.setWarps_rel (s : State) (x : Map Warp) : (s.setWarps x).rel = s.rel := rfl
@[simp] theorem State.setBlocks_cur (s : State) (x : Map Block) : (s.setBlocks x).cur = s.cur := rfl
@[simp] theorem State.setBlocks_agenda (s : State) (x : Map Block) : (s.setBlocks x).agenda = s.agenda := rfl
@[simp] theorem State.setBlocks_nextSched (s : State) (x : Map Block) : (s.setBlocks x).nextSched = s.nextSched := rfl
@[simp] theorem State.setBlocks_tick (s : State) (x : Map Block) : (s.setBlocks x).tick = s.tick := rfl
@[simp] theorem State.setBlocks_warps (s : State) (x : Map Block) : (s.setBlocks x).warps = s.warps := rfl
@[simp] theorem State.setBlocks_blocks (s : State) (x : Map Block) : (s.setBlocks x).blocks = x := rfl
@[simp] theorem State.setBlocks_clusters (s : State) (x : Map Block) : (s.setBlocks x).clusters = s.clusters := rfl
@[simp] theorem State.setBlocks_cores (s : State) (x : Map Block) : (s.setBlocks x).cores = s.cores := rfl
@[simp] theorem State.setBlocks_quads (s : State) (x : Map Block) : (s.setBlocks x).quads = s.quads := rfl
@[simp] theorem State.setBlocks_dies (s : State) (x : Map Block) : (s.setBlocks x).dies = s.dies := rfl
@[simp] theorem State.setBlocks_mem (s : State) (x : Map Block) : (s.setBlocks x).mem = s.mem := rfl
@[simp] theorem State.setBlocks_faults (s : State) (x : Map Block) : (s.setBlocks x).faults = s.faults := rfl
@[simp] theorem State.setBlocks_launch (s : State) (x : Map Block) : (s.setBlocks x).launch = s.launch := rfl
@[simp] theorem State.setBlocks_wd (s : State) (x : Map Block) : (s.setBlocks x).wd = s.wd := rfl
@[simp] theorem State.setBlocks_host (s : State) (x : Map Block) : (s.setBlocks x).host = s.host := rfl
@[simp] theorem State.setBlocks_rel (s : State) (x : Map Block) : (s.setBlocks x).rel = s.rel := rfl
@[simp] theorem State.setClusters_cur (s : State) (x : Map Cluster) : (s.setClusters x).cur = s.cur := rfl
@[simp] theorem State.setClusters_agenda (s : State) (x : Map Cluster) : (s.setClusters x).agenda = s.agenda := rfl
@[simp] theorem State.setClusters_nextSched (s : State) (x : Map Cluster) : (s.setClusters x).nextSched = s.nextSched := rfl
@[simp] theorem State.setClusters_tick (s : State) (x : Map Cluster) : (s.setClusters x).tick = s.tick := rfl
@[simp] theorem State.setClusters_warps (s : State) (x : Map Cluster) : (s.setClusters x).warps = s.warps := rfl
@[simp] theorem State.setClusters_blocks (s : State) (x : Map Cluster) : (s.setClusters x).blocks = s.blocks := rfl
@[simp] theorem State.setClusters_clusters (s : State) (x : Map Cluster) : (s.setClusters x).clusters = x := rfl
@[simp] theorem State.setClusters_cores (s : State) (x : Map Cluster) : (s.setClusters x).cores = s.cores := rfl
@[simp] theorem State.setClusters_quads (s : State) (x : Map Cluster) : (s.setClusters x).quads = s.quads := rfl
@[simp] theorem State.setClusters_dies (s : State) (x : Map Cluster) : (s.setClusters x).dies = s.dies := rfl
@[simp] theorem State.setClusters_mem (s : State) (x : Map Cluster) : (s.setClusters x).mem = s.mem := rfl
@[simp] theorem State.setClusters_faults (s : State) (x : Map Cluster) : (s.setClusters x).faults = s.faults := rfl
@[simp] theorem State.setClusters_launch (s : State) (x : Map Cluster) : (s.setClusters x).launch = s.launch := rfl
@[simp] theorem State.setClusters_wd (s : State) (x : Map Cluster) : (s.setClusters x).wd = s.wd := rfl
@[simp] theorem State.setClusters_host (s : State) (x : Map Cluster) : (s.setClusters x).host = s.host := rfl
@[simp] theorem State.setClusters_rel (s : State) (x : Map Cluster) : (s.setClusters x).rel = s.rel := rfl
@[simp] theorem State.setCores_cur (s : State) (x : Map Core) : (s.setCores x).cur = s.cur := rfl
@[simp] theorem State.setCores_agenda (s : State) (x : Map Core) : (s.setCores x).agenda = s.agenda := rfl
@[simp] theorem State.setCores_nextSched (s : State) (x : Map Core) : (s.setCores x).nextSched = s.nextSched := rfl
@[simp] theorem State.setCores_tick (s : State) (x : Map Core) : (s.setCores x).tick = s.tick := rfl
@[simp] theorem State.setCores_warps (s : State) (x : Map Core) : (s.setCores x).warps = s.warps := rfl
@[simp] theorem State.setCores_blocks (s : State) (x : Map Core) : (s.setCores x).blocks = s.blocks := rfl
@[simp] theorem State.setCores_clusters (s : State) (x : Map Core) : (s.setCores x).clusters = s.clusters := rfl
@[simp] theorem State.setCores_cores (s : State) (x : Map Core) : (s.setCores x).cores = x := rfl
@[simp] theorem State.setCores_quads (s : State) (x : Map Core) : (s.setCores x).quads = s.quads := rfl
@[simp] theorem State.setCores_dies (s : State) (x : Map Core) : (s.setCores x).dies = s.dies := rfl
@[simp] theorem State.setCores_mem (s : State) (x : Map Core) : (s.setCores x).mem = s.mem := rfl
@[simp] theorem State.setCores_faults (s : State) (x : Map Core) : (s.setCores x).faults = s.faults := rfl
@[simp] theorem State.setCores_launch (s : State) (x : Map Core) : (s.setCores x).launch = s.launch := rfl
@[simp] theorem State.setCores_wd (s : State) (x : Map Core) : (s.setCores x).wd = s.wd := rfl
@[simp] theorem State.setCores_host (s : State) (x : Map Core) : (s.setCores x).host = s.host := rfl
@[simp] theorem State.setCores_rel (s : State) (x : Map Core) : (s.setCores x).rel = s.rel := rfl
@[simp] theorem State.setQuads_cur (s : State) (x : Map Quad) : (s.setQuads x).cur = s.cur := rfl
@[simp] theorem State.setQuads_agenda (s : State) (x : Map Quad) : (s.setQuads x).agenda = s.agenda := rfl
@[simp] theorem State.setQuads_nextSched (s : State) (x : Map Quad) : (s.setQuads x).nextSched = s.nextSched := rfl
@[simp] theorem State.setQuads_tick (s : State) (x : Map Quad) : (s.setQuads x).tick = s.tick := rfl
@[simp] theorem State.setQuads_warps (s : State) (x : Map Quad) : (s.setQuads x).warps = s.warps := rfl
@[simp] theorem State.setQuads_blocks (s : State) (x : Map Quad) : (s.setQuads x).blocks = s.blocks := rfl
@[simp] theorem State.setQuads_clusters (s : State) (x : Map Quad) : (s.setQuads x).clusters = s.clusters := rfl
@[simp] theorem State.setQuads_cores (s : State) (x : Map Quad) : (s.setQuads x).cores = s.cores := rfl
@[simp] theorem State.setQuads_quads (s : State) (x : Map Quad) : (s.setQuads x).quads = x := rfl
@[simp] theorem State.setQuads_dies (s : State) (x : Map Quad) : (s.setQuads x).dies = s.dies := rfl
@[simp] theorem State.setQuads_mem (s : State) (x : Map Quad) : (s.setQuads x).mem = s.mem := rfl
@[simp] theorem State.setQuads_faults (s : State) (x : Map Quad) : (s.setQuads x).faults = s.faults := rfl
@[simp] theorem State.setQuads_launch (s : State) (x : Map Quad) : (s.setQuads x).launch = s.launch := rfl
@[simp] theorem State.setQuads_wd (s : State) (x : Map Quad) : (s.setQuads x).wd = s.wd := rfl
@[simp] theorem State.setQuads_host (s : State) (x : Map Quad) : (s.setQuads x).host = s.host := rfl
@[simp] theorem State.setQuads_rel (s : State) (x : Map Quad) : (s.setQuads x).rel = s.rel := rfl
@[simp] theorem State.setDies_cur (s : State) (x : Map Die) : (s.setDies x).cur = s.cur := rfl
@[simp] theorem State.setDies_agenda (s : State) (x : Map Die) : (s.setDies x).agenda = s.agenda := rfl
@[simp] theorem State.setDies_nextSched (s : State) (x : Map Die) : (s.setDies x).nextSched = s.nextSched := rfl
@[simp] theorem State.setDies_tick (s : State) (x : Map Die) : (s.setDies x).tick = s.tick := rfl
@[simp] theorem State.setDies_warps (s : State) (x : Map Die) : (s.setDies x).warps = s.warps := rfl
@[simp] theorem State.setDies_blocks (s : State) (x : Map Die) : (s.setDies x).blocks = s.blocks := rfl
@[simp] theorem State.setDies_clusters (s : State) (x : Map Die) : (s.setDies x).clusters = s.clusters := rfl
@[simp] theorem State.setDies_cores (s : State) (x : Map Die) : (s.setDies x).cores = s.cores := rfl
@[simp] theorem State.setDies_quads (s : State) (x : Map Die) : (s.setDies x).quads = s.quads := rfl
@[simp] theorem State.setDies_dies (s : State) (x : Map Die) : (s.setDies x).dies = x := rfl
@[simp] theorem State.setDies_mem (s : State) (x : Map Die) : (s.setDies x).mem = s.mem := rfl
@[simp] theorem State.setDies_faults (s : State) (x : Map Die) : (s.setDies x).faults = s.faults := rfl
@[simp] theorem State.setDies_launch (s : State) (x : Map Die) : (s.setDies x).launch = s.launch := rfl
@[simp] theorem State.setDies_wd (s : State) (x : Map Die) : (s.setDies x).wd = s.wd := rfl
@[simp] theorem State.setDies_host (s : State) (x : Map Die) : (s.setDies x).host = s.host := rfl
@[simp] theorem State.setDies_rel (s : State) (x : Map Die) : (s.setDies x).rel = s.rel := rfl
@[simp] theorem State.setMem_cur (s : State) (x : Mem) : (s.setMem x).cur = s.cur := rfl
@[simp] theorem State.setMem_agenda (s : State) (x : Mem) : (s.setMem x).agenda = s.agenda := rfl
@[simp] theorem State.setMem_nextSched (s : State) (x : Mem) : (s.setMem x).nextSched = s.nextSched := rfl
@[simp] theorem State.setMem_tick (s : State) (x : Mem) : (s.setMem x).tick = s.tick := rfl
@[simp] theorem State.setMem_warps (s : State) (x : Mem) : (s.setMem x).warps = s.warps := rfl
@[simp] theorem State.setMem_blocks (s : State) (x : Mem) : (s.setMem x).blocks = s.blocks := rfl
@[simp] theorem State.setMem_clusters (s : State) (x : Mem) : (s.setMem x).clusters = s.clusters := rfl
@[simp] theorem State.setMem_cores (s : State) (x : Mem) : (s.setMem x).cores = s.cores := rfl
@[simp] theorem State.setMem_quads (s : State) (x : Mem) : (s.setMem x).quads = s.quads := rfl
@[simp] theorem State.setMem_dies (s : State) (x : Mem) : (s.setMem x).dies = s.dies := rfl
@[simp] theorem State.setMem_mem (s : State) (x : Mem) : (s.setMem x).mem = x := rfl
@[simp] theorem State.setMem_faults (s : State) (x : Mem) : (s.setMem x).faults = s.faults := rfl
@[simp] theorem State.setMem_launch (s : State) (x : Mem) : (s.setMem x).launch = s.launch := rfl
@[simp] theorem State.setMem_wd (s : State) (x : Mem) : (s.setMem x).wd = s.wd := rfl
@[simp] theorem State.setMem_host (s : State) (x : Mem) : (s.setMem x).host = s.host := rfl
@[simp] theorem State.setMem_rel (s : State) (x : Mem) : (s.setMem x).rel = s.rel := rfl
@[simp] theorem State.setFaults_cur (s : State) (x : Faults) : (s.setFaults x).cur = s.cur := rfl
@[simp] theorem State.setFaults_agenda (s : State) (x : Faults) : (s.setFaults x).agenda = s.agenda := rfl
@[simp] theorem State.setFaults_nextSched (s : State) (x : Faults) : (s.setFaults x).nextSched = s.nextSched := rfl
@[simp] theorem State.setFaults_tick (s : State) (x : Faults) : (s.setFaults x).tick = s.tick := rfl
@[simp] theorem State.setFaults_warps (s : State) (x : Faults) : (s.setFaults x).warps = s.warps := rfl
@[simp] theorem State.setFaults_blocks (s : State) (x : Faults) : (s.setFaults x).blocks = s.blocks := rfl
@[simp] theorem State.setFaults_clusters (s : State) (x : Faults) : (s.setFaults x).clusters = s.clusters := rfl
@[simp] theorem State.setFaults_cores (s : State) (x : Faults) : (s.setFaults x).cores = s.cores := rfl
@[simp] theorem State.setFaults_quads (s : State) (x : Faults) : (s.setFaults x).quads = s.quads := rfl
@[simp] theorem State.setFaults_dies (s : State) (x : Faults) : (s.setFaults x).dies = s.dies := rfl
@[simp] theorem State.setFaults_mem (s : State) (x : Faults) : (s.setFaults x).mem = s.mem := rfl
@[simp] theorem State.setFaults_faults (s : State) (x : Faults) : (s.setFaults x).faults = x := rfl
@[simp] theorem State.setFaults_launch (s : State) (x : Faults) : (s.setFaults x).launch = s.launch := rfl
@[simp] theorem State.setFaults_wd (s : State) (x : Faults) : (s.setFaults x).wd = s.wd := rfl
@[simp] theorem State.setFaults_host (s : State) (x : Faults) : (s.setFaults x).host = s.host := rfl
@[simp] theorem State.setFaults_rel (s : State) (x : Faults) : (s.setFaults x).rel = s.rel := rfl
@[simp] theorem State.setLaunch_cur (s : State) (x : Launch) : (s.setLaunch x).cur = s.cur := rfl
@[simp] theorem State.setLaunch_agenda (s : State) (x : Launch) : (s.setLaunch x).agenda = s.agenda := rfl
@[simp] theorem State.setLaunch_nextSched (s : State) (x : Launch) : (s.setLaunch x).nextSched = s.nextSched := rfl
@[simp] theorem State.setLaunch_tick (s : State) (x : Launch) : (s.setLaunch x).tick = s.tick := rfl
@[simp] theorem State.setLaunch_warps (s : State) (x : Launch) : (s.setLaunch x).warps = s.warps := rfl
@[simp] theorem State.setLaunch_blocks (s : State) (x : Launch) : (s.setLaunch x).blocks = s.blocks := rfl
@[simp] theorem State.setLaunch_clusters (s : State) (x : Launch) : (s.setLaunch x).clusters = s.clusters := rfl
@[simp] theorem State.setLaunch_cores (s : State) (x : Launch) : (s.setLaunch x).cores = s.cores := rfl
@[simp] theorem State.setLaunch_quads (s : State) (x : Launch) : (s.setLaunch x).quads = s.quads := rfl
@[simp] theorem State.setLaunch_dies (s : State) (x : Launch) : (s.setLaunch x).dies = s.dies := rfl
@[simp] theorem State.setLaunch_mem (s : State) (x : Launch) : (s.setLaunch x).mem = s.mem := rfl
@[simp] theorem State.setLaunch_faults (s : State) (x : Launch) : (s.setLaunch x).faults = s.faults := rfl
@[simp] theorem State.setLaunch_launch (s : State) (x : Launch) : (s.setLaunch x).launch = x := rfl
@[simp] theorem State.setLaunch_wd (s : State) (x : Launch) : (s.setLaunch x).wd = s.wd := rfl
@[simp] theorem State.setLaunch_host (s : State) (x : Launch) : (s.setLaunch x).host = s.host := rfl
@[simp] theorem State.setLaunch_rel (s : State) (x : Launch) : (s.setLaunch x).rel = s.rel := rfl
@[simp] theorem State.setWd_cur (s : State) (x : Wd) : (s.setWd x).cur = s.cur := rfl
@[simp] theorem State.setWd_agenda (s : State) (x : Wd) : (s.setWd x).agenda = s.agenda := rfl
@[simp] theorem State.setWd_nextSched (s : State) (x : Wd) : (s.setWd x).nextSched = s.nextSched := rfl
@[simp] theorem State.setWd_tick (s : State) (x : Wd) : (s.setWd x).tick = s.tick := rfl
@[simp] theorem State.setWd_warps (s : State) (x : Wd) : (s.setWd x).warps = s.warps := rfl
@[simp] theorem State.setWd_blocks (s : State) (x : Wd) : (s.setWd x).blocks = s.blocks := rfl
@[simp] theorem State.setWd_clusters (s : State) (x : Wd) : (s.setWd x).clusters = s.clusters := rfl
@[simp] theorem State.setWd_cores (s : State) (x : Wd) : (s.setWd x).cores = s.cores := rfl
@[simp] theorem State.setWd_quads (s : State) (x : Wd) : (s.setWd x).quads = s.quads := rfl
@[simp] theorem State.setWd_dies (s : State) (x : Wd) : (s.setWd x).dies = s.dies := rfl
@[simp] theorem State.setWd_mem (s : State) (x : Wd) : (s.setWd x).mem = s.mem := rfl
@[simp] theorem State.setWd_faults (s : State) (x : Wd) : (s.setWd x).faults = s.faults := rfl
@[simp] theorem State.setWd_launch (s : State) (x : Wd) : (s.setWd x).launch = s.launch := rfl
@[simp] theorem State.setWd_wd (s : State) (x : Wd) : (s.setWd x).wd = x := rfl
@[simp] theorem State.setWd_host (s : State) (x : Wd) : (s.setWd x).host = s.host := rfl
@[simp] theorem State.setWd_rel (s : State) (x : Wd) : (s.setWd x).rel = s.rel := rfl
@[simp] theorem State.setHost_cur (s : State) (x : HostSide) : (s.setHost x).cur = s.cur := rfl
@[simp] theorem State.setHost_agenda (s : State) (x : HostSide) : (s.setHost x).agenda = s.agenda := rfl
@[simp] theorem State.setHost_nextSched (s : State) (x : HostSide) : (s.setHost x).nextSched = s.nextSched := rfl
@[simp] theorem State.setHost_tick (s : State) (x : HostSide) : (s.setHost x).tick = s.tick := rfl
@[simp] theorem State.setHost_warps (s : State) (x : HostSide) : (s.setHost x).warps = s.warps := rfl
@[simp] theorem State.setHost_blocks (s : State) (x : HostSide) : (s.setHost x).blocks = s.blocks := rfl
@[simp] theorem State.setHost_clusters (s : State) (x : HostSide) : (s.setHost x).clusters = s.clusters := rfl
@[simp] theorem State.setHost_cores (s : State) (x : HostSide) : (s.setHost x).cores = s.cores := rfl
@[simp] theorem State.setHost_quads (s : State) (x : HostSide) : (s.setHost x).quads = s.quads := rfl
@[simp] theorem State.setHost_dies (s : State) (x : HostSide) : (s.setHost x).dies = s.dies := rfl
@[simp] theorem State.setHost_mem (s : State) (x : HostSide) : (s.setHost x).mem = s.mem := rfl
@[simp] theorem State.setHost_faults (s : State) (x : HostSide) : (s.setHost x).faults = s.faults := rfl
@[simp] theorem State.setHost_launch (s : State) (x : HostSide) : (s.setHost x).launch = s.launch := rfl
@[simp] theorem State.setHost_wd (s : State) (x : HostSide) : (s.setHost x).wd = s.wd := rfl
@[simp] theorem State.setHost_host (s : State) (x : HostSide) : (s.setHost x).host = x := rfl
@[simp] theorem State.setHost_rel (s : State) (x : HostSide) : (s.setHost x).rel = s.rel := rfl
@[simp] theorem State.setRel_cur (s : State) (x : Reliab) : (s.setRel x).cur = s.cur := rfl
@[simp] theorem State.setRel_agenda (s : State) (x : Reliab) : (s.setRel x).agenda = s.agenda := rfl
@[simp] theorem State.setRel_nextSched (s : State) (x : Reliab) : (s.setRel x).nextSched = s.nextSched := rfl
@[simp] theorem State.setRel_tick (s : State) (x : Reliab) : (s.setRel x).tick = s.tick := rfl
@[simp] theorem State.setRel_warps (s : State) (x : Reliab) : (s.setRel x).warps = s.warps := rfl
@[simp] theorem State.setRel_blocks (s : State) (x : Reliab) : (s.setRel x).blocks = s.blocks := rfl
@[simp] theorem State.setRel_clusters (s : State) (x : Reliab) : (s.setRel x).clusters = s.clusters := rfl
@[simp] theorem State.setRel_cores (s : State) (x : Reliab) : (s.setRel x).cores = s.cores := rfl
@[simp] theorem State.setRel_quads (s : State) (x : Reliab) : (s.setRel x).quads = s.quads := rfl
@[simp] theorem State.setRel_dies (s : State) (x : Reliab) : (s.setRel x).dies = s.dies := rfl
@[simp] theorem State.setRel_mem (s : State) (x : Reliab) : (s.setRel x).mem = s.mem := rfl
@[simp] theorem State.setRel_faults (s : State) (x : Reliab) : (s.setRel x).faults = s.faults := rfl
@[simp] theorem State.setRel_launch (s : State) (x : Reliab) : (s.setRel x).launch = s.launch := rfl
@[simp] theorem State.setRel_wd (s : State) (x : Reliab) : (s.setRel x).wd = s.wd := rfl
@[simp] theorem State.setRel_host (s : State) (x : Reliab) : (s.setRel x).host = s.host := rfl
@[simp] theorem State.setRel_rel (s : State) (x : Reliab) : (s.setRel x).rel = x := rfl

/-! ### Changes of one part leave the others as they are -/
@[simp] theorem State.updWarp_cur (s : State) (k : Nat) (f : Warp → Warp) : (s.updWarp k f).cur = s.cur := rfl
@[simp] theorem State.updWarp_agenda (s : State) (k : Nat) (f : Warp → Warp) : (s.updWarp k f).agenda = s.agenda := rfl
@[simp] theorem State.updWarp_nextSched (s : State) (k : Nat) (f : Warp → Warp) : (s.updWarp k f).nextSched = s.nextSched := rfl
@[simp] theorem State.updWarp_tick (s : State) (k : Nat) (f : Warp → Warp) : (s.updWarp k f).tick = s.tick := rfl
@[simp] theorem State.updWarp_blocks (s : State) (k : Nat) (f : Warp → Warp) : (s.updWarp k f).blocks = s.blocks := rfl
@[simp] theorem State.updWarp_clusters (s : State) (k : Nat) (f : Warp → Warp) : (s.updWarp k f).clusters = s.clusters := rfl
@[simp] theorem State.updWarp_cores (s : State) (k : Nat) (f : Warp → Warp) : (s.updWarp k f).cores = s.cores := rfl
@[simp] theorem State.updWarp_quads (s : State) (k : Nat) (f : Warp → Warp) : (s.updWarp k f).quads = s.quads := rfl
@[simp] theorem State.updWarp_dies (s : State) (k : Nat) (f : Warp → Warp) : (s.updWarp k f).dies = s.dies := rfl
@[simp] theorem State.updWarp_mem (s : State) (k : Nat) (f : Warp → Warp) : (s.updWarp k f).mem = s.mem := rfl
@[simp] theorem State.updWarp_faults (s : State) (k : Nat) (f : Warp → Warp) : (s.updWarp k f).faults = s.faults := rfl
@[simp] theorem State.updWarp_launch (s : State) (k : Nat) (f : Warp → Warp) : (s.updWarp k f).launch = s.launch := rfl
@[simp] theorem State.updWarp_wd (s : State) (k : Nat) (f : Warp → Warp) : (s.updWarp k f).wd = s.wd := rfl
@[simp] theorem State.updWarp_host (s : State) (k : Nat) (f : Warp → Warp) : (s.updWarp k f).host = s.host := rfl
@[simp] theorem State.updWarp_rel (s : State) (k : Nat) (f : Warp → Warp) : (s.updWarp k f).rel = s.rel := rfl
@[simp] theorem State.updBlock_cur (s : State) (k : Nat) (f : Block → Block) : (s.updBlock k f).cur = s.cur := rfl
@[simp] theorem State.updBlock_agenda (s : State) (k : Nat) (f : Block → Block) : (s.updBlock k f).agenda = s.agenda := rfl
@[simp] theorem State.updBlock_nextSched (s : State) (k : Nat) (f : Block → Block) : (s.updBlock k f).nextSched = s.nextSched := rfl
@[simp] theorem State.updBlock_tick (s : State) (k : Nat) (f : Block → Block) : (s.updBlock k f).tick = s.tick := rfl
@[simp] theorem State.updBlock_warps (s : State) (k : Nat) (f : Block → Block) : (s.updBlock k f).warps = s.warps := rfl
@[simp] theorem State.updBlock_clusters (s : State) (k : Nat) (f : Block → Block) : (s.updBlock k f).clusters = s.clusters := rfl
@[simp] theorem State.updBlock_cores (s : State) (k : Nat) (f : Block → Block) : (s.updBlock k f).cores = s.cores := rfl
@[simp] theorem State.updBlock_quads (s : State) (k : Nat) (f : Block → Block) : (s.updBlock k f).quads = s.quads := rfl
@[simp] theorem State.updBlock_dies (s : State) (k : Nat) (f : Block → Block) : (s.updBlock k f).dies = s.dies := rfl
@[simp] theorem State.updBlock_mem (s : State) (k : Nat) (f : Block → Block) : (s.updBlock k f).mem = s.mem := rfl
@[simp] theorem State.updBlock_faults (s : State) (k : Nat) (f : Block → Block) : (s.updBlock k f).faults = s.faults := rfl
@[simp] theorem State.updBlock_launch (s : State) (k : Nat) (f : Block → Block) : (s.updBlock k f).launch = s.launch := rfl
@[simp] theorem State.updBlock_wd (s : State) (k : Nat) (f : Block → Block) : (s.updBlock k f).wd = s.wd := rfl
@[simp] theorem State.updBlock_host (s : State) (k : Nat) (f : Block → Block) : (s.updBlock k f).host = s.host := rfl
@[simp] theorem State.updBlock_rel (s : State) (k : Nat) (f : Block → Block) : (s.updBlock k f).rel = s.rel := rfl
@[simp] theorem State.updCluster_cur (s : State) (k : Nat) (f : Cluster → Cluster) : (s.updCluster k f).cur = s.cur := rfl
@[simp] theorem State.updCluster_agenda (s : State) (k : Nat) (f : Cluster → Cluster) : (s.updCluster k f).agenda = s.agenda := rfl
@[simp] theorem State.updCluster_nextSched (s : State) (k : Nat) (f : Cluster → Cluster) : (s.updCluster k f).nextSched = s.nextSched := rfl
@[simp] theorem State.updCluster_tick (s : State) (k : Nat) (f : Cluster → Cluster) : (s.updCluster k f).tick = s.tick := rfl
@[simp] theorem State.updCluster_warps (s : State) (k : Nat) (f : Cluster → Cluster) : (s.updCluster k f).warps = s.warps := rfl
@[simp] theorem State.updCluster_blocks (s : State) (k : Nat) (f : Cluster → Cluster) : (s.updCluster k f).blocks = s.blocks := rfl
@[simp] theorem State.updCluster_cores (s : State) (k : Nat) (f : Cluster → Cluster) : (s.updCluster k f).cores = s.cores := rfl
@[simp] theorem State.updCluster_quads (s : State) (k : Nat) (f : Cluster → Cluster) : (s.updCluster k f).quads = s.quads := rfl
@[simp] theorem State.updCluster_dies (s : State) (k : Nat) (f : Cluster → Cluster) : (s.updCluster k f).dies = s.dies := rfl
@[simp] theorem State.updCluster_mem (s : State) (k : Nat) (f : Cluster → Cluster) : (s.updCluster k f).mem = s.mem := rfl
@[simp] theorem State.updCluster_faults (s : State) (k : Nat) (f : Cluster → Cluster) : (s.updCluster k f).faults = s.faults := rfl
@[simp] theorem State.updCluster_launch (s : State) (k : Nat) (f : Cluster → Cluster) : (s.updCluster k f).launch = s.launch := rfl
@[simp] theorem State.updCluster_wd (s : State) (k : Nat) (f : Cluster → Cluster) : (s.updCluster k f).wd = s.wd := rfl
@[simp] theorem State.updCluster_host (s : State) (k : Nat) (f : Cluster → Cluster) : (s.updCluster k f).host = s.host := rfl
@[simp] theorem State.updCluster_rel (s : State) (k : Nat) (f : Cluster → Cluster) : (s.updCluster k f).rel = s.rel := rfl
@[simp] theorem State.updCore_cur (s : State) (k : Nat) (f : Core → Core) : (s.updCore k f).cur = s.cur := rfl
@[simp] theorem State.updCore_agenda (s : State) (k : Nat) (f : Core → Core) : (s.updCore k f).agenda = s.agenda := rfl
@[simp] theorem State.updCore_nextSched (s : State) (k : Nat) (f : Core → Core) : (s.updCore k f).nextSched = s.nextSched := rfl
@[simp] theorem State.updCore_tick (s : State) (k : Nat) (f : Core → Core) : (s.updCore k f).tick = s.tick := rfl
@[simp] theorem State.updCore_warps (s : State) (k : Nat) (f : Core → Core) : (s.updCore k f).warps = s.warps := rfl
@[simp] theorem State.updCore_blocks (s : State) (k : Nat) (f : Core → Core) : (s.updCore k f).blocks = s.blocks := rfl
@[simp] theorem State.updCore_clusters (s : State) (k : Nat) (f : Core → Core) : (s.updCore k f).clusters = s.clusters := rfl
@[simp] theorem State.updCore_quads (s : State) (k : Nat) (f : Core → Core) : (s.updCore k f).quads = s.quads := rfl
@[simp] theorem State.updCore_dies (s : State) (k : Nat) (f : Core → Core) : (s.updCore k f).dies = s.dies := rfl
@[simp] theorem State.updCore_mem (s : State) (k : Nat) (f : Core → Core) : (s.updCore k f).mem = s.mem := rfl
@[simp] theorem State.updCore_faults (s : State) (k : Nat) (f : Core → Core) : (s.updCore k f).faults = s.faults := rfl
@[simp] theorem State.updCore_launch (s : State) (k : Nat) (f : Core → Core) : (s.updCore k f).launch = s.launch := rfl
@[simp] theorem State.updCore_wd (s : State) (k : Nat) (f : Core → Core) : (s.updCore k f).wd = s.wd := rfl
@[simp] theorem State.updCore_host (s : State) (k : Nat) (f : Core → Core) : (s.updCore k f).host = s.host := rfl
@[simp] theorem State.updCore_rel (s : State) (k : Nat) (f : Core → Core) : (s.updCore k f).rel = s.rel := rfl
@[simp] theorem State.updQuad_cur (s : State) (k : Nat) (f : Quad → Quad) : (s.updQuad k f).cur = s.cur := rfl
@[simp] theorem State.updQuad_agenda (s : State) (k : Nat) (f : Quad → Quad) : (s.updQuad k f).agenda = s.agenda := rfl
@[simp] theorem State.updQuad_nextSched (s : State) (k : Nat) (f : Quad → Quad) : (s.updQuad k f).nextSched = s.nextSched := rfl
@[simp] theorem State.updQuad_tick (s : State) (k : Nat) (f : Quad → Quad) : (s.updQuad k f).tick = s.tick := rfl
@[simp] theorem State.updQuad_warps (s : State) (k : Nat) (f : Quad → Quad) : (s.updQuad k f).warps = s.warps := rfl
@[simp] theorem State.updQuad_blocks (s : State) (k : Nat) (f : Quad → Quad) : (s.updQuad k f).blocks = s.blocks := rfl
@[simp] theorem State.updQuad_clusters (s : State) (k : Nat) (f : Quad → Quad) : (s.updQuad k f).clusters = s.clusters := rfl
@[simp] theorem State.updQuad_cores (s : State) (k : Nat) (f : Quad → Quad) : (s.updQuad k f).cores = s.cores := rfl
@[simp] theorem State.updQuad_dies (s : State) (k : Nat) (f : Quad → Quad) : (s.updQuad k f).dies = s.dies := rfl
@[simp] theorem State.updQuad_mem (s : State) (k : Nat) (f : Quad → Quad) : (s.updQuad k f).mem = s.mem := rfl
@[simp] theorem State.updQuad_faults (s : State) (k : Nat) (f : Quad → Quad) : (s.updQuad k f).faults = s.faults := rfl
@[simp] theorem State.updQuad_launch (s : State) (k : Nat) (f : Quad → Quad) : (s.updQuad k f).launch = s.launch := rfl
@[simp] theorem State.updQuad_wd (s : State) (k : Nat) (f : Quad → Quad) : (s.updQuad k f).wd = s.wd := rfl
@[simp] theorem State.updQuad_host (s : State) (k : Nat) (f : Quad → Quad) : (s.updQuad k f).host = s.host := rfl
@[simp] theorem State.updQuad_rel (s : State) (k : Nat) (f : Quad → Quad) : (s.updQuad k f).rel = s.rel := rfl
@[simp] theorem State.updDie_cur (s : State) (k : Nat) (f : Die → Die) : (s.updDie k f).cur = s.cur := rfl
@[simp] theorem State.updDie_agenda (s : State) (k : Nat) (f : Die → Die) : (s.updDie k f).agenda = s.agenda := rfl
@[simp] theorem State.updDie_nextSched (s : State) (k : Nat) (f : Die → Die) : (s.updDie k f).nextSched = s.nextSched := rfl
@[simp] theorem State.updDie_tick (s : State) (k : Nat) (f : Die → Die) : (s.updDie k f).tick = s.tick := rfl
@[simp] theorem State.updDie_warps (s : State) (k : Nat) (f : Die → Die) : (s.updDie k f).warps = s.warps := rfl
@[simp] theorem State.updDie_blocks (s : State) (k : Nat) (f : Die → Die) : (s.updDie k f).blocks = s.blocks := rfl
@[simp] theorem State.updDie_clusters (s : State) (k : Nat) (f : Die → Die) : (s.updDie k f).clusters = s.clusters := rfl
@[simp] theorem State.updDie_cores (s : State) (k : Nat) (f : Die → Die) : (s.updDie k f).cores = s.cores := rfl
@[simp] theorem State.updDie_quads (s : State) (k : Nat) (f : Die → Die) : (s.updDie k f).quads = s.quads := rfl
@[simp] theorem State.updDie_mem (s : State) (k : Nat) (f : Die → Die) : (s.updDie k f).mem = s.mem := rfl
@[simp] theorem State.updDie_faults (s : State) (k : Nat) (f : Die → Die) : (s.updDie k f).faults = s.faults := rfl
@[simp] theorem State.updDie_launch (s : State) (k : Nat) (f : Die → Die) : (s.updDie k f).launch = s.launch := rfl
@[simp] theorem State.updDie_wd (s : State) (k : Nat) (f : Die → Die) : (s.updDie k f).wd = s.wd := rfl
@[simp] theorem State.updDie_host (s : State) (k : Nat) (f : Die → Die) : (s.updDie k f).host = s.host := rfl
@[simp] theorem State.updDie_rel (s : State) (k : Nat) (f : Die → Die) : (s.updDie k f).rel = s.rel := rfl
@[simp] theorem State.updMem_cur (s : State) (f : Mem → Mem) : (s.updMem f).cur = s.cur := rfl
@[simp] theorem State.updMem_agenda (s : State) (f : Mem → Mem) : (s.updMem f).agenda = s.agenda := rfl
@[simp] theorem State.updMem_nextSched (s : State) (f : Mem → Mem) : (s.updMem f).nextSched = s.nextSched := rfl
@[simp] theorem State.updMem_tick (s : State) (f : Mem → Mem) : (s.updMem f).tick = s.tick := rfl
@[simp] theorem State.updMem_warps (s : State) (f : Mem → Mem) : (s.updMem f).warps = s.warps := rfl
@[simp] theorem State.updMem_blocks (s : State) (f : Mem → Mem) : (s.updMem f).blocks = s.blocks := rfl
@[simp] theorem State.updMem_clusters (s : State) (f : Mem → Mem) : (s.updMem f).clusters = s.clusters := rfl
@[simp] theorem State.updMem_cores (s : State) (f : Mem → Mem) : (s.updMem f).cores = s.cores := rfl
@[simp] theorem State.updMem_quads (s : State) (f : Mem → Mem) : (s.updMem f).quads = s.quads := rfl
@[simp] theorem State.updMem_dies (s : State) (f : Mem → Mem) : (s.updMem f).dies = s.dies := rfl
@[simp] theorem State.updMem_faults (s : State) (f : Mem → Mem) : (s.updMem f).faults = s.faults := rfl
@[simp] theorem State.updMem_launch (s : State) (f : Mem → Mem) : (s.updMem f).launch = s.launch := rfl
@[simp] theorem State.updMem_wd (s : State) (f : Mem → Mem) : (s.updMem f).wd = s.wd := rfl
@[simp] theorem State.updMem_host (s : State) (f : Mem → Mem) : (s.updMem f).host = s.host := rfl
@[simp] theorem State.updMem_rel (s : State) (f : Mem → Mem) : (s.updMem f).rel = s.rel := rfl
@[simp] theorem State.updLaunch_cur (s : State) (f : Launch → Launch) : (s.updLaunch f).cur = s.cur := rfl
@[simp] theorem State.updLaunch_agenda (s : State) (f : Launch → Launch) : (s.updLaunch f).agenda = s.agenda := rfl
@[simp] theorem State.updLaunch_nextSched (s : State) (f : Launch → Launch) : (s.updLaunch f).nextSched = s.nextSched := rfl
@[simp] theorem State.updLaunch_tick (s : State) (f : Launch → Launch) : (s.updLaunch f).tick = s.tick := rfl
@[simp] theorem State.updLaunch_warps (s : State) (f : Launch → Launch) : (s.updLaunch f).warps = s.warps := rfl
@[simp] theorem State.updLaunch_blocks (s : State) (f : Launch → Launch) : (s.updLaunch f).blocks = s.blocks := rfl
@[simp] theorem State.updLaunch_clusters (s : State) (f : Launch → Launch) : (s.updLaunch f).clusters = s.clusters := rfl
@[simp] theorem State.updLaunch_cores (s : State) (f : Launch → Launch) : (s.updLaunch f).cores = s.cores := rfl
@[simp] theorem State.updLaunch_quads (s : State) (f : Launch → Launch) : (s.updLaunch f).quads = s.quads := rfl
@[simp] theorem State.updLaunch_dies (s : State) (f : Launch → Launch) : (s.updLaunch f).dies = s.dies := rfl
@[simp] theorem State.updLaunch_mem (s : State) (f : Launch → Launch) : (s.updLaunch f).mem = s.mem := rfl
@[simp] theorem State.updLaunch_faults (s : State) (f : Launch → Launch) : (s.updLaunch f).faults = s.faults := rfl
@[simp] theorem State.updLaunch_wd (s : State) (f : Launch → Launch) : (s.updLaunch f).wd = s.wd := rfl
@[simp] theorem State.updLaunch_host (s : State) (f : Launch → Launch) : (s.updLaunch f).host = s.host := rfl
@[simp] theorem State.updLaunch_rel (s : State) (f : Launch → Launch) : (s.updLaunch f).rel = s.rel := rfl
@[simp] theorem State.updGrid_cur (s : State) (k : Nat) (f : Grid → Grid) : (s.updGrid k f).cur = s.cur := rfl
@[simp] theorem State.updGrid_agenda (s : State) (k : Nat) (f : Grid → Grid) : (s.updGrid k f).agenda = s.agenda := rfl
@[simp] theorem State.updGrid_nextSched (s : State) (k : Nat) (f : Grid → Grid) : (s.updGrid k f).nextSched = s.nextSched := rfl
@[simp] theorem State.updGrid_tick (s : State) (k : Nat) (f : Grid → Grid) : (s.updGrid k f).tick = s.tick := rfl
@[simp] theorem State.updGrid_warps (s : State) (k : Nat) (f : Grid → Grid) : (s.updGrid k f).warps = s.warps := rfl
@[simp] theorem State.updGrid_blocks (s : State) (k : Nat) (f : Grid → Grid) : (s.updGrid k f).blocks = s.blocks := rfl
@[simp] theorem State.updGrid_clusters (s : State) (k : Nat) (f : Grid → Grid) : (s.updGrid k f).clusters = s.clusters := rfl
@[simp] theorem State.updGrid_cores (s : State) (k : Nat) (f : Grid → Grid) : (s.updGrid k f).cores = s.cores := rfl
@[simp] theorem State.updGrid_quads (s : State) (k : Nat) (f : Grid → Grid) : (s.updGrid k f).quads = s.quads := rfl
@[simp] theorem State.updGrid_dies (s : State) (k : Nat) (f : Grid → Grid) : (s.updGrid k f).dies = s.dies := rfl
@[simp] theorem State.updGrid_mem (s : State) (k : Nat) (f : Grid → Grid) : (s.updGrid k f).mem = s.mem := rfl
@[simp] theorem State.updGrid_faults (s : State) (k : Nat) (f : Grid → Grid) : (s.updGrid k f).faults = s.faults := rfl
@[simp] theorem State.updGrid_wd (s : State) (k : Nat) (f : Grid → Grid) : (s.updGrid k f).wd = s.wd := rfl
@[simp] theorem State.updGrid_host (s : State) (k : Nat) (f : Grid → Grid) : (s.updGrid k f).host = s.host := rfl
@[simp] theorem State.updGrid_rel (s : State) (k : Nat) (f : Grid → Grid) : (s.updGrid k f).rel = s.rel := rfl
@[simp] theorem State.send_cur (s : State) (m : Msg) : (s.send m).cur = s.cur := rfl
@[simp] theorem State.send_agenda (s : State) (m : Msg) : (s.send m).agenda = s.agenda := rfl
@[simp] theorem State.send_nextSched (s : State) (m : Msg) : (s.send m).nextSched = s.nextSched := rfl
@[simp] theorem State.send_tick (s : State) (m : Msg) : (s.send m).tick = s.tick := rfl
@[simp] theorem State.send_warps (s : State) (m : Msg) : (s.send m).warps = s.warps := rfl
@[simp] theorem State.send_blocks (s : State) (m : Msg) : (s.send m).blocks = s.blocks := rfl
@[simp] theorem State.send_clusters (s : State) (m : Msg) : (s.send m).clusters = s.clusters := rfl
@[simp] theorem State.send_cores (s : State) (m : Msg) : (s.send m).cores = s.cores := rfl
@[simp] theorem State.send_quads (s : State) (m : Msg) : (s.send m).quads = s.quads := rfl
@[simp] theorem State.send_dies (s : State) (m : Msg) : (s.send m).dies = s.dies := rfl
@[simp] theorem State.send_mem (s : State) (m : Msg) : (s.send m).mem = s.mem := rfl
@[simp] theorem State.send_faults (s : State) (m : Msg) : (s.send m).faults = s.faults := rfl
@[simp] theorem State.send_launch (s : State) (m : Msg) : (s.send m).launch = s.launch := rfl
@[simp] theorem State.send_wd (s : State) (m : Msg) : (s.send m).wd = s.wd := rfl
@[simp] theorem State.send_rel (s : State) (m : Msg) : (s.send m).rel = s.rel := rfl
@[simp] theorem State.bump_cur (s : State) : (s.bump ).cur = s.cur := rfl
@[simp] theorem State.bump_agenda (s : State) : (s.bump ).agenda = s.agenda := rfl
@[simp] theorem State.bump_nextSched (s : State) : (s.bump ).nextSched = s.nextSched := rfl
@[simp] theorem State.bump_warps (s : State) : (s.bump ).warps = s.warps := rfl
@[simp] theorem State.bump_blocks (s : State) : (s.bump ).blocks = s.blocks := rfl
@[simp] theorem State.bump_clusters (s : State) : (s.bump ).clusters = s.clusters := rfl
@[simp] theorem State.bump_cores (s : State) : (s.bump ).cores = s.cores := rfl
@[simp] theorem State.bump_quads (s : State) : (s.bump ).quads = s.quads := rfl
@[simp] theorem State.bump_dies (s : State) : (s.bump ).dies = s.dies := rfl
@[simp] theorem State.bump_mem (s : State) : (s.bump ).mem = s.mem := rfl
@[simp] theorem State.bump_faults (s : State) : (s.bump ).faults = s.faults := rfl
@[simp] theorem State.bump_launch (s : State) : (s.bump ).launch = s.launch := rfl
@[simp] theorem State.bump_wd (s : State) : (s.bump ).wd = s.wd := rfl
@[simp] theorem State.bump_host (s : State) : (s.bump ).host = s.host := rfl
@[simp] theorem State.bump_rel (s : State) : (s.bump ).rel = s.rel := rfl
@[simp] theorem State.updCw_cur (s : State) (f : Warp → Warp) : (s.updCw f).cur = s.cur := rfl
@[simp] theorem State.updCw_agenda (s : State) (f : Warp → Warp) : (s.updCw f).agenda = s.agenda := rfl
@[simp] theorem State.updCw_nextSched (s : State) (f : Warp → Warp) : (s.updCw f).nextSched = s.nextSched := rfl
@[simp] theorem State.updCw_tick (s : State) (f : Warp → Warp) : (s.updCw f).tick = s.tick := rfl
@[simp] theorem State.updCw_blocks (s : State) (f : Warp → Warp) : (s.updCw f).blocks = s.blocks := rfl
@[simp] theorem State.updCw_clusters (s : State) (f : Warp → Warp) : (s.updCw f).clusters = s.clusters := rfl
@[simp] theorem State.updCw_cores (s : State) (f : Warp → Warp) : (s.updCw f).cores = s.cores := rfl
@[simp] theorem State.updCw_quads (s : State) (f : Warp → Warp) : (s.updCw f).quads = s.quads := rfl
@[simp] theorem State.updCw_dies (s : State) (f : Warp → Warp) : (s.updCw f).dies = s.dies := rfl
@[simp] theorem State.updCw_mem (s : State) (f : Warp → Warp) : (s.updCw f).mem = s.mem := rfl
@[simp] theorem State.updCw_faults (s : State) (f : Warp → Warp) : (s.updCw f).faults = s.faults := rfl
@[simp] theorem State.updCw_launch (s : State) (f : Warp → Warp) : (s.updCw f).launch = s.launch := rfl
@[simp] theorem State.updCw_wd (s : State) (f : Warp → Warp) : (s.updCw f).wd = s.wd := rfl
@[simp] theorem State.updCw_host (s : State) (f : Warp → Warp) : (s.updCw f).host = s.host := rfl
@[simp] theorem State.updCw_rel (s : State) (f : Warp → Warp) : (s.updCw f).rel = s.rel := rfl
@[simp] theorem State.updCb_cur (s : State) (f : Block → Block) : (s.updCb f).cur = s.cur := rfl
@[simp] theorem State.updCb_agenda (s : State) (f : Block → Block) : (s.updCb f).agenda = s.agenda := rfl
@[simp] theorem State.updCb_nextSched (s : State) (f : Block → Block) : (s.updCb f).nextSched = s.nextSched := rfl
@[simp] theorem State.updCb_tick (s : State) (f : Block → Block) : (s.updCb f).tick = s.tick := rfl
@[simp] theorem State.updCb_warps (s : State) (f : Block → Block) : (s.updCb f).warps = s.warps := rfl
@[simp] theorem State.updCb_clusters (s : State) (f : Block → Block) : (s.updCb f).clusters = s.clusters := rfl
@[simp] theorem State.updCb_cores (s : State) (f : Block → Block) : (s.updCb f).cores = s.cores := rfl
@[simp] theorem State.updCb_quads (s : State) (f : Block → Block) : (s.updCb f).quads = s.quads := rfl
@[simp] theorem State.updCb_dies (s : State) (f : Block → Block) : (s.updCb f).dies = s.dies := rfl
@[simp] theorem State.updCb_mem (s : State) (f : Block → Block) : (s.updCb f).mem = s.mem := rfl
@[simp] theorem State.updCb_faults (s : State) (f : Block → Block) : (s.updCb f).faults = s.faults := rfl
@[simp] theorem State.updCb_launch (s : State) (f : Block → Block) : (s.updCb f).launch = s.launch := rfl
@[simp] theorem State.updCb_wd (s : State) (f : Block → Block) : (s.updCb f).wd = s.wd := rfl
@[simp] theorem State.updCb_host (s : State) (f : Block → Block) : (s.updCb f).host = s.host := rfl
@[simp] theorem State.updCb_rel (s : State) (f : Block → Block) : (s.updCb f).rel = s.rel := rfl

/-! ### Readings -/
@[simp] theorem State.updMem_mem (s : State) (f : Mem → Mem) : (s.updMem f).mem = f s.mem := rfl
@[simp] theorem State.updLaunch_launch (s : State) (f : Launch → Launch) : (s.updLaunch f).launch = f s.launch := rfl
@[simp] theorem State.bump_tick (s : State) : s.bump.tick = s.tick + 1 := rfl
@[simp] theorem State.send_out (s : State) (m : Msg) : (s.send m).host.out = s.host.out ++ [m] := rfl
@[simp] theorem State.updWarp_find (s : State) (k j : Nat) (f : Warp → Warp) :
    mFind (s.updWarp k f).warps j = if k = j then (mFind s.warps j).map f else mFind s.warps j := mFind_mMod _ _ _ _
@[simp] theorem State.updBlock_find (s : State) (k j : Nat) (f : Block → Block) :
    mFind (s.updBlock k f).blocks j = if k = j then (mFind s.blocks j).map f else mFind s.blocks j := mFind_mMod _ _ _ _
/-- A warp that is listed changes as told. -/
theorem State.updWarp_warp (s : State) (k : Nat) (f : Warp → Warp) (h : (mFind s.warps k).isSome) :
    (s.updWarp k f).warp k = f (s.warp k) := by
  simp only [State.warp, State.updWarp, State.setWarps_warps, mGet_mMod _ _ _ _ _ h, if_pos]
@[simp] theorem State.updWarp_warp_ne (s : State) (k j : Nat) (f : Warp → Warp) (h : k ≠ j) :
    (s.updWarp k f).warp j = s.warp j := by
  simp [State.warp, mGet, h]
/-- A block that is listed changes as told. -/
theorem State.updBlock_block (s : State) (k : Nat) (f : Block → Block) (h : (mFind s.blocks k).isSome) :
    (s.updBlock k f).block k = f (s.block k) := by
  simp only [State.block, State.updBlock, State.setBlocks_blocks, mGet_mMod _ _ _ _ _ h, if_pos]
@[simp] theorem State.updBlock_block_ne (s : State) (k j : Nat) (f : Block → Block) (h : k ≠ j) :
    (s.updBlock k f).block j = s.block j := by
  simp [State.block, mGet, h]
@[simp] theorem State.updWarp_block (s : State) (k j : Nat) (f : Warp → Warp) : (s.updWarp k f).block j = s.block j := rfl
@[simp] theorem State.updBlock_warp (s : State) (k j : Nat) (f : Block → Block) : (s.updBlock k f).warp j = s.warp j := rfl
@[simp] theorem State.updQuad_quad (s : State) (k j : Nat) (f : Quad → Quad) :
    (s.updQuad k f).quad j = if k = j then f (s.quad k) else s.quad j := mGet_mUpd _ _ _ _ _ _
@[simp] theorem State.updCore_coreAt (s : State) (k j : Nat) (f : Core → Core) :
    (s.updCore k f).coreAt j = if k = j then f (s.coreAt k) else s.coreAt j := mGet_mUpd _ _ _ _ _ _
@[simp] theorem State.updDie_die (s : State) (k j : Nat) (f : Die → Die) :
    (s.updDie k f).die j = if k = j then f (s.die k) else s.die j := mGet_mUpd _ _ _ _ _ _

end Sys2Proof.Machine
end

