-- ==== Sys2Proof/Laws/Warp.lean ====
section
/-! SUPPORT. Lanes of a mask, registers after writes, and the end of an issue: what each shared operation on a warp does. -/
namespace Sys2Proof.Machine

/-! ### Masks and lanes -/
theorem mem_rangeFrom (n a x : Nat) : x ∈ rangeFrom a n ↔ a ≤ x ∧ x < a + n := by
  induction n generalizing a with
  | zero => simp only [rangeFrom, List.not_mem_nil, false_iff]; omega
  | succ n ih => simp only [rangeFrom, List.mem_cons, ih]; omega
@[simp] theorem mem_maskLanes (m : Word) (l : Nat) : l ∈ maskLanes m ↔ l < 32 ∧ m.getLsbD l = true := by
  simp [maskLanes, mem_rangeFrom]
theorem mapIdxFrom_length {α β : Type} (f : Nat → α → β) (i : Nat) (xs : List α) :
    (mapIdxFrom f i xs).length = xs.length := by
  induction xs generalizing i with
  | nil => rfl
  | cons x t ih => simp [mapIdxFrom, ih]
theorem mapIdxFrom_get {α β : Type} (f : Nat → α → β) (i l : Nat) (xs : List α) :
    (mapIdxFrom f i xs)[l]? = xs[l]?.map (f (i + l)) := by
  induction xs generalizing i l with
  | nil => simp [mapIdxFrom]
  | cons x t ih =>
    cases l with
    | zero => simp [mapIdxFrom]
    | succ l => simp [mapIdxFrom, ih, Nat.add_comm, Nat.add_left_comm]
/-- Reading a lane after a change of the lanes of a mask. -/
theorem updLanes_lane (w : Warp) (m : Word) (f : Nat → Lane → Lane) (l : Nat) (hl : l < w.lanes.length) :
    (w.updLanes m f).lane l = if m.getLsbD l then f l (w.lane l) else w.lane l := by
  simp only [Warp.lane, Warp.updLanes, List.getD_eq_getElem?_getD, mapIdxFrom_get, Nat.zero_add,
    List.getElem?_eq_getElem hl, Option.map_some, Option.getD_some]
@[simp] theorem updLanes_length (w : Warp) (m : Word) (f : Nat → Lane → Lane) :
    (w.updLanes m f).lanes.length = w.lanes.length := mapIdxFrom_length _ _ _
@[simp] theorem updLanes_vreg (w : Warp) (m : Word) (f : Nat → Lane → Lane) (r l : Nat) :
    (w.updLanes m f).vreg r l = w.vreg r l := rfl
/-- Warps with the same lanes read the same lane. -/
theorem lane_congr {v w : Warp} (h : v.lanes = w.lanes) (l : Nat) : v.lane l = w.lane l := by
  simp only [Warp.lane, h]
theorem laneBit_getLsbD (l k : Nat) (hl : l < 32) : (laneBit l).getLsbD k = decide (k = l) := by
  have h1 : (1#32 : Word) = BitVec.twoPow 32 0 := by decide
  simp only [laneBit, BitVec.getLsbD_shiftLeft, BitVec.getLsbD_one]
  by_cases hk : k = l
  · subst hk; simp [hl]
  · simp [hk]; omega
theorem mMod_mMod {α : Type} (m : Map α) (k : Nat) (f g : α → α) : mMod (mMod m k f) k g = mMod m k (fun x => g (f x)) := by
  induction m with
  | nil => rfl
  | cons x t ih =>
    obtain ⟨k', v⟩ := x
    simp only [mMod]
    split <;> simp_all [mMod]

/-! ### A bundle in execution -/
theorem inBundle_iff (s : State) : s.inBundle = true ↔
    (mFind s.warps s.cur.wk).isSome = true ∧ s.cw.lanes.length = 32 ∧ s.cur.faulted = 0 ∧ s.cur.mask ≠ 0 := by
  simp only [State.inBundle, Bool.and_eq_true, beq_iff_eq, bne_iff_ne]
  constructor <;> (rintro h; simp only [and_assoc] at *; exact h)
theorem live_eq (s : State) (h : s.cur.faulted = 0) : s.live = s.cur.mask := by
  rw [State.live, h]
  exact BitVec.and_allOnes
/-- The warp of the bundle after a change of it. -/
theorem updCw_cw (s : State) (f : Warp → Warp) (h : (mFind s.warps s.cur.wk).isSome) : (s.updCw f).cw = f s.cw := by
  simp only [State.cw, State.updCw, State.updWarp_cur, State.updWarp_warp _ _ _ h]
theorem updCw_updCw (s : State) (f g : Warp → Warp) : (s.updCw f).updCw g = s.updCw fun w => g (f w) := by
  simp only [State.updCw, State.updWarp, State.setWarps_cur, State.setWarps_warps, mMod_mMod]; rfl
/-- A bundle with a lane names it. -/
theorem lowLane_mem (m : Word) (h : m ≠ 0) : lowLane m < 32 ∧ m.getLsbD (lowLane m) = true := by
  have hm : maskLanes m ≠ [] := by
    intro he
    apply h
    apply BitVec.eq_of_getLsbD_eq
    intro i hi
    by_contra hc
    have : i ∈ maskLanes m := (mem_maskLanes m i).2 ⟨hi, by simpa using hc⟩
    simp [he] at this
  cases hx : maskLanes m with
  | nil => exact absurd hx hm
  | cons a t =>
    have : a ∈ maskLanes m := by simp [hx]
    rw [mem_maskLanes] at this
    simpa [lowLane, hx] using this

/-! ### Writing registers -/
/-- A value as a register reads it: a predicate is 0 or 1. -/
def normVal : Dest → Word → Word
  | .pred _ _, v => if v = 0 then 0 else 1
  | _, v => v
/-- The predicate bits of a lane after a write of one of them. -/
theorem predBit (q : BitVec 7) (v : Word) (p p' : Nat) (hp' : p' < 7) :
    (if (if v = 0 then q &&& ~~~ (1#7 <<< p) else q ||| 1#7 <<< p).getLsbD p' = true then (1 : Word) else 0) =
      if p = p' then (if v = 0 then 0 else 1) else if q.getLsbD p' = true then 1 else 0 := by
  have h3 : (1#7 <<< p).getLsbD p' = decide (p = p') := by
    simp only [BitVec.getLsbD_shiftLeft, BitVec.getLsbD_one]
    by_cases h : p = p'
    · simp [h, hp']
    · by_cases h4 : p' < p
      · simp [h, h4]
      · have : p' - p ≠ 0 := by omega
        simp [h, this]
  by_cases hv : v = 0
  · rw [if_pos hv, if_pos hv, BitVec.getLsbD_and, BitVec.getLsbD_not, h3]
    by_cases h : p = p' <;> simp [h, hp']
  · rw [if_neg hv, if_neg hv, BitVec.getLsbD_or, h3]
    by_cases h : p = p' <;> simp [h]
/-- A lane after a predicate's write. -/
theorem storePred_lane (w : Warp) (p l k : Nat) (v : Word) (hl : l < 32) (hk : k < w.lanes.length) :
    (storeDest { dest := .pred p l, val := v } w).lane k =
      { w.lane k with preds := if k = l then (if v = 0 then (w.lane k).preds &&& ~~~ (1#7 <<< p)
                                              else (w.lane k).preds ||| 1#7 <<< p) else (w.lane k).preds } := by
  simp only [storeDest]
  rw [updLanes_lane _ _ _ _ hk, laneBit_getLsbD _ _ hl]
  by_cases h : k = l <;> simp [h]
theorem storeDest_reg (y : RegWrite) (w : Warp) (x : Dest) (hy : destExists y.dest = true) (hx : destExists x = true)
    (hl : w.lanes.length = 32) :
    regAt (storeDest y w) x = if y.dest = x then normVal x y.val else regAt w x := by
  obtain ⟨d, v⟩ := y
  cases d with
  | lane r l =>
    cases x with
    | lane r' l' =>
      simp only [destExists, Bool.and_eq_true, decide_eq_true_eq] at hy hx
      simp only [storeDest, regAt, Warp.vreg, mGet_mSet, Dest.lane.injEq, normVal]
      have : (32 * r + l = 32 * r' + l') = (r = r' ∧ l = l') := by apply propext; omega
      simp only [this]
    | _ => rfl
  | ply r l =>
    cases x with
    | ply r' l' =>
      simp only [destExists, Bool.and_eq_true, decide_eq_true_eq] at hy hx
      simp only [storeDest, regAt, Warp.sreg, mGet_mSet, Dest.ply.injEq, normVal]
      have : (4 * l + r = 4 * l' + r') = (r = r' ∧ l = l') := by apply propext; omega
      simp only [this]
    | _ => rfl
  | warp r =>
    cases x with
    | warp r' => simp only [storeDest, regAt, Warp.wreg, mGet_mSet, Dest.warp.injEq, normVal]
    | _ => rfl
  | pred p l =>
    cases x with
    | pred p' l' =>
      simp only [destExists, Bool.and_eq_true, decide_eq_true_eq] at hy hx
      simp only [regAt, Dest.pred.injEq, normVal]
      simp only [storePred_lane w p l l' v hy.2 (show l' < w.lanes.length by omega)]
      by_cases hll : l' = l
      · subst hll
        simp only [if_true, and_true]
        exact predBit _ v p p' hx.1
      · have : ¬ l = l' := fun h => hll h.symm
        simp [hll, this]
    | _ => rfl
/-! ### Many writes -/
/-- What a write of a register can change in a warp. -/
theorem writeNow_rest (y : RegWrite) (w : Warp) : writeNow y w =
    { w with lanes := (writeNow y w).lanes, vregs := (writeNow y w).vregs, mapped := (writeNow y w).mapped,
             sregs := (writeNow y w).sregs, wregs := (writeNow y w).wregs, outs := (writeNow y w).outs } := by
  obtain ⟨d, v⟩ := y
  cases d <;> rfl
theorem writeNow_length (y : RegWrite) (w : Warp) : (writeNow y w).lanes.length = w.lanes.length := by
  obtain ⟨d, v⟩ := y
  cases d <;> simp [writeNow, storeDest, dropPending]
theorem writeNow_lane (y : RegWrite) (w : Warp) (k : Nat) (hy : destExists y.dest = true) (hk : k < w.lanes.length) :
    (writeNow y w).lane k = { w.lane k with preds := ((writeNow y w).lane k).preds } := by
  obtain ⟨d, v⟩ := y
  cases d with
  | pred p l =>
    simp only [destExists, Bool.and_eq_true, decide_eq_true_eq] at hy
    simp only [writeNow, storePred_lane (dropPending (.pred p l) w) p l k v hy.2 hk]
    rfl
  | _ => rfl
theorem writeNow_outs (y : RegWrite) (w : Warp) : (writeNow y w).outs =
    w.outs.map fun o => { o with writes := o.writes.filter fun x => x.dest != y.dest } := by
  obtain ⟨d, v⟩ := y
  cases d <;> rfl
/-- The rows that a write maps. -/
def RegWrite.row (y : RegWrite) (r : Nat) : Bool :=
  match y.dest with
  | .lane q _ => q == r
  | _ => false
theorem writeNow_mapped (y : RegWrite) (w : Warp) (r : Nat) (hr : r < 88) :
    (writeNow y w).mapped.getLsbD r = (w.mapped.getLsbD r || y.row r) := by
  obtain ⟨d, v⟩ := y
  cases d with
  | lane q l =>
    simp only [writeNow, storeDest, dropPending, BitVec.getLsbD_or, BitVec.getLsbD_shiftLeft, BitVec.getLsbD_one,
      RegWrite.row]
    by_cases h : q = r
    · simp [h, hr]
    · by_cases h2 : r < q
      · simp [h, h2]
      · have : r - q ≠ 0 := by omega
        simp [h, this]
  | _ => simp [writeNow, storeDest, dropPending, RegWrite.row, Warp.updLanes]
theorem writeNow_reg (y : RegWrite) (w : Warp) (x : Dest) (hy : destExists y.dest = true) (hx : destExists x = true)
    (hl : w.lanes.length = 32) :
    regAt (writeNow y w) x = if y.dest = x then normVal x y.val else regAt w x := by
  rw [writeNow, storeDest_reg y (dropPending y.dest w) x hy hx hl]
  cases x <;> rfl

theorem writeAll_cons (y : RegWrite) (xs : List RegWrite) (w : Warp) :
    writeAll (y :: xs) w = writeAll xs (writeNow y w) := rfl
/-- WRITES IN ORDER: they change nothing but lanes' predicates, registers, rows and results due. -/
theorem writeAll_rest (xs : List RegWrite) (w : Warp) : writeAll xs w =
    { w with lanes := (writeAll xs w).lanes, vregs := (writeAll xs w).vregs, mapped := (writeAll xs w).mapped,
             sregs := (writeAll xs w).sregs, wregs := (writeAll xs w).wregs, outs := (writeAll xs w).outs } := by
  induction xs generalizing w with
  | nil => rfl
  | cons y t ih =>
    rw [writeAll_cons]
    have h1 := ih (writeNow y w)
    have h2 := writeNow_rest y w
    rw [h2] at h1 ⊢
    exact h1
theorem writeAll_length (xs : List RegWrite) (w : Warp) : (writeAll xs w).lanes.length = w.lanes.length := by
  induction xs generalizing w with
  | nil => rfl
  | cons y t ih => rw [writeAll_cons, ih, writeNow_length]
theorem writeAll_lane (xs : List RegWrite) (w : Warp) (k : Nat) (hx : ∀ y ∈ xs, destExists y.dest = true)
    (hk : k < w.lanes.length) :
    (writeAll xs w).lane k = { w.lane k with preds := ((writeAll xs w).lane k).preds } := by
  induction xs generalizing w with
  | nil => rfl
  | cons y t ih =>
    rw [writeAll_cons, ih _ (fun z hz => hx z (List.mem_cons_of_mem _ hz)) (by rw [writeNow_length]; exact hk),
      writeNow_lane y w k (hx y List.mem_cons_self) hk]
theorem writeAll_outs (xs : List RegWrite) (w : Warp) : (writeAll xs w).outs =
    w.outs.map fun o => { o with writes := o.writes.filter fun x => xs.all fun y => x.dest != y.dest } := by
  induction xs generalizing w with
  | nil => simp [writeAll]
  | cons y t ih =>
    rw [writeAll_cons, ih, writeNow_outs, List.map_map]
    congr 1
    funext o
    simp only [Function.comp, List.filter_filter, List.all_cons]
    congr 2
    funext x
    exact Bool.and_comm _ _
theorem writeAll_mapped (xs : List RegWrite) (w : Warp) (r : Nat) (hr : r < 88) :
    (writeAll xs w).mapped.getLsbD r = (w.mapped.getLsbD r || xs.any (RegWrite.row · r)) := by
  induction xs generalizing w with
  | nil => simp [writeAll]
  | cons y t ih => rw [writeAll_cons, ih, writeNow_mapped y w r hr, List.any_cons, Bool.or_assoc]
/-- The registers after writes that agree with `v` and cover it. -/
theorem writeAll_reg (v : Dest → Option Word) (xs : List RegWrite) (w : Warp) (x : Dest)
    (hx : ∀ y ∈ xs, destExists y.dest = true) (hd : destExists x = true) (hl : w.lanes.length = 32)
    (hv : ∀ y ∈ xs, y.dest = x → v x = some (normVal x y.val)) :
    regAt (writeAll xs w) x = if xs.any (fun y => y.dest == x) then (v x).getD 0 else regAt w x := by
  induction xs generalizing w with
  | nil => rfl
  | cons y t ih =>
    rw [writeAll_cons, ih _ (fun z hz => hx z (List.mem_cons_of_mem _ hz)) (by rw [writeNow_length]; exact hl)
      (fun z hz => hv z (List.mem_cons_of_mem _ hz)), writeNow_reg y w x (hx y List.mem_cons_self) hd hl,
      List.any_cons]
    by_cases h : y.dest = x
    · simp [h, hv y List.mem_cons_self h]
    · simp [h]

/-! ### The end of an issue -/
/-- The change that the end of an issue makes to its warp. -/
def endIssue (m : Word) (pc : DWord) (w : Warp) : Warp :=
  { w.updLanes m (fun _ x => { x with pc := pc + 4 }) with retired := w.retired + 1 }
/-- Flags ORed into a warp's FPFLAGS. -/
def withFlags (f : BitVec 5) (w : Warp) : Warp := { w with fpflags := w.fpflags ||| f }
theorem withFlags_lane (f : BitVec 5) (w : Warp) (l : Nat) : (withFlags f w).lane l = w.lane l := rfl
theorem withFlags_reg (f : BitVec 5) (w : Warp) (x : Dest) : regAt (withFlags f w) x = regAt w x := by cases x <;> rfl
theorem endIssue_lane (m : Word) (pc : DWord) (w : Warp) (l : Nat) (hl : l < w.lanes.length) :
    (endIssue m pc w).lane l = { w.lane l with pc := if m.getLsbD l then pc + 4 else (w.lane l).pc } := by
  have e : (endIssue m pc w).lane l = (w.updLanes m fun _ x => { x with pc := pc + 4 }).lane l := rfl
  rw [e, updLanes_lane w m _ l hl]
  by_cases h : m.getLsbD l = true <;> simp [h]
/-- Registers and predicates read the same where lanes keep their predicates. -/
theorem regAt_congr (v w : Warp) (x : Dest) (h1 : v.vregs = w.vregs) (h2 : v.sregs = w.sregs) (h3 : v.wregs = w.wregs)
    (h4 : ∀ l, l < 32 → (v.lane l).preds = (w.lane l).preds) (hd : destExists x = true) : regAt v x = regAt w x := by
  cases x with
  | lane r l => simp only [regAt, Warp.vreg, h1]
  | ply r p => simp only [regAt, Warp.sreg, h2]
  | warp r => simp only [regAt, Warp.wreg, h3]
  | pred p l =>
    simp only [destExists, Bool.and_eq_true, decide_eq_true_eq] at hd
    simp only [regAt, h4 l hd.2]
theorem endIssue_reg (m : Word) (pc : DWord) (w : Warp) (x : Dest) (hl : w.lanes.length = 32) (hd : destExists x = true) :
    regAt (endIssue m pc w) x = regAt w x :=
  regAt_congr _ _ _ rfl rfl rfl (fun l h => by rw [endIssue_lane m pc w l (by omega)]) hd
theorem done_eq (s : State) (h : s.cur.faulted = 0) : done s = s.updCw (endIssue s.cur.mask s.cur.pc) := by
  unfold done retireIssue advance
  have hf : ((s.updCw fun w => w.updLanes s.live fun _ x => { x with pc := s.cur.pc + 4 })).cur.faulted = 0 := h
  rw [if_pos hf, updCw_updCw, live_eq s h]
  rfl
theorem raiseFlags_eq (f : BitVec 5) (s : State) :
    raiseFlags f s = (s.updCw fun w => { w with fpflags := w.fpflags ||| f }).setCur
      { s.cur with flags := s.cur.flags ||| f } := rfl
theorem setCur_updCw (s : State) (c : Cur) (f : Warp → Warp) (h : c.wk = s.cur.wk) :
    (s.setCur c).updCw f = (s.updCw f).setCur c := by
  simp only [State.updCw, State.setCur_cur, h]; rfl
/-- A register instruction's end as one change of its warp. -/
theorem write_done_eq (xs : List RegWrite) (f : BitVec 5) (s : State) (h : s.cur.faulted = 0) :
    done (raiseFlags f (s.updCw (writeAll xs))) =
      (s.updCw fun w => endIssue s.cur.mask s.cur.pc
        (withFlags f (writeAll xs w))).setCur
        { s.cur with flags := s.cur.flags ||| f } := by
  have hf : (raiseFlags f (s.updCw (writeAll xs))).cur.faulted = 0 := h
  rw [done_eq _ hf, raiseFlags_eq, setCur_updCw _ _ _ (by rfl), updCw_updCw, updCw_updCw]
  rfl
theorem setCur_cw (s : State) (c : Cur) (h : c.wk = s.cur.wk) : (s.setCur c).cw = s.cw := by
  simp only [State.cw, State.setCur_cur, h]; rfl
/-- Only the warp of the bundle changes. -/
theorem onlyWarp_upd (s : State) (f : Warp → Warp) (fl : BitVec 5) :
    onlyWarp s ((s.updCw f).setCur { s.cur with flags := fl }) := by
  refine ⟨rfl, fun k hk => ?_⟩
  have : ¬ s.cur.wk = k := fun h => hk h.symm
  simp [State.updCw, this]
theorem sameMemory_upd (s : State) (f : Warp → Warp) (c : Cur) : sameMemory s ((s.updCw f).setCur c) :=
  ⟨fun _ _ => rfl, fun _ _ _ => rfl⟩
/-- Some writes are those that `v` gives the registers, and map the rows. -/
def covers (xs : List RegWrite) (v : Dest → Option Word) (rows : List Nat) : Prop :=
  (∀ y ∈ xs, destExists y.dest = true) ∧ (∀ y ∈ xs, v y.dest = some (normVal y.dest y.val)) ∧
    (∀ x, (v x).isSome = true → ∃ y ∈ xs, y.dest = x) ∧ ∀ r, r < 88 → xs.any (RegWrite.row · r) = rows.contains r
theorem covers_nil : covers [] (fun _ => none) [] := ⟨by simp, by simp, by simp, by simp⟩
theorem covers_append (xs ys : List RegWrite) (v v' : Dest → Option Word) (r r' : List Nat) (h : covers xs v r)
    (h' : covers ys v' r') (hd : ∀ x, (v' x).isSome = true → v x = none) :
    covers (xs ++ ys) (fun x => (v x).or (v' x)) (r ++ r') := by
  obtain ⟨h1, h2, h3, h4⟩ := h
  obtain ⟨g1, g2, g3, g4⟩ := h'
  refine ⟨?_, ?_, ?_, ?_⟩
  · intro y hy
    rcases List.mem_append.1 hy with hy | hy
    · exact h1 y hy
    · exact g1 y hy
  · intro y hy
    rcases List.mem_append.1 hy with hy | hy
    · simp [h2 y hy]
    · have := g2 y hy
      show (v y.dest).or (v' y.dest) = _
      rw [hd y.dest (by simp [this]), this]; rfl
  · intro x hx
    cases hv : v x with
    | some a =>
      obtain ⟨y, hy, he⟩ := h3 x (by simp [hv])
      exact ⟨y, List.mem_append_left _ hy, he⟩
    | none =>
      obtain ⟨y, hy, he⟩ := g3 x (by simpa [hv] using hx)
      exact ⟨y, List.mem_append_right _ hy, he⟩
  · intro q hq
    rw [List.any_append, h4 q hq, g4 q hq]
    rw [Bool.eq_iff_iff]; simp
/-- A REGISTER INSTRUCTION: writes that agree with `v` and cover it, flags, and the end of the issue. -/
theorem write_done (v : Dest → Option Word) (rows : List Nat) (xs : List RegWrite) (f : BitVec 5) (s : State)
    (h : s.inBundle = true) (hcov : covers xs v rows) :
    let t := done (raiseFlags f (s.updCw (writeAll xs)))
    onlyWarp s t ∧ sameMemory s t ∧ warpWentOn f s t ∧ lanesWentOn s t ∧ registersBecome v s t ∧ rowsBecome rows s t := by
  obtain ⟨h1, h2, h3, h4⟩ := (inBundle_iff s).1 h
  obtain ⟨hx, hv, hc, hr⟩ := hcov
  rw [write_done_eq xs f s h3]
  have hcw := updCw_cw s (fun w => endIssue s.cur.mask s.cur.pc
        (withFlags f (writeAll xs w))) h1
  have hlen : (writeAll xs s.cw).lanes.length = 32 := by rw [writeAll_length, h2]
  have hany : ∀ x, xs.any (fun y => y.dest == x) = (v x).isSome := by
    intro x
    rw [Bool.eq_iff_iff, List.any_eq_true]
    constructor
    · rintro ⟨y, hy, he⟩
      rw [← eq_of_beq he, hv y hy]; rfl
    · intro hs
      obtain ⟨y, hy, he⟩ := hc x hs
      exact ⟨y, hy, by simp [he]⟩
  refine ⟨onlyWarp_upd _ _ _, sameMemory_upd _ _ _, ?_, ?_, ⟨?_, ?_⟩, ?_⟩
  · rw [warpWentOn, setCur_cw _ _ (by rfl), hcw]
    simp only [endIssue, withFlags, Warp.updLanes]
    rw [writeAll_rest xs s.cw]
  · intro l hl
    rw [setCur_cw _ _ (by rfl), hcw]
    have e := writeAll_lane xs s.cw l hx (by omega)
    rw [endIssue_lane _ _ _ _ (by show l < (writeAll xs s.cw).lanes.length; omega)]
    rw [withFlags_lane, e]
  · intro x hd
    rw [setCur_cw _ _ (by rfl), hcw]
    have hreg : regAt (endIssue s.cur.mask s.cur.pc
        (withFlags f (writeAll xs s.cw))) x = regAt (writeAll xs s.cw) x := by
      rw [endIssue_reg _ _ (withFlags f (writeAll xs s.cw)) _ hlen hd, withFlags_reg]
    rw [hreg, writeAll_reg v xs s.cw x hx hd h2 (fun y hy he => by rw [← he]; exact hv y hy), hany]
    cases hvx : v x <;> simp
  · rw [setCur_cw _ _ (by rfl), hcw]
    simp only [endIssue, withFlags, Warp.updLanes]
    rw [writeAll_outs]
    congr 1
    funext o
    congr 2
    funext x
    have := hany x.dest
    rw [Bool.eq_iff_iff, List.all_eq_true]
    constructor
    · intro ha
      by_contra hn
      have hs : (v x.dest).isSome = true := by cases hvx : v x.dest <;> simp_all
      obtain ⟨y, hy, he⟩ := hc _ hs
      have := ha y hy
      simp [he] at this
    · intro hn y hy
      have := hv y hy
      rw [bne_iff_ne]
      intro he
      rw [he, this] at hn
      simp at hn
  · intro r hr'
    rw [setCur_cw _ _ (by rfl), hcw]
    simp only [endIssue, withFlags, Warp.updLanes]
    rw [writeAll_mapped xs s.cw r hr', hr r hr']

/-! ### The end of a committing issue -/
theorem boundary_lane (m : Word) (w : Warp) (l : Nat) (hl : l < w.lanes.length) :
    (Warp.boundary m w).lane l =
      if m.getLsbD l then { w.lane l with region := (w.lane l).pc, regionRetired := w.retired } else w.lane l := by
  have e : (Warp.boundary m w).lane l = (w.updLanes m fun _ x => { x with region := x.pc, regionRetired := w.retired }).lane l := rfl
  rw [e, updLanes_lane _ _ _ _ hl]
theorem boundary_reg (m : Word) (w : Warp) (x : Dest) (hl : w.lanes.length = 32) (hd : destExists x = true) :
    regAt (Warp.boundary m w) x = regAt w x :=
  regAt_congr _ _ _ rfl rfl rfl (fun l h => by rw [boundary_lane m w l (by omega)]; split <;> rfl) hd
/-- A COMMITTING REGISTER INSTRUCTION. -/
theorem write_doneB (v : Dest → Option Word) (rows : List Nat) (xs : List RegWrite) (f : BitVec 5) (s : State)
    (h : s.inBundle = true) (hcov : covers xs v rows) :
    let t := doneB (raiseFlags f (s.updCw (writeAll xs)))
    onlyWarp s t ∧ sameMemory s t ∧ warpWentOn f s t ∧ lanesCommitted s t ∧ registersCommit v s t ∧ rowsBecome rows s t := by
  obtain ⟨h1, h2, h3, h4⟩ := (inBundle_iff s).1 h
  obtain ⟨g1, g2, g3, g4, g5, g6⟩ := write_done v rows xs f s h hcov
  have hl : (raiseFlags f (s.updCw (writeAll xs))).live = s.cur.mask := live_eq s h3
  have e : doneB (raiseFlags f (s.updCw (writeAll xs))) =
      (done (raiseFlags f (s.updCw (writeAll xs)))).updCw (Warp.boundary s.cur.mask) := by
    rw [doneB, hl]; rfl
  rw [e]
  have hd := write_done_eq xs f s h3
  have hf : (mFind (done (raiseFlags f (s.updCw (writeAll xs)))).warps s.cur.wk).isSome = true := by
    rw [hd]
    simp [State.updCw, h1]
  generalize done (raiseFlags f (s.updCw (writeAll xs))) = u at *
  have hcur : u.cur.wk = s.cur.wk := by rw [hd]; rfl
  have hcw : (u.updCw (Warp.boundary s.cur.mask)).cw = Warp.boundary s.cur.mask u.cw := updCw_cw u _ (by rw [hcur]; exact hf)
  have hulen : u.cw.lanes.length = 32 := by
    rw [hd, setCur_cw _ _ (by rfl), updCw_cw _ _ h1]
    simp only [endIssue, withFlags, Warp.updLanes, mapIdxFrom_length]
    rw [writeAll_length, h2]
  have hret : u.cw.retired = s.cw.retired + 1 := by rw [g3]
  refine ⟨⟨?_, ?_⟩, ⟨g2.1, g2.2⟩, ?_, ?_, ⟨?_, ?_⟩, ?_⟩
  · have hw : (u.updCw (Warp.boundary s.cur.mask)).warps = mMod u.warps s.cur.wk (Warp.boundary s.cur.mask) := by
      rw [← hcur]; rfl
    rw [hw]
    exact congrArg (fun x : State => x.updCw (Warp.boundary s.cur.mask)) g1.1
  · intro k hk
    rw [← g1.2 k hk]
    have : ¬ u.cur.wk = k := by rw [hcur]; exact fun hh => hk hh.symm
    simp [State.updCw, this]
  · rw [warpWentOn, hcw]
    simp only [Warp.boundary, Warp.updLanes]
    rw [g3]
  · intro l hl
    have e4 := g4 l hl
    rw [hcw, boundary_lane _ _ _ (by omega), hret]
    by_cases hm : s.cur.mask.getLsbD l = true
    · rw [if_pos hm, if_pos hm, e4]; simp [hm]
    · rw [if_neg hm, if_neg hm, e4]; simp [hm]
  · intro x hx'
    rw [hcw, boundary_reg _ _ _ hulen hx']
    exact g5.1 x hx'
  · rw [hcw]
    simp only [Warp.boundary, Warp.updLanes]
    rw [g5.2, List.map_map]
    rfl
  · intro r hr'
    rw [hcw]
    exact g6 r hr'
theorem updCw_id (s : State) : s.updCw (fun w => w) = s := by
  have : ∀ (m : Map Warp) k, mMod m k (fun w => w) = m := by
    intro m k
    induction m with
    | nil => rfl
    | cons a t ih => obtain ⟨k', v⟩ := a; simp only [mMod, ih]; split <;> rfl
  simp only [State.updCw, State.updWarp, this]; rfl
theorem raiseFlags_zero (s : State) : raiseFlags 0 s = s := by
  have h0 : ∀ x : BitVec 5, x ||| 0 = x := fun x => by simp
  rw [raiseFlags_eq]
  simp only [h0]
  exact (congrArg (fun x : State => x.setCur s.cur) (updCw_id s)).trans rfl
theorem writeAll_nil (s : State) : s.updCw (writeAll []) = s := updCw_id s
/-- Nothing written. -/
theorem done_wentOn (s : State) (h : s.inBundle = true) : wentOn s (done s) := by
  have hw := write_done _ _ [] 0 s h covers_nil
  rw [writeAll_nil, raiseFlags_zero] at hw
  exact hw
/-- Nothing written by a committing instruction. -/
theorem doneB_committed (s : State) (h : s.inBundle = true) : committed (fun _ => none) 0 s (doneB s) := by
  have hw := write_doneB _ _ [] 0 s h covers_nil
  rw [writeAll_nil, raiseFlags_zero] at hw
  exact hw

end Sys2Proof.Machine
end

