-- ==== Sys2Proof/Laws/Results.lean ====
section
/-! SUPPORT. Writing a result: what `writeNowResult`, `writePred`, `outResult` and the faults do, said once. -/
namespace Sys2Proof.Machine

/-! ### How an instruction ends -/
/-- An instruction that writes its result goes on as `done` says, a committing one as `doneB` says (R197). -/
theorem plain_apply (s : State) : Ending.plain.apply s = done s := rfl
theorem commit_apply (s : State) : Ending.commit.apply s = doneB s := rfl

/-! ### The writes of a result -/
theorem mem_laneWrites (d : Reg) (pair : Bool) (vals : List (Nat × DWord)) (y : RegWrite) :
    y ∈ laneWrites d pair vals ↔ ∃ x ∈ vals,
      y = { dest := .lane d.toNat x.1, val := x.2.setWidth 32 } ∨
      (pair = true ∧ y = { dest := .lane (d.toNat + 1) x.1, val := (x.2 >>> 32).setWidth 32 }) := by
  induction vals with
  | nil => simp [laneWrites]
  | cons a t ih =>
    obtain ⟨l, v⟩ := a
    cases pair <;> simp [laneWrites, ih, or_assoc]
theorem mem_perLane {α : Type} (s : State) (f : Nat → α) (x : Nat × α) :
    x ∈ s.perLane f ↔ x.1 < 32 ∧ s.cur.mask.getLsbD x.1 = true ∧ x.2 = f x.1 := by
  obtain ⟨l, v⟩ := x
  simp only [State.perLane, State.bl, List.mem_map, mem_maskLanes, Prod.mk.injEq]
  constructor
  · rintro ⟨k, ⟨h1, h2⟩, rfl, rfl⟩; exact ⟨h1, h2, rfl⟩
  · rintro ⟨h1, h2, rfl⟩; exact ⟨l, ⟨h1, h2⟩, rfl, rfl⟩
theorem getLsbD_lt {n : Nat} (m : BitVec n) (l : Nat) (h : m.getLsbD l = true) : l < n := by
  by_contra hc
  rw [BitVec.getLsbD_of_ge m l (by omega)] at h
  exact absurd h (by decide)
theorem mask_lt (m : Word) (l : Nat) (h : m.getLsbD l = true) : l < 32 := getLsbD_lt m l h

/-- Lane registers take each lane's value. -/
theorem laneResult (e : Ending) (d : Reg) (pair : Bool) (f : Nat → DWord) (fl : BitVec 5) (s : State)
    (h : s.inBundle = true) (hd : d.toNat < 88) (hp : pair = true → d.toNat % 2 = 0)
    (hr : rowsFit s (laneRows d pair) = true) :
    writeNowResult e d pair (s.perLane f) fl s =
      e.apply (raiseFlags fl (s.updCw (writeAll (laneWrites d pair (s.perLane f))))) ∧
    covers (laneWrites d pair (s.perLane f)) (resultDest d pair s.cur.mask f) (laneRows d pair) := by
  obtain ⟨h1, h2, h3, h4⟩ := (inBundle_iff s).1 h
  constructor
  · rw [laneRows, if_pos hd] at hr
    simp only [writeNowResult, if_pos hd, hr, if_true]
  · refine ⟨?_, ?_, ?_, ?_⟩
    · intro y hy
      obtain ⟨x, hx, hy⟩ := (mem_laneWrites _ _ _ _).1 hy
      have hl := ((mem_perLane s f x).1 hx).1
      rcases hy with rfl | ⟨hp', rfl⟩
      · simp [destExists, hd, hl]
      · have := hp hp'
        simp only [destExists, Bool.and_eq_true, decide_eq_true_eq]; omega
    · intro y hy
      obtain ⟨x, hx, hy⟩ := (mem_laneWrites _ _ _ _).1 hy
      obtain ⟨hl, hm, hv⟩ := (mem_perLane s f x).1 hx
      rcases hy with rfl | ⟨hp', rfl⟩
      · simp [resultDest, resultDest.half, hd, hm, normVal, hv]
      · simp [resultDest, resultDest.half, hd, hm, normVal, hv, hp']
    · intro x hx
      cases x with
      | lane r l =>
        simp only [resultDest] at hx
        split at hx
        · rename_i hc
          have hl := mask_lt _ _ hc.2
          have hmem : (l, f l) ∈ s.perLane f := (mem_perLane s f _).2 ⟨hl, hc.2, rfl⟩
          simp only [resultDest.half] at hx
          split at hx
          · rename_i he
            exact ⟨_, (mem_laneWrites _ _ _ _).2 ⟨_, hmem, .inl rfl⟩, by simp [he]⟩
          · split at hx
            · rename_i he
              exact ⟨_, (mem_laneWrites _ _ _ _).2 ⟨_, hmem, .inr ⟨he.1, rfl⟩⟩, by simp [he.2]⟩
            · simp at hx
        · simp at hx
      | ply r p =>
        have : ¬ (88 ≤ d.toNat ∧ d.toNat < 92) := by omega
        simp [resultDest, this] at hx
      | warp r =>
        have : ¬ (92 ≤ d.toNat ∧ d.toNat < 108) := by omega
        simp [resultDest, this] at hx
      | pred p l => simp [resultDest] at hx
    · intro r hr'
      obtain ⟨hl, hm⟩ := lowLane_mem s.cur.mask h4
      have hmem : (lowLane s.cur.mask, f (lowLane s.cur.mask)) ∈ s.perLane f := (mem_perLane s f _).2 ⟨hl, hm, rfl⟩
      rw [Bool.eq_iff_iff, List.any_eq_true]
      simp only [laneRows, if_pos hd]
      constructor
      · rintro ⟨y, hy, he⟩
        obtain ⟨x, hx, hy⟩ := (mem_laneWrites _ _ _ _).1 hy
        rcases hy with rfl | ⟨hp', rfl⟩
        · simp only [RegWrite.row, beq_iff_eq] at he
          subst he; cases pair <;> simp
        · simp only [RegWrite.row, beq_iff_eq] at he
          subst he; simp [hp']
      · intro hc
        cases pair with
        | false =>
          simp at hc
          exact ⟨_, (mem_laneWrites _ _ _ _).2 ⟨_, hmem, .inl rfl⟩, by simp [RegWrite.row, hc]⟩
        | true =>
          simp at hc
          rcases hc with hc | hc
          · exact ⟨_, (mem_laneWrites _ _ _ _).2 ⟨_, hmem, .inl rfl⟩, by simp [RegWrite.row, hc]⟩
          · exact ⟨_, (mem_laneWrites _ _ _ _).2 ⟨_, hmem, .inr ⟨rfl, rfl⟩⟩, by simp [RegWrite.row, hc]⟩

/-! ### Agreement (R121) -/
theorem allAgree_iff (vals : List (Nat × DWord)) :
    allAgree vals = true ↔ ∀ x ∈ vals, ∀ y ∈ vals, x.2 = y.2 := by
  cases vals with
  | nil => simp [allAgree]
  | cons a t =>
    obtain ⟨l, v⟩ := a
    simp only [allAgree, List.all_eq_true, beq_iff_eq]
    constructor
    · intro h x hx y hy
      have : ∀ z ∈ (l, v) :: t, z.2 = v := by
        intro z hz
        rcases List.mem_cons.1 hz with rfl | hz
        · rfl
        · exact h z hz
      rw [this x hx, this y hy]
    · intro h x hx
      exact h x (List.mem_cons_of_mem _ hx) (l, v) List.mem_cons_self
theorem perLane_agree (s : State) (f : Nat → DWord) (h : ∀ l < 32, ∀ k < 32, s.cur.mask.getLsbD l = true →
    s.cur.mask.getLsbD k = true → f l = f k) : allAgree (s.perLane f) = true := by
  rw [allAgree_iff]
  intro x hx y hy
  obtain ⟨h1, h2, h3⟩ := (mem_perLane s f x).1 hx
  obtain ⟨h4, h5, h6⟩ := (mem_perLane s f y).1 hy
  rw [h3, h6]; exact h _ h1 _ h4 h2 h5
theorem perLane_head (s : State) (f : Nat → DWord) (h : s.cur.mask ≠ 0) :
    (s.perLane f).headD (0, 0) = (lowLane s.cur.mask, f (lowLane s.cur.mask)) := by
  have hm := lowLane_mem s.cur.mask h
  simp only [State.perLane, State.bl, lowLane] at *
  cases hx : maskLanes s.cur.mask with
  | nil =>
    have : (maskLanes s.cur.mask).headD 0 ∈ maskLanes s.cur.mask := (mem_maskLanes _ _).2 hm
    rw [hx] at this
    simp at this
  | cons a t => rfl
theorem mem_warpWrites (d : Reg) (pair : Bool) (v : DWord) (y : RegWrite) :
    y ∈ warpWrites d pair v ↔ y = { dest := .warp (d.toNat - 92), val := v.setWidth 32 } ∨
      (pair = true ∧ y = { dest := .warp (d.toNat - 91), val := (v >>> 32).setWidth 32 }) := by
  cases pair <;> simp [warpWrites]
/-- Warp registers take the one value. -/
theorem warpResult (d : Reg) (pair : Bool) (f : Nat → DWord) (s : State)
    (hd : 92 ≤ d.toNat) (hd' : d.toNat < 108) (hp : pair = true → d.toNat % 2 = 0) :
    covers (warpWrites d pair (f (lowLane s.cur.mask))) (resultDest d pair s.cur.mask f) (laneRows d pair) := by
  refine ⟨?_, ?_, ?_, ?_⟩
  · intro y hy
    rcases (mem_warpWrites _ _ _ _).1 hy with rfl | ⟨hp', rfl⟩
    · simp only [destExists, decide_eq_true_eq]; omega
    · have := hp hp'
      simp only [destExists, decide_eq_true_eq]; omega
  · intro y hy
    rcases (mem_warpWrites _ _ _ _).1 hy with rfl | ⟨hp', rfl⟩
    · have : d.toNat - 92 + 92 = d.toNat := by omega
      simp [resultDest, resultDest.half, hd, hd', normVal, this]
    · have h1 : d.toNat - 91 + 92 = d.toNat + 1 := by omega
      simp [resultDest, resultDest.half, hd, hd', normVal, h1, hp']
  · intro x hx
    cases x with
    | lane r l =>
      have : ¬ (d.toNat < 88 ∧ s.cur.mask.getLsbD l = true) := by omega
      simp only [resultDest, if_neg this] at hx; simp at hx
    | ply r p =>
      have : ¬ (88 ≤ d.toNat ∧ d.toNat < 92) := by omega
      simp [resultDest, this] at hx
    | warp r =>
      simp only [resultDest, if_pos (show 92 ≤ d.toNat ∧ d.toNat < 108 from ⟨hd, hd'⟩), resultDest.half] at hx
      split at hx
      · exact ⟨_, (mem_warpWrites _ _ _ _).2 (.inl rfl), by simp; omega⟩
      · split at hx
        · rename_i h1 he
          exact ⟨_, (mem_warpWrites _ _ _ _).2 (.inr ⟨he.1, rfl⟩), by simp; omega⟩
        · simp at hx
    | pred p l => simp [resultDest] at hx
  · intro r _
    have : ¬ d.toNat < 88 := by omega
    cases pair <;> simp [warpWrites, RegWrite.row, laneRows, this]
theorem writeNow_warp (e : Ending) (d : Reg) (pair : Bool) (vals : List (Nat × DWord)) (fl : BitVec 5) (s : State)
    (hd : 92 ≤ d.toNat) (hd' : d.toNat < 108) (ha : allAgree vals = true) :
    writeNowResult e d pair vals fl s =
      e.apply (raiseFlags fl (s.updCw (writeAll (warpWrites d pair ((vals.headD (0, 0)).2))))) := by
  have h1 : ¬ d.toNat < 88 := by omega
  have h2 : ¬ d.toNat < 92 := by omega
  simp only [writeNowResult, if_neg h1, if_pos hd', agreeWrites, if_neg h2, ha, if_true]
/-- z takes nothing (R138). -/
theorem zResult (pair : Bool) (f : Nat → DWord) (m : Word) : covers [] (resultDest 124 pair m f) (laneRows 124 pair) :=
  ⟨by simp, by simp, by intro x hx; cases x <;> simp [resultDest] at hx, by intro r _; cases pair <;> simp [laneRows]⟩
theorem writeNow_z (e : Ending) (pair : Bool) (vals : List (Nat × DWord)) (fl : BitVec 5) (s : State) :
    writeNowResult e 124 pair vals fl s = e.apply (raiseFlags fl s) := by
  simp [writeNowResult]

/-! ### Ply registers -/
theorem plyVals_perLane (s : State) (f : Nat → DWord) (p : Nat) :
    plyVals p (s.perLane f) = ((maskLanes s.cur.mask).filter fun l => l / 8 == p).map fun l => (l, f l) := by
  simp only [plyVals, State.perLane, State.bl, List.filter_map]; rfl
/-- The writes of an agreed bundle to ply registers. -/
def plyAll (d : Reg) (pair : Bool) (vals : List (Nat × DWord)) : List RegWrite :=
  (rangeFrom 0 4).flatMap fun p =>
    match plyVals p vals with
    | [] => []
    | (_, v) :: _ => plyWrites d pair p v
theorem mem_plyWrites (d : Reg) (pair : Bool) (p : Nat) (v : DWord) (y : RegWrite) :
    y ∈ plyWrites d pair p v ↔ y = { dest := .ply (d.toNat - 88) p, val := v.setWidth 32 } ∨
      (pair = true ∧ y = { dest := .ply (d.toNat - 87) p, val := (v >>> 32).setWidth 32 }) := by
  cases pair <;> simp [plyWrites]
theorem mem_plyAll (s : State) (d : Reg) (pair : Bool) (f : Nat → DWord) (y : RegWrite) :
    y ∈ plyAll d pair (s.perLane f) ↔ ∃ p < 4, ∃ l, (maskLanes s.cur.mask).find? (fun l => l / 8 == p) = some l ∧
      y ∈ plyWrites d pair p (f l) := by
  simp only [plyAll, List.mem_flatMap, mem_rangeFrom, plyVals_perLane, ← List.head?_filter]
  constructor
  · rintro ⟨p, hp, hy⟩
    cases hx : (maskLanes s.cur.mask).filter fun l => l / 8 == p with
    | nil => simp [hx] at hy
    | cons a t => simp only [hx, List.map_cons] at hy; exact ⟨p, by omega, a, by simp [hx], hy⟩
  · rintro ⟨p, hp, l, hl, hy⟩
    refine ⟨p, by omega, ?_⟩
    cases hx : (maskLanes s.cur.mask).filter fun l => l / 8 == p with
    | nil => simp [hx] at hl
    | cons a t =>
      simp only [hx, List.head?_cons, Option.some.injEq] at hl
      subst hl
      simpa using hy
theorem writeNow_ply (e : Ending) (d : Reg) (pair : Bool) (f : Nat → DWord) (fl : BitVec 5) (s : State)
    (hd : 88 ≤ d.toNat) (hd' : d.toNat < 92) (ha : ∀ l < 32, ∀ k < 32, s.cur.mask.getLsbD l = true →
      s.cur.mask.getLsbD k = true → l / 8 = k / 8 → f l = f k) :
    writeNowResult e d pair (s.perLane f) fl s =
      e.apply (raiseFlags fl (s.updCw (writeAll (plyAll d pair (s.perLane f))))) := by
  have h1 : ¬ d.toNat < 88 := by omega
  have h3 : d.toNat < 108 := by omega
  have h4 : ((rangeFrom 0 4).all fun p => allAgree (plyVals p (s.perLane f))) = true := by
    rw [List.all_eq_true]
    intro p _
    rw [allAgree_iff]
    intro x hx y hy
    simp only [plyVals, List.mem_filter, beq_iff_eq, mem_perLane] at hx hy
    rw [hx.1.2.2, hy.1.2.2]
    exact ha _ hx.1.1 _ hy.1.1 hx.1.2.1 hy.1.2.1 (by omega)
  simp only [writeNowResult, if_neg h1, if_pos h3, agreeWrites, if_pos hd', h4, if_true]; rfl
/-- Ply registers take their ply's value. -/
theorem plyResult (d : Reg) (pair : Bool) (f : Nat → DWord) (s : State)
    (hd : 88 ≤ d.toNat) (hd' : d.toNat < 92) (hp : pair = true → d.toNat % 2 = 0) :
    covers (plyAll d pair (s.perLane f)) (resultDest d pair s.cur.mask f) (laneRows d pair) := by
  have hc : 88 ≤ d.toNat ∧ d.toNat < 92 := ⟨hd, hd'⟩
  refine ⟨?_, ?_, ?_, ?_⟩
  · intro y hy
    obtain ⟨p, hp4, l, hl, hy⟩ := (mem_plyAll _ _ _ _ _).1 hy
    rcases (mem_plyWrites _ _ _ _ _).1 hy with rfl | ⟨hp', rfl⟩
    · simp only [destExists, Bool.and_eq_true, decide_eq_true_eq]; omega
    · have := hp hp'
      simp only [destExists, Bool.and_eq_true, decide_eq_true_eq]; omega
  · intro y hy
    obtain ⟨p, hp4, l, hl, hy⟩ := (mem_plyAll _ _ _ _ _).1 hy
    rcases (mem_plyWrites _ _ _ _ _).1 hy with rfl | ⟨hp', rfl⟩
    · have : d.toNat - 88 + 88 = d.toNat := by omega
      simp [resultDest, resultDest.half, hc, hl, normVal, this]
    · have h1 : d.toNat - 87 + 88 = d.toNat + 1 := by omega
      simp [resultDest, resultDest.half, hc, hl, normVal, h1, hp']
  · intro x hx
    cases x with
    | lane r l =>
      have : ¬ (d.toNat < 88 ∧ s.cur.mask.getLsbD l = true) := by omega
      simp only [resultDest, if_neg this] at hx; simp at hx
    | ply r p =>
      simp only [resultDest, if_pos hc] at hx
      split at hx
      · rename_i l hl
        have hp4 : p < 4 := by
          have h1 := List.find?_some hl
          have h2 := (mem_maskLanes _ _).1 (List.mem_of_find?_eq_some hl)
          simp only [beq_iff_eq] at h1; omega
        simp only [resultDest.half] at hx
        split at hx
        · exact ⟨_, (mem_plyAll _ _ _ _ _).2 ⟨p, hp4, l, hl, (mem_plyWrites _ _ _ _ _).2 (.inl rfl)⟩, by simp; omega⟩
        · split at hx
          · rename_i h1 he
            exact ⟨_, (mem_plyAll _ _ _ _ _).2 ⟨p, hp4, l, hl, (mem_plyWrites _ _ _ _ _).2 (.inr ⟨he.1, rfl⟩)⟩,
              by simp; omega⟩
          · simp at hx
      · simp at hx
    | warp r =>
      have : ¬ (92 ≤ d.toNat ∧ d.toNat < 108) := by omega
      simp [resultDest, this] at hx
    | pred p l => simp [resultDest] at hx
  · intro r _
    have h1 : ¬ d.toNat < 88 := by omega
    rw [Bool.eq_iff_iff, List.any_eq_true]
    simp only [laneRows, if_neg h1]
    constructor
    · rintro ⟨y, hy, he⟩
      obtain ⟨p, hp4, l, hl, hy⟩ := (mem_plyAll _ _ _ _ _).1 hy
      rcases (mem_plyWrites _ _ _ _ _).1 hy with rfl | ⟨hp', rfl⟩ <;> simp [RegWrite.row] at he
    · intro hc'; simp at hc'
/-- A RESULT OF THE BUNDLE AT FIXED LATENCY that its destination takes (R121, R135, R138), whatever follows. -/
theorem writeNowResult_covers (d : Reg) (pair : Bool) (f : Nat → DWord) (fl : BitVec 5) (s : State) (h : s.inBundle = true)
    (hp : pair = true → d.toNat % 2 = 0) (ht : takesNow s d pair f) :
    ∃ xs, (∀ e, writeNowResult e d pair (s.perLane f) fl s = e.apply (raiseFlags fl (s.updCw (writeAll xs)))) ∧
      covers xs (resultDest d pair s.cur.mask f) (laneRows d pair) := by
  obtain ⟨h1, h2, h3, h4⟩ := (inBundle_iff s).1 h
  rcases ht with ⟨hd, hr⟩ | ⟨hd, hd', ha⟩ | ⟨hd, hd', ha⟩ | hd
  · exact ⟨_, fun e => (laneResult e d pair f fl s h hd hp hr).1, (laneResult .plain d pair f fl s h hd hp hr).2⟩
  · exact ⟨_, fun e => writeNow_ply e d pair f fl s hd hd' ha, plyResult d pair f s hd hd' hp⟩
  · refine ⟨_, fun e => ?_, warpResult d pair f s hd hd' hp⟩
    rw [writeNow_warp e d pair _ fl s hd hd' (perLane_agree s f ha), perLane_head s f h4]
  · subst hd
    refine ⟨[], fun e => ?_, zResult pair f s.cur.mask⟩
    rw [writeNow_z, writeAll_nil]
theorem writeNowResult_now (d : Reg) (pair : Bool) (f : Nat → DWord) (fl : BitVec 5) (s : State) (h : s.inBundle = true)
    (hp : pair = true → d.toNat % 2 = 0) (ht : takesNow s d pair f) :
    resultNow d pair f fl s (writeNowResult .plain d pair (s.perLane f) fl s) := by
  obtain ⟨xs, hk, hc⟩ := writeNowResult_covers d pair f fl s h hp ht
  rw [hk]
  exact write_done _ _ xs fl s h hc
/-- One value of the whole bundle, as the uniform pipe writes it. -/
theorem writeNowResult_uniform (d : Reg) (pair : Bool) (v : DWord) (s : State) (h : s.inBundle = true)
    (hp : pair = true → d.toNat % 2 = 0) (hd : 92 ≤ d.toNat ∧ d.toNat < 108 ∨ d = 124) :
    resultNow d pair (fun _ => v) 0 s (writeNowResult .plain d pair [(lowLane s.cur.mask, v)] 0 s) := by
  rcases hd with ⟨hd, hd'⟩ | hd
  · rw [writeNow_warp .plain d pair _ 0 s hd hd' (by simp [allAgree])]
    exact write_done _ _ _ 0 s h (warpResult d pair (fun _ => v) s hd hd' hp)
  · subst hd
    have := write_done _ _ _ 0 s h (zResult pair (fun _ => v) s.cur.mask)
    rw [writeAll_nil] at this
    rw [writeNow_z]
    exact this

/-! ### Predicates -/
theorem mem_predWrites (p : PredNo) (vals : List (Nat × Bool)) (y : RegWrite) :
    y ∈ predWrites p vals ↔ p.toNat ≠ 7 ∧ ∃ x ∈ vals, y = { dest := .pred p.toNat x.1, val := if x.2 then 1 else 0 } := by
  induction vals with
  | nil => simp [predWrites]
  | cons a t ih =>
    obtain ⟨l, v⟩ := a
    by_cases hp : p.toNat = 7
    · simp [predWrites, hp]
    · simp [predWrites, hp, ih]
theorem predWrites_covers (p : PredNo) (f : Nat → Bool) (s : State) :
    covers (predWrites p (s.perLane f)) (predDest p s.cur.mask f) [] := by
  have h7 : p.toNat < 8 := p.isLt
  refine ⟨?_, ?_, ?_, ?_⟩
  · intro y hy
    obtain ⟨hp, x, hx, rfl⟩ := (mem_predWrites _ _ _).1 hy
    obtain ⟨hl, hm, hv⟩ := (mem_perLane s f x).1 hx
    simp only [destExists, Bool.and_eq_true, decide_eq_true_eq]; omega
  · intro y hy
    obtain ⟨hp, x, hx, rfl⟩ := (mem_predWrites _ _ _).1 hy
    obtain ⟨hl, hm, hv⟩ := (mem_perLane s f x).1 hx
    cases hb : f x.1 <;> simp [predDest, hp, hm, normVal, hv, hb]
  · intro x hx
    cases x with
    | pred q l =>
      simp only [predDest] at hx
      split at hx
      · rename_i hc
        have hl := mask_lt _ _ hc.2.2
        exact ⟨_, (mem_predWrites _ _ _).2 ⟨hc.2.1, _, (mem_perLane s f (l, f l)).2 ⟨hl, hc.2.2, rfl⟩, rfl⟩, by simp [hc.1]⟩
      · simp at hx
    | _ => simp [predDest] at hx
  · intro r _
    rw [Bool.eq_iff_iff, List.any_eq_true]
    constructor
    · rintro ⟨y, hy, he⟩
      obtain ⟨hp, x, hx, rfl⟩ := (mem_predWrites _ _ _).1 hy
      simp [RegWrite.row] at he
    · intro hc; simp at hc

/-! ### Faults -/
/-- TAKING A FAULT parks the lanes, posts one record and changes nothing else. -/
theorem raiseMask_taken (m : Word) (code : Byte) (detail : BitVec 17) (faddr : DWord) (s : State) (h : s.inBundle = true) :
    faultTaken m code detail faddr s (raiseMask m code detail faddr s) := by
  obtain ⟨h1, h2, h3, h4⟩ := (inBundle_iff s).1 h
  have e : raiseMask m code detail faddr s =
      (((s.updCw fun w => w.updLanes m fun _ x => { x with st := .parkedFault }).setFaults
        { s.faults with pend := s.faults.pend ++ [laneRecord s m code detail faddr] }).setCur
        { s.cur with faulted := s.cur.faulted ||| m }) := rfl
  have hcw : (raiseMask m code detail faddr s).cw = s.cw.updLanes m fun _ x => { x with st := .parkedFault } := by
    rw [e, setCur_cw _ _ (by rfl)]
    exact updCw_cw s _ h1
  refine ⟨rfl, fun k hk => ?_, ?_, ?_, ⟨fun _ _ => rfl, fun _ _ _ => rfl⟩,
    ⟨laneRecord s m code detail faddr, rfl, rfl, rfl, rfl, rfl, rfl, rfl, rfl, rfl, rfl, rfl⟩⟩
  · rw [e]
    have : ¬ s.cur.wk = k := fun h => hk h.symm
    simp [State.updCw, this]
  · rw [hcw]; rfl
  · intro l hl
    rw [hcw, updLanes_lane _ _ _ _ (by omega)]

/-! ### Outstanding results (R49) -/
/-- The rows that an outstanding result's destination takes at issue (R135). -/
theorem mapRows_bits (rs : List Nat) (m : BitVec 88) (r : Nat) (hr : r < 88) :
    (rs.foldl (fun m r => m ||| (1#88 <<< r)) m).getLsbD r = (m.getLsbD r || rs.contains r) := by
  induction rs generalizing m with
  | nil => simp
  | cons q t ih =>
    rw [List.foldl_cons, ih]
    simp only [BitVec.getLsbD_or, BitVec.getLsbD_shiftLeft, BitVec.getLsbD_one, List.contains_cons]
    by_cases h : q = r
    · subst h; simp [hr]
    · have hrq : (r == q) = false := by simp; omega
      by_cases h2 : r < q
      · simp [h2, hrq]
      · have : r - q ≠ 0 := by omega
        simp [this, hrq]
theorem dropAll_eq (xs : List RegWrite) (w : Warp) : xs.foldl (fun w x => dropPending x.dest w) w =
    { w with outs := w.outs.map fun o => { o with writes := o.writes.filter fun x => xs.all fun y => x.dest != y.dest } } := by
  induction xs generalizing w with
  | nil => simp
  | cons y t ih =>
    rw [List.foldl_cons, ih]
    simp only [dropPending, List.map_map]
    congr 2
    funext o
    simp only [Function.comp, List.filter_filter, List.all_cons]
    congr 2
    funext x
    exact Bool.and_comm _ _
/-- The change that an outstanding result's issue makes to its warp. -/
def dueIssue (o : Out) (rs : List Nat) (m : Word) (pc : DWord) (w : Warp) : Warp :=
  endIssue m pc { w with
    outs := (w.outs.map fun p => { p with writes := p.writes.filter fun x => o.writes.all fun y => x.dest != y.dest }) ++ [o]
    nextId := o.id + 1, mapped := rs.foldl (fun m r => m ||| (1#88 <<< r)) w.mapped }
theorem due_eq (o : Out) (rs : List Nat) (s : State) (h : s.cur.faulted = 0) :
    done (mapRows rs (addOut o s)) = s.updCw (dueIssue o rs s.cur.mask s.cur.pc) := by
  have hf : (mapRows rs (addOut o s)).cur.faulted = 0 := h
  rw [done_eq _ hf, mapRows, addOut, updCw_updCw, updCw_updCw]
  simp only [dropAll_eq]
  rfl
theorem addOut_due_eq (o : Out) (s : State) (h : s.cur.faulted = 0) :
    done (addOut o s) = s.updCw (dueIssue o [] s.cur.mask s.cur.pc) := by
  have hf : (addOut o s).cur.faulted = 0 := h
  rw [done_eq _ hf, addOut, updCw_updCw]
  simp only [dropAll_eq]
  rfl
/-- AN OUTSTANDING RESULT'S ISSUE. -/
theorem due_spec (v : Dest → Option Word) (o : Out) (rs : List Nat) (s : State) (h : s.inBundle = true)
    (hi : o.id = (freshId s)) (hm : o.mask = s.cur.mask) (hu : o.unknown = false)
    (hv : ∀ x, (o.writes.find? fun y => y.dest == x).map (·.val) = v x) :
    resultDue v rs o.flags s (s.updCw (dueIssue o rs s.cur.mask s.cur.pc)) := by
  obtain ⟨h1, h2, h3, h4⟩ := (inBundle_iff s).1 h
  have hcw := updCw_cw s (dueIssue o rs s.cur.mask s.cur.pc) h1
  have hall : ∀ x, (o.writes.all fun y => x != y.dest) = (v x).isNone := by
    intro x
    rw [← hv x]
    rw [Bool.eq_iff_iff, List.all_eq_true]
    simp only [Option.isNone_iff_eq_none, Option.map_eq_none_iff, List.find?_eq_none, bne_iff_ne, beq_iff_eq]
    exact ⟨fun hx y hy he => hx y hy he.symm, fun hx y hy he => hx y hy he.symm⟩
  refine ⟨onlyWarp_upd _ _ _, sameMemory_upd s _ s.cur, ?_, ?_, ?_, ?_, o, ?_, hi, hm, rfl, ?_⟩
  · rw [hcw, ← hi]; rfl
  · intro l hl
    rw [hcw, dueIssue, endIssue_lane _ _ _ _ (by show l < s.cw.lanes.length; omega)]
    rfl
  · intro x hd
    rw [hcw, dueIssue]
    exact (endIssue_reg _ _ _ x (by exact h2) hd).trans (regAt_congr _ _ _ rfl rfl rfl (fun _ _ => rfl) hd)
  · intro r hr
    rw [hcw]
    exact mapRows_bits rs s.cw.mapped r hr
  · rw [hcw]
    simp only [dueIssue, endIssue, Warp.updLanes, hall]
  · intro x
    simp only [pendingWrite, hu]
    exact hv x

/-- An outstanding result for a lane register, for z, and a group-set one for a w register. -/
theorem outResult_lane (per : Bool) (d : Reg) (pair : Bool) (vals : List (Nat × DWord)) (o : Out) (s : State)
    (hd : d.toNat < 88) (hr : rowsFit s (laneRows d pair) = true) : outResult .plain per d pair vals o s =
      done (mapRows (laneRows d pair) (addOut { o with writes := laneWrites d pair vals, vals := vals } s)) := by
  have e : laneRows d pair = if pair then [d.toNat, d.toNat + 1] else [d.toNat] := by simp [laneRows, hd]
  simp only [outResult, if_pos hd, ← e, hr, if_true, Ending.plain, List.append_nil]
  rfl
theorem outResult_z (e : Ending) (per pair : Bool) (vals : List (Nat × DWord)) (o : Out) (s : State) (he : e.preds = []) :
    outResult e per 124 pair vals o s = e.apply (addOut { o with writes := [], vals := vals } s) := by
  obtain ⟨c, n, ps⟩ := e
  cases he
  simp only [outResult, if_neg (by decide : ¬ (124 : Reg).toNat < 88), if_pos (by decide : (124 : Reg).toNat = 124)]
theorem outResult_warp (e : Ending) (d : Reg) (pair : Bool) (vals : List (Nat × DWord)) (o : Out) (s : State) (he : e.preds = [])
    (hd : 92 ≤ d.toNat) (hd' : d.toNat < 108) : outResult e false d pair vals o s =
      e.apply (addOut { o with writes := warpWrites d pair ((vals.headD (0, 0)).2), vals := vals } s) := by
  obtain ⟨c, n, ps⟩ := e
  cases he
  have n1 : ¬ d.toNat < 88 := by omega
  have n2 : ¬ d.toNat = 124 := by omega
  simp only [outResult, if_neg n1, if_neg n2, hd, hd', Bool.not_false, decide_true, Bool.and_self, if_true, List.append_nil]
/-- Where a result of outstanding kind can go at once: a lane register with rows, or z. -/
theorem outResult_due (d : Reg) (pair per : Bool) (f : Nat → DWord) (fl : BitVec 5) (s : State) (h : s.inBundle = true)
    (hp : pair = true → d.toNat % 2 = 0) (hd : (d.toNat < 88 ∧ rowsFit s (laneRows d pair) = true) ∨ d = 124) :
    resultDue (resultDest d pair s.cur.mask f) (laneRows d pair) fl s
      (outResult .plain per d pair (s.perLane f) { Out.blank (freshId s) s.cur.mask d pair with flags := fl } s) := by
  obtain ⟨h1, h2, h3, h4⟩ := (inBundle_iff s).1 h
  rcases hd with ⟨hd, hr⟩ | hd
  · rw [outResult_lane _ _ _ _ _ _ hd hr, due_eq _ _ _ h3]
    refine due_spec _ _ _ s h rfl rfl rfl ?_
    intro x
    have hx : ∀ y ∈ laneWrites d pair (s.perLane f), resultDest d pair s.cur.mask f y.dest = some y.val := by
      intro y hy
      obtain ⟨x, hx, hy⟩ := (mem_laneWrites _ _ _ _).1 hy
      obtain ⟨hl, hm, hv⟩ := (mem_perLane s f x).1 hx
      rcases hy with rfl | ⟨hp', rfl⟩
      · simp [resultDest, resultDest.half, hd, hm, hv]
      · simp [resultDest, resultDest.half, hd, hm, hv, hp']
    show Option.map _ (List.find? _ (laneWrites d pair (s.perLane f))) = _
    cases hf : List.find? (fun y : RegWrite => y.dest == x) (laneWrites d pair (s.perLane f)) with
    | some y =>
      have hy := hx y (List.mem_of_find?_eq_some hf)
      have he : y.dest = x := by simpa using List.find?_some hf
      rw [← he, hy]; rfl
    | none =>
      rw [List.find?_eq_none] at hf
      cases x with
      | lane r l =>
        simp only [resultDest]
        split
        · rename_i hc
          have hl := mask_lt _ _ hc.2
          have hmem : (l, f l) ∈ s.perLane f := (mem_perLane s f _).2 ⟨hl, hc.2, rfl⟩
          simp only [resultDest.half]
          split
          · rename_i he
            exact absurd (by simp [he]) (hf _ ((mem_laneWrites _ _ _ _).2 ⟨_, hmem, .inl rfl⟩))
          · split
            · rename_i he
              exact absurd (by simp [he.2]) (hf _ ((mem_laneWrites _ _ _ _).2 ⟨_, hmem, .inr ⟨he.1, rfl⟩⟩))
            · rfl
        · rfl
      | ply r p =>
        have : ¬ (88 ≤ d.toNat ∧ d.toNat < 92) := by omega
        simp [resultDest, this]
      | warp r =>
        have : ¬ (92 ≤ d.toNat ∧ d.toNat < 108) := by omega
        simp [resultDest, this]
      | pred p l => simp [resultDest]
  · subst hd
    have e : laneRows 124 pair = [] := by simp [laneRows]
    rw [e]
    rw [outResult_z _ _ _ _ _ _ rfl, plain_apply, addOut_due_eq _ _ h3]
    refine due_spec _ _ _ s h rfl rfl rfl ?_
    intro x
    cases x <;> simp [resultDest]
/-- The same of a uniform result: plain for w registers. -/
theorem outUniform_due (d : Reg) (pair : Bool) (v : DWord) (s : State) (h : s.inBundle = true)
    (hp : pair = true → d.toNat % 2 = 0) (hd : 92 ≤ d.toNat ∧ d.toNat < 108 ∨ d = 124) :
    resultDue (resultDest d pair s.cur.mask fun _ => v) [] 0 s
      (outResult .plain false d pair [(lowLane s.cur.mask, v)] (Out.blank (freshId s) s.cur.mask d pair) s) := by
  obtain ⟨h1, h2, h3, h4⟩ := (inBundle_iff s).1 h
  rcases hd with ⟨hd, hd'⟩ | hd
  · rw [outResult_warp _ _ _ _ _ _ rfl hd hd', plain_apply, addOut_due_eq _ _ h3]
    refine due_spec _ _ _ s h rfl rfl rfl ?_
    intro x
    show Option.map _ (List.find? _ (warpWrites d pair v)) = _
    cases x with
    | lane r l =>
      have n3 : ¬ (d.toNat < 88 ∧ s.cur.mask.getLsbD l = true) := by omega
      cases pair <;> simp only [resultDest, if_neg n3] <;> simp [warpWrites]
    | ply r p =>
      have n3 : ¬ (88 ≤ d.toNat ∧ d.toNat < 92) := by omega
      cases pair <;> simp [warpWrites, resultDest, n3]
    | pred p l => cases pair <;> simp [warpWrites, resultDest]
    | warp r =>
      simp only [resultDest, if_pos (show 92 ≤ d.toNat ∧ d.toNat < 108 from ⟨hd, hd'⟩), resultDest.half]
      by_cases h5 : r + 92 = d.toNat
      · have h6 : d.toNat - 92 = r := by omega
        cases pair <;> simp [warpWrites, h5, h6]
      · have h6 : ¬ d.toNat - 92 = r := by omega
        cases pair with
        | false => simp [warpWrites, h5, h6]
        | true =>
          by_cases h7 : r + 92 = d.toNat + 1
          · have h8 : d.toNat - 91 = r := by omega
            simp [warpWrites, h6, h7, h8]
          · have h8 : ¬ d.toNat - 91 = r := by omega
            simp [warpWrites, h5, h6, h7, h8]
  · subst hd
    rw [outResult_z _ _ _ _ _ _ rfl, plain_apply, addOut_due_eq _ _ h3]
    refine due_spec _ _ _ s h rfl rfl rfl ?_
    intro x
    cases x <;> simp [resultDest]

end Sys2Proof.Machine
end

