-- ==== Sys2Proof/Laws/Banks.lean ====
section
/-! SUPPORT. Writes into back banks: a block register's at once, a cluster or grid register's on its way. -/
namespace Sys2Proof.Machine

theorem inBlock_iff (s : State) : s.inBlock = true ↔
    s.inBundle = true ∧ (mFind s.blocks s.cw.bk).isSome = true ∧ s.cb.bk = s.cw.bk := by
  simp only [State.inBlock, Bool.and_eq_true, beq_iff_eq, and_assoc]
theorem bankAgree_takes (r : ScopedReg) (v : Word) (h : bankTakes r v) : bankAgree r v = .ok (bankAgreed r v) := by
  obtain ⟨front, back, mode, acc, pi, ni, nan, anz⟩ := r
  rcases h with h | ⟨h1, h2⟩
  · cases h; rfl
  · cases h1; cases h2; simp [bankAgree, bankAgreed]
/-- The block of the bundle after a change of it. -/
theorem updBlock_cb (s : State) (f : Block → Block) (h : s.inBlock = true) : (s.updBlock s.cb.bk f).block s.cw.bk = f s.cb := by
  obtain ⟨h1, h2, h3⟩ := (inBlock_iff s).1 h
  rw [h3, State.updBlock_block _ _ _ h2]; rfl
theorem scopedOf_block (s : State) (b : Block) (c : Nat) (hc : c < 116) :
    scopedOf s b c = mGet b.bregs (ScopedReg.init 0) (c - 108) := by
  simp [scopedOf, hc]
/-- A register instruction's end when the state of a block has changed too. -/
theorem done_noWrite (fl : BitVec 5) (s : State) (h : s.inBundle = true) :
    let t := done (raiseFlags fl s)
    onlyWarp s t ∧ sameMemory s t ∧ warpWentOn fl s t ∧ lanesWentOn s t ∧ registersBecome (fun _ => none) s t ∧ rowsBecome [] s t := by
  have hw := write_done _ _ [] fl s h covers_nil
  rw [writeAll_nil] at hw
  exact hw
theorem bankWriteAgree_ok (s : State) (d : Nat) (pair : Bool) (v : DWord) (hd' : d < 116)
    (hp : pair = true → d + 1 < 116) (h : bankTakes (scopedOf s s.cb d) (v.setWidth 32))
    (h' : pair = true → bankTakes (scopedOf s s.cb (d + 1)) ((v >>> 32).setWidth 32)) :
    ∃ t, bankWriteAgree s s.cb d pair v = .ok t ∧ t = s.updBlock s.cb.bk fun b =>
      let r0 := bankAgreed (scopedOf s s.cb d) (v.setWidth 32)
      let r1 := bankAgreed (scopedOf s s.cb (d + 1)) ((v >>> 32).setWidth 32)
      let b1 := { b with bregs := mSet b.bregs (d - 108) r0 }
      if pair then { b1 with bregs := mSet b1.bregs (d + 1 - 108) r1 } else b1 := by
  simp only [bankWriteAgree, bankAgree_takes _ _ h]
  cases pair with
  | false => exact ⟨_, rfl, by simp [setScoped, hd']⟩
  | true =>
    have hp := hp rfl
    simp only [if_true, bankAgree_takes _ _ (h' rfl)]
    refine ⟨_, rfl, ?_⟩
    simp only [setScoped, hd', if_true, hp, State.updBlock, State.setBlocks_blocks, mMod_mMod]
    rfl
theorem doneB_noWrite (fl : BitVec 5) (s : State) (h : s.inBundle = true) :
    let t := doneB (raiseFlags fl s)
    onlyWarp s t ∧ sameMemory s t ∧ warpWentOn fl s t ∧ lanesCommitted s t ∧ registersCommit (fun _ => none) s t ∧
      rowsBecome [] s t := by
  have hw := write_doneB _ _ [] fl s h covers_nil
  rw [writeAll_nil] at hw
  exact hw
/-- A change of the block's registers, with an end of issue that changes the warp only. -/
theorem bank_end (f : Nat → ScopedReg → ScopedReg) (g : Block → Block) (s t : State) (h : s.inBlock = true)
    (hg : ∀ b, g b = { b with bregs := (g b).bregs })
    (hf : ∀ c, 108 ≤ c → c < 116 → mGet (g s.cb).bregs (ScopedReg.init 0) (c - 108) = f c (scopedOf s s.cb c))
    (ht : onlyWarp (s.updBlock s.cb.bk g) t) (hm : sameMemory (s.updBlock s.cb.bk g) t) : bankBecomes f s t := by
  obtain ⟨h0, h2, h3⟩ := (inBlock_iff s).1 h
  have hbk : t.blocks = (s.updBlock s.cb.bk g).blocks := by rw [ht.1]; rfl
  have hub : (s.updBlock s.cb.bk g).block s.cw.bk = g s.cb := updBlock_cb s g h
  have hbl : t.block s.cw.bk = g s.cb := by rw [← hub]; simp only [State.block, hbk]
  refine ⟨?_, ht.2, ?_, ?_, ⟨?_, ?_⟩, ?_⟩
  · have := ht.1
    rw [this]; rfl
  · intro k hk
    rw [hbk]
    have : ¬ s.cb.bk = k := by rw [h3]; exact fun hh => hk hh.symm
    simp [this]
  · rw [hbl]; exact hg s.cb
  · intro k pa; rw [hm.1 k pa]; rfl
  · intro bk q o
    rw [hm.2 bk q o]
    by_cases hk : bk = s.cw.bk
    · subst hk
      rw [hub, hg s.cb]
      cases q <;> rfl
    · rw [h3, State.updBlock_block_ne _ _ _ _ (fun hh => hk hh.symm)]
  · intro c hc hc'
    rw [scopedOf_block _ _ _ hc', hbl, hf c hc hc']
/-- AN AGREEMENT WRITE INTO A BLOCK REGISTER'S BACK BANK. -/
theorem writeNowResult_bank (d : Reg) (pair : Bool) (vals : List (Nat × DWord)) (fl : BitVec 5) (s : State)
    (h : s.inBlock = true) (hw : s.cw.isWave = false) (hd : 108 ≤ d.toNat) (hd' : d.toNat < 116)
    (hp : pair = true → d.toNat % 2 = 0) (ha : allAgree vals = true)
    (hb : bankTakes (scopedOf s s.cb d.toNat) ((vals.headD (0, 0)).2.setWidth 32))
    (hb' : pair = true → bankTakes (scopedOf s s.cb (d.toNat + 1)) (((vals.headD (0, 0)).2 >>> 32).setWidth 32)) :
    bankNow d pair (vals.headD (0, 0)).2 fl s (writeNowResult .plain d pair vals fl s) := by
  obtain ⟨h0, h2, h3⟩ := (inBlock_iff s).1 h
  generalize hv : (vals.headD (0, 0)).2 = v at *
  have hp1 : pair = true → d.toNat + 1 < 116 := by intro e; have := hp e; omega
  obtain ⟨u, hu, ht⟩ := bankWriteAgree_ok s d.toNat pair v hd' hp1 hb hb'
  have n1 : ¬ d.toNat < 88 := by omega
  have n2 : ¬ d.toNat < 108 := by omega
  have n3 : d.toNat < 124 := by omega
  have e : writeNowResult .plain d pair vals fl s = done (raiseFlags fl u) := by
    simp only [writeNowResult, if_neg n1, if_neg n2, if_pos n3, ha, if_true, hw, Bool.false_and, if_pos hd', hv, hu]
    simp [plain_apply]
  have hu0 : u.inBundle = true := by rw [ht]; exact h0
  have hcur : u.cur = s.cur := by rw [ht]; rfl
  have hcw : u.cw = s.cw := by rw [ht]; rfl
  obtain ⟨g1, g2, g3, g4, g5, g6⟩ := done_noWrite fl u hu0
  rw [e]
  generalize done (raiseFlags fl u) = t at *
  refine ⟨bank_end _ _ s t h ?_ ?_ (ht ▸ g1) (ht ▸ g2), ?_, ?_, ⟨?_, ?_⟩, ?_⟩
  · intro b; cases pair <;> rfl
  · intro c hc hc'
    rw [scopedOf_block s s.cb c hc']
    cases pair with
    | false =>
      by_cases h5 : c = d.toNat
      · simp [h5, scopedOf_block _ _ _ hd']
      · have : ¬ d.toNat - 108 = c - 108 := by omega
        simp [h5, this]
    | true =>
      have hp1 := hp1 rfl
      by_cases h5 : c = d.toNat
      · subst h5
        have : ¬ d.toNat - 107 = d.toNat - 108 := by omega
        simp [this, scopedOf_block _ _ _ hd']
      · have h6 : ¬ d.toNat - 108 = c - 108 := by omega
        by_cases h7 : c = d.toNat + 1
        · simp [h7, scopedOf_block _ _ _ hp1]
        · have h8 : ¬ d.toNat - 107 = c - 108 := by omega
          simp [h5, h6, h7, h8]
  · rw [warpWentOn, ← hcw]; exact g3
  · intro l hl; have := g4 l hl; rw [hcw, hcur] at this; exact this
  · intro x hx; have := g5.1 x hx; rw [hcw] at this; exact this
  · have := g5.2; rw [hcw] at this; exact this
  · intro r hr; have := g6 r hr; rw [hcw] at this; exact this
/-- A REDUCTION INTO A BLOCK REGISTER'S BACK BANK. -/
theorem redBank_reduced (k : RedKind) (d : Reg) (vals : List (Nat × DWord)) (r' : ScopedReg) (s : State) (h : s.inBlock = true)
    (hw : s.cw.isWave = false) (hd : 108 ≤ d.toNat) (hd' : d.toNat < 116)
    (hb : bankReduce (scopedOf s s.cb d.toNat) k (vals.map fun x => x.2.setWidth 32) = .ok r') :
    bankReduced d r' s (redBank k d vals s) := by
  obtain ⟨h0, h2, h3⟩ := (inBlock_iff s).1 h
  generalize hu : (s.updBlock s.cb.bk fun x => { x with bregs := mSet x.bregs (d.toNat - 108) r' }) = u
  have e : redBank k d vals s = doneB (raiseFlags 0 u) := by
    rw [raiseFlags_zero, ← hu]
    simp only [redBank, hw, Bool.false_and, if_pos hd', hb, setScoped]
    rfl
  have hu0 : u.inBundle = true := by rw [← hu]; exact h0
  have hcur : u.cur = s.cur := by rw [← hu]; rfl
  have hcw : u.cw = s.cw := by rw [← hu]; rfl
  obtain ⟨g1, g2, g3, g4, g5, g6⟩ := doneB_noWrite 0 u hu0
  rw [e]
  generalize doneB (raiseFlags 0 u) = t at *
  refine ⟨bank_end _ _ s t h ?_ ?_ (hu ▸ g1) (hu ▸ g2), ?_, ?_, ⟨?_, ?_⟩, ?_⟩
  · intro b; rfl
  · intro c hc hc'
    rw [scopedOf_block s s.cb c hc']
    by_cases h5 : c = d.toNat
    · simp [h5]
    · have : ¬ d.toNat - 108 = c - 108 := by omega
      simp [h5, this]
  · rw [warpWentOn, ← hcw]; exact g3
  · intro l hl; have := g4 l hl; rw [hcw, hcur] at this; exact this
  · intro x hx; have := g5.1 x hx; rw [hcw] at this; exact this
  · have := g5.2; rw [hcw, hcur] at this; exact this
  · intro r hr; have := g6 r hr; rw [hcw] at this; exact this

/-- A WRITE TO A CLUSTER OR GRID REGISTER sets out (R123). -/
theorem sendBank_sent (e : Ending) (d : Reg) (pair : Bool) (red : Option RedKind) (vals : List (Nat × DWord)) (fl : BitVec 5)
    (s : State) (h : s.inBundle = true) : bankSent d pair red vals fl s (sendBank e d pair red vals fl s) := by
  obtain ⟨h1, h2, h3, h4⟩ := (inBundle_iff s).1 h
  refine ⟨_, rfl, rfl, rfl, rfl, rfl, rfl, rfl, rfl, ?_, rfl, ?_, ⟨fun _ _ => rfl, fun _ _ _ => rfl⟩⟩
  · have := updCw_cw s (fun w => { w with parks := w.parks ++ [⟨s.live, s.cur.pc, .bank s.mem.nextQ⟩] }) h1
    rw [live_eq s h3] at this
    rw [← live_eq s h3] at this ⊢
    exact this
  · intro k hk
    have : ¬ s.cur.wk = k := fun hh => hk hh.symm
    simp [sendBank, parkBundle, State.updCw, this]

end Sys2Proof.Machine
end

