-- ==== Sys2Proof/Laws/Alu.lean ====
section
/-! SUPPORT. The instructions that compute: each runs as its form says, or takes OPERAND or ILLEGAL. -/
namespace Sys2Proof.Machine

theorem firstBad_none (ps : List OpPos) : firstBad ps = none ↔ ps.all (·.ok) = true := by
  induction ps with
  | nil => simp [firstBad]
  | cons p t ih => simp only [firstBad]; cases h : p.ok <;> simp [h, ih]
theorem operandsOr_ok (ps : List OpPos) (s k : State) (h : ps.all (·.ok) = true) : operandsOr ps s k = k := by
  simp only [operandsOr, (firstBad_none ps).2 h]
theorem operandsOr_bad (ps : List OpPos) (s k : State) (p : OpPos) (h : firstBad ps = some p) :
    operandsOr ps s k = raiseOperand p.pos p.code s := by
  simp only [operandsOr, h]

/-- The instructions on lanes run as their forms say. -/
def laneForm (s : State) (i : Instr) : Option AluForm := (intForm s i).or ((floatForm s i).or (exchForm s i))
theorem exec_lane (s : State) (i : Instr) (x : AluForm) (h : laneForm s i = some x) :
    exec i s = .next (legalOr x.legal s (operandsOr x.ops s
      (writeResult x.srcs x.d x.pair (s.perLane x.val) x.flags s))) := by
  cases i <;> first
    | (obtain rfl := Option.some.inj h; rfl)
    | (simp [laneForm, intForm, floatForm, exchForm] at h)
theorem exec_uni (s : State) (i : Instr) (x : AluForm) (h : uniForm s i = some x) :
    exec i s = .next (legalOr x.legal s (operandsOr x.ops s (writeUniform x.srcs x.d x.pair (x.val 0) s))) := by
  cases i <;> simp [uniForm] at h <;> subst h <;> rfl
/-- A form's value on the uniform pipe is one for all lanes. -/
theorem uni_const (s : State) (i : Instr) (x : AluForm) (h : uniForm s i = some x) : x.val = fun _ => x.val 0 := by
  cases i <;> simp [uniForm] at h <;> subst h <;> rfl
theorem uni_flags (s : State) (i : Instr) (x : AluForm) (h : uniForm s i = some x) : x.flags = 0 := by
  cases i <;> simp [uniForm] at h <;> subst h <;> rfl
theorem lane_form (s : State) (i : Instr) (x : AluForm) (h : aluForm s i = some x) :
    laneForm s i = some x ∨ uniForm s i = some x := by
  simp only [aluForm, laneForm] at *
  cases h1 : intForm s i <;> cases h2 : floatForm s i <;> cases h3 : exchForm s i <;> simp_all
/-- Pairs have even codes. -/
theorem pair_even (s : State) (i : Instr) (x : AluForm) (h : aluForm s i = some x) (ho : x.ops.all (·.ok) = true)
    (hp : x.pair = true) : x.d.toNat % 2 = 0 := by
  rcases lane_form s i x h with h | h
  · cases i <;> simp [laneForm, intForm, floatForm, floatForm.three, floatForm.threeD, floatPart, exchForm] at h <;>
      subst h <;> simp_all [ops3, opsPair, ops2, evenCode]
  · cases i <;> simp [uniForm] at h <;> subst h <;> simp_all [evenCode]
/-- The destination of a uniform instruction. -/
theorem uni_dest (s : State) (i : Instr) (x : AluForm) (h : uniForm s i = some x) (ho : x.ops.all (·.ok) = true) :
    92 ≤ x.d.toNat ∧ x.d.toNat ≤ 124 := by
  cases i <;> simp [uniForm] at h <;> subst h <;> simp_all [uniCode]

end Sys2Proof.Machine
end

