-- ==== Sys2Proof/Laws/Branch.lean ====
section
/-! SUPPORT. What branches do to the lanes of a bundle, said once. -/
namespace Sys2Proof.Machine

/-- Writes to lane registers leave the lanes as they are. -/
theorem writeAll_lanes (xs : List RegWrite) (w : Warp) (h : ∀ y ∈ xs, ∃ r l, y.dest = .lane r l) :
    (writeAll xs w).lanes = w.lanes := by
  induction xs generalizing w with
  | nil => rfl
  | cons y t ih =>
    rw [writeAll_cons, ih _ fun z hz => h z (List.mem_cons_of_mem _ hz)]
    obtain ⟨r, l, e⟩ := h y List.mem_cons_self
    obtain ⟨d, v⟩ := y
    cases e
    rfl
/-- A change of the lanes that keeps their predicates changes no register. -/
theorem updLanes_reg (w : Warp) (m : Word) (g : Nat → Lane → Lane) (x : Dest) (hl : w.lanes.length = 32)
    (hg : ∀ l y, (g l y).preds = y.preds) (hd : destExists x = true) : regAt (w.updLanes m g) x = regAt w x := by
  refine regAt_congr _ _ _ rfl rfl rfl (fun l h => ?_) hd
  rw [updLanes_lane _ _ _ _ (by omega)]
  split
  · exact hg _ _
  · rfl
/-- A BRANCH'S END: the lanes change, then registers are written, and the issue counts. -/
theorem lanes_end (g : Nat → Lane → Lane) (v : Dest → Option Word) (rows : List Nat) (xs : List RegWrite) (s : State)
    (h : s.inBundle = true) (hg : ∀ l y, (g l y).preds = y.preds) (hx : ∀ y ∈ xs, ∃ r l, y.dest = .lane r l)
    (hcov : covers xs v rows) :
    lanesTake g v rows s (doneBranch (s.updCw fun w => writeAll xs (w.updLanes s.cur.mask g))) := by
  obtain ⟨h1, h2, h3, h4⟩ := (inBundle_iff s).1 h
  obtain ⟨c1, c2, c3, c4⟩ := hcov
  have e : doneBranch (s.updCw fun w => writeAll xs (w.updLanes s.cur.mask g)) =
      s.updCw fun w => { writeAll xs (w.updLanes s.cur.mask g) with
        retired := (writeAll xs (w.updLanes s.cur.mask g)).retired + 1 } := by
    unfold doneBranch retireIssue
    rw [if_pos (show (s.updCw _).cur.faulted = 0 from h3), updCw_updCw]
  rw [e]
  have hcw := updCw_cw s (fun w => { writeAll xs (w.updLanes s.cur.mask g) with
        retired := (writeAll xs (w.updLanes s.cur.mask g)).retired + 1 }) h1
  have hr := writeAll_rest xs (s.cw.updLanes s.cur.mask g)
  have hlen : (s.cw.updLanes s.cur.mask g).lanes.length = 32 := by rw [updLanes_length, h2]
  have hany : ∀ x, xs.any (fun y => y.dest == x) = (v x).isSome := by
    intro x
    rw [Bool.eq_iff_iff, List.any_eq_true]
    constructor
    · rintro ⟨y, hy, he⟩
      rw [← eq_of_beq he, c2 y hy]; rfl
    · intro hs
      obtain ⟨y, hy, he⟩ := c3 x hs
      exact ⟨y, hy, by simp [he]⟩
  refine ⟨onlyWarp_upd s _ _, sameMemory_upd s _ s.cur, ?_, ⟨?_, ?_⟩, ?_, ?_⟩
  · rw [warpWentOn, hcw]
    have hf0 : s.cw.fpflags ||| (0 : BitVec 5) = s.cw.fpflags := by simp
    rw [hf0]
    have e1 : (writeAll xs (s.cw.updLanes s.cur.mask g)).retired = s.cw.retired := by rw [hr]; rfl
    rw [e1]
    generalize hq : writeAll xs (s.cw.updLanes s.cur.mask g) = q at *
    rw [hr]; rfl
  · intro x hd
    rw [hcw]
    have e2 : regAt { writeAll xs (s.cw.updLanes s.cur.mask g) with
        retired := (writeAll xs (s.cw.updLanes s.cur.mask g)).retired + 1 } x =
        regAt (writeAll xs (s.cw.updLanes s.cur.mask g)) x := by cases x <;> rfl
    rw [e2, writeAll_reg v xs _ x c1 hd hlen (fun y hy he => by rw [← he]; exact c2 y hy), hany,
      updLanes_reg _ _ _ _ h2 hg hd]
    cases v x <;> simp
  · rw [hcw]
    show (writeAll xs (s.cw.updLanes s.cur.mask g)).outs = _
    rw [writeAll_outs]
    show List.map _ s.cw.outs = _
    congr 1
    funext o
    congr 2
    funext x
    rw [Bool.eq_iff_iff, List.all_eq_true]
    have := hany x.dest
    constructor
    · intro ha
      by_contra hn
      have hs : (v x.dest).isSome = true := by
        rw [Option.isSome_iff_ne_none]
        intro hc
        rw [hc] at hn
        exact hn rfl
      obtain ⟨y, hy, he⟩ := c3 _ hs
      have := ha y hy
      simp [he] at this
    · intro hn y hy
      have := c2 y hy
      rw [bne_iff_ne]
      intro he
      rw [he, this] at hn
      simp at hn
  · intro r hr'
    rw [hcw]
    show (writeAll xs (s.cw.updLanes s.cur.mask g)).mapped.getLsbD r = _
    rw [writeAll_mapped xs _ r hr', c4 r hr']
    rfl
  · intro l hl
    rw [hcw]
    have e3 : ({ writeAll xs (s.cw.updLanes s.cur.mask g) with
        retired := (writeAll xs (s.cw.updLanes s.cur.mask g)).retired + 1 } : Warp).lane l =
        (s.cw.updLanes s.cur.mask g).lane l := lane_congr (writeAll_lanes xs _ hx) l
    rw [e3, updLanes_lane _ _ _ _ (by rw [h2]; exact hl)]
theorem laneBit_bits (l k : Nat) (hk : k < 32) : (laneBit l).getLsbD k = decide (k = l) := by
  by_cases hl : l < 32
  · exact laneBit_getLsbD l k hl
  · have : laneBit l = 0 := by
      simp only [laneBit]
      apply BitVec.eq_of_getLsbD_eq
      intro i hi
      rw [BitVec.getLsbD_shiftLeft]
      have : i < l := by omega
      simp [this]
    have hn : ¬ k = l := by omega
    rw [this, decide_eq_false hn]; exact BitVec.getLsbD_zero
theorem lanesMask_bits (ls : List Nat) (k : Nat) (hk : k < 32) : (lanesMask ls).getLsbD k = ls.contains k := by
  induction ls with
  | nil => simp [lanesMask]
  | cons a t ih =>
    rw [lanesMask, BitVec.getLsbD_or, ih, laneBit_bits _ _ hk, List.contains_cons]
    by_cases h : k = a <;> simp [h]
/-- A mask is the mask of its lanes. -/
theorem lanesMask_maskLanes (m : Word) : lanesMask (maskLanes m) = m := by
  apply BitVec.eq_of_getLsbD_eq
  intro i hi
  rw [lanesMask_bits _ _ hi]
  rw [Bool.eq_iff_iff]; simp [hi]
/-- The link register's writes. -/
theorem link_covers (s : State) (ls : List Nat) (taken : Nat → Bool)
    (h : ∀ l, l ∈ ls ↔ l < 32 ∧ s.cur.mask.getLsbD l = true ∧ taken l = true) :
    covers (ls.map fun l => ({ dest := .lane 87 l, val := (s.cur.pc + 4).setWidth 32 } : RegWrite))
      (linkDest s taken) (if ls = [] then [] else [87]) := by
  refine ⟨?_, ?_, ?_, ?_⟩
  · intro y hy
    obtain ⟨l, hl, rfl⟩ := List.mem_map.1 hy
    simp [destExists, ((h l).1 hl).1]
  · intro y hy
    obtain ⟨l, hl, rfl⟩ := List.mem_map.1 hy
    simp [linkDest, ((h l).1 hl).2, normVal]
  · intro x hx
    cases x with
    | lane r l =>
      simp only [linkDest] at hx
      split at hx
      · rename_i hc
        exact ⟨_, List.mem_map.2 ⟨l, (h l).2 ⟨mask_lt _ _ hc.2.1, hc.2⟩, rfl⟩, by simp [hc.1]⟩
      · simp at hx
    | _ => simp [linkDest] at hx
  · intro r hr
    cases ls with
    | nil => rfl
    | cons a t =>
      simp only [reduceCtorEq, if_false]
      by_cases hr : r = 87
      · subst hr; simp [RegWrite.row]
      · have h' : (87 == r) = false := by rw [beq_eq_false_iff_ne]; exact fun e => hr e.symm
        simp [RegWrite.row, hr, h']

/-! ### Outstanding results by their writes -/
/-- The value that an outstanding result brings a register, from the cover of its writes. -/
theorem covers_find (xs : List RegWrite) (v : Dest → Option Word) (rows : List Nat) (h : covers xs v rows)
    (hn : ∀ y ∈ xs, normVal y.dest y.val = y.val) (x : Dest) :
    (xs.find? fun y => y.dest == x).map (·.val) = v x := by
  cases hf : xs.find? fun y => y.dest == x with
  | some y =>
    have hm := List.mem_of_find?_eq_some hf
    have he : y.dest = x := by simpa using List.find?_some hf
    rw [← he, h.2.1 y hm, hn y hm]; rfl
  | none =>
    rw [List.find?_eq_none] at hf
    cases hv : v x with
    | none => rfl
    | some a =>
      obtain ⟨y, hy, he⟩ := h.2.2.1 x (by simp [hv])
      exact absurd (by simp [he]) (hf y hy)

/-- The instructions on predicates run as their forms say. -/
theorem exec_pred (s : State) (i : Instr) (x : PredForm) (h : predForm s i = some x) :
    exec i s = .next (legalOr x.legal s (operandsOr x.ops s (writePred x.srcs x.p (s.perLane x.val) x.flags s))) := by
  cases i <;> first
    | (obtain rfl := Option.some.inj h; rfl)
    | (simp [predForm] at h)
/-- The long-latency instructions run as their forms say. -/
theorem exec_long (s : State) (i : Instr) (x : AluForm) (h : longForm s i = some x) :
    exec i s = .next (operandsOr x.ops s (outResult .plain true x.d x.pair (s.perLane x.val)
      { Out.blank (freshId s) s.cur.mask x.d x.pair with flags := x.flags } s)) := by
  cases i <;> first
    | (obtain rfl := Option.some.inj h; rfl)
    | (simp [longForm] at h)
theorem pred_due (p : PredNo) (f : Nat → Bool) (fl : BitVec 5) (s : State) (h : s.inBundle = true) :
    resultDue (predDest p s.cur.mask f) [] fl s
      (done (addOut { Out.blank (freshId s) s.cur.mask 124 false with writes := predWrites p (s.perLane f), flags := fl } s)) := by
  obtain ⟨h1, h2, h3, h4⟩ := (inBundle_iff s).1 h
  rw [addOut_due_eq _ _ h3]
  refine due_spec _ _ _ s h rfl rfl rfl ?_
  intro x
  refine covers_find _ _ _ (predWrites_covers p f s) ?_ x
  intro y hy
  obtain ⟨hp, z, hz, rfl⟩ := (mem_predWrites _ _ _).1 hy
  cases z.2 <;> simp [normVal]
/-- The writes of a result to ply or warp registers are to registers that its destination names. -/
theorem dueWrites_dest (d : Reg) (pair : Bool) (vals : List (Nat × DWord)) (m : Word) (hd : 88 ≤ d.toNat)
    (hp : pair = true → d.toNat % 2 = 0) (hm : ∀ x ∈ vals, m.getLsbD x.1 = true) :
    ∀ y ∈ (dueWrites d pair vals).getD [], (resultDest d pair m (fun _ => 0) y.dest).isSome = true := by
  intro y hy
  have n1 : ¬ d.toNat < 88 := by omega
  simp only [dueWrites, if_neg n1] at hy
  by_cases hw : d.toNat < 92
  · simp only [if_pos (show d.toNat < 108 by omega), agreeWrites, if_pos hw] at hy
    split at hy
    · simp only [Option.getD_some, List.mem_flatMap, mem_rangeFrom] at hy
      obtain ⟨p, hp4, hy⟩ := hy
      cases hv : plyVals p vals with
      | nil => rw [hv] at hy; cases hy
      | cons x t =>
        rw [hv] at hy
        have hx : x ∈ plyVals p vals := by rw [hv]; exact List.mem_cons_self
        simp only [plyVals, List.mem_filter, beq_iff_eq] at hx
        have hl := hm x hx.1
        have hf : ((maskLanes m).find? fun l => l / 8 == p).isSome = true := by
          rw [List.find?_isSome]
          exact ⟨x.1, (mem_maskLanes _ _).2 ⟨mask_lt _ _ hl, hl⟩, by simp [hx.2]⟩
        obtain ⟨l, hl⟩ := Option.isSome_iff_exists.1 hf
        rcases (mem_plyWrites _ _ _ _ _).1 hy with rfl | ⟨rfl, rfl⟩
        · have : d.toNat - 88 + 88 = d.toNat := by omega
          simp [resultDest, resultDest.half, hd, hw, hl, this]
        · have := hp rfl
          have h1 : d.toNat - 87 + 88 = d.toNat + 1 := by omega
          simp [resultDest, resultDest.half, hd, hw, hl, h1]
    · simp at hy
  · by_cases hw' : d.toNat < 108
    · simp only [if_pos hw', agreeWrites, if_neg hw] at hy
      have h92 : 92 ≤ d.toNat := by omega
      split at hy
      · rw [Option.getD_some] at hy
        rcases (mem_warpWrites _ _ _ _).1 hy with rfl | ⟨rfl, rfl⟩
        · have : d.toNat - 92 + 92 = d.toNat := by omega
          simp [resultDest, resultDest.half, h92, hw', this]
        · have h1 : d.toNat - 91 + 92 = d.toNat + 1 := by omega
          simp [resultDest, resultDest.half, h92, hw', h1]
      · simp at hy
    · simp [hw'] at hy
/-- A comparison that is due. -/
theorem compare_due (o : Out) (s : State) (h : s.inBundle = true)
    (hw : o.writes = (dueWrites o.dest o.pair o.vals).getD []) (hv : ∀ x ∈ o.vals, s.cur.mask.getLsbD x.1 = true)
    (hd : 88 ≤ o.dest.toNat) (hp : o.pair = true → o.dest.toNat % 2 = 0) (hu : o.unknown = false)
    (hi : o.id = (freshId s)) (hm : o.mask = s.cur.mask) (ha : o.agree = true) (hf : o.fin = Ending.plain) :
    compareDue o.dest o.pair o.vals o.flags s (parkBundle (.compare o.id) (addOut o s)) := by
  obtain ⟨h1, h2, h3, h4⟩ := (inBundle_iff s).1 h
  have e : parkBundle (.compare o.id) (addOut o s) = s.updCw fun w => { w with
      outs := (w.outs.map fun p => { p with writes := p.writes.filter fun x => o.writes.all fun y => x.dest != y.dest }) ++ [o],
      nextId := o.id + 1, parks := w.parks ++ [⟨s.live, s.cur.pc, .compare o.id⟩] } := by
    simp only [parkBundle, addOut, updCw_updCw, dropAll_eq]
    rfl
  rw [e]
  refine ⟨o, fun x => o.writes.any fun y => y.dest == x, hi, hm, rfl, rfl, rfl, ha, rfl, hf, hw, hu, ?_, ?_, rfl, ?_, ?_⟩
  · intro y hy
    rw [List.any_eq_true]
    exact ⟨y, hy, by simp⟩
  · intro x hx
    rw [List.any_eq_true] at hx
    obtain ⟨y, hy, he⟩ := hx
    rw [hw] at hy
    have := dueWrites_dest _ _ _ s.cur.mask hd hp hv y hy
    rw [beq_iff_eq] at he
    rw [← he]; exact this
  · intro k hk
    have : ¬ s.cur.wk = k := fun h => hk h.symm
    simp [State.updCw, this]
  · have e2 : ∀ x : Dest, (o.writes.all fun y => x != y.dest) = !(o.writes.any fun y => y.dest == x) := by
      intro x
      rw [List.not_any_eq_all_not]
      congr 1
      funext y
      rw [bne, Bool.beq_comm]
    rw [updCw_cw s _ h1, live_eq s h3, hi]
    simp only [e2]

end Sys2Proof.Machine
end

