-- ==== Sys2Proof/Laws/Lanes.lean ====
section
/-! SUPPORT. Lanes that wait, leave and go on: JOIN's release, EXIT, retirement, and quota, each said once. -/
namespace Sys2Proof.Machine

/-- A bundle stays one when its warp changes but keeps its lanes' number. -/
theorem inBundle_updCw (s : State) (f : Warp → Warp) (h : s.inBundle = true) (hf : (f s.cw).lanes.length = s.cw.lanes.length) :
    (s.updCw f).inBundle = true := by
  obtain ⟨h1, h2, h3, h4⟩ := (inBundle_iff s).1 h
  rw [inBundle_iff]
  refine ⟨?_, ?_, h3, h4⟩
  · show (mFind (s.updCw f).warps s.cur.wk).isSome = true
    simp [State.updCw, h1]
  · rw [updCw_cw s f h1, hf, h2]
theorem inBundle_congr (s t : State) (h : s.inBundle = true) (hw : t.warps = s.warps) (hc : t.cur = s.cur) : t.inBundle = true := by
  obtain ⟨h1, h2, h3, h4⟩ := (inBundle_iff s).1 h
  have e : t.cw = s.cw := by simp only [State.cw, State.warp, hw, hc]
  rw [inBundle_iff, e, hw, hc]
  exact ⟨h1, h2, h3, h4⟩
/-- A plain change of the warp, then the end of the issue. -/
theorem done_upd (s : State) (f : Warp → Warp) (h : s.inBundle = true) (hf : (f s.cw).lanes.length = s.cw.lanes.length) :
    wentOn (s.updCw f) (done (s.updCw f)) := done_wentOn _ (inBundle_updCw s f h hf)

theorem mMod_congr {α : Type} (m : Map α) (k : Nat) (f g : α → α) (h : ∀ w, mFind m k = some w → f w = g w) :
    mMod m k f = mMod m k g := by
  induction m with
  | nil => rfl
  | cons a t ih =>
    obtain ⟨k', v⟩ := a
    simp only [mMod]
    by_cases hk : k' = k
    · simp [hk, h v (by simp [mFind, hk])]
    · simp only [if_neg hk]
      rw [ih fun w hw => h w (by simp [mFind, hk, hw])]
/-- Changes that agree on the bundle's warp are one. -/
theorem updCw_congr (s : State) (f g : Warp → Warp) (h : f s.cw = g s.cw) : s.updCw f = s.updCw g := by
  have := mMod_congr s.warps s.cur.wk f g (by
    intro w hw
    have e : s.cw = w := by simp [State.cw, State.warp, mGet, hw]
    rw [← e]; exact h)
  simp only [State.updCw, State.updWarp, this]

/-! ### JOIN (R194) -/
theorem lane_get (w : Warp) (hl : w.lanes.length = 32) (l : Nat) (h : l < 32) : w.lanes[l]? = some (w.lane l) := by
  have h' : l < w.lanes.length := by omega
  rw [List.getElem?_eq_getElem h']
  simp [Warp.lane, List.getD_eq_getElem?_getD, List.getElem?_eq_getElem h']
theorem mem_lanes (w : Warp) (hl : w.lanes.length = 32) (x : Lane) : x ∈ w.lanes ↔ ∃ l < 32, w.lane l = x := by
  constructor
  · intro h
    obtain ⟨l, hl', rfl⟩ := List.mem_iff_getElem.1 h
    refine ⟨l, by omega, ?_⟩
    simp [Warp.lane, List.getD_eq_getElem?_getD, List.getElem?_eq_getElem hl']
  · rintro ⟨l, h, rfl⟩
    exact List.mem_of_getElem? (lane_get w hl l h)
theorem mem_idxLanes (w : Warp) (hl : w.lanes.length = 32) (x : Nat × Lane) :
    x ∈ mapIdxFrom (fun l y => (l, y)) 0 w.lanes ↔ x.1 < 32 ∧ x.2 = w.lane x.1 := by
  rw [List.mem_iff_getElem?]
  simp only [mapIdxFrom_get, Nat.zero_add]
  constructor
  · rintro ⟨l, h⟩
    by_cases hl' : l < 32
    · rw [lane_get w hl l hl'] at h
      obtain ⟨_, _⟩ := x
      simp at h
      obtain ⟨rfl, rfl⟩ := h
      exact ⟨hl', rfl⟩
    · rw [List.getElem?_eq_none (by omega)] at h
      simp at h
  · rintro ⟨h1, h2⟩
    refine ⟨x.1, ?_⟩
    rw [lane_get w hl _ h1]
    obtain ⟨_, _⟩ := x
    simp_all
theorem joinReady_iff (w : Warp) (hl : w.lanes.length = 32) (p : DWord) : joinReady w p = true ↔ joinMet w.lane p := by
  simp only [joinReady, List.all_eq_true, mem_lanes w hl, mem_idxLanes w hl, Bool.or_eq_true, Bool.and_eq_true, beq_iff_eq,
    Bool.not_eq_true', joinMet]
  constructor
  · intro h k hk hs hp j hj hm
    rcases h _ ⟨k, hk, rfl⟩ with hx | hx
    · simp [hs, hp] at hx
    · rcases hx (j, w.lane j) ⟨hj, rfl⟩ with ((hy | hy) | hy) | hy
      · simp [hm] at hy
      · exact .inl hy
      · exact .inr (.inl hy)
      · exact .inr (.inr hy)
  · rintro h x ⟨k, hk, rfl⟩
    by_cases hw : (w.lane k).st = .waitingJoin ∧ (w.lane k).pc = p
    · right
      rintro ⟨j, y⟩ ⟨hj, he⟩
      dsimp only at hj he
      subst he
      by_cases hm : (w.lane k).joinMask.getLsbD j = true
      · rcases h k hk hw.1 hw.2 j hj hm with hx | hx | hx
        · exact .inl (.inl (.inr hx))
        · exact .inl (.inr hx)
        · exact .inr hx
      · exact .inl (.inl (.inl (by simpa using hm)))
    · left
      simpa using hw
/-- The release of a warp's JOINs. -/
def joinFree (w : Warp) : Warp :=
  { w with lanes := w.lanes.map fun x =>
      if x.st == .waitingJoin && joinReady w x.pc then { x with st := .active, pc := x.pc + 4 } else x }
theorem joinRelease_eq (wk : Nat) (s : State) : joinRelease wk s = s.updWarp wk joinFree := rfl
theorem joinFree_released (w : Warp) (hl : w.lanes.length = 32) : lanesReleased w.lane (joinFree w) := by
  have key : ∀ l < 32, (joinFree w).lane l = if (w.lane l).st == .waitingJoin && joinReady w (w.lane l).pc then
      { w.lane l with st := .active, pc := (w.lane l).pc + 4 } else w.lane l := by
    intro l hl'
    simp only [joinFree, Warp.lane, List.getD_eq_getElem?_getD, List.getElem?_map]
    rw [lane_get w hl l hl']
    rfl
  intro l hl'
  rw [key l hl']
  constructor
  · intro h1 h2
    rw [if_pos (by simp [h1, (joinReady_iff w hl _).2 h2])]
  · intro h
    rw [if_neg]
    intro hc
    simp only [Bool.and_eq_true, beq_iff_eq, joinReady_iff w hl] at hc
    exact h hc

/-! ### Tasks and serial mode -/
theorem taskEnd_id (wk l : Nat) (mark : Word → FailMark) (s : State) (h : ((s.warp wk).lane l).isTask = false) :
    taskEnd wk l mark s = s := by simp [taskEnd, h]
theorem vacateLanes_plain (wk : Nat) (m : Word) (mark : Word → FailMark) (s : State)
    (h : ∀ l < 32, m.getLsbD l = true → ((s.warp wk).lane l).isTask = false) :
    vacateLanes wk m mark s = s.updWarp wk fun w => w.updLanes m fun _ x => x.vacate := by
  have : ∀ ls : List Nat, (∀ l ∈ ls, ((s.warp wk).lane l).isTask = false) →
      ls.foldl (fun s l => taskEnd wk l mark s) s = s := by
    intro ls
    induction ls with
    | nil => intro _; rfl
    | cons a t ih =>
      intro ha
      rw [List.foldl_cons, taskEnd_id _ _ _ _ (ha a List.mem_cons_self)]
      exact ih fun l hl => ha l (List.mem_cons_of_mem _ hl)
  rw [vacateLanes, this _ fun l hl => h l ((mem_maskLanes m l).1 hl).1 ((mem_maskLanes m l).1 hl).2]
theorem serialEnd_zero (w : Warp) (hl : w.lanes.length = 32) (k : Nat) (hk : k < 32)
    (h1 : (w.lane k).st ≠ .vacant) (h2 : (w.lane k).st ≠ .serialWaiting) : serialEnd w = 0 := by
  rw [serialEnd, if_neg]
  rw [List.all_eq_true]
  intro hc
  have := hc _ ((mem_lanes w hl _).2 ⟨k, hk, rfl⟩)
  simp [h1, h2] at this
theorem afterLanes_plain (wk : Nat) (s : State) (hw : (mFind s.warps wk).isSome = true) (hl : (s.warp wk).lanes.length = 32) (k : Nat)
    (hk : k < 32) (h1 : ((s.warp wk).lane k).st ≠ .vacant) (h2 : ((s.warp wk).lane k).st ≠ .serialWaiting) :
    afterLanes wk s = s.updWarp wk joinFree := by
  have e : afterLanes wk s = warpRetire wk (joinRelease wk s) := by
    simp only [afterLanes, serialEnd_zero _ hl k hk h1 h2, if_true]
  rw [e, joinRelease_eq]
  have hx : ((s.updWarp wk joinFree).warp wk) = joinFree (s.warp wk) := State.updWarp_warp _ _ _ hw
  have hlane : ((joinFree (s.warp wk)).lane k).st ≠ .vacant := by
    have := joinFree_released (s.warp wk) hl k hk
    by_cases hc : ((s.warp wk).lane k).st = .waitingJoin ∧ joinMet (s.warp wk).lane ((s.warp wk).lane k).pc
    · rw [this.1 hc.1 hc.2]; simp
    · rw [this.2 hc]; exact h1
  have hall : ((joinFree (s.warp wk)).lanes.all fun x => x.st == .vacant) = false := by
    rw [Bool.eq_false_iff]
    intro hc
    rw [List.all_eq_true] at hc
    have hlen : (joinFree (s.warp wk)).lanes.length = 32 := by simp [joinFree, hl]
    have := hc _ ((mem_lanes _ hlen _).2 ⟨k, hk, rfl⟩)
    exact hlane (by simpa using this)
  simp only [warpRetire, hx, hall, Bool.not_false, Bool.or_true, if_true]

/-! ### Quota (R136) -/
theorem mem_mMod {α : Type} (m : Map α) (k : Nat) (f : α → α) (x : Nat × α) (h : x ∈ mMod m k f) :
    x ∈ m ∨ ∃ v, (k, v) ∈ m ∧ x = (k, f v) := by
  induction m with
  | nil => simp [mMod] at h
  | cons a t ih =>
    obtain ⟨k', v⟩ := a
    simp only [mMod] at h
    split at h
    · rename_i hk
      subst hk
      rcases List.mem_cons.1 h with rfl | h
      · exact .inr ⟨v, List.mem_cons_self, rfl⟩
      · exact .inl (List.mem_cons_of_mem _ h)
    · rcases List.mem_cons.1 h with rfl | h
      · exact .inl List.mem_cons_self
      · rcases ih h with h | ⟨w, h1, h2⟩
        · exact .inl (List.mem_cons_of_mem _ h)
        · exact .inr ⟨w, List.mem_cons_of_mem _ h1, h2⟩
theorem mem_of_mFind {α : Type} (m : Map α) (k : Nat) (v : α) (h : mFind m k = some v) : (k, v) ∈ m := by
  induction m with
  | nil => simp [mFind] at h
  | cons a t ih =>
    obtain ⟨k', w⟩ := a
    simp only [mFind] at h
    split at h
    · rename_i hk
      cases h; subst hk; exact List.mem_cons_self
    · exact List.mem_cons_of_mem _ (ih h)
theorem mFind_of_mem {α : Type} (m : Map α) (k : Nat) (v : α) (h : (k, v) ∈ m) : (mFind m k).isSome = true := by
  induction m with
  | nil => simp at h
  | cons a t ih =>
    obtain ⟨k', w⟩ := a
    simp only [mFind]
    split
    · rfl
    · rename_i hk
      rcases List.mem_cons.1 h with h | h
      · cases h; exact absurd rfl hk
      · exact ih h
/-- A change of a warp that keeps its block and its claim adds no claim. -/
theorem noClaims_upd (s : State) (wk bk : Nat) (f : Warp → Warp) (h : noClaims s bk) (hb : ∀ w, (f w).bk = w.bk)
    (hc : ∀ w, w.claims = [] → (f w).claims = []) : noClaims (s.updWarp wk f) bk := by
  intro x hx hxb
  have key : ∀ y ∈ s.warps, y.2.bk = bk → ((s.updWarp wk f).warp y.1).claims = [] := by
    intro y hy hyb
    by_cases hk : wk = y.1
    · subst hk
      rw [State.updWarp_warp _ _ _ (mFind_of_mem _ _ _ hy)]
      exact hc _ (h y hy hyb).2
    · rw [State.updWarp_warp_ne _ _ _ _ hk]
      exact (h y hy hyb).2
  rcases mem_mMod _ _ _ _ hx with hx | ⟨v, hv, rfl⟩
  · exact ⟨(h x hx hxb).1, key x hx hxb⟩
  · have hvb : v.bk = bk := by rw [← hb v]; exact hxb
    exact ⟨hc _ (h _ hv hvb).1, key (wk, v) hv hvb⟩
theorem mem_blockWarps (s : State) (bk : Nat) (x : Nat × Warp) (h : x ∈ blockWarps s bk) : x ∈ s.warps ∧ x.2.bk = bk := by
  simp only [blockWarps, List.mem_filter, Bool.and_eq_true, beq_iff_eq] at h
  exact ⟨h.1, h.2.1⟩
theorem retryClaims_id (s : State) (bk : Nat) (h : noClaims s bk) : retryClaims bk s = s := by
  have : ∀ xs : List (Nat × Warp), (∀ x ∈ xs, x ∈ s.warps ∧ x.2.bk = bk) →
      xs.foldl (fun s kw => kw.2.claims.foldl (retryClaim kw.1) s) s = s := by
    intro xs
    induction xs with
    | nil => intro _; rfl
    | cons a t ih =>
      intro ha
      obtain ⟨h1, h2⟩ := ha a List.mem_cons_self
      rw [List.foldl_cons, (h a h1 h2).1]
      exact ih fun x hx => ha x (List.mem_cons_of_mem _ hx)
  exact this _ fun x hx => mem_blockWarps s bk x hx
theorem claimDeadlock_id (s : State) (bk : Nat) (h : noClaims s bk) : claimDeadlock bk s = s := by
  rw [claimDeadlock]
  have : (!(blockWarps s bk).isEmpty && (blockWarps s bk).all fun kw => !kw.2.claims.isEmpty && kw.2.claims.all fun c => decide ((s.block bk).pool < c.2)) = false := by
    cases hx : blockWarps s bk with
    | nil => rfl
    | cons a t =>
      obtain ⟨h1, h2⟩ := mem_blockWarps s bk a (by simp [hx])
      simp [(h a h1 h2).1]
  simp only [this, Bool.false_eq_true, if_false]
/-- Rows that go to a pool that no claim waits for. -/
theorem givePool_id (s : State) (bk n : Nat) (h : noClaims s bk) :
    claimDeadlock bk (givePool bk n s) = s.updBlock bk fun b => { b with pool := b.pool + n } := by
  have h1 : noClaims (s.updBlock bk fun b => { b with pool := b.pool + n }) bk := h
  have e : givePool bk n s = s.updBlock bk fun b => { b with pool := b.pool + n } := by
    rw [givePool]
    split
    · rfl
    · exact retryClaims_id _ _ h1
  rw [e, claimDeadlock_id _ _ h1]

end Sys2Proof.Machine
end

