-- ==== Sys2Proof/Laws/Stream.lean ====
section
/-! SUPPORT. Operations of a warp's stream that nothing holds back, and releases with nothing to wait for. -/
namespace Sys2Proof.Machine

theorem mUpd_id_get {α : Type} (m : Map α) (d : α) (k j : Nat) (f : α → α) :
    mGet (mUpd m d k f) d j = if k = j then f (mGet m d k) else mGet m d j := by
  simp only [mUpd, mGet_mSet]
theorem updCore_coreAt (s : State) (c k : Nat) (f : Core → Core) :
    (s.updCore c f).coreAt k = if c = k then f (s.coreAt c) else s.coreAt k := mUpd_id_get _ _ _ _ _
theorem snaps_id (c : Core) : ({ c with snaps := c.snaps.filter fun kv => !([] : List Nat).contains kv.1 } : Core) = c := by
  have : (c.snaps.filter fun kv => !([] : List Nat).contains kv.1) = c.snaps := by
    rw [List.filter_eq_self]; intro a _; simp
  rw [this]
/-- A pool with nothing in it sends nothing. -/
theorem evict_empty (core : Nat) (p : Nat → Bool) (s : State) (h : (s.coreAt core).pool = []) :
    evictWhere core p s = s.updCore core fun c =>
      { c with pool := c.pool.filter fun kb => !p (kb.1 / 128), snaps := c.snaps.filter fun kv => !([] : List Nat).contains kv.1 } := by
  simp only [evictWhere, poolWrites, h, List.filter_nil, List.map_nil, List.dedup_nil, List.foldl_nil]
theorem evict_empty_cores (core : Nat) (p : Nat → Bool) (s : State) (h : (s.coreAt core).pool = []) (k : Nat) :
    (evictWhere core p s).coreAt k = s.coreAt k := by
  rw [evict_empty core p s h, updCore_coreAt]
  split
  · rename_i hk
    subst hk
    have : ((s.coreAt core).pool.filter fun kb => !p (kb.1 / 128)) = (s.coreAt core).pool := by rw [h]; rfl
    rw [this]
    exact snaps_id (s.coreAt core)
  · rfl
/-- A release with nothing on its way changes nothing but the list of cores, which reads the same. -/
theorem releaseBegin_quiet (core : Nat) (sc : Scope) (s : State) (h : scopeWide sc = true → (s.coreAt core).pool = []) :
    ∃ c, releaseBegin core sc s = s.setCores c ∧ ∀ k, (releaseBegin core sc s).coreAt k = s.coreAt k := by
  rw [releaseBegin]
  cases hs : scopeWide sc with
  | false => exact ⟨s.cores, rfl, fun _ => rfl⟩
  | true =>
    simp only [if_true]
    refine ⟨(evictWhere core (fun _ => true) s).cores, ?_, fun k => evict_empty_cores core _ s (h hs) k⟩
    rw [evict_empty core _ s (h hs)]; rfl
theorem releaseFids_quiet (core : Nat) (sc : Scope) (s : State) (h : scopeWide sc = true → s.mem.flights = []) :
    releaseFids core sc s = [] := by
  rw [releaseFids]
  cases hs : scopeWide sc with
  | false => rfl
  | true => simp [h hs]
theorem forceStream_id (wk : Nat) (s : State) (h : streamWids s wk = []) : forceStream wk s = s := by
  rw [forceStream, h]; rfl
/-- A release of an empty stream (R223). -/
theorem forceRelease_quiet (wk : Nat) (sc : Scope) (s : State) (hw : (mFind s.warps wk).isSome = true) (h : streamWids s wk = [])
    (hq : scopeWide sc = true → (s.coreAt (s.block (s.warp wk).bk).core).pool = [] ∧ s.mem.flights = []) :
    ∃ c, forceRelease wk sc s = (s.updWarp wk settleOuts).setCores c ∧ ∀ k, (forceRelease wk sc s).coreAt k = s.coreAt k := by
  have hb : ((s.updWarp wk settleOuts).warp wk).bk = (s.warp wk).bk := by
    rw [State.updWarp_warp _ _ _ hw]; rfl
  obtain ⟨c, h1, h2⟩ := releaseBegin_quiet (s.block (s.warp wk).bk).core sc (s.updWarp wk settleOuts) (fun hs => (hq hs).1)
  have e : forceRelease wk sc s = releaseBegin (s.block (s.warp wk).bk).core sc (s.updWarp wk settleOuts) := by
    have h3 : releaseFids (s.block (s.warp wk).bk).core sc (releaseBegin (s.block (s.warp wk).bk).core sc (s.updWarp wk settleOuts)) = [] := by
      refine releaseFids_quiet _ _ _ fun hs => ?_
      rw [h1]; exact (hq hs).2
    simp only [forceRelease, forceStream_id wk s h]
    rw [h3, forceFlights]
    have : ((releaseBegin (s.block (s.warp wk).bk).core sc (s.updWarp wk settleOuts)).mem.flights.filter fun f => ([] : List Nat).contains f.fid) = [] := by
      rw [List.filter_eq_nil_iff]; intro a _; simp
    rw [this]; rfl
  exact ⟨c, by rw [e, h1], fun k => by rw [e, h2 k]; rfl⟩
theorem find_own (o : MemOp) : ([o].find? fun x => x.id == o.id) = some o := by simp
theorem take_own (o : MemOp) : ([o].takeWhile fun x => x.id != o.id) = [] := by simp
/-- THE ONLY OPERATION OF ITS STREAM, with no atomic of the warp and nothing of another warp before it, is not held back. -/
theorem performOp_free (wk : Nat) (o : MemOp) (s : State) (h : (s.warp wk).memq = [o]) (ha : ∀ a ∈ s.mem.atoms, a.wk ≠ wk)
    (hh : hbHeld s wk o.wid = false) (hn : o.noRoom wk s = false) :
    performOp wk o.id s =
      match o.gate with
      | none => finishOp wk o s
      | some (.begin sc) =>
        if o.drain && stillFlying s (s.warp wk).ntFids then s else
          let s1 := releaseBegin (s.block (s.warp wk).bk).core sc s
          let fids := releaseFids (s.block (s.warp wk).bk).core sc s1
          if fids.isEmpty then finishOp wk o s1 else
            s1.updWarp wk fun w => { w with memq := w.memq.map fun x => if x.id = o.id then { x with gate := some (.wait sc fids) } else x }
      | some (.wait _ fids) => if stillFlying s fids then s else finishOp wk o s := by
  have h1 : o.blockedBy [] = false := by simp [MemOp.blockedBy]
  have h2 : o.atomAhead wk s = false := by
    have : (s.mem.atoms.filter fun a => a.wk == wk && decide (a.opId < o.id)) = [] := by
      rw [List.filter_eq_nil_iff]
      intro a hm
      simp [ha a hm]
    simp [MemOp.atomAhead, this]
  simp only [performOp, MemOp.held, h, find_own, take_own, h1, h2, hh, hn, Bool.or_false, Bool.false_eq_true, if_false]
  all_goals
    rcases o.gate with _ | g
    · rfl
    · cases g <;> rfl

end Sys2Proof.Machine
end

