-- ==== Sys2Proof/Laws/Access.lean ====
section
/-! SUPPORT. Accesses to memory: what a translation, a fill, an arrival and a load leave as they were, and the lanes' accesses
of an instruction. -/
namespace Sys2Proof.Machine

/-! ### The memory side -/
theorem memSide.refl (s : State) : memSide s s := ⟨rfl, rfl, rfl, rfl, rfl, rfl, rfl, rfl, rfl, rfl, rfl⟩
theorem memSide.trans {s t u : State} (h1 : memSide s t) (h2 : memSide t u) : memSide s u :=
  ⟨h2.cur.trans h1.cur, h2.agenda.trans h1.agenda, h2.nextSched.trans h1.nextSched, h2.warps.trans h1.warps,
    h2.blocks.trans h1.blocks, h2.clusters.trans h1.clusters, h2.dies.trans h1.dies, h2.faults.trans h1.faults,
    h2.launch.trans h1.launch, h2.wd.trans h1.wd, h2.rel.trans h1.rel⟩
theorem memSide_foldl {α : Type} (f : State → α → State) (xs : List α) (s : State) (h : ∀ s x, memSide s (f s x)) :
    memSide s (xs.foldl f s) := by
  induction xs generalizing s with
  | nil => exact .refl s
  | cons x t ih => exact (h s x).trans (ih _)
theorem memSide_foldl2 {α β : Type} (f : β × State → α → β × State) (xs : List α) (r : β × State)
    (h : ∀ r x, memSide r.2 (f r x).2) : memSide r.2 (xs.foldl f r).2 := by
  induction xs generalizing r with
  | nil => exact .refl _
  | cons x t ih => exact (h r x).trans (ih _)
theorem memSide_setMem (s : State) (m : Mem) : memSide s (s.setMem m) :=
  ⟨rfl, rfl, rfl, rfl, rfl, rfl, rfl, rfl, rfl, rfl, rfl⟩
theorem memSide_updMem (s : State) (f : Mem → Mem) : memSide s (s.updMem f) :=
  ⟨rfl, rfl, rfl, rfl, rfl, rfl, rfl, rfl, rfl, rfl, rfl⟩
theorem memSide_updCore (s : State) (c : Nat) (f : Core → Core) : memSide s (s.updCore c f) :=
  ⟨rfl, rfl, rfl, rfl, rfl, rfl, rfl, rfl, rfl, rfl, rfl⟩
theorem memSide_updQuad (s : State) (c : Nat) (f : Quad → Quad) : memSide s (s.updQuad c f) :=
  ⟨rfl, rfl, rfl, rfl, rfl, rfl, rfl, rfl, rfl, rfl, rfl⟩
theorem memSide_send (s : State) (m : Msg) : memSide s (s.send m) :=
  ⟨rfl, rfl, rfl, rfl, rfl, rfl, rfl, rfl, rfl, rfl, rfl⟩
theorem memSide_bump (s : State) : memSide s s.bump :=
  ⟨rfl, rfl, rfl, rfl, rfl, rfl, rfl, rfl, rfl, rfl, rfl⟩
theorem memSide.block {s t : State} (h : memSide s t) (k : Nat) : t.block k = s.block k := by rw [State.block, h.blocks]; rfl
theorem memSide.warp {s t : State} (h : memSide s t) (k : Nat) : t.warp k = s.warp k := by rw [State.warp, h.warps]; rfl
theorem memSide.cw {s t : State} (h : memSide s t) : t.cw = s.cw := by rw [State.cw, h.cur, h.warp]; rfl
theorem memSide.inBundle {s t : State} (h : memSide s t) (hb : s.inBundle = true) : t.inBundle = true :=
  inBundle_congr s t hb h.warps h.cur

/-! ### Translation -/
theorem homeStore_side (a : PageAttr) (pa : Nat) (bs : List Byte) (s : State) : memSide s (homeStore a pa bs s) :=
  ⟨rfl, rfl, rfl, rfl, rfl, rfl, rfl, rfl, rfl, rfl, rfl⟩
theorem countWalk_side (part va : Nat) (sw : List Nat) (m : Mem) (s : State) : memSide s (countWalk part va sw m s) :=
  memSide_updMem s _
theorem walkAccess_side (c : Option Nat) (part : Nat) (k : Acc) (l va : Nat) (s : State) :
    memSide s (walkAccess c part k l va s).2 := by
  rw [walkAccess]
  split
  · exact countWalk_side _ _ _ _ s
  · rename_i pa level x _
    have h1 : memSide s (if withAD k x = x then s else homeStore PageAttr.none pa (leBytes (withAD k x).toNat 8) s) := by
      split
      · exact .refl s
      · exact homeStore_side _ _ _ _
    split
    · exact countWalk_side _ _ _ _ s
    · cases c with
      | none => exact h1.trans (countWalk_side _ _ _ _ _)
      | some c => exact (h1.trans (countWalk_side _ _ _ _ _)).trans (memSide_updCore _ _ _)
/-- A TRANSLATION changes only the memory side: page table bits, and the core's TLB. -/
theorem translate_side (c : Option Nat) (part : Nat) (k : Acc) (l va : Nat) (s : State) :
    memSide s (translate c part k l va s).2 := by
  rw [translate]
  split
  · exact .refl s
  · split
    · exact walkAccess_side _ _ _ _ _ _
    · split
      · exact walkAccess_side _ _ _ _ _ _
      · split <;> exact .refl s

/-! ### Arrivals, fills and loads -/
theorem arriveWrite_side (s : State) (w : PWrite) : memSide s (arriveWrite s w) := by
  rw [arriveWrite]
  split
  · exact memSide_setMem _ _
  · exact .refl s
theorem arriveWrites_side (p : Option Nat) (ws : List PWrite) (s : State) : memSide s (arriveWrites p ws s) := by
  cases p with
  | none => exact memSide_foldl _ _ _ arriveWrite_side
  | some p =>
    simp only [arriveWrites, reachPeer]
    split
    · exact memSide_updMem _ _
    · exact memSide_send _ _
theorem ackFlight_side (fid : Nat) (s : State) : memSide s (ackFlight fid s) := by
  rw [ackFlight]
  split
  · exact .refl s
  · exact ⟨rfl, rfl, rfl, rfl, rfl, rfl, rfl, rfl, rfl, rfl, rfl⟩
/-- A FLIGHT ARRIVES. -/
theorem arriveFlight_side (f : Flight) (s : State) : memSide s (arriveFlight f s) :=
  ((memSide_updMem s fun m => { m with flights := m.flights.filter fun g => g.fid != f.fid }).trans
    (arriveWrites_side _ _ _)).trans (ackFlight_side _ _)
theorem drainHome_side (c h : Nat) (s : State) : memSide s (drainHome c h s) :=
  memSide_foldl _ _ _ fun s f => arriveFlight_side f s
theorem arriveNt_side (wk : Nat) (ks : List Nat) (s : State) : memSide s (arriveNt wk ks s) :=
  memSide_foldl _ _ _ fun s f => arriveFlight_side f s
theorem addFlight_side (c h : Nat) (nt : Bool) (ws : List PWrite) (s : State) : memSide s (addFlight c h nt ws s) :=
  memSide_updMem _ _
theorem sendWrites_side (c : Nat) (nt : Bool) (ws : List PWrite) (s : State) : memSide s (sendWrites c nt ws s) :=
  memSide_foldl _ _ _ fun s _ => addFlight_side _ _ _ _ s
theorem evictWhere_side (c : Nat) (p : Nat → Bool) (s : State) : memSide s (evictWhere c p s) := by
  rw [evictWhere]
  exact (memSide_updCore _ _ _).trans (memSide_foldl _ _ _ fun s _ => sendWrites_side _ _ _ s)
theorem makeL1Room_side (c n : Nat) (s : State) : memSide s (makeL1Room c n s) := by
  rw [makeL1Room]
  split
  · exact (evictWhere_side _ _ _).trans (memSide_updCore _ _ _)
  · exact .refl s
theorem serveFor_side (c : Nat) (a : PageAttr) (use : Option (Nat × Bool)) (sec : Nat) (s : State) :
    memSide s (serveFor c a use sec s).2 := (drainHome_side _ _ s).trans (memSide_setMem _ _)
theorem sectorBytes_side (c : Nat) (k : LoadKind) (a : PageAttr) (sec : Nat) (s : State) :
    memSide s (sectorBytes c k a sec s).2 := by
  rw [sectorBytes.eq_def]
  split
  · exact serveFor_side _ _ _ _ _
  · exact serveFor_side _ _ _ _ _
  · split
    · exact .refl s
    · exact (memSide_setMem _ _).trans (memSide_updQuad _ _ _)
  · split
    · exact .refl s
    · exact ((makeL1Room_side _ _ s).trans (serveFor_side _ _ _ _ _)).trans (memSide_updCore _ _ _)
theorem loadSector_side (wk c b : Nat) (k : LoadKind) (n sec : Nat) (accs : List LaneAcc) (r : Map (List HByte) × State) :
    memSide r.2 (loadSector wk c b k n sec accs r).2 := by
  rw [loadSector]
  dsimp only
  split
  · exact sectorBytes_side _ _ _ _ _
  · exact .refl _
theorem loadOther_side (wk c b : Nat) (k : LoadKind) (n : Nat) (r : Map (List HByte) × State) (a : LaneAcc) :
    memSide r.2 (loadOther wk c b k n r a).2 := by
  simp only [loadOther]
  split
  · exact .refl _
  · split
    · exact .refl _
    · exact memSide_bump _
theorem askPeers_side (wk c b : Nat) (k : LoadKind) (n : Nat) (accs : List LaneAcc) (s : State) :
    memSide s (askPeers wk c b k n accs s) := memSide_foldl _ _ _ fun s _ => memSide_send s _
/-- A LOAD FROM GLOBAL MEMORY changes only the memory side. -/
theorem loadGlobal_side (wk c b : Nat) (k : LoadKind) (n : Nat) (accs : List LaneAcc) (s : State) :
    memSide s (loadGlobal wk c b k n accs s).2 := by
  rw [loadGlobal]
  have h0 : memSide s (if k.isRo then s else arriveNt wk (accs.flatMap fun a => a.keys n) s) := by
    split
    · exact .refl s
    · exact arriveNt_side _ _ _
  have h1 := memSide_foldl2 (fun r sec => loadSector wk c b k n sec accs r)
    ((accs.filter fun a => a.peer.isNone && !a.zero).map fun a => a.pa / 128).dedup
    (([], if k.isRo then s else arriveNt wk (accs.flatMap fun a => a.keys n) s) : Map (List HByte) × State)
    fun r x => loadSector_side _ _ _ _ _ _ _ r
  exact ((h0.trans h1).trans (askPeers_side _ _ _ _ _ _ _)).trans (memSide_foldl2 (loadOther wk c b k n) _ (_, _) fun r x => loadOther_side _ _ _ _ _ r x)
theorem acquireDrop_side (c : Nat) (sc : Scope) (s : State) : memSide s (acquireDrop c sc s) := by
  rw [acquireDrop]; split
  · exact memSide_updCore _ _ _
  · exact .refl s

/-! ### The lanes' accesses -/
theorem globalLane_side (k : Acc) (n : Nat) (addr : Nat → DWord) (chk : AccCheck) (r : LaneRes) (l : Nat) :
    memSide r.s (globalLane k n addr chk r l).s := by
  simp only [globalLane]
  split
  · exact .refl _
  · have h := translate_side (some r.s.cur.core) r.s.cb.part k l (addr l).toNat r.s
    split
    · rename_i e; rw [e] at h; exact h
    · rename_i e; rw [e] at h
      split
      · exact .refl _
      · exact h
/-- A lane either gets its access or its fault. -/
theorem globalLane_adds (k : Acc) (n : Nat) (addr : Nat → DWord) (chk : AccCheck) (r : LaneRes) (l : Nat) :
    (∃ a, a.lane = l ∧ (globalLane k n addr chk r l).accs = r.accs ++ [a] ∧ (globalLane k n addr chk r l).faults = r.faults) ∨
    (∃ f, (globalLane k n addr chk r l).accs = r.accs ∧ (globalLane k n addr chk r l).faults = r.faults ++ [f]) := by
  simp only [globalLane]
  split
  · exact .inr ⟨_, rfl, rfl⟩
  · split
    · exact .inr ⟨_, rfl, rfl⟩
    · rename_i e
      have hl : ∀ c p k l va s a s1, translate c p k l va s = (.ok a, s1) → a.lane = l := by
        intro c p k l va s a s1 h
        rw [translate] at h
        have hw : walkAccess c p k l va s = (.ok a, s1) → a.lane = l := by
          intro h
          rw [walkAccess] at h
          split at h
          · simp at h
          · split at h
            · simp at h
            · simp only [Prod.mk.injEq, Except.ok.injEq] at h
              rw [← h.1]; rfl
        split at h
        · simp at h
        · split at h
          · exact hw h
          · split at h
            · exact hw h
            · split at h
              · simp at h
              · simp only [Prod.mk.injEq, Except.ok.injEq] at h
                rw [← h.1]; rfl
      split
      · exact .inr ⟨_, rfl, rfl⟩
      · exact .inl ⟨_, hl _ _ _ _ _ _ _ _ e, rfl, rfl⟩
theorem lanes_faults_mono (f : LaneRes → Nat → LaneRes) (ls : List Nat) (r : LaneRes)
    (h : ∀ r l, (∃ a : LaneAcc, a.lane = l ∧ (f r l).accs = r.accs ++ [a] ∧ (f r l).faults = r.faults) ∨
      (∃ g, (f r l).accs = r.accs ∧ (f r l).faults = r.faults ++ [g])) :
    (ls.foldl f r).faults = [] → r.faults = [] ∧ (ls.foldl f r).accs.map (·.lane) = r.accs.map (·.lane) ++ ls := by
  induction ls generalizing r with
  | nil => intro hf; exact ⟨hf, by simp⟩
  | cons l t ih =>
    intro hf
    obtain ⟨h1, h2⟩ := ih (f r l) hf
    rcases h r l with ⟨a, ha, hacc, hfl⟩ | ⟨g, hacc, hfl⟩
    · refine ⟨by rw [← hfl]; exact h1, ?_⟩
      rw [List.foldl_cons, h2, hacc]
      simp [ha]
    · rw [hfl] at h1; simp at h1
theorem noCheck_lane (s : State) (a : LaneAcc) (f : LaneFault) (h : noCheck s a = some f) : f.lane = a.lane := by simp [noCheck] at h
theorem eccCheck_lane (k : LoadKind) (n : Nat) (s : State) (a : LaneAcc) (f : LaneFault) (h : eccCheck k n s a = some f) : f.lane = a.lane := by
  rw [eccCheck] at h
  split at h
  · simp only [Option.some.injEq] at h; rw [← h]
  · simp at h
theorem scopeCheck_lane (sc : Scope) (b : Bool) (s : State) (a : LaneAcc) (f : LaneFault) (h : scopeCheck sc b s a = some f) :
    f.lane = a.lane := by
  rw [scopeCheck, scopeFault] at h
  split at h
  · simp at h
  · split at h
    · simp at h
    · split at h
      · simp at h
      · simp only [Option.some.injEq] at h; rw [← h]
theorem bothChecks_lane (c d : AccCheck) (hc : ∀ s a f, c s a = some f → f.lane = a.lane) (hd : ∀ s a f, d s a = some f → f.lane = a.lane)
    (s : State) (a : LaneAcc) (f : LaneFault) (h : bothChecks c d s a = some f) : f.lane = a.lane := by
  rw [bothChecks] at h
  split at h
  · rename_i e; simp only [Option.some.injEq] at h; rw [← h]; exact hc _ _ _ e
  · exact hd _ _ _ h
/-- GLOBAL ACCESSES change only the memory side; where no lane faults, each lane of the bundle has its access. -/
theorem globalLanes_spec (k : Acc) (n : Nat) (addr : Nat → DWord) (chk : AccCheck) (s : State) :
    memSide s (globalLanes k n addr chk s).s ∧
    ((globalLanes k n addr chk s).faults = [] → (globalLanes k n addr chk s).accs.map (·.lane) = s.bl) := by
  constructor
  · have : ∀ (ls : List Nat) (r : LaneRes), memSide r.s (ls.foldl (globalLane k n addr chk) r).s := by
      intro ls
      induction ls with
      | nil => exact fun r => .refl _
      | cons l t ih => exact fun r => (globalLane_side k n addr chk r l).trans (ih _)
    exact this s.bl ⟨[], [], s⟩
  · intro h
    have := (lanes_faults_mono (globalLane k n addr chk) s.bl ⟨[], [], s⟩ (fun r l => globalLane_adds k n addr chk r l) h).2
    exact this
/-- LOCAL ACCESSES within the window, aligned and with no bad byte: every lane's own. -/
theorem localLanes_ok (q : LSpace) (rd : Bool) (n : Nat) (addr : Nat → Word) (s : State) (h : windowOk s q rd n addr) :
    localLanes q rd n addr s = ⟨s.bl.map fun l => localAcc l (addr l).toNat, [], s⟩ := by
  have : ∀ (ls : List Nat) (as : List LaneAcc), (∀ l ∈ ls, l < 32 ∧ s.cur.mask.getLsbD l = true) →
      ls.foldl (localLane q rd n addr s) ⟨as, [], s⟩ = ⟨as ++ ls.map fun l => localAcc l (addr l).toNat, [], s⟩ := by
    intro ls
    induction ls with
    | nil => intro as _; simp
    | cons l t ih =>
      intro as hl
      obtain ⟨h1, h2, h3⟩ := h l (hl l (by simp)).1 (hl l (by simp)).2
      have e : localLane q rd n addr s ⟨as, [], s⟩ l = ⟨as ++ [localAcc l (addr l).toNat], [], s⟩ := by
        rw [localLane]
        dsimp only
        rw [if_neg (by omega), if_neg (by omega), if_neg]
        intro hc
        rw [Bool.and_eq_true] at hc
        rw [h3 hc.1] at hc
        exact absurd hc.2 (by decide)
      rw [List.foldl_cons, e, ih _ fun x hx => hl x (by simp [hx])]
      simp
  have := this s.bl [] fun l hl => (mem_maskLanes _ _).1 hl
  simpa [localLanes] using this
theorem bl_ne (s : State) (h : s.cur.mask ≠ 0) : s.bl ≠ [] := by
  intro hc
  have := lowLane_mem s.cur.mask h
  have hm := (mem_maskLanes s.cur.mask (lowLane s.cur.mask)).2 this
  rw [show maskLanes s.cur.mask = [] from hc] at hm
  simp at hm

/-! ### Translations leave everything but memory and the TLBs -/
/-- Only memory and cores differ. -/
def onlyMem (s t : State) : Prop := ∃ m c, t = (s.setMem m).setCores c
theorem onlyMem.refl (s : State) : onlyMem s s := ⟨s.mem, s.cores, rfl⟩
theorem onlyMem.trans {s t u : State} (h1 : onlyMem s t) (h2 : onlyMem t u) : onlyMem s u := by
  obtain ⟨m, c, rfl⟩ := h1
  obtain ⟨m', c', rfl⟩ := h2
  exact ⟨m', c', rfl⟩
theorem onlyMem_updMem (s : State) (f : Mem → Mem) : onlyMem s (s.updMem f) := ⟨f s.mem, s.cores, rfl⟩
theorem onlyMem_updCore (s : State) (c : Nat) (f : Core → Core) : onlyMem s (s.updCore c f) :=
  ⟨s.mem, mUpd s.cores Core.init c f, rfl⟩
theorem homeStore_only (a : PageAttr) (pa : Nat) (bs : List Byte) (s : State) : onlyMem s (homeStore a pa bs s) :=
  ⟨(homeStore a pa bs s).mem, s.cores, rfl⟩
theorem countWalk_only (part va : Nat) (sw : List Nat) (m : Mem) (s : State) : onlyMem s (countWalk part va sw m s) :=
  onlyMem_updMem s _
theorem walkAccess_only (c : Option Nat) (part : Nat) (k : Acc) (l va : Nat) (s : State) :
    onlyMem s (walkAccess c part k l va s).2 := by
  rw [walkAccess]
  split
  · exact countWalk_only _ _ _ _ s
  · rename_i pa level x _
    have h1 : onlyMem s (if withAD k x = x then s else homeStore PageAttr.none pa (leBytes (withAD k x).toNat 8) s) := by
      split
      · exact .refl s
      · exact homeStore_only _ _ _ _
    split
    · exact countWalk_only _ _ _ _ s
    · cases c with
      | none => exact h1.trans (countWalk_only _ _ _ _ _)
      | some c => exact (h1.trans (countWalk_only _ _ _ _ _)).trans (onlyMem_updCore _ _ _)
theorem translate_only (c : Option Nat) (part : Nat) (k : Acc) (l va : Nat) (s : State) :
    onlyMem s (translate c part k l va s).2 := by
  rw [translate]
  split
  · exact .refl s
  · split
    · exact walkAccess_only _ _ _ _ _ _
    · split
      · exact walkAccess_only _ _ _ _ _ _
      · split <;> exact .refl s
theorem globalLanes_only (k : Acc) (n : Nat) (addr : Nat → DWord) (chk : AccCheck) (s : State) :
    onlyMem s (globalLanes k n addr chk s).s := by
  have hl : ∀ (r : LaneRes) (l : Nat), onlyMem r.s (globalLane k n addr chk r l).s := by
    intro r l
    simp only [globalLane]
    split
    · exact .refl _
    · have h := translate_only (some r.s.cur.core) r.s.cb.part k l (addr l).toNat r.s
      split
      · rename_i e; rw [e] at h; exact h
      · rename_i e; rw [e] at h
        split
        · exact .refl _
        · exact h
  have : ∀ (ls : List Nat) (r : LaneRes), onlyMem r.s (ls.foldl (globalLane k n addr chk) r).s := by
    intro ls
    induction ls with
    | nil => exact fun r => .refl _
    | cons l t ih => exact fun r => (hl r l).trans (ih _)
  exact this s.bl ⟨[], [], s⟩

/-! ### A fresh number -/
theorem above_spec (ids : List Nat) (n : Nat) : n ≤ above n ids ∧ ∀ i ∈ ids, i < above n ids := by
  induction ids generalizing n with
  | nil => exact ⟨Nat.le_refl _, by simp⟩
  | cons x t ih =>
    obtain ⟨h1, h2⟩ := ih (max n (x + 1))
    refine ⟨by show n ≤ above (max n (x + 1)) t; omega, ?_⟩
    intro i hi
    rcases List.mem_cons.1 hi with rfl | hi
    · show i < above (max n (i + 1)) t; omega
    · exact h2 i hi
/-- No result and no operation of the warp has the fresh number. -/
theorem fresh_new (w : Warp) : (∀ o ∈ w.outs, o.id ≠ w.fresh) ∧ ∀ o ∈ w.memq, o.id ≠ w.fresh := by
  have h := (above_spec (w.outs.map (·.id) ++ w.memq.map (·.id)) w.nextId).2
  constructor
  · intro o ho
    have := h o.id (by simp only [List.mem_append, List.mem_map]; exact .inl ⟨o, ho, rfl⟩)
    rw [Warp.fresh]; omega
  · intro o ho
    have := h o.id (by simp only [List.mem_append, List.mem_map]; exact .inr ⟨o, ho, rfl⟩)
    rw [Warp.fresh]; omega

end Sys2Proof.Machine
end

