-- ==== Sys2Proof/Machine/AsmLex.lean ====
section
/-! DEFINITION. The assembly language, its tokens (R22 to R25): how `tras` cuts a line of source into names, literals and
signs, and what it refuses there. -/
namespace Sys2Proof.Tras
open Sys2Proof.Machine

/-- The characters of a name. -/
abbrev Txt := List Char

/-- What `tras` refuses (R35), by the rule that a statement breaks. -/
inductive Why where
  /-- a control character or a byte above 0x7F outside comments and strings (R22) -/
  | character
  /-- more than 1,023 characters (R22) -/
  | longLine
  /-- a symbol of more than 63 characters (R24) -/
  | longName
  /-- a malformed literal, or one that does not fit (R25) -/
  | literal
  /-- a statement outside the grammar (R26) -/
  | grammar
  /-- a symbol that matches a keyword (R24) -/
  | keyword
  /-- a symbol defined twice (R24) -/
  | twice
  /-- a symbol that nothing defines (R45) -/
  | undefinedSymbol
  /-- a symbol that is not constant where a constant is needed, or a chain of .equ that refers back to itself (R45) -/
  | notConstant
  /-- a divisor of zero, a shift count outside 0 to 63, −2^63 divided by −1 (R43) -/
  | arithmetic
  /-- a finite value whose rounding overflows (R39, R44) -/
  | overflow
  /-- no such mnemonic (R35) -/
  | mnemonic
  /-- a qualifier not listed, two of one class, or a required one missing (R32) -/
  | qualifier
  /-- operands of another number or kind than the entry's (R26) -/
  | operand
  /-- a pair where a single register stands, or the reverse, or a bad pair (R28) -/
  | pair
  /-- an offset that is no multiple of the size or outside its range (R29) -/
  | offset
  /-- a value that does not fit its field (R30, R31) -/
  | range
  /-- an encoding that would raise ILLEGAL on every execution (R35) -/
  | illegal
  /-- an encoding that would raise OPERAND on every execution (R35) -/
  | badOperand
  /-- a statement that its section does not take (R37, R38, R39) -/
  | sectionRule
  /-- a counter moved or a byte placed where R37 or R39 forbids it -/
  | place
  /-- a kernel's directives (R40, R41) -/
  | kernel
  /-- a .launch (R42) -/
  | launch
deriving DecidableEq, Repr

/-- A token. A sign is one character; `<` and `>` stand for `<<` and `>>`. -/
inductive Tok where
  | name (s : Txt)
  | int (v : Nat)
  /-- m·10^e (R25) -/
  | flt (m : Nat) (e : Int)
  | str (bytes : List Nat)
  | sign (c : Char)
deriving DecidableEq, Repr

/-! ### Characters -/
def isDigit (c : Char) : Bool := '0' ≤ c && c ≤ '9'
/-- A letter or `_`. -/
def isLetter (c : Char) : Bool := ('a' ≤ c && c ≤ 'z') || ('A' ≤ c && c ≤ 'Z') || c == '_'
/-- The value of a digit, a hex digit included. -/
def digitVal (c : Char) : Nat :=
  if isDigit c then c.toNat - 48
  else if 'a' ≤ c && c ≤ 'f' then c.toNat - 87
  else if 'A' ≤ c && c ≤ 'F' then c.toNat - 55
  else 99
/-- A capital letter for a small one. -/
def upChar (c : Char) : Char := if 'a' ≤ c && c ≤ 'z' then Char.ofNat (c.toNat - 32) else c
/-- A name in capitals: keywords are recognised in any mix of capitals (R24). -/
def up (s : Txt) : Txt := s.map upChar
/-- A name is a given keyword, which is written in capitals. -/
def isWord (w : String) (s : Txt) : Bool := up s == w.toList

/-! ### Literals (R25) -/
/-- Digits of a base; an underscore stands between two of them. -/
def digitsOk (base : Nat) : Bool → List Char → Bool
  | prior, [] => prior
  | prior, '_' :: t => prior && digitsOk base false t
  | _, c :: t => decide (digitVal c < base) && digitsOk base true t
/-- The value of digits. -/
def digitsVal (base : Nat) (l : List Char) : Nat :=
  (l.filter (· != '_')).foldl (fun n c => n * base + digitVal c) 0
/-- How many digits there are. -/
def digitCount (l : List Char) : Nat := (l.filter (· != '_')).length
/-- An integer literal. -/
def intLit (base : Nat) (l : List Char) : Except Why Tok :=
  if digitsOk base false l && decide (digitsVal base l < 2 ^ 64) then .ok (.int (digitsVal base l)) else .error .literal
/-- A decimal integer: its first digit is not 0 unless it is the only one. -/
def decLit (l : List Char) : Except Why Tok :=
  match l with
  | '0' :: _ :: _ => .error .literal
  | l => intLit 10 l
/-- The exponent of a float, if one stands here: its value, and what follows. -/
def exponent (l : List Char) : Option (Option Int × List Char) :=
  let digs (neg : Bool) (t : List Char) :=
    let ds := t.takeWhile fun c => isDigit c || c == '_'
    let v : Int := digitsVal 10 ds
    some (if digitsOk 10 false ds then some (if neg then -v else v) else none, t.dropWhile fun c => isDigit c || c == '_')
  match l with
  | 'e' :: '+' :: c :: t => if isDigit c then digs false (c :: t) else none
  | 'e' :: '-' :: c :: t => if isDigit c then digs true (c :: t) else none
  | 'e' :: c :: t => if isDigit c then digs false (c :: t) else none
  | _ => none
/-- A decimal literal, integer or float, and what follows. -/
def decimal (l : List Char) : Except Why Tok × List Char :=
  let ip := l.takeWhile fun c => isDigit c || c == '_'
  let r := l.dropWhile fun c => isDigit c || c == '_'
  let (fp, r1) := match r with
    | '.' :: c :: t => if isDigit c then
        ((c :: t).takeWhile (fun c => isDigit c || c == '_'), (c :: t).dropWhile fun c => isDigit c || c == '_')
      else ([], r)
    | _ => ([], r)
  let ok := digitsOk 10 false ip && (fp.isEmpty || digitsOk 10 false fp)
  let m := digitsVal 10 (ip ++ fp)
  match exponent r1 with
  | some (some e, r2) => (if ok then .ok (.flt m (e - digitCount fp)) else .error .literal, r2)
  | some (none, r2) => (.error .literal, r2)
  | none => if fp.isEmpty then (decLit ip, r1) else (if ok then .ok (.flt m (-(digitCount fp : Int))) else .error .literal, r1)
/-- A numeric literal, and what follows; a letter or a digit may not touch its end. -/
def number (l : List Char) : Except Why Tok × List Char :=
  let word (t : List Char) := t.takeWhile fun c => isLetter c || isDigit c
  let past (t : List Char) := t.dropWhile fun c => isLetter c || isDigit c
  let r := match l with
    | '0' :: 'x' :: t => (intLit 16 (word t), past t)
    | '0' :: 'b' :: t => (intLit 2 (word t), past t)
    | l => decimal l
  match r.2 with
  | c :: _ => if isLetter c || isDigit c then (.error .literal, r.2) else r
  | [] => r
/-- The bytes of a string up to its closing quote, and what follows. -/
def stringLit : Nat → List Char → List Nat → Except Why (List Nat × List Char)
  | 0, _, _ => .error .literal
  | _ + 1, '"' :: t, acc => .ok (acc.reverse, t)
  | f + 1, '\\' :: 'n' :: t, acc => stringLit f t (10 :: acc)
  | f + 1, '\\' :: 't' :: t, acc => stringLit f t (9 :: acc)
  | f + 1, '\\' :: '\\' :: t, acc => stringLit f t (92 :: acc)
  | f + 1, '\\' :: '"' :: t, acc => stringLit f t (34 :: acc)
  | f + 1, '\\' :: 'x' :: a :: b :: t, acc =>
    if digitVal a < 16 ∧ digitVal b < 16 then stringLit f t ((16 * digitVal a + digitVal b) :: acc) else .error .literal
  | _ + 1, '\\' :: _, _ => .error .literal
  | f + 1, c :: t, acc => stringLit f t (c.toNat % 256 :: acc)
  | _ + 1, [], _ => .error .literal

/-! ### Lines -/
/-- The signs of the grammar. -/
def signs : List Char := ".:,[]()+-*/%&^|~!=".toList
/-- The tokens of a line (R23, R24), after those already read. -/
def lexFrom : Nat → List Char → List Tok → Except Why (List Tok)
  | 0, _, acc => .ok acc.reverse
  | _ + 1, [], acc => .ok acc.reverse
  | f + 1, c :: t, acc =>
    if c == ' ' || c == '\t' then lexFrom f t acc
    else if c == ';' || (c == '/' && t.head? == some '/') then .ok acc.reverse
    else if c == '"' then
      match stringLit (t.length + 1) t [] with
      | .ok (bs, r) => lexFrom f r (.str bs :: acc)
      | .error e => .error e
    else if isLetter c then
      let w := (c :: t).takeWhile fun c => isLetter c || isDigit c
      if 63 < w.length then .error .longName
      else lexFrom f ((c :: t).dropWhile fun c => isLetter c || isDigit c) (.name w :: acc)
    else if isDigit c then
      match number (c :: t) with
      | (.ok x, r) => lexFrom f r (x :: acc)
      | (.error e, _) => .error e
    else if (c == '<' || c == '>') && t.head? == some c then lexFrom f (t.drop 1) (.sign c :: acc)
    else if signs.contains c then lexFrom f t (.sign c :: acc)
    else .error .character
/-- The tokens of one line. -/
def lexLine (l : List Char) : Except Why (List Tok) :=
  if 1023 < l.length then .error .longLine else lexFrom (l.length + 1) l []
/-- The lines of a source file: each ends with LF or with CR LF (R22). Text behind the last line end is a line too
(DESIGN CHOICE, log 36). -/
def linesOf : List Char → List Char → List (List Char)
  | [], [] => []
  | [], acc => [acc.reverse]
  | '\r' :: '\n' :: t, acc => acc.reverse :: linesOf t []
  | '\n' :: t, acc => acc.reverse :: linesOf t []
  | c :: t, acc => linesOf t (c :: acc)

end Sys2Proof.Tras
end

