-- ==== Sys2Proof/Machine/AsmExpr.lean ====
section
/-! DEFINITION. The assembly language, its expressions (R43 to R45) and its floats (R25, R39, R44): 64-bit two's
complement that wraps, and rounding to the formats, nearest-even. -/
namespace Sys2Proof.Tras
open Sys2Proof.Machine

/-! ### Floats -/
/-- A float literal or a float special. -/
inductive Flt where
  | num (neg : Bool) (m : Nat) (e : Int)
  | inf (neg : Bool)
  | nan
deriving DecidableEq, Repr
/-- A power of ten, with exponents beyond every format's reach held where they are still beyond it (DEDUCED, log 36). -/
def pow10 (e : Int) : Nat := 10 ^ (min e.natAbs 3000)
/-- The exact value of ±m·10^e to far more bits than any format keeps. -/
def fltEx (neg : Bool) (m : Nat) (e : Int) : Ex :=
  if 0 ≤ e then ⟨neg, m * pow10 e, 0, false⟩
  else
    let k := Nat.log2 (pow10 e) + 1300
    ⟨neg, m * 2 ^ k / pow10 e, -k, m * 2 ^ k % pow10 e != 0⟩
/-- A finite value in a format; one that overflows is an error. -/
def finiteBits (f : Fmt) (x : Ex) : Except Why Nat :=
  let r := roundF f rne false x
  if r.2 &&& fOF != 0 then .error .overflow else .ok r.1
/-- A float in a format (R39, R44): the specials give the format's infinities and its canonical NaN. -/
def fltBits (f : Fmt) : Flt → Except Why Nat
  | .num neg m e => finiteBits f (fltEx neg m e)
  | .inf neg => .ok (infPat f neg)
  | .nan => .ok (canonNan f)
/-- An integer converted to a format (R44). -/
def intFltBits (f : Fmt) (v : Int) : Except Why Nat := finiteBits f (exOf v 0)
/-- A float at the front of some tokens, and what follows it. -/
def takeFlt : List Tok → Option (Flt × List Tok)
  | .sign '-' :: .flt m e :: t => some (.num true m e, t)
  | .sign '+' :: .flt m e :: t => some (.num false m e, t)
  | .flt m e :: t => some (.num false m e, t)
  | .sign '-' :: .name s :: t => if s == "inf".toList then some (.inf true, t) else none
  | .name s :: t =>
    if s == "inf".toList then some (.inf false, t) else if s == "nan".toList then some (.nan, t) else none
  | _ => none
/-- The formats of the functions and of the directives. -/
def fmtOf (s : Txt) : Option Fmt :=
  if isWord "F32" s then some fp32 else if isWord "BF16" s then some bf16 else if isWord "F16" s then some fp16
  else if isWord "F64" s then some fp64 else none

/-! ### Integers (R43) -/
/-- A value modulo 2^64, read as two's complement. -/
def wrap64 (v : Int) : Int := (BitVec.ofInt 64 v).toInt
/-- A binary operation. The remainder of -2^63 by -1 is an error, as the quotient is (DESIGN CHOICE, log 36). -/
def binary (op : Char) (a b : Int) : Except Why Int :=
  let x := BitVec.ofInt 64 a
  let y := BitVec.ofInt 64 b
  match op with
  | '*' => .ok (wrap64 (a * b))
  | '/' => if b = 0 ∨ (a = -(2 ^ 63) ∧ b = -1) then .error .arithmetic else .ok (wrap64 (a.tdiv b))
  | '%' => if b = 0 ∨ (a = -(2 ^ 63) ∧ b = -1) then .error .arithmetic else .ok (wrap64 (a.tmod b))
  | '+' => .ok (wrap64 (a + b))
  | '-' => .ok (wrap64 (a - b))
  | '<' => if b < 0 ∨ 63 < b then .error .arithmetic else .ok (wrap64 (a * 2 ^ b.toNat))
  | '>' => if b < 0 ∨ 63 < b then .error .arithmetic else .ok (a / 2 ^ b.toNat)
  | '&' => .ok (x &&& y).toInt
  | '^' => .ok (x ^^^ y).toInt
  | '|' => .ok (x ||| y).toInt
  | _ => .error .grammar
/-- The operators of each row of R43, from the loosest. -/
def row : Nat → List Char
  | 0 => ['|']
  | 1 => ['^']
  | 2 => ['&']
  | 3 => ['<', '>']
  | 4 => ['+', '-']
  | _ => ['*', '/', '%']
/-- The functions that take part of a value (R44). -/
def partOf (s : Txt) (v : Int) : Option Int :=
  let x := BitVec.ofInt 64 v
  if isWord "LO16" s then some (x.extractLsb' 0 16).toNat
  else if isWord "HI16" s then some (x.extractLsb' 16 16).toNat
  else if isWord "LO32" s then some (x.extractLsb' 0 32).toNat
  else if isWord "HI32" s then some (x.extractLsb' 32 32).toNat
  else none
/-- The functions of R44 that round to a format. -/
def fltFun (s : Txt) : Option Fmt := if isWord "F64" s then none else fmtOf s
/-- Where evaluation stands: at a row of operators, or after a first operand of it. -/
inductive At where
  | row (n : Nat)
  | more (n : Nat) (v : Int)
deriving DecidableEq, Repr
/-- EVALUATION, with a bound on its depth: the value and what follows. `look` gives a symbol's value, `dot` the counter. -/
def evalAt (look : Txt → Except Why Int) (dot : Int) : Nat → At → List Tok → Except Why (Int × List Tok)
  | 0, _, _ => .error .grammar
  | f + 1, .more n v, ts =>
    match ts with
    | .sign c :: t =>
      if (row n).contains c then do
        let (w, r) ← evalAt look dot f (.row (n + 1)) t
        let x ← binary c v w
        evalAt look dot f (.more n x) r
      else .ok (v, ts)
    | _ => .ok (v, ts)
  | f + 1, .row n, ts =>
    if n < 6 then do
      let (v, r) ← evalAt look dot f (.row (n + 1)) ts
      evalAt look dot f (.more n v) r
    else
      match ts with
      | .sign '-' :: t => do
        let (v, r) ← evalAt look dot f (.row 6) t
        .ok (wrap64 (-v), r)
      | .sign '~' :: t => do
        let (v, r) ← evalAt look dot f (.row 6) t
        .ok (wrap64 (-v - 1), r)
      | .sign '.' :: t => .ok (wrap64 dot, t)
      | .int v :: t => .ok (wrap64 v, t)
      | .sign '(' :: t => do
        let (v, r) ← evalAt look dot f (.row 0) t
        match r with
        | .sign ')' :: r => .ok (v, r)
        | _ => .error .grammar
      | .name s :: .sign '(' :: t =>
        match fltFun s, takeFlt t with
        | some g, some (x, .sign ')' :: r) => do
          let b ← fltBits g x
          .ok (b, r)
        | fm, _ => do
          let (v, r) ← evalAt look dot f (.row 0) t
          match r with
          | .sign ')' :: r =>
            match fm, partOf s v with
            | some g, _ => do
              let b ← intFltBits g v
              .ok (b, r)
            | none, some x => .ok (x, r)
            | none, none => .error .grammar
          | _ => .error .grammar
      | .name s :: t => do
        let v ← look s
        .ok (wrap64 v, t)
      | _ => .error .grammar
/-- The value of an expression that fills its tokens. -/
def evalExpr (look : Txt → Except Why Int) (dot : Int) (ts : List Tok) : Except Why Int := do
  let (v, r) ← evalAt look dot (10 * ts.length + 20) (.row 0) ts
  if r.isEmpty then .ok v else .error .grammar

/-! ### Fields (R30) -/
/-- The three ways a field takes a value. -/
inductive Fit where | signed | unsigned | modulo
deriving DecidableEq, Repr
/-- A value in a field of n bits, or an error: `tras` never truncates. -/
def fit (k : Fit) (n : Nat) (v : Int) : Except Why Nat :=
  let lo : Int := match k with
    | .unsigned => 0
    | _ => -(2 ^ (n - 1) : Nat)
  let hi : Int := match k with
    | .signed => (2 ^ (n - 1) : Nat) - 1
    | _ => (2 ^ n : Nat) - 1
  if lo ≤ v ∧ v ≤ hi then .ok (v % (2 ^ n : Nat)).toNat else .error .range

end Sys2Proof.Tras
end

