-- ==== Sys2Proof/Machine/AsmTable.lean ====
section
/-! DEFINITION. The assembly language, its table of instructions: the words of each mnemonic (R61, R64), its qualifiers by
class (R32), where its operands go, the names of registers (R27) and control registers (R209), and the keywords (R24). -/
namespace Sys2Proof.Tras
open Sys2Proof.Machine

/-- A class of qualifiers (R32): its words with the field values, where the field lies, and the value when omitted;
`none` marks a required class. -/
structure QClass where
  words : List (String × Nat)
  lsb : Nat
  dflt : Option Nat
deriving DecidableEq, Repr

/-- One operand as it is written. A register's place is 0 for d or t, 1 for a, 2 for b. -/
inductive Opd where
  | reg (place : Nat)
  | mem
  | pred (lsb : Nat)
  | imm (lsb width : Nat) (k : Fit)
  | ctl
deriving DecidableEq, Repr

/-- A mnemonic: the word with every field 0, whether its registers stand at 14, 7 and 0 or at 17 and 10, its qualifiers,
and its operands, which may depend on the qualifiers in the word. -/
structure Mnem where
  name : String
  base : Nat
  low : Bool
  quals : List QClass
  opds : Word → List Opd

/-! ### Qualifiers -/
/-- Words with the codes 0, 1, 2, …; an empty word names nothing. -/
def codes (ws : List String) : List (String × Nat) :=
  (ws.zip (rangeFrom 0 ws.length)).filter fun x => x.1 != ""
/-- Sub-operations in the field m. -/
def subM (ws : List String) (d : Option Nat := none) : QClass := ⟨codes ws, 21, d⟩
def qRound (lsb : Nat) : QClass := ⟨codes ["RN", "RZ", "RD", "RU", "RA", "RO", "RS", "RDYN"], lsb, some 0⟩
def qSize : QClass := ⟨codes ["B8", "B16", "B32", "B64"], 8, some 2⟩
def qSize64 : QClass := ⟨codes ["B32", "B64"], 9, some 0⟩
def qLoad : QClass := ⟨codes ["NORMAL", "EF", "RETAIN", "NOL1"], 6, some 0⟩
def qStore : QClass := ⟨[("NT", 3)], 6, some 0⟩
def qLds : QClass := ⟨codes ["SP", "XFRONT", "AB", "CB"], 6, some 0⟩
def qSts : QClass := ⟨codes ["SP", "XREMOTE", "AB", "CB"], 6, some 0⟩
def qSpace (lsb : Nat) : QClass := ⟨codes ["GLOBAL", "SP"], lsb, some 0⟩
def qScope (lsb : Nat) : QClass := ⟨codes ["W", "B", "C", "D", "P"], lsb, none⟩
def qAtomTy : QClass := ⟨codes ["B32", "B64", "F32"], 0, some 0⟩
def qUse : QClass := ⟨codes ["PLAIN", "UNPAIRED", "COMM", "NONORD", "QUANTUM", "SPEC"], 7, some 0⟩
def qAop : QClass :=
  ⟨codes ["ADD", "MIN_S", "MAX_S", "MIN_N", "MAX_N", "AND", "OR", "XOR", "EXCH", "CAS", "", "", "FADD"], 3, none⟩
def qSat : QClass := ⟨[("SAT", 1)], 6, some 0⟩
def qConv : QClass :=
  ⟨codes ["F32_BF16", "F32_F16", "BF16_F32", "F16_F32", "F32_E4M3", "F32_E5M2", "E4M3_F32", "E5M2_F32", "F32_F4X",
    "F4X_F32", "F32_S32", "F32_N32", "S32_F32", "N32_F32", "F64_F32", "F32_F64", "F64_S32", "S32_F64", "XA48_F32",
    "F32_XA48", "XA48_F64"], 0, none⟩
/-- The conditions of R62. -/
def wCond : List String := ["EQ", "NE", "LT_S", "LE_S", "LT_N", "LE_N", "GT_S", "GT_N"]
/-- The conditions of FSET and DSET. -/
def wFcond : List String := ["EQ", "NE", "LT", "LE", "GT", "GE", "UNORD", "ORD"]
/-- The reduction kinds of R63. -/
def wRed : List String := ["ADD_B32", "ADD_F32", "MIN_S32", "MAX_S32", "MIN_N32", "MAX_N32", "AND", "OR"]
/-- The operations of R66. -/
def wGalu : List String := ["ADD", "SUB", "AND", "OR", "XOR", "SHL", "SHR", "MUL"]

/-! ### Instructions -/
/-- The first word of an opcode: set and opcode. -/
def baseOf (g : Bool) (op : Nat) : Nat := (if g then 2 ^ 31 else 0) + op * 2 ^ 24
/-- A lane instruction of format LR. -/
def lr (name : String) (op : Nat) (qs : List QClass) (os : List Opd) : Mnem := ⟨name, baseOf false op, true, qs, fun _ => os⟩
/-- A lane instruction whose registers stand at 17 and 10. -/
def lw (name : String) (op : Nat) (qs : List QClass) (os : List Opd) : Mnem := ⟨name, baseOf false op, false, qs, fun _ => os⟩
/-- A group instruction of format GR or GE. -/
def gr (name : String) (op : Nat) (qs : List QClass) (os : List Opd) : Mnem := ⟨name, baseOf true op, true, qs, fun _ => os⟩
/-- A group instruction of format GI. -/
def gi (name : String) (op : Nat) (qs : List QClass) (os : List Opd) : Mnem := ⟨name, baseOf true op, false, qs, fun _ => os⟩
/-- d, a, b. -/
def dab : List Opd := [.reg 0, .reg 1, .reg 2]
/-- d, a. -/
def da : List Opd := [.reg 0, .reg 1]
/-- A predicate at d, then a, b. -/
def pab : List Opd := [.pred 14, .reg 1, .reg 2]
/-- The field m of a word. -/
def mOf (w : Word) : Nat := (fM w).toNat

/-- The arithmetic instructions (07_lane_arith_instructions.md). -/
def arith : List Mnem :=
  [lr "IADD" 0x01 [subM ["WRAP", "SAT_S", "SAT_N"] (some 0)] dab, lr "ISUB" 0x02 [subM ["WRAP", "SAT_S", "SAT_N"] (some 0)] dab,
   lr "IMUL" 0x03 [subM ["LO", "HI_S", "HI_N"] (some 0)] dab, lr "IMAD" 0x04 [subM ["LO", "HI_S", "HI_N"] (some 0)] dab,
   lr "IMNMX" 0x05 [subM ["MIN_S", "MAX_S", "MIN_N", "MAX_N"]] dab,
   lr "LOP" 0x06 [subM ["AND", "OR", "XOR", "ANDN", "ORN", "XNOR"]] dab,
   lr "SHF" 0x07 [subM ["SHL", "SHR_N", "SHR_S", "ROL", "ROR"]] dab,
   lr "IUNA" 0x08 [subM ["POPC", "CLZ", "CTZ", "BREV", "ABS_S", "NEG", "NOT"]] da,
   lr "BFE" 0x09 [subM ["N", "S"] (some 0)] dab, lr "BFI" 0x0A [] dab, lr "ISET" 0x0B [subM wCond] pab,
   lr "SEL" 0x0C [] [.reg 0, .pred 21, .reg 1, .reg 2], lr "LEA" 0x0D [] [.reg 0, .reg 1, .reg 2, .imm 21 3 .unsigned],
   lr "IADD64" 0x0E [subM ["ADD", "SUB"] (some 0)] dab, lr "IDIV" 0x0F [subM ["DIV_S", "DIV_N", "REM_S", "REM_N"]] dab] ++
  [lw "IADDI" 0x10 [] [.reg 0, .reg 1, .imm 0 10 .signed], lw "ANDI" 0x11 [] [.reg 0, .reg 1, .imm 0 10 .signed],
   lw "ORI" 0x12 [] [.reg 0, .reg 1, .imm 0 10 .signed], lw "XORI" 0x13 [] [.reg 0, .reg 1, .imm 0 10 .signed],
   lw "SHLI" 0x14 [] [.reg 0, .reg 1, .imm 0 5 .unsigned], lw "SHRI" 0x15 [] [.reg 0, .reg 1, .imm 0 5 .unsigned],
   lw "MOVL" 0x16 [] [.reg 0, .imm 0 16 .modulo], lw "MOVH" 0x17 [] [.reg 0, .imm 0 16 .modulo],
   lw "ISETI" 0x18 [subM wCond] [.pred 17, .reg 1, .imm 0 10 .signed], lr "MOV" 0x19 [] da,
   { lr "PLOP" 0x1A [subM ["AND", "OR", "XOR", "ANDN", "NOT"]] [] with
     opds := fun w => if mOf w = 4 then [.pred 14, .pred 7] else [.pred 14, .pred 7, .pred 0] }] ++
  [lr "FADD" 0x20 [qRound 21] dab, lr "FSUB" 0x21 [qRound 21] dab, lr "FMUL" 0x22 [qRound 21] dab, lr "FFMA" 0x23 [qRound 21] dab,
   lr "FMNMX" 0x24 [subM ["MIN", "MAX", "MINNUM", "MAXNUM"]] dab, lr "FSET" 0x25 [subM wFcond] pab,
   lr "DADD" 0x26 [qRound 21] dab, lr "DMUL" 0x27 [qRound 21] dab, lr "DFMA" 0x28 [qRound 21] dab, lr "BFMA2" 0x29 [qRound 21] dab,
   lr "HFMA2" 0x2A [qRound 21] dab, lr "FDOT2" 0x2B [qRound 21] dab,
   lr "SFU" 0x2C [subM ["RCP", "RSQ", "SQRT", "EX2", "LG2", "SIN2PI", "COS2PI", "TANH"], qRound 0] da,
   lr "DSFU" 0x2D [subM ["RCP", "RSQ", "SQRT"], qRound 0] da, lr "CVT" 0x2E [qConv, qSat, qRound 21] da, lr "PRMT" 0x2F [] dab,
   lr "DSET" 0x30 [subM wFcond] pab, lr "FCLS" 0x31 [subM ["F32", "F64"]] da,
   { lr "SHFL" 0x34 [subM ["IDX", "UP", "DOWN", "XOR", "BCAST"]] [] with opds := fun w => if mOf w = 4 then da else dab },
   lr "VOTE" 0x35 [subM ["ANY", "ALL", "BALLOT", "COUNT"]] da, lr "MATCH" 0x36 [] [.reg 0, .reg 1, .pred 0],
   lr "RED" 0x37 [subM wRed] da]
/-- The memory instructions of the lane set (08_lane_control_memory_instructions.md). -/
def memory : List Mnem :=
  [lw "LDG" 0x38 [qSize, qLoad] [.reg 0, .mem], lw "STG" 0x39 [qSize, qStore] [.mem, .reg 0], lw "LDS" 0x3A [qSize, qLds] [.reg 0, .mem],
   lw "STS" 0x3B [qSize, qSts] [.mem, .reg 0], lw "LDA" 0x3C [qSize64, qScope 6, qSpace 5] [.reg 0, .mem],
   lw "STL" 0x3D [qSize64, qScope 6, qSpace 5] [.mem, .reg 0], lw "ATOM" 0x3E [qAop, qAtomTy, qUse, qSpace 2] [.reg 0, .mem],
   { lw "LDR" 0x3F [qSize, ⟨codes ["RO", "USE"], 6, none⟩] [] with
     opds := fun w => if w.getLsbD 6 then [.reg 0, .mem, .imm 0 5 .unsigned, .imm 5 1 .unsigned] else [.reg 0, .mem] }]
/-- The group set (08, 15, 17, 20, 23). A branch's guard and target are written apart. -/
def group : List Mnem :=
  [gr "NOP" 0x00 [] [], gr "BRA" 0x01 [] [], gr "BRAY" 0x02 [] [], gr "CALL" 0x03 [] [], gr "JOIN" 0x04 [] [.reg 1],
   gr "CALLI" 0x05 [] [.reg 1], gr "BRAI" 0x06 [] [.reg 1], gr "RET" 0x07 [] [.reg 1], gr "EXIT" 0x08 [] [], gr "REFILL" 0x09 [] [.reg 1],
   gr "REGION" 0x0A [] [], gi "TRAP" 0x0B [] [.imm 0 17 .modulo], gi "BPT" 0x0C [] [.imm 0 17 .modulo],
   gr "WAITM" 0x0D [subM wCond] [.mem, .reg 2], gr "BAR" 0x10 [subM ["B", "C"] (some 0)] [],
   { gr "BARX" 0x11 [subM ["INIT", "ARRIVE", "ARRIVE_EXPECT", "EXPECT", "TEST", "WAIT"]] [] with
     opds := fun w => if mOf w = 1 then [.mem] else if 4 ≤ mOf w then [.reg 0, .mem, .reg 2] else [.mem, .reg 2] },
   gr "FENCE" 0x12 [qScope 21, ⟨codes ["", "ACQ", "REL", "ACQ_REL"], 0, none⟩] [], gr "DRAIN" 0x13 [qScope 21] [],
   gr "ROINV" 0x14 [] [], gr "GMOV" 0x15 [] da, gr "GALU" 0x16 [subM wGalu (some 0)] dab,
   gi "GALUI" 0x17 [⟨codes wGalu, 14, none⟩] [.reg 0, .imm 0 14 .unsigned], gi "GMOVL" 0x18 [] [.reg 0, .imm 0 17 .modulo],
   gi "GMOVH" 0x19 [] [.reg 0, .imm 0 17 .modulo], gr "GRED" 0x1A [subM wRed] da, gr "GSET" 0x1B [subM wCond] pab] ++
  [gi "GETC" 0x1C [] [.reg 0, .ctl], gi "SETC" 0x1D [] [.ctl, .reg 0], gr "CLK" 0x1E [] [.reg 0], gr "FREE" 0x1F [] dab,
   gr "REGGIVE" 0x20 [] [.imm 0 7 .unsigned], gr "REGCLAIM" 0x21 [] [.imm 0 7 .unsigned],
   gr "CPWP" 0x28 [] [.reg 0, .imm 21 3 .unsigned], gr "CPWAIT" 0x29 [] [.reg 0, .reg 1, .imm 21 3 .unsigned],
   gr "MXPOST" 0x2A [] [.reg 0, .mem], gr "MXSTAT" 0x2B [] da, gr "TKPOST" 0x2C [] [.reg 0, .mem],
   gr "TKSIG" 0x2D [subM ["SIGNAL", "SET"]] [.reg 1, .reg 2], gr "TKJOIN" 0x2E [] da,
   gr "CPSTAT" 0x2F [] [.reg 0, .imm 21 3 .unsigned], gr "WDQ" 0x30 [] [.reg 0, .mem, .reg 2],
   gr "TKREAD" 0x31 [subM ["VALUE", "FAIL"]] da, gr "CXPOST" 0x32 [] [.reg 0, .mem], gr "CXSTAT" 0x33 [] da,
   gr "CXRESET" 0x34 [] [.reg 1]]
/-- Every mnemonic. -/
def mnems : List Mnem := arith ++ memory ++ group
/-- The entry of a mnemonic. -/
def mnemOf (s : Txt) : Option Mnem := mnems.find? fun m => isWord m.name s

/-! ### Names -/
/-- A number written in decimal without leading zeros, below n. -/
def numBelow (n : Nat) (l : List Char) : Option Nat :=
  let v := digitsVal 10 l
  if l.all isDigit && !l.isEmpty && (l.length == 1 || l.head? != some '0') && decide (v < n) then some v else none
/-- The operand code of a register's spelling (R27). -/
def regCode (s : Txt) : Option Nat :=
  if isWord "LR" s then some 87 else if isWord "Z" s then some 124 else if isWord "LID" s then some 125
  else if isWord "PCV" s then some 126
  else match up s with
    | 'V' :: t => numBelow 88 t
    | 'S' :: t => (numBelow 4 t).map (88 + ·)
    | 'W' :: t => (numBelow 16 t).map (92 + ·)
    | 'B' :: t => (numBelow 8 t).map (108 + ·)
    | 'C' :: t => (numBelow 4 t).map (116 + ·)
    | 'G' :: t => (numBelow 4 t).map (120 + ·)
    | _ => none
/-- The number of a predicate (R27). -/
def predNo (s : Txt) : Option Nat :=
  match up s with
  | 'P' :: t => numBelow 8 t
  | _ => none
/-- The control registers and their indices (R209). -/
def ctlNames : List (String × Nat) :=
  codes ["WARPIDX", "BLKX", "BLKY", "BLKZ", "CLUSTERIDX", "GRIDID", "CORE", "QUAD", "DEVICE", "ROLE", "FPFLAGS", "FAULT",
    "FADDR", "RETIRED", "MODE", "BPHASE", "LIVEMASK", "PARKMASK", "PART"] ++
  [("RINGBASE", 0x20), ("RINGSIZE", 0x21), ("QUOTA", 0x22), ("MXGOV", 0x30), ("FRM", 0xA1)]
/-- The directives (R37, R39, R40, R42). -/
def directives : List String :=
  ["TEXT", "DATA", "SCRATCH", "ORG", "ALIGN", "ZERO", "B8", "B16", "B32", "B64", "F16", "BF16", "F32", "F64", "ASCII", "EQU",
   "KERNEL", "ENDK", "WARPS", "REGS", "HANDLER", "MODE", "BUFFER", "LAUNCH"]
/-- A name that no symbol may match, in any mix of capitals (R24). -/
def isKeyword (s : Txt) : Bool :=
  (regCode s).isSome || (predNo s).isSome || (mnemOf s).isSome ||
  (["PARK", "LO16", "HI16", "LO32", "HI32", "F32", "BF16", "F16"] ++ directives ++ ctlNames.map (·.1)).any (fun w => isWord w s) ||
  mnems.any fun m => m.quals.any fun q => q.words.any fun w => isWord w.1 s

end Sys2Proof.Tras
end

