-- ==== Sys2Proof/Machine/AsmInstr.lean ====
section
/-! DEFINITION. The assembly language, from an instruction's tokens to its word (R26 to R36): operands, memory operands,
branch targets, qualifiers, guards, the park mark, and the refusals of R35. -/
namespace Sys2Proof.Tras
open Sys2Proof.Machine

/-! ### What each register position takes (R55, R56) -/
/-- A register position of an instruction: its code, whether its class accepts it, whether it is a pair, and how many
registers it names. -/
structure RegPos where
  place : Nat
  code : Reg
  ok : Bool
  pair : Bool
  count : Nat
deriving DecidableEq, Repr
/-- A single register. -/
def one (place : Nat) (code : Reg) (ok : Bool) : RegPos := ⟨place, code, ok, false, 1⟩
/-- A pair. -/
def two (place : Nat) (code : Reg) (ok : Bool) : RegPos := ⟨place, code, ok && evenCode code, true, 2⟩
/-- A position that is a pair where `p` holds. -/
def oneOrTwo (p : Bool) (place : Nat) (code : Reg) (ok : Bool) : RegPos := if p then two place code ok else one place code ok
/-- d, a and b of the lane set. -/
def lane3 (d a b : Reg) : List RegPos := [one 0 d (laneDst d), one 1 a (laneSrc a), one 2 b (laneSrc b)]
/-- d and a of the lane set. -/
def lane2 (d a : Reg) : List RegPos := [one 0 d (laneDst d), one 1 a (laneSrc a)]
/-- The positions of a memory instruction of the lane set; the base of a global access is a pair (R29). -/
def memPos (dst glob wide : Bool) (t a : Reg) : List RegPos :=
  [oneOrTwo wide 0 t (if dst then laneDst t else laneSrc t), oneOrTwo glob 1 a (laneSrc a)]
/-- The position t of an ATOM: .cas names the compare and the new values (R189) (DEDUCED, log 36). -/
def atomPos (aop : Aop) (b64 : Bool) (t : Reg) : RegPos :=
  ⟨0, t, atomT aop b64 t, b64, (if b64 then 2 else 1) * (if aop = .cas then 2 else 1)⟩
/-- THE REGISTER POSITIONS of an instruction, with the class that its entry gives each. -/
def positions : Instr → List RegPos
  | .iadd _ _ d a b | .isub _ _ d a b | .imul _ _ d a b | .imad _ _ d a b | .imnmx _ _ d a b | .lop _ _ d a b
  | .shf _ _ d a b | .bfe _ _ d a b | .bfi _ d a b | .sel _ _ d a b | .lea _ _ d a b | .idiv _ _ d a b
  | .fadd _ _ d a b | .fsub _ _ d a b | .fmul _ _ d a b | .ffma _ _ d a b | .fmnmx _ _ d a b | .bfma2 _ _ d a b
  | .hfma2 _ _ d a b | .fdot2 _ _ d a b | .prmt _ d a b => lane3 d a b
  | .shfl _ m d a b => if m = .bcast then lane2 d a else lane3 d a b
  | .iuna _ _ d a | .mov _ d a | .sfu _ _ _ d a | .vote _ _ d a | .matchv _ d a _ | .iaddi _ d a _ | .andi _ d a _
  | .ori _ d a _ | .xori _ d a _ | .shli _ d a _ | .shri _ d a _ => lane2 d a
  | .movl _ d _ | .movh _ d _ => [one 0 d (laneDst d)]
  | .iset _ _ _ a b | .fset _ _ _ a b => [one 1 a (laneSrc a), one 2 b (laneSrc b)]
  | .dset _ _ _ a b => [two 1 a true, two 2 b true]
  | .iseti _ _ _ a _ => [one 1 a (laneSrc a)]
  | .iadd64 _ _ d a b | .dadd _ _ d a b | .dmul _ _ d a b | .dfma _ _ d a b => [two 0 d true, two 1 a true, two 2 b true]
  | .dsfu _ _ _ d a => [two 0 d true, two 1 a true]
  | .cvt _ _ c _ d a => [oneOrTwo (cvtPairs c).2 0 d (laneDst d), oneOrTwo (cvtPairs c).1 1 a (laneSrc a)]
  | .fcls _ f64 d a => [one 0 d (laneDst d), oneOrTwo f64 1 a (laneSrc a)]
  | .red _ _ d a => [one 0 d (redTgt d), one 1 a (laneSrc a)]
  | .ldg _ sz _ t a _ | .ldrRo _ sz t a _ | .ldrUse _ sz _ _ t a => memPos true true (sz == .b64) t a
  | .stg _ sz _ t a _ => memPos false true (sz == .b64) t a
  | .lds _ sz _ t a _ => memPos true false (sz == .b64) t a
  | .sts _ sz _ t a _ => memPos false false (sz == .b64) t a
  | .lda _ b64 _ sp t a _ => memPos true (!sp) b64 t a
  | .stl _ b64 _ sp t a _ => memPos false (!sp) b64 t a
  | .atom _ aop _ ty sp t a => [atomPos aop (ty == .b64) t, oneOrTwo (!sp) 1 a (laneSrc a)]
  | .join _ a | .calli _ a | .brai _ a | .ret _ a => [one 1 a (laneTgt a)]
  | .refill _ a | .cxreset _ a => [one 1 a (uniCode a)]
  | .waitm _ _ a b => [two 1 a (uniCode a), one 2 b (uniCode b)]
  | .barx _ op d a b =>
    (if op = .test ∨ op = .wait then [one 0 d (uniCode d)] else []) ++ [two 1 a (uniCode a)] ++
      (if op = .arrive then [] else [one 2 b (uniCode b)])
  | .gmov _ d a => [one 0 d (uniCode d), one 1 a (uniCode a)]
  | .galu _ _ d a b => [one 0 d (uniCode d), one 1 a (uniCode a), one 2 b (uniCode b)]
  | .galui _ _ d _ | .gmovl _ d _ | .gmovh _ d _ | .cpwp _ _ d => [one 0 d (uniCode d)]
  | .gred _ _ d a => [one 0 d (gredTgt d), one 1 a (uniCode a)]
  | .gset _ _ _ a b | .tksig _ _ a b => [one 1 a (uniCode a), one 2 b (uniCode b)]
  | .getc _ d x => [oneOrTwo (x.toNat == 0x0C) 0 d (uniCode d)]
  | .setc _ d _ => [one 0 d false]
  | .setcRole _ d | .setcFpflags _ d | .setcRingbase _ d | .setcRingsize _ d | .setcQuota _ d | .setcFrm _ d =>
    [one 0 d (uniCode d)]
  | .clk _ d | .cpstat _ _ d => [two 0 d (uniCode d)]
  | .free _ d a b => [one 0 d (freeCode d), one 1 a (freeCode a), one 2 b (freeCode b)]
  | .cpwait _ _ d a => [one 0 d (uniCode d), one 1 a (uniCode a)]
  | .mxpost _ d a | .tkpost _ d a | .cxpost _ d a => [one 0 d (warpOrZ d), two 1 a (uniCode a)]
  | .mxstat _ d a | .tkjoin _ d a | .tkread _ _ d a | .cxstat _ d a => [two 0 d (warpOrZ d), one 1 a (uniCode a)]
  | .wdq _ d a b => [one 0 d (uniCode d), two 1 a (uniCode a), two 2 b (uniCode b)]
  | _ => []
/-- The highest lane register that an instruction names, v87 apart, plus 1 (R40, R389). -/
def lanesNamed (i : Instr) : Nat :=
  ((positions i).flatMap fun p => rangeFrom p.code.toNat p.count).foldl
    (fun n c => if c < 87 ∧ n < c + 1 then c + 1 else n) 0

/-! ### Operands -/
/-- Operands are parted by commas outside brackets. -/
def splitOpds : Nat → List Tok → List Tok → List (List Tok)
  | _, [], acc => [acc.reverse]
  | 0, .sign ',' :: t, acc => acc.reverse :: splitOpds 0 t []
  | n, .sign '[' :: t, acc => splitOpds (n + 1) t (.sign '[' :: acc)
  | n, .sign '(' :: t, acc => splitOpds (n + 1) t (.sign '(' :: acc)
  | n, .sign ']' :: t, acc => splitOpds (n - 1) t (.sign ']' :: acc)
  | n, .sign ')' :: t, acc => splitOpds (n - 1) t (.sign ')' :: acc)
  | n, x :: t, acc => splitOpds n t (x :: acc)
/-- The operands of a statement; none may be empty. -/
def operandsOf (ts : List Tok) : Except Why (List (List Tok)) :=
  if ts.isEmpty then .ok [] else
    let l := splitOpds 0 ts []
    if l.any (·.isEmpty) then .error .grammar else .ok l
/-- A register or a pair: its code and whether it is written as a pair (R28). -/
def regOpd : List Tok → Except Why (Nat × Bool)
  | [.name x] =>
    match regCode x with
    | some c => .ok (c, false)
    | none => .error .operand
  | [.name x, .sign ':', .name y] =>
    match regCode x, regCode y with
    | some c, some c' => if c % 2 = 0 ∧ c' = c + 1 ∧ c < 124 then .ok (c, true) else .error .pair
    | _, _ => .error .operand
  | _ => .error .operand
/-- A predicate. -/
def predOpd : List Tok → Except Why Nat
  | [.name x] =>
    match predNo x with
    | some p => .ok p
    | none => .error .operand
  | _ => .error .operand
/-- The base and the byte offset of a memory operand (R26, R29). -/
def memOpd (ev : List Tok → Except Why Int) (ts : List Tok) : Except Why (Nat × Bool × Int) :=
  match ts.head?, ts.getLast? with
  | some (.sign '['), some (.sign ']') =>
    let inner := (ts.drop 1).dropLast
    let n := match inner with
      | _ :: .sign ':' :: _ => 3
      | _ => 1
    match regOpd (inner.take n) with
    | .error e => .error e
    | .ok (c, p) =>
      match inner.drop n with
      | [] => .ok (c, p, 0)
      | .sign '+' :: t => do
        let v ← ev t
        .ok (c, p, v)
      | .sign '-' :: t => do
        let v ← ev t
        .ok (c, p, -v)
      | _ => .error .operand
  | _, _ => .error .operand
/-- The offset field of a word with its qualifiers in place: the access size and the field's width (R29); width 0 accepts
offset 0 only. -/
def offsetField (w : Word) : Nat × Nat :=
  let op := (fOp w).toNat
  if w.getLsbD 31 then (1, 0)
  else if 0x38 ≤ op ∧ op ≤ 0x3B ∨ op = 0x3F ∧ !w.getLsbD 6 then (2 ^ (w.extractLsb' 8 2).toNat, 6)
  else if op = 0x3C ∨ op = 0x3D then (if w.getLsbD 9 then 8 else 4, 5)
  else (1, 0)
/-- The offset field's value. -/
def offsetBits (w : Word) (v : Int) : Except Why Nat :=
  let (s, n) := offsetField w
  if v % s ≠ 0 then .error .offset
  else if n = 0 then (if v = 0 then .ok 0 else .error .offset)
  else match fit .signed n (v / s) with
    | .ok x => .ok x
    | .error _ => .error .offset
/-- The place of a register field. -/
def regLsb (low : Bool) (place : Nat) : Nat := if low then 14 - 7 * place else 17 - 7 * place
/-- A register written in an operand: its place, whether as a pair, its code. -/
abbrev Named := Nat × Bool × Nat
/-- One operand into the word, and the register it names. -/
def putOpd (ev : List Tok → Except Why Int) (low : Bool) (o : Opd) (ts : List Tok) (w : Word) :
    Except Why (Word × List Named) :=
  let put (v lsb : Nat) : Word := w ||| BitVec.ofNat 32 (v * 2 ^ lsb)
  match o with
  | .reg pl => do
    let (c, p) ← regOpd ts
    .ok (put c (regLsb low pl), [(pl, p, c)])
  | .pred lsb => do
    let p ← predOpd ts
    .ok (put p lsb, [])
  | .mem => do
    let (c, p, v) ← memOpd ev ts
    let x ← offsetBits w v
    .ok (put c (regLsb low 1) ||| BitVec.ofNat 32 x, [(1, p, c)])
  | .imm lsb n k => do
    let v ← ev ts
    let x ← fit k n v
    .ok (put x lsb, [])
  | .ctl =>
    match ts with
    | [.name s] =>
      match ctlNames.find? fun x => isWord x.1 s with
      | some x => .ok (put x.2 0, [])
      | none => do
        let v ← ev ts
        let x ← fit .unsigned 17 v
        .ok (put x 0, [])
    | _ => do
      let v ← ev ts
      let x ← fit .unsigned 17 v
      .ok (put x 0, [])
/-- The operands in order. -/
def putOpds (ev : List Tok → Except Why Int) (low : Bool) : List Opd → List (List Tok) → Word → List Named →
    Except Why (Word × List Named)
  | [], [], w, ns => .ok (w, ns)
  | o :: os, t :: ts, w, ns => do
    let (w1, n1) ← putOpd ev low o t w
    putOpds ev low os ts w1 (ns ++ n1)
  | _, _, _, _ => .error .operand

/-! ### Qualifiers (R32) -/
/-- The qualifiers after a mnemonic, and the operands that follow them. -/
def quals : List Tok → List Txt × List Tok
  | .sign '.' :: .name s :: t => let r := quals t; (s :: r.1, r.2)
  | ts => ([], ts)
/-- Each class's value: its one qualifier, or its default; a qualifier of no class, or two of one class, is an error. -/
def qualBits (qs : List QClass) (ws : List Txt) : Except Why Word :=
  let hits (q : QClass) := ws.filterMap fun s => q.words.find? fun x => isWord x.1 s
  if ws.any fun s => !qs.any fun q => q.words.any fun x => isWord x.1 s then .error .qualifier
  else qs.foldlM (fun w q =>
    match hits q, q.dflt with
    | [x], _ => .ok (w ||| BitVec.ofNat 32 (x.2 * 2 ^ q.lsb))
    | [], some d => .ok (w ||| BitVec.ofNat 32 (d * 2 ^ q.lsb))
    | _, _ => .error .qualifier) 0
/-- The conversions on which .sat says something (R65). -/
def satConv (c : Nat) : Bool := [0x00, 0x01, 0x04, 0x05, 0x0E, 0x13].contains c

/-! ### Statements -/
/-- What R35 refuses of a word: ILLEGAL or OPERAND on every execution; and R28's pairs. -/
def checkWord (w : Word) (ns : List Named) : Except Why Instr :=
  match decodeWord w with
  | .error _ => .error .illegal
  | .ok i =>
    if !wellFormed i then .error .illegal
    else
      let ps := positions i
      let badPair := ns.any fun n => (ps.find? fun p => p.place == n.1).any fun p =>
        if n.2.1 then !p.pair else p.pair && n.2.2 != 124
      if badPair then .error .pair
      else if ps.any fun p => !p.ok then .error .badOperand
      else .ok i
/-- The guard and the target of a branch (R31, R33). -/
def branchBits (ev : List Tok → Except Why Int) (addr : Int) (os : List (List Tok)) : Except Why Nat :=
  let go (g : Nat) (t : List Tok) : Except Why Nat := do
    let v ← ev t
    if v % 4 ≠ 0 then .error .range
    else do
      let d ← fit .signed 20 ((v - (addr + 4)) / 4)
      .ok (g * 2 ^ 20 + d)
  match os with
  | [t] => go 7 t
  | [.sign '!' :: p, t] => do
    let n ← predOpd p
    go (8 + n) t
  | [p, t] => do
    let n ← predOpd p
    go n t
  | _ => .error .operand
/-- FREE fills the places it is not given with z (R216). -/
def fillFree (os : List (List Tok)) : List (List Tok) :=
  if os.isEmpty then os else os ++ List.replicate (3 - os.length) [.name ['z']]
/-- AN INSTRUCTION, its park mark apart. -/
def mnemWord (ev : List Tok → Except Why Int) (addr : Int) (m : Mnem) (ts : List Tok) : Except Why (Word × List Named) := do
  let q := quals ts
  let qw ← qualBits m.quals q.1
  let os ← operandsOf q.2
  let w : Word := BitVec.ofNat 32 m.base ||| qw
  if m.name = "BRA" ∨ m.name = "BRAY" ∨ m.name = "CALL" then do
    let x ← branchBits ev addr os
    .ok (w ||| BitVec.ofNat 32 x, [])
  else if m.name = "CVT" ∧ q.1.any (isWord "SAT") ∧ !satConv (w.extractLsb' 0 6).toNat then .error .qualifier
  else putOpds ev m.low (m.opds w) (if m.name = "FREE" then fillFree os else os) w []
/-- Whether a statement begins with `park` (R34), and the rest of it. -/
def parkOf (ts : List Tok) : Bool × List Tok :=
  match ts with
  | .name s :: t => if isWord "PARK" s then (true, t) else (false, ts)
  | _ => (false, ts)
/-- A word with its park mark, checked. -/
def parked (park : Bool) (x : Word × List Named) : Except Why (Word × Instr) :=
  let w := if park then x.1 ||| BitVec.ofNat 32 (2 ^ 30) else x.1
  match checkWord w x.2 with
  | .ok i => .ok (w, i)
  | .error e => .error e
/-- AN INSTRUCTION STATEMENT: its word, and the instruction that the word is. -/
def asmInstr (look : Txt → Except Why Int) (addr : Nat) (ts : List Tok) : Except Why (Word × Instr) :=
  match (parkOf ts).2 with
  | .name s :: t =>
    match mnemOf s with
    | none => .error .mnemonic
    | some m =>
      match mnemWord (evalExpr look addr) addr m t with
      | .ok x => parked (parkOf ts).1 x
      | .error e => .error e
  | _ => .error .grammar

end Sys2Proof.Tras
end

