-- ==== Sys2Proof/Machine/AsmFile.lean ====
section
/-! DEFINITION. The assembly language, from a source file to a load image (R22, R35 to R45, R389): sections and counters,
symbols, placement and data, kernels, and launch records in the layout of R378. Two passes: the first places every
statement, the second evaluates what may name symbols defined later. -/
namespace Sys2Proof.Tras
open Sys2Proof.Machine

/-- The three sections (R37). -/
inductive Sect where | text | data | scratch
deriving DecidableEq, Repr
/-- A value for each section. -/
structure Per where
  text : Nat
  data : Nat
  scratch : Nat
deriving DecidableEq, Repr
def Per.get (p : Per) : Sect → Nat
  | .text => p.text
  | .data => p.data
  | .scratch => p.scratch
def Per.set (p : Per) (s : Sect) (v : Nat) : Per :=
  match s with
  | .text => { p with text := v }
  | .data => { p with data := v }
  | .scratch => { p with scratch := v }

/-- Bytes that a statement places. -/
inductive Fill where
  | bytes (l : List Byte)
  | zeros (n : Nat)
deriving DecidableEq, Repr
def Fill.size : Fill → Nat
  | .bytes l => l.length
  | .zeros n => n
def Fill.toBytes : Fill → List Byte
  | .bytes l => l
  | .zeros n => List.replicate n 0

/-- What a placed statement leaves for the second pass. -/
inductive Late where
  | instr (ts : List Tok)
  | fill (f : Fill)
  /-- .b8 to .b64 of n bytes each -/
  | ints (n : Nat) (os : List (List Tok))
  /-- .f16 to .f64 -/
  | floats (f : Fmt) (n : Nat) (os : List (List Tok))
  | equ (name : Txt)
  | warps (ts : List (List Tok))
  | regs (ts : List (List Tok))
  | handler (ts : List (List Tok))
  | mode (ts : List (List Tok))
  | launch (ts : List (List Tok))
deriving DecidableEq, Repr
/-- A placed statement: its line, the counter at its start, and the kernel that it stands in. -/
structure Item where
  line : Nat
  addr : Nat
  kernel : Option Txt
  what : Late
deriving DecidableEq, Repr

/-- A kernel (R40, R41). -/
structure Kernel where
  name : Txt
  /-- the address of its first instruction, once there is one -/
  entry : Option Nat
  /-- the counter where it begins -/
  start : Nat
  /-- the directives that it has had -/
  seen : List Txt
  warps : Nat
  regs : Option Nat
  /-- one more than the highest lane register that its instructions name -/
  named : Nat
  handler : Nat
  det : Bool
  stream : Bool
  ab : Nat
  wb : Nat
  cb : Nat
deriving DecidableEq, Repr

/-- A kernel that begins at an address, with what is omitted (R40). -/
def Kernel.begin (name : Txt) (start : Nat) : Kernel :=
  { name := name, entry := none, start := start, seen := [], warps := 1, regs := none, named := 0, handler := 0, det := false,
    stream := false, ab := 0, wb := 0, cb := 0 }

/-- An error with its line (R35). -/
abbrev Err := Nat × Why

/-- The assembler between two lines. -/
structure Asm where
  sect : Sect
  ctr : Per
  /-- the end of the highest filled place of each section -/
  high : Per
  /-- the high-water mark of .scratch -/
  smax : Nat
  labels : List (Txt × Nat)
  /-- .equ: name, expression, the counter at its start -/
  equs : List (Txt × List Tok × Nat)
  /-- the values that were constant where they stood (R45) -/
  consts : List (Txt × Int)
  kernels : List Kernel
  open_ : Option Txt
  /-- filled intervals of .text -/
  code : List (Nat × Nat)
  items : List Item
  errs : List Err
deriving DecidableEq, Repr
/-- Before the first line: a file starts in .text (R37). -/
def Asm.init : Asm :=
  { sect := .text, ctr := ⟨0, 0, 0⟩, high := ⟨0, 0, 0⟩, smax := 0, labels := [], equs := [], consts := [], kernels := [],
    open_ := none, code := [], items := [], errs := [] }

/-- The value under a name in a list. -/
def named {α : Type} (l : List (Txt × α)) (s : Txt) : Option α := (l.find? fun x => x.1 == s).map (·.2)

/-! ### Symbols (R24, R40, R45) -/
/-- The kernel of a name. -/
def Asm.kernel (a : Asm) (s : Txt) : Option Kernel := a.kernels.find? fun k => k.name == s
/-- A label's value, or a kernel's entry. -/
def Asm.label (a : Asm) (s : Txt) : Option Int :=
  match a.kernel s with
  | some k => some (k.entry.getD k.start)
  | none => (named a.labels s).map fun v => (v : Int)
/-- A symbol where only those defined above count, and a .equ only if its own value was constant. -/
def Asm.above (a : Asm) (s : Txt) : Except Why Int :=
  if isKeyword s then .error .keyword else
  match a.label s, named a.consts s with
  | some v, _ => .ok v
  | none, some v => .ok v
  | none, none => if (named a.equs s).isSome then .error .notConstant else .error .undefinedSymbol
/-- A symbol once every line has been placed; the bound stops a chain of .equ that refers back to itself. -/
def Asm.value (a : Asm) : Nat → Txt → Except Why Int
  | 0, _ => .error .notConstant
  | f + 1, s =>
    if isKeyword s then .error .keyword else
    match a.label s, named a.equs s with
    | some v, _ => .ok v
    | none, some (ts, dot) => evalExpr (a.value f) dot ts
    | none, none => .error .undefinedSymbol
/-- A symbol in the second pass. -/
def Asm.look (a : Asm) : Txt → Except Why Int := a.value (a.equs.length + 1)
/-- A new symbol: no keyword, and not defined before (R24). -/
def Asm.fresh (a : Asm) (s : Txt) : Except Why Unit :=
  if isKeyword s then .error .keyword
  else if (a.label s).isSome || (named a.equs s).isSome then .error .twice
  else .ok ()

/-! ### The first pass: placement (R37 to R39) -/
def Asm.dot (a : Asm) : Nat := a.ctr.get a.sect
/-- Move the counter; that of .scratch stays within the scratchpad. -/
def Asm.setCtr (a : Asm) (v : Int) : Except Why Asm :=
  if v < 0 then .error .place
  else if a.sect = .scratch then
    if 262144 < v then .error .place
    else .ok { a with ctr := a.ctr.set a.sect v.toNat, smax := max a.smax v.toNat }
  else .ok { a with ctr := a.ctr.set a.sect v.toNat }
/-- Fill n bytes at the counter. -/
def Asm.fillTo (a : Asm) (n : Nat) : Except Why Asm := do
  let at_ := a.dot
  let b ← a.setCtr (at_ + n)
  .ok (if n = 0 then b else
    { b with high := b.high.set b.sect (max (b.high.get b.sect) (at_ + n)),
             code := if b.sect = .text then (at_, at_ + n) :: b.code else b.code })
/-- Keep a statement for the second pass. -/
def Asm.keep (a : Asm) (line at_ : Nat) (x : Late) : Asm := { a with items := ⟨line, at_, a.open_, x⟩ :: a.items }
/-- Place a statement of n bytes. -/
def Asm.put (a : Asm) (line n : Nat) (x : Late) : Except Why Asm := do
  let b ← a.fillTo n
  .ok (b.keep line a.dot x)
/-- The one operand of a directive, as a constant (R45). -/
def Asm.const1 (a : Asm) : List (List Tok) → Except Why Int
  | [t] => evalExpr a.above a.dot t
  | _ => .error .operand
/-- Change the open kernel. -/
def Asm.updKernel (a : Asm) (f : Kernel → Kernel) : Asm :=
  { a with kernels := a.kernels.map fun k => if a.open_ = some k.name then f k else k }
/-- The open kernel. -/
def Asm.current (a : Asm) : Option Kernel := a.open_.bind a.kernel
/-- NOP bytes from an address on: the padding of .text (R38). From an address that is no multiple of 4, byte i of the NOP word
lies at the addresses that are i modulo 4 (DESIGN CHOICE, log 36). -/
def nopBytes (at_ n : Nat) : List Byte := (rangeFrom at_ n).map fun i => if i % 4 = 3 then 0x80 else 0
/-- .align (R39). -/
def Asm.align (a : Asm) (line : Nat) (v : Int) : Except Why Asm :=
  if v < 1 ∨ 65536 < v ∨ 65536 % v.toNat ≠ 0 then .error .range
  else
    let pad := (v.toNat - a.dot % v.toNat) % v.toNat
    match a.sect with
    | .text => a.put line pad (.fill (.bytes (nopBytes a.dot pad)))
    | .data => a.put line pad (.fill (.zeros pad))
    | .scratch => a.fillTo pad
/-- .equ (R39, R45). -/
def Asm.equ (a : Asm) (line : Nat) : List (List Tok) → Except Why Asm
  | [[.name s], ts] => do
    a.fresh s
    let b := { a with equs := (s, ts, a.dot) :: a.equs }
    let c := match evalExpr a.above a.dot ts with
      | .ok v => { b with consts := (s, v) :: b.consts }
      | .error _ => b
    .ok (c.keep line a.dot (.equ s))
  | _ => .error .operand
/-- .kernel (R40). -/
def Asm.beginKernel (a : Asm) : List (List Tok) → Except Why Asm
  | [[.name s]] =>
    if a.sect ≠ .text ∨ a.open_.isSome then .error .kernel
    else do
      a.fresh s
      .ok { a with open_ := some s, kernels := a.kernels ++ [Kernel.begin s a.dot] }
  | _ => .error .operand
/-- A directive that may appear once in a kernel. -/
def Asm.once (a : Asm) (d : Txt) : Except Why Asm :=
  match a.current with
  | none => .error .kernel
  | some k => if k.seen.contains d then .error .kernel else .ok (a.updKernel fun k => { k with seen := d :: k.seen })
/-- .buffer (R40): its size is a constant. -/
def Asm.buffer (a : Asm) : List (List Tok) → Except Why Asm
  | [[.name s], ts] =>
    if !(isWord "AB" s || isWord "WB" s || isWord "CB" s) then .error .kernel else do
      let b ← a.once (up s)
      let v ← evalExpr a.above a.dot ts
      if v < 0 ∨ 524288 < v ∨ v % 1024 ≠ 0 then .error .kernel
      else .ok (b.updKernel fun k =>
        if isWord "AB" s then { k with ab := v.toNat } else if isWord "WB" s then { k with wb := v.toNat }
        else { k with cb := v.toNat })
  | _ => .error .operand
/-- The bytes of each item of .b8 to .b64. -/
def intWidth (d : Txt) : Option Nat :=
  if isWord "B8" d then some 1 else if isWord "B16" d then some 2 else if isWord "B32" d then some 4
  else if isWord "B64" d then some 8 else none
/-- The bytes of a format. -/
def fmtWidth (f : Fmt) : Nat := (1 + f.ebits + f.fbits) / 8
/-- A DIRECTIVE where it stands. .b8 to .b64 and .f16 to .f64 without an operand place nothing (R39) (DESIGN CHOICE, log 36). -/
def Asm.directive (a : Asm) (line : Nat) (d : Txt) (os : List (List Tok)) : Except Why Asm :=
  let plain (b : Asm) : Except Why Asm := if os.isEmpty then .ok b else .error .operand
  if isWord "TEXT" d then plain { a with sect := .text }
  else if isWord "DATA" d then plain { a with sect := .data }
  else if isWord "SCRATCH" d then plain { a with sect := .scratch }
  else if isWord "ORG" d then do
    let v ← a.const1 os
    if v < a.high.get a.sect then .error .place else a.setCtr v
  else if isWord "ALIGN" d then do
    let v ← a.const1 os
    a.align line v
  else if isWord "ZERO" d then do
    let v ← a.const1 os
    if v < 0 then .error .range
    else match a.sect with
      | .text => .error .sectionRule
      | .data => a.put line v.toNat (.fill (.zeros v.toNat))
      | .scratch => a.fillTo v.toNat
  else if isWord "ASCII" d then
    match os with
    | [[.str bs]] =>
      if a.sect ≠ .data then .error .sectionRule else a.put line bs.length (.fill (.bytes (bs.map (BitVec.ofNat 8))))
    | _ => .error .operand
  else if isWord "EQU" d then a.equ line os
  else if isWord "KERNEL" d then a.beginKernel os
  else if isWord "ENDK" d then (if a.open_.isNone then .error .kernel else plain { a with open_ := none })
  else if isWord "BUFFER" d then (if a.open_.isNone then .error .kernel else a.buffer os)
  else if isWord "WARPS" d then do
    let b ← a.once (up d)
    .ok (b.keep line a.dot (.warps os))
  else if isWord "REGS" d then do
    let b ← a.once (up d)
    .ok (b.keep line a.dot (.regs os))
  else if isWord "HANDLER" d then do
    let b ← a.once (up d)
    .ok (b.keep line a.dot (.handler os))
  else if isWord "MODE" d then do
    let b ← a.once (up d)
    .ok (b.keep line a.dot (.mode os))
  else if isWord "LAUNCH" d then (if a.open_.isSome then .error .launch else .ok (a.keep line a.dot (.launch os)))
  else match intWidth d, fmtOf d with
    | some n, _ =>
      if a.sect = .scratch ∨ (a.sect = .text ∧ n < 4) then .error .sectionRule
      else a.put line (n * os.length) (.ints n os)
    | none, some f => if a.sect ≠ .data then .error .sectionRule else a.put line (fmtWidth f * os.length) (.floats f (fmtWidth f) os)
    | none, none => .error .grammar
/-- A statement where it stands: a directive, or an instruction in .text at a multiple of 4 (R38), which is a kernel's entry
when it is its first. -/
def Asm.statement (a : Asm) (line : Nat) (ts : List Tok) : Except Why Asm :=
  match ts with
  | [] => .ok a
  | .sign '.' :: .name d :: t => do
    let os ← operandsOf t
    a.directive line d os
  | .sign '.' :: _ => .error .grammar
  | ts =>
    if a.sect ≠ .text then .error .sectionRule
    else if a.dot % 4 ≠ 0 then .error .place
    else (a.updKernel fun k => if k.entry.isNone then { k with entry := some a.dot } else k).put line 4 (.instr ts)
/-- A line: its label, then its statement. A label holds even where the statement is refused. -/
def Asm.line (a : Asm) (n : Nat) (text : List Char) : Asm :=
  let fail (b : Asm) (e : Why) : Asm := { b with errs := (n, e) :: b.errs }
  match lexLine text with
  | .error e => fail a e
  | .ok (.name s :: .sign ':' :: t) =>
    match a.fresh s with
    | .error e => fail a e
    | .ok _ =>
      let b := { a with labels := (s, a.dot) :: a.labels }
      match b.statement n t with
      | .ok c => c
      | .error e => fail b e
  | .ok ts =>
    match a.statement n ts with
    | .ok c => c
    | .error e => fail a e
/-- Every line in order. -/
def Asm.lines (a : Asm) : Nat → List (List Char) → Asm
  | _, [] => a
  | n, l :: t => (a.line n l).lines (n + 1) t

/-! ### The second pass -/
/-- The image as it grows, with the errors found. -/
structure Out where
  fills : List (Nat × Fill)
  launches : List (Nat × List Word)
  errs : List Err
deriving DecidableEq, Repr
/-- The bytes of a number, little-endian. -/
def numBytes (n v : Nat) : List Byte := leBytes v n
/-- The items of .b8 to .b64: the rule of R30 for signed or unsigned fields of that width. -/
def intsOf (ev : List Tok → Except Why Int) (n : Nat) (os : List (List Tok)) : Except Why (List Byte) :=
  os.foldlM (fun acc t => do
    let v ← ev t
    let x ← fit .modulo (8 * n) v
    .ok (acc ++ numBytes n x)) []
/-- The items of .f16 to .f64: floats, or integer expressions. -/
def floatsOf (ev : List Tok → Except Why Int) (f : Fmt) (n : Nat) (os : List (List Tok)) : Except Why (List Byte) :=
  os.foldlM (fun acc t => do
    let x ← match takeFlt t with
      | some (x, []) => fltBits f x
      | _ => do
        let v ← ev t
        intFltBits f v
    .ok (acc ++ numBytes n x)) []
/-- Bytes go into the image; a byte that two statements place at one address is an error (R37). -/
def Out.place (o : Out) (at_ : Nat) (f : Fill) : Except Why Out :=
  if f.size = 0 then .ok o
  else if o.fills.any fun x => decide (x.1 < at_ + f.size) && decide (at_ < x.1 + x.2.size) then .error .place
  else .ok { o with fills := (at_, f) :: o.fills }
/-- The one value of a kernel's directive within its limits. -/
def within (ev : List Tok → Except Why Int) (lo hi : Int) (w : Why) : List (List Tok) → Except Why Nat
  | [t] => do
    let v ← ev t
    if lo ≤ v ∧ v ≤ hi then .ok v.toNat else .error w
  | _ => .error w
/-- The keywords of .mode (R40): deterministic, streaming. A keyword given twice counts once (DESIGN CHOICE, log 36). -/
def modeOf (os : List (List Tok)) : Except Why (Bool × Bool) :=
  if os.isEmpty then .error .kernel
  else os.foldlM (fun (d, s) t => match t with
    | [.name x] => if isWord "DETERMINISTIC" x then .ok (true, s) else if isWord "STREAMING" x then .ok (d, true) else .error .kernel
    | _ => .error .kernel) (false, false)
/-- Change the kernel that an item stands in. -/
def Asm.inKernel (a : Asm) (i : Item) (f : Kernel → Kernel) : Asm :=
  { a with kernels := a.kernels.map fun k => if i.kernel = some k.name then f k else k }
/-- One item, a launch apart: its bytes, or what it says of its kernel. -/
def lateItem (a : Asm) (o : Out) (i : Item) : Except Why (Asm × Out) :=
  let ev := evalExpr a.look i.addr
  match i.what with
  | .instr ts => do
    let (w, x) ← asmInstr a.look i.addr ts
    let p ← o.place i.addr (.bytes (wordBytes w))
    .ok (a.inKernel i fun k => { k with named := max k.named (lanesNamed x) }, p)
  | .fill f => do
    let p ← o.place i.addr f
    .ok (a, p)
  | .ints n os => do
    let bs ← intsOf ev n os
    let p ← o.place i.addr (.bytes bs)
    .ok (a, p)
  | .floats f n os => do
    let bs ← floatsOf ev f n os
    let p ← o.place i.addr (.bytes bs)
    .ok (a, p)
  | .equ s => do
    let _ ← a.look s
    .ok (a, o)
  | .warps os => do
    let v ← within ev 1 32 .kernel os
    .ok (a.inKernel i fun k => { k with warps := v }, o)
  | .regs os => do
    let v ← within ev 1 88 .kernel os
    .ok (a.inKernel i fun k => { k with regs := some v }, o)
  | .handler os => do
    let v ← within ev 0 (2 ^ 63) .kernel os
    if a.code.any fun x => decide (x.1 ≤ v) && decide (v < x.2) then .ok (a.inKernel i fun k => { k with handler := v }, o)
    else .error .kernel
  | .mode os => do
    let (d, s) ← modeOf os
    .ok (a.inKernel i fun k => { k with det := d, stream := s }, o)
  | .launch _ => .ok (a, o)
/-- Every item in order, each error with its line. -/
def lateItems (a : Asm) (o : Out) : List Item → Asm × Out
  | [] => (a, o)
  | i :: t =>
    match lateItem a o i with
    | .ok (b, p) => lateItems b p t
    | .error e => lateItems a { o with errs := (i.line, e) :: o.errs } t
/-- An instruction that names a register beyond its kernel's .regs (R40, R389). -/
def regsErrs (a : Asm) (items : List Item) : List Err :=
  items.filterMap fun i =>
    match i.what, i.kernel.bind a.kernel with
    | .instr ts, some k =>
      match asmInstr a.look i.addr ts, k.regs with
      | .ok (_, x), some n => if n < lanesNamed x then some (i.line, .kernel) else none
      | _, _ => none
    | _, _ => none
/-- The lane registers of a kernel: .regs, or one more than the highest it names, or 1. -/
def Kernel.regCount (k : Kernel) : Nat := k.regs.getD (max 1 k.named)

/-! ### Launch records (R42, R378) -/
/-- The keys of .launch: how many values, and their limits. -/
def launchKey (s : Txt) : Option (Nat × Int × Int) :=
  if isWord "GRID" s then some (3, 1, 65535) else if isWord "CLUSTER" s then some (1, 1, 4)
  else if isWord "PARAMS" s then some (1, 0, 2 ^ 55 - 1) else if isWord "QUEUE" s then some (1, 0, 15)
  else if isWord "ROLE" s then some (1, 0, 255) else if isWord "WATCHDOG" s then some (1, 0, 2 ^ 32 - 1)
  else if isWord "GREGS" s then some (4, 0, 2 ^ 32 - 1) else if isWord "GFROM" s then some (1, 0, 2 ^ 32 - 1)
  else none
/-- The values of a key: one expression, or several in parentheses. -/
def keyValues (ts : List Tok) : Except Why (List (List Tok)) :=
  match ts.head?, ts.getLast?, splitOpds 0 ((ts.drop 1).dropLast) [] with
  | some (.sign '('), some (.sign ')'), l => if 1 < l.length then (if l.any (·.isEmpty) then .error .launch else .ok l) else .ok [ts]
  | _, _, _ => .ok [ts]
/-- The keys of a .launch with their values (DEDUCED, log 36). -/
def keysOf (ev : List Tok → Except Why Int) : List (List Tok) → List (Txt × List Nat) → Except Why (List (Txt × List Nat))
  | [], acc => .ok acc
  | (.name s :: .sign '=' :: ts) :: t, acc =>
    match launchKey s, named acc (up s) with
    | some (n, lo, hi), none => do
      let l ← keyValues ts
      if l.length ≠ n then .error .launch
      else do
        let vs ← l.foldlM (fun vs e => do
          let v ← within ev lo hi .launch [e]
          .ok (vs ++ [v])) []
        keysOf ev t ((up s, vs) :: acc)
    | _, _ => .error .launch
  | _, _ => .error .launch
/-- The 16 words of a record. -/
def recordOf (k : Kernel) (smax : Nat) (key : String → List Nat → List Nat) (gsrc : Bool) : List Word :=
  let n (s : String) (d : Nat) (i : Nat) : Nat := (key s (List.replicate 4 d)).getD i d
  let entry := k.entry.getD k.start
  let params := n "PARAMS" 0 0
  let w (x : Nat) : Word := BitVec.ofNat 32 x
  [w entry, w (entry / 2 ^ 32), w params, w (params / 2 ^ 32), w (2 ^ 16 * n "GRID" 1 1 + n "GRID" 1 0),
   w ((if k.stream then 2 ^ 31 else 0) + (if k.det then 2 ^ 30 else 0) + 2 ^ 23 * k.regCount + 2 ^ 18 * (k.warps - 1) +
      2 ^ 16 * (n "CLUSTER" 1 0 - 1) + n "GRID" 1 2),
   w (2 ^ 19 * (k.wb / 1024) + 2 ^ 9 * (k.ab / 1024) + (smax + 1023) / 1024),
   w ((if gsrc then 2 ^ 22 else 0) + 2 ^ 10 * n "ROLE" 0 0 + k.cb / 1024),
   w k.handler, w (k.handler / 2 ^ 32), w (n "WATCHDOG" 0 0), 0] ++
  (if gsrc then [w (n "GFROM" 0 0), 0, 0, 0] else (rangeFrom 0 4).map fun i => w (n "GREGS" 0 i))
/-- A .launch: the queue and the record. -/
def launchOf (a : Asm) (at_ : Nat) : List (List Tok) → Except Why (Nat × List Word)
  | [.name s] :: t =>
    match a.kernel s with
    | none => .error .launch
    | some k => do
      let ks ← keysOf (evalExpr a.look at_) t []
      let key (s : String) (d : List Nat) : List Nat := (named ks s.toList).getD d
      let gsrc := (named ks "GFROM".toList).isSome
      if gsrc ∧ (named ks "GREGS".toList).isSome then .error .launch
      else if (key "GRID" [1]).getD 0 1 % (key "CLUSTER" [1]).getD 0 1 ≠ 0 then .error .launch
      else .ok ((key "QUEUE" [0]).getD 0 0, recordOf k a.smax key gsrc)
  | _ => .error .launch
/-- The launches in image order. -/
def launches (a : Asm) : List Item → Out → Out
  | [], o => o
  | i :: t, o =>
    match i.what with
    | .launch os =>
      match launchOf a i.addr os with
      | .ok x => launches a t { o with launches := o.launches ++ [x] }
      | .error e => launches a t { o with errs := (i.line, e) :: o.errs }
    | _ => launches a t o

/-! ### The image -/
/-- A load image: the bytes it places, in the order of the source, and its launch records with their queues. -/
structure Image where
  fills : List (Nat × Fill)
  launches : List (Nat × List Word)
deriving DecidableEq, Repr
/-- THE ASSEMBLER: a source file gives its image, or every error with its line (R35). -/
def assemble (source : List Char) : Except (List Err) Image :=
  let ls := linesOf source []
  let a := Asm.init.lines 1 ls
  let items := a.items.reverse
  let r := lateItems a ⟨[], [], []⟩ items
  let o := launches r.1 items r.2
  let errs := a.errs ++ (if a.open_.isSome then [(ls.length, .kernel)] else []) ++ o.errs ++ regsErrs r.1 items
  if errs.isEmpty then .ok { fills := o.fills.reverse, launches := o.launches } else .error errs
/-- What the host posts of an image (R42): its bytes by MEMWRITE, and its launch records in image order. A byte goes to the
physical address equal to its virtual one (DESIGN CHOICE, log 36). -/
def Image.posts (x : Image) : List Instr :=
  (x.fills.map fun f => .memwrite f.1 f.2.toBytes 0) ++ x.launches.map fun l => .launch l.1 0 l.2

end Sys2Proof.Tras
end

