-- ==== Sys2Proof/Laws/Asm.lean ====
section
/-! SUPPORT. What the assembler accepts (R35): the word of an instruction statement decodes to a well-formed instruction,
each of whose register positions is in its class. -/
namespace Sys2Proof.Tras
open Sys2Proof.Machine

/-- A word that passes the checks of R35. -/
theorem checkWord_ok (w : Word) (ns : List Named) (i : Instr) (h : checkWord w ns = .ok i) :
    decodeWord w = .ok i ∧ wellFormed i = true ∧ ∀ p ∈ positions i, p.ok = true := by
  unfold checkWord at h
  cases hd : decodeWord w with
  | error e => simp [hd] at h
  | ok j =>
    simp only [hd] at h
    split at h
    · simp at h
    rename_i hw
    split at h
    · simp at h
    split at h
    · simp at h
    rename_i hp
    cases h
    simp_all

/-- The same with the park mark in place. -/
theorem parked_ok (park : Bool) (x : Word × List Named) (w : Word) (i : Instr) (h : parked park x = .ok (w, i)) :
    decodeWord w = .ok i ∧ wellFormed i = true ∧ ∀ p ∈ positions i, p.ok = true := by
  simp only [parked] at h
  split at h
  · rename_i j hj
    cases h
    exact checkWord_ok _ _ _ hj
  · simp at h

/-- AN ACCEPTED STATEMENT names a word that decodes to the instruction given, is not ILLEGAL, and raises no OPERAND by its
classes (R35). -/
theorem asmInstr_ok (look : Txt → Except Why Int) (addr : Nat) (ts : List Tok) (w : Word) (i : Instr)
    (h : asmInstr look addr ts = .ok (w, i)) :
    decodeWord w = .ok i ∧ wellFormed i = true ∧ ∀ p ∈ positions i, p.ok = true := by
  unfold asmInstr at h
  split at h
  · split at h
    · simp at h
    split at h
    · exact parked_ok _ _ _ _ h
    · simp at h
  · simp at h

end Sys2Proof.Tras
end

