-- ==== Sys2Proof/Laws/Windows.lean ====
section
/-! SUPPORT. Tables changed at many keys, words among bytes, and what a store to a block's window leaves (R180, R266). -/
namespace Sys2Proof.Machine

/-- A table whose every value is changed. -/
theorem mFind_mapAll {α : Type} (m : Map α) (k : Nat) (g : α → α) :
    mFind (m.map fun kw => (kw.1, g kw.2)) k = (mFind m k).map g := by
  induction m with
  | nil => rfl
  | cons x t ih =>
    obtain ⟨k', v⟩ := x
    simp only [List.map_cons, mFind, ih]
    by_cases hk : k' = k <;> simp [hk]
/-- A table whose values of a kind are changed. -/
theorem mFind_map {α : Type} (m : Map α) (k : Nat) (c : α → Prop) [DecidablePred c] (g : α → α) :
    mFind (m.map fun kw => if c kw.2 then (kw.1, g kw.2) else kw) k = (mFind m k).map fun w => if c w then g w else w := by
  induction m with
  | nil => rfl
  | cons x t ih =>
    obtain ⟨k', v⟩ := x
    simp only [List.map_cons]
    by_cases hc : c v
    · simp only [hc, if_true, mFind, ih]
      by_cases hk : k' = k <;> simp [hk, hc]
    · simp only [hc, if_false, mFind, ih]
      by_cases hk : k' = k <;> simp [hk, hc]
/-- Values stored one after the other under the keys of a list. -/
theorem foldKey {α β : Type} (xs : List α) (key : α → Nat) (g : α → β) (m : Map β) :
    (∀ k, (∀ x ∈ xs, key x ≠ k) → mFind (xs.foldl (fun m a => mSet m (key a) (g a)) m) k = mFind m k) ∧
    ((xs.map key).Nodup → ∀ x ∈ xs, mFind (xs.foldl (fun m a => mSet m (key a) (g a)) m) (key x) = some (g x)) := by
  induction xs generalizing m with
  | nil => exact ⟨fun _ _ => rfl, by simp⟩
  | cons y t ih =>
    obtain ⟨i1, i2⟩ := ih (mSet m (key y) (g y))
    refine ⟨fun k hk => ?_, fun hn x hx => ?_⟩
    · rw [List.foldl_cons, i1 k (fun x hx => hk x (List.mem_cons_of_mem _ hx)), mFind_mSet, if_neg (hk y (List.mem_cons_self ..))]
    · rw [List.map_cons, List.nodup_cons] at hn
      rcases List.mem_cons.1 hx with rfl | hx
      · rw [List.foldl_cons, i1 _ (fun z hz e => hn.1 (List.mem_map.2 ⟨z, hz, e⟩)), mFind_mSet, if_pos rfl]
      · exact i2 hn.2 x hx
/-- The numbers of a range are distinct. -/
theorem range_nodup (a n : Nat) : (rangeFrom a n).Nodup := by
  induction n generalizing a with
  | zero => exact List.nodup_nil
  | succ n ih =>
    rw [rangeFrom, List.nodup_cons]
    exact ⟨fun h => by have := (mem_rangeFrom _ _ _).1 h; omega, ih _⟩
theorem leBytes_length (x n : Nat) : (leBytes x n).length = n := by
  induction n generalizing x with
  | zero => rfl
  | succ n ih => rw [leBytes, List.length_cons, ih]
/-- A word among bytes that have been written reads back. -/
theorem bytes_word (w : Word) (m : Memory) (a : Nat) (pre post : List Byte) (b : Nat) (hb : b = a + pre.length) :
    memRead32 (memWriteBytes m a (pre ++ wordBytes w ++ post)) b = w := by
  have hlen : (wordBytes w).length = 4 := rfl
  have hr : ∀ i < 4, memRead (memWriteBytes m a (pre ++ wordBytes w ++ post)) (b + i) = (wordBytes w).getD i 0 := by
    intro i hi
    rw [memRead_memWriteBytes, if_pos (by simp only [List.length_append, hlen]; omega)]
    rw [List.append_assoc, show b + i - a = pre.length + i by omega]
    simp only [List.getD_eq_getElem?_getD]
    rw [List.getElem?_append_right (by omega), show pre.length + i - pre.length = i by omega,
      List.getElem?_append_left (by omega)]
  have h0 := hr 0 (by omega)
  have h1 := hr 1 (by omega)
  have h2 := hr 2 (by omega)
  have h3 := hr 3 (by omega)
  rw [memRead32, leWord]
  simp only [memReadBytes, Nat.add_zero] at *
  rw [show b + 1 + 1 = b + 2 from rfl, show b + 2 + 1 = b + 3 from rfl, h0, h1, h2, h3]
  simp only [leNat, wordBytes, leBytes, List.getD_eq_getElem?_getD]
  apply BitVec.eq_of_toNat_eq
  have := w.isLt
  simp
  omega
/-- A barrier object reads back as it was stored (R202). -/
theorem putObj_obj (b : Block) (off : Nat) (o : BarObj) : (b.putObj off o).obj off = o := by
  obtain ⟨a, p, c⟩ := o
  simp only [Block.putObj, Block.obj]
  congr 1
  · have := bytes_word a b.sp off [] (wordBytes p ++ wordBytes c) off (by simp)
    simpa using this
  · have := bytes_word p b.sp off (wordBytes a) (wordBytes c) (off + 4) rfl
    simpa using this
  · have := bytes_word c b.sp off (wordBytes a ++ wordBytes p) [] (off + 8) rfl
    simpa using this
/-- A block that is changed, and every other block. -/
theorem updBlock_any (s : State) (k j : Nat) (f : Block → Block) (h : (mFind s.blocks k).isSome = true) :
    (s.updBlock k f).block j = if j = k then f (s.block k) else s.block j := by
  by_cases e : j = k
  · subst e; rw [if_pos rfl, State.updBlock_block _ _ _ h]
  · rw [if_neg e]; simp [State.updBlock, State.block, mGet, mFind_mMod, Ne.symm e, State.setBlocks]
/-- Local writes to one space of a block. -/
theorem setSpace_fold (q : LSpace) (lws : List LWrite) (b : Block) (h : ∀ w ∈ lws, w.space = q) :
    (∀ q', (lws.foldl (fun b w => b.setSpace w.space (memWrite (b.space w.space) w.off w.val)) b).space q' =
      if q' = q then lws.foldl (fun m w => memWrite m w.off w.val) (b.space q) else b.space q') ∧
    (lws.foldl (fun b w => b.setSpace w.space (memWrite (b.space w.space) w.off w.val)) b).chans = b.chans ∧
    (lws.foldl (fun b w => b.setSpace w.space (memWrite (b.space w.space) w.off w.val)) b).bk = b.bk := by
  induction lws generalizing b with
  | nil => refine ⟨fun q' => ?_, rfl, rfl⟩; show b.space q' = _; split <;> simp_all
  | cons w t ih =>
    have hw := h w (by simp)
    obtain ⟨i1, i2, i3⟩ := ih (b.setSpace w.space (memWrite (b.space w.space) w.off w.val)) fun x hx => h x (by simp [hx])
    refine ⟨fun q' => ?_, ?_, ?_⟩
    · rw [List.foldl_cons, i1 q', hw]
      by_cases e : q' = q
      · subst e; rw [if_pos rfl, if_pos rfl, List.foldl_cons]
        cases q' <;> rfl
      · rw [if_neg e, if_neg e]
        cases q <;> cases q' <;> first | rfl | (exact absurd rfl e)
    · rw [List.foldl_cons, i2]; cases w.space <;> rfl
    · rw [List.foldl_cons, i3]; cases w.space <;> rfl
/-- Stores that meet no notify word publish nothing (R266). -/
theorem publishAt_quiet (bk : Nat) (offs : List Nat) (s : State)
    (h : ∀ ch < 8, (mGet (s.block bk).chans Chan.init ch).log2 ≠ 0 → ∀ o ∈ offs,
      o < (mGet (s.block bk).chans Chan.init ch).base ∨ (mGet (s.block bk).chans Chan.init ch).base + 4 ≤ o) :
    publishAt bk offs s = s := by
  have key : ∀ ls : List Nat, (∀ c ∈ ls, c < 8) → ls.foldl (fun s ch =>
      let c := s.chan bk ch
      if c.log2 ≠ 0 ∧ (offs.any fun o => decide (c.base ≤ o ∧ o < c.base + 4)) then publishRing bk ch s else s) s = s := by
    intro ls
    induction ls with
    | nil => intro _; rfl
    | cons c t ih =>
      intro hc
      rw [List.foldl_cons]
      have : (let x := s.chan bk c
        if x.log2 ≠ 0 ∧ (offs.any fun o => decide (x.base ≤ o ∧ o < x.base + 4)) then publishRing bk c s else s) = s := by
        dsimp only
        rw [if_neg]
        rintro ⟨h1, h2⟩
        rw [List.any_eq_true] at h2
        obtain ⟨o, ho, hd⟩ := h2
        rw [decide_eq_true_eq] at hd
        have := h c (hc c (by simp)) h1 o ho
        have e : s.chan bk c = mGet (s.block bk).chans Chan.init c := rfl
        rw [e] at hd
        omega
      rw [this]
      exact ih fun x hx => hc x (by simp [hx])
  exact key (rangeFrom 0 8) fun c hc => by rw [mem_rangeFrom] at hc; omega
/-- A change of a block made in two parts. -/
theorem updBlock_twice (s : State) (k : Nat) (f g : Block → Block) : (s.updBlock k f).updBlock k g = s.updBlock k fun b => g (f b) := by
  show (s.setBlocks (mMod s.blocks k f)).setBlocks (mMod (mMod s.blocks k f) k g) = s.setBlocks (mMod s.blocks k fun b => g (f b))
  have : mMod (mMod s.blocks k f) k g = mMod s.blocks k fun b => g (f b) := by
    generalize s.blocks = m
    induction m with
    | nil => rfl
    | cons x t ih =>
      obtain ⟨k', v⟩ := x
      by_cases h : k' = k
      · simp [mMod, h]
      · simp [mMod, h, ih]
  rw [this]; rfl
/-- WHAT A LOCAL STORE LEAVES: one space of one block takes the bytes, and its channels stay as they are. -/
theorem localStore_upd (bk : Nat) (q : LSpace) (lws : List LWrite) (rel : Option (Scope × Nat)) (s : State)
    (hw : ∀ w ∈ lws, w.space = q) (hb : (mFind s.blocks bk).isSome = true)
    (hn : q = .sp → ∀ ch < 8, (mGet (s.block bk).chans Chan.init ch).log2 ≠ 0 → ∀ w ∈ lws,
      w.off < (mGet (s.block bk).chans Chan.init ch).base ∨ (mGet (s.block bk).chans Chan.init ch).base + 4 ≤ w.off) :
    ∃ F : Block → Block, localStore bk lws rel s = s.updBlock bk F ∧ ∀ b, (F b).chans = b.chans ∧ (F b).gid = b.gid ∧
      ∀ q', (F b).space q' = if q' = q then lws.foldl (fun m w => memWrite m w.off w.val) (b.space q) else b.space q' := by
  obtain ⟨f, hf⟩ : ∃ f : Block → Block, f = fun b => lws.foldl (fun b w => b.setSpace w.space (memWrite (b.space w.space) w.off w.val)) b := ⟨_, rfl⟩
  have hfg : ∀ b, (f b).gid = b.gid := by
    rw [hf]
    clear hn hw hf
    induction lws with
    | nil => intro b; rfl
    | cons w t ih =>
      intro b
      refine (ih (b.setSpace w.space (memWrite (b.space w.space) w.off w.val))).trans ?_
      cases w.space <;> rfl
  obtain ⟨offs, hoffs⟩ : ∃ offs, offs = (lws.filter fun w => w.space == .sp).map (·.off) := ⟨_, rfl⟩
  have e : ∃ g : Block → Block, (∀ b, (g b).chans = b.chans ∧ (g b).gid = b.gid ∧ ∀ q, (g b).space q = b.space q) ∧
      localStore bk lws rel s = (if offs.isEmpty then (s.updBlock bk f).updBlock bk g else publishAt bk offs ((s.updBlock bk f).updBlock bk g)) := by
    rw [hf, hoffs]
    refine ⟨_, ?_, rfl⟩
    intro b; exact ⟨rfl, rfl, fun q => by cases q <;> rfl⟩
  obtain ⟨g, hg, e⟩ := e
  have hb2 : (mFind (s.updBlock bk f).blocks bk).isSome = true := by
    show (mFind (mMod s.blocks bk f) bk).isSome = true
    rw [mFind_mMod, if_pos rfl, Option.isSome_map]; exact hb
  have hpub : localStore bk lws rel s = (s.updBlock bk f).updBlock bk g := by
    rw [e]
    split
    · rfl
    · apply publishAt_quiet
      intro ch hc hl o ho
      have hblk : (((s.updBlock bk f).updBlock bk g).block bk).chans = (s.block bk).chans := by
        rw [updBlock_any _ _ _ _ hb2, if_pos rfl, (hg _).1, updBlock_any _ _ _ _ hb, if_pos rfl, hf]
        exact (setSpace_fold q lws _ hw).2.1
      rw [hblk] at hl ⊢
      rw [hoffs] at ho
      obtain ⟨w, hm, rfl⟩ := List.mem_map.1 ho
      obtain ⟨hm1, hm2⟩ := List.mem_filter.1 hm
      have hq : q = .sp := by rw [← hw w hm1]; simpa using hm2
      exact hn hq ch hc hl w hm1
  refine ⟨fun b => g (f b), by rw [hpub, updBlock_twice], fun b => ⟨?_, ?_, fun q' => ?_⟩⟩
  · rw [(hg _).1, hf]; exact (setSpace_fold q lws b hw).2.1
  · rw [(hg _).2.1, hfg]
  · rw [(hg _).2.2, hf]; exact (setSpace_fold q lws b hw).1 q'

end Sys2Proof.Machine
end

