-- ==== Sys2Proof/Laws/Fill.lean ====
section
/-! SUPPORT. Lanes filled with tasks (R112, R313, R314). -/
namespace Sys2Proof.Machine

/-- Writes to lane registers leave the lanes as they are. -/
theorem writeAll_lanesEq (xs : List RegWrite) (w : Warp) (h : ∀ y ∈ xs, ∃ r l, y.dest = .lane r l) : (writeAll xs w).lanes = w.lanes := by
  induction xs generalizing w with
  | nil => rfl
  | cons y t ih =>
    rw [writeAll_cons, ih _ (fun z hz => h z (List.mem_cons_of_mem _ hz))]
    obtain ⟨r, l, e⟩ := h y (List.mem_cons_self ..)
    rw [writeNow, storeDest, e]; rfl
/-- The writes of a fill: v0 to v4 take the arguments, v5 the id. -/
theorem taskWrites_mem (l : Nat) (x : Task) (y : RegWrite) : y ∈ taskWrites l x ↔ (∃ i < 5, y = ⟨.lane i l, recWord x.record (3 + i)⟩) ∨ y = ⟨.lane 5 l, x.id⟩ := by
  simp only [taskWrites, List.mem_append, List.mem_map, List.mem_singleton, mem_rangeFrom]
  constructor
  · rintro (⟨i, ⟨-, hi⟩, rfl⟩ | h)
    · exact .inl ⟨i, by omega, rfl⟩
    · exact .inr h
  · rintro (⟨i, hi, rfl⟩ | h)
    · exact .inl ⟨i, ⟨by omega, by omega⟩, rfl⟩
    · exact .inr h
/-- A warp with one lane filled. -/
def fillWarp (l : Nat) (pc : DWord) (depth : BitVec 6) (t : Task) (w : Warp) : Warp :=
  writeAll (taskWrites l t) (w.updLanes (laneBit l) fun _ x => taskLane pc depth w.retired t x)
/-- WHAT A FILL LEAVES of a warp. -/
theorem fillWarp_spec (l : Nat) (pc : DWord) (depth : BitVec 6) (t : Task) (w : Warp) (hl : l < 32) (hw : w.lanes.length = 32) :
    (fillWarp l pc depth t w).lanes.length = 32 ∧ (fillWarp l pc depth t w).retired = w.retired ∧ (fillWarp l pc depth t w).refill = w.refill ∧
    (fillWarp l pc depth t w).retiredW = w.retiredW ∧ (fillWarp l pc depth t w).bk = w.bk ∧
    (∀ k, k < 32 → (fillWarp l pc depth t w).lane k = if k = l then taskLane pc depth w.retired t (w.lane k) else w.lane k) ∧
    (∀ i k, i < 88 → k < 32 → regAt (fillWarp l pc depth t w) (.lane i k) = if k = l ∧ i < 5 then recWord t.record (3 + i) else if k = l ∧ i = 5 then t.id else regAt w (.lane i k)) := by
  have hlanes : (fillWarp l pc depth t w).lanes = (w.updLanes (laneBit l) fun _ x => taskLane pc depth w.retired t x).lanes := by
    refine writeAll_lanesEq _ _ fun y hy => ?_
    rcases (taskWrites_mem _ _ _).1 hy with ⟨i, -, rfl⟩ | rfl
    · exact ⟨_, _, rfl⟩
    · exact ⟨_, _, rfl⟩
  have hlen : (w.updLanes (laneBit l) fun _ x => taskLane pc depth w.retired t x).lanes.length = 32 := by simp [Warp.updLanes, mapIdxFrom_length, hw]
  have hrest := writeAll_rest (taskWrites l t) (w.updLanes (laneBit l) fun _ x => taskLane pc depth w.retired t x)
  refine ⟨by rw [hlanes, hlen], ?_, ?_, ?_, ?_, ?_, ?_⟩
  · rw [fillWarp, hrest]; rfl
  · rw [fillWarp, hrest]; rfl
  · rw [fillWarp, hrest]; rfl
  · rw [fillWarp, hrest]; rfl
  · intro k hk
    rw [lane_congr hlanes, updLanes_lane _ _ _ _ (by rw [hw]; exact hk), laneBit_getLsbD l k hl]
    by_cases e : k = l <;> simp [e]
  · intro i k hi hk
    let v : Dest → Option Word := fun d => match d with
      | .lane i k => if k = l ∧ i < 5 then some (recWord t.record (3 + i)) else if k = l ∧ i = 5 then some t.id else none
      | _ => none
    have := writeAll_reg v (taskWrites l t) (w.updLanes (laneBit l) fun _ x => taskLane pc depth w.retired t x) (.lane i k) (by
      intro y hy
      rcases (taskWrites_mem _ _ _).1 hy with ⟨j, hj, rfl⟩ | rfl
      · simp [destExists, hl]; omega
      · simp [destExists, hl]) (by simp [destExists, hi, hk]) hlen (by
      intro y hy hd
      rcases (taskWrites_mem _ _ _).1 hy with ⟨j, hj, rfl⟩ | rfl
      · have := Dest.lane.inj hd
        simp only [v, normVal]
        rw [← this.1, ← this.2, if_pos ⟨rfl, hj⟩]
      · have := Dest.lane.inj hd
        simp only [v, normVal]
        rw [← this.1, ← this.2, if_neg (by omega), if_pos ⟨rfl, rfl⟩])
    rw [fillWarp, this]
    by_cases h1 : k = l ∧ i < 5
    · have : (taskWrites l t).any (fun y => y.dest == .lane i k) = true := by
        rw [List.any_eq_true]
        exact ⟨_, (taskWrites_mem _ _ _).2 (.inl ⟨i, h1.2, rfl⟩), by simp [h1.1]⟩
      rw [if_pos this, if_pos h1]; simp only [v]; rw [if_pos h1]; rfl
    · rw [if_neg h1]
      by_cases h2 : k = l ∧ i = 5
      · have : (taskWrites l t).any (fun y => y.dest == .lane i k) = true := by
          rw [List.any_eq_true]
          exact ⟨_, (taskWrites_mem _ _ _).2 (.inr rfl), by simp [h2.1, h2.2]⟩
        rw [if_pos this, if_pos h2]; simp only [v]; rw [if_neg h1, if_pos h2]; rfl
      · have : (taskWrites l t).any (fun y => y.dest == .lane i k) = false := by
          rw [List.any_eq_false]
          intro y hy hd
          rcases (taskWrites_mem _ _ _).1 hy with ⟨j, hj, rfl⟩ | rfl
          · have := Dest.lane.inj (beq_iff_eq.1 hd); omega
          · have := Dest.lane.inj (beq_iff_eq.1 hd); omega
        rw [this, if_neg h2]; rfl
/-- WHAT SOME FILLS LEAVE of a warp with distinct lanes. -/
theorem fillFold (wk : Nat) (pc : DWord) (depth : BitVec 6) (pairs : List (Nat × Task)) (s : State) (hw : (mFind s.warps wk).isSome = true)
    (hlen : (s.warp wk).lanes.length = 32) (hn : (pairs.map (·.1)).Nodup) (hlt : ∀ x ∈ pairs, x.1 < 32) :
    let t := pairs.foldl (fun s x => fillLane wk x.1 pc depth x.2 s) s
    t = s.setWarps t.warps ∧ (mFind t.warps wk).isSome = true ∧ (t.warp wk).lanes.length = 32 ∧ (t.warp wk).retired = (s.warp wk).retired ∧
    (t.warp wk).refill = (s.warp wk).refill ∧ (t.warp wk).retiredW = (s.warp wk).retiredW ∧ (t.warp wk).bk = (s.warp wk).bk ∧
    (∀ x ∈ pairs, (t.warp wk).lane x.1 = taskLane pc depth (s.warp wk).retired x.2 ((s.warp wk).lane x.1) ∧
      (∀ i < 5, regAt (t.warp wk) (.lane i x.1) = recWord x.2.record (3 + i)) ∧ regAt (t.warp wk) (.lane 5 x.1) = x.2.id) ∧
    (∀ l < 32, l ∉ pairs.map (·.1) → (t.warp wk).lane l = (s.warp wk).lane l ∧ ∀ i < 88, regAt (t.warp wk) (.lane i l) = regAt (s.warp wk) (.lane i l)) := by
  induction pairs generalizing s with
  | nil => exact ⟨rfl, hw, hlen, rfl, rfl, rfl, rfl, by simp, fun _ _ _ => ⟨rfl, fun _ _ => rfl⟩⟩
  | cons x t ih =>
    rw [List.map_cons, List.nodup_cons] at hn
    have hx := hlt x (List.mem_cons_self ..)
    have hw1 : (fillLane wk x.1 pc depth x.2 s).warp wk = fillWarp x.1 pc depth x.2 (s.warp wk) := State.updWarp_warp _ _ _ hw
    obtain ⟨f1, f2, f3, f4, f5, f6, f7⟩ := fillWarp_spec x.1 pc depth x.2 (s.warp wk) hx hlen
    obtain ⟨i1, i2, i3, i4, i5, i6, i7, i8, i9⟩ := ih (fillLane wk x.1 pc depth x.2 s) (by simp [fillLane, hw]) (by rw [hw1]; exact f1) hn.2
      (fun y hy => hlt y (List.mem_cons_of_mem _ hy))
    rw [hw1] at i4 i5 i6 i7 i8 i9
    rw [List.foldl_cons]
    refine ⟨i1, i2, i3, i4.trans f2, i5.trans f3, i6.trans f4, i7.trans f5, ?_, ?_⟩
    · intro y hy
      rcases List.mem_cons.1 hy with rfl | hy
      · obtain ⟨j1, j2⟩ := i9 y.1 hx hn.1
        refine ⟨by rw [j1, f6 _ hx, if_pos rfl], fun i hi => ?_, ?_⟩
        · rw [j2 i (by omega), f7 i y.1 (by omega) hx, if_pos ⟨rfl, hi⟩]
        · rw [j2 5 (by omega), f7 5 y.1 (by omega) hx, if_neg (by omega), if_pos ⟨rfl, rfl⟩]
      · obtain ⟨j1, j2, j3⟩ := i8 y hy
        refine ⟨?_, j2, j3⟩
        have hne : y.1 ≠ x.1 := fun e => hn.1 (e ▸ List.mem_map.2 ⟨y, hy, rfl⟩)
        rw [j1, f2, f6 _ (hlt y (List.mem_cons_of_mem _ hy)), if_neg hne]
    · intro l hl hnl
      rw [List.map_cons, List.mem_cons, not_or] at hnl
      obtain ⟨j1, j2⟩ := i9 l hl hnl.2
      refine ⟨by rw [j1, f6 l hl, if_neg hnl.1], fun i hi => ?_⟩
      rw [j2 i hi, f7 i l hi hl, if_neg (fun h => hnl.1 h.1), if_neg (fun h => hnl.1 h.1)]
/-- The lanes of a mask that a test picks. -/
theorem maskOf_lanes (w : Warp) (p : Lane → Bool) : maskLanes (w.maskOf p) = (rangeFrom 0 32).filter fun l => p (w.lane l) := by
  rw [maskLanes]
  refine List.filter_congr fun l hl => ?_
  have := (mem_rangeFrom _ _ _).1 hl
  rw [Warp.maskOf, lanesMask_bits _ _ (by omega), Bool.eq_iff_iff]
  simp only [List.contains_iff_mem, List.mem_filter]
  exact ⟨fun h => h.2, fun h => ⟨hl, h⟩⟩

end Sys2Proof.Machine
end

