-- ==== Sys2Proof/Laws/Homes.lean ====
section
/-! SUPPORT. Bytes at their homes: HBM under keys, lines of the last-level cache, a write of one byte and of a run of bytes. -/
namespace Sys2Proof.Machine

/-- As many bytes are read as asked for. -/
theorem readBytes_len (m : Memory) (a n : Nat) : (memReadBytes m a n).length = n := by
  induction n generalizing a with
  | zero => rfl
  | succ n ih => simp [memReadBytes, ih]
/-- Bytes read depend on no other place. -/
theorem readBytes_ext (m m' : Memory) (a n : Nat) (h : ∀ x, a ≤ x → x < a + n → memRead m x = memRead m' x) :
    memReadBytes m a n = memReadBytes m' a n := by
  induction n generalizing a with
  | zero => rfl
  | succ n ih =>
    rw [memReadBytes, memReadBytes, h a (by omega) (by omega), ih (a + 1) (fun x h1 h2 => h x (by omega) (by omega))]
/-- A range has its length. -/
theorem rangeFrom_len (a n : Nat) : (rangeFrom a n).length = n := by
  induction n generalizing a with
  | zero => rfl
  | succ n ih => simp [rangeFrom, ih]
/-- An element of a range. -/
theorem rangeFrom_getD {α : Type} (f : Nat → α) (d : α) (a n i : Nat) (h : i < n) : ((rangeFrom a n).map f).getD i d = f (a + i) := by
  induction n generalizing a i with
  | zero => omega
  | succ n ih =>
    cases i with
    | zero => rfl
    | succ i =>
      rw [rangeFrom, List.map_cons, List.getD_cons_succ, ih (a + 1) i (by omega)]
      congr 1; omega
/-- A sector written over under a new key reads as before under that key, and every other sector under every key (R365). -/
theorem rebase_view (m : Mem) (k sec q : Nat) (k' : Nat) (h : q / 128 ≠ sec ∨ k' = k) : (m.rebase k sec).hbmView k' q = m.hbmView k' q := by
  rw [Mem.rebase]
  dsimp only
  split
  · rfl
  · rename_i hk
    by_cases hq : q / 128 = sec
    · have hk' : k' = k := by rcases h with h | h; exact absurd hq h; exact h
      subst hk'
      have hs : mGet (if k' = 0 then mErase m.secKey sec else mSet m.secKey sec k') 0 (q / 128) = k' := by
        split
        · rename_i e; rw [mGet_mErase, if_pos hq.symm, e]
        · rw [mGet_mSet, if_pos hq.symm]
      rw [Mem.hbmView, Mem.hbmView]
      dsimp only
      rw [hs, if_pos rfl, hq, if_neg hk, memRead_memWriteBytes]
      have hl : ((rangeFrom 0 128).map (recrypt (mGet m.secKey 0 sec) k' sec (m.sectorRaw sec))).length = 128 := by
        rw [List.length_map, rangeFrom_len]
      rw [hl, if_pos (by omega), rangeFrom_getD _ _ _ _ _ (by omega)]
      congr 1; omega
    · have hs : mGet (if k = 0 then mErase m.secKey sec else mSet m.secKey sec k) 0 (q / 128) = mGet m.secKey 0 (q / 128) := by
        split
        · rw [mGet_mErase, if_neg (Ne.symm hq)]
        · rw [mGet_mSet, if_neg (Ne.symm hq)]
      rw [Mem.hbmView, Mem.hbmView]
      dsimp only
      have hl : ((rangeFrom 0 128).map (recrypt (mGet m.secKey 0 sec) k sec (m.sectorRaw sec))).length = 128 := by
        rw [List.length_map, rangeFrom_len]
      have hr : ∀ x, x / 128 = q / 128 → memRead (memWriteBytes m.hbm (128 * sec) ((rangeFrom 0 128).map (recrypt (mGet m.secKey 0 sec) k sec (m.sectorRaw sec)))) x = memRead m.hbm x := by
        intro x hx
        rw [memRead_memWriteBytes, hl, if_neg (by omega)]
      rw [hs]
      split
      · exact hr q rfl
      · congr 1
        rw [Mem.sectorRaw, Mem.sectorRaw]
        refine readBytes_ext _ _ _ _ fun x h1 h2 => hr x (by omega)
/-- A sector takes the key of its last write. -/
theorem rebase_sec (m : Mem) (k sec : Nat) : mGet (m.rebase k sec).secKey 0 sec = k := by
  rw [Mem.rebase]
  dsimp only
  split
  · assumption
  · dsimp only
    split
    · rename_i e; rw [mGet_mErase, if_pos rfl, e]
    · rw [mGet_mSet, if_pos rfl]
/-- Nothing else of the memory side changes with it. -/
theorem rebase_rest (m : Mem) (k sec : Nat) : ∃ h sk, m.rebase k sec = { m with hbm := h, secKey := sk } := by
  rw [Mem.rebase]
  dsimp only
  split
  · exact ⟨m.hbm, m.secKey, rfl⟩
  · exact ⟨_, _, rfl⟩
/-- A byte put into HBM changes nothing but HBM. -/
theorem hbmPut_rest (m : Mem) (k pa : Nat) (v : Byte) : ∃ h sk, m.hbmPut k pa v = { m with hbm := h, secKey := sk } := by
  rw [Mem.hbmPut]
  obtain ⟨h, sk, e⟩ := rebase_rest m k (pa / 128)
  rw [e]; exact ⟨_, _, rfl⟩
/-- A byte put into HBM reads back under its key; other bytes of its sector under that key, and other sectors under every key, stay. -/
theorem hbmPut_view (m : Mem) (k pa : Nat) (v : Byte) (q k' : Nat) (h : q / 128 ≠ pa / 128 ∨ k' = k) :
    (m.hbmPut k pa v).hbmView k' q = if q = pa then v else m.hbmView k' q := by
  have hv := rebase_view m k (pa / 128) q k' h
  rw [Mem.hbmPut]
  by_cases hq : q / 128 = pa / 128
  · have hk' : k' = k := by rcases h with h | h; exact absurd hq h; exact h
    subst hk'
    have hs := rebase_sec m k' (pa / 128)
    rw [Mem.hbmView] at hv ⊢
    dsimp only at hv ⊢
    rw [hq, hs, if_pos rfl] at hv
    rw [hq, hs, if_pos rfl, memRead_memWrite]
    by_cases e : q = pa
    · rw [if_pos e, if_pos e.symm]
    · rw [if_neg e, if_neg (Ne.symm e), hv]
  · rw [if_neg (fun e => hq (by rw [e])), ← hv, Mem.hbmView, Mem.hbmView]
    dsimp only
    have hr : ∀ x, x / 128 = q / 128 → memRead (memWrite (m.rebase k (pa / 128)).hbm pa v) x = memRead (m.rebase k (pa / 128)).hbm x := by
      intro x hx
      rw [memRead_memWrite, if_neg]
      intro e; rw [e] at hq; exact hq hx.symm
    split
    · exact hr q rfl
    · congr 1
      rw [Mem.sectorRaw, Mem.sectorRaw]
      exact readBytes_ext _ _ _ _ fun x h1 h2 => hr x (by omega)
/-- What a byte reads as depends on its line, the keys and HBM alone. -/
theorem byteUnder_ext (m m' : Mem) (k q : Nat) (hl : mFind m'.lines (q / 1024) = mFind m.lines (q / 1024)) (hk : m'.keys = m.keys)
    (hv : ∀ k' x, x / 128 = q / 128 → m'.hbmView k' x = m.hbmView k' x) : m'.byteUnder k q = m.byteUnder k q := by
  rw [Mem.byteUnder, Mem.byteUnder, hl]
  have hkk : ∀ sl, m'.keyOf sl = m.keyOf sl := fun sl => by rw [Mem.keyOf, Mem.keyOf, hk]
  cases mFind m.lines (q / 1024) with
  | none => exact hv k q rfl
  | some l =>
    have hp : ∀ o, o < 1024 → o / 128 = q % 1024 / 128 → m'.linePlain (q / 1024) l o = m.linePlain (q / 1024) l o := by
      intro o ho ho'
      rw [Mem.linePlain, Mem.linePlain, hkk, hv]
      omega
    have hm : (rangeFrom (q % 1024 / 128 * 128) 128).map (m'.linePlain (q / 1024) l) =
        (rangeFrom (q % 1024 / 128 * 128) 128).map (m.linePlain (q / 1024) l) := by
      refine List.map_congr_left fun o ho => hp o ?_ ?_ <;>
        (have := (mem_rangeFrom _ _ _).1 ho; omega)
    dsimp only
    rw [hkk, hp _ (by omega) rfl, hv k q rfl, hm]
/-- Bytes read are a range of places read. -/
theorem readBytes_eq (m : Memory) (a n : Nat) : memReadBytes m a n = (rangeFrom a n).map (memRead m) := by
  induction n generalizing a with
  | zero => rfl
  | succ n ih => rw [memReadBytes, ih]; rfl
/-- A sector under its own key is what HBM holds. -/
theorem sectorRaw_view (m : Mem) (sec : Nat) : m.sectorRaw sec = (rangeFrom (128 * sec) 128).map (m.hbmView (mGet m.secKey 0 sec)) := by
  rw [Mem.sectorRaw, readBytes_eq]
  refine List.map_congr_left fun x hx => ?_
  have := (mem_rangeFrom _ _ _).1 hx
  rw [Mem.hbmView, show x / 128 = sec by omega]
  exact (if_pos rfl).symm
/-- Dirty bytes of a line put into HBM under one key: what HBM then shows, and the key of the sectors written. -/
theorem putAll_view (k ln : Nat) (d : List (Nat × Byte)) (m : Mem) (ho : ∀ x ∈ d, x.1 < 1024) :
    let t := d.foldr (fun ov m => m.hbmPut k (1024 * ln + ov.1) ov.2) m
    (∃ h sk, t = { m with hbm := h, secKey := sk }) ∧
    (∀ q, q / 1024 = ln → t.hbmView k q = (mFind d (q % 1024)).getD (m.hbmView k q)) ∧
    (∀ k' q, (q / 1024 ≠ ln ∨ ∀ x ∈ d, x.1 / 128 ≠ q % 1024 / 128) → t.hbmView k' q = m.hbmView k' q) ∧
    ∀ q, q / 1024 = ln → (∃ x ∈ d, x.1 / 128 = q % 1024 / 128) → mGet t.secKey 0 (q / 128) = k := by
  induction d with
  | nil => exact ⟨⟨m.hbm, m.secKey, rfl⟩, fun q _ => rfl, fun _ _ _ => rfl, fun q _ ⟨x, hx, _⟩ => by simp at hx⟩
  | cons x t ih =>
    obtain ⟨o, v⟩ := x
    have ho' : o < 1024 := ho (o, v) (List.mem_cons_self ..)
    obtain ⟨⟨h, sk, e⟩, i1, i2, i3⟩ := ih (fun x hx => ho x (List.mem_cons_of_mem _ hx))
    dsimp only at e i1 i2 i3 ⊢
    rw [List.foldr_cons]
    generalize hT : t.foldr (fun ov m => m.hbmPut k (1024 * ln + ov.1) ov.2) m = T at *
    obtain ⟨h', sk', e'⟩ := hbmPut_rest T k (1024 * ln + o) v
    have hv := hbmPut_view T k (1024 * ln + o) v
    refine ⟨⟨h', sk', by rw [e', e]⟩, ?_, ?_, ?_⟩
    · intro q hq
      rw [hv q k (.inr rfl), mFind]
      by_cases h1 : o = q % 1024
      · rw [if_pos h1, if_pos (by omega)]; rfl
      · rw [if_neg h1, if_neg (by omega), i1 q hq]
    · intro k' q hq
      rcases hq with hq | hq
      · rw [hv q k' (.inl (by omega)), if_neg (by omega), i2 k' q (.inl hq)]
      · by_cases hl : q / 1024 = ln
        · have h1 := hq (o, v) (List.mem_cons_self ..)
          dsimp only at h1
          rw [hv q k' (.inl (by omega)), if_neg (fun e => h1 (by omega)), i2 k' q (.inr fun x hx => hq x (List.mem_cons_of_mem _ hx))]
        · rw [hv q k' (.inl (by omega)), if_neg (by omega), i2 k' q (.inl hl)]
    · intro q hq ⟨x, hx, hx'⟩
      by_cases hs : o / 128 = q % 1024 / 128
      · have hsec : q / 128 = (1024 * ln + o) / 128 := by omega
        have := rebase_sec T k ((1024 * ln + o) / 128)
        rw [hsec, Mem.hbmPut]; exact this
      · have hxt : ∃ x ∈ t, x.1 / 128 = q % 1024 / 128 := by
          rcases List.mem_cons.1 hx with e | e
          · rw [e] at hx'; exact absurd hx' hs
          · exact ⟨x, e, hx'⟩
        have hk := i3 q hq hxt
        have hne : q / 128 ≠ (1024 * ln + o) / 128 := by omega
        rw [Mem.hbmPut, Mem.rebase]
        dsimp only
        split
        · exact hk
        · dsimp only
          split
          · rw [mGet_mErase, if_neg (Ne.symm hne)]; exact hk
          · rw [mGet_mSet, if_neg (Ne.symm hne)]; exact hk
/-- Finding an entry whose key is in range is not changed by leaving out the entries out of range. -/
theorem mFind_inLine (d : List (Nat × Byte)) (o : Nat) (h : o < 1024) : mFind (d.filter fun ov => decide (ov.1 < 1024)) o = mFind d o := by
  induction d with
  | nil => rfl
  | cons x t ih =>
    obtain ⟨a, b⟩ := x
    rw [List.filter_cons]
    by_cases ha : a < 1024
    · simp only [ha, decide_true, if_true, mFind, ih]
    · simp only [ha, decide_false, Bool.false_eq_true, if_false, mFind, ih]
      rw [if_neg (by omega)]
/-- A LINE'S BYTES WRITTEN BACK: what HBM then shows of it under every key, and that it shows every other line as before (R371). -/
theorem writeBack_view (m : Mem) (ln : Nat) (l : Line) :
    (∃ h sk, m.writeBack ln l = { m with hbm := h, secKey := sk }) ∧
    (∀ q, q / 1024 = ln → (m.writeBack ln l).hbmView (m.keyOf l.key) q = m.linePlain ln l (q % 1024)) ∧
    (∀ k q, (q / 1024 ≠ ln ∨ l.dirtyIn (q % 1024) = false) → (m.writeBack ln l).hbmView k q = m.hbmView k q) ∧
    ∀ k q, q / 1024 = ln → l.dirtyIn (q % 1024) = true → m.keyOf l.key ≠ k → (m.writeBack ln l).hbmView k q =
      recrypt (m.keyOf l.key) k (q / 128) ((rangeFrom (q % 1024 / 128 * 128) 128).map (m.linePlain ln l)) (q % 128) := by
  obtain ⟨e, i1, i2, i3⟩ := putAll_view (m.keyOf l.key) ln (l.dirty.filter fun ov => decide (ov.1 < 1024)) m
    (fun x hx => by simpa using (List.mem_filter.1 hx).2)
  have hT : (l.dirty.filter fun ov => decide (ov.1 < 1024)).foldr (fun ov m' => m'.hbmPut (m.keyOf l.key) (1024 * ln + ov.1) ov.2) m = m.writeBack ln l := rfl
  rw [hT] at e i1 i2 i3
  have p1 : ∀ q, q / 1024 = ln → (m.writeBack ln l).hbmView (m.keyOf l.key) q = m.linePlain ln l (q % 1024) := by
    intro q hq
    rw [i1 q hq, mFind_inLine _ _ (by omega), Mem.linePlain]
    rw [show 1024 * ln + q % 1024 = q by omega]
  refine ⟨e, p1, fun k q hq => i2 k q ?_, fun k q hq hd hk => ?_⟩
  · refine hq.imp_right fun hd x hx hx' => ?_
    obtain ⟨hm, hl⟩ := List.mem_filter.1 hx
    rw [Line.dirtyIn, List.any_eq_false] at hd
    exact hd x hm (by simpa using ⟨by simpa using hl, hx'⟩)
  · rw [Line.dirtyIn, List.any_eq_true] at hd
    obtain ⟨x, hm, hx⟩ := hd
    have hx : x.1 < 1024 ∧ x.1 / 128 = q % 1024 / 128 := by simpa using hx
    have hs := i3 q hq ⟨x, List.mem_filter.2 ⟨hm, by simpa using hx.1⟩, hx.2⟩
    rw [Mem.hbmView, hs]
    refine (if_neg hk).trans ?_
    rw [sectorRaw_view, hs]
    congr 1
    have hr : rangeFrom (128 * (q / 128)) 128 = (rangeFrom (q % 1024 / 128 * 128) 128).map (1024 * ln + ·) := by
      have : ∀ n a b, a = 1024 * ln + b → rangeFrom a n = (rangeFrom b n).map (1024 * ln + ·) := by
        intro n
        induction n with
        | zero => intro _ _ _; rfl
        | succ n ih =>
          intro a b h
          rw [rangeFrom, rangeFrom, List.map_cons, ← h, ih (a + 1) (b + 1) (by omega)]
      exact this _ _ _ (by omega)
    rw [hr, List.map_map]
    refine List.map_congr_left fun o ho => ?_
    have ho := (mem_rangeFrom _ _ _).1 ho
    show (m.writeBack ln l).hbmView _ (1024 * ln + o) = _
    rw [p1 _ (by omega), show (1024 * ln + o) % 1024 = o by omega]
/-- A line leaves with its bytes written back: nothing but HBM and the lines changes. -/
theorem dropLine_rest (m : Mem) (b : Bool) (ln : Nat) :
    ∃ h sk ls, m.dropLine b ln = { m with hbm := h, secKey := sk, lines := ls } ∧ ∀ x, mFind ls x = if x = ln then none else mFind m.lines x := by
  rw [Mem.dropLine]
  cases hl : mFind m.lines ln with
  | none =>
    refine ⟨m.hbm, m.secKey, m.lines, rfl, fun x => ?_⟩
    split
    · rename_i e; rw [e, hl]
    · rfl
  | some l =>
    dsimp only
    cases b
    · exact ⟨m.hbm, m.secKey, _, rfl, fun x => by rw [mFind_mErase]; simp [eq_comm]⟩
    · obtain ⟨⟨h, sk, e⟩, -⟩ := writeBack_view m ln l
      rw [if_pos rfl, e]
      exact ⟨h, sk, _, rfl, fun x => by rw [mFind_mErase]; simp [eq_comm]⟩
/-- A LINE WRITTEN BACK CHANGES NO BYTE that any access reads: under its own key and under every other (R371). -/
theorem dropLine_view (m : Mem) (ln k q : Nat) : (m.dropLine true ln).byteUnder k q = m.byteUnder k q := by
  obtain ⟨h, sk, ls, e, hls⟩ := dropLine_rest m true ln
  cases hl : mFind m.lines ln with
  | none => rw [Mem.dropLine, hl]
  | some l =>
    obtain ⟨⟨hb, sk', e'⟩, v1, v2, v3⟩ := writeBack_view m ln l
    have hd : ∀ k q, (m.dropLine true ln).hbmView k q = (m.writeBack ln l).hbmView k q := by
      intro k q; rw [Mem.dropLine, hl]; rfl
    by_cases hq : q / 1024 = ln
    · rw [Mem.byteUnder, Mem.byteUnder, hq, hl]
      have : mFind (m.dropLine true ln).lines ln = none := by rw [e]; exact (hls ln).trans (if_pos rfl)
      rw [this]
      dsimp only
      rw [hd]
      by_cases hk : m.keyOf l.key = k
      · rw [if_pos hk, ← hk]; exact v1 q hq
      · rw [if_neg hk]
        cases hdi : l.dirtyIn (q % 1024)
        · exact v2 k q (.inr hdi)
        · exact v3 k q hq hdi hk
    · refine byteUnder_ext _ _ _ _ ?_ (by rw [e]) fun k' x hx => ?_
      · rw [e]; exact (hls _).trans (if_neg hq)
      · rw [hd]; exact v2 k' x (.inl (by omega))
/-- A way is found for a fill: nothing but HBM and the lines changes, no line comes, and every byte reads as before. -/
theorem makeRoom_view (m : Mem) (way ln : Nat) :
    (∃ h sk ls, (m.makeRoom way ln).2 = { m with hbm := h, secKey := sk, lines := ls } ∧ ∀ x l, mFind ls x = some l → mFind m.lines x = some l) ∧
    ∀ k q, (m.makeRoom way ln).2.byteUnder k q = m.byteUnder k q := by
  rw [Mem.makeRoom]
  split
  · exact ⟨⟨m.hbm, m.secKey, m.lines, rfl, fun _ _ h => h⟩, fun _ _ => rfl⟩
  · dsimp only
    obtain ⟨h, sk, ls, e, hls⟩ := dropLine_rest m true ((m.victims way ln).getD (Config.victim ln (m.victims way ln) % (m.victims way ln).length) ln)
    refine ⟨⟨h, sk, ls, e, fun x l hx => ?_⟩, fun k q => dropLine_view _ _ _ _⟩
    rw [hls] at hx
    split at hx
    · simp at hx
    · exact hx
/-- WHAT A FILL CAN DO (R362, R369, R371): the memory side but for HBM and the lines stays, every byte reads as before under
every key, a line it leaves is the new one under the key of the access or stood before, and the line of the access
stands under that key or not at all. -/
theorem fillLine_view (m : Mem) (a : PageAttr) (use : Option (Nat × Bool)) (ln : Nat) :
    (∃ h sk ls, (m.fillLine a use ln).2 = { m with hbm := h, secKey := sk, lines := ls }) ∧
    (∀ k q, (m.fillLine a use ln).2.byteUnder k q = m.byteUnder k q) ∧
    (∀ l, mFind (m.fillLine a use ln).2.lines ln = some l → l.key = a.key) ∧
    ∀ x l, mFind (m.fillLine a use ln).2.lines x = some l →
      (x = ln ∧ l.key = a.key ∧ l.use = use.map (·.1) ∧ l.srec = none) ∨ mFind m.lines x = some l := by
  obtain ⟨m1, hm1⟩ : ∃ m1, m1 = (match mFind m.lines ln with
    | some l => if l.key = a.key then m else m.dropLine true ln
    | none => m) := ⟨_, rfl⟩
  have h1 : (∃ h sk ls, m1 = { m with hbm := h, secKey := sk, lines := ls }) ∧ (∀ k q, m1.byteUnder k q = m.byteUnder k q) ∧
      (∀ l, mFind m1.lines ln = some l → l.key = a.key) ∧ ∀ x l, mFind m1.lines x = some l → mFind m.lines x = some l := by
    rw [hm1]
    cases hl : mFind m.lines ln with
    | none => exact ⟨⟨_, _, _, rfl⟩, fun _ _ => rfl, fun l h => by dsimp only at h; rw [hl] at h; simp at h, fun _ _ h => h⟩
    | some l =>
      dsimp only
      split
      · rename_i hk
        exact ⟨⟨_, _, _, rfl⟩, fun _ _ => rfl, fun l' h => by rw [hl] at h; rw [← Option.some.inj h]; exact hk, fun _ _ h => h⟩
      · obtain ⟨h, sk, ls, e, hls⟩ := dropLine_rest m true ln
        refine ⟨⟨h, sk, ls, e⟩, fun k q => dropLine_view _ _ _ _, fun l' h' => ?_, fun x l' h' => ?_⟩
        · rw [e] at h'; dsimp only at h'; rw [hls, if_pos rfl] at h'; simp at h'
        · rw [e] at h'; dsimp only at h'; rw [hls] at h'
          split at h'
          · simp at h'
          · exact h'
  obtain ⟨⟨h, sk, ls, e⟩, b1, l1, o1⟩ := h1
  have hf : m.fillLine a use ln = (match mFind m1.lines ln with
      | some _ => (false, m1)
      | none => if m1.bypass a then (false, m1) else
          (true, { (m1.makeRoom a.way ln).2 with lines := mSet (m1.makeRoom a.way ln).2.lines ln (newLine a use (m1.makeRoom a.way ln).1) })) := by
    rw [hm1]; rfl
  rw [hf]
  cases hl : mFind m1.lines ln with
  | some l => exact ⟨⟨h, sk, ls, e⟩, b1, l1, fun x l hx => .inr (o1 x l hx)⟩
  | none =>
    dsimp only
    split
    · exact ⟨⟨h, sk, ls, e⟩, b1, l1, fun x l hx => .inr (o1 x l hx)⟩
    · obtain ⟨⟨h2, sk2, ls2, e2, hls2⟩, b2⟩ := makeRoom_view m1 a.way ln
      have hno : mFind (m1.makeRoom a.way ln).2.lines ln = none := by
        cases hx : mFind (m1.makeRoom a.way ln).2.lines ln with
        | none => rfl
        | some l =>
          rw [e2] at hx
          have := hls2 ln l hx
          rw [hl] at this; simp at this
      refine ⟨⟨h2, sk2, _, by rw [e2, e]⟩, fun k q => ?_, fun l hx => ?_, fun x l hx => ?_⟩
      · rw [← b1, ← b2]
        by_cases hq : q / 1024 = ln
        · rw [Mem.byteUnder, Mem.byteUnder, hq, hno]
          dsimp only
          rw [mFind_mSet, if_pos rfl]
          dsimp only
          have hd : (newLine a use (m1.makeRoom a.way ln).1).dirtyIn (q % 1024) = false := rfl
          rw [hd]
          split
          · rename_i hk
            rw [Mem.linePlain]
            have hn : mFind (newLine a use (m1.makeRoom a.way ln).1).dirty (q % 1024) = none := rfl
            rw [hn, hk, show 1024 * ln + q % 1024 = q by omega]; rfl
          · rfl
        · refine byteUnder_ext _ _ _ _ ?_ rfl (fun _ _ _ => rfl)
          dsimp only
          rw [mFind_mSet, if_neg (Ne.symm hq)]
      · dsimp only at hx; rw [mFind_mSet, if_pos rfl] at hx; rw [← Option.some.inj hx]; rfl
      · dsimp only at hx
        rw [mFind_mSet] at hx
        split at hx
        · rename_i hx'; rw [← Option.some.inj hx]; exact .inl ⟨hx'.symm, rfl, rfl, rfl⟩
        · rw [e2] at hx; exact .inr (o1 x l (hls2 x l hx))
/-- WHAT A WRITE AT THE HOME LEAVES: the byte as its own key reads it, and every other byte as it was, but that the written
sector reads otherwise under another key. -/
def homeWritten (m m' : Mem) (a : PageAttr) (pa : Nat) (v : Byte) : Prop :=
    (∃ hb sk ls ar, m' = { m with hbm := hb, secKey := sk, lines := ls, arrived := ar } ∧
      ∀ x, x ≠ pa → mGet ar [] x = mGet m.arrived [] x) ∧
    (∀ k q, (q / 128 ≠ pa / 128 ∨ k = m.keyOf a.key) → m'.byteUnder k q = if q = pa then v else m.byteUnder k q) ∧
    (∀ l, mFind m'.lines (pa / 1024) = some l → l.key = a.key) ∧
    ∀ x l, mFind m'.lines x = some l → x ≠ pa / 1024 → mFind m.lines x = some l
/-- A WRITE AT THE HOME writes its byte and nothing else (R217). -/
theorem homeWrite_spec (m : Mem) (a : PageAttr) (pa : Nat) (v : Byte) (wid : Nat) : homeWritten m (m.homeWrite a pa v wid) a pa v := by
  obtain ⟨⟨h, sk, ls, e⟩, b1, l1, o1⟩ := fillLine_view m a none (pa / 1024)
  generalize hM : (m.fillLine a none (pa / 1024)).2 = M at e b1 l1 o1
  have hk0 : M.keyOf a.key = m.keyOf a.key := by rw [e]; rfl
  have ho : ∀ x l, mFind M.lines x = some l → x ≠ pa / 1024 → mFind m.lines x = some l := fun x l hx hn => (o1 x l hx).resolve_left fun h => hn h.1
  cases hl : mFind M.lines (pa / 1024) with
  | some l =>
    have hw : m.homeWrite a pa v wid = { M with
        lines := mSet M.lines (pa / 1024) { l with dirty := mSet l.dirty (pa % 1024) v },
        arrived := mSet M.arrived pa (wid :: (mGet M.arrived [] pa).filter fun w => !(M.predsOf w).isEmpty) } := by
      rw [Mem.homeWrite, show m.fillLine a none (pa / 1024) = ((m.fillLine a none (pa / 1024)).1, M) from Prod.ext rfl hM]
      dsimp only; rw [hl]; rfl
    rw [hw]
    have hkl := l1 l hl
    refine ⟨⟨h, sk, _, mSet M.arrived pa _, by rw [e], fun x hx => ?_⟩, fun k q hq => ?_, fun l' hx => ?_, fun x l' hx hn => ?_⟩
    · rw [e]; dsimp only; rw [mGet_mSet, if_neg (Ne.symm hx)]
    · rw [← b1]
      by_cases hq1 : q / 1024 = pa / 1024
      · rw [Mem.byteUnder, Mem.byteUnder, hq1, hl]
        dsimp only
        rw [mFind_mSet, if_pos rfl]
        dsimp only
        have hp : ∀ o, o < 1024 → (o ≠ pa % 1024) → Mem.linePlain { M with
            lines := mSet M.lines (pa / 1024) { l with dirty := mSet l.dirty (pa % 1024) v },
            arrived := mSet M.arrived pa (wid :: (mGet M.arrived [] pa).filter fun w => !(M.predsOf w).isEmpty) } (pa / 1024)
              { l with dirty := mSet l.dirty (pa % 1024) v } o = M.linePlain (pa / 1024) l o := by
          intro o _ hne
          rw [Mem.linePlain, Mem.linePlain]
          dsimp only
          rw [mFind_mSet, if_neg (Ne.symm hne)]
          rfl
        show (if M.keyOf l.key = k then _ else _) = _
        by_cases hk : M.keyOf l.key = k
        · rw [if_pos hk, if_pos hk]
          by_cases hqp : q = pa
          · subst hqp; rw [if_pos rfl, Mem.linePlain]; dsimp only; rw [mFind_mSet, if_pos rfl]; rfl
          · rw [if_neg hqp]; exact hp _ (by omega) (by omega)
        · have hs : q / 128 ≠ pa / 128 := by
            rcases hq with hq | hq
            · exact hq
            · rw [hq, ← hk0, hkl] at hk; exact absurd rfl hk
          rw [if_neg hk, if_neg hk, if_neg (fun e : q = pa => hs (by rw [e]))]
          have hd : Line.dirtyIn { l with dirty := mSet l.dirty (pa % 1024) v } (q % 1024) = l.dirtyIn (q % 1024) := by
            have key : ∀ d : List (Nat × Byte), (mSet d (pa % 1024) v).any (fun ov => decide (ov.1 < 1024 ∧ ov.1 / 128 = q % 1024 / 128)) =
                d.any (fun ov => decide (ov.1 < 1024 ∧ ov.1 / 128 = q % 1024 / 128)) := by
              have hz : decide (pa % 1024 < 1024 ∧ pa % 1024 / 128 = q % 1024 / 128) = false := by simp; omega
              intro d
              induction d with
              | nil => simp only [mSet, List.any_cons, List.any_nil, hz, Bool.or_false]
              | cons x t ih =>
                obtain ⟨o, b⟩ := x
                rw [mSet]
                split
                · rename_i ho; simp only [List.any_cons, hz, ho]
                · split
                  · simp only [List.any_cons, hz, Bool.false_or]
                  · simp only [List.any_cons, ih]
            exact key l.dirty
          rw [hd]
          have hm := List.map_congr_left (l := rangeFrom (q % 1024 / 128 * 128) 128) fun o ho =>
            have ho := (mem_rangeFrom _ _ _).1 ho
            hp o (by omega) (by omega)
          rw [hm]; rfl
      · rw [if_neg (fun e => hq1 (by rw [e]))]
        refine byteUnder_ext _ _ _ _ ?_ rfl (fun _ _ _ => rfl)
        dsimp only
        rw [mFind_mSet, if_neg (Ne.symm hq1)]
    · dsimp only at hx; rw [mFind_mSet, if_pos rfl] at hx; rw [← Option.some.inj hx]; exact hkl
    · dsimp only at hx; rw [mFind_mSet, if_neg (Ne.symm hn)] at hx; exact ho x l' hx hn
  | none =>
    have hw : m.homeWrite a pa v wid = { M.hbmPut (M.keyOf a.key) pa v with
        arrived := mSet (M.hbmPut (M.keyOf a.key) pa v).arrived pa (wid :: (mGet (M.hbmPut (M.keyOf a.key) pa v).arrived [] pa).filter fun w => !((M.hbmPut (M.keyOf a.key) pa v).predsOf w).isEmpty) } := by
      rw [Mem.homeWrite, show m.fillLine a none (pa / 1024) = ((m.fillLine a none (pa / 1024)).1, M) from Prod.ext rfl hM]
      dsimp only; rw [hl]
    obtain ⟨hb', sk', er⟩ := hbmPut_rest M (M.keyOf a.key) pa v
    have hv := hbmPut_view M (M.keyOf a.key) pa v
    have hlines : (M.hbmPut (M.keyOf a.key) pa v).lines = M.lines := by rw [er]
    have hkeys : (M.hbmPut (M.keyOf a.key) pa v).keys = M.keys := by rw [er]
    rw [hw]
    refine ⟨⟨hb', sk', ls, mSet (M.hbmPut (M.keyOf a.key) pa v).arrived pa _, by rw [er, e], fun x hx => ?_⟩, fun k q hq => ?_, fun l hx => ?_, fun x l hx hn => ?_⟩
    · rw [er, e]; dsimp only; rw [mGet_mSet, if_neg (Ne.symm hx)]
    · rw [← b1]
      by_cases hq1 : q / 1024 = pa / 1024
      · rw [Mem.byteUnder, Mem.byteUnder]
        dsimp only
        rw [hlines, hq1, hl]
        exact hv q k (hq.imp_right fun h => h.trans hk0.symm)
      · rw [if_neg (fun e => hq1 (by rw [e]))]
        refine byteUnder_ext _ _ _ _ (by dsimp only; rw [hlines]) hkeys fun k' x hx => ?_
        have := hv x k' (.inl (by omega))
        rw [if_neg (by omega)] at this
        exact this
    · dsimp only at hx; rw [hlines, hl] at hx; simp at hx
    · dsimp only at hx; rw [hlines] at hx; exact ho x l hx hn
/-- A RUN OF BYTES WRITTEN AT THE HOMES, across lines: its bytes as its own key reads them, and every sector it does not
touch as it was under every key. -/
theorem homeStore_spec (a : PageAttr) (pa : Nat) (bs : List Byte) (s : State) :
    ∃ hb sk ls ar, homeStore a pa bs s = s.setMem { s.mem with nextWid := s.mem.nextWid + 1, hbm := hb, secKey := sk, lines := ls, arrived := ar } ∧
      (∀ q, (homeStore a pa bs s).mem.byteUnder (s.mem.keyOf a.key) q =
        if pa ≤ q ∧ q < pa + bs.length then bs.getD (q - pa) 0 else s.mem.byteUnder (s.mem.keyOf a.key) q) ∧
      (∀ k q, q / 128 < pa / 128 ∨ (pa + bs.length + 127) / 128 ≤ q / 128 → (homeStore a pa bs s).mem.byteUnder k q = s.mem.byteUnder k q) ∧
      ∀ x l, mFind ls x = some l → l.key = a.key ∨ mFind s.mem.lines x = some l := by
  obtain ⟨m0, hm0⟩ : ∃ m0 : Mem, m0 = { s.mem with nextWid := s.mem.nextWid + 1 } := ⟨_, rfl⟩
  have key : ∀ (bs : List Byte) (i : Nat) (m : Mem),
      ∃ hb sk ls ar, (mapIdxFrom (fun i v => (i, v)) i bs).foldl (fun m iv => m.homeWrite a (pa + iv.1) iv.2 s.mem.nextWid) m =
          { m with hbm := hb, secKey := sk, lines := ls, arrived := ar } ∧
        (∀ q, ((mapIdxFrom (fun i v => (i, v)) i bs).foldl (fun m iv => m.homeWrite a (pa + iv.1) iv.2 s.mem.nextWid) m).byteUnder (m.keyOf a.key) q =
          if pa + i ≤ q ∧ q < pa + i + bs.length then bs.getD (q - (pa + i)) 0 else m.byteUnder (m.keyOf a.key) q) ∧
        (∀ k q, (q / 128 < (pa + i) / 128 ∨ (pa + i + bs.length + 127) / 128 ≤ q / 128) →
          ((mapIdxFrom (fun i v => (i, v)) i bs).foldl (fun m iv => m.homeWrite a (pa + iv.1) iv.2 s.mem.nextWid) m).byteUnder k q = m.byteUnder k q) ∧
        ∀ x l, mFind ls x = some l → l.key = a.key ∨ mFind m.lines x = some l := by
    intro bs
    induction bs with
    | nil =>
      intro i m
      refine ⟨m.hbm, m.secKey, m.lines, m.arrived, rfl, fun q => ?_, fun _ _ _ => rfl, fun _ _ h => .inr h⟩
      rw [if_neg (by simp only [List.length_nil]; omega)]; rfl
    | cons v t ih =>
      intro i m
      obtain ⟨⟨hb, sk, ls, ar, e, _⟩, w1, w2, w3⟩ := homeWrite_spec m a (pa + i) v s.mem.nextWid
      have hk : (m.homeWrite a (pa + i) v s.mem.nextWid).keyOf a.key = m.keyOf a.key := by rw [e]; rfl
      obtain ⟨hb', sk', ls', ar', e', i1, i2, i3⟩ := ih (i + 1) (m.homeWrite a (pa + i) v s.mem.nextWid)
      rw [hk] at i1
      refine ⟨hb', sk', ls', ar', ?_, fun q => ?_, fun k q hq => ?_, fun x l hx => ?_⟩
      · show (mapIdxFrom _ (i + 1) t).foldl _ (m.homeWrite a (pa + i) v s.mem.nextWid) = _
        rw [e', e]
      · refine (i1 q).trans ?_
        rw [List.length_cons, w1 _ q (.inr rfl)]
        by_cases h1 : q = pa + i
        · rw [if_neg (by omega), if_pos h1, if_pos (by omega), h1, Nat.sub_self]; rfl
        · by_cases h2 : pa + (i + 1) ≤ q ∧ q < pa + (i + 1) + t.length
          · rw [if_pos h2, if_pos (by omega), show q - (pa + i) = (q - (pa + (i + 1))) + 1 by omega, List.getD_cons_succ]
          · rw [if_neg h2, if_neg h1, if_neg (by omega)]
      · rw [List.length_cons] at hq
        refine (i2 k q (by omega)).trans ?_
        rw [w1 k q (.inl (by omega)), if_neg (by omega)]
      · rcases i3 x l hx with h | h
        · exact .inl h
        · by_cases hxp : x = (pa + i) / 1024
          · left; rw [hxp] at h; exact w2 l h
          · exact .inr (w3 x l h hxp)
  obtain ⟨hb, sk, ls, ar, e, k1, k2, k3⟩ := key bs 0 m0
  have hs : homeStore a pa bs s = s.setMem ((mapIdxFrom (fun i v => (i, v)) 0 bs).foldl (fun m iv => m.homeWrite a (pa + iv.1) iv.2 s.mem.nextWid) m0) := by
    rw [hm0]; rfl
  have hk0 : m0.keyOf a.key = s.mem.keyOf a.key := by rw [hm0]; rfl
  have hb0 : ∀ k q, m0.byteUnder k q = s.mem.byteUnder k q := by intro k q; rw [hm0]; rfl
  rw [hk0] at k1
  refine ⟨hb, sk, ls, ar, by rw [hs, e, hm0], fun q => ?_, fun k q hq => ?_, fun x l hx => ?_⟩
  · rw [hs]
    refine (k1 q).trans ?_
    rw [hb0, Nat.add_zero]
  · rw [hs]
    exact (k2 k q (by rw [Nat.add_zero]; exact hq)).trans (hb0 k q)
  · have := k3 x l hx
    rw [hm0] at this
    exact this

end Sys2Proof.Machine
end

