-- ==== Sys2Proof/Laws/Loads.lean ====
section
/-! SUPPORT. The issue of a load behind an empty stream: its result as issued, the bytes it takes, the state it leaves. -/
namespace Sys2Proof.Machine

theorem addHb_hb (wk : Nat) (s : State) (l : List Nat) (hk : wk = s.cur.wk) : ∃ h, addHb wk l s = s.updCw fun w => { w with hb := h } := by
  subst hk
  rw [addHb]
  split
  · refine ⟨s.cw.hb, ?_⟩
    have : (s.updCw fun w => { w with hb := s.cw.hb }) = s.updCw fun w => w := updCw_congr s _ _ rfl
    rw [this]; exact (updCw_id s).symm
  · refine ⟨s.prune (l ++ s.cw.hb), ?_⟩
    exact updCw_congr s (fun w => { w with hb := s.prune (l ++ w.hb) }) (fun w => { w with hb := s.prune (l ++ s.cw.hb) }) rfl
theorem performOp_own (wk : Nat) (o : MemOp) (s : State) (h : (s.warp wk).memq = [o]) (ha : o.atomAhead wk s = false)
    (hh : hbHeld s wk o.wid = false) (hn : o.noRoom wk s = false) (hg : o.gate = none) : performOp wk o.id s = finishOp wk o s := by
  have h1 : o.blockedBy [] = false := by simp [MemOp.blockedBy]
  simp only [performOp, MemOp.held, h, find_own, take_own, h1, ha, hh, hn, hg, Bool.or_self, Bool.false_eq_true, if_false]
/-- What another warp has to perform first does not depend on the warp's own stream. -/
theorem hbHeld_upd (s : State) (wk n : Nat) (f : Warp → Warp) (hw : (mFind s.warps wk).isSome = true)
    (hf : (f (s.warp wk)).hb = (s.warp wk).hb) : hbHeld (s.updWarp wk f) wk n = hbHeld s wk n := by
  have hany : ∀ (p : Nat × Warp → Bool) (m : Map Warp), (mMod m wk f).any (fun kw => kw.1 != wk && p kw) =
      m.any fun kw => kw.1 != wk && p kw := by
    intro p m
    induction m with
    | nil => rfl
    | cons a t ih =>
      obtain ⟨k, w⟩ := a
      by_cases hk : k = wk
      · subst hk; simp [mMod]
      · have : (if k = wk then (k, f w) :: t else (k, w) :: mMod t wk f) = (k, w) :: mMod t wk f := if_neg hk
        rw [mMod, this, List.any_cons, List.any_cons, ih]
  have hb : ((s.updWarp wk f).warp wk).hb = (s.warp wk).hb := by rw [State.updWarp_warp _ _ _ hw, hf]
  simp only [hbHeld, hb]
  congr 1
  exact hany (fun kw => kw.2.memq.any fun x => decide (x.wid < n) && (s.warp wk).hb.contains x.wid) s.warps
theorem hbHeld_congr {s t : State} (wk n : Nat) (h : t.warps = s.warps) : hbHeld t wk n = hbHeld s wk n := by
  simp only [hbHeld, State.warp, h]
/-- The room in a peer's queue slice depends on results and stores under way alone (R382). -/
theorem lanesAsk_upd (s : State) (wk p : Nat) (f : Warp → Warp)
    (hf : ∀ w, ((f w).outs.map fun o => o.requests p).foldl (· + ·) 0 = (w.outs.map fun o => o.requests p).foldl (· + ·) 0) :
    lanesAsk (s.updWarp wk f) p = lanesAsk s p := by
  have : ∀ m : Map Warp, ((mMod m wk f).map fun kw => (kw.2.outs.map fun o => o.requests p).foldl (· + ·) 0) =
      m.map fun kw => (kw.2.outs.map fun o => o.requests p).foldl (· + ·) 0 := by
    intro m
    induction m with
    | nil => rfl
    | cons a t ih =>
      obtain ⟨k, w⟩ := a
      rw [mMod]
      split
      · simp [hf]
      · rw [List.map_cons, List.map_cons, ih]
  simp only [lanesAsk, State.updWarp, State.setWarps_warps, this]
theorem room_upd (l : LoadSrc) (s : State) (wk : Nat) (f : Warp → Warp)
    (hf : ∀ w p, ((f w).outs.map fun o => o.requests p).foldl (· + ·) 0 = (w.outs.map fun o => o.requests p).foldl (· + ·) 0) :
    l.room (s.updWarp wk f) = l.room s := by
  simp only [LoadSrc.room, sliceRoom, lanesAsk_upd s wk _ f (fun w => hf w _)]
  rfl
/-- A load's outstanding result as it is issued. -/
def loadOut (k : LoadKind) (n : Nat) (t : Reg) (accs : List LaneAcc) (id : Nat) (mask : Word) (pc : DWord) : Out :=
  { Out.blank id mask t (n == 8) with
      load := some { kind := k, accs := accs, size := n }, waitOp := true, agree := decide (88 ≤ t.toNat ∧ t.toNat < 124),
      writes := if t = 124 then [] else (dueWrites t (n == 8) (accs.map fun a => (a.lane, 0))).getD [],
      peer := accs.findSome? (·.peer), pc := pc }
/-- The change of its warp when a result that is compared is issued; `zs` are the writes that it then stands for. -/
def cmpIssue (o : Out) (zs : List RegWrite) (mask : Word) (pc : DWord) (w : Warp) : Warp :=
  { w with
    outs := (w.outs.map fun p => { p with writes := p.writes.filter fun x => zs.all fun y => x.dest != y.dest }) ++ [o]
    nextId := o.id + 1, parks := w.parks ++ [⟨mask, pc, .compare o.id⟩] }
/-- The change of its warp when a load is issued. -/
def loadIssue (o : Out) (zs : List RegWrite) (rs : List Nat) (m : Word) (pc : DWord) (w : Warp) : Warp :=
  if o.agree then cmpIssue o zs m pc w else dueIssue o rs m pc w
/-- A load's operation in the stream. -/
def loadOp (k : LoadKind) (isLocal : Bool) (id wid : Nat) : MemOp :=
  { MemOp.blank id wid with load := some id, isLocal := isLocal, acq := k.acquires }
/-- The writes of a result that are still due, with their values. -/
def takenWrites (old due : List RegWrite) : List RegWrite := old.filterMap fun x => due.find? fun y => y.dest == x.dest
/-- A load's result with the values that it has taken. -/
def takenOut (o : Out) (vals : List (Nat × DWord)) : Out :=
  { o with waitOp := false, vals := vals, writes := takenWrites o.writes ((dueWrites o.dest o.pair vals).getD []) }
/-- The bytes a load takes, and the state after the fills. -/
def loadSource (wk id : Nat) (k : LoadKind) (n : Nat) (accs : List LaneAcc) (s : State) : Map (List HByte) × State :=
  match k with
  | .loc q => (loadLocal (s.block (s.warp wk).bk) q n accs, s)
  | .locAcq _ => (loadLocal (s.block (s.warp wk).bk) .sp n accs, s)
  | k => loadGlobal wk (s.block (s.warp wk).bk).core id k n accs s
theorem loadSource_side (wk id : Nat) (k : LoadKind) (n : Nat) (accs : List LaneAcc) (s : State) :
    memSide s (loadSource wk id k n accs s).2 := by
  cases k <;> first | exact .refl s | exact loadGlobal_side _ _ _ _ _ _ _
theorem taken_dests (old due : List RegWrite) (p : Dest → Bool) (h : ∀ x ∈ old, (due.find? fun y => y.dest == x.dest).isSome = true) :
    (takenWrites old due).all (fun y => p y.dest) = old.all fun y => p y.dest := by
  induction old with
  | nil => rfl
  | cons x t ih =>
    obtain ⟨y, hy⟩ := Option.isSome_iff_exists.1 (h x List.mem_cons_self)
    have hd : y.dest = x.dest := by simpa using List.find?_some hy
    have ih := ih fun z hz => h z (List.mem_cons_of_mem _ hz)
    rw [takenWrites, List.filterMap_cons, hy]
    show (y :: takenWrites t due).all _ = _
    rw [List.all_cons, List.all_cons, ih, hd]
/-- A lane destination's writes name the same registers whatever the values. -/
theorem laneWrites_found (t : Reg) (pair : Bool) (ls : List LaneAcc) (f g : LaneAcc → DWord) :
    ∀ x ∈ laneWrites t pair (ls.map fun a => (a.lane, f a)), ((laneWrites t pair (ls.map fun a => (a.lane, g a))).find? fun y => y.dest == x.dest).isSome = true := by
  intro x hx
  obtain ⟨z, hz, hx⟩ := (mem_laneWrites _ _ _ _).1 hx
  obtain ⟨a, ha, rfl⟩ := List.mem_map.1 hz
  have hm : (a.lane, g a) ∈ ls.map fun a => (a.lane, g a) := List.mem_map.2 ⟨a, ha, rfl⟩
  rw [List.find?_isSome]
  rcases hx with rfl | ⟨hp, rfl⟩
  · exact ⟨_, (mem_laneWrites _ _ _ _).2 ⟨_, hm, .inl rfl⟩, by simp⟩
  · exact ⟨_, (mem_laneWrites _ _ _ _).2 ⟨_, hm, .inr ⟨hp, rfl⟩⟩, by simp⟩
theorem find_last (xs : List Out) (o : Out) (h : ∀ x ∈ xs, x.id ≠ o.id) : (xs ++ [o]).find? (fun x => x.id == o.id) = some o := by
  rw [List.find?_append, List.find?_eq_none.2 (by intro x hx; simpa using h x hx)]
  simp
theorem map_last (xs : List Out) (o : Out) (i : Nat) (f : Out → Out) (hi : o.id = i) (h : ∀ x ∈ xs, x.id ≠ i) :
    (xs ++ [o]).map (fun x => if x.id = i then f x else x) = xs ++ [f o] := by
  rw [List.map_append]
  congr 1
  · conv => rhs; rw [← List.map_id xs]
    refine List.map_congr_left fun x hx => ?_
    rw [if_neg (h x hx)]; rfl
  · simp [hi]
theorem upd_over (T S : State) (G F : Warp → Warp) (hc : T.cur = S.cur) (hw : T.warps = (S.updCw G).warps) :
    T.updWarp S.cur.wk F = (T.setWarps S.warps).updCw (fun w => F (G w)) := by
  have : (T.setWarps S.warps).updCw (fun w => F (G w)) = T.setWarps (mMod S.warps S.cur.wk fun w => F (G w)) := by
    simp only [State.updCw, State.updWarp, State.setWarps_cur, State.setWarps_warps, hc]; rfl
  rw [this, ← mMod_mMod, State.updWarp, hw]; rfl
/-- THE ISSUE OF A LOAD at the head of an empty stream. -/
theorem issueLoad_run (k : LoadKind) (isLocal : Bool) (n : Nat) (t : Reg) (r : LaneRes) (s : State) (hs : memSide s r.s)
    (hb : s.inBundle = true) (hf : r.faults = []) (hacc : r.accs.map (·.lane) = s.bl) (hq : s.cw.memq = [])
    (ha : ∀ a ∈ r.s.mem.atoms, a.wk ≠ s.cur.wk) (hh : ∀ n, hbHeld s s.cur.wk n = false)
    (hroom : LoadSrc.room { kind := k, accs := r.accs, size := n } r.s = true) :
    ∃ Y h T1 m T2 o1,
      T1 = (match k.acquires with
        | some sc => acquireDrop (s.block s.cw.bk).core sc ((numbered r.s).updCw (loadIssue (loadOut k n t r.accs (freshId s) s.cur.mask s.cur.pc) (loadOut k n t r.accs (freshId s) s.cur.mask s.cur.pc).writes (laneRows t (n == 8)) s.cur.mask s.cur.pc))
        | none => (numbered r.s).updCw (loadIssue (loadOut k n t r.accs (freshId s) s.cur.mask s.cur.pc) (loadOut k n t r.accs (freshId s) s.cur.mask s.cur.pc).writes (laneRows t (n == 8)) s.cur.mask s.cur.pc)) ∧
      (m, T2) = loadSource s.cur.wk (freshId s) k n r.accs T1 ∧
      o1 = takenOut (loadOut k n t r.accs (freshId s) s.cur.mask s.cur.pc) (r.accs.map fun a => (a.lane, loadVal (mGet m [] a.lane))) ∧
      (k.acquires = none → Y = T2.setWarps s.warps ∧ h = s.cw.hb) ∧
      (∀ sc, k.acquires = some sc → Y = (acquireDrop (s.block s.cw.bk).core sc T2).setWarps s.warps) ∧
      issueLoad k isLocal n t r = Y.updCw (fun w => { loadIssue o1 (loadOut k n t r.accs (freshId s) s.cur.mask s.cur.pc).writes (laneRows t (n == 8)) s.cur.mask s.cur.pc w with hb := h }) := by
  obtain ⟨h1, h2, h3, h4⟩ := (inBundle_iff s).1 hb
  have hbr : r.s.inBundle = true := hs.inBundle hb
  have hcw : r.s.cw = s.cw := hs.cw
  have hne : r.accs.isEmpty = false := by
    cases hx : r.accs with
    | nil => rw [hx] at hacc; exact absurd hacc.symm (bl_ne s h4)
    | cons a l => rfl
  have hlive : r.s.live = s.cur.mask := by rw [live_eq r.s (by rw [hs.cur]; exact h3), hs.cur]
  -- the operation alone in its stream
  set id := freshId s with hid
  set o0 := loadOut k n t r.accs id s.cur.mask s.cur.pc with ho0
  set op := loadOp k isLocal id r.s.mem.nextWid with hop
  obtain ⟨P, hP⟩ : ∃ P, P = (if o0.agree then parkBundle (.compare id) (pushOp op (mapRows (laneRows t (n == 8)) (addOut o0 (numbered r.s))))
      else done (pushOp op (mapRows (laneRows t (n == 8)) (addOut o0 (numbered r.s))))) := ⟨_, rfl⟩
  have hissue : issueLoad k isLocal n t r = performOp s.cur.wk id P := by
    have hfid : freshId (numbered r.s) = id := by
      show r.s.cw.fresh = _
      rw [hcw]; rfl
    have hl2 : (numbered r.s).live = s.cur.mask := hlive
    simp only [issueLoad, hf, raiseLanes, hne, Bool.false_eq_true, if_false]
    rw [show freshId (freshWid r.s).2 = id from hfid, show (freshWid r.s).2.live = s.cur.mask from hl2,
      show (freshWid r.s).2.cur.faulted = 0 from (congrArg Cur.faulted hs.cur).trans h3, hs.cur, hP]
    rfl
  -- what the issue makes of the warp
  have hS : (numbered r.s).inBundle = true := inBundle_congr r.s _ hbr rfl rfl
  have hScw : (numbered r.s).cw = s.cw := hcw
  have hSf : (numbered r.s).cur = s.cur := hs.cur
  have hwr : ∀ w : Warp, o0.writes.foldl (fun w x => dropPending x.dest w) w = { w with outs := w.outs.map fun o => { o with writes := o.writes.filter fun x => o0.writes.all fun y => x.dest != y.dest } } := fun w => dropAll_eq _ _
  have hPw : ∃ G : Warp → Warp, P = (numbered r.s).updCw G ∧ (G s.cw).memq = [op] ∧ (G s.cw).bk = s.cw.bk ∧ (G s.cw).hb = s.cw.hb ∧ (G s.cw).outs.find? (fun x => x.id == id) = some o0 ∧
      (∀ w p, ((G w).outs.map fun o => o.requests p).foldl (· + ·) 0 = (w.outs.map fun o => o.requests p).foldl (· + ·) 0) ∧
      ({ G s.cw with memq := (G s.cw).memq.filter fun x => x.id != id } : Warp) = loadIssue o0 o0.writes (laneRows t (n == 8)) s.cur.mask s.cur.pc s.cw := by
    have hof : (op.fence || op.gate.isSome) = false := rfl
    have hol : (op.isLocal && op.load.isNone) = false := by show (isLocal && false) = false; rw [Bool.and_false]
    have hfo : ∀ F : Out → Out, (∀ o, (F o).id = o.id) → (s.cw.outs.map F ++ [o0]).find? (fun x => x.id == id) = some o0 := by
      intro F hF
      refine find_last _ o0 fun x hx => ?_
      obtain ⟨y, hy, rfl⟩ := List.mem_map.1 hx
      rw [hF]; exact (fresh_new s.cw).1 y hy
    have hreq : ∀ (w : Warp) (p : Nat), (((w.outs.map fun (q : Out) => { q with writes := q.writes.filter fun x => o0.writes.all fun y => x.dest != y.dest }) ++ [o0]).map fun o : Out => o.requests p).foldl (· + ·) 0 =
        (w.outs.map fun o => o.requests p).foldl (· + ·) 0 := by
      intro w p
      rw [List.map_append, List.foldl_append, List.map_map]
      simp only [List.map_cons, List.map_nil, List.foldl_cons, List.foldl_nil]
      rfl
    have hids : ∀ w : Warp, ([op].filter fun x => x.id != id) = [] := by intro _; simp [hop, loadOp, MemOp.blank]
    cases hag : o0.agree with
    | true =>
      have hrs : laneRows t (n == 8) = [] := by
        have : 88 ≤ t.toNat ∧ t.toNat < 124 := by simpa [ho0, loadOut] using hag
        rw [laneRows, if_neg (by omega)]
      refine ⟨fun w => { w with
        outs := (w.outs.map fun p => { p with writes := p.writes.filter fun x => o0.writes.all fun y => x.dest != y.dest }) ++ [o0],
        nextId := id + 1, memq := w.memq ++ [op], parks := w.parks ++ [⟨s.cur.mask, s.cur.pc, .compare id⟩] }, ?_, ?_, rfl, rfl, hfo _ (fun _ => rfl), ?_, ?_⟩
      · rw [hP, hag, if_pos rfl]
        have hl3 : (pushOp op (mapRows (laneRows t (n == 8)) (addOut o0 (numbered r.s)))).live = s.cur.mask := by
          show (numbered r.s).live = _
          exact hlive
        have hp3 : (pushOp op (mapRows (laneRows t (n == 8)) (addOut o0 (numbered r.s)))).cur.pc = s.cur.pc := by
          show r.s.cur.pc = _
          rw [hs.cur]
        rw [parkBundle, hl3, hp3, pushOp, mapRows, addOut, updCw_updCw, updCw_updCw, updCw_updCw]
        simp only [hof, hol, hwr, hrs, List.foldl_nil, Bool.false_eq_true, if_false]
        rfl
      · show s.cw.memq ++ [op] = _; rw [hq]; rfl
      · intro w p; exact hreq w p
      · rw [loadIssue, hag, if_pos rfl, cmpIssue]
        simp only [hq, List.nil_append, hids s.cw]
        rw [← hq]; rfl
    | false =>
      refine ⟨fun w => endIssue s.cur.mask s.cur.pc { w with
        outs := (w.outs.map fun p => { p with writes := p.writes.filter fun x => o0.writes.all fun y => x.dest != y.dest }) ++ [o0], nextId := id + 1, mapped := (laneRows t (n == 8)).foldl (fun m r => m ||| (1#88 <<< r)) w.mapped, memq := w.memq ++ [op] }, ?_, ?_, rfl, rfl, hfo _ (fun _ => rfl), ?_, ?_⟩
      · rw [hP, hag, if_neg (by decide)]
        have hf3 : (pushOp op (mapRows (laneRows t (n == 8)) (addOut o0 (numbered r.s)))).cur = s.cur := hSf
        rw [done_eq _ (by rw [hf3]; exact h3), hf3, pushOp, mapRows, addOut, updCw_updCw, updCw_updCw, updCw_updCw]
        simp only [hof, hol, hwr, Bool.false_eq_true, if_false]
        rfl
      · show s.cw.memq ++ [op] = _; rw [hq]; rfl
      · intro w p; exact hreq w p
      · rw [loadIssue, hag, if_neg (by decide), dueIssue]
        simp only [endIssue, Warp.updLanes, hq, List.nil_append, hids s.cw]
        rw [← hq]; rfl
  obtain ⟨G, hPG, g1, g2, g4, hfo0, g5, g3⟩ := hPw
  have hPcw : P.warp s.cur.wk = G s.cw := by
    have := updCw_cw (numbered r.s) G (by rw [hSf]; have := (inBundle_iff _).1 hS; rw [hSf] at this; exact this.1)
    rw [hScw, State.cw] at this
    rw [hPG]
    show ((numbered r.s).updCw G).warp s.cur.wk = _
    rw [← hSf]; exact this
  have hah : op.atomAhead s.cur.wk P = false := by
    have : (P.mem.atoms.filter fun a => a.wk == s.cur.wk && decide (a.opId < op.id)) = [] := by
      rw [List.filter_eq_nil_iff]
      intro a hm
      rw [hPG] at hm
      have := ha a hm
      simp [this]
    simp [MemOp.atomAhead, this]
  have hlw : (mFind (numbered r.s).warps (numbered r.s).cur.wk).isSome = true := ((inBundle_iff _).1 hS).1
  have hPu : P = (numbered r.s).updWarp s.cur.wk G := by
    rw [hPG, ← hSf]; rfl
  have hhb : hbHeld P s.cur.wk op.wid = false := by
    rw [hPu, hbHeld_upd _ _ _ _ (by rw [← hSf]; exact hlw) (by
      have : (numbered r.s).warp s.cur.wk = s.cw := by rw [← hScw, State.cw, hSf]
      rw [this]; exact g4)]
    rw [hbHeld_congr s.cur.wk op.wid (show (numbered r.s).warps = s.warps from hs.warps)]
    exact hh _
  have hnr : op.noRoom s.cur.wk P = false := by
    rw [MemOp.noRoom]
    split
    · rename_i l hl
      have hl2 : l = { kind := k, accs := r.accs, size := n } := by
        have : ((P.warp s.cur.wk).outs.find? fun x => x.id == id).bind (·.load) = some l := hl
        rw [hPcw] at this
        have hf2 : (G s.cw).outs.find? (fun x => x.id == id) = some o0 := hfo0
        rw [hf2] at this
        exact (Option.some.inj this).symm
      rw [hPu, room_upd _ _ _ _ g5, hl2]
      have : LoadSrc.room { kind := k, accs := r.accs, size := n } (numbered r.s) = true := hroom
      rw [this]; rfl
    · rfl
  have hperf : performOp s.cur.wk id P = finishOp s.cur.wk op P :=
    performOp_own s.cur.wk op P (by rw [hPcw, g1]) hah hhb hnr rfl
  have hcore : (P.block (P.warp s.cur.wk).bk).core = (s.block s.cw.bk).core := by
    rw [hPcw, g2]
    have : P.blocks = s.blocks := by rw [hPG]; exact hs.blocks
    rw [State.block, this]; rfl
  set L := loadIssue o0 o0.writes (laneRows t (n == 8)) s.cur.mask s.cur.pc with hL
  have hs1 : (P.updWarp s.cur.wk fun w => { w with memq := w.memq.filter fun x => x.id != op.id }) = (numbered r.s).updCw L := by
    rw [hPG]
    have e : ((numbered r.s).updCw G).updWarp s.cur.wk (fun w => { w with memq := w.memq.filter fun x => x.id != op.id }) =
        (numbered r.s).updCw fun w => { G w with memq := (G w).memq.filter fun x => x.id != op.id } := by
      have := updCw_updCw (numbered r.s) G (fun w => { w with memq := w.memq.filter fun x => x.id != op.id })
      rw [← this]
      show _ = ((numbered r.s).updCw G).updWarp ((numbered r.s).updCw G).cur.wk _
      have : ((numbered r.s).updCw G).cur.wk = s.cur.wk := by show (numbered r.s).cur.wk = _; rw [hSf]
      rw [this]
    rw [e]
    refine updCw_congr _ _ _ ?_
    rw [hScw]; exact g3
  obtain ⟨T1, hT1⟩ : ∃ T1, T1 = (match k.acquires with
    | some sc => acquireDrop (s.block s.cw.bk).core sc ((numbered r.s).updCw L)
    | none => (numbered r.s).updCw L) := ⟨_, rfl⟩
  have hfin : finishOp s.cur.wk op P = sampleLoad s.cur.wk id T1 := by
    have e1 : op.roinv = false := rfl
    have e2 : op.ws = [] := rfl
    have e3 : op.lws = [] := rfl
    have e4 : op.load = some id := rfl
    have e5 : op.acq = k.acquires := rfl
    simp only [finishOp, e1, e2, e3, e4, e5, List.isEmpty_nil, if_true, Bool.false_eq_true, if_false]
    rw [hs1, hcore, hT1]
    all_goals (cases k.acquires <;> rfl)
  have hside1 : memSide ((numbered r.s).updCw L) T1 := by
    rw [hT1]; split
    · exact acquireDrop_side _ _ _
    · exact .refl _
  have hT1cw : T1.warp s.cur.wk = L s.cw := by
    rw [hside1.warp]
    have := updCw_cw (numbered r.s) L hlw
    rw [hScw] at this
    rw [← hSf]; exact this
  -- its result stands last
  obtain ⟨pre, hpre, hnew⟩ : ∃ pre, (L s.cw).outs = pre ++ [o0] ∧ ∀ x ∈ pre, x.id ≠ id := by
    rw [hL, loadIssue]
    split
    all_goals
      refine ⟨_, rfl, ?_⟩
      intro x hx
      obtain ⟨y, hy, rfl⟩ := List.mem_map.1 hx
      exact (fresh_new s.cw).1 y hy
  have hfind : (T1.warp s.cur.wk).outs.find? (fun o => o.id == id) = some o0 := by
    rw [hT1cw, hpre]; exact find_last pre o0 hnew
  have hblk : ∀ bk, T1.block bk = s.block bk := by
    intro bk
    rw [hside1.block]
    show r.s.block bk = _
    rw [hs.block]
  have hbk1 : (T1.warp s.cur.wk).bk = s.cw.bk := by
    rw [hT1cw, hL, loadIssue]; split <;> rfl
  obtain ⟨m, T2, hsrc⟩ : ∃ m T2, (m, T2) = loadSource s.cur.wk id k n r.accs T1 := ⟨_, _, rfl⟩
  set o1 := takenOut o0 (r.accs.map fun a => (a.lane, loadVal (mGet m [] a.lane))) with ho1
  have hside2 : memSide T1 T2 := by
    have := loadSource_side s.cur.wk id k n r.accs T1
    rw [← hsrc] at this; exact this
  set vals := r.accs.map (fun a => (a.lane, loadVal (mGet m [] a.lane))) with hvals
  set fo : Out → Out := fun o => { o with waitOp := false, vals := vals, writes := takenWrites o0.writes ((dueWrites o0.dest o0.pair vals).getD []) } with hfo
  have hfo1 : fo o0 = o1 := rfl
  have hsam : sampleLoad s.cur.wk id T1 = (match k.acquires with
      | some sc => acquire s.cur.wk (T1.block (T1.warp s.cur.wk).bk).core sc ((m.flatMap fun kv => kv.2.map (·.wid)).dedup) (updOut s.cur.wk id fo T2)
      | none => updOut s.cur.wk id fo T2) := by
    have hl : o0.load = some { kind := k, accs := r.accs, size := n } := rfl
    have hm : m = (loadSource s.cur.wk id k n r.accs T1).1 := congrArg Prod.fst hsrc
    have ht : T2 = (loadSource s.cur.wk id k n r.accs T1).2 := congrArg Prod.snd hsrc
    rw [hfo, hvals, hm, ht]
    cases k <;> (simp only [sampleLoad, hfind, hl]; rfl)
  -- the state with its warp once more as it was
  have hT2w : T2.warps = ((numbered r.s).updCw L).warps := by rw [hside2.warps, hside1.warps]
  have hT2c : T2.cur = (numbered r.s).cur := by rw [hside2.cur, hside1.cur]; rfl
  have hfinal : updOut s.cur.wk id fo T2 = (T2.setWarps (numbered r.s).warps).updCw (loadIssue o1 o0.writes (laneRows t (n == 8)) s.cur.mask s.cur.pc) := by
    have e := upd_over T2 (numbered r.s) L (fun w => { w with outs := w.outs.map fun o => if o.id = id then fo o else o }) hT2c hT2w
    rw [hSf] at e
    rw [updOut, e]
    refine updCw_congr _ _ _ ?_
    have hcwY : (T2.setWarps (numbered r.s).warps).cw = s.cw := by
      rw [State.cw, State.warp, State.setWarps_cur, State.setWarps_warps, hT2c]
      exact hScw
    rw [hcwY]
    have hag : o1.agree = o0.agree := rfl
    have hid0 : o0.id = id := rfl
    have hid1 : o1.id = id := rfl
    rw [hL]
    simp only [loadIssue, hag]
    split
    · simp only [cmpIssue, hid0, hid1]
      rw [map_last _ o0 id fo rfl, hfo1]
      intro x hx
      obtain ⟨y, hy, rfl⟩ := List.mem_map.1 hx
      exact (fresh_new s.cw).1 y hy
    · rename_i hna
      have hfd : ∀ x ∈ o0.writes, (((dueWrites o0.dest o0.pair vals).getD []).find? fun y => y.dest == x.dest).isSome = true := by
        have hw0 : o0.writes = if t = 124 then [] else (dueWrites t (n == 8) (r.accs.map fun a => (a.lane, 0))).getD [] := rfl
        intro x hx
        by_cases hz : t = 124
        · rw [hw0, if_pos hz] at hx; simp at hx
        · have hn124 : t.toNat ≠ 124 := fun hc => hz (BitVec.eq_of_toNat_eq hc)
          rw [hw0, if_neg hz] at hx
          have hlow : t.toNat < 88 ∨ 124 < t.toNat := by
            have : ¬ (88 ≤ t.toNat ∧ t.toNat < 124) := by simpa [ho0, loadOut] using hna
            omega
          rcases hlow with hlow | hlow
          · simp only [dueWrites, if_pos hlow, Option.getD_some] at hx
            have : ((dueWrites o0.dest o0.pair vals).getD []) = laneWrites t (n == 8) (r.accs.map fun a => (a.lane, loadVal (mGet m [] a.lane))) := by
              show ((dueWrites t (n == 8) vals).getD []) = _
              simp only [dueWrites, if_pos hlow, Option.getD_some, hvals]
            rw [this]
            exact laneWrites_found t (n == 8) r.accs (fun _ => 0) _ x hx
          · have n1 : ¬ t.toNat < 88 := by omega
            have n2 : ¬ t.toNat < 108 := by omega
            simp [dueWrites, n1, n2] at hx
      have hdst : ∀ x : RegWrite, (o1.writes.all fun y => x.dest != y.dest) = o0.writes.all fun y => x.dest != y.dest :=
        fun x => taken_dests _ _ (fun d => x.dest != d) hfd
      simp only [dueIssue, hid0, hid1, hdst, endIssue, Warp.updLanes]
      rw [map_last _ o0 id fo rfl, hfo1]
      intro x hx
      obtain ⟨y, hy, rfl⟩ := List.mem_map.1 hx
      exact (fresh_new s.cw).1 y hy
  have hnw : (numbered r.s).warps = s.warps := hs.warps
  have hY : ∀ X : State, X.warps = s.warps → X.cur = s.cur → ∀ h : List Nat, X.cw = s.cw ∧
      ((X.updCw (loadIssue o1 o0.writes (laneRows t (n == 8)) s.cur.mask s.cur.pc)).updCw fun w => { w with hb := h }) =
        X.updCw fun w => { loadIssue o1 o0.writes (laneRows t (n == 8)) s.cur.mask s.cur.pc w with hb := h } := by
    intro X hX hXc h
    refine ⟨by rw [State.cw, State.warp, hX, hXc]; rfl, updCw_updCw _ _ _⟩
  have hY0 := hY (T2.setWarps s.warps) rfl (by show T2.cur = _; rw [hT2c, hSf])
  rw [hnw] at hfinal
  have htot : issueLoad k isLocal n t r = sampleLoad s.cur.wk id T1 := by rw [hissue, hperf, hfin]
  cases hac : k.acquires with
  | none =>
    rw [hac] at hsam
    refine ⟨T2.setWarps s.warps, s.cw.hb, T1, m, T2, o1, ?_, hsrc, rfl, fun _ => ⟨rfl, rfl⟩, fun sc h => absurd h (by simp), ?_⟩
    · rw [hT1, hac]
    · rw [htot, hsam]
      show updOut s.cur.wk id fo T2 = _
      rw [hfinal]
      refine updCw_congr _ _ _ ?_
      rw [(hY0 []).1, loadIssue]
      split <;> rfl
  | some sc =>
    rw [hac] at hsam
    obtain ⟨h, hh⟩ : ∃ h, acquire s.cur.wk (T1.block (T1.warp s.cur.wk).bk).core sc ((m.flatMap fun kv => kv.2.map (·.wid)).dedup) (updOut s.cur.wk id fo T2) =
        acquireDrop (s.block s.cw.bk).core sc ((updOut s.cur.wk id fo T2).updCw fun w => { w with hb := h }) := by
      rw [hbk1, hblk, acquire]
      obtain ⟨h, hh⟩ := addHb_hb s.cur.wk (updOut s.cur.wk id fo T2) _ (by
        show s.cur.wk = T2.cur.wk
        rw [hT2c, hSf])
      exact ⟨h, congrArg _ hh⟩
    refine ⟨(acquireDrop (s.block s.cw.bk).core sc T2).setWarps s.warps, h, T1, m, T2, o1, ?_, hsrc, rfl, fun h => absurd h (by simp), ?_, ?_⟩
    · rw [hT1, hac]
    · intro sc' h'
      simp only [Option.some.injEq] at h'
      rw [h']
    · rw [htot, hsam]
      show acquire s.cur.wk (T1.block (T1.warp s.cur.wk).bk).core sc ((m.flatMap fun kv => kv.2.map (·.wid)).dedup) (updOut s.cur.wk id fo T2) = _
      rw [hh, hfinal, (hY0 h).2]
      rw [acquireDrop, acquireDrop]
      split <;> rfl
theorem foldl_mSet {α β : Type} (xs : List α) (key : α → Nat) (g : α → β) (m0 : Map β) (d : β) (hn : (xs.map key).Nodup) (x : α) (hx : x ∈ xs) :
    mGet (xs.foldl (fun m a => mSet m (key a) (g a)) m0) d (key x) = g x := by
  have other : ∀ (ys : List α) (m : Map β) (k : Nat), k ∉ ys.map key →
      mGet (ys.foldl (fun m a => mSet m (key a) (g a)) m) d k = mGet m d k := by
    intro ys
    induction ys with
    | nil => intro m k _; rfl
    | cons y t ih =>
      intro m k hk
      simp only [List.map_cons, List.mem_cons, not_or] at hk
      rw [List.foldl_cons, ih _ _ hk.2, mGet_mSet, if_neg fun h => hk.1 h.symm]
  induction xs generalizing m0 with
  | nil => simp at hx
  | cons y t ih =>
    simp only [List.map_cons, List.nodup_cons] at hn
    rw [List.foldl_cons]
    rcases List.mem_cons.1 hx with rfl | hx
    · rw [other _ _ _ hn.1, mGet_mSet, if_pos rfl]
    · exact ih _ hn.2 hx
theorem maskLanes_nodup (m : Word) : (maskLanes m).Nodup := by
  have : ∀ n a, (rangeFrom a n).Nodup := by
    intro n
    induction n with
    | zero => intro a; simp [rangeFrom]
    | succ n ih =>
      intro a
      rw [rangeFrom, List.nodup_cons]
      refine ⟨?_, ih _⟩
      rw [mem_rangeFrom]; omega
  exact (this 32 0).filter _
/-- The value that a register takes of the writes that are still due. -/
theorem taken_find (old due : List RegWrite) (x : Dest) : (takenWrites old due).find? (fun y => y.dest == x) =
    if old.any (fun y => y.dest == x) then due.find? fun y => y.dest == x else none := by
  induction old with
  | nil => rfl
  | cons z t ih =>
    rw [takenWrites, List.filterMap_cons]
    cases hf : due.find? fun y => y.dest == z.dest with
    | none =>
      show (takenWrites t due).find? _ = _
      rw [ih, List.any_cons]
      by_cases hz : z.dest = x
      · subst hz; simp [hf]
      · have : (z.dest == x) = false := by simpa using hz
        rw [this, Bool.false_or]
    | some y =>
      have hd : y.dest = z.dest := by simpa using List.find?_some hf
      show (y :: takenWrites t due).find? _ = _
      rw [List.find?_cons, List.any_cons, hd, ih]
      by_cases hz : z.dest = x
      · subst hz; simp [hf]
      · have : (z.dest == x) = false := by simpa using hz
        rw [this, Bool.false_or]
theorem resultDest_some (d : Reg) (pair : Bool) (m : Word) (f g : Nat → DWord) (x : Dest) :
    (resultDest d pair m f x).isSome = (resultDest d pair m g x).isSome := by
  have hh : ∀ r k p (u v : DWord), (resultDest.half r k p u).isSome = (resultDest.half r k p v).isSome := by
    intro r k p u v
    simp only [resultDest.half]
    split
    · rfl
    · split <;> rfl
  cases x <;> simp only [resultDest]
  · split
    · exact hh _ _ _ _ _
    · rfl
  · split
    · split
      · exact hh _ _ _ _ _
      · rfl
    · rfl
  · split
    · exact hh _ _ _ _ _
    · rfl
/-- THE VALUES that a load's result brings the registers. -/
theorem load_writes (t : Reg) (n : Nat) (s : State) (hb : s.inBundle = true) (f : Nat → DWord) (hp : memReg true n t = true)
    (hr : rowsFit s (laneRows t (n == 8)) = true) (ht : t.toNat < 88 ∨ t = 124) (accs : List LaneAcc) (k : LoadKind) (id : Nat) (pc : DWord)
    (hacc : accs.map (·.lane) = s.bl) (vals : List (Nat × DWord)) (hv : vals = s.perLane f) (x : Dest) :
    ((takenOut (loadOut k n t accs id s.cur.mask pc) vals).writes.find? fun y => y.dest == x).map (·.val) =
      resultDest t (n == 8) s.cur.mask f x := by
  rcases ht with ht | ht
  · have hpair : (n == 8) = true → t.toNat % 2 = 0 := by
      intro h
      have : n = 8 := by simpa using h
      rw [memReg, if_pos this, evenCode] at hp
      simp at hp; exact hp.1
    have hz : accs.map (fun a => (a.lane, (0 : DWord))) = s.perLane fun _ => 0 := by
      rw [State.perLane, ← hacc, List.map_map]; rfl
    have hc0 := (laneResult .plain t (n == 8) (fun _ => 0) 0 s hb ht hpair hr).2
    have hc1 := (laneResult .plain t (n == 8) f 0 s hb ht hpair hr).2
    have hnorm : ∀ (g : Nat → DWord), ∀ y ∈ laneWrites t (n == 8) (s.perLane g), normVal y.dest y.val = y.val := by
      intro g y hy
      obtain ⟨z, -, h | ⟨-, h⟩⟩ := (mem_laneWrites _ _ _ _).1 hy <;> rw [h] <;> rfl
    have f0 := covers_find _ _ _ hc0 (hnorm _) x
    have f1 := covers_find _ _ _ hc1 (hnorm _) x
    have hne : t ≠ 124 := fun hc => by rw [hc] at ht; exact absurd ht (by decide)
    have hw : (takenOut (loadOut k n t accs id s.cur.mask pc) vals).writes =
        takenWrites (laneWrites t (n == 8) (s.perLane fun _ => 0)) (laneWrites t (n == 8) (s.perLane f)) := by
      show takenWrites (if t = 124 then [] else (dueWrites t (n == 8) (accs.map fun a => (a.lane, 0))).getD [])
        ((dueWrites t (n == 8) vals).getD []) = _
      simp only [if_neg hne, dueWrites, if_pos ht, Option.getD_some, hz, hv]
    rw [hw, taken_find]
    have hsome := resultDest_some t (n == 8) s.cur.mask (fun _ => 0) f x
    rw [← f0, ← f1, Option.isSome_map, Option.isSome_map] at hsome
    split
    · exact f1
    · rename_i hn
      rw [← f1]
      cases hq : (laneWrites t (n == 8) (s.perLane f)).find? fun y => y.dest == x with
      | none => rfl
      | some y =>
        rw [hq, Option.isSome_some, List.find?_isSome] at hsome
        rw [List.any_eq_true] at hn
        exact absurd hsome hn
  · subst ht
    have : (takenOut (loadOut k n 124 accs id s.cur.mask pc) vals).writes = [] := rfl
    rw [this]
    cases x <;> simp [resultDest]
theorem loadLocal_vals (b : Block) (q : LSpace) (n : Nat) (s : State) (addr : Nat → Word) (hblk : b.space q = s.cb.space q) :
    (s.bl.map fun l => localAcc l (addr l).toNat).map (fun a => (a.lane, loadVal (mGet (loadLocal b q n (s.bl.map fun l => localAcc l (addr l).toNat)) [] a.lane))) =
      s.perLane (windowVal s q n addr) := by
  rw [State.perLane, List.map_map]
  refine List.map_congr_left fun l hl => ?_
  have hn : ((s.bl.map fun l => localAcc l (addr l).toNat).map (·.lane)).Nodup := by
    rw [List.map_map]
    have : ((fun x : LaneAcc => x.lane) ∘ fun l => localAcc l (addr l).toNat) = id := rfl
    rw [this, List.map_id]; exact maskLanes_nodup _
  have := foldl_mSet (s.bl.map fun l => localAcc l (addr l).toNat) (·.lane)
    (fun a => (rangeFrom a.va n).map fun o => (⟨memRead (b.space q) o, mGet b.spRel 0 o⟩ : HByte)) [] [] hn
    (localAcc l (addr l).toNat) (List.mem_map.2 ⟨l, hl, rfl⟩)
  show (l, loadVal (mGet (loadLocal b q n _) [] l)) = _
  rw [loadLocal]
  have e : (localAcc l (addr l).toNat).lane = l := rfl
  rw [e] at this
  rw [this, loadVal, List.map_map, windowVal, hblk]
  congr 3
  have : ∀ (m : Memory) (a k : Nat), memReadBytes m a k = (rangeFrom a k).map (memRead m) := by
    intro m a k
    induction k generalizing a with
    | zero => rfl
    | succ k ih => simp [memReadBytes, rangeFrom, ih]
  rw [this]; rfl
end Sys2Proof.Machine
end

