-- ==== Sys2Proof/Laws/Words.lean ====
section
/-! SUPPORT. The fields of an encoded word are the fields it was made of (R46, R52, R53), and each sub-field value names what
it was written for (R61, R64). -/
namespace Sys2Proof

/-! ### Words as numbers -/
/-- Two bit strings side by side, as a number. -/
theorem toNat_app {n m : Nat} (x : BitVec n) (y : BitVec m) : (x ++ y).toNat = x.toNat * 2 ^ m + y.toNat := by
  rw [BitVec.toNat_append, Nat.shiftLeft_eq, Nat.mul_comm]
  exact (Nat.two_pow_add_eq_or_of_lt y.isLt x.toNat).symm
/-- A field of a word, as a number. -/
theorem toNat_field {n : Nat} (x : BitVec n) (a b : Nat) : (x.extractLsb' a b).toNat = x.toNat / 2 ^ a % 2 ^ b := by
  rw [BitVec.extractLsb'_toNat, Nat.shiftRight_eq_div_pow]
/-- A bit of a word, as a number. -/
theorem bit_of_nat {n : Nat} (x : BitVec n) (i : Nat) : x.getLsbD i = decide (x.toNat / 2 ^ i % 2 = 1) := by
  rw [BitVec.getLsbD, Nat.testBit_eq_decide_div_mod_eq]
/-- A flag as a field of one bit. -/
theorem bit1_nat (b : Bool) : (bit1 b).toNat = if b then 1 else 0 := by cases b <;> rfl
/-- A flag read back. -/
theorem flag_back (b : Bool) (n : Nat) (h : n % 2 = (bit1 b).toNat) : decide (n % 2 = 1) = b := by
  rw [h, bit1_nat]; cases b <;> rfl

/-! ### Sub-field values -/
@[simp] theorem satMode_back (m : SatMode) : satModeOf (satModeCode m) = some m := by cases m <;> rfl
@[simp] theorem mulPart_back (m : MulPart) : mulPartOf (mulPartCode m) = some m := by cases m <;> rfl
@[simp] theorem mnMx_back (m : MnMx) : mnMxOf (mnMxCode m) = some m := by cases m <;> rfl
@[simp] theorem lopOp_back (m : LopOp) : lopOpOf (lopOpCode m) = some m := by cases m <;> rfl
@[simp] theorem shfOp_back (m : ShfOp) : shfOpOf (shfOpCode m) = some m := by cases m <;> rfl
@[simp] theorem unaOp_back (m : UnaOp) : unaOpOf (unaOpCode m) = some m := by cases m <;> rfl
@[simp] theorem cond_back (m : Cond) : condOf (condCode m) = some m := by cases m <;> rfl
@[simp] theorem divOp_back (m : DivOp) : divOpOf (divOpCode m) = some m := by cases m <;> rfl
@[simp] theorem plopOp_back (m : PlopOp) : plopOpOf (plopOpCode m) = some m := by cases m <;> rfl
@[simp] theorem rnd_back (m : Rnd) : rndOf (rndCode m) = some m := by cases m <;> rfl
@[simp] theorem fmnOp_back (m : FmnOp) : fmnOpOf (fmnOpCode m) = some m := by cases m <;> rfl
@[simp] theorem fCond_back (m : FCond) : fCondOf (fCondCode m) = some m := by cases m <;> rfl
@[simp] theorem sfuOp_back (m : SfuOp) : sfuOpOf (sfuOpCode m) = some m := by cases m <;> rfl
@[simp] theorem dsfuOp_back (m : DsfuOp) : dsfuOpOf (dsfuOpCode m) = some m := by cases m <;> rfl
@[simp] theorem cvtOp_back (m : CvtOp) : cvtOpOf (cvtOpCode m) = some m := by cases m <;> rfl
@[simp] theorem shflOp_back (m : ShflOp) : shflOpOf (shflOpCode m) = some m := by cases m <;> rfl
@[simp] theorem voteOp_back (m : VoteOp) : voteOpOf (voteOpCode m) = some m := by cases m <;> rfl
@[simp] theorem redKind_back (m : RedKind) : redKindOf (redKindCode m) = some m := by cases m <;> rfl
@[simp] theorem size_back (m : Size) : sizeOf_ (sizeCode m) = some m := by cases m <;> rfl
@[simp] theorem ldgQ_back (m : LdgQ) : ldgQOf (ldgQCode m) = some m := by cases m <;> rfl
@[simp] theorem ldsQ_back (m : LdsQ) : ldsQOf (ldsQCode m) = some m := by cases m <;> rfl
@[simp] theorem stsQ_back (m : StsQ) : stsQOf (stsQCode m) = some m := by cases m <;> rfl
@[simp] theorem scope_back (m : Scope) : scopeOf (scopeCode m) = some m := by cases m <;> rfl
@[simp] theorem aop_back (m : Aop) : aopOf (aopCode m) = some m := by cases m <;> rfl
@[simp] theorem use_back (m : Use) : useOf (useCode m) = some m := by cases m <;> rfl
@[simp] theorem atomTy_back (m : AtomTy) : atomTyOf (atomTyCode m) = some m := by cases m <;> rfl
@[simp] theorem galuOp_back (m : GaluOp) : galuOpOf (galuOpCode m) = some m := by cases m <;> rfl
@[simp] theorem barxOp_back (m : BarxOp) : barxOpOf (barxOpCode m) = some m := by cases m <;> rfl

/-! ### Format LR, GR and GE -/
section
variable (set : BitVec 1) (s : Bool) (op : BitVec 6) (m : BitVec 3) (d a b : Reg)
/-- The word as a number. -/
theorem encR_nat : (encR set s op m d a b).toNat =
    set.toNat * 2 ^ 31 + (bit1 s).toNat * 2 ^ 30 + op.toNat * 2 ^ 24 + m.toNat * 2 ^ 21 + d.toNat * 2 ^ 14 + a.toNat * 2 ^ 7 + b.toNat := by
  rw [encR]; simp only [toNat_app]; omega
@[simp] theorem encR_set : fSet (encR set s op m d a b) = set := by
  apply BitVec.eq_of_toNat_eq
  rw [fSet, toNat_field, encR_nat]
  have h1 := set.isLt; have h2 := (bit1 s).isLt; have h3 := op.isLt; have h4 := m.isLt; have h5 := d.isLt; have h6 := a.isLt; have h7 := b.isLt
  omega
@[simp] theorem encR_op : fOp (encR set s op m d a b) = op := by
  apply BitVec.eq_of_toNat_eq
  rw [fOp, toNat_field, encR_nat]
  have h1 := set.isLt; have h2 := (bit1 s).isLt; have h3 := op.isLt; have h4 := m.isLt; have h5 := d.isLt; have h6 := a.isLt; have h7 := b.isLt
  omega
@[simp] theorem encR_m : fM (encR set s op m d a b) = m := by
  apply BitVec.eq_of_toNat_eq
  rw [fM, toNat_field, encR_nat]
  have h1 := set.isLt; have h2 := (bit1 s).isLt; have h3 := op.isLt; have h4 := m.isLt; have h5 := d.isLt; have h6 := a.isLt; have h7 := b.isLt
  omega
@[simp] theorem encR_d : fD (encR set s op m d a b) = d := by
  apply BitVec.eq_of_toNat_eq
  rw [fD, toNat_field, encR_nat]
  have h1 := set.isLt; have h2 := (bit1 s).isLt; have h3 := op.isLt; have h4 := m.isLt; have h5 := d.isLt; have h6 := a.isLt; have h7 := b.isLt
  omega
@[simp] theorem encR_a : fA (encR set s op m d a b) = a := by
  apply BitVec.eq_of_toNat_eq
  rw [fA, toNat_field, encR_nat]
  have h1 := set.isLt; have h2 := (bit1 s).isLt; have h3 := op.isLt; have h4 := m.isLt; have h5 := d.isLt; have h6 := a.isLt; have h7 := b.isLt
  omega
@[simp] theorem encR_b : fB (encR set s op m d a b) = b := by
  apply BitVec.eq_of_toNat_eq
  rw [fB, toNat_field, encR_nat]
  have h1 := set.isLt; have h2 := (bit1 s).isLt; have h3 := op.isLt; have h4 := m.isLt; have h5 := d.isLt; have h6 := a.isLt; have h7 := b.isLt
  omega
@[simp] theorem encR_sw : fSw (encR set s op m d a b) = s := by
  rw [fSw, bit_of_nat, encR_nat]
  have h1 := set.isLt; have h2 := (bit1 s).isLt; have h3 := op.isLt; have h4 := m.isLt; have h5 := d.isLt; have h6 := a.isLt; have h7 := b.isLt
  exact flag_back s _ (by omega)
/-- A field within b. -/
theorem encR_low (i n : Nat) (h : i + n ≤ 7) : (encR set s op m d a b).extractLsb' i n = b.extractLsb' i n := by
  apply BitVec.eq_of_toNat_eq
  rw [toNat_field, toNat_field, encR_nat]
  rw [show set.toNat * 2 ^ 31 + (bit1 s).toNat * 2 ^ 30 + op.toNat * 2 ^ 24 + m.toNat * 2 ^ 21 + d.toNat * 2 ^ 14 + a.toNat * 2 ^ 7 + b.toNat =
    2 ^ 7 * (set.toNat * 2 ^ 24 + (bit1 s).toNat * 2 ^ 23 + op.toNat * 2 ^ 17 + m.toNat * 2 ^ 14 + d.toNat * 2 ^ 7 + a.toNat) + b.toNat by omega]
  obtain ⟨k, hk⟩ : ∃ k, 7 = i + n + k := ⟨7 - (i + n), by omega⟩
  rw [show (2 : Nat) ^ 7 = 2 ^ i * (2 ^ n * 2 ^ k) by rw [hk, Nat.pow_add, Nat.pow_add, Nat.mul_assoc], Nat.mul_assoc, Nat.mul_add_div (by positivity), Nat.mul_assoc]
  exact Nat.mul_add_mod ..
/-- A flag in the lowest bit of m. -/
theorem encR_flag (g : Bool) : (encR set s op (0#2 ++ bit1 g) d a b).getLsbD 21 = g := by
  rw [bit_of_nat, encR_nat, toNat_app]
  have h1 := set.isLt; have h2 := (bit1 s).isLt; have h3 := op.isLt; have h4 := (bit1 g).isLt; have h5 := d.isLt; have h6 := a.isLt; have h7 := b.isLt
  exact flag_back g _ (by omega)
/-- Bit 6, the highest of b. -/
theorem encR_bit6 (g : Bool) (x : BitVec 6) : (encR set s op m d a (bit1 g ++ x)).getLsbD 6 = g := by
  rw [bit_of_nat, encR_nat, toNat_app]
  have h1 := set.isLt; have h2 := (bit1 s).isLt; have h3 := op.isLt; have h4 := (bit1 g).isLt; have h5 := d.isLt; have h6 := a.isLt; have h7 := x.isLt
  exact flag_back g _ (by omega)
/-- Reserved fields that are 0. -/
theorem encR_low21 : (encR set s op m 0 0 0).extractLsb' 0 21 = 0#21 := by
  apply BitVec.eq_of_toNat_eq
  rw [toNat_field, encR_nat]
  have h1 := set.isLt; have h2 := (bit1 s).isLt; have h3 := op.isLt; have h4 := m.isLt
  have z7 : BitVec.toNat (0 : BitVec 7) = 0 := rfl
  have z3 : BitVec.toNat (0 : BitVec 3) = 0 := rfl
  simp only [z7, BitVec.toNat_ofNat]; omega
theorem encR_low24 : (encR set s op 0 0 0 0).extractLsb' 0 24 = 0#24 := by
  apply BitVec.eq_of_toNat_eq
  rw [toNat_field, encR_nat]
  have h1 := set.isLt; have h2 := (bit1 s).isLt; have h3 := op.isLt
  have z7 : BitVec.toNat (0 : BitVec 7) = 0 := rfl
  have z3 : BitVec.toNat (0 : BitVec 3) = 0 := rfl
  simp only [z7, z3, BitVec.toNat_ofNat]; omega
theorem encR_mid17 : (encR set s op 0 0 0 b).extractLsb' 7 17 = 0#17 := by
  apply BitVec.eq_of_toNat_eq
  rw [toNat_field, encR_nat]
  have h1 := set.isLt; have h2 := (bit1 s).isLt; have h3 := op.isLt; have h4 := b.isLt
  have z7 : BitVec.toNat (0 : BitVec 7) = 0 := rfl
  have z3 : BitVec.toNat (0 : BitVec 3) = 0 := rfl
  simp only [z7, z3, BitVec.toNat_ofNat]; omega
/-- A predicate in a field of seven bits. -/
theorem p7_low (p : PredNo) : (p7 p).extractLsb' 0 3 = p := by
  apply BitVec.eq_of_toNat_eq
  rw [toNat_field, p7, toNat_app]
  have := p.isLt
  simp only [BitVec.toNat_ofNat]; omega
theorem p7_high (p : PredNo) : (p7 p).extractLsb' 3 4 = 0#4 := by
  apply BitVec.eq_of_toNat_eq
  rw [toNat_field, p7, toNat_app]
  have := p.isLt
  simp only [BitVec.toNat_ofNat]; omega
/-- Two fields side by side, read back. -/
theorem app_low {n k : Nat} (x : BitVec n) (y : BitVec k) : (x ++ y).extractLsb' 0 k = y := by
  apply BitVec.eq_of_toNat_eq
  rw [toNat_field, toNat_app, Nat.pow_zero, Nat.div_one, Nat.mul_comm, Nat.mul_add_mod, Nat.mod_eq_of_lt y.isLt]
theorem app_high {n k : Nat} (x : BitVec n) (y : BitVec k) : (x ++ y).extractLsb' k n = x := by
  apply BitVec.eq_of_toNat_eq
  rw [toNat_field, toNat_app, Nat.mul_comm, Nat.mul_add_div (Nat.two_pow_pos k), Nat.div_eq_of_lt y.isLt, Nat.add_zero, Nat.mod_eq_of_lt x.isLt]
end

/-! ### Format LI, LM, LO and LA -/
section
variable (s : Bool) (op : BitVec 6) (d a : Reg) (x : BitVec 10)
/-- The word as a number. -/
theorem encI_nat : (encI s op d a x).toNat = (bit1 s).toNat * 2 ^ 30 + op.toNat * 2 ^ 24 + d.toNat * 2 ^ 17 + a.toNat * 2 ^ 10 + x.toNat := by
  rw [encI]; simp only [toNat_app, BitVec.toNat_ofNat]; omega
@[simp] theorem encI_set : fSet (encI s op d a x) = 0#1 := by
  apply BitVec.eq_of_toNat_eq
  rw [fSet, toNat_field, encI_nat]
  have h2 := (bit1 s).isLt; have h3 := op.isLt; have h5 := d.isLt; have h6 := a.isLt; have h7 := x.isLt
  simp only [BitVec.toNat_ofNat]; omega
@[simp] theorem encI_op : fOp (encI s op d a x) = op := by
  apply BitVec.eq_of_toNat_eq
  rw [fOp, toNat_field, encI_nat]
  have h2 := (bit1 s).isLt; have h3 := op.isLt; have h5 := d.isLt; have h6 := a.isLt; have h7 := x.isLt
  omega
@[simp] theorem encI_t : fT (encI s op d a x) = d := by
  apply BitVec.eq_of_toNat_eq
  rw [fT, toNat_field, encI_nat]
  have h2 := (bit1 s).isLt; have h3 := op.isLt; have h5 := d.isLt; have h6 := a.isLt; have h7 := x.isLt
  omega
@[simp] theorem encI_a : fA10 (encI s op d a x) = a := by
  apply BitVec.eq_of_toNat_eq
  rw [fA10, toNat_field, encI_nat]
  have h2 := (bit1 s).isLt; have h3 := op.isLt; have h5 := d.isLt; have h6 := a.isLt; have h7 := x.isLt
  omega
@[simp] theorem encI_sw : fSw (encI s op d a x) = s := by
  rw [fSw, bit_of_nat, encI_nat]
  have h2 := (bit1 s).isLt; have h3 := op.isLt; have h5 := d.isLt; have h6 := a.isLt; have h7 := x.isLt
  exact flag_back s _ (by omega)
/-- A field within the ten low bits. -/
theorem encI_low (i n : Nat) (h : i + n ≤ 10) : (encI s op d a x).extractLsb' i n = x.extractLsb' i n := by
  apply BitVec.eq_of_toNat_eq
  rw [toNat_field, toNat_field, encI_nat]
  rw [show (bit1 s).toNat * 2 ^ 30 + op.toNat * 2 ^ 24 + d.toNat * 2 ^ 17 + a.toNat * 2 ^ 10 + x.toNat =
    2 ^ 10 * ((bit1 s).toNat * 2 ^ 20 + op.toNat * 2 ^ 14 + d.toNat * 2 ^ 7 + a.toNat) + x.toNat by omega]
  obtain ⟨k, hk⟩ : ∃ k, 10 = i + n + k := ⟨10 - (i + n), by omega⟩
  rw [show (2 : Nat) ^ 10 = 2 ^ i * (2 ^ n * 2 ^ k) by rw [hk, Nat.pow_add, Nat.pow_add, Nat.mul_assoc], Nat.mul_assoc, Nat.mul_add_div (by positivity), Nat.mul_assoc]
  exact Nat.mul_add_mod ..
/-- A bit of the ten low bits. -/
theorem encI_bit (i : Nat) (h : i < 10) : (encI s op d a x).getLsbD i = x.getLsbD i := by
  have e := congrArg (fun y => y.getLsbD 0) (encI_low s op d a x i 1 (by omega))
  simpa using e
end

/-! ### Format LH, GI and GB -/
section
variable (set : BitVec 1) (s : Bool) (op : BitVec 6) (d : Reg) (x : BitVec 17)
/-- The word as a number. -/
theorem encG_nat : (encG set s op d x).toNat = set.toNat * 2 ^ 31 + (bit1 s).toNat * 2 ^ 30 + op.toNat * 2 ^ 24 + d.toNat * 2 ^ 17 + x.toNat := by
  rw [encG]; simp only [toNat_app]; omega
@[simp] theorem encG_set : fSet (encG set s op d x) = set := by
  apply BitVec.eq_of_toNat_eq
  rw [fSet, toNat_field, encG_nat]
  have h1 := set.isLt; have h2 := (bit1 s).isLt; have h3 := op.isLt; have h5 := d.isLt; have h7 := x.isLt
  omega
@[simp] theorem encG_op : fOp (encG set s op d x) = op := by
  apply BitVec.eq_of_toNat_eq
  rw [fOp, toNat_field, encG_nat]
  have h1 := set.isLt; have h2 := (bit1 s).isLt; have h3 := op.isLt; have h5 := d.isLt; have h7 := x.isLt
  omega
@[simp] theorem encG_t : fT (encG set s op d x) = d := by
  apply BitVec.eq_of_toNat_eq
  rw [fT, toNat_field, encG_nat]
  have h1 := set.isLt; have h2 := (bit1 s).isLt; have h3 := op.isLt; have h5 := d.isLt; have h7 := x.isLt
  omega
@[simp] theorem encG_sw : fSw (encG set s op d x) = s := by
  rw [fSw, bit_of_nat, encG_nat]
  have h1 := set.isLt; have h2 := (bit1 s).isLt; have h3 := op.isLt; have h5 := d.isLt; have h7 := x.isLt
  exact flag_back s _ (by omega)
/-- A field within the seventeen low bits. -/
theorem encG_low (i n : Nat) (h : i + n ≤ 17) : (encG set s op d x).extractLsb' i n = x.extractLsb' i n := by
  apply BitVec.eq_of_toNat_eq
  rw [toNat_field, toNat_field, encG_nat]
  rw [show set.toNat * 2 ^ 31 + (bit1 s).toNat * 2 ^ 30 + op.toNat * 2 ^ 24 + d.toNat * 2 ^ 17 + x.toNat =
    2 ^ 17 * (set.toNat * 2 ^ 14 + (bit1 s).toNat * 2 ^ 13 + op.toNat * 2 ^ 7 + d.toNat) + x.toNat by omega]
  obtain ⟨k, hk⟩ : ∃ k, 17 = i + n + k := ⟨17 - (i + n), by omega⟩
  rw [show (2 : Nat) ^ 17 = 2 ^ i * (2 ^ n * 2 ^ k) by rw [hk, Nat.pow_add, Nat.pow_add, Nat.mul_assoc], Nat.mul_assoc, Nat.mul_add_div (by positivity), Nat.mul_assoc]
  exact Nat.mul_add_mod ..
/-- The seventeen low bits. -/
theorem encG_x : (encG set s op d x).extractLsb' 0 17 = x := by
  rw [encG_low _ _ _ _ _ 0 17 (by omega)]
  exact BitVec.extractLsb'_eq_self
end
section
variable (s : Bool) (op : BitVec 6) (neg : Bool) (p : PredNo) (x : BitVec 20)
/-- The word as a number. -/
theorem encB_nat : (encB s op neg p x).toNat = 2 ^ 31 + (bit1 s).toNat * 2 ^ 30 + op.toNat * 2 ^ 24 + (bit1 neg).toNat * 2 ^ 23 + p.toNat * 2 ^ 20 + x.toNat := by
  rw [encB]; simp only [toNat_app, BitVec.toNat_ofNat]; omega
@[simp] theorem encB_set : fSet (encB s op neg p x) = 1#1 := by
  apply BitVec.eq_of_toNat_eq
  rw [fSet, toNat_field, encB_nat]
  have h2 := (bit1 s).isLt; have h3 := op.isLt; have h4 := (bit1 neg).isLt; have h5 := p.isLt; have h7 := x.isLt
  simp only [BitVec.toNat_ofNat]; omega
@[simp] theorem encB_op : fOp (encB s op neg p x) = op := by
  apply BitVec.eq_of_toNat_eq
  rw [fOp, toNat_field, encB_nat]
  have h2 := (bit1 s).isLt; have h3 := op.isLt; have h4 := (bit1 neg).isLt; have h5 := p.isLt; have h7 := x.isLt
  omega
@[simp] theorem encB_sw : fSw (encB s op neg p x) = s := by
  rw [fSw, bit_of_nat, encB_nat]
  have h2 := (bit1 s).isLt; have h3 := op.isLt; have h4 := (bit1 neg).isLt; have h5 := p.isLt; have h7 := x.isLt
  exact flag_back s _ (by omega)
@[simp] theorem encB_neg : (encB s op neg p x).getLsbD 23 = neg := by
  rw [bit_of_nat, encB_nat]
  have h2 := (bit1 s).isLt; have h3 := op.isLt; have h4 := (bit1 neg).isLt; have h5 := p.isLt; have h7 := x.isLt
  exact flag_back neg _ (by omega)
@[simp] theorem encB_p : (encB s op neg p x).extractLsb' 20 3 = p := by
  apply BitVec.eq_of_toNat_eq
  rw [toNat_field, encB_nat]
  have h2 := (bit1 s).isLt; have h3 := op.isLt; have h4 := (bit1 neg).isLt; have h5 := p.isLt; have h7 := x.isLt
  omega
@[simp] theorem encB_x : (encB s op neg p x).extractLsb' 0 20 = x := by
  apply BitVec.eq_of_toNat_eq
  rw [toNat_field, encB_nat]
  have h2 := (bit1 s).isLt; have h3 := op.isLt; have h4 := (bit1 neg).isLt; have h5 := p.isLt; have h7 := x.isLt
  omega
end

/-! ### Packed low fields -/
theorem pack5_hi (n : BitVec 5) : (0#5 ++ n : BitVec 10).extractLsb' 5 5 = 0#5 := by
  apply BitVec.eq_of_toNat_eq
  simp only [toNat_field, toNat_app, BitVec.toNat_ofNat]
  have h0 := n.isLt; omega
theorem pack5_lo (n : BitVec 5) : (0#5 ++ n : BitVec 10).extractLsb' 0 5 = n := by
  apply BitVec.eq_of_toNat_eq
  simp only [toNat_field, toNat_app, BitVec.toNat_ofNat]
  have h0 := n.isLt; omega
theorem pack16_hi (x : BitVec 16) : (0#1 ++ x : BitVec 17).extractLsb' 16 1 = 0#1 := by
  apply BitVec.eq_of_toNat_eq
  simp only [toNat_field, toNat_app, BitVec.toNat_ofNat]
  have h0 := x.isLt; omega
theorem pack16_lo (x : BitVec 16) : (0#1 ++ x : BitVec 17).extractLsb' 0 16 = x := by
  apply BitVec.eq_of_toNat_eq
  simp only [toNat_field, toNat_app, BitVec.toNat_ofNat]
  have h0 := x.isLt; omega
theorem pack14_hi (c : BitVec 3) (x : BitVec 14) : (c ++ x : BitVec 17).extractLsb' 14 3 = c := by
  apply BitVec.eq_of_toNat_eq
  simp only [toNat_field, toNat_app]
  have h0 := c.isLt; have h1 := x.isLt; omega
theorem pack14_lo (c : BitVec 3) (x : BitVec 14) : (c ++ x : BitVec 17).extractLsb' 0 14 = x := by
  apply BitVec.eq_of_toNat_eq
  simp only [toNat_field, toNat_app]
  have h0 := c.isLt; have h1 := x.isLt; omega
theorem pack3_hi (c : BitVec 3) : (0#4 ++ c : BitVec 7).extractLsb' 3 4 = 0#4 := by
  apply BitVec.eq_of_toNat_eq
  simp only [toNat_field, toNat_app, BitVec.toNat_ofNat]
  have h0 := c.isLt; omega
theorem pack3_lo (c : BitVec 3) : (0#4 ++ c : BitVec 7).extractLsb' 0 3 = c := by
  apply BitVec.eq_of_toNat_eq
  simp only [toNat_field, toNat_app, BitVec.toNat_ofNat]
  have h0 := c.isLt; omega
theorem pack6_lo (g : Bool) (c : BitVec 6) : (bit1 g ++ c : BitVec 7).extractLsb' 0 6 = c := by
  apply BitVec.eq_of_toNat_eq
  simp only [toNat_field, toNat_app]
  have h0 := (bit1 g).isLt; have h1 := c.isLt; omega
theorem packLd_sz (a b : BitVec 2) (o : BitVec 6) : (a ++ b ++ o : BitVec 10).extractLsb' 8 2 = a := by
  apply BitVec.eq_of_toNat_eq
  simp only [toNat_field, toNat_app]
  have h0 := a.isLt; have h1 := b.isLt; have h2 := o.isLt; omega
theorem packLd_q (a b : BitVec 2) (o : BitVec 6) : (a ++ b ++ o : BitVec 10).extractLsb' 6 2 = b := by
  apply BitVec.eq_of_toNat_eq
  simp only [toNat_field, toNat_app]
  have h0 := a.isLt; have h1 := b.isLt; have h2 := o.isLt; omega
theorem packLd_o (a b : BitVec 2) (o : BitVec 6) : (a ++ b ++ o : BitVec 10).extractLsb' 0 6 = o := by
  apply BitVec.eq_of_toNat_eq
  simp only [toNat_field, toNat_app]
  have h0 := a.isLt; have h1 := b.isLt; have h2 := o.isLt; omega
theorem packRo_7 (a : BitVec 2) (o : BitVec 6) : (a ++ 0#2 ++ o : BitVec 10).getLsbD 7 = false := by
  rw [bit_of_nat]
  simp only [toNat_app, BitVec.toNat_ofNat]
  have h0 := a.isLt; have h1 := o.isLt; exact decide_eq_false (by omega)
theorem packRo_6 (a : BitVec 2) (o : BitVec 6) : (a ++ 0#2 ++ o : BitVec 10).getLsbD 6 = false := by
  rw [bit_of_nat]
  simp only [toNat_app, BitVec.toNat_ofNat]
  have h0 := a.isLt; have h1 := o.isLt; exact decide_eq_false (by omega)
theorem packSt_sz (a : BitVec 2) (g : Bool) (o : BitVec 6) : (a ++ bit1 g ++ bit1 g ++ o : BitVec 10).extractLsb' 8 2 = a := by
  apply BitVec.eq_of_toNat_eq
  simp only [toNat_field, toNat_app]
  have h0 := a.isLt; have h1 := (bit1 g).isLt; have h2 := o.isLt
  have : (((a.toNat * 2 ^ 1 + (bit1 g).toNat) * 2 ^ 1 + (bit1 g).toNat) * 2 ^ 6 + o.toNat) / 2 ^ 8 = a.toNat := by omega
  rw [this]; omega
theorem packSt_g (a : BitVec 2) (g : Bool) (o : BitVec 6) : (a ++ bit1 g ++ bit1 g ++ o : BitVec 10).getLsbD 6 = g := by
  rw [bit_of_nat]
  simp only [toNat_app]
  have h0 := a.isLt; have h1 := (bit1 g).isLt; have h2 := o.isLt; exact flag_back g _ (by omega)
theorem packSt_o (a : BitVec 2) (g : Bool) (o : BitVec 6) : (a ++ bit1 g ++ bit1 g ++ o : BitVec 10).extractLsb' 0 6 = o := by
  apply BitVec.eq_of_toNat_eq
  simp only [toNat_field, toNat_app]
  have h0 := a.isLt; have h1 := (bit1 g).isLt; have h2 := o.isLt; omega
theorem packSt_q (a : BitVec 2) (g : Bool) (o : BitVec 6) : (a ++ bit1 g ++ bit1 g ++ o : BitVec 10).extractLsb' 6 2 = if g then 3#2 else 0#2 := by
  apply BitVec.eq_of_toNat_eq
  simp only [toNat_field, toNat_app, bit1_nat]
  have h0 := a.isLt; have h2 := o.isLt
  cases g <;> simp only [if_true, if_false, Bool.false_eq_true, BitVec.toNat_ofNat] <;> omega
theorem packSc_z (z : Bool) (c : BitVec 3) (g : Bool) (o : BitVec 5) : (bit1 z ++ c ++ bit1 g ++ o : BitVec 10).getLsbD 9 = z := by
  rw [bit_of_nat]
  simp only [toNat_app]
  have h0 := (bit1 z).isLt; have h1 := c.isLt; have h2 := (bit1 g).isLt; have h3 := o.isLt; exact flag_back z _ (by omega)
theorem packSc_c (z : Bool) (c : BitVec 3) (g : Bool) (o : BitVec 5) : (bit1 z ++ c ++ bit1 g ++ o : BitVec 10).extractLsb' 6 3 = c := by
  apply BitVec.eq_of_toNat_eq
  simp only [toNat_field, toNat_app]
  have h0 := (bit1 z).isLt; have h1 := c.isLt; have h2 := (bit1 g).isLt; have h3 := o.isLt; omega
theorem packSc_g (z : Bool) (c : BitVec 3) (g : Bool) (o : BitVec 5) : (bit1 z ++ c ++ bit1 g ++ o : BitVec 10).getLsbD 5 = g := by
  rw [bit_of_nat]
  simp only [toNat_app]
  have h0 := (bit1 z).isLt; have h1 := c.isLt; have h2 := (bit1 g).isLt; have h3 := o.isLt; exact flag_back g _ (by omega)
theorem packSc_o (z : Bool) (c : BitVec 3) (g : Bool) (o : BitVec 5) : (bit1 z ++ c ++ bit1 g ++ o : BitVec 10).extractLsb' 0 5 = o := by
  apply BitVec.eq_of_toNat_eq
  simp only [toNat_field, toNat_app]
  have h0 := (bit1 z).isLt; have h1 := c.isLt; have h2 := (bit1 g).isLt; have h3 := o.isLt; omega
theorem packAt_u (u : BitVec 3) (c : BitVec 4) (g : Bool) (y : BitVec 2) : (u ++ c ++ bit1 g ++ y : BitVec 10).extractLsb' 7 3 = u := by
  apply BitVec.eq_of_toNat_eq
  simp only [toNat_field, toNat_app]
  have h0 := u.isLt; have h1 := c.isLt; have h2 := (bit1 g).isLt; have h3 := y.isLt; omega
theorem packAt_c (u : BitVec 3) (c : BitVec 4) (g : Bool) (y : BitVec 2) : (u ++ c ++ bit1 g ++ y : BitVec 10).extractLsb' 3 4 = c := by
  apply BitVec.eq_of_toNat_eq
  simp only [toNat_field, toNat_app]
  have h0 := u.isLt; have h1 := c.isLt; have h2 := (bit1 g).isLt; have h3 := y.isLt; omega
theorem packAt_g (u : BitVec 3) (c : BitVec 4) (g : Bool) (y : BitVec 2) : (u ++ c ++ bit1 g ++ y : BitVec 10).getLsbD 2 = g := by
  rw [bit_of_nat]
  simp only [toNat_app]
  have h0 := u.isLt; have h1 := c.isLt; have h2 := (bit1 g).isLt; have h3 := y.isLt; exact flag_back g _ (by omega)
theorem packAt_y (u : BitVec 3) (c : BitVec 4) (g : Bool) (y : BitVec 2) : (u ++ c ++ bit1 g ++ y : BitVec 10).extractLsb' 0 2 = y := by
  apply BitVec.eq_of_toNat_eq
  simp only [toNat_field, toNat_app]
  have h0 := u.isLt; have h1 := c.isLt; have h2 := (bit1 g).isLt; have h3 := y.isLt; omega
theorem packUse_sz (a : BitVec 2) (g : Bool) (n : BitVec 5) : (a ++ 1#2 ++ bit1 g ++ n : BitVec 10).extractLsb' 8 2 = a := by
  apply BitVec.eq_of_toNat_eq
  simp only [toNat_field, toNat_app, BitVec.toNat_ofNat]
  have h0 := a.isLt; have h1 := (bit1 g).isLt; have h2 := n.isLt; omega
theorem packUse_7 (a : BitVec 2) (g : Bool) (n : BitVec 5) : (a ++ 1#2 ++ bit1 g ++ n : BitVec 10).getLsbD 7 = false := by
  rw [bit_of_nat]
  simp only [toNat_app, BitVec.toNat_ofNat]
  have h0 := a.isLt; have h1 := (bit1 g).isLt; have h2 := n.isLt; exact decide_eq_false (by omega)
theorem packUse_6 (a : BitVec 2) (g : Bool) (n : BitVec 5) : (a ++ 1#2 ++ bit1 g ++ n : BitVec 10).getLsbD 6 = true := by
  rw [bit_of_nat]
  simp only [toNat_app, BitVec.toNat_ofNat]
  have h0 := a.isLt; have h1 := (bit1 g).isLt; have h2 := n.isLt; exact decide_eq_true (by omega)
theorem packUse_g (a : BitVec 2) (g : Bool) (n : BitVec 5) : (a ++ 1#2 ++ bit1 g ++ n : BitVec 10).getLsbD 5 = g := by
  rw [bit_of_nat]
  simp only [toNat_app, BitVec.toNat_ofNat]
  have h0 := a.isLt; have h1 := (bit1 g).isLt; have h2 := n.isLt; exact flag_back g _ (by omega)
theorem packUse_n (a : BitVec 2) (g : Bool) (n : BitVec 5) : (a ++ 1#2 ++ bit1 g ++ n : BitVec 10).extractLsb' 0 5 = n := by
  apply BitVec.eq_of_toNat_eq
  simp only [toNat_field, toNat_app, BitVec.toNat_ofNat]
  have h0 := a.isLt; have h1 := (bit1 g).isLt; have h2 := n.isLt; omega
theorem flag_le (g : Bool) : decide ((0#2 ++ bit1 g : BitVec 3).toNat ≤ 1) = true := by cases g <;> rfl
/-- ISETI's word. -/
theorem iseti_nat (s : Bool) (c : BitVec 3) (p : PredNo) (a : Reg) (x : BitVec 10) :
    (0#1 ++ bit1 s ++ 0x18#6 ++ c ++ 0#1 ++ p ++ a ++ x : BitVec 32).toNat =
      (bit1 s).toNat * 2 ^ 30 + 0x18 * 2 ^ 24 + c.toNat * 2 ^ 21 + p.toNat * 2 ^ 17 + a.toNat * 2 ^ 10 + x.toNat := by
  simp only [toNat_app, BitVec.toNat_ofNat]; omega
/-- Its fields. -/
theorem iseti_fields (s : Bool) (c : BitVec 3) (p : PredNo) (a : Reg) (x : BitVec 10) (w : Word)
    (h : w = (0#1 ++ bit1 s ++ 0x18#6 ++ c ++ 0#1 ++ p ++ a ++ x : BitVec 32)) :
    fSet w = 0#1 ∧ fSw w = s ∧ fOp w = 0x18#6 ∧ fM w = c ∧ w.extractLsb' 20 1 = 0#1 ∧ w.extractLsb' 17 3 = p ∧ fA10 w = a ∧
      w.extractLsb' 0 10 = x := by
  have e : w.toNat = (bit1 s).toNat * 2 ^ 30 + 0x18 * 2 ^ 24 + c.toNat * 2 ^ 21 + p.toNat * 2 ^ 17 + a.toNat * 2 ^ 10 + x.toNat := by
    rw [h]; exact iseti_nat s c p a x
  have h0 := (bit1 s).isLt; have h1 := c.isLt; have h2 := p.isLt; have h3 := a.isLt; have h4 := x.isLt
  refine ⟨?_, ?_, ?_, ?_, ?_, ?_, ?_, ?_⟩
  · apply BitVec.eq_of_toNat_eq; rw [fSet, toNat_field, e]; simp only [BitVec.toNat_ofNat]; omega
  · rw [fSw, bit_of_nat, e]; exact flag_back s _ (by omega)
  · apply BitVec.eq_of_toNat_eq; rw [fOp, toNat_field, e]; simp only [BitVec.toNat_ofNat]; omega
  · apply BitVec.eq_of_toNat_eq; rw [fM, toNat_field, e]; omega
  · apply BitVec.eq_of_toNat_eq; rw [toNat_field, e]; simp only [BitVec.toNat_ofNat]; omega
  · apply BitVec.eq_of_toNat_eq; rw [toNat_field, e]; omega
  · apply BitVec.eq_of_toNat_eq; rw [fA10, toNat_field, e]; omega
  · apply BitVec.eq_of_toNat_eq; rw [toNat_field, e]; omega

/-! ### The decoder's parts -/
theorem lane_word (w : Word) (h : fSet w = 0#1) : decodeWord w = decodeLane w := if_pos (by rw [h]; rfl)
theorem group_word (w : Word) (h : fSet w = 1#1) : decodeWord w = decodeGroup w := if_neg (by rw [h]; decide)
theorem sub_some {α : Type} (x : α) (k : α → Except Reject Instr) : sub (some x) k = k x := rfl
theorem need_true (c : Bool) (r : Reject) (k : Except Reject Instr) (h : c = true) : need c r k = k := if_pos h
theorem zero_field {n : Nat} (k : Except Reject Instr) : zeroF 0#n k = k := need_true _ _ _ (beq_self_eq_true _)
theorem pred_field (p : PredNo) (k : PredNo → Except Reject Instr) : predF (p7 p) k = k p :=
  (congrArg (fun x => zeroF x (k ((p7 p).extractLsb' 0 3))) (p7_high p)).trans ((zero_field _).trans (congrArg k (p7_low p)))
theorem lr3_is (w : Word) (f : Bool → Reg → Reg → Reg → Instr) : lr3 w f = .ok (f (fSw w) (fD w) (fA w) (fB w)) := rfl
theorem gb_is (w : Word) (f : Bool → Bool → PredNo → BitVec 20 → Instr) :
    gb w f = .ok (f (fSw w) (w.getLsbD 23) (w.extractLsb' 20 3) (w.extractLsb' 0 20)) := rfl
theorem grA_is (w : Word) (f : Bool → Reg → Instr) :
    grA w f = zeroF (fM w) (zeroF (fD w) (zeroF (fB w) (.ok (f (fSw w) (fA w))))) := rfl
theorem gr0_is (w : Word) (f : Bool → Instr) : gr0 w f = zeroF (w.extractLsb' 0 24) (.ok (f (fSw w))) := rfl
theorem grDA_is (w : Word) (f : Bool → Reg → Reg → Instr) :
    grDA w f = zeroF (fM w) (zeroF (fB w) (.ok (f (fSw w) (fD w) (fA w)))) := rfl
end Sys2Proof
end

