-- ==== Sys2Proof/Laws/PerInstr.lean ====
section
/-! SUPPORT. Decoding gives back what was encoded, instruction by instruction (R46, R52, R53, R61, R64). -/
namespace Sys2Proof
set_option Elab.async false

/-- The decoder gives back a well-formed instruction from its word. -/
def Laws.RoundTrip.Statement (i : Instr) : Prop := wellFormed i = true → hasWord i = true → decodeWord (encode i) = .ok i

theorem Laws.RoundTrip.iadd (sw : Bool) (m : SatMode) (d a b : Reg) : Laws.RoundTrip.Statement (.iadd sw m d a b) := by
  intro _ _
  show decodeWord (encR 0#1 sw 0x01 (satModeCode m) d a b) = _
  rw [lane_word _ (encR_set ..)]
  delta decodeLane
  simp only [encR_op, BitVec.reduceToNat, lr3_is, sub_some, satMode_back, encR_a, encR_b, encR_d, encR_m, encR_sw]
theorem Laws.RoundTrip.isub (sw : Bool) (m : SatMode) (d a b : Reg) : Laws.RoundTrip.Statement (.isub sw m d a b) := by
  intro _ _
  show decodeWord (encR 0#1 sw 0x02 (satModeCode m) d a b) = _
  rw [lane_word _ (encR_set ..)]
  delta decodeLane
  simp only [encR_op, BitVec.reduceToNat, lr3_is, sub_some, satMode_back, encR_a, encR_b, encR_d, encR_m, encR_sw]
theorem Laws.RoundTrip.imul (sw : Bool) (m : MulPart) (d a b : Reg) : Laws.RoundTrip.Statement (.imul sw m d a b) := by
  intro _ _
  show decodeWord (encR 0#1 sw 0x03 (mulPartCode m) d a b) = _
  rw [lane_word _ (encR_set ..)]
  delta decodeLane
  simp only [encR_op, BitVec.reduceToNat, lr3_is, sub_some, mulPart_back, encR_a, encR_b, encR_d, encR_m, encR_sw]
theorem Laws.RoundTrip.imad (sw : Bool) (m : MulPart) (d a b : Reg) : Laws.RoundTrip.Statement (.imad sw m d a b) := by
  intro _ _
  show decodeWord (encR 0#1 sw 0x04 (mulPartCode m) d a b) = _
  rw [lane_word _ (encR_set ..)]
  delta decodeLane
  simp only [encR_op, BitVec.reduceToNat, lr3_is, sub_some, mulPart_back, encR_a, encR_b, encR_d, encR_m, encR_sw]
theorem Laws.RoundTrip.imnmx (sw : Bool) (m : MnMx) (d a b : Reg) : Laws.RoundTrip.Statement (.imnmx sw m d a b) := by
  intro _ _
  show decodeWord (encR 0#1 sw 0x05 (mnMxCode m) d a b) = _
  rw [lane_word _ (encR_set ..)]
  delta decodeLane
  simp only [encR_op, BitVec.reduceToNat, lr3_is, sub_some, mnMx_back, encR_a, encR_b, encR_d, encR_m, encR_sw]
theorem Laws.RoundTrip.lop (sw : Bool) (m : LopOp) (d a b : Reg) : Laws.RoundTrip.Statement (.lop sw m d a b) := by
  intro _ _
  show decodeWord (encR 0#1 sw 0x06 (lopOpCode m) d a b) = _
  rw [lane_word _ (encR_set ..)]
  delta decodeLane
  simp only [encR_op, BitVec.reduceToNat, lr3_is, sub_some, lopOp_back, encR_a, encR_b, encR_d, encR_m, encR_sw]
theorem Laws.RoundTrip.shf (sw : Bool) (m : ShfOp) (d a b : Reg) : Laws.RoundTrip.Statement (.shf sw m d a b) := by
  intro _ _
  show decodeWord (encR 0#1 sw 0x07 (shfOpCode m) d a b) = _
  rw [lane_word _ (encR_set ..)]
  delta decodeLane
  simp only [encR_op, BitVec.reduceToNat, lr3_is, sub_some, shfOp_back, encR_a, encR_b, encR_d, encR_m, encR_sw]
theorem Laws.RoundTrip.iuna (sw : Bool) (m : UnaOp) (d a : Reg) : Laws.RoundTrip.Statement (.iuna sw m d a) := by
  intro _ _
  show decodeWord (encR 0#1 sw 0x08 (unaOpCode m) d a 0) = _
  rw [lane_word _ (encR_set ..)]
  delta decodeLane
  simp only [encR_op, BitVec.reduceToNat, sub_some, unaOp_back, encR_a, encR_b, encR_d, encR_m, encR_sw]
  rfl
theorem Laws.RoundTrip.bfe (sw : Bool) (signed : Bool) (d a b : Reg) : Laws.RoundTrip.Statement (.bfe sw signed d a b) := by
  intro _ _
  show decodeWord (encR 0#1 sw 0x09 (0#2 ++ bit1 signed) d a b) = _
  rw [lane_word _ (encR_set ..)]
  delta decodeLane
  simp only [encR_op, BitVec.reduceToNat, need_true, encR_a, encR_b, encR_d, encR_m, encR_sw, encR_flag, flag_le]
theorem Laws.RoundTrip.bfi (sw : Bool) (d a b : Reg) : Laws.RoundTrip.Statement (.bfi sw d a b) := by
  intro _ _
  show decodeWord (encR 0#1 sw 0x0A 0 d a b) = _
  rw [lane_word _ (encR_set ..)]
  delta decodeLane
  simp only [encR_op, BitVec.reduceToNat, lr3_is, encR_a, encR_b, encR_d, encR_m, encR_sw]
  rfl
theorem Laws.RoundTrip.iset (sw : Bool) (c : Cond) (p : PredNo) (a b : Reg) : Laws.RoundTrip.Statement (.iset sw c p a b) := by
  intro _ _
  show decodeWord (encR 0#1 sw 0x0B (condCode c) (p7 p) a b) = _
  rw [lane_word _ (encR_set ..)]
  delta decodeLane
  simp only [encR_op, BitVec.reduceToNat, pred_field, sub_some, cond_back, encR_a, encR_b, encR_d, encR_m, encR_sw]
theorem Laws.RoundTrip.sel (sw : Bool) (p : PredNo) (d a b : Reg) : Laws.RoundTrip.Statement (.sel sw p d a b) := by
  intro _ _
  show decodeWord (encR 0#1 sw 0x0C p d a b) = _
  rw [lane_word _ (encR_set ..)]
  delta decodeLane
  simp only [encR_op, BitVec.reduceToNat, encR_a, encR_b, encR_d, encR_m, encR_sw]
theorem Laws.RoundTrip.lea (sw : Bool) (sh : BitVec 3) (d a b : Reg) : Laws.RoundTrip.Statement (.lea sw sh d a b) := by
  intro _ _
  show decodeWord (encR 0#1 sw 0x0D sh d a b) = _
  rw [lane_word _ (encR_set ..)]
  delta decodeLane
  simp only [encR_op, BitVec.reduceToNat, encR_a, encR_b, encR_d, encR_m, encR_sw]
theorem Laws.RoundTrip.iadd64 (sw : Bool) (sub : Bool) (d a b : Reg) : Laws.RoundTrip.Statement (.iadd64 sw sub d a b) := by
  intro _ _
  show decodeWord (encR 0#1 sw 0x0E (0#2 ++ bit1 sub) d a b) = _
  rw [lane_word _ (encR_set ..)]
  delta decodeLane
  simp only [encR_op, BitVec.reduceToNat, need_true, encR_a, encR_b, encR_d, encR_m, encR_sw, encR_flag, flag_le]
theorem Laws.RoundTrip.idiv (sw : Bool) (m : DivOp) (d a b : Reg) : Laws.RoundTrip.Statement (.idiv sw m d a b) := by
  intro _ _
  show decodeWord (encR 0#1 sw 0x0F (divOpCode m) d a b) = _
  rw [lane_word _ (encR_set ..)]
  delta decodeLane
  simp only [encR_op, BitVec.reduceToNat, lr3_is, sub_some, divOp_back, encR_a, encR_b, encR_d, encR_m, encR_sw]
theorem Laws.RoundTrip.iaddi (sw : Bool) (d a : Reg) (imm : BitVec 10) : Laws.RoundTrip.Statement (.iaddi sw d a imm) := by
  intro _ _
  show decodeWord (encI sw 0x10 d a imm) = _
  rw [lane_word _ (encI_set ..)]
  delta decodeLane
  simp only [encI_op, BitVec.reduceToNat, encI_a, encI_sw, encI_t, encI_low _ _ _ _ _ 0 10 (by decide), BitVec.extractLsb'_eq_self]
theorem Laws.RoundTrip.andi (sw : Bool) (d a : Reg) (imm : BitVec 10) : Laws.RoundTrip.Statement (.andi sw d a imm) := by
  intro _ _
  show decodeWord (encI sw 0x11 d a imm) = _
  rw [lane_word _ (encI_set ..)]
  delta decodeLane
  simp only [encI_op, BitVec.reduceToNat, encI_a, encI_sw, encI_t, encI_low _ _ _ _ _ 0 10 (by decide), BitVec.extractLsb'_eq_self]
theorem Laws.RoundTrip.ori (sw : Bool) (d a : Reg) (imm : BitVec 10) : Laws.RoundTrip.Statement (.ori sw d a imm) := by
  intro _ _
  show decodeWord (encI sw 0x12 d a imm) = _
  rw [lane_word _ (encI_set ..)]
  delta decodeLane
  simp only [encI_op, BitVec.reduceToNat, encI_a, encI_sw, encI_t, encI_low _ _ _ _ _ 0 10 (by decide), BitVec.extractLsb'_eq_self]
theorem Laws.RoundTrip.xori (sw : Bool) (d a : Reg) (imm : BitVec 10) : Laws.RoundTrip.Statement (.xori sw d a imm) := by
  intro _ _
  show decodeWord (encI sw 0x13 d a imm) = _
  rw [lane_word _ (encI_set ..)]
  delta decodeLane
  simp only [encI_op, BitVec.reduceToNat, encI_a, encI_sw, encI_t, encI_low _ _ _ _ _ 0 10 (by decide), BitVec.extractLsb'_eq_self]
theorem Laws.RoundTrip.shli (sw : Bool) (d a : Reg) (count : BitVec 5) : Laws.RoundTrip.Statement (.shli sw d a count) := by
  intro _ _
  show decodeWord (encI sw 0x14 d a (0#5 ++ count)) = _
  rw [lane_word _ (encI_set ..)]
  delta decodeLane
  simp only [encI_op, BitVec.reduceToNat, zero_field, encI_a, encI_sw, encI_t, encI_low _ _ _ _ _ 5 5 (by decide), encI_low _ _ _ _ _ 0 5 (by decide), pack5_hi, pack5_lo]
theorem Laws.RoundTrip.shri (sw : Bool) (d a : Reg) (count : BitVec 5) : Laws.RoundTrip.Statement (.shri sw d a count) := by
  intro _ _
  show decodeWord (encI sw 0x15 d a (0#5 ++ count)) = _
  rw [lane_word _ (encI_set ..)]
  delta decodeLane
  simp only [encI_op, BitVec.reduceToNat, zero_field, encI_a, encI_sw, encI_t, encI_low _ _ _ _ _ 5 5 (by decide), encI_low _ _ _ _ _ 0 5 (by decide), pack5_hi, pack5_lo]
theorem Laws.RoundTrip.movl (sw : Bool) (d : Reg) (imm : BitVec 16) : Laws.RoundTrip.Statement (.movl sw d imm) := by
  intro _ _
  show decodeWord (encG 0#1 sw 0x16 d (0#1 ++ imm)) = _
  rw [lane_word _ (encG_set ..)]
  delta decodeLane
  simp only [encG_op, BitVec.reduceToNat, zero_field, encG_sw, encG_t, encG_low _ _ _ _ _ 16 1 (by decide), encG_low _ _ _ _ _ 0 16 (by decide), pack16_hi, pack16_lo]
theorem Laws.RoundTrip.movh (sw : Bool) (d : Reg) (imm : BitVec 16) : Laws.RoundTrip.Statement (.movh sw d imm) := by
  intro _ _
  show decodeWord (encG 0#1 sw 0x17 d (0#1 ++ imm)) = _
  rw [lane_word _ (encG_set ..)]
  delta decodeLane
  simp only [encG_op, BitVec.reduceToNat, zero_field, encG_sw, encG_t, encG_low _ _ _ _ _ 16 1 (by decide), encG_low _ _ _ _ _ 0 16 (by decide), pack16_hi, pack16_lo]
theorem Laws.RoundTrip.iseti (sw : Bool) (c : Cond) (p : PredNo) (a : Reg) (imm : BitVec 10) : Laws.RoundTrip.Statement (.iseti sw c p a imm) := by
  intro _ _
  obtain ⟨h1, h2, h3, h4, h5, h6, h7, h8⟩ := iseti_fields sw (condCode c) p a imm _ rfl
  rw [encode, decodeWord, h1, if_pos (by decide), decodeLane, h3]
  simp only [BitVec.reduceToNat, h2, h4, h5, h6, h7, h8, cond_back, sub, zeroF, need]
  rfl
theorem Laws.RoundTrip.mov (sw : Bool) (d a : Reg) : Laws.RoundTrip.Statement (.mov sw d a) := by
  intro _ _
  show decodeWord (encR 0#1 sw 0x19 0 d a 0) = _
  rw [lane_word _ (encR_set ..)]
  delta decodeLane
  simp only [encR_op, BitVec.reduceToNat, encR_a, encR_b, encR_d, encR_m, encR_sw]
  rfl
theorem Laws.RoundTrip.plop (sw : Bool) (m : PlopOp) (d a b : PredNo) : Laws.RoundTrip.Statement (.plop sw m d a b) := by
  intro hw _
  show decodeWord (encR 0#1 sw 0x1A (plopOpCode m) (p7 d) (p7 a) (p7 b)) = _
  rw [lane_word _ (encR_set ..)]
  delta decodeLane
  simp only [encR_op, BitVec.reduceToNat, pred_field, sub_some, plopOp_back, encR_a, encR_b, encR_d, encR_m, encR_sw]
  exact if_pos hw
theorem Laws.RoundTrip.fadd (sw : Bool) (m : Rnd) (d a b : Reg) : Laws.RoundTrip.Statement (.fadd sw m d a b) := by
  intro _ _
  show decodeWord (encR 0#1 sw 0x20 (rndCode m) d a b) = _
  rw [lane_word _ (encR_set ..)]
  delta decodeLane
  simp only [encR_op, BitVec.reduceToNat, lr3_is, sub_some, rnd_back, encR_a, encR_b, encR_d, encR_m, encR_sw]
theorem Laws.RoundTrip.fsub (sw : Bool) (m : Rnd) (d a b : Reg) : Laws.RoundTrip.Statement (.fsub sw m d a b) := by
  intro _ _
  show decodeWord (encR 0#1 sw 0x21 (rndCode m) d a b) = _
  rw [lane_word _ (encR_set ..)]
  delta decodeLane
  simp only [encR_op, BitVec.reduceToNat, lr3_is, sub_some, rnd_back, encR_a, encR_b, encR_d, encR_m, encR_sw]
theorem Laws.RoundTrip.fmul (sw : Bool) (m : Rnd) (d a b : Reg) : Laws.RoundTrip.Statement (.fmul sw m d a b) := by
  intro _ _
  show decodeWord (encR 0#1 sw 0x22 (rndCode m) d a b) = _
  rw [lane_word _ (encR_set ..)]
  delta decodeLane
  simp only [encR_op, BitVec.reduceToNat, lr3_is, sub_some, rnd_back, encR_a, encR_b, encR_d, encR_m, encR_sw]
theorem Laws.RoundTrip.ffma (sw : Bool) (m : Rnd) (d a b : Reg) : Laws.RoundTrip.Statement (.ffma sw m d a b) := by
  intro _ _
  show decodeWord (encR 0#1 sw 0x23 (rndCode m) d a b) = _
  rw [lane_word _ (encR_set ..)]
  delta decodeLane
  simp only [encR_op, BitVec.reduceToNat, lr3_is, sub_some, rnd_back, encR_a, encR_b, encR_d, encR_m, encR_sw]
theorem Laws.RoundTrip.fmnmx (sw : Bool) (m : FmnOp) (d a b : Reg) : Laws.RoundTrip.Statement (.fmnmx sw m d a b) := by
  intro _ _
  show decodeWord (encR 0#1 sw 0x24 (fmnOpCode m) d a b) = _
  rw [lane_word _ (encR_set ..)]
  delta decodeLane
  simp only [encR_op, BitVec.reduceToNat, lr3_is, sub_some, fmnOp_back, encR_a, encR_b, encR_d, encR_m, encR_sw]
theorem Laws.RoundTrip.fset (sw : Bool) (c : FCond) (p : PredNo) (a b : Reg) : Laws.RoundTrip.Statement (.fset sw c p a b) := by
  intro _ _
  show decodeWord (encR 0#1 sw 0x25 (fCondCode c) (p7 p) a b) = _
  rw [lane_word _ (encR_set ..)]
  delta decodeLane
  simp only [encR_op, BitVec.reduceToNat, pred_field, sub_some, fCond_back, encR_a, encR_b, encR_d, encR_m, encR_sw]
theorem Laws.RoundTrip.dadd (sw : Bool) (m : Rnd) (d a b : Reg) : Laws.RoundTrip.Statement (.dadd sw m d a b) := by
  intro _ _
  show decodeWord (encR 0#1 sw 0x26 (rndCode m) d a b) = _
  rw [lane_word _ (encR_set ..)]
  delta decodeLane
  simp only [encR_op, BitVec.reduceToNat, lr3_is, sub_some, rnd_back, encR_a, encR_b, encR_d, encR_m, encR_sw]
theorem Laws.RoundTrip.dmul (sw : Bool) (m : Rnd) (d a b : Reg) : Laws.RoundTrip.Statement (.dmul sw m d a b) := by
  intro _ _
  show decodeWord (encR 0#1 sw 0x27 (rndCode m) d a b) = _
  rw [lane_word _ (encR_set ..)]
  delta decodeLane
  simp only [encR_op, BitVec.reduceToNat, lr3_is, sub_some, rnd_back, encR_a, encR_b, encR_d, encR_m, encR_sw]
theorem Laws.RoundTrip.dfma (sw : Bool) (m : Rnd) (d a b : Reg) : Laws.RoundTrip.Statement (.dfma sw m d a b) := by
  intro _ _
  show decodeWord (encR 0#1 sw 0x28 (rndCode m) d a b) = _
  rw [lane_word _ (encR_set ..)]
  delta decodeLane
  simp only [encR_op, BitVec.reduceToNat, lr3_is, sub_some, rnd_back, encR_a, encR_b, encR_d, encR_m, encR_sw]
theorem Laws.RoundTrip.bfma2 (sw : Bool) (m : Rnd) (d a b : Reg) : Laws.RoundTrip.Statement (.bfma2 sw m d a b) := by
  intro _ _
  show decodeWord (encR 0#1 sw 0x29 (rndCode m) d a b) = _
  rw [lane_word _ (encR_set ..)]
  delta decodeLane
  simp only [encR_op, BitVec.reduceToNat, lr3_is, sub_some, rnd_back, encR_a, encR_b, encR_d, encR_m, encR_sw]
theorem Laws.RoundTrip.hfma2 (sw : Bool) (m : Rnd) (d a b : Reg) : Laws.RoundTrip.Statement (.hfma2 sw m d a b) := by
  intro _ _
  show decodeWord (encR 0#1 sw 0x2A (rndCode m) d a b) = _
  rw [lane_word _ (encR_set ..)]
  delta decodeLane
  simp only [encR_op, BitVec.reduceToNat, lr3_is, sub_some, rnd_back, encR_a, encR_b, encR_d, encR_m, encR_sw]
theorem Laws.RoundTrip.fdot2 (sw : Bool) (m : Rnd) (d a b : Reg) : Laws.RoundTrip.Statement (.fdot2 sw m d a b) := by
  intro _ _
  show decodeWord (encR 0#1 sw 0x2B (rndCode m) d a b) = _
  rw [lane_word _ (encR_set ..)]
  delta decodeLane
  simp only [encR_op, BitVec.reduceToNat, lr3_is, sub_some, rnd_back, encR_a, encR_b, encR_d, encR_m, encR_sw]
theorem Laws.RoundTrip.sfu (sw : Bool) (f : SfuOp) (m : Rnd) (d a : Reg) : Laws.RoundTrip.Statement (.sfu sw f m d a) := by
  intro _ _
  show decodeWord (encR 0#1 sw 0x2C (sfuOpCode f) d a (0#4 ++ rndCode m)) = _
  rw [lane_word _ (encR_set ..)]
  delta decodeLane
  simp only [encR_op, BitVec.reduceToNat, zero_field, sub_some, sfuOp_back, rnd_back, encR_a, encR_d, encR_m, encR_sw, encR_low _ _ _ _ _ _ _ 3 4 (by decide), encR_low _ _ _ _ _ _ _ 0 3 (by decide), pack3_hi, pack3_lo]
theorem Laws.RoundTrip.dsfu (sw : Bool) (f : DsfuOp) (m : Rnd) (d a : Reg) : Laws.RoundTrip.Statement (.dsfu sw f m d a) := by
  intro _ _
  show decodeWord (encR 0#1 sw 0x2D (dsfuOpCode f) d a (0#4 ++ rndCode m)) = _
  rw [lane_word _ (encR_set ..)]
  delta decodeLane
  simp only [encR_op, BitVec.reduceToNat, zero_field, sub_some, dsfuOp_back, rnd_back, encR_a, encR_d, encR_m, encR_sw, encR_low _ _ _ _ _ _ _ 3 4 (by decide), encR_low _ _ _ _ _ _ _ 0 3 (by decide), pack3_hi, pack3_lo]
theorem Laws.RoundTrip.cvt (sw : Bool) (m : Rnd) (c : CvtOp) (sat : Bool) (d a : Reg) : Laws.RoundTrip.Statement (.cvt sw m c sat d a) := by
  intro _ _
  show decodeWord (encR 0#1 sw 0x2E (rndCode m) d a (bit1 sat ++ cvtOpCode c)) = _
  rw [lane_word _ (encR_set ..)]
  delta decodeLane
  simp only [encR_op, BitVec.reduceToNat, sub_some, rnd_back, cvtOp_back, encR_a, encR_d, encR_m, encR_sw, encR_low _ _ _ _ _ _ _ 0 6 (by decide), encR_bit6, pack6_lo]
theorem Laws.RoundTrip.prmt (sw : Bool) (d a b : Reg) : Laws.RoundTrip.Statement (.prmt sw d a b) := by
  intro _ _
  show decodeWord (encR 0#1 sw 0x2F 0 d a b) = _
  rw [lane_word _ (encR_set ..)]
  delta decodeLane
  simp only [encR_op, BitVec.reduceToNat, lr3_is, encR_a, encR_b, encR_d, encR_m, encR_sw]
  rfl
theorem Laws.RoundTrip.dset (sw : Bool) (c : FCond) (p : PredNo) (a b : Reg) : Laws.RoundTrip.Statement (.dset sw c p a b) := by
  intro _ _
  show decodeWord (encR 0#1 sw 0x30 (fCondCode c) (p7 p) a b) = _
  rw [lane_word _ (encR_set ..)]
  delta decodeLane
  simp only [encR_op, BitVec.reduceToNat, pred_field, sub_some, fCond_back, encR_a, encR_b, encR_d, encR_m, encR_sw]
theorem Laws.RoundTrip.fcls (sw : Bool) (f64 : Bool) (d a : Reg) : Laws.RoundTrip.Statement (.fcls sw f64 d a) := by
  intro _ _
  show decodeWord (encR 0#1 sw 0x31 (0#2 ++ bit1 f64) d a 0) = _
  rw [lane_word _ (encR_set ..)]
  delta decodeLane
  simp only [encR_op, BitVec.reduceToNat, need_true, encR_a, encR_b, encR_d, encR_m, encR_sw, encR_flag, flag_le]
  rfl
theorem Laws.RoundTrip.shfl (sw : Bool) (m : ShflOp) (d a b : Reg) : Laws.RoundTrip.Statement (.shfl sw m d a b) := by
  intro hw _
  show decodeWord (encR 0#1 sw 0x34 (shflOpCode m) d a b) = _
  rw [lane_word _ (encR_set ..)]
  delta decodeLane
  simp only [encR_op, BitVec.reduceToNat, lr3_is, sub_some, shflOp_back, encR_a, encR_b, encR_d, encR_m, encR_sw]
  exact if_pos hw
theorem Laws.RoundTrip.vote (sw : Bool) (m : VoteOp) (d a : Reg) : Laws.RoundTrip.Statement (.vote sw m d a) := by
  intro _ _
  show decodeWord (encR 0#1 sw 0x35 (voteOpCode m) d a 0) = _
  rw [lane_word _ (encR_set ..)]
  delta decodeLane
  simp only [encR_op, BitVec.reduceToNat, sub_some, voteOp_back, encR_a, encR_b, encR_d, encR_m, encR_sw]
  rfl
theorem Laws.RoundTrip.matchv (sw : Bool) (d a : Reg) (p : PredNo) : Laws.RoundTrip.Statement (.matchv sw d a p) := by
  intro _ _
  show decodeWord (encR 0#1 sw 0x36 0 d a (p7 p)) = _
  rw [lane_word _ (encR_set ..)]
  delta decodeLane
  simp only [encR_op, BitVec.reduceToNat, pred_field, encR_a, encR_b, encR_d, encR_m, encR_sw]
  rfl
theorem Laws.RoundTrip.red (sw : Bool) (k : RedKind) (d a : Reg) : Laws.RoundTrip.Statement (.red sw k d a) := by
  intro _ _
  show decodeWord (encR 0#1 sw 0x37 (redKindCode k) d a 0) = _
  rw [lane_word _ (encR_set ..)]
  delta decodeLane
  simp only [encR_op, BitVec.reduceToNat, sub_some, redKind_back, encR_a, encR_b, encR_d, encR_m, encR_sw]
  rfl
theorem Laws.RoundTrip.ldg (sw : Bool) (sz : Size) (q : LdgQ) (t a : Reg) (off : BitVec 6) : Laws.RoundTrip.Statement (.ldg sw sz q t a off) := by
  intro _ _
  show decodeWord (encI sw 0x38 t a (sizeCode sz ++ ldgQCode q ++ off)) = _
  rw [lane_word _ (encI_set ..)]
  delta decodeLane
  simp only [encI_op, BitVec.reduceToNat, sub_some, size_back, ldgQ_back, encI_a, encI_sw, encI_t, encI_low _ _ _ _ _ 8 2 (by decide), encI_low _ _ _ _ _ 6 2 (by decide), encI_low _ _ _ _ _ 0 6 (by decide), packLd_sz, packLd_q, packLd_o]
theorem Laws.RoundTrip.stg (sw : Bool) (sz : Size) (nt : Bool) (t a : Reg) (off : BitVec 6) : Laws.RoundTrip.Statement (.stg sw sz nt t a off) := by
  intro _ _
  show decodeWord (encI sw 0x39 t a (sizeCode sz ++ bit1 nt ++ bit1 nt ++ off)) = _
  rw [lane_word _ (encI_set ..)]
  delta decodeLane
  simp only [encI_op, BitVec.reduceToNat, sub_some, size_back, encI_a, encI_sw, encI_t, encI_low _ _ _ _ _ 8 2 (by decide), encI_low _ _ _ _ _ 6 2 (by decide), encI_low _ _ _ _ _ 0 6 (by decide), encI_bit _ _ _ _ _ 6 (by decide), packSt_sz, packSt_g, packSt_o, packSt_q]
  cases nt <;> rfl
theorem Laws.RoundTrip.lds (sw : Bool) (sz : Size) (q : LdsQ) (t a : Reg) (off : BitVec 6) : Laws.RoundTrip.Statement (.lds sw sz q t a off) := by
  intro _ _
  show decodeWord (encI sw 0x3A t a (sizeCode sz ++ ldsQCode q ++ off)) = _
  rw [lane_word _ (encI_set ..)]
  delta decodeLane
  simp only [encI_op, BitVec.reduceToNat, sub_some, size_back, ldsQ_back, encI_a, encI_sw, encI_t, encI_low _ _ _ _ _ 8 2 (by decide), encI_low _ _ _ _ _ 6 2 (by decide), encI_low _ _ _ _ _ 0 6 (by decide), packLd_sz, packLd_q, packLd_o]
theorem Laws.RoundTrip.sts (sw : Bool) (sz : Size) (q : StsQ) (t a : Reg) (off : BitVec 6) : Laws.RoundTrip.Statement (.sts sw sz q t a off) := by
  intro _ _
  show decodeWord (encI sw 0x3B t a (sizeCode sz ++ stsQCode q ++ off)) = _
  rw [lane_word _ (encI_set ..)]
  delta decodeLane
  simp only [encI_op, BitVec.reduceToNat, sub_some, size_back, stsQ_back, encI_a, encI_sw, encI_t, encI_low _ _ _ _ _ 8 2 (by decide), encI_low _ _ _ _ _ 6 2 (by decide), encI_low _ _ _ _ _ 0 6 (by decide), packLd_sz, packLd_q, packLd_o]
theorem Laws.RoundTrip.lda (sw : Bool) (b64 : Bool) (sc : Scope) (sp : Bool) (t a : Reg) (off : BitVec 5) : Laws.RoundTrip.Statement (.lda sw b64 sc sp t a off) := by
  intro _ _
  show decodeWord (encI sw 0x3C t a (bit1 b64 ++ scopeCode sc ++ bit1 sp ++ off)) = _
  rw [lane_word _ (encI_set ..)]
  delta decodeLane
  simp only [encI_op, BitVec.reduceToNat, sub_some, scope_back, encI_a, encI_sw, encI_t, encI_low _ _ _ _ _ 6 3 (by decide), encI_low _ _ _ _ _ 0 5 (by decide), encI_bit _ _ _ _ _ 9 (by decide), encI_bit _ _ _ _ _ 5 (by decide), packSc_z, packSc_c, packSc_g, packSc_o]
theorem Laws.RoundTrip.stl (sw : Bool) (b64 : Bool) (sc : Scope) (sp : Bool) (t a : Reg) (off : BitVec 5) : Laws.RoundTrip.Statement (.stl sw b64 sc sp t a off) := by
  intro _ _
  show decodeWord (encI sw 0x3D t a (bit1 b64 ++ scopeCode sc ++ bit1 sp ++ off)) = _
  rw [lane_word _ (encI_set ..)]
  delta decodeLane
  simp only [encI_op, BitVec.reduceToNat, sub_some, scope_back, encI_a, encI_sw, encI_t, encI_low _ _ _ _ _ 6 3 (by decide), encI_low _ _ _ _ _ 0 5 (by decide), encI_bit _ _ _ _ _ 9 (by decide), encI_bit _ _ _ _ _ 5 (by decide), packSc_z, packSc_c, packSc_g, packSc_o]
theorem Laws.RoundTrip.atom (sw : Bool) (aop : Aop) (u : Use) (ty : AtomTy) (sp : Bool) (t a : Reg) : Laws.RoundTrip.Statement (.atom sw aop u ty sp t a) := by
  intro _ _
  show decodeWord (encI sw 0x3E t a (useCode u ++ aopCode aop ++ bit1 sp ++ atomTyCode ty)) = _
  rw [lane_word _ (encI_set ..)]
  delta decodeLane
  simp only [encI_op, BitVec.reduceToNat, sub_some, aop_back, use_back, atomTy_back, encI_a, encI_sw, encI_t, encI_low _ _ _ _ _ 3 4 (by decide), encI_low _ _ _ _ _ 7 3 (by decide), encI_low _ _ _ _ _ 0 2 (by decide), encI_bit _ _ _ _ _ 2 (by decide), packAt_u, packAt_c, packAt_g, packAt_y]
theorem Laws.RoundTrip.ldrRo (sw : Bool) (sz : Size) (t a : Reg) (off : BitVec 6) : Laws.RoundTrip.Statement (.ldrRo sw sz t a off) := by
  intro _ _
  show decodeWord (encI sw 0x3F t a (sizeCode sz ++ 0#2 ++ off)) = _
  rw [lane_word _ (encI_set ..)]
  delta decodeLane
  simp only [encI_op, BitVec.reduceToNat, sub_some, size_back, encI_a, encI_sw, encI_t, encI_low _ _ _ _ _ 8 2 (by decide), encI_low _ _ _ _ _ 0 5 (by decide), encI_low _ _ _ _ _ 0 6 (by decide), encI_bit _ _ _ _ _ 7 (by decide), encI_bit _ _ _ _ _ 6 (by decide), encI_bit _ _ _ _ _ 5 (by decide), packLd_sz, packLd_o, packRo_7, packRo_6]
  rfl
theorem Laws.RoundTrip.ldrUse (sw : Bool) (sz : Size) (discard : Bool) (count : BitVec 5) (t a : Reg) : Laws.RoundTrip.Statement (.ldrUse sw sz discard count t a) := by
  intro _ _
  show decodeWord (encI sw 0x3F t a (sizeCode sz ++ 1#2 ++ bit1 discard ++ count)) = _
  rw [lane_word _ (encI_set ..)]
  delta decodeLane
  simp only [encI_op, BitVec.reduceToNat, sub_some, size_back, encI_a, encI_sw, encI_t, encI_low _ _ _ _ _ 8 2 (by decide), encI_low _ _ _ _ _ 0 5 (by decide), encI_low _ _ _ _ _ 0 6 (by decide), encI_bit _ _ _ _ _ 7 (by decide), encI_bit _ _ _ _ _ 6 (by decide), encI_bit _ _ _ _ _ 5 (by decide), packUse_sz, packUse_7, packUse_6, packUse_g, packUse_n]
  rfl
theorem Laws.RoundTrip.nop (sw : Bool) : Laws.RoundTrip.Statement (.nop sw) := by
  intro _ _
  show decodeWord (encR 1#1 sw 0x00 0 0 0 0) = _
  rw [group_word _ (encR_set ..)]
  delta decodeGroup
  simp only [encR_op, BitVec.reduceToNat, gr0_is, zero_field, encR_sw, encR_low24]
theorem Laws.RoundTrip.bra (sw : Bool) (neg : Bool) (p : PredNo) (disp : BitVec 20) : Laws.RoundTrip.Statement (.bra sw neg p disp) := by
  intro _ _
  show decodeWord (encB sw 0x01 neg p disp) = _
  rw [group_word _ (encB_set ..)]
  delta decodeGroup
  simp only [encB_op, BitVec.reduceToNat, gb_is, encB_sw, encB_neg, encB_p, encB_x]
theorem Laws.RoundTrip.bray (sw : Bool) (neg : Bool) (p : PredNo) (disp : BitVec 20) : Laws.RoundTrip.Statement (.bray sw neg p disp) := by
  intro _ _
  show decodeWord (encB sw 0x02 neg p disp) = _
  rw [group_word _ (encB_set ..)]
  delta decodeGroup
  simp only [encB_op, BitVec.reduceToNat, gb_is, encB_sw, encB_neg, encB_p, encB_x]
theorem Laws.RoundTrip.call (sw : Bool) (neg : Bool) (p : PredNo) (disp : BitVec 20) : Laws.RoundTrip.Statement (.call sw neg p disp) := by
  intro _ _
  show decodeWord (encB sw 0x03 neg p disp) = _
  rw [group_word _ (encB_set ..)]
  delta decodeGroup
  simp only [encB_op, BitVec.reduceToNat, gb_is, encB_sw, encB_neg, encB_p, encB_x]
theorem Laws.RoundTrip.join (sw : Bool) (a : Reg) : Laws.RoundTrip.Statement (.join sw a) := by
  intro _ _
  show decodeWord (encR 1#1 sw 0x04 0 0 a 0) = _
  rw [group_word _ (encR_set ..)]
  delta decodeGroup
  simp only [encR_op, BitVec.reduceToNat, grA_is, encR_a, encR_b, encR_d, encR_m, encR_sw]
  rfl
theorem Laws.RoundTrip.calli (sw : Bool) (a : Reg) : Laws.RoundTrip.Statement (.calli sw a) := by
  intro _ _
  show decodeWord (encR 1#1 sw 0x05 0 0 a 0) = _
  rw [group_word _ (encR_set ..)]
  delta decodeGroup
  simp only [encR_op, BitVec.reduceToNat, grA_is, encR_a, encR_b, encR_d, encR_m, encR_sw]
  rfl
theorem Laws.RoundTrip.brai (sw : Bool) (a : Reg) : Laws.RoundTrip.Statement (.brai sw a) := by
  intro _ _
  show decodeWord (encR 1#1 sw 0x06 0 0 a 0) = _
  rw [group_word _ (encR_set ..)]
  delta decodeGroup
  simp only [encR_op, BitVec.reduceToNat, grA_is, encR_a, encR_b, encR_d, encR_m, encR_sw]
  rfl
theorem Laws.RoundTrip.ret (sw : Bool) (a : Reg) : Laws.RoundTrip.Statement (.ret sw a) := by
  intro _ _
  show decodeWord (encR 1#1 sw 0x07 0 0 a 0) = _
  rw [group_word _ (encR_set ..)]
  delta decodeGroup
  simp only [encR_op, BitVec.reduceToNat, grA_is, encR_a, encR_b, encR_d, encR_m, encR_sw]
  rfl
theorem Laws.RoundTrip.exit (sw : Bool) : Laws.RoundTrip.Statement (.exit sw) := by
  intro _ _
  show decodeWord (encR 1#1 sw 0x08 0 0 0 0) = _
  rw [group_word _ (encR_set ..)]
  delta decodeGroup
  simp only [encR_op, BitVec.reduceToNat, gr0_is, zero_field, encR_sw, encR_low24]
theorem Laws.RoundTrip.refill (sw : Bool) (a : Reg) : Laws.RoundTrip.Statement (.refill sw a) := by
  intro _ _
  show decodeWord (encR 1#1 sw 0x09 0 0 a 0) = _
  rw [group_word _ (encR_set ..)]
  delta decodeGroup
  simp only [encR_op, BitVec.reduceToNat, grA_is, encR_a, encR_b, encR_d, encR_m, encR_sw]
  rfl
theorem Laws.RoundTrip.region (sw : Bool) : Laws.RoundTrip.Statement (.region sw) := by
  intro _ _
  show decodeWord (encR 1#1 sw 0x0A 0 0 0 0) = _
  rw [group_word _ (encR_set ..)]
  delta decodeGroup
  simp only [encR_op, BitVec.reduceToNat, gr0_is, zero_field, encR_sw, encR_low24]
theorem Laws.RoundTrip.trap (sw : Bool) (code : BitVec 17) : Laws.RoundTrip.Statement (.trap sw code) := by
  intro _ _
  show decodeWord (encG 1#1 sw 0x0B 0 code) = _
  rw [group_word _ (encG_set ..)]
  delta decodeGroup
  simp only [encG_op, BitVec.reduceToNat, encG_sw, encG_t, encG_x]
  rfl
theorem Laws.RoundTrip.bpt (sw : Bool) (code : BitVec 17) : Laws.RoundTrip.Statement (.bpt sw code) := by
  intro _ _
  show decodeWord (encG 1#1 sw 0x0C 0 code) = _
  rw [group_word _ (encG_set ..)]
  delta decodeGroup
  simp only [encG_op, BitVec.reduceToNat, encG_sw, encG_t, encG_x]
  rfl
theorem Laws.RoundTrip.waitm (sw : Bool) (c : Cond) (a b : Reg) : Laws.RoundTrip.Statement (.waitm sw c a b) := by
  intro _ _
  show decodeWord (encR 1#1 sw 0x0D (condCode c) 0 a b) = _
  rw [group_word _ (encR_set ..)]
  delta decodeGroup
  simp only [encR_op, BitVec.reduceToNat, sub_some, cond_back, encR_a, encR_b, encR_d, encR_m, encR_sw]
  rfl
theorem Laws.RoundTrip.bar (sw : Bool) (cluster : Bool) : Laws.RoundTrip.Statement (.bar sw cluster) := by
  intro _ _
  show decodeWord (encR 1#1 sw 0x10 (0#2 ++ bit1 cluster) 0 0 0) = _
  rw [group_word _ (encR_set ..)]
  delta decodeGroup
  simp only [encR_op, BitVec.reduceToNat, zero_field, need_true, encR_m, encR_sw, encR_flag, flag_le, encR_low21]
theorem Laws.RoundTrip.barx (sw : Bool) (op : BarxOp) (d a b : Reg) : Laws.RoundTrip.Statement (.barx sw op d a b) := by
  intro hw _
  show decodeWord (encR 1#1 sw 0x11 (barxOpCode op) d a b) = _
  rw [group_word _ (encR_set ..)]
  delta decodeGroup
  simp only [encR_op, BitVec.reduceToNat, sub_some, barxOp_back, encR_a, encR_b, encR_d, encR_m, encR_sw]
  have h := Bool.and_eq_true_iff.1 hw
  exact (if_pos h.1).trans (if_pos h.2)
theorem Laws.RoundTrip.fence (sw : Bool) (sc : Scope) (imm : BitVec 7) : Laws.RoundTrip.Statement (.fence sw sc imm) := by
  intro _ _
  show decodeWord (encR 1#1 sw 0x12 (scopeCode sc) 0 0 imm) = _
  rw [group_word _ (encR_set ..)]
  delta decodeGroup
  simp only [encR_op, BitVec.reduceToNat, sub_some, scope_back, encR_a, encR_b, encR_d, encR_m, encR_sw]
  rfl
theorem Laws.RoundTrip.drain (sw : Bool) (sc : Scope) : Laws.RoundTrip.Statement (.drain sw sc) := by
  intro _ _
  show decodeWord (encR 1#1 sw 0x13 (scopeCode sc) 0 0 0) = _
  rw [group_word _ (encR_set ..)]
  delta decodeGroup
  simp only [encR_op, BitVec.reduceToNat, zero_field, sub_some, scope_back, encR_m, encR_sw, encR_low21]
theorem Laws.RoundTrip.roinv (sw : Bool) : Laws.RoundTrip.Statement (.roinv sw) := by
  intro _ _
  show decodeWord (encR 1#1 sw 0x14 0 0 0 0) = _
  rw [group_word _ (encR_set ..)]
  delta decodeGroup
  simp only [encR_op, BitVec.reduceToNat, gr0_is, zero_field, encR_sw, encR_low24]
theorem Laws.RoundTrip.gmov (sw : Bool) (d a : Reg) : Laws.RoundTrip.Statement (.gmov sw d a) := by
  intro _ _
  show decodeWord (encR 1#1 sw 0x15 0 d a 0) = _
  rw [group_word _ (encR_set ..)]
  delta decodeGroup
  simp only [encR_op, BitVec.reduceToNat, grDA_is, encR_a, encR_b, encR_d, encR_m, encR_sw]
  rfl
theorem Laws.RoundTrip.galu (sw : Bool) (op : GaluOp) (d a b : Reg) : Laws.RoundTrip.Statement (.galu sw op d a b) := by
  intro _ _
  show decodeWord (encR 1#1 sw 0x16 (galuOpCode op) d a b) = _
  rw [group_word _ (encR_set ..)]
  delta decodeGroup
  simp only [encR_op, BitVec.reduceToNat, sub_some, galuOp_back, encR_a, encR_b, encR_d, encR_m, encR_sw]
theorem Laws.RoundTrip.galui (sw : Bool) (op : GaluOp) (d : Reg) (imm : BitVec 14) : Laws.RoundTrip.Statement (.galui sw op d imm) := by
  intro _ _
  show decodeWord (encG 1#1 sw 0x17 d (galuOpCode op ++ imm)) = _
  rw [group_word _ (encG_set ..)]
  delta decodeGroup
  simp only [encG_op, BitVec.reduceToNat, sub_some, galuOp_back, encG_sw, encG_t, encG_low _ _ _ _ _ 14 3 (by decide), encG_low _ _ _ _ _ 0 14 (by decide), pack14_hi, pack14_lo]
theorem Laws.RoundTrip.gmovl (sw : Bool) (d : Reg) (imm : BitVec 17) : Laws.RoundTrip.Statement (.gmovl sw d imm) := by
  intro _ _
  show decodeWord (encG 1#1 sw 0x18 d imm) = _
  rw [group_word _ (encG_set ..)]
  delta decodeGroup
  simp only [encG_op, BitVec.reduceToNat, encG_sw, encG_t, encG_x]
theorem Laws.RoundTrip.gmovh (sw : Bool) (d : Reg) (imm : BitVec 17) : Laws.RoundTrip.Statement (.gmovh sw d imm) := by
  intro _ _
  show decodeWord (encG 1#1 sw 0x19 d imm) = _
  rw [group_word _ (encG_set ..)]
  delta decodeGroup
  simp only [encG_op, BitVec.reduceToNat, encG_sw, encG_t, encG_x]
theorem Laws.RoundTrip.gred (sw : Bool) (k : RedKind) (d a : Reg) : Laws.RoundTrip.Statement (.gred sw k d a) := by
  intro _ _
  show decodeWord (encR 1#1 sw 0x1A (redKindCode k) d a 0) = _
  rw [group_word _ (encR_set ..)]
  delta decodeGroup
  simp only [encR_op, BitVec.reduceToNat, sub_some, redKind_back, encR_a, encR_b, encR_d, encR_m, encR_sw]
  rfl
theorem Laws.RoundTrip.gset (sw : Bool) (c : Cond) (p : PredNo) (a b : Reg) : Laws.RoundTrip.Statement (.gset sw c p a b) := by
  intro _ _
  show decodeWord (encR 1#1 sw 0x1B (condCode c) (p7 p) a b) = _
  rw [group_word _ (encR_set ..)]
  delta decodeGroup
  simp only [encR_op, BitVec.reduceToNat, pred_field, sub_some, cond_back, encR_a, encR_b, encR_d, encR_m, encR_sw]
theorem Laws.RoundTrip.getc (sw : Bool) (d : Reg) (idx : BitVec 17) : Laws.RoundTrip.Statement (.getc sw d idx) := by
  intro _ _
  show decodeWord (encG 1#1 sw 0x1C d idx) = _
  rw [group_word _ (encG_set ..)]
  delta decodeGroup
  simp only [encG_op, BitVec.reduceToNat, encG_sw, encG_t, encG_x]
theorem Laws.RoundTrip.setc (sw : Bool) (d : Reg) (idx : BitVec 17) : Laws.RoundTrip.Statement (.setc sw d idx) := by
  intro hw _
  show decodeWord (encG 1#1 sw 0x1D d idx) = _
  rw [group_word _ (encG_set ..)]
  delta decodeGroup
  simp only [encG_op, BitVec.reduceToNat, encG_sw, encG_t, encG_x]
  have h : (ctrlIndex idx && !setcOwnRow idx) = true := hw
  rw [setcOf]
  split <;> simp_all [setcOwnRow]
theorem Laws.RoundTrip.setcRole (sw : Bool) (d : Reg) : Laws.RoundTrip.Statement (.setcRole sw d) := by
  intro _ _
  show decodeWord (encG 1#1 sw 0x1D d 0x09) = _
  rw [group_word _ (encG_set ..)]
  delta decodeGroup
  simp only [encG_op, BitVec.reduceToNat, encG_sw, encG_t, encG_x]
  rfl
theorem Laws.RoundTrip.setcFpflags (sw : Bool) (d : Reg) : Laws.RoundTrip.Statement (.setcFpflags sw d) := by
  intro _ _
  show decodeWord (encG 1#1 sw 0x1D d 0x0A) = _
  rw [group_word _ (encG_set ..)]
  delta decodeGroup
  simp only [encG_op, BitVec.reduceToNat, encG_sw, encG_t, encG_x]
  rfl
theorem Laws.RoundTrip.setcRingbase (sw : Bool) (d : Reg) : Laws.RoundTrip.Statement (.setcRingbase sw d) := by
  intro _ _
  show decodeWord (encG 1#1 sw 0x1D d 0x20) = _
  rw [group_word _ (encG_set ..)]
  delta decodeGroup
  simp only [encG_op, BitVec.reduceToNat, encG_sw, encG_t, encG_x]
  rfl
theorem Laws.RoundTrip.setcRingsize (sw : Bool) (d : Reg) : Laws.RoundTrip.Statement (.setcRingsize sw d) := by
  intro _ _
  show decodeWord (encG 1#1 sw 0x1D d 0x21) = _
  rw [group_word _ (encG_set ..)]
  delta decodeGroup
  simp only [encG_op, BitVec.reduceToNat, encG_sw, encG_t, encG_x]
  rfl
theorem Laws.RoundTrip.setcQuota (sw : Bool) (d : Reg) : Laws.RoundTrip.Statement (.setcQuota sw d) := by
  intro _ _
  show decodeWord (encG 1#1 sw 0x1D d 0x22) = _
  rw [group_word _ (encG_set ..)]
  delta decodeGroup
  simp only [encG_op, BitVec.reduceToNat, encG_sw, encG_t, encG_x]
  rfl
theorem Laws.RoundTrip.setcFrm (sw : Bool) (d : Reg) : Laws.RoundTrip.Statement (.setcFrm sw d) := by
  intro _ _
  show decodeWord (encG 1#1 sw 0x1D d 0xA1) = _
  rw [group_word _ (encG_set ..)]
  delta decodeGroup
  simp only [encG_op, BitVec.reduceToNat, encG_sw, encG_t, encG_x]
  rfl
theorem Laws.RoundTrip.clk (sw : Bool) (d : Reg) : Laws.RoundTrip.Statement (.clk sw d) := by
  intro _ _
  show decodeWord (encR 1#1 sw 0x1E 0 d 0 0) = _
  rw [group_word _ (encR_set ..)]
  delta decodeGroup
  simp only [encR_op, BitVec.reduceToNat, encR_a, encR_b, encR_d, encR_m, encR_sw]
  rfl
theorem Laws.RoundTrip.free (sw : Bool) (d a b : Reg) : Laws.RoundTrip.Statement (.free sw d a b) := by
  intro _ _
  show decodeWord (encR 1#1 sw 0x1F 0 d a b) = _
  rw [group_word _ (encR_set ..)]
  delta decodeGroup
  simp only [encR_op, BitVec.reduceToNat, encR_a, encR_b, encR_d, encR_m, encR_sw]
  rfl
theorem Laws.RoundTrip.reggive (sw : Bool) (n : BitVec 7) : Laws.RoundTrip.Statement (.reggive sw n) := by
  intro _ _
  show decodeWord (encR 1#1 sw 0x20 0 0 0 n) = _
  rw [group_word _ (encR_set ..)]
  delta decodeGroup
  simp only [encR_op, BitVec.reduceToNat, zero_field, encR_b, encR_sw, encR_mid17]
theorem Laws.RoundTrip.regclaim (sw : Bool) (n : BitVec 7) : Laws.RoundTrip.Statement (.regclaim sw n) := by
  intro _ _
  show decodeWord (encR 1#1 sw 0x21 0 0 0 n) = _
  rw [group_word _ (encR_set ..)]
  delta decodeGroup
  simp only [encR_op, BitVec.reduceToNat, zero_field, encR_b, encR_sw, encR_mid17]
theorem Laws.RoundTrip.cpwp (sw : Bool) (ch : BitVec 3) (d : Reg) : Laws.RoundTrip.Statement (.cpwp sw ch d) := by
  intro _ _
  show decodeWord (encR 1#1 sw 0x28 ch d 0 0) = _
  rw [group_word _ (encR_set ..)]
  delta decodeGroup
  simp only [encR_op, BitVec.reduceToNat, encR_a, encR_b, encR_d, encR_m, encR_sw]
  rfl
theorem Laws.RoundTrip.cpwait (sw : Bool) (ch : BitVec 3) (d a : Reg) : Laws.RoundTrip.Statement (.cpwait sw ch d a) := by
  intro _ _
  show decodeWord (encR 1#1 sw 0x29 ch d a 0) = _
  rw [group_word _ (encR_set ..)]
  delta decodeGroup
  simp only [encR_op, BitVec.reduceToNat, encR_a, encR_b, encR_d, encR_m, encR_sw]
  rfl
theorem Laws.RoundTrip.cpstat (sw : Bool) (ch : BitVec 3) (d : Reg) : Laws.RoundTrip.Statement (.cpstat sw ch d) := by
  intro _ _
  show decodeWord (encR 1#1 sw 0x2F ch d 0 0) = _
  rw [group_word _ (encR_set ..)]
  delta decodeGroup
  simp only [encR_op, BitVec.reduceToNat, encR_a, encR_b, encR_d, encR_m, encR_sw]
  rfl
theorem Laws.RoundTrip.mxpost (sw : Bool) (d a : Reg) : Laws.RoundTrip.Statement (.mxpost sw d a) := by
  intro _ _
  show decodeWord (encR 1#1 sw 0x2A 0 d a 0) = _
  rw [group_word _ (encR_set ..)]
  delta decodeGroup
  simp only [encR_op, BitVec.reduceToNat, grDA_is, encR_a, encR_b, encR_d, encR_m, encR_sw]
  rfl
theorem Laws.RoundTrip.mxstat (sw : Bool) (d a : Reg) : Laws.RoundTrip.Statement (.mxstat sw d a) := by
  intro _ _
  show decodeWord (encR 1#1 sw 0x2B 0 d a 0) = _
  rw [group_word _ (encR_set ..)]
  delta decodeGroup
  simp only [encR_op, BitVec.reduceToNat, grDA_is, encR_a, encR_b, encR_d, encR_m, encR_sw]
  rfl
theorem Laws.RoundTrip.tkpost (sw : Bool) (d a : Reg) : Laws.RoundTrip.Statement (.tkpost sw d a) := by
  intro _ _
  show decodeWord (encR 1#1 sw 0x2C 0 d a 0) = _
  rw [group_word _ (encR_set ..)]
  delta decodeGroup
  simp only [encR_op, BitVec.reduceToNat, grDA_is, encR_a, encR_b, encR_d, encR_m, encR_sw]
  rfl
theorem Laws.RoundTrip.tksig (sw : Bool) (set : Bool) (a b : Reg) : Laws.RoundTrip.Statement (.tksig sw set a b) := by
  intro _ _
  show decodeWord (encR 1#1 sw 0x2D (0#2 ++ bit1 set) 0 a b) = _
  rw [group_word _ (encR_set ..)]
  delta decodeGroup
  simp only [encR_op, BitVec.reduceToNat, need_true, encR_a, encR_b, encR_d, encR_m, encR_sw, encR_flag, flag_le]
  rfl
theorem Laws.RoundTrip.tkjoin (sw : Bool) (d a : Reg) : Laws.RoundTrip.Statement (.tkjoin sw d a) := by
  intro _ _
  show decodeWord (encR 1#1 sw 0x2E 0 d a 0) = _
  rw [group_word _ (encR_set ..)]
  delta decodeGroup
  simp only [encR_op, BitVec.reduceToNat, grDA_is, encR_a, encR_b, encR_d, encR_m, encR_sw]
  rfl
theorem Laws.RoundTrip.tkread (sw : Bool) (fail : Bool) (d a : Reg) : Laws.RoundTrip.Statement (.tkread sw fail d a) := by
  intro _ _
  show decodeWord (encR 1#1 sw 0x31 (0#2 ++ bit1 fail) d a 0) = _
  rw [group_word _ (encR_set ..)]
  delta decodeGroup
  simp only [encR_op, BitVec.reduceToNat, need_true, encR_a, encR_b, encR_d, encR_m, encR_sw, encR_flag, flag_le]
  rfl
theorem Laws.RoundTrip.wdq (sw : Bool) (d a b : Reg) : Laws.RoundTrip.Statement (.wdq sw d a b) := by
  intro _ _
  show decodeWord (encR 1#1 sw 0x30 0 d a b) = _
  rw [group_word _ (encR_set ..)]
  delta decodeGroup
  simp only [encR_op, BitVec.reduceToNat, encR_a, encR_b, encR_d, encR_m, encR_sw]
  rfl
theorem Laws.RoundTrip.cxpost (sw : Bool) (d a : Reg) : Laws.RoundTrip.Statement (.cxpost sw d a) := by
  intro _ _
  show decodeWord (encR 1#1 sw 0x32 0 d a 0) = _
  rw [group_word _ (encR_set ..)]
  delta decodeGroup
  simp only [encR_op, BitVec.reduceToNat, grDA_is, encR_a, encR_b, encR_d, encR_m, encR_sw]
  rfl
theorem Laws.RoundTrip.cxstat (sw : Bool) (d a : Reg) : Laws.RoundTrip.Statement (.cxstat sw d a) := by
  intro _ _
  show decodeWord (encR 1#1 sw 0x33 0 d a 0) = _
  rw [group_word _ (encR_set ..)]
  delta decodeGroup
  simp only [encR_op, BitVec.reduceToNat, grDA_is, encR_a, encR_b, encR_d, encR_m, encR_sw]
  rfl
theorem Laws.RoundTrip.cxreset (sw : Bool) (a : Reg) : Laws.RoundTrip.Statement (.cxreset sw a) := by
  intro _ _
  show decodeWord (encR 1#1 sw 0x34 0 0 a 0) = _
  rw [group_word _ (encR_set ..)]
  delta decodeGroup
  simp only [encR_op, BitVec.reduceToNat, grDA_is, encR_a, encR_b, encR_d, encR_m, encR_sw]
  rfl
theorem Laws.RoundTrip.illegal (w : Word) : Laws.RoundTrip.Statement (.illegal w) := fun h _ => by cases h
theorem Laws.RoundTrip.outstandingResultReturn (wk id : Nat) (late : Bool) : Laws.RoundTrip.Statement (.outstandingResultReturn wk id late) := fun _ h => by cases h
theorem Laws.RoundTrip.backBankArrival (id : Nat) : Laws.RoundTrip.Statement (.backBankArrival id) := fun _ h => by cases h
theorem Laws.RoundTrip.barrierCompletion (bk : Nat) (cluster : Bool) : Laws.RoundTrip.Statement (.barrierCompletion bk cluster) := fun _ h => by cases h
theorem Laws.RoundTrip.exchangeStoreArrival (id : Nat) : Laws.RoundTrip.Statement (.exchangeStoreArrival id) := fun _ h => by cases h
theorem Laws.RoundTrip.waitmReadAgain (wk g : Nat) : Laws.RoundTrip.Statement (.waitmReadAgain wk g) := fun _ h => by cases h
theorem Laws.RoundTrip.refillAnswer (wk : Nat) : Laws.RoundTrip.Statement (.refillAnswer wk) := fun _ h => by cases h
theorem Laws.RoundTrip.performStore (wk n : Nat) : Laws.RoundTrip.Statement (.performStore wk n) := fun _ h => by cases h
theorem Laws.RoundTrip.evict (core sector : Nat) : Laws.RoundTrip.Statement (.evict core sector) := fun _ h => by cases h
theorem Laws.RoundTrip.arrive (fid : Nat) : Laws.RoundTrip.Statement (.arrive fid) := fun _ h => by cases h
theorem Laws.RoundTrip.drop (ro : Bool) (unit sector : Nat) : Laws.RoundTrip.Statement (.drop ro unit sector) := fun _ h => by cases h
theorem Laws.RoundTrip.llcFill (line victim : Nat) : Laws.RoundTrip.Statement (.llcFill line victim) := fun _ h => by cases h
theorem Laws.RoundTrip.faultRecordPost : Laws.RoundTrip.Statement (.faultRecordPost) := fun _ h => by cases h
theorem Laws.RoundTrip.resume (seq : Nat) : Laws.RoundTrip.Statement (.resume seq) := fun _ h => by cases h
theorem Laws.RoundTrip.handler (seq : Nat) : Laws.RoundTrip.Statement (.handler seq) := fun _ h => by cases h
theorem Laws.RoundTrip.taskDrop (seq : Nat) : Laws.RoundTrip.Statement (.taskDrop seq) := fun _ h => by cases h
theorem Laws.RoundTrip.kill (seq : Nat) : Laws.RoundTrip.Statement (.kill seq) := fun _ h => by cases h
theorem Laws.RoundTrip.preempt (bk : Nat) (areas : List Nat) (parea : Nat) : Laws.RoundTrip.Statement (.preempt bk areas parea) := fun _ h => by cases h
theorem Laws.RoundTrip.preemptTurnTimeout (bk : Nat) : Laws.RoundTrip.Statement (.preemptTurnTimeout bk) := fun _ h => by cases h
theorem Laws.RoundTrip.discard (bk : Nat) : Laws.RoundTrip.Statement (.discard bk) := fun _ h => by cases h
theorem Laws.RoundTrip.restore (id : Nat) (cores : Option (List Nat)) : Laws.RoundTrip.Statement (.restore id cores) := fun _ h => by cases h
theorem Laws.RoundTrip.dstall (gid : Nat) : Laws.RoundTrip.Statement (.dstall gid) := fun _ h => by cases h
theorem Laws.RoundTrip.watchdog (gid : Nat) : Laws.RoundTrip.Statement (.watchdog gid) := fun _ h => by cases h
theorem Laws.RoundTrip.blockDispatch (queue : Nat) (pl : Placement) : Laws.RoundTrip.Statement (.blockDispatch queue pl) := fun _ h => by cases h
theorem Laws.RoundTrip.waveStart (quad : Nat) : Laws.RoundTrip.Statement (.waveStart quad) := fun _ h => by cases h
theorem Laws.RoundTrip.poolEntryFree (quad : Nat) : Laws.RoundTrip.Statement (.poolEntryFree quad) := fun _ h => by cases h
theorem Laws.RoundTrip.mxEntryFree (quad : Nat) : Laws.RoundTrip.Statement (.mxEntryFree quad) := fun _ h => by cases h
theorem Laws.RoundTrip.wdQueueRoom : Laws.RoundTrip.Statement (.wdQueueRoom) := fun _ h => by cases h
theorem Laws.RoundTrip.copyCommandStart (bk ch : Nat) : Laws.RoundTrip.Statement (.copyCommandStart bk ch) := fun _ h => by cases h
theorem Laws.RoundTrip.copyDelivery (bk ch : Nat) : Laws.RoundTrip.Statement (.copyDelivery bk ch) := fun _ h => by cases h
theorem Laws.RoundTrip.admission (quad jid : Nat) : Laws.RoundTrip.Statement (.admission quad jid) := fun _ h => by cases h
theorem Laws.RoundTrip.reload (quad : Nat) : Laws.RoundTrip.Statement (.reload quad) := fun _ h => by cases h
theorem Laws.RoundTrip.passGrant (quad : Nat) : Laws.RoundTrip.Statement (.passGrant quad) := fun _ h => by cases h
theorem Laws.RoundTrip.passWrite (quad : Nat) : Laws.RoundTrip.Statement (.passWrite quad) := fun _ h => by cases h
theorem Laws.RoundTrip.governorWindow (quad : Nat) : Laws.RoundTrip.Statement (.governorWindow quad) := fun _ h => by cases h
theorem Laws.RoundTrip.wdQuery : Laws.RoundTrip.Statement (.wdQuery) := fun _ h => by cases h
theorem Laws.RoundTrip.leaseExpiry (i : Nat) : Laws.RoundTrip.Statement (.leaseExpiry i) := fun _ h => by cases h
theorem Laws.RoundTrip.arrivalLog (id : Nat) : Laws.RoundTrip.Statement (.arrivalLog id) := fun _ h => by cases h
theorem Laws.RoundTrip.completionSignal (dev quad ctr : Nat) : Laws.RoundTrip.Statement (.completionSignal dev quad ctr) := fun _ h => by cases h
theorem Laws.RoundTrip.collectiveAdmission (die cid : Nat) : Laws.RoundTrip.Statement (.collectiveAdmission die cid) := fun _ h => by cases h
theorem Laws.RoundTrip.packet (die : Nat) (hdr : List Word) (mask : Nat) (payload : List Byte) : Laws.RoundTrip.Statement (.packet die hdr mask payload) := fun _ h => by cases h
theorem Laws.RoundTrip.sendPermit (die link : Nat) : Laws.RoundTrip.Statement (.sendPermit die link) := fun _ h => by cases h
theorem Laws.RoundTrip.stepTimeout (die cid : Nat) : Laws.RoundTrip.Statement (.stepTimeout die cid) := fun _ h => by cases h
theorem Laws.RoundTrip.collectiveCompletion (die cid : Nat) : Laws.RoundTrip.Statement (.collectiveCompletion die cid) := fun _ h => by cases h
theorem Laws.RoundTrip.launch (queue tag : Nat) (rec : List Word) : Laws.RoundTrip.Statement (.launch queue tag rec) := fun _ h => by cases h
theorem Laws.RoundTrip.complete (gid : Nat) : Laws.RoundTrip.Statement (.complete gid) := fun _ h => by cases h
theorem Laws.RoundTrip.flush (part va len tag : Nat) : Laws.RoundTrip.Statement (.flush part va len tag) := fun _ h => by cases h
theorem Laws.RoundTrip.flushdone : Laws.RoundTrip.Statement (.flushdone) := fun _ h => by cases h
theorem Laws.RoundTrip.memwrite (pa : Nat) (data : List Byte) (tag : Nat) : Laws.RoundTrip.Statement (.memwrite pa data tag) := fun _ h => by cases h
theorem Laws.RoundTrip.memread (pa len tag : Nat) : Laws.RoundTrip.Statement (.memread pa len tag) := fun _ h => by cases h
theorem Laws.RoundTrip.attest (nonce tag : Nat) : Laws.RoundTrip.Statement (.attest nonce tag) := fun _ h => by cases h
theorem Laws.RoundTrip.stats (tag : Nat) : Laws.RoundTrip.Statement (.stats tag) := fun _ h => by cases h
theorem Laws.RoundTrip.jalliaOtherKind (kind tag : Nat) : Laws.RoundTrip.Statement (.jalliaOtherKind kind tag) := fun _ h => by cases h
theorem Laws.RoundTrip.ualinkRequest (peer : Nat) (req : PeerReq) : Laws.RoundTrip.Statement (.ualinkRequest peer req) := fun _ h => by cases h
theorem Laws.RoundTrip.ualinkTimeout (peer : Nat) : Laws.RoundTrip.Statement (.ualinkTimeout peer) := fun _ h => by cases h
theorem Laws.RoundTrip.eccError (correctable lasting : Bool) (site : EccSite) : Laws.RoundTrip.Statement (.eccError correctable lasting site) := fun _ h => by cases h
theorem Laws.RoundTrip.timetableWrite (core sched : Nat) (table : List Byte) (strict : Bool) : Laws.RoundTrip.Statement (.timetableWrite core sched table strict) := fun _ h => by cases h
theorem Laws.RoundTrip.budgetSet (quad v : Nat) : Laws.RoundTrip.Statement (.budgetSet quad v) := fun _ h => by cases h
theorem Laws.RoundTrip.counterAssign (quad ctr : Nat) (part : Option Nat) : Laws.RoundTrip.Statement (.counterAssign quad ctr part) := fun _ h => by cases h
theorem Laws.RoundTrip.groupConfigure (die slot : Nat) (cfg : GroupCfg) : Laws.RoundTrip.Statement (.groupConfigure die slot cfg) := fun _ h => by cases h
theorem Laws.RoundTrip.podWindowWrite (i : Nat) (w : Option PodWindow) : Laws.RoundTrip.Statement (.podWindowWrite i w) := fun _ h => by cases h
theorem Laws.RoundTrip.keyLoad (slot : Nat) (key : Option Nat) : Laws.RoundTrip.Statement (.keyLoad slot key) := fun _ h => by cases h
theorem Laws.RoundTrip.thermalTrip : Laws.RoundTrip.Statement (.thermalTrip) := fun _ h => by cases h
theorem Laws.RoundTrip.powerLoss : Laws.RoundTrip.Statement (.powerLoss) := fun _ h => by cases h
theorem Laws.RoundTrip.bringUp (args : BringUpArgs) : Laws.RoundTrip.Statement (.bringUp args) := fun _ h => by cases h
theorem Laws.RoundTrip.atomicPerformAtHome (id : Nat) : Laws.RoundTrip.Statement (.atomicPerformAtHome id) := fun _ h => by cases h
theorem Laws.RoundTrip.isolationClear (peer : Nat) : Laws.RoundTrip.Statement (.isolationClear peer) := fun _ h => by cases h
theorem Laws.RoundTrip.watchdogReduction (gid v : Nat) : Laws.RoundTrip.Statement (.watchdogReduction gid v) := fun _ h => by cases h
theorem Laws.RoundTrip.wayPartitionMaskSet (wp : Nat) (mask : BitVec 16) : Laws.RoundTrip.Statement (.wayPartitionMaskSet wp mask) := fun _ h => by cases h
theorem Laws.RoundTrip.budgetCeilingChange (quad v : Nat) : Laws.RoundTrip.Statement (.budgetCeilingChange quad v) := fun _ h => by cases h

end Sys2Proof
end

