-- ==== Sys2Proof/Laws/Posts.lean ====
section
/-! SUPPORT. Posts: records as they are read (R181, R236), entries taken, and the result of a committing instruction. -/
namespace Sys2Proof.Machine

/-- A destination of the uniform pipe is a w register or z. -/
theorem warpOrZ_dest (d : Reg) (h : warpOrZ d = true) : 92 ≤ d.toNat ∧ d.toNat < 108 ∨ d = 124 := by
  simp [warpOrZ] at h
  rcases h with ⟨h1, h2⟩ | h
  · exact .inl ⟨h1, by omega⟩
  · exact .inr h
/-- The end of a committing instruction, as one change of its warp (R125). -/
theorem doneB_eq (s : State) (hb : s.inBundle = true) :
    doneB s = s.updCw fun w => Warp.boundary s.cur.mask (endIssue s.cur.mask s.cur.pc w) := by
  obtain ⟨h1, h2, h3, h4⟩ := (inBundle_iff s).1 hb
  rw [doneB, boundary, done_eq s h3, live_eq s h3, updCw_updCw]
/-- A bundle that waits leaves everything else as it was. -/
theorem parkBundle_parked (why : ParkWhy) (s : State) (h : s.inBundle = true) : parkedFor why s (parkBundle why s) := by
  rw [parkBundle, live_eq s ((inBundle_iff s).1 h).2.2.1]; rfl
/-- The outstanding word of a committing instruction (R49, R197). -/
theorem outUniform_dueB (d : Reg) (v : DWord) (s : State) (h : s.inBundle = true) (hd : warpOrZ d = true) :
    resultDueB (resultDest d false s.cur.mask fun _ => v) s
      (outResult .commit false d false [(lowLane s.cur.mask, v)] (Out.blank (freshId s) s.cur.mask d false) s) := by
  obtain ⟨h1, h2, h3, h4⟩ := (inBundle_iff s).1 h
  have base := outUniform_due d false v s h (by simp) (warpOrZ_dest d hd)
  obtain ⟨o, ho, ho', hoid⟩ : ∃ o : Out,
      outResult .plain false d false [(lowLane s.cur.mask, v)] (Out.blank (freshId s) s.cur.mask d false) s = done (addOut o s) ∧
      outResult .commit false d false [(lowLane s.cur.mask, v)] (Out.blank (freshId s) s.cur.mask d false) s = doneB (addOut o s) ∧
      o.id = freshId s := by
    rcases warpOrZ_dest d hd with ⟨h, h'⟩ | h
    · exact ⟨_, outResult_warp _ d false _ _ s rfl h h', outResult_warp _ d false _ _ s rfl h h', rfl⟩
    · subst h
      exact ⟨_, outResult_z _ false false _ _ s rfl, outResult_z _ false false _ _ s rfl, rfl⟩
  rw [ho] at base
  rw [ho']
  obtain ⟨g1, g2, g3, g4, g5, g6, o', g7, g8, g9, g10, g11⟩ := base
  have hS : (addOut o s).inBundle = true := by
    rw [addOut]
    refine inBundle_updCw s _ h ?_
    show (o.writes.foldl (fun w x => dropPending x.dest w) s.cw).lanes.length = _
    rw [dropAll_eq]
  have hcur : (addOut o s).cur = s.cur := rfl
  have hd : done (addOut o s) = (addOut o s).updCw (endIssue s.cur.mask s.cur.pc) := by rw [done_eq _ (by rw [hcur]; exact h3), hcur]
  have hdi : done (addOut o s) = s.updCw (dueIssue o [] s.cur.mask s.cur.pc) := addOut_due_eq o s h3
  have e : doneB (addOut o s) = (done (addOut o s)).updCw (Warp.boundary s.cur.mask) := by
    rw [doneB_eq _ hS, hcur, hd, updCw_updCw]
  generalize hu : done (addOut o s) = u at *
  have hucur : u.cur = s.cur := by rw [hd]; rfl
  have huw : (mFind u.warps u.cur.wk).isSome = true := by
    rw [hd]
    show (mFind (mMod (mMod s.warps s.cur.wk _) s.cur.wk _) s.cur.wk).isSome = true
    rw [mFind_mMod, if_pos rfl, mFind_mMod, if_pos rfl]; simp [h1]
  have hcw : (doneB (addOut o s)).cw = Warp.boundary s.cur.mask u.cw := by rw [e, updCw_cw u _ huw]
  have hul : u.cw.lanes.length = 32 := by
    rw [hd, updCw_cw _ _ ((inBundle_iff _).1 hS).1, endIssue]
    simp only [Warp.updLanes, mapIdxFrom_length]
    exact ((inBundle_iff _).1 hS).2.1
  have hexp : u.cw = dueIssue o [] s.cur.mask s.cur.pc s.cw := by rw [hdi, updCw_cw _ _ h1]
  have hret : u.cw.retired = s.cw.retired + 1 := by rw [g3]
  refine ⟨⟨?_, ?_⟩, ?_, ?_, ?_, ?_, ?_, ?_⟩
  · have : (doneB (addOut o s)) = u.setWarps (doneB (addOut o s)).warps := by rw [e]; rfl
    rw [this, g1.1]; rfl
  · intro k hk
    rw [e, State.updCw, State.updWarp_find, if_neg (by rw [hucur]; exact fun e => hk e.symm)]
    exact g1.2 k hk
  · rw [e]; exact ⟨g2.1, g2.2⟩
  · rw [hcw, hexp]
    simp only [Warp.boundary, dueIssue, endIssue, Warp.updLanes, List.foldl_nil, hoid]
  · intro l hl
    rw [hcw, boundary_lane _ _ _ (by omega), g4 l hl, hret]
    by_cases hm : s.cur.mask.getLsbD l = true
    · simp only [hm, if_true]
    · simp only [hm, Bool.false_eq_true, if_false]
  · intro x hx
    rw [hcw, boundary_reg _ _ x hul hx]
    exact g5 x hx
  · rw [hcw, hexp]
    simp only [Warp.boundary, dueIssue, endIssue, Warp.updLanes, List.length_map, List.length_append, List.length_singleton]
  · refine ⟨{ o' with kept := o'.kept ||| (o'.mask &&& s.cur.mask) }, ?_, g8, g9, ?_⟩
    · rw [hcw]
      show _ ∈ (u.cw.outs.map _)
      rw [List.mem_map]
      exact ⟨o', by rw [g7]; simp, rfl⟩
    · intro x
      rw [← g11 x]; rfl
/-- A uniform access changes the memory side only. -/
theorem uniformAcc_side (k : Acc) (n al : Nat) (a : DWord) (s : State) (loc : Bool) (x : LaneAcc) (v : State) (h : uniformAcc k n al a s = (.ok (loc, x), v)) : memSide s v := by
  rw [uniformAcc] at h
  split at h
  · dsimp only at h
    split at h
    · cases h
    · split at h
      · cases h
      · split at h
        · cases h
        · cases h; exact .refl s
  · split at h
    · cases h
    · have ht := translate_side (some s.cur.core) s.cb.part k 0 a.toNat s
      split at h
      · cases h
      · rename_i y s1 e
        rw [e] at ht
        split at h
        · cases h
        · cases h; exact ht
/-- A read through an engine port changes the memory side only. -/
theorem enginePiece_side (x : LaneAcc) (n : Nat) (u : Option (Nat × Bool)) (s : State) : memSide s (enginePiece x n u s).2 := by
  rw [enginePiece]
  dsimp only
  split
  · exact .refl s
  · split
    · exact (memSide_send s _).trans (memSide_bump _)
    · exact memSide_setMem s _
/-- A post whose record can be read goes on with it (R181, R236). -/
theorem withRecord_read (n al : Nat) (a : Reg) (r : List Word) (s u : State) (h : recordRead n al a r s u) :
    memSide s u ∧ ∀ k, withRecord n al a k s = k r u := by
  obtain ⟨hf, ha, loc, x, v, hu, h1, h2⟩ := h
  have hs := uniformAcc_side _ _ _ _ _ _ _ _ hu
  have hff : forceFences s.cur.wk s = s := by rw [forceFences, hf]; rfl
  have hal : ¬ (s.usrc64 a).toNat % al ≠ 0 := fun h => h ha
  cases loc with
  | true =>
    obtain ⟨rfl, rfl⟩ := h1 rfl
    refine ⟨hs, fun k => ?_⟩
    have hcb : u.cb = s.cb := by rw [State.cb, hs.cw, hs.block]; rfl
    simp only [withRecord, hff, if_neg hal, hu, readRecord, if_true, hcb]
  | false =>
    obtain ⟨bs, h3, rfl⟩ := h2 rfl
    refine ⟨?_, fun k => ?_⟩
    · have := enginePiece_side x n none v
      rw [h3] at this
      exact hs.trans this
    · simp only [withRecord, hff, if_neg hal, hu, readRecord, Bool.false_eq_true, if_false, h3]
/-- The lowest number that a test accepts. -/
theorem find_low (n e : Nat) (he : e < n) (p : Nat → Bool) (h1 : p e = true) (h2 : ∀ f < e, p f = false) : (rangeFrom 0 n).find? p = some e := by
  have key : ∀ n a, e < a + n → a ≤ e → (∀ f, a ≤ f → f < e → p f = false) → (rangeFrom a n).find? p = some e := by
    intro n
    induction n with
    | zero => intro a h h'; omega
    | succ n ih =>
      intro a h h' hf
      rw [rangeFrom, List.find?_cons]
      by_cases hae : a = e
      · subst hae; rw [h1]
      · rw [hf a (by omega) (by omega)]
        exact ih (a + 1) (by omega) (by omega) (fun f g g' => hf f (by omega) g')
  exact key n 0 (by omega) (by omega) fun f _ hf => h2 f hf
/-- The lowest free entry of the task pool. -/
theorem freeSlot_is (x : Quad) (e : Nat) (he : e < 512) (h1 : ∀ t ∈ x.tasks, t.slot ≠ e) (h2 : ∀ f < e, ∃ t ∈ x.tasks, t.slot = f) : freeSlot x = some e := by
  rw [freeSlot]
  exact find_low 512 e he _ (by
    rw [Bool.not_eq_true', Bool.eq_false_iff]
    intro h
    rw [List.any_eq_true] at h
    obtain ⟨t, ht, hte⟩ := h
    exact h1 t ht (by simpa using hte)) (by
    intro f hf
    obtain ⟨t, ht, hte⟩ := h2 f hf
    have : (x.tasks.any fun t => t.slot == f) = true := List.any_eq_true.2 ⟨t, ht, by simp [hte]⟩
    rw [this]; rfl)
/-- The lowest free entry of the matrix engine. -/
theorem freeEntry_is (x : Quad) (e : Nat) (he : e < 64) (h1 : ∀ t ∈ x.mxJobs, t.2.entry ≠ e) (h2 : ∀ f < e, ∃ t ∈ x.mxJobs, t.2.entry = f) : freeEntry x = some e := by
  rw [freeEntry]
  exact find_low 64 e he _ (by
    rw [Bool.not_eq_true', Bool.eq_false_iff]
    intro h
    rw [List.any_eq_true] at h
    obtain ⟨t, ht, hte⟩ := h
    exact h1 t ht (by simpa using hte)) (by
    intro f hf
    obtain ⟨t, ht, hte⟩ := h2 f hf
    have : (x.mxJobs.any fun t => t.2.entry == f) = true := List.any_eq_true.2 ⟨t, ht, by simp [hte]⟩
    rw [this]; rfl)
/-- A full task pool. -/
theorem freeSlot_none (x : Quad) (h2 : ∀ f < 512, ∃ t ∈ x.tasks, t.slot = f) : freeSlot x = none := by
  rw [freeSlot, List.find?_eq_none]
  intro f hf
  rw [mem_rangeFrom] at hf
  obtain ⟨t, ht, hte⟩ := h2 f (by omega)
  have : (x.tasks.any fun t => t.slot == f) = true := List.any_eq_true.2 ⟨t, ht, by simp [hte]⟩
  rw [this]; simp
/-- A full matrix engine. -/
theorem freeEntry_none (x : Quad) (h2 : ∀ f < 64, ∃ t ∈ x.mxJobs, t.2.entry = f) : freeEntry x = none := by
  rw [freeEntry, List.find?_eq_none]
  intro f hf
  rw [mem_rangeFrom] at hf
  obtain ⟨t, ht, hte⟩ := h2 f (by omega)
  have : (x.mxJobs.any fun t => t.2.entry == f) = true := List.any_eq_true.2 ⟨t, ht, by simp [hte]⟩
  rw [this]; simp
/-- Two changes that agree on a quad as it stands. -/
theorem updQuad_congr (s : State) (q : Nat) (f g : Quad → Quad) (h : f (s.quad q) = g (s.quad q)) : s.updQuad q f = s.updQuad q g := by
  have : f (mGet s.quads Quad.init q) = g (mGet s.quads Quad.init q) := h
  simp only [State.updQuad, mUpd, this]
/-- A task enters the pool as told (R312). -/
theorem addTask_stands (u : State) (r : List Word) (e : Nat) : addTask u.cq u.cb u.cw.role r e u = taskStands r e u := by
  rw [addTask, taskStands]
  refine updQuad_congr _ _ _ _ ?_
  simp only [taskOf, taskIdWord, readyAt]
  have : 512 * ((u.quad u.cq).entered % 65536) = 2 ^ 9 * ((u.quad u.cq).entered % 2 ^ 16) := rfl
  rw [this]
/-- The result of a post that has entered. -/
theorem enter_dueB (d : Reg) (v : Word) (s u m : State) (hs : memSide s u) (hm : m.cur = u.cur) (hmw : m.warps = u.warps) (hub : u.inBundle = true) (hw : warpOrZ d = true) :
    resultDueB (resultDest d false s.cur.mask fun _ => z64 v) m (outWordB d v m) := by
  have hb : m.inBundle = true := inBundle_congr u m hub hmw hm
  have := outUniform_dueB d (z64 v) m hb hw
  rw [show s.cur.mask = m.cur.mask from by rw [hm, hs.cur]]
  exact this
/-- A post that is refused raises ENGINE. -/
theorem engine_at (s u : State) (n : Nat) (pc : DWord) (hs : memSide s u) (hub : u.inBundle = true) : faultTaken s.cur.mask 0x11 (BitVec.ofNat 17 n) pc u (raiseEngine n pc u) := by
  have := raiseMask_taken u.cur.mask 0x11 (BitVec.ofNat 17 n) pc u hub
  rw [hs.cur] at this
  rw [raiseEngine, raiseBundle]
  have hl : u.cur.mask = s.cur.mask := by rw [hs.cur]
  rw [← hl] at this ⊢
  exact this

end Sys2Proof.Machine
end

