-- ==== Sys2Proof/Laws/Sectors.lean ====
section
/-! SUPPORT. Reads and atomics at a home, a sector at a time, and lines written back (R217, R228, R369, R371). -/
namespace Sys2Proof.Machine

/-- A run of bytes written at the homes as one write: the lines' counts, keys and waiting atomics stay. -/
theorem write_atom (a : PageAttr) (wid : Nat) (bs : List Byte) (pa i : Nat) (m : Mem) :
    let t := (mapIdxFrom (fun i b => (i, b)) i bs).foldl (fun m ib => m.homeWrite a (pa + ib.1) ib.2 wid) m
    t.keys = m.keys ∧ t.atoms = m.atoms ∧
    ∀ q, t.byteUnder (m.keyOf a.key) q = if pa + i ≤ q ∧ q < pa + i + bs.length then bs.getD (q - (pa + i)) 0 else m.byteUnder (m.keyOf a.key) q := by
  induction bs generalizing i m with
  | nil => refine ⟨rfl, rfl, fun q => ?_⟩; rw [if_neg (by simp)]; rfl
  | cons b t ih =>
    obtain ⟨⟨hb, sk, ls, ar, e, -⟩, h1, -, -⟩ := homeWrite_spec m a (pa + i) b wid
    have hlen : (b :: t).length = t.length + 1 := rfl
    obtain ⟨i1, i2, i3⟩ := ih (i + 1) (m.homeWrite a (pa + i) b wid)
    have hk : (m.homeWrite a (pa + i) b wid).keyOf a.key = m.keyOf a.key := by rw [e]; rfl
    rw [hk] at i3
    refine ⟨?_, ?_, ?_⟩
    · rw [mapIdxFrom, List.foldl_cons, i1, e]
    · rw [mapIdxFrom, List.foldl_cons, i2, e]
    · intro q
      rw [mapIdxFrom, List.foldl_cons, i3, h1 _ q (.inr rfl), hlen]
      by_cases hq : q = pa + i
      · subst hq
        rw [if_neg (by omega), if_pos rfl, if_pos (by omega), Nat.sub_self]; rfl
      · by_cases hq2 : pa + (i + 1) ≤ q ∧ q < pa + (i + 1) + t.length
        · rw [if_pos hq2, if_pos (by omega)]
          have : q - (pa + i) = q - (pa + (i + 1)) + 1 := by omega
          rw [this]; rfl
        · rw [if_neg hq2, if_neg hq, if_neg (by omega)]
/-- A SECTOR SERVED AT ITS SLICE, where no use count runs: its bytes, and every byte under every key stays. -/
theorem sector_line (m : Mem) (a : PageAttr) (pa : Nat) (h : ∀ l, mFind m.lines (pa / 1024) = some l → l.use = none) :
    ∃ m1, m.serveSector a none (pa / 128) = ((rangeFrom (128 * (pa / 128)) 128).map (m1.homeByte a.key), m1) ∧
      (∃ h sk ls, m1 = { m with hbm := h, secKey := sk, lines := ls }) ∧ (∀ k q, m1.byteUnder k q = m.byteUnder k q) ∧
      ∀ x l, mFind m1.lines x = some l → (x = pa / 1024 ∧ l.key = a.key ∧ l.use = none) ∨ mFind m.lines x = some l := by
  obtain ⟨e, b1, l1, o1⟩ := fillLine_view m a none (pa / 1024)
  have hd : pa / 128 / 8 = pa / 1024 := by omega
  have hu : ∀ l, mFind (m.fillLine a none (pa / 1024)).2.lines (pa / 1024) = some l → l.use = none := by
    intro l hl
    rcases o1 _ l hl with ⟨-, -, h1, -⟩ | h1
    · exact h1
    · exact h l h1
  have hc : (m.fillLine a none (pa / 1024)).2.countRead (pa / 1024) = (m.fillLine a none (pa / 1024)).2 := by
    rw [Mem.countRead]
    cases hx : mFind (m.fillLine a none (pa / 1024)).2.lines (pa / 1024) with
    | none => rfl
    | some l => dsimp only; rw [hu l hx]
  refine ⟨(m.fillLine a none (pa / 1024)).2, ?_, e, b1, fun x l hx => ?_⟩
  · rw [Mem.serveSector]
    simp only [hd, Option.isSome_none, Bool.and_false, Bool.false_eq_true, if_false, hc]
  · exact (o1 x l hx).imp_left fun h => ⟨h.1, h.2.1, h.2.2.1⟩
/-- Part of a sector's addresses. -/
theorem rangeFrom_split (a n k : Nat) (h : k + n ≤ 128) :
    ((rangeFrom a 128).drop k).take n = rangeFrom (a + k) n := by
  have hlen : ∀ a n, (rangeFrom a n).length = n := by
    intro a n
    induction n generalizing a with
    | zero => rfl
    | succ n ih => simp [rangeFrom, ih]
  have hget : ∀ n a i, (rangeFrom a n)[i]? = if i < n then some (a + i) else none := by
    intro n
    induction n with
    | zero => intro a i; rfl
    | succ n ih =>
      intro a i
      cases i with
      | zero => simp [rangeFrom]
      | succ i => simp only [rangeFrom, List.getElem?_cons_succ, ih, Nat.add_lt_add_iff_right, Nat.add_assoc, Nat.add_comm 1]
  apply List.ext_getElem?
  intro i
  rw [List.getElem?_take, List.getElem?_drop, hget, hget]
  by_cases hi : i < n
  · rw [if_pos hi, if_pos (by omega), if_pos hi, Nat.add_assoc]
  · rw [if_neg hi, if_neg hi]
/-- AN ATOMIC AT ITS HOME: the old value, and the new one in its place. -/
theorem homeAtom_spec (acc : LaneAcc) (b64 : Bool) (ask : Aop × DWord × DWord) (wid : Nat) (f : DWord → Option DWord) (s : State) (n : Nat)
    (hn : n = atomSize b64) (hp : acc.peer = none) (hal : acc.pa % n = 0)
    (h : ∀ l, mFind s.mem.lines (acc.pa / 1024) = some l → l.use = none) (old : DWord)
    (ho : old = BitVec.ofNat 64 (leNat ((rangeFrom acc.pa n).map (s.mem.byteUnder (s.mem.keyOf acc.attr.key))))) :
    ∃ m, homeAtom acc b64 ask wid f s = (old, s.setMem m) ∧ m.atoms = s.mem.atoms ∧
      ∀ q, m.byteUnder (s.mem.keyOf acc.attr.key) q = (if acc.pa ≤ q ∧ q < acc.pa + n then
          (match f old with
           | some v => (leBytes v.toNat n).getD (q - acc.pa) 0
           | none => s.mem.byteUnder (s.mem.keyOf acc.attr.key) q)
         else s.mem.byteUnder (s.mem.keyOf acc.attr.key) q) := by
  have hn' : n = 4 ∨ n = 8 := by rw [hn]; cases b64 <;> simp [atomSize]
  obtain ⟨m1, e, ⟨h1, sk1, ls1, r1⟩, b1, -⟩ := sector_line s.mem acc.attr acc.pa h
  have a1 : m1.atoms = s.mem.atoms := by rw [r1]
  have hkey : m1.keyOf acc.attr.key = s.mem.keyOf acc.attr.key := by rw [r1]; rfl
  have hlb : ∀ (n x : Nat), (leBytes x n).length = n := by
    intro n
    induction n with
    | zero => intro x; rfl
    | succ n ih => intro x; simp [leBytes, ih]
  have hold : BitVec.ofNat 64 (leNat (((((rangeFrom (128 * (acc.pa / 128)) 128).map (m1.homeByte acc.attr.key)).drop (acc.pa % 128)).take n).map (·.val))) = old := by
    rw [ho]
    congr 2
    rw [← List.map_drop, ← List.map_take, List.map_map, rangeFrom_split _ _ _ (by rcases hn' with e | e <;> rw [e] at hal ⊢ <;> omega)]
    have : 128 * (acc.pa / 128) + acc.pa % 128 = acc.pa := by omega
    rw [this]
    refine List.map_congr_left fun x _ => ?_
    show m1.byteUnder (m1.keyOf acc.attr.key) x = _
    rw [hkey, b1]
  have he : homeAtom acc b64 ask wid f s = (old, s.setMem (match f old with
      | some v => (mapIdxFrom (fun i b => (i, b)) 0 (leBytes v.toNat n)).foldl
          (fun m ib => m.homeWrite acc.attr (acc.pa + ib.1) ib.2 wid) m1
      | none => m1)) := by
    rw [homeAtom, hp]
    dsimp only
    rw [e]
    dsimp only
    rw [← hn, hold]
    all_goals (cases f old <;> rfl)
  rw [he]
  refine ⟨_, rfl, ?_⟩
  cases f old with
  | none => refine ⟨a1, fun q => ?_⟩; rw [b1]; dsimp only; rw [ite_self]
  | some v =>
    obtain ⟨-, w2, w3⟩ := write_atom acc.attr wid (leBytes v.toNat n) acc.pa 0 m1
    refine ⟨w2.trans a1, fun q => ?_⟩
    rw [hkey, hlb] at w3
    have := w3 q
    rw [Nat.add_zero, b1] at this
    exact this
/-- A piece within one sector read by an engine, where no use count runs: its bytes, and every byte under every key stays. -/
theorem piece_read (a : LaneAcc) (n : Nat) (s : State) (hz : a.zero = false) (hp : a.peer = none) (hn : a.pa % 128 + n ≤ 128)
    (h : ∀ l, mFind s.mem.lines (a.pa / 1024) = some l → l.use = none) :
    ∃ m, enginePiece a n none s = ((rangeFrom a.pa n).map (s.mem.byteUnder (s.mem.keyOf a.attr.key)), s.setMem m) ∧
      (∃ h sk ls, m = { s.mem with hbm := h, secKey := sk, lines := ls }) ∧ (∀ k q, m.byteUnder k q = s.mem.byteUnder k q) ∧
      ∀ x l, mFind m.lines x = some l → (x = a.pa / 1024 ∧ l.key = a.attr.key ∧ l.use = none) ∨ mFind s.mem.lines x = some l := by
  obtain ⟨m1, e, r1, b1, o1⟩ := sector_line s.mem a.attr a.pa h
  have hkey : m1.keyOf a.attr.key = s.mem.keyOf a.attr.key := by obtain ⟨_, _, _, r⟩ := r1; rw [r]; rfl
  refine ⟨m1, ?_, r1, b1, o1⟩
  rw [enginePiece, hz, hp]
  dsimp only
  rw [e]
  simp only [Bool.false_eq_true, if_false]
  congr 1
  rw [List.map_map, ← List.map_drop, ← List.map_take, rangeFrom_split _ _ _ hn]
  have : 128 * (a.pa / 128) + a.pa % 128 = a.pa := by omega
  rw [this]
  refine List.map_congr_left fun x _ => ?_
  show m1.byteUnder (m1.keyOf a.attr.key) x = _
  rw [hkey, b1]

end Sys2Proof.Machine
end

