-- ==== Sys2Proof/Laws/Select.lean ====
section
/-! SUPPORT. Selection (R104 to R108): the groups of a warp by key, those that no marker holds, and the first two of them. -/
namespace Sys2Proof.Machine

/-- Keys compare as the triples of R104. -/
theorem laneKey_lt_iff (x y : Lane) : laneKey x < laneKey y ↔ (x.yld = false ∧ y.yld = true) ∨ (x.yld = y.yld ∧ (y.depth.toNat < x.depth.toNat ∨
      (x.depth = y.depth ∧ x.pc.toNat < y.pc.toNat))) := by
  have h1 := x.depth.isLt; have h2 := y.depth.isLt; have h3 := x.pc.isLt; have h4 := y.pc.isLt
  have e : x.depth = y.depth ↔ x.depth.toNat = y.depth.toNat := BitVec.toNat_inj.symm
  rw [laneKey, laneKey, e]
  cases x.yld <;> cases y.yld <;> simp <;> omega
/-- Lanes of a list put into a table of groups by key: the fold behind `Warp.byKey`. -/
def groupBy (w : Warp) (p : Nat → Bool) (ls : List Nat) (m : Map Word) : Map Word :=
  ls.foldl (fun m l => if p l then mUpd m 0 (laneKey (w.lane l)) (fun x => x ||| laneBit l) else m) m
/-- Groups stand in the order of their keys. -/
theorem groupBy_sorted (w : Warp) (p : Nat → Bool) (ls : List Nat) (m : Map Word) (h : m.Pairwise fun x y => x.1 < y.1) :
    (groupBy w p ls m).Pairwise fun x y => x.1 < y.1 := by
  induction ls generalizing m with
  | nil => exact h
  | cons a t ih =>
    rw [groupBy, List.foldl_cons]
    apply ih
    split
    · exact pairwise_mSet _ _ _ h
    · exact h
/-- A lane is in the group of its key, if it is grouped at all. -/
theorem groupBy_get (w : Warp) (p : Nat → Bool) (ls : List Nat) (hls : ∀ l ∈ ls, l < 32) (m : Map Word) (k l : Nat) :
    (mGet (groupBy w p ls m) 0 k).getLsbD l = ((mGet m 0 k).getLsbD l || decide (l ∈ ls ∧ p l = true ∧ laneKey (w.lane l) = k)) := by
  induction ls generalizing m with
  | nil => simp [groupBy]
  | cons a t ih =>
    rw [groupBy, List.foldl_cons]
    rw [show ∀ m, t.foldl (fun m l => if p l then mUpd m 0 (laneKey (w.lane l)) (fun x => x ||| laneBit l) else m) m = groupBy w p t m from fun _ => rfl,
      ih (fun l h => hls l (List.mem_cons_of_mem _ h))]
    have ha : a < 32 := hls a (by simp)
    split
    · rename_i hp
      rw [mGet_mUpd]
      split
      · rename_i he
        subst he
        rw [BitVec.getLsbD_or, laneBit_getLsbD a l ha]
        by_cases hla : l = a
        · subst hla; simp [hp]
        · simp [hla]
      · rename_i he
        by_cases hla : l = a
        · subst hla; simp [hp, he]
        · simp [hla]
    · rename_i hp
      by_cases hla : l = a
      · subst hla; simp [hp]
      · simp [hla]
/-- A group has a lane. -/
theorem groupBy_mem (w : Warp) (p : Nat → Bool) (ls : List Nat) (m : Map Word) (k : Nat) (x : Word) (h : (k, x) ∈ groupBy w p ls m) :
    (∃ x, (k, x) ∈ m) ∨ ∃ l ∈ ls, p l = true ∧ laneKey (w.lane l) = k := by
  induction ls generalizing m with
  | nil => exact .inl ⟨x, h⟩
  | cons a t ih =>
    rw [groupBy, List.foldl_cons] at h
    rcases ih _ h with ⟨y, h⟩ | ⟨l, h1, h2⟩
    · split at h
      · rcases mem_mSet _ _ _ _ h with h | h
        · exact .inr ⟨a, by simp, ‹_›, (congrArg Prod.fst h).symm⟩
        · exact .inl ⟨y, h⟩
      · exact .inl ⟨y, h⟩
    · exact .inr ⟨l, List.mem_cons_of_mem _ h1, h2⟩
/-- In a table with rising keys an entry is the one found under its key. -/
theorem mFind_of_mem_sorted {α : Type} (m : Map α) (h : m.Pairwise fun x y => x.1 < y.1) (k : Nat) (x : α) (hx : (k, x) ∈ m) : mFind m k = some x := by
  induction m with
  | nil => cases hx
  | cons a t ih =>
    obtain ⟨k', v'⟩ := a
    rw [List.pairwise_cons] at h
    rcases List.mem_cons.1 hx with hx | hx
    · cases hx; simp [mFind]
    · have := h.1 _ hx
      rw [mFind, if_neg (by simp at this; omega)]
      exact ih h.2 hx
theorem Warp.groups_eq (w : Warp) : w.groups = groupBy w (eligible w) (rangeFrom 0 32) [] := rfl
theorem mem_range32 (l : Nat) (h : l < 32) : l ∈ rangeFrom 0 32 := (mem_rangeFrom 32 0 l).2 ⟨by omega, by omega⟩
theorem Warp.groups_sorted (w : Warp) : w.groups.Pairwise fun x y => x.1 < y.1 := groupBy_sorted w _ _ _ List.Pairwise.nil
/-- The lanes of a group are the eligible lanes of its key. -/
theorem Warp.groups_lanes (w : Warp) (k : Nat) (m : Word) (h : (k, m) ∈ w.groups) (l : Nat) (hl : l < 32) :
    m.getLsbD l = true ↔ eligible w l = true ∧ laneKey (w.lane l) = k := by
  have e := mFind_of_mem_sorted _ (Warp.groups_sorted w) k m h
  have g := groupBy_get w (eligible w) (rangeFrom 0 32) (fun l hl => by have := (mem_rangeFrom 32 0 l).1 hl; omega) [] k l
  rw [← Warp.groups_eq, mGet, e] at g
  rw [show m.getLsbD l = _ from g]
  simp [mGet, mFind, mem_range32 l hl]
/-- Every eligible lane has a group. -/
theorem Warp.groups_key (w : Warp) (l : Nat) (hl : l < 32) (he : eligible w l = true) : ∃ m, (laneKey (w.lane l), m) ∈ w.groups := by
  have g := groupBy_get w (eligible w) (rangeFrom 0 32) (fun l hl => by have := (mem_rangeFrom 32 0 l).1 hl; omega) [] (laneKey (w.lane l)) l
  rw [← Warp.groups_eq] at g
  have : (mGet w.groups 0 (laneKey (w.lane l))).getLsbD l = true := by rw [g]; simp [mem_range32 l hl, he]
  rw [mGet] at this
  cases hf : mFind w.groups (laneKey (w.lane l)) with
  | none => rw [hf] at this; simp at this
  | some m =>
    refine ⟨m, ?_⟩
    clear this g
    generalize w.groups = q at hf
    induction q with
    | nil => cases hf
    | cons a t ih =>
      obtain ⟨k', v'⟩ := a
      rw [mFind] at hf
      split at hf
      · cases hf; subst_vars; simp
      · exact List.mem_cons_of_mem _ (ih hf)
/-- Every group has an eligible lane. -/
theorem Warp.groups_some (w : Warp) (k : Nat) (m : Word) (h : (k, m) ∈ w.groups) : ∃ l < 32, eligible w l = true ∧ laneKey (w.lane l) = k := by
  rcases groupBy_mem w _ _ _ k m h with ⟨_, h⟩ | ⟨l, h1, h2⟩
  · cases h
  · have := (mem_rangeFrom 32 0 l).1 h1; exact ⟨l, by omega, h2⟩

/-- A list of groups by rising key: a lane that `p` tells is in the group of its key, and every group has such a lane. -/
structure Grouped (w : Warp) (p : Nat → Bool) (gs : Map Word) : Prop where
  sorted : gs.Pairwise fun x y => x.1 < y.1
  lanes : ∀ k m, (k, m) ∈ gs → ∀ l < 32, m.getLsbD l = true ↔ p l = true ∧ laneKey (w.lane l) = k
  key : ∀ l < 32, p l = true → ∃ m, (laneKey (w.lane l), m) ∈ gs
  some : ∀ k m, (k, m) ∈ gs → ∃ l < 32, p l = true ∧ laneKey (w.lane l) = k
/-- The groups of the eligible lanes. -/
theorem Warp.grouped (w : Warp) : Grouped w (eligible w) w.groups :=
  ⟨w.groups_sorted, w.groups_lanes, w.groups_key, w.groups_some⟩
/-- A group is the mates of each of its lanes. -/
theorem keyMates_group (w : Warp) (hs : w.serial = false) (k : Nat) (m : Word) (h : (k, m) ∈ w.groups) (l : Nat)
    (hk : laneKey (w.lane l) = k) : keyMates w l = m := by
  apply BitVec.eq_of_getLsbD_eq
  intro i hi
  rw [keyMates, if_neg (by simp [hs]), lanesMask_bits _ _ hi, Bool.eq_iff_iff, w.groups_lanes k m h i hi]
  simp [mem_range32 i hi, hk]
/-- The groups that no marker holds, of the selectable lanes. -/
theorem Warp.grouped_free (s : State) (w : Warp) (hs : w.serial = false) :
    Grouped w (selectable s w) (w.groups.filter fun km => !markerBlocked w km.2 (groupWord s w km.2)) := by
  have hm : ∀ k m, (k, m) ∈ w.groups.filter (fun km => !markerBlocked w km.2 (groupWord s w km.2)) →
      (k, m) ∈ w.groups ∧ markerBlocked w m (groupWord s w m) = false := fun k m h => by simpa using List.mem_filter.1 h
  refine ⟨w.groups_sorted.filter _, fun k m h l hl => ?_, fun l hl he => ?_, fun k m h => ?_⟩
  · obtain ⟨h1, h2⟩ := hm k m h
    rw [w.groups_lanes k m h1 l hl, selectable]
    constructor
    · rintro ⟨h3, h4⟩; exact ⟨by rw [keyMates_group w hs k m h1 l h4, h2, h3]; rfl, h4⟩
    · rintro ⟨h3, h4⟩; rw [Bool.and_eq_true] at h3; exact ⟨h3.1, h4⟩
  · rw [selectable, Bool.and_eq_true] at he
    obtain ⟨m, h⟩ := w.groups_key l hl he.1
    refine ⟨m, List.mem_filter.2 ⟨h, ?_⟩⟩
    have := he.2
    rwa [keyMates_group w hs _ m h l rfl] at this
  · obtain ⟨h1, h2⟩ := hm k m h
    obtain ⟨l, hl, h3, h4⟩ := w.groups_some k m h1
    exact ⟨l, hl, by rw [selectable, keyMates_group w hs k m h1 l h4, h2, h3]; rfl, h4⟩
/-- The first group is the lanes with the lowest key. -/
theorem Grouped.first {w : Warp} {p : Nat → Bool} {k : Nat} {a : Word} {t : Map Word} (g : Grouped w p ((k, a) :: t)) (l : Nat)
    (hl : l < 32) : a.getLsbD l = true ↔ lowestOf w p l := by
  have hs := List.pairwise_cons.1 g.sorted
  rw [g.lanes k a (by simp) l hl, lowestOf]
  constructor
  · rintro ⟨h1, h2⟩
    refine ⟨h1, fun j hj he => ?_⟩
    obtain ⟨m, hm⟩ := g.key j hj he
    rcases List.mem_cons.1 hm with hm | hm
    · have := congrArg Prod.fst hm; simp at this; omega
    · have := hs.1 _ hm; simp at this; omega
  · rintro ⟨h1, h2⟩
    obtain ⟨j, hj, he, hk⟩ := g.some k a (by simp)
    refine ⟨h1, ?_⟩
    have h3 := h2 j hj he
    obtain ⟨m, hm⟩ := g.key l hl h1
    rcases List.mem_cons.1 hm with hm | hm
    · exact congrArg Prod.fst hm
    · have := hs.1 _ hm; simp at this; omega
/-- The second group is the lanes with the lowest key of the rest. -/
theorem Grouped.second {w : Warp} {p : Nat → Bool} {k k' : Nat} {a c : Word} {t : Map Word}
    (g : Grouped w p ((k, a) :: (k', c) :: t)) (l : Nat) (hl : l < 32) :
    c.getLsbD l = true ↔ lowestOf w (fun j => p j && !a.getLsbD j) l := by
  have hs := g.sorted
  rw [List.pairwise_cons, List.pairwise_cons] at hs
  have hk : k < k' := hs.1 (k', c) (by simp)
  have ha : ∀ j < 32, a.getLsbD j = true ↔ p j = true ∧ laneKey (w.lane j) = k := fun j hj => g.lanes k a (by simp) j hj
  have hr : ∀ j < 32, p j = true → a.getLsbD j = false → k' ≤ laneKey (w.lane j) := by
    intro j hj he hn
    obtain ⟨m, hm⟩ := g.key j hj he
    rcases List.mem_cons.1 hm with hm | hm
    · have := (ha j hj).2 ⟨he, congrArg Prod.fst hm⟩; rw [this] at hn; cases hn
    · rcases List.mem_cons.1 hm with hm | hm
      · have := congrArg Prod.fst hm; simp at this; omega
      · have := hs.2.1 _ hm; simp at this; omega
  rw [g.lanes k' c (by simp) l hl, lowestOf]
  constructor
  · rintro ⟨h1, h2⟩
    refine ⟨?_, fun j hj he => ?_⟩
    · have : a.getLsbD l = false := by
        cases hx : a.getLsbD l
        · rfl
        · have := ((ha l hl).1 hx).2; omega
      simp [h1, this]
    · simp only [Bool.and_eq_true, Bool.not_eq_true'] at he
      rw [h2]; exact hr j hj he.1 he.2
  · rintro ⟨h1, h2⟩
    simp only [Bool.and_eq_true, Bool.not_eq_true'] at h1
    refine ⟨h1.1, ?_⟩
    have h3 := hr l hl h1.1 h1.2
    obtain ⟨j, hj, he, hkj⟩ := g.some k' c (by simp)
    have := h2 j hj (by
      have : a.getLsbD j = false := by
        cases hx : a.getLsbD j
        · rfl
        · have := ((ha j hj).1 hx).2; omega
      simp [he, this])
    omega
/-- A warp's bundles are the first two of its groups that no marker holds. -/
theorem bundlesOf_free (s : State) (w : Warp) : bundlesOf s w false =
    match (orderedGroups w).filter fun m => !markerBlocked w m (groupWord s w m) with
    | [] => none
    | [a] => some (a, none)
    | a :: c :: _ =>
      if w.serial || (memClass (groupWord s w a) && memClass (groupWord s w c)) then some (a, none) else some (a, some c) := by
  rw [bundlesOf]
  have h : (fun m => w.outs.isEmpty || !markerBlocked w m (peekWord (s.block w.bk).core (s.block w.bk).part (groupPc w m) s)) =
      fun m => !markerBlocked w m (groupWord s w m) := by
    funext m
    rw [groupWord]
    by_cases h : w.outs = [] <;> simp [h, markerBlocked]
  simp only [h]
  rfl

end Sys2Proof.Machine
end

