-- ==== Sys2Proof/Machine/Jallia.lean ====
section
/-! DEFINITION. The bytes of Jallia messages (R376): the 8-byte header, the host's messages as steps, the device's messages as
bytes. Outside State: a message reaches the machine as its step. -/
namespace Sys2Proof.Machine

/-- w0 and w1 of a message. -/
def jalliaHeader (kind arg len tag : Nat) : List Byte := leBytes kind 1 ++ leBytes arg 1 ++ leBytes len 2 ++ leBytes tag 4
def jKind (bs : List Byte) : Nat := fieldAt bs 0 1
def jArg (bs : List Byte) : Nat := fieldAt bs 1 1
def jLength (bs : List Byte) : Nat := fieldAt bs 2 2
def jTag (bs : List Byte) : Nat := fieldAt bs 4 4
/-- The LENGTH bytes after the header. -/
def jBody (bs : List Byte) : List Byte := (bs.drop 8).take (jLength bs)
/-- The step that a message of the host is: its KIND, ARG, TAG and body. MEMREAD's length is 8 bytes, as FLUSH's is
(DEDUCED, log 4). -/
def hostMessage (bs : List Byte) : Instr :=
  let b := jBody bs
  let tag := jTag bs
  let k := jKind bs
  if k = 0x01 then .launch (jArg bs) tag (leWords b 16)
  else if k = 0x03 then .flush (jArg bs) (fieldAt b 0 8) (fieldAt b 8 8) tag
  else if k = 0x10 then .memwrite (fieldAt b 0 8) (b.drop 8) tag
  else if k = 0x11 then .memread (fieldAt b 0 8) (fieldAt b 8 8) tag
  else if k = 0x20 then .attest (fieldAt b 0 32) tag
  else if k = 0x30 then .stats tag
  else .jalliaOtherKind k tag
/-- A message of the device to the host, with its header: COMPLETE, FLUSHDONE, and the responses whose contents the spec
lays out, which carry the KIND they answer (DEDUCED, log 4), an ARG of 0 in a response and a TAG of 0 in COMPLETE (DESIGN CHOICE, log 4). None for the others. -/
def Msg.bytes : Msg → Option (List Byte)
  | .launched tag gid => some (jalliaHeader 0x01 0 4 tag ++ leBytes gid 4)
  | .complete queue rec_ => some (jalliaHeader 0x02 queue 32 0 ++ rec_.flatMap wordBytes)
  | .flushdone part tag => some (jalliaHeader 0x04 part 0 tag)
  | .written tag => some (jalliaHeader 0x10 0 0 tag)
  | .data tag bs => some (jalliaHeader 0x11 0 bs.length tag ++ bs)
  | .report _ _ _ _ _ _ | .stats _ _ | .error _ | .peerData _ _ | .peerDone _ | .peerError _ | .readToPeer _ _ _
  | .writeToPeer _ _ | .atomToPeer _ _ _ _ _ _ | .objToPeer _ _ _ _ | .packet _ | .permit _ _ _ | .signal _ _ _ => none

end Sys2Proof.Machine
end

