-- ==== Sys2Proof/Tests/Slice0.lean ====
section
/-! SUPPORT. The model's own tests. First a witness for every obligation with hypotheses: for each clause a state and
operands that meet all its hypotheses together, at a boundary value where there is one. Then ill-formed terms, the words of
the spec's examples, and single steps whose results the spec writes out. -/
open Sys2Proof Sys2Proof.Machine
namespace Sys2Proof.Tests
set_option Elab.async false

/-! ### Witnesses of the statements' hypotheses -/

/-- The placed machine, with the lanes of a mask of its one warp executing at the placed word. -/
def st (m : Word) : State := setBundle 0 0 0 m false 0x10000 0x80000000 (State.reset.withFetchWord 32 0x80000000)
/-- The same with a change of the warp, of the block. -/
def stW (m : Word) (f : Warp → Warp) : State := (st m).updWarp 0 f
def stB (m : Word) (f : Block → Block) : State := (st m).updBlock 0 f
/-- A warp register and a lane register set. -/
def setW (r : Nat) (v : Word) (w : Warp) : Warp := { w with wregs := mSet w.wregs r v }
def setV (r l : Nat) (v : Word) (w : Warp) : Warp := { w with vregs := mSet w.vregs (32 * r + l) v }
/-- The lanes become `f` of what they are. -/
def setL (f : Lane → Lane) (w : Warp) : Warp := { w with lanes := w.lanes.map f }

/-- A warp whose stream is empty, said as one computation. -/
theorem empty_of (s : State) (h : (s.cw.memq.isEmpty && s.mem.atoms.isEmpty && (streamWids s s.cur.wk).isEmpty &&
    s.cw.hb.isEmpty) = true) : streamEmpty s := by
  simp only [Bool.and_eq_true, List.isEmpty_iff] at h
  obtain ⟨⟨⟨h1, h2⟩, h3⟩, h4⟩ := h
  refine ⟨h1, fun a ha => (by rw [h2] at ha; cases ha), h3, fun n => ?_⟩
  have h5 : (s.warp s.cur.wk).hb = [] := h4
  simp [hbHeld, h5]

theorem witness_ArithmeticResults :
    (∃ (s : State) (i : Instr) (x : AluForm), intForm s i = some x ∧ s.inBundle = true ∧ x.ops.all (·.ok) = true ∧
      x.srcs.any scopedSrc = false ∧ takesNow s x.d x.pair x.val) ∧
    ∃ (s : State) (i : Instr) (x : AluForm), floatForm s i = some x ∧ s.inBundle = true ∧ x.legal = true ∧
      x.ops.all (·.ok) = true ∧ x.srcs.any scopedSrc = false ∧ takesNow s x.d x.pair x.val :=
  ⟨⟨st 0xFFFFFFFF, .iadd false .wrap 107 124 107, _, rfl, by decide +kernel, by decide +kernel, by decide +kernel,
      .inr (.inr (.inl ⟨by decide, by decide, by decide +kernel⟩))⟩,
   ⟨st 1, .ffma false .rn 87 0 126, _, rfl, by decide +kernel, by decide +kernel, by decide +kernel, by decide +kernel,
      .inl ⟨by decide, by decide +kernel⟩⟩⟩
theorem witness_ExchangeAndUniformResults :
    (∃ (s : State) (i : Instr) (x : AluForm), exchForm s i = some x ∧ s.inBundle = true ∧ x.legal = true ∧
      x.ops.all (·.ok) = true ∧ x.srcs.any scopedSrc = false ∧ takesNow s x.d x.pair x.val) ∧
    (∃ (s : State) (i : Instr) (x : AluForm), uniForm s i = some x ∧ s.inBundle = true ∧ x.legal = true ∧
      x.ops.all (·.ok) = true ∧ x.srcs.any scopedSrc = false ∧ x.d.toNat < 108) ∧
    ∃ (s : State) (i : Instr) (x : AluForm), uniForm s i = some x ∧ s.inBundle = true ∧ x.legal = true ∧
      x.ops.all (·.ok) = true ∧ x.srcs.any scopedSrc = false ∧ x.d = 124 :=
  ⟨⟨st 0x80000001, .shfl false .bcast 0 125 0, _, rfl, by decide +kernel, by decide +kernel, by decide +kernel, by decide +kernel,
      .inl ⟨by decide, by decide +kernel⟩⟩,
   ⟨st 1, .getc false 106 0x0C, _, rfl, by decide +kernel, by decide +kernel, by decide +kernel, by decide +kernel, by decide⟩,
   ⟨st 1, .galu false .mul 124 92 115, _, rfl, by decide +kernel, by decide +kernel, by decide +kernel, by decide +kernel, rfl⟩⟩
theorem witness_ScopedSourceIsOutstanding :
    ∃ (s : State) (i : Instr) (x : AluForm), aluForm s i = some x ∧ s.inBundle = true ∧ x.legal = true ∧
      x.ops.all (·.ok) = true ∧ x.srcs.any scopedSrc = true ∧
      ((x.d.toNat < 88 ∧ rowsFit s (laneRows x.d x.pair) = true) ∨ x.d = 124 ∨ (92 ≤ x.d.toNat ∧ x.d.toNat < 108 ∧
        (uniForm s i).isSome = true)) :=
  ⟨st 3, .iadd64 false true 86 116 122, _, rfl, by decide +kernel, by decide +kernel, by decide +kernel, by decide +kernel,
    .inl ⟨by decide, by decide +kernel⟩⟩
theorem witness_BlockRegisterTakesAgreement :
    ∃ (s : State) (i : Instr) (x : AluForm) (v : DWord), aluForm s i = some x ∧ s.inBlock = true ∧ s.cw.isWave = false ∧
      x.legal = true ∧ x.ops.all (·.ok) = true ∧ x.srcs.any scopedSrc = false ∧ 108 ≤ x.d.toNat ∧ x.d.toNat < 116 ∧
      (∀ l < 32, s.cur.mask.getLsbD l = true → x.val l = v) ∧ bankTakes (scopedOf s s.cb x.d.toNat) (v.setWidth 32) ∧ x.pair = true ∧
      bankTakes (scopedOf s s.cb (x.d.toNat + 1)) ((v >>> 32).setWidth 32) :=
  ⟨st 0xFFFFFFFF, .iadd64 false false 114 124 124, _, 0, rfl, by decide +kernel, by decide +kernel, by decide +kernel,
    by decide +kernel, by decide +kernel, by decide, by decide, by decide +kernel, .inl (by decide +kernel), rfl, .inl (by decide +kernel)⟩
theorem witness_ClusterAndGridWritesTravel :
    ∃ (s : State) (i : Instr) (x : AluForm) (v : DWord), aluForm s i = some x ∧ s.inBundle = true ∧
      (s.cw.isWave = false ∨ 120 ≤ x.d.toNat) ∧ x.legal = true ∧ x.ops.all (·.ok) = true ∧ x.srcs.any scopedSrc = false ∧ 116 ≤ x.d.toNat ∧ x.d.toNat < 124 ∧
      ∀ l < 32, s.cur.mask.getLsbD l = true → x.val l = v :=
  ⟨st 0xFFFFFFFF, .movl false 123 7, _, 7, rfl, by decide +kernel, .inr (by decide), by decide +kernel,
    by decide +kernel, by decide +kernel, by decide, by decide, by decide +kernel⟩
/-- A half of the value is not what its bank's agreement phase holds. -/
def halfDiffers (s : State) (x : AluForm) (v : DWord) : Prop :=
  ((scopedOf s s.cb x.d.toNat).mode = .agreed ∧ (scopedOf s s.cb x.d.toNat).back ≠ v.setWidth 32) ∨
  (x.pair = true ∧ (scopedOf s s.cb (x.d.toNat + 1)).mode = .agreed ∧ (scopedOf s s.cb (x.d.toNat + 1)).back ≠ (v >>> 32).setWidth 32)
theorem witness_DisagreementRaisesAgree :
    (∃ (s : State) (i : Instr) (x : AluForm) (l k : Nat),
      (intForm s i = some x ∨ floatForm s i = some x ∨ exchForm s i = some x) ∧ s.inBundle = true ∧ x.legal = true ∧
      x.ops.all (·.ok) = true ∧ x.srcs.any scopedSrc = false ∧ 92 ≤ x.d.toNat ∧ x.d.toNat < 124 ∧ l < 32 ∧ k < 32 ∧
      s.cur.mask.getLsbD l = true ∧ s.cur.mask.getLsbD k = true ∧ x.val l ≠ x.val k) ∧
    (∃ (s : State) (i : Instr) (x : AluForm) (v : DWord), aluForm s i = some x ∧ s.inBlock = true ∧ s.cw.isWave = false ∧
      x.legal = true ∧ x.ops.all (·.ok) = true ∧ x.srcs.any scopedSrc = false ∧ 108 ≤ x.d.toNat ∧ x.d.toNat < 116 ∧
      (∀ l < 32, s.cur.mask.getLsbD l = true → x.val l = v) ∧ halfDiffers s x v) ∧
    ∃ (s : State) (i : Instr) (x : AluForm) (v : DWord) (k : RedKind), aluForm s i = some x ∧ s.inBlock = true ∧
      s.cw.isWave = false ∧ x.legal = true ∧ x.ops.all (·.ok) = true ∧ x.srcs.any scopedSrc = false ∧ 108 ≤ x.d.toNat ∧
      x.d.toNat < 116 ∧ (∀ l < 32, s.cur.mask.getLsbD l = true → x.val l = v) ∧ ¬ halfDiffers s x v ∧
      ((scopedOf s s.cb x.d.toNat).mode = .red k ∨ (x.pair = true ∧ (scopedOf s s.cb (x.d.toNat + 1)).mode = .red k)) :=
  ⟨⟨st 0x80000001, .mov false 92 125, _, 0, 31, .inl rfl, by decide +kernel, by decide +kernel, by decide +kernel, by decide +kernel,
      by decide, by decide, by decide, by decide, by decide +kernel, by decide +kernel, by decide +kernel⟩,
   ⟨stB 3 fun b => { b with bregs := [(6, { ScopedReg.init 0 with mode := .red .or }), (7, { ScopedReg.init 0 with mode := .agreed, back := 5 })] },
      .iadd64 false false 114 124 124, _, 0, rfl,
      by decide +kernel, by decide +kernel, by decide +kernel, by decide +kernel, by decide +kernel, by decide, by decide,
      by decide +kernel, .inr (by decide +kernel)⟩,
   ⟨stB 3 fun b => { b with bregs := [(0, { ScopedReg.init 0 with mode := .red .addF32 })] }, .movl false 108 6, _, 6, .addF32, rfl,
      by decide +kernel, by decide +kernel, by decide +kernel, by decide +kernel, by decide +kernel, by decide, by decide,
      by decide +kernel, by unfold halfDiffers; decide +kernel, .inl (by decide +kernel)⟩⟩
theorem witness_BadFormsRaise :
    (∃ (s : State) (i : Instr) (x : AluForm) (p : OpPos), aluForm s i = some x ∧ s.inBundle = true ∧ x.legal = true ∧
      firstBad x.ops = some p) ∧
    (∃ (s : State) (i : Instr) (x : AluForm), aluForm s i = some x ∧ s.inBundle = true ∧ x.legal = false) ∧
    (∃ (s : State) (i : Instr) (x : PredForm), predForm s i = some x ∧ s.inBundle = true ∧ x.legal = false) ∧
    ∃ s : State, s.inBundle = true :=
  ⟨⟨st 1, .iadd false .wrap 125 127 0, _, ⟨0, 125, false⟩, rfl, by decide +kernel, by decide +kernel, by decide +kernel⟩,
   ⟨stW 1 fun w => { w with frm := 6 }, .ffma false .rdyn 5 6 7, _, rfl, by decide +kernel, by decide +kernel⟩,
   ⟨st 1, .plop false .not 0 0 1, _, rfl, by decide +kernel, by decide +kernel⟩, st 1, by decide +kernel⟩
theorem witness_PredicateResults :
    (∃ (s : State) (i : Instr) (x : PredForm), predForm s i = some x ∧ s.inBundle = true ∧ x.legal = true ∧
      x.ops.all (·.ok) = true ∧ x.srcs.any scopedSrc = false) ∧
    ∃ (s : State) (i : Instr) (x : PredForm), predForm s i = some x ∧ s.inBundle = true ∧ x.legal = true ∧
      x.ops.all (·.ok) = true ∧ x.srcs.any scopedSrc = true :=
  ⟨⟨st 1, .dset false .unord 7 86 124, _, rfl, by decide +kernel, by decide +kernel, by decide +kernel, by decide +kernel⟩,
   ⟨st 1, .gset false .gtN 6 123 92, _, rfl, by decide +kernel, by decide +kernel, by decide +kernel, by decide +kernel⟩⟩
theorem witness_LongLatencyResults :
    (∃ (s : State) (i : Instr) (x : AluForm), longForm s i = some x ∧ s.inBundle = true ∧ x.ops.all (·.ok) = true ∧
      ((x.d.toNat < 88 ∧ rowsFit s (laneRows x.d x.pair) = true) ∨ x.d = 124)) ∧
    ∃ (s : State) (i : Instr) (x : AluForm), longForm s i = some x ∧ s.inBundle = true ∧ x.ops.all (·.ok) = true ∧
      88 ≤ x.d.toNat ∧ x.d.toNat < 124 :=
  ⟨⟨st 1, .dsfu false .sqrt .rn 86 122, _, rfl, by decide +kernel, by decide +kernel, .inl ⟨by decide, by decide +kernel⟩⟩,
   ⟨st 1, .idiv false .remN 123 0 124, _, rfl, by decide +kernel, by decide +kernel, by decide, by decide⟩⟩
theorem witness_MatchResults :
    (∃ (s : State) (d a : Reg), s.inBundle = true ∧ laneDst d = true ∧ laneSrc a = true ∧ scopedSrc a = false ∧
      takesNow s d false (fun l => z64 (matchMask s a l))) ∧
    ∃ (s : State) (d a : Reg), s.inBundle = true ∧ laneDst d = true ∧ laneSrc a = true ∧ scopedSrc a = true ∧
      ((d.toNat < 88 ∧ rowsFit s (laneRows d false) = true) ∨ d = 124) :=
  ⟨⟨st 0xFFFFFFFF, 87, 125, by decide +kernel, by decide, by decide, by decide, .inl ⟨by decide, by decide +kernel⟩⟩,
   ⟨st 3, 87, 123, by decide +kernel, by decide, by decide, by decide, .inl ⟨by decide, by decide +kernel⟩⟩⟩
theorem witness_ReductionIntoPlyOrWarp :
    ∃ (s : State) (d a : Reg), s.inBundle = true ∧ 88 ≤ d.toNat ∧ d.toNat < 108 ∧ laneSrc a = true :=
  ⟨st 0xFFFFFFFF, 88, 126, by decide +kernel, by decide, by decide, by decide⟩
theorem witness_ReductionIntoBank :
    (∃ (s : State) (i : Instr) (k : RedKind) (d : Reg) (vals : List (Nat × DWord)) (r : ScopedReg),
      (∃ sw a, laneSrc a = true ∧ i = .red sw k d a ∧ vals = s.perLane fun l => z64 (s.src a l)) ∧ s.inBlock = true ∧
      s.cw.isWave = false ∧ 108 ≤ d.toNat ∧ d.toNat < 116 ∧
      bankReduce (scopedOf s s.cb d.toNat) k (vals.map fun x => x.2.setWidth 32) = .ok r) ∧
    (∃ (s : State) (i : Instr) (k : RedKind) (d : Reg) (vals : List (Nat × DWord)),
      (∃ sw a, uniCode a = true ∧ i = .gred sw k d a ∧ vals = [(lowLane s.cur.mask, z64 (s.usrc a))]) ∧ s.inBlock = true ∧
      s.cw.isWave = false ∧ 108 ≤ d.toNat ∧ d.toNat < 116 ∧ (scopedOf s s.cb d.toNat).mode ≠ .none ∧
      (scopedOf s s.cb d.toNat).mode ≠ .red k) ∧
    ∃ (s : State) (i : Instr) (k : RedKind) (d : Reg) (vals : List (Nat × DWord)),
      (∃ sw a, uniCode a = true ∧ i = .gred sw k d a ∧ vals = [(lowLane s.cur.mask, z64 (s.usrc a))]) ∧ s.inBlock = true ∧
      s.cw.isWave = false ∧ 116 ≤ d.toNat ∧ d.toNat < 124 := by
  refine ⟨?_, ⟨stB 1 fun b => { b with bregs := [(7, { ScopedReg.init 0 with mode := .agreed })] }, _, .and, 115, _,
    ⟨false, 92, by decide, rfl, rfl⟩, by decide +kernel, by decide +kernel, by decide, by decide, by decide +kernel, by decide +kernel⟩,
    st 1, _, .or, 116, _, ⟨false, 123, by decide, rfl, rfl⟩, by decide +kernel, by decide +kernel, by decide, by decide⟩
  refine ⟨st 3, _, .maxN32, 108, _, _, ⟨false, 125, by decide, rfl, rfl⟩, by decide +kernel, by decide +kernel, by decide, by decide, rfl⟩
theorem witness_NopRegionRefill :
    (∃ s : State, s.inBundle = true) ∧
    (∃ (s : State) (a : Reg), s.inBundle = true ∧ uniCode a = true ∧ ∀ l < 32, (s.cw.lane l).st ≠ .vacant) ∧
    ∃ (s : State) (a : Reg), s.inBundle = true ∧ uniCode a = true ∧ s.cw.refill = none ∧ s.cw.serial = false ∧
      ∃ l < 32, (s.cw.lane l).st = .vacant :=
  ⟨⟨st 1, by decide +kernel⟩, ⟨st 1, 92, by decide +kernel, by decide, by decide +kernel⟩,
   ⟨stW 1 fun w => { w with lanes := w.lanes.set 31 { w.lane 31 with st := .vacant } }, 124, by decide +kernel, by decide,
     by decide +kernel, by decide +kernel, by decide +kernel⟩⟩
theorem witness_Branches :
    ∃ (s : State) (neg : Bool) (p : PredNo), s.inBundle = true ∧
      (∀ l < 32, s.cur.mask.getLsbD l = true → guardOf s neg p l = true → (s.cw.lane l).depth ≠ 63) ∧ rowsFit s [87] = true :=
  ⟨stW 3 (setL fun x => { x with depth := 62 }), false, 7, by decide +kernel, by decide +kernel, by decide +kernel⟩
theorem witness_RegisterBranches :
    (∃ (s : State) (a : Reg), s.inBundle = true ∧ laneTgt a = true ∧ (∀ l < 32, s.cur.mask.getLsbD l = true → s.src a l &&& 3 = 0) ∧
      (∀ l < 32, s.cur.mask.getLsbD l = true → (s.cw.lane l).depth ≠ 63) ∧ rowsFit s [87] = true ∧ scopedSrc a = false) ∧
    (∃ (s : State) (a : Reg), s.inBundle = true ∧ laneTgt a = true ∧ (∀ l < 32, s.cur.mask.getLsbD l = true → s.src a l &&& 3 = 0) ∧
      (∀ l < 32, s.cur.mask.getLsbD l = true → (s.cw.lane l).depth ≠ 63) ∧ rowsFit s [87] = true ∧ scopedSrc a = true) ∧
    ∃ (s : State) (a : Reg), s.inBundle = true ∧ laneTgt a = true ∧ (∀ l < 32, s.cur.mask.getLsbD l = true → s.src a l &&& 3 = 0) ∧
      ∀ l < 32, s.cur.mask.getLsbD l = true → (s.cw.lane l).depth ≠ 0 :=
  ⟨⟨stW 1 (setV 87 0 0xFFFFFFFC), 87, by decide +kernel, by decide, by decide +kernel, by decide +kernel, by decide +kernel, by decide⟩,
   ⟨st 1, 123, by decide +kernel, by decide, by decide +kernel, by decide +kernel, by decide +kernel, by decide⟩,
   ⟨stW 1 (setL fun x => { x with depth := 1 }), 124, by decide +kernel, by decide, by decide +kernel, by decide +kernel⟩⟩
theorem witness_ControlFaults :
    (∃ (s : State) (neg : Bool) (p : PredNo), s.inBundle = true ∧
      ∀ l < 32, s.cur.mask.getLsbD l = true → guardOf s neg p l = true ∧ (s.cw.lane l).depth = 63) ∧
    (∃ (s : State) (a : Reg), s.inBundle = true ∧ laneTgt a = true ∧
      ∀ l < 32, s.cur.mask.getLsbD l = true → s.src a l &&& 3 = 0 ∧ (s.cw.lane l).depth = 0) ∧
    (∃ (s : State) (a : Reg), s.inBundle = true ∧ laneTgt a = true ∧
      ∀ l < 32, s.cur.mask.getLsbD l = true → s.src a l &&& 3 = 0 ∧ (s.cw.lane l).depth = 63) ∧
    ∃ (s : State) (a : Reg), s.inBundle = true ∧ laneTgt a = true ∧
      ∀ l < 32, s.cur.mask.getLsbD l = true → s.src a l &&& 3 ≠ 0 :=
  ⟨⟨stW 3 (setL fun x => { x with depth := 63 }), true, 0, by decide +kernel, by decide +kernel⟩,
   ⟨st 1, 124, by decide +kernel, by decide, by decide +kernel⟩,
   ⟨stW 1 (setL fun x => { x with depth := 63 }), 124, by decide +kernel, by decide, by decide +kernel⟩,
   ⟨stW 1 (setV 0 0 3), 0, by decide +kernel, by decide, by decide +kernel⟩⟩
theorem witness_JoinWaitsAndReleases : ∃ (s : State) (a : Reg), s.inBundle = true ∧ laneTgt a = true :=
  ⟨st 1, 107, by decide +kernel, by decide⟩

/-- Two warps of one block, the first with its last lanes executing. -/
def stTwo : State := (st 0xFFFFFFFF).setWarps [(0, placeWarp), (1, { placeWarp with idx := 1 })]
theorem witness_ExitAndRetirement :
    (∃ (s : State) (k : Nat), s.inBundle = true ∧ k < 32 ∧ s.cur.mask.getLsbD k = false ∧ (s.cw.lane k).st ≠ .vacant ∧
      (s.cw.lane k).st ≠ .serialWaiting ∧ ∀ l < 32, s.cur.mask.getLsbD l = true → (s.cw.lane l).isTask = false) ∧
    ∃ (s : State) (k : Nat) (w : Warp), s.inBlock = true ∧ s.cw.retiredW = false ∧ s.cw.isWave = false ∧
      s.cw.serial = false ∧ s.cw.refill = none ∧ noClaims s s.cw.bk ∧
      (∀ l < 32, s.cur.mask.getLsbD l = false → (s.cw.lane l).st = .vacant) ∧
      (∀ l < 32, s.cur.mask.getLsbD l = true → (s.cw.lane l).isTask = false) ∧
      k ≠ s.cur.wk ∧ mFind s.warps k = some w ∧ w.bk = s.cw.bk ∧ w.retiredW = false :=
  ⟨⟨st 1, 31, by decide +kernel, by decide, by decide +kernel, by decide +kernel, by decide +kernel, by decide +kernel⟩,
   ⟨stTwo, 1, _, by decide +kernel, by decide +kernel, by decide +kernel, by decide +kernel, by decide +kernel, by unfold noClaims; decide +kernel, by decide +kernel, by decide +kernel, by decide +kernel, rfl, rfl, rfl⟩⟩
theorem witness_RowsAndQuota :
    (∃ (s : State) (d a b : Reg), s.inBundle = true ∧ freeCode d = true ∧ freeCode a = true ∧ freeCode b = true) ∧
    (∃ (s : State) (n : BitVec 7), s.inBlock = true ∧ n.toNat ≤ s.cw.limit.toNat ∧ s.cw.limit.toNat ≤ 88 ∧ noClaims s s.cw.bk) ∧
    (∃ (s : State) (n : BitVec 7), s.inBlock = true ∧ n.toNat ≤ 88 ∧ s.cw.limit.toNat < n.toNat) ∧
    (∃ (s : State) (n : BitVec 7), s.inBlock = true ∧ n.toNat ≤ 88 ∧ 88 < s.cw.limit.toNat + n.toNat) ∧
    (∃ (s : State) (n : BitVec 7), s.inBlock = true ∧ s.cw.limit.toNat + n.toNat ≤ 88 ∧ n.toNat ≤ s.cb.pool ∧ 1 ≤ n.toNat) ∧
    (∃ (s : State) (d : Reg), s.inBlock = true ∧ uniCode d = true ∧ (s.usrc d).toNat % 128 < s.cw.limit.toNat ∧
      s.cw.limit.toNat ≤ 88 ∧ noClaims s s.cw.bk) ∧
    (∃ (s : State) (d : Reg), s.inBlock = true ∧ uniCode d = true ∧ s.cw.limit.toNat ≤ (s.usrc d).toNat % 128 ∧
      (s.usrc d).toNat % 128 ≤ 88 ∧ (s.usrc d).toNat % 128 - s.cw.limit.toNat ≤ s.cb.pool) ∧
    ∃ (s : State) (d : Reg), s.inBlock = true ∧ uniCode d = true ∧ s.cw.limit.toNat ≤ (s.usrc d).toNat % 128 ∧
      (s.usrc d).toNat % 128 ≤ 88 ∧ s.cb.pool < (s.usrc d).toNat % 128 - s.cw.limit.toNat :=
  ⟨⟨st 1, 87, 0, 124, by decide +kernel, by decide, by decide, by decide⟩,
   ⟨st 1, 88, by decide +kernel, by decide +kernel, by decide +kernel, by unfold noClaims; decide +kernel⟩,
   ⟨stW 1 fun w => { w with limit := 87 }, 88, by decide +kernel, by decide, by decide +kernel⟩, ⟨st 1, 1, by decide +kernel, by decide, by decide +kernel⟩,
   ⟨(stW 1 fun w => { w with limit := 87 }).updBlock 0 fun b => { b with pool := 1 }, 1, by decide +kernel, by decide +kernel, by decide +kernel, by decide⟩,
   ⟨st 1, 124, by decide +kernel, by decide, by decide +kernel, by decide +kernel, by unfold noClaims; decide +kernel⟩,
   ⟨(stW 1 fun w => setW 0 88 { w with limit := 87 }).updBlock 0 fun b => { b with pool := 1 }, 92, by decide +kernel, by decide, by decide +kernel, by decide +kernel, by decide +kernel⟩,
   ⟨stW 1 fun w => setW 0 88 { w with limit := 87 }, 92, by decide +kernel, by decide, by decide +kernel, by decide +kernel, by decide +kernel⟩⟩
theorem witness_SetcOfWarpRegisters :
    (∃ (s : State) (d : Reg), s.inBundle = true ∧ uniCode d = true ∧ s.cw.privileged = true) ∧
    (∃ (s : State) (d : Reg), s.inBundle = true ∧ uniCode d = true ∧ s.cw.privileged = false) ∧
    ∃ (s : State) (d : Reg) (x : BitVec 17), s.inBundle = true ∧ uniCode d = true ∧ ctrlIndex x = true ∧ setcOwnRow x = false :=
  ⟨⟨stW 1 (setL fun x => { x with handler := true }), 92, by decide +kernel, by decide, by decide +kernel⟩, ⟨st 1, 124, by decide +kernel, by decide, by decide +kernel⟩,
   ⟨st 1, 108, 0, by decide +kernel, by decide, by decide, by decide⟩⟩
/-- One command of a channel is outstanding. -/
def busyChan : Chan := { Chan.init with cmds := [⟨0, [], 0, false, 0, 0, 0, none, false, false, false, [], none⟩] }
theorem witness_RingRegisters :
    (∃ (s : State) (d : Reg), s.inBundle = true ∧ uniCode d = true ∧ s.cb.copyBusy = false ∧ s.cb.ringSize ≠ 0 ∧
      ringsEnd (s.usrc d &&& 0x3FFF0) s.cb.ringSize = s.cb.spSize) ∧
    (∃ (s : State) (d : Reg), s.inBundle = true ∧ uniCode d = true ∧
      (∀ ch < 8, ringLog (s.usrc d) ch = 0 ∨ (3 ≤ ringLog (s.usrc d) ch ∧ ringLog (s.usrc d) ch ≤ 8)) ∧ s.cb.copyBusy = false ∧
      s.usrc d ≠ 0 ∧ ringsEnd s.cb.ringBase (s.usrc d) ≤ s.cb.spSize) ∧
    (∃ (s : State) (d : Reg), s.inBundle = true ∧ uniCode d = true ∧ s.cb.copyBusy = true) ∧
    ∃ (s : State) (d : Reg), s.inBundle = true ∧ uniCode d = true ∧ ∃ ch < 8, ringLog (s.usrc d) ch ≠ 0 ∧
      (ringLog (s.usrc d) ch < 3 ∨ 8 < ringLog (s.usrc d) ch) :=
  ⟨⟨(stW 1 (setW 0 752)).updBlock 0 fun b => { b with ringSize := 3 }, 92, by decide +kernel, by decide, by decide +kernel, by decide +kernel, by decide +kernel⟩,
   ⟨stW 1 (setW 0 0x30000003), 92, by decide +kernel, by decide, by decide +kernel, by decide +kernel, by decide +kernel, by decide +kernel⟩,
   ⟨stB 1 fun b => { b with chans := [(7, busyChan)] }, 92, by decide +kernel, by decide, by decide +kernel⟩,
   ⟨stW 1 (setW 0 0x90000000), 92, by decide +kernel, by decide, 7, by decide, by decide +kernel, .inr (by decide +kernel)⟩⟩
theorem witness_FencesOrderTheStream :
    ∃ s : State, s.inBundle = true ∧ streamEmpty s ∧ coreQuiet s ∧ ∀ f ∈ s.mem.flights, f.fid ∉ s.cw.ntFids :=
  ⟨st 1, by decide +kernel, empty_of _ (by decide +kernel), by unfold coreQuiet; decide +kernel, by decide +kernel⟩
/-- w2:w3 hold an address of the scratchpad, w4 a value. -/
def atSp (off v : Word) (w : Warp) : Warp := setW 2 off (setW 3 0xFFFFFFFF (setW 4 v w))
theorem witness_WaitmAtTheScratchpad :
    (∃ (s : State) (c : Cond) (a b : Reg) (off : Nat), s.inBundle = true ∧ uniCode a = true ∧ evenCode a = true ∧
      uniCode b = true ∧ s.usrc64 a = BitVec.ofNat 64 (0xFFFFFFFF00000000 + off) ∧ off < 2 ^ 32 ∧ off + 4 ≤ s.cb.spSize ∧
      off % 4 = 0 ∧ sramBad s s.cw.bk .sp off 4 = false ∧ streamPending s s.cur.wk = false ∧ hbHeld s s.cur.wk s.mem.nextWid = false ∧
      condHolds c (memRead32 s.cb.sp off) (s.usrc b) = true) ∧
    (∃ (s : State) (c : Cond) (a b : Reg) (off : Nat), s.inBundle = true ∧ uniCode a = true ∧ evenCode a = true ∧
      uniCode b = true ∧ s.usrc64 a = BitVec.ofNat 64 (0xFFFFFFFF00000000 + off) ∧ off < 2 ^ 32 ∧ off + 4 ≤ s.cb.spSize ∧
      off % 4 = 0 ∧ sramBad s s.cw.bk .sp off 4 = false ∧ streamPending s s.cur.wk = false ∧ hbHeld s s.cur.wk s.mem.nextWid = false ∧
      condHolds c (memRead32 s.cb.sp off) (s.usrc b) = false) ∧
    ∃ (s : State) (a b : Reg) (off : Nat), s.inBundle = true ∧ uniCode a = true ∧ evenCode a = true ∧
      uniCode b = true ∧ s.usrc64 a = BitVec.ofNat 64 (0xFFFFFFFF00000000 + off) ∧ off < 2 ^ 32 ∧ s.cb.spSize < off + 4 :=
  ⟨⟨stW 1 (atSp 1020 0), .eq, 94, 96, 1020, by decide +kernel, by decide, by decide, by decide, by decide +kernel, by decide, by decide +kernel, by decide, by decide +kernel, by decide +kernel, by decide +kernel, by decide +kernel⟩,
   ⟨stW 1 (atSp 1020 1), .eq, 94, 96, 1020, by decide +kernel, by decide, by decide, by decide, by decide +kernel, by decide, by decide +kernel, by decide, by decide +kernel, by decide +kernel, by decide +kernel, by decide +kernel⟩,
   ⟨stW 1 (atSp 1021 1), 94, 96, 1021, by decide +kernel, by decide, by decide, by decide, by decide +kernel, by decide, by decide +kernel⟩⟩
theorem witness_BarWaits :
    (∃ s : State, s.inBundle = true ∧ s.cw.isWave = true) ∧
    (∃ (s : State) (cluster : Bool), s.inBundle = true ∧ s.cw.isWave = false ∧
      ∃ l < 32, (s.cw.lane l).st ≠ .vacant ∧ (s.cw.lane l).st ≠ .serialWaiting ∧ barWaiting s cluster l = false) ∧
    ∃ (s : State) (cluster : Bool), s.inBundle = true ∧ s.cw.isWave = false ∧
      (∀ l < 32, (s.cw.lane l).st ≠ .vacant → (s.cw.lane l).st ≠ .serialWaiting → barWaiting s cluster l = true) ∧
      streamEmpty s ∧ coreQuiet s ∧ cluster = true :=
  ⟨⟨stW 1 fun w => { w with isWave := true }, by decide +kernel, by decide +kernel⟩, ⟨st 0x7FFFFFFF, false, by decide +kernel, by decide +kernel, 31, by decide, by decide +kernel, by decide +kernel, by decide +kernel⟩,
   ⟨st 0xFFFFFFFF, true, by decide +kernel, by decide +kernel, by decide +kernel, empty_of _ (by decide +kernel), by unfold coreQuiet; decide +kernel, rfl⟩⟩
/-- What the statement on local barrier objects assumes of an operation. -/
def objectForm (s : State) (op : BarxOp) (d a b : Reg) (off : Nat) : Prop :=
  (s.inBlock = true ∧ ((op = .test ∨ op = .wait) ∨ d = 0) ∧ (op = .arrive → b = 0) ∧ ((op ≠ .test ∧ op ≠ .wait) ∨ uniCode d = true) ∧
  uniCode a = true ∧ evenCode a = true ∧ (op = .arrive ∨ uniCode b = true) ∧
  s.usrc64 a = BitVec.ofNat 64 (0xFFFFFFFF00000000 + off) ∧ off + 16 ≤ s.cb.spSize ∧ off % 16 = 0 ∧ off < 2 ^ 32 ∧
  sramBad s s.cw.bk .sp off 16 = false ∧ (op = .init → 1 ≤ (s.usrc b).toNat ∧ (s.usrc b).toNat < 65536) ∧
  (s.schedAt s.cur.core s.cur.sched).pendB = none ∧ (s.schedAt s.cur.core s.cur.sched).late = []) ∧
  (op = .arrive ∨ op = .arriveExpect → streamEmpty s)
theorem witness_BarxAtTheScratchpad :
    (∃ (s : State) (a b : Reg) (off : Nat), objectForm s .init 0 a b off) ∧
    (∃ (s : State) (a : Reg) (off : Nat), objectForm s .arrive 0 a 0 off) ∧
    (∃ (s : State) (d a b : Reg) (off : Nat), objectForm s .test d a b off ∧ 92 ≤ d.toNat ∧ d.toNat < 108) ∧
    (∃ (s : State) (a b : Reg) (off : Nat), objectForm s .wait 124 a b off ∧ (s.cb.obj off).parity ≠ (s.usrc b).getLsbD 0) ∧
    ∃ (s : State) (a b : Reg) (off : Nat), objectForm s .wait 124 a b off ∧ (s.cb.obj off).parity = (s.usrc b).getLsbD 0 :=
  ⟨⟨stW 1 (atSp 1008 65535), 94, 96, 1008, ⟨by decide +kernel, fun _ => empty_of _ (by decide +kernel)⟩⟩,
   ⟨stW 1 (atSp 0 1), 94, 0, ⟨by decide +kernel, fun _ => empty_of _ (by decide +kernel)⟩⟩,
   ⟨stW 1 (atSp 16 1), 107, 94, 96, 16, ⟨by decide +kernel, fun _ => empty_of _ (by decide +kernel)⟩, by decide, by decide⟩,
   ⟨stW 1 (atSp 1008 1), 94, 96, 1008, ⟨by decide +kernel, fun _ => empty_of _ (by decide +kernel)⟩, by decide +kernel⟩,
   ⟨stW 1 (atSp 1008 0), 94, 96, 1008, ⟨by decide +kernel, fun _ => empty_of _ (by decide +kernel)⟩, by decide +kernel⟩⟩

theorem witness_LocalLoads :
    (∃ (s : State) (sz : Size) (q : LdsQ) (t a : Reg) (off : BitVec 6), s.inBundle = true ∧
      memReg true (sizeBytes sz) t = true ∧ laneSrc a = true ∧ rowsFit s (laneRows t (sizeBytes sz == 8)) = true ∧ streamEmpty s ∧
      windowOk s (ldsSpace q) true (sizeBytes sz) (lAddr s a off (sizeBytes sz)) ∧ t.toNat < 88) ∧
    ∃ (s : State) (b64 : Bool) (t a : Reg) (off : BitVec 5), s.inBundle = true ∧ memReg true (atomSize b64) t = true ∧
      laneSrc a = true ∧ rowsFit s (laneRows t (atomSize b64 == 8)) = true ∧ streamEmpty s ∧
      windowOk s .sp true (atomSize b64) (lAddr s a off (atomSize b64)) ∧ 88 ≤ t.toNat ∧ t.toNat < 124 :=
  ⟨⟨stW 1 (setV 0 0 1032), .b64, .sp, 86, 0, 62, by decide +kernel, by decide, by decide, by decide +kernel, empty_of _ (by decide +kernel), by unfold windowOk; decide +kernel, by decide⟩,
   ⟨stW 1 (setV 0 0 1024), false, 123, 0, 31, by decide +kernel, by decide, by decide, by decide +kernel, empty_of _ (by decide +kernel), by unfold windowOk; decide +kernel, by decide, by decide⟩⟩
/-- w2:w3 hold a global address. -/
def atVa (va : Word) (w : Warp) : Warp := setW 2 va (setW 3 0 w)
theorem witness_GlobalLoads :
    (∃ (s : State) (i : Instr) (x : LoadForm), loadForm s i = some x ∧ s.inBundle = true ∧ memReg true x.n x.t = true ∧
      evenCode x.a = true ∧ rowsFit s (laneRows x.t (x.n == 8)) = true ∧ streamEmpty s ∧ (x.accesses s).faults = [] ∧
      LoadSrc.room { kind := x.kind, accs := (x.accesses s).accs, size := x.n } (x.accesses s).s = true ∧ (x.t.toNat < 88 ∨ x.t = 124)) ∧
    (∃ (s : State) (i : Instr) (x : LoadForm), loadForm s i = some x ∧ s.inBundle = true ∧ memReg true x.n x.t = true ∧
      evenCode x.a = true ∧ rowsFit s (laneRows x.t (x.n == 8)) = true ∧ streamEmpty s ∧ (x.accesses s).faults = [] ∧
      LoadSrc.room { kind := x.kind, accs := (x.accesses s).accs, size := x.n } (x.accesses s).s = true ∧
      88 ≤ x.t.toNat ∧ x.t.toNat < 124) ∧ ∃ s : State, s.inBundle = true :=
  ⟨⟨stW 3 (atVa 0x1FFFFFF8), .ldg false .b64 .nol1 86 94 0, _, rfl, by decide +kernel, by decide, by decide, by decide +kernel, empty_of _ (by decide +kernel), by decide +kernel, by decide +kernel, .inl (by decide)⟩,
   ⟨stW 3 (atVa 0x1FFFFFFF), .ldrUse false .b8 true 31 123 94, _, rfl, by decide +kernel, by decide, by decide, by decide +kernel, empty_of _ (by decide +kernel), by decide +kernel, by decide +kernel, by decide, by decide⟩,
   st 1, by decide +kernel⟩
/-- After a first access of the bundle to its place: the page's translation is in the core's TLB. -/
def stHeld : State := (globalLanes .read 4 (fun _ => 0x1000) noCheck (stW 1 (atVa 0x1000))).s
/-- The same with a snapshot of the sector. -/
def stSnap : State := stHeld.updCore 0 fun c => { c with snaps := [(0x20, List.replicate 128 ⟨7, 0⟩)] }
theorem witness_LoadsReadPoolSnapshotHome :
    (∃ (s : State) (q : LdgQ) (t a : Reg) (off : BitVec 6) (x : LoadForm),
      loadForm s (.ldg false .b32 q t a off) = some x ∧ s.inBundle = true ∧ memReg true x.n t = true ∧ evenCode a = true ∧
      rowsFit s (laneRows t (x.n == 8)) = true ∧ streamEmpty s ∧ s.mem.flights = [] ∧ (x.accesses s).faults = [] ∧
      (x.accesses s).s = s ∧ (∀ y ∈ (x.accesses s).accs, y.peer = none ∧ y.zero = false) ∧ q ≠ .nol1 ∧
      ∀ y ∈ (x.accesses s).accs, (mFind (s.coreAt (s.block s.cw.bk).core).snaps (y.pa / 128)).isSome = true) ∧
    ∃ (s : State) (q : LdgQ) (t a : Reg) (off : BitVec 6) (x : LoadForm) (sec : Nat),
      loadForm s (.ldg false .b32 q t a off) = some x ∧ s.inBundle = true ∧ memReg true x.n t = true ∧ evenCode a = true ∧
      rowsFit s (laneRows t (x.n == 8)) = true ∧ streamEmpty s ∧ s.mem.flights = [] ∧ (x.accesses s).faults = [] ∧
      (x.accesses s).s = s ∧ (∀ y ∈ (x.accesses s).accs, y.peer = none ∧ y.zero = false) ∧
      (∀ y ∈ (x.accesses s).accs, y.pa / 128 = sec) ∧
      (q = .nol1 ∨ (mFind (s.coreAt (s.block s.cw.bk).core).snaps sec = none ∧
        (s.coreAt (s.block s.cw.bk).core).full 1 = false)) ∧
      ∀ y ∈ (x.accesses s).accs, ∀ z ∈ (x.accesses s).accs, y.attr = z.attr :=
  ⟨⟨stSnap, .normal, 0, 94, 31, _, rfl, by decide +kernel, by decide, by decide, by decide +kernel, empty_of _ (by decide +kernel), by decide +kernel, by decide +kernel, by decide +kernel, by decide +kernel, by decide, by decide +kernel⟩,
   ⟨stHeld, .normal, 87, 94, 0, _, 0x20, rfl, by decide +kernel, by decide, by decide, by decide +kernel, empty_of _ (by decide +kernel), by decide +kernel, by decide +kernel, by decide +kernel, by decide +kernel, by decide +kernel, .inr (by decide +kernel), by decide +kernel⟩⟩
/-- The grid holds the streaming privilege. -/
def stStream (m : Word) (f : Warp → Warp) : State :=
  (stW m f).updGrid 1 fun g => { g with record := g.record.set 5 0x80000000 }
theorem witness_GlobalStores :
    (∃ (s : State) (n : Nat) (t a : Reg), s.inBundle = true ∧ memReg false n t = true ∧ evenCode a = true ∧ s.cg.stream = false) ∧
    (∃ (s : State) (t a : Reg) (off : BitVec 6), s.inBundle = true ∧ memReg false 8 t = true ∧ evenCode a = true ∧
      s.cg.stream = true ∧ streamEmpty s ∧ (globalLanes .write 8 (gAddr s a off 8) noCheck s).faults = []) ∧
    ∃ (s : State) (t a : Reg) (off : BitVec 5), s.inBundle = true ∧ memReg false 4 t = true ∧ evenCode a = true ∧
      (globalLanes .write 4 (gAddr s a off 4) noCheck s).faults = [] :=
  ⟨⟨st 1, 8, 124, 94, by decide +kernel, by decide, by decide, by decide +kernel⟩,
   ⟨stStream 3 (atVa 0x1FFFFF00), 86, 94, 31, by decide +kernel, by decide, by decide, by decide +kernel, empty_of _ (by decide +kernel), by decide +kernel⟩,
   ⟨stW 3 (atVa 0x1FFFFFF0), 126, 94, 3, by decide +kernel, by decide, by decide, by decide +kernel⟩⟩
theorem witness_LocalStores :
    (∃ (s : State) (t a : Reg) (off : BitVec 6), s.inBlock = true ∧ memReg false 8 t = true ∧ laneSrc a = true ∧ streamEmpty s ∧
      windowOk s .sp false 8 (lAddr s a off 8) ∧
      noNotify s.cb fun o => ∃ l < 32, s.cur.mask.getLsbD l = true ∧ (lAddr s a off 8 l).toNat ≤ o ∧ o < (lAddr s a off 8 l).toNat + 8) ∧
    ∃ (s : State) (t a : Reg) (off : BitVec 5), s.inBlock = true ∧ memReg false 4 t = true ∧ laneSrc a = true ∧ streamEmpty s ∧
      windowOk s .sp false 4 (lAddr s a off 4) ∧ coreQuiet s ∧
      noNotify s.cb fun o => ∃ l < 32, s.cur.mask.getLsbD l = true ∧ (lAddr s a off 4 l).toNat ≤ o ∧ o < (lAddr s a off 4 l).toNat + 4 :=
  ⟨⟨stW 1 (setV 0 0 1024), 0, 0, 63, by decide +kernel, by decide, by decide, empty_of _ (by decide +kernel), by unfold windowOk; decide +kernel, fun ch _ h => absurd rfl h⟩,
   ⟨stW 1 (setV 0 0 0), 126, 0, 0, by decide +kernel, by decide, by decide, empty_of _ (by decide +kernel), by unfold windowOk; decide +kernel, by unfold coreQuiet; decide +kernel, fun ch _ h => absurd rfl h⟩⟩
theorem witness_RemoteStoresTravel :
    ∃ (s : State) (sz : Size) (t a : Reg) (off : BitVec 6), s.inBundle = true ∧
      memReg false (sizeBytes sz) t = true ∧ laneSrc a = true ∧
      ∀ l < 32, s.cur.mask.getLsbD l = true → remoteOk s s.cb (lAddr s a off (sizeBytes sz) l).toNat (sizeBytes sz) = true ∧
        (lAddr s a off (sizeBytes sz) l).toNat % sizeBytes sz = 0 :=
  ⟨(stW 1 (setV 0 0 (63 * 262144 + 65528))).updBlock 0 fun b => { b with hasX := true }, .b64, 126 - 2, 0, 0, by decide +kernel, by decide, by decide, by decide +kernel⟩
theorem witness_Atomics :
    (∃ (s : State) (aop : Aop) (u : Use) (ty : AtomTy) (t a : Reg), s.inBundle = true ∧ atomCombo aop u ty = true ∧
      atomT aop (ty == .b64) t = true ∧ evenCode a = true ∧ rowsFit s (laneRows t (ty == .b64)) = true ∧
      (globalLanes .write (atomSize (ty == .b64)) (fun l => s.src64 a l)
        (if u = .comm ∨ u = .spec then eccCheck .nol1 (atomSize (ty == .b64))
         else bothChecks (scopeCheck .d true) (eccCheck .nol1 (atomSize (ty == .b64)))) s).faults = []) ∧
    ∃ (s : State) (aop : Aop) (u : Use) (ty : AtomTy) (t a : Reg) (l : Nat), s.inBundle = true ∧ atomCombo aop u ty = true ∧
      atomT aop (ty == .b64) t = true ∧ laneSrc a = true ∧ rowsFit s (laneRows t (ty == .b64)) = true ∧ s.inBlock = true ∧
      s.cur.mask = laneBit l ∧ l < 32 ∧ streamEmpty s ∧ windowOk s .sp true (atomSize (ty == .b64)) (fun l => s.src a l) ∧
      noNotify s.cb (fun o => (s.src a l).toNat ≤ o ∧ o < (s.src a l).toNat + atomSize (ty == .b64)) :=
  ⟨⟨stW 3 (atVa 0x1FFFFFF8), .cas, .unpaired, .b64, 84, 94, by decide +kernel, by decide, by decide, by decide, by decide +kernel, by decide +kernel⟩,
   ⟨stW 0x80000000 (setV 0 31 1020), .fadd, .plain, .f32, 87, 0, 31, by decide +kernel, by decide, by decide, by decide, by decide +kernel, by decide +kernel, by decide, by decide,
     empty_of _ (by decide +kernel), by unfold windowOk; decide +kernel, fun ch _ h => absurd rfl h⟩⟩
/-- The core holds a leaf for the first page of the partition. -/
def stLeaf (leaf : DWord) : State := (stW 1 (atVa 0)).updCore 0 fun c => { c with tlb := [(tlbKey 0 2 0, ⟨leaf, 2⟩)] }
theorem witness_AccessFaults :
    (∃ (s : State) (i : Instr) (k : Acc) (n : Nat) (addr : Nat → DWord), globalAccess s i = some (true, k, n, addr) ∧
      s.inBundle = true ∧ ∀ l < 32, s.cur.mask.getLsbD l = true → (addr l).toNat % n ≠ 0) ∧
    (∃ (s : State) (i : Instr) (k : Acc) (n : Nat) (addr : Nat → DWord), globalAccess s i = some (true, k, n, addr) ∧
      s.inBundle = true ∧ ∀ l < 32, s.cur.mask.getLsbD l = true → (addr l).toNat % n = 0 ∧ 2 ^ 55 ≤ (addr l).toNat) ∧
    (∃ (s : State) (i : Instr) (n : Nat) (addr : Nat → DWord), globalAccess s i = some (true, .write, n, addr) ∧
      s.inBundle = true ∧ ∀ l < 32, s.cur.mask.getLsbD l = true → (addr l).toNat % n = 0 ∧ (addr l).toNat < 2 ^ 55 ∧
        ∃ e : TlbEntry, tlbFind (s.coreAt s.cur.core).tlb s.cb.part (addr l).toNat = some e ∧
          e.leaf.getLsbD 2 = false ∧ e.leaf.getLsbD 5 = true) ∧
    (∃ (s : State) (i : Instr) (n : Nat) (addr : Nat → DWord), globalAccess s i = some (true, .read, n, addr) ∧
      s.inBundle = true ∧ ∀ l < 32, s.cur.mask.getLsbD l = true → (addr l).toNat % n = 0 ∧ (addr l).toNat < 2 ^ 55 ∧
        ∃ e : TlbEntry, tlbFind (s.coreAt s.cur.core).tlb s.cb.part (addr l).toNat = some e ∧ e.leaf.getLsbD 1 = false) ∧
    (∃ (s : State) (i : Instr) (q : LSpace) (n : Nat) (addr : Nat → Word), localAccess s i = some (true, q, n, addr) ∧
      s.inBundle = true ∧ ∀ l < 32, s.cur.mask.getLsbD l = true → s.cb.windowSize q < (addr l).toNat + n) ∧
    ∃ (s : State) (i : Instr) (q : LSpace) (n : Nat) (addr : Nat → Word), localAccess s i = some (true, q, n, addr) ∧
      s.inBundle = true ∧ ∀ l < 32, s.cur.mask.getLsbD l = true → (addr l).toNat + n ≤ s.cb.windowSize q ∧ (addr l).toNat % n ≠ 0 :=
  ⟨⟨stW 3 (atVa 0x1001), .ldg false .b16 .normal 87 94 0, _, _, _, by rfl, by decide +kernel, by decide +kernel⟩,
   ⟨stW 3 (setW 2 0 ∘ setW 3 0x800000), .stg false .b64 false 86 94 0, _, _, _, by rfl, by decide +kernel, by decide +kernel⟩,
   ⟨stLeaf 0x2B, .stl false true .p false 86 94 0, _, _, by rfl, by decide +kernel, fun l h1 h2 =>
     ⟨by revert l; decide +kernel, by revert l; decide +kernel, ⟨0x2B, 2⟩, by revert l; decide +kernel, by decide, by decide⟩⟩,
   ⟨stLeaf 0x39, .ldrRo false .b8 87 94 0, _, _, by rfl, by decide +kernel, fun l h1 h2 =>
     ⟨by revert l; decide +kernel, by revert l; decide +kernel, ⟨0x39, 2⟩, by revert l; decide +kernel, by decide⟩⟩,
   ⟨stW 1 (setV 0 0 1017), .lds false .b64 .sp 86 0 0, _, _, _, by rfl, by decide +kernel, by decide +kernel⟩,
   ⟨stW 1 (setV 0 0 1019), .stl false false .w true 87 0 0, _, _, _, by rfl, by decide +kernel, by decide +kernel⟩⟩

theorem witness_RingPointers :
    (∃ (s : State) (ch : BitVec 3) (d a : Reg), s.inBundle = true ∧ uniCode d = true ∧ uniCode a = true ∧
      (s.chan s.cw.bk ch.toNat).cmds = [] ∧ 108 ≤ d.toNat ∧ d.toNat < 116 ∧ s.inBlock = true ∧ s.cw.isWave = false ∧
      bankTakes (scopedOf s s.cb d.toNat) (s.chan s.cw.bk ch.toNat).wp) ∧
    (∃ (s : State) (ch : BitVec 3) (d a : Reg), s.inBundle = true ∧ uniCode d = true ∧ uniCode a = true ∧
      (s.chan s.cw.bk ch.toNat).cmds ≠ [] ∧ ((s.chan s.cw.bk ch.toNat).wp - s.usrc a).toNat < 2 ^ 31) ∧
    (∃ (s : State) (ch : BitVec 3) (d a : Reg), s.inBundle = true ∧ uniCode d = true ∧ uniCode a = true ∧
      (s.chan s.cw.bk ch.toNat).cmds ≠ [] ∧ 2 ^ 31 ≤ ((s.chan s.cw.bk ch.toNat).wp - s.usrc a).toNat) ∧
    ∃ (s : State) (d : Reg), s.inBundle = true ∧ uniCode d = true ∧ evenCode d = true :=
  ⟨⟨st 1, 7, 115, 92, by decide +kernel, by decide, by decide, by decide +kernel, by decide, by decide, by decide +kernel, by decide +kernel, .inl (by decide +kernel)⟩,
   ⟨(stW 1 (setW 0 0x80000001)).updBlock 0 fun b => { b with chans := [(7, busyChan)] }, 7, 124, 92, by decide +kernel, by decide, by decide, by decide +kernel, by decide +kernel⟩,
   ⟨(stW 1 (setW 0 1)).updBlock 0 fun b => { b with chans := [(7, busyChan)] }, 7, 92, 92, by decide +kernel, by decide, by decide, by decide +kernel, by decide +kernel⟩,
   ⟨st 1, 106, by decide +kernel, by decide, by decide⟩⟩
/-- A matrix job in an entry, and its mark of the last one. -/
def mxJob (e : Nat) : MxJob := ⟨e, 5, [], 0, 0, false, 0, true, false, 0, 0, 0, 0, false⟩
def mxStands (e : Nat) : Job := ⟨e, 1, 0, 0, 0, .mx (mxJob e), [], [], true, none, true⟩
/-- A collective of slot 63 with number 2^24 - 1. -/
def aColl : Coll := ⟨0, 63, 0xFFFFFF, [], 0, 1, 0, 0, 0, 1, 0, false, [], 0, [], 0, 0, false, false, true, 0, 0⟩
/-- A group of two packages, this one first, die 0 alone. -/
def aGroup : GroupCfg := ⟨2, 1, 1, [0, 1], 0, 1, 0, 0⟩
theorem witness_TicketReports :
    (∃ (s : State) (d a : Reg), s.inBundle = true ∧ warpOrZ d = true ∧ evenCode d = true ∧ uniCode a = true ∧
      bitsAt (s.usrc a) 25 7 ≠ s.cq) ∧
    (∃ (s : State) (d a : Reg) (j : Job) (m : MxJob), s.inBundle = true ∧ warpOrZ d = true ∧ evenCode d = true ∧ uniCode a = true ∧
      bitsAt (s.usrc a) 25 7 = s.cq ∧ (s.quad s.cq).mxJobs.find? (fun jm => jm.2.entry == bitsAt (s.usrc a) 0 6 &&
          jm.2.serial % 2 ^ 19 == bitsAt (s.usrc a) 6 19) = some (j, m)) ∧
    (∃ (s : State) (d a : Reg) (x : LastJob), s.inBundle = true ∧ warpOrZ d = true ∧ evenCode d = true ∧ uniCode a = true ∧
      bitsAt (s.usrc a) 25 7 = s.cq ∧ (s.quad s.cq).mxJobs.find? (fun jm => jm.2.entry == bitsAt (s.usrc a) 0 6 &&
          jm.2.serial % 2 ^ 19 == bitsAt (s.usrc a) 6 19) = none ∧
      mFind (s.quad s.cq).lastDone (bitsAt (s.usrc a) 0 6) = some x ∧ x.serial % 2 ^ 19 = bitsAt (s.usrc a) 6 19) ∧
    (∃ (s : State) (d a : Reg) (x : Coll), s.inBundle = true ∧ warpOrZ d = true ∧ evenCode d = true ∧ uniCode a = true ∧
      bitsAt (s.usrc a) 30 2 = dieOf s.cur.core ∧ (s.die (dieOf s.cur.core)).colls.find? (fun x => x.slot == bitsAt (s.usrc a) 24 6 &&
          x.q % 2 ^ 24 == bitsAt (s.usrc a) 0 24) = some x) ∧
    (∃ (s : State) (d a : Reg), s.inBundle = true ∧ warpOrZ d = true ∧ evenCode d = true ∧ uniCode a = true ∧
      bitsAt (s.usrc a) 30 2 ≠ dieOf s.cur.core) ∧
    (∃ (s : State) (a : Reg) (g : GroupCfg), s.inBundle = true ∧ uniCode a = true ∧ (s.usrc a).toNat = 63 ∧
      (slotAt s (dieOf s.cur.core) 63).cfg = some g ∧ g.part = s.cb.part ∧
      ∀ x ∈ (s.die (dieOf s.cur.core)).colls, x.slot ≠ 63) ∧
    ∃ (s : State) (a : Reg), s.inBundle = true ∧ uniCode a = true ∧ (s.usrc a).toNat = 64 :=
  ⟨⟨stW 1 (setW 0 0x02000000), 94, 92, by decide +kernel, by decide, by decide, by decide, by decide +kernel⟩,
   ⟨(stW 1 (setW 0 (64 * 5 + 63))).updQuad 0 fun q => { q with jobs := [mxStands 63] }, 94, 92, mxStands 63, mxJob 63, by decide +kernel, by decide,
     by decide, by decide, by decide +kernel, by decide +kernel⟩,
   ⟨(stW 1 (setW 0 (64 * 5 + 63))).updQuad 0 fun q => { q with lastDone := [(63, ⟨0, 5, true, 0, false⟩)] }, 124, 92,
     ⟨0, 5, true, 0, false⟩, by decide +kernel, by decide, by decide, by decide, by decide +kernel, by decide +kernel, by decide +kernel, by decide +kernel⟩,
   ⟨(stW 1 (setW 0 0x3FFFFFFF)).updDie 0 fun d => { d with colls := [aColl] }, 106, 92, aColl, by decide +kernel, by decide, by decide, by decide, by decide +kernel, by decide +kernel⟩,
   ⟨stW 1 (setW 0 0x40000000), 94, 92, by decide +kernel, by decide, by decide, by decide, by decide +kernel⟩,
   ⟨(stW 1 (setW 0 63)).updDie 0 fun d => { d with slots := [(63, { GroupSlot.init with cfg := some aGroup })] }, 92, aGroup, by decide +kernel,
     by decide, by decide +kernel, by decide +kernel, by decide +kernel, by decide +kernel⟩,
   ⟨stW 1 (setW 0 64), 92, by decide +kernel, by decide, by decide +kernel⟩⟩
/-- The scratchpad holds the words of a record at an offset that w2:w3 name; the windows have 1 KiB each. -/
def stRec (off : Nat) (r : List Word) : State :=
  (stW 1 (atSp (BitVec.ofNat 32 off) 0)).updBlock 0 fun b =>
    { b with sp := memWriteBytes [] off (r.flatMap wordBytes), abSize := 1024, wbSize := 1024, cbSize := 1024 }
theorem record_is (n align off : Nat) (r : List Word) (s : State) (h1 : streamPending s s.cur.wk = false) (h2 : (s.usrc64 94).toNat % align = 0)
    (h3 : (uniformAcc .read n align (s.usrc64 94) s).1.toOption = some (true, localAcc 0 off))
    (h4 : (uniformAcc .read n align (s.usrc64 94) s).2 = s) (h5 : r = leWords (memReadBytes s.cb.sp off n) (n / 4)) :
    recordRead n align 94 r s s := by
  refine ⟨h1, h2, true, localAcc 0 off, s, ?_, fun _ => ⟨rfl, h5⟩, fun h => nomatch h⟩
  refine Prod.ext ?_ h4
  generalize (uniformAcc .read n align (s.usrc64 94) s).1 = a at h3
  cases a with
  | error e => cases h3
  | ok y => exact congrArg Except.ok (Option.some.inj h3)
/-- A task record, a card of INT8 operands, a descriptor of an all-reduce of one element in slot 63. -/
def okTask : List Word := [0xFFFFFFFC, 0x007FFFFF, 0, 0, 0, 0, 0, 0]
def okCard : List Word := [0x00900010, 0, 0, 0x00010001, 0, 1, 0, 0, 0, 0, 0, 0, 0, 0, 0, 0]
def okColl : List Word := [0x003F0020, 0, 1, 0, 0, 0, 0, 0, 0, 0, 0, 0, 0, 0, 0, 0]
/-- The pool, and the entries of the matrix engine, are all taken. -/
def stPool (n : Nat) (r : List Word) : State :=
  (stRec 992 r).updQuad 0 fun q => { q with tasks := (rangeFrom 0 n).map fun e => ⟨e, 0, 1, 0, 0, [], 0, none, none⟩ }
def stEntries (n : Nat) (r : List Word) : State := (stRec 960 r).updQuad 0 fun q => { q with jobs := (rangeFrom 0 n).map mxStands }
def stSlot (r : List Word) : State :=
  (stRec 960 r).updDie 0 fun d => { d with slots := [(63, { GroupSlot.init with cfg := some aGroup })] }
theorem witness_PostsEnter :
    (∃ (s : State) (d : Reg) (r : List Word), s.inBundle = true ∧ warpOrZ d = true ∧ recordRead 32 32 94 r s s ∧ taskCheck s r = none ∧
      (∀ x ∈ (s.quad s.cq).tasks, x.slot ≠ 0)) ∧
    (∃ (s : State) (r : List Word), s.inBundle = true ∧ recordRead 32 32 94 r s s ∧ taskCheck s r = none ∧
      ∀ e < 512, ∃ x ∈ (s.quad s.cq).tasks, x.slot = e) ∧
    (∃ (s : State) (r : List Word) (n : Nat), s.inBundle = true ∧ recordRead 32 32 94 r s s ∧ taskCheck s r = some n) ∧
    (∃ (s : State) (r : List Word), s.inBundle = true ∧ recordRead 64 64 94 r s s ∧ kCheck s s.cb r = none ∧
      (∀ x ∈ (s.quad s.cq).mxJobs, x.2.entry ≠ 0)) ∧
    (∃ (s : State) (r : List Word), s.inBundle = true ∧ recordRead 64 64 94 r s s ∧ kCheck s s.cb r = none ∧
      ∀ e < 64, ∃ x ∈ (s.quad s.cq).mxJobs, x.2.entry = e) ∧
    (∃ (s : State) (r : List Word) (n : Nat), s.inBundle = true ∧ recordRead 64 64 94 r s s ∧ kCheck s s.cb r = some n) ∧
    (∃ (s : State) (r : List Word), s.inBundle = true ∧ recordRead 64 64 94 r s s ∧ xCheck s s.cb r = none ∧
      (slotAt s (dieOf s.cb.core) (xSlot r)).faulted = false ∧ s.cb.core = s.cur.core) ∧
    ∃ (s : State) (r : List Word) (n : Nat), s.inBundle = true ∧ recordRead 64 64 94 r s s ∧ xCheck s s.cb r = some n :=
  ⟨⟨stRec 992 okTask, 107, okTask, by decide +kernel, by decide, record_is 32 32 992 _ _ (by decide +kernel) (by decide +kernel) (by decide +kernel) (by decide +kernel) (by decide +kernel), by decide +kernel, by decide +kernel⟩,
   ⟨stPool 512 okTask, okTask, by decide +kernel, record_is 32 32 992 _ _ (by decide +kernel) (by decide +kernel) (by decide +kernel) (by decide +kernel) (by decide +kernel), by decide +kernel, fun e he =>
     ⟨⟨e, 0, 1, 0, 0, [], 0, none, none⟩, List.mem_map.2 ⟨e, (mem_rangeFrom 512 0 e).2 ⟨Nat.zero_le _, by omega⟩, rfl⟩, rfl⟩⟩,
   ⟨stRec 992 [1, 0, 0, 0, 0, 0, 0, 0], _, 0x40, by decide +kernel, record_is 32 32 992 _ _ (by decide +kernel) (by decide +kernel) (by decide +kernel) (by decide +kernel) rfl, by decide +kernel⟩,
   ⟨stRec 960 okCard, okCard, by decide +kernel, record_is 64 64 960 _ _ (by decide +kernel) (by decide +kernel) (by decide +kernel) (by decide +kernel) (by decide +kernel), by decide +kernel, by decide +kernel⟩,
   ⟨stEntries 64 okCard, okCard, by decide +kernel, record_is 64 64 960 _ _ (by decide +kernel) (by decide +kernel) (by decide +kernel) (by decide +kernel) (by decide +kernel), by decide +kernel, by decide +kernel⟩,
   ⟨stRec 960 (okCard.set 0 0x00900011), okCard.set 0 0x00900011, 0x20, by decide +kernel, record_is 64 64 960 _ _ (by decide +kernel) (by decide +kernel) (by decide +kernel) (by decide +kernel) (by decide +kernel), by decide +kernel⟩,
   ⟨stSlot okColl, okColl, by decide +kernel, record_is 64 64 960 _ _ (by decide +kernel) (by decide +kernel) (by decide +kernel) (by decide +kernel) (by decide +kernel), by decide +kernel, by decide +kernel, by decide +kernel⟩,
   ⟨stRec 960 okColl, okColl, 0x53, by decide +kernel, record_is 64 64 960 _ _ (by decide +kernel) (by decide +kernel) (by decide +kernel) (by decide +kernel) (by decide +kernel), by decide +kernel⟩⟩
/-- A counter of the yard, the block's partition its owner. -/
def stCtr (n : Nat) (v : Word) (f : Warp → Warp) : State :=
  (stW 1 f).updQuad 0 fun q => { q with ctrs := [(n, { Ctr.init with value := v, owner := some 0 })] }
theorem witness_CounterInstructions :
    (∃ (s : State) (a b : Reg) (n : Nat), s.inBundle = true ∧ uniCode a = true ∧ (s.usrc a).toNat = n ∧ n < 2048 ∧
      (s.ctr s.cq n).owner = some s.cb.part ∧ uniCode b = true ∧ streamEmpty s ∧ coreQuiet s ∧ 0 < (s.usrc b).toNat ∧
      (s.usrc b).toNat < 65536 ∧ (s.usrc b).toNat < (s.ctr s.cq n).value.toNat ∧ mFind (s.quad s.cq).sets n = none) ∧
    (∃ (s : State) (a b : Reg) (n : Nat), s.inBundle = true ∧ uniCode a = true ∧ (s.usrc a).toNat = n ∧ n < 2048 ∧
      (s.ctr s.cq n).owner = some s.cb.part ∧ uniCode b = true ∧ 65535 < (s.usrc b).toNat) ∧
    (∃ (s : State) (d a : Reg) (n : Nat), s.inBundle = true ∧ uniCode a = true ∧ (s.usrc a).toNat = n ∧ n < 2048 ∧
      (s.ctr s.cq n).owner = some s.cb.part ∧ warpOrZ d = true ∧ evenCode d = true ∧ (s.ctr s.cq n).value = 0) ∧
    (∃ (s : State) (d a : Reg) (n : Nat), s.inBundle = true ∧ uniCode a = true ∧ (s.usrc a).toNat = n ∧ n < 2048 ∧
      (s.ctr s.cq n).owner = some s.cb.part ∧ warpOrZ d = true ∧ evenCode d = true ∧ (s.ctr s.cq n).value ≠ 0) ∧
    (∃ (s : State) (a : Reg) (n : Nat), s.inBundle = true ∧ uniCode a = true ∧ (s.usrc a).toNat = n ∧ 2048 ≤ n) ∧
    (∃ (s : State) (a : Reg) (n : Nat), s.inBundle = true ∧ uniCode a = true ∧ (s.usrc a).toNat = n ∧ n < 2048 ∧
      (s.ctr s.cq n).owner ≠ some s.cb.part) ∧
    (∃ (s : State) (d a b : Reg), s.inBundle = true ∧ uniCode a = true ∧ uniCode d = true ∧ evenCode a = true ∧ uniCode b = true ∧
      evenCode b = true ∧ streamPending s s.cur.wk = false ∧ (s.usrc d).toNat % 8 = 0 ∧ (s.usrc d).toNat + 8 ≤ s.cb.spSize ∧
      (s.usrc64 a).toNat % 64 = 0 ∧ localAlias (s.usrc64 a) = false ∧ s.wd.queries.length < 1024 ∧ ∀ p ∈ s.cw.parks, p.why.wdWaits = false) ∧
    ∃ (s : State) (d a b : Reg), s.inBundle = true ∧ uniCode a = true ∧ uniCode d = true ∧ evenCode a = true ∧ uniCode b = true ∧
      evenCode b = true ∧ streamPending s s.cur.wk = false ∧ (s.usrc d).toNat % 8 = 0 ∧ (s.usrc d).toNat + 8 ≤ s.cb.spSize ∧
      (s.usrc64 a).toNat % 64 = 0 ∧ localAlias (s.usrc64 a) = false ∧ (1024 ≤ s.wd.queries.length ∨ ∃ p ∈ s.cw.parks, p.why.wdWaits = true) :=
  ⟨⟨stCtr 2047 65536 (setW 0 2047 ∘ setW 1 65535), 92, 93, 2047, by decide +kernel, by decide, by decide +kernel, by decide, by decide +kernel, by decide, empty_of _ (by decide +kernel),
      by unfold coreQuiet; decide +kernel, by decide +kernel, by decide +kernel, by decide +kernel, by decide +kernel⟩,
   ⟨stCtr 2047 1 (setW 0 2047 ∘ setW 1 65536), 92, 93, 2047, by decide +kernel, by decide, by decide +kernel, by decide, by decide +kernel, by decide, by decide +kernel⟩,
   ⟨stCtr 0 0 id, 106, 124, 0, by decide +kernel, by decide, by decide +kernel, by decide, by decide +kernel, by decide, by decide, by decide +kernel⟩,
   ⟨stCtr 0 1 id, 124, 124, 0, by decide +kernel, by decide, by decide +kernel, by decide, by decide +kernel, by decide, by decide, by decide +kernel⟩,
   ⟨stW 1 (setW 0 2048), 92, 2048, by decide +kernel, by decide, by decide +kernel, by decide⟩,
   ⟨stW 1 (setW 0 2047), 92, 2047, by decide +kernel, by decide, by decide +kernel, by decide, by decide +kernel⟩,
   ⟨stW 1 (atVa 0x1000 ∘ setW 0 1016), 92, 94, 124, by decide +kernel, by decide, by decide, by decide, by decide, by decide, by decide +kernel, by decide +kernel, by decide +kernel, by decide +kernel, by decide +kernel, by decide +kernel, by decide +kernel⟩,
   ⟨(stW 1 (atVa 0x1000)).setWd { (st 1).wd with queries := List.replicate 1024 ⟨0, 1, 0, 0, 0, 0, none, false, .start⟩ }, 124, 94, 94, by decide +kernel,
     by decide, by decide, by decide, by decide, by decide, by decide +kernel, by decide +kernel, by decide +kernel, by decide +kernel, by decide +kernel, .inl (by decide +kernel)⟩⟩

/-- Writes to a byte, and a store of it in the stream. -/
def aWrite (pa : Nat) (v : Byte) : PWrite := ⟨pa, v, 9, PageAttr.none, none⟩
def aStore (id : Nat) : MemOp := { MemOp.blank id 9 with ws := [aWrite 0x1000 7, aWrite 0x1001 8] }
/-- Two stores on their way to a home; a line of the cache. -/
def aFlight (fid : Nat) : Flight := ⟨fid, 0, 0, [aWrite 0x1000 7, aWrite 0x13FF 8], false⟩
def stFlights : State := (st 1).updMem fun m => { m with flights := [aFlight 4, aFlight 5] }
def aPeerFlight : Flight := ⟨4, 0, 2 ^ 52 + 3, [⟨0x1000, 7, 9, PageAttr.none, some 3⟩], false⟩
def stPeerFlight : State := (st 1).updMem fun m => { m with flights := [aPeerFlight] }
def aLine (way slot : Nat) : Line := ⟨[(0, 1), (1023, 2)], 0, none, false, 0, way, slot, none⟩
/-- Two lines of the cache have one slice and one set, whatever the package's two functions are. -/
theorem two_lines : ∃ a b : Nat, a ≠ b ∧ sameSet a b = true := by
  obtain ⟨a, b, hne, h⟩ := Finite.exists_ne_map_eq_of_infinite (fun n : Nat =>
    ((⟨Config.homeOf n, Nat.mod_lt _ (by decide)⟩, ⟨Config.setOf n, Nat.mod_lt _ (by decide)⟩) : Fin 192 × Fin 512))
  have h1 : Config.homeOf a = Config.homeOf b := congrArg (fun x => x.1.val) h
  have h2 : Config.setOf a = Config.setOf b := congrArg (fun x => x.2.val) h
  exact ⟨a, b, hne, by simp [sameSet, h1, h2]⟩
/-- One of them leaves for the other. -/
theorem evict_one : ∃ (s : State) (line victim : Nat) (l v : Line), mFind s.mem.lines line = some l ∧ mFind s.mem.lines victim = some v ∧
      line ≠ victim ∧ sameSet victim line = true ∧ (mGet s.mem.ways 0xFFFF l.way).getLsbD v.slot = true ∧
      ∀ x ∈ s.mem.lines, x.1 ≠ line → sameSet x.1 line = true → (mGet s.mem.ways 0xFFFF l.way).getLsbD x.2.slot = true →
        polRank v.pol ≤ polRank x.2.pol := by
  obtain ⟨a, b, hne, h⟩ := two_lines
  refine ⟨(st 1).updMem fun m => { m with lines := [(b, aLine 0 15), (a, aLine 0 0)] }, b, a, aLine 0 15, aLine 0 0, ?_, ?_, Ne.symm hne,
    h, ?_, ?_⟩
  · show mFind [(b, aLine 0 15), (a, aLine 0 0)] b = _
    simp [mFind]
  · show mFind [(b, aLine 0 15), (a, aLine 0 0)] a = _
    simp [mFind, hne.symm]
  · show (mGet (st 1).mem.ways 0xFFFF 0).getLsbD 0 = true
    decide +kernel
  · intro x hx _ _ _
    have hx : x ∈ [(b, aLine 0 15), (a, aLine 0 0)] := hx
    simp only [List.mem_cons, List.not_mem_nil, or_false] at hx
    rcases hx with rfl | rfl <;> exact Nat.le_refl _
theorem witness_OrderingSteps :
    (∃ (s : State) (wk core : Nat) (o : MemOp) (rest : List MemOp), (mFind s.warps wk).isSome = true ∧
      core = (s.block (s.warp wk).bk).core ∧ o.fence = false ∧ o.gate = none ∧
      o.acq = none ∧ o.roinv = false ∧ o.lws = [] ∧ o.load = none ∧ o.nt = false ∧ o.isLocal = false ∧
      (s.warp wk).memq = o :: rest ∧ o.atomAhead wk s = false ∧ hbHeld s wk o.wid = false ∧
      (s.coreAt core).full (o.ws.map fun w => w.key / 128).dedup.length = false) ∧
    (∃ (s : State) (wk : Nat) (p o : MemOp) (rest : List MemOp), (mFind s.warps wk).isSome = true ∧ o.fence = false ∧ o.gate = none ∧
      o.acq = none ∧ o.roinv = false ∧ o.lws = [] ∧ o.load = none ∧ o.nt = false ∧ o.isLocal = false ∧
      (s.warp wk).memq = p :: o :: rest ∧ p.id ≠ o.id ∧ p.load = none) ∧
    (∃ (s : State) (f : Flight), s.mem.flights.find? (fun g => g.fid == f.fid) = some f ∧ flightFirst s f = true ∧
      f.peer = none ∧ f.ws ≠ [] ∧ ∀ w ∈ f.ws, w.peer = none ∧ s.mem.superseded w.pa w.wid = false) ∧
    (∃ (s : State) (f : Flight) (p : Nat), s.mem.flights.find? (fun g => g.fid == f.fid) = some f ∧ flightFirst s f = true ∧
      f.peer = some p ∧ (∀ x ∈ s.host.posted, x.1 ≠ f.fid) ∧ s.mem.cutOff p = false) ∧
    (∃ (s : State) (f : Flight) (p : Nat), s.mem.flights.find? (fun g => g.fid == f.fid) = some f ∧ flightFirst s f = true ∧
      f.peer = some p ∧ (∀ x ∈ s.host.posted, x.1 ≠ f.fid) ∧ s.mem.cutOff p = true) ∧
    (∃ (s : State) (line victim : Nat) (l v : Line), mFind s.mem.lines line = some l ∧ mFind s.mem.lines victim = some v ∧
      line ≠ victim ∧ sameSet victim line = true ∧ (mGet s.mem.ways 0xFFFF l.way).getLsbD v.slot = true ∧
      ∀ x ∈ s.mem.lines, x.1 ≠ line → sameSet x.1 line = true → (mGet s.mem.ways 0xFFFF l.way).getLsbD x.2.slot = true →
        polRank v.pol ≤ polRank x.2.pol) ∧
    ∃ (s : State) (line victim : Nat) (l : Line), mFind s.mem.lines line = some l ∧
      ∀ x ∈ s.mem.lines, x.1 = victim → (mGet s.mem.ways 0xFFFF l.way).getLsbD x.2.slot = false :=
  ⟨⟨stW 1 fun w => { w with memq := [aStore 3, aStore 4] }, 0, 0, aStore 3, _, by decide +kernel, by decide +kernel, rfl, rfl, rfl, rfl, rfl, rfl, rfl, rfl, rfl, by decide +kernel, by decide +kernel, by decide +kernel⟩,
   ⟨stW 1 fun w => { w with memq := [aStore 3, aStore 4] }, 0, aStore 3, aStore 4, [], by decide +kernel, rfl, rfl, rfl, rfl, rfl, rfl, rfl, rfl, rfl, by decide, rfl⟩,
   ⟨stFlights, aFlight 4, by decide +kernel, by decide +kernel, by decide +kernel, by decide, by decide +kernel⟩,
   ⟨stPeerFlight, aPeerFlight, 3, by decide +kernel, by decide +kernel, by decide +kernel, by decide +kernel, by decide +kernel⟩,
   ⟨stPeerFlight.updMem fun m => { m with peers := [(3, { Peer.init with isolated := true })] }, aPeerFlight, 3, by decide +kernel, by decide +kernel, by decide +kernel, by decide +kernel, by decide +kernel⟩,
   evict_one,
   ⟨(st 1).updMem fun m => { m with lines := [(4, aLine 0 0), (5, aLine 1 8)], ways := [(0, 0x00FF), (1, 0xFF00)] }, 4, 5, aLine 0 0, rfl, by decide +kernel⟩⟩
/-- An atomic of a warp that has reached its turn. -/
def anAtom : AtomReq := ⟨6, 0, 0, ⟨31, 0x1008, 0x1008, PageAttr.none, none, false⟩, .cas, true, .plain, 0, 5, some 2, 8, 9, false, 2⟩
def stAtom : State := (st 1).updMem fun m => { m with atoms := [anAtom] }
theorem witness_AtomicsAtTheHome :
    ∃ (s : State) (a : AtomReq) (ms : List AtomReq) (n : Nat), s.mem.atoms.find? (fun x => x.id == a.id) = some a ∧
      atomReady s a = true ∧ (a.out = none ∨ atomFault a s = none) ∧ a.loc = false ∧ a.use ≠ .quantum ∧ a.acc.peer = none ∧
      n = atomSize a.b64 ∧ a.acc.pa % n = 0 ∧ ms = commMates a s ∧ (∀ x ∈ a :: ms, (s.coreAt x.core).pool = []) ∧
      s.mem.flights = [] ∧ ∀ l, mFind s.mem.lines (a.acc.pa / 1024) = some l → l.use = none :=
  ⟨stAtom, anAtom, [], 8, by decide +kernel, by decide +kernel, .inr (by decide +kernel), rfl, by decide, rfl, rfl, rfl, by decide +kernel, by decide +kernel, rfl,
    fun l h => by rw [show stAtom.mem.lines = [] from rfl] at h; cases h⟩
/-- A result of one lane, due into a register, or to be compared. -/
def anOut : Out := ⟨2, 1, false, 87, false, [⟨.lane 87 0, 5⟩], [], false, 0, none, none, false, false, none, 0, false, 0, Ending.plain⟩
def aCompare : Out := ⟨2, 1, true, 107, false, [⟨.warp 15, 5⟩], [(0, 5)], true, 0, none, none, false, false, none, 0, false, 0, Ending.plain⟩
def aSplit : Out := { aCompare with mask := 3, vals := [(0, 5), (1, 6)], writes := [] }
def stOut : State := stW 1 fun w => { w with outs := [anOut] }
def stCompare : State := stW 1 fun w => { w with outs := [aCompare], parks := [⟨1, 0x10000, .compare 2⟩] }
/-- A write on its way to a cluster register. -/
def aBank (red : Option RedKind) : BankWrite := ⟨3, 0, 1, 116, false, red, [(0, 5)], 0, if red.isSome then Ending.commit else Ending.plain, 0, 1⟩
def stBank (red : Option RedKind) (r : ScopedReg) : State :=
  (((stW 1 fun w => { w with parks := [⟨1, 0x10000, .bank 3⟩] }).updMem fun m => { m with bankq := [aBank red] }).updCluster 0
    fun c => { c with cregs := [(0, r)] })
theorem witness_ReturnsAndArrivals :
    (∃ (s : State) (wk id : Nat) (late : Bool) (o : Out), readyOut s wk id = some o ∧ late = true ∧ o.resamples = false ∧ (mFind s.warps wk).isSome = true ∧
      o.agree = false ∧ (s.warp wk).lanes.length = 32 ∧ (o.writes.map (·.dest)).Nodup ∧ o.writes ≠ [] ∧
      ∀ x ∈ o.writes, destExists x.dest = true ∧ ∀ p l, x.dest = .pred p l → x.val = 0 ∨ x.val = 1) ∧
    (∃ (s : State) (wk id : Nat) (o : Out) (p : Park) (u : State) (f : Nat → DWord), readyOut s wk id = some o ∧
      (mFind s.warps wk).isSome = true ∧ o.agree = true ∧ (s.warp wk).parks.find? (fun p => p.why == .compare o.id) = some p ∧
      u = resumed wk p (s.updWarp wk fun w => { w with outs := w.outs.filter fun x => x.id != o.id }) ∧
      u.inBundle = true ∧ o.vals = u.perLane f ∧ (o.pair = true → o.dest.toNat % 2 = 0) ∧ 88 ≤ o.dest.toNat ∧ o.dest.toNat < 108 ∧
      takesNow u o.dest o.pair f ∧ o.fin = Ending.plain ∧ (o.writes.map (·.dest)).Nodup ∧
      ∀ x ∈ o.writes, destExists x.dest = true ∧ ∀ p l, x.dest ≠ .pred p l) ∧
    (∃ (s : State) (wk id : Nat) (o : Out) (p : Park) (u : State) (f : Nat → DWord) (l k : Nat), readyOut s wk id = some o ∧
      (mFind s.warps wk).isSome = true ∧ o.agree = true ∧ (s.warp wk).parks.find? (fun p => p.why == .compare o.id) = some p ∧
      u = resumed wk p (s.updWarp wk fun w => { w with outs := w.outs.filter fun x => x.id != o.id }) ∧
      u.inBundle = true ∧ o.vals = u.perLane f ∧ (o.pair = true → o.dest.toNat % 2 = 0) ∧ 92 ≤ o.dest.toNat ∧ o.dest.toNat < 108 ∧
      l < 32 ∧ k < 32 ∧ u.cur.mask.getLsbD l = true ∧ u.cur.mask.getLsbD k = true ∧ f l ≠ f k) ∧
    (∃ (s : State) (x : BankWrite) (p : Park) (u : State), s.mem.bankq.find? (fun y => y.id == x.id) = some x ∧
      bankFirst s x = true ∧ (s.warp x.wk).parks.find? (fun p => p.why == .bank x.id) = some p ∧
      u = resumed x.wk p (s.updMem fun m => { m with bankq := m.bankq.filter fun y => y.id != x.id }) ∧ u.inBundle = true ∧
      x.red = none ∧ x.pair = false ∧ x.fin = Ending.plain ∧ bankTakes (scopedOf u u.cb x.code.toNat) ((x.vals.headD (0, 0)).2.setWidth 32)) ∧
    (∃ (s : State) (x : BankWrite) (p : Park) (u : State), s.mem.bankq.find? (fun y => y.id == x.id) = some x ∧
      bankFirst s x = true ∧ (s.warp x.wk).parks.find? (fun p => p.why == .bank x.id) = some p ∧
      u = resumed x.wk p (s.updMem fun m => { m with bankq := m.bankq.filter fun y => y.id != x.id }) ∧ u.inBundle = true ∧
      x.red = none ∧ x.pair = false ∧ (scopedOf u u.cb x.code.toNat).mode = .agreed ∧
      (scopedOf u u.cb x.code.toNat).back ≠ (x.vals.headD (0, 0)).2.setWidth 32) ∧
    (∃ (s : State) (x : BankWrite) (p : Park) (u : State) (k : RedKind) (r : ScopedReg), s.mem.bankq.find? (fun y => y.id == x.id) = some x ∧
      bankFirst s x = true ∧ (s.warp x.wk).parks.find? (fun p => p.why == .bank x.id) = some p ∧
      u = resumed x.wk p (s.updMem fun m => { m with bankq := m.bankq.filter fun y => y.id != x.id }) ∧ u.inBundle = true ∧
      x.red = some k ∧ x.fin = Ending.commit ∧ bankReduce (scopedOf u u.cb x.code.toNat) k (x.vals.map fun v => v.2.setWidth 32) = .ok r) ∧
    (∃ (s : State) (x : XStore), s.mem.xq.find? (fun y => y.id == x.id) = some x ∧ xstoreFirst s x = true ∧
      (mFind s.blocks x.toBk).isSome = true ∧ x.slot = 0) ∧
    ∃ (s : State) (x : XStore), s.mem.xq.find? (fun y => y.id == x.id) = some x ∧ xstoreFirst s x = true ∧
      (mFind s.blocks x.toBk).isSome = true ∧ x.slot = 63 :=
  ⟨⟨stOut, 0, 2, true, anOut, by decide +kernel, rfl, by decide +kernel, by decide +kernel, rfl, by decide +kernel, by decide +kernel, by decide, fun x h => by
      rw [List.mem_singleton.1 h]; exact ⟨by decide, fun p l h => nomatch h⟩⟩,
   ⟨stCompare, 0, 2, aCompare, ⟨1, 0x10000, .compare 2⟩, _, fun _ => 5, by decide +kernel, by decide +kernel, rfl, by decide +kernel, rfl, by decide +kernel, by decide +kernel, by decide, by decide, by decide,
     .inr (.inr (.inl ⟨by decide, by decide, fun _ _ _ _ _ _ => rfl⟩)), rfl, by decide, fun x h => by
      rw [List.mem_singleton.1 h]; exact ⟨by decide, fun p l h => nomatch h⟩⟩,
   ⟨stW 3 fun w => { w with outs := [aSplit], parks := [⟨3, 0x10000, .compare 2⟩] }, 0, 2, aSplit, ⟨3, 0x10000, .compare 2⟩, _, fun l => if l = 0 then 5 else 6, 0, 1,
     by decide +kernel, by decide +kernel, rfl, by decide +kernel, rfl, by decide +kernel, by decide +kernel, by decide, by decide, by decide, by decide, by decide, by decide +kernel, by decide +kernel, by decide⟩,
   ⟨stBank none (ScopedReg.init 0), aBank none, ⟨1, 0x10000, .bank 3⟩, _, by decide +kernel, by decide +kernel, by decide +kernel, rfl, by decide +kernel, rfl, rfl, rfl, .inl (by decide +kernel)⟩,
   ⟨stBank none { ScopedReg.init 0 with mode := .agreed, back := 6 }, aBank none, ⟨1, 0x10000, .bank 3⟩, _, by decide +kernel, by decide +kernel, by decide +kernel, rfl, by decide +kernel, rfl, rfl, by decide +kernel, by decide +kernel⟩,
   ⟨stBank (some .or) { ScopedReg.init 0 with mode := .red .or, back := 6 }, aBank (some .or), ⟨1, 0x10000, .bank 3⟩, _, .or, _, by decide +kernel, by decide +kernel, by decide +kernel, rfl, by decide +kernel,
     rfl, rfl, rfl⟩,
   ⟨(st 1).updMem fun m => { m with xq := [⟨1, 0, 0, 1, 0, 65535, [7], 0⟩] }, ⟨1, 0, 0, 1, 0, 65535, [7], 0⟩, by decide +kernel, by decide +kernel, by decide +kernel, rfl⟩,
   ⟨(st 1).updMem fun m => { m with xq := [⟨1, 0, 0, 1, 0, 65535, [7], 63⟩] }, ⟨1, 0, 0, 1, 0, 65535, [7], 63⟩, by decide +kernel, by decide +kernel, by decide +kernel, rfl⟩⟩
/-- All lanes of the warp wait at a barrier; one lane waits in a WAITM; half the lanes are vacant and ask for tasks. -/
def stBar (cluster : Bool) : State := stW 1 fun w => { w with parks := [⟨0xFFFFFFFF, 0x10000, .bar cluster⟩] }
def stWaitm (v : Word) : State := stW 1 fun w => { w with parks := [⟨1, 0x10000, .waitm true (localAcc 0 1020) .eq v⟩] }
def aTask (slot : Nat) : Task := ⟨slot, 7, 1, 0, 0, [0x20000, 0, 0, 1, 2, 3, 4, 5], 0, some (slot, 0), none⟩
def stRefill : State := (stW 1 fun w => { w with lanes := List.replicate 31 (w.lane 0) ++ [{ w.lane 0 with st := .vacant }],
                                                 refill := some ⟨0x20000, 32, 63, 0⟩ }).updQuad 0
  fun q => { q with tasks := [aTask 511, aTask 2] }
theorem witness_BarriersAndRefills :
    (∃ (s : State) (bk : Nat) (cluster : Bool), (barrierBlocks s bk cluster).Nodup ∧ barrierReady s bk cluster = true ∧
      (∀ k ∈ barrierBlocks s bk cluster, (mFind s.blocks k).isSome = true) ∧ (s.warps.map (·.1)).Nodup ∧
      cluster = true ∧ s.mem.flights = [] ∧ (∀ k, (s.coreAt k).pool = []) ∧
      ∀ kw ∈ barrierWarps s (barrierBlocks s bk cluster), streamWids s kw.1 = []) ∧
    (∃ (s : State) (bk : Nat), (barrierBlocks s bk false).Nodup ∧ barrierReady s bk false = true ∧
      (∀ k ∈ barrierBlocks s bk false, (mFind s.blocks k).isSome = true) ∧ (s.warps.map (·.1)).Nodup) ∧
    (∃ (s : State) (wk g off : Nat) (p : Park) (c : Cond) (v : Word), (s.warp wk).parks[g]? = some p ∧
      p.why = .waitm true (localAcc 0 off) c v ∧ betweenTurns s (s.block (s.warp wk).bk).core (s.block (s.warp wk).bk).part = true ∧
      off % 4 = 0 ∧ off < 2 ^ 32 ∧ off + 4 ≤ (s.block (s.warp wk).bk).spSize ∧ sramBad s (s.warp wk).bk .sp off 4 = false ∧
      hbHeld s wk s.mem.nextWid = false ∧
      (mFind s.warps wk).isSome = true ∧ (resumed wk p s).inBundle = true ∧
      condHolds c (memRead32 (s.block (s.warp wk).bk).sp off) v = true) ∧
    (∃ (s : State) (wk g off : Nat) (p : Park) (c : Cond) (v : Word), (s.warp wk).parks[g]? = some p ∧
      p.why = .waitm true (localAcc 0 off) c v ∧ betweenTurns s (s.block (s.warp wk).bk).core (s.block (s.warp wk).bk).part = true ∧
      off % 4 = 0 ∧ off < 2 ^ 32 ∧ off + 4 ≤ (s.block (s.warp wk).bk).spSize ∧ sramBad s (s.warp wk).bk .sp off 4 = false ∧
      hbHeld s wk s.mem.nextWid = false ∧
      (mFind s.warps wk).isSome = true ∧ (resumed wk p s).inBundle = true ∧
      condHolds c (memRead32 (s.block (s.warp wk).bk).sp off) v = false) ∧
    ∃ (s : State) (wk q : Nat) (r : Refill), (mFind s.warps wk).isSome = true ∧ (s.warp wk).lanes.length = 32 ∧
      (s.warp wk).retiredW = false ∧ (s.warp wk).refill = some r ∧ q = quadOf (s.block (s.warp wk).bk).core ∧
      refillFirst s q wk r = true ∧ ((readyOrder s q).filter (refillTakes s wk r)).take r.cap ≠ [] ∧
      (∀ x ∈ ((readyOrder s q).filter (refillTakes s wk r)).take r.cap, x.bk = (s.warp wk).bk) ∧
      (rangeFrom 0 32).filter (fun l => ((s.warp wk).lane l).st == .vacant) ≠ [] :=
  ⟨⟨stBar true, 0, true, by decide +kernel, by decide +kernel, by decide +kernel, by decide +kernel, rfl, rfl, fun k => (by
      show (mGet [(0, Core.init)] Core.init k).pool = []
      rw [mGet, mFind]; split <;> rfl), by decide +kernel⟩,
   ⟨stBar false, 0, by decide +kernel, by decide +kernel, by decide +kernel, by decide +kernel⟩,
   ⟨stWaitm 0, 0, 0, 1020, _, .eq, 0, rfl, rfl, by decide +kernel, by decide, by decide, by decide +kernel, by decide +kernel, by decide +kernel, by decide +kernel, by decide +kernel, by decide +kernel⟩,
   ⟨stWaitm 1, 0, 0, 1020, _, .eq, 1, rfl, rfl, by decide +kernel, by decide, by decide, by decide +kernel, by decide +kernel, by decide +kernel, by decide +kernel, by decide +kernel, by decide +kernel⟩,
   ⟨stRefill, 0, 0, ⟨0x20000, 32, 63, 0⟩, by decide +kernel, by decide +kernel, by decide +kernel, rfl, by decide +kernel, by decide +kernel, by decide +kernel, by decide +kernel, by decide +kernel⟩⟩
/-- A record of lanes of the one warp stands first in the queue: some of its lanes parked at a fault. -/
def aRecord (lanes : Word) : FaultRec := ⟨0x08, 5, 0, 1, 0, 0, 0, 0, lanes, 0x1234, 9, .lanes 0, false⟩
def stParked (task : Bool) (lanes : Word) : State :=
  (stW lanes fun w => { w with lanes := (List.replicate 31 { w.lane 0 with st := .parkedFault, isTask := task }) ++ [w.lane 0] }).setFaults
    { pend := [], queue := [aRecord lanes, { aRecord 0x80000000 with seq := 10 }], seq := 11 }
/-- The grid has a trap handler at 0x20000. -/
def withHandler (s : State) : State := s.updGrid 1 fun g => { g with record := g.record.set 8 0x20000 }
/-- The core of the placed machine holds no byte. -/
theorem no_pool (k : Nat) : (mGet [(0, Core.init)] Core.init k).pool = [] := by rw [mGet, mFind]; split <;> rfl
/-- The placed grid can be killed: it has one block, and nothing on its way. -/
theorem kill_quiet (g : Grid) (c : Cur) (w : Warp) (f : Faults) (h : g.gid ≠ 0 ∧ g.done = false ∧ g.killed = none)
    (hw : w.memq = [] ∧ w.ntFids = [] ∧ ∀ x ∈ w.lanes, x.isTask = false) :
    killQuiet (((((st 1).setCur c).setWarps [(0, w)]).setFaults f).updGrid 1 fun _ => g) 1 0 := by
  refine ⟨⟨g, rfl, h⟩, ⟨{ placeBlock with gid := 1 }, rfl, rfl, (fun _ h => nomatch h), fun _ h => nomatch h⟩, by show [0].Nodup; decide, ?_, no_pool, rfl,
    fun _ h => (nomatch h), fun _ h => (nomatch h)⟩
  intro kw hm _
  rw [List.mem_singleton.1 hm]
  exact ⟨hw.1, hw.2.1, hw.2.2, fun _ h => nomatch h⟩
theorem witness_FaultDispositions :
    (∃ (s : State) (r : FaultRec) (rest : List FaultRec), s.faults.pend = r :: rest ∧ s.faults.queue.length < 4096) ∧
    (∃ (s : State) (r : FaultRec) (rest : List FaultRec), s.faults.pend = r :: rest ∧ 4096 ≤ s.faults.queue.length) ∧
    (∃ (s : State) (seq wk : Nat) (r : FaultRec), dueRecord s seq = some r ∧ r.ref = .lanes wk ∧
      (mFind s.warps wk).isSome = true ∧ (s.warp wk).lanes.length = 32 ∧ r.waiting = false ∧ r.origin ≠ 5 ∧
      handlerAllowed s r = true ∧ (s.warp wk).privileged = false ∧ ∃ l < 32, r.lanes.getLsbD l = true ∧ ((s.warp wk).lane l).st = .parkedFault) ∧
    (∃ (s : State) (seq wk : Nat) (r : FaultRec), dueRecord s seq = some r ∧ r.ref = .lanes wk ∧
      (mFind s.warps wk).isSome = true ∧ (s.warp wk).lanes.length = 32 ∧ handlerAllowed s r = true ∧ (s.warp wk).privileged = true) ∧
    (∃ (s : State) (seq wk : Nat) (r : FaultRec), dueRecord s seq = some r ∧ r.ref = .lanes wk ∧
      (mFind s.warps wk).isSome = true ∧ (s.warp wk).lanes.length = 32 ∧
      r.waiting = false ∧ dropAllowed s r = true ∧ (∀ l < 32, ((s.warp wk).lane l).joinEn = false) ∧ streamWids s wk = [] ∧
      (∀ k, (s.coreAt k).pool = []) ∧ s.mem.flights = [] ∧
      ∃ l < 32, r.lanes.getLsbD l = false ∧ ((s.warp wk).lane l).st = .active) ∧
    ∃ (s : State) (seq bk : Nat) (r : FaultRec), dueRecord s seq = some r ∧ r.waiting = false ∧ killQuiet s r.gid bk :=
  ⟨⟨(st 1).setFaults ⟨[aRecord 1], List.replicate 4095 (aRecord 1), 0xFFFFFFFF⟩, aRecord 1, [], rfl, by decide +kernel⟩,
   ⟨(st 1).setFaults ⟨[aRecord 1], List.replicate 4096 (aRecord 1), 0⟩, aRecord 1, [], rfl, by decide +kernel⟩,
   ⟨withHandler (stParked false 3), 9, 0, aRecord 3, by decide +kernel, rfl, by decide +kernel, by decide +kernel, rfl, by decide, by decide +kernel, by decide +kernel, 1, by decide +kernel⟩,
   ⟨withHandler ((stParked false 3).updWarp 0 fun w => { w with lanes := w.lanes.set 31 { w.lane 31 with handler := true } }), 9, 0, aRecord 3,
     by decide +kernel, rfl, by decide +kernel, by decide +kernel, by decide +kernel, by decide +kernel⟩,
   ⟨stParked true 3, 9, 0, aRecord 3, by decide +kernel, rfl, by decide +kernel, by decide +kernel, rfl, by decide +kernel, by decide +kernel,
     by decide +kernel, no_pool, rfl, 31, by decide +kernel⟩,
   ⟨((((st 1).setCur Cur.none).setWarps [(0, placeWarp)]).setFaults { pend := [], queue := [aRecord 1], seq := 10 }).updGrid 1 fun _ => placeGrid, 9, 0, aRecord 1,
     by decide +kernel, rfl, kill_quiet _ _ _ _ (by decide +kernel) (by decide +kernel)⟩⟩
/-- The machine with nothing executing, its block stopped for a pre-emption. -/
def stStop (x : StopSt) : State := ((stB 1 fun b => { b with stop := x }).setCur Cur.none).setWarps [(0, placeWarp)]
/-- A saved context of block 1: one warp whose lanes restart, of one row, its area at 0x40000000. -/
def aSaved : SavedBlock := ⟨1, 0x40000000, 0, [], [], []⟩
def stSaved : State :=
  ((st 1).updMem fun m => { m with hbm := m.hbm ++ [(0x4000001C, 1), (0x4000001E, 1), (0x40000041, 0x20), (0x40000071, 0x21),
    (0x4000008C, 1), (0x40001C8C, 1), (0x40002000, 7)] }).updLaunch fun l => { l with saved := [(4, ⟨4, 1, 1, 0, 0, [aSaved], []⟩)] }
theorem witness_PreemptionAndRestore :
    (∃ (s : State) (bk : Nat) (areas : List Nat), canPreempt s bk areas = true ∧ (clusterBlocks s bk).Nodup ∧
      ∀ k ∈ clusterBlocks s bk, (mFind s.blocks k).isSome = true) ∧
    (∃ (s : State) (bk a p c0 c1 : Nat), (mFind s.blocks bk).isSome = true ∧ (s.block bk).stop = .asked a p c0 c1 ∧
      c0 + 65536 ≤ (s.schedAt (s.block bk).core 0).cycle.toNat) ∧
    (∃ (s : State) (bk a p c0 c1 : Nat), (mFind s.blocks bk).isSome = true ∧ (s.block bk).stop = .asked a p c0 c1 ∧
      (s.schedAt (s.block bk).core 0).cycle.toNat < c0 + 65536 ∧ (s.schedAt (s.block bk).core 1).cycle.toNat < c1 + 65536) ∧
    (∃ (s : State) (bk : Nat), bk ∈ clusterBlocks s bk ∧ ∀ k ∈ clusterBlocks s bk, blockQuiet s k = true) ∧
    (∃ (s : State) (id : Nat) (sv : Saved) (cores : Option (List Nat)), mFind s.launch.saved id = some sv ∧ sv.id = id ∧
      s.launch.restores = [] ∧ restorePlace s sv cores = none) ∧
    ∃ (s : State) (id : Nat) (sv : Saved) (cores : Option (List Nat)) (sb : SavedBlock) (core : Nat),
      mFind s.launch.saved id = some sv ∧ sv.id = id ∧ s.launch.restores = [] ∧ sv.blocks = [sb] ∧ sb.rank = 0 ∧
      restorePlace s sv cores = some [core] ∧ mFind (s.quad sv.quad).areas sv.part = none ∧ (s.grid sv.gid).det = false ∧
      plainArea s sb ∧ (∀ i < 32, mFind s.warps (warpKey sb.bk i) = none) ∧ warpsFrom s sb ≠ [] ∧
      ∀ kw ∈ warpsFrom s sb, ∃ l < 32, (kw.2.lane l).st = .active :=
  ⟨⟨stStop .run, 0, [0x40000000], by decide +kernel, by decide +kernel, by decide +kernel⟩,
   ⟨(stStop (.asked 0 0 1 1)).updCore 0 fun c => { c with scheds := [(0, { Sched.init with cycle := 65537 })] }, 0, 0, 0, 1, 1, by decide +kernel, by decide +kernel, by decide +kernel⟩,
   ⟨(stStop (.asked 0 0 1 1)).updCore 0 fun c => { c with scheds := [(0, { Sched.init with cycle := 65536 })] }, 0, 0, 0, 1, 1, by decide +kernel, by decide +kernel, by decide +kernel, by decide +kernel⟩,
   ⟨stStop (.stopped 0x40000000 0), 0, by decide +kernel, by decide +kernel⟩,
   ⟨stSaved, 4, _, some [512], rfl, rfl, rfl, by decide +kernel⟩,
   ⟨stSaved, 4, _, some [511], _, 511, rfl, rfl, rfl, rfl, rfl, by decide +kernel, by decide +kernel, by decide +kernel, by unfold plainArea; decide +kernel, by decide +kernel,
     by decide +kernel, by decide +kernel⟩⟩
theorem witness_LaunchUnitLimits :
    (∃ (s : State) (gid bk : Nat), dstallDue s (s.grid gid) = true ∧ killQuiet s gid bk) ∧
    (∃ (s : State) (gid bk : Nat), (s.grid gid).gid ≠ 0 ∧ watchdogDue (s.grid gid) = true ∧ killQuiet s gid bk) ∧
    ∃ (s : State) (gid : Nat), (mFind s.launch.grids gid).isSome = true :=
  ⟨⟨((((st 1).setCur Cur.none).setWarps [(0, { placeWarp with parks := [⟨0xFFFFFFFF, 0x10000, .waitm true (localAcc 0 0) .eq 1⟩] })]).setFaults (st 1).faults).updGrid 1 fun _ =>
       { placeGrid with dstall := 65536, record := [0x10000, 0, 0, 0, 0x00010002, 0x2C000001, 1, 0, 0, 0, 0, 0, 0, 0, 0, 0] }, 1, 0,
     by decide +kernel, kill_quiet _ _ _ _ (by decide +kernel) (by decide +kernel)⟩,
   ⟨((((st 1).setCur Cur.none).setWarps [(0, placeWarp)]).setFaults (st 1).faults).updGrid 1 fun _ =>
       { placeGrid with record := [0x10000, 0, 0, 0, 0x00010001, 0x2C000001, 1, 0, 0, 0, 1, 0, 0, 0, 0, 0] }, 1, 0,
     by decide +kernel, by decide +kernel, kill_quiet _ _ _ _ (by decide +kernel) (by decide +kernel)⟩,
   ⟨st 1, 1, by decide +kernel⟩⟩
/-- A launch record can run: the placed grid's. The launch unit has grid 2 at the head of queue 15. -/
def stLaunch (g : Grid) : State :=
  (((st 1).setRel { (st 1).rel with stage := 6 }).setHost { (st 1).host with chanOpen := true }).updLaunch fun l =>
    { l with grids := [(2, g)], queues := [(15, [2])] }
def aGrid : Grid := { placeGrid with gid := 2, queue := 15, next := 0 }
theorem witness_LaunchesAndCompletions :
    (∃ (s : State) (queue : Nat), queue < 16 ∧ s.host.chanOpen = true ∧ s.rel.stage ≠ 6) ∧
    (∃ (s : State) (queue : Nat), queue < 16 ∧ s.host.chanOpen = true ∧ s.rel.stage = 6) ∧
    (∃ (s : State) (queue core : Nat) (pl : Placement) (g : Grid), queuesOpen s = true ∧ queueHead s queue = some g ∧ g.csize = 1 ∧
      dispatchCores s g pl.cores = some [core]) ∧
    ∃ (s : State) (gid : Nat), canComplete s (s.grid gid) = true ∧ (s.grid gid).gid = gid :=
  ⟨⟨(stLaunch aGrid).setRel (st 1).rel, 15, by decide +kernel, by decide +kernel, by decide +kernel⟩,
   ⟨stLaunch aGrid, 15, by decide +kernel, by decide +kernel, by decide +kernel⟩,
   ⟨stLaunch aGrid, 15, 511, ⟨some [511], 7⟩, aGrid, by decide +kernel, by decide +kernel, by decide +kernel, by decide +kernel⟩,
   ⟨stLaunch { aGrid with next := 1, ended := 1 }, 2, by decide +kernel, by decide +kernel⟩⟩
/-- An access that brought a value. -/
theorem ok_is {α ε σ : Type} [DecidableEq α] (r : Except ε α × σ) (d : α)
    (h : (match r.1 with | .ok e => decide (e = d) | .error _ => false) = true) : r = (.ok d, r.2) := by
  rcases r with ⟨_ | _, _⟩
  · cases h
  · rw [of_decide_eq_true h]
/-- A query of the one block, its descriptor of some words at 0x2000, and a map at 0x2040. -/
def aQuery (st : QStage) : Query := ⟨0, 1, 0, 0, 0x2000, 1016, none, false, st⟩
def stQuery (stage : QStage) (d : List Word) (w : List Watch) (e : DWord) : State :=
  ((st 1).updMem fun m => { m with hbm := memWriteBytes (memWriteBytes m.hbm 0x2000 (d.flatMap wordBytes)) 0x2040 (leBytes e.toNat 8) }).setWd
    { (st 1).wd with queries := [aQuery stage], watch := w }
theorem can_answer {u : State} {x : Query} (h : (mFind u.blocks x.bk).isSome = true) (k : (u.grid (u.block x.bk).gid).killed = none)
    (n : (u.block x.bk).chans = []) : answerable u x := ⟨h, k, fun ch _ hl => absurd (by rw [n]; rfl) hl⟩
theorem witness_DistributorServes :
    (∃ (s u : State) (x : Query) (d : List Word), s.wd.queries.head? = some x ∧ x.held = false ∧ readDesc x s = (.ok d, u) ∧
      tMalformed d = true ∧ answerable u x) ∧
    (∃ (s u : State) (x : Query) (d : List Word) (v : DWord) (u' : State), s.wd.queries.head? = some x ∧ x.held = false ∧
      readDesc x s = (.ok d, u) ∧ tMalformed d = false ∧ x.stage = .start ∧ x.comp = none ∧
      wdAtom x.part (x.desc + 4) .add false 1 0 (queryAt .front u) = (.ok v, u') ∧ answerable u' x ∧
      tMap d = 0 ∧ v.toNat < tEnd d) ∧
    (∃ (s u : State) (x : Query) (d : List Word) (v : DWord) (u' : State), s.wd.queries.head? = some x ∧ x.held = false ∧
      readDesc x s = (.ok d, u) ∧ tMalformed d = false ∧ x.stage = .start ∧ x.comp = none ∧
      wdAtom x.part (x.desc + 4) .add false 1 0 (queryAt .front u) = (.ok v, u') ∧ answerable u' x ∧
      tEnd d ≤ v.toNat ∧ tSteal d = false ∧ watchedBy u' x = []) ∧
    (∃ (s u u1 : State) (i : Nat) (x : Query) (w : Watch) (d : List Word), leaseDue s i = some (x, w) ∧ readDesc x s = (.ok d, u) ∧
      wdCas x.part (tMap d + 8 * w.i) (takenWord w.d w.s) (queuedWord (nextSeq w.s)) u = (.ok false, u1)) ∧
    (∃ (s u u1 : State) (i : Nat) (x : Query) (w : Watch) (d : List Word) (u2 : State), leaseDue s i = some (x, w) ∧
      readDesc x s = (.ok d, u) ∧ wdCas x.part (tMap d + 8 * w.i) (takenWord w.d w.s) (queuedWord (nextSeq w.s)) u = (.ok true, u1) ∧
      wdCas x.part (tMap d + 8 * w.i) (queuedWord (nextSeq w.s)) (takenWord (unwatch w u1).host.device (nextSeq w.s)) (unwatch w u1) =
        (.ok true, u2) ∧ answerable u2 x) ∧
    ∃ (s : State) (wk desc off : Nat) (p : Park) (comp : Option (Word × Word)), (waitingQueries s).head? = some (wk, p, desc, off, comp) ∧
      s.wd.queries.length < 1024 ∧ (resumed wk p s).inBundle = true :=
  ⟨⟨stQuery .start [0x60010001] [] 0, _, aQuery .start, _, rfl, rfl, ok_is _ (0x60010001 :: List.replicate 15 0) (by decide +kernel), by decide +kernel, can_answer (by decide +kernel) (by decide +kernel) (by decide +kernel)⟩,
   ⟨stQuery .start [0x00080008, 63, 64] [] 0, _, aQuery .start, _, 63, _, rfl, rfl, ok_is _ ([0x00080008, 63, 64] ++ List.replicate 13 0) (by decide +kernel),
     by decide +kernel, rfl, rfl, ok_is _ _ (by decide +kernel), can_answer (by decide +kernel) (by decide +kernel) (by decide +kernel), by decide +kernel, by decide +kernel⟩,
   ⟨stQuery .start [0x00080008, 64, 64] [] 0, _, aQuery .start, _, 64, _, rfl, rfl, ok_is _ ([0x00080008, 64, 64] ++ List.replicate 13 0) (by decide +kernel),
     by decide +kernel, rfl, rfl, ok_is _ _ (by decide +kernel), can_answer (by decide +kernel) (by decide +kernel) (by decide +kernel), by decide +kernel, by decide +kernel, by decide +kernel⟩,
   ⟨stQuery .back [0x00080008, 64, 64, 9, 0x2040] [⟨0, 0x2000, 0, 5, 7, some 0⟩] (takenWord 6 7), _, _, 0, aQuery .back, _, _, rfl,
     ok_is _ ([0x00080008, 64, 64, 9, 0x2040] ++ List.replicate 11 0) (by decide +kernel), ok_is _ _ (by decide +kernel)⟩,
   ⟨stQuery .back [0x00080008, 64, 64, 9, 0x2040] [⟨0, 0x2000, 0, 5, 0xFFFFFFFF, some 0⟩] (takenWord 5 0xFFFFFFFF), _, _, 0, aQuery .back, _, _, _, rfl,
     ok_is _ ([0x00080008, 64, 64, 9, 0x2040] ++ List.replicate 11 0) (by decide +kernel), ok_is _ _ (by decide +kernel), ok_is _ _ (by decide +kernel), can_answer (by decide +kernel) (by decide +kernel) (by decide +kernel)⟩,
   ⟨stW 1 fun w => { w with parks := [⟨1, 0x10000, .wdRoom 0x2000 8 none⟩] }, 0, 0x2000, 8, ⟨1, 0x10000, .wdRoom 0x2000 8 none⟩, none, rfl, by decide +kernel, by decide +kernel⟩⟩
/-- An op on the global barrier object at 0x1000. -/
def anObj (op : BarxOp) (v : Word) : ObjOp := ⟨2, some 0, some 3, PageAttr.none, 0, 0, 0, [], 0x1000, 0x1000, none, false, op, v⟩
def stObj (o : ObjOp) : State := (st 1).updMem fun m => { m with objq := [o], signals := [(0, 127, 2047, some 0)] }
theorem witness_ObjectsAndSignals :
    (∃ (s : State) (o : ObjOp), s.mem.objq.find? (fun y => y.id == o.id) = some o ∧ objFirst s o = true ∧
      o.pa % 32 = 0 ∧ o.peer = none ∧ (∀ c, o.core s = some c → ∀ f ∈ s.mem.flights, f.src ≠ c) ∧
      (∀ l, mFind s.mem.lines (o.pa / 1024) = some l → l.use = none) ∧ barxWrites o.op = true ∧
      objWord s o 4 = 0 ∧ objWord s o 5 = 0 ∧ (objWord s o 7).getLsbD 11 = false) ∧
    (∃ (s : State) (o : ObjOp) (wk id : Nat), s.mem.objq.find? (fun y => y.id == o.id) = some o ∧ objFirst s o = true ∧
      o.pa % 32 = 0 ∧ o.peer = none ∧ (∀ c, o.core s = some c → ∀ f ∈ s.mem.flights, f.src ≠ c) ∧
      (∀ l, mFind s.mem.lines (o.pa / 1024) = some l → l.use = none) ∧ o.wk = some wk ∧ o.out = some id ∧ o.zero = false ∧
      o.op = .test) ∧
    (∃ (s : State) (o : ObjOp) (wk id : Nat), s.mem.objq.find? (fun y => y.id == o.id) = some o ∧ objFirst s o = true ∧
      o.pa % 32 = 0 ∧ o.peer = none ∧ (∀ c, o.core s = some c → ∀ f ∈ s.mem.flights, f.src ≠ c) ∧
      (∀ l, mFind s.mem.lines (o.pa / 1024) = some l → l.use = none) ∧ o.wk = some wk ∧ o.out = some id ∧ o.zero = false ∧
      o.op = .wait) ∧
    (∃ (s : State) (quad ctr : Nat), mFind (s.quad quad).sets ctr = none ∧ (∃ x, s.mem.signals.find? (fun x => x.2.1 == quad && x.2.2.1 == ctr) = some x) ∧
      1 < (s.ctr quad ctr).value.toNat) ∧
    (∃ (s : State) (quad ctr : Nat), mFind (s.quad quad).sets ctr = none ∧ (∃ x, s.mem.signals.find? (fun x => x.2.1 == quad && x.2.2.1 == ctr) = some x) ∧
      (s.ctr quad ctr).value = 0) ∧
    ∃ (s : State) (quad ctr : Nat), mFind (s.quad quad).sets ctr = none ∧ s.mem.signals.find? (fun x => x.2.1 == quad && x.2.2.1 == ctr) = none ∧ quad < 128 ∧ ctr < 2048 ∧
      (s.ctr quad ctr).owner.isSome = true :=
  ⟨⟨stObj (anObj .arrive 0), anObj .arrive 0, by decide +kernel, by decide +kernel, by decide, rfl, (fun _ _ _ h => nomatch h), (fun l h => by rw [show (stObj (anObj .arrive 0)).mem.lines = [] from rfl] at h; cases h),
     by decide, by decide +kernel, by decide +kernel, by decide +kernel⟩,
   ⟨stObj (anObj .test 1), anObj .test 1, 0, 3, by decide +kernel, by decide +kernel, by decide, rfl, (fun _ _ _ h => nomatch h), (fun l h => by rw [show (stObj (anObj .test 1)).mem.lines = [] from rfl] at h; cases h), rfl, rfl, rfl, rfl⟩,
   ⟨stObj (anObj .wait 1), anObj .wait 1, 0, 3, by decide +kernel, by decide +kernel, by decide, rfl, (fun _ _ _ h => nomatch h), (fun l h => by rw [show (stObj (anObj .wait 1)).mem.lines = [] from rfl] at h; cases h), rfl, rfl, rfl, rfl⟩,
   ⟨(stObj (anObj .test 1)).updQuad 127 fun q => { q with ctrs := [(2047, { Ctr.init with value := 2 })] }, 127, 2047, by decide +kernel, ⟨_, rfl⟩, by decide +kernel⟩,
   ⟨stObj (anObj .test 1), 127, 2047, by decide +kernel, ⟨_, rfl⟩, by decide +kernel⟩,
   ⟨(st 1).updQuad 127 fun q => { q with ctrs := [(2047, { Ctr.init with owner := some 0 })] }, 127, 2047, by decide +kernel, by decide +kernel, by decide, by decide, by decide +kernel⟩⟩
/-- A matrix job of one row after another, with weights of one element, in entry 63 of quad 0. -/
def aCard : List Word := [0x00900010, 0, 0, 0x00010001, 0, 2, 0, 0, 0, 0, 0, 0, 0, 0, 0, 0]
def aMx (adm reloads done : Bool) (rows : Nat) : Job :=
  ⟨4, 1, 0, 0, 0, .mx ⟨63, 5, aCard, 0, 1, reloads, 0, done, false, rows, 0, 0, 0, false⟩, [], [], adm, none, false⟩
def stMx (j : Job) (ps : List Pass) : State := (st 1).updQuad 0 fun q => { q with jobs := [j], passes := ps, mxCycle := 300 }
def aPass : Pass := ⟨4, 0, 300, List.replicate 32 0, [0], false, none⟩
/-- A fill of 256 bytes is the one command of channel 7. -/
def aFill (started : Bool) : CopyCmd := ⟨0, [0x00000E05, 0, 0, 0, 0x00010100, 0x00010001, 0, 0, 0, 0, 0, 0, 0, 0, 0, 0], 4, started, 0, 0, 0, none, false, false, false, [], none⟩
def stFill (started : Bool) : State :=
  (stB 1 fun b => { b with chans := [(7, { Chan.init with cmds := [aFill started] })] }).updQuad 0
    fun q => { q with jobs := [⟨4, 1, 0, 0, 0, .copy 7 0, [], [], true, none, true⟩] }
theorem witness_EngineSteps :
    (∃ (s : State) (q e wk : Nat) (p : Park) (r : List Word) (d : Reg), freeSlot (s.quad q) = some e ∧
      (parksOn s q fun w => match w with | .poolEntry r d => some (r, d) | _ => none).head? = some (wk, p, (r, d)) ∧
      (resumed wk p s).inBundle = true ∧ warpOrZ d = true) ∧
    (∃ (s : State) (q e wk : Nat) (p : Park) (c : List Word) (a : DWord) (d : Reg), cardsWaiting s q = [] ∧
      freeEntry (s.quad q) = some e ∧
      (parksOn s q fun w => match w with | .mxEntry c a d => some (c, a, d) | _ => none).head? = some (wk, p, (c, a, d)) ∧
      (resumed wk p s).inBundle = true ∧ warpOrZ d = true) ∧
    (∃ (s : State) (q i : Nat) (x : Task) (ts : List Task), waveTasks s q = x :: ts ∧ (x :: ts).length ≤ 32 ∧
      waveIndex s (s.block x.bk) = some i ∧ streamWids s (warpKey (s.block x.bk).bk i) = []) ∧
    (∃ (s : State) (q : Nat) (x : Task) (ts : List Task), waveTasks s q = x :: ts ∧ waveIndex s (s.block x.bk) = none) ∧
    (∃ (s : State) (q jid : Nat) (j : Job), s.job q jid = some j ∧ j.admissible = true ∧ ∃ ch n, j.kind = .copy ch n) ∧
    (∃ (s : State) (q jid : Nat) (j : Job), s.job q jid = some j ∧ j.admissible = true ∧ ∃ m, j.kind = .mx m) ∧
    (∃ (s : State) (q : Nat) (j : Job) (m : MxJob), s.job q j.jid = some j ∧ j.kind = .mx m ∧
      (dueReloads (s.quad q)).head? = some (j, m) ∧ badColumns s j m.card = []) ∧
    (∃ (s : State) (q : Nat) (j : Job) (m : MxJob), s.job q j.jid = some j ∧ j.kind = .mx m ∧ nextGrant (s.quad q) = some (j, m)) ∧
    (∃ (s : State) (q : Nat) (p : Pass) (j : Job) (m : MxJob), duePass (s.quad q) = some p ∧ mxJobAt s q p.jid = some (j, m) ∧
      (mFind s.blocks j.bk).isSome = true ∧ (∀ y ∈ passSlots s q j m p, y.2.2 = false) ∧ m.written + 1 < kM m.card) ∧
    (∃ (s : State) (q : Nat), (s.quad q).mxJobs = [] ∧ (s.quad q).passes = []) ∧
    (∃ (s : State) (bk ch : Nat) (x : CopyCmd), (mFind s.blocks bk).isSome = true ∧ (s.chan bk ch).cmds.head? = some x ∧
      canSkip x = false ∧ canStart s bk x = true ∧ cTotal x.words ≠ 0) ∧
    (∃ (s : State) (bk ch : Nat) (x : CopyCmd), (mFind s.blocks bk).isSome = true ∧ (s.chan bk ch).cmds.head? = some x ∧
      canDeliver s bk x = true ∧ (s.block bk).bk = bk ∧ cKind x.words = 5 ∧ cDir x.words = false ∧ cSpace x.words ≠ 4 ∧
      x.delivered + (nextChunk x).length < cTotal x.words ∧ (∀ kw ∈ s.warps, kw.2.bk = bk → kw.2.parks = []) ∧
      copyTurn s bk ch = true ∧ (s.grid (s.block bk).gid).killed = none) ∧
    ∃ q v : Nat, q < 128 ∧ 0 < v ∧ v ≤ 64 :=
  ⟨⟨stW 1 fun w => { w with parks := [⟨1, 0x10000, .poolEntry okTask 107⟩] }, 0, 0, 0, ⟨1, 0x10000, .poolEntry okTask 107⟩, okTask, 107, by decide +kernel, rfl, by decide +kernel, by decide⟩,
   ⟨stW 1 fun w => { w with parks := [⟨1, 0x10000, .mxEntry aCard 0 124⟩] }, 0, 0, 0, ⟨1, 0x10000, .mxEntry aCard 0 124⟩, aCard, 0, 124, by decide +kernel, by decide +kernel, rfl, by decide +kernel, by decide⟩,
   ⟨(st 1).updQuad 0 fun q => { q with tasks := [{ aTask 511 with bk := 0 }, { aTask 2 with bk := 0 }], yardCycle := 256 }, 0, 1, _, _, by
      show _ = { aTask 2 with bk := 0 } :: [{ aTask 511 with bk := 0 }]; decide +kernel, by decide +kernel, by decide +kernel, by decide +kernel⟩,
   ⟨((st 1).updQuad 0 fun q => { q with tasks := [{ aTask 511 with bk := 0 }, { aTask 2 with bk := 0 }], yardCycle := 256 }).setWarps
       ((rangeFrom 0 32).map fun i => (warpKey 0 i, { placeWarp with idx := i })), 0, { aTask 2 with bk := 0 }, [{ aTask 511 with bk := 0 }], by decide +kernel, by decide +kernel⟩,
   ⟨(st 1).updQuad 127 fun q => { q with jobs := [⟨4, 1, 0, 0, 511, .copy 7 0, [], [], false, none, true⟩] }, 127, 4, _, rfl, by decide +kernel, 7, 0, rfl⟩,
   ⟨stMx (aMx false true false 0) [], 0, 4, _, rfl, by decide +kernel, _, rfl⟩,
   ⟨stMx (aMx true true false 0) [], 0, aMx true true false 0, _, rfl, rfl, by decide +kernel, by decide +kernel⟩,
   ⟨stMx (aMx true true true 1) [], 0, aMx true true true 1, _, rfl, rfl, by decide +kernel⟩,
   ⟨stMx (aMx true true true 1) [aPass], 0, aPass, aMx true true true 1, _, by decide +kernel, rfl, by decide +kernel, by decide +kernel, by decide +kernel⟩,
   ⟨st 1, 127, by decide +kernel, by decide +kernel⟩,
   ⟨stFill false, 0, 7, aFill false, by decide +kernel, rfl, by decide +kernel, by decide +kernel, by decide +kernel⟩,
   ⟨stFill true, 0, 7, aFill true, by decide +kernel, rfl, by decide +kernel, rfl, by decide +kernel, by decide +kernel, by decide +kernel, by decide +kernel, by decide +kernel, by decide +kernel, by decide +kernel⟩,
   ⟨127, 64, by decide, by decide, by decide⟩⟩
/-- A group of this package and DEVICE 1, with a step timeout; a group of this die alone. -/
def twoGroup : GroupCfg := ⟨2, 1, 1, [0, 1], 0, 1, 1, 0⟩
def oneGroup : GroupCfg := ⟨1, 1, 1, [0], 0, 1, 0, 0⟩
/-- A collective of four FP32 elements on slot 63: an all-reduce, or an all-gather. -/
def aDesc (gather : Bool) : List Word := [if gather then 0x003F2220 else 0x003F2020, 0, 4, 0, 0x2000, 0, 0x4000, 0, 0, 0, 0, 0, 0x4100, 0, 0, 0]
def aRun (gather : Bool) (phase : Nat) (got : Map Nat) : Coll :=
  ⟨3, 63, 7, aDesc gather, 0, 1, 0, 0, 4, phase, 0, false, [[1, 2, 3, 4]], 0, got, 0, 0, false, false, decide (0 < phase), 0, 1024⟩
def stColl (g : GroupCfg) (xs : List Coll) : State :=
  ((st 1).updDie 0 fun d => { d with slots := [(63, { GroupSlot.init with cfg := some g, seq := 8 })], colls := xs }).updQuad 0
    fun q => { q with jobs := [⟨4, 1, 0, 0, 0, .coll 0 3, [], [], false, none, false⟩] }
/-- Headers of packets from DEVICE 1. -/
def aHeader (stage chunk action : Nat) : List Word := mkHeader 1 stage 63 7 0 chunk 4 0 0 action
theorem none_is {α σ : Type} (r : Option α × σ) (h : r.1.isNone = true) : r = (none, r.2) := by
  rcases r with ⟨_ | _, _⟩
  · rfl
  · cases h
def stAdmitted (g : GroupCfg) : State := (readSource 0 0 0 (readSource 0 0x2000 16 (stColl g [aRun true 0 []])).2).2
def stWritten : State :=
  (engineWrite 0 0x4100 (resultRecord (aRun true 3 []) ⟨[1, 2, 3, 4], 0, [], 4⟩)
    (writeUnits 0 0 1 [] (writeUnits 0 0x4000 4 [1, 2, 3, 4] (stColl oneGroup [aRun true 3 []])).2).2).2
theorem witness_CollectiveSteps :
    (∃ (s : State) (die link : Nat) (o : Nat × Pkt), (s.die die).outbox.find? (fun o => o.1 == link) = some o ∧ o.2.dev ≠ s.host.device) ∧
    (∃ (s : State) (die link : Nat), (s.die die).outbox.find? (fun o => o.1 == link) = none) ∧
    (∃ (s : State) (die : Nat) (h : List Word), (∀ p ∈ (s.die die).inbox, p.hdr ≠ h) ∧ ownPacket s die h = false) ∧
    (∃ (s : State) (die : Nat) (h : List Word), (∀ p ∈ (s.die die).inbox, p.hdr ≠ h) ∧ pktVerdict s die die h = .wait) ∧
    (∃ (s : State) (die : Nat) (h : List Word) (g : GroupCfg) (x : Coll), (∀ p ∈ (s.die die).inbox, p.hdr ≠ h) ∧ ownPacket s die h = true ∧
      hDev h ≠ s.host.device ∧ (slotAt s die (hSlot h)).cfg = some g ∧ collOf s die (hSlot h) (hQ h) = some x ∧
      collAt s die x.cid = some x ∧ x.still = false ∧ x.slot = hSlot h ∧ hStage h = 6) ∧
    (∃ (s : State) (die : Nat) (h : List Word) (pl : List Byte) (g : GroupCfg) (x : Coll) (us : List Nat) (v : StageView) (y : Coll),
      (∀ p ∈ (s.die die).inbox, p.hdr ≠ h) ∧ ownPacket s die h = true ∧ hDev h ≠ s.host.device ∧
      (slotAt s die (hSlot h)).cfg = some g ∧ collOf s die (hSlot h) (hQ h) = some x ∧ collAt s die x.cid = some x ∧ x.still = false ∧
      x.slot = hSlot h ∧ us = unitsOf (xUnit x.desc) (pl.length / xUnit x.desc) pl ∧ hStage h ≤ 4 ∧ atStage g x (pktStage g die die h) h = true ∧
      hRouteLen (popRoute h) = 0 ∧
      mFind x.got (gotKey (hChunk h) (hFirst h)) = none ∧ v = viewOf g die x ∧
      y = { putGot (hChunk h) (hFirst h) us x with timer := 0 } ∧ xReduces x.desc = false ∧
      nextOn g die v.st x.excl v.me = v.origin (hChunk h) ∧ spreadOver v y = false ∧ 2 ≤ hAction h) ∧
    (∃ (s : State) (die : Nat) (h : List Word) (pl : List Byte) (g : GroupCfg) (x : Coll) (us : List Nat) (v : StageView) (y : Coll),
      (∀ p ∈ (s.die die).inbox, p.hdr ≠ h) ∧ ownPacket s die h = true ∧ hDev h ≠ s.host.device ∧
      (slotAt s die (hSlot h)).cfg = some g ∧ collOf s die (hSlot h) (hQ h) = some x ∧ collAt s die x.cid = some x ∧ x.still = false ∧
      x.slot = hSlot h ∧ us = unitsOf (xUnit x.desc) (pl.length / xUnit x.desc) pl ∧ hStage h ≤ 4 ∧ atStage g x (pktStage g die die h) h = true ∧
      hRouteLen (popRoute h) = 0 ∧
      mFind x.got (gotKey (hChunk h) (hFirst h)) = none ∧ v = viewOf g die x ∧
      y = { putGot (hChunk h) (hFirst h) ((us.zip ((ownChunk x v.l v.me).drop (hFirst h))).map fun p => combine x.desc p.1 p.2) x with timer := 0 } ∧
      xReduces x.desc = true ∧ x.back = false ∧ x.excl.testBit (memberOf g (hDev h)) = false ∧ hChunk h = v.me ∧
      v.start v.me ≠ v.me ∧ hAction h ≠ 0 ∧ reduceOver v y = false) ∧
    (∃ (s : State) (die cid : Nat) (x : Coll) (g : GroupCfg), collAt s die cid = some x ∧ collCfg s die x = some g ∧
      timeoutDue s die x = true ∧ x.phase = 2 ∧ waitedFor s die g x = g.own) ∧
    (∃ (s : State) (die cid : Nat) (x : Coll) (g : GroupCfg) (c : Nat) (y : Coll), collAt s die cid = some x ∧
      collCfg s die x = some g ∧ timeoutDue s die x = true ∧ x.phase = 2 ∧ waitedFor s die g x = c ∧ c ≠ g.own ∧
      (s.die die).outbox = [] ∧ xReduces x.desc = false ∧ y = { x.mark 2 with excl := x.excl ||| 2 ^ c, timer := 0 } ∧
      spreadOver (viewOf g die y) y = false) ∧
    (∃ (s u v : State) (die cid : Nat) (x : Coll) (g : GroupCfg) (bs ds : List Byte), collAt s die cid = some x ∧
      collCfg s die x = some g ∧ collReady s die x = true ∧
      readSource x.part (xSrc x.desc) (sourceLens g die x.desc).1 s = (.ok (bs, []), u) ∧
      readSource x.part (xSside x.desc) (sourceLens g die x.desc).2 u = (.ok (ds, []), v) ∧
      collAt v die cid = some x ∧ collCfg v die x = some g ∧ v.quads = s.quads ∧ gStages g = []) ∧
    (∃ (s u v : State) (die cid : Nat) (x : Coll) (g : GroupCfg) (bs ds : List Byte) (stg : Nat) (sts : List Nat) (w : StageView)
      (p : Place) (dev : Nat), collAt s die cid = some x ∧ collCfg s die x = some g ∧ collReady s die x = true ∧
      readSource x.part (xSrc x.desc) (sourceLens g die x.desc).1 s = (.ok (bs, []), u) ∧
      readSource x.part (xSside x.desc) (sourceLens g die x.desc).2 u = (.ok (ds, []), v) ∧
      collAt v die cid = some x ∧ collCfg v die x = some g ∧ v.quads = s.quads ∧ gStages g = stg :: sts ∧
      w = viewOf g die { x with stage := 0 } ∧ (∀ d, (mGet v.mem.peers Peer.init d).isolated = false) ∧
      w.alone = false ∧ (v.die die).outbox = [] ∧ 0 < permitsOf v die (linkKey dev p.die) ∧
      p = ringPlace g die stg (nextOn g die stg x.excl w.me) ∧ dev = g.devs.getD p.c 0 ∧ dev ≠ v.host.device) ∧
    ∃ (s v w : State) (die cid : Nat) (x : Coll) (g : GroupCfg) (d : DestView), collAt s die cid = some x ∧ x.phase = 3 ∧
      x.still = false ∧ (∀ o ∈ (s.die die).outbox, isOf x o = false) ∧ collCfg s die x = some g ∧ d = destOf g die x ∧
      writeDest x d s = (none, v) ∧
      (if xRrec x.desc = 0 then (none, v) else engineWrite x.part (xRrec x.desc) (resultRecord x d) v) = (none, w) ∧
      xSig x.desc = none ∧ blockWarps w x.bk ≠ [] :=
  ⟨⟨(st 1).updDie 0 fun d => { d with outbox := [(4, ⟨1, 0, 0, aHeader 2 0 1, 0, []⟩)] }, 0, 4, _, rfl, by decide +kernel⟩,
   ⟨st 1, 3, 5, by decide +kernel⟩,
   ⟨stColl twoGroup [], 0, mkHeader 5 2 63 7 0 0 4 0 0 1, by decide +kernel, by decide +kernel⟩,
   ⟨stColl twoGroup [], 0, mkHeader 1 2 63 8 0 0 4 0 0 1, by decide +kernel, by decide +kernel⟩,
   ⟨stColl twoGroup [aRun true 2 []], 0, aHeader 6 0 2, twoGroup, aRun true 2 [], by decide +kernel, by decide +kernel, by decide +kernel, by decide +kernel,
     by decide +kernel, by decide +kernel, rfl, by decide +kernel, by decide +kernel⟩,
   ⟨stColl twoGroup [aRun true 2 []], 0, aHeader 2 1 2, [1, 0, 0, 0], twoGroup, aRun true 2 [], _, _, _, by decide +kernel, by decide +kernel, by decide +kernel, by decide +kernel,
     by decide +kernel, by decide +kernel, rfl, by decide +kernel, rfl, by decide +kernel, by decide +kernel, by decide +kernel, by decide +kernel, rfl, rfl, by decide +kernel, by decide +kernel, by decide +kernel, by decide⟩,
   ⟨stColl twoGroup [aRun false 2 []], 0, aHeader 2 0 1, [1, 0, 0, 0], twoGroup, aRun false 2 [], _, _, _, by decide +kernel, by decide +kernel, by decide +kernel, by decide +kernel,
     by decide +kernel, by decide +kernel, rfl, by decide +kernel, rfl, by decide +kernel, by decide +kernel, by decide +kernel, by decide +kernel, rfl, rfl, by decide +kernel, rfl,
     by decide +kernel, by decide +kernel, by decide +kernel, by decide +kernel, by decide +kernel⟩,
   ⟨stColl twoGroup [aRun true 2 ((rangeFrom 0 4).map fun e => (gotKey 1 e, 9))], 0, 3, _, twoGroup, rfl, by decide +kernel, by decide +kernel, rfl, by decide +kernel⟩,
   ⟨stColl twoGroup [aRun true 2 []], 0, 3, aRun true 2 [], twoGroup, 1, _, by decide +kernel, by decide +kernel, by decide +kernel, rfl, by decide +kernel, by decide, by decide +kernel,
     by decide +kernel, rfl, by decide +kernel⟩,
   ⟨stColl oneGroup [aRun true 0 []], _, stAdmitted oneGroup, 0, 3, aRun true 0 [], oneGroup, zeroBytes 16, [], by decide +kernel, by decide +kernel, by decide +kernel,
     ok_is _ _ (by decide +kernel), ok_is _ _ (by decide +kernel), by decide +kernel, by decide +kernel, by decide +kernel, by decide +kernel⟩,
   ⟨stColl twoGroup [aRun true 0 []], _, stAdmitted twoGroup, 0, 3, aRun true 0 [], twoGroup, zeroBytes 16, [], 2, [], _, _, _, by decide +kernel, by decide +kernel, by decide +kernel,
     ok_is _ _ (by decide +kernel), ok_is _ _ (by decide +kernel), by decide +kernel, by decide +kernel, by decide +kernel, by decide +kernel, rfl,
     fun d => (by rw [show (stAdmitted twoGroup).mem.peers = [] from by decide +kernel]; rfl), by decide +kernel, by decide +kernel, by decide +kernel, rfl, rfl, by decide +kernel⟩,
   ⟨stColl oneGroup [aRun true 3 []], _, stWritten, 0, 3, aRun true 3 [], oneGroup, ⟨[1, 2, 3, 4], 0, [], 4⟩, by decide +kernel, rfl, rfl, by decide +kernel, by decide +kernel, rfl,
     none_is _ (by decide +kernel), none_is _ (by decide +kernel), by decide +kernel, by decide +kernel⟩⟩
/-- The channel is open, an image is verified, and a flush waits; a window of the pod and a key. -/
def stHost (verified : Bool) (f : List Flush) : State :=
  ((st 1).setRel { (st 1).rel with verified := verified }).setHost { (st 1).host with chanOpen := true, flushes := f }
theorem no_line (s : State) (h : s.mem.lines = []) (n : Nat) (p : Line → Prop) : ∀ l, mFind s.mem.lines n = some l → p l := by
  intro l hl; rw [h] at hl; cases hl
/-- The last byte of a MEMWRITE, on its way. -/
def aPosted : Flight := ⟨4, hostSrc, 0, [⟨2 ^ 52 - 1, 7, 9, PageAttr.none, none⟩], false⟩
theorem witness_HostMessages :
    (∃ s : State, s.host.chanOpen = true ∧ s.rel.verified = true) ∧ (∃ (s : State) (f : Flush), dueFlush s = some f) ∧
    (∃ (pa : Nat) (data : List Byte), 2 ^ 52 < pa + data.length) ∧
    (∃ (s : State) (pa : Nat) (data : List Byte), pa + data.length ≤ 2 ^ 52 ∧ s.rel.verified = false) ∧
    (∃ (s : State) (pa : Nat) (data : List Byte), pa + data.length ≤ 2 ^ 52 ∧ s.rel.verified = true) ∧
    (∃ (s : State) (f : Flight) (w : PWrite) (tag : Nat), s.mem.flights.find? (fun g => g.fid == f.fid) = some f ∧
      flightFirst s f = true ∧ f.peer = none ∧ f.ws = [w] ∧ w.peer = none ∧ w.attr = PageAttr.none ∧
      s.mem.superseded w.pa w.wid = false ∧ s.host.posted.find? (fun x => x.1 == f.fid) = some (f.fid, tag)) ∧
    (∃ pa len : Nat, 2 ^ 52 < pa + len) ∧
    ∃ (s : State) (pa len : Nat), pa + len ≤ 2 ^ 52 ∧ s.rel.verified = true ∧
      (∀ ln l, mFind s.mem.lines ln = some l → l.use = none) ∧ ∀ q, pa ≤ q → q < pa + len → q ∉ s.mem.ecc :=
  ⟨⟨stHost true [], rfl, rfl⟩, ⟨stHost true [⟨7, 0, 4096, 5, 0, 0⟩], _, rfl⟩, ⟨2 ^ 52, [0], by decide⟩,
   ⟨stHost false [], 2 ^ 52 - 2, [1, 2], by decide, rfl⟩,
   ⟨stHost true [], 2 ^ 52 - 2, [1, 2], by decide, rfl⟩,
   ⟨((stHost true []).updMem fun m => { m with flights := [aPosted] }).setHost { (stHost true []).host with posted := [(4, 77)] }, aPosted,
     ⟨2 ^ 52 - 1, 7, 9, PageAttr.none, none⟩, 77, by decide +kernel, by decide +kernel, by decide +kernel, rfl, rfl, rfl, by decide +kernel, by decide +kernel⟩,
   ⟨2 ^ 52, 1, by decide⟩,
   ⟨stHost true [], 2 ^ 52 - 2, 2, by decide, rfl, fun ln => no_line _ rfl ln _, fun q _ _ => by show q ∉ []; exact List.not_mem_nil⟩⟩
/-- A window of the pod, at any peer's disposal, under key slot 5. -/
def aWindow : PodWindow := ⟨2 ^ 40, 2 ^ 29, 0x20000, true, true, true, 5, none⟩
def stPod : State := (st 1).updMem fun m => { m with windows := [(255, aWindow)], keys := [(5, 77)] }
def windowAt (pa : Nat) : LaneAcc := { localAcc 0 pa with attr := { key := 5, way := 0, pol := 0 } }
/-- A load's result waits for peer 9. -/
def aRemote : Out := { anOut with load := some ⟨.normal, [⟨31, 0x1000, 0x1000, PageAttr.none, some 9, false⟩], 4⟩, pc := 0x10000 }
/-- Firmware has set the link's timeout; peer 8 has not answered for so long. -/
def timedOut : State := (stW 1 fun w => { w with outs := [aRemote] }).updMem fun m =>
  { m with linkTimeout := 1000, peers := [(8, { Peer.init with waited := 1000 })] }
theorem witness_PodRequests :
    (∃ (s : State) (peer : Nat) (req : PeerReq), windowFor s peer (reqAddr req) = none) ∧
    (∃ (s : State) (peer addr n : Nat) (w : PodWindow) (a : LaneAcc), windowFor s peer addr = some w ∧ windowAcc s w addr n = some a ∧
      (∀ l, mFind s.mem.lines (a.pa / 1024) = some l → l.use = none) ∧ w.r = true ∧ w.w = true ∧
      (∀ q, a.pa ≤ q → q < a.pa + n → q ∉ s.mem.ecc) ∧ ∃ data : List Byte, data.length = n) ∧
    (∃ (s : State) (peer addr n : Nat) (w : PodWindow) (a : LaneAcc) (aop : Aop) (ty : AtomTy), windowFor s peer addr = some w ∧
      windowAcc s w addr n = some a ∧ (∀ l, mFind s.mem.lines (a.pa / 1024) = some l → l.use = none) ∧
      n = atomSize (ty == .b64) ∧ w.atomic = true ∧ peerAtomOk aop ty = true ∧ addr % n = 0 ∧ a.pa % n = 0) ∧
    (∃ (s : State) (peer addr : Nat) (w : PodWindow) (a : LaneAcc) (op : BarxOp), windowFor s peer addr = some w ∧
      windowAcc s w addr 32 = some a ∧ (∀ l, mFind s.mem.lines (a.pa / 1024) = some l → l.use = none) ∧
      w.atomic = true ∧ barxWrites op = true ∧ addr % 32 = 0) ∧
    (∃ (s : State) (peer : Nat), (mGet s.mem.peers Peer.init peer).waited < s.mem.linkTimeout) ∧
    (∃ (s : State) (peer : Nat), s.mem.linkTimeout ≤ (mGet s.mem.peers Peer.init peer).waited ∧
      (∀ kd ∈ s.dies, kd.2.colls = []) ∧ ∀ kw ∈ s.warps, ∀ o ∈ kw.2.outs, lanesOn s peer kw.1 o = []) ∧
    (∃ (s : State) (peer wk : Nat) (w : Warp) (o : Out), s.mem.linkTimeout ≤ (mGet s.mem.peers Peer.init peer).waited ∧ (∀ kd ∈ s.dies, kd.2.colls = []) ∧ mFind s.warps wk = some w ∧
      w.lanes.length = 32 ∧ s.warps.flatMap (fun kw => kw.2.outs.map fun o => (kw.1, o)) = [(wk, o)] ∧ lanesOn s peer wk o ≠ []) ∧
    ∃ k : Nat, k < 256 :=
  ⟨⟨stPod, 9, .read (2 ^ 40 + 2 ^ 29) 4, by decide +kernel⟩,
   ⟨stPod, 9, 2 ^ 40 + 0x60, 32, aWindow, windowAt 0x20060, by decide +kernel, by decide +kernel, no_line _ rfl _ _, rfl, rfl, fun q _ _ => by show q ∉ []; exact List.not_mem_nil, zeroBytes 32, by decide +kernel⟩,
   ⟨stPod, 9, 2 ^ 40 + 0x78, 8, aWindow, windowAt 0x20078, .cas, .b64, by decide +kernel, by decide +kernel, no_line _ rfl _ _, by decide, rfl, by decide, by decide, by decide⟩,
   ⟨stPod, 9, 2 ^ 40 + 0x60, aWindow, windowAt 0x20060, .arriveExpect, by decide +kernel, by decide +kernel, no_line _ rfl _ _, rfl, by decide, by decide⟩,
   ⟨timedOut, 9, by decide +kernel⟩,
   ⟨timedOut, 8, by decide +kernel, by decide +kernel, by decide +kernel⟩,
   ⟨timedOut.updMem fun m => { m with peers := [(9, { Peer.init with waited := 1000 })] }, 9, 0, _, aRemote, by decide +kernel, by decide +kernel, rfl, by decide +kernel, rfl, by decide +kernel⟩, ⟨255, by decide⟩⟩
/-- Bring-up has come to a stage, with a launch held. -/
def stBring (n : Nat) (held : List (Nat × Nat × List Word)) : State :=
  ((st 1).setRel { (st 1).rel with stage := n }).updLaunch fun l => { l with held := held }
theorem witness_FirmwareAndPower :
    (∃ (g : GroupCfg) (die n : Nat), die < 4 ∧ n < 64 ∧ groupOk g = true) ∧ (∃ core n : Nat, core < 512 ∧ n < 2) ∧
    (∃ q ctr : Nat, q < 128 ∧ ctr < 2048) ∧
    (∃ (s : State) (n : Nat), n ≠ 0 ∧ n < 8192 ∧ (s.mem.lines.map (·.1)).Nodup ∧
      (∀ x ∈ s.mem.lines, (x.2.dirty.map (·.1)).Nodup ∧ ∀ y ∈ x.2.dirty, y.1 < 1024) ∧
      ∃ pa, (mFind s.mem.lines (pa / 1024)).any (fun l => l.key == n) = true) ∧
    (∃ (s : State) (q b : Nat), (mFind (s.quad q).banks b).isSome = true) ∧
    (∃ (s : State) (x : BringUpArgs), s.rel.stage = 0 ∧ x.verified = false) ∧
    (∃ (s : State) (x : BringUpArgs), s.rel.stage = 0 ∧ x.verified = true) ∧ (∃ s : State, s.rel.stage = 3) ∧
    (∃ (s : State) (n tag : Nat) (r : List Word), s.rel.stage = 5 ∧ s.launch.held = [(n, tag, r)]) ∧
    (∃ s : State, s.rel.stage = 5 ∧ s.launch.held = []) ∧ ∀ n, n = 1 ∨ n = 2 ∨ n = 4 → ∃ s : State, s.rel.stage = n ∧
      ∀ x ∈ s.mem.lines, x.2.key = 0 :=
  ⟨⟨twoGroup, 3, 63, by decide, by decide, by decide +kernel⟩, ⟨511, 1, by decide, by decide⟩, ⟨127, 2047, by decide, by decide⟩,
   ⟨(st 1).updMem fun m => { m with lines := [(4, { aLine 0 0 with key := 8191 })] }, 8191, by decide, by decide, by decide +kernel, by decide +kernel, 0x1000, by decide +kernel⟩,
   ⟨(st 1).updQuad 127 fun q => { q with banks := [(1, LatchBank.init)] }, 127, 1, by decide +kernel⟩,
   ⟨stBring 0 [], ⟨false, 0, [], [], 0, []⟩, rfl, rfl⟩, ⟨stBring 0 [], ⟨true, 0, [], [], 0, []⟩, rfl, rfl⟩, ⟨stBring 3 [], rfl⟩,
   ⟨stBring 5 [(15, 9, placeRecord)], 15, 9, placeRecord, rfl, rfl⟩, ⟨stBring 5 [], rfl, rfl⟩, fun n _ => ⟨stBring n [], rfl, fun _ h => nomatch h⟩⟩
/-- The placed machine as it stands before the bundle issues. -/
def placed : State := State.reset.withFetchWord 32 0x80000000
/-- A timetable: partition 1 in every entry but the last, the first of which lends. -/
def stTable (first : Byte) (rest : Nat) (strict : Bool) : State :=
  placed.updCore 0 fun c => { c with scheds := [(0, { Sched.init with table := (0, first) :: (rangeFrom 1 rest).map (fun i => (i, 1)), strict := strict })] }
theorem witness_SchedulersFollowTheTimetable :
    (∃ (s : State) (core sched : Nat), coreDet s core = false ∧ readyFor s core sched (slotPart s core sched 0) = true) ∧
    (∃ (s : State) (core sched n : Nat), coreDet s core = false ∧ readyFor s core sched (slotPart s core sched 0) = false ∧
      slotLends s core sched = true ∧ (s.schedAt core sched).strict = false ∧ n < 63 ∧
      readyFor s core sched (slotPart s core sched (n + 1)) = true ∧
      ∀ k < n, readyFor s core sched (slotPart s core sched (k + 1)) = false) ∧
    (∃ (s : State) (core sched : Nat), coreDet s core = false ∧ readyFor s core sched (slotPart s core sched 0) = false ∧
      slotLends s core sched = false) ∧
    (∃ (s : State) (core sched : Nat), coreDet s core = false ∧ readyFor s core sched (slotPart s core sched 0) = false ∧
      (s.schedAt core sched).strict = true) ∧
    (∃ (s : State) (core sched : Nat), coreDet s core = false ∧ readyFor s core sched (slotPart s core sched 0) = false ∧
      ∀ n < 63, readyFor s core sched (slotPart s core sched (n + 1)) = false) ∧
    ∃ (s : State) (core sched : Nat) (p : Pick), coreDet s core = false ∧ (s.schedAt core sched).table = [] ∧
      (selectCycle core sched s).1 = some p :=
  ⟨⟨placed, 0, 0, by decide +kernel, by decide +kernel⟩,
   ⟨stTable 9 62 false, 0, 0, 62, by decide +kernel, by decide +kernel, by decide +kernel, by decide +kernel, by decide, by decide +kernel, by decide +kernel⟩,
   ⟨stTable 1 62 false, 0, 0, by decide +kernel, by decide +kernel, by decide +kernel⟩,
   ⟨stTable 9 62 true, 0, 0, by decide +kernel, by decide +kernel, by decide +kernel⟩,
   ⟨stTable 9 63 false, 0, 0, by decide +kernel, by decide +kernel, by decide +kernel⟩,
   ⟨placed, 0, 0, _, by decide +kernel, by decide +kernel, (Option.some_get (x := (selectCycle 0 0 placed).1) (by decide +kernel)).symm⟩⟩
/-- A warp at a marker: lanes 0 to 30 stand there with a result outstanding for lane 30, lane 31 stands elsewhere. -/
def heldWarp : Warp := { placeWarp with lanes := List.replicate 31 (Lane.start 0x10000) ++ [Lane.start 0x20000], outs := [{ anOut with mask := 0x40000000 }] }
theorem witness_BundlesByKey :
    (∃ (s : State) (w : Warp), w.serial = false ∧ (∃ l < 32, selectable s w l = true) ∧ ∃ l < 32, eligible w l = true ∧ selectable s w l = false) ∧
    (∃ (s : State) (w : Warp), w.serial = true ∧ ∃ l < 32, selectable s w l = true) ∧
    (∃ (s : State) (w : Warp), (∀ l < 32, selectable s w l = false) ∧ ∃ l < 32, eligible w l = true) ∧
    (∃ w : Warp, ∀ x ∈ w.lanes, x.st = .active → x.yld = true) ∧ ∃ w : Warp, ∃ x ∈ w.lanes, x.st = .active ∧ x.yld = false :=
  ⟨⟨State.reset.withFetchWord 32 0xC0000000, heldWarp, rfl, ⟨31, by decide, by decide +kernel⟩, 0, by decide, by decide +kernel, by decide +kernel⟩,
   ⟨placed, { placeWarp with serial := true }, rfl, 0, by decide, by decide +kernel⟩,
   ⟨State.reset.withFetchWord 32 0xC0000000, { heldWarp with lanes := List.replicate 32 (Lane.start 0x10000) }, by decide +kernel, 0, by decide, by decide +kernel⟩,
   ⟨setL (fun x => { x with yld := true }) placeWarp, by decide +kernel⟩, ⟨placeWarp, by decide +kernel⟩⟩
theorem err_is {α σ : Type} (r : Except MemFault α × σ) (d : MemFault)
    (h : (match r.1 with | .error e => decide (e = d) | .ok _ => false) = true) : r = (.error d, r.2) := by
  rcases r with ⟨_ | _, _⟩
  · rw [of_decide_eq_true h]
  · cases h
/-- A step that goes on. -/
def goesOn : Host.Outcome State Fault Refusal → Bool
  | .next _ => true
  | _ => false
theorem next_is {r : Host.Outcome State Fault Refusal} (h : goesOn r = true) : ∃ t, r = .next t := by
  cases r with
  | next t => exact ⟨t, rfl⟩
  | _ => cases h
theorem witness_StepRunsTheInstruction :
    (∃ (s : State) (wk : Nat) (m : Word), pendingB s = some (wk, m)) ∧
    (∃ (t : State) (core sched : Nat), (t.schedAt core sched).late = []) ∧
    (∃ (s : State) (i : Instr) (l : List Move), pendingB s = none ∧ s.agenda = .event i :: l) ∧
    (∃ (s u : State) (core sched : Nat) (l : List Move) (x : Option Pick), pendingB s = none ∧ s.agenda = .cycle core sched :: l ∧
      selectCycle core sched (s.setAgenda l) = (x, u) ∧ x.isSome = true) ∧
    (∃ (s : State) (i : Instr), pendingB s = none ∧ s.agenda = [] ∧ autoEvent s = some i) ∧
    (∃ (s u : State) (k : Nat) (x : Option Pick), pendingB s = none ∧ s.agenda = [] ∧ autoEvent s = none ∧ nextBusy s = some k ∧
      selectCycle (k / 2) (k % 2) ((if k < s.nextSched then tickUnits s else s).setNextSched (k + 1)) = (x, u) ∧ x.isSome = true) ∧
    (∃ (s u : State) (core wk : Nat) (m : Word) (w : Warp) (x : Word) (i : Instr), mFind s.warps wk = some w ∧
      fetchWord core (s.block w.bk).part (groupPc w m) s = (.ok x, u) ∧ decodeWord x = .ok i ∧ wellFormed i = true ∧
      u.warps = s.warps ∧ w.lanes.length = 32 ∧ m ≠ 0) ∧
    (∃ (s u : State) (core wk : Nat) (m : Word) (w : Warp) (x : Word), mFind s.warps wk = some w ∧
      fetchWord core (s.block w.bk).part (groupPc w m) s = (.ok x, u) ∧ ∀ i, decodeWord x = .ok i → wellFormed i = false) ∧
    (∃ (s u : State) (core wk : Nat) (m : Word) (w : Warp) (f : MemFault), mFind s.warps wk = some w ∧
      fetchWord core (s.block w.bk).part (groupPc w m) s = (.error f, u)) ∧
    ∃ (s u : State) (core wk : Nat) (m : Word) (w : Warp) (a : LaneAcc), mFind s.warps wk = some w ∧
      translate (some core) (s.block w.bk).part .fetch 0 (groupPc w m).toNat s = (.ok a, u) ∧ ∀ o < 4, a.pa + o ∉ u.mem.ecc :=
  ⟨⟨(st 1).updCore 0 fun c => { c with scheds := [(0, { Sched.init with pendB := some (0, 2) })] }, 0, 2, by decide +kernel⟩,
   ⟨State.reset, 0, 0, rfl⟩,
   ⟨placed.setAgenda [.event .powerLoss], .powerLoss, [], by decide +kernel, rfl⟩,
   ⟨placed.setAgenda [.cycle 0 0], _, 0, 0, [], _, by decide +kernel, rfl, rfl, by decide +kernel⟩,
   ⟨placed.setFaults ⟨[aRecord 1], [], 0⟩, .faultRecordPost, by decide +kernel, rfl, by decide +kernel⟩,
   ⟨placed, _, 0, _, by decide +kernel, rfl, by decide +kernel, by decide +kernel, rfl, by decide +kernel⟩,
   ⟨State.reset.withFetchWord 32 0x80000000, _, 0, 0, 1, placeWarp, 0x80000000, .nop false, rfl, ok_is _ _ (by decide +kernel), by decide +kernel, by decide, by decide +kernel, by decide +kernel, by decide⟩,
   ⟨State.reset.withFetchWord 32 0, _, 0, 0, 1, placeWarp, 0, rfl, ok_is _ _ (by decide +kernel), fun i h => (by
      rw [show decodeWord 0 = .error _ from rfl] at h; cases h)⟩,
   ⟨placed.setWarps [(0, { placeWarp with lanes := List.replicate 32 (Lane.start 0x20000000) })], _, 0, 0, 1, _, ⟨0x07, 2⟩, rfl, err_is _ _ (by decide +kernel)⟩,
   ⟨placed, _, 0, 0, 1, placeWarp, _, rfl, rfl, by decide +kernel⟩⟩
theorem witness_RoundTrip : ∃ i : Instr, wellFormed i = true ∧ hasWord i = true := ⟨.wdq true 124 106 92, by decide, by decide⟩
theorem witness_DecodingIsExact : ∃ (w : Word) (i : Instr), decodeWord w = .ok i := ⟨0x88000000, .exit false, by decide +kernel⟩
theorem witness_MemoryStaysCanonical : ∃ s t : State, Memory.wf s.mem.hbm = true ∧ step s = .next t :=
  ⟨placed, Exists.imp (fun _ h => ⟨by decide +kernel, h⟩) (next_is (r := step placed) (by decide +kernel))⟩

/-! ### Well-formedness: an ill-formed term for each check -/
theorem test_ill_formed : [Instr.ffma false .rs 1 2 3, .dfma false .rs 2 4 6, .bfma2 false .rs 1 2 3, .hfma2 false .rs 1 2 3, .fdot2 false .rs 1 2 3,
    .cvt false .rs .f32F4x false 1 2, .cvt false .rs .f4xF32 false 1 2, .plop false .not 1 2 3, .shfl false .bcast 1 2 3,
    .atom false .fadd .spec .f32 false 1 2, .atom false .add .plain .f32 false 1 2, .atom false .add .spec .b32 false 1 2,
    .atom false .maxN .quantum .b32 false 1 2, .atom false .xor .spec .b64 false 2 4, .atom false .cas .comm .b32 false 1 2,
    .ldrUse false .b32 false 0 1 2, .barx false .arrive 92 94 0, .barx false .init 92 94 96, .barx false .arrive 0 94 1, .fence false .d 0,
    .fence false .d 4, .getc false 92 0x13, .setc false 92 0x0A, .setc false 92 0x23, .reggive false 89, .regclaim false 89,
    .illegal 0].all (fun i => !wellFormed i) = true := by decide +kernel

/-! ### Decoding: the words of the spec's examples (07, 08, 15, 17, 20, 23) -/
/-- A word reads as an instruction, and the instruction has that word. -/
def reads (x : Word × Instr) : Bool := decide (decodeWord x.1 = .ok x.2) && wellFormed x.2 && decide (encode x.2 = x.1)
theorem test_reads_integers : [((0x0120C082 : Word), Instr.iadd false .satS 3 1 2), (0x04010286, .imad false .lo 4 5 6), (0x0561C3DE, .imnmx false .maxN 7 7 94),
    (0x0E208106, .iadd64 false true 2 2 6), (0x0D224408, .lea false 1 9 8 8), (0x0F60C205, .idiv false .remN 3 4 5), (0x06604103, .lop false .andn 1 2 3),
    (0x07414286, .shf false .shrS 5 5 6), (0x08008080, .iuna false .popc 2 1), (0x09210082, .bfe false true 4 1 2), (0x0A010082, .bfi false 4 1 2),
    (0x2F018082, .prmt false 6 1 2), (0x10122401, .iaddi false 9 9 1), (0x11020BFC, .andi false 1 2 0x3FC), (0x140DF402, .shli false 6 125 2),
    (0x16021234, .movl false 1 0x1234), (0x17028000, .movh false 1 0x8000), (0x1900C080, .mov false 3 1), (0x19180080, .mov false 96 1),
    (0x0B408082, .iset false .ltS 2 1 2), (0x1881F408, .iseti false .ltN 0 125 8), (0x0C610082, .sel false 3 4 1 2), (0x1A604103, .plop false .andn 1 2 3)].all
    reads = true := by decide +kernel
theorem test_reads_floats : [((0x23014307 : Word), Instr.ffma false .rn 5 6 7), (0x20204103, .fadd false .rz 1 2 3), (0x28010308, .dfma false .rn 4 6 8),
    (0x24604103, .fmnmx false .maxnum 1 2 3), (0x25C04103, .fset false .unord 1 2 3), (0x30408206, .dset false .lt 2 4 6), (0x31008080, .fcls false false 2 1),
    (0x29004103, .bfma2 false .rn 1 2 3), (0x2A004103, .hfma2 false .rn 1 2 3), (0x2B004103, .fdot2 false .rn 1 2 3), (0x2C210480, .sfu false .rsq .rn 4 9),
    (0x2C610486, .sfu false .ex2 .rs 4 9), (0x2D408200, .dsfu false .sqrt .rn 2 4), (0x2E0281C4, .cvt false .rn .f32E4m3 true 10 3),
    (0x2E01C088, .cvt false .rn .f32F4x false 7 1)].all reads = true := by decide +kernel
theorem test_reads_lanes : [((0x34408089 : Word), Instr.shfl false .down 2 1 9), (0x3557C080, .vote false .ballot 95 1), (0x3600C101, .matchv false 3 2 1),
    (0x37170080, .red false .addB32 92 1), (0x373B0080, .red false .addF32 108 1), (0x391212C0, .stg false .b32 true 9 4 0), (0x3A0A0A84, .lds false .b32 .ab 5 2 4),
    (0x3B0E1A40, .sts false .b32 .xremote 7 6 0), (0x3C0770C1, .lda false false .d false 3 92 1), (0x3D040460, .stl false false .b true 2 1 0),
    (0x3F061202, .ldrRo false .b32 3 4 2), (0x3F061264, .ldrUse false .b32 true 4 3 4), (0x3E080C04, .atom false .add .plain .b32 true 4 3),
    (0x3E0C1100, .atom false .add .comm .b32 false 6 4), (0x3E0C1048, .atom false .cas .plain .b32 false 6 4), (0x3E0C1062, .atom false .fadd .plain .f32 false 6 4)].all
    reads = true := by decide +kernel
theorem test_reads_control : [((0x81000007 : Word), Instr.bra false false 0 7), (0x83700003, .call false false 7 3), (0x821FFFFD, .bray false false 1 0xFFFFD),
    (0x85000500, .calli false 10), (0x86000500, .brai false 10), (0x87002B80, .ret false 87), (0x84003E00, .join false 124), (0x84002F80, .join false 95),
    (0x88000000, .exit false), (0x89003E00, .refill false 124), (0x8A000000, .region false), (0x8B000005, .trap false 5), (0x8C000001, .bpt false 1),
    (0x8D202F7C, .waitm false .ne 94 124), (0x90000000, .bar false false), (0x90200000, .bar false true), (0x91202F00, .barx false .arrive 0 94 0),
    (0x91B82F62, .barx false .wait 96 94 98), (0x92600002, .fence false .d 2), (0x92200003, .fence false .b 3), (0x93600000, .drain false .d), (0x94000000, .roinv false),
    (0x951B7080, .gmov false 109 97), (0x9617AF61, .galu false .add 94 94 97), (0x98C003E8, .gmovl false 96 1000), (0x99C00002, .gmovh false 96 2),
    (0x9A1B2E00, .gred false .addB32 108 92), (0x9B406F5F, .gset false .ltS 1 94 95), (0x9CBC0000, .getc false 94 0), (0x9CC4000C, .getc false 98 0x0C),
    (0x9DBA00A1, .setcFrm false 93), (0x9E188000, .clk false 98), (0x9F004103, .free false 1 2 3), (0xA0000020, .reggive false 32), (0xA1000020, .regclaim false 32)].all
    reads = true := by decide +kernel
theorem test_reads_engines : [((0xA8580000 : Word), Instr.cpwp false 2 96), (0xA9583080, .cpwait false 2 96 97), (0xAF588000, .cpstat false 2 98), (0xAA182F00, .mxpost false 96 94),
    (0xEB18B000, .mxstat true 98 96), (0xAC182F00, .tkpost false 96 94), (0xAD0030E2, .tksig false false 97 98), (0xAD2030E2, .tksig false true 97 98),
    (0xAE18B080, .tkjoin false 98 97), (0xB118B080, .tkread false false 98 97), (0xB138B080, .tkread false true 98 97), (0xB0192F66, .wdq false 100 94 102),
    (0xB0192F7C, .wdq false 100 94 124), (0xB2182F00, .cxpost false 96 94), (0xB318B000, .cxstat false 98 96), (0xB4003080, .cxreset false 97)].all
    reads = true := by decide +kernel

/-! ### One step of a word, from the spec's worked values (07, 08) -/
/-- The word issues for all lanes of the one warp, which has been changed. -/
def after (w : Word) (f : Warp → Warp) (p : State → Bool) : Bool :=
  match step ((State.reset.withFetchWord 32 w.toNat).updWarp 0 f) with
  | .next t => p t
  | _ => false
/-- What a lane register of lane 31 holds, or will hold when the result returns. -/
def lane31 (r : Nat) (v : Word) (t : State) : Bool :=
  match (t.warp 0).outs with
  | [] => (t.warp 0).vreg r 31 == v
  | o :: _ => o.writes.contains ⟨.lane r 31, v⟩
theorem test_iadd_saturates : after 0x0120C082 (setV 1 31 0x7FFFFFF0 ∘ setV 2 31 0x20) (lane31 3 0x7FFFFFFF) = true := by decide +kernel
theorem test_idiv_remainder : after 0x0F60C205 (setV 4 31 23 ∘ setV 5 31 5) (lane31 3 3) = true := by decide +kernel
theorem test_lea_triples : after 0x0D224408 (setV 8 31 7) (lane31 9 21) = true := by decide +kernel
theorem test_shf_past_the_width : after 0x07414286 (setV 5 31 0x80000000 ∘ setV 6 31 40) (lane31 5 0xFFFFFFFF) = true := by decide +kernel
theorem test_bfe_signed : after 0x09210082 (setV 1 31 0x0F70 ∘ setV 2 31 0x0404) (lane31 4 7) = true := by decide +kernel
theorem test_prmt_reverses : after 0x2F018082 (setV 6 31 0x4567 ∘ setV 1 31 0x44332211 ∘ setV 2 31 0x88776655) (lane31 6 0x55667788) = true := by decide +kernel
theorem test_andi_clears : after 0x11020BFC (setV 2 31 0xFFFFFFFF) (lane31 1 0xFFFFFFFC) = true := by decide +kernel
theorem test_shli_of_lid : after 0x140DF402 id (lane31 6 124) = true := by decide +kernel
theorem test_fcls_subnormal : after 0x31008080 (setV 1 31 0x80000001) (lane31 2 0x10) = true := by decide +kernel
theorem test_cvt_to_fp4 : after 0x2E01C088 (setV 7 31 0x4A7E ∘ setV 1 31 0x40266666) (lane31 7 8) = true := by decide +kernel
theorem test_mov_disagrees : after 0x19180080 (setV 1 31 1) (fun t => t.faults.pend.any fun r => r.code == 0x04) = true := by decide +kernel
theorem test_gmovh_gives : after 0x99C00002 (setW 4 0x12345) (fun t => (t.warp 0).wreg 4 == 0x00010000) = true := by decide +kernel
theorem test_call_links : after 0x83700003 id (fun t => (t.warp 0).vreg 87 31 == 0x10004 && ((t.warp 0).lane 31).pc == 0x10010) = true := by decide +kernel
theorem test_zero_word_is_illegal : after 0 id (fun t => t.faults.pend.any fun r => r.code == 0x01) = true := by decide +kernel

/-! ### The assembler, from the words that the spec writes beside its examples (02, 03) -/
/-- A statement at address 0 with no symbols: its word, or none where `tras` refuses it. -/
def trasWord (s : String) : Option Word :=
  match Tras.lexLine s.toList with
  | .ok ts => (Tras.asmInstr (fun _ => .error .undefinedSymbol) 0 ts).toOption.map (·.1)
  | .error _ => none
theorem test_tras_words : ([("LDG.b64 v4:v5, [w0:w1+8]", 0x38097301), ("SHLI v6, lid, 2", 0x140DF402),
    ("park LEA v9, v8, v8, 1 // x", 0x4D224408), ("CVT.f32_e4m3.sat.rn v10, v3", 0x2E0281C4),
    ("park LDS.b32.xfront v12, [v1+8]", 0x7A180642), ("BRA !p2, .-8", 0x81AFFFFD), ("GALUI.add w3, 100", 0x97BE0064)].all
    fun x => trasWord x.1 == some x.2) = true := by decide +kernel
theorem test_tras_refuses : (["FFMA.rs v5, v6, v7", "IADD v1, v2, 5", "LDG.b32 v1, [w0:w1+2]", "IADD64 v2:v3, v4, v6:v7",
    "BRA .+6", "MOVL v1, 65536", "IADD.wrap.sat_s v1, v2, v3", "GMOV v1, w2", "SETC FAULT, w1"].all
    fun x => trasWord x == none) = true := by decide +kernel
theorem test_tras_kernel : (Tras.assemble ".kernel k\n EXIT\n .endk\n .launch k\n".toList).toOption.map
      (fun x => (x.launches.map (·.2.drop 4), x.fills)) =
    some ([[0x10001, 0x00800001, 0, 0, 0, 0, 0, 0, 0, 0, 0, 0]], [(0, .bytes (wordBytes 0x88000000))]) := by decide +kernel
end Sys2Proof.Tests
end

section
/-! Memory stays canonical (O60). Only `Mem.hbmPut` and `Mem.rebase` write into the HBM list, by `memWrite` and
`memWriteBytes`, which keep `Memory.wf`; a power loss empties it. So each function of the model that a step runs gets
one of two lemmas, in the order of the model's files: `f_hbm`, it leaves the list as it is, or `f_canonical`, it keeps
the canonical form (`f_state` where a lane's result keeps the whole state). The step's lemma is put together from them. -/
namespace Sys2Proof.Machine

/-! ### The predicate, and how folds and outcomes carry it -/
/-- The HBM list of a memory side is in canonical form. -/
@[simp] abbrev Mem.Canonical (m : Mem) : Prop := Memory.wf m.hbm = true
/-- The HBM list of a state is in canonical form. -/
@[simp] abbrev State.Canonical (s : State) : Prop := s.mem.Canonical
/-- The next state of an outcome, where it has one, is in canonical form. -/
def KeepsCanonical (o : Host.Outcome State Fault Refusal) : Prop := ∀ t, o = .next t → t.Canonical

@[simp] theorem keepsCanonical_next (s : State) : KeepsCanonical (.next s) ↔ s.Canonical :=
  ⟨fun h => h s rfl, fun h _ e => by cases e; exact h⟩
@[simp] theorem keepsCanonical_fault (r : Fault) : KeepsCanonical (.fault r) := nofun

theorem State.Canonical.of_hbm {s t : State} (h : s.Canonical) (e : t.mem.hbm = s.mem.hbm) : t.Canonical := by
  simpa [e] using h
theorem snd_hbm {α : Type} {x : α × State} {a : α} {t : State} (e : x = (a, t)) : t.mem.hbm = x.2.mem.hbm := by
  rw [e]
theorem snd_canonical {α : Type} {x : α × State} {a : α} {t : State} (e : x = (a, t)) (h : x.2.Canonical) :
    t.Canonical := h.of_hbm (snd_hbm e)

@[simp] theorem ite_hbm (c : Prop) [Decidable c] (s t : State) :
    (if c then s else t).mem.hbm = if c then s.mem.hbm else t.mem.hbm := by split <;> rfl
@[simp] theorem wf_ite (c : Prop) [Decidable c] (a b : Memory) (ha : Memory.wf a = true) (hb : Memory.wf b = true) :
    Memory.wf (if c then a else b) = true := by split <;> assumption

/-- A fold each of whose steps keeps a part of the accumulator keeps that part. -/
theorem foldl_part {α β γ : Type} (p : β → γ) (f : β → α → β) (xs : List α) (b : β)
    (h : ∀ b x, p (f b x) = p b) : p (xs.foldl f b) = p b :=
  List.foldlRecOn (motive := fun c => p c = p b) xs f rfl fun c e x _ => (h c x).trans e
@[simp] theorem foldl_hbm {α : Type} (f : State → α → State) (xs : List α) (s : State)
    (h : ∀ s x, (f s x).mem.hbm = s.mem.hbm) : (xs.foldl f s).mem.hbm = s.mem.hbm := foldl_part (·.mem.hbm) f xs s h
@[simp] theorem foldl2_hbm {α β : Type} (f : β × State → α → β × State) (xs : List α) (r : β × State)
    (h : ∀ r x, (f r x).2.mem.hbm = r.2.mem.hbm) : (xs.foldl f r).2.mem.hbm = r.2.mem.hbm :=
  foldl_part (·.2.mem.hbm) f xs r h

theorem foldl_canonical {α : Type} (f : State → α → State) (xs : List α) (s : State)
    (hf : ∀ s x, s.Canonical → State.Canonical (f s x)) (h : s.Canonical) : State.Canonical (xs.foldl f s) :=
  List.foldlRecOn (motive := State.Canonical) xs f h fun s h x _ => hf s x h
theorem foldl2_canonical {α β : Type} (f : β × State → α → β × State) (xs : List α) (r : β × State)
    (hf : ∀ r x, r.2.Canonical → (f r x).2.Canonical) (h : r.2.Canonical) : (xs.foldl f r).2.Canonical :=
  List.foldlRecOn (motive := fun r => r.2.Canonical) xs f h fun r h x _ => hf r x h
theorem memFoldl_canonical {α : Type} (f : Mem → α → Mem) (xs : List α) (m : Mem)
    (hf : ∀ m x, m.Canonical → Mem.Canonical (f m x)) (h : m.Canonical) : Mem.Canonical (xs.foldl f m) :=
  List.foldlRecOn (motive := Mem.Canonical) xs f h fun m h x _ => hf m x h
theorem memFoldr_canonical {α : Type} (f : α → Mem → Mem) (xs : List α) (m : Mem)
    (hf : ∀ m x, m.Canonical → Mem.Canonical (f x m)) (h : m.Canonical) : Mem.Canonical (xs.foldr f m) :=
  List.foldrRecOn (motive := Mem.Canonical) xs f h fun m h x _ => hf m x h

@[simp] theorem operandsOr_hbm (ps : List OpPos) (s k : State) (h : k.mem.hbm = s.mem.hbm) :
    (operandsOr ps s k).mem.hbm = s.mem.hbm := by
  unfold operandsOr
  split
  · rfl
  · exact h
@[simp] theorem legalOr_hbm (ok : Bool) (s k : State) (h : k.mem.hbm = s.mem.hbm) :
    (legalOr ok s k).mem.hbm = s.mem.hbm := by
  unfold legalOr
  split
  · exact h
  · rfl
@[simp] theorem operandsOr_canonical (ps : List OpPos) (s k : State) (hs : s.Canonical) (hk : k.Canonical) :
    (operandsOr ps s k).Canonical := by
  unfold operandsOr
  split
  · exact hs
  · exact hk
@[simp] theorem legalOr_canonical (ok : Bool) (s k : State) (hs : s.Canonical) (hk : k.Canonical) :
    (legalOr ok s k).Canonical := by
  unfold legalOr
  split
  · exact hk
  · exact hs

/-! ### Shared operations: records, bundles, rows, outstanding writes -/
@[simp] theorem retireIssue_hbm (s : State) : (retireIssue s).mem.hbm = s.mem.hbm := by simp [retireIssue]
@[simp] theorem boundary_hbm (m : Word) (s : State) : (boundary m s).mem.hbm = s.mem.hbm := rfl
@[simp] theorem advance_hbm (m : Word) (s : State) : (advance m s).mem.hbm = s.mem.hbm := rfl
@[simp] theorem done_hbm (s : State) : (done s).mem.hbm = s.mem.hbm := by simp [done]
@[simp] theorem doneB_hbm (s : State) : (doneB s).mem.hbm = s.mem.hbm := by simp [doneB]
@[simp] theorem doneBranch_hbm (s : State) : (doneBranch s).mem.hbm = s.mem.hbm := by simp [doneBranch]
@[simp] theorem postRecord_hbm (r : FaultRec) (s : State) : (postRecord r s).mem.hbm = s.mem.hbm := rfl
@[simp] theorem raiseMask_hbm (m : Word) (code : Byte) (detail : BitVec 17) (faddr : DWord) (s : State) :
    (raiseMask m code detail faddr s).mem.hbm = s.mem.hbm := rfl
@[simp] theorem raiseBundle_hbm (code : Byte) (detail : BitVec 17) (faddr : DWord) (s : State) :
    (raiseBundle code detail faddr s).mem.hbm = s.mem.hbm := rfl
@[simp] theorem raiseLanes_hbm (fs : List LaneFault) (s : State) : (raiseLanes fs s).mem.hbm = s.mem.hbm := by
  unfold raiseLanes
  split <;> simp
@[simp] theorem raiseIllegal_hbm (s : State) : (raiseIllegal s).mem.hbm = s.mem.hbm := rfl
@[simp] theorem raiseOperand_hbm (pos : Nat) (code : Reg) (s : State) :
    (raiseOperand pos code s).mem.hbm = s.mem.hbm := rfl
@[simp] theorem raiseAgree_hbm (d : Reg) (s : State) : (raiseAgree d s).mem.hbm = s.mem.hbm := rfl
@[simp] theorem raiseMixed_hbm (d : Reg) (s : State) : (raiseMixed d s).mem.hbm = s.mem.hbm := rfl
@[simp] theorem raisePriv_hbm (s : State) : (raisePriv s).mem.hbm = s.mem.hbm := rfl
@[simp] theorem raiseEngine_hbm (detail : Nat) (faddr : DWord) (s : State) :
    (raiseEngine detail faddr s).mem.hbm = s.mem.hbm := rfl
@[simp] theorem raiseQuota_hbm (n : Nat) (s : State) : (raiseQuota n s).mem.hbm = s.mem.hbm := rfl
@[simp] theorem parkBundle_hbm (why : ParkWhy) (s : State) : (parkBundle why s).mem.hbm = s.mem.hbm := rfl
@[simp] theorem resumeCur_hbm (wk : Nat) (p : Park) (s : State) : (resumeCur wk p s).mem.hbm = s.mem.hbm := rfl
@[simp] theorem unpark_hbm (wk : Nat) (p : Park) (s : State) : (unpark wk p s).mem.hbm = s.mem.hbm := rfl
@[simp] theorem takeUp_hbm (wk : Nat) (p : Park) (f : State → State) (s : State)
    (hf : ∀ s, (f s).mem.hbm = s.mem.hbm) : (takeUp wk p f s).mem.hbm = s.mem.hbm := by simp [takeUp, hf]
@[simp] theorem takeUp_canonical (wk : Nat) (p : Park) (f : State → State) (s : State)
    (hf : ∀ s, s.Canonical → (f s).Canonical) (h : s.Canonical) :
    (takeUp wk p f s).Canonical := hf _ h

/-! ### Results -/
@[simp] theorem setScoped_hbm (s : State) (b : Block) (c : Nat) (r : ScopedReg) :
    (setScoped s b c r).mem.hbm = s.mem.hbm := by simp [setScoped]
theorem bankWriteAgree_hbm {s : State} {b : Block} {c : Nat} {pair : Bool} {v : DWord} {t : State}
    (e : bankWriteAgree s b c pair v = .ok t) : t.mem.hbm = s.mem.hbm := by
  unfold bankWriteAgree at e
  dsimp only at e
  split at e <;> cases e
  split <;> simp
@[simp] theorem raiseFlags_hbm (f : BitVec 5) (s : State) : (raiseFlags f s).mem.hbm = s.mem.hbm := rfl
@[simp] theorem Ending.apply_hbm (e : Ending) (s : State) : (e.apply s).mem.hbm = s.mem.hbm := by
  unfold Ending.apply
  split <;> simp
@[simp] theorem sendBank_hbm (e : Ending) (code : Reg) (pair : Bool) (red : Option RedKind)
    (vals : List (Nat × DWord)) (f : BitVec 5) (s : State) :
    (sendBank e code pair red vals f s).mem.hbm = s.mem.hbm := rfl
@[simp] theorem writeNowResult_hbm (e : Ending) (d : Reg) (pair : Bool) (vals : List (Nat × DWord)) (f : BitVec 5)
    (s : State) :
    (writeNowResult e d pair vals f s).mem.hbm = s.mem.hbm := by
  unfold writeNowResult
  dsimp only
  repeat' split
  all_goals simp
  next s1 e => exact bankWriteAgree_hbm e
@[simp] theorem addOut_hbm (o : Out) (s : State) : (addOut o s).mem.hbm = s.mem.hbm := rfl
@[simp] theorem mapRows_hbm (rs : List Nat) (s : State) : (mapRows rs s).mem.hbm = s.mem.hbm := rfl
@[simp] theorem outResult_hbm (e : Ending) (per : Bool) (d : Reg) (pair : Bool) (vals : List (Nat × DWord)) (o : Out)
    (s : State) :
    (outResult e per d pair vals o s).mem.hbm = s.mem.hbm := by simp [outResult]
@[simp] theorem writeResult_hbm (srcs : List Reg) (d : Reg) (pair : Bool) (vals : List (Nat × DWord)) (f : BitVec 5)
    (s : State) :
    (writeResult srcs d pair vals f s).mem.hbm = s.mem.hbm := by simp [writeResult]
@[simp] theorem writeUniform_hbm (srcs : List Reg) (d : Reg) (pair : Bool) (v : DWord) (s : State) :
    (writeUniform srcs d pair v s).mem.hbm = s.mem.hbm := by simp [writeUniform]
@[simp] theorem writePred_hbm (srcs : List Reg) (p : PredNo) (vals : List (Nat × Bool)) (f : BitVec 5) (s : State) :
    (writePred srcs p vals f s).mem.hbm = s.mem.hbm := by simp [writePred]

/-! ### Lane forms of the integer and float instructions -/
@[simp] theorem lane2_hbm (f : Word → Word → Word) (d a b : Reg) (s : State) :
    (lane2 f d a b s).mem.hbm = s.mem.hbm := by simp [lane2]
@[simp] theorem lane3_hbm (f : Word → Word → Word → Word) (d a b : Reg) (s : State) :
    (lane3 f d a b s).mem.hbm = s.mem.hbm := by simp [lane3]
@[simp] theorem lane1_hbm (f : Word → Word) (d a : Reg) (s : State) :
    (lane1 f d a s).mem.hbm = s.mem.hbm := by simp [lane1]
@[simp] theorem lanePred_hbm (f : Word → Word → Bool) (p : PredNo) (a b : Reg) (s : State) :
    (lanePred f p a b s).mem.hbm = s.mem.hbm := by simp [lanePred]
@[simp] theorem laneConst_hbm (v : Word) (d : Reg) (s : State) :
    (laneConst v d s).mem.hbm = s.mem.hbm := by simp [laneConst]
@[simp] theorem writeFloat_hbm (srcs : List Reg) (d : Reg) (pair : Bool) (f : Nat → Nat × BitVec 5) (s : State) :
    (writeFloat srcs d pair f s).mem.hbm = s.mem.hbm := by simp [writeFloat]
@[simp] theorem float3_hbm (f : Mode → Nat → Nat → Nat → Nat × BitVec 5) (m : Rnd) (d a b : Reg) (s : State) :
    (float3 f m d a b s).mem.hbm = s.mem.hbm := by simp [float3]
@[simp] theorem double3_hbm (f : Mode → Nat → Nat → Nat → Nat × BitVec 5) (m : Rnd) (d a b : Reg) (s : State) :
    (double3 f m d a b s).mem.hbm = s.mem.hbm := by simp [double3]
@[simp] theorem outFloat_hbm (d : Reg) (pair : Bool) (f : Nat → Nat × BitVec 5) (s : State) :
    (outFloat d pair f s).mem.hbm = s.mem.hbm := by simp [outFloat]

/-! ### Reductions into banks -/
@[simp] theorem redBank_hbm (k : RedKind) (d : Reg) (vals : List (Nat × DWord)) (s : State) :
    (redBank k d vals s).mem.hbm = s.mem.hbm := by
  unfold redBank
  repeat' split
  all_goals simp

/-! ### The memory side: lines, homes, translation, flights (R217 to R228, R362 to R371) -/
@[simp] theorem Mem.rebase_canonical (m : Mem) (k sec : Nat) (h : m.Canonical) : (m.rebase k sec).Canonical := by
  unfold Mem.rebase
  dsimp only
  split
  · exact h
  · exact memWriteBytes_wf _ _ _ h
@[simp] theorem Mem.hbmPut_canonical (m : Mem) (k pa : Nat) (v : Byte) (h : m.Canonical) :
    (m.hbmPut k pa v).Canonical := by
  unfold Mem.hbmPut
  exact memWrite_wf _ _ _ (Mem.rebase_canonical _ _ _ h)
@[simp] theorem Mem.writeBack_canonical (m : Mem) (ln : Nat) (l : Line) (h : m.Canonical) :
    (m.writeBack ln l).Canonical := by
  unfold Mem.writeBack
  exact memFoldr_canonical _ _ _ (fun m x h => Mem.hbmPut_canonical _ _ _ _ h) h
@[simp] theorem Mem.dropLine_canonical (m : Mem) (back : Bool) (ln : Nat) (h : m.Canonical) :
    (m.dropLine back ln).Canonical := by
  unfold Mem.dropLine
  dsimp only
  repeat' split
  all_goals simp [h]
@[simp] theorem Mem.makeRoom_canonical (m : Mem) (way ln : Nat) (h : m.Canonical) :
    (m.makeRoom way ln).2.Canonical := by
  unfold Mem.makeRoom
  split <;> simp [h]
@[simp] theorem Mem.fillLine_canonical (m : Mem) (a : PageAttr) (use : Option (Nat × Bool)) (ln : Nat)
    (h : m.Canonical) : (m.fillLine a use ln).2.Canonical := by
  unfold Mem.fillLine
  extract_lets m1
  have h1 : m1.Canonical := by
    simp only [m1]
    repeat' split
    all_goals simp [h]
  dsimp only
  repeat' split
  all_goals simp [h1]
@[simp] theorem Mem.countRead_canonical (m : Mem) (ln : Nat) (h : m.Canonical) : (m.countRead ln).Canonical := by
  unfold Mem.countRead
  repeat' split
  all_goals simp [h]
@[simp] theorem Mem.countReads_canonical (m : Mem) (ads : List Nat) (h : m.Canonical) :
    (m.countReads ads).Canonical := by
  unfold Mem.countReads
  exact memFoldl_canonical _ _ _ (fun m x h => Mem.countRead_canonical _ _ h) h
@[simp] theorem Mem.serveSector_canonical (m : Mem) (a : PageAttr) (use : Option (Nat × Bool)) (sec : Nat)
    (h : m.Canonical) :
    (m.serveSector a use sec).2.Canonical := by
  unfold Mem.serveSector
  dsimp only
  split <;> simp [h]
@[simp] theorem Mem.homeWrite_canonical (m : Mem) (a : PageAttr) (pa : Nat) (v : Byte) (wid : Nat) (h : m.Canonical) :
    (m.homeWrite a pa v wid).Canonical := by
  unfold Mem.homeWrite
  have h1 := Mem.fillLine_canonical m a none (pa / 1024) h
  dsimp only
  split
  · exact h1
  · exact Mem.hbmPut_canonical _ _ _ _ h1
@[simp] theorem Mem.recordScope_hbm (m : Mem) (pa : Nat) (r : RelInfo) : (m.recordScope pa r).hbm = m.hbm := rfl
@[simp] theorem Mem.arriveByte_canonical (m : Mem) (w : PWrite) (h : m.Canonical) : (m.arriveByte w).Canonical := by
  unfold Mem.arriveByte
  dsimp only
  repeat' split
  all_goals simp [h]
@[simp] theorem Mem.lose_hbm (m : Mem) (p n : Nat) : (m.lose p n).hbm = m.hbm := by
  unfold Mem.lose
  split <;> simp
@[simp] theorem arriveWrite_canonical (s : State) (w : PWrite) (h : s.Canonical) : (arriveWrite s w).Canonical := by
  unfold arriveWrite
  split <;> simp [h]
@[simp] theorem reachPeer_hbm (p : Nat) (ws : List PWrite) (s : State) :
    (reachPeer p ws s).mem.hbm = s.mem.hbm := by simp [reachPeer]
@[simp] theorem arriveWrites_canonical (peer : Option Nat) (ws : List PWrite) (s : State) (h : s.Canonical) :
    (arriveWrites peer ws s).Canonical := by
  unfold arriveWrites
  split
  · exact foldl_canonical _ _ _ (fun s w h => by simp [h]) h
  · simp [h]
@[simp] theorem ackFlight_hbm (fid : Nat) (s : State) : (ackFlight fid s).mem.hbm = s.mem.hbm := by
  unfold ackFlight
  split <;> simp
@[simp] theorem arriveFlight_canonical (f : Flight) (s : State) (h : s.Canonical) :
    (arriveFlight f s).Canonical := by simp [arriveFlight, h]
@[simp] theorem arriveOne_canonical (f : Flight) (s : State) (h : s.Canonical) :
    (arriveOne f s).Canonical := by simp [arriveOne, h]
@[simp] theorem drainHome_canonical (src home : Nat) (s : State) (h : s.Canonical) :
    (drainHome src home s).Canonical := by
  unfold drainHome
  exact foldl_canonical _ _ _ (fun s x h => by simp [h]) h
@[simp] theorem addFlight_hbm (src home : Nat) (nt : Bool) (ws : List PWrite) (s : State) :
    (addFlight src home nt ws s).mem.hbm = s.mem.hbm := rfl
@[simp] theorem sendWrites_hbm (src : Nat) (nt : Bool) (ws : List PWrite) (s : State) :
    (sendWrites src nt ws s).mem.hbm = s.mem.hbm := by
  unfold sendWrites
  exact foldl_hbm _ _ _ fun s x => rfl
@[simp] theorem evictWhere_hbm (core : Nat) (p : Nat → Bool) (s : State) :
    (evictWhere core p s).mem.hbm = s.mem.hbm := by
  unfold evictWhere
  exact foldl_hbm _ _ _ fun s x => by simp
@[simp] theorem makeL1Room_hbm (core n : Nat) (s : State) :
    (makeL1Room core n s).mem.hbm = s.mem.hbm := by simp [makeL1Room]
@[simp] theorem freshWid_hbm (s : State) : (freshWid s).2.mem.hbm = s.mem.hbm := rfl
@[simp] theorem homeStore_canonical (a : PageAttr) (pa : Nat) (bs : List Byte) (s : State) (h : s.Canonical) :
    (homeStore a pa bs s).Canonical := by
  unfold homeStore
  exact memFoldl_canonical _ _ _ (fun m x h => Mem.homeWrite_canonical _ _ _ _ _ h) h
@[simp] theorem countWalk_canonical (part va : Nat) (swap : List Nat) (m0 : Mem) (s : State) (h : s.Canonical) :
    (countWalk part va swap m0 s).Canonical := by simp [countWalk, h]
@[simp] theorem walkAccess_canonical (core : Option Nat) (part : Nat) (k : Acc) (lane va : Nat) (s : State)
    (h : s.Canonical) :
    (walkAccess core part k lane va s).2.Canonical := by
  unfold walkAccess
  split
  · simp [h]
  · split
    · simp [h]
    · dsimp only
      repeat' split
      all_goals simp [h]
@[simp] theorem translate_canonical (core : Option Nat) (part : Nat) (k : Acc) (lane va : Nat) (s : State)
    (h : s.Canonical) :
    (translate core part k lane va s).2.Canonical := by
  unfold translate
  split
  · exact h
  · split
    · simp [h]
    · split
      · simp [h]
      · split <;> exact h
@[simp] theorem arriveNt_canonical (wk : Nat) (ks : List Nat) (s : State) (h : s.Canonical) :
    (arriveNt wk ks s).Canonical := by
  unfold arriveNt
  exact foldl_canonical _ _ _ (fun s x h => by simp [h]) h
@[simp] theorem serveFor_canonical (core : Nat) (a : PageAttr) (use : Option (Nat × Bool)) (sec : Nat) (s : State)
    (h : s.Canonical) :
    (serveFor core a use sec s).2.Canonical := by simp [serveFor, h]
@[simp] theorem sectorBytes_canonical (core : Nat) (k : LoadKind) (a : PageAttr) (sec : Nat) (s : State)
    (h : s.Canonical) :
    (sectorBytes core k a sec s).2.Canonical := by
  unfold sectorBytes
  dsimp only
  repeat' split
  all_goals simp [h]
@[simp] theorem loadSector_canonical (wk core before : Nat) (k : LoadKind) (n sec : Nat) (accs : List LaneAcc)
    (r : Map (List HByte) × State) (h : r.2.Canonical) :
    (loadSector wk core before k n sec accs r).2.Canonical := by
  unfold loadSector
  dsimp only
  split <;> simp [h]
@[simp] theorem loadOther_hbm (wk core before : Nat) (k : LoadKind) (n : Nat) (r : Map (List HByte) × State)
    (a : LaneAcc) :
    (loadOther wk core before k n r a).2.mem.hbm = r.2.mem.hbm := by
  unfold loadOther
  dsimp only
  repeat' split
  all_goals simp
@[simp] theorem askPeers_hbm (wk core before : Nat) (k : LoadKind) (n : Nat) (accs : List LaneAcc) (s : State) :
    (askPeers wk core before k n accs s).mem.hbm = s.mem.hbm := by
  unfold askPeers
  exact foldl_hbm _ _ _ fun s x => rfl
@[simp] theorem loadGlobal_canonical (wk core before : Nat) (k : LoadKind) (n : Nat) (accs : List LaneAcc) (s : State)
    (h : s.Canonical) :
    (loadGlobal wk core before k n accs s).2.Canonical := by
  have h0 : (if k.isRo then s else arriveNt wk (accs.flatMap fun a => a.keys n) s).Canonical := by split <;> simp [h]
  unfold loadGlobal
  refine foldl2_canonical _ _ _ (fun r a h => by simp [h]) ?_
  exact (foldl2_canonical _ _ ([], _) (fun r sec h => by simp [h]) h0).of_hbm (askPeers_hbm ..)
@[simp] theorem addHb_hbm (wk : Nat) (l : List Nat) (s : State) :
    (addHb wk l s).mem.hbm = s.mem.hbm := by simp [addHb]
@[simp] theorem acquireDrop_hbm (core : Nat) (sc : Scope) (s : State) :
    (acquireDrop core sc s).mem.hbm = s.mem.hbm := by simp [acquireDrop]
@[simp] theorem acquire_hbm (wk core : Nat) (sc : Scope) (wids : List Nat) (s : State) :
    (acquire wk core sc wids s).mem.hbm = s.mem.hbm := by simp [acquire]
@[simp] theorem enginePiece_canonical (a : LaneAcc) (n : Nat) (use : Option (Nat × Bool)) (s : State)
    (h : s.Canonical) :
    (enginePiece a n use s).2.Canonical := by
  unfold enginePiece
  dsimp only
  repeat' split
  all_goals simp [h]
@[simp] theorem engineRead_canonical (part va n : Nat) (use : Option (Nat × Bool)) (s : State) (h : s.Canonical) :
    (engineRead part va n use s).2.Canonical := by
  unfold engineRead
  refine foldl2_canonical _ _ _ (fun r p h => ?_) h
  have ht := translate_canonical none part .read 0 p.1 r.2 h
  split
  · exact h
  · split
    next e => exact snd_canonical e ht
    next e =>
      have h1 := snd_canonical e ht
      dsimp only
      split <;> simp [h1]
@[simp] theorem engineWrite_canonical (part va : Nat) (bs : List Byte) (s : State) (h : s.Canonical) :
    (engineWrite part va bs s).2.Canonical := by
  unfold engineWrite
  refine foldl2_canonical _ _ _ (fun r p h => ?_) h
  have ht := translate_canonical none part .write 0 p.1 r.2 h
  split
  · exact h
  · split
    next e => exact snd_canonical e ht
    next e =>
      have h1 := snd_canonical e ht
      dsimp only
      split <;> simp [h1]

/-! ### Counters of the task yards -/
@[simp] theorem addJob_hbm (q : Nat) (j : Job) (s : State) : (addJob q j s).mem.hbm = s.mem.hbm := rfl
@[simp] theorem removeJob_hbm (q jid : Nat) (s : State) : (removeJob q jid s).mem.hbm = s.mem.hbm := rfl
@[simp] theorem updJob_hbm (q jid : Nat) (f : Job → Job) (s : State) : (updJob q jid f s).mem.hbm = s.mem.hbm := rfl
@[simp] theorem putCtr_hbm (q c : Nat) (x : Ctr) (s : State) : (putCtr q c x s).mem.hbm = s.mem.hbm := rfl
@[simp] theorem tkjoinDone_hbm (q c : Nat) (d : Reg) (s : State) :
    (tkjoinDone q c d s).mem.hbm = s.mem.hbm := by simp [tkjoinDone]
@[simp] theorem finishTkjoin_hbm (q c wk : Nat) (p : Park) (d : Reg) (s : State) :
    (finishTkjoin q c wk p d s).mem.hbm = s.mem.hbm := by simp [finishTkjoin]
@[simp] theorem becomeZero_hbm (q c : Nat) (s : State) : (becomeZero q c s).mem.hbm = s.mem.hbm := by
  unfold becomeZero
  exact foldl_hbm _ _ _ fun s x => by simp
@[simp] theorem decrement_canonical (q c n : Nat) (mark : FailMark) (gid : Nat) (s : State) (h : s.Canonical) :
    (decrement q c n mark gid s).Canonical := by
  unfold decrement
  dsimp only
  repeat' split
  all_goals simp [h]
@[simp] theorem setCtr_hbm (q c : Nat) (v : Word) (key : Nat) (s : State) :
    (setCtr q c v key s).mem.hbm = s.mem.hbm := by simp [setCtr]
@[simp] theorem ctrRelease_hbm (q c : Nat) (hb : List Nat) (s : State) :
    (ctrRelease q c hb s).mem.hbm = s.mem.hbm := by simp [ctrRelease]

/-! ### Barrier objects in a window -/
@[simp] theorem localObjChange_hbm (bk off : Nat) (r : BarObj × Bool) (s : State) :
    (localObjChange bk off r s).mem.hbm = s.mem.hbm := by simp [localObjChange]
@[simp] theorem deliverRemote_hbm (toBk off slot : Nat) (data : List Byte) (s : State) :
    (deliverRemote toBk off slot data s).mem.hbm = s.mem.hbm := by simp [deliverRemote]

/-! ### Copy channels: entries, deliveries and the engine's reads and writes -/
@[simp] theorem writeHeader_hbm (bk ch : Nat) (s : State) : (writeHeader bk ch s).mem.hbm = s.mem.hbm := rfl
@[simp] theorem updChan_hbm (bk ch : Nat) (f : Chan → Chan) (s : State) :
    (updChan bk ch f s).mem.hbm = s.mem.hbm := by simp [updChan]
@[simp] theorem parkHeaders_hbm (bk : Nat) (s : State) : (parkHeaders bk s).mem.hbm = s.mem.hbm := by
  unfold parkHeaders
  exact foldl_hbm _ _ _ fun s x => by simp
@[simp] theorem layoutRings_hbm (bk : Nat) (base size : Word) (s : State) :
    (layoutRings bk base size s).mem.hbm = s.mem.hbm := by
  unfold layoutRings
  exact foldl_hbm _ _ _ fun s x => by simp
@[simp] theorem takeEntry_hbm (bk ch : Nat) (k : Word) (s : State) : (takeEntry bk ch k s).mem.hbm = s.mem.hbm := by
  unfold takeEntry
  dsimp only
  split <;> simp
@[simp] theorem takeEntries_hbm (bk ch n : Nat) (s : State) : (takeEntries bk ch n s).mem.hbm = s.mem.hbm := by
  induction n generalizing s with
  | zero => rfl
  | succ n ih => simp [takeEntries, ih]
@[simp] theorem publishRing_hbm (bk ch : Nat) (s : State) : (publishRing bk ch s).mem.hbm = s.mem.hbm := by
  unfold publishRing
  dsimp only
  repeat' split
  all_goals simp
@[simp] theorem publishAt_hbm (bk : Nat) (offs : List Nat) (s : State) :
    (publishAt bk offs s).mem.hbm = s.mem.hbm := by
  unfold publishAt
  refine foldl_hbm _ _ _ fun s ch => ?_
  dsimp only
  split <;> simp
@[simp] theorem Deliv.failed_state (f : MemFault) (a : Nat) (d : Deliv) : (d.failed f a).s = d.s := by
  unfold Deliv.failed
  split <;> rfl
@[simp] theorem dSector_canonical (part sec : Nat) (use : Option (Nat × Bool)) (va : Nat) (d : Deliv)
    (h : d.s.Canonical) :
    (dSector part sec use va d).2.s.Canonical := by
  have ht := translate_canonical none part .read 0 (128 * sec) d.s h
  unfold dSector
  split
  next e =>
    have h1 := snd_canonical e ht
    simp [h1]
  next e =>
    have h1 := snd_canonical e ht
    simp [h1]
@[simp] theorem dRead_canonical (part : Nat) (r : List Word) (va : Nat) (d : Deliv) (h : d.s.Canonical) :
    (dRead part r va d).2.s.Canonical := by
  unfold dRead
  extract_lets use got
  have hg : got.2.s.Canonical := by
    simp only [got]
    split
    · exact h
    · dsimp only
      split <;> simp [h]
  repeat' split
  all_goals simp [hg]
@[simp] theorem dGroup_canonical (part : Nat) (r : List Word) (row g : Nat) (d : Deliv) (h : d.s.Canonical) :
    (dGroup part r row g d).2.s.Canonical := by
  unfold dGroup
  refine List.foldlRecOn (motive := fun (x : List (Option Byte) × Deliv) => x.2.s.Canonical) _ _ h fun x h va _ => ?_
  split
  · exact h
  · simp [h]
@[simp] theorem dLocal_hbm (bad : Bool) (v : Nat) (d : Deliv) : (dLocal bad v d).2.s.mem.hbm = d.s.mem.hbm := by
  unfold dLocal
  split <;> simp
@[simp] theorem dSource_canonical (b : Block) (r : List Word) (src : CSrc) (d : Deliv) (h : d.s.Canonical) :
    (dSource b r src d).2.s.Canonical := by
  unfold dSource
  cases src with
  | plane row g o =>
    dsimp only
    split <;> simp [h]
  | _ => simp [h]
@[simp] theorem dDest_canonical (b : Block) (r : List Word) (dst : CDst) (v : Byte) (d : Deliv) (h : d.s.Canonical) :
    (dDest b r dst v d).s.Canonical := by
  unfold dDest
  split
  · exact h
  · split
    · split <;> simp [h]
    · exact h
  next va =>
    have he := engineWrite_canonical b.part va [v] d.s h
    split
    next e => exact snd_canonical e he
    next e =>
      have h1 := snd_canonical e he
      simp [h1]
@[simp] theorem dTable_canonical (b : Block) (r : List Word) (p : Nat) (d : Deliv) (h : d.s.Canonical) :
    (dTable b r p d).2.s.Canonical := by
  have he := engineRead_canonical b.part (cGaddr r + 8 * (p / cE r / cD0 r / cD1 r / cD2 r)) 8 none d.s h
  unfold dTable
  dsimp only
  split
  · exact h
  · split
    · exact h
    · split
      next e => exact snd_canonical e he
      next e =>
        have h1 := snd_canonical e he
        dsimp only
        split <;> simp [h1]
@[simp] theorem dByte_canonical (b : Block) (r : List Word) (d : Deliv) (p : Nat) (h : d.s.Canonical) :
    (dByte b r d p).s.Canonical := by
  unfold dByte
  split
  · exact h
  · extract_lets t v d1
    have ht : t.2.s.Canonical := dTable_canonical _ _ _ _ h
    have hv : v.2.s.Canonical := by
      simp only [v]
      split <;> simp [ht]
    have h1 : d1.s.Canonical := by
      simp only [d1]
      repeat' split
      all_goals simp [hv]
    split <;> exact h1
@[simp] theorem deliver_canonical (b : Block) (x : CopyCmd) (ps : List Nat) (s : State) (h : s.Canonical) :
    (deliver b x ps s).s.Canonical :=
  List.foldlRecOn (motive := fun d => d.s.Canonical) ps _ h fun d h p _ => dByte_canonical b x.words d p h
@[simp] theorem countRemote_hbm (b : Block) (r : List Word) (n : Nat) (s : State) :
    (countRemote b r n s).mem.hbm = s.mem.hbm := by
  unfold countRemote
  split <;> simp
@[simp] theorem updHead_hbm (bk ch : Nat) (f : CopyCmd → CopyCmd) (s : State) :
    (updHead bk ch f s).mem.hbm = s.mem.hbm := by simp [updHead]
@[simp] theorem completeCopy_canonical (bk ch : Nat) (s : State) (h : s.Canonical) :
    (completeCopy bk ch s).Canonical := by
  unfold completeCopy
  split <;> simp [h]
@[simp] theorem skipCopy_hbm (bk ch : Nat) (s : State) : (skipCopy bk ch s).mem.hbm = s.mem.hbm := by
  unfold skipCopy
  split <;> simp

/-! ### Memory operations in a warp's queue: when they perform, and what a release forces -/
@[simp] theorem pushOp_hbm (o : MemOp) (s : State) : (pushOp o s).mem.hbm = s.mem.hbm := rfl
@[simp] theorem poolStore_hbm (core : Nat) (ws : List PWrite) (s : State) :
    (poolStore core ws s).mem.hbm = s.mem.hbm := by simp [poolStore]
@[simp] theorem ntStore_hbm (wk core : Nat) (ws : List PWrite) (s : State) :
    (ntStore wk core ws s).mem.hbm = s.mem.hbm := by simp [ntStore]
@[simp] theorem localStore_hbm (bk : Nat) (lws : List LWrite) (rel : Option (Scope × Nat)) (s : State) :
    (localStore bk lws rel s).mem.hbm = s.mem.hbm := by simp [localStore]
@[simp] theorem updOut_hbm (wk id : Nat) (f : Out → Out) (s : State) : (updOut wk id f s).mem.hbm = s.mem.hbm := rfl
@[simp] theorem lateFaults_hbm (wk : Nat) (o : Out) (fs : List LaneFault) (s : State) :
    (lateFaults wk o fs s).mem.hbm = s.mem.hbm := by
  unfold lateFaults
  split <;> simp
@[simp] theorem sampleLoad_canonical (wk id : Nat) (s : State) (h : s.Canonical) :
    (sampleLoad wk id s).Canonical := by
  unfold sampleLoad
  dsimp only
  repeat' split
  all_goals simp [h]
@[simp] theorem finishOp_canonical (wk : Nat) (o : MemOp) (s : State) (h : s.Canonical) :
    (finishOp wk o s).Canonical := by
  unfold finishOp
  dsimp only
  repeat' split
  all_goals simp [h]
@[simp] theorem releaseBegin_hbm (core : Nat) (sc : Scope) (s : State) :
    (releaseBegin core sc s).mem.hbm = s.mem.hbm := by simp [releaseBegin]
@[simp] theorem performOp_canonical (wk id : Nat) (s : State) (h : s.Canonical) : (performOp wk id s).Canonical := by
  unfold performOp
  dsimp only
  repeat' split
  all_goals simp [h]
@[simp] theorem returnAtom_hbm (a : AtomReq) (old : DWord) (s : State) :
    (returnAtom a old s).mem.hbm = s.mem.hbm := by
  unfold returnAtom
  split <;> simp
@[simp] theorem performLocalAtom_hbm (a : AtomReq) (s : State) : (performLocalAtom a s).mem.hbm = s.mem.hbm := by
  unfold performLocalAtom
  dsimp only
  split <;> simp
@[simp] theorem drainForAtom_canonical (a : AtomReq) (s : State) (h : s.Canonical) :
    (drainForAtom a s).Canonical := by simp [drainForAtom, h]
@[simp] theorem flushForAtom_canonical (a : AtomReq) (s : State) (h : s.Canonical) :
    (flushForAtom a s).Canonical := by
  simp [flushForAtom, h]
@[simp] theorem homeAtom_canonical (acc : LaneAcc) (b64 : Bool) (ask : Aop × DWord × DWord) (wid : Nat)
    (f : DWord → Option DWord) (s : State) (h : s.Canonical) :
    (homeAtom acc b64 ask wid f s).2.Canonical := by
  unfold homeAtom
  dsimp only
  split
  · exact h
  · split
    · exact memFoldl_canonical _ _ _ (fun m ib h => by simp [h]) (by simp [h])
    · simp [h]
@[simp] theorem quantumAtom_canonical (a : AtomReq) (s : State) (h : s.Canonical) :
    (quantumAtom a s).2.Canonical := by
  unfold quantumAtom
  dsimp only
  split <;> simp [h]
@[simp] theorem performAtom_canonical (a : AtomReq) (s : State) (h : s.Canonical) : (performAtom a s).Canonical := by
  unfold performAtom
  extract_lets ms gone s1 s2
  have h1 : s1.Canonical := h
  have h2 : s2.Canonical := by
    simp only [s2]
    split
    · simp [h1]
    · exact foldl_canonical _ _ _ (fun s x h => by simp [h]) h1
  dsimp only
  repeat' split
  all_goals simp [h1, h2]

/-! ### Loads, stores and atomics of the lanes -/
@[simp] theorem globalLane_canonical (k : Acc) (n : Nat) (addr : Nat → DWord) (chk : AccCheck) (r : LaneRes) (l : Nat)
    (h : r.s.Canonical) :
    (globalLane k n addr chk r l).s.Canonical := by
  have ht := translate_canonical (some r.s.cur.core) r.s.cb.part k l (addr l).toNat r.s h
  unfold globalLane
  dsimp only
  split
  · exact h
  · split
    next e => exact snd_canonical e ht
    next e =>
      split
      · exact h
      · exact snd_canonical e ht
@[simp] theorem globalLanes_canonical (k : Acc) (n : Nat) (addr : Nat → DWord) (chk : AccCheck) (s : State)
    (h : s.Canonical) : (globalLanes k n addr chk s).s.Canonical :=
  List.foldlRecOn (motive := fun r => r.s.Canonical) s.bl _ h fun r h l _ => globalLane_canonical k n addr chk r l h
@[simp] theorem recheckLoad_canonical (wk id : Nat) (s : State) (h : s.Canonical) :
    (recheckLoad wk id s).Canonical := by
  unfold recheckLoad
  repeat' split
  all_goals simp [h]
@[simp] theorem performLate_canonical (wk id : Nat) (s : State) (h : s.Canonical) :
    (performLate wk id s).Canonical := by
  unfold performLate
  repeat' split
  all_goals simp [h]
@[simp] theorem performAtomLate_canonical (a : AtomReq) (s : State) (h : s.Canonical) :
    (performAtomLate a s).Canonical := by
  unfold performAtomLate
  split <;> simp [h]
@[simp] theorem localLane_state (q : LSpace) (rd : Bool) (n : Nat) (addr : Nat → Word) (s : State) (r : LaneRes)
    (l : Nat) :
    (localLane q rd n addr s r l).s = r.s := by
  unfold localLane
  dsimp only
  repeat' split
  all_goals rfl
@[simp] theorem foldlLanes_state {α : Type} (f : LaneRes → α → LaneRes) (xs : List α) (r : LaneRes)
    (h : ∀ r x, (f r x).s = r.s) : (xs.foldl f r).s = r.s := foldl_part (·.s) f xs r h
@[simp] theorem localLanes_state (q : LSpace) (rd : Bool) (n : Nat) (addr : Nat → Word) (s : State) :
    (localLanes q rd n addr s).s = s := by simp [localLanes]
@[simp] theorem remoteLane_state (n : Nat) (addr : Nat → Word) (s : State) (r : LaneRes) (l : Nat) :
    (remoteLane n addr s r l).s = r.s := by
  unfold remoteLane
  dsimp only
  repeat' split
  all_goals rfl
@[simp] theorem issueLoad_canonical (k : LoadKind) (isLocal : Bool) (n : Nat) (t : Reg) (r : LaneRes)
    (h : r.s.Canonical) :
    (issueLoad k isLocal n t r).Canonical := by simp [issueLoad, h]
@[simp] theorem globalLoad_canonical (k : LoadKind) (n : Nat) (t a : Reg) (addr : Nat → DWord) (chk : AccCheck)
    (s : State) (h : s.Canonical) :
    (globalLoad k n t a addr chk s).Canonical := by
  have hg := globalLanes_canonical .read n addr chk s h
  unfold globalLoad
  refine operandsOr_canonical _ _ _ h ?_
  split <;> simp [h, hg]
@[simp] theorem localLoad_canonical (q : LSpace) (k : LoadKind) (n : Nat) (t a : Reg) (addr : Nat → Word) (s : State)
    (h : s.Canonical) :
    (localLoad q k n t a addr s).Canonical := by
  unfold localLoad
  split <;> simp [h]
@[simp] theorem withPolicy_state (q : LdgQ) (r : LaneRes) : (withPolicy q r).s = r.s := rfl
@[simp] theorem execLdg_canonical (_sw : Bool) (sz : Size) (q : LdgQ) (t a : Reg) (off : BitVec 6) (s : State)
    (h : s.Canonical) :
    KeepsCanonical (execLdg _sw sz q t a off s) := by
  have hg (c : AccCheck) := globalLanes_canonical .read (sizeBytes sz) (gAddr s a off (sizeBytes sz)) c s h
  unfold execLdg
  refine (keepsCanonical_next _).2 (operandsOr_canonical _ _ _ h ?_)
  split
  · exact issueLoad_canonical _ _ _ _ _ (hg _)
  · simp [h]
@[simp] theorem orderWrite_hbm (wid : Nat) (s : State) :
    (orderWrite wid s).mem.hbm = s.mem.hbm := by simp [orderWrite]
@[simp] theorem performOverwritten_canonical (wk id : Nat) (s : State) (h : s.Canonical) :
    (performOverwritten wk id s).Canonical := by
  unfold performOverwritten
  dsimp only
  split
  · split
    · exact foldl_canonical _ _ _ (fun s x h => by simp [h]) h
    · exact h
  · exact h
@[simp] theorem issueStore_canonical (n : Nat) (t : Reg) (nt : Bool) (rel : Option Scope) (r : LaneRes)
    (h : r.s.Canonical) :
    (issueStore n t nt rel r).Canonical := by
  unfold issueStore
  dsimp only
  repeat' split
  all_goals simp [h]
@[simp] theorem issueLStore_canonical (q : LSpace) (n : Nat) (t : Reg) (rel : Option Scope) (r : LaneRes)
    (h : r.s.Canonical) :
    (issueLStore q n t rel r).Canonical := by
  unfold issueLStore
  dsimp only
  repeat' split
  all_goals simp [h]
@[simp] theorem execStg_canonical (_sw : Bool) (sz : Size) (nt : Bool) (t a : Reg) (off : BitVec 6) (s : State)
    (h : s.Canonical) :
    KeepsCanonical (execStg _sw sz nt t a off s) := by
  have hg := globalLanes_canonical .write (sizeBytes sz) (gAddr s a off (sizeBytes sz)) noCheck s h
  unfold execStg
  refine (keepsCanonical_next _).2 (operandsOr_canonical _ _ _ h ?_)
  split <;> simp [h, hg]
@[simp] theorem issueRemote_hbm (n : Nat) (t : Reg) (ends : Bool) (r : LaneRes) :
    (issueRemote n t ends r).mem.hbm = r.s.mem.hbm := by simp [issueRemote]
@[simp] theorem execSts_canonical (_sw : Bool) (sz : Size) (q : StsQ) (t a : Reg) (off : BitVec 6) (s : State)
    (h : s.Canonical) :
    KeepsCanonical (execSts _sw sz q t a off s) := by
  unfold execSts
  split <;> simp [h]
@[simp] theorem execStl_canonical (_sw b64 : Bool) (sc : Scope) (sp : Bool) (t a : Reg) (off : BitVec 5) (s : State)
    (h : s.Canonical) :
    KeepsCanonical (execStl _sw b64 sc sp t a off s) := by
  have hg := globalLanes_canonical .write (atomSize b64) (gAddr s a off (atomSize b64)) noCheck s h
  unfold execStl
  refine (keepsCanonical_next _).2 (operandsOr_canonical _ _ _ h ?_)
  split <;> simp [h, hg]
@[simp] theorem tryLocalAtoms_canonical (wk opId n : Nat) (s : State) (h : s.Canonical) :
    (tryLocalAtoms wk opId n s).Canonical := by
  induction n generalizing s with
  | zero => exact h
  | succ n ih =>
    unfold tryLocalAtoms
    split
    · split
      · exact h
      · exact ih _ (by simp [h])
    · exact h
@[simp] theorem issueAtom_canonical (aop : Aop) (b64 : Bool) (u : Use) (sp : Bool) (t : Reg) (r : LaneRes)
    (h : r.s.Canonical) :
    (issueAtom aop b64 u sp t r).Canonical := by
  unfold issueAtom
  dsimp only
  repeat' split
  all_goals simp [h]
@[simp] theorem execAtom_canonical (_sw : Bool) (aop : Aop) (u : Use) (ty : AtomTy) (sp : Bool) (t a : Reg)
    (s : State) (h : s.Canonical) :
    KeepsCanonical (execAtom _sw aop u ty sp t a s) := by
  have hg (c : AccCheck) := globalLanes_canonical .write (atomSize (ty == .b64)) (fun l => s.src64 a l) c s h
  unfold execAtom
  refine (keepsCanonical_next _).2 (legalOr_canonical _ _ _ h (operandsOr_canonical _ _ _ h ?_))
  split
  · simp [h]
  · refine issueAtom_canonical _ _ _ _ _ _ ?_
    split
    · simp [h]
    · exact hg _

/-! ### The end of lanes, warps and blocks -/
@[simp] theorem forceFlights_canonical (p : Flight → Bool) (s : State) (h : s.Canonical) :
    (forceFlights p s).Canonical := by
  unfold forceFlights
  exact foldl_canonical _ _ _ (fun s x h => by simp [h]) h
@[simp] theorem forceOp_canonical (wk id : Nat) (s : State) (h : s.Canonical) : (forceOp wk id s).Canonical := by
  unfold forceOp
  extract_lets drain s1 s2
  have h1 : s1.Canonical := by
    simp only [s1]
    split <;> simp [h]
  have h2 : s2.Canonical := by simp [s2, h1]
  split <;> simp [h2]
@[simp] theorem forceWid_canonical (x : Nat) (s : State) (h : s.Canonical) : (forceWid x s).Canonical := by
  unfold forceWid
  dsimp only
  refine foldl_canonical _ _ _ (fun s a h => by simp [h]) ?_
  split <;> simp [h]
@[simp] theorem forceStream_canonical (wk : Nat) (s : State) (h : s.Canonical) : (forceStream wk s).Canonical := by
  unfold forceStream
  exact foldl_canonical _ _ _ (fun s x h => by simp [h]) h
@[simp] theorem forceRelease_canonical (wk : Nat) (sc : Scope) (s : State) (h : s.Canonical) :
    (forceRelease wk sc s).Canonical := by
  have h1 := forceStream_canonical wk s h
  simp [forceRelease, h1]
@[simp] theorem blockRelease_canonical (wk : Nat) (s : State) (h : s.Canonical) :
    (blockRelease wk s).Canonical := by simp [blockRelease, h]
@[simp] theorem forceFences_canonical (wk : Nat) (s : State) (h : s.Canonical) :
    (forceFences wk s).Canonical := by simp [forceFences, h]
@[simp] theorem joinRelease_hbm (wk : Nat) (s : State) : (joinRelease wk s).mem.hbm = s.mem.hbm := rfl
@[simp] theorem taskEnd_canonical (wk l : Nat) (mark : Word → FailMark) (s : State) (h : s.Canonical) :
    (taskEnd wk l mark s).Canonical := by
  unfold taskEnd
  dsimp only
  repeat' split
  all_goals simp [h]
@[simp] theorem vacateLanes_canonical (wk : Nat) (m : Word) (mark : Word → FailMark) (s : State) (h : s.Canonical) :
    (vacateLanes wk m mark s).Canonical := by
  unfold vacateLanes
  exact foldl_canonical _ _ _ (fun s x h => by simp [h]) h
@[simp] theorem retryClaim_hbm (wk : Nat) (s : State) (c : Park × Nat) : (retryClaim wk s c).mem.hbm = s.mem.hbm := by
  unfold retryClaim
  dsimp only
  split <;> simp
@[simp] theorem retryClaims_hbm (bk : Nat) (s : State) : (retryClaims bk s).mem.hbm = s.mem.hbm := by
  unfold retryClaims
  exact foldl_hbm _ _ _ fun s x => by simp
@[simp] theorem claimDeadlock_hbm (bk : Nat) (s : State) : (claimDeadlock bk s).mem.hbm = s.mem.hbm := by
  unfold claimDeadlock
  dsimp only
  split
  · exact foldl_hbm _ _ _ fun s kw => foldl_hbm _ _ _ fun s c => takeUp_hbm _ _ _ _ fun s => by simp
  · rfl
@[simp] theorem givePool_hbm (bk n : Nat) (s : State) : (givePool bk n s).mem.hbm = s.mem.hbm := by simp [givePool]
@[simp] theorem countEnded_hbm (gid : Nat) (s : State) : (countEnded gid s).mem.hbm = s.mem.hbm := rfl
@[simp] theorem invalidateBanks_hbm (q : Nat) (p : LatchBank → Bool) (s : State) :
    (invalidateBanks q p s).mem.hbm = s.mem.hbm := rfl
@[simp] theorem removeBlock_hbm (bk : Nat) (s : State) : (removeBlock bk s).mem.hbm = s.mem.hbm := rfl
@[simp] theorem flushBlock_canonical (bk : Nat) (s : State) (h : s.Canonical) : (flushBlock bk s).Canonical := by
  unfold flushBlock
  extract_lets b wks s1
  have h1 : s1.Canonical :=
    (foldl_canonical _ wks s (fun s wk h => forceStream_canonical wk s h) h).of_hbm (releaseBegin_hbm ..)
  simp [h1]
@[simp] theorem blockEnd_canonical (bk : Nat) (s : State) (h : s.Canonical) : (blockEnd bk s).Canonical := by
  unfold blockEnd
  dsimp only
  split <;> simp [h]
@[simp] theorem warpRetire_canonical (wk : Nat) (s : State) (h : s.Canonical) : (warpRetire wk s).Canonical := by
  unfold warpRetire
  dsimp only
  split <;> simp [h]
@[simp] theorem afterLanes_canonical (wk : Nat) (s : State) (h : s.Canonical) : (afterLanes wk s).Canonical := by
  unfold afterLanes
  dsimp only
  split <;> simp [h]

/-! ### Control -/
@[simp] theorem link_hbm (ls : List Nat) (s : State) : (link ls s).mem.hbm = s.mem.hbm := rfl
@[simp] theorem linkFrom_hbm (a : Reg) (ls : List Nat) (s : State) :
    (linkFrom a ls s).mem.hbm = s.mem.hbm := by simp [linkFrom]
@[simp] theorem goTo_hbm (target : Nat → DWord) (f : Lane → Lane) (taken : Word) (s : State) :
    (goTo target f taken s).mem.hbm = s.mem.hbm := rfl
@[simp] theorem regBranch_hbm (a : Reg) (deep : Lane → Bool) (f : Lane → Lane) (lk : Bool) (s : State) :
    (regBranch a deep f lk s).mem.hbm = s.mem.hbm := by simp [regBranch]
@[simp] theorem execExit_canonical (_sw : Bool) (s : State) (h : s.Canonical) : KeepsCanonical (execExit _sw s) := by
  unfold execExit
  split <;> simp [h]
@[simp] theorem softTrap_hbm (fcode : Byte) (code : BitVec 17) (s : State) :
    (softTrap fcode code s).mem.hbm = s.mem.hbm := by simp [softTrap]

/-! ### Synchronisation -/
@[simp] theorem bundleAt_hbm (code : Byte) (detail : Nat) (addr : DWord) (s : State) :
    (bundleAt code detail addr s).mem.hbm = s.mem.hbm := rfl
@[simp] theorem uniformAcc_canonical (k : Acc) (n align : Nat) (a : DWord) (s : State) (h : s.Canonical) :
    (uniformAcc k n align a s).2.Canonical := by
  have ht := translate_canonical (some s.cur.core) s.cb.part k 0 a.toNat s h
  unfold uniformAcc
  dsimp only
  split
  · repeat' split
    all_goals exact h
  · split
    · exact h
    · split
      next e => exact snd_canonical e ht
      next e =>
        split <;> exact snd_canonical e ht
theorem uniformAcc_error_canonical {k : Acc} {n align : Nat} {a : DWord} {s t u : State} (h : s.Canonical)
    (e : uniformAcc k n align a s = (.error t, u)) :
    t.Canonical := by
  have ht := translate_canonical (some s.cur.core) s.cb.part k 0 a.toNat s h
  unfold uniformAcc at e
  dsimp only at e
  split at e
  · repeat' split at e
    all_goals cases e
    all_goals simp [h]
  · split at e
    · cases e
      simp [h]
    · split at e
      next e1 =>
        cases e
        have h1 := snd_canonical e1 ht
        simp [h1]
      next e1 =>
        have h1 := snd_canonical e1 ht
        split at e <;> cases e
        simp [h1]
@[simp] theorem waitmRead_canonical (wk : Nat) (loc : Bool) (a : LaneAcc) (s : State) (h : s.Canonical) :
    (waitmRead wk loc a s).2.Canonical := by
  unfold waitmRead
  split <;> simp [h]
@[simp] theorem waitmTry_canonical (wk : Nat) (loc : Bool) (a : LaneAcc) (c : Cond) (v : Word) (s : State)
    (h : s.Canonical) :
    (waitmTry wk loc a c v s).2.Canonical := by
  have hr := waitmRead_canonical wk loc a s h
  unfold waitmTry
  dsimp only
  repeat' split
  all_goals simp [h, hr]
@[simp] theorem execWaitm_canonical (_sw : Bool) (c : Cond) (a b : Reg) (s : State) (h : s.Canonical) :
    KeepsCanonical (execWaitm _sw c a b s) := by
  unfold execWaitm
  refine (keepsCanonical_next _).2 (operandsOr_canonical _ _ _ h ?_)
  split
  next e => exact uniformAcc_error_canonical h e
  next loc x s1 e =>
    have h1 := forceFences_canonical s.cur.wk _ (snd_canonical e (uniformAcc_canonical _ _ _ _ _ h))
    split
    all_goals
      next e => simp [snd_canonical e (waitmTry_canonical _ _ _ _ _ _ h1)]
@[simp] theorem execBar_canonical (_sw cluster : Bool) (s : State) (h : s.Canonical) :
    KeepsCanonical (execBar _sw cluster s) := by
  unfold execBar
  dsimp only
  repeat' split
  all_goals simp [h]
@[simp] theorem barxDone_hbm (op : BarxOp) (s : State) : (barxDone op s).mem.hbm = s.mem.hbm := by simp [barxDone]
@[simp] theorem barxOut_hbm (d : Reg) (v : Word) (obj : Option ObjWait) (waitOp : Bool) (s : State) :
    (barxOut d v obj waitOp s).mem.hbm = s.mem.hbm := by simp [barxOut]
@[simp] theorem objAnswer_hbm (op : BarxOp) (w : ObjWait) (ok : Bool) (wk id : Nat) (s : State) :
    (objAnswer op w ok wk id s).mem.hbm = s.mem.hbm := rfl
@[simp] theorem applyLate_hbm (s : State) (x : LateObj) : (applyLate s x).mem.hbm = s.mem.hbm := by
  unfold applyLate
  split <;> simp
@[simp] theorem flushObjs_hbm (core sched : Nat) (s : State) :
    (flushObjs core sched s).mem.hbm = s.mem.hbm := by simp [flushObjs]
@[simp] theorem barxLocal_canonical (op : BarxOp) (d : Reg) (off : Nat) (v : Word) (s : State) (h : s.Canonical) :
    (barxLocal op d off v s).Canonical := by simp [barxLocal, h]
@[simp] theorem barxGlobal_canonical (op : BarxOp) (d : Reg) (x : LaneAcc) (v : Word) (s : State) (h : s.Canonical) :
    (barxGlobal op d x v s).Canonical := by simp [barxGlobal, h]
@[simp] theorem execBarx_canonical (_sw : Bool) (op : BarxOp) (d a b : Reg) (s : State) (h : s.Canonical) :
    KeepsCanonical (execBarx _sw op d a b s) := by
  unfold execBarx
  refine (keepsCanonical_next _).2 (legalOr_canonical _ _ _ h (operandsOr_canonical _ _ _ h ?_))
  extract_lets v n
  split
  next e => exact uniformAcc_error_canonical h e
  next e =>
    have h1 := snd_canonical e (uniformAcc_canonical _ _ _ _ _ h)
    repeat' split
    all_goals simp [h1]
@[simp] theorem issueOrder_canonical (k : State → State) (f : MemOp → MemOp) (s : State)
    (hk : ∀ s, s.Canonical → (k s).Canonical) (h : s.Canonical) :
    (issueOrder k f s).Canonical := by
  unfold issueOrder
  exact performOp_canonical _ _ _ (hk _ (by simp [h]))

/-! ### Control registers -/
@[simp] theorem setRings_hbm (base size : Word) (s : State) :
    (setRings base size s).mem.hbm = s.mem.hbm := by simp [setRings]
@[simp] theorem giveRows_hbm (n : Nat) (s : State) : (giveRows n s).mem.hbm = s.mem.hbm := by simp [giveRows]
@[simp] theorem claimRows_hbm (n : Nat) (wait : Bool) (s : State) : (claimRows n wait s).mem.hbm = s.mem.hbm := by
  unfold claimRows
  repeat' split
  all_goals simp
@[simp] theorem execSetcQuota_canonical (_sw : Bool) (d : Reg) (s : State) (h : s.Canonical) :
    KeepsCanonical (execSetcQuota _sw d s) := by
  unfold execSetcQuota
  dsimp only
  repeat' split
  all_goals simp [h]

/-! ### Copy instructions -/
@[simp] theorem copyAcquire_hbm (s : State) : (copyAcquire s).mem.hbm = s.mem.hbm := rfl
@[simp] theorem cpwaitDone_hbm (ch : Nat) (d : Reg) (s : State) :
    (cpwaitDone ch d s).mem.hbm = s.mem.hbm := by simp [cpwaitDone]
@[simp] theorem tryCpwait_hbm (bk ch wk : Nat) (p : Park) (s : State) :
    (tryCpwait bk ch wk p s).mem.hbm = s.mem.hbm := by
  unfold tryCpwait
  split <;> simp
@[simp] theorem checkCpwaits_hbm (bk ch : Nat) (s : State) : (checkCpwaits bk ch s).mem.hbm = s.mem.hbm := by
  unfold checkCpwaits
  exact foldl_hbm _ _ _ fun s x => by simp

/-! ### The matrix engine -/
@[simp] theorem mxArrive_hbm (again : Bool) (b : Block) (c : List Word) (addr : DWord) (entry : Nat) (s : State) :
    (mxArrive again b c addr entry s).mem.hbm = s.mem.hbm := rfl
@[simp] theorem updMx_hbm (q jid : Nat) (f : MxJob → MxJob) (s : State) : (updMx q jid f s).mem.hbm = s.mem.hbm := rfl
@[simp] theorem mxFail_hbm (q : Nat) (j : Job) (m : MxJob) (s : State) :
    (mxFail q j m s).mem.hbm = s.mem.hbm := by simp [mxFail]
@[simp] theorem admitJob_hbm (q : Nat) (j : Job) (s : State) : (admitJob q j s).mem.hbm = s.mem.hbm := by
  unfold admitJob
  split <;> simp
@[simp] theorem doReload_hbm (q : Nat) (j : Job) (m : MxJob) (s : State) :
    (doReload q j m s).mem.hbm = s.mem.hbm := by simp [doReload]
@[simp] theorem grantPass_hbm (q : Nat) (j : Job) (m : MxJob) (s : State) : (grantPass q j m s).mem.hbm = s.mem.hbm :=
  rfl
@[simp] theorem completeMx_canonical (q : Nat) (j : Job) (m : MxJob) (s : State) (h : s.Canonical) :
    (completeMx q j m s).Canonical := by
  unfold completeMx
  split <;> simp [h]
@[simp] theorem writePass_canonical (q : Nat) (j : Job) (m : MxJob) (p : Pass) (s : State) (h : s.Canonical) :
    (writePass q j m p s).Canonical := by simp [writePass, h]
@[simp] theorem passWrite_canonical (q : Nat) (p : Pass) (s : State) (h : s.Canonical) :
    (passWrite q p s).Canonical := by
  unfold passWrite
  split <;> simp [h]
@[simp] theorem readSlots_hbm (q : Nat) (s : State) : (readSlots q s).mem.hbm = s.mem.hbm := rfl
@[simp] theorem mxDue_canonical (q : Nat) (s : State) (h : s.Canonical) : (mxDue q s).Canonical := by
  unfold mxDue
  extract_lets s1 s2
  have h1 : s1.Canonical := foldl_canonical _ _ _ (fun s p h => by split <;> simp [h]) h
  have h2 : s2.Canonical := foldl_canonical _ _ _ (fun s jm h => by simp [h]) (by simp [h1])
  split <;> simp [h2]
@[simp] theorem tickMx_canonical (q n : Nat) (s : State) (h : s.Canonical) : (tickMx q n s).Canonical := by
  induction n generalizing s with
  | zero => exact h
  | succ n ih => exact ih _ ((mxDue_canonical q s h).of_hbm rfl)
@[simp] theorem readRecord_canonical (n : Nat) (loc : Bool) (x : LaneAcc) (s : State) (h : s.Canonical) :
    (readRecord n loc x s).2.Canonical := by
  unfold readRecord
  split <;> simp [h]
@[simp] theorem withRecord_canonical (n align : Nat) (a : Reg) (k : List Word → State → State) (s : State)
    (hk : ∀ x0 s, s.Canonical → (k x0 s).Canonical) (h : s.Canonical) :
    (withRecord n align a k s).Canonical := by
  have h0 := forceFences_canonical s.cur.wk s h
  have hu := uniformAcc_canonical .read n align (s.usrc64 a) _ h0
  unfold withRecord
  dsimp only
  split
  · simp [h0]
  · split
    next e => exact uniformAcc_error_canonical h0 e
    next e =>
      have h1 := snd_canonical e hu
      exact hk _ _ (by simp [h1])
@[simp] theorem outWordB_hbm (d : Reg) (v : Word) (s : State) :
    (outWordB d v s).mem.hbm = s.mem.hbm := by simp [outWordB]
@[simp] theorem outPair_hbm (d : Reg) (lo hi : Word) (s : State) :
    (outPair d lo hi s).mem.hbm = s.mem.hbm := by simp [outPair]
@[simp] theorem mxTicket_hbm (card : List Word) (addr : DWord) (d : Reg) (entry : Nat) (s : State) :
    (mxTicket card addr d entry s).mem.hbm = s.mem.hbm := by simp [mxTicket]
@[simp] theorem execMxpost_canonical (_sw : Bool) (d a : Reg) (s : State) (h : s.Canonical) :
    KeepsCanonical (execMxpost _sw d a s) := by
  unfold execMxpost
  refine (keepsCanonical_next _).2 (operandsOr_canonical _ _ _ h ?_)
  refine withRecord_canonical _ _ _ _ _ (fun card s1 h1 => ?_) h
  repeat' split
  all_goals simp [h1]
@[simp] theorem arriveCards_hbm (bk : Nat) (cs : List (List Word × DWord)) (s : State) :
    (arriveCards bk cs s).mem.hbm = s.mem.hbm := by
  induction cs generalizing s with
  | nil => rfl
  | cons c t ih =>
    unfold arriveCards
    split
    · simp [ih]
    · rfl
@[simp] theorem mxEntryFree_hbm (q : Nat) (s : State) : (mxEntryFree q s).mem.hbm = s.mem.hbm := by
  unfold mxEntryFree
  repeat' split
  · simp
  · exact takeUp_hbm _ _ _ _ fun s => by simp
  · rfl
@[simp] theorem execAdmission_canonical (quad jid : Nat) (s : State) (h : s.Canonical) :
    KeepsCanonical (execAdmission quad jid s) := by
  unfold execAdmission
  refine (keepsCanonical_next _).2 ?_
  repeat' split
  all_goals simp [h]
@[simp] theorem execReload_canonical (quad : Nat) (s : State) (h : s.Canonical) :
    KeepsCanonical (execReload quad s) := by
  unfold execReload
  split <;> simp [h]
@[simp] theorem execPassGrant_canonical (quad : Nat) (s : State) (h : s.Canonical) :
    KeepsCanonical (execPassGrant quad s) := by
  unfold execPassGrant
  split <;> simp [h]
@[simp] theorem execPassWrite_canonical (quad : Nat) (s : State) (h : s.Canonical) :
    KeepsCanonical (execPassWrite quad s) := by
  unfold execPassWrite
  split <;> simp [h]

/-! ### The selection of bundles -/
@[simp] theorem fetchWord_canonical (core part : Nat) (pc : DWord) (s : State) (h : s.Canonical) :
    (fetchWord core part pc s).2.Canonical := by
  have ht := translate_canonical (some core) part .fetch 0 pc.toNat s h
  unfold fetchWord
  split
  next e => exact snd_canonical e ht
  next e =>
    have h1 := snd_canonical e ht
    split <;> simp [h1]
@[simp] theorem updSched_hbm (core sched : Nat) (f : Sched → Sched) (s : State) :
    (updSched core sched f s).mem.hbm = s.mem.hbm := rfl
@[simp] theorem schedTick_hbm (core sched : Nat) (s : State) : (schedTick core sched s).mem.hbm = s.mem.hbm := rfl
@[simp] theorem takePick_hbm (p : Pick) (s : State) : (takePick p s).mem.hbm = s.mem.hbm := rfl
@[simp] theorem passOver_hbm (core sched : Nat) (got : Option (Nat × Nat)) (ready : List Nat) (s : State) :
    (passOver core sched got ready s).mem.hbm = s.mem.hbm := by
  unfold passOver
  exact foldl_hbm _ _ _ fun s x => rfl
@[simp] theorem selectOldest_hbm (core sched : Nat) (s : State) :
    (selectOldest core sched s).2.mem.hbm = s.mem.hbm := by
  unfold selectOldest
  dsimp only
  repeat' split
  all_goals simp
@[simp] theorem endTurn_hbm (core sched part wk : Nat) (s : State) :
    (endTurn core sched part wk s).mem.hbm = s.mem.hbm := rfl
@[simp] theorem stopBlock_hbm (bk area parea : Nat) (s : State) :
    (stopBlock bk area parea s).mem.hbm = s.mem.hbm := by
  unfold stopBlock
  have hf (q : Nat) (js : List Job) (s : State) : (js.foldl (fun s j => removeJob q j.jid s) s).mem.hbm = s.mem.hbm :=
    foldl_hbm _ _ _ fun s j => by simp
  simp [hf]
@[simp] theorem stopNow_hbm (core part : Nat) (s : State) : (stopNow core part s).mem.hbm = s.mem.hbm := by
  unfold stopNow
  exact foldl_hbm _ _ _ fun s x => by split <;> simp
@[simp] theorem reopen_hbm (core part : Nat) (s : State) : (reopen core part s).mem.hbm = s.mem.hbm := rfl
@[simp] theorem newTurn_hbm (core part : Nat) (s : State) : (newTurn core part s).mem.hbm = s.mem.hbm := by
  unfold newTurn
  exact foldl_hbm _ _ _ fun s x => by simp
@[simp] theorem endCatchUp_hbm (core part : Nat) (s : State) : (endCatchUp core part s).mem.hbm = s.mem.hbm := by
  unfold endCatchUp
  refine (foldl_hbm _ _ _ fun s kb => foldl_hbm _ _ _ fun s i => ?_).trans (by simp)
  split <;> simp
@[simp] theorem runTurn_hbm (core sched part wk : Nat) (s : State) :
    (runTurn core sched part wk s).2.mem.hbm = s.mem.hbm := by
  unfold runTurn
  split <;> simp
@[simp] theorem selectTurn_hbm (core sched : Nat) (s : State) : (selectTurn core sched s).2.mem.hbm = s.mem.hbm := by
  unfold selectTurn
  dsimp only
  repeat' split
  all_goals simp
@[simp] theorem selectCycle_hbm (core sched : Nat) (s : State) :
    (selectCycle core sched s).2.mem.hbm = s.mem.hbm := by
  unfold selectCycle
  dsimp only
  split <;> simp
@[simp] theorem setBundle_hbm (core sched wk : Nat) (mask : Word) (isB : Bool) (pc : DWord) (w : Word) (s : State) :
    (setBundle core sched wk mask isB pc w s).mem.hbm = s.mem.hbm := rfl
@[simp] theorem fetchBundle_canonical (core sched wk : Nat) (mask : Word) (isB : Bool) (s : State) (h : s.Canonical) :
    (fetchBundle core sched wk mask isB s).2.Canonical := by
  have hf := fetchWord_canonical core (s.block (s.warp wk).bk).part (groupPc (s.warp wk) mask) s h
  unfold fetchBundle
  dsimp only
  split
  all_goals
    next e => simp [snd_canonical e hf]
@[simp] theorem setPendB_hbm (core sched : Nat) (b : Option (Nat × Word)) (s : State) :
    (setPendB core sched b s).mem.hbm = s.mem.hbm := rfl

/-! ### Tasks, signals and work queries -/
@[simp] theorem withCtr_canonical (s : State) (c : Word) (k : Nat → State) (hk : ∀ n, (k n).Canonical)
    (h : s.Canonical) :
    (withCtr s c k).Canonical := by
  unfold withCtr
  repeat' split
  all_goals simp [h, hk]
@[simp] theorem addTask_hbm (q : Nat) (b : Block) (role : Byte) (r : List Word) (slot : Nat) (s : State) :
    (addTask q b role r slot s).mem.hbm = s.mem.hbm := rfl
@[simp] theorem taskEnter_hbm (r : List Word) (d : Reg) (slot : Nat) (s : State) :
    (taskEnter r d slot s).mem.hbm = s.mem.hbm := by simp [taskEnter]
@[simp] theorem execTkpost_canonical (_sw : Bool) (d a : Reg) (s : State) (h : s.Canonical) :
    KeepsCanonical (execTkpost _sw d a s) := by
  unfold execTkpost
  refine (keepsCanonical_next _).2 (operandsOr_canonical _ _ _ h ?_)
  refine withRecord_canonical _ _ _ _ _ (fun card s1 h1 => ?_) h
  repeat' split
  all_goals simp [h1]
@[simp] theorem poolEntryFree_hbm (q : Nat) (s : State) : (poolEntryFree q s).mem.hbm = s.mem.hbm := by
  unfold poolEntryFree
  split <;> simp
@[simp] theorem signalCtr_canonical (set : Bool) (c : Nat) (v : Word) (s : State) (h : s.Canonical) :
    (signalCtr set c v s).Canonical := by
  unfold signalCtr
  split <;> simp [h]
@[simp] theorem execTksig_canonical (_sw set : Bool) (a b : Reg) (s : State) (h : s.Canonical) :
    KeepsCanonical (execTksig _sw set a b s) := by
  unfold execTksig
  refine (keepsCanonical_next _).2 (operandsOr_canonical _ _ _ h (withCtr_canonical _ _ _ (fun c => ?_) h))
  split <;> simp [h]
@[simp] theorem queryArrive_hbm (desc off : Nat) (comp : Option (Word × Word)) (s : State) :
    (queryArrive desc off comp s).mem.hbm = s.mem.hbm := by simp [queryArrive]
@[simp] theorem execWdq_canonical (_sw : Bool) (d a b : Reg) (s : State) (h : s.Canonical) :
    KeepsCanonical (execWdq _sw d a b s) := by
  unfold execWdq
  refine (keepsCanonical_next _).2 (operandsOr_canonical _ _ _ h ?_)
  repeat' split
  all_goals simp [h]
@[simp] theorem execWdQueueRoom_canonical (s : State) (h : s.Canonical) : KeepsCanonical (execWdQueueRoom s) := by
  unfold execWdQueueRoom
  split <;> simp [h]
@[simp] theorem fillLane_hbm (wk l : Nat) (pc : DWord) (depth : BitVec 6) (t : Task) (s : State) :
    (fillLane wk l pc depth t s).mem.hbm = s.mem.hbm := rfl
@[simp] theorem dropTasks_hbm (q : Nat) (slots : List Nat) (s : State) : (dropTasks q slots s).mem.hbm = s.mem.hbm :=
  rfl
@[simp] theorem refillAnswer_canonical (wk : Nat) (s : State) (h : s.Canonical) : (refillAnswer wk s).Canonical := by
  unfold refillAnswer
  dsimp only
  repeat' split
  · exact h
  · exact h
  · refine foldl_canonical _ _ _ (fun s bk h => by simp [h]) (afterLanes_canonical _ _ ?_)
    exact foldl_canonical _ _ _ (fun s x h => by simp [h]) (by simp [h])
@[simp] theorem holdWave_hbm (q : Nat) (ts : List Task) (s : State) : (holdWave q ts s).mem.hbm = s.mem.hbm := rfl
@[simp] theorem waveStart_canonical (q : Nat) (s : State) (h : s.Canonical) : (waveStart q s).Canonical := by
  unfold waveStart
  dsimp only
  split
  · exact h
  · split
    · simp [h]
    · simp only [State.Canonical, Mem.Canonical, acquireDrop_hbm, addHb_hbm]
      exact foldl_canonical _ _ _ (fun s x h => by simp [h]) (by simp [h])

/-! ### The collective engine -/
@[simp] theorem updColl_hbm (die cid : Nat) (f : Coll → Coll) (s : State) :
    (updColl die cid f s).mem.hbm = s.mem.hbm := rfl
@[simp] theorem updSlot_hbm (die n : Nat) (f : GroupSlot → GroupSlot) (s : State) :
    (updSlot die n f s).mem.hbm = s.mem.hbm := rfl
@[simp] theorem endColl_hbm (die cid n : Nat) (s : State) : (endColl die cid n s).mem.hbm = s.mem.hbm := rfl
@[simp] theorem transmit_hbm (p : Pkt) (s : State) : (transmit p s).mem.hbm = s.mem.hbm := by simp [transmit]
@[simp] theorem sendPkt_hbm (die : Nat) (p : Pkt) (s : State) :
    (sendPkt die p s).mem.hbm = s.mem.hbm := by simp [sendPkt]
@[simp] theorem givePermit_hbm (die link : Nat) (s : State) : (givePermit die link s).mem.hbm = s.mem.hbm := by
  unfold givePermit
  dsimp only
  split <;> simp
@[simp] theorem returnPermit_hbm (die src : Nat) (h : List Word) (s : State) :
    (returnPermit die src h s).mem.hbm = s.mem.hbm := by
  unfold returnPermit
  dsimp only
  split <;> simp
@[simp] theorem sendNext_hbm (die : Nat) (g : GroupCfg) (x : Coll) (st code chunk first : Nat) (act : Nat → Nat)
    (payload : List Byte) (s : State) :
    (sendNext die g x st code chunk first act payload s).mem.hbm = s.mem.hbm := by simp [sendNext]
@[simp] theorem sendRoute_hbm (die : Nat) (g : GroupCfg) (x : Coll) (st : Nat) (h : List Word) (payload : List Byte)
    (s : State) :
    (sendRoute die g x st h payload s).mem.hbm = s.mem.hbm := by simp [sendRoute]
@[simp] theorem passOn_hbm (v : StageView) (x : Coll) (j first : Nat) (us : List Nat) (s : State) :
    (passOn v x j first us s).mem.hbm = s.mem.hbm := by simp [passOn]
@[simp] theorem spread_hbm (v : StageView) (x : Coll) (j : Nat) (us : List Nat) (s : State) :
    (spread v x j us s).mem.hbm = s.mem.hbm := by simp [spread]
@[simp] theorem beginReduce_hbm (g : GroupCfg) (die : Nat) (x : Coll) (s : State) :
    (beginReduce g die x s).mem.hbm = s.mem.hbm := by
  unfold beginReduce
  exact foldl_hbm _ _ _ fun s x => by simp
@[simp] theorem beginSpread_hbm (g : GroupCfg) (die : Nat) (x : Coll) (s : State) :
    (beginSpread g die x s).mem.hbm = s.mem.hbm := by simp [beginSpread]
@[simp] theorem sendToken_hbm (g : GroupCfg) (die : Nat) (x : Coll) (s : State) :
    (sendToken g die x s).mem.hbm = s.mem.hbm := by simp [sendToken]
@[simp] theorem noteIsolated_hbm (g : GroupCfg) (die : Nat) (x : Coll) (s : State) :
    (noteIsolated g die x s).mem.hbm = s.mem.hbm := by
  unfold noteIsolated
  exact foldl_hbm _ _ _ fun s x => by simp
@[simp] theorem beginStage_hbm (die cid : Nat) (s : State) : (beginStage die cid s).mem.hbm = s.mem.hbm := by
  unfold beginStage
  dsimp only
  repeat' split
  all_goals simp
@[simp] theorem goOn_hbm (die cid n : Nat) (s : State) : (goOn die cid n s).mem.hbm = s.mem.hbm := by
  induction n generalizing s with
  | zero => rfl
  | succ n ih =>
    unfold goOn
    dsimp only
    repeat' split
    all_goals simp [ih]
@[simp] theorem goOnAll_hbm (die cid : Nat) (s : State) : (goOnAll die cid s).mem.hbm = s.mem.hbm := by simp [goOnAll]
@[simp] theorem readSource_canonical (part va n : Nat) (s : State) (h : s.Canonical) :
    (readSource part va n s).2.Canonical := by
  unfold readSource
  refine foldl2_canonical _ _ _ (fun r p h => ?_) h
  have ht := translate_canonical none part .read 0 p.1 r.2 h
  split
  · exact h
  · split
    next e => exact snd_canonical e ht
    next e => simp [snd_canonical e ht]
@[simp] theorem holdAdmission_hbm (die : Nat) (x : Coll) (e : MemFault × Nat) (s : State) :
    (holdAdmission die x e s).mem.hbm = s.mem.hbm := rfl
@[simp] theorem admitColl_canonical (die cid : Nat) (s : State) (h : s.Canonical) :
    (admitColl die cid s).Canonical := by
  unfold admitColl
  split
  · exact h
  · split
    · exact h
    · dsimp only
      split
      next e => exact (snd_canonical e (readSource_canonical _ _ _ _ h)).of_hbm (by simp)
      next e =>
        have h1 := snd_canonical e (readSource_canonical _ _ _ _ h)
        split
        next e => exact (snd_canonical e (readSource_canonical _ _ _ _ h1)).of_hbm (by simp)
        next e =>
          have h2 := snd_canonical e (readSource_canonical _ _ _ _ h1)
          repeat' split
          all_goals simp [h2]
@[simp] theorem faultSlot_hbm (die n : Nat) (s : State) : (faultSlot die n s).mem.hbm = s.mem.hbm := by
  unfold faultSlot
  exact foldl_hbm _ _ _ fun s x => rfl
@[simp] theorem reroute_hbm (die : Nat) (g : GroupCfg) (x : Coll) (c : Nat) (s : State) :
    (reroute die g x c s).mem.hbm = s.mem.hbm := by
  unfold reroute
  exact foldl_hbm _ _ _ fun s x => by simp
@[simp] theorem forwardOwn_hbm (die cid : Nat) (g : GroupCfg) (gone : List Nat) (s : State) :
    (forwardOwn die cid g gone s).mem.hbm = s.mem.hbm := by
  unfold forwardOwn
  split <;> simp
@[simp] theorem excludeMember_hbm (die cid c : Nat) (s : State) :
    (excludeMember die cid c s).mem.hbm = s.mem.hbm := by
  unfold excludeMember
  dsimp only
  repeat' split
  all_goals simp
@[simp] theorem learnMask_hbm (die cid mask : Nat) (s : State) : (learnMask die cid mask s).mem.hbm = s.mem.hbm := by
  unfold learnMask
  repeat' split
  · rfl
  · rfl
  · exact foldl_hbm _ _ _ fun s c => by simp
@[simp] theorem returnLate_hbm (die : Nat) (g : GroupCfg) (h : List Word) (mask : Nat) (s : State) :
    (returnLate die g h mask s).mem.hbm = s.mem.hbm := by simp [returnLate]
@[simp] theorem takeToken_hbm (die src : Nat) (g : GroupCfg) (h : List Word) (mask : Nat) (payload : List Byte)
    (s : State) :
    (takeToken die src g h mask payload s).mem.hbm = s.mem.hbm := by
  unfold takeToken
  extract_lets st from_ marked me x0? s1 x? faulted differs bad excl j p dev body hd
  have h1 : s1.mem.hbm = s.mem.hbm := by
    cases e : x0? <;> simp [s1, e]
  clear_value s1 x?
  split
  · split
    · exact h1
    · split
      · simp [h1]
      · split <;> simp [h1]
  · simp [h1]
@[simp] theorem sendOn_hbm (die : Nat) (g : GroupCfg) (x : Coll) (st : Nat) (h : List Word) (bs : List Byte)
    (leg : State → State) (s : State) (hleg : (leg s).mem.hbm = s.mem.hbm) :
    (sendOn die g x st h bs leg s).mem.hbm = s.mem.hbm := by
  unfold sendOn
  repeat' split
  all_goals simp [hleg]
@[simp] theorem takeReduce_hbm (g : GroupCfg) (die : Nat) (x : Coll) (h : List Word) (us : List Nat) (s : State) :
    (takeReduce g die x h us s).mem.hbm = s.mem.hbm := by
  unfold takeReduce
  dsimp only
  split
  · rfl
  · split
    · simp
    · exact (sendOn_hbm _ _ _ _ _ _ _ _ (passOn_hbm ..)).trans (by simp)
@[simp] theorem takeSpread_hbm (g : GroupCfg) (die : Nat) (x : Coll) (h : List Word) (us : List Nat) (s : State) :
    (takeSpread g die x h us s).mem.hbm = s.mem.hbm := by
  unfold takeSpread
  dsimp only
  split
  · rfl
  · split
    all_goals
      refine (sendOn_hbm _ _ _ _ _ _ _ _ ?_).trans ?_
      · split <;> simp
      · simp
@[simp] theorem takePacket_hbm (die src : Nat) (g : GroupCfg) (h : List Word) (mask : Nat) (payload : List Byte)
    (s : State) :
    (takePacket die src g h mask payload s).mem.hbm = s.mem.hbm := by
  unfold takePacket
  split
  · simp
  split
  · rfl
  split
  · simp
  extract_lets from_ late s1 y w us
  have h1 : s1.mem.hbm = s.mem.hbm := by simp [s1]
  clear_value s1 y us
  split
  · exact h1
  split
  · simp [h1]
  rw [goOnAll_hbm]
  split <;> simp [h1]
@[simp] theorem recvPacket_hbm (die : Nat) (hdr : List Word) (mask : Nat) (payload : List Byte) (s : State) :
    (recvPacket die hdr mask payload s).mem.hbm = s.mem.hbm := by
  unfold recvPacket
  extract_lets same held src s1 p
  have h1 : s1.mem.hbm = s.mem.hbm := by
    cases e : held <;> simp [s1, e]
  clear_value s1
  split
  · split <;> simp
  all_goals simp [h1]
@[simp] theorem stepTimeout_hbm (die cid : Nat) (s : State) : (stepTimeout die cid s).mem.hbm = s.mem.hbm := by
  unfold stepTimeout
  dsimp only
  repeat' split
  all_goals simp
@[simp] theorem tickColl_hbm (die n : Nat) (s : State) : (tickColl die n s).mem.hbm = s.mem.hbm := by simp [tickColl]
@[simp] theorem collTimeout_hbm (p die cid : Nat) (s : State) : (collTimeout p die cid s).mem.hbm = s.mem.hbm := by
  unfold collTimeout
  dsimp only
  repeat' split
  all_goals simp
@[simp] theorem writeUnits_canonical (part va w : Nat) (us : List Nat) (s : State) (h : s.Canonical) :
    (writeUnits part va w us s).2.Canonical := by
  unfold writeUnits
  refine foldl2_canonical _ _ _ (fun r p h => ?_) h
  split
  · exact h
  · simp [h]
@[simp] theorem holdColl_hbm (die : Nat) (x : Coll) (put : Nat) (e : MemFault × Nat) (s : State) :
    (holdColl die x put e s).mem.hbm = s.mem.hbm := rfl
@[simp] theorem retireColl_canonical (die : Nat) (x : Coll) (s : State) (h : s.Canonical) :
    (retireColl die x s).Canonical := by simp [retireColl, h]
@[simp] theorem writeDest_canonical (x : Coll) (d : DestView) (s : State) (h : s.Canonical) :
    (writeDest x d s).2.Canonical := by
  unfold writeDest
  dsimp only
  split
  next e => exact snd_canonical e (writeUnits_canonical _ _ _ _ _ h)
  next s1 e =>
    have h1 := snd_canonical e (writeUnits_canonical _ _ _ _ _ h)
    split
    all_goals
      next e => exact snd_canonical e (writeUnits_canonical _ _ _ _ _ h1)
@[simp] theorem completeColl_canonical (die cid : Nat) (s : State) (h : s.Canonical) :
    (completeColl die cid s).Canonical := by
  unfold completeColl
  split
  · exact h
  · next x _ =>
    dsimp only
    have hd (d : DestView) := writeDest_canonical x d s h
    split
    next e =>
      have h1 := snd_canonical e (hd _)
      simp [h1]
    next s1 e =>
      have h1 := snd_canonical e (hd _)
      split
      next s2 e2 =>
        have h2 : s2.Canonical := by
          refine snd_canonical e2 ?_
          split <;> simp [h1]
        simp [h2]
      next s2 e2 =>
        have h2 : s2.Canonical := by
          refine snd_canonical e2 ?_
          split <;> simp [h1]
        split <;> simp [h2]
@[simp] theorem collArrive_canonical (b : Block) (r : List Word) (s : State) (h : s.Canonical) :
    (collArrive b r s).Canonical := by
  unfold collArrive
  dsimp only
  split <;> simp [h]
@[simp] theorem execCxpost_canonical (_sw : Bool) (d a : Reg) (s : State) (h : s.Canonical) :
    KeepsCanonical (execCxpost _sw d a s) := by
  unfold execCxpost
  refine (keepsCanonical_next _).2 (operandsOr_canonical _ _ _ h ?_)
  refine withRecord_canonical _ _ _ _ _ (fun card s1 h1 => ?_) h
  repeat' split
  all_goals simp [h1]
@[simp] theorem resetSlot_canonical (die n : Nat) (s : State) (h : s.Canonical) : (resetSlot die n s).Canonical := by
  unfold resetSlot
  exact foldl_canonical _ _ _ (fun s x h => by simp [h]) h
@[simp] theorem execCxreset_canonical (_sw : Bool) (a : Reg) (s : State) (h : s.Canonical) :
    KeepsCanonical (execCxreset _sw a s) := by
  unfold execCxreset
  dsimp only
  split <;> simp [h]
@[simp] theorem execCollectiveAdmission_canonical (die cid : Nat) (s : State) (h : s.Canonical) :
    KeepsCanonical (execCollectiveAdmission die cid s) := by
  unfold execCollectiveAdmission
  split <;> simp [h]
@[simp] theorem execCollectiveCompletion_canonical (die cid : Nat) (s : State) (h : s.Canonical) :
    KeepsCanonical (execCollectiveCompletion die cid s) := by
  unfold execCollectiveCompletion
  split <;> simp [h]

/-! ### Events of the lanes -/
@[simp] theorem deliverOut_hbm (wk : Nat) (o : Out) (s : State) : (deliverOut wk o s).mem.hbm = s.mem.hbm := rfl
@[simp] theorem agreedOut_hbm (o : Out) (s : State) : (agreedOut o s).mem.hbm = s.mem.hbm := by
  unfold agreedOut
  split <;> simp
@[simp] theorem compareOut_hbm (wk : Nat) (o : Out) (s : State) : (compareOut wk o s).mem.hbm = s.mem.hbm := by
  unfold compareOut
  split
  · refine takeUp_hbm _ _ _ _ fun s => ?_
    split <;> simp
  · rfl
@[simp] theorem returnOut_hbm (wk : Nat) (o : Out) (s : State) :
    (returnOut wk o s).mem.hbm = s.mem.hbm := by simp [returnOut]
@[simp] theorem execOutstandingResultReturn_canonical (wk id : Nat) (late : Bool) (s : State) (h : s.Canonical) :
    KeepsCanonical (execOutstandingResultReturn wk id late s) := by
  have h1 := sampleLoad_canonical wk id _ (recheckLoad_canonical wk id s h)
  unfold execOutstandingResultReturn
  dsimp only
  repeat' split
  all_goals simp [h, h1]
@[simp] theorem bankApply_hbm (x : BankWrite) (s : State) : (bankApply x s).mem.hbm = s.mem.hbm := by
  unfold bankApply
  repeat' split
  all_goals simp
  next e => exact bankWriteAgree_hbm e
@[simp] theorem bankArrive_hbm (x : BankWrite) (s : State) : (bankArrive x s).mem.hbm = s.mem.hbm := by
  unfold bankArrive
  dsimp only
  split <;> simp
@[simp] theorem execBackBankArrival_canonical (id : Nat) (s : State) (h : s.Canonical) :
    KeepsCanonical (execBackBankArrival id s) := by
  unfold execBackBankArrival
  split <;> simp [h]
@[simp] theorem completeBarrier_canonical (bk : Nat) (cluster : Bool) (s : State) (h : s.Canonical) :
    (completeBarrier bk cluster s).Canonical := by
  unfold completeBarrier
  extract_lets sc bks wks s1 hb s2 s3
  have h1 : s1.Canonical := by
    simp only [s1]
    split
    · exact foldl_canonical _ _ _ (fun s wk h => by simp [h]) h
    · exact h
  have h2 : s2.Canonical := h1.of_hbm (foldl_hbm _ _ _ fun s k => rfl)
  have h3 : s3.Canonical := by
    simp only [s3]
    split
    · exact h2
    · exact h2
  exact foldl_canonical _ _ _ (fun s wk h => by simp [h]) h3
@[simp] theorem xstoreArrive_hbm (x : XStore) (s : State) :
    (xstoreArrive x s).mem.hbm = s.mem.hbm := by simp [xstoreArrive]
@[simp] theorem execExchangeStoreArrival_canonical (id : Nat) (s : State) (h : s.Canonical) :
    KeepsCanonical (execExchangeStoreArrival id s) := by
  unfold execExchangeStoreArrival
  split <;> simp [h]
@[simp] theorem restartStall_hbm (gid : Nat) (s : State) : (restartStall gid s).mem.hbm = s.mem.hbm := rfl
@[simp] theorem waitmEnds_hbm (wk : Nat) (p : Park) (r : Bool × State) :
    (waitmEnds wk p r).mem.hbm = r.2.mem.hbm := by simp [waitmEnds]
@[simp] theorem waitmAgain_canonical (wk : Nat) (p : Park) (loc : Bool) (a : LaneAcc) (c : Cond) (v : Word)
    (s : State) (h : s.Canonical) :
    (waitmAgain wk p loc a c v s).Canonical := by
  have hu (s : State) (h : s.Canonical) := uniformAcc_canonical .read 4 4 (waitmAddr loc a) s h
  unfold waitmAgain
  split
  · refine takeUp_canonical _ _ _ _ (fun s h => ?_) h
    split
    next e => exact uniformAcc_error_canonical h e
    next e => exact snd_canonical e (hu s h)
  next x s1 e =>
    have h1 := snd_canonical e (hu _ (h.of_hbm (resumeCur_hbm wk p s)))
    have h2 := waitmTry_canonical wk loc x.2 c v (s1.setCur s.cur) h1
    exact h2.of_hbm (waitmEnds_hbm ..)
@[simp] theorem execWaitmReadAgain_canonical (wk g : Nat) (s : State) (h : s.Canonical) :
    KeepsCanonical (execWaitmReadAgain wk g s) := by
  unfold execWaitmReadAgain
  refine (keepsCanonical_next _).2 ?_
  repeat' split
  all_goals simp [h]

/-! ### Events of the memory side -/
@[simp] theorem execPerformStore_canonical (wk i : Nat) (s : State) (h : s.Canonical) :
    KeepsCanonical (execPerformStore wk i s) := by
  unfold execPerformStore
  split <;> simp [h]
@[simp] theorem execArrive_canonical (fid : Nat) (s : State) (h : s.Canonical) :
    KeepsCanonical (execArrive fid s) := by
  unfold execArrive
  split <;> simp [h]
@[simp] theorem execLlcFill_canonical (line victim : Nat) (s : State) (h : s.Canonical) :
    KeepsCanonical (execLlcFill line victim s) := by
  unfold execLlcFill
  split <;> simp [h]
@[simp] theorem execAtomicPerformAtHome_canonical (id : Nat) (s : State) (h : s.Canonical) :
    KeepsCanonical (execAtomicPerformAtHome id s) := by
  unfold execAtomicPerformAtHome
  split <;> simp [h]

/-! ### Events of the copy channels -/
@[simp] theorem afterHead_canonical (bk ch : Nat) (s : State) (h : s.Canonical) :
    (afterHead bk ch s).Canonical := by simp [afterHead, h]
@[simp] theorem startCopy_canonical (bk ch : Nat) (x : CopyCmd) (s : State) (h : s.Canonical) :
    (startCopy bk ch x s).Canonical := by
  unfold startCopy
  split <;> simp [h]
@[simp] theorem execCopyCommandStart_canonical (bk ch : Nat) (s : State) (h : s.Canonical) :
    KeepsCanonical (execCopyCommandStart bk ch s) := by
  unfold execCopyCommandStart
  refine (keepsCanonical_next _).2 ?_
  repeat' split
  all_goals simp [h]
@[simp] theorem keepReads_hbm (bk ch : Nat) (d : Deliv) :
    (keepReads bk ch d).mem.hbm = d.s.mem.hbm := by simp [keepReads]
@[simp] theorem dropCopy_canonical (bk ch : Nat) (s : State) (h : s.Canonical) : (dropCopy bk ch s).Canonical := by
  unfold dropCopy
  split <;> simp [h]
@[simp] theorem settleChunk_canonical (bk ch : Nat) (b : Block) (x : CopyCmd) (d : Deliv) (h : d.s.Canonical) :
    (settleChunk bk ch b x d).Canonical := by
  unfold settleChunk
  extract_lets n s1 killed s2 s3
  have h1 : s1.Canonical := by simp [s1, h]
  have h2 : s2.Canonical := by
    simp only [s2]
    repeat' split
    all_goals simp [h1]
  have h3 : s3.Canonical := by
    simp only [s3]
    repeat' split
    all_goals simp [h2]
  repeat' split
  all_goals simp [h3]
@[simp] theorem serveChan_hbm (bk ch : Nat) (s : State) : (serveChan bk ch s).mem.hbm = s.mem.hbm := rfl
@[simp] theorem execCopyDelivery_canonical (bk ch : Nat) (s : State) (h : s.Canonical) :
    KeepsCanonical (execCopyDelivery bk ch s) := by
  unfold execCopyDelivery
  refine (keepsCanonical_next _).2 ?_
  split
  · split
    · exact settleChunk_canonical _ _ _ _ _ (deliver_canonical _ _ _ _ (by simp [h]))
    · exact h
  · exact h
@[simp] theorem earlyCopy_canonical (bk ch places : Nat) (s : State) (h : s.Canonical) :
    (earlyCopy bk ch places s).Canonical := by
  have hd := deliver_canonical (s.block bk)
  unfold earlyCopy
  dsimp only
  repeat' split
  all_goals simp [h, hd]

/-! ### Dispositions of a record, and kills -/
@[simp] theorem execFaultRecordPost_canonical (s : State) (h : s.Canonical) :
    KeepsCanonical (execFaultRecordPost s) := by
  unfold execFaultRecordPost
  split <;> simp [h]
@[simp] theorem dropRecord_hbm (r : FaultRec) (s : State) : (dropRecord r s).mem.hbm = s.mem.hbm := rfl
@[simp] theorem withdraw_hbm (p : FaultRec → Bool) (s : State) : (withdraw p s).mem.hbm = s.mem.hbm := rfl
@[simp] theorem killAtoms_canonical (wk : Nat) (s : State) (h : s.Canonical) : (killAtoms wk s).Canonical := by
  unfold killAtoms
  exact foldl_canonical _ _ _ (fun s x h => by simp [h]) h
@[simp] theorem dropWarpWork_hbm (wk : Nat) (s : State) : (dropWarpWork wk s).mem.hbm = s.mem.hbm := rfl
@[simp] theorem releaseCore_canonical (core : Nat) (wks : List Nat) (s : State) (h : s.Canonical) :
    (releaseCore core wks s).Canonical := by
  simp [releaseCore, h]
@[simp] theorem removeJobs_hbm (q : Nat) (p : Job → Bool) (s : State) : (removeJobs q p s).mem.hbm = s.mem.hbm := by
  unfold removeJobs
  exact foldl_hbm _ _ _ fun s j => by simp
@[simp] theorem killJobs_hbm (bk : Nat) (s : State) : (killJobs bk s).mem.hbm = s.mem.hbm := by simp [killJobs]
@[simp] theorem killColls_hbm (gid : Nat) (s : State) : (killColls gid s).mem.hbm = s.mem.hbm := rfl
@[simp] theorem killTask_canonical (q : Nat) (t : Task) (s : State) (h : s.Canonical) :
    (killTask q t s).Canonical := by
  unfold killTask
  split <;> simp [h]
@[simp] theorem killBlock_canonical (bk : Nat) (s : State) (h : s.Canonical) : (killBlock bk s).Canonical := by
  unfold killBlock
  extract_lets core wks s1 s2 s3
  have h1 : s1.Canonical := foldl_canonical _ _ _ (fun s wk h => by simp [h]) h
  have h2 : s2.Canonical := by simp [s2, h1]
  have h3 : s3.Canonical := foldl_canonical _ _ _ (fun s wk h => by simp [h]) h2
  exact h3
@[simp] theorem killSavedTask_canonical (q part gid : Nat) (s : State) (t : Word × Option Nat) (h : s.Canonical) :
    (killSavedTask q part gid s t).Canonical := by
  unfold killSavedTask
  repeat' split
  all_goals simp [h]
@[simp] theorem killSavedLanes_canonical (gid : Nat) (s : State) (h : s.Canonical) :
    (killSavedLanes gid s).Canonical := by
  unfold killSavedLanes
  refine foldl_canonical _ _ _ (fun s kv h => ?_) h
  refine foldl_canonical _ _ _ (fun s sb h => ?_) h
  exact foldl_canonical _ _ _ (fun s t h => by simp [h]) h
@[simp] theorem killGrid_canonical (gid code : Nat) (s : State) (h : s.Canonical) :
    (killGrid gid code s).Canonical := by
  unfold killGrid
  dsimp only
  split
  · exact h
  · refine foldl_canonical _ _ _ (fun s bk h => by simp [h]) ?_
    refine foldl_canonical _ _ _ (fun s _ h => by simp [h]) ?_
    simp only [State.Canonical, Mem.Canonical, withdraw_hbm, State.setWd_mem, State.updLaunch_mem]
    refine killSavedLanes_canonical _ _ ?_
    refine foldl_canonical _ _ _ (fun s qt h => by simp [h]) ?_
    refine foldl_canonical _ _ _ (fun s bk h => by simp [h]) ?_
    simp [h]
@[simp] theorem disposeKill_canonical (r : FaultRec) (s : State) (h : s.Canonical) :
    (disposeKill r s).Canonical := by simp [disposeKill, h]
@[simp] theorem disposeResume_hbm (r : FaultRec) (s : State) : (disposeResume r s).mem.hbm = s.mem.hbm := by
  unfold disposeResume
  split <;> simp
@[simp] theorem enterAll_hbm (r : FaultRec) (wk : Nat) (s : State) : (enterAll r wk s).mem.hbm = s.mem.hbm := rfl
@[simp] theorem disposeHandler_canonical (r : FaultRec) (s : State) (h : s.Canonical) :
    (disposeHandler r s).Canonical := by
  unfold disposeHandler
  split <;> simp [h]
@[simp] theorem disposeDrop_canonical (r : FaultRec) (s : State) (h : s.Canonical) : (disposeDrop r s).Canonical := by
  have h1 (wk : Nat) (m : Word) := vacateLanes_canonical wk m .task _ (h.of_hbm (dropRecord_hbm r s))
  unfold disposeDrop
  split
  · simp [h]
  · split
    · simp [h]
    · simp [h1]
@[simp] theorem disposeOf_canonical (seq : Nat) (f : FaultRec → State → State) (s : State)
    (hf : ∀ r s, s.Canonical → (f r s).Canonical) (h : s.Canonical) :
    (disposeOf seq f s).Canonical := by
  unfold disposeOf
  split
  · split
    · simp [h]
    · exact hf _ _ h
  · exact h
@[simp] theorem execResume_canonical (seq : Nat) (s : State) (h : s.Canonical) : KeepsCanonical (execResume seq s) :=
  (keepsCanonical_next _).2 (disposeOf_canonical _ _ _ (fun r s h => by split <;> simp [h]) h)
@[simp] theorem execHandler_canonical (seq : Nat) (s : State) (h : s.Canonical) :
    KeepsCanonical (execHandler seq s) :=
  (keepsCanonical_next _).2 (disposeOf_canonical _ _ _ (fun r s h => by simp [h]) h)
@[simp] theorem execTaskDrop_canonical (seq : Nat) (s : State) (h : s.Canonical) :
    KeepsCanonical (execTaskDrop seq s) :=
  (keepsCanonical_next _).2 (disposeOf_canonical _ _ _ (fun r s h => by simp [h]) h)
@[simp] theorem execKill_canonical (seq : Nat) (s : State) (h : s.Canonical) : KeepsCanonical (execKill seq s) :=
  (keepsCanonical_next _).2 (disposeOf_canonical _ _ _ (fun r s h => by simp [h]) h)

/-! ### Preemption, saving and restoring -/
@[simp] theorem askStop_hbm (bk area parea : Nat) (s : State) :
    (askStop bk area parea s).mem.hbm = s.mem.hbm := by simp [askStop]
@[simp] theorem execPreempt_canonical (bk : Nat) (areas : List Nat) (parea : Nat) (s : State) (h : s.Canonical) :
    KeepsCanonical (execPreempt bk areas parea s) := by
  unfold execPreempt
  refine (keepsCanonical_next _).2 ?_
  split
  · exact foldl_canonical _ _ _ (fun s ba h => by simp [h]) h
  · exact h
@[simp] theorem execPreemptTurnTimeout_canonical (bk : Nat) (s : State) (h : s.Canonical) :
    KeepsCanonical (execPreemptTurnTimeout bk s) := by
  unfold execPreemptTurnTimeout
  split <;> simp [h]
@[simp] theorem discardBlock_canonical (bk : Nat) (s : State) (h : s.Canonical) : (discardBlock bk s).Canonical := by
  unfold discardBlock
  extract_lets b wks s1
  have h1 : s1.Canonical := foldl_canonical _ _ _ (fun s wk h => by simp [h]) h
  simp [h1]
@[simp] theorem suspendEngines_hbm (bk : Nat) (s : State) : (suspendEngines bk s).mem.hbm = s.mem.hbm := by
  unfold suspendEngines
  exact (removeJobs_hbm ..).trans (foldl_hbm _ _ _ fun s x => by simp)
@[simp] theorem saveBlock_canonical (bk : Nat) (s : State) (h : s.Canonical) :
    (saveBlock bk s).Canonical := by simp [saveBlock, h]
@[simp] theorem saveYard_canonical (q part parea : Nat) (s : State) (h : s.Canonical) :
    (saveYard q part parea s).Canonical := by simp [saveYard, h]
@[simp] theorem discardCluster_canonical (bk : Nat) (s : State) (h : s.Canonical) :
    (discardCluster bk s).Canonical := by
  unfold discardCluster
  extract_lets bks b s1 sv s2 s3 s4
  have h1 : s1.Canonical := foldl_canonical _ _ _ (fun s k h => by simp [h]) h
  have h2 : s2.Canonical := foldl_canonical _ _ _ (fun s k h => by simp [h]) h1
  have h3 : s3.Canonical := foldl_canonical _ _ _ (fun s k h => by simp [h]) h2
  have h4 : s4.Canonical := h3
  simp [h4]
@[simp] theorem restoreYard_hbm (old part q : Nat) (s : State) : (restoreYard old part q s).mem.hbm = s.mem.hbm := by
  unfold restoreYard
  split <;> simp
@[simp] theorem loadBlock_hbm (sv : Saved) (sb : SavedBlock) (core rank : Nat) (s : State) :
    (loadBlock sv sb core rank s).mem.hbm = s.mem.hbm := rfl
@[simp] theorem resumeChannel_hbm (sb : SavedBlock) (h : List Byte) (ch : Nat) (s : State) :
    (resumeChannel sb h ch s).mem.hbm = s.mem.hbm := by
  unfold resumeChannel
  dsimp only
  repeat' split
  all_goals simp
@[simp] theorem excludeIsolated_hbm (die cid : Nat) (s : State) :
    (excludeIsolated die cid s).mem.hbm = s.mem.hbm := by
  unfold excludeIsolated
  exact foldl_hbm _ _ _ fun s kp => by simp
@[simp] theorem restoreColl_hbm (b : Block) (c : List Word × Nat × Nat × List Nat) (s : State) :
    (restoreColl b c s).mem.hbm = s.mem.hbm := by
  unfold restoreColl
  dsimp only
  split
  · rfl
  · simp
@[simp] theorem startCatchUp_hbm (bk : Nat) (h : List Byte) (counts : List (Nat × DWord)) (s : State) :
    (startCatchUp bk h counts s).mem.hbm = s.mem.hbm := by
  unfold startCatchUp
  dsimp only
  split
  · rfl
  · exact foldl_hbm _ _ _ fun s i => by simp
@[simp] theorem resumeBlock_canonical (sb : SavedBlock) (s : State) (h : s.Canonical) :
    (resumeBlock sb s).Canonical := by
  unfold resumeBlock
  extract_lets hd b q s1 s2 at_ s3 live counts
  have h1 : s1.Canonical := foldl_canonical _ _ _ (fun s ch h => by simp [h]) h
  have h2 : s2.Canonical := by simp [s2, h1]
  have h3 : s3.Canonical := foldl_canonical _ _ _ (fun s c h => by simp [h]) h2
  exact foldl_canonical _ _ _ (fun s i h => by simp [h]) (by simp [h3])
@[simp] theorem forgetJobs_hbm (bks : List Nat) (s : State) : (forgetJobs bks s).mem.hbm = s.mem.hbm := rfl
@[simp] theorem restoreCluster_canonical (sv : Saved) (cores : List Nat) (s : State) (h : s.Canonical) :
    (restoreCluster sv cores s).Canonical := by
  unfold restoreCluster
  extract_lets q s0 c s1 s2 s3
  have h0 : s0.Canonical := by simp [s0, h]
  have h2 : s2.Canonical := foldl_canonical _ _ _ (fun s bc h => by simp [h]) h0
  exact foldl_canonical _ _ _ (fun s sb h => by simp [h]) h2
@[simp] theorem execRestore_canonical (id : Nat) (cores : Option (List Nat)) (s : State) (h : s.Canonical) :
    KeepsCanonical (execRestore id cores s) := by
  unfold execRestore
  refine (keepsCanonical_next _).2 ?_
  repeat' split
  all_goals simp [h]

/-! ### Launches -/
@[simp] theorem acceptLaunch_hbm (queue tag : Nat) (r : List Word) (s : State) :
    (acceptLaunch queue tag r s).mem.hbm = s.mem.hbm := by simp [acceptLaunch]
@[simp] theorem placeBlockOn_hbm (g : Grid) (ck rank core : Nat) (s : State) :
    (placeBlockOn g ck rank core s).mem.hbm = s.mem.hbm := rfl
@[simp] theorem dropSnapshots_hbm (s : State) : (dropSnapshots s).mem.hbm = s.mem.hbm := rfl
@[simp] theorem dispatch_canonical (g0 : Grid) (cores : List Nat) (part : Nat) (s : State) (h : s.Canonical) :
    (dispatch g0 cores part s).Canonical := by
  unfold dispatch
  extract_lets g s0 q ck s1 s2 g1
  have h0 : s0.Canonical := by
    simp only [s0]
    split <;> simp [h]
  have h2 : s2.Canonical := foldl_canonical _ _ _ (fun s ic h => by simp [h]) h0
  exact h2
@[simp] theorem execBlockDispatch_canonical (queue : Nat) (pl : Placement) (s : State) (h : s.Canonical) :
    KeepsCanonical (execBlockDispatch queue pl s) := by
  unfold execBlockDispatch
  refine (keepsCanonical_next _).2 ?_
  repeat' split
  all_goals simp [h]
@[simp] theorem completeGrid_hbm (g : Grid) (s : State) : (completeGrid g s).mem.hbm = s.mem.hbm := rfl
@[simp] theorem tickLaunch_hbm (n : Nat) (s : State) : (tickLaunch n s).mem.hbm = s.mem.hbm := rfl
@[simp] theorem unitKill_canonical (gid code : Nat) (s : State) (h : s.Canonical) :
    (unitKill gid code s).Canonical := by simp [unitKill, h]

/-! ### The work distributor -/
theorem andThen_canonical {α β : Type} (r : WdRes α) (k : α → State → WdRes β) (hr : r.2.Canonical)
    (hk : ∀ a s, s.Canonical → (k a s).2.Canonical) :
    (r.andThen k).2.Canonical := by
  unfold WdRes.andThen
  split
  · exact hk _ _ hr
  · exact hr
@[simp] theorem wdAtom_canonical (part va : Nat) (aop : Aop) (b64 : Bool) (x y : DWord) (s : State) (h : s.Canonical) :
    (wdAtom part va aop b64 x y s).2.Canonical := by
  have ht := translate_canonical none part .write 0 va s h
  unfold wdAtom
  split
  next e => exact snd_canonical e ht
  next e =>
    have h1 := snd_canonical e ht
    dsimp only
    split <;> simp [h1]
@[simp] theorem wdCas_canonical (part va : Nat) (old new : DWord) (s : State) (h : s.Canonical) :
    (wdCas part va old new s).2.Canonical := andThen_canonical _ _ (wdAtom_canonical _ _ _ _ _ _ _ h) fun _ _ h => h
@[simp] theorem readDesc_canonical (x : Query) (s : State) (h : s.Canonical) : (readDesc x s).2.Canonical :=
  andThen_canonical _ _ (engineRead_canonical _ _ _ _ _ h) fun _ _ h => h
@[simp] theorem readEntry_canonical (x : Query) (d : List Word) (i : Nat) (s : State) (h : s.Canonical) :
    (readEntry x d i s).2.Canonical := andThen_canonical _ _ (engineRead_canonical _ _ _ _ _ h) fun _ _ h => h
@[simp] theorem peerRead_hbm (p va n : Nat) (s : State) : (peerRead p va n s).2.mem.hbm = s.mem.hbm := by
  unfold peerRead
  exact foldl_hbm _ _ _ fun s x => rfl
@[simp] theorem peerCas_hbm (p va : Nat) (old new : DWord) (s : State) :
    (peerCas p va old new s).2.mem.hbm = s.mem.hbm := rfl
@[simp] theorem gateFlag_hbm (p : Nat) (d : List Word) (s : State) : (gateFlag p d s).2.mem.hbm = s.mem.hbm := by
  unfold gateFlag
  dsimp only
  split
  · rfl
  · refine (foldl2_hbm _ _ _ fun r i => ?_).trans (by simp)
    repeat' split
    all_goals simp
@[simp] theorem scanTiles_hbm (p : Nat) (d : List Word) (n left : Nat) (s : State) :
    (scanTiles p d n left s).2.mem.hbm = s.mem.hbm := by
  induction n generalizing left s with
  | zero => rfl
  | succ n ih =>
    unfold scanTiles
    dsimp only
    repeat' split
    all_goals simp [ih]
@[simp] theorem stealFrom_hbm (desc j p : Nat) (s : State) : (stealFrom desc j p s).2.mem.hbm = s.mem.hbm := by
  unfold stealFrom
  dsimp only
  repeat' split
  all_goals simp
  all_goals
    next e => simp [snd_hbm e]
@[simp] theorem steal_hbm (x : Query) (d : List Word) (s : State) : (steal x d s).2.mem.hbm = s.mem.hbm := by
  unfold steal
  refine foldl2_hbm _ _ _ fun r j => ?_
  repeat' split
  all_goals simp
@[simp] theorem updQuery_hbm (f : Query → Query) (s : State) : (updQuery f s).mem.hbm = s.mem.hbm := rfl
@[simp] theorem answer_hbm (x : Query) (w0 w1 : Word) (s : State) :
    (answer x w0 w1 s).mem.hbm = s.mem.hbm := by simp [answer]
@[simp] theorem answerEnd_hbm (x : Query) (s : State) : (answerEnd x s).mem.hbm = s.mem.hbm := by simp [answerEnd]
@[simp] theorem doneStolen_hbm (x : Query) (p tx ty sq : Nat) (s : State) :
    (doneStolen x p tx ty sq s).mem.hbm = s.mem.hbm := by
  unfold doneStolen
  dsimp only
  repeat' split
  all_goals simp
@[simp] theorem doTile_canonical (x : Query) (d : List Word) (w0 w1 : Word) (s : State) (h : s.Canonical) :
    (doTile x d w0 w1 s).2.Canonical := by
  unfold doTile
  dsimp only
  split
  · split <;> simp [h]
  · split
    · exact h
    · split
      · exact h
      · exact andThen_canonical _ _ (wdCas_canonical _ _ _ _ _ h) fun _ _ h => h
@[simp] theorem watchTile_hbm (x : Query) (d : List Word) (i dev sq : Nat) (s : State) :
    (watchTile x d i dev sq s).mem.hbm = s.mem.hbm := by simp [watchTile]
@[simp] theorem serveIndex_canonical (x : Query) (d : List Word) (i : Nat) (s : State) (h : s.Canonical) :
    (serveIndex x d i s).2.Canonical := by
  unfold serveIndex
  split
  · simp [h]
  · refine andThen_canonical _ _ (readEntry_canonical _ _ _ _ h) fun e s1 h1 => ?_
    split
    · refine andThen_canonical _ _ (wdCas_canonical _ _ _ _ _ h1) fun ok s2 h2 => ?_
      split <;> simp [h2]
    · dsimp only
      split <;> simp [h1]
    · exact h1
@[simp] theorem unwatch_hbm (w : Watch) (s : State) : (unwatch w s).mem.hbm = s.mem.hbm := rfl
@[simp] theorem reclaim_canonical (x : Query) (d : List Word) (w : Watch) (s : State) (h : s.Canonical) :
    (reclaim x d w s).2.Canonical := by
  unfold reclaim
  refine andThen_canonical _ _ (wdCas_canonical _ _ _ _ _ h) fun ok s1 h1 => ?_
  dsimp only
  split
  · simp [h1]
  · refine andThen_canonical _ _ (wdCas_canonical _ _ _ _ _ (by simp [h1])) fun got s3 h3 => ?_
    split <;> simp [h3]
@[simp] theorem reclaimAny_canonical (x : Query) (d : List Word) (ws : List Watch) (s : State) (h : s.Canonical) :
    (reclaimAny x d ws s).2.Canonical := by
  induction ws generalizing s with
  | nil => exact h
  | cons w t ih =>
    refine andThen_canonical _ _ (reclaim_canonical x d w s h) fun ok s1 h1 => ?_
    split
    · exact h1
    · exact ih s1 h1
@[simp] theorem serveBack_canonical (x : Query) (d : List Word) (s : State) (h : s.Canonical) :
    (serveBack x d s).2.Canonical := by
  unfold serveBack
  refine andThen_canonical _ _ (reclaimAny_canonical _ _ _ _ h) fun ok s1 h1 => ?_
  split
  · exact h1
  · have h2 : (if tSteal d then steal x d s1 else (none, s1)).2.Canonical := by split <;> simp [h1]
    split
    next e => simp [snd_canonical e h2]
    next e =>
      dsimp only
      split <;> simp [snd_canonical e h2]
@[simp] theorem serveFront_canonical (x : Query) (d : List Word) (n : Nat) (drawn : Option Nat) (s : State)
    (h : s.Canonical) :
    (serveFront x d n drawn s).2.Canonical := by
  induction n generalizing drawn s with
  | zero => exact h
  | succ n ih =>
    refine andThen_canonical _ _ ?_ fun i s1 h1 => ?_
    · split
      · exact h
      · exact andThen_canonical _ _ (wdAtom_canonical _ _ _ _ _ _ _ h) fun _ _ h => h
    · split
      · refine andThen_canonical _ _ (serveIndex_canonical _ _ _ _ (by simp [h1])) fun ok s2 h2 => ?_
        split
        · exact h2
        · exact ih _ _ (by simp [h2])
      · exact serveBack_canonical _ _ _ (by simp [h1])
@[simp] theorem serveFrom_canonical (x : Query) (d : List Word) (s : State) (h : s.Canonical) :
    (serveFrom x d s).2.Canonical := by
  unfold serveFrom
  split
  · refine andThen_canonical _ _ ?_ fun _ s1 h1 => by simp [h1]
    split
    · simp [h]
    · exact h
  all_goals simp [h]
@[simp] theorem serveQuery_canonical (x : Query) (s : State) (h : s.Canonical) : (serveQuery x s).Canonical := by
  unfold serveQuery
  extract_lets r
  have hr : r.2.Canonical := by
    refine andThen_canonical _ _ (readDesc_canonical _ _ h) fun d s1 h1 => ?_
    split <;> simp [h1]
  clear_value r
  split
  · exact hr
  · simpa using hr
@[simp] theorem execWdQuery_canonical (s : State) (h : s.Canonical) : KeepsCanonical (execWdQuery s) := by
  unfold execWdQuery
  split <;> simp [h]
@[simp] theorem execLeaseExpiry_canonical (i : Nat) (s : State) (h : s.Canonical) :
    KeepsCanonical (execLeaseExpiry i s) := by
  unfold execLeaseExpiry
  refine (keepsCanonical_next _).2 ?_
  split
  · exact h
  next x w _ =>
    have hr := andThen_canonical (readDesc x s) (fun d s1 => reclaim x d w s1) (readDesc_canonical _ _ h) fun d s1 h1 =>
      reclaim_canonical _ _ _ _ h1
    split
    all_goals
      next e => simp [snd_canonical e hr]
@[simp] theorem tickWd_hbm (n : Nat) (s : State) : (tickWd n s).mem.hbm = s.mem.hbm := rfl

/-! ### Barrier objects in global memory -/
@[simp] theorem putObjWords_canonical (o : ObjOp) (i : Nat) (ws : List Word) (s : State) (h : s.Canonical) :
    (putObjWords o i ws s).Canonical := by simp [putObjWords, h]
@[simp] theorem claimObj_hbm (o : ObjOp) (s : State) : (claimObj o s).mem.hbm = s.mem.hbm := by simp [claimObj]
@[simp] theorem readHeader_canonical (part srec : Nat) (s : State) (h : s.Canonical) :
    (readHeader part srec s).2.Canonical := andThen_canonical _ _ (engineRead_canonical _ _ _ _ _ h) fun _ _ h => h
@[simp] theorem findMember_canonical (part srec : Nat) (key : Nat × Nat) (n i : Nat) (s : State) (h : s.Canonical) :
    (findMember part srec key n i s).2.Canonical := by
  induction n generalizing i s with
  | zero => exact h
  | succ n ih =>
    refine andThen_canonical _ _ (engineRead_canonical _ _ _ _ _ h) fun bs s1 h1 => ?_
    split
    · exact h1
    · exact ih _ _ h1
@[simp] theorem updMember_canonical (part srec i : Nat) (f : Member → Member) (s : State) (h : s.Canonical) :
    (updMember part srec i f s).2.Canonical := by
  refine andThen_canonical _ _ (engineRead_canonical _ _ _ _ _ h) fun bs s1 h1 => ?_
  dsimp only
  split
  all_goals
    next e => exact snd_canonical e (engineWrite_canonical _ _ _ _ h1)
@[simp] theorem logPhases_canonical (part srec k l : Nat) (last : Option Nat) (n i : Nat) (s : State)
    (h : s.Canonical) :
    (logPhases part srec k l last n i s).2.Canonical := by
  induction n generalizing i s with
  | zero => exact h
  | succ n ih => exact andThen_canonical _ _ (updMember_canonical _ _ _ _ _ h) fun _ s1 h1 => ih _ _ h1
@[simp] theorem skipOnFault_hbm (r : WdRes Unit) : (skipOnFault r).mem.hbm = r.2.mem.hbm := by
  unfold skipOnFault
  split <;> rfl
@[simp] theorem logArrival_canonical (o : ObjOp) (lag : Nat) (s : State) (h : s.Canonical) :
    (logArrival o lag s).Canonical := by
  unfold logArrival
  split
  · exact h
  · refine State.Canonical.of_hbm ?_ (skipOnFault_hbm _)
    refine andThen_canonical _ _ (readHeader_canonical _ _ _ h) fun h' s1 h1 => ?_
    refine andThen_canonical _ _ (findMember_canonical _ _ _ _ _ _ h1) fun r s2 h2 => ?_
    split <;> simp [h2]
@[simp] theorem logCompletion_canonical (o : ObjOp) (s : State) (h : s.Canonical) :
    (logCompletion o s).Canonical := by
  unfold logCompletion
  split
  · exact h
  · refine State.Canonical.of_hbm ?_ (skipOnFault_hbm _)
    refine andThen_canonical _ _ (readHeader_canonical _ _ _ h) fun h' s1 h1 => ?_
    refine andThen_canonical _ _ ?_ fun last s2 h2 => logPhases_canonical _ _ _ _ _ _ _ _ h2
    split <;> simp [h1]
@[simp] theorem sendSignal_hbm (o : ObjOp) (s : State) : (sendSignal o s).mem.hbm = s.mem.hbm := by
  unfold sendSignal
  split <;> simp
@[simp] theorem wakeObj_hbm (o : ObjOp) (parity : Bool) (s : State) : (wakeObj o parity s).mem.hbm = s.mem.hbm := by
  unfold wakeObj
  exact foldl_hbm _ _ _ fun s x => rfl
@[simp] theorem completeObj_canonical (o : ObjOp) (s : State) (h : s.Canonical) :
    (completeObj o s).Canonical := by simp [completeObj, h]
@[simp] theorem openC0_canonical (o : ObjOp) (s : State) (h : s.Canonical) :
    (openC0 o s).Canonical := by simp [openC0, h]
@[simp] theorem serveObj_canonical (o : ObjOp) (s : State) (h : s.Canonical) :
    (serveObj o s).Canonical := by simp [serveObj, h]
@[simp] theorem changeObj_canonical (o : ObjOp) (s : State) (h : s.Canonical) : (changeObj o s).Canonical := by
  unfold changeObj
  extract_lets old arrives first lag r s1 s2 s3 s4
  have h1 : s1.Canonical := by simp [s1, h]
  have h2 : s2.Canonical := by
    simp only [s2]
    split <;> simp [h1]
  have h3 : s3.Canonical := by
    simp only [s3]
    split <;> simp [h2]
  have h4 : s4.Canonical := by
    simp only [s4]
    split <;> simp [h3]
  split <;> simp [h4]
@[simp] theorem objAcquire_hbm (wk pa : Nat) (s : State) :
    (objAcquire wk pa s).mem.hbm = s.mem.hbm := by simp [objAcquire]
@[simp] theorem readObj_canonical (o : ObjOp) (s : State) (h : s.Canonical) : (readObj o s).Canonical := by
  unfold readObj
  split <;> simp [h]
@[simp] theorem peerObj_hbm (p : Nat) (o : ObjOp) (s : State) : (peerObj p o s).mem.hbm = s.mem.hbm := by
  unfold peerObj
  dsimp only
  repeat' split
  all_goals simp
@[simp] theorem applyObj_canonical (o : ObjOp) (s : State) (h : s.Canonical) : (applyObj o s).Canonical := by
  unfold applyObj
  split <;> simp [h]
@[simp] theorem drainForObj_canonical (o : ObjOp) (s : State) (h : s.Canonical) : (drainForObj o s).Canonical := by
  unfold drainForObj
  split <;> simp [h]
@[simp] theorem execArrivalLog_canonical (id : Nat) (s : State) (h : s.Canonical) :
    KeepsCanonical (execArrivalLog id s) := by
  unfold execArrivalLog
  refine (keepsCanonical_next _).2 ?_
  repeat' split
  all_goals simp [h]
@[simp] theorem signalFromPeer_canonical (quad ctr : Nat) (s : State) (h : s.Canonical) :
    (signalFromPeer quad ctr s).Canonical := by simp [signalFromPeer, h]
@[simp] theorem execCompletionSignal_canonical (dev quad ctr : Nat) (s : State) (h : s.Canonical) :
    KeepsCanonical (execCompletionSignal dev quad ctr s) := by
  unfold execCompletionSignal
  refine (keepsCanonical_next _).2 ?_
  repeat' split
  all_goals simp [h]

/-! ### The host, peers, firmware and reliability -/
@[simp] theorem dropTlb_hbm (part va len : Nat) (s : State) : (dropTlb part va len s).mem.hbm = s.mem.hbm := rfl
@[simp] theorem execFlushdone_canonical (s : State) (h : s.Canonical) : KeepsCanonical (execFlushdone s) := by
  unfold execFlushdone
  split <;> simp [h]
@[simp] theorem execMemwrite_canonical (pa : Nat) (data : List Byte) (tag : Nat) (s : State) (h : s.Canonical) :
    KeepsCanonical (execMemwrite pa data tag s) := by
  unfold execMemwrite
  dsimp only
  repeat' split
  all_goals simp [h]
@[simp] theorem readPhysical_canonical (pa n : Nat) (s : State) (h : s.Canonical) :
    (readPhysical pa n s).2.Canonical := by
  unfold readPhysical
  refine foldl2_canonical _ _ _ (fun r p h => ?_) h
  dsimp only
  repeat' split
  all_goals simp [h]
@[simp] theorem execMemread_canonical (pa len tag : Nat) (s : State) (h : s.Canonical) :
    KeepsCanonical (execMemread pa len tag s) := by
  unfold execMemread
  split
  · simp
  · refine (keepsCanonical_next _).2 ?_
    split
    · exact h
    · split
      all_goals
        next e => simp [snd_canonical e (readPhysical_canonical _ _ _ h)]
@[simp] theorem serveRequest.readPhysicalAt_canonical (a : LaneAcc) (n : Nat) (s : State) (h : s.Canonical) :
    (serveRequest.readPhysicalAt a n s).2.Canonical := by
  unfold serveRequest.readPhysicalAt
  split <;> simp [h]
@[simp] theorem serveRequest_canonical (peer : Nat) (w : PodWindow) (req : PeerReq) (s : State) (h : s.Canonical) :
    (serveRequest peer w req s).Canonical := by
  unfold serveRequest
  cases req with
  | read addr n =>
    dsimp only
    split
    · simp [h]
    · split
      · simp [h]
      · split
        all_goals
          next e => simp [snd_canonical e (serveRequest.readPhysicalAt_canonical _ _ _ h)]
  | _ =>
    dsimp only
    repeat' split
    all_goals simp [h]
@[simp] theorem execUalinkRequest_canonical (peer : Nat) (req : PeerReq) (s : State) (h : s.Canonical) :
    KeepsCanonical (execUalinkRequest peer req s) := by
  unfold execUalinkRequest
  split <;> simp [h]
@[simp] theorem peerLanes_hbm (p wk : Nat) (s : State) (o : Out) :
    (peerLanes p wk s o).mem.hbm = s.mem.hbm := by simp [peerLanes]
@[simp] theorem loseStores_hbm (p : Nat) (s : State) : (loseStores p s).mem.hbm = s.mem.hbm := by simp [loseStores]
@[simp] theorem execUalinkTimeout_canonical (peer : Nat) (s : State) (h : s.Canonical) :
    KeepsCanonical (execUalinkTimeout peer s) := by
  unfold execUalinkTimeout
  refine (keepsCanonical_next _).2 ?_
  extract_lets s0 s1 s2
  have h1 : s1.Canonical := foldl_canonical _ _ _ (fun s kw h => foldl_canonical _ _ _ (fun s o h => by simp [h]) h) h
  have h2 : s2.Canonical := by simp [s2, h1]
  split
  · exact h
  · exact foldl_canonical _ _ _ (fun s kd h => foldl_canonical _ _ _ (fun s x h => by simp [h]) h) h2
@[simp] theorem markBad_hbm (die : Nat) (f : Coll → Coll) (x : Coll) (s : State) :
    (markBad die f x s).mem.hbm = s.mem.hbm := rfl
@[simp] theorem storeBad_hbm (die n q elem : Nat) (s : State) : (storeBad die n q elem s).mem.hbm = s.mem.hbm := by
  unfold storeBad
  split <;> simp
@[simp] theorem cellBad_hbm (die : Nat) (out : Bool) (i elem : Nat) (s : State) :
    (cellBad die out i elem s).mem.hbm = s.mem.hbm := by
  unfold cellBad
  dsimp only
  repeat' split
  all_goals simp
@[simp] theorem strike_hbm (bad : Bool) (site : EccSite) (s : State) : (strike bad site s).mem.hbm = s.mem.hbm := by
  unfold strike
  split <;> simp
@[simp] theorem Mem.dropKey_canonical (m : Mem) (slot : Nat) (h : m.Canonical) : (m.dropKey slot).Canonical := by
  unfold Mem.dropKey
  exact memFoldl_canonical _ _ _ (fun m kl h => by simp [h]) h
@[simp] theorem Mem.dropKeyed_canonical (m : Mem) (h : m.Canonical) : m.dropKeyed.Canonical := by
  unfold Mem.dropKeyed
  exact memFoldl_canonical _ _ _ (fun m kl h => by simp [h]) h
@[simp] theorem Mem.afterTrip_hbm (m : Mem) : m.afterTrip.hbm = m.hbm := rfl
@[simp] theorem execPowerLoss_canonical (s : State) : KeepsCanonical (execPowerLoss s) :=
  (keepsCanonical_next _).2 memory_nil_wf
@[simp] theorem acceptHeld_hbm (s : State) : (acceptHeld s).mem.hbm = s.mem.hbm := by
  unfold acceptHeld
  exact foldl_hbm _ _ _ fun s x => by simp
@[simp] theorem execBringUp_canonical (args : BringUpArgs) (s : State) (h : s.Canonical) :
    KeepsCanonical (execBringUp args s) := by
  unfold execBringUp
  split <;> simp [h]

/-! ### Every instruction and event -/
@[simp] theorem exec_canonical (i : Instr) (s : State) (h : s.Canonical) : KeepsCanonical (exec i s) := by
  cases i
  -- integers and predicates
  case iadd | isub | imul | imad | imnmx | lop | shf | iuna | bfe | bfi | iset | sel | lea | iadd64 | idiv | iaddi |
    andi | ori | xori | shli | shri | movl | movh | iseti | mov | plop | prmt =>
    simp [exec, execIadd, execIsub, execImul, execImad, execImnmx, execLop, execShf, execIuna, execBfe, execBfi,
      execIset, execSel, execLea, execIadd64, execIdiv, execIaddi, execAndi, execOri, execXori, execShli, execShri,
      execMovl, execMovh, execIseti, execMov, execPlop, execPrmt, h]
  -- floats and the exchange between lanes
  case fadd | fsub | fmul | ffma | fmnmx | fset | dadd | dmul | dfma | bfma2 | hfma2 | fdot2 | sfu | dsfu | cvt |
    dset | fcls | shfl | vote | matchv | red =>
    simp [exec, execFadd, execFsub, execFmul, execFfma, execFmnmx, execFset, execDadd, execDmul, execDfma, execBfma2,
      execHfma2, execFdot2, execSfu, execDsfu, execCvt, execDset, execFcls, execShfl, execVote, execMatchv,
      execRed, h]
  -- loads by shared forms
  case lds | lda | ldrRo | ldrUse =>
    simp [exec, execLds, execLda, execLdrRo, execLdrUse, h]
  -- control, order, uniform registers
  case bra | bray | call | calli | brai | ret | join | refill | region | nop | trap | bpt | illegal | fence | drain |
    roinv | gmov | galu | galui | gmovl | gmovh | gred | gset =>
    simp [exec, execBra, execBray, execCall, execCalli, execBrai, execRet, execJoin, execRefill, execRegion, execNop,
      execTrap, execBpt, execIllegal, execFence, execDrain, execRoinv, execGmov, execGalu, execGalui, execGmovl,
      execGmovh, execGred, execGset, h]
  -- control registers, copy channels, engines, tasks and collectives
  case getc | setc | setcRole | setcFpflags | setcFrm | setcRingbase | setcRingsize | reggive | regclaim | clk |
    free | cpwp | cpwait | cpstat | mxEntryFree | mxstat | governorWindow | poolEntryFree | tkjoin | tkread |
    refillAnswer | waveStart | cxstat | packet | sendPermit | stepTimeout =>
    simp [exec, execGetc, execSetc, execSetcRole, execSetcFpflags, execSetcFrm, execSetcRingbase, execSetcRingsize,
      execReggive, execRegclaim, execClk, execFree, execCpwp, execCpwait, execCpstat, execMxEntryFree, execMxstat,
      execGovernorWindow, execPoolEntryFree, execTkjoin, execTkread, execRefillAnswer, execWaveStart, execCxstat,
      execPacket, execSendPermit, execStepTimeout, h]
  -- events of the lanes, the memory side, preemption, launches, the host and firmware
  case barrierCompletion | evict | drop | discard | launch | complete | dstall | watchdog | watchdogReduction |
    flush | attest | stats | jalliaOtherKind | isolationClear | eccError | timetableWrite | budgetSet |
    budgetCeilingChange | counterAssign | groupConfigure | podWindowWrite | keyLoad | wayPartitionMaskSet |
    thermalTrip =>
    simp [exec, execBarrierCompletion, execEvict, execDrop, execDiscard, execLaunch, execComplete, execDstall,
      execWatchdog, execWatchdogReduction, execFlush, execAttest, execStats, execJalliaOtherKind, execIsolationClear,
      execEccError, execTimetableWrite, execBudgetSet, execBudgetCeilingChange, execCounterAssign,
      execGroupConfigure, execPodWindowWrite, execKeyLoad, execWayPartitionMaskSet, execThermalTrip, h]
  -- each of the others has a lemma of its own
  all_goals simp [exec, h]

/-! ### Moves and ticks -/
@[simp] theorem tickYard_hbm (q n : Nat) (s : State) : (tickYard q n s).mem.hbm = s.mem.hbm := by simp [tickYard]
@[simp] theorem tickHome_hbm (home n : Nat) (s : State) : (tickHome home n s).mem.hbm = s.mem.hbm := rfl
@[simp] theorem tickHomes_hbm (s : State) : (tickHomes s).mem.hbm = s.mem.hbm := rfl
@[simp] theorem tickLink_hbm (p n : Nat) (s : State) : (tickLink p n s).mem.hbm = s.mem.hbm := rfl
@[simp] theorem setLinkTimeout_hbm (n : Nat) (s : State) : (setLinkTimeout n s).mem.hbm = s.mem.hbm := rfl
@[simp] theorem setRoot_hbm (part root : Nat) (s : State) : (setRoot part root s).mem.hbm = s.mem.hbm := rfl
@[simp] theorem tickUnits_canonical (s : State) (h : s.Canonical) : (tickUnits s).Canonical := by
  unfold tickUnits
  extract_lets s1 s2 s3
  have h1 : s1.Canonical := foldl_canonical _ _ _ (fun s kq h => by simp [h]) h
  have h2 : s2.Canonical := foldl_canonical _ _ _ (fun s kd h => by simp [h]) h1
  have h3 : s3.Canonical := foldl_canonical _ _ _ (fun s kp h => by simp [h]) h2
  simp [h3]
@[simp] theorem tickMove_canonical (m : Move) (s : State) (h : s.Canonical) : (tickMove m s).Canonical := by
  unfold tickMove
  split <;> simp [h]

/-! ### The step -/
@[simp] theorem runBundle_canonical (core sched wk : Nat) (mask : Word) (isB : Bool) (s : State) (h : s.Canonical) :
    KeepsCanonical (runBundle core sched wk mask isB s) := by
  have hf := fetchBundle_canonical core sched wk mask isB s h
  unfold runBundle
  split
  next e => simp [snd_canonical e hf]
  next e => exact exec_canonical _ _ (snd_canonical e hf)
@[simp] theorem issueCycle_canonical (core sched : Nat) (s : State) (h : s.Canonical) :
    KeepsCanonical (issueCycle core sched s) := by
  unfold issueCycle
  split
  next e => simp [snd_hbm e, h]
  next e =>
    have h1 : _ = s.mem.hbm := (snd_hbm e).trans (selectCycle_hbm ..)
    exact runBundle_canonical _ _ _ _ _ _ (by simp [h1, h])
@[simp] theorem issueB_canonical (wk : Nat) (mask : Word) (s : State) (h : s.Canonical) :
    KeepsCanonical (issueB wk mask s) := by
  have hr := runBundle_canonical s.cur.core s.cur.sched wk mask true
    (setPendB s.cur.core s.cur.sched none s) (by simp [h])
  unfold issueB
  split
  next t e => simp [hr t e]
  next => exact hr
@[simp] theorem runMove_canonical (m : Move) (s : State) (h : s.Canonical) : KeepsCanonical (runMove m s) := by
  unfold runMove
  split <;> simp [h]
@[simp] theorem runOwn_canonical (s : State) (h : s.Canonical) : KeepsCanonical (runOwn s) := by
  unfold runOwn
  split
  · simp [h]
  · split
    · dsimp only
      refine issueCycle_canonical _ _ _ ?_
      split <;> simp [h]
    · simp [h]
@[simp] theorem step_canonical (s : State) (h : s.Canonical) : KeepsCanonical (step s) := by
  unfold step
  split
  · exact issueB_canonical _ _ _ h
  · split
    · exact runMove_canonical _ _ (by simp [h])
    · exact runOwn_canonical _ h

/-- Settles O60: each function that a step runs leaves the HBM list as it is or keeps its canonical form. -/
theorem memoryStaysCanonical : Obligations.MemoryStaysCanonical := fun s t h e => step_canonical s h t e
end Sys2Proof.Machine
end

section
/-! Tables changed key after key, and steps that change the warps of a list, one after another. -/
namespace Sys2Proof.Machine

/-! ### Tables -/
/-- In a table whose keys are distinct an entry is what its key finds. -/
theorem mFind_eq_of_mem {α : Type} (m : Map α) (hn : (m.map (·.1)).Nodup) (x : Nat × α) (h : x ∈ m) :
    mFind m x.1 = some x.2 := by
  induction m with
  | nil => cases h
  | cons y t ih =>
    obtain ⟨k, v⟩ := y
    rw [List.map_cons, List.nodup_cons] at hn
    rcases List.mem_cons.1 h with rfl | h
    · simp [mFind]
    · have hk : k ≠ x.1 := fun e => hn.1 (List.mem_map.2 ⟨x, h, e.symm⟩)
      rw [mFind, if_neg hk, ih hn.2 h]
/-- A function applied at each of some distinct keys. -/
theorem mFind_foldl_mMod {α : Type} (f : α → α) (ks : List Nat) (m : Map α) (k : Nat) (hn : ks.Nodup) :
    mFind (ks.foldl (fun m k => mMod m k f) m) k = if k ∈ ks then (mFind m k).map f else mFind m k := by
  induction ks generalizing m with
  | nil => rfl
  | cons j t ih =>
    rw [List.nodup_cons] at hn
    rw [List.foldl_cons, ih _ hn.2, mFind_mMod]
    by_cases hj : j = k
    · subst hj; simp [hn.1]
    · simp [hj, Ne.symm hj]
/-- Blocks changed one after another. -/
theorem foldl_updBlock_eq (f : Block → Block) (ks : List Nat) (s : State) :
    ks.foldl (fun s k => s.updBlock k f) s = s.setBlocks (ks.foldl (fun m k => mMod m k f) s.blocks) := by
  induction ks generalizing s with
  | nil => rfl
  | cons k t ih => rw [List.foldl_cons, ih]; rfl
theorem block_of_mFind {s : State} {k : Nat} {b : Block} (h : mFind s.blocks k = some b) : s.block k = b := by
  rw [State.block, mGet, h]; rfl
theorem warp_of_mFind {s : State} {k : Nat} {w : Warp} (h : mFind s.warps k = some w) : s.warp k = w := by
  rw [State.warp, mGet, h]; rfl

/-- Changes that agree on a warp as it stands are one. -/
theorem updWarp_congr (s : State) (wk : Nat) (f g : Warp → Warp) (h : f (s.warp wk) = g (s.warp wk)) :
    s.updWarp wk f = s.updWarp wk g :=
  congrArg s.setWarps (mMod_congr s.warps wk f g fun w hw => by rw [← warp_of_mFind hw]; exact h)
theorem updWarp_id (s : State) (wk : Nat) : (s.updWarp wk fun w => w) = s :=
  congrArg (·.setCur s.cur) (updCw_id (s.setCur { s.cur with wk := wk }))
theorem updWarp_updWarp (s : State) (wk : Nat) (f g : Warp → Warp) :
    (s.updWarp wk f).updWarp wk g = s.updWarp wk fun w => g (f w) :=
  congrArg s.setWarps (mMod_mMod s.warps wk f g)
/-- What is ordered before a warp changes the warp alone. -/
theorem addHb_updWarp (wk : Nat) (l : List Nat) (s : State) : ∃ h, addHb wk l s = s.updWarp wk fun w => { w with hb := h } := by
  rw [addHb]
  split
  · exact ⟨(s.warp wk).hb, (updWarp_id s wk).symm.trans (updWarp_congr s wk _ _ rfl)⟩
  · exact ⟨s.prune (l ++ (s.warp wk).hb), updWarp_congr s wk _ _ rfl⟩

/-! ### Warps changed one after another -/
/-- Beside the cores only the warps of a list have changed, each as `P` tells. -/
def warpsBecome (P : Warp → Warp → Prop) (ks : List Nat) (s t : State) : Prop :=
  t = (s.setWarps t.warps).setCores t.cores ∧ (∀ j, j ∉ ks → mFind t.warps j = mFind s.warps j) ∧
    ∀ k ∈ ks, ∀ w, mFind s.warps k = some w → ∃ v, mFind t.warps k = some v ∧ P w v
/-- Steps for the keys of a list, each of which changes the warp of its key where `I` holds, and keeps `I`. -/
theorem foldl_warpsBecome (P : Warp → Warp → Prop) (I : State → Prop) (step : State → Nat → State) (ks : List Nat) (s : State)
    (hn : ks.Nodup) (hI : I s) (hstep : ∀ u, I u → ∀ k ∈ ks, warpsBecome P [k] u (step u k) ∧ I (step u k)) :
    warpsBecome P ks s (ks.foldl step s) := by
  induction ks generalizing s with
  | nil => exact ⟨rfl, fun _ _ => rfl, by simp⟩
  | cons k t ih =>
    rw [List.nodup_cons] at hn
    obtain ⟨⟨e1, o1, c1⟩, hI1⟩ := hstep s hI k (List.mem_cons_self ..)
    obtain ⟨e2, o2, c2⟩ := ih (step s k) hn.2 hI1 fun u hu j hj => hstep u hu j (List.mem_cons_of_mem _ hj)
    rw [List.foldl_cons]
    refine ⟨?_, fun j hj => ?_, fun j hj w hw => ?_⟩
    · rw [e2, e1]; rfl
    · rw [List.mem_cons, not_or] at hj
      rw [o2 j hj.2, o1 j (by simpa using hj.1)]
    · by_cases hjk : j = k
      · subst hjk
        rw [o2 j hn.1]
        exact c1 j (List.mem_singleton_self j) w hw
      · exact c2 j ((List.mem_cons.1 hj).resolve_left hjk) w (by rw [o1 j (by simpa using hjk), hw])
/-- One warp that is changed, and then some cores. -/
theorem warpsBecome_upd (P : Warp → Warp → Prop) (k : Nat) (f : Warp → Warp) (c : Map Core) (s : State) (h : ∀ w, P w (f w)) :
    warpsBecome P [k] s ((s.updWarp k f).setCores c) := by
  refine ⟨rfl, fun j hj => ?_, fun j hj w hw => ⟨f w, ?_, h w⟩⟩
  · have hk : k ≠ j := fun e => hj (by simp [e])
    simp [hk]
  · rw [List.mem_singleton.1 hj] at hw ⊢
    simp [hw]
/-- An acquire changes the cores only. -/
theorem acquireDrop_eq_setCores (core : Nat) (sc : Scope) (s : State) :
    acquireDrop core sc s = s.setCores (acquireDrop core sc s).cores := by
  rw [acquireDrop]; split <;> rfl

end Sys2Proof.Machine
end

section
/-! Barriers, a WAITM's further reading, a REFILL's answer (O41). -/
namespace Sys2Proof.Machine

/-! ### The releases of a barrier (R223, R201) -/
/-- Settling a warp's results leaves what its stream has to perform. -/
theorem settleOuts_wids (m : Map Warp) (j : Nat) (p : Nat → Bool) :
    ((mMod m j settleOuts).filter fun kw => p kw.1).flatMap (fun kw => kw.2.memq.map (·.wid)) =
      (m.filter fun kw => p kw.1).flatMap fun kw => kw.2.memq.map (·.wid) := by
  induction m with
  | nil => rfl
  | cons x t ih =>
    obtain ⟨k, w⟩ := x
    rw [mMod]
    split
    · cases hp : p k <;> simp [hp, settleOuts]
    · cases hp : p k <;> simp [hp, ih]
theorem settleOuts_any (m : Map Warp) (j : Nat) (p : Nat → List MemOp → Bool) :
    (mMod m j settleOuts).any (fun kw => p kw.1 kw.2.memq) = m.any fun kw => p kw.1 kw.2.memq := by
  induction m with
  | nil => rfl
  | cons x t ih =>
    obtain ⟨k, w⟩ := x
    rw [mMod]
    split
    · rfl
    · simp only [List.any_cons, ih]
theorem settleOuts_warp (s : State) (j k : Nat) :
    ((s.updWarp j settleOuts).warp k).bk = (s.warp k).bk ∧ ((s.updWarp j settleOuts).warp k).hb = (s.warp k).hb := by
  simp only [State.warp, mGet, State.updWarp_find]
  split
  · cases mFind s.warps k <;> exact ⟨rfl, rfl⟩
  · exact ⟨rfl, rfl⟩
theorem settleOuts_hbHeld (s : State) (j k n : Nat) : hbHeld (s.updWarp j settleOuts) k n = hbHeld s k n := by
  have hany := settleOuts_any s.warps j fun i q => i != k && q.any fun x => decide (x.wid < n) && (s.warp k).hb.contains x.wid
  simp only [hbHeld, (settleOuts_warp s j k).2]
  exact congrArg (!(s.warp k).hb.isEmpty && ·) hany
theorem settleOuts_streamWith (s : State) (j k : Nat) : streamWith (s.updWarp j settleOuts) k = streamWith s k := by
  funext i
  have hh : hbHeld (s.updWarp j settleOuts) k (s.updWarp j settleOuts).mem.nextWid = hbHeld s k s.mem.nextWid := settleOuts_hbHeld s j k _
  simp only [streamWith, (settleOuts_warp s j _).1, hh]
  rfl
theorem settleOuts_streamWids (s : State) (j k : Nat) : streamWids (s.updWarp j settleOuts) k = streamWids s k := by
  have ha : (s.updWarp j settleOuts).mem = s.mem := rfl
  have hm : (s.updWarp j settleOuts).warps = mMod s.warps j settleOuts := rfl
  have hown := settleOuts_wids s.warps j fun i => i == k
  simp only [streamWids, settleOuts_streamWith, (settleOuts_warp s j k).2, ha, hm, settleOuts_wids, hown]
/-- A warp that has released: its results are settled. -/
def released (w v : Warp) : Prop := ∃ o, v = { w with outs := o }
/-- Nothing of some warps is on its way beyond their cores. -/
def releasesQuiet (ks : List Nat) (s : State) : Prop :=
  s.mem.flights = [] ∧ (∀ c, (s.coreAt c).pool = []) ∧ ∀ k ∈ ks, (mFind s.warps k).isSome = true ∧ streamWids s k = []
/-- One release of such a warp settles its results. -/
theorem forceRelease_becomes (ks : List Nat) (sc : Scope) (s : State) (h : releasesQuiet ks s) (k : Nat) (hk : k ∈ ks) :
    warpsBecome released [k] s (forceRelease k sc s) ∧ releasesQuiet ks (forceRelease k sc s) := by
  obtain ⟨hf, hp, hs⟩ := h
  obtain ⟨c, e, hc⟩ := forceRelease_quiet k sc s (hs k hk).1 (hs k hk).2 fun _ => ⟨hp _, hf⟩
  refine ⟨?_, ?_, ?_, ?_⟩
  · rw [e]; exact warpsBecome_upd _ _ _ _ _ fun w => ⟨_, rfl⟩
  · rw [e]; exact hf
  · intro i; rw [hc]; exact hp i
  · intro i hi
    refine ⟨?_, by rw [e]; exact (settleOuts_streamWids s k i).trans (hs i hi).2⟩
    have hfi := State.updWarp_find s k i settleOuts
    rw [e, State.setCores_warps, hfi]
    split <;> simp [(hs i hi).1]

/-! ### Barriers -/
theorem leaveBarrier_rest (cluster : Bool) (w : Warp) :
    leaveBarrier cluster w = { w with parks := w.parks.filter (fun p => p.why != .bar cluster),
                                      lanes := (leaveBarrier cluster w).lanes, outs := (leaveBarrier cluster w).outs } := by
  simp only [leaveBarrier, barBoundary]
  split <;> rfl
/-- A region boundary leaves a lane's address and state. -/
theorem boundary_laneKept (m : Word) (w : Warp) (l : Nat) :
    ((Warp.boundary m w).lane l).pc = (w.lane l).pc ∧ ((Warp.boundary m w).lane l).st = (w.lane l).st := by
  by_cases hl : l < w.lanes.length
  · rw [boundary_lane m w l hl]; split <;> exact ⟨rfl, rfl⟩
  · have hlen : (Warp.boundary m w).lanes.length = w.lanes.length := updLanes_length w m _
    have e : ∀ v : Warp, ¬ l < v.lanes.length → v.lane l = Lane.none := fun v hv => by
      rw [Warp.lane, List.getD_eq_getElem?_getD, List.getElem?_eq_none (by omega)]; rfl
    rw [e w hl, e _ (by omega)]; exact ⟨rfl, rfl⟩
/-- The lanes that leave a barrier stand where they stood, and yield no more (R109). -/
theorem leaveBarrier_lane (cluster : Bool) (w : Warp) (l : Nat) :
    ((leaveBarrier cluster w).lane l).pc = (w.lane l).pc ∧ ((leaveBarrier cluster w).lane l).st = (w.lane l).st ∧
      ((leaveBarrier cluster w).lane l).yld = false := by
  have hb : ((barBoundary cluster w).lane l).pc = (w.lane l).pc ∧ ((barBoundary cluster w).lane l).st = (w.lane l).st := by
    rw [barBoundary]
    split
    · exact boundary_laneKept _ _ _
    · exact ⟨rfl, rfl⟩
  have hl : (leaveBarrier cluster w).lane l = { (barBoundary cluster w).lane l with yld := false } := by
    simp only [leaveBarrier, Warp.lane, List.getD_eq_getElem?_getD, List.getElem?_map]
    cases (barBoundary cluster w).lanes[l]? <;> rfl
  rw [hl]
  exact ⟨hb.1, hb.2, rfl⟩
/-- A warp that has left a barrier, with what the barrier has ordered before it. -/
def hasLeft (cluster : Bool) (w v : Warp) : Prop := ∃ h, v = leaveBarrier cluster { w with hb := h }
theorem leave_becomes (cluster : Bool) (core : Nat) (sc : Scope) (hb : List Nat) (k : Nat) (s : State) :
    warpsBecome (hasLeft cluster) [k] s
      (acquireDrop core sc ((addHb k hb s).updWarp k (leaveBarrier cluster))) := by
  obtain ⟨h, e⟩ := addHb_updWarp k hb s
  rw [acquireDrop_eq_setCores, e, updWarp_updWarp]
  exact warpsBecome_upd _ _ _ _ _ fun w => ⟨h, rfl⟩
/-- The releases of a barrier settle results, and change nothing else but cores. -/
theorem barrierReleases (ks : List Nat) (cluster : Bool) (sc : Scope) (s : State) (hn : ks.Nodup)
    (hq : cluster = true → releasesQuiet ks s) :
    warpsBecome released ks s
      (if cluster then ks.foldl (fun s k => forceRelease k sc s) s else s) := by
  cases cluster with
  | false => exact ⟨rfl, fun _ _ => rfl, fun _ _ w hw => ⟨w, hw, w.outs, rfl⟩⟩
  | true => exact foldl_warpsBecome _ (releasesQuiet ks) _ ks s hn (hq rfl) fun u hu k hk => forceRelease_becomes ks sc u hu k hk
/-- A BARRIER THAT COMPLETES publishes the banks of its blocks and of its cluster, and lets its warps go. -/
theorem completeBarrier_spec (s : State) (bk : Nat) (cluster : Bool) (bks : List Nat) (hbks : bks = barrierBlocks s bk cluster)
    (hk : (s.warps.map (·.1)).Nodup)
    (hq : cluster = true → releasesQuiet ((barrierWarps s bks).map (·.1)) s) :
    let t := completeBarrier bk cluster s
    t.mem = s.mem ∧ t.cur = s.cur ∧ t.blocks = bks.foldl (fun m k => mMod m k (swapBlock cluster)) s.blocks ∧
      (cluster = true → t.clusters = mMod s.clusters (s.block bk).ck fun c => { c with cregs := c.cregs.map fun kr => (kr.1, publish kr.2) }) ∧
      (∀ kw ∈ barrierWarps s bks, ∃ h o, t.warp kw.1 = leaveBarrier cluster { kw.2 with outs := o, hb := h }) ∧
      ∀ k, (∀ kw ∈ barrierWarps s bks, kw.1 ≠ k) → mFind t.warps k = mFind s.warps k := by
  have hks : ((barrierWarps s bks).map (·.1)).Nodup := hk.sublist (List.filter_sublist.map _)
  have hmem : ∀ k, k ∈ (barrierWarps s bks).map (·.1) ↔ ∃ kw ∈ barrierWarps s bks, kw.1 = k := fun k => List.mem_map
  obtain ⟨e1, o1, c1⟩ := barrierReleases ((barrierWarps s bks).map (·.1)) cluster (if cluster then .c else .b) s hks hq
  unfold completeBarrier
  rw [← hbks]
  dsimp only
  generalize (if cluster = true then ((barrierWarps s bks).map (·.1)).foldl (fun s k => forceRelease k (if cluster then .c else .b) s) s else s) = s1 at *
  rw [foldl_updBlock_eq]
  generalize hs3 : (if cluster = true then _ else _ : State) = s3
  have h3 : s3.warps = s1.warps ∧ s3.mem = s.mem ∧ s3.cur = s.cur ∧ s3.blocks = bks.foldl (fun m k => mMod m k (swapBlock cluster)) s.blocks ∧
      (cluster = true → s3.clusters = mMod s.clusters (s.block bk).ck fun c => { c with cregs := c.cregs.map fun kr => (kr.1, publish kr.2) }) := by
    rw [← hs3, e1]
    cases cluster
    · exact ⟨rfl, rfl, rfl, rfl, by simp⟩
    · exact ⟨rfl, rfl, rfl, rfl, fun _ => rfl⟩
  obtain ⟨w3, m3, r3, b3, k3⟩ := h3
  obtain ⟨e4, o4, c4⟩ := foldl_warpsBecome _ (fun _ => True) _ ((barrierWarps s bks).map (·.1)) s3 hks trivial fun u _ k _ =>
    ⟨leave_becomes cluster (u.block (u.warp k).bk).core (if cluster then .c else .b)
      (((barrierWarps s bks).map (·.1)).flatMap fun wk => (s1.warp wk).hb) k u, trivial⟩
  refine ⟨by rw [e4]; exact m3, by rw [e4]; exact r3, by rw [e4]; exact b3, fun hc => by rw [e4]; exact k3 hc, fun kw hkw => ?_, fun k hne => ?_⟩
  · have hin : kw.1 ∈ (barrierWarps s bks).map (·.1) := (hmem _).2 ⟨kw, hkw, rfl⟩
    obtain ⟨w, hw, o, ho⟩ := c1 kw.1 hin kw.2 (mFind_eq_of_mem s.warps hk kw (List.mem_filter.1 hkw).1)
    obtain ⟨v, hv, h, hh⟩ := c4 kw.1 hin w (by rw [w3, hw])
    exact ⟨h, o, by rw [warp_of_mFind hv, hh, ho]⟩
  · have hout : k ∉ (barrierWarps s bks).map (·.1) := fun hin => by
      obtain ⟨kw, hkw, e⟩ := (hmem k).1 hin
      exact hne kw hkw e
    rw [o4 k hout, w3, o1 k hout]

/-! ### A WAITM's further reading (R200) -/
theorem waitmAddr_local (off : Nat) (h : off < 2 ^ 32) :
    localAlias (waitmAddr true (localAcc 0 off)) = true ∧ (waitmAddr true (localAcc 0 off)).toNat % 2 ^ 32 = off := by
  have e : (waitmAddr true (localAcc 0 off)).toNat = 0xFFFFFFFF * 2 ^ 32 + off := by
    rw [waitmAddr, if_pos rfl, BitVec.toNat_ofNat]
    show (0xFFFFFFFF * 2 ^ 32 + off) % 2 ^ 64 = _
    omega
  refine ⟨?_, by omega⟩
  rw [localAlias, beq_iff_eq]
  apply BitVec.eq_of_toNat_eq
  rw [BitVec.toNat_ushiftRight, e, Nat.shiftRight_eq_div_pow]
  show _ = 0xFFFFFFFF
  omega
/-- The checks of a word of the scratchpad that nothing is wrong with. -/
theorem uniformAcc_local (a : DWord) (off : Nat) (s : State) (ha : localAlias a = true) (ho : a.toNat % 2 ^ 32 = off)
    (hs : off + 4 ≤ s.cb.spSize) (hm : off % 4 = 0) (hb : sramBad s s.cw.bk .sp off 4 = false) :
    uniformAcc .read 4 4 a s = (.ok (true, localAcc 0 off), s) := by
  rw [uniformAcc, if_pos ha]
  simp only [ho, hb, Bool.and_false, Bool.false_eq_true, if_false]
  rw [if_neg (by omega), if_neg (by omega)]
theorem waitmRead_local (wk off : Nat) (s : State) :
    (waitmRead wk true (localAcc 0 off) s).2 = s ∧
      (loadVal (waitmRead wk true (localAcc 0 off) s).1).setWidth 32 = memRead32 (s.block (s.warp wk).bk).sp off := by
  refine ⟨rfl, ?_⟩
  have e : (waitmRead wk true (localAcc 0 off) s).1.map (·.val) = memReadBytes (s.block (s.warp wk).bk).sp off 4 := by
    have : (waitmRead wk true (localAcc 0 off) s).1 = (rangeFrom off 4).map fun o =>
        ⟨memRead (s.block (s.warp wk).bk).sp o, mGet (s.block (s.warp wk).bk).spRel 0 o⟩ := (mGet_mSet [] [] 0 0 _).trans (if_pos rfl)
    rw [this, List.map_map, readBytes_eq]; rfl
  rw [loadVal, e, memRead32, leWord]
  apply BitVec.eq_of_toNat_eq
  rw [BitVec.toNat_setWidth, BitVec.toNat_ofNat, BitVec.toNat_ofNat]
  exact Nat.mod_mod_of_dvd _ (Nat.pow_dvd_pow 2 (by decide))
/-- The acquire of a scratchpad's word orders writes before the warp. -/
theorem acquire_block (wk core : Nat) (wids : List Nat) (s : State) :
    ∃ h, acquire wk core .b wids s = s.updWarp wk fun w => { w with hb := h } := addHb_updWarp wk _ s
/-- A WAITM's reading of the scratchpad that nothing holds back. -/
theorem waitmTry_local (wk off : Nat) (c : Cond) (v : Word) (s : State) (hh : hbHeld s wk s.mem.nextWid = false) :
    (condHolds c (memRead32 (s.block (s.warp wk).bk).sp off) v = true →
      ∃ h, waitmTry wk true (localAcc 0 off) c v s = (true, s.updWarp wk fun w => { w with hb := h })) ∧
    (condHolds c (memRead32 (s.block (s.warp wk).bk).sp off) v = false → waitmTry wk true (localAcc 0 off) c v s = (false, s)) := by
  obtain ⟨hs, hv⟩ := waitmRead_local wk off s
  have hheld : waitmHeld s wk true (localAcc 0 off) = false := by rw [waitmHeld, hh]; rfl
  rw [← hv]
  refine ⟨fun hc => ?_, fun hc => ?_⟩
  · obtain ⟨h, e⟩ := acquire_block wk (s.block (s.warp wk).bk).core ((waitmRead wk true (localAcc 0 off) s).1.map (·.wid)) s
    refine ⟨h, ?_⟩
    rw [waitmTry, hheld]
    simp only [Bool.false_eq_true, if_false, hc, if_true, hs, e]
  · rw [waitmTry, hheld]
    simp only [Bool.false_eq_true, if_false, hc, hs]
/-- A parked group that is taken up after a change of its warp that keeps its block, its index and its parked groups. -/
theorem resumed_updWarp (wk : Nat) (p : Park) (h : List Nat) (s : State) (hw : (mFind s.warps wk).isSome = true) :
    resumed wk p (s.updWarp wk fun w => { w with hb := h }) = (resumed wk p s).updCw fun w => { w with hb := h } := by
  have e1 : ((unpark wk p s).warp wk) = { s.warp wk with parks := (s.warp wk).parks.filter (· != p) } := State.updWarp_warp _ _ _ hw
  have e2 : unpark wk p (s.updWarp wk fun w => { w with hb := h }) = (unpark wk p s).updWarp wk fun w => { w with hb := h } := by
    rw [unpark, unpark, updWarp_updWarp, updWarp_updWarp]
  have e3 : ((unpark wk p s).updWarp wk fun w => { w with hb := h }).warp wk = { (unpark wk p s).warp wk with hb := h } :=
    State.updWarp_warp _ _ _ (by simp [unpark, hw])
  simp only [resumed, resumeCur, e2, e3]
  rfl
/-- A WAITM READS THE SCRATCHPAD AGAIN. -/
theorem waitmAgain_local (s : State) (wk off : Nat) (p : Park) (c : Cond) (v : Word) (hoff : off < 2 ^ 32) (hm : off % 4 = 0)
    (hs : off + 4 ≤ (s.block (s.warp wk).bk).spSize) (hb : sramBad s (s.warp wk).bk .sp off 4 = false)
    (hh : hbHeld s wk s.mem.nextWid = false) (hw : (mFind s.warps wk).isSome = true) (hbun : (resumed wk p s).inBundle = true) :
    (condHolds c (memRead32 (s.block (s.warp wk).bk).sp off) v = true → ∃ h x,
      waitmAgain wk p true (localAcc 0 off) c v s = (x.setCur s.cur).updGrid (s.block (s.warp wk).bk).gid (fun y => { y with dstall := 0 }) ∧
      wentOn ((resumed wk p s).updCw fun w => { w with hb := h }) x) ∧
    (condHolds c (memRead32 (s.block (s.warp wk).bk).sp off) v = false → waitmAgain wk p true (localAcc 0 off) c v s = s) := by
  obtain ⟨a1, a2⟩ := waitmAddr_local off hoff
  obtain ⟨t1, t2⟩ := waitmTry_local wk off c v s hh
  have hacc := uniformAcc_local (waitmAddr true (localAcc 0 off)) off (resumeCur wk p s) a1 a2 hs hm hb
  have e : waitmAgain wk p true (localAcc 0 off) c v s = waitmEnds wk p (waitmTry wk true (localAcc 0 off) c v s) := by
    rw [waitmAgain, hacc]; rfl
  refine ⟨fun hc => ?_, fun hc => by rw [e, t2 hc]; rfl⟩
  obtain ⟨h, ht⟩ := t1 hc
  refine ⟨h, done ((resumed wk p s).updCw fun w => { w with hb := h }), ?_, done_upd _ _ hbun rfl⟩
  have hbk : ((s.updWarp wk fun w => { w with hb := h }).warp wk).bk = (s.warp wk).bk := by rw [State.updWarp_warp _ _ _ hw]
  rw [e, ht, ← resumed_updWarp wk p h s hw]
  simp only [waitmEnds, if_true, hbk]
  rfl

/-! ### A REFILL's answer (R112, R313) -/
/-- A lane that waits at no JOIN stays as it is when JOINs are released. -/
theorem joinFree_lane (w : Warp) (hl : w.lanes.length = 32) (l : Nat) (h : l < 32) (hs : (w.lane l).st ≠ .waitingJoin) :
    (joinFree w).lane l = w.lane l := (joinFree_released w hl l h).2 fun hc => hs hc.1
/-- A block with a warp that has not retired does not end (R113). -/
theorem blockEnd_live (s : State) (wk : Nat) (hw : (mFind s.warps wk).isSome = true) (hr : (s.warp wk).retiredW = false) :
    blockEnd (s.warp wk).bk s = s := by
  obtain ⟨w, hf⟩ := Option.isSome_iff_exists.1 hw
  have e : s.warp wk = w := warp_of_mFind hf
  have hm : (wk, w) ∈ blockWarps s w.bk := List.mem_filter.2 ⟨mem_of_mFind _ _ _ hf, by simp [← e, hr]⟩
  have hne : (blockWarps s w.bk).isEmpty = false := by rw [List.isEmpty_eq_false_iff]; exact List.ne_nil_of_mem hm
  rw [e, blockEnd]
  rw [if_pos (by simp [hne])]
/-- The blocks of some tasks that one block has posted. -/
theorem dedup_const (ts : List Task) (bk : Nat) (hne : ts ≠ []) (h : ∀ x ∈ ts, x.bk = bk) : (ts.map (·.bk)).dedup = [bk] := by
  have e : ts.map (·.bk) = List.replicate ts.length bk := List.eq_replicate_iff.2 ⟨by simp, fun b hb => by
    obtain ⟨x, hx, rfl⟩ := List.mem_map.1 hb
    exact h x hx⟩
  rw [e, List.replicate_dedup]
  simpa using hne
theorem zip_fst_sublist {α β : Type} (xs : List α) (ys : List β) : ((xs.zip ys).map (·.1)).Sublist xs := by
  induction xs generalizing ys with
  | nil => exact .slnil
  | cons x t ih =>
    cases ys with
    | nil => exact List.nil_sublist _
    | cons y u => exact (ih u).cons_cons x
/-- Tasks that are dropped leave the pool of their quad. -/
theorem dropTasks_tasks (q : Nat) (slots : List Nat) (s : State) :
    ((dropTasks q slots s).quad q).tasks = (s.quad q).tasks.filter fun t => !slots.contains t.slot := by
  rw [dropTasks, State.updQuad_quad, if_pos rfl]
/-- A REQUEST THAT IS ANSWERED fills vacant lanes with the tasks that it takes. -/
theorem refillAnswer_spec (s : State) (wk q : Nat) (r : Refill) (ts : List Task) (ls : List Nat) (hw : (mFind s.warps wk).isSome = true)
    (hl : (s.warp wk).lanes.length = 32) (hr : (s.warp wk).retiredW = false) (hf : (s.warp wk).refill = some r)
    (hq : q = quadOf (s.block (s.warp wk).bk).core) (hfirst : refillFirst s q wk r = true)
    (hts : ts = ((readyOrder s q).filter (refillTakes s wk r)).take r.cap) (hne : ts ≠ []) (hbk : ∀ x ∈ ts, x.bk = (s.warp wk).bk)
    (hls : ls = (rangeFrom 0 32).filter fun l => ((s.warp wk).lane l).st == .vacant) (hlne : ls ≠ []) :
    let t := refillAnswer wk s
    (t.warp wk).refill = none ∧
      (t.quad q).tasks = (s.quad q).tasks.filter (fun x => !((ls.zip ts).map fun y => y.2.slot).contains x.slot) ∧
      (∀ l x, (l, x) ∈ ls.zip ts →
        (t.warp wk).lane l = taskLane r.entry r.depth (s.warp wk).retired x ((s.warp wk).lane l) ∧
        (∀ i < 5, regAt (t.warp wk) (.lane i l) = recWord x.record (3 + i)) ∧ regAt (t.warp wk) (.lane 5 l) = x.id) ∧
      ∀ l < 32, ((s.warp wk).lane l).st ≠ .vacant → ((s.warp wk).lane l).st ≠ .waitingJoin →
        (t.warp wk).lane l = (s.warp wk).lane l ∧ ∀ i < 88, regAt (t.warp wk) (.lane i l) = regAt (s.warp wk) (.lane i l) := by
  have hmask : maskLanes ((s.warp wk).maskOf fun x => x.st == .vacant) = ls := by rw [maskOf_lanes, hls]
  have hlt : ∀ l ∈ ls, l < 32 ∧ ((s.warp wk).lane l).st = .vacant := fun l hin => by
    rw [hls, List.mem_filter, mem_rangeFrom] at hin
    exact ⟨by omega, by simpa using hin.2⟩
  let s1 := dropTasks q ((ls.zip ts).map fun x => x.2.slot) (s.updWarp wk fun w => { w with refill := none })
  have hw1 : s1.warp wk = { s.warp wk with refill := none } := State.updWarp_warp _ _ _ hw
  obtain ⟨f1, f2, f3, -, f5, f6, f7, f8, f9⟩ := fillFold wk r.entry r.depth (ls.zip ts) s1 (by simp [s1, dropTasks, hw]) (by rw [hw1]; exact hl)
    ((by rw [hls]; exact (range_nodup 0 32).filter _ : ls.Nodup).sublist (zip_fst_sublist ls ts)) fun x hx => (hlt x.1 (List.of_mem_zip hx).1).1
  have ht : refillAnswer wk s = (ts.map (·.bk)).dedup.foldl (fun s bk => blockEnd bk s)
      (afterLanes wk ((ls.zip ts).foldl (fun s x => fillLane wk x.1 r.entry r.depth x.2 s) s1)) := by
    rw [refillAnswer]
    simp only [hf, ← hq, hfirst, Bool.not_true, Bool.false_eq_true, if_false, ← hts, hmask, s1]
  rw [hw1] at f5 f6 f7 f8 f9
  generalize (ls.zip ts).foldl (fun s x => fillLane wk x.1 r.entry r.depth x.2 s) s1 = s2 at *
  obtain ⟨a, as, ha⟩ := List.exists_cons_of_ne_nil hlne
  obtain ⟨b, bs, hb⟩ := List.exists_cons_of_ne_nil hne
  have hin : (a, b) ∈ ls.zip ts := by rw [ha, hb]; exact List.mem_cons_self
  have hact : ∀ x ∈ ls.zip ts, ((s2.warp wk).lane x.1).st = .active := fun x hx => by rw [(f8 x hx).1]; rfl
  have ha32 := (hlt a (List.of_mem_zip hin).1).1
  have hafter := afterLanes_plain wk s2 f2 f3 a ha32 (by rw [hact _ hin]; decide) (by rw [hact _ hin]; decide)
  have hw3 : (s2.updWarp wk joinFree).warp wk = joinFree (s2.warp wk) := State.updWarp_warp _ _ _ f2
  have hend : refillAnswer wk s = s2.updWarp wk joinFree := by
    rw [ht, hafter, dedup_const ts _ hne hbk]
    have hbk3 : ((s2.updWarp wk joinFree).warp wk).bk = (s.warp wk).bk := by rw [hw3]; exact f7
    rw [← hbk3]
    exact blockEnd_live _ wk (by simp [f2]) (by rw [hw3]; exact f6.trans hr)
  dsimp only
  rw [hend, hw3]
  refine ⟨f5, ?_, fun l x hx => ?_, fun l hl32 hv hj => ?_⟩
  · rw [f1]
    exact dropTasks_tasks q _ _
  · obtain ⟨g1, g2, g3⟩ := f8 (l, x) hx
    refine ⟨?_, g2, g3⟩
    rw [joinFree_lane _ f3 l (hlt l (List.of_mem_zip hx).1).1 (by rw [hact _ hx]; decide)]
    exact g1
  · have hout : l ∉ (ls.zip ts).map (·.1) := fun h => by
      obtain ⟨x, hx, rfl⟩ := List.mem_map.1 h
      exact hv (hlt x.1 (List.of_mem_zip hx).1).2
    obtain ⟨g1, g2⟩ := f9 l hl32 hout
    rw [joinFree_lane _ f3 l hl32 (by rw [g1]; exact hj)]
    exact ⟨g1, g2⟩

/-- Settles O41: a completed barrier by its three folds over the warps and blocks, a WAITM's reading by the test of the
scratchpad's word, an answer by the fills of its lanes. -/
theorem barriersAndRefills : Obligations.BarriersAndRefills := by
  unfold Obligations.BarriersAndRefills
  refine ⟨?_, ?_, ?_⟩
  · intro s bk cluster bks hbks hn hready hres hk hq
    obtain ⟨m1, m2, m3, m4, m5, m6⟩ := completeBarrier_spec s bk cluster bks hbks hk fun hc => by
      obtain ⟨q1, q2, q3⟩ := hq hc
      refine ⟨q1, q2, fun k hin => ?_⟩
      obtain ⟨kw, hkw, rfl⟩ := List.mem_map.1 hin
      exact ⟨mFind_of_mem _ _ _ (List.mem_filter.1 hkw).1, q3 kw hkw⟩
    have hblk : ∀ k, mFind (completeBarrier bk cluster s).blocks k =
        if k ∈ bks then (mFind s.blocks k).map (swapBlock cluster) else mFind s.blocks k := fun k => by
      rw [m3, mFind_foldl_mMod _ _ _ _ hn]
    refine ⟨completeBarrier bk cluster s, congrArg Host.Outcome.next (if_pos hready), m1, m2, fun k hin => ?_, fun k hout => ?_, fun hc => ?_,
      fun kw hkw => ?_, m6⟩
    · obtain ⟨b, hb⟩ := Option.isSome_iff_exists.1 (hres k hin)
      have hb' := hblk k
      rw [if_pos hin, hb] at hb'
      rw [block_of_mFind hb', block_of_mFind hb]; rfl
    · rw [hblk k, if_neg hout]
    · rw [State.cluster, m4 hc, State.cluster, mGet, mGet, mFind_mMod, if_pos rfl]
      cases mFind s.clusters (s.block bk).ck <;> rfl
    · obtain ⟨h, o, e⟩ := m5 kw hkw
      rw [e]
      refine ⟨?_, ?_, ?_, ?_, fun l => leaveBarrier_lane cluster _ l⟩
      all_goals rw [leaveBarrier_rest]
  · intro s wk g off p c v hp hwhy hbt hm hoff hs hb hh hw hbun
    have e : exec (.waitmReadAgain wk g) s = .next (waitmAgain wk p true (localAcc 0 off) c v s) := by
      show execWaitmReadAgain wk g s = _
      rw [execWaitmReadAgain, hp]
      simp only [hwhy, hbt, Bool.not_true, Bool.false_eq_true, if_false]
    obtain ⟨h1, h2⟩ := waitmAgain_local s wk off p c v hoff hm hs hb hh hw hbun
    refine ⟨fun hc => ?_, fun hc => by rw [e, h2 hc]⟩
    obtain ⟨h, x, e1, e2⟩ := h1 hc
    exact ⟨h, x, by rw [e, e1], e2⟩
  · intro s wk q r ts ls hw hl hr hf hq hfirst hts hne hbk hls hlne
    exact ⟨refillAnswer wk s, rfl, refillAnswer_spec s wk q r ts ls hw hl hr hf hq hfirst hts hne hbk hls hlne⟩

end Sys2Proof.Machine
end

section
/-! The yard's steps: posts that enter, waves, admissions (O48). -/
namespace Sys2Proof.Machine

/-! ### Waiting posts (R289, R312) -/
/-- The record and the destination of a post that waits for a pool entry. -/
def poolPost : ParkWhy → Option (List Word × Reg)
  | .poolEntry r d => some (r, d)
  | _ => none
/-- The card, its address and the destination of a post that waits for a reservation entry. -/
def mxPost : ParkWhy → Option (List Word × DWord × Reg)
  | .mxEntry c a d => some (c, a, d)
  | _ => none
theorem poolEntryFree_eq (s : State) (q e wk : Nat) (p : Park) (r : List Word) (d : Reg) (he : freeSlot (s.quad q) = some e)
    (hp : (parksOn s q poolPost).head? = some (wk, p, (r, d))) : poolEntryFree q s = takeUp wk p (taskEnter r d e) s := by
  obtain ⟨t, hl⟩ := List.head?_eq_some_iff.1 hp
  rw [poolEntryFree, he]
  split
  · next h1 h2 => cases h1; cases h2.symm.trans hl; rfl
  · next h => exact (h e wk p r d t rfl hl).elim
theorem mxEntryFree_eq (s : State) (q e wk : Nat) (p : Park) (c : List Word) (a : DWord) (d : Reg) (hc : cardsWaiting s q = [])
    (he : freeEntry (s.quad q) = some e) (hp : (parksOn s q mxPost).head? = some (wk, p, (c, a, d))) :
    mxEntryFree q s = takeUp wk p (mxTicket c a d e) s := by
  obtain ⟨t, hl⟩ := List.head?_eq_some_iff.1 hp
  rw [mxEntryFree, hc, he]
  dsimp only
  split
  · next h1 h2 => cases h1; cases h2.symm.trans hl; rfl
  · next h => exact (h e wk p c a d t rfl hl).elim
/-- A task that enters returns its id. -/
theorem taskEnter_due (r : List Word) (d : Reg) (e : Nat) (u : State) (hb : u.inBundle = true) (hd : warpOrZ d = true) :
    resultDueB (resultDest d false u.cur.mask fun _ => z64 (taskOf u r e).id) (taskStands r e u) (taskEnter r d e u) := by
  rw [taskEnter, addTask_stands]
  exact enter_dueB d _ u u (taskStands r e u) (memSide.refl u) rfl rfl hb hd
/-- A job that arrives returns its ticket (R305). -/
theorem mxTicket_due (c : List Word) (a : DWord) (d : Reg) (e : Nat) (u : State) (hb : u.inBundle = true) (hd : warpOrZ d = true) :
    resultDueB (resultDest d false u.cur.mask fun _ => z64 (ticketWord u.cq (u.quad u.cq).arrived e)) (mxArrive false u.cb c a e u)
      (mxTicket c a d e u) :=
  enter_dueB d _ u u (mxArrive false u.cb c a e u) (memSide.refl u) rfl rfl hb hd

/-! ### Waves (R314) -/
/-- A fill leaves every other warp, and of its own warp what no lane and no register is. -/
theorem fillLane_rest (wk l : Nat) (pc : DWord) (depth : BitVec 6) (t : Task) (s : State) :
    (∀ k, k ≠ wk → mFind (fillLane wk l pc depth t s).warps k = mFind s.warps k) ∧
      ((fillLane wk l pc depth t s).warp wk).isWave = (s.warp wk).isWave ∧
      ((fillLane wk l pc depth t s).warp wk).role = (s.warp wk).role := by
  refine ⟨fun k hk => ?_, ?_⟩
  · rw [fillLane, State.updWarp_find, if_neg (Ne.symm hk)]
  · cases hw : mFind s.warps wk with
    | none => simp [fillLane, State.warp, mGet, hw]
    | some w =>
      have e : (fillLane wk l pc depth t s).warp wk = fillWarp l pc depth t (s.warp wk) := State.updWarp_warp _ _ _ (by simp [hw])
      rw [e, fillWarp, writeAll_rest]
      exact ⟨rfl, rfl⟩
theorem fillFold_rest (wk : Nat) (pc : DWord) (depth : BitVec 6) (pairs : List (Nat × Task)) (s : State) :
    let t := pairs.foldl (fun s x => fillLane wk x.1 pc depth x.2 s) s
    (∀ k, k ≠ wk → mFind t.warps k = mFind s.warps k) ∧ (t.warp wk).isWave = (s.warp wk).isWave ∧ (t.warp wk).role = (s.warp wk).role :=
  ⟨fun k hk => foldl_part (fun s : State => mFind s.warps k) _ pairs s fun u x => (fillLane_rest wk x.1 pc depth x.2 u).1 k hk,
    foldl_part (fun s : State => (s.warp wk).isWave) _ pairs s fun u x => (fillLane_rest wk x.1 pc depth x.2 u).2.1,
    foldl_part (fun s : State => (s.warp wk).role) _ pairs s fun u x => (fillLane_rest wk x.1 pc depth x.2 u).2.2⟩
/-- A wave's warp as it stands before its fills. -/
def bareWave (s : State) (x : Task) (i : Nat) : Warp :=
  { waveWarp (s.block x.bk) (s.grid (s.block x.bk).gid) i x.role with
    nextId := (s.warp (warpKey (s.block x.bk).bk i)).fresh, ntFids := (s.warp (warpKey (s.block x.bk).bk i)).ntFids }
theorem bareWave_lane (s : State) (x : Task) (i l : Nat) : (bareWave s x i).lane l = Lane.none := by
  show (List.replicate 32 Lane.none).getD l Lane.none = Lane.none
  rw [List.getD_eq_getElem?_getD, List.getElem?_replicate]
  split <;> rfl
/-- The machine with a wave's bare warp, its tasks out of the pool. -/
def waveReady (s : State) (q i : Nat) (x : Task) (ts : List Task) : State :=
  dropTasks q ((x :: ts).map (·.slot)) (s.setWarps (mSet s.warps (warpKey (s.block x.bk).bk i) (bareWave s x i)))
theorem waveReady_warp (s : State) (q i : Nat) (x : Task) (ts : List Task) (k : Nat) :
    mFind (waveReady s q i x ts).warps k = if warpKey (s.block x.bk).bk i = k then some (bareWave s x i) else mFind s.warps k :=
  mFind_mSet _ _ _ _
/-- A wave that finds a place starts with its fills, and an acquire of device scope (R226). -/
theorem waveStart_eq (s : State) (q i : Nat) (x : Task) (ts : List Task) (hts : waveTasks s q = x :: ts)
    (hi : waveIndex s (s.block x.bk) = some i) (hs : streamWids s (warpKey (s.block x.bk).bk i) = []) :
    ∃ h, waveStart q s = acquireDrop (s.block x.bk).core .d
      ((((rangeFrom 0 (x :: ts).length).zip (x :: ts)).foldl (fun u y => fillLane (warpKey (s.block x.bk).bk i) y.1 x.entry 0 y.2 u)
        (waveReady s q i x ts)).updWarp (warpKey (s.block x.bk).bk i) fun w => { w with hb := h }) := by
  have e : ∃ l, waveStart q s = acquireDrop (s.block x.bk).core .d (addHb (warpKey (s.block x.bk).bk i) l
      (((rangeFrom 0 (x :: ts).length).zip (x :: ts)).foldl (fun u y => fillLane (warpKey (s.block x.bk).bk i) y.1 x.entry 0 y.2 u)
        (waveReady s q i x ts))) := by
    rw [waveStart, hts]
    dsimp only
    rw [hi]
    dsimp only
    rw [forceStream_id _ _ hs]
    exact ⟨_, rfl⟩
  obtain ⟨l, e⟩ := e
  obtain ⟨h, e'⟩ := addHb_updWarp _ l _
  exact ⟨h, e.trans (congrArg (acquireDrop (s.block x.bk).core .d) e')⟩
/-- WHAT A WAVE'S START LEAVES. -/
theorem waveStart_spec (s : State) (q i wk : Nat) (x : Task) (ts : List Task) (b : Block) (hts : waveTasks s q = x :: ts)
    (hlen : (x :: ts).length ≤ 32) (hb : b = s.block x.bk) (hi : waveIndex s b = some i) (hwk : wk = warpKey b.bk i)
    (hs : streamWids s wk = []) :
    let t := waveStart q s
    (t.warp wk).isWave = true ∧ (t.warp wk).bk = b.bk ∧ (t.warp wk).role = x.role ∧
      (t.quad q).tasks = (s.quad q).tasks.filter (fun y => !((x :: ts).map (·.slot)).contains y.slot) ∧
      (∀ l y, (l, y) ∈ (rangeFrom 0 (x :: ts).length).zip (x :: ts) →
        ((t.warp wk).lane l).st = .active ∧ ((t.warp wk).lane l).pc = x.entry ∧ ((t.warp wk).lane l).taskId = y.id ∧
        (∀ j < 5, regAt (t.warp wk) (.lane j l) = recWord y.record (3 + j)) ∧ regAt (t.warp wk) (.lane 5 l) = y.id) ∧
      (∀ l < 32, (x :: ts).length ≤ l → ((t.warp wk).lane l).st = .vacant) ∧ t.mem = s.mem ∧ t.blocks = s.blocks ∧
      (t.coreAt b.core).snaps = [] ∧ ∀ k, k ≠ wk → mFind t.warps k = mFind s.warps k := by
  subst hb
  obtain ⟨h, e⟩ := waveStart_eq s q i x ts hts hi (hwk ▸ hs)
  rw [← hwk] at e
  have hw1 : mFind (waveReady s q i x ts).warps wk = some (bareWave s x i) := by rw [waveReady_warp, if_pos hwk.symm]
  have hw1' : (waveReady s q i x ts).warp wk = bareWave s x i := warp_of_mFind hw1
  have hrange : ∀ l, l ∈ rangeFrom 0 (x :: ts).length ↔ l < (x :: ts).length := fun l => by rw [mem_rangeFrom]; omega
  obtain ⟨f1, f2, f3, f4, f5, f6, f7, f8, f9⟩ := fillFold wk x.entry 0 ((rangeFrom 0 (x :: ts).length).zip (x :: ts)) (waveReady s q i x ts)
    (by rw [hw1]; rfl) (by rw [hw1']; rfl) ((range_nodup 0 _).sublist (zip_fst_sublist _ _))
    fun y hy => lt_of_lt_of_le ((hrange y.1).1 (List.of_mem_zip hy).1) hlen
  obtain ⟨r1, r2, r3⟩ := fillFold_rest wk x.entry 0 ((rangeFrom 0 (x :: ts).length).zip (x :: ts)) (waveReady s q i x ts)
  generalize ((rangeFrom 0 (x :: ts).length).zip (x :: ts)).foldl (fun u y => fillLane wk y.1 x.entry 0 y.2 u) (waveReady s q i x ts) = s2 at *
  rw [hw1'] at f7 f8 f9 r2 r3
  have hw : (waveStart q s).warp wk = { s2.warp wk with hb := h } := by
    rw [e]; exact State.updWarp_warp _ _ _ f2
  have hlane : ∀ l, ((waveStart q s).warp wk).lane l = (s2.warp wk).lane l := fun l => by rw [hw]; rfl
  have hreg : ∀ j l, regAt ((waveStart q s).warp wk) (.lane j l) = regAt (s2.warp wk) (.lane j l) := fun j l => by rw [hw]; rfl
  refine ⟨by rw [hw]; exact r2, by rw [hw]; exact f7, by rw [hw]; exact r3, ?_, fun l y hy => ?_, fun l hl hge => ?_, ?_, ?_, ?_, fun k hk => ?_⟩
  · rw [e]
    show (s2.quad q).tasks = _
    rw [f1]; exact dropTasks_tasks q _ _
  · obtain ⟨g1, g2, g3⟩ := f8 (l, y) hy
    simp only [hlane, hreg]
    exact ⟨by rw [g1]; rfl, by rw [g1]; rfl, by rw [g1]; rfl, g2, g3⟩
  · have hout : l ∉ (((rangeFrom 0 (x :: ts).length).zip (x :: ts)).map (·.1)) := fun hin => by
      have := (hrange l).1 ((zip_fst_sublist _ _).subset hin)
      omega
    rw [hlane, (f9 l hl hout).1, bareWave_lane]; rfl
  · rw [e]; show s2.mem = _; rw [f1]; rfl
  · rw [e]; show s2.blocks = _; rw [f1]; rfl
  · rw [e, acquireDrop, if_pos (by decide), State.updCore_coreAt, if_pos rfl]
  · have e1 : mFind (waveStart q s).warps k = mFind s2.warps k := by
      rw [e]
      exact (State.updWarp_find _ _ _ _).trans (if_neg (Ne.symm hk))
    rw [e1, r1 k hk, waveReady_warp, if_neg (by rw [← hwk]; exact Ne.symm hk)]
/-- A wave that finds no place holds its tasks. -/
theorem waveStart_held (s : State) (q : Nat) (x : Task) (ts : List Task) (hts : waveTasks s q = x :: ts)
    (hi : waveIndex s (s.block x.bk) = none) : waveStart q s = holdWave q (x :: ts) s := by
  rw [waveStart, hts]
  dsimp only
  rw [hi]
theorem holdWave_tasks (q : Nat) (ts : List Task) (s : State) : ∃ n, ((holdWave q ts s).quad q).tasks = (s.quad q).tasks.map fun y =>
    if ts.any (fun u => u.slot == y.slot) = true then { y with wave := some n } else y :=
  ⟨_, congrArg Quad.tasks ((State.updQuad_quad s q q _).trans (if_pos rfl))⟩

/-! ### Jobs (R18, R289) -/
theorem job_jid {s : State} {q jid : Nat} {j : Job} (h : s.job q jid = some j) : j.jid = jid := by
  simpa using List.find?_some h
/-- A change of a quad that leaves its jobs. -/
theorem updQuad_job (s : State) (q jid : Nat) (f : Quad → Quad) (h : (f (s.quad q)).jobs = (s.quad q).jobs) :
    (s.updQuad q f).job q jid = s.job q jid := by
  rw [State.job, State.updQuad_quad, if_pos rfl, h]; rfl
/-- A job that is changed, under its number. -/
theorem updJob_job (s : State) (q jid : Nat) (j : Job) (f : Job → Job) (hf : ∀ x, (f x).jid = x.jid) (h : s.job q jid = some j) :
    (updJob q jid f s).job q jid = some (f j) := by
  rw [updJob, State.job, State.updQuad_quad, if_pos rfl]
  dsimp only
  rw [List.find?_map]
  have e : ((fun x : Job => x.jid == jid) ∘ fun x => if x.jid = jid then f x else x) = fun x => x.jid == jid := by
    funext x
    show ((if x.jid = jid then f x else x).jid == jid) = (x.jid == jid)
    split <;> simp [hf]
  rw [e]
  show Option.map _ (s.job q jid) = _
  rw [h]
  exact congrArg some (if_pos (job_jid h))
/-- A matrix job that is changed. -/
theorem updMx_job (s : State) (q jid : Nat) (j : Job) (m : MxJob) (f : MxJob → MxJob) (h : s.job q jid = some j) (hk : j.kind = .mx m) :
    (updMx q jid f s).job q jid = some { j with kind := .mx (f m) } := by
  rw [updMx, updJob_job s q jid j _ (fun x => by split <;> rfl) h, hk]
/-- Of a quad it changes the jobs alone. -/
theorem updMx_quad (q jid : Nat) (f : MxJob → MxJob) (s : State) : ∃ js, (updMx q jid f s).quad q = { s.quad q with jobs := js } :=
  ⟨_, (State.updQuad_quad s q q _).trans (if_pos rfl)⟩
/-- A JOB WITHOUT EDGES is admitted; the cycles of its reload begin. -/
theorem admitJob_job (s : State) (q jid : Nat) (j : Job) (h : s.job q jid = some j) :
    admitJob q j s = s.setQuads (admitJob q j s).quads ∧
      (∀ ch n, j.kind = .copy ch n → (admitJob q j s).job q jid = some { j with admitted := true }) ∧
      ∀ m, j.kind = .mx m → (admitJob q j s).job q jid =
        some { j with admitted := true, kind := .mx { m with reloadLeft := if m.reloads then reloadCycles m.card + 1 else m.reloadLeft } } := by
  obtain rfl := job_jid h
  have h1 := updJob_job s q j.jid j (fun j => { j with admitted := true }) (fun _ => rfl) h
  refine ⟨?_, fun ch n hk => ?_, fun m hk => ?_⟩
  · rw [admitJob]
    split
    · split <;> rfl
    · rfl
  · have e : admitJob q j s = updJob q j.jid (fun j => { j with admitted := true }) s := by rw [admitJob, hk]
    rw [e]; exact h1
  · rw [admitJob, hk]
    dsimp only
    by_cases hr : m.reloads = true
    · rw [if_pos hr, if_pos hr]
      exact updMx_job _ q j.jid _ m _ h1 hk
    · rw [if_neg hr, if_neg hr, h1, ← hk]
theorem execAdmission_eq (s : State) (q jid : Nat) (j : Job) (h : s.job q jid = some j) (ha : j.admissible = true)
    (hk : ∀ die cid, j.kind ≠ .coll die cid) : exec (.admission q jid) s = .next (admitJob q j s) := by
  show execAdmission q jid s = _
  rw [execAdmission, h]
  dsimp only
  rw [if_pos ha]
  split
  · next die cid e => exact (hk die cid e).elim
  · rfl

end Sys2Proof.Machine
end

section
/-! The matrix engine's steps: reloads, grants, writes of passes, the governor's window (O48). -/
namespace Sys2Proof.Machine

/-! ### Reloads and grants (R283, R290, R303) -/
/-- A bank with the weights and side bytes of a job latched. -/
def latched (s : State) (j : Job) (m : MxJob) (y : LatchBank) : LatchBank :=
  { y with planes := memReadBytes (s.block j.bk).wb (kWboff m.card) (32 * mxPlanes (kW m.card) * kK m.card),
           side := memReadBytes (s.block j.bk).wb (kWside m.card) (sideBytes (kW m.card) * kBlocks m.card * kN m.card), badCols := [] }
/-- A RELOAD without errors latches the weights and their side bytes. -/
theorem doReload_latches (s : State) (q : Nat) (j : Job) (m : MxJob) (h : s.job q j.jid = some j) (hk : j.kind = .mx m)
    (hb : badColumns s j m.card = []) :
    doReload q j m s = s.setQuads (doReload q j m s).quads ∧
      (doReload q j m s).job q j.jid = some { j with kind := .mx { m with reloadDone := true, granted := true } } ∧
      mGet ((doReload q j m s).quad q).banks LatchBank.init m.bank = latched s j m (mGet (s.quad q).banks LatchBank.init m.bank) := by
  have e : doReload q j m s = updMx q j.jid (fun m => { m with reloadDone := true, granted := true }) (s.updQuad q fun x =>
      { x with banks := mUpd x.banks LatchBank.init m.bank (latched s j m) }) := by
    rw [doReload, hb]; rfl
  rw [e]
  refine ⟨rfl, updMx_job _ q j.jid j m _ ?_ hk, ?_⟩
  · rw [updQuad_job, h]; rfl
  · obtain ⟨js, hq⟩ := updMx_quad q j.jid (fun m => { m with reloadDone := true, granted := true }) (s.updQuad q fun x =>
      { x with banks := mUpd x.banks LatchBank.init m.bank (latched s j m) })
    rw [hq, State.updQuad_quad, if_pos rfl]
    exact (mGet_mUpd _ _ _ _ _ _).trans (if_pos rfl)
/-- The pass that a grant starts. -/
def grantedPass (s : State) (q : Nat) (j : Job) (m : MxJob) : Pass :=
  let row := memReadBytes (s.block j.bk).ab (kRowOff m.card m.rows) (32 * mxPlanes (kA m.card))
  let n := sideBytes (kA m.card) * kBlocks m.card
  { jid := j.jid, row := m.rows, doneAt := (s.quad q).mxCycle + rowCycles m.card row + 264, aRow := row,
    aSide := memReadBytes (s.block j.bk).ab (kRowSide m.card m.rows) n,
    bad := badRow s j.bk m.card m.rows || sramBad s j.bk .ab (kRowSide m.card m.rows) n, prior := none }
/-- The quad whose array takes the row. -/
def arrayTakes (s : State) (q : Nat) (j : Job) (m : MxJob) (x : Quad) : Quad :=
  { x with freeAt := x.mxCycle + rowCycles m.card (grantedPass s q j m).aRow, grants := x.grants + 1, grantee := some j.jid,
           passes := x.passes ++ [grantedPass s q j m] }
theorem grantPass_eq (s : State) (q : Nat) (j : Job) (m : MxJob) : grantPass q j m s =
    updMx q j.jid (fun m => { m with rows := m.rows + 1, granted := true }) (s.updQuad q (arrayTakes s q j m)) :=
  congrArg (updMx q j.jid _) (updQuad_congr s q _ _ rfl)
/-- A GRANT: the job's next row enters the array, which it holds for its cycles. -/
theorem grantPass_spec (s : State) (q : Nat) (j : Job) (m : MxJob) (h : s.job q j.jid = some j) (hk : j.kind = .mx m) :
    let t := grantPass q j m s
    t = s.setQuads t.quads ∧ (t.quad q).passes = (s.quad q).passes ++ [grantedPass s q j m] ∧
      (t.quad q).freeAt = (s.quad q).mxCycle + rowCycles m.card (grantedPass s q j m).aRow ∧
      (t.quad q).grants = (s.quad q).grants + 1 ∧
      t.job q j.jid = some { j with kind := .mx { m with rows := m.rows + 1, granted := true } } := by
  obtain ⟨js, hq⟩ := updMx_quad q j.jid (fun m => { m with rows := m.rows + 1, granted := true }) (s.updQuad q (arrayTakes s q j m))
  rw [State.updQuad_quad, if_pos rfl, ← grantPass_eq] at hq
  refine ⟨rfl, by rw [hq]; rfl, by rw [hq]; rfl, by rw [hq]; rfl, ?_⟩
  rw [grantPass_eq]
  exact updMx_job _ q j.jid j m _ ((updQuad_job s q j.jid (arrayTakes s q j m) rfl).trans h) hk

/-! ### Writes of passes (R281, R303) -/
/-- Words of 8 bytes stored one behind the other. -/
theorem memRead_words8 (B : Nat) (v : Nat → List Byte) (hv : ∀ n, (v n).length = 8) (a N : Nat) (m : Memory) (o : Nat) :
    memRead ((rangeFrom a N).foldl (fun m n => memWriteBytes m (B + 8 * n) (v n)) m) o =
      if B + 8 * a ≤ o ∧ o < B + 8 * (a + N) then (v ((o - B) / 8)).getD ((o - B) % 8) 0 else memRead m o := by
  induction N generalizing a m with
  | zero => rw [if_neg (by omega)]; rfl
  | succ N ih =>
    rw [rangeFrom, List.foldl_cons, ih, memRead_memWriteBytes, hv]
    by_cases h1 : B + 8 * a ≤ o ∧ o < B + 8 * a + 8
    · rw [if_neg (by omega), if_pos h1, if_pos (by omega), show (o - B) / 8 = a by omega, show (o - B) % 8 = o - (B + 8 * a) by omega]
    · rw [if_neg h1]
      by_cases h2 : B + 8 * (a + 1) ≤ o ∧ o < B + 8 * (a + 1 + N)
      · rw [if_pos h2, if_pos (by omega)]
      · rw [if_neg h2, if_neg (by omega)]
theorem memReadBytes_words8 (B : Nat) (v : Nat → List Byte) (hv : ∀ n, (v n).length = 8) (N n : Nat) (m : Memory) (hn : n < N) :
    memReadBytes ((rangeFrom 0 N).foldl (fun m n => memWriteBytes m (B + 8 * n) (v n)) m) (B + 8 * n) 8 = v n := by
  refine List.ext_getElem (by rw [readBytes_len, hv]) fun i h1 h2 => ?_
  have hi : i < 8 := by rw [← hv n]; exact h2
  have e := rangeFrom_getD (memRead ((rangeFrom 0 N).foldl (fun m n => memWriteBytes m (B + 8 * n) (v n)) m)) 0 (B + 8 * n) 8 i hi
  rw [← readBytes_eq, memRead_words8 B v hv, if_pos (by omega), show (B + 8 * n + i - B) / 8 = n by omega,
    show (B + 8 * n + i - B) % 8 = i by omega] at e
  rw [List.getD_eq_getElem _ _ h1, List.getD_eq_getElem _ _ h2] at e
  exact e
/-- The value that slot n of a pass without errors takes. -/
def passValue (s : State) (q : Nat) (j : Job) (m : MxJob) (p : Pass) (n : Nat) : Nat :=
  slotSum m.card (mGet (s.quad q).banks LatchBank.init m.bank) (passRow m.card p) n
    (if kAcc m.card then ((passPrior s j m p).getD n (0, false)).1 else 0)
/-- The slots of a pass without errors. -/
theorem passSlots_good (s : State) (q : Nat) (j : Job) (m : MxJob) (p : Pass) (h : ∀ y ∈ passSlots s q j m p, y.2.2 = false) :
    passSlots s q j m p = (rangeFrom 0 (kN m.card)).map fun n => (slotOff m.card p.row n, passValue s q j m p n, false) := by
  unfold passSlots at h ⊢
  refine List.map_congr_left fun n hn => ?_
  have hbad := h _ (List.mem_map_of_mem hn)
  dsimp only at hbad ⊢
  rw [hbad]; rfl
/-- A PASS WITHOUT ERRORS that is not its job's last writes its slots and is over. -/
theorem writePass_eq (s : State) (q : Nat) (j : Job) (m : MxJob) (p : Pass) (h : ∀ y ∈ passSlots s q j m p, y.2.2 = false)
    (hm : m.written + 1 < kM m.card) :
    writePass q j m p s = updMx q j.jid (fun m => { m with written := m.written + 1 })
      ((s.updBlock j.bk fun b => { b with cb := (rangeFrom 0 (kN m.card)).foldl (fun mem n =>
        memWriteBytes mem (8 * (kCbslot m.card + kCpitch m.card * p.row) + 8 * n) (leBytes (65536 * passValue s q j m p n) 8)) b.cb }).updQuad q
          fun x => { x with passes := x.passes.filter (· != p) }) := by
  have hany : (passSlots s q j m p).any (·.2.2) = false := List.any_eq_false.2 fun y hy => by simp [h y hy]
  have e : ∀ n, slotOff m.card p.row n = 8 * (kCbslot m.card + kCpitch m.card * p.row) + 8 * n := fun n => by
    rw [slotOff, Nat.mul_add]
  rw [writePass]
  simp only [hany, hm, if_true, Bool.false_eq_true, if_false]
  simp only [passSlots_good s q j m p h, List.foldl_map, e, Nat.mul_comm 65536]

/-! ### The governor's window (R291) -/
/-- No matrix job is in the yard, and no pass on its way. -/
def Quad.mxIdle (x : Quad) : Prop := x.mxJobs = [] ∧ x.passes = []
/-- An idle engine has nothing due. -/
theorem mxDue_idle (q : Nat) (s : State) (h : (s.quad q).mxIdle) : mxDue q s = readSlots q s ∧ (readSlots q s).quad q = s.quad q := by
  have hr : (readSlots q s).quad q = s.quad q := by
    rw [readSlots, State.updQuad_quad, if_pos rfl, h.2, List.map_nil, ← h.2]
  have hd : dueReloads (s.quad q) = [] := by rw [dueReloads, h.1]; rfl
  have hg : nextGrant (s.quad q) = none := by
    have : arbitrate (s.quad q) = none := by rw [arbitrate, grantable, h.1]; rfl
    rw [nextGrant, this]; split <;> rfl
  refine ⟨?_, hr⟩
  rw [mxDue]
  simp only [h.2, List.foldl_nil, hr, hd, hg]
/-- The counts of a cycle leave an idle engine's jobs, passes and cycle. -/
theorem mxCount_idle (x : Quad) (h : x.mxIdle) :
    (mxCount x).mxIdle ∧ (mxCount x).mxCycle = x.mxCycle ∧ (mxCount x).grants = x.grants := by
  have hk : ∀ j ∈ x.jobs, ∀ m, j.kind ≠ .mx m := fun j hj m e => by
    have := List.filterMap_eq_nil_iff.1 h.1 j hj
    rw [e] at this
    cases this
  refine ⟨⟨?_, h.2⟩, rfl, rfl⟩
  have hjobs : (mxCount x).jobs = x.jobs := by
    refine (List.map_congr_left fun j hj => ?_).trans (List.map_id x.jobs)
    split
    · next m e => exact (hk j hj m e).elim
    · rfl
  rw [Quad.mxJobs, hjobs]; exact h.1
/-- LOCAL CYCLES OF AN IDLE ENGINE only count; one that ends at a multiple of 64 has begun a window. -/
theorem tickMx_idle (q n : Nat) (s : State) (h : (s.quad q).mxIdle) :
    tickMx q n s = s.setQuads (tickMx q n s).quads ∧ ((tickMx q n s).quad q).mxCycle = (s.quad q).mxCycle + n ∧
      (0 < n → ((s.quad q).mxCycle + n) % 64 = 0 → ((tickMx q n s).quad q).grants = 0) := by
  induction n generalizing s with
  | zero => exact ⟨rfl, rfl, fun h => absurd h (by decide)⟩
  | succ n ih =>
    obtain ⟨hdue, hread⟩ := mxDue_idle q s h
    obtain ⟨hidle, hcyc, -⟩ := mxCount_idle (s.quad q) h
    have hu : ((mxDue q s).updQuad q fun x => mxNext (mxCount x)).quad q = mxNext (mxCount (s.quad q)) := by
      rw [State.updQuad_quad, if_pos rfl, hdue, hread]
    have hnext : (mxNext (mxCount (s.quad q))).mxCycle = (s.quad q).mxCycle + 1 := congrArg (· + 1) hcyc
    obtain ⟨i1, i2, i3⟩ := ih ((mxDue q s).updQuad q fun x => mxNext (mxCount x)) (by rw [hu]; exact hidle)
    rw [hu, hnext] at i2 i3
    rw [tickMx]
    refine ⟨by rw [i1, hdue]; rfl, by omega, fun _ h64 => ?_⟩
    cases n with
    | succ n => exact i3 (by omega) (by omega)
    | zero =>
      rw [tickMx, hu]
      exact if_pos (by rw [hcyc]; exact h64)

end Sys2Proof.Machine
end

section
/-! The copy engine's steps: starts and deliveries of fills (O48). -/
namespace Sys2Proof.Machine

theorem mMod_id {α : Type} (m : Map α) (k : Nat) : mMod m k (fun x => x) = m := by
  induction m with
  | nil => rfl
  | cons x t ih =>
    obtain ⟨j, v⟩ := x
    rw [mMod, ih]; split <;> rfl
/-- A place lies outside the header words that the engine rewrites (R278). -/
def besideHeader (c : Chan) (y : LSpace) (o : Nat) : Prop := y = .sp → c.log2 ≠ 0 → o < c.base + 4 ∨ c.base + 16 ≤ o
theorem headerBytes_length (stopped : Bool) (c : Chan) : (headerBytes stopped c).length = 12 := rfl
/-- One block alone has changed, in its channels and in the header words of one channel. -/
def chanBecomes (bk ch : Nat) (c : Chan) (s t : State) : Prop :=
  t = s.setBlocks t.blocks ∧ (mFind t.blocks bk).isSome = true ∧ t.chan bk ch = c ∧
    ∀ y o, besideHeader c y o → memRead ((t.block bk).space y) o = memRead ((s.block bk).space y) o
/-- A CHANNEL'S CHANGE, and its header's. -/
theorem updChan_becomes (bk ch : Nat) (f : Chan → Chan) (s : State) (h : (mFind s.blocks bk).isSome = true) :
    chanBecomes bk ch (f (s.chan bk ch)) s (updChan bk ch f s) := by
  have hb : (s.updBlock bk fun b => { b with chans := mUpd b.chans Chan.init ch f }).block bk =
      { s.block bk with chans := mUpd (s.block bk).chans Chan.init ch f } := State.updBlock_block _ _ _ h
  have hc : (s.updBlock bk fun b => { b with chans := mUpd b.chans Chan.init ch f }).chan bk ch = f (s.chan bk ch) := by
    rw [State.chan, hb]; exact (mGet_mUpd _ _ _ _ _ _).trans (if_pos rfl)
  have h1 : (mFind (s.updBlock bk fun b => { b with chans := mUpd b.chans Chan.init ch f }).blocks bk).isSome = true := by simp [h]
  rw [updChan]
  split
  · exact ⟨rfl, h1, hc, fun y o _ => by rw [hb]; cases y <;> rfl⟩
  · generalize hs1 : (s.updBlock bk fun b => { b with chans := mUpd b.chans Chan.init ch f }) = s1 at *
    have hw : (writeHeader bk ch s1).block bk = if (s1.chan bk ch).log2 = 0 then s1.block bk else
        { s1.block bk with sp := memWriteBytes (s1.block bk).sp ((s1.chan bk ch).base + 4) (headerBytes (s1.block bk).isStopped (s1.chan bk ch)) } :=
      State.updBlock_block _ _ _ h1
    refine ⟨by rw [← hs1]; rfl, by simp [writeHeader, h1], ?_, fun y o ho => ?_⟩
    · rw [State.chan, hw]; split <;> exact hc
    · have hsp : ∀ y, (s1.block bk).space y = (s.block bk).space y := fun y => by rw [hb]; cases y <;> rfl
      rw [hw, ← hsp, hc]
      split
      · rfl
      · next hl =>
        cases y
        case sp =>
          have := ho rfl hl
          show memRead (memWriteBytes _ _ _) o = _
          rw [memRead_memWriteBytes, headerBytes_length, if_neg (by omega)]; rfl
        all_goals rfl
/-- The channel whose head command has changed. -/
def headBecomes (f : CopyCmd → CopyCmd) (c : Chan) : Chan :=
  match c.cmds with
  | [] => c
  | x :: t => { c with cmds := f x :: t, wp := if (f x).started then (f x).p0 + BitVec.ofNat 32 (cShown (f x)) else c.wp }
theorem headBecomes_cmds (f : CopyCmd → CopyCmd) (c : Chan) (x : CopyCmd) (t : List CopyCmd) (h : c.cmds = x :: t) :
    (headBecomes f c).cmds = f x :: t := by rw [headBecomes, h]
theorem headBecomes_ring (f : CopyCmd → CopyCmd) (c : Chan) : (headBecomes f c).log2 = c.log2 ∧ (headBecomes f c).base = c.base := by
  rw [headBecomes]; split <;> exact ⟨rfl, rfl⟩
theorem headBecomes_beside (f : CopyCmd → CopyCmd) (c : Chan) (y : LSpace) (o : Nat) (h : besideHeader c y o) :
    besideHeader (headBecomes f c) y o := by
  rw [besideHeader, (headBecomes_ring f c).1, (headBecomes_ring f c).2]; exact h
theorem updHead_becomes (bk ch : Nat) (f : CopyCmd → CopyCmd) (s : State) (h : (mFind s.blocks bk).isSome = true) :
    chanBecomes bk ch (headBecomes f (s.chan bk ch)) s (updHead bk ch f s) := updChan_becomes bk ch _ s h
theorem updHead_launch (bk ch : Nat) (f : CopyCmd → CopyCmd) (s : State) : (updHead bk ch f s).launch = s.launch := by
  rw [updHead, updChan]; split <;> rfl

/-! ### Starts (R264) -/
/-- A COMMAND THAT STARTS takes the channel's pointer. -/
theorem startCopy_starts (s : State) (bk ch : Nat) (x : CopyCmd) (t : List CopyCmd) (hb : (mFind s.blocks bk).isSome = true)
    (hx : (s.chan bk ch).cmds = x :: t) (hn : cTotal x.words ≠ 0) :
    startCopy bk ch x s = s.setBlocks (startCopy bk ch x s).blocks ∧
      ((startCopy bk ch x s).chan bk ch).cmds = { x with started := true, p0 := (s.chan bk ch).wp } :: t := by
  have e : startCopy bk ch x s = updHead bk ch (fun y => { y with started := true, p0 := (s.chan bk ch).wp }) s := by
    rw [startCopy]; exact if_neg hn
  obtain ⟨h1, -, h2, -⟩ := updHead_becomes bk ch (fun y => { y with started := true, p0 := (s.chan bk ch).wp }) s hb
  rw [e]
  exact ⟨h1, by rw [h2]; exact headBecomes_cmds _ _ x t hx⟩

/-! ### Deliveries of fills (R267) -/
/-- Where the byte at a position of a fill goes, and the byte. -/
def fillPlace (r : List Word) (p : Nat) : Nat := cLocal r + cLoff r (p / cE r) + p % cE r
/-- The window after some positions of a fill. -/
def filled (r : List Word) (ps : List Nat) (m : Memory) : Memory :=
  ps.foldl (fun m p => memWrite m (fillPlace r p) (fillByte r (p % cE r))) m
/-- The window of a block after them. -/
def fillBlock (r : List Word) (ps : List Nat) (b : Block) : Block :=
  b.setSpace (cLSpace (cSpace r)) (filled r ps (b.space (cLSpace (cSpace r))))
theorem fillBlock_nil (r : List Word) (b : Block) : fillBlock r [] b = b := by
  rw [fillBlock, filled, List.foldl_nil]
  cases cLSpace (cSpace r) <;> rfl
theorem fillBlock_append (r : List Word) (ps qs : List Nat) (b : Block) :
    fillBlock r qs (fillBlock r ps b) = fillBlock r (ps ++ qs) b := by
  simp only [fillBlock, filled, List.foldl_append]
  cases cLSpace (cSpace r) <;> rfl
theorem fillBlock_space (r : List Word) (ps : List Nat) (b : Block) :
    (fillBlock r ps b).space (cLSpace (cSpace r)) = filled r ps (b.space (cLSpace (cSpace r))) ∧ (fillBlock r ps b).chans = b.chans := by
  rw [fillBlock]
  cases cLSpace (cSpace r) <;> exact ⟨rfl, rfl⟩
/-- A fill into a window of the block. -/
def localFill (r : List Word) : Prop := cKind r = 5 ∧ cDir r = false ∧ cSpace r ≠ 4
/-- One byte of a fill. -/
theorem dByte_fill (b : Block) (r : List Word) (p : Nat) (d : Deliv) (h : localFill r) (hd : d.fault = none) :
    dByte b r d p = { d with s := d.s.updBlock b.bk (fillBlock r [p]), n := d.n + 1 } := by
  obtain ⟨hk, hdir, hsp⟩ := h
  have ht : dTable b r p d = (some 0, d) := by rw [dTable, if_pos (by rw [hk]; decide)]
  have hc : cByte r 0 p = (.const (fillByte r (p % cE r)), .loc (fillPlace r p)) := by
    rw [cByte]
    simp only [hk, hdir, Bool.false_eq_true, if_false, if_true, fillPlace]
    rfl
  have hdest : dDest b r (.loc (fillPlace r p)) (fillByte r (p % cE r)) d = { d with s := d.s.updBlock b.bk (fillBlock r [p]) } := by
    rw [dDest]; exact if_neg hsp
  rw [dByte]
  simp only [hd, ht, hc, hdest, dSource, Option.isSome_none, Bool.false_eq_true, if_false, Option.getD_some]
/-- SOME BYTES OF A FILL. -/
theorem deliver_fill (b : Block) (x : CopyCmd) (ps : List Nat) (s : State) (h : localFill x.words) :
    deliver b x ps s = { s := s.updBlock b.bk (fillBlock x.words ps), sectors := x.sectors, slice := x.slice, fault := none,
                         bad := none, n := ps.length } := by
  have key : ∀ (qs ps : List Nat) (d : Deliv), d.fault = none → qs.foldl (dByte b x.words) { d with s := d.s.updBlock b.bk (fillBlock x.words ps) } =
      { d with s := d.s.updBlock b.bk (fillBlock x.words (ps ++ qs)), n := d.n + qs.length } := by
    intro qs
    induction qs with
    | nil => intro ps d _; rw [List.append_nil]; rfl
    | cons q t ih =>
      intro ps d hd
      rw [List.foldl_cons, dByte_fill b x.words q { d with s := d.s.updBlock b.bk (fillBlock x.words ps) } h hd]
      dsimp only
      rw [updBlock_twice]
      simp only [fillBlock_append]
      have := ih (ps ++ [q]) { d with n := d.n + 1 } hd
      rw [List.append_assoc] at this
      rw [List.length_cons, ← Nat.add_assoc, Nat.add_right_comm]
      exact this
  have := key ps [] { s := s, sectors := x.sectors, slice := x.slice, fault := none, bad := none, n := 0 } rfl
  simp only [List.nil_append, Nat.zero_add] at this
  rw [← this, deliver]
  have hs : s.updBlock b.bk (fillBlock x.words []) = s := by
    have e : fillBlock x.words [] = fun b => b := funext (fillBlock_nil x.words)
    rw [e]; exact congrArg s.setBlocks (mMod_id s.blocks b.bk)
  rw [hs]
/-- Where no warp of a block is parked, no CPWAIT looks again. -/
theorem checkCpwaits_quiet (bk ch : Nat) (s : State) (h : ∀ kw ∈ s.warps, kw.2.bk = bk → kw.2.parks = []) : checkCpwaits bk ch s = s := by
  rw [checkCpwaits]
  refine List.foldlRecOn (motive := fun t => t = s) _ _ rfl fun t ht kw hkw => ?_
  obtain ⟨h1, h2⟩ := mem_blockWarps s bk kw hkw
  rw [h kw h1 h2]; exact ht
/-- What settles a chunk of a fill that goes on: the command's count. -/
theorem settleChunk_fill (s : State) (bk ch : Nat) (x : CopyCmd) (hbk : (s.block bk).bk = bk) (hfill : localFill x.words)
    (hn : x.delivered + (nextChunk x).length < cTotal x.words) (hg : (s.grid (s.block bk).gid).killed = none) :
    settleChunk bk ch (s.block bk) x (deliver (s.block bk) x (nextChunk x) (serveChan bk ch s)) =
      checkCpwaits bk ch (updHead bk ch (fun y => { y with delivered := x.delivered + (nextChunk x).length, failed := y.failed || false })
        (updHead bk ch (fun y => { y with sectors := x.sectors, slice := x.slice })
          ((serveChan bk ch s).updBlock bk (fillBlock x.words (nextChunk x))))) := by
  have hrem : ∀ n u, countRemote (s.block bk) x.words n u = u := fun n u => by rw [countRemote, if_pos (.inl hfill.2.2)]
  have hkill : ∀ u : State, u.launch = s.launch → (u.grid (s.block bk).gid).killed = none := fun u hu => by
    rw [State.grid, hu]; exact hg
  rw [deliver_fill _ x _ _ hfill, hbk, settleChunk]
  simp only [hrem, keepReads, Option.isSome_none]
  rw [if_neg (by omega), hkill _ (by simp [updHead_launch, serveChan])]
  rfl
/-- A DELIVERY OF A FILL that is not its last: the bytes stand in the window, and count. -/
theorem fill_delivered (s : State) (bk ch : Nat) (x : CopyCmd) (t : List CopyCmd) (hb : (mFind s.blocks bk).isSome = true)
    (hbk : (s.block bk).bk = bk) (hx : (s.chan bk ch).cmds = x :: t) (hfill : localFill x.words)
    (hn : x.delivered + (nextChunk x).length < cTotal x.words) (hp : ∀ kw ∈ s.warps, kw.2.bk = bk → kw.2.parks = [])
    (hg : (s.grid (s.block bk).gid).killed = none) :
    let u := settleChunk bk ch (s.block bk) x (deliver (s.block bk) x (nextChunk x) (serveChan bk ch s))
    u = (s.setBlocks u.blocks).setCores u.cores ∧
      (u.chan bk ch).cmds = { x with delivered := x.delivered + (nextChunk x).length } :: t ∧
      ∀ o, besideHeader (s.chan bk ch) (cLSpace (cSpace x.words)) o →
        memRead ((u.block bk).space (cLSpace (cSpace x.words))) o =
          memRead (filled x.words (nextChunk x) ((s.block bk).space (cLSpace (cSpace x.words)))) o := by
  have hw : ((serveChan bk ch s).updBlock bk (fillBlock x.words (nextChunk x))).block bk = fillBlock x.words (nextChunk x) (s.block bk) :=
    State.updBlock_block _ _ _ hb
  obtain ⟨hspace, hchans⟩ := fillBlock_space x.words (nextChunk x) (s.block bk)
  have hwc : ((serveChan bk ch s).updBlock bk (fillBlock x.words (nextChunk x))).chan bk ch = s.chan bk ch := by
    rw [State.chan, hw, hchans]; rfl
  rw [← hw] at hspace
  have hws : ((serveChan bk ch s).updBlock bk (fillBlock x.words (nextChunk x))) =
      (s.setBlocks ((serveChan bk ch s).updBlock bk (fillBlock x.words (nextChunk x))).blocks).setCores (serveChan bk ch s).cores := rfl
  rw [settleChunk_fill s bk ch x hbk hfill hn hg]
  obtain ⟨u1, u2, u3, u4⟩ := updHead_becomes bk ch (fun y => { y with sectors := x.sectors, slice := x.slice })
    ((serveChan bk ch s).updBlock bk (fillBlock x.words (nextChunk x))) (by simp [serveChan, hb])
  generalize (serveChan bk ch s).updBlock bk (fillBlock x.words (nextChunk x)) = w at *
  generalize updHead bk ch (fun y => { y with sectors := x.sectors, slice := x.slice }) w = v at *
  obtain ⟨v1, -, v3, v4⟩ := updHead_becomes bk ch
    (fun y => { y with delivered := x.delivered + (nextChunk x).length, failed := y.failed || false }) v u2
  generalize updHead bk ch (fun y => { y with delivered := x.delivered + (nextChunk x).length, failed := y.failed || false }) v = u at *
  rw [u3, hwc] at v3 v4
  rw [hwc] at u4
  have hu : u = (s.setBlocks u.blocks).setCores u.cores := by rw [v1, u1, hws]; rfl
  rw [checkCpwaits_quiet bk ch u (by rw [hu]; exact hp)]
  refine ⟨hu, ?_, fun o ho => ?_⟩
  · rw [v3, headBecomes_cmds _ _ _ t (headBecomes_cmds _ _ x t hx), Bool.or_false]
  · rw [v4 _ o (headBecomes_beside _ _ _ o (headBecomes_beside _ _ _ o ho)), u4 _ o (headBecomes_beside _ _ _ o ho), hspace]

end Sys2Proof.Machine
end

section
/-! The engines' steps put together (O48). -/
namespace Sys2Proof.Machine

/-- A WRITE OF A PASS that is not its job's last. -/
theorem passWrite_spec (s : State) (q : Nat) (p : Pass) (j : Job) (m : MxJob) (hj : mxJobAt s q p.jid = some (j, m))
    (hb : (mFind s.blocks j.bk).isSome = true) (hgood : ∀ y ∈ passSlots s q j m p, y.2.2 = false) (hm : m.written + 1 < kM m.card) :
    let t := passWrite q p s
    (∀ n < kN m.card, memReadBytes (t.block j.bk).cb (8 * (kCbslot m.card + kCpitch m.card * p.row + n)) 8 =
        leBytes (65536 * passValue s q j m p n) 8) ∧
      (∀ o, o < 8 * (kCbslot m.card + kCpitch m.card * p.row) ∨ 8 * (kCbslot m.card + kCpitch m.card * p.row + kN m.card) ≤ o →
        memRead (t.block j.bk).cb o = memRead (s.block j.bk).cb o) ∧
      (∀ y, y ≠ .cb → (t.block j.bk).space y = (s.block j.bk).space y) ∧
      (∀ k, k ≠ j.bk → mFind t.blocks k = mFind s.blocks k) ∧ p ∉ (t.quad q).passes ∧ t.mem = s.mem ∧ t.warps = s.warps := by
  have e : passWrite q p s = writePass q j m p s := by rw [passWrite, hj]
  have hblk : (writePass q j m p s).block j.bk = { s.block j.bk with cb := (rangeFrom 0 (kN m.card)).foldl (fun mem n =>
      memWriteBytes mem (8 * (kCbslot m.card + kCpitch m.card * p.row) + 8 * n) (leBytes (65536 * passValue s q j m p n) 8)) (s.block j.bk).cb } := by
    rw [writePass_eq s q j m p hgood hm]
    exact State.updBlock_block s j.bk _ hb
  have hlen : ∀ n, (leBytes (65536 * passValue s q j m p n) 8).length = 8 := fun n => leBytes_length _ _
  dsimp only
  rw [e]
  refine ⟨fun n hn => ?_, fun o ho => ?_, fun y hy => ?_, fun k hk => ?_, ?_, ?_, ?_⟩
  · rw [hblk, Nat.mul_add 8 _ n]
    exact memReadBytes_words8 _ (fun n => leBytes (65536 * passValue s q j m p n) 8) hlen _ n _ hn
  · rw [hblk]
    refine (memRead_words8 _ (fun n => leBytes (65536 * passValue s q j m p n) 8) hlen _ _ _ o).trans (if_neg ?_)
    omega
  · rw [hblk]; cases y
    case cb => exact absurd rfl hy
    all_goals rfl
  · rw [writePass_eq s q j m p hgood hm]
    exact (State.updBlock_find _ _ _ _).trans (if_neg (Ne.symm hk))
  · obtain ⟨js, hq⟩ := updMx_quad q j.jid (fun m => { m with written := m.written + 1 }) ((s.updBlock j.bk fun b => { b with
      cb := (rangeFrom 0 (kN m.card)).foldl (fun mem n => memWriteBytes mem (8 * (kCbslot m.card + kCpitch m.card * p.row) + 8 * n)
        (leBytes (65536 * passValue s q j m p n) 8)) b.cb }).updQuad q fun x => { x with passes := x.passes.filter (· != p) })
    rw [writePass_eq s q j m p hgood hm, hq, State.updQuad_quad, if_pos rfl]
    simp [List.mem_filter]
  · rw [writePass_eq s q j m p hgood hm]; rfl
  · rw [writePass_eq s q j m p hgood hm]; rfl

/-- Settles O48: each step by the lemma on its function; the write of a pass by 8-byte words stored one behind the other, the
governor's window by the cycles of an idle engine, a fill by its bytes written one after another. -/
theorem engineSteps : Obligations.EngineSteps := by
  unfold Obligations.EngineSteps
  refine ⟨?_, ?_, ?_, ?_, ?_, ?_, ?_, ?_, ?_, ?_⟩
  · rintro s u q e wk p r d he hp rfl hb hd
    exact ⟨taskEnter r d e (resumed wk p s), congrArg Host.Outcome.next (poolEntryFree_eq s q e wk p r d he hp), taskEnter_due r d e _ hb hd⟩
  · rintro s u q e wk p c a d hc he hp rfl hb hd
    exact ⟨mxTicket c a d e (resumed wk p s), congrArg Host.Outcome.next (mxEntryFree_eq s q e wk p c a d hc he hp), mxTicket_due c a d e _ hb hd⟩
  · intro s q i wk x ts b hts hlen hb hi hwk hs
    exact ⟨waveStart q s, rfl, waveStart_spec s q i wk x ts b hts hlen hb hi hwk hs⟩
  · intro s q x ts hts hi
    obtain ⟨n, hn⟩ := holdWave_tasks q (x :: ts) s
    exact ⟨holdWave q (x :: ts) s, n, congrArg Host.Outcome.next (waveStart_held s q x ts hts hi), rfl, hn⟩
  · intro s q jid j hj ha
    obtain ⟨h1, h2, h3⟩ := admitJob_job s q jid j hj
    refine ⟨fun ch n hk => ⟨admitJob q j s, execAdmission_eq s q jid j hj ha ?_, h1, h2 ch n hk⟩,
      fun m hk => ⟨admitJob q j s, execAdmission_eq s q jid j hj ha ?_, h1, h3 m hk⟩⟩
    all_goals intro die cid; rw [hk]; exact nofun
  · intro s q j m hj hk
    refine ⟨fun hdue hbad => ?_, fun hg row hrow => ?_⟩
    · obtain ⟨h1, h2, h3⟩ := doReload_latches s q j m hj hk hbad
      refine ⟨doReload q j m s, ?_, h1, h2, by rw [h3]; rfl, by rw [h3]; rfl⟩
      show execReload q s = _
      rw [execReload, hdue]
    · obtain ⟨h1, h2, h3, h4, h5⟩ := grantPass_spec s q j m hj hk
      subst hrow
      refine ⟨grantPass q j m s, grantedPass s q j m, ?_, h1, h2, rfl, rfl, rfl, rfl, h3, h4, h5⟩
      show execPassGrant q s = _
      rw [execPassGrant, hg]
  · intro s q p j m x hdue hj hb hgood hm hx
    subst hx
    obtain ⟨h1, h2⟩ := passWrite_spec s q p j m hj hb hgood hm
    refine ⟨passWrite q p s, ?_, fun n hn off hoff => hoff ▸ h1 n hn, h2⟩
    show execPassWrite q s = _
    rw [execPassWrite, hdue]
  · intro s q hj hp
    obtain ⟨h1, h2, h3⟩ := tickMx_idle q (64 - (s.quad q).mxCycle % 64) s ⟨hj, hp⟩
    exact ⟨_, rfl, h1, by omega, h3 (by omega) (by omega)⟩
  · intro s bk ch x c hb hc hx
    subst hc
    obtain ⟨t, ht⟩ := List.head?_eq_some_iff.1 hx
    have hhead : headCmd s bk ch = some x := hx
    refine ⟨fun hskip hstart hn => ?_, fun hdel hbk hk hdir hsp hn hp hturn hg => ?_⟩
    · obtain ⟨h1, h2⟩ := startCopy_starts s bk ch x t hb ht hn
      refine ⟨startCopy bk ch x s, _, ?_, h1, by rw [h2, ht]; rfl, rfl⟩
      show execCopyCommandStart bk ch s = _
      simp only [execCopyCommandStart, hhead, hskip, hstart, Bool.false_eq_true, if_false, if_true]
    · obtain ⟨h1, h2, h3⟩ := fill_delivered s bk ch x t hb hbk ht ⟨hk, hdir, hsp⟩ hn hp hg
      refine ⟨_, ?_, h1, h3, by rw [h2, ht]; rfl⟩
      show execCopyDelivery bk ch s = _
      simp only [execCopyDelivery, hhead, hdel, hturn, Bool.and_true, if_true]
  · intro s q v hq
    refine ⟨fun h0 h64 => ⟨_, congrArg Host.Outcome.next (if_neg (by omega)), rfl, ?_, fun k hk => ?_⟩,
      ⟨_, congrArg Host.Outcome.next (if_neg (by omega)), rfl, ?_, fun k hk => ?_⟩⟩
    all_goals rw [State.updQuad_quad]
    · exact if_pos rfl
    · exact if_neg (Ne.symm hk)
    · exact if_pos rfl
    · exact if_neg (Ne.symm hk)

end Sys2Proof.Machine
end

section
/-! Encodings (O55 to O57). The round trip stands instruction by instruction in Laws. The decoder is exact because each of its
parts is: it passes a word on only with the sub-field values, zero fields and predicate fields it has read, and the fields of a
word joined again are the word. -/
namespace Sys2Proof

/-! ### Fields joined again -/
theorem bit1_getLsbD {n : Nat} (x : BitVec n) (i : Nat) : (bit1 (x.getLsbD i)).toNat = x.toNat / 2 ^ i % 2 := by
  rw [bit1_nat, bit_of_nat]
  rcases Nat.mod_two_eq_zero_or_one (x.toNat / 2 ^ i) with h | h <;> simp [h]
/-- A flag as a field of one bit. -/
theorem flag_field {k : Nat} (w : BitVec k) (i : Nat) : bit1 (w.getLsbD i) = w.extractLsb' i 1 :=
  BitVec.eq_of_toNat_eq (by rw [bit1_getLsbD, toNat_field]; rfl)
/-- Two fields side by side are one field. -/
theorem field_join {k hi lo n m : Nat} {w : BitVec k} {x : BitVec n} {y : BitVec m} (hx : x = w.extractLsb' hi n)
    (hy : y = w.extractLsb' lo m) (h : hi = lo + m) : x ++ y = w.extractLsb' lo (n + m) := by
  subst hx hy h
  apply BitVec.eq_of_toNat_eq
  simp only [toNat_app, toNat_field]
  rw [Nat.pow_add, Nat.add_comm n, Nat.pow_add, ← Nat.div_div_eq_div_mul, Nat.mod_mul, Nat.mul_comm, Nat.add_comm]
/-- A part of a field of zeros is zero. -/
theorem zero_part {k lo n lo' n' : Nat} {w : BitVec k} (h : 0#n = w.extractLsb' lo n) (hl : lo ≤ lo') (hh : lo' + n' ≤ lo + n) :
    0#n' = w.extractLsb' lo' n' := by
  apply BitVec.eq_of_getLsbD_eq
  intro i hi
  have hb := congrArg (·.getLsbD (lo' - lo + i)) h
  have e : lo + (lo' - lo + i) = lo' + i := by omega
  simpa [BitVec.getLsbD_extractLsb', hi, e, show lo' - lo + i < n by omega] using hb

section
variable {w : Word} {set : BitVec 1} {op : BitVec 6}
/-- A word of format LR, GR or GE is its fields. -/
theorem encR_fields {m : BitVec 3} {d a b : Reg} (hs : fSet w = set) (ho : (fOp w).toNat = op.toNat) (hm : m = fM w)
    (hd : d = fD w) (ha : a = fA w) (hb : b = fB w) : encR set (fSw w) op m d a b = w := by
  subst hs hm hd ha hb
  apply BitVec.eq_of_toNat_eq
  rw [encR_nat, ← ho]
  simp only [fSet, fSw, fOp, fM, fD, fA, fB, toNat_field, bit1_getLsbD]
  have := w.isLt
  omega
/-- A word of REGGIVE's kind, with b alone. -/
theorem encR_fields_b (hs : fSet w = 1#1) (ho : (fOp w).toNat = op.toNat) (hz : 0#17 = w.extractLsb' 7 17) :
    encR 1 (fSw w) op 0 0 0 (fB w) = w :=
  encR_fields hs ho (zero_part hz (by decide) (by decide)) (zero_part hz (by decide) (by decide))
    (zero_part hz (by decide) (by decide)) rfl
/-- A word of format LI, LM, LO or LA is its fields. -/
theorem encI_fields {x : BitVec 10} (hs : fSet w = 0#1) (ho : (fOp w).toNat = op.toNat) (hx : x = w.extractLsb' 0 10) :
    encI (fSw w) op (fT w) (fA10 w) x = w := by
  subst hx
  have hs : w.toNat / 2 ^ 31 % 2 ^ 1 = 0 := by rw [← toNat_field]; exact congrArg BitVec.toNat hs
  apply BitVec.eq_of_toNat_eq
  rw [encI_nat, ← ho]
  simp only [fSw, fOp, fT, fA10, toNat_field, bit1_getLsbD]
  have := w.isLt
  omega
/-- A word of format LH or GI is its fields. -/
theorem encG_fields {d : Reg} {x : BitVec 17} (hs : fSet w = set) (ho : (fOp w).toNat = op.toNat) (hd : d = fT w)
    (hx : x = w.extractLsb' 0 17) : encG set (fSw w) op d x = w := by
  subst hs hd hx
  apply BitVec.eq_of_toNat_eq
  rw [encG_nat, ← ho]
  simp only [fSet, fSw, fOp, fT, toNat_field, bit1_getLsbD]
  have := w.isLt
  omega
/-- A word of format GB is its fields. -/
theorem encB_fields (hs : fSet w = 1#1) (ho : (fOp w).toNat = op.toNat) :
    encB (fSw w) op (w.getLsbD 23) (w.extractLsb' 20 3) (w.extractLsb' 0 20) = w := by
  have hs : w.toNat / 2 ^ 31 % 2 ^ 1 = 1 := by rw [← toNat_field]; exact congrArg BitVec.toNat hs
  apply BitVec.eq_of_toNat_eq
  rw [encB_nat, ← ho]
  simp only [fSw, fOp, toNat_field, bit1_getLsbD]
  have := w.isLt
  omega
/-- A word of ISETI is its fields. -/
theorem iseti_word {m : BitVec 3} (hs : fSet w = 0#1) (ho : (fOp w).toNat = 0x18) (hm : m = fM w)
    (hz : w.extractLsb' 20 1 = 0#1) :
    (0#1 ++ bit1 (fSw w) ++ 0x18#6 ++ m ++ 0#1 ++ w.extractLsb' 17 3 ++ fA10 w ++ w.extractLsb' 0 10 : BitVec 32) = w := by
  subst hm
  have hs : w.toNat / 2 ^ 31 % 2 ^ 1 = 0 := by rw [← toNat_field]; exact congrArg BitVec.toNat hs
  have hz : w.toNat / 2 ^ 20 % 2 ^ 1 = 0 := by rw [← toNat_field]; exact congrArg BitVec.toNat hz
  have ho : w.toNat / 2 ^ 24 % 2 ^ 6 = 0x18 := by rw [← toNat_field]; exact ho
  apply BitVec.eq_of_toNat_eq
  rw [iseti_nat]
  simp only [fSw, fM, fA10, toNat_field, bit1_getLsbD]
  have := w.isLt
  omega
end
/-- A field of which all is 0 but a flag in its lowest bit. -/
theorem flagField {w : Word} (h : decide ((fM w).toNat ≤ 1) = true) : 0#2 ++ bit1 (w.getLsbD 21) = fM w := by
  have h := of_decide_eq_true h
  rw [fM, toNat_field] at h
  apply BitVec.eq_of_toNat_eq
  rw [toNat_app, bit1_getLsbD, fM, toNat_field]
  simp only [BitVec.toNat_ofNat]
  omega

/-- STG's qualifier: two bits that are both set or both clear. -/
theorem ntFlag {w : Word} (h : (w.extractLsb' 6 2 == 0#2 || w.extractLsb' 6 2 == 3#2) = true) :
    bit1 (w.getLsbD 6) = w.extractLsb' 7 1 := by
  have h : w.toNat / 2 ^ 6 % 2 ^ 2 = 0 ∨ w.toNat / 2 ^ 6 % 2 ^ 2 = 3 := by
    rw [← toNat_field]
    exact (Bool.or_eq_true_iff.1 h).imp (fun e => congrArg BitVec.toNat (eq_of_beq e)) fun e => congrArg BitVec.toNat (eq_of_beq e)
  apply BitVec.eq_of_toNat_eq
  rw [bit1_getLsbD, toNat_field]
  omega

/-! ### Sub-field values: what names a value is its code -/
theorem satMode_code : ∀ x, ∀ m ∈ satModeOf x, satModeCode m = x := by decide
theorem mulPart_code : ∀ x, ∀ m ∈ mulPartOf x, mulPartCode m = x := by decide
theorem mnMx_code : ∀ x, ∀ m ∈ mnMxOf x, mnMxCode m = x := by decide
theorem lopOp_code : ∀ x, ∀ m ∈ lopOpOf x, lopOpCode m = x := by decide
theorem shfOp_code : ∀ x, ∀ m ∈ shfOpOf x, shfOpCode m = x := by decide
theorem unaOp_code : ∀ x, ∀ m ∈ unaOpOf x, unaOpCode m = x := by decide
theorem cond_code : ∀ x, ∀ m ∈ condOf x, condCode m = x := by decide
theorem divOp_code : ∀ x, ∀ m ∈ divOpOf x, divOpCode m = x := by decide
theorem plopOp_code : ∀ x, ∀ m ∈ plopOpOf x, plopOpCode m = x := by decide
theorem rnd_code : ∀ x, ∀ m ∈ rndOf x, rndCode m = x := by decide
theorem fmnOp_code : ∀ x, ∀ m ∈ fmnOpOf x, fmnOpCode m = x := by decide
theorem fCond_code : ∀ x, ∀ m ∈ fCondOf x, fCondCode m = x := by decide
theorem sfuOp_code : ∀ x, ∀ m ∈ sfuOpOf x, sfuOpCode m = x := by decide
theorem dsfuOp_code : ∀ x, ∀ m ∈ dsfuOpOf x, dsfuOpCode m = x := by decide
theorem cvtOp_code : ∀ x, ∀ m ∈ cvtOpOf x, cvtOpCode m = x := by decide
theorem shflOp_code : ∀ x, ∀ m ∈ shflOpOf x, shflOpCode m = x := by decide
theorem voteOp_code : ∀ x, ∀ m ∈ voteOpOf x, voteOpCode m = x := by decide
theorem redKind_code : ∀ x, ∀ m ∈ redKindOf x, redKindCode m = x := by decide
theorem size_code : ∀ x, ∀ m ∈ sizeOf_ x, sizeCode m = x := by decide
theorem ldgQ_code : ∀ x, ∀ m ∈ ldgQOf x, ldgQCode m = x := by decide
theorem ldsQ_code : ∀ x, ∀ m ∈ ldsQOf x, ldsQCode m = x := by decide
theorem stsQ_code : ∀ x, ∀ m ∈ stsQOf x, stsQCode m = x := by decide
theorem scope_code : ∀ x, ∀ m ∈ scopeOf x, scopeCode m = x := by decide
theorem aop_code : ∀ x, ∀ m ∈ aopOf x, aopCode m = x := by decide
theorem use_code : ∀ x, ∀ m ∈ useOf x, useCode m = x := by decide
theorem atomTy_code : ∀ x, ∀ m ∈ atomTyOf x, atomTyCode m = x := by decide
theorem galuOp_code : ∀ x, ∀ m ∈ galuOpOf x, galuOpCode m = x := by decide
theorem barxOp_code : ∀ x, ∀ m ∈ barxOpOf x, barxOpCode m = x := by decide
/-! ### The parts of the decoder -/
/-- A decoding of a word is exact: it gives the instruction whose word it is, or nothing. -/
def Exact (w : Word) (r : Except Reject Instr) : Prop := ∀ i, r = .ok i → hasWord i = true ∧ encode i = w

namespace Exact
variable {w : Word} {r : Reject} {k : Except Reject Instr}

theorem ok {i : Instr} (h : hasWord i = true) (e : encode i = w) : Exact w (.ok i) := by
  rintro _ ⟨rfl⟩
  exact ⟨h, e⟩
theorem error : Exact w (.error r) := nofun
theorem need {c : Bool} (h : c = true → Exact w k) : Exact w (need c r k) := by
  cases c
  · exact error
  · exact h rfl
theorem sub {α : Type} {o : Option α} {k : α → Except Reject Instr} (h : ∀ x ∈ o, Exact w (k x)) : Exact w (sub o k) := by
  cases o
  · exact error
  · exact h _ rfl
theorem zeroF {n : Nat} {x : BitVec n} (h : 0#n = x → Exact w k) : Exact w (zeroF x k) :=
  need fun e => h (eq_of_beq e).symm
/-- A predicate read from a field of seven bits is that field. -/
theorem predF {x : Reg} {k : PredNo → Except Reject Instr} (h : ∀ p, p7 p = x → Exact w (k p)) : Exact w (predF x k) := by
  exact zeroF fun e => h _ ((field_join e rfl rfl).trans BitVec.extractLsb'_eq_self)
end Exact

section
variable {w : Word} {n : Nat}
theorem op_ofNat (ho : (fOp w).toNat = n) : (fOp w).toNat = (BitVec.ofNat 6 n).toNat := by
  rw [← ho, BitVec.ofNat_toNat, BitVec.setWidth_eq]
variable (hs : fSet w = 1#1) (ho : (fOp w).toNat = n)
include hs ho
theorem gb_exact {f : Bool → Bool → PredNo → BitVec 20 → Instr} (h : ∀ s g p x, hasWord (f s g p x) = true)
    (e : ∀ s g p x, encode (f s g p x) = encB s (.ofNat 6 n) g p x) : Exact w (gb w f) :=
  .ok (h ..) ((e ..).trans (encB_fields hs (op_ofNat ho)))
theorem grA_exact {f : Bool → Reg → Instr} (h : ∀ s a, hasWord (f s a) = true)
    (e : ∀ s a, encode (f s a) = encR 1 s (.ofNat 6 n) 0 0 a 0) : Exact w (grA w f) :=
  .zeroF fun hm => .zeroF fun hd => .zeroF fun hb => .ok (h ..) ((e ..).trans (encR_fields hs (op_ofNat ho) hm hd rfl hb))
theorem gr0_exact {f : Bool → Instr} (h : ∀ s, hasWord (f s) = true) (e : ∀ s, encode (f s) = encR 1 s (.ofNat 6 n) 0 0 0 0) :
    Exact w (gr0 w f) :=
  .zeroF fun hz => .ok (h _) ((e _).trans (encR_fields hs (op_ofNat ho) (zero_part hz (by decide) (by decide))
    (zero_part hz (by decide) (by decide)) (zero_part hz (by decide) (by decide)) (zero_part hz (by decide) (by decide))))
theorem grDA_exact {f : Bool → Reg → Reg → Instr} (h : ∀ s d a, hasWord (f s d a) = true)
    (e : ∀ s, encode (f s (fD w) (fA w)) = encR 1 s (.ofNat 6 n) 0 (fD w) (fA w) 0) : Exact w (grDA w f) :=
  .zeroF fun hm => .zeroF fun hb => .ok (h ..) ((e _).trans (encR_fields hs (op_ofNat ho) hm rfl rfl hb))
end
/-- SETC has one word for all its rows (R209). -/
theorem setcOf_word (s : Bool) (d : Reg) (x : BitVec 17) :
    hasWord (setcOf s d x) = true ∧ encode (setcOf s d x) = encG 1 s 0x1D d x := by
  have e (n : Nat) (h : x.toNat = n) : encG 1 s 0x1D d (BitVec.ofNat 17 n) = encG 1 s 0x1D d x := by
    rw [← h, BitVec.ofNat_toNat, BitVec.setWidth_eq]
  unfold setcOf
  split
  next h => exact ⟨rfl, e _ h⟩
  next h => exact ⟨rfl, e _ h⟩
  next h => exact ⟨rfl, e _ h⟩
  next h => exact ⟨rfl, e _ h⟩
  next h => exact ⟨rfl, e _ h⟩
  next h => exact ⟨rfl, e _ h⟩
  next => exact ⟨rfl, rfl⟩

/-! ### The two sets -/
/-- LDR of a word with bit 7 clear: bit 6 tells its two forms apart. -/
theorem ldr_exact {w : Word} {sz : Size} (hs : fSet w = 0#1) (ho : (fOp w).toNat = 0x3F) (hz : sizeCode sz = w.extractLsb' 8 2)
    (h7 : w.getLsbD 7 = false) :
    Exact w (.ok (if w.getLsbD 6 then .ldrUse (fSw w) sz (w.getLsbD 5) (w.extractLsb' 0 5) (fT w) (fA10 w)
      else .ldrRo (fSw w) sz (fT w) (fA10 w) (w.extractLsb' 0 6))) := by
  have hq : bit1 false ++ bit1 (w.getLsbD 6) = w.extractLsb' 6 2 := field_join (h7 ▸ flag_field w 7) (flag_field w 6) rfl
  cases h6 : w.getLsbD 6 <;> rw [h6] at hq
  · exact .ok rfl (encI_fields hs ho (field_join (field_join hz hq rfl) rfl rfl))
  · exact .ok rfl (encI_fields hs ho (field_join (field_join (field_join hz hq rfl) (flag_field w 5) rfl) rfl rfl))
/-- The lane set is exact, opcode by opcode in the order of `decodeLane` (R61). -/
theorem decodeLane_exact (w : Word) (hs : fSet w = 0#1) : Exact w (decodeLane w) := by
  unfold decodeLane
  split
  next ho => exact .sub fun m hm => .ok rfl (encR_fields hs ho (satMode_code _ m hm) rfl rfl rfl)
  next ho => exact .sub fun m hm => .ok rfl (encR_fields hs ho (satMode_code _ m hm) rfl rfl rfl)
  next ho => exact .sub fun m hm => .ok rfl (encR_fields hs ho (mulPart_code _ m hm) rfl rfl rfl)
  next ho => exact .sub fun m hm => .ok rfl (encR_fields hs ho (mulPart_code _ m hm) rfl rfl rfl)
  next ho => exact .sub fun m hm => .ok rfl (encR_fields hs ho (mnMx_code _ m hm) rfl rfl rfl)
  next ho => exact .sub fun m hm => .ok rfl (encR_fields hs ho (lopOp_code _ m hm) rfl rfl rfl)
  next ho => exact .sub fun m hm => .ok rfl (encR_fields hs ho (shfOp_code _ m hm) rfl rfl rfl)
  next ho => exact .sub fun m hm => .zeroF fun hb => .ok rfl (encR_fields hs ho (unaOp_code _ m hm) rfl rfl hb)
  next ho => exact .need fun hm => .ok rfl (encR_fields hs ho (flagField hm) rfl rfl rfl)
  next ho => exact .need fun hm => .ok rfl (encR_fields hs ho (eq_of_beq hm).symm rfl rfl rfl)
  next ho => exact .sub fun c hc => .predF fun p hp => .ok rfl (encR_fields hs ho (cond_code _ c hc) hp rfl rfl)
  next ho => exact .ok rfl (encR_fields hs ho rfl rfl rfl rfl)
  next ho => exact .ok rfl (encR_fields hs ho rfl rfl rfl rfl)
  next ho => exact .need fun hm => .ok rfl (encR_fields hs ho (flagField hm) rfl rfl rfl)
  next ho => exact .sub fun m hm => .ok rfl (encR_fields hs ho (divOp_code _ m hm) rfl rfl rfl)
  next ho => exact .ok rfl (encI_fields hs ho rfl)
  next ho => exact .ok rfl (encI_fields hs ho rfl)
  next ho => exact .ok rfl (encI_fields hs ho rfl)
  next ho => exact .ok rfl (encI_fields hs ho rfl)
  next ho => exact .zeroF fun hz => .ok rfl (encI_fields hs ho (field_join hz rfl rfl))
  next ho => exact .zeroF fun hz => .ok rfl (encI_fields hs ho (field_join hz rfl rfl))
  next ho => exact .zeroF fun hz => .ok rfl (encG_fields hs ho rfl (field_join hz rfl rfl))
  next ho => exact .zeroF fun hz => .ok rfl (encG_fields hs ho rfl (field_join hz rfl rfl))
  next ho => exact .sub fun c hc => .zeroF fun hz => .ok rfl (iseti_word hs ho (cond_code _ c hc) hz.symm)
  next ho => exact .zeroF fun hm => .zeroF fun hb => .ok rfl (encR_fields hs ho hm rfl rfl hb)
  next ho =>
    exact .sub fun m hm => .predF fun d hd => .predF fun a ha => .predF fun b hb => .need fun _ =>
      .ok rfl (encR_fields hs ho (plopOp_code _ m hm) hd ha hb)
  next ho => exact .sub fun m hm => .ok rfl (encR_fields hs ho (rnd_code _ m hm) rfl rfl rfl)
  next ho => exact .sub fun m hm => .ok rfl (encR_fields hs ho (rnd_code _ m hm) rfl rfl rfl)
  next ho => exact .sub fun m hm => .ok rfl (encR_fields hs ho (rnd_code _ m hm) rfl rfl rfl)
  next ho => exact .sub fun m hm => .ok rfl (encR_fields hs ho (rnd_code _ m hm) rfl rfl rfl)
  next ho => exact .sub fun m hm => .ok rfl (encR_fields hs ho (fmnOp_code _ m hm) rfl rfl rfl)
  next ho => exact .sub fun c hc => .predF fun p hp => .ok rfl (encR_fields hs ho (fCond_code _ c hc) hp rfl rfl)
  next ho => exact .sub fun m hm => .ok rfl (encR_fields hs ho (rnd_code _ m hm) rfl rfl rfl)
  next ho => exact .sub fun m hm => .ok rfl (encR_fields hs ho (rnd_code _ m hm) rfl rfl rfl)
  next ho => exact .sub fun m hm => .ok rfl (encR_fields hs ho (rnd_code _ m hm) rfl rfl rfl)
  next ho => exact .sub fun m hm => .ok rfl (encR_fields hs ho (rnd_code _ m hm) rfl rfl rfl)
  next ho => exact .sub fun m hm => .ok rfl (encR_fields hs ho (rnd_code _ m hm) rfl rfl rfl)
  next ho => exact .sub fun m hm => .ok rfl (encR_fields hs ho (rnd_code _ m hm) rfl rfl rfl)
  next ho =>
    exact .sub fun f hf => .zeroF fun hz => .sub fun m hm =>
      .ok rfl (encR_fields hs ho (sfuOp_code _ f hf) rfl rfl (field_join hz (rnd_code _ m hm) rfl))
  next ho =>
    exact .sub fun f hf => .zeroF fun hz => .sub fun m hm =>
      .ok rfl (encR_fields hs ho (dsfuOp_code _ f hf) rfl rfl (field_join hz (rnd_code _ m hm) rfl))
  next ho =>
    exact .sub fun m hm => .sub fun c hc =>
      .ok rfl (encR_fields hs ho (rnd_code _ m hm) rfl rfl (field_join (flag_field w 6) (cvtOp_code _ c hc) rfl))
  next ho => exact .need fun hm => .ok rfl (encR_fields hs ho (eq_of_beq hm).symm rfl rfl rfl)
  next ho => exact .sub fun c hc => .predF fun p hp => .ok rfl (encR_fields hs ho (fCond_code _ c hc) hp rfl rfl)
  next ho => exact .need fun hm => .zeroF fun hb => .ok rfl (encR_fields hs ho (flagField hm) rfl rfl hb)
  next ho => exact .sub fun m hm => .need fun _ => .ok rfl (encR_fields hs ho (shflOp_code _ m hm) rfl rfl rfl)
  next ho => exact .sub fun m hm => .zeroF fun hb => .ok rfl (encR_fields hs ho (voteOp_code _ m hm) rfl rfl hb)
  next ho => exact .need fun hm => .predF fun p hp => .ok rfl (encR_fields hs ho (eq_of_beq hm).symm rfl rfl hp)
  next ho => exact .sub fun k hk => .zeroF fun hb => .ok rfl (encR_fields hs ho (redKind_code _ k hk) rfl rfl hb)
  next ho =>
    exact .sub fun sz hz => .sub fun q hq =>
      .ok rfl (encI_fields hs ho (field_join (field_join (size_code _ sz hz) (ldgQ_code _ q hq) rfl) rfl rfl))
  next ho =>
    exact .sub fun sz hz => .need fun hq => .ok rfl (encI_fields hs ho
      (field_join (field_join (field_join (size_code _ sz hz) (ntFlag hq) rfl) (flag_field w 6) rfl) rfl rfl))
  next ho =>
    exact .sub fun sz hz => .sub fun q hq =>
      .ok rfl (encI_fields hs ho (field_join (field_join (size_code _ sz hz) (ldsQ_code _ q hq) rfl) rfl rfl))
  next ho =>
    exact .sub fun sz hz => .sub fun q hq =>
      .ok rfl (encI_fields hs ho (field_join (field_join (size_code _ sz hz) (stsQ_code _ q hq) rfl) rfl rfl))
  next ho =>
    exact .sub fun sc hc => .ok rfl (encI_fields hs ho
      (field_join (field_join (field_join (flag_field w 9) (scope_code _ sc hc) rfl) (flag_field w 5) rfl) rfl rfl))
  next ho =>
    exact .sub fun sc hc => .ok rfl (encI_fields hs ho
      (field_join (field_join (field_join (flag_field w 9) (scope_code _ sc hc) rfl) (flag_field w 5) rfl) rfl rfl))
  next ho =>
    exact .sub fun op hp => .sub fun u hu => .sub fun ty ht => .ok rfl (encI_fields hs ho
      (field_join (field_join (field_join (use_code _ u hu) (aop_code _ op hp) rfl) (flag_field w 2) rfl) (atomTy_code _ ty ht) rfl))
  next ho => exact .sub fun sz hz => .need fun h7 => ldr_exact hs ho (size_code _ sz hz) (eq_of_beq h7)
  next => exact .error

/-- The group set is exact, opcode by opcode in the order of `decodeGroup` (R64). -/
theorem decodeGroup_exact (w : Word) (hs : fSet w = 1#1) : Exact w (decodeGroup w) := by
  unfold decodeGroup
  split
  next ho => exact gr0_exact hs ho (fun _ => rfl) fun _ => rfl
  next ho => exact gb_exact hs ho (fun _ _ _ _ => rfl) fun _ _ _ _ => rfl
  next ho => exact gb_exact hs ho (fun _ _ _ _ => rfl) fun _ _ _ _ => rfl
  next ho => exact gb_exact hs ho (fun _ _ _ _ => rfl) fun _ _ _ _ => rfl
  next ho => exact grA_exact hs ho (fun _ _ => rfl) fun _ _ => rfl
  next ho => exact grA_exact hs ho (fun _ _ => rfl) fun _ _ => rfl
  next ho => exact grA_exact hs ho (fun _ _ => rfl) fun _ _ => rfl
  next ho => exact grA_exact hs ho (fun _ _ => rfl) fun _ _ => rfl
  next ho => exact gr0_exact hs ho (fun _ => rfl) fun _ => rfl
  next ho => exact grA_exact hs ho (fun _ _ => rfl) fun _ _ => rfl
  next ho => exact gr0_exact hs ho (fun _ => rfl) fun _ => rfl
  next ho => exact .zeroF fun hd => .ok rfl (encG_fields hs ho hd rfl)
  next ho => exact .zeroF fun hd => .ok rfl (encG_fields hs ho hd rfl)
  next ho => exact .sub fun c hc => .zeroF fun hd => .ok rfl (encR_fields hs ho (cond_code _ c hc) hd rfl rfl)
  next ho =>
    exact .need fun hm => .zeroF fun hz => .ok rfl (encR_fields hs ho (flagField hm) (zero_part hz (by decide) (by decide))
      (zero_part hz (by decide) (by decide)) (zero_part hz (by decide) (by decide)))
  next ho =>
    exact .sub fun op hp => .need fun _ => .need fun _ => .ok rfl (encR_fields hs ho (barxOp_code _ op hp) rfl rfl rfl)
  next ho =>
    exact .sub fun sc hc => .zeroF fun hd => .zeroF fun ha => .ok rfl (encR_fields hs ho (scope_code _ sc hc) hd ha rfl)
  next ho =>
    exact .sub fun sc hc => .zeroF fun hz => .ok rfl (encR_fields hs ho (scope_code _ sc hc)
      (zero_part hz (by decide) (by decide)) (zero_part hz (by decide) (by decide)) (zero_part hz (by decide) (by decide)))
  next ho => exact gr0_exact hs ho (fun _ => rfl) fun _ => rfl
  next ho => exact grDA_exact hs ho (fun _ _ _ => rfl) fun _ => rfl
  next ho => exact .sub fun op hp => .ok rfl (encR_fields hs ho (galuOp_code _ op hp) rfl rfl rfl)
  next ho => exact .sub fun op hp => .ok rfl (encG_fields hs ho rfl (field_join (galuOp_code _ op hp) rfl rfl))
  next ho => exact .ok rfl (encG_fields hs ho rfl rfl)
  next ho => exact .ok rfl (encG_fields hs ho rfl rfl)
  next ho => exact .sub fun k hk => .zeroF fun hb => .ok rfl (encR_fields hs ho (redKind_code _ k hk) rfl rfl hb)
  next ho => exact .sub fun c hc => .predF fun p hp => .ok rfl (encR_fields hs ho (cond_code _ c hc) hp rfl rfl)
  next ho => exact .ok rfl (encG_fields hs ho rfl rfl)
  next ho => exact .ok (setcOf_word ..).1 ((setcOf_word ..).2.trans (encG_fields hs ho rfl rfl))
  next ho => exact .zeroF fun hm => .zeroF fun ha => .zeroF fun hb => .ok rfl (encR_fields hs ho hm rfl ha hb)
  next ho => exact .zeroF fun hm => .ok rfl (encR_fields hs ho hm rfl rfl rfl)
  next ho => exact .zeroF fun hz => .ok rfl (encR_fields_b hs ho hz)
  next ho => exact .zeroF fun hz => .ok rfl (encR_fields_b hs ho hz)
  next ho => exact .zeroF fun ha => .zeroF fun hb => .ok rfl (encR_fields hs ho rfl rfl ha hb)
  next ho => exact .zeroF fun hb => .ok rfl (encR_fields hs ho rfl rfl rfl hb)
  next ho => exact grDA_exact hs ho (fun _ _ _ => rfl) fun _ => rfl
  next ho => exact grDA_exact hs ho (fun _ _ _ => rfl) fun _ => rfl
  next ho => exact grDA_exact hs ho (fun _ _ _ => rfl) fun _ => rfl
  next ho => exact .need fun hm => .zeroF fun hd => .ok rfl (encR_fields hs ho (flagField hm) hd rfl rfl)
  next ho => exact grDA_exact hs ho (fun _ _ _ => rfl) fun _ => rfl
  next ho => exact .zeroF fun ha => .zeroF fun hb => .ok rfl (encR_fields hs ho rfl rfl ha hb)
  next ho => exact .zeroF fun hm => .ok rfl (encR_fields hs ho hm rfl rfl rfl)
  next ho => exact .need fun hm => .zeroF fun hb => .ok rfl (encR_fields hs ho (flagField hm) rfl rfl hb)
  next ho => exact grDA_exact hs ho (fun _ _ _ => rfl) fun _ => rfl
  next ho => exact grDA_exact hs ho (fun _ _ _ => rfl) fun _ => rfl
  next ho => exact .zeroF fun hd => grDA_exact hs ho (fun _ _ _ => rfl) fun s => hd ▸ rfl
  next => exact .error
theorem decodeWord_exact (w : Word) : Exact w (decodeWord w) := by
  unfold decodeWord
  split
  next h => exact decodeLane_exact w (eq_of_beq h)
  next h => exact decodeGroup_exact w ((BitVec.eq_zero_or_eq_one (fSet w)).resolve_left fun e => h (beq_iff_eq.2 e))
/-- Settles O56: every part of the decoder is exact, and the fields it has read, joined again, are the word. -/
theorem decodingIsExact : Obligations.DecodingIsExact := decodeWord_exact

/-! ### The obligations -/
/-- Settles O55, by cases on the instruction: each one that has a word decodes back by its own law. -/
theorem roundTrip : Obligations.RoundTrip := by
  intro i
  cases i with
  | iadd sw m d a b => exact Laws.RoundTrip.iadd sw m d a b
  | isub sw m d a b => exact Laws.RoundTrip.isub sw m d a b
  | imul sw m d a b => exact Laws.RoundTrip.imul sw m d a b
  | imad sw m d a b => exact Laws.RoundTrip.imad sw m d a b
  | imnmx sw m d a b => exact Laws.RoundTrip.imnmx sw m d a b
  | lop sw m d a b => exact Laws.RoundTrip.lop sw m d a b
  | shf sw m d a b => exact Laws.RoundTrip.shf sw m d a b
  | iuna sw m d a => exact Laws.RoundTrip.iuna sw m d a
  | bfe sw signed d a b => exact Laws.RoundTrip.bfe sw signed d a b
  | bfi sw d a b => exact Laws.RoundTrip.bfi sw d a b
  | iset sw c p a b => exact Laws.RoundTrip.iset sw c p a b
  | sel sw p d a b => exact Laws.RoundTrip.sel sw p d a b
  | lea sw sh d a b => exact Laws.RoundTrip.lea sw sh d a b
  | iadd64 sw sub d a b => exact Laws.RoundTrip.iadd64 sw sub d a b
  | idiv sw m d a b => exact Laws.RoundTrip.idiv sw m d a b
  | iaddi sw d a imm => exact Laws.RoundTrip.iaddi sw d a imm
  | andi sw d a imm => exact Laws.RoundTrip.andi sw d a imm
  | ori sw d a imm => exact Laws.RoundTrip.ori sw d a imm
  | xori sw d a imm => exact Laws.RoundTrip.xori sw d a imm
  | shli sw d a count => exact Laws.RoundTrip.shli sw d a count
  | shri sw d a count => exact Laws.RoundTrip.shri sw d a count
  | movl sw d imm => exact Laws.RoundTrip.movl sw d imm
  | movh sw d imm => exact Laws.RoundTrip.movh sw d imm
  | iseti sw c p a imm => exact Laws.RoundTrip.iseti sw c p a imm
  | mov sw d a => exact Laws.RoundTrip.mov sw d a
  | plop sw m d a b => exact Laws.RoundTrip.plop sw m d a b
  | fadd sw m d a b => exact Laws.RoundTrip.fadd sw m d a b
  | fsub sw m d a b => exact Laws.RoundTrip.fsub sw m d a b
  | fmul sw m d a b => exact Laws.RoundTrip.fmul sw m d a b
  | ffma sw m d a b => exact Laws.RoundTrip.ffma sw m d a b
  | fmnmx sw m d a b => exact Laws.RoundTrip.fmnmx sw m d a b
  | fset sw c p a b => exact Laws.RoundTrip.fset sw c p a b
  | dadd sw m d a b => exact Laws.RoundTrip.dadd sw m d a b
  | dmul sw m d a b => exact Laws.RoundTrip.dmul sw m d a b
  | dfma sw m d a b => exact Laws.RoundTrip.dfma sw m d a b
  | bfma2 sw m d a b => exact Laws.RoundTrip.bfma2 sw m d a b
  | hfma2 sw m d a b => exact Laws.RoundTrip.hfma2 sw m d a b
  | fdot2 sw m d a b => exact Laws.RoundTrip.fdot2 sw m d a b
  | sfu sw f m d a => exact Laws.RoundTrip.sfu sw f m d a
  | dsfu sw f m d a => exact Laws.RoundTrip.dsfu sw f m d a
  | cvt sw m c sat d a => exact Laws.RoundTrip.cvt sw m c sat d a
  | prmt sw d a b => exact Laws.RoundTrip.prmt sw d a b
  | dset sw c p a b => exact Laws.RoundTrip.dset sw c p a b
  | fcls sw f64 d a => exact Laws.RoundTrip.fcls sw f64 d a
  | shfl sw m d a b => exact Laws.RoundTrip.shfl sw m d a b
  | vote sw m d a => exact Laws.RoundTrip.vote sw m d a
  | matchv sw d a p => exact Laws.RoundTrip.matchv sw d a p
  | red sw k d a => exact Laws.RoundTrip.red sw k d a
  | ldg sw sz q t a off => exact Laws.RoundTrip.ldg sw sz q t a off
  | stg sw sz nt t a off => exact Laws.RoundTrip.stg sw sz nt t a off
  | lds sw sz q t a off => exact Laws.RoundTrip.lds sw sz q t a off
  | sts sw sz q t a off => exact Laws.RoundTrip.sts sw sz q t a off
  | lda sw b64 sc sp t a off => exact Laws.RoundTrip.lda sw b64 sc sp t a off
  | stl sw b64 sc sp t a off => exact Laws.RoundTrip.stl sw b64 sc sp t a off
  | atom sw aop u ty sp t a => exact Laws.RoundTrip.atom sw aop u ty sp t a
  | ldrRo sw sz t a off => exact Laws.RoundTrip.ldrRo sw sz t a off
  | ldrUse sw sz discard count t a => exact Laws.RoundTrip.ldrUse sw sz discard count t a
  | nop sw => exact Laws.RoundTrip.nop sw
  | bra sw neg p disp => exact Laws.RoundTrip.bra sw neg p disp
  | bray sw neg p disp => exact Laws.RoundTrip.bray sw neg p disp
  | call sw neg p disp => exact Laws.RoundTrip.call sw neg p disp
  | join sw a => exact Laws.RoundTrip.join sw a
  | calli sw a => exact Laws.RoundTrip.calli sw a
  | brai sw a => exact Laws.RoundTrip.brai sw a
  | ret sw a => exact Laws.RoundTrip.ret sw a
  | exit sw => exact Laws.RoundTrip.exit sw
  | refill sw a => exact Laws.RoundTrip.refill sw a
  | region sw => exact Laws.RoundTrip.region sw
  | trap sw code => exact Laws.RoundTrip.trap sw code
  | bpt sw code => exact Laws.RoundTrip.bpt sw code
  | waitm sw c a b => exact Laws.RoundTrip.waitm sw c a b
  | bar sw cluster => exact Laws.RoundTrip.bar sw cluster
  | barx sw op d a b => exact Laws.RoundTrip.barx sw op d a b
  | fence sw sc imm => exact Laws.RoundTrip.fence sw sc imm
  | drain sw sc => exact Laws.RoundTrip.drain sw sc
  | roinv sw => exact Laws.RoundTrip.roinv sw
  | gmov sw d a => exact Laws.RoundTrip.gmov sw d a
  | galu sw op d a b => exact Laws.RoundTrip.galu sw op d a b
  | galui sw op d imm => exact Laws.RoundTrip.galui sw op d imm
  | gmovl sw d imm => exact Laws.RoundTrip.gmovl sw d imm
  | gmovh sw d imm => exact Laws.RoundTrip.gmovh sw d imm
  | gred sw k d a => exact Laws.RoundTrip.gred sw k d a
  | gset sw c p a b => exact Laws.RoundTrip.gset sw c p a b
  | getc sw d idx => exact Laws.RoundTrip.getc sw d idx
  | setc sw d idx => exact Laws.RoundTrip.setc sw d idx
  | setcRole sw d => exact Laws.RoundTrip.setcRole sw d
  | setcFpflags sw d => exact Laws.RoundTrip.setcFpflags sw d
  | setcRingbase sw d => exact Laws.RoundTrip.setcRingbase sw d
  | setcRingsize sw d => exact Laws.RoundTrip.setcRingsize sw d
  | setcQuota sw d => exact Laws.RoundTrip.setcQuota sw d
  | setcFrm sw d => exact Laws.RoundTrip.setcFrm sw d
  | clk sw d => exact Laws.RoundTrip.clk sw d
  | free sw d a b => exact Laws.RoundTrip.free sw d a b
  | reggive sw n => exact Laws.RoundTrip.reggive sw n
  | regclaim sw n => exact Laws.RoundTrip.regclaim sw n
  | cpwp sw ch d => exact Laws.RoundTrip.cpwp sw ch d
  | cpwait sw ch d a => exact Laws.RoundTrip.cpwait sw ch d a
  | cpstat sw ch d => exact Laws.RoundTrip.cpstat sw ch d
  | mxpost sw d a => exact Laws.RoundTrip.mxpost sw d a
  | mxstat sw d a => exact Laws.RoundTrip.mxstat sw d a
  | tkpost sw d a => exact Laws.RoundTrip.tkpost sw d a
  | tksig sw set a b => exact Laws.RoundTrip.tksig sw set a b
  | tkjoin sw d a => exact Laws.RoundTrip.tkjoin sw d a
  | tkread sw fail d a => exact Laws.RoundTrip.tkread sw fail d a
  | wdq sw d a b => exact Laws.RoundTrip.wdq sw d a b
  | cxpost sw d a => exact Laws.RoundTrip.cxpost sw d a
  | cxstat sw d a => exact Laws.RoundTrip.cxstat sw d a
  | cxreset sw a => exact Laws.RoundTrip.cxreset sw a
  | _ => exact fun _ h => absurd h Bool.false_ne_true
/-- Settles O57: each word is decoded. -/
theorem specWords : Obligations.SpecWords := by
  unfold Obligations.SpecWords
  decide +kernel

end Sys2Proof
end

section
/-! Results of the scalar instructions (O3, O7, O9). The forms of `Safety` say how each instruction runs; a result is then
outstanding, compared later, or turned down with OPERAND or ILLEGAL. -/
namespace Sys2Proof.Machine

/-! ### How the forms run -/
/-- No instruction is both of the lane set and of the uniform pipe. -/
theorem laneForm_of_uniForm (s : State) (i : Instr) (h : (uniForm s i).isSome = true) : laneForm s i = none := by
  cases i with
  | gmov | galu | galui | gmovl | gmovh | getc | clk => rfl
  | _ => exact absurd h Bool.false_ne_true
/-- Whatever an instruction computes, ILLEGAL stands in front of OPERAND, and OPERAND in front of its result (R47). -/
theorem exec_alu (s : State) (i : Instr) (x : AluForm) (h : aluForm s i = some x) :
    ∃ k, exec i s = .next (legalOr x.legal s (operandsOr x.ops s k)) :=
  (lane_form s i x h).elim (fun h => ⟨_, exec_lane s i x h⟩) fun h => ⟨_, exec_uni s i x h⟩
/-- DSFU, the one long instruction on pairs, takes even codes. -/
theorem long_even (s : State) (i : Instr) (x : AluForm) (h : longForm s i = some x) (ho : x.ops.all (·.ok) = true)
    (hp : x.pair = true) : x.d.toNat % 2 = 0 := by
  cases i with
  | idiv | sfu => obtain rfl := Option.some.inj h; exact nomatch hp
  | dsfu => obtain rfl := Option.some.inj h; simp_all [evenCode]
  | _ => exact nomatch h

/-! ### Results to be compared (R123) -/
/-- A result of the bundle for a ply, warp or wider register is compared when it returns. -/
theorem outResult_compare (d : Reg) (pair : Bool) (f : Nat → DWord) (fl : BitVec 5) (s : State) (h : s.inBundle = true)
    (hp : pair = true → d.toNat % 2 = 0) (hd : 88 ≤ d.toNat) (hd' : d.toNat < 124) :
    compareDue d pair (s.perLane f) fl s
      (outResult .plain true d pair (s.perLane f) { Out.blank (freshId s) s.cur.mask d pair with flags := fl } s) := by
  rw [outResult, if_neg (by omega), if_neg (by omega), Bool.not_true, Bool.false_and, Bool.false_and, if_neg Bool.false_ne_true]
  refine compare_due { Out.blank (freshId s) s.cur.mask d pair with
    flags := fl, writes := (dueWrites d pair (s.perLane f)).getD [], vals := s.perLane f, agree := true, fin := .plain }
    s h rfl (fun x hx => ?_) hd hp rfl rfl rfl rfl rfl
  exact ((mem_perLane s f x).1 hx).2.1

/-! ### The obligations -/
/-- Settles O3: the result of a scoped source is an outstanding one, of the lanes or of the uniform pipe. -/
theorem scopedSourceIsOutstanding : Obligations.ScopedSourceIsOutstanding := by
  intro s i x hx hb hl ho hs hd
  have hp := pair_even s i x hx ho
  rcases lane_form s i x hx with h | h
  · have hd' : (x.d.toNat < 88 ∧ rowsFit s (laneRows x.d x.pair) = true) ∨ x.d = 124 := by
      rcases hd with hd | hd | ⟨-, -, hu⟩
      · exact .inl hd
      · exact .inr hd
      · rw [laneForm_of_uniForm s i hu] at h; cases h
    refine ⟨_, ?_, outResult_due x.d x.pair true x.val x.flags s hb hp hd'⟩
    rw [exec_lane s i x h, hl, operandsOr_ok _ _ _ ho, writeResult, if_pos hs]; rfl
  · obtain ⟨h92, -⟩ := uni_dest s i x h ho
    have hd' : 92 ≤ x.d.toNat ∧ x.d.toNat < 108 ∨ x.d = 124 := by
      rcases hd with ⟨hd, -⟩ | hd | ⟨hd, hd', -⟩
      · omega
      · exact .inr hd
      · exact .inl ⟨hd, hd'⟩
    have hr : laneRows x.d x.pair = [] := if_neg (by omega)
    rw [uni_const s i x h, uni_flags s i x h, hr]
    refine ⟨_, ?_, outUniform_due x.d x.pair (x.val 0) s hb hp hd'⟩
    rw [exec_uni s i x h, hl, operandsOr_ok _ _ _ ho, writeUniform, if_pos hs]; rfl
/-- Settles O7: `legalOr` and `operandsOr` raise their faults for the whole bundle before the result is written. -/
theorem badFormsRaise : Obligations.BadFormsRaise := by
  refine ⟨fun s i x p hx hb hl hp => ?_, fun s i x hx hb hl => ?_, fun s i x hx hb hl => ?_, fun s w hb => ?_⟩
  · obtain ⟨k, he⟩ := exec_alu s i x hx
    refine ⟨_, ?_, raiseMask_taken _ _ _ _ s hb⟩
    rw [he, hl, operandsOr_bad _ _ _ p hp]; rfl
  · obtain ⟨k, he⟩ := exec_alu s i x hx
    refine ⟨_, ?_, raiseMask_taken _ _ _ _ s hb⟩
    rw [he, hl]; rfl
  · refine ⟨_, ?_, raiseMask_taken _ _ _ _ s hb⟩
    rw [exec_pred s i x hx, hl]; rfl
  · exact ⟨_, rfl, raiseMask_taken _ _ _ _ s hb⟩
/-- Settles O9: a long result is outstanding, or stands to be compared. -/
theorem longLatencyResults : Obligations.LongLatencyResults := by
  intro s i x hx hb ho
  have hp := long_even s i x hx ho
  have he := exec_long s i x hx
  rw [operandsOr_ok _ _ _ ho] at he
  exact ⟨fun hd => ⟨_, he, outResult_due x.d x.pair true x.val x.flags s hb hp hd⟩,
    fun hd hd' => ⟨_, he, outResult_compare x.d x.pair x.val x.flags s hb hp hd hd'⟩⟩

end Sys2Proof.Machine
end

section
/-! The step (O58): which move a step makes, and which instruction a bundle's step executes. -/
namespace Sys2Proof.Machine

/-! ### The word of an address -/
/-- A byte of a word made of four bytes. -/
theorem leWord_byte (f : Nat → Byte) (a o : Nat) (h : o < 4) :
    (leWord ((rangeFrom a 4).map f)).extractLsb' (8 * o) 8 = f (a + o) := by
  apply BitVec.eq_of_toNat_eq
  rw [toNat_field]
  simp only [leWord, rangeFrom, List.map, leNat, BitVec.toNat_ofNat, Nat.add_assoc]
  have h0 := (f a).isLt; have h1 := (f (a + 1)).isLt; have h2 := (f (a + 2)).isLt; have h3 := (f (a + 3)).isLt
  obtain rfl | rfl | rfl | rfl : o = 0 ∨ o = 1 ∨ o = 2 ∨ o = 3 := by omega
  all_goals (simp only [Nat.add_zero, Nat.reduceAdd, Nat.reduceMul]; omega)
/-- A fetch that translates, of bytes without an uncorrectable error, reads its word at the home (log 15). -/
theorem fetchWord_ok (core part : Nat) (pc : DWord) (s u : State) (a : LaneAcc)
    (ht : translate (some core) part .fetch 0 pc.toNat s = (.ok a, u)) (he : ∀ o < 4, a.pa + o ∉ u.mem.ecc) :
    fetchWord core part pc s = (.ok (leWord ((rangeFrom a.pa 4).map (u.mem.byteUnder (u.mem.keyOf a.attr.key)))),
      u.updMem fun m => m.countRead (a.pa / 1024)) := by
  have hecc : (rangeFrom a.pa 4).any u.mem.ecc.contains = false := by
    rw [List.any_eq_false]
    intro pa hpa
    obtain ⟨h1, h2⟩ := (mem_rangeFrom 4 a.pa pa).1 hpa
    have := he (pa - a.pa) (by omega)
    rwa [show a.pa + (pa - a.pa) = pa by omega, ← List.contains_iff_mem] at this
  simp only [fetchWord, ht, hecc, Bool.false_eq_true, if_false]

/-! ### The instruction of a word (R68) -/
theorem wordInstr_ok {x : Word} {i : Instr} (h : decodeWord x = .ok i) (hw : wellFormed i = true) : wordInstr x = i := by
  simp only [wordInstr, h, hw, if_true]
theorem wordInstr_illegal {x : Word} (h : ∀ i, decodeWord x = .ok i → wellFormed i = false) : wordInstr x = .illegal x := by
  unfold wordInstr
  split
  · rw [h _ ‹_›]; rfl
  · rfl

/-! ### A bundle's step -/
section
variable {s u : State} {core sched wk : Nat} {m : Word} {isB : Bool}
theorem runBundle_ok {x : Word} (h : fetchWord core (s.block (s.warp wk).bk).part (groupPc (s.warp wk) m) s = (.ok x, u)) :
    runBundle core sched wk m isB s =
      exec (wordInstr x) ((setBundle core sched wk m isB (groupPc (s.warp wk) m) x u).updWarp wk (markSeen x)) := by
  simp only [runBundle, fetchBundle, h]
theorem runBundle_fault {f : MemFault}
    (h : fetchWord core (s.block (s.warp wk).bk).part (groupPc (s.warp wk) m) s = (.error f, u)) :
    runBundle core sched wk m isB s = .next (raiseBundle f.code (BitVec.ofNat 17 f.detail) (groupPc (s.warp wk) m)
      (setBundle core sched wk m isB (groupPc (s.warp wk) m) 0 u)) := by
  simp only [runBundle, fetchBundle, h]
/-- The fetched bundle can execute. -/
theorem setBundle_inBundle {pc : DWord} {x : Word} {w : Warp} (hw : mFind u.warps wk = some w) (hl : w.lanes.length = 32)
    (hm : m ≠ 0) : ((setBundle core sched wk m isB pc x u).updWarp wk (markSeen x)).inBundle = true := by
  have hf : mFind ((setBundle core sched wk m isB pc x u).updWarp wk (markSeen x)).warps wk = some (markSeen x w) := by
    rw [State.updWarp_find, if_pos rfl]
    exact congrArg (Option.map (markSeen x)) hw
  refine (inBundle_iff _).2 ⟨?_, ?_, rfl, hm⟩
  · exact Option.isSome_iff_exists.2 ⟨_, hf⟩
  · exact (congrArg (·.lanes.length) (warp_of_mFind hf)).trans hl
end

/-! ### The moves of a step -/
theorem step_pendingB {s : State} {wk : Nat} {m : Word} (h : pendingB s = some (wk, m)) : step s = issueB wk m s := by
  simp only [step, h]
theorem step_agenda {s : State} {x : Move} {l : List Move} (h : pendingB s = none) (ha : s.agenda = x :: l) :
    step s = runMove x (s.setAgenda l) := by
  simp only [step, h, ha]
theorem step_own {s : State} (h : pendingB s = none) (ha : s.agenda = []) : step s = runOwn s := by
  simp only [step, h, ha]
theorem flushObjs_nothing {core sched : Nat} {t : State} (h : (t.schedAt core sched).late = []) : flushObjs core sched t = t := by
  unfold flushObjs
  rw [show (mGet (t.coreAt core).scheds Sched.init sched).late = [] from h]
  rfl
/-- A scheduler's cycle runs the bundle that it selects. -/
theorem issueCycle_eq {s u : State} {core sched : Nat} {x : Option Pick} (h : selectCycle core sched s = (x, u)) :
    issueCycle core sched s = x.elim (.next u)
      fun p => runBundle core sched p.wk p.a false (setPendB core sched (p.b.map fun m => (p.wk, m)) u) := by
  cases x <;> simp only [issueCycle, h, Option.elim]

/-- Settles O58: the moves in their order, and a bundle's step by its fetch. -/
theorem stepRunsTheInstruction : Obligations.StepRunsTheInstruction := by
  refine ⟨fun s wk m h => ⟨?_, fun t => flushObjs_nothing⟩, fun s i l h ha => step_agenda h ha, ?_, ?_, ?_, ?_⟩
  · refine (step_pendingB h).trans ?_
    unfold issueB
    cases runBundle s.cur.core s.cur.sched wk m true (setPendB s.cur.core s.cur.sched none s) <;> rfl
  · intro s u core sched l x h ha hx
    refine (step_agenda h ha).trans ((issueCycle_eq hx).trans ?_)
    cases x <;> rfl
  · intro s i h ha hi
    rw [step_own h ha, runOwn, hi]
  · intro s u k x h ha hi hk hx
    rw [step_own h ha, runOwn, hi, hk]
    refine (issueCycle_eq hx).trans ?_
    cases x <;> rfl
  · intro s u core sched wk m isB w hw
    obtain rfl := warp_of_mFind hw
    refine ⟨fun x hx => ⟨fun i hi hwf => ?_, fun hi => ?_, fun hu hl hm => ?_⟩, fun f hf => runBundle_fault hf, fun a ha he => ?_⟩
    · rw [runBundle_ok hx, wordInstr_ok hi hwf]
    · rw [runBundle_ok hx, wordInstr_illegal hi]
    · exact setBundle_inBundle (hu ▸ hw) hl hm
    · exact ⟨_, fetchWord_ok core _ _ s u a ha he, fun o ho => leWord_byte _ a.pa o ho⟩

end Sys2Proof.Machine
end

section
/-! Returns (O40). Its clause on compared results says of the rows that none are mapped, and of the result's writes only that
they are to registers that exist and are no predicates: one to a lane register maps a row. -/
namespace Sys2Proof.Machine

/-- A result of one lane for w0, to be compared, that carries a write to v0. -/
def strayOut : Out :=
  { Out.blank 0 1 92 false with agree := true, vals := [(0, 5)], writes := [{ dest := .lane 0 0, val := 5 }] }
/-- The lane waits for its comparison. -/
def strayPark : Park := { mask := 1, pc := 0, why := .compare 0 }
/-- Its warp, alone in the machine; no register of it has a row. -/
def strayState : State := State.reset.setWarps
  [(0, { Warp.none with lanes := List.replicate 32 (Lane.start 0), outs := [strayOut], parks := [strayPark] })]
/-- The bundle that is compared. -/
def strayBundle : State :=
  resumed 0 strayPark (strayState.updWarp 0 fun w => { w with outs := w.outs.filter fun x => x.id != strayOut.id })

/-- The machine's own step maps a row for v0. -/
theorem strayReturn_maps : ∃ t, exec (.outstandingResultReturn 0 0 false) strayState = .next t ∧
    (t.warp 0).mapped.getLsbD 0 = true := ⟨_, rfl, by decide +kernel⟩
/-- The statement's clause at that state. -/
theorem strayReturn_claim (h : Obligations.ReturnsAndArrivals) : ∃ v,
    exec (.outstandingResultReturn 0 0 false) strayState = .next (v.setCur strayState.cur) ∧ onlyWarp strayBundle v ∧
      rowsBecome [] strayBundle v := by
  have hagree : takesNow strayBundle 92 false fun _ => 5 :=
    .inr (.inr (.inl ⟨by decide, by decide, fun _ _ _ _ _ _ => rfl⟩))
  obtain ⟨-, hcompare⟩ := h.1 strayState 0 0 false strayOut (by decide +kernel) nofun (by decide +kernel)
  obtain ⟨v, hv, ho, -, -, -, -, hr, -⟩ := (hcompare rfl strayPark strayBundle (fun _ => 5) (by decide +kernel) rfl
    (by decide +kernel) (by decide +kernel) nofun (by decide) (by decide)).1 hagree rfl (by decide)
    fun x hx => by rw [List.mem_singleton.1 hx]; exact ⟨by decide, nofun⟩
  exact ⟨v, hv, ho, hr⟩
/-- Refutes O40: a compared result whose writes include one to a lane register without a row maps that row when it returns,
and the statement says that no row is mapped. No issue makes such a result (`dueWrites`): the statement wants the premise that
its writes are to ply and warp registers. -/
theorem not_returnsAndArrivals : ¬ Obligations.ReturnsAndArrivals := by
  intro h
  obtain ⟨v, hv, ⟨ho, -⟩, hr⟩ := strayReturn_claim h
  obtain ⟨t, ht, hmap⟩ := strayReturn_maps
  obtain rfl := Host.Outcome.next.inj (ht.symm.trans hv)
  have hwk : v.cur.wk = 0 := congrArg (·.cur.wk) ho
  have hcw : v.cw = (v.setCur strayState.cur).warp 0 := congrArg v.warp hwk
  have hrow := hr 0 (by decide)
  rw [hcw, hmap] at hrow
  exact absurd hrow (by decide +kernel)

end Sys2Proof.Machine
end

section
/-! The timetable (O53). A cycle has three readings: which partition it goes to, which of that partition's ready warps is
chosen, and that what is chosen is a warp of the partition. -/
namespace Sys2Proof.Machine

/-! ### Ready warps -/
@[simp] theorem prepSel_bk (w : Warp) : (prepSel w).bk = w.bk := by
  unfold prepSel
  dsimp only
  split <;> rfl
/-- Ordering by age brings no warp. -/
theorem mem_of_mem_aged (s : State) (ws : List (Nat × Warp)) (kw : Nat × Warp) (h : kw ∈ aged s ws) : kw ∈ ws := by
  obtain ⟨⟨k, _⟩, hx, rfl⟩ := List.mem_map.1 h
  refine List.foldlRecOn (motive := fun m => ∀ x ∈ m, x.2 ∈ ws) ws _ (by simp) (fun m hm y hy x hx => ?_) _ hx
  rcases mem_mSet _ _ _ _ hx with rfl | hx
  · exact hy
  · exact hm x hx
theorem mem_warps_of_mem_schedWarps {s : State} {core sched : Nat} {kw : Nat × Warp} (h : kw ∈ schedWarps s core sched) :
    kw ∈ s.warps := (List.mem_filter.1 (mem_of_mem_aged s _ kw h)).1
/-- A ready warp is a resident warp of a block of the partition it is listed under. -/
theorem mem_warps_of_mem_readyWarps {s : State} {core sched part n : Nat} {p : Pick}
    (h : (part, n, p) ∈ readyWarps s core sched) : ∃ kw ∈ s.warps, kw.1 = p.wk ∧ (s.block kw.2.bk).part = part := by
  obtain ⟨kw, hkw, hr⟩ := List.mem_filterMap.1 h
  dsimp only at hr
  split at hr
  · cases hr
  · obtain ⟨ab, -, he⟩ := Option.map_eq_some_iff.1 hr
    rw [prepSel_bk] at he
    cases he
    exact ⟨kw, mem_warps_of_mem_schedWarps hkw, rfl, rfl⟩

/-! ### The partition of a cycle (R98) -/
theorem rangeFrom_eq_range' (a n : Nat) : rangeFrom a n = List.range' a n := by
  induction n generalizing a with
  | zero => rfl
  | succ n ih => rw [rangeFrom, ih, List.range'_succ]
theorem cyclePart_own (x : Sched) (ready : Nat → Bool) (h : ready (entryPart x (x.cycle.toNat % 64)) = true) :
    cyclePart x ready = some (entryPart x (x.cycle.toNat % 64)) := if_pos h
theorem cyclePart_lent (x : Sched) (ready : Nat → Bool) (n : Nat) (h : ready (entryPart x (x.cycle.toNat % 64)) = false)
    (hlend : (mGet x.table 0 (x.cycle.toNat % 64)).getLsbD 3 = true) (hstrict : x.strict = false) (hn : n < 63)
    (hready : ready (entryPart x (x.cycle.toNat % 64 + (n + 1))) = true)
    (hbefore : ∀ k < n, ready (entryPart x (x.cycle.toNat % 64 + (k + 1))) = false) :
    cyclePart x ready = some (entryPart x (x.cycle.toNat % 64 + (n + 1))) := by
  have hfind : (rangeFrom (x.cycle.toNat % 64 + 1) 63).find? (ready ∘ entryPart x) = some (x.cycle.toNat % 64 + (n + 1)) := by
    rw [rangeFrom_eq_range']
    refine List.find?_range'_eq_some.2 ⟨hready, by rw [List.mem_range'_1]; omega, fun j h1 h2 => ?_⟩
    obtain ⟨k, rfl⟩ : ∃ k, j = x.cycle.toNat % 64 + (k + 1) := ⟨j - (x.cycle.toNat % 64 + 1), by omega⟩
    rw [Function.comp_apply, hbefore k (by omega), Bool.not_false]
  simp only [cyclePart, h, hlend, hstrict, Bool.false_eq_true, if_false, Bool.not_false, Bool.and_self, if_true,
    List.find?_map, hfind, Option.map_some]
theorem cyclePart_idle (x : Sched) (ready : Nat → Bool) (h : ready (entryPart x (x.cycle.toNat % 64)) = false)
    (hnone : (mGet x.table 0 (x.cycle.toNat % 64)).getLsbD 3 = false ∨ x.strict = true ∨
      ∀ n < 63, ready (entryPart x (x.cycle.toNat % 64 + (n + 1))) = false) : cyclePart x ready = none := by
  simp only [cyclePart, h, Bool.false_eq_true, if_false]
  rcases hnone with hlend | hstrict | hall
  · rw [hlend, Bool.false_and, if_neg Bool.false_ne_true]
  · rw [hstrict, Bool.not_true, Bool.and_false, if_neg Bool.false_ne_true]
  · have hfind : ((rangeFrom (x.cycle.toNat % 64 + 1) 63).map (entryPart x)).find? ready = none := by
      refine List.find?_eq_none.2 fun p hp => ?_
      obtain ⟨j, hj, rfl⟩ := List.mem_map.1 hp
      obtain ⟨h1, h2⟩ := (mem_rangeFrom _ _ _).1 hj
      obtain ⟨k, rfl⟩ : ∃ k, j = x.cycle.toNat % 64 + (k + 1) := ⟨j - (x.cycle.toNat % 64 + 1), by omega⟩
      rw [hall k (by omega)]
      exact Bool.false_ne_true
    rw [hfind, ite_self]
/-- A cycle goes to the partition of one of the entries. -/
theorem cyclePart_entry {x : Sched} {ready : Nat → Bool} {part : Nat} (h : cyclePart x ready = some part) :
    ∃ i, part = entryPart x i := by
  rw [cyclePart] at h
  split at h
  · exact ⟨_, (Option.some.inj h).symm⟩
  · split at h
    · obtain ⟨i, -, hi⟩ := List.mem_map.1 (List.mem_of_find?_eq_some h)
      exact ⟨i, hi.symm⟩
    · cases h
/-- Every entry of a table as reset leaves it is partition 0's (R97). -/
theorem entryPart_of_table_nil {x : Sched} (h : x.table = []) (i : Nat) : entryPart x i = 0 := by
  rw [entryPart, h]; rfl

/-! ### The warp of a cycle (R99) -/
/-- Of some ready warps, oldest first: the first that was passed over in 31 cycles, else the first. -/
def firstChoice (rs : List (Nat × Nat × Pick)) : Option (Nat × Nat × Pick) :=
  (rs.find? fun r => decide (31 ≤ r.2.1)).or rs.head?
theorem mem_of_firstChoice {rs : List (Nat × Nat × Pick)} {r : Nat × Nat × Pick} (h : firstChoice rs = some r) : r ∈ rs := by
  rcases Option.or_eq_some_iff.1 h with h | ⟨-, h⟩
  · exact List.mem_of_find?_eq_some h
  · exact List.mem_of_mem_head? h
theorem firstChoice_spec (rs : List (Nat × Nat × Pick)) (h : rs ≠ []) : ∃ r pre post, firstChoice rs = some r ∧
    rs = pre ++ r :: post ∧ (∀ x ∈ pre, x.2.1 < 31) ∧ (31 ≤ r.2.1 ∨ (pre = [] ∧ ∀ x ∈ post, x.2.1 < 31)) := by
  cases hf : rs.find? fun r => decide (31 ≤ r.2.1) with
  | some r =>
    obtain ⟨hr, pre, post, hrs, hpre⟩ := List.find?_eq_some_iff_append.1 hf
    exact ⟨r, pre, post, by rw [firstChoice, hf]; rfl, hrs, by simpa using hpre, .inl (by simpa using hr)⟩
  | none =>
    obtain ⟨r, t, rfl⟩ := List.exists_cons_of_ne_nil h
    have hlt : ∀ x ∈ r :: t, x.2.1 < 31 := by simpa using hf
    exact ⟨r, [], t, by rw [firstChoice, hf]; rfl, rfl, by simp,
      .inr ⟨rfl, fun x hx => hlt x (List.mem_cons_of_mem _ hx)⟩⟩
/-- Outside deterministic mode a cycle issues the first choice of its partition's ready warps. -/
theorem selectCycle_pick (s : State) (core sched : Nat) (hdet : coreDet s core = false) :
    (selectCycle core sched s).1 = (cyclePart (s.schedAt core sched) (readyFor s core sched)).bind fun part =>
      (firstChoice ((readyWarps s core sched).filter fun r => r.1 == part)).map fun r => r.2.2 := by
  rw [selectCycle, hdet, if_neg Bool.false_ne_true]
  show (selectOldest core sched s).1 = _
  unfold selectOldest firstChoice
  change (match cyclePart (s.schedAt core sched) (readyFor s core sched) with | none => _ | some part => _ : Option Pick × State).1 = _
  cases cyclePart (s.schedAt core sched) (readyFor s core sched) with
  | none => rfl
  | some part =>
    dsimp only [Option.bind_some]
    split
    next e => rw [e]; rfl
    next e => rw [e]; rfl
theorem issuesFor_of_cyclePart (s : State) (core sched part : Nat) (hdet : coreDet s core = false)
    (hpart : cyclePart (s.schedAt core sched) (readyFor s core sched) = some part) (hready : readyFor s core sched part = true) :
    issuesFor s core sched part := by
  obtain ⟨r, hr, hrp⟩ := List.any_eq_true.1 hready
  obtain ⟨⟨part', n, p⟩, pre, post, hc, hsplit, hpre, hpost⟩ :=
    firstChoice_spec ((readyWarps s core sched).filter fun r => r.1 == part) (List.ne_nil_of_mem (List.mem_filter.2 ⟨hr, hrp⟩))
  have hmem := List.mem_filter.1 (mem_of_firstChoice hc)
  obtain rfl : part' = part := by simpa using hmem.2
  refine ⟨p, n, pre, post, ?_, hsplit, hpre, hpost, mem_warps_of_mem_readyWarps hmem.1⟩
  rw [selectCycle_pick s core sched hdet, hpart, Option.bind_some, hc, Option.map_some]
/-- A warp that a cycle issues is of the partition that the cycle went to. -/
theorem selectCycle_pick_part {s : State} {core sched : Nat} {p : Pick} (hdet : coreDet s core = false)
    (h : (selectCycle core sched s).1 = some p) : ∃ part, cyclePart (s.schedAt core sched) (readyFor s core sched) = some part ∧
      ∃ kw ∈ s.warps, kw.1 = p.wk ∧ (s.block kw.2.bk).part = part := by
  rw [selectCycle_pick s core sched hdet] at h
  obtain ⟨part, hpart, h⟩ := Option.bind_eq_some_iff.1 h
  obtain ⟨⟨part', n, p'⟩, hc, rfl⟩ := Option.map_eq_some_iff.1 h
  have hmem := List.mem_filter.1 (mem_of_firstChoice hc)
  obtain rfl : part' = part := by simpa using hmem.2
  exact ⟨part', hpart, mem_warps_of_mem_readyWarps hmem.1⟩

/-- Settles O53, by the partition of the cycle: its entry's, the nearest that is lent to, or none. -/
theorem schedulersFollowTheTimetable : Obligations.SchedulersFollowTheTimetable := by
  intro s core sched hdet
  refine ⟨fun hready => ?_, fun hidle hlend hstrict n hn hready hbefore => ?_, fun hidle hnone => ?_, fun htable p hp => ?_⟩
  · exact issuesFor_of_cyclePart s core sched _ hdet (cyclePart_own _ _ hready) hready
  · exact issuesFor_of_cyclePart s core sched _ hdet (cyclePart_lent _ _ n hidle hlend hstrict hn hready hbefore) hready
  · rw [selectCycle_pick s core sched hdet, cyclePart_idle _ _ hidle hnone]; rfl
  · obtain ⟨part, hpart, kw, hkw, hwk, hbk⟩ := selectCycle_pick_part hdet hp
    obtain ⟨i, rfl⟩ := cyclePart_entry hpart
    exact ⟨kw, hkw, hwk, hbk.trans (entryPart_of_table_nil htable i)⟩

end Sys2Proof.Machine
end

section
/-! Bundles (O54). The groups that no marker holds stand in order; A and B are the first two of them. In serial mode a group is
one lane, and the order is by key and then by lane. -/
namespace Sys2Proof.Machine

/-! ### The groups in order -/
/-- The groups that no marker holds, in the order in which they are selected. -/
def freeGroups (s : State) (w : Warp) : List Word := (orderedGroups w).filter fun m => !markerBlocked w m (groupWord s w m)
theorem bundlesOf_of_none {s : State} {w : Warp} (h : freeGroups s w = []) : bundlesOf s w false = none := by
  rw [bundlesOf_free, ← freeGroups, h]
theorem bundlesOf_of_one {s : State} {w : Warp} {a : Word} (h : freeGroups s w = [a]) : bundlesOf s w false = some (a, none) := by
  rw [bundlesOf_free, ← freeGroups, h]
theorem bundlesOf_of_more {s : State} {w : Warp} {a c : Word} {t : List Word} (h : freeGroups s w = a :: c :: t) :
    bundlesOf s w false = if w.serial || (memClass (groupWord s w a) && memClass (groupWord s w c)) then some (a, none)
      else some (a, some c) := by
  rw [bundlesOf_free, ← freeGroups, h]

/-! ### Groups of one key (R104, R106) -/
/-- Outside serial mode the free groups are those of the selectable lanes. -/
theorem freeGroups_grouped (s : State) (w : Warp) (hs : w.serial = false) :
    ∃ gs, freeGroups s w = gs.map (·.2) ∧ Grouped w (selectable s w) gs := by
  refine ⟨_, ?_, w.grouped_free s hs⟩
  rw [freeGroups, orderedGroups, hs, if_neg Bool.false_ne_true, List.filter_map]
  rfl
/-- Masks of the same lanes are one mask. -/
theorem mask_ext {m n : Word} {p : Nat → Prop} (hm : ∀ l < 32, m.getLsbD l = true ↔ p l) (hn : ∀ l < 32, n.getLsbD l = true ↔ p l) :
    m = n :=
  BitVec.eq_of_getLsbD_eq fun l hl => Bool.eq_iff_iff.2 ((hm l hl).trans (hn l hl).symm)
/-- A, and B with what holds it back. -/
theorem bundlesOf_parallel (s : State) (w : Warp) (hs : w.serial = false) (hsel : ∃ l < 32, selectable s w l = true) :
    ∃ a b, bundlesOf s w false = some (a, b) ∧ (∀ l < 32, a.getLsbD l = true ↔ lowestOf w (selectable s w) l) ∧
      (∀ m, b = some m → ∀ l < 32, m.getLsbD l = true ↔ lowestOf w (fun k => selectable s w k && !a.getLsbD k) l) ∧
      (b = none ↔ (∀ l < 32, selectable s w l = true → a.getLsbD l = true) ∨
        ∃ m, (∀ l < 32, m.getLsbD l = true ↔ lowestOf w (fun k => selectable s w k && !a.getLsbD k) l) ∧
          memClass (groupWord s w a) = true ∧ memClass (groupWord s w m) = true) := by
  obtain ⟨gs, hfree, g⟩ := freeGroups_grouped s w hs
  match gs, hfree, g with
  | [], _, g =>
    obtain ⟨l, hl, hsl⟩ := hsel
    obtain ⟨m, hm⟩ := g.key l hl hsl
    cases hm
  | [(k, a)], hfree, g =>
    refine ⟨a, none, bundlesOf_of_one hfree, g.first, nofun, iff_of_true rfl (.inl fun l hl hsl => ?_)⟩
    obtain ⟨m, hm⟩ := g.key l hl hsl
    obtain ⟨hk, -⟩ := Prod.mk.inj (List.mem_singleton.1 hm)
    exact (g.lanes k a (List.mem_singleton_self _) l hl).2 ⟨hsl, hk⟩
  | (k, a) :: (k', c) :: t, hfree, g =>
    have hc : ¬ ∀ l < 32, selectable s w l = true → a.getLsbD l = true := fun hall => by
      obtain ⟨l, hl, hsl, hk⟩ := g.some k' c (by simp)
      have hka := ((g.lanes k a (by simp) l hl).1 (hall l hl hsl)).2
      have hlt := (List.pairwise_cons.1 g.sorted).1 (k', c) (List.mem_cons_self ..)
      dsimp only at hlt
      omega
    have hb := bundlesOf_of_more hfree
    rw [hs, Bool.false_or] at hb
    by_cases hmem : (memClass (groupWord s w a) && memClass (groupWord s w c)) = true
    · rw [if_pos hmem] at hb
      exact ⟨a, none, hb, g.first, nofun, iff_of_true rfl (.inr ⟨c, g.second, Bool.and_eq_true_iff.1 hmem⟩)⟩
    · rw [if_neg hmem] at hb
      refine ⟨a, some c, hb, g.first, fun m hm => Option.some.inj hm ▸ g.second, iff_of_false nofun ?_⟩
      rintro (hall | ⟨m, hm, hma, hmc⟩)
      · exact hc hall
      · exact hmem (by rw [mask_ext g.second hm, hma, hmc]; rfl)

/-! ### Single lanes (R110) -/
/-- The eligible lanes, by key and then by lane. -/
def serialLanes (w : Warp) : List Nat := w.groups.flatMap fun km => maskLanes km.2
theorem mem_serialLanes (w : Warp) (l : Nat) : l ∈ serialLanes w ↔ l < 32 ∧ eligible w l = true := by
  rw [serialLanes, List.mem_flatMap]
  constructor
  · rintro ⟨⟨k, m⟩, hkm, hl⟩
    obtain ⟨hl, hm⟩ := (mem_maskLanes m l).1 hl
    exact ⟨hl, ((w.groups_lanes k m hkm l hl).1 hm).1⟩
  · rintro ⟨hl, he⟩
    obtain ⟨m, hm⟩ := w.groups_key l hl he
    exact ⟨_, hm, (mem_maskLanes m l).2 ⟨hl, (w.groups_lanes _ m hm l hl).2 ⟨he, rfl⟩⟩⟩
theorem maskLanes_sorted (m : Word) : (maskLanes m).Pairwise (· < ·) := by
  rw [maskLanes, rangeFrom_eq_range']
  exact (List.pairwise_lt_range' ..).filter _
theorem serialLanes_sorted (w : Warp) : (serialLanes w).Pairwise fun l k =>
    laneKey (w.lane l) < laneKey (w.lane k) ∨ laneKey (w.lane l) = laneKey (w.lane k) ∧ l < k := by
  have hkey {k m l} (hkm : (k, m) ∈ w.groups) (hl : l ∈ maskLanes m) : laneKey (w.lane l) = k := by
    obtain ⟨hl, hm⟩ := (mem_maskLanes m l).1 hl
    exact ((w.groups_lanes k m hkm l hl).1 hm).2
  rw [serialLanes, List.pairwise_flatMap]
  constructor
  · rintro ⟨k, m⟩ hkm
    exact (maskLanes_sorted m).imp_of_mem fun ha hb hab => .inr ⟨(hkey hkm ha).trans (hkey hkm hb).symm, hab⟩
  · exact w.groups_sorted.imp_of_mem fun ha hb hab x hx y hy => .inl (by rw [hkey ha hx, hkey hb hy]; exact hab)
/-- In serial mode the free groups are the selectable lanes, one by one. -/
theorem freeGroups_serial (s : State) (w : Warp) (hs : w.serial = true) :
    freeGroups s w = ((serialLanes w).filter (selectable s w)).map laneBit := by
  rw [freeGroups, orderedGroups, hs, if_pos rfl, ← List.map_flatMap, List.filter_map]
  refine congrArg (List.map laneBit) (List.filter_congr fun l hl => ?_)
  rw [selectable, keyMates, hs, if_pos rfl, ((mem_serialLanes w l).1 hl).2, Bool.true_and]
  rfl
theorem bundlesOf_serial (s : State) (w : Warp) (hs : w.serial = true) (hsel : ∃ l < 32, selectable s w l = true) :
    ∃ l < 32, bundlesOf s w false = some (laneBit l, none) ∧ lowestOf w (selectable s w) l ∧
      ∀ k < 32, lowestOf w (selectable s w) k → l ≤ k := by
  have hmem (k : Nat) : k ∈ (serialLanes w).filter (selectable s w) ↔ k < 32 ∧ selectable s w k = true := by
    rw [List.mem_filter, mem_serialLanes, and_assoc]
    refine and_congr_right fun _ => and_iff_right_of_imp fun h => ?_
    exact (Bool.and_eq_true_iff.1 h).1
  have hsorted := (serialLanes_sorted w).filter (selectable s w)
  have hfree := freeGroups_serial s w hs
  match hls : (serialLanes w).filter (selectable s w) with
  | [] =>
    obtain ⟨k, hk⟩ := hsel
    rw [hls] at hmem
    cases (hmem k).2 hk
  | l :: t =>
    rw [hls] at hmem hsorted hfree
    obtain ⟨hl, hsl⟩ := (hmem l).1 (List.mem_cons_self ..)
    have hfirst (k : Nat) (hk : k < 32) (hsk : selectable s w k = true) :
        laneKey (w.lane l) < laneKey (w.lane k) ∨ laneKey (w.lane l) = laneKey (w.lane k) ∧ l ≤ k := by
      rcases List.mem_cons.1 ((hmem k).2 ⟨hk, hsk⟩) with rfl | hkt
      · exact .inr ⟨rfl, le_refl _⟩
      · exact ((List.pairwise_cons.1 hsorted).1 k hkt).imp_right fun h => ⟨h.1, h.2.le⟩
    refine ⟨l, hl, ?_, ⟨hsl, fun k hk hsk => ?_⟩, fun k hk hlow => ?_⟩
    · match t, hfree with
      | [], hfree => exact bundlesOf_of_one hfree
      | _ :: _, hfree => rw [bundlesOf_of_more hfree, hs, Bool.true_or, if_pos rfl]
    · exact (hfirst k hk hsk).elim Nat.le_of_lt fun h => h.1.le
    · have := hlow.2 l hl hsl
      exact (hfirst k hk hlow.1).elim (fun h => by omega) And.right

/-! ### No lane, and the yield bits (R109) -/
theorem bundlesOf_none_selectable (s : State) (w : Warp) (h : ∀ l < 32, selectable s w l = false) : bundlesOf s w false = none := by
  apply bundlesOf_of_none
  cases hs : w.serial with
  | false =>
    obtain ⟨gs, hfree, g⟩ := freeGroups_grouped s w hs
    match gs, hfree, g with
    | [], hfree, _ => exact hfree
    | (k, m) :: _, _, g =>
      obtain ⟨l, hl, hsl, -⟩ := g.some k m (List.mem_cons_self ..)
      rw [h l hl] at hsl; cases hsl
  | true =>
    rw [freeGroups_serial s w hs, List.map_eq_nil_iff, List.filter_eq_nil_iff]
    intro l hl
    rw [h l ((mem_serialLanes w l).1 hl).1]
    exact Bool.false_ne_true
theorem prepSel_lanes (w : Warp) : (prepSel w).lanes =
    if (w.lanes.filter fun x => x.st == .active).all (·.yld) then w.lanes.map fun x => { x with yld := false } else w.lanes := by
  unfold prepSel
  dsimp only
  split <;> rfl
theorem all_active_yielded_iff (w : Warp) : ((w.lanes.filter fun x => x.st == .active).all (·.yld)) = true ↔
    ∀ x ∈ w.lanes, x.st = .active → x.yld = true := by
  simp [List.all_eq_true, or_iff_not_imp_left]

/-- Settles O54: the groups of the free lanes stand by key, and A and B are the first two. -/
theorem bundlesByKey : Obligations.BundlesByKey := by
  refine ⟨laneKey_lt_iff, bundlesOf_parallel, bundlesOf_serial, bundlesOf_none_selectable, fun w => ⟨fun hall => ?_, ?_⟩⟩
  · rw [prepSel_lanes, if_pos ((all_active_yielded_iff w).2 hall)]
    intro x hx
    obtain ⟨y, -, rfl⟩ := List.mem_map.1 hx
    rfl
  · rintro ⟨x, hx, hact, hyld⟩
    rw [prepSel_lanes, if_neg fun hall => ?_]
    have := (all_active_yielded_iff w).1 hall x hx hact
    rw [hyld] at this
    cases this

end Sys2Proof.Machine
end

section
/-! Firmware's writes, errors, power and bring-up (O52): what each write changes, how a key's lines leave the slices, what an
error leaves of the counts, and what the launches held leave of bring-up. -/
namespace Sys2Proof.Machine

/-! ### Firmware's writes (R97, R310, R339) -/
/-- A table made of the elements of a list by their places. -/
theorem mFind_mapIdxFrom {α β : Type} (f : α → β) (xs : List α) (a i : Nat) :
    mFind (mapIdxFrom (fun k x => (k, f x)) a xs) (a + i) = xs[i]?.map f := by
  induction xs generalizing a i with
  | nil => rfl
  | cons x t ih =>
    cases i with
    | zero => simp [mapIdxFrom, mFind]
    | succ i =>
      rw [mapIdxFrom, mFind, if_neg (by omega), Nat.add_comm i 1, ← Nat.add_assoc, ih, Nat.add_comm 1 i]
      rfl
/-- The entries of a timetable as written: the reserved bits read 0, and so does an entry that is not given. -/
theorem timetable_entry (table : List Byte) (i : Nat) (hi : i < 64) :
    mGet (mapIdxFrom (fun i b => (i, b &&& 0x0F)) 0 (table.take 64)) 0 i = table.getD i 0 &&& 0x0F := by
  have h := mFind_mapIdxFrom (fun b : Byte => b &&& 0x0F) (table.take 64) 0 i
  rw [Nat.zero_add] at h
  rw [mGet, h, List.getElem?_take_of_lt hi, List.getD_eq_getElem?_getD]
  cases table[i]? with
  | none => simp
  | some b => rfl
theorem updSlot_slotAt (s : State) (die n : Nat) (f : GroupSlot → GroupSlot) (k c : Nat) :
    slotAt (updSlot die n f s) k c = if k = die ∧ c = n then f (slotAt s die n) else slotAt s k c := by
  rw [slotAt, updSlot, State.updDie_die]
  by_cases hk : die = k
  · subst hk
    rw [if_pos rfl, mGet_mUpd]
    simp only [true_and, eq_comm (a := n)]
    rfl
  · rw [if_neg hk, if_neg fun h => hk h.1.symm]; rfl
theorem updQuad_ctr (s : State) (q n : Nat) (f : Ctr → Ctr) (k c : Nat) :
    (s.updQuad q fun x => { x with ctrs := mUpd x.ctrs Ctr.init n f }).ctr k c =
      if k = q ∧ c = n then f (s.ctr q n) else s.ctr k c := by
  rw [State.ctr, State.updQuad_quad]
  by_cases hk : q = k
  · subst hk
    rw [if_pos rfl, mGet_mUpd]
    simp only [true_and, eq_comm (a := n)]
    rfl
  · rw [if_neg hk, if_neg fun h => hk h.1.symm]; rfl
theorem timetableWrite_writes (s : State) (core n : Nat) (table : List Byte) (strict : Bool) (hcore : core < 512) (hn : n < 2) :
    ∃ t, exec (.timetableWrite core n table strict) s = .next t ∧ t = s.setCores t.cores ∧
      (t.schedAt core n).strict = strict ∧ (t.schedAt core n).cycle = (s.schedAt core n).cycle ∧
      (∀ i < 64, mGet (t.schedAt core n).table 0 i = table.getD i 0 &&& 0x0F) ∧ ∀ k, k ≠ core → t.coreAt k = s.coreAt k := by
  refine ⟨_, congrArg Host.Outcome.next (if_neg (by omega)), rfl, ?_⟩
  simp only [State.schedAt, State.updCore_coreAt, if_pos, mGet_mUpd, true_and]
  exact ⟨fun i hi => timetable_entry table i hi, fun k hk => if_neg (Ne.symm hk)⟩

/-! ### Lines of a key (R371) -/
/-- Lines that leave one after another, each with its bytes written back. -/
theorem foldl_dropLine_view (ls : Map Line) (m : Mem) :
    let t := ls.foldl (fun m kl => m.dropLine true kl.1) m
    (∀ x, mFind t.lines x = if x ∈ ls.map (·.1) then none else mFind m.lines x) ∧ t.keys = m.keys ∧
      ∀ k q, t.byteUnder k q = m.byteUnder k q := by
  induction ls generalizing m with
  | nil => exact ⟨fun x => rfl, rfl, fun k q => rfl⟩
  | cons kl t ih =>
    obtain ⟨hlines, hkeys, hbytes⟩ := ih (m.dropLine true kl.1)
    obtain ⟨h, sk, ls', e, hls⟩ := dropLine_rest m true kl.1
    refine ⟨fun x => ?_, hkeys.trans (by rw [e]), fun k q => (hbytes k q).trans (dropLine_view m kl.1 k q)⟩
    rw [List.foldl_cons, hlines, e, hls]
    by_cases hx : x = kl.1
    · simp [hx]
    · rw [if_neg hx]
      exact if_congr (List.mem_cons.trans (or_iff_right hx)).symm rfl rfl
/-- The lines of a key slot are gone, and every byte reads as before. -/
theorem dropKey_view (m : Mem) (slot : Nat) (hn : (m.lines.map (·.1)).Nodup) :
    (∀ ln, mFind (m.dropKey slot).lines ln = (mFind m.lines ln).filter fun l => l.key != slot) ∧
      (m.dropKey slot).keys = m.keys ∧ ∀ k q, (m.dropKey slot).byteUnder k q = m.byteUnder k q := by
  obtain ⟨hlines, hrest⟩ := foldl_dropLine_view (m.lines.filter fun kl => kl.2.key == slot) m
  refine ⟨fun ln => (hlines ln).trans ?_, hrest⟩
  have hmem : ln ∈ (m.lines.filter fun kl => kl.2.key == slot).map (·.1) ↔ ∃ l, mFind m.lines ln = some l ∧ l.key = slot := by
    simp only [List.mem_map, List.mem_filter, beq_iff_eq]
    constructor
    · rintro ⟨x, ⟨hx, hk⟩, rfl⟩
      exact ⟨x.2, mFind_eq_of_mem m.lines hn x hx, hk⟩
    · rintro ⟨l, hl, hk⟩
      exact ⟨(ln, l), ⟨mem_of_mFind _ _ _ hl, hk⟩, rfl⟩
  cases hl : mFind m.lines ln with
  | none => rw [ite_self]; rfl
  | some l =>
    simp only [hmem, hl, Option.some.injEq, exists_eq_left', Option.filter_some]
    by_cases hk : l.key = slot <;> simp [hk]
/-- Where no line stands, a byte reads as HBM shows it. -/
theorem byteUnder_of_no_line {m : Mem} {k pa : Nat} (h : mFind m.lines (pa / 1024) = none) : m.byteUnder k pa = m.hbmView k pa := by
  rw [Mem.byteUnder, h]
theorem dropKeyed_of_plain (m : Mem) (h : ∀ x ∈ m.lines, x.2.key = 0) : m.dropKeyed = m := by
  rw [Mem.dropKeyed, List.filter_eq_nil_iff.2 fun x hx => by simp [h x hx]]
  rfl
theorem keyLoad_loads (s : State) (n : Nat) (key : Option Nat) (h0 : n ≠ 0) (hn : n < 8192) (hnd : (s.mem.lines.map (·.1)).Nodup) :
    ∃ t, exec (.keyLoad n key) s = .next t ∧ t = s.setMem t.mem ∧
      (∀ k, mFind t.mem.keys k = if k = n then key else mFind s.mem.keys k) ∧
      (∀ ln, mFind t.mem.lines ln = (mFind s.mem.lines ln).filter fun l => l.key != n) ∧
      ∀ pa, (mFind s.mem.lines (pa / 1024)).any (fun l => l.key == n) = true →
        t.mem.hbmView (s.mem.keyOf n) pa = s.mem.byteUnder (s.mem.keyOf n) pa := by
  obtain ⟨hlines, hkeys, hbytes⟩ := dropKey_view s.mem n hnd
  refine ⟨_, congrArg Host.Outcome.next (if_neg (by omega)), rfl, fun k => ?_, hlines, fun pa hpa => ?_⟩
  · dsimp only [State.updMem_mem]
    rw [hkeys]
    cases key with
    | none => rw [mFind_mErase]; simp only [eq_comm]
    | some v => rw [mFind_mSet]; simp only [eq_comm]
  · have hgone : mFind (s.mem.dropKey n).lines (pa / 1024) = none := by
      obtain ⟨l, hl, hk⟩ := (Option.any_eq_true _ _).1 hpa
      rw [hlines, hl, Option.filter_some, bne, hk]; rfl
    rw [← hbytes, byteUnder_of_no_line hgone]
    rfl

/-! ### Errors (R385) -/
theorem mem_setSite {α : Type} [DecidableEq α] (on : Bool) (x y : α) (l : List α) :
    y ∈ setSite on x l ↔ if y = x then on = true else y ∈ l := by
  by_cases hy : y = x
  · subst hy
    cases on with
    | true => by_cases h : y ∈ l <;> simp [setSite, h]
    | false => simp [setSite]
  · cases on with
    | true => by_cases h : x ∈ l <;> simp [setSite, h, hy]
    | false => simp [setSite, hy]
theorem storeBad_rel (die n q elem : Nat) (s : State) : (storeBad die n q elem s).rel = s.rel := by
  rw [storeBad]; split <;> rfl
theorem cellBad_rel (die : Nat) (out : Bool) (i elem : Nat) (s : State) : (cellBad die out i elem s).rel = s.rel := by
  unfold cellBad
  dsimp only
  split
  · rfl
  · split <;> rfl
/-- An error's site keeps the counts and the fences. -/
theorem strike_rel (bad : Bool) (site : EccSite) (s : State) : ∃ l, (strike bad site s).rel = { s.rel with sram := l } := by
  cases site with
  | hbm pa => exact ⟨_, rfl⟩
  | bank quad b col => cases bad <;> exact ⟨_, rfl⟩
  | staging die n q elem =>
    cases bad with
    | false => exact ⟨_, rfl⟩
    | true => exact ⟨_, storeBad_rel die n q elem s⟩
  | cell die out i elem =>
    cases bad with
    | false => exact ⟨_, rfl⟩
    | true => exact ⟨_, cellBad_rel die out i elem s⟩
  | ab bk off | wb bk off | cb bk off | sp bk off => exact ⟨_, rfl⟩
/-- An uncorrectable error in a latch bank makes its record invalid (R285). -/
theorem strike_banks (q b col : Nat) (s : State) : ((strike true (.bank q b col) s).quad q).banks =
    mMod (s.quad q).banks b fun x => { x with valid := false, badCols := setSite true col x.badCols } := by
  rw [strike, if_pos rfl, State.updQuad_quad, if_pos rfl]
theorem eccError_counts (s : State) (correctable lasting : Bool) (site : EccSite) :
    ∃ t, exec (.eccError correctable lasting site) s = .next t ∧
      t.rel.soft = s.rel.soft + (if lasting then 0 else 1) ∧ t.rel.lasting = s.rel.lasting + (if lasting then 1 else 0) ∧
      (site ∈ t.rel.fenced ↔ lasting = true ∨ site ∈ s.rel.fenced) ∧
      (∀ pa, site = .hbm pa → ∀ q, q ∈ t.mem.ecc ↔ if q = pa then correctable = false else q ∈ s.mem.ecc) ∧
      ∀ q b col, site = .bank q b col → correctable = false → (mFind (s.quad q).banks b).isSome = true →
        (mGet (t.quad q).banks LatchBank.init b).valid = false := by
  obtain ⟨l, hrel⟩ := strike_rel (!correctable) site s
  refine ⟨_, rfl, ?_, ?_, ?_, ?_, ?_⟩
  · cases lasting <;> simp [hrel]
  · cases lasting <;> simp [hrel]
  · cases lasting <;> simp [hrel, mem_setSite]
  · rintro pa rfl q
    show q ∈ setSite (!correctable) pa s.mem.ecc ↔ _
    rw [mem_setSite, Bool.not_eq_true']
  · rintro q b col rfl rfl hb
    show (mGet ((strike true (.bank q b col) s).quad q).banks LatchBank.init b).valid = false
    rw [strike_banks, mGet_mMod _ _ _ _ _ hb, if_pos rfl]

/-! ### Power and bring-up (R387, R388) -/
/-- A trip changes no byte that an access reads. -/
theorem afterTrip_view (m : Mem) (k pa : Nat) : m.afterTrip.byteUnder k pa = m.byteUnder k pa :=
  byteUnder_ext m m.afterTrip k pa rfl rfl fun _ _ _ => rfl
theorem acceptLaunch_rel (n tag : Nat) (r : List Word) (s : State) : (acceptLaunch n tag r s).rel = s.rel := by
  simp [acceptLaunch, apply_ite State.rel]
theorem acceptLaunch_held (n tag : Nat) (r : List Word) (s : State) : (acceptLaunch n tag r s).launch.held = s.launch.held := by
  simp [acceptLaunch, apply_ite State.launch]
theorem acceptHeld_rel (s : State) : (acceptHeld s).rel = s.rel :=
  foldl_part (fun s : State => s.rel) _ s.launch.held _ fun u x => acceptLaunch_rel x.1 x.2.1 x.2.2 u
theorem acceptHeld_held (s : State) : (acceptHeld s).launch.held = [] :=
  foldl_part (fun s : State => s.launch.held) _ s.launch.held _ fun u x => acceptLaunch_held x.1 x.2.1 x.2.2 u
theorem acceptHeld_of_none {s : State} (h : s.launch.held = []) : acceptHeld s = s := by
  rw [acceptHeld, h, List.foldl_nil, ← h]; rfl
theorem acceptHeld_of_one {s : State} {n tag : Nat} {r : List Word} (h : s.launch.held = [(n, tag, r)]) :
    acceptHeld s = acceptLaunch n tag r (s.updLaunch fun l => { l with held := [] }) := by
  rw [acceptHeld, h]; rfl
/-- The six steps of bring-up. -/
theorem bringUp_steps (s : State) (x : BringUpArgs) :
    (s.rel.stage = 0 → x.verified = false → exec (.bringUp x) s = .next s) ∧
    (s.rel.stage = 0 → x.verified = true → ∃ t, exec (.bringUp x) s = .next t ∧ t = (s.setRel t.rel).setHost t.host ∧
      t.rel = { s.rel with stage := 1, verified := true, images := s.rel.images ++ [x.image] } ∧ t.host = { s.host with chanOpen := true }) ∧
    (s.rel.stage = 3 → ∃ t, exec (.bringUp x) s = .next t ∧ t.rel.stage = 4 ∧ t.host = { s.host with device := x.device % 1024 }) ∧
    (s.rel.stage = 5 → ∃ t, exec (.bringUp x) s = .next t ∧ t.rel.stage = 6 ∧ t.launch.held = [] ∧
      (s.launch.held = [] → t = s.setRel t.rel) ∧ ∀ n tag r, s.launch.held = [(n, tag, r)] →
        t = acceptLaunch n tag r ((s.setRel t.rel).updLaunch fun l => { l with held := [] })) ∧
    ∀ n, s.rel.stage = n → n = 1 ∨ n = 2 ∨ n = 4 → ∃ t, exec (.bringUp x) s = .next t ∧ t.rel = { s.rel with stage := n + 1 } ∧
      t = (s.setRel t.rel).setMem t.mem ∧ (n = 1 → t.mem = s.mem) ∧
      (n = 2 → (∀ x ∈ s.mem.lines, x.2.key = 0) →
        t.mem = { s.mem with keys := t.mem.keys, roots := t.mem.roots }) ∧ (n = 4 → t.mem = { s.mem with windows := t.mem.windows }) := by
  have hexec : exec (.bringUp x) s = execBringUp x s := rfl
  rw [hexec, execBringUp]
  refine ⟨fun h hv => ?_, fun h hv => ?_, fun h => ?_, fun h => ?_, ?_⟩
  · simp only [h, hv, Bool.false_eq_true, if_false]
  · simp only [h, hv, if_true]
    exact ⟨_, rfl, rfl, rfl, rfl⟩
  · simp only [h]
    exact ⟨_, rfl, rfl, rfl⟩
  · simp only [h]
    refine ⟨_, rfl, ?_, acceptHeld_held _, fun hh => ?_, fun n tag r hh => ?_⟩
    · rw [acceptHeld_rel]; rfl
    · rw [acceptHeld_rel]; exact acceptHeld_of_none hh
    · rw [acceptHeld_rel]; exact acceptHeld_of_one hh
  · rintro n h (rfl | rfl | rfl)
    · simp only [h]
      exact ⟨_, rfl, rfl, rfl, fun _ => rfl, nofun, nofun⟩
    · simp only [h]
      refine ⟨_, rfl, rfl, rfl, nofun, fun _ hplain => ?_, nofun⟩
      rw [State.updMem_mem, State.setRel_mem, dropKeyed_of_plain s.mem hplain]
    · simp only [h]
      exact ⟨_, rfl, rfl, rfl, nofun, nofun, fun _ => rfl⟩

/-- Settles O52, write by write and step by step. -/
theorem firmwareAndPower : Obligations.FirmwareAndPower := by
  refine ⟨timetableWrite_writes, fun s q ctr part hq hc => ?_, fun s die n g hd hn hg => ?_, fun s n => ⟨fun mask hn => ?_, ?_⟩,
    eccError_counts, fun s => ⟨⟨_, rfl, rfl, rfl, rfl, rfl, rfl, rfl, rfl, afterTrip_view s.mem⟩, rfl⟩, bringUp_steps⟩
  · exact ⟨_, congrArg Host.Outcome.next (if_neg (by omega)), rfl, fun k c => updQuad_ctr s q ctr _ k c⟩
  · exact ⟨_, congrArg Host.Outcome.next (if_neg (by simp [hg]; omega)), rfl, fun k c => updSlot_slotAt s die n _ k c⟩
  · refine ⟨_, congrArg Host.Outcome.next (if_neg (by omega)), rfl, rfl, fun k => ?_⟩
    rw [State.updMem_mem, mFind_mSet]
    simp only [eq_comm]
  · exact fun key h0 hn hnd _ => keyLoad_loads s n key h0 hn hnd

end Sys2Proof.Machine
end

section
/-! Reset (O59): what no table lists reads as its default. -/
namespace Sys2Proof.Machine

/-- A scheduler at reset has an empty table (R97). -/
theorem reset_schedAt (core sched : Nat) : State.reset.schedAt core sched = Sched.init := rfl
/-- A quad at reset is as bring-up finds it (R291, R310). -/
theorem reset_quad (q : Nat) : State.reset.quad q = Quad.init := rfl

/-- Settles O59. -/
theorem resetState : Obligations.ResetState := by
  refine ⟨memory_nil_wf, rfl, rfl, rfl, fun core sched i => ?_, fun q c => ?_, fun q => ?_, rfl, rfl, rfl⟩
  · rw [reset_schedAt]
    exact ⟨entryPart_of_table_nil rfl i, rfl, BitVec.getLsbD_zero⟩
  · rw [reset_quad]; rfl
  · rw [reset_quad]; rfl

end Sys2Proof.Machine
end

section
/-! Results for block, cluster and grid registers (O4, O5, O6, O12). A result at fixed latency reaches its destination as a
list of values; what that destination makes of them is said once for each rank, and for each way to turn them down. -/
namespace Sys2Proof.Machine

/-! ### The values that reach the destination -/
theorem intForm_of_floatForm (s : State) (i : Instr) (h : (floatForm s i).isSome = true) : intForm s i = none := by
  cases i with
  | fadd | fsub | fmul | ffma | fmnmx | dadd | dmul | dfma | bfma2 | hfma2 | fdot2 | cvt | fcls => rfl
  | _ => exact absurd h Bool.false_ne_true
theorem otherForm_of_exchForm (s : State) (i : Instr) (h : (exchForm s i).isSome = true) :
    intForm s i = none ∧ floatForm s i = none := by
  cases i with
  | shfl | vote => exact ⟨rfl, rfl⟩
  | _ => exact absurd h Bool.false_ne_true
/-- The three kinds of instructions on lanes exclude each other. -/
theorem laneForm_of_form (s : State) (i : Instr) (x : AluForm)
    (h : intForm s i = some x ∨ floatForm s i = some x ∨ exchForm s i = some x) : laneForm s i = some x := by
  rcases h with h | h | h
  · rw [laneForm, h]; rfl
  · rw [laneForm, intForm_of_floatForm s i (by rw [h]; rfl), h]; rfl
  · obtain ⟨hi, hf⟩ := otherForm_of_exchForm s i (by rw [h]; rfl)
    rw [laneForm, hi, hf, h]; rfl

/-- Without a scoped source an instruction on lanes brings its value of each lane to the destination at once (R49). -/
theorem exec_lane_now (s : State) (i : Instr) (x : AluForm) (h : laneForm s i = some x) (hl : x.legal = true)
    (ho : x.ops.all (·.ok) = true) (hs : x.srcs.any scopedSrc = false) :
    exec i s = .next (writeNowResult .plain x.d x.pair (s.perLane x.val) x.flags s) := by
  rw [exec_lane s i x h, hl, operandsOr_ok _ _ _ ho, writeResult, hs]; rfl
/-- The uniform pipe brings one value, in the place of the lowest lane. -/
theorem exec_uni_now (s : State) (i : Instr) (x : AluForm) (h : uniForm s i = some x) (hl : x.legal = true)
    (ho : x.ops.all (·.ok) = true) (hs : x.srcs.any scopedSrc = false) :
    exec i s = .next (writeNowResult .plain x.d x.pair [(lowLane s.cur.mask, x.val 0)] x.flags s) := by
  rw [exec_uni s i x h, hl, operandsOr_ok _ _ _ ho, writeUniform, hs, uni_flags s i x h]; rfl
/-- Where every lane of the bundle has the value `v`, values that agree on `v` reach the destination. -/
theorem exec_alu_agreed (s : State) (i : Instr) (x : AluForm) (v : DWord) (hx : aluForm s i = some x) (hb : s.inBundle = true)
    (hl : x.legal = true) (ho : x.ops.all (·.ok) = true) (hs : x.srcs.any scopedSrc = false)
    (hv : ∀ l < 32, s.cur.mask.getLsbD l = true → x.val l = v) :
    ∃ vals, exec i s = .next (writeNowResult .plain x.d x.pair vals x.flags s) ∧ allAgree vals = true ∧
      (vals.headD (0, 0)).2 = v := by
  obtain ⟨-, -, -, hm⟩ := (inBundle_iff s).1 hb
  obtain ⟨hlow, hbit⟩ := lowLane_mem s.cur.mask hm
  rcases lane_form s i x hx with h | h
  · refine ⟨_, exec_lane_now s i x h hl ho hs, perLane_agree s x.val fun l h1 k h2 m1 m2 => ?_, ?_⟩
    · rw [hv l h1 m1, hv k h2 m2]
    · rw [perLane_head s x.val hm]; exact hv _ hlow hbit
  · refine ⟨_, exec_uni_now s i x h hl ho hs, rfl, ?_⟩
    rw [← hv _ hlow hbit, uni_const s i x h]; rfl

/-! ### What the destination makes of them -/
/-- Values that agree set out for a cluster or grid register (R123). -/
theorem writeNowResult_sends (e : Ending) (d : Reg) (pair : Bool) (vals : List (Nat × DWord)) (fl : BitVec 5) (s : State)
    (hd : 116 ≤ d.toNat) (hd' : d.toNat < 124) (hw : s.cw.isWave = false ∨ 120 ≤ d.toNat) (ha : allAgree vals = true) :
    writeNowResult e d pair vals fl s = sendBank e d pair none vals fl s := by
  have hwave : (s.cw.isWave && decide (d.toNat < 120)) = false := by
    rcases hw with hw | hw
    · rw [hw]; rfl
    · rw [decide_eq_false (by omega), Bool.and_false]
  rw [writeNowResult, if_neg (by omega), if_neg (by omega), if_pos hd', if_pos ha, hwave, if_neg Bool.false_ne_true,
    if_neg (by omega)]
/-- Values that disagree raise AGREE at a warp register and at every bank (R121, R139). -/
theorem writeNowResult_disagrees (e : Ending) (d : Reg) (pair : Bool) (vals : List (Nat × DWord)) (fl : BitVec 5) (s : State)
    (hd : 92 ≤ d.toNat) (hd' : d.toNat < 124) (ha : allAgree vals = false) :
    writeNowResult e d pair vals fl s = raiseAgree d s := by
  have hno : ¬ allAgree vals = true := by rw [ha]; exact Bool.false_ne_true
  rw [writeNowResult, if_neg (by omega)]
  by_cases hw : d.toNat < 108
  · rw [if_pos hw, agreeWrites, if_neg (by omega), if_neg hno]
  · rw [if_neg hw, if_pos hd', if_neg hno]
/-- What a block register's bank answers to values that agree, where it does not take them. -/
theorem writeNowResult_refused (mixed : Bool) (e : Ending) (d : Reg) (pair : Bool) (vals : List (Nat × DWord)) (fl : BitVec 5)
    (s : State) (hw : s.cw.isWave = false) (hd : 108 ≤ d.toNat) (hd' : d.toNat < 116) (ha : allAgree vals = true)
    (hr : bankWriteAgree s s.cb d.toNat pair (vals.headD (0, 0)).2 = .error mixed) :
    writeNowResult e d pair vals fl s = if mixed then raiseMixed d s else raiseAgree d s := by
  rw [writeNowResult, if_neg (by omega), if_neg (by omega), if_pos (by omega), if_pos ha, hw, Bool.false_and,
    if_neg Bool.false_ne_true, if_pos hd', hr]
  cases mixed <;> rfl

/-! ### What a bank does not take (R122, R126) -/
theorem bankAgree_agree_iff (r : ScopedReg) (v : Word) : bankAgree r v = .agree ↔ r.mode = .agreed ∧ r.back ≠ v := by
  unfold bankAgree
  cases hm : r.mode with
  | none | red => simp
  | agreed => by_cases hv : r.back = v <;> simp [hv]
theorem bankAgree_mixed_iff (r : ScopedReg) (v : Word) : bankAgree r v = .mixed ↔ ∃ k, r.mode = .red k := by
  unfold bankAgree
  cases hm : r.mode with
  | none | red => simp
  | agreed => by_cases hv : r.back = v <;> simp [hv]
/-- AGREE of either half of a pair stands above MIXED of the other (R139). -/
theorem bankWriteAgree_agree (s : State) (b : Block) (c : Nat) (pair : Bool) (v : DWord)
    (h : bankAgree (scopedOf s b c) (v.setWidth 32) = .agree ∨
      (pair = true ∧ bankAgree (scopedOf s b (c + 1)) ((v >>> 32).setWidth 32) = .agree)) :
    bankWriteAgree s b c pair v = .error false := by
  unfold bankWriteAgree
  rcases h with h | ⟨rfl, h⟩
  · rw [h]
  · simp only [if_true, h]
    cases bankAgree (scopedOf s b c) (v.setWidth 32) <;> rfl
/-- Without AGREE of either half, MIXED of one of them is the answer. -/
theorem bankWriteAgree_mixed (s : State) (b : Block) (c : Nat) (pair : Bool) (v : DWord)
    (ha : ¬ (bankAgree (scopedOf s b c) (v.setWidth 32) = .agree ∨
      (pair = true ∧ bankAgree (scopedOf s b (c + 1)) ((v >>> 32).setWidth 32) = .agree)))
    (hm : bankAgree (scopedOf s b c) (v.setWidth 32) = .mixed ∨
      (pair = true ∧ bankAgree (scopedOf s b (c + 1)) ((v >>> 32).setWidth 32) = .mixed)) :
    bankWriteAgree s b c pair v = .error true := by
  unfold bankWriteAgree
  obtain ⟨hlo, hhi⟩ := not_or.1 ha
  cases pair with
  | false =>
    rcases hm with hm | ⟨hp, -⟩
    · simp only [hm, Bool.false_eq_true, if_false]
    · cases hp
  | true =>
    simp only [if_true]
    cases h0 : bankAgree (scopedOf s b c) (v.setWidth 32) with
    | agree => exact absurd h0 hlo
    | ok | mixed =>
      cases h1 : bankAgree (scopedOf s b (c + 1)) ((v >>> 32).setWidth 32) with
      | agree => exact absurd ⟨rfl, h1⟩ hhi
      | ok | mixed => simp [h0, h1] at hm ⊢

/-! ### Reductions (R124, R126) -/
/-- Contributions to a phase of another mode or kind are not applied. -/
theorem bankReduce_mixed (r : ScopedReg) (k : RedKind) (vals : List Word) (hn : r.mode ≠ .none) (hk : r.mode ≠ .red k) :
    bankReduce r k vals = .mixed := by
  unfold bankReduce
  cases hm : r.mode with
  | none => exact absurd hm hn
  | agreed => rfl
  | red k' => exact if_neg fun he => hk (by rw [hm, he])
theorem redBank_mixed (k : RedKind) (d : Reg) (vals : List (Nat × DWord)) (s : State) (hw : s.cw.isWave = false)
    (hd : d.toNat < 116) (hn : (scopedOf s s.cb d.toNat).mode ≠ .none) (hk : (scopedOf s s.cb d.toNat).mode ≠ .red k) :
    redBank k d vals s = raiseMixed d s := by
  rw [redBank, hw, Bool.false_and, if_neg Bool.false_ne_true, if_pos hd, bankReduce_mixed _ k _ hn hk]
theorem redBank_sends (k : RedKind) (d : Reg) (vals : List (Nat × DWord)) (s : State) (hw : s.cw.isWave = false)
    (hd : 116 ≤ d.toNat) : redBank k d vals s = sendBank .commit d false (some k) vals 0 s := by
  rw [redBank, hw, Bool.false_and, if_neg Bool.false_ne_true, if_neg (by omega)]
/-- RED into a bank brings a contribution of each lane (R176). -/
theorem exec_red_bank (s : State) (sw : Bool) (k : RedKind) (d a : Reg) (hd : 108 ≤ d.toNat) (hd' : d.toNat < 124)
    (ha : laneSrc a = true) : exec (.red sw k d a) s = .next (redBank k d (s.perLane fun l => z64 (s.src a l)) s) := by
  have hok : ([⟨0, d, redTgt d⟩, ⟨1, a, laneSrc a⟩] : List OpPos).all (·.ok) = true := by
    simp only [List.all_cons, List.all_nil, redTgt, ha, Bool.and_true, Bool.and_eq_true, decide_eq_true_eq]; omega
  exact congrArg Host.Outcome.next ((operandsOr_ok _ _ _ hok).trans (if_neg (by omega)))
/-- GRED brings one (R207). -/
theorem exec_gred_bank (s : State) (sw : Bool) (k : RedKind) (d a : Reg) (hd : 108 ≤ d.toNat) (hd' : d.toNat < 124)
    (ha : uniCode a = true) :
    exec (.gred sw k d a) s = .next (redBank k d [(lowLane s.cur.mask, z64 (s.usrc a))] s) := by
  have hok : ([⟨0, d, gredTgt d⟩, ⟨1, a, uniCode a⟩] : List OpPos).all (·.ok) = true := by
    simp only [List.all_cons, List.all_nil, gredTgt, ha, Bool.and_true, Bool.and_eq_true, decide_eq_true_eq]; omega
  exact congrArg Host.Outcome.next (operandsOr_ok _ _ _ hok)

/-! ### The obligations -/
/-- Settles O4: the values agree, and the bank takes them. -/
theorem blockRegisterTakesAgreement : Obligations.BlockRegisterTakesAgreement := by
  intro s i x v hx hb hw hl ho hs hd hd' hv hlo hhi
  obtain ⟨hb0, -, -⟩ := (inBlock_iff s).1 hb
  obtain ⟨vals, he, ha, rfl⟩ := exec_alu_agreed s i x v hx hb0 hl ho hs hv
  exact ⟨_, he, writeNowResult_bank x.d x.pair vals x.flags s hb hw hd hd' (pair_even s i x hx ho) ha hlo hhi⟩
/-- Settles O5: the values agree, and set out. -/
theorem clusterAndGridWritesTravel : Obligations.ClusterAndGridWritesTravel := by
  intro s i x v hx hb hw hl ho hs hd hd' hv
  obtain ⟨vals, he, ha, hhead⟩ := exec_alu_agreed s i x v hx hb hl ho hs hv
  rw [writeNowResult_sends _ _ _ _ _ s hd hd' hw ha] at he
  exact ⟨_, vals, he, sendBank_sent _ _ _ _ _ _ s hb, hhead⟩
/-- Settles O6: two lanes that differ end the agreement of the values; of values that agree, a bank's phase refuses a half
with AGREE, or where it refuses none so, with MIXED. -/
theorem disagreementRaisesAgree : Obligations.DisagreementRaisesAgree := by
  refine ⟨fun s i x l k hf hb hl ho hs hd hd' hl32 hk32 hml hmk hne => ?_, fun s i x v hx hb hw hl ho hs hd hd' hv => ?_⟩
  · have he := exec_lane_now s i x (laneForm_of_form s i x hf) hl ho hs
    have ha : allAgree (s.perLane x.val) = false := by
      refine Bool.eq_false_iff.2 fun h => hne ?_
      exact (allAgree_iff _).1 h (l, x.val l) ((mem_perLane s x.val _).2 ⟨hl32, hml, rfl⟩) (k, x.val k)
        ((mem_perLane s x.val _).2 ⟨hk32, hmk, rfl⟩)
    rw [writeNowResult_disagrees _ _ _ _ _ s hd hd' ha] at he
    exact ⟨_, he, raiseMask_taken _ _ _ _ s hb⟩
  · obtain ⟨hb0, -, -⟩ := (inBlock_iff s).1 hb
    obtain ⟨vals, he, ha, rfl⟩ := exec_alu_agreed s i x v hx hb0 hl ho hs hv
    simp only [← bankAgree_agree_iff]
    refine ⟨fun hoff => ?_, fun hoff hred => ?_⟩
    · rw [writeNowResult_refused false _ _ _ _ _ s hw hd hd' ha (bankWriteAgree_agree s _ _ _ _ hoff)] at he
      exact ⟨_, he, raiseMask_taken _ _ _ _ s hb0⟩
    · have hmix := bankWriteAgree_mixed s s.cb x.d.toNat x.pair _ hoff
        (by simpa only [bankAgree_mixed_iff, exists_or, exists_and_left] using hred)
      rw [writeNowResult_refused true _ _ _ _ _ s hw hd hd' ha hmix] at he
      exact ⟨_, he, raiseMask_taken _ _ _ _ s hb0⟩
/-- Settles O12: RED and GRED differ in the contributions only, and the bank or the way to it is the same. -/
theorem reductionIntoBank : Obligations.ReductionIntoBank := by
  intro s i k d vals hi hb hw hd hd'
  obtain ⟨hb0, -, -⟩ := (inBlock_iff s).1 hb
  have he : exec i s = .next (redBank k d vals s) := by
    rcases hi with ⟨sw, a, ha, rfl, rfl⟩ | ⟨sw, a, ha, rfl, rfl⟩
    · exact exec_red_bank s sw k d a hd hd' ha
    · exact exec_gred_bank s sw k d a hd hd' ha
  refine ⟨fun h116 r' hr => ⟨_, he, redBank_reduced k d vals r' s hb hw hd h116 hr⟩, fun h116 hn hk => ?_, fun h116 => ?_⟩
  · rw [redBank_mixed k d vals s hw h116 hn hk] at he
    exact ⟨_, he, raiseMask_taken _ _ _ _ s hb0⟩
  · rw [redBank_sends k d vals s hw h116] at he
    exact ⟨_, he, sendBank_sent _ _ _ _ _ _ s hb0⟩

end Sys2Proof.Machine
end

section
/-! Results at once, predicates, MATCH and RED (O1, O2, O8, O10, O11). Each instruction brings its writes to the warp, and
the one fact that it needs is that they cover what the statement gives each register (`covers`). -/
namespace Sys2Proof.Machine

/-! ### Register results at fixed latency -/
/-- An integer or logic instruction has no ill-formed combination and raises no flag. -/
theorem intForm_legal_flags (s : State) (i : Instr) (x : AluForm) (h : intForm s i = some x) :
    x.legal = true ∧ x.flags = 0 := by
  cases i with
  | iadd | isub | imul | imad | imnmx | lop | shf | iuna | bfe | bfi | prmt | sel | lea | iadd64 | iaddi | andi | ori | xori
    | shli | shri | movl | movh | mov => obtain rfl := Option.some.inj h; exact ⟨rfl, rfl⟩
  | _ => exact nomatch h
theorem exchForm_flags (s : State) (i : Instr) (x : AluForm) (h : exchForm s i = some x) : x.flags = 0 := by
  cases i with
  | shfl | vote => obtain rfl := Option.some.inj h; rfl
  | _ => exact nomatch h
theorem aluForm_eq (s : State) (i : Instr) : aluForm s i = (laneForm s i).or (uniForm s i) := by
  simp only [aluForm, laneForm, Option.or_assoc]
/-- An instruction on lanes whose destination takes its values completes with them (R121, R135, R138). -/
theorem exec_lane_resultNow (s : State) (i : Instr) (x : AluForm) (h : laneForm s i = some x) (hb : s.inBundle = true)
    (hl : x.legal = true) (ho : x.ops.all (·.ok) = true) (hs : x.srcs.any scopedSrc = false)
    (ht : takesNow s x.d x.pair x.val) :
    ∃ t, exec i s = .next t ∧ resultNow x.d x.pair x.val x.flags s t := by
  have hp := pair_even s i x (by rw [aluForm_eq, h]; rfl) ho
  exact ⟨_, exec_lane_now s i x h hl ho hs, writeNowResult_now x.d x.pair x.val x.flags s hb hp ht⟩
/-- The uniform pipe completes with its one value in a w register, or in z with none. -/
theorem exec_uni_resultNow (s : State) (i : Instr) (x : AluForm) (h : uniForm s i = some x) (hb : s.inBundle = true)
    (hl : x.legal = true) (ho : x.ops.all (·.ok) = true) (hs : x.srcs.any scopedSrc = false)
    (hd : x.d.toNat < 108 ∨ x.d = 124) :
    ∃ t, exec i s = .next t ∧ resultNow x.d x.pair x.val 0 s t := by
  have hp := pair_even s i x (by rw [aluForm_eq, laneForm_of_uniForm s i (by rw [h]; rfl), h]; rfl) ho
  obtain ⟨h92, -⟩ := uni_dest s i x h ho
  have he := exec_uni_now s i x h hl ho hs
  rw [uni_flags s i x h] at he
  refine ⟨_, he, ?_⟩
  rw [uni_const s i x h]
  exact writeNowResult_uniform x.d x.pair (x.val 0) s hb hp (hd.imp_left fun hd => ⟨h92, hd⟩)

/-! ### A register and a predicate of one instruction -/
/-- Predicates that an instruction writes last are in place when it goes on. -/
theorem plainPreds_apply (ps : List RegWrite) (s : State) :
    ({ Ending.plain with preds := ps } : Ending).apply s = done (s.updCw (writeAll ps)) := by
  cases ps with
  | nil => rw [writeAll_nil]; rfl
  | cons y t => rfl
theorem updCw_writeAll_append (xs ys : List RegWrite) (s : State) :
    (s.updCw (writeAll xs)).updCw (writeAll ys) = s.updCw (writeAll (xs ++ ys)) := by
  rw [updCw_updCw]
  exact congrArg s.updCw (funext fun w => List.foldl_append.symm)
/-- A register code names no predicate. -/
theorem resultDest_of_predDest (d : Reg) (pair : Bool) (m : Word) (f : Nat → DWord) (p : PredNo) (g : Nat → Bool) (x : Dest)
    (h : (predDest p m g x).isSome = true) : resultDest d pair m f x = none := by
  cases x with
  | pred q l => rfl
  | _ => exact absurd h Bool.false_ne_true
/-- Writes that cover a register's result, and those of a predicate behind them, cover the two together. -/
theorem covers_withPred (s : State) (d : Reg) (f : Nat → DWord) (p : PredNo) (g : Nat → Bool) (xs : List RegWrite)
    (h : covers xs (resultDest d false s.cur.mask f) (laneRows d false)) :
    covers (xs ++ predWrites p (s.perLane g))
      (fun x => (resultDest d false s.cur.mask f x).or (predDest p s.cur.mask g x)) (laneRows d false) := by
  have := covers_append _ _ _ _ _ _ h (predWrites_covers p g s) (resultDest_of_predDest d false s.cur.mask f p g)
  rwa [List.append_nil] at this
theorem predWrites_norm (p : PredNo) (vals : List (Nat × Bool)) : ∀ y ∈ predWrites p vals, normVal y.dest y.val = y.val := by
  intro y hy
  obtain ⟨-, ⟨l, b⟩, -, rfl⟩ := (mem_predWrites _ _ _).1 hy
  cases b <;> rfl
theorem laneWrites_norm (d : Reg) (pair : Bool) (vals : List (Nat × DWord)) :
    ∀ y ∈ laneWrites d pair vals, normVal y.dest y.val = y.val := by
  intro y hy
  obtain ⟨x, -, rfl | ⟨-, rfl⟩⟩ := (mem_laneWrites _ _ _ _).1 hy <;> rfl
/-- Values of the bundle and a predicate, written at once. -/
theorem writeNowResult_withPred (d : Reg) (f : Nat → DWord) (p : PredNo) (g : Nat → Bool) (s : State) (hb : s.inBundle = true)
    (ht : takesNow s d false f) :
    let v : Dest → Option Word := fun x => (resultDest d false s.cur.mask f x).or (predDest p s.cur.mask g x)
    let t := writeNowResult { Ending.plain with preds := predWrites p (s.perLane g) } d false (s.perLane f) 0 s
    onlyWarp s t ∧ sameMemory s t ∧ warpWentOn 0 s t ∧ lanesWentOn s t ∧ registersBecome v s t ∧
      rowsBecome (laneRows d false) s t := by
  obtain ⟨xs, hk, hc⟩ := writeNowResult_covers d false f 0 s hb nofun ht
  have hw := write_done _ _ _ 0 s hb (covers_withPred s d f p g xs hc)
  rw [raiseFlags_zero, ← updCw_writeAll_append] at hw
  rw [hk, plainPreds_apply, raiseFlags_zero]
  exact hw
/-- An outstanding result takes its predicates along with its lane register, or with z. -/
theorem outResult_lanePreds (ps : List RegWrite) (per : Bool) (d : Reg) (vals : List (Nat × DWord)) (o : Out) (s : State)
    (hd : d.toNat < 88) (hr : rowsFit s (laneRows d false) = true) :
    outResult { Ending.plain with preds := ps } per d false vals o s =
      done (mapRows (laneRows d false) (addOut { o with writes := laneWrites d false vals ++ ps, vals := vals } s)) := by
  have e : laneRows d false = [d.toNat] := if_pos hd
  rw [outResult, if_pos hd, if_neg Bool.false_ne_true, ← e, if_pos hr]; rfl
theorem outResult_zPreds (ps : List RegWrite) (per : Bool) (vals : List (Nat × DWord)) (o : Out) (s : State) :
    outResult { Ending.plain with preds := ps } per 124 false vals o s =
      done (addOut { o with writes := ps, vals := vals } s) := by
  rw [outResult, if_neg (by decide), if_pos (by decide)]; rfl
/-- The same outstanding, in a lane register or in z. -/
theorem outResult_withPred (d : Reg) (f : Nat → DWord) (p : PredNo) (g : Nat → Bool) (s : State) (hb : s.inBundle = true)
    (hd : (d.toNat < 88 ∧ rowsFit s (laneRows d false) = true) ∨ d = 124) :
    resultDue (fun x => (resultDest d false s.cur.mask f x).or (predDest p s.cur.mask g x)) (laneRows d false) 0 s
      (outResult { Ending.plain with preds := predWrites p (s.perLane g) } true d false (s.perLane f)
        (Out.blank (freshId s) s.cur.mask d false) s) := by
  obtain ⟨-, -, hf, -⟩ := (inBundle_iff s).1 hb
  rcases hd with ⟨hd, hr⟩ | rfl
  · obtain ⟨-, hc⟩ := laneResult .plain d false f 0 s hb hd nofun hr
    have hv := covers_find _ _ _ (covers_withPred s d f p g _ hc)
      fun y hy => (List.mem_append.1 hy).elim (laneWrites_norm _ _ _ y) (predWrites_norm _ _ y)
    rw [outResult_lanePreds _ _ _ _ _ _ hd hr, due_eq _ _ _ hf]
    exact due_spec _ { Out.blank (freshId s) s.cur.mask d false with
      writes := laneWrites d false (s.perLane f) ++ predWrites p (s.perLane g), vals := s.perLane f } _ s hb rfl rfl rfl hv
  · have hc := covers_withPred s 124 f p g [] (zResult false f s.cur.mask)
    have hv := covers_find _ _ _ hc (predWrites_norm _ _)
    rw [outResult_zPreds, addOut_due_eq _ _ hf]
    exact due_spec _ { Out.blank (freshId s) s.cur.mask 124 false with
      writes := predWrites p (s.perLane g), vals := s.perLane f } [] s hb rfl rfl rfl hv
/-- MATCH runs on the values of its lanes and the lowest lane of each group (R175). -/
theorem exec_match (s : State) (sw : Bool) (d a : Reg) (p : PredNo) (hd : laneDst d = true) (ha : laneSrc a = true) :
    let e : Ending := { Ending.plain with preds := predWrites p (s.perLane fun l => lowLane (matchMask s a l) == l) }
    let vals := s.perLane fun l => z64 (matchMask s a l)
    exec (.matchv sw d a p) s = .next
      (if scopedSrc a then outResult e true d false vals (Out.blank (freshId s) s.cur.mask d false) s
       else writeNowResult e d false vals 0 s) := by
  have hok : (ops2 d a).all (·.ok) = true := by simp only [ops2, List.all_cons, List.all_nil, hd, ha]; rfl
  exact congrArg Host.Outcome.next (operandsOr_ok _ _ _ hok)

/-! ### Reductions into ply and warp registers (R124) -/
/-- What RED leaves in the ply register of ply p: of a ply without a lane in the bundle, nothing. -/
def redPly (s : State) (k : RedKind) (d a : Reg) (p : Nat) : Option Word :=
  match s.bl.filter fun l => l / 8 == p with
  | [] => none
  | l :: ls => some (redPlain k (s.src d l) ((l :: ls).map (s.src a))).1
theorem redPly_lt (s : State) (k : RedKind) (d a : Reg) (p : Nat) (h : (redPly s k d a p).isSome = true) : p < 4 := by
  unfold redPly at h
  cases hx : s.bl.filter fun l => l / 8 == p with
  | nil => rw [hx] at h; cases h
  | cons l ls =>
    have hl : l ∈ s.bl.filter fun l => l / 8 == p := hx ▸ List.mem_cons_self
    obtain ⟨hm, hp⟩ := List.mem_filter.1 hl
    obtain ⟨h32, -⟩ := (mem_maskLanes _ _).1 hm
    have := eq_of_beq hp
    omega
theorem redDest_ply (s : State) (k : RedKind) (d a : Reg) (r p : Nat) :
    redDest s k d a (.ply r p) = if r + 88 = d.toNat ∧ d.toNat < 92 then redPly s k d a p else none := rfl
theorem redDest_warp (s : State) (k : RedKind) (d a : Reg) (r : Nat) : redDest s k d a (.warp r) =
    if r + 92 = d.toNat ∧ d.toNat < 108 then some (redPlain k (s.usrc d) (s.bl.map (s.src a))).1 else none := rfl
theorem mem_redWrites_ply (s : State) (k : RedKind) (d a : Reg) (hd : d.toNat < 92) (y : RegWrite) :
    y ∈ (redWrites s k d a).map (·.1) ↔
      ∃ p < 4, ∃ v, redPly s k d a p = some v ∧ y = { dest := .ply (d.toNat - 88) p, val := v } := by
  simp only [redWrites, if_pos hd, List.mem_map, List.mem_filterMap, mem_rangeFrom, redPly]
  constructor
  · rintro ⟨x, ⟨p, hp, hx⟩, rfl⟩
    refine ⟨p, by omega, ?_⟩
    cases hf : s.bl.filter fun l => l / 8 == p with
    | nil => rw [hf] at hx; cases hx
    | cons l ls => rw [hf] at hx; obtain rfl := Option.some.inj hx; exact ⟨_, rfl, rfl⟩
  · rintro ⟨p, hp, v, hv, rfl⟩
    cases hf : s.bl.filter fun l => l / 8 == p with
    | nil => rw [hf] at hv; cases hv
    | cons l ls =>
      rw [hf] at hv
      obtain rfl := Option.some.inj hv
      exact ⟨_, ⟨p, by omega, by rw [hf]⟩, rfl⟩
theorem redWrites_warp (s : State) (k : RedKind) (d a : Reg) (hd : 92 ≤ d.toNat) : (redWrites s k d a).map (·.1) =
    [{ dest := .warp (d.toNat - 92), val := (redPlain k (s.usrc d) (s.bl.map (s.src a))).1 }] := by
  rw [redWrites, if_neg (by omega)]; rfl
theorem redWrites_covers_ply (s : State) (k : RedKind) (d a : Reg) (hd : 88 ≤ d.toNat) (hd' : d.toNat < 92) :
    covers ((redWrites s k d a).map (·.1)) (redDest s k d a) [] := by
  have hmem := mem_redWrites_ply s k d a hd'
  refine ⟨fun y hy => ?_, fun y hy => ?_, fun x hx => ?_, fun r _ => ?_⟩
  · obtain ⟨p, hp, v, -, rfl⟩ := (hmem y).1 hy
    simp only [destExists, Bool.and_eq_true, decide_eq_true_eq]; omega
  · obtain ⟨p, hp, v, hv, rfl⟩ := (hmem y).1 hy
    rw [redDest_ply, if_pos (by omega), hv]; rfl
  · cases x with
    | ply r p =>
      rw [redDest_ply] at hx
      split at hx
      case isTrue hr =>
        obtain ⟨v, hv⟩ := Option.isSome_iff_exists.1 hx
        obtain rfl : r = d.toNat - 88 := by omega
        exact ⟨_, (hmem _).2 ⟨p, redPly_lt s k d a p hx, v, hv, rfl⟩, rfl⟩
      case isFalse => cases hx
    | warp r => rw [redDest_warp, if_neg (by omega)] at hx; cases hx
    | lane | pred => cases hx
  · rw [List.contains_nil, List.any_eq_false]
    intro y hy
    obtain ⟨p, -, v, -, rfl⟩ := (hmem y).1 hy
    exact Bool.false_ne_true
theorem redWrites_covers_warp (s : State) (k : RedKind) (d a : Reg) (hd : 92 ≤ d.toNat) (hd' : d.toNat < 108) :
    covers ((redWrites s k d a).map (·.1)) (redDest s k d a) [] := by
  rw [redWrites_warp s k d a hd]
  refine ⟨fun y hy => ?_, fun y hy => ?_, fun x hx => ?_, fun r _ => rfl⟩
  · obtain rfl := List.mem_singleton.1 hy
    simp only [destExists, decide_eq_true_eq]; omega
  · obtain rfl := List.mem_singleton.1 hy
    rw [redDest_warp, if_pos (by omega)]; rfl
  · cases x with
    | warp r =>
      rw [redDest_warp] at hx
      split at hx
      case isTrue hr =>
        obtain rfl : r = d.toNat - 92 := by omega
        exact ⟨_, List.mem_singleton.2 rfl, rfl⟩
      case isFalse => cases hx
    | ply r p => rw [redDest_ply, if_neg (by omega)] at hx; cases hx
    | lane | pred => cases hx
/-- RED into a ply or warp register writes the reduced values at once, and commits (R125, R176). -/
theorem exec_red_plain (s : State) (sw : Bool) (k : RedKind) (d a : Reg) (hd : 88 ≤ d.toNat) (hd' : d.toNat < 108)
    (ha : laneSrc a = true) : exec (.red sw k d a) s = .next (doneB (raiseFlags (orFlags ((redWrites s k d a).map (·.2)))
      (s.updCw (writeAll ((redWrites s k d a).map (·.1)))))) := by
  have hok : ([⟨0, d, redTgt d⟩, ⟨1, a, laneSrc a⟩] : List OpPos).all (·.ok) = true := by
    simp only [List.all_cons, List.all_nil, redTgt, ha, Bool.and_true, Bool.and_eq_true, decide_eq_true_eq]; omega
  exact congrArg Host.Outcome.next ((operandsOr_ok _ _ _ hok).trans (if_pos hd'))

/-! ### The obligations -/
/-- Settles O1: integer, logic and floating-point instructions are instructions on lanes; the first two kinds raise no flag. -/
theorem arithmeticResults : Obligations.ArithmeticResults := by
  refine ⟨fun s i x hx hb ho hs ht => ?_, fun s i x hx hb hl ho hs ht => ?_⟩
  · obtain ⟨hl, hf⟩ := intForm_legal_flags s i x hx
    rw [← hf]
    exact exec_lane_resultNow s i x (laneForm_of_form s i x (.inl hx)) hb hl ho hs ht
  · exact exec_lane_resultNow s i x (laneForm_of_form s i x (.inr (.inl hx))) hb hl ho hs ht
/-- Settles O2: exchange is on lanes, the rest on the uniform pipe. -/
theorem exchangeAndUniformResults : Obligations.ExchangeAndUniformResults := by
  refine ⟨fun s i x hx hb hl ho hs ht => ?_, fun s i x hx hb hl ho hs hd => exec_uni_resultNow s i x hx hb hl ho hs hd⟩
  rw [← exchForm_flags s i x hx]
  exact exec_lane_resultNow s i x (laneForm_of_form s i x (.inr (.inr hx))) hb hl ho hs ht
/-- Settles O8: the writes of the predicate cover its lanes; a scoped source leaves them outstanding. -/
theorem predicateResults : Obligations.PredicateResults := by
  intro s i x hx hb hl ho
  have he := exec_pred s i x hx
  rw [hl, operandsOr_ok _ _ _ ho, writePred] at he
  refine ⟨fun hs => ?_, fun hs => ?_⟩ <;> rw [hs] at he
  · exact ⟨_, he, write_done _ _ _ x.flags s hb (predWrites_covers x.p x.val s)⟩
  · exact ⟨_, he, pred_due x.p x.val x.flags s hb⟩
/-- Settles O10: the mask and the predicate are written together, or outstanding together. -/
theorem matchResults : Obligations.MatchResults := by
  intro s sw d a p hb hd ha
  have he := exec_match s sw d a p hd ha
  refine ⟨fun hs ht => ?_, fun hs hd' => ?_⟩ <;> rw [hs] at he
  · exact ⟨_, he, writeNowResult_withPred d _ p _ s hb ht⟩
  · exact ⟨_, he, outResult_withPred d _ p _ s hb hd'⟩
/-- Settles O11: the reduced values cover what RED leaves in each ply's register, or in the warp's. -/
theorem reductionIntoPlyOrWarp : Obligations.ReductionIntoPlyOrWarp := by
  intro s sw k d a hb hd hd' ha
  have hc : covers ((redWrites s k d a).map (·.1)) (redDest s k d a) [] := by
    rcases Nat.lt_or_ge d.toNat 92 with h | h
    · exact redWrites_covers_ply s k d a hd h
    · exact redWrites_covers_warp s k d a h hd'
  exact ⟨_, exec_red_plain s sw k d a hd hd' ha, write_doneB _ _ _ _ s hb hc⟩

end Sys2Proof.Machine
end

section
/-! Control flow: NOP, REGION, REFILL, branches, calls, software faults, JOIN and EXIT (O13 to O18). -/
namespace Sys2Proof.Machine

/-! ### NOP, REGION, REFILL (R196 to R198) -/
/-- The lanes of a warp that are vacant. -/
def Warp.vacantCount (w : Warp) : Nat := (w.lanes.filter fun x => x.st == .vacant).length
/-- The lanes that a REFILL of `a` asks for: as many as the register says, no more than are vacant, 0 for all (R196). -/
def refillCount (s : State) (a : Reg) : Nat := min (if s.usrc a = 0 then 32 else (s.usrc a).toNat) s.cw.vacantCount

theorem vacantCount_le (w : Warp) : w.vacantCount ≤ w.lanes.length := List.length_filter_le _ _
theorem vacantCount_zero (w : Warp) (hl : w.lanes.length = 32) (h : ∀ l < 32, (w.lane l).st ≠ .vacant) :
    w.vacantCount = 0 := by
  rw [Warp.vacantCount, List.length_eq_zero_iff, List.filter_eq_nil_iff]
  intro x hx
  obtain ⟨l, hl', rfl⟩ := (mem_lanes w hl x).1 hx
  simpa using h l hl'
theorem vacantCount_pos (w : Warp) (hl : w.lanes.length = 32) (l : Nat) (h : l < 32) (hv : (w.lane l).st = .vacant) :
    1 ≤ w.vacantCount :=
  List.length_pos_of_mem (List.mem_filter.2 ⟨(mem_lanes w hl _).2 ⟨l, h, rfl⟩, by simp [hv]⟩)
/-- The request that a REFILL makes. -/
def refillOf (s : State) (a : Reg) : Refill :=
  { entry := s.cur.pc + 4, cap := refillCount s a, depth := (s.cw.lane (lowLane s.cur.mask)).depth,
    order := (s.quad s.cq).nextRefill }
/-- A state in which the request of a REFILL stands. -/
def refillAsked (s : State) (a : Reg) : State :=
  (s.updQuad s.cq fun q => { q with nextRefill := q.nextRefill + 1 }).updCw fun w => { w with refill := some (refillOf s a) }

/-- REFILL asks the yard where it may and has lanes to ask for, and commits in each case. -/
theorem exec_refill (s : State) (sw : Bool) (a : Reg) (h : s.inBundle = true) (ha : uniCode a = true) :
    exec (.refill sw a) s = .next
      (if refillCount s a = 0 ∨ s.cw.refill.isSome = true ∨ s.cw.serial = true then doneB s else doneB (refillAsked s a)) := by
  have hn : (if s.usrc a != 0 ∧ (s.usrc a).toNat < (s.cw.lanes.filter fun x => x.st == .vacant).length then
      (s.usrc a).toNat else (s.cw.lanes.filter fun x => x.st == .vacant).length) = refillCount s a := by
    rw [← Warp.vacantCount]
    have hv := vacantCount_le s.cw
    rw [((inBundle_iff s).1 h).2.1] at hv
    by_cases h0 : s.usrc a = 0
    · simp only [refillCount, h0]; simp; omega
    · simp only [refillCount, h0, bne_iff_ne, ne_eq, not_false_eq_true, true_and, if_false]
      split <;> omega
  have e : exec (.refill sw a) s = execRefill sw a s := rfl
  rw [e, execRefill, operandsOr_ok _ _ _ (by simp [ha])]
  simp only [hn]
  rfl

/-- Settles O13, the count of a REFILL being the one thing to compute. -/
theorem nopRegionRefill : Obligations.NopRegionRefill := by
  unfold Obligations.NopRegionRefill
  refine ⟨fun s sw h => ⟨⟨_, rfl, done_wentOn s h⟩, ⟨_, rfl, doneB_committed s h⟩, fun a ha hv => ?_⟩,
    fun s sw a h ha hr hs ⟨l, hl, hv⟩ => ?_⟩
  · refine ⟨_, exec_refill s sw a h ha, ?_⟩
    have h0 : refillCount s a = 0 := by
      rw [refillCount, vacantCount_zero s.cw ((inBundle_iff s).1 h).2.1 hv, Nat.min_zero]
    rw [if_pos (.inl h0)]
    exact doneB_committed s h
  · have hpos : 1 ≤ refillCount s a := by
      have hc := vacantCount_pos s.cw ((inBundle_iff s).1 h).2.1 l hl hv
      have hu : s.usrc a ≠ 0 → 1 ≤ (s.usrc a).toNat := fun hne => by
        have : (s.usrc a).toNat ≠ 0 := fun hz => hne (BitVec.eq_of_toNat_eq hz)
        omega
      rw [refillCount]
      split
      · omega
      · rename_i hne; have := hu hne; omega
    refine ⟨_, refillCount s a, exec_refill s sw a h ha, hpos, rfl, ?_⟩
    rw [if_neg (by simp [hr, hs]; omega)]
    exact doneB_committed _ (inBundle_updCw _ _ (inBundle_congr s _ h rfl rfl) rfl)

/-! ### Branches (R192, R193) -/
theorem updLanes_congr (w : Warp) (m : Word) (f g : Nat → Lane → Lane) (h : ∀ l x, m.getLsbD l = true → f l x = g l x) :
    w.updLanes m f = w.updLanes m g := by
  have : (fun l x => if m.getLsbD l then f l x else x) = fun l x => if m.getLsbD l then g l x else x := by
    funext l x
    split
    · rename_i hm; exact h l x hm
    · rfl
  simp only [Warp.updLanes, this]
/-- The lanes of the bundle of which `p` holds. -/
theorem mem_bl_filter (s : State) (p : Nat → Bool) (l : Nat) :
    l ∈ s.bl.filter p ↔ l < 32 ∧ s.cur.mask.getLsbD l = true ∧ p l = true := by
  simp [State.bl, and_assoc]
/-- The lanes of a branch, as one change of its warp. -/
theorem goTo_eq (s : State) (h : s.cur.faulted = 0) (target : Nat → DWord) (f : Lane → Lane) (taken : Nat → Bool)
    (ls : List Nat) (hls : ∀ l, l ∈ ls ↔ l < 32 ∧ s.cur.mask.getLsbD l = true ∧ taken l = true) :
    goTo target f (lanesMask ls) s = s.updCw fun w => w.updLanes s.cur.mask (branchLanes s taken target f) := by
  rw [goTo, live_eq s h]
  refine congrArg s.updCw (funext fun w => updLanes_congr _ _ _ _ fun l x hm => ?_)
  have hl := mask_lt _ _ hm
  have : (lanesMask ls).getLsbD l = taken l := by
    rw [lanesMask_bits _ _ hl, Bool.eq_iff_iff, List.contains_iff_mem, hls]
    simp [hl, hm]
  simp only [this, branchLanes]
theorem branchLanes_preds (s : State) (taken : Nat → Bool) (target : Nat → DWord) (f : Lane → Lane)
    (hf : ∀ x, (f x).preds = x.preds) (l : Nat) (x : Lane) : (branchLanes s taken target f l x).preds = x.preds := by
  rw [branchLanes]
  split
  · exact hf x
  · rfl
/-- A BRANCH: its lanes go to their addresses, and no register changes. -/
theorem branch_takes (s : State) (h : s.inBundle = true) (target : Nat → DWord) (f : Lane → Lane)
    (hf : ∀ x, (f x).preds = x.preds) (taken : Nat → Bool) (ls : List Nat)
    (hls : ∀ l, l ∈ ls ↔ l < 32 ∧ s.cur.mask.getLsbD l = true ∧ taken l = true) :
    lanesTake (branchLanes s taken target f) (fun _ => none) [] s (doneBranch (goTo target f (lanesMask ls) s)) := by
  rw [goTo_eq s ((inBundle_iff s).1 h).2.2.1 target f taken ls hls]
  exact lanes_end _ _ _ [] s h (branchLanes_preds s taken target f hf) (by simp) covers_nil
/-- A CALL: the same, and the lanes that take it have their link. -/
theorem call_takes (s : State) (h : s.inBundle = true) (target : Nat → DWord) (f : Lane → Lane)
    (hf : ∀ x, (f x).preds = x.preds) (taken : Nat → Bool) (ls : List Nat)
    (hls : ∀ l, l ∈ ls ↔ l < 32 ∧ s.cur.mask.getLsbD l = true ∧ taken l = true) :
    lanesTake (branchLanes s taken target f) (linkDest s taken) (if ls = [] then [] else [87]) s
      (doneBranch (link ls (goTo target f (lanesMask ls) s))) := by
  have e := goTo_eq s ((inBundle_iff s).1 h).2.2.1 target f taken ls hls
  have hl : link ls (goTo target f (lanesMask ls) s) = s.updCw fun w =>
      writeAll (ls.map fun l => { dest := .lane 87 l, val := (s.cur.pc + 4).setWidth 32 })
        (w.updLanes s.cur.mask (branchLanes s taken target f)) := by
    rw [e, link, updCw_updCw]; rfl
  rw [hl]
  refine lanes_end _ _ _ _ s h (branchLanes_preds s taken target f hf) (fun y hy => ?_) (link_covers s ls taken hls)
  obtain ⟨l, -, rfl⟩ := List.mem_map.1 hy
  exact ⟨_, _, rfl⟩
theorem mem_takenLanes (s : State) (neg : Bool) (p : PredNo) (l : Nat) :
    l ∈ takenLanes s neg p ↔ l < 32 ∧ s.cur.mask.getLsbD l = true ∧ guardOf s neg p l = true := mem_bl_filter s _ l
/-- CALL where no lane that takes it is at depth 63 and the link register can have its row. -/
theorem execCall_shallow (s : State) (sw neg : Bool) (p : PredNo) (disp : BitVec 20) (hr : rowsFit s [87] = true)
    (hd : ∀ l < 32, s.cur.mask.getLsbD l = true → guardOf s neg p l = true → (s.cw.lane l).depth ≠ 63) :
    exec (.call sw neg p disp) s = .next (doneBranch (link (takenLanes s neg p)
      (goTo (fun _ => dispTarget s disp) (fun x => { x with depth := x.depth + 1 }) (lanesMask (takenLanes s neg p)) s))) := by
  have hne : ∀ l ∈ takenLanes s neg p, (s.cw.lane l).depth ≠ 63 := fun l hl => by
    obtain ⟨h1, h2, h3⟩ := (mem_takenLanes s neg p l).1 hl
    exact hd l h1 h2 h3
  have hbad : (takenLanes s neg p).filter (fun l => (s.cw.lane l).depth == 63) = [] :=
    List.filter_eq_nil_iff.2 fun l hl => by simpa using hne l hl
  have hgood : (takenLanes s neg p).filter (fun l => (s.cw.lane l).depth != 63) = takenLanes s neg p :=
    List.filter_eq_self.2 fun l hl => by simpa using hne l hl
  have e : exec (.call sw neg p disp) s = execCall sw neg p disp s := rfl
  rw [e, execCall]
  simp only [hbad, hgood, List.map_nil, raiseLanes, hr, Bool.not_true, Bool.and_false, Bool.false_eq_true, if_false]

/-- Settles O14: each branch is one change of its lanes, CALL's with the link. -/
theorem branches : Obligations.Branches := by
  unfold Obligations.Branches
  intro s sw neg p disp h
  refine ⟨⟨_, rfl, branch_takes s h _ _ (fun _ => rfl) _ _ (mem_takenLanes s neg p)⟩,
    ⟨_, rfl, branch_takes s h _ (fun x => { x with yld := true }) (fun _ => rfl) _ _ (mem_takenLanes s neg p)⟩, fun hd hr => ?_⟩
  exact ⟨_, execCall_shallow s sw neg p disp hr hd, call_takes s h _ (fun x => { x with depth := x.depth + 1 }) (fun _ => rfl) _ _
    (mem_takenLanes s neg p)⟩

/-- A register branch all of whose lanes may take it. -/
theorem regBranch_all (s : State) (a : Reg) (deep : Lane → Bool) (f : Lane → Lane) (lk : Bool) (ha : laneTgt a = true)
    (hal : ∀ l < 32, s.cur.mask.getLsbD l = true → s.src a l &&& 3 = 0)
    (hd : ∀ l < 32, s.cur.mask.getLsbD l = true → deep (s.cw.lane l) = false) (hr : lk = true → rowsFit s [87] = true) :
    regBranch a deep f lk s = doneBranch (if lk then linkFrom a s.bl (goTo (regTarget s a) f (lanesMask s.bl) s)
      else goTo (regTarget s a) f (lanesMask s.bl) s) := by
  have hm : ∀ l ∈ s.bl, l < 32 ∧ s.cur.mask.getLsbD l = true := fun l hl => (mem_maskLanes _ _).1 hl
  have h1 : s.bl.filter (fun l => s.src a l &&& 3 != 0) = [] :=
    List.filter_eq_nil_iff.2 fun l hl => by rw [hal l (hm l hl).1 (hm l hl).2]; simp
  have h2 : s.bl.filter (fun l => s.src a l &&& 3 == 0 && deep (s.cw.lane l)) = [] :=
    List.filter_eq_nil_iff.2 fun l hl => by simp [hd l (hm l hl).1 (hm l hl).2]
  have h3 : s.bl.filter (fun l => s.src a l &&& 3 == 0 && !deep (s.cw.lane l)) = s.bl :=
    List.filter_eq_self.2 fun l hl => by
      rw [hal l (hm l hl).1 (hm l hl).2, hd l (hm l hl).1 (hm l hl).2]; rfl
  have h4 : (lk && !s.bl.isEmpty && !rowsFit s [87]) = false := by
    cases lk
    · rfl
    · simp [hr rfl]
  have h5 : s.bl.filter (fun l => ([] : List Nat).contains l || ([] : List Nat).contains l) = [] := by simp
  rw [regBranch, operandsOr_ok _ _ _ (by simp [ha])]
  simp only [h1, h2, h3, h4, h5, List.map_nil, raiseLanes, Bool.false_eq_true, if_false]
theorem mem_bl (s : State) (l : Nat) : l ∈ s.bl ↔ l < 32 ∧ s.cur.mask.getLsbD l = true ∧ (fun _ : Nat => true) l = true := by
  simp [State.bl]
theorem bl_cons (s : State) (h : s.inBundle = true) : s.bl ≠ [] := by
  obtain ⟨h1, h2⟩ := lowLane_mem s.cur.mask ((inBundle_iff s).1 h).2.2.2
  exact List.ne_nil_of_mem ((mem_maskLanes _ _).2 ⟨h1, h2⟩)
/-- The handler bit after a RET. -/
theorem leaveHandler_eq (x : Lane) :
    leaveHandler x = { x with handler := x.handler && !decide (x.depth.toNat < x.entryDepth.toNat) } := by
  obtain ⟨pc, depth, yld, region, retired, st, preds, mask, handler, entry, task, id, en, ctr⟩ := x
  cases handler <;> by_cases hc : depth.toNat < entry.toNat <;> simp [leaveHandler, hc]

theorem retireIssue_eq (s : State) (h : s.cur.faulted = 0) :
    retireIssue s = s.updCw fun w => { w with retired := w.retired + 1 } := if_pos h
/-- The change that a call makes to its warp when its link is outstanding (R49). -/
def callDue (o : Out) (m : Word) (g : Nat → Lane → Lane) (w : Warp) : Warp :=
  { w.updLanes m g with
    outs := (w.outs.map fun p => { p with writes := p.writes.filter fun x => o.writes.all fun y => x.dest != y.dest }) ++ [o]
    nextId := o.id + 1, mapped := w.mapped ||| (1#88 <<< 87), retired := w.retired + 1 }
theorem callDue_lane (o : Out) (m : Word) (g : Nat → Lane → Lane) (w : Warp) (l : Nat) :
    (callDue o m g w).lane l = (w.updLanes m g).lane l := rfl
theorem callDue_reg (o : Out) (m : Word) (g : Nat → Lane → Lane) (w : Warp) (x : Dest) :
    regAt (callDue o m g w) x = regAt (w.updLanes m g) x := by cases x <;> rfl
/-- The outstanding link of a call of all lanes of the bundle. -/
def linkOut (s : State) : Out :=
  { Out.blank (freshId s) (lanesMask s.bl) 87 false with
    writes := s.bl.map fun l => { dest := .lane 87 l, val := (s.cur.pc + 4).setWidth 32 } }
theorem linkFrom_scoped (s : State) (h : s.inBundle = true) (a : Reg) (ha : scopedSrc a = true) (target : Nat → DWord)
    (f : Lane → Lane) : doneBranch (linkFrom a s.bl (goTo target f (lanesMask s.bl) s)) =
      s.updCw (callDue (linkOut s) s.cur.mask (branchLanes s (fun _ => true) target f)) := by
  obtain ⟨h1, h2, h3, h4⟩ := (inBundle_iff s).1 h
  rw [goTo_eq s h3 target f (fun _ => true) s.bl (mem_bl s)]
  have hne : s.bl.isEmpty = false := by rw [List.isEmpty_eq_false_iff]; exact bl_cons s h
  have hid : freshId (s.updCw fun w => w.updLanes s.cur.mask (branchLanes s (fun _ => true) target f)) = freshId s := by
    rw [freshId, updCw_cw s _ h1]; rfl
  rw [linkFrom, if_pos (by simp [ha, hne]), hid, doneBranch, retireIssue_eq _ (by exact h3)]
  simp only [mapRows, addOut, updCw_updCw, dropAll_eq]
  rfl
/-- A register branch's call with an outstanding link: what O15 says of it. -/
theorem callDue_spec (s : State) (h : s.inBundle = true) (target : Nat → DWord) (f : Lane → Lane)
    (hf : ∀ x, (f x).preds = x.preds) (t : State)
    (ht : t = s.updCw (callDue (linkOut s) s.cur.mask (branchLanes s (fun _ => true) target f))) :
    onlyWarp s t ∧
    (∃ o, t.cw.outs = (s.cw.outs.map fun o =>
        { o with writes := o.writes.filter fun x => (linkDest s (fun _ => true) x.dest).isNone }) ++ [o] ∧
      o.id = freshId s ∧ o.mask = s.cur.mask ∧ ∀ x, pendingWrite [o] x = linkDest s (fun _ => true) x) ∧
    (∀ x, destExists x = true → regAt t.cw x = regAt s.cw x) ∧ rowsBecome [87] s t ∧
    ∀ l, l < 32 → t.cw.lane l =
      if s.cur.mask.getLsbD l then branchLanes s (fun _ => true) target f l (s.cw.lane l) else s.cw.lane l := by
  obtain ⟨h1, h2, h3, h4⟩ := (inBundle_iff s).1 h
  have hcov := link_covers s s.bl (fun _ => true) (mem_bl s)
  have hnorm : ∀ y ∈ (linkOut s).writes, normVal y.dest y.val = y.val := fun y hy => by
    obtain ⟨l, -, rfl⟩ := List.mem_map.1 hy
    rfl
  have hfind := covers_find _ _ _ hcov hnorm
  have hall : ∀ x, ((linkOut s).writes.all fun y => x != y.dest) = (linkDest s (fun _ => true) x).isNone := fun x => by
    rw [← hfind x, Bool.eq_iff_iff, List.all_eq_true, Option.isNone_iff_eq_none, Option.map_eq_none_iff, List.find?_eq_none]
    exact ⟨fun hx y hy he => bne_iff_ne.1 (hx y hy) (eq_of_beq he).symm,
      fun hx y hy => bne_iff_ne.2 fun he => hx y hy (by simp [he])⟩
  have hcw := updCw_cw s (callDue (linkOut s) s.cur.mask (branchLanes s (fun _ => true) target f)) h1
  subst ht
  refine ⟨onlyWarp_upd s _ _, ⟨linkOut s, ?_, rfl, lanesMask_maskLanes _, hfind⟩, fun x hx => ?_, fun r hr => ?_, fun l hl => ?_⟩
  · rw [hcw]
    simp only [callDue, hall]
  · rw [hcw, callDue_reg, updLanes_reg _ _ _ x h2 (branchLanes_preds s _ target f hf) hx]
  · rw [hcw]
    exact mapRows_bits [87] s.cw.mapped r hr
  · rw [hcw, callDue_lane, updLanes_lane _ _ _ l (by omega)]

/-- Settles O15: each register branch is one change of its lanes; CALLI's link is outstanding for a scoped target. -/
theorem registerBranches : Obligations.RegisterBranches := by
  unfold Obligations.RegisterBranches
  intro s sw a h ha hal
  have hf : s.cur.faulted = 0 := ((inBundle_iff s).1 h).2.2.1
  refine ⟨?_, fun hd hr => ⟨fun hs => ?_, fun hs => ?_⟩, fun hd => ?_⟩
  · refine ⟨_, rfl, ?_⟩
    rw [regBranch_all s a _ _ false ha hal (fun _ _ _ => rfl) (by simp)]
    exact branch_takes s h _ _ (fun _ => rfl) _ _ (mem_bl s)
  · refine ⟨_, rfl, ?_⟩
    rw [regBranch_all s a _ _ true ha hal (fun l hl hm => by simpa using hd l hl hm) (fun _ => hr)]
    have hc := call_takes s h (regTarget s a) (fun x => { x with depth := x.depth + 1 }) (fun _ => rfl) _ _ (mem_bl s)
    rw [if_neg (bl_cons s h)] at hc
    simp only [linkFrom, hs, Bool.false_and, Bool.false_eq_true, if_false, if_true]
    exact hc
  · refine ⟨_, rfl, ?_⟩
    rw [regBranch_all s a _ _ true ha hal (fun l hl hm => by simpa using hd l hl hm) (fun _ => hr)]
    exact callDue_spec s h (regTarget s a) (fun x => { x with depth := x.depth + 1 }) (fun _ => rfl) _
      (linkFrom_scoped s h a hs _ _)
  · refine ⟨_, rfl, ?_⟩
    rw [regBranch_all s a _ _ false ha hal (fun l hl hm => by simpa using hd l hl hm) (by simp)]
    simp only [leaveHandler_eq]
    exact branch_takes s h _ (fun x => { x with
      depth := x.depth - 1, handler := x.handler && !decide ((x.depth - 1).toNat < x.entryDepth.toNat) })
      (fun _ => rfl) _ _ (mem_bl s)

/-! ### Faults of branches, and software faults (R192, R193, R199, R240) -/
theorem mapIdxFrom_self {α : Type} (f : Nat → α → α) (h : ∀ l x, f l x = x) (i : Nat) (xs : List α) :
    mapIdxFrom f i xs = xs := by
  induction xs generalizing i with
  | nil => rfl
  | cons x t ih => rw [mapIdxFrom, h, ih]
theorem updLanes_none (w : Warp) (f : Nat → Lane → Lane) : w.updLanes 0 f = w := by
  have : mapIdxFrom (fun l x => if (0 : Word).getLsbD l then f l x else x) 0 w.lanes = w.lanes :=
    mapIdxFrom_self _ (fun l x => by simp) _ _
  simp only [Warp.updLanes, this]
theorem bl_eq_cons (s : State) (h : s.inBundle = true) : ∃ t, s.bl = lowLane s.cur.mask :: t := by
  have hne : maskLanes s.cur.mask ≠ [] := bl_cons s h
  cases hx : maskLanes s.cur.mask with
  | nil => exact absurd hx hne
  | cons x t => exact ⟨t, by simp [State.bl, lowLane, hx]⟩
/-- A fault of every lane of the bundle is one of the bundle, with the code and FADDR of the lowest lane (R182). -/
theorem raiseLanes_bundle (s : State) (h : s.inBundle = true) (g : Nat → LaneFault) (hg : ∀ l, (g l).lane = l) :
    raiseLanes (s.bl.map g) s = raiseMask s.cur.mask (g (lowLane s.cur.mask)).code (g (lowLane s.cur.mask)).detail
      (g (lowLane s.cur.mask)).faddr s := by
  have hm : (s.bl.map g).map (·.lane) = s.bl := by
    rw [List.map_map]
    exact (List.map_congr_left fun l _ => hg l).trans (List.map_id _)
  obtain ⟨t, ht⟩ := bl_eq_cons s h
  have hx : s.bl.map g = g (lowLane s.cur.mask) :: t.map g := by rw [ht]; rfl
  have : raiseLanes (s.bl.map g) s = raiseMask (lanesMask ((s.bl.map g).map (·.lane))) (g (lowLane s.cur.mask)).code
      (g (lowLane s.cur.mask)).detail (g (lowLane s.cur.mask)).faddr s := by rw [hx]; rfl
  rw [this, hm, State.bl, lanesMask_maskLanes]
/-- After a fault of the whole bundle a branch has no lane left to move, and the issue does not count. -/
theorem raised_end (s : State) (h : s.inBundle = true) (code : Byte) (detail : BitVec 17) (faddr : DWord)
    (target : Nat → DWord) (f : Lane → Lane) (m : Word) :
    doneBranch (goTo target f m (raiseMask s.cur.mask code detail faddr s)) = raiseMask s.cur.mask code detail faddr s := by
  obtain ⟨h1, h2, h3, h4⟩ := (inBundle_iff s).1 h
  have hf : (raiseMask s.cur.mask code detail faddr s).cur.faulted = s.cur.mask := by
    show s.cur.faulted ||| s.cur.mask = s.cur.mask
    rw [h3]; simp
  have hl : (raiseMask s.cur.mask code detail faddr s).live = 0 := by
    rw [State.live, hf]
    show s.cur.mask &&& ~~~ s.cur.mask = 0
    simp
  have hg : goTo target f m (raiseMask s.cur.mask code detail faddr s) = raiseMask s.cur.mask code detail faddr s := by
    rw [goTo, hl]
    simp only [updLanes_none]
    exact updCw_id _
  rw [hg, doneBranch, retireIssue, if_neg (by rw [hf]; exact h4)]
/-- CALL of a bundle all of whose lanes are at depth 63. -/
theorem execCall_deep (s : State) (h : s.inBundle = true) (sw neg : Bool) (p : PredNo) (disp : BitVec 20)
    (hd : ∀ l < 32, s.cur.mask.getLsbD l = true → guardOf s neg p l = true ∧ (s.cw.lane l).depth = 63) :
    exec (.call sw neg p disp) s = .next (raiseMask s.cur.mask 0x06 63 s.cur.pc s) := by
  have hm : ∀ l ∈ s.bl, guardOf s neg p l = true ∧ (s.cw.lane l).depth = 63 := fun l hl => by
    obtain ⟨h1, h2⟩ := (mem_maskLanes _ _).1 hl
    exact hd l h1 h2
  have ht : takenLanes s neg p = s.bl := List.filter_eq_self.2 fun l hl => (hm l hl).1
  have hbad : s.bl.filter (fun l => (s.cw.lane l).depth == 63) = s.bl :=
    List.filter_eq_self.2 fun l hl => by simp [(hm l hl).2]
  have hgood : s.bl.filter (fun l => (s.cw.lane l).depth != 63) = [] :=
    List.filter_eq_nil_iff.2 fun l hl => by simp [(hm l hl).2]
  have hlow := lowLane_mem s.cur.mask ((inBundle_iff s).1 h).2.2.2
  have e : exec (.call sw neg p disp) s = execCall sw neg p disp s := rfl
  rw [e, execCall]
  simp only [ht, hbad, hgood, List.isEmpty_nil, Bool.not_true, Bool.false_and, Bool.false_eq_true, if_false]
  rw [raiseLanes_bundle s h (depthFault s) fun _ => rfl]
  have hdet : (depthFault s (lowLane s.cur.mask)).detail = 63 := by
    simp only [depthFault, (hd _ hlow.1 hlow.2).2]; rfl
  rw [hdet, show link [] = fun u => u from funext fun u => writeAll_nil u]
  exact congrArg Host.Outcome.next (raised_end s h _ _ _ _ _ _)
/-- A register branch all of whose lanes fault, as `g` tells. -/
theorem regBranch_faults (s : State) (h : s.inBundle = true) (a : Reg) (deep : Lane → Bool) (f : Lane → Lane) (lk : Bool)
    (ha : laneTgt a = true)
    (hbad : ∀ l < 32, s.cur.mask.getLsbD l = true → s.src a l &&& 3 ≠ 0 ∨ deep (s.cw.lane l) = true) :
    regBranch a deep f lk s =
      if s.src a (lowLane s.cur.mask) &&& 3 ≠ 0 then raiseMask s.cur.mask 0x03 0 (regTarget s a (lowLane s.cur.mask)) s
      else raiseMask s.cur.mask 0x06 ((s.cw.lane (lowLane s.cur.mask)).depth.setWidth 17) s.cur.pc s := by
  have hm : ∀ l ∈ s.bl, s.src a l &&& 3 ≠ 0 ∨ deep (s.cw.lane l) = true := fun l hl => by
    obtain ⟨h1, h2⟩ := (mem_maskLanes _ _).1 hl
    exact hbad l h1 h2
  have hgood : s.bl.filter (fun l => s.src a l &&& 3 == 0 && !deep (s.cw.lane l)) = [] :=
    List.filter_eq_nil_iff.2 fun l hl => by
      have hx := hm l hl
      rcases hx with hx | hx
      · rw [beq_false_of_ne hx]; simp
      · simp [hx]
  have hal : ∀ l ∈ s.bl, (s.bl.filter fun l => s.src a l &&& 3 != 0).contains l = (s.src a l &&& 3 != 0) := fun l hl => by
    rw [Bool.eq_iff_iff, List.contains_iff_mem, List.mem_filter]
    simp [hl]
  have hall : s.bl.filter (fun l => (s.bl.filter fun l => s.src a l &&& 3 != 0).contains l ||
      (s.bl.filter fun l => s.src a l &&& 3 == 0 && deep (s.cw.lane l)).contains l) = s.bl :=
    List.filter_eq_self.2 fun l hl => by
      rw [hal l hl]
      by_cases hx : s.src a l &&& 3 = 0
      · have hy := (hm l hl).resolve_left (not_not.2 hx)
        have hi : l ∈ s.bl.filter fun l => s.src a l &&& 3 == 0 && deep (s.cw.lane l) :=
          List.mem_filter.2 ⟨hl, by rw [hx, hy]; rfl⟩
        rw [List.contains_iff_mem.2 hi, Bool.or_true]
      · rw [bne_iff_ne.2 hx, Bool.true_or]
  have hmap : s.bl.map (fun l => if (s.bl.filter fun l => s.src a l &&& 3 != 0).contains l = true then
      (⟨l, 0x03, 0, regTarget s a l⟩ : LaneFault) else depthFault s l) =
      s.bl.map fun l => if s.src a l &&& 3 ≠ 0 then (⟨l, 0x03, 0, regTarget s a l⟩ : LaneFault) else depthFault s l :=
    List.map_congr_left fun l hl => by rw [hal l hl]; simp
  rw [regBranch, operandsOr_ok _ _ _ (by simp [ha])]
  simp only [hgood, hall, hmap, List.isEmpty_nil, Bool.not_true, Bool.and_false, Bool.false_and, Bool.false_eq_true, if_false]
  rw [raiseLanes_bundle s h _ fun l => by split <;> rfl]
  have hlk : ∀ u : State, (if lk = true then linkFrom a [] u else u) = u := fun u => by
    cases lk
    · rfl
    · simp only [linkFrom, List.isEmpty_nil, Bool.not_true, Bool.and_false, Bool.false_eq_true, if_false, if_true]
      exact writeAll_nil u
  simp only [hlk, raised_end s h]
  split <;> rfl
/-- TRAP and BPT: the instruction is complete, and then its lanes fault. -/
theorem softTrap_taken (s : State) (h : s.inBundle = true) (fcode : Byte) (code : BitVec 17) :
    faultTaken s.cur.mask fcode code s.cur.pc (done s) (softTrap fcode code s) := by
  have hd : (done s).inBundle = true := by
    rw [done_eq s ((inBundle_iff s).1 h).2.2.1]
    exact inBundle_updCw s _ h (updLanes_length _ _ _)
  have hm : (done s).cur.mask = s.cur.mask := by rw [done_eq s ((inBundle_iff s).1 h).2.2.1]; rfl
  have := raiseMask_taken (done s).cur.mask fcode code s.cur.pc (done s) hd
  rw [hm] at this
  rw [softTrap, raiseBundle, hm]
  exact this

/-- Settles O16: the fault of every lane is one record of the bundle, and nothing is left to move. -/
theorem controlFaults : Obligations.ControlFaults := by
  unfold Obligations.ControlFaults
  refine ⟨fun s sw h => ⟨fun neg p disp hd => ?_, fun a ha => ⟨fun hd => ?_, fun hd => ?_, fun hal => ?_⟩⟩,
    fun s sw code h => ⟨⟨_, _, done_wentOn s h, rfl, softTrap_taken s h _ _⟩, ⟨_, _, done_wentOn s h, rfl, softTrap_taken s h _ _⟩⟩⟩
  · exact ⟨_, execCall_deep s h sw neg p disp hd, raiseMask_taken _ _ _ _ s h⟩
  · have hlow := lowLane_mem s.cur.mask ((inBundle_iff s).1 h).2.2.2
    refine ⟨_, rfl, ?_⟩
    rw [regBranch_faults s h a _ _ false ha fun l hl hm => .inr (by simp [(hd l hl hm).2]), if_neg (not_not.2 (hd _ hlow.1 hlow.2).1),
      (hd _ hlow.1 hlow.2).2]
    exact raiseMask_taken _ _ _ _ s h
  · have hlow := lowLane_mem s.cur.mask ((inBundle_iff s).1 h).2.2.2
    refine ⟨_, rfl, ?_⟩
    rw [regBranch_faults s h a _ _ true ha fun l hl hm => .inr (by simp [(hd l hl hm).2]), if_neg (not_not.2 (hd _ hlow.1 hlow.2).1),
      (hd _ hlow.1 hlow.2).2]
    exact raiseMask_taken _ _ _ _ s h
  · have hlow := lowLane_mem s.cur.mask ((inBundle_iff s).1 h).2.2.2
    have key : ∀ deep f lk, faultTaken s.cur.mask 0x03 0 (regTarget s a (lowLane s.cur.mask)) s (regBranch a deep f lk s) :=
      fun deep f lk => by
        rw [regBranch_faults s h a deep f lk ha fun l hl hm => .inl (hal l hl hm), if_pos (hal _ hlow.1 hlow.2)]
        exact raiseMask_taken _ _ _ _ s h
    intro i hi
    simp only [List.mem_cons, List.not_mem_nil, or_false] at hi
    rcases hi with rfl | rfl | rfl
    · exact ⟨_, rfl, key _ _ _⟩
    · exact ⟨_, rfl, key _ _ _⟩
    · exact ⟨_, rfl, key _ _ _⟩

/-! ### JOIN and EXIT (R194, R195, R113) -/
theorem lanesReleased_congr (f g : Nat → Lane) (w : Warp) (h : ∀ l < 32, f l = g l) (hr : lanesReleased f w) :
    lanesReleased g w := by
  have hj : ∀ p, joinMet f p ↔ joinMet g p := fun p => by
    simp only [joinMet]
    constructor <;> intro hm k hk
    · rw [← h k hk]; intro h1 h2 j hj; rw [← h j hj]; exact hm k hk h1 h2 j hj
    · rw [h k hk]; intro h1 h2 j hj; rw [h j hj]; exact hm k hk h1 h2 j hj
  intro l hl
  have := hr l hl
  rw [h l hl, hj] at this
  exact this
theorem map_lane (w : Warp) (hl : w.lanes.length = 32) (f : Lane → Lane) (l : Nat) (h : l < 32) :
    ({ w with lanes := w.lanes.map f } : Warp).lane l = f (w.lane l) := by
  have hg := lane_get w hl l h
  simp only [Warp.lane, List.getD_eq_getElem?_getD, List.getElem?_map] at hg ⊢
  rw [hg]; rfl
/-- The warp of a bundle that has issued JOIN, before the release. -/
def joinWarp (s : State) (a : Reg) (w : Warp) : Warp :=
  let u := w.updLanes s.cur.mask fun l x => { x with st := .waitingJoin, joinMask := if a = 124 then 0xFFFFFFFF else s.src a l }
  { u with lanes := u.lanes.map fun x => { x with yld := false }, retired := u.retired + 1 }
theorem joinWarp_lane (s : State) (a : Reg) (hl : s.cw.lanes.length = 32) (l : Nat) (h : l < 32) :
    (joinWarp s a s.cw).lane l = joinLane s a l := by
  rw [joinLane]
  refine (map_lane (s.cw.updLanes s.cur.mask fun l x =>
    { x with st := .waitingJoin, joinMask := if a = 124 then 0xFFFFFFFF else s.src a l }) (by simp [hl]) _ l h).trans ?_
  rw [updLanes_lane _ _ _ _ (by omega)]
  split <;> rfl
theorem exec_join (s : State) (h : s.inBundle = true) (sw : Bool) (a : Reg) (ha : laneTgt a = true) :
    exec (.join sw a) s = .next (s.updCw fun w => joinFree (joinWarp s a w)) := by
  have e : exec (.join sw a) s = execJoin sw a s := rfl
  rw [e, execJoin, operandsOr_ok _ _ _ (by simp [ha]), joinRelease_eq,
    retireIssue_eq _ (by exact ((inBundle_iff s).1 h).2.2.1), updCw_updCw]
  exact congrArg Host.Outcome.next (updCw_updCw s _ joinFree)

/-- Settles O17: the release of the JOINs of the warp whose lanes wait. -/
theorem joinWaitsAndReleases : Obligations.JoinWaitsAndReleases := by
  unfold Obligations.JoinWaitsAndReleases
  intro s sw a h ha
  obtain ⟨h1, h2, h3, h4⟩ := (inBundle_iff s).1 h
  have hcw := updCw_cw s (fun w => joinFree (joinWarp s a w)) h1
  refine ⟨_, exec_join s h sw a ha, ⟨onlyWarp_upd s _ _, sameMemory_upd s _ s.cur, ?_, ?_⟩, ?_⟩
  · rw [hcw]; rfl
  · rw [hcw]; rfl
  · rw [hcw]
    exact lanesReleased_congr _ _ _ (joinWarp_lane s a h2)
      (joinFree_released _ (by simp [joinWarp, h2]))

/-- The warp of a bundle that has issued EXIT, before the release: the issue is over, and its lanes have left. -/
def exitWarp (s : State) (w : Warp) : Warp :=
  (Warp.boundary s.cur.mask (endIssue s.cur.mask s.cur.pc w)).updLanes s.cur.mask fun _ x =>
    if s.cw.serial then { x with st := .serialWaiting, handler := false } else x.vacate
theorem exitWarp_length (s : State) (w : Warp) : (exitWarp s w).lanes.length = w.lanes.length := by
  simp [exitWarp, Warp.boundary, endIssue]
/-- A lane at the end of a committing issue. -/
theorem endB_lane (m : Word) (pc : DWord) (w : Warp) (l : Nat) (hl : l < w.lanes.length) :
    (Warp.boundary m (endIssue m pc w)).lane l = if m.getLsbD l then
      { w.lane l with pc := pc + 4, region := pc + 4, regionRetired := w.retired + 1 } else w.lane l := by
  have hl' : l < (endIssue m pc w).lanes.length := by simpa [endIssue] using hl
  rw [boundary_lane _ _ _ hl', endIssue_lane _ _ _ _ hl]
  by_cases hm : m.getLsbD l = true
  · simp only [if_pos hm]; rfl
  · simp only [if_neg hm]
theorem exitWarp_lane (s : State) (hl : s.cw.lanes.length = 32) (l : Nat) (h : l < 32) :
    (exitWarp s s.cw).lane l = exitLane s l := by
  have hlen : l < (Warp.boundary s.cur.mask (endIssue s.cur.mask s.cur.pc s.cw)).lanes.length := by
    simp [Warp.boundary, endIssue]; omega
  rw [exitWarp, updLanes_lane _ _ _ _ hlen, endB_lane _ _ _ _ (by omega), exitLane]
  by_cases hm : s.cur.mask.getLsbD l = true
  · simp only [if_pos hm]
    split <;> rfl
  · simp only [if_neg hm]
/-- EXIT before what follows from the change of the lanes (R315 apart). -/
theorem exec_exit (s : State) (h : s.inBundle = true) (sw : Bool)
    (ht : ∀ l < 32, s.cur.mask.getLsbD l = true → (s.cw.lane l).isTask = false) :
    exec (.exit sw) s = .next (afterLanes s.cur.wk (s.updCw (exitWarp s))) := by
  obtain ⟨h1, h2, h3, h4⟩ := (inBundle_iff s).1 h
  have e : exec (.exit sw) s = .next (afterLanes s.cur.wk (if s.cw.serial then
      (doneB s).updCw fun w => w.updLanes s.cur.mask fun _ x => { x with st := .serialWaiting, handler := false }
    else vacateLanes s.cur.wk s.cur.mask (fun _ => .no) (doneB s))) := rfl
  have hcw := updCw_cw s (fun w => Warp.boundary s.cur.mask (endIssue s.cur.mask s.cur.pc w)) h1
  rw [e, doneB_eq s h]
  refine congrArg (fun u => Host.Outcome.next (afterLanes s.cur.wk u)) ?_
  by_cases hs : s.cw.serial = true
  · rw [if_pos hs, updCw_updCw]
    refine congrArg s.updCw (funext fun w => ?_)
    simp only [exitWarp, hs, if_true]
  · rw [if_neg hs, vacateLanes_plain]
    · refine (updCw_updCw s _ fun w => w.updLanes s.cur.mask fun _ x => x.vacate).trans (congrArg s.updCw (funext fun w => ?_))
      simp only [exitWarp, hs, Bool.false_eq_true, if_false]
    · intro l hl hm
      have he : ((s.updCw fun w => Warp.boundary s.cur.mask (endIssue s.cur.mask s.cur.pc w)).warp s.cur.wk).lane l =
          (Warp.boundary s.cur.mask (endIssue s.cur.mask s.cur.pc s.cw)).lane l := congrArg (fun w => w.lane l) hcw
      rw [he, endB_lane _ _ _ _ (by omega), if_pos hm]
      exact ht l hl hm
/-- The notes of R248 are all that a committing issue changes of the results on the way. -/
theorem exitWarp_rest (s : State) (w : Warp) : exitWarp s w =
    { w with lanes := (exitWarp s w).lanes, outs := (exitWarp s w).outs, retired := w.retired + 1 } := rfl
theorem exitWarp_outs (s : State) (w : Warp) :
    (exitWarp s w).outs.map (fun o => { o with kept := 0 }) = w.outs.map fun o => { o with kept := 0 } := by
  show (w.outs.map _).map _ = _
  rw [List.map_map]; rfl
theorem exitLane_other (s : State) (l : Nat) (h : s.cur.mask.getLsbD l = false) : exitLane s l = s.cw.lane l := by
  simp [exitLane, h]

/-! ### Retirement (R113, R136) -/
/-- The warp of a bundle whose EXIT leaves no lane. -/
def retiredWarp (s : State) (w : Warp) : Warp := { joinFree (exitWarp s w) with retiredW := true, parks := [] }
theorem joinExit_rest (s : State) (w : Warp) : joinFree (exitWarp s w) =
    { w with lanes := (joinFree (exitWarp s w)).lanes, outs := (exitWarp s w).outs, retired := w.retired + 1 } := rfl
theorem retiredWarp_rest (s : State) (w : Warp) : retiredWarp s w = { w with
    lanes := (joinFree (exitWarp s w)).lanes, outs := (exitWarp s w).outs, retired := w.retired + 1, retiredW := true,
    parks := [] } := by rw [retiredWarp, joinExit_rest]
theorem retiredWarp_lane (s : State) (w : Warp) (l : Nat) :
    (retiredWarp s w).lane l = (joinFree (exitWarp s w)).lane l := rfl
theorem exitLane_vacant (s : State) (hs : s.cw.serial = false)
    (hv : ∀ l < 32, s.cur.mask.getLsbD l = false → (s.cw.lane l).st = .vacant) (l : Nat) (hl : l < 32) :
    (exitLane s l).st = .vacant := by
  rw [exitLane]
  by_cases hm : s.cur.mask.getLsbD l = true
  · simp [hm, hs]
  · simp only [if_neg hm]; exact hv l hl (by simpa using hm)
theorem joinFree_exit (s : State) (h2 : s.cw.lanes.length = 32) (hv : ∀ l < 32, (exitLane s l).st = .vacant)
    (l : Nat) (hl : l < 32) : (joinFree (exitWarp s s.cw)).lane l = exitLane s l := by
  have e := exitWarp_lane s h2 l hl
  rw [joinFree_lane _ (by rw [exitWarp_length, h2]) l hl (by rw [e, hv l hl]; decide), e]
theorem serialEnd_vacant (w : Warp) (hv : ∀ l < 32, (w.lane l).st = .vacant) : serialEnd w = 0 := by
  have : (rangeFrom 0 32).filter (fun l => (w.lane l).st == .serialWaiting) = [] :=
    List.filter_eq_nil_iff.2 fun l hl => by
      have := (mem_rangeFrom _ _ _).1 hl
      rw [hv l (by omega)]; decide
  rw [serialEnd]
  split
  · rw [Warp.maskOf, this]; rfl
  · rfl
/-- A WARP RETIRES, where its block holds a warp that has not and no REGCLAIM waits. -/
theorem warpRetire_gives (s : State) (wk k : Nat) (w x : Warp) (hw : mFind s.warps wk = some w) (hr : w.retiredW = false)
    (hw' : w.isWave = false) (hf : w.refill = none) (hv : w.lanes.all (fun y => y.st == .vacant) = true) (hk : k ≠ wk)
    (hx : mFind s.warps k = some x) (hb : x.bk = w.bk) (hxr : x.retiredW = false) (hc : noClaims s w.bk) :
    warpRetire wk s = (s.updWarp wk fun w => { w with retiredW := true, parks := [] }).updBlock w.bk
      fun b => { b with pool := b.pool + w.limit.toNat } := by
  have e : s.warp wk = w := warp_of_mFind hw
  rw [warpRetire, if_neg (by rw [e]; simp [hr, hf, hv])]
  simp only [e, hw', Bool.false_eq_true, if_false]
  have hcl := noClaims_upd s wk w.bk (fun w => { w with retiredW := true, parks := [] }) hc (fun _ => rfl) fun _ _ => rfl
  rw [givePool_id _ _ _ hcl]
  have hfind : mFind (s.updWarp wk fun w => { w with retiredW := true, parks := [] }).warps k = some x := by
    simp [hk.symm, hx]
  have hwx := warp_of_mFind hfind
  generalize hu : (s.updWarp wk fun w => { w with retiredW := true, parks := [] }).updBlock w.bk
    (fun b => { b with pool := b.pool + w.limit.toNat }) = u
  have hfu : mFind u.warps k = some x := by rw [← hu]; exact hfind
  have := blockEnd_live u k (by simp [hfu]) (by rw [warp_of_mFind hfu]; exact hxr)
  rw [warp_of_mFind hfu, hb] at this
  exact this
/-- The EXIT of a warp's last lanes. -/
theorem exec_exit_last (s : State) (sw : Bool) (k : Nat) (w : Warp) (h : s.inBundle = true) (hr : s.cw.retiredW = false)
    (hw : s.cw.isWave = false) (hs : s.cw.serial = false) (hf : s.cw.refill = none) (hc : noClaims s s.cw.bk)
    (hv : ∀ l < 32, s.cur.mask.getLsbD l = false → (s.cw.lane l).st = .vacant)
    (ht : ∀ l < 32, s.cur.mask.getLsbD l = true → (s.cw.lane l).isTask = false)
    (hk : k ≠ s.cur.wk) (hx : mFind s.warps k = some w) (hb : w.bk = s.cw.bk) (hxr : w.retiredW = false) :
    exec (.exit sw) s = .next ((s.updCw (retiredWarp s)).updBlock s.cw.bk
      fun b => { b with pool := b.pool + s.cw.limit.toNat }) := by
  obtain ⟨h1, h2, -, -⟩ := (inBundle_iff s).1 h
  have hvac := exitLane_vacant s hs hv
  have hlane := joinFree_exit s h2 hvac
  have hlen : (joinFree (exitWarp s s.cw)).lanes.length = 32 := by simp [joinFree, exitWarp_length, h2]
  have hend : serialEnd ((s.updCw (exitWarp s)).warp s.cur.wk) = 0 := by
    have e : (s.updCw (exitWarp s)).warp s.cur.wk = exitWarp s s.cw := updCw_cw s (exitWarp s) h1
    rw [e]
    exact serialEnd_vacant _ fun l hl => by rw [exitWarp_lane s h2 l hl, hvac l hl]
  rw [exec_exit s h sw ht, afterLanes]
  simp only [hend, if_true, joinRelease_eq]
  have e : (s.updCw (exitWarp s)).updWarp s.cur.wk joinFree = s.updCw fun w => joinFree (exitWarp s w) := updCw_updCw s _ _
  have hfind : mFind (s.updCw fun w => joinFree (exitWarp s w)).warps s.cur.wk = some (joinFree (exitWarp s s.cw)) := by
    obtain ⟨v, hv'⟩ := Option.isSome_iff_exists.1 h1
    have : s.cw = v := warp_of_mFind hv'
    simp [State.updCw, hv', this]
  have hall : (joinFree (exitWarp s s.cw)).lanes.all (fun y => y.st == .vacant) = true := by
    rw [List.all_eq_true]
    intro y hy
    obtain ⟨l, hl, rfl⟩ := (mem_lanes _ hlen y).1 hy
    rw [hlane l hl, hvac l hl]; rfl
  have hret := warpRetire_gives (s.updCw fun w => joinFree (exitWarp s w)) s.cur.wk k (joinFree (exitWarp s s.cw)) w hfind
    (by rw [joinExit_rest]; exact hr) (by rw [joinExit_rest]; exact hw) (by rw [joinExit_rest]; exact hf) hall hk
    (by simp [State.updCw, hk.symm, hx]) (by rw [joinExit_rest]; exact hb) hxr
    (noClaims_upd s s.cur.wk _ _ (by rw [joinExit_rest]; exact hc) (fun _ => rfl) fun _ hcl => hcl)
  have hl : (joinFree (exitWarp s s.cw)).bk = s.cw.bk ∧ (joinFree (exitWarp s s.cw)).limit = s.cw.limit := by
    rw [joinExit_rest]; exact ⟨rfl, rfl⟩
  rw [hl.1, hl.2] at hret
  rw [e, hret]
  exact congrArg (fun x : State => Host.Outcome.next (x.updBlock s.cw.bk fun b => { b with pool := b.pool + s.cw.limit.toNat }))
    (updCw_updCw s _ fun w => { w with retiredW := true, parks := [] })

/-- Settles O18: EXIT's lanes leave and JOINs go on; the last lanes' warp retires. -/
theorem exitAndRetirement : Obligations.ExitAndRetirement := by
  unfold Obligations.ExitAndRetirement
  refine ⟨fun s sw k h hk hm hv hs ht => ?_, fun s sw k w h hr hw hs hf hc hv ht hk hx hb hxr => ?_⟩
  · obtain ⟨h1, h2, h3, h4⟩ := (inBundle_iff s).1 h
    have hcw : (s.updCw (exitWarp s)).warp s.cur.wk = exitWarp s s.cw := updCw_cw s _ h1
    have hex : (exitWarp s s.cw).lane k = s.cw.lane k := by rw [exitWarp_lane s h2 k hk, exitLane_other s k hm]
    have hal := afterLanes_plain s.cur.wk (s.updCw (exitWarp s)) (by simp [State.updCw, h1])
      (by rw [hcw, exitWarp_length, h2]) k hk (by rw [hcw, hex]; exact hv) (by rw [hcw, hex]; exact hs)
    have e : (s.updCw (exitWarp s)).updWarp s.cur.wk joinFree = s.updCw fun w => joinFree (exitWarp s w) := updCw_updCw s _ _
    refine ⟨_, exec_exit s h sw ht, ?_⟩
    rw [hal, e]
    have hcw' := updCw_cw s (fun w => joinFree (exitWarp s w)) h1
    refine ⟨⟨onlyWarp_upd s _ _, sameMemory_upd s _ s.cur, ?_, ?_⟩, ?_⟩
    · rw [hcw', joinExit_rest]
    · rw [hcw', joinExit_rest]; exact exitWarp_outs s s.cw
    · rw [hcw']
      exact lanesReleased_congr _ _ _ (exitWarp_lane s h2) (joinFree_released _ (by rw [exitWarp_length, h2]))
  · have hB : s.inBundle = true ∧ (mFind s.blocks s.cw.bk).isSome = true := by
      simp only [State.inBlock, Bool.and_eq_true] at h
      exact ⟨h.1.1, h.1.2⟩
    obtain ⟨h1, h2, h3, h4⟩ := (inBundle_iff s).1 hB.1
    have hcw : ((s.updCw (retiredWarp s)).updBlock s.cw.bk fun b => { b with pool := b.pool + s.cw.limit.toNat }).cw =
      retiredWarp s s.cw := updCw_cw s (retiredWarp s) h1
    have hlane : ∀ l < 32, (retiredWarp s s.cw).lane l = exitLane s l := fun l hl => by
      rw [retiredWarp_lane, joinFree_exit s h2 (exitLane_vacant s hs hv) l hl]
    refine ⟨_, exec_exit_last s sw k w hB.1 hr hw hs hf hc hv ht hk hx hb hxr, rfl, fun j hj => ?_, fun j hj => ?_, ?_, ?_⟩
    · simp [State.updCw, Ne.symm hj]
    · simp [State.updCw, Ne.symm hj]
    · exact State.updBlock_block (s.updCw (retiredWarp s)) _ _ hB.2
    · have hp : ∀ l < 32, ((retiredWarp s s.cw).lane l).preds = (s.cw.lane l).preds := fun l hl => by
        rw [hlane l hl, exitLane]
        simp only [hs, Bool.false_eq_true, if_false]
        split <;> rfl
      rw [hcw]
      refine ⟨?_, ?_, ?_, ?_, fun l hl => ?_, fun x hx => regAt_congr _ _ _ ?_ ?_ ?_ hp hx⟩
      · rw [retiredWarp_rest]
      · rw [retiredWarp_rest]
      · rw [retiredWarp_rest]
      · rw [retiredWarp_rest]
      · rw [hlane l hl]; exact exitLane_vacant s hs hv l hl
      · rw [retiredWarp_rest]
      · rw [retiredWarp_rest]
      · rw [retiredWarp_rest]

end Sys2Proof.Machine
end

section
/-! Control registers, copy rings, register rows and quota (O19, O20, O21). -/
namespace Sys2Proof.Machine

/-! ### Control registers (R58, R68, R74, R75, R210) -/
/-- FPFLAGS after a SETC: the ones written clear, but for the flags of the cycle. -/
def clearedFlags (s : State) (d : Reg) : BitVec 5 := (s.cw.fpflags &&& ~~~ (s.usrc d).setWidth 5) ||| s.cur.flags
theorem clearedFlags_bit (s : State) (d : Reg) (n : Nat) (hn : n < 5) : (clearedFlags s d).getLsbD n = true ↔
    s.cur.flags.getLsbD n = true ∨ (s.cw.fpflags.getLsbD n = true ∧ (s.usrc d).getLsbD n = false) := by
  simp only [clearedFlags, BitVec.getLsbD_or, BitVec.getLsbD_and, BitVec.getLsbD_not, BitVec.getLsbD_setWidth, hn, decide_true,
    Bool.true_and, Bool.or_eq_true, Bool.and_eq_true, Bool.not_eq_true']
  exact or_comm
/-- FRM takes 3 bits, 111 as 000. -/
theorem frm_value (x : Word) : (if (x.setWidth 3 : BitVec 3) = 7 then 0 else x.setWidth 3 : BitVec 3).toNat =
    if x.toNat % 8 = 7 then 0 else x.toNat % 8 := by
  have e : (x.setWidth 3 : BitVec 3).toNat = x.toNat % 8 := BitVec.toNat_setWidth 3 x
  have h7 : (x.setWidth 3 : BitVec 3) = 7 ↔ x.toNat % 8 = 7 := by
    rw [← e]; exact ⟨fun h => by rw [h]; rfl, fun h => BitVec.eq_of_toNat_eq h⟩
  by_cases h : x.toNat % 8 = 7
  · rw [if_pos h, if_pos (h7.2 h)]; rfl
  · rw [if_neg h, if_neg fun hc => h (h7.1 hc), e]

/-- Settles O19: each row of SETC is one change of its warp, or its fault. -/
theorem setcOfWarpRegisters : Obligations.SetcOfWarpRegisters := by
  unfold Obligations.SetcOfWarpRegisters
  intro s sw d h hd
  have hok : ([⟨0, d, uniCode d⟩] : List OpPos).all (·.ok) = true := by simp [hd]
  refine ⟨fun hp => ⟨_, rfl, ?_⟩, fun hp => ⟨_, rfl, ?_⟩, ⟨_, clearedFlags s d, rfl, ?_, clearedFlags_bit s d⟩,
    ⟨_, _, rfl, ?_, frm_value (s.usrc d)⟩, fun x hx hr => ⟨_, rfl, ?_⟩⟩
  · rw [operandsOr_ok _ _ _ hok, if_pos hp]
    exact done_upd s _ h rfl
  · rw [operandsOr_ok _ _ _ hok, if_neg (by simp [hp])]
    exact raiseMask_taken _ _ _ _ s h
  · rw [operandsOr_ok _ _ _ hok]
    have e : (s.updCw fun w => { w with fpflags := (w.fpflags &&& ~~~ (s.usrc d).setWidth 5) ||| s.cur.flags }) =
        s.updCw fun w => { w with fpflags := clearedFlags s d } := updCw_congr s _ _ rfl
    rw [e]
    exact done_upd s _ h rfl
  · rw [operandsOr_ok _ _ _ hok]
    exact done_upd s _ h rfl
  · rw [legalOr, hx, hr]
    have := raiseMask_taken s.cur.mask 0x02 (BitVec.ofNat 17 (128 * 0 + d.toNat)) s.cur.pc s h
    rw [Nat.mul_zero, Nat.zero_add] at this
    simpa [raiseOperand, raiseBundle] using this

/-! ### Copy rings (R213, R266) -/
/-- A step of a layout changes nothing but blocks. -/
theorem writeHeader_rest (bk ch : Nat) (s : State) :
    (writeHeader bk ch s).warps = s.warps ∧ (writeHeader bk ch s).cur = s.cur := ⟨rfl, rfl⟩
theorem layoutRings_rest (bk : Nat) (base size : Word) (s : State) :
    (layoutRings bk base size s).warps = s.warps ∧ (layoutRings bk base size s).cur = s.cur := by
  have key : ∀ (chs : List Nat) (f : State → Nat → State), (∀ u ch, (f u ch).warps = u.warps ∧ (f u ch).cur = u.cur) →
      ∀ u, (chs.foldl f u).warps = u.warps ∧ (chs.foldl f u).cur = u.cur := by
    intro chs f hf
    induction chs with
    | nil => exact fun u => ⟨rfl, rfl⟩
    | cons c t ih => exact fun u => ⟨(ih (f u c)).1.trans (hf u c).1, (ih (f u c)).2.trans (hf u c).2⟩
  rw [layoutRings]
  refine key _ _ (fun u ch => ?_) _
  dsimp only
  split
  · exact ⟨rfl, rfl⟩
  · exact ⟨rfl, rfl⟩
/-- A layout that fits, with no command outstanding. -/
theorem setRings_fits (base size : Word) (s : State) (h : s.inBundle = true) (hb : s.cb.copyBusy = false)
    (hf : ringsEnd base size ≤ s.cb.spSize ∨ size = 0) :
    wentOn (layoutRings s.cw.bk base size s) (setRings base size s) := by
  have hn : ¬ (s.cb.spSize < ringsEnd base size ∧ size ≠ 0) := fun ⟨h1, h2⟩ => by
    rcases hf with hf | hf
    · omega
    · exact h2 hf
  rw [setRings, if_neg (by simp [hb]), if_neg hn]
  obtain ⟨hw, hc⟩ := layoutRings_rest s.cw.bk base size s
  exact done_wentOn _ (inBundle_congr s _ h hw hc)
/-- The sizes that RINGSIZE takes. -/
def sizesOk (v : Word) : Bool :=
  (rangeFrom 0 8).all fun ch => ringLog v ch == 0 || (decide (3 ≤ ringLog v ch) && decide (ringLog v ch ≤ 8))
theorem sizesOk_iff (v : Word) :
    sizesOk v = true ↔ ∀ ch < 8, ringLog v ch = 0 ∨ (3 ≤ ringLog v ch ∧ ringLog v ch ≤ 8) := by
  simp [sizesOk, mem_rangeFrom]

/-- Settles O20: a write is laid out where its sizes, its room and the channels allow it. -/
theorem ringRegisters : Obligations.RingRegisters := by
  unfold Obligations.RingRegisters
  intro s sw d h hd
  have hok : ([⟨0, d, uniCode d⟩] : List OpPos).all (·.ok) = true := by simp [hd]
  have hbase : exec (.setcRingbase sw d) s = .next (setRings (s.usrc d &&& 0x3FFF0) s.cb.ringSize s) :=
    congrArg Host.Outcome.next (operandsOr_ok _ _ _ hok)
  have hsize : exec (.setcRingsize sw d) s =
      .next (if sizesOk (s.usrc d) then setRings s.cb.ringBase (s.usrc d) s else raiseEngine 0x10 s.cur.pc s) :=
    congrArg Host.Outcome.next (operandsOr_ok _ _ _ hok)
  refine ⟨fun hb hf => ⟨_, hbase, setRings_fits _ _ s h hb hf⟩, fun hs hb hf => ⟨_, hsize, ?_⟩, fun hb => ⟨_, hbase, ?_⟩,
    fun ⟨ch, hc, h0, h1⟩ => ⟨_, hsize, ?_⟩⟩
  · rw [if_pos ((sizesOk_iff _).2 hs)]
    exact setRings_fits _ _ s h hb hf
  · rw [setRings, if_pos hb]
    exact raiseMask_taken _ _ _ _ s h
  · rw [if_neg fun hc' => by
      rcases (sizesOk_iff _).1 hc' ch hc with hz | ⟨h3, h8⟩
      · exact h0 hz
      · omega]
    exact raiseMask_taken _ _ _ _ s h

/-! ### FREE (R134, R216) -/
theorem mGet_eraseAll (r : Nat) (ls : List Nat) (v : Map Word) (k : Nat) :
    mGet (ls.foldl (fun v l => mErase v (32 * r + l)) v) 0 k = if ∃ l ∈ ls, 32 * r + l = k then 0 else mGet v 0 k := by
  induction ls generalizing v with
  | nil => simp
  | cons a t ih =>
    rw [List.foldl_cons, ih, mGet_mErase]
    by_cases h : ∃ l ∈ t, 32 * r + l = k
    · have h' : ∃ l ∈ a :: t, 32 * r + l = k := h.imp fun l hl => ⟨List.mem_cons_of_mem _ hl.1, hl.2⟩
      rw [if_pos h, if_pos h']
    · by_cases ha : 32 * r + a = k
      · rw [if_neg h, if_pos ha, if_pos ⟨a, List.mem_cons_self, ha⟩]
      · rw [if_neg h, if_neg ha, if_neg]
        rintro ⟨l, hl, he⟩
        rcases List.mem_cons.1 hl with rfl | hl
        · exact ha he
        · exact h ⟨l, hl, he⟩
/-- FREE of one register changes registers and rows only. -/
theorem freeReg_rest (m : Word) (c : Reg) (w : Warp) :
    freeReg m c w = { w with vregs := (freeReg m c w).vregs, mapped := (freeReg m c w).mapped } := by
  rw [freeReg]
  split
  · dsimp only
    split <;> rfl
  · rfl
theorem freeReg_vreg (m : Word) (c : Reg) (w : Warp) (r l : Nat) (hr : r < 88) (hl : l < 32) :
    (freeReg m c w).vreg r l = if r = c.toNat ∧ m.getLsbD l = true then 0 else w.vreg r l := by
  rw [freeReg]
  split
  · rename_i hc
    have e : ∀ w1 : Warp, w1.vregs = (maskLanes m).foldl (fun v l => mErase v (32 * c.toNat + l)) w.vregs →
        w1.vreg r l = if r = c.toNat ∧ m.getLsbD l = true then 0 else w.vreg r l := fun w1 hw => by
      have hx : (∃ k ∈ maskLanes m, 32 * c.toNat + k = 32 * r + l) ↔ r = c.toNat ∧ m.getLsbD l = true := by
        constructor
        · rintro ⟨k, hk, he⟩
          obtain ⟨h1, h2⟩ := (mem_maskLanes m k).1 hk
          have : r = c.toNat ∧ k = l := by omega
          exact ⟨this.1, by rw [← this.2]; exact h2⟩
        · rintro ⟨rfl, hm⟩
          exact ⟨l, (mem_maskLanes m l).2 ⟨hl, hm⟩, rfl⟩
      rw [Warp.vreg, hw, mGet_eraseAll]
      simp only [hx, Warp.vreg]
    dsimp only
    split
    · exact e _ rfl
    · exact e _ rfl
  · rename_i hc
    rw [if_neg]
    rintro ⟨rfl, -⟩
    exact hc hr
/-- The row of a register that reads 0 in every lane after the FREE goes back. -/
theorem freeReg_mapped (m : Word) (c : Reg) (w : Warp) (r : Nat) (hr : r < 88) : (freeReg m c w).mapped.getLsbD r = true ↔
    w.mapped.getLsbD r = true ∧ ¬ (r = c.toNat ∧ ∀ l < 32, (freeReg m c w).vreg r l = 0) := by
  by_cases hc : c.toNat < 88
  · obtain ⟨w1, h1⟩ : ∃ w1 : Warp, w1 = { w with vregs := (maskLanes m).foldl (fun v l => mErase v (32 * c.toNat + l)) w.vregs } :=
      ⟨_, rfl⟩
    have e : freeReg m c w = if (rangeFrom 0 32).all fun l => w1.vreg c.toNat l == 0 then
        { w1 with mapped := w1.mapped &&& ~~~ (1#88 <<< c.toNat) } else w1 := by
      rw [freeReg, if_pos hc, h1]
    have hm : w1.mapped = w.mapped := by rw [h1]
    have hv : ∀ l, (freeReg m c w).vreg r l = w1.vreg r l := fun l => by rw [e]; split <;> rfl
    have hall : (rangeFrom 0 32).all (fun l => w1.vreg c.toNat l == 0) = true ↔ ∀ l < 32, w1.vreg c.toNat l = 0 := by
      simp [mem_rangeFrom]
    have hbit : (1#88 <<< c.toNat).getLsbD r = decide (r = c.toNat) := by
      rw [BitVec.getLsbD_shiftLeft, BitVec.getLsbD_one]
      by_cases he : r = c.toNat
      · simp [he, hc]
      · simp [he]; omega
    simp only [hv]
    by_cases hz : ∀ l < 32, w1.vreg c.toNat l = 0
    · rw [e, if_pos (hall.2 hz)]
      simp only [BitVec.getLsbD_and, BitVec.getLsbD_not, hbit, hr, hm, decide_true, Bool.true_and, Bool.and_eq_true]
      refine and_congr_right fun _ => ?_
      rw [Bool.not_eq_true', decide_eq_false_iff_not]
      exact not_congr ⟨fun he => ⟨he, he ▸ hz⟩, fun he => he.1⟩
    · rw [e, if_neg (mt hall.1 hz), hm]
      exact ⟨fun h => ⟨h, fun he => hz (he.1 ▸ he.2)⟩, fun h => h.1⟩
  · have e : freeReg m c w = w := by rw [freeReg, if_neg hc]
    rw [e]
    exact ⟨fun h => ⟨h, fun he => hc (he.1 ▸ hr)⟩, fun h => h.1⟩
/-- The change that FREE makes to its warp. -/
def freeThree (m : Word) (d a b : Reg) (w : Warp) : Warp := freeReg m b (freeReg m a (freeReg m d w))
theorem freeThree_rest (m : Word) (d a b : Reg) (w : Warp) :
    freeThree m d a b w = { w with vregs := (freeThree m d a b w).vregs, mapped := (freeThree m d a b w).mapped } := by
  rw [freeThree, freeReg_rest m b, freeReg_rest m a, freeReg_rest m d]
theorem freeThree_vreg (m : Word) (d a b : Reg) (w : Warp) (r l : Nat) (hr : r < 88) (hl : l < 32) :
    (freeThree m d a b w).vreg r l =
      if (r = d.toNat ∨ r = a.toNat ∨ r = b.toNat) ∧ m.getLsbD l = true then 0 else w.vreg r l := by
  rw [freeThree, freeReg_vreg m b _ r l hr hl, freeReg_vreg m a _ r l hr hl, freeReg_vreg m d _ r l hr hl]
  by_cases hm : m.getLsbD l = true
  · simp only [hm, and_true]
    by_cases h1 : r = d.toNat <;> by_cases h2 : r = a.toNat <;> by_cases h3 : r = b.toNat <;> simp [h1, h2, h3]
  · simp [hm]
/-- A register reads 0 in every lane after a FREE as soon as it does after the last that names it. -/
theorem freeThree_mapped (m : Word) (d a b : Reg) (w : Warp) (r : Nat) (hr : r < 88) :
    (freeThree m d a b w).mapped.getLsbD r = true ↔ w.mapped.getLsbD r = true ∧
      ¬ ((r = d.toNat ∨ r = a.toNat ∨ r = b.toNat) ∧ ∀ l < 32, (freeThree m d a b w).vreg r l = 0) := by
  have hv := fun l hl => freeThree_vreg m d a b w r l hr hl
  have h1 := fun l hl => freeReg_vreg m d w r l hr hl
  have h2 := fun l hl => (freeReg_vreg m a (freeReg m d w) r l hr hl).trans (by rw [h1 l hl])
  have z1 : (r = d.toNat ∧ ∀ l < 32, (freeReg m d w).vreg r l = 0) ↔
      r = d.toNat ∧ ∀ l < 32, (freeThree m d a b w).vreg r l = 0 := and_congr_right fun he => forall₂_congr fun l hl => by
    rw [hv l hl, h1 l hl]; simp [he]
  have z2 : (r = a.toNat ∧ ∀ l < 32, (freeReg m a (freeReg m d w)).vreg r l = 0) ↔
      r = a.toNat ∧ ∀ l < 32, (freeThree m d a b w).vreg r l = 0 := and_congr_right fun he => forall₂_congr fun l hl => by
    rw [hv l hl, h2 l hl]
    by_cases hm : m.getLsbD l = true <;> simp [he, hm]
  rw [freeThree, freeReg_mapped m b _ r hr, ← freeThree, freeReg_mapped m a _ r hr, freeReg_mapped m d _ r hr, z1, z2]
  constructor
  · rintro ⟨⟨⟨hm, n1⟩, n2⟩, n3⟩
    refine ⟨hm, ?_⟩
    rintro ⟨he | he | he, hz⟩
    · exact n1 ⟨he, hz⟩
    · exact n2 ⟨he, hz⟩
    · exact n3 ⟨he, hz⟩
  · rintro ⟨hm, hn⟩
    exact ⟨⟨⟨hm, fun h => hn ⟨.inl h.1, h.2⟩⟩, fun h => hn ⟨.inr (.inl h.1), h.2⟩⟩, fun h => hn ⟨.inr (.inr h.1), h.2⟩⟩

/-! ### Quota (R136, R137) -/
/-- Rows given to a pool that no claim waits for. -/
theorem giveRows_gives (n : Nat) (s : State) (h : s.inBundle = true) (hn : n ≤ s.cw.limit.toNat) (hc : noClaims s s.cw.bk) :
    giveRows n s = (doneB (s.updCw fun w => { w with limit := w.limit - BitVec.ofNat 7 n })).updBlock s.cw.bk
      fun b => { b with pool := b.pool + n } := by
  rw [giveRows, if_neg (by omega)]
  refine givePool_id _ _ _ ?_
  rw [doneB_eq _ (inBundle_updCw s _ h rfl), updCw_updCw]
  exact noClaims_upd s _ _ _ hc (fun _ => rfl) fun _ hcl => hcl
/-- Rows taken from the pool. -/
theorem claimRows_takes (n : Nat) (wait : Bool) (s : State) (h1 : s.cw.limit.toNat + n ≤ 88) (h2 : n ≤ s.cb.pool) :
    claimRows n wait s = doneB ((s.updBlock s.cw.bk fun b => { b with pool := b.pool - n }).updCw
      fun w => { w with limit := w.limit + BitVec.ofNat 7 n }) := by
  rw [claimRows, if_neg (by omega), if_pos h2]; rfl
theorem claimed_committed (n : Nat) (f : Warp → Warp) (s : State) (h : s.inBundle = true)
    (hf : (f s.cw).lanes.length = s.cw.lanes.length) :
    committed (fun _ => none) 0 ((s.updBlock s.cw.bk fun b => { b with pool := b.pool - n }).updCw f)
      (doneB ((s.updBlock s.cw.bk fun b => { b with pool := b.pool - n }).updCw f)) :=
  doneB_committed _ (inBundle_updCw _ _ (inBundle_congr s _ h rfl rfl) hf)
/-- A limit that QUOTA names, by what is given or claimed. -/
theorem limit_sub (x : BitVec 7) (v : Nat) (h : v ≤ x.toNat) : x - BitVec.ofNat 7 (x.toNat - v) = BitVec.ofNat 7 v := by
  apply BitVec.eq_of_toNat_eq
  have := x.isLt
  rw [BitVec.toNat_sub, BitVec.toNat_ofNat, BitVec.toNat_ofNat]
  omega
theorem limit_add (x : BitVec 7) (v : Nat) (h : x.toNat ≤ v) : x + BitVec.ofNat 7 (v - x.toNat) = BitVec.ofNat 7 v := by
  apply BitVec.eq_of_toNat_eq
  have := x.isLt
  rw [BitVec.toNat_add, BitVec.toNat_ofNat, BitVec.toNat_ofNat]
  omega
/-- SETC of QUOTA gives or claims the difference. -/
theorem exec_setcQuota (s : State) (sw : Bool) (d : Reg) (hd : uniCode d = true) : exec (.setcQuota sw d) s =
    .next (if 88 < (s.usrc d).toNat % 128 then raiseQuota ((s.usrc d).toNat % 128 - s.cw.limit.toNat) s
      else if (s.usrc d).toNat % 128 < s.cw.limit.toNat then giveRows (s.cw.limit.toNat - (s.usrc d).toNat % 128) s
      else claimRows ((s.usrc d).toNat % 128 - s.cw.limit.toNat) false s) :=
  congrArg Host.Outcome.next (operandsOr_ok _ _ _ (by simp [hd]))

/-- Settles O21: FREE by its three registers, and each move of rows between a limit and the pool. -/
theorem rowsAndQuota : Obligations.RowsAndQuota := by
  unfold Obligations.RowsAndQuota
  refine ⟨fun s sw d a b h hd ha hb => ?_, fun s sw hB => ?_⟩
  · have e : exec (.free sw d a b) s = .next (done (s.updCw (freeThree s.cur.mask d a b))) :=
      congrArg Host.Outcome.next (operandsOr_ok _ _ _ (by simp [hd, ha, hb]))
    obtain ⟨h1, h2, h3, h4⟩ := (inBundle_iff s).1 h
    have hdone : done (s.updCw (freeThree s.cur.mask d a b)) =
        s.updCw fun w => endIssue s.cur.mask s.cur.pc (freeThree s.cur.mask d a b w) := by
      rw [done_eq _ (by exact h3)]; exact updCw_updCw s _ _
    have hcw := updCw_cw s (fun w => endIssue s.cur.mask s.cur.pc (freeThree s.cur.mask d a b w)) h1
    have hlen : ∀ l < 32, l < (freeThree s.cur.mask d a b s.cw).lanes.length := fun l hl => by
      rw [freeThree_rest]; show l < s.cw.lanes.length; omega
    have hlane : ∀ l < 32, (endIssue s.cur.mask s.cur.pc (freeThree s.cur.mask d a b s.cw)).lane l =
        { s.cw.lane l with pc := if s.cur.mask.getLsbD l then s.cur.pc + 4 else (s.cw.lane l).pc } := fun l hl => by
      have hsame : (freeThree s.cur.mask d a b s.cw).lane l = s.cw.lane l := lane_congr (by rw [freeThree_rest]) l
      rw [endIssue_lane _ _ _ _ (hlen l hl), hsame]
    have hvr : ∀ r l, (endIssue s.cur.mask s.cur.pc (freeThree s.cur.mask d a b s.cw)).vreg r l =
        (freeThree s.cur.mask d a b s.cw).vreg r l := fun _ _ => rfl
    have hmp : (endIssue s.cur.mask s.cur.pc (freeThree s.cur.mask d a b s.cw)).mapped =
        (freeThree s.cur.mask d a b s.cw).mapped := rfl
    refine ⟨_, e, ?_⟩
    rw [hdone]
    refine ⟨onlyWarp_upd s _ _, sameMemory_upd s _ s.cur, ?_, ?_, ?_, ?_, ?_, ?_, ?_, ?_⟩
    · have hf0 : s.cw.fpflags ||| (0 : BitVec 5) = s.cw.fpflags := by simp
      rw [warpWentOn, hcw, hf0, freeThree_rest]; rfl
    · intro l hl
      rw [hcw, hlane l hl]
    · rw [hcw, freeThree_rest]; rfl
    · rw [hcw, freeThree_rest]; rfl
    · rw [hcw, freeThree_rest]; rfl
    · intro l hl
      rw [hcw, hlane l hl]
    · intro r hr l hl
      rw [hcw, hvr, freeThree_vreg _ _ _ _ _ r l hr hl]
    · intro r hr
      rw [hcw]
      simp only [hvr, hmp]
      exact freeThree_mapped _ _ _ _ _ r hr
  · have h : s.inBundle = true := by
      simp only [State.inBlock, Bool.and_eq_true] at hB
      exact hB.1.1
    have leg : ∀ (n : BitVec 7) (k : State), n.toNat ≤ 88 → legalOr (decide (n.toNat ≤ 88)) s k = k := fun n k hn => by
      rw [legalOr, if_pos (by simp [hn])]
    have hof : ∀ n : BitVec 7, BitVec.ofNat 7 n.toNat = n := fun n => by simp
    refine ⟨fun n hn hl hc => ?_, fun n hn hl => ?_, fun n hn hl => ?_, fun n hl hp => ?_,
      fun d hd => ⟨fun hv hl hc => ?_, fun hl hv hp => ?_, fun hl hv hp => ?_⟩⟩
    · refine ⟨_, _, congrArg Host.Outcome.next (leg n _ (by omega)), ?_, giveRows_gives n.toNat s h hn hc⟩
      rw [hof]
      exact doneB_committed _ (inBundle_updCw s _ h rfl)
    · refine ⟨_, congrArg Host.Outcome.next (leg n _ hn), ?_⟩
      rw [giveRows, if_pos hl]
      exact raiseMask_taken _ _ _ _ s h
    · refine ⟨_, congrArg Host.Outcome.next (leg n _ hn), ?_⟩
      rw [claimRows, if_pos hl]
      exact raiseMask_taken _ _ _ _ s h
    · refine ⟨_, congrArg Host.Outcome.next (leg n _ (by omega)), ?_⟩
      rw [claimRows_takes _ _ _ hl hp, hof]
      exact claimed_committed _ _ s h rfl
    · have e := updCw_congr s
        (fun w => { w with limit := w.limit - BitVec.ofNat 7 (s.cw.limit.toNat - (s.usrc d).toNat % 128) })
        (fun w => { w with limit := BitVec.ofNat 7 ((s.usrc d).toNat % 128) }) (by rw [limit_sub _ _ (by omega)])
      have hg := giveRows_gives (s.cw.limit.toNat - (s.usrc d).toNat % 128) s h (by omega) hc
      rw [e] at hg
      refine ⟨doneB (s.updCw fun w => { w with limit := BitVec.ofNat 7 ((s.usrc d).toNat % 128) }), _,
        (exec_setcQuota s sw d hd).trans ?_, doneB_committed _ (inBundle_updCw s _ h rfl), rfl⟩
      rw [if_neg (by omega), if_pos hv, hg]
    · refine ⟨_, exec_setcQuota s sw d hd, ?_⟩
      rw [if_neg (by omega), if_neg (by omega), claimRows_takes _ _ _ (by omega) hp]
      rw [updCw_congr (s.updBlock s.cw.bk fun b => { b with pool := b.pool - ((s.usrc d).toNat % 128 - s.cw.limit.toNat) })
          (fun w => { w with limit := w.limit + BitVec.ofNat 7 ((s.usrc d).toNat % 128 - s.cw.limit.toNat) })
          (fun w => { w with limit := BitVec.ofNat 7 ((s.usrc d).toNat % 128) })
          (by exact congrArg (fun x => { s.cw with limit := x }) (limit_add _ _ hl))]
      exact claimed_committed _ _ s h rfl
    · refine ⟨_, exec_setcQuota s sw d hd, ?_⟩
      rw [if_neg (by omega), if_neg (by omega), claimRows, if_neg (by omega), if_neg (by omega), if_neg (by simp)]
      exact raiseMask_taken _ _ _ _ s h

end Sys2Proof.Machine
end

section
/-! Waiting and ordering: WAITM at the scratchpad, BAR, and fences behind an empty stream (O22, O23, O24). -/
namespace Sys2Proof.Machine

/-! ### Places at the scratchpad (R181) -/
/-- The address that names a place at the block's scratchpad. -/
theorem alias_place (off : Nat) (h : off < 2 ^ 32) :
    localAlias (BitVec.ofNat 64 (0xFFFFFFFF00000000 + off)) = true ∧
      (BitVec.ofNat 64 (0xFFFFFFFF00000000 + off)).toNat % 2 ^ 32 = off := by
  have e : (BitVec.ofNat 64 (0xFFFFFFFF00000000 + off)).toNat = 0xFFFFFFFF * 2 ^ 32 + off := by
    rw [BitVec.toNat_ofNat]; omega
  refine ⟨?_, by omega⟩
  rw [localAlias, beq_iff_eq]
  apply BitVec.eq_of_toNat_eq
  rw [BitVec.toNat_ushiftRight, e, Nat.shiftRight_eq_div_pow]
  show _ = 0xFFFFFFFF
  omega
/-- A place that ends beyond the window (R183). -/
theorem uniformAcc_beyond (k : Acc) (n align : Nat) (a : DWord) (off : Nat) (s : State) (ha : localAlias a = true)
    (ho : a.toNat % 2 ^ 32 = off) (hs : s.cb.spSize < off + n) :
    uniformAcc k n align a s = (.error (bundleAt 0x0D 0 (BitVec.ofNat 64 off) s), s) := by
  rw [uniformAcc, if_pos ha]
  simp only [ho]
  rw [if_pos hs]
theorem parkBundle_updCw (why : ParkWhy) (s : State) : parkBundle why s =
    s.updCw fun w => { w with parks := w.parks ++ [{ mask := s.live, pc := s.cur.pc, why := why }] } := rfl

/-- Settles O23, by one reading of the word. -/
theorem waitmAtTheScratchpad : Obligations.WaitmAtTheScratchpad := by
  unfold Obligations.WaitmAtTheScratchpad
  intro s sw c a b off h ha he hb hoff hlt
  obtain ⟨hal, hof⟩ := alias_place off hlt
  rw [← hoff] at hal hof
  have hops : ([⟨1, a, uniCode a && evenCode a⟩, ⟨2, b, uniCode b⟩] : List OpPos).all (·.ok) = true := by simp [ha, he, hb]
  refine ⟨fun hs hm hbad hpend hheld => ?_, fun hs => ?_⟩
  · have hacc := uniformAcc_local (s.usrc64 a) off s hal hof hs hm hbad
    have hf : forceFences s.cur.wk s = s := by rw [forceFences, hpend]; rfl
    obtain ⟨t1, t2⟩ := waitmTry_local s.cur.wk off c (s.usrc b) s hheld
    have step : ∀ r, waitmTry s.cur.wk true (localAcc 0 off) c (s.usrc b) s = r → exec (.waitm sw c a b) s =
        .next (if r.1 then done r.2 else parkBundle (.waitm true (localAcc 0 off) c (s.usrc b)) r.2) := fun r hr => by
      show Host.Outcome.next (operandsOr _ s _) = _
      rw [operandsOr_ok _ _ _ hops, hacc]
      dsimp only
      rw [hf, hr]
      obtain ⟨ok, u⟩ := r
      cases ok <;> rfl
    refine ⟨fun hc => ?_, fun hc => ⟨_, step _ (t2 hc), parkBundle_parked _ s h⟩⟩
    obtain ⟨x, ht⟩ := t1 hc
    exact ⟨_, x, step _ ht, done_upd s _ h rfl⟩
  · have hacc := uniformAcc_beyond .read 4 4 (s.usrc64 a) off s hal hof hs
    refine ⟨bundleAt 0x0D 0 (BitVec.ofNat 64 off) s, ?_, raiseMask_taken _ _ _ _ s h⟩
    show Host.Outcome.next (operandsOr _ s _) = _
    rw [operandsOr_ok _ _ _ hops, hacc]

/-! ### Releases behind an empty stream (R223) -/
/-- What a table's operations name where one warp keeps its own. -/
theorem wids_mMod (m : Map Warp) (k : Nat) (f : Warp → Warp) (hm : ∀ w, mFind m k = some w → (f w).memq = w.memq)
    (p : Nat → Bool) : ((mMod m k f).filter fun kw => p kw.1).flatMap (fun kw => kw.2.memq.map (·.wid)) =
      (m.filter fun kw => p kw.1).flatMap fun kw => kw.2.memq.map (·.wid) := by
  induction m with
  | nil => rfl
  | cons x t ih =>
    obtain ⟨j, w⟩ := x
    rw [mMod]
    by_cases hj : j = k
    · have := hm w (by simp [mFind, hj])
      rw [if_pos hj]
      cases hp : p j <;> simp [hp, this]
    · rw [if_neg hj]
      have ih := ih fun w hw => hm w (by simp [mFind, hj, hw])
      cases hp : p j <;> simp [hp, ih]
/-- A warp's stream is what it was after a change of the warp that keeps its operations, its block and what is ordered
before it. -/
theorem streamWids_upd (s : State) (wk : Nat) (f : Warp → Warp) (hw : (mFind s.warps wk).isSome = true)
    (hm : (f (s.warp wk)).memq = (s.warp wk).memq) (hh : (f (s.warp wk)).hb = (s.warp wk).hb)
    (hb : (f (s.warp wk)).bk = (s.warp wk).bk) : streamWids (s.updWarp wk f) wk = streamWids s wk := by
  have hwk : (s.updWarp wk f).warp wk = f (s.warp wk) := State.updWarp_warp _ _ _ hw
  have hbk : ∀ k, ((s.updWarp wk f).warp k).bk = (s.warp k).bk := fun k => by
    by_cases hk : wk = k
    · subst hk; rw [hwk, hb]
    · rw [State.updWarp_warp_ne _ _ _ _ hk]
  have hheld : hbHeld (s.updWarp wk f) wk (s.updWarp wk f).mem.nextWid = hbHeld s wk s.mem.nextWid := hbHeld_upd s wk _ f hw hh
  have hwith : streamWith (s.updWarp wk f) wk = streamWith s wk := by
    funext k
    simp only [streamWith, hbk, hheld]
    rfl
  have hwids := wids_mMod s.warps wk f fun w hf => by
    have e : s.warp wk = w := warp_of_mFind hf
    rw [← e]; exact hm
  have ha : (s.updWarp wk f).mem = s.mem := rfl
  have hws : (s.updWarp wk f).warps = mMod s.warps wk f := rfl
  have hown := hwids fun i => i == wk
  simp only [streamWids, hwith, hwk, hh, ha, hws, hwids, hown]
/-- A release of block scope behind an empty stream settles the warp's results, and nothing else. -/
theorem blockRelease_quiet (wk : Nat) (s : State) (hw : (mFind s.warps wk).isSome = true) (hm : (s.warp wk).memq = [])
    (ha : ∀ a ∈ s.mem.atoms, a.wk ≠ wk) : blockRelease wk s = s.updWarp wk settleOuts := by
  have hn : (s.mem.atoms.any fun a => a.wk == wk && a.use != .comm) = false := by
    rw [List.any_eq_false]
    intro a hm
    simp [ha a hm]
  have hq : ((s.updWarp wk settleOuts).warp wk).memq = [] := by
    rw [State.updWarp_warp _ _ _ hw]; exact hm
  simp only [blockRelease, hn, Bool.false_eq_true, if_false]
  rw [hq]
  rfl

/-! ### BAR (R201, R197) -/
/-- The lanes of a warp that wait at a BAR of a kind. -/
def barMask (cluster : Bool) (parks : List Park) : Word :=
  parks.foldl (fun m p => if p.why == .bar cluster then m ||| p.mask else m) 0
theorem barFold_bit (cluster : Bool) (parks : List Park) (m : Word) (l : Nat) :
    (parks.foldl (fun m p => if p.why == .bar cluster then m ||| p.mask else m) m).getLsbD l =
      (m.getLsbD l || parks.any fun p => p.why == .bar cluster && p.mask.getLsbD l) := by
  induction parks generalizing m with
  | nil => simp
  | cons p t ih =>
    rw [List.foldl_cons, ih, List.any_cons]
    split
    · rename_i hp
      rw [BitVec.getLsbD_or, hp, Bool.true_and, Bool.or_assoc]
    · rename_i hp
      rw [Bool.eq_false_iff.2 hp, Bool.false_and, Bool.false_or]
theorem barArrived_iff (cluster : Bool) (w : Warp) (hl : w.lanes.length = 32) : barArrived w cluster = true ↔
    ∀ l < 32, (w.lane l).st = .vacant ∨ (w.lane l).st = .serialWaiting ∨ (barMask cluster w.parks).getLsbD l = true := by
  have e : barArrived w cluster = (mapIdxFrom (fun l x => (l, x)) 0 w.lanes).all fun x =>
      x.2.st == .vacant || x.2.st == .serialWaiting || (barMask cluster w.parks).getLsbD x.1 := rfl
  simp only [e, List.all_eq_true, mem_idxLanes w hl, Bool.or_eq_true, beq_iff_eq, or_assoc]
  exact ⟨fun h l hl => h (l, w.lane l) ⟨hl, rfl⟩, fun h x ⟨h1, h2⟩ => by rw [h2]; exact h x.1 h1⟩
/-- The warp of a bundle that has come to a BAR. -/
def barWarp (s : State) (cluster : Bool) (w : Warp) : Warp :=
  { endIssue s.cur.mask s.cur.pc w with parks := w.parks ++ [{ mask := s.cur.mask, pc := s.cur.pc, why := .bar cluster }] }
theorem barWarp_lane (s : State) (cluster : Bool) (w : Warp) (l : Nat) :
    (barWarp s cluster w).lane l = (endIssue s.cur.mask s.cur.pc w).lane l := rfl
theorem barWarp_mask (s : State) (cluster : Bool) (l : Nat) :
    (barMask cluster (barWarp s cluster s.cw).parks).getLsbD l = barWaiting s cluster l := by
  show (barMask cluster (s.cw.parks ++ [_])).getLsbD l = _
  rw [barMask, barFold_bit, List.any_append, barWaiting]
  simp [Bool.or_comm]
/-- The bundle of a BAR that every lane has come to, or not. -/
theorem exec_bar (s : State) (h : s.inBundle = true) (sw cluster : Bool) (hw : s.cw.isWave = false) :
    exec (.bar sw cluster) s = .next (if barArrived (barWarp s cluster s.cw) cluster = true then
      (if cluster then forceRelease s.cur.wk .c (s.updCw fun w => barBoundary cluster (barWarp s cluster w))
        else blockRelease s.cur.wk (s.updCw fun w => barBoundary cluster (barWarp s cluster w)))
      else parkBundle (.bar cluster) (done s)) := by
  obtain ⟨h1, h2, h3, h4⟩ := (inBundle_iff s).1 h
  have e : parkBundle (.bar cluster) (done s) = s.updCw (barWarp s cluster) := by
    rw [done_eq s h3, parkBundle_updCw, updCw_updCw]
    have hl : (s.updCw (endIssue s.cur.mask s.cur.pc)).live = s.cur.mask := live_eq s h3
    rw [hl]
    rfl
  have hwk : (s.updCw (barWarp s cluster)).warp s.cur.wk = barWarp s cluster s.cw := updCw_cw s _ h1
  have e2 : exec (.bar sw cluster) s = execBar sw cluster s := rfl
  rw [e2, execBar, hw]
  simp only [Bool.false_eq_true, if_false, e, hwk, updCw_updCw]
/-- The lanes that have come to a BAR that is complete: a region starts at each (R197). -/
theorem barBoundary_lane (s : State) (h2 : s.cw.lanes.length = 32) (cluster : Bool)
    (ha : barArrived (barWarp s cluster s.cw) cluster = true) (l : Nat) (hl : l < 32) :
    (barBoundary cluster (barWarp s cluster s.cw)).lane l =
      (let x := if s.cur.mask.getLsbD l then { s.cw.lane l with pc := s.cur.pc + 4 } else s.cw.lane l
       if barWaiting s cluster l then { x with region := x.pc, regionRetired := s.cw.retired + 1 } else x) := by
  have hlen : l < (barWarp s cluster s.cw).lanes.length := by simp [barWarp, endIssue, h2, hl]
  have hx : (barWarp s cluster s.cw).lane l =
      if s.cur.mask.getLsbD l then { s.cw.lane l with pc := s.cur.pc + 4 } else s.cw.lane l := by
    rw [barWarp_lane, endIssue_lane _ _ _ _ (by omega)]
    by_cases hm : s.cur.mask.getLsbD l = true
    · simp only [if_pos hm]
    · simp only [if_neg hm]
  rw [barBoundary, if_pos ha, boundary_lane _ _ _ hlen, ← barMask, barWarp_mask, hx]
  rfl
theorem barBoundary_rest (s : State) (cluster : Bool) (w : Warp) :
    barBoundary cluster (barWarp s cluster w) = { w with
      lanes := (barBoundary cluster (barWarp s cluster w)).lanes, outs := (barBoundary cluster (barWarp s cluster w)).outs,
      retired := w.retired + 1,
      parks := w.parks ++ [{ mask := s.cur.mask, pc := s.cur.pc, why := .bar cluster }] } := by
  rw [barBoundary]
  split <;> rfl

/-- Settles O24: the warp has come when every lane that can come waits. -/
theorem barWaits : Obligations.BarWaits := by
  unfold Obligations.BarWaits
  intro s sw cluster h
  obtain ⟨h1, h2, h3, h4⟩ := (inBundle_iff s).1 h
  have hlen : (barWarp s cluster s.cw).lanes.length = 32 := by simp [barWarp, endIssue, h2]
  have hst : ∀ l < 32, ((barWarp s cluster s.cw).lane l).st = (s.cw.lane l).st := fun l hl => by
    rw [barWarp_lane, endIssue_lane _ _ _ _ (by omega)]
  have hiff : barArrived (barWarp s cluster s.cw) cluster = true ↔
      ∀ l < 32, (s.cw.lane l).st = .vacant ∨ (s.cw.lane l).st = .serialWaiting ∨ barWaiting s cluster l = true := by
    rw [barArrived_iff cluster _ hlen]
    exact forall₂_congr fun l hl => by rw [hst l hl, barWarp_mask]
  refine ⟨fun hw => ⟨_, congrArg Host.Outcome.next (if_pos hw), raiseMask_taken _ _ _ _ s h⟩, fun hw ⟨l, hl, hv, hs, hb⟩ => ?_,
    fun hw hall hstream hq => ?_⟩
  · have hna : ¬ barArrived (barWarp s cluster s.cw) cluster = true := fun hc => by
      rcases hiff.1 hc l hl with hx | hx | hx
      · exact hv hx
      · exact hs hx
      · rw [hb] at hx; exact absurd hx (by decide)
    have hd : (done s).inBundle = true := by
      rw [done_eq s h3]; exact inBundle_updCw s _ h (updLanes_length _ _ _)
    have hp := parkBundle_parked (.bar cluster) (done s) hd
    refine ⟨done s, _, done_wentOn s h, exec_bar s h sw cluster hw, ?_⟩
    rw [if_neg hna]
    exact hp
  · have ha : barArrived (barWarp s cluster s.cw) cluster = true := hiff.2 fun l hl => by
      by_cases hv : (s.cw.lane l).st = .vacant
      · exact .inl hv
      · by_cases hs : (s.cw.lane l).st = .serialWaiting
        · exact .inr (.inl hs)
        · exact .inr (.inr (hall l hl hv hs))
    obtain ⟨hm, hat, hsw, hh⟩ := hstream
    have hwk : (s.updCw fun w => barBoundary cluster (barWarp s cluster w)).warp s.cur.wk = barBoundary cluster (barWarp s cluster s.cw) :=
      updCw_cw s _ h1
    have hfind : (mFind (s.updCw fun w => barBoundary cluster (barWarp s cluster w)).warps s.cur.wk).isSome = true := by
      simp [State.updCw, h1]
    have hids : streamWids (s.updCw fun w => barBoundary cluster (barWarp s cluster w)) s.cur.wk = [] := by
      refine (streamWids_upd s s.cur.wk _ h1 ?_ ?_ ?_).trans hsw
      all_goals rw [barBoundary_rest]
    obtain ⟨c, hrel, hcores⟩ : ∃ c, (if cluster then forceRelease s.cur.wk .c (s.updCw fun w => barBoundary cluster (barWarp s cluster w))
        else blockRelease s.cur.wk (s.updCw fun w => barBoundary cluster (barWarp s cluster w))) =
          (s.updCw fun w => settleOuts (barBoundary cluster (barWarp s cluster w))).setCores c ∧
        ∀ k, (s.setCores c).coreAt k = s.coreAt k := by
      have e : (s.updCw fun w => barBoundary cluster (barWarp s cluster w)).updWarp s.cur.wk settleOuts =
          s.updCw fun w => settleOuts (barBoundary cluster (barWarp s cluster w)) := updCw_updCw s _ _
      by_cases hc : cluster = true
      · obtain ⟨c, hx, hk⟩ := forceRelease_quiet s.cur.wk .c (s.updCw fun w => barBoundary cluster (barWarp s cluster w)) hfind hids
          fun _ => by
            have hbk : (barBoundary cluster (barWarp s cluster s.cw)).bk = s.cw.bk := by rw [barBoundary_rest]
            rw [hwk, hbk]
            exact hq hc
        rw [hx] at hk
        exact ⟨c, by rw [if_pos hc, hx, e], hk⟩
      · refine ⟨s.cores, ?_, fun k => rfl⟩
        rw [if_neg hc, blockRelease_quiet _ _ hfind (by rw [hwk, barBoundary_rest]; exact hm) hat, e]
        rfl
    refine ⟨_, exec_bar s h sw cluster hw, ?_⟩
    rw [if_pos ha, hrel]
    have hcw : ((s.updCw fun w => settleOuts (barBoundary cluster (barWarp s cluster w))).setCores c).cw =
        settleOuts (barBoundary cluster (barWarp s cluster s.cw)) := updCw_cw s _ h1
    refine ⟨rfl, fun k hk => ?_, hcores, ?_, fun l hl => ?_⟩
    · simp [State.updCw, Ne.symm hk]
    · rw [hcw, settleOuts, barBoundary_rest]
    · rw [hcw]
      exact barBoundary_lane s h2 cluster ha l hl

/-! ### Ordering operations behind an empty stream (R204, R205, R223, R224, R229) -/
/-- How an ordering instruction ends: the change that it makes to its warp, which leaves the warp's stream alone. -/
structure EndsBy (s : State) (k : State → State) (K : Warp → Warp) : Prop where
  run : ∀ u : State, u.cur = s.cur → u.inBundle = true → k u = u.updCw K
  stream : ∀ w q, K { w with memq := q } = { K w with memq := q }
  kept : ∀ w, (K w).bk = w.bk ∧ (K w).hb = w.hb ∧ (K w).ntFids = w.ntFids ∧ (K w).memq = w.memq
theorem done_endsBy (s : State) : EndsBy s done (endIssue s.cur.mask s.cur.pc) where
  run u hc hu := by rw [done_eq u ((inBundle_iff u).1 hu).2.2.1, hc]
  stream _ _ := rfl
  kept _ := ⟨rfl, rfl, rfl, rfl⟩
theorem doneB_endsBy (s : State) :
    EndsBy s doneB (fun w => Warp.boundary s.cur.mask (endIssue s.cur.mask s.cur.pc w)) where
  run u hc hu := by rw [doneB_eq u hu, hc]
  stream _ _ := rfl
  kept _ := ⟨rfl, rfl, rfl, rfl⟩
/-- An operation that orders and accesses nothing. -/
structure MemOp.orders (o : MemOp) : Prop where
  ws : o.ws = []
  lws : o.lws = []
  load : o.load = none
  isLocal : o.isLocal = false
/-- What ROINV does: the quad's snapshots of read-only lines go (R205). -/
def orderQuad (o : MemOp) (core : Nat) (s : State) : State :=
  if o.roinv then s.updQuad (quadOf core) fun q => { q with roSnaps := [] } else s
/-- The state after an ordering operation has left the stream. -/
def orderLeaves (wk : Nat) (o : MemOp) (s : State) : State :=
  orderQuad o (s.block (s.warp wk).bk).core (s.updWarp wk fun w => { w with memq := w.memq.filter fun x => x.id != o.id })
theorem finishOp_orders (wk : Nat) (o : MemOp) (s : State) (h : o.orders) :
    ∃ c, finishOp wk o s = (orderLeaves wk o s).setCores c ∧ (o.acq = none → c = s.cores) ∧ ∀ k, (s.setCores c).coreAt k =
      if k = (s.block (s.warp wk).bk).core ∧ (o.acq.any scopeWide) = true then { s.coreAt k with snaps := [] } else s.coreAt k := by
  obtain ⟨h1, h2, h3, h4⟩ := h
  have hd : ∀ sc, (∀ k, (acquireDrop (s.block (s.warp wk).bk).core sc s).coreAt k =
      if k = (s.block (s.warp wk).bk).core ∧ scopeWide sc = true then { s.coreAt k with snaps := [] } else s.coreAt k) := fun sc k => by
    rw [acquireDrop]
    by_cases hw : scopeWide sc = true
    · rw [if_pos hw, updCore_coreAt]
      by_cases hk : (s.block (s.warp wk).bk).core = k
      · rw [if_pos hk, if_pos ⟨hk.symm, hw⟩, hk]
      · rw [if_neg hk, if_neg fun hx => hk hx.1.symm]
    · rw [if_neg hw, if_neg fun hx => hw hx.2]
  simp only [finishOp, h1, h2, h3, List.isEmpty_nil, if_true]
  cases ha : o.acq with
  | none =>
    refine ⟨s.cores, ?_, fun _ => rfl, fun k => ?_⟩
    · simp only [orderLeaves, orderQuad]
      split <;> rfl
    · simp; rfl
  | some sc =>
    refine ⟨(acquireDrop (s.block (s.warp wk).bk).core sc s).cores, ?_, fun hc => absurd hc (by simp), fun k => ?_⟩
    · have e : ∀ u : State, acquireDrop (s.block (s.warp wk).bk).core sc (s.updWarp wk fun w => { w with memq := w.memq.filter fun x => x.id != o.id }) =
          (s.updWarp wk fun w => { w with memq := w.memq.filter fun x => x.id != o.id }).setCores
            (acquireDrop (s.block (s.warp wk).bk).core sc s).cores := fun u => by
        rw [acquireDrop, acquireDrop]; split <;> rfl
      simp only [e s, orderLeaves, orderQuad]
      split <;> rfl
    · simp only [Option.any_some]
      exact hd sc k
/-- The warp of an ordering instruction as it stands when its operation has been performed. -/
def orderWarp (o : MemOp) (w : Warp) : Warp :=
  { (if o.fence || o.gate.isSome then settleOuts w else w) with nextId := w.fresh + 1 }
/-- AN ORDERING INSTRUCTION behind an empty stream is performed at once. -/
theorem issueOrder_quiet (s : State) (h : s.inBundle = true) (he : streamEmpty s) (k : State → State) (K : Warp → Warp)
    (hK : EndsBy s k K) (f : MemOp → MemOp) (o : MemOp) (ho : o = f (MemOp.blank (freshId s) s.mem.nextWid)) (hord : o.orders)
    (hid : o.id = freshId s)
    (hg : o.gate = none ∨ ∃ sc, o.gate = some (.begin sc) ∧ (scopeWide sc = true → coreQuiet s))
    (hnt : ∀ f ∈ s.mem.flights, f.fid ∉ s.cw.ntFids) :
    ∃ c, issueOrder k f s = k (orderQuad o (s.block s.cw.bk).core (((numbered s).setCores c).updCw (orderWarp o))) ∧
      (o.gate = none → o.acq = none → c = s.cores) ∧
      coresDropped (s.block s.cw.bk).core (o.acq.any scopeWide) s (s.setCores c) := by
  obtain ⟨h1, h2, h3, h4⟩ := (inBundle_iff s).1 h
  obtain ⟨hm, hat, -, hh⟩ := he
  -- the state once the operation stands alone in its stream
  obtain ⟨G, hG⟩ : ∃ G : Warp → Warp, G = fun w => K { (if o.fence || o.gate.isSome then settleOuts w else w) with
      memq := w.memq ++ [o], nextId := o.id + 1 } := ⟨_, rfl⟩
  have hin : (numbered s).inBundle = true := inBundle_congr s _ h rfl rfl
  have hP : k (pushOp o (numbered s)) = (numbered s).updWarp s.cur.wk G := by
    have hpush : pushOp o (numbered s) = (numbered s).updCw fun w => { (if o.fence || o.gate.isSome then settleOuts w else w) with
        memq := w.memq ++ [o], nextId := o.id + 1 } := by
      simp only [pushOp, hord.isLocal, Bool.false_and, Bool.false_eq_true, if_false]
    rw [hpush, hK.run _ (by rfl) (inBundle_updCw _ _ hin (by split <;> rfl)), hG]
    exact updCw_updCw (numbered s) _ K
  have hwk : ((numbered s).updWarp s.cur.wk G).warp s.cur.wk = G s.cw := State.updWarp_warp _ _ _ h1
  have hGk : (G s.cw).bk = s.cw.bk ∧ (G s.cw).hb = s.cw.hb ∧ (G s.cw).ntFids = s.cw.ntFids ∧ (G s.cw).memq = [o] := by
    rw [hG]
    obtain ⟨k1, k2, k3, k4⟩ := hK.kept { (if o.fence || o.gate.isSome then settleOuts s.cw else s.cw) with
      memq := s.cw.memq ++ [o], nextId := o.id + 1 }
    refine ⟨k1.trans ?_, k2.trans ?_, k3.trans ?_, k4.trans ?_⟩
    · split <;> rfl
    · split <;> rfl
    · split <;> rfl
    · rw [hm]; rfl
  obtain ⟨g1, g2, g3, g4⟩ := hGk
  have hheld : hbHeld ((numbered s).updWarp s.cur.wk G) s.cur.wk o.wid = false := by
    rw [hbHeld_upd (numbered s) s.cur.wk o.wid G h1 g2, hbHeld_congr s.cur.wk o.wid (show (numbered s).warps = s.warps from rfl)]
    exact hh _
  have hroom : o.noRoom s.cur.wk ((numbered s).updWarp s.cur.wk G) = false := by
    rw [MemOp.noRoom, hord.load]; rfl
  have hperf := performOp_free s.cur.wk o ((numbered s).updWarp s.cur.wk G) (by rw [hwk, g4]) hat hheld hroom
  have hstill : stillFlying ((numbered s).updWarp s.cur.wk G) (G s.cw).ntFids = false := by
    rw [stillFlying, g3]
    show s.mem.flights.any (fun f => s.cw.ntFids.contains f.fid) = false
    rw [List.any_eq_false]
    intro f hf
    simpa using hnt f hf
  -- the release, where there is one, has nothing to wait for
  obtain ⟨c1, hrun, hn1, hc1⟩ : ∃ c1, performOp s.cur.wk o.id ((numbered s).updWarp s.cur.wk G) =
      finishOp s.cur.wk o (((numbered s).updWarp s.cur.wk G).setCores c1) ∧ (o.gate = none → c1 = s.cores) ∧ ∀ j, (s.setCores c1).coreAt j = s.coreAt j := by
    rcases hg with hg | ⟨sc, hg, hq⟩
    · refine ⟨s.cores, ?_, fun _ => rfl, fun _ => rfl⟩
      rw [hperf, hg]; rfl
    · have hbk : ((((numbered s).updWarp s.cur.wk G).block (((numbered s).updWarp s.cur.wk G).warp s.cur.wk).bk).core) = (s.block s.cw.bk).core := by
        rw [hwk, g1]; rfl
      obtain ⟨c1, e1, e2⟩ := releaseBegin_quiet (s.block s.cw.bk).core sc ((numbered s).updWarp s.cur.wk G) fun hs => (hq hs).1
      refine ⟨c1, ?_, fun hn => absurd hn (by simp [hg]), fun j => by rw [e1] at e2; exact e2 j⟩
      have hfids : releaseFids (s.block s.cw.bk).core sc (((numbered s).updWarp s.cur.wk G).setCores c1) = [] :=
        releaseFids_quiet _ _ _ fun hs => (hq hs).2
      rw [hperf, hg]
      simp only [hwk, hstill, Bool.and_false, Bool.false_eq_true, if_false]
      rw [g1, show (((numbered s).updWarp s.cur.wk G).block s.cw.bk).core = (s.block s.cw.bk).core from rfl, e1, hfids]
      rfl
  obtain ⟨c2, hfin, hn2, hc2⟩ := finishOp_orders s.cur.wk o (((numbered s).updWarp s.cur.wk G).setCores c1) hord
  have hblk : (((((numbered s).updWarp s.cur.wk G).setCores c1).block ((((numbered s).updWarp s.cur.wk G).setCores c1).warp s.cur.wk).bk).core) =
      (s.block s.cw.bk).core := by
    have : (((numbered s).updWarp s.cur.wk G).setCores c1).warp s.cur.wk = G s.cw := hwk
    rw [this, g1]; rfl
  refine ⟨c2, ?_, fun hg0 ha0 => (hn2 ha0).trans (hn1 hg0), fun j => ?_⟩
  · have hiss : issueOrder k f s = performOp s.cur.wk (freshId s) (k (pushOp o (numbered s))) := by rw [ho]; rfl
    have hleave : ∀ C : Map Core, ((((numbered s).setCores C).updWarp s.cur.wk G).updWarp s.cur.wk
        fun w => { w with memq := w.memq.filter fun x => x.id != o.id }) =
        (((numbered s).setCores C).updCw (orderWarp o)).updCw K := fun C => by
      rw [updCw_updCw, updWarp_updWarp]
      refine updWarp_congr _ _ _ _ ?_
      show ({ G s.cw with memq := (G s.cw).memq.filter fun x => x.id != o.id } : Warp) = K (orderWarp o s.cw)
      have hf : ([o].filter fun x => x.id != o.id) = [] := by simp
      rw [g4, hf, hG]
      dsimp only
      rw [← hK.stream]
      simp only [orderWarp, hid]
      congr 1
      rw [← hm]
      split <;> rfl
    have hlv : (orderLeaves s.cur.wk o (((numbered s).updWarp s.cur.wk G).setCores c1)).setCores c2 =
        orderQuad o (s.block s.cw.bk).core ((((numbered s).setCores c2).updCw (orderWarp o)).updCw K) := by
      rw [← hleave c2, orderLeaves, hblk]
      simp only [orderQuad]
      split <;> rfl
    have hin2 : (((numbered s).setCores c2).updCw (orderWarp o)).inBundle = true :=
      inBundle_updCw _ _ (inBundle_congr s _ h rfl rfl) (by rw [orderWarp]; split <;> rfl)
    have hend : k (orderQuad o (s.block s.cw.bk).core (((numbered s).setCores c2).updCw (orderWarp o))) =
        orderQuad o (s.block s.cw.bk).core ((((numbered s).setCores c2).updCw (orderWarp o)).updCw K) := by
      simp only [orderQuad]
      split
      · exact hK.run _ rfl (inBundle_congr _ _ hin2 rfl rfl)
      · exact hK.run _ rfl hin2
    rw [hiss, hP, ← hid, hrun, hfin, hlv, hend]
  · rw [hblk] at hc2
    have := hc2 j
    rw [show ((((numbered s).updWarp s.cur.wk G).setCores c1).setCores c2).coreAt j = (s.setCores c2).coreAt j from rfl,
      show (((numbered s).updWarp s.cur.wk G).setCores c1).coreAt j = (s.setCores c1).coreAt j from rfl, hc1 j] at this
    exact this
/-- A fence's state before the end of its issue, in the words of the statement. -/
theorem orderWarp_settled (o : MemOp) (s : State) (c : Map Core) (ho : (o.fence || o.gate.isSome) = true) :
    ((numbered s).setCores c).updCw (orderWarp o) = settled ((counted s).setCores c) := by
  have e : settled ((counted s).setCores c) = ((numbered s).setCores c).updCw fun w => settleOuts { w with nextId := w.fresh + 1 } :=
    updCw_updCw ((numbered s).setCores c) (fun w => { w with nextId := w.fresh + 1 }) settleOuts
  rw [e]
  refine congrArg _ (funext fun w => ?_)
  rw [orderWarp, ho]; rfl
theorem settled_inBundle (s : State) (h : s.inBundle = true) (c : Map Core) : (settled ((counted s).setCores c)).inBundle = true := by
  have h1 : (counted s).inBundle = true := inBundle_updCw _ _ (inBundle_congr s _ h rfl rfl) rfl
  exact inBundle_updCw _ _ (inBundle_congr _ _ h1 rfl rfl) rfl

theorem coresDropped_congr (core : Nat) (drop : Bool) (s t u : State) (h : t.cores = u.cores)
    (hd : coresDropped core drop s u) : coresDropped core drop s t := fun k => by
  rw [← hd k, State.coreAt, State.coreAt, h]
/-- Settles O22, by one rule for the three instructions. -/
theorem fencesOrderTheStream : Obligations.FencesOrderTheStream := by
  unfold Obligations.FencesOrderTheStream
  intro s sw sc h
  refine ⟨fun he hq hnt => ⟨fun imm himm => ?_, ?_, ?_⟩, fun imm n1 n2 n3 => ⟨raiseIllegal s, ?_, raiseMask_taken _ _ _ _ s h⟩⟩
  · obtain ⟨o, ho⟩ : ∃ o : MemOp → MemOp, o = fun o => { o with
      fence := true, gate := if imm.getLsbD 1 then some (.begin sc) else none, acq := if imm.getLsbD 0 then some sc else none } :=
      ⟨_, rfl⟩
    have hgate : (o (MemOp.blank (freshId s) s.mem.nextWid)).gate = none ∨ ∃ sc',
        (o (MemOp.blank (freshId s) s.mem.nextWid)).gate = some (.begin sc') ∧ (scopeWide sc' = true → coreQuiet s) := by
      rw [ho]
      dsimp only
      split
      · exact .inr ⟨sc, rfl, hq⟩
      · exact .inl rfl
    obtain ⟨c, e, -, hc⟩ := issueOrder_quiet s h he done _ (done_endsBy s) o _ rfl
      (by rw [ho]; exact ⟨rfl, rfl, rfl, rfl⟩) (by rw [ho]; rfl) hgate hnt
    have ex : exec (.fence sw sc imm) s = .next (legalOr (imm == 1 || imm == 2 || imm == 3) s (issueOrder done o s)) := by
      rw [ho]; rfl
    have hleg : (imm == 1 || imm == 2 || imm == 3) = true := by
      rcases himm with rfl | rfl | rfl <;> rfl
    have hacq : (o (MemOp.blank (freshId s) s.mem.nextWid)).acq.any scopeWide = (imm.getLsbD 0 && scopeWide sc) := by
      rw [ho]
      dsimp only
      cases imm.getLsbD 0 <;> rfl
    rw [legalOr, if_pos hleg, e, orderWarp_settled _ s c (by rw [ho]; rfl)] at ex
    rw [hacq] at hc
    have hq0 : ∀ u, orderQuad (o (MemOp.blank (freshId s) s.mem.nextWid)) (s.block s.cw.bk).core u = u := fun u => by rw [ho]; rfl
    rw [hq0] at ex
    exact ⟨c, _, ex, done_wentOn _ (settled_inBundle s h c), coresDropped_congr _ _ s _ _
      (by rw [done_eq _ (by exact ((inBundle_iff s).1 h).2.2.1)]; rfl) hc⟩
  · obtain ⟨c, e, -, hc⟩ := issueOrder_quiet s h he doneB _ (doneB_endsBy s)
      (fun o => { o with fence := true, drain := true, gate := some (.begin sc) }) _ rfl ⟨rfl, rfl, rfl, rfl⟩ rfl
      (.inr ⟨sc, rfl, hq⟩) hnt
    rw [orderWarp_settled _ s c rfl] at e
    have ex : exec (.drain sw sc) s = .next (doneB (settled ((counted s).setCores c))) := congrArg Host.Outcome.next e
    exact ⟨c, _, ex, doneB_committed _ (settled_inBundle s h c), coresDropped_congr _ _ s _ _
      (by rw [doneB_eq _ (settled_inBundle s h c)]; rfl) hc⟩
  · obtain ⟨c, e, hc, -⟩ := issueOrder_quiet s h he done _ (done_endsBy s) (fun o => { o with roinv := true }) _ rfl
      ⟨rfl, rfl, rfl, rfl⟩ rfl (.inl rfl) hnt
    rw [hc rfl rfl] at e
    have h1 : (counted s).inBundle = true := inBundle_updCw _ _ (inBundle_congr s _ h rfl rfl) rfl
    exact ⟨_, congrArg Host.Outcome.next e, done_wentOn _ (inBundle_congr _ _ h1 rfl rfl)⟩
  · show Host.Outcome.next (legalOr _ s _) = _
    rw [beq_false_of_ne n1, beq_false_of_ne n2, beq_false_of_ne n3]; rfl

end Sys2Proof.Machine
end

section
/-! Barrier objects in the scratchpad (O25). -/
namespace Sys2Proof.Machine

/-! ### What an op asks (R202, R183) -/
/-- A place in the window that nothing is wrong with. -/
theorem uniformAcc_place (k : Acc) (n align : Nat) (a : DWord) (off : Nat) (s : State) (ha : localAlias a = true)
    (ho : a.toNat % 2 ^ 32 = off) (hs : off + n ≤ s.cb.spSize) (hm : off % align = 0)
    (hb : sramBad s s.cw.bk .sp off n = false) : uniformAcc k n align a s = (.ok (true, localAcc 0 off), s) := by
  rw [uniformAcc, if_pos ha]
  simp only [ho, hb, Bool.and_false, Bool.false_eq_true, if_false]
  rw [if_neg (by omega), if_neg (by omega)]
theorem inBundle_of_inBlock {s : State} (h : s.inBlock = true) : s.inBundle = true := by
  simp only [State.inBlock, Bool.and_eq_true] at h
  exact h.1.1
theorem block_of_inBlock {s : State} (h : s.inBlock = true) : (mFind s.blocks s.cw.bk).isSome = true := by
  simp only [State.inBlock, Bool.and_eq_true] at h
  exact h.1.2
/-- The last bundle of its cycle acts on its object at once. -/
theorem barxLocal_now (op : BarxOp) (d : Reg) (off : Nat) (v : Word) (s : State)
    (hp : (s.schedAt s.cur.core s.cur.sched).pendB = none) (hl : (s.schedAt s.cur.core s.cur.sched).late = []) :
    barxLocal op d off v s =
      let s1 := if barxArrives op then blockRelease s.cur.wk s else s
      applyLate (if barxWrites op then barxDone op s1 else barxOut d (if v.getLsbD 0 then 0 else 1) none true s1)
        { wk := s.cur.wk, bk := s.cw.bk, off := off, op := op, val := v,
          out := if barxWrites op then none else some (freshId s1), hbs := if barxArrives op then s1.cw.hb else [] } := by
  rw [State.schedAt] at hp hl
  simp only [barxLocal, hp, hl, Option.isNone_none, List.isEmpty_nil, Bool.and_self, if_true]
  cases barxWrites op <;> rfl
/-- BARX on an object in the scratchpad, past its checks. -/
theorem exec_barx (s : State) (sw : Bool) (op : BarxOp) (d a b : Reg) (off : Nat)
    (hd : (op = .test ∨ op = .wait) ∨ d = 0) (hb0 : op = .arrive → b = 0) (hdu : (op ≠ .test ∧ op ≠ .wait) ∨ uniCode d = true)
    (ha : uniCode a = true) (hae : evenCode a = true) (hb : op = .arrive ∨ uniCode b = true)
    (hoff : s.usrc64 a = BitVec.ofNat 64 (0xFFFFFFFF00000000 + off)) (hs : off + 16 ≤ s.cb.spSize) (hm : off % 16 = 0)
    (hlt : off < 2 ^ 32) (hbad : sramBad s s.cw.bk .sp off 16 = false)
    (hi : op = .init → 1 ≤ (s.usrc b).toNat ∧ (s.usrc b).toNat < 65536) :
    exec (.barx sw op d a b) s = .next (barxLocal op d off (if op = .arrive then 0 else s.usrc b) s) := by
  obtain ⟨hal, hof⟩ := alias_place off hlt
  rw [← hoff] at hal hof
  have hleg : ((!barxWrites op || d == 0) && (op != .arrive || b == 0)) = true := by
    have h1 : (!barxWrites op || d == 0) = true := by
      rcases hd with (rfl | rfl) | rfl
      · rfl
      · rfl
      · simp
    have h2 : (op != .arrive || b == 0) = true := by
      by_cases hx : op = .arrive
      · simp [hb0 hx]
      · simp [hx]
    rw [h1, h2]; rfl
  have hops : ([⟨0, d, barxWrites op || uniCode d⟩, ⟨1, a, uniCode a && evenCode a⟩, ⟨2, b, op == .arrive || uniCode b⟩] :
      List OpPos).all (·.ok) = true := by
    have h1 : (barxWrites op || uniCode d) = true := by
      rcases hdu with ⟨hx, hy⟩ | hx
      · simp [barxWrites, hx, hy]
      · simp [hx]
    have h2 : (op == .arrive || uniCode b) = true := by
      rcases hb with hx | hx
      · simp [hx]
      · simp [hx]
    simp [h1, h2, ha, hae]
  have hinit : ¬ (op = .init ∧ ((if op = .arrive then 0 else s.usrc b) = 0 ∨ (if op = .arrive then 0 else s.usrc b) >>> 16 ≠ 0)) := by
    rintro ⟨rfl, hx⟩
    obtain ⟨h1, h2⟩ := hi rfl
    rw [if_neg (by decide)] at hx
    rcases hx with hx | hx
    · rw [hx] at h1; exact absurd h1 (by decide)
    · refine hx (BitVec.eq_of_toNat_eq ?_)
      rw [BitVec.toNat_ushiftRight, Nat.shiftRight_eq_div_pow]
      exact Nat.div_eq_of_lt h2
  have e : exec (.barx sw op d a b) s = execBarx sw op d a b s := rfl
  rw [e, execBarx]
  simp only [Bool.not_not, hal, if_true]
  rw [legalOr, if_pos hleg, operandsOr_ok _ _ _ hops, uniformAcc_place _ 16 16 _ off s hal hof hs hm hbad]
  dsimp only
  rw [if_neg hinit]
  rfl

/-! ### A change of an object's words (R202) -/
theorem satisfyObj_keeps (loc : Bool) (addr : Nat) (parity : Bool) (hb : List Nat) (w : Warp) :
    ∃ o h, satisfyObj loc addr parity hb w = { w with outs := o, hb := h } := by
  rw [satisfyObj]
  split
  · exact ⟨_, _, rfl⟩
  · exact ⟨w.outs, w.hb, rfl⟩
/-- What a change of a local object leaves: its words, and of warps their results and what is ordered before them. -/
theorem localObjChange_leaves (bk off : Nat) (r : BarObj × Bool) (s : State) (hb : (mFind s.blocks bk).isSome = true) :
    (localObjChange bk off r s).block bk = (s.block bk).putObj off r.1 ∧ (localObjChange bk off r s).mem = s.mem ∧
      (localObjChange bk off r s).cur = s.cur ∧
      ∀ k, (mFind s.warps k).isSome = true →
        ∃ o h, (localObjChange bk off r s).warp k = { s.warp k with outs := o, hb := h } := by
  have hblk := State.updBlock_block s bk (fun b => b.putObj off r.1) hb
  rw [localObjChange]
  split
  · refine ⟨hblk, rfl, rfl, fun k hk => ?_⟩
    obtain ⟨w, hw⟩ := Option.isSome_iff_exists.1 hk
    have hf := mFind_map s.warps k (fun w => w.bk = bk) (satisfyObj true off r.1.parity (mGet ((s.updBlock bk fun b => b.putObj off r.1).block bk).objHb [] off))
    rw [hw, Option.map_some] at hf
    have e := warp_of_mFind (s := (s.updBlock bk fun b => b.putObj off r.1).setWarps _) hf
    obtain ⟨o, h, hk'⟩ : ∃ o h, (if w.bk = bk then satisfyObj true off r.1.parity
        (mGet ((s.updBlock bk fun b => b.putObj off r.1).block bk).objHb [] off) w else w) = { w with outs := o, hb := h } := by
      split
      · exact satisfyObj_keeps _ _ _ _ _
      · exact ⟨w.outs, w.hb, rfl⟩
    rw [hk'] at e
    rw [warp_of_mFind hw]
    exact ⟨o, h, e⟩
  · exact ⟨hblk, rfl, rfl, fun k _ => ⟨(s.warp k).outs, (s.warp k).hb, rfl⟩⟩
/-- The object's words, and every other byte of the windows. -/
theorem putObj_becomes (s t : State) (b : Block) (off : Nat) (o : BarObj) (h : t.block s.cw.bk = b.putObj off o)
    (hb : ∀ q, b.space q = s.cb.space q) : objectBecomes off o s t := by
  have hsp : ∀ q, q ≠ .sp → (b.putObj off o).space q = b.space q := fun q hq => by
    cases q
    · exact absurd rfl hq
    all_goals rfl
  have hlen : (wordBytes o.w0 ++ wordBytes o.pending ++ wordBytes o.bytes).length = 12 := rfl
  refine ⟨?_, fun x hx => ?_, fun q hq => ?_⟩
  · rw [h, putObj_obj]
  · have e : (t.block s.cw.bk).sp = memWriteBytes b.sp off (wordBytes o.w0 ++ wordBytes o.pending ++ wordBytes o.bytes) := by
      rw [h]; rfl
    have hbs : b.sp = s.cb.sp := hb .sp
    rw [e, memRead_memWriteBytes, hlen, if_neg (by omega), hbs]
  · rw [h, hsp q hq, hb q]
theorem obj_congr (b c : Block) (off : Nat) (h : b.sp = c.sp) : b.obj off = c.obj off := by simp only [Block.obj, h]

/-! ### Arrivals, .init and .expect -/
/-- The state in which an op takes effect: the issue is over, an arrival's release made. -/
theorem barxDone_leaves (s : State) (op : BarxOp) (h : s.inBlock = true)
    (hst : op = .arrive ∨ op = .arriveExpect → streamEmpty s) :
    ∃ D : Warp → Warp, barxDone op (if barxArrives op then blockRelease s.cur.wk s else s) = s.updCw D ∧
      (if op = .arrive ∨ op = .arriveExpect then lanesCommitted s (s.updCw D) else lanesWentOn s (s.updCw D)) ∧
      (D s.cw).lanes.length = 32 ∧ ∀ x, destExists x = true → regAt (D s.cw) x = regAt s.cw x := by
  have hb := inBundle_of_inBlock h
  obtain ⟨h1, h2, h3, h4⟩ := (inBundle_iff s).1 hb
  by_cases ha : op = .arrive ∨ op = .arriveExpect
  · have har : barxArrives op = true := by rcases ha with rfl | rfl <;> rfl
    obtain ⟨hm, hat, -, -⟩ := hst ha
    have hrel : blockRelease s.cur.wk s = s.updCw settleOuts := blockRelease_quiet _ s h1 hm hat
    have hin : (s.updCw settleOuts).inBundle = true := inBundle_updCw s _ hb rfl
    have e : doneB (s.updCw settleOuts) = s.updCw fun w => Warp.boundary s.cur.mask (endIssue s.cur.mask s.cur.pc (settleOuts w)) := by
      rw [doneB_eq _ hin]; exact updCw_updCw s _ _
    have hcw := updCw_cw s (fun w => Warp.boundary s.cur.mask (endIssue s.cur.mask s.cur.pc (settleOuts w))) h1
    refine ⟨fun w => Warp.boundary s.cur.mask (endIssue s.cur.mask s.cur.pc (settleOuts w)), ?_, ?_, ?_, fun x hx => ?_⟩
    · rw [barxDone, har, if_pos rfl, if_pos rfl, hrel, e]
    · rw [if_pos ha]
      intro l hl
      rw [hcw, endB_lane _ _ _ _ (by show l < s.cw.lanes.length; omega)]
      split <;> rfl
    · simp [Warp.boundary, endIssue, settleOuts, h2]
    · have hlen : (endIssue s.cur.mask s.cur.pc (settleOuts s.cw)).lanes.length = 32 := by simp [endIssue, settleOuts, h2]
      have hs0 : regAt (settleOuts s.cw) x = regAt s.cw x := by cases x <;> rfl
      rw [boundary_reg _ _ _ hlen hx, endIssue_reg _ _ _ _ (by exact h2) hx, hs0]
  · have har : barxArrives op = false := by
      rw [not_or] at ha
      simp [barxArrives, ha.1, ha.2]
    have hcw := updCw_cw s (endIssue s.cur.mask s.cur.pc) h1
    refine ⟨endIssue s.cur.mask s.cur.pc, ?_, ?_, ?_, fun x hx => endIssue_reg _ _ _ _ h2 hx⟩
    · rw [barxDone, har, if_neg (by decide), if_neg (by decide), done_eq s h3]
    · rw [if_neg ha]
      intro l hl
      rw [hcw, endIssue_lane _ _ _ _ (by omega)]
    · simp [endIssue, h2]
/-- AN OP THAT CHANGES ITS OBJECT, past its checks. -/
theorem applyLate_changes (s : State) (op : BarxOp) (off : Nat) (v : Word) (hbs : List Nat) (D : Warp → Warp)
    (h : s.inBlock = true) : ∃ t o x, applyLate (s.updCw D)
        { wk := s.cur.wk, bk := s.cw.bk, off := off, op := op, val := v, out := none, hbs := hbs } = t ∧
      objectBecomes off ((s.cb.obj off).step op v).1 s t ∧ t.mem = s.mem ∧ t.cur = s.cur ∧
      t.cw = { D s.cw with outs := o, hb := x } := by
  obtain ⟨h1, -, -, -⟩ := (inBundle_iff s).1 (inBundle_of_inBlock h)
  have hcw := updCw_cw s D h1
  have hbk := block_of_inBlock h
  -- what is ordered before the phase is noted with the block
  obtain ⟨u, hu, hub, hublk, huw⟩ : ∃ u, u = (if hbs.isEmpty then s.updCw D else (s.updCw D).updBlock s.cw.bk fun b =>
      { b with objHb := mSet b.objHb off (hbs ++ mGet b.objHb [] off).dedup }) ∧
      (mFind u.blocks s.cw.bk).isSome = true ∧ (∀ q, (u.block s.cw.bk).space q = s.cb.space q) ∧
      (u.warps = (s.updCw D).warps ∧ u.mem = s.mem ∧ u.cur = s.cur) := by
    refine ⟨_, rfl, ?_⟩
    split
    · exact ⟨hbk, fun q => rfl, rfl, rfl, rfl⟩
    · refine ⟨by simp [hbk], fun q => ?_, rfl, rfl, rfl⟩
      rw [State.updBlock_block _ _ _ (by exact hbk)]
      cases q <;> rfl
  obtain ⟨hw, hmem, hcur⟩ := huw
  obtain ⟨l1, l2, l3, l4⟩ := localObjChange_leaves s.cw.bk off ((s.cb.obj off).step op v) u hub
  have hfind : (mFind u.warps s.cur.wk).isSome = true := by rw [hw]; simp [State.updCw, h1]
  obtain ⟨o, x, hox⟩ := l4 s.cur.wk hfind
  have huwk : u.warp s.cur.wk = D s.cw := by rw [State.warp, hw]; exact hcw
  refine ⟨localObjChange s.cw.bk off ((s.cb.obj off).step op v) u, o, x, ?_, ?_, l2.trans hmem, l3.trans hcur, ?_⟩
  · rw [applyLate]
    dsimp only
    rw [← hu, obj_congr (u.block s.cw.bk) s.cb off (hublk .sp)]
  · exact putObj_becomes s _ (u.block s.cw.bk) off _ l1 hublk
  · rw [State.cw, l3, hcur, hox, huwk]

/-! ### .test and .wait -/
/-- The result of a .test or a .wait as it stands once the object has been seen. -/
def barxResult (s : State) (d : Reg) (v : Word) (obj : Option ObjWait) (waitOp : Bool) : Out :=
  { Out.blank (freshId s) s.cur.mask d false with
    obj := obj, waitOp := waitOp, vals := [(lowLane s.cur.mask, z64 v)],
    writes := if d.toNat = 124 then [] else warpWrites d false (z64 v) }
theorem barxOut_due (s : State) (h : s.inBundle = true) (d : Reg) (v : Word) (obj : Option ObjWait) (waitOp : Bool)
    (hd : 92 ≤ d.toNat ∧ d.toNat < 108 ∨ d = 124) :
    barxOut d v obj waitOp s = s.updCw (dueIssue (barxResult s d v obj waitOp) [] s.cur.mask s.cur.pc) := by
  have h3 := ((inBundle_iff s).1 h).2.2.1
  rcases hd with ⟨h1, h2⟩ | rfl
  · have hne : d.toNat ≠ 124 := by omega
    rw [barxOut, outResult_warp _ _ _ _ _ _ rfl h1 h2, plain_apply, addOut_due_eq _ _ h3, barxResult, if_neg hne]
    rfl
  · rw [barxOut, outResult_z _ _ _ _ _ _ rfl, plain_apply, addOut_due_eq _ _ h3]
    rfl
/-- The registers that the result is to bring. -/
theorem barxResult_finds (s : State) (d : Reg) (v : Word) (obj : Option ObjWait) (waitOp : Bool)
    (hd : 92 ≤ d.toNat ∧ d.toNat < 108 ∨ d = 124) (x : Dest) :
    ((barxResult s d v obj waitOp).writes.find? fun y => y.dest == x).map (·.val) =
      resultDest d false s.cur.mask (fun _ => z64 v) x := by
  rcases hd with ⟨h1, h2⟩ | rfl
  · have hne : d.toNat ≠ 124 := by omega
    have hc := warpResult d false (fun _ => z64 v) s h1 h2 (by simp)
    rw [barxResult]
    simp only [if_neg hne]
    refine covers_find _ _ _ hc (fun y hy => ?_) x
    rcases (mem_warpWrites _ _ _ _).1 hy with rfl | ⟨-, rfl⟩ <;> rfl
  · cases x <;> simp [barxResult, resultDest]
/-- A result that is changed where it stands last, and names the same registers. -/
theorem answer_due (s : State) (o o1 : Out) (F : Out → Out) (x : List Nat) (hF : F o = o1) (hi : o.id = freshId s)
    (hi1 : o1.id = o.id) (hd : o1.writes.map (·.dest) = o.writes.map (·.dest)) :
    updOut s.cur.wk (freshId s) F ((s.updCw (dueIssue o [] s.cur.mask s.cur.pc)).updCw fun w => { w with hb := x }) =
      (s.updCw fun w => { w with hb := x }).updCw (dueIssue o1 [] s.cur.mask s.cur.pc) := by
  have hall : ∀ y : RegWrite, (o1.writes.all fun z => y.dest != z.dest) = o.writes.all fun z => y.dest != z.dest := fun y => by
    have := congrArg (fun l : List Dest => l.all fun e => y.dest != e) hd
    rw [List.all_map, List.all_map] at this
    exact this
  have e : ∀ u : State, u.cur = s.cur → updOut s.cur.wk (freshId s) F u =
      u.updCw fun w => { w with outs := w.outs.map fun o => if o.id = freshId s then F o else o } := fun u hu => by
    rw [updOut, State.updCw, hu]
  rw [e ((s.updCw (dueIssue o [] s.cur.mask s.cur.pc)).updCw fun w => { w with hb := x }) rfl, updCw_updCw, updCw_updCw, updCw_updCw]
  refine updCw_congr s _ _ ?_
  have hold : ∀ g : Out → Out, (∀ p, (g p).id = p.id) → ∀ p ∈ s.cw.outs.map g, p.id ≠ freshId s := fun g hg p hp => by
    obtain ⟨q, hq, rfl⟩ := List.mem_map.1 hp
    rw [hg]; exact (fresh_new s.cw).1 q hq
  have hmap : ((dueIssue o [] s.cur.mask s.cur.pc s.cw).outs.map fun o => if o.id = freshId s then F o else o) =
      (dueIssue o1 [] s.cur.mask s.cur.pc s.cw).outs := by
    simp only [dueIssue, endIssue, Warp.updLanes, hall]
    rw [map_last _ o (freshId s) F hi (hold (fun p => { p with writes := p.writes.filter fun x => o.writes.all fun y => x.dest != y.dest })
      fun _ => rfl), hF]
  have hbody : ∀ p : Out, p.id = o.id → dueIssue p [] s.cur.mask s.cur.pc s.cw =
      { dueIssue o [] s.cur.mask s.cur.pc s.cw with outs := (dueIssue p [] s.cur.mask s.cur.pc s.cw).outs } := fun p hp => by
    simp only [dueIssue, hp]; rfl
  have hl : dueIssue o1 [] s.cur.mask s.cur.pc { s.cw with hb := x } = { dueIssue o1 [] s.cur.mask s.cur.pc s.cw with hb := x } := rfl
  show ({ dueIssue o [] s.cur.mask s.cur.pc s.cw with
    hb := x, outs := (dueIssue o [] s.cur.mask s.cur.pc s.cw).outs.map fun o => if o.id = freshId s then F o else o } : Warp) = _
  rw [hmap, hl, hbody o1 hi1]
/-- A .test or a .wait of a local object, as the last bundle of its cycle. -/
theorem barx_reads (s : State) (op : BarxOp) (d : Reg) (off : Nat) (v : Word) (h : s.inBlock = true)
    (hop : barxWrites op = false) (hd : 92 ≤ d.toNat ∧ d.toNat < 108 ∨ d = 124)
    (hp : (s.schedAt s.cur.core s.cur.sched).pendB = none) (hl : (s.schedAt s.cur.core s.cur.sched).late = []) :
    ∃ x, barxLocal op d off v s = (s.updCw fun w => { w with hb := x }).updCw (dueIssue
      (if op = .test then barxResult s d (if (s.cb.obj off).parity = v.getLsbD 0 then 0 else 1) none false
       else barxResult s d (if v.getLsbD 0 then 0 else 1)
        (if (s.cb.obj off).parity = v.getLsbD 0 then some { loc := true, addr := off, parity := v.getLsbD 0 } else none) false)
      [] s.cur.mask s.cur.pc) := by
  have hb := inBundle_of_inBlock h
  have harr : barxArrives op = false := by cases op <;> first | rfl | (exact absurd hop (by decide))
  have hloc := barxLocal_now op d off v s hp hl
  simp only [harr, hop, Bool.false_eq_true, if_false] at hloc
  rw [barxOut_due s hb d _ none true hd] at hloc
  obtain ⟨u, hu⟩ : ∃ u, u = s.updCw (dueIssue (barxResult s d (if v.getLsbD 0 then 0 else 1) none true) [] s.cur.mask s.cur.pc) := ⟨_, rfl⟩
  have hobj : (u.block s.cw.bk).obj off = s.cb.obj off := by rw [hu]; rfl
  have hcur : u.cur = s.cur := by rw [hu]; rfl
  rw [← hu] at hloc
  obtain ⟨x, hx⟩ : ∃ x, (if ((s.cb.obj off).parity != v.getLsbD 0) = true then
      addHb s.cur.wk (mGet (u.block s.cw.bk).objHb [] off) u else u) = u.updCw fun w => { w with hb := x } := by
    split
    · exact addHb_hb s.cur.wk u _ (by rw [hcur])
    · exact ⟨u.cw.hb, (updCw_id u).symm.trans (updCw_congr u _ _ rfl)⟩
  refine ⟨x, ?_⟩
  rw [hloc, applyLate]
  dsimp only
  rw [hobj, hx, hu, objAnswer]
  have hz : ∀ y : Word, (z64 y).setWidth 32 = y := fun y => by simp [z64]
  refine answer_due s _ _ _ x ?_ rfl ?_ ?_
  · by_cases ht : op = .test
    · have hv : (if ((s.cb.obj off).parity != v.getLsbD 0) = true then 1 else 0 : Word) =
          if (s.cb.obj off).parity = v.getLsbD 0 then 0 else 1 := by
        by_cases he : (s.cb.obj off).parity = v.getLsbD 0 <;> simp [he]
      rw [if_pos ht, if_pos ht, hv]
      by_cases hd : d.toNat = 124
      · simp [barxResult, hd]
      · simp [barxResult, hd, warpWrites, hz]
    · rw [if_neg ht, if_neg ht]
      by_cases he : (s.cb.obj off).parity = v.getLsbD 0 <;> simp [barxResult, he]
  · split <;> rfl
  · split
    · by_cases hd : d.toNat = 124 <;> simp [barxResult, hd, warpWrites]
    · rfl
theorem z64_flag (c : Prop) [Decidable c] : z64 (if c then 0 else 1) = if c then 0 else 1 := by split <;> rfl

/-- Settles O25: each kind of op, past its checks, as the last bundle of its cycle. -/
theorem barxAtTheScratchpad : Obligations.BarxAtTheScratchpad := by
  unfold Obligations.BarxAtTheScratchpad
  intro s sw op d a b off h hd hb0 hdu ha hae hb hoff hs hm hlt hbad hi hst hp hl
  have hin := inBundle_of_inBlock h
  obtain ⟨h1, h2, h3, h4⟩ := (inBundle_iff s).1 hin
  have hex := exec_barx s sw op d a b off hd hb0 hdu ha hae hb hoff hs hm hlt hbad hi
  refine ⟨fun n1 n2 => ?_, fun hdw => ⟨fun ht => ?_, fun ht hpar => ?_, fun ht hpar => ?_⟩⟩
  · have hw : barxWrites op = true := by simp [barxWrites, n1, n2]
    have hloc := barxLocal_now op d off (if op = .arrive then 0 else s.usrc b) s hp hl
    simp only [hw, if_true] at hloc
    obtain ⟨D, hD, hlanes, hlen, hregs⟩ := barxDone_leaves s op h hst
    rw [hD] at hloc
    obtain ⟨t, o, x, ht, hobj, hmem, hcur, hcw⟩ := applyLate_changes s op off (if op = .arrive then 0 else s.usrc b)
      (if barxArrives op = true then (if barxArrives op = true then blockRelease s.cur.wk s else s).cw.hb else []) D h
    rw [ht] at hloc
    rw [hloc] at hex
    have hDcw := updCw_cw s D h1
    have hlane : ∀ l, t.cw.lane l = (s.updCw D).cw.lane l := fun l => by rw [hDcw]; exact lane_congr (by rw [hcw]) l
    refine ⟨t, hex, hobj, ?_, fun y hy => ?_, hmem⟩
    · by_cases hx : op = .arrive ∨ op = .arriveExpect
      · rw [if_pos hx] at hlanes ⊢
        intro l hl'
        rw [hlane l]
        exact hlanes l hl'
      · rw [if_neg hx] at hlanes ⊢
        intro l hl'
        rw [hlane l]
        exact hlanes l hl'
    · rw [hcw, ← hregs y hy]
      cases y <;> rfl
  -- a .test or a .wait
  all_goals
    have hw : barxWrites op = false := by rw [ht]; rfl
    have hna : op ≠ .arrive := by rw [ht]; decide
    obtain ⟨x, hx⟩ := barx_reads s op d off (s.usrc b) h hw hdw hp hl
    have hinx : (s.updCw fun w => { w with hb := x }).inBundle = true := inBundle_updCw s _ hin rfl
    have hfr : freshId (s.updCw fun w => { w with hb := x }) = freshId s := by rw [freshId, updCw_cw s _ h1]; rfl
    rw [if_neg hna, hx] at hex
  · rw [if_pos ht] at hex
    refine ⟨_, x, hex, due_spec _ _ [] _ hinx hfr.symm rfl rfl fun y => ?_⟩
    rw [barxResult_finds s d _ none false hdw y, z64_flag]
  · rw [if_neg (by rw [ht]; decide), if_neg hpar] at hex
    refine ⟨_, x, hex, due_spec _ _ [] _ hinx hfr.symm rfl rfl fun y => ?_⟩
    rw [barxResult_finds s d _ none false hdw y, z64_flag]
  · rw [if_neg (by rw [ht]; decide), if_pos hpar] at hex
    obtain ⟨o, ho⟩ : ∃ o, o = barxResult s d (if (s.usrc b).getLsbD 0 = true then 0 else 1)
      (some { loc := true, addr := off, parity := (s.usrc b).getLsbD 0 }) false := ⟨_, rfl⟩
    rw [← ho, updCw_updCw] at hex
    have hcw := updCw_cw s (fun w => dueIssue o [] s.cur.mask s.cur.pc { w with hb := x }) h1
    refine ⟨_, o, hex, onlyWarp_upd s _ _, fun l hl' => ?_, ?_, ?_, ?_, ?_, ?_, fun y hy => ?_⟩
    · rw [hcw, dueIssue, endIssue_lane _ _ _ _ (by show l < s.cw.lanes.length; omega)]
      rfl
    · rw [hcw]
      exact List.mem_append_right _ (List.mem_singleton_self o)
    · rw [ho]; rfl
    · rw [ho]; rfl
    · rw [ho]; rfl
    · rw [ho]; rfl
    · rw [hcw, dueIssue]
      exact (endIssue_reg _ _ _ y (by exact h2) hy).trans (regAt_congr _ _ _ rfl rfl rfl (fun _ _ => rfl) hy)

end Sys2Proof.Machine
end

section
/-! Faults of memory accesses (O33). -/
namespace Sys2Proof.Machine

/-! ### Bundles all of whose lanes fault -/
/-- Where every lane's access adds its own fault and nothing else, the bundle's are those of its lanes. -/
theorem lanes_allFault (f : LaneRes → Nat → LaneRes) (s : State) (g : Nat → LaneFault) (ls : List Nat) (fs : List LaneFault)
    (h : ∀ l ∈ ls, ∀ fs, f ⟨[], fs, s⟩ l = ⟨[], fs ++ [g l], s⟩) : ls.foldl f ⟨[], fs, s⟩ = ⟨[], fs ++ ls.map g, s⟩ := by
  induction ls generalizing fs with
  | nil => simp
  | cons l t ih =>
    rw [List.foldl_cons, h l List.mem_cons_self, ih _ fun x hx => h x (List.mem_cons_of_mem _ hx), List.map_cons,
      List.append_assoc, List.singleton_append]
/-- What an access's instruction does with a bundle that has no access left: it raises the lanes' faults. -/
def RaisesFaults (issue : LaneRes → State) : Prop := ∀ r : LaneRes, r.accs = [] → issue r = raiseLanes r.faults r.s
theorem issueLoad_raises (k : LoadKind) (b : Bool) (n : Nat) (t : Reg) : RaisesFaults (issueLoad k b n t) := fun r hr => by
  simp only [issueLoad, hr, List.isEmpty_nil, if_true]
theorem issueStore_raises (n : Nat) (t : Reg) (nt : Bool) (rel : Option Scope) : RaisesFaults (issueStore n t nt rel) :=
  fun r hr => by simp only [issueStore, hr, List.isEmpty_nil, if_true]
theorem issueLStore_raises (q : LSpace) (n : Nat) (t : Reg) (rel : Option Scope) : RaisesFaults (issueLStore q n t rel) :=
  fun r hr => by simp only [issueLStore, hr, List.isEmpty_nil, if_true]
theorem issueAtom_raises (aop : Aop) (b64 : Bool) (u : Use) (sp : Bool) (t : Reg) : RaisesFaults (issueAtom aop b64 u sp t) :=
  fun r hr => by simp only [issueAtom, hr, List.isEmpty_nil, if_true]
/-- The qualifier of a load touches its accesses alone. -/
theorem issueLoad_withPolicy_raises (k : LoadKind) (b : Bool) (n : Nat) (t : Reg) (q : LdgQ) :
    RaisesFaults fun r => issueLoad k b n t (withPolicy q r) := fun r hr =>
  issueLoad_raises k b n t (withPolicy q r) (by rw [withPolicy, hr]; rfl)
/-- A BUNDLE ALL OF WHOSE LANES FAULT takes the fault of its lowest lane, for all of its lanes. -/
theorem issue_faultTaken (s : State) (hb : s.inBundle = true) (issue : LaneRes → State) (hi : RaisesFaults issue)
    (g : Nat → LaneFault) (hg : ∀ l, (g l).lane = l) :
    faultTaken s.cur.mask (g (lowLane s.cur.mask)).code (g (lowLane s.cur.mask)).detail (g (lowLane s.cur.mask)).faddr s
      (issue ⟨[], s.bl.map g, s⟩) := by
  rw [hi _ rfl, raiseLanes_bundle s hb g hg]
  exact raiseMask_taken _ _ _ _ s hb

/-! ### Accesses of global memory -/
/-- The fault of one lane's global access. -/
def globalFault (addr : Nat → DWord) (code : Byte) (detail : Nat) (l : Nat) : LaneFault :=
  ⟨l, code, BitVec.ofNat 17 detail, addr l⟩
theorem globalLanes_allFault (k : Acc) (n : Nat) (addr : Nat → DWord) (chk : AccCheck) (s : State) (code : Byte) (detail : Nat)
    (h : ∀ l < 32, s.cur.mask.getLsbD l = true →
      ((addr l).toNat % n ≠ 0 ∧ code = 0x03 ∧ detail = n) ∨
      ((addr l).toNat % n = 0 ∧
        translate (some s.cur.core) s.cb.part k l (addr l).toNat s = (.error ⟨code, detail⟩, s))) :
    globalLanes k n addr chk s = ⟨[], s.bl.map (globalFault addr code detail), s⟩ := by
  refine lanes_allFault (globalLane k n addr chk) s (globalFault addr code detail) s.bl [] fun l hl fs => ?_
  obtain ⟨h1, h2⟩ := (mem_maskLanes _ _).1 hl
  rcases h l h1 h2 with ⟨hm, rfl, rfl⟩ | ⟨hm, ht⟩
  · simp only [globalLane, globalFault]
    rw [if_pos hm]
  · simp only [globalLane, globalFault]
    rw [if_neg (not_not.2 hm), ht]
/-- An address beyond the address space has no page. -/
theorem translate_beyond (c : Option Nat) (part : Nat) (k : Acc) (l va : Nat) (s : State) (h : 2 ^ 55 ≤ va) :
    translate c part k l va s = (.error ⟨0x07, k.detail⟩, s) := by rw [translate, if_pos h]
/-- A page of the core's TLB whose leaf forbids the access. -/
theorem translate_forbidden (core part : Nat) (k : Acc) (l va : Nat) (s : State) (e : TlbEntry) (hk : k = .read ∨ k = .write)
    (hv : va < 2 ^ 55) (he : tlbFind (s.coreAt core).tlb part va = some e)
    (hl : if k = .write then e.leaf.getLsbD 2 = false ∧ e.leaf.getLsbD 5 = true else e.leaf.getLsbD 1 = false) :
    translate (some core) part k l va s = (.error ⟨0x08, k.detail⟩, s) := by
  have hf : leafFault s.mem k e.leaf = some ⟨0x08, k.detail⟩ := by
    rcases hk with rfl | rfl
    · rw [if_neg (by decide)] at hl
      simp only [leafFault, hl]
      rfl
    · rw [if_pos rfl] at hl
      simp only [leafFault, hl.1]
      rfl
  have hd : ¬ (k = .write ∧ e.leaf.getLsbD 5 = false ∧ e.leaf.getLsbD 6 = false) := by
    rintro ⟨rfl, h5, -⟩
    rw [if_pos rfl] at hl
    rw [hl.2] at h5
    exact absurd h5 (by decide)
  rw [translate, if_neg (by omega)]
  simp only [Option.bind_some, he, if_neg hd, hf]
/-- A load without a qualifier keeps the pages' policies. -/
theorem withPolicy_normal (r : LaneRes) : withPolicy .normal r = r := by
  have h : (r.accs.map fun a : LaneAcc => if a.attr.pol = 3 then a else a) = r.accs := by simp
  simp only [withPolicy, h]
/-- A GLOBAL LOAD past its operands issues with its lanes' accesses. -/
theorem exec_load (s : State) (i : Instr) (x : LoadForm) (h : loadForm s i = some x) (ht : memReg true x.n x.t = true)
    (ha : evenCode x.a = true) (hr : rowsFit s (laneRows x.t (x.n == 8)) = true) :
    exec i s = .next (issueLoad x.kind false x.n x.t (x.accesses s)) := by
  have plain : ∀ (k : LoadKind) (n : Nat) (t a : Reg) (addr : Nat → DWord) (chk : AccCheck),
      x = ⟨k, n, t, a, addr, chk, .normal⟩ → globalLoad k n t a addr chk s = issueLoad x.kind false x.n x.t (x.accesses s) := by
    rintro k n t a addr chk rfl
    rw [globalLoad, operandsOr_ok _ _ _ (by simpa using ⟨ht, ha⟩), LoadForm.accesses, withPolicy_normal]
    exact if_pos hr
  cases i with
  | ldg sw sz q t a off =>
    obtain rfl := Option.some.inj h
    show execLdg sw sz q t a off s = _
    rw [execLdg, operandsOr_ok _ _ _ (by simpa using ⟨ht, ha⟩)]
    exact congrArg Host.Outcome.next (if_pos hr)
  | ldrRo sw sz t a off => exact congrArg Host.Outcome.next (plain _ _ _ _ _ _ (Option.some.inj h).symm)
  | ldrUse sw sz d c t a =>
    simp only [loadForm] at h
    split at h
    · cases h
    · rename_i hc
      show execLdrUse sw sz d c t a s = _
      rw [execLdrUse, legalOr, if_pos (by simpa using hc)]
      exact congrArg Host.Outcome.next (plain _ _ _ _ _ _ (Option.some.inj h).symm)
  | lda sw b64 sc sp t a off =>
    cases sp
    · exact congrArg Host.Outcome.next (plain _ _ _ _ _ _ (Option.some.inj h).symm)
    · cases h
  | _ => cases h
/-- The loads among the accesses of global memory. -/
theorem exec_globalLoad (s : State) (i : Instr) (x : LoadForm) (h : loadForm s i = some x) (k : Acc) (n : Nat)
    (addr : Nat → DWord) (ha : globalAccess.load s x.n x.t x.a x.addr = some (true, k, n, addr)) : (k = .read ∨ k = .write) ∧
    ∃ (chk : AccCheck) (issue : LaneRes → State), RaisesFaults issue ∧
      exec i s = .next (issue (globalLanes k n addr chk s)) := by
  simp only [globalAccess.load, Option.some.injEq, Prod.mk.injEq, Bool.and_eq_true] at ha
  obtain ⟨⟨⟨ht, ha⟩, hr⟩, rfl, rfl, rfl⟩ := ha
  exact ⟨.inl rfl, x.chk, _, issueLoad_withPolicy_raises x.kind false x.n x.t x.pol, exec_load s i x h ht ha hr⟩
/-- The rows of an atomic's destination are there, or it has none. -/
theorem atom_rows (s : State) (u : Use) (rs : List Nat) (h : u = .comm ∨ rowsFit s rs = true) :
    ¬ (u ≠ .comm ∧ (!rowsFit s rs) = true) := by
  rintro ⟨hu, hr⟩
  rcases h with h | h
  · exact hu h
  · rw [h] at hr; exact absurd hr (by decide)
/-- The checks of a global atomic (R189, R231). -/
def atomCheck (u : Use) (n : Nat) : AccCheck :=
  if u = .comm ∨ u = .spec then eccCheck .nol1 n else bothChecks (scopeCheck .d true) (eccCheck .nol1 n)
/-- AN ATOMIC past its operands. -/
theorem exec_atom (s : State) (sw : Bool) (aop : Aop) (u : Use) (ty : AtomTy) (sp : Bool) (t a : Reg)
    (hl : atomCombo aop u ty = true) (ht : atomT aop (ty == .b64) t = true)
    (ha : (if sp = true then laneSrc a else evenCode a) = true) (hr : u = .comm ∨ rowsFit s (laneRows t (ty == .b64)) = true) :
    exec (.atom sw aop u ty sp t a) s = .next (issueAtom aop (ty == .b64) u sp t
      (if sp = true then localLanes .sp true (atomSize (ty == .b64)) (fun l => s.src a l) s
       else globalLanes .write (atomSize (ty == .b64)) (fun l => s.src64 a l) (atomCheck u (atomSize (ty == .b64))) s)) := by
  show execAtom sw aop u ty sp t a s = _
  rw [execAtom, operandsOr_ok _ _ _ (by rw [List.all_cons, List.all_cons, ht, ha]; rfl), legalOr, if_pos hl]
  exact congrArg Host.Outcome.next (if_neg (atom_rows s u (laneRows t (ty == .b64)) hr))
theorem exec_stg (s : State) (sw : Bool) (sz : Size) (nt : Bool) (t a : Reg) (off : BitVec 6)
    (ht : memReg false (sizeBytes sz) t = true) (ha : evenCode a = true) :
    exec (.stg sw sz nt t a off) s = .next (if nt && !s.cg.stream then raisePriv s
      else issueStore (sizeBytes sz) t nt none (globalLanes .write (sizeBytes sz) (gAddr s a off (sizeBytes sz)) noCheck s)) :=
  congrArg Host.Outcome.next (operandsOr_ok _ _ _ (by simpa using ⟨ht, ha⟩))
theorem exec_stl (s : State) (sw b64 : Bool) (sc : Scope) (sp : Bool) (t a : Reg) (off : BitVec 5)
    (ht : memReg false (atomSize b64) t = true) (ha : (if sp = true then laneSrc a else evenCode a) = true) :
    exec (.stl sw b64 sc sp t a off) s = .next (if sp = true
      then issueLStore .sp (atomSize b64) t (some sc) (localLanes .sp false (atomSize b64) (lAddr s a off (atomSize b64)) s)
      else issueStore (atomSize b64) t false (some sc)
        (globalLanes .write (atomSize b64) (gAddr s a off (atomSize b64)) noCheck s)) :=
  congrArg Host.Outcome.next (operandsOr_ok _ _ _ (by rw [List.all_cons, List.all_cons, ht, ha]; rfl))
theorem exec_sts (s : State) (sw : Bool) (sz : Size) (q : StsQ) (t a : Reg) (off : BitVec 6)
    (ht : memReg false (sizeBytes sz) t = true) (ha : laneSrc a = true) (hq : q ≠ .xremote) :
    exec (.sts sw sz q t a off) s = .next (issueLStore (stsSpace q) (sizeBytes sz) t none
      (localLanes (stsSpace q) false (sizeBytes sz) (lAddr s a off (sizeBytes sz)) s)) :=
  congrArg Host.Outcome.next ((operandsOr_ok _ _ _ (by simpa using ⟨ht, ha⟩)).trans (if_neg hq))
/-- A local load past its operands. -/
theorem localLoad_issues (q : LSpace) (k : LoadKind) (n : Nat) (t a : Reg) (addr : Nat → Word) (s : State)
    (ht : memReg true n t = true) (ha : laneSrc a = true) (hr : rowsFit s (laneRows t (n == 8)) = true) :
    localLoad q k n t a addr s = issueLoad k true n t (localLanes q true n addr s) := by
  rw [localLoad, operandsOr_ok _ _ _ (by simpa using ⟨ht, ha⟩)]
  exact if_pos hr
/-- An instruction that accesses global memory, past its operands: its lanes' accesses, and what it issues of them. -/
theorem exec_global (s : State) (i : Instr) (k : Acc) (n : Nat) (addr : Nat → DWord)
    (h : globalAccess s i = some (true, k, n, addr)) : (k = .read ∨ k = .write) ∧
    ∃ (chk : AccCheck) (issue : LaneRes → State), RaisesFaults issue ∧
      exec i s = .next (issue (globalLanes k n addr chk s)) := by
  cases i with
  | ldg sw sz q t a off =>
    refine exec_globalLoad s (.ldg sw sz q t a off) _ rfl k n addr ?_
    exact h
  | ldrRo sw sz t a off =>
    refine exec_globalLoad s (.ldrRo sw sz t a off) _ rfl k n addr ?_
    exact h
  | ldrUse sw sz d c t a =>
    simp only [globalAccess] at h
    split at h
    · cases h
    · rename_i hc
      refine exec_globalLoad s (.ldrUse sw sz d c t a) _ (if_neg hc) k n addr ?_
      exact h
  | lda sw b64 sc sp t a off =>
    cases sp
    · refine exec_globalLoad s (.lda sw b64 sc false t a off) _ rfl k n addr ?_
      exact h
    · cases h
  | stg sw sz nt t a off =>
    simp only [globalAccess, Option.some.injEq, Prod.mk.injEq, Bool.and_eq_true] at h
    obtain ⟨⟨⟨ht, ha⟩, hn⟩, rfl, rfl, rfl⟩ := h
    have hp : ¬ (nt && !s.cg.stream) = true := by
      rcases Bool.or_eq_true_iff.1 hn with hn | hn
      · rw [Bool.not_eq_true'] at hn
        simp [hn]
      · simp [hn]
    refine ⟨.inr rfl, noCheck, _, issueStore_raises (sizeBytes sz) t nt none, ?_⟩
    rw [exec_stg s sw sz nt t a off ht ha, if_neg hp]
  | stl sw b64 sc sp t a off =>
    cases sp
    · simp only [globalAccess, Option.some.injEq, Prod.mk.injEq, Bool.and_eq_true] at h
      obtain ⟨⟨ht, ha⟩, rfl, rfl, rfl⟩ := h
      exact ⟨.inr rfl, noCheck, _, issueStore_raises (atomSize b64) t false (some sc), exec_stl s sw b64 sc false t a off ht ha⟩
    · cases h
  | atom sw aop u ty sp t a =>
    cases sp
    · simp only [globalAccess, Option.some.injEq, Prod.mk.injEq, Bool.and_eq_true, Bool.or_eq_true, beq_iff_eq] at h
      obtain ⟨⟨⟨⟨hl, ht⟩, ha⟩, hr⟩, rfl, rfl, rfl⟩ := h
      exact ⟨.inr rfl, _, _, issueAtom_raises aop (ty == .b64) u false t, exec_atom s sw aop u ty false t a hl ht ha hr⟩
    · cases h
  | _ => cases h

/-! ### Accesses of the local spaces -/
/-- The fault of one lane's local access. -/
def localFault (addr : Nat → Word) (code : Byte) (detail : Nat) (l : Nat) : LaneFault :=
  ⟨l, code, BitVec.ofNat 17 detail, (addr l).setWidth 64⟩
theorem localLanes_allFault (q : LSpace) (rd : Bool) (n : Nat) (addr : Nat → Word) (s : State) (code : Byte) (detail : Nat)
    (h : ∀ l < 32, s.cur.mask.getLsbD l = true →
      (s.cb.windowSize q < (addr l).toNat + n ∧ code = 0x0D ∧ detail = spaceNo q) ∨
      ((addr l).toNat + n ≤ s.cb.windowSize q ∧ (addr l).toNat % n ≠ 0 ∧ code = 0x03 ∧ detail = n)) :
    localLanes q rd n addr s = ⟨[], s.bl.map (localFault addr code detail), s⟩ := by
  refine lanes_allFault (localLane q rd n addr s) s (localFault addr code detail) s.bl [] fun l hl fs => ?_
  obtain ⟨h1, h2⟩ := (mem_maskLanes _ _).1 hl
  have he : BitVec.ofNat 64 (addr l).toNat = (addr l).setWidth 64 := BitVec.ofNat_toNat 64 (addr l)
  rcases h l h1 h2 with ⟨hw, rfl, rfl⟩ | ⟨hw, hm, rfl, rfl⟩
  · simp only [localLane, localFault, he]
    rw [if_pos hw]
  · simp only [localLane, localFault, he]
    rw [if_neg (by omega), if_pos hm]
/-- The loads among the accesses of the local spaces. -/
theorem next_localLoad (s : State) (i : Instr) (q' : LSpace) (k : LoadKind) (n' : Nat) (t a : Reg) (addr' : Nat → Word)
    (he : exec i s = .next (localLoad q' k n' t a addr' s)) (q : LSpace) (n : Nat) (addr : Nat → Word)
    (h : localAccess.load s q' n' t a addr' = some (true, q, n, addr)) :
    ∃ (rd : Bool) (issue : LaneRes → State), RaisesFaults issue ∧ exec i s = .next (issue (localLanes q rd n addr s)) := by
  simp only [localAccess.load, Option.some.injEq, Prod.mk.injEq, Bool.and_eq_true] at h
  obtain ⟨⟨⟨ht, ha⟩, hr⟩, rfl, rfl, rfl⟩ := h
  exact ⟨true, _, issueLoad_raises k true n' t, by rw [he, localLoad_issues _ _ _ _ _ _ _ ht ha hr]⟩
/-- An instruction that accesses a local space, past its operands. -/
theorem exec_local (s : State) (i : Instr) (q : LSpace) (n : Nat) (addr : Nat → Word)
    (h : localAccess s i = some (true, q, n, addr)) :
    ∃ (rd : Bool) (issue : LaneRes → State), RaisesFaults issue ∧ exec i s = .next (issue (localLanes q rd n addr s)) := by
  cases i with
  | lds sw sz q' t a off => exact next_localLoad s _ _ _ _ t a _ rfl q n addr h
  | lda sw b64 sc sp t a off =>
    cases sp
    · cases h
    · exact next_localLoad s _ _ _ _ t a _ rfl q n addr h
  | sts sw sz q' t a off =>
    simp only [localAccess] at h
    split at h
    · cases h
    · rename_i hq
      simp only [Option.some.injEq, Prod.mk.injEq, Bool.and_eq_true] at h
      obtain ⟨⟨ht, ha⟩, rfl, rfl, rfl⟩ := h
      exact ⟨false, _, issueLStore_raises _ _ t none, exec_sts s sw sz q' t a off ht ha hq⟩
  | stl sw b64 sc sp t a off =>
    cases sp
    · cases h
    · simp only [localAccess, Option.some.injEq, Prod.mk.injEq, Bool.and_eq_true] at h
      obtain ⟨⟨ht, ha⟩, rfl, rfl, rfl⟩ := h
      exact ⟨false, _, issueLStore_raises _ _ t (some sc), exec_stl s sw b64 sc true t a off ht ha⟩
  | atom sw aop u ty sp t a =>
    cases sp
    · cases h
    · simp only [localAccess, Option.some.injEq, Prod.mk.injEq, Bool.and_eq_true, Bool.or_eq_true, beq_iff_eq] at h
      obtain ⟨⟨⟨⟨hl, ht⟩, ha⟩, hr⟩, rfl, rfl, rfl⟩ := h
      exact ⟨true, _, issueAtom_raises aop (ty == .b64) u true t, exec_atom s sw aop u ty true t a hl ht ha hr⟩
  | _ => cases h

/-- Settles O33: no lane of the bundle gets an access, so the instruction comes to its lanes' faults. -/
theorem accessFaults : Obligations.AccessFaults := by
  unfold Obligations.AccessFaults
  constructor
  · intro s i k n addr hi hb
    obtain ⟨hk, chk, issue, hraise, he⟩ := exec_global s i k n addr hi
    have fault : ∀ (code : Byte) (detail : Nat), (∀ l < 32, s.cur.mask.getLsbD l = true →
          ((addr l).toNat % n ≠ 0 ∧ code = 0x03 ∧ detail = n) ∨
          ((addr l).toNat % n = 0 ∧
            translate (some s.cur.core) s.cb.part k l (addr l).toNat s = (.error ⟨code, detail⟩, s))) →
        ∃ t, exec i s = .next t ∧
          faultTaken s.cur.mask code (BitVec.ofNat 17 detail) (addr (lowLane s.cur.mask)) s t := fun code detail h =>
      ⟨_, by rw [he, globalLanes_allFault k n addr chk s code detail h],
        issue_faultTaken s hb issue hraise (globalFault addr code detail) fun _ => rfl⟩
    have hd : (if k = .write then 1 else 0 : BitVec 17) = BitVec.ofNat 17 k.detail := by
      rcases hk with rfl | rfl <;> rfl
    rw [hd]
    refine ⟨fun h => fault 0x03 n fun l h1 h2 => .inl ⟨h l h1 h2, rfl, rfl⟩,
      fun h => fault 0x07 k.detail fun l h1 h2 => .inr ⟨(h l h1 h2).1, translate_beyond _ _ _ _ _ _ (h l h1 h2).2⟩,
      fun h => fault 0x08 k.detail fun l h1 h2 => .inr ?_⟩
    obtain ⟨hm, hv, e, hf, hl⟩ := h l h1 h2
    exact ⟨hm, translate_forbidden _ _ _ _ _ _ e hk hv hf hl⟩
  · intro s i q n addr hi hb
    obtain ⟨rd, issue, hraise, he⟩ := exec_local s i q n addr hi
    have fault : ∀ (code : Byte) (detail : Nat), (∀ l < 32, s.cur.mask.getLsbD l = true →
          (s.cb.windowSize q < (addr l).toNat + n ∧ code = 0x0D ∧ detail = spaceNo q) ∨
          ((addr l).toNat + n ≤ s.cb.windowSize q ∧ (addr l).toNat % n ≠ 0 ∧ code = 0x03 ∧ detail = n)) →
        ∃ t, exec i s = .next t ∧
          faultTaken s.cur.mask code (BitVec.ofNat 17 detail) ((addr (lowLane s.cur.mask)).setWidth 64) s t :=
      fun code detail h =>
      ⟨_, by rw [he, localLanes_allFault q rd n addr s code detail h],
        issue_faultTaken s hb issue hraise (localFault addr code detail) fun _ => rfl⟩
    exact ⟨fun h => fault 0x0D (spaceNo q) fun l h1 h2 => .inl ⟨h l h1 h2, rfl, rfl⟩,
      fun h => fault 0x03 n fun l h1 h2 => .inr ⟨(h l h1 h2).1, (h l h1 h2).2, rfl, rfl⟩⟩

end Sys2Proof.Machine
end

section
/-! Remote exchange stores (O31), and the ends of the issues of memory instructions. -/
namespace Sys2Proof.Machine

/-! ### Ends of issues on the memory side -/
/-- Warps that agree in lanes, registers and the retired count. -/
structure Warp.sameFile (v w : Warp) : Prop where
  lanes : v.lanes = w.lanes
  vregs : v.vregs = w.vregs
  sregs : v.sregs = w.sregs
  wregs : v.wregs = w.wregs
  retired : v.retired = w.retired
theorem Warp.sameFile.of_eq {v w : Warp} (h : v = w) : v.sameFile w := by rw [h]; exact ⟨rfl, rfl, rfl, rfl, rfl⟩
/-- A change of the bundle's warp on top of a change of the memory side. -/
theorem memWarp_updCw {s u : State} (hs : memSide s u) (F : Warp → Warp) : memWarp s (u.updCw F) := by
  refine ⟨⟨hs.cur, hs.agenda, hs.nextSched, rfl, hs.blocks, hs.clusters, hs.dies, hs.faults, hs.launch, hs.wd, hs.rel⟩,
    fun k hk => ?_⟩
  have hn : ¬ u.cur.wk = k := fun h => hk (by rw [← h, hs.cur])
  simp [State.updCw, hn, hs.warps]
theorem sameMemory_updCw (s : State) (F : Warp → Warp) : sameMemory s (s.updCw F) := ⟨fun _ _ => rfl, fun _ _ _ => rfl⟩
theorem sameMemory.trans {s t u : State} (h1 : sameMemory s t) (h2 : sameMemory t u) : sameMemory s u :=
  ⟨fun k pa => (h2.1 k pa).trans (h1.1 k pa), fun bk q o => (h2.2 bk q o).trans (h1.2 bk q o)⟩
/-- The end of an issue that does not commit. -/
theorem endIssue_went (s t : State) (w : Warp) (h : s.inBundle = true) (hw : w.sameFile s.cw)
    (ht : t.cw = endIssue s.cur.mask s.cur.pc w) :
    lanesWentOn s t ∧ ∀ x, destExists x = true → regAt t.cw x = regAt s.cw x := by
  obtain ⟨h1, h2, h3, h4⟩ := (inBundle_iff s).1 h
  have hl : w.lanes.length = 32 := by rw [hw.lanes, h2]
  refine ⟨fun l hl' => ?_, fun x hx => ?_⟩
  · rw [ht, endIssue_lane _ _ _ _ (by omega), lane_congr hw.lanes]
  · rw [ht, endIssue_reg _ _ _ _ hl hx]
    exact regAt_congr _ _ _ hw.vregs hw.sregs hw.wregs (fun l _ => by rw [lane_congr hw.lanes]) hx
/-- The end of a committing issue. -/
theorem endIssue_committed (s t : State) (w : Warp) (h : s.inBundle = true) (hw : w.sameFile s.cw)
    (ht : t.cw.sameFile (Warp.boundary s.cur.mask (endIssue s.cur.mask s.cur.pc w))) :
    lanesCommitted s t ∧ ∀ x, destExists x = true → regAt t.cw x = regAt s.cw x := by
  obtain ⟨h1, h2, h3, h4⟩ := (inBundle_iff s).1 h
  have hl : w.lanes.length = 32 := by rw [hw.lanes, h2]
  refine ⟨fun l hl' => ?_, fun x hx => ?_⟩
  · rw [lane_congr ht.lanes, endB_lane _ _ _ _ (by omega), lane_congr hw.lanes, hw.retired]
    split <;> rfl
  · rw [regAt_congr _ _ _ ht.vregs ht.sregs ht.wregs (fun l _ => by rw [lane_congr ht.lanes]) hx, boundary_reg _ _ _ (by simpa [endIssue] using hl) hx, endIssue_reg _ _ _ _ hl hx]
    exact regAt_congr _ _ _ hw.vregs hw.sregs hw.wregs (fun l _ => by rw [lane_congr hw.lanes]) hx

/-! ### Remote exchange stores -/
/-- Every lane's place in a receiver's bank is right. -/
theorem remoteLanes_ok (n : Nat) (addr : Nat → Word) (s : State) (h : ∀ l < 32, s.cur.mask.getLsbD l = true →
      remoteOk s s.cb (addr l).toNat n = true ∧ (addr l).toNat % n = 0) :
    s.bl.foldl (remoteLane n addr s) ⟨[], [], s⟩ = ⟨s.bl.map fun l => localAcc l (addr l).toNat, [], s⟩ := by
  have : ∀ (ls : List Nat) (as : List LaneAcc), (∀ l ∈ ls, l < 32 ∧ s.cur.mask.getLsbD l = true) →
      ls.foldl (remoteLane n addr s) ⟨as, [], s⟩ = ⟨as ++ ls.map fun l => localAcc l (addr l).toNat, [], s⟩ := by
    intro ls
    induction ls with
    | nil => intro as _; simp
    | cons l t ih =>
      intro as hl
      obtain ⟨hr, hm⟩ := h l (hl l List.mem_cons_self).1 (hl l List.mem_cons_self).2
      have e : remoteLane n addr s ⟨as, [], s⟩ l = ⟨as ++ [localAcc l (addr l).toNat], [], s⟩ := by
        simp only [remoteLane, hr, Bool.not_true, Bool.false_eq_true, if_false]
        rw [if_neg (not_not.2 hm)]
      rw [List.foldl_cons, e, ih _ fun x hx => hl x (List.mem_cons_of_mem _ hx), List.map_cons, List.append_assoc,
        List.singleton_append]
  exact this s.bl [] fun l hl => (mem_maskLanes _ _).1 hl
theorem mapIdxFrom_map {α β γ : Type} (f : Nat → β → γ) (g : α → β) (i : Nat) (xs : List α) :
    mapIdxFrom f i (xs.map g) = mapIdxFrom (fun k x => f k (g x)) i xs := by
  induction xs generalizing i with
  | nil => rfl
  | cons x t ih => rw [List.map_cons, mapIdxFrom, mapIdxFrom, ih]
/-- The messages of the bundle's lanes. -/
def remoteSent (s : State) (n : Nat) (t : Reg) (addr : Nat → Word) : List XStore :=
  mapIdxFrom (fun k (l : Nat) => { remoteStore s t n (freshId s) (localAcc l (addr l).toNat) with id := s.mem.nextQ + k }) 0 s.bl
/-- The state when the messages have set out, before the issue ends. -/
def remoteOut (s : State) (n : Nat) (t : Reg) (addr : Nat → Word) : State :=
  (s.setMem { s.mem with xq := s.mem.xq ++ remoteSent s n t addr, nextQ := s.mem.nextQ + s.bl.length }).updCw
    fun w => { w with nextId := freshId s + 1 }
theorem issueRemote_sends (s : State) (h : s.inBundle = true) (n : Nat) (t : Reg) (ends : Bool) (addr : Nat → Word) :
    issueRemote n t ends ⟨s.bl.map fun l => localAcc l (addr l).toNat, [], s⟩ =
      if ends then doneB (remoteOut s n t addr) else done (remoteOut s n t addr) := by
  have hne : (s.bl.map fun l => localAcc l (addr l).toNat).isEmpty = false := by
    rw [List.isEmpty_map, List.isEmpty_eq_false_iff]
    exact bl_cons s h
  have hx : mapIdxFrom (fun i (x : XStore) => { x with id := s.mem.nextQ + i }) 0
      ((s.bl.map fun l => localAcc l (addr l).toNat).map (remoteStore s t n (freshId s))) = remoteSent s n t addr := by
    rw [mapIdxFrom_map, mapIdxFrom_map, remoteSent]
  simp only [issueRemote, raiseLanes, hne, Bool.false_eq_true, if_false, List.length_map]
  rw [show freshId s = s.cw.fresh from rfl] at hx
  have e : (s.updMem fun m => { m with
      xq := m.xq ++ mapIdxFrom (fun i (x : XStore) => { x with id := m.nextQ + i }) 0
        ((s.bl.map fun l => localAcc l (addr l).toNat).map (remoteStore s t n (freshId s)))
      nextQ := m.nextQ + s.bl.length }).updCw (fun w => { w with nextId := freshId s + 1 }) = remoteOut s n t addr := by
    rw [remoteOut, ← hx]; rfl
  rw [e]
/-- Settles O31: one message for each lane, and the end of the issue. -/
theorem remoteStoresTravel : Obligations.RemoteStoresTravel := by
  unfold Obligations.RemoteStoresTravel
  intro s sw sz t a off h ht ha hok
  obtain ⟨h1, h2, h3, h4⟩ := (inBundle_iff s).1 h
  have he : exec (.sts sw sz .xremote t a off) s = .next (issueRemote (sizeBytes sz) t
      (s.bl.any fun l => decide (262144 ≤ (lAddr s a off (sizeBytes sz) l).toNat))
      (s.bl.foldl (remoteLane (sizeBytes sz) (lAddr s a off (sizeBytes sz)) s) ⟨[], [], s⟩)) :=
    congrArg Host.Outcome.next (operandsOr_ok _ _ _ (by simpa using ⟨ht, ha⟩))
  rw [remoteLanes_ok _ _ s hok, issueRemote_sends s h] at he
  have hu : (remoteOut s (sizeBytes sz) t (lAddr s a off (sizeBytes sz))).inBundle = true := inBundle_updCw (s.setMem _) _ h rfl
  have hcw : (remoteOut s (sizeBytes sz) t (lAddr s a off (sizeBytes sz))).cw = { s.cw with nextId := freshId s + 1 } :=
    updCw_cw (s.setMem _) _ h1
  have hw : (remoteOut s (sizeBytes sz) t (lAddr s a off (sizeBytes sz))).cw.sameFile s.cw := by
    rw [hcw]; exact ⟨rfl, rfl, rfl, rfl, rfl⟩
  have hone := (inBundle_iff _).1 hu
  generalize (s.bl.any fun l => decide (262144 ≤ (lAddr s a off (sizeBytes sz) l).toNat)) = ends at he ⊢
  cases ends with
  | false =>
    rw [if_neg Bool.false_ne_true, done_eq _ hone.2.2.1] at he
    refine ⟨_, he, ?_⟩
    have hends := endIssue_went s _ _ h hw (updCw_cw _ (endIssue s.cur.mask s.cur.pc) hone.1)
    refine ⟨⟨fun _ _ => rfl, fun _ _ _ => rfl⟩, ?_, ⟨_, rfl, rfl⟩, hends.2, (if_neg Bool.false_ne_true).mpr hends.1⟩
    exact (congrArg (memWarp s) (updCw_updCw (s.setMem _) _ _)).mpr (memWarp_updCw (memSide_setMem s _) _)
  | true =>
    rw [if_pos rfl, doneB_eq _ hu] at he
    refine ⟨_, he, ?_⟩
    have hends := endIssue_committed s _ _ h hw
      (.of_eq (updCw_cw _ (fun w => Warp.boundary s.cur.mask (endIssue s.cur.mask s.cur.pc w)) hone.1))
    refine ⟨⟨fun _ _ => rfl, fun _ _ _ => rfl⟩, ?_, ⟨_, rfl, rfl⟩, hends.2, (if_pos rfl).mpr hends.1⟩
    exact (congrArg (memWarp s) (updCw_updCw (s.setMem _) _ _)).mpr (memWarp_updCw (memSide_setMem s _) _)

end Sys2Proof.Machine
end

section
/-! Loads from the local spaces (O26). -/
namespace Sys2Proof.Machine

/-! ### The registers that a load's result stands for -/
theorem covers_none (xs : List RegWrite) (v : Dest → Option Word) (rows : List Nat) (h : covers xs v rows) (x : Dest) :
    (xs.all fun y => x != y.dest) = (v x).isNone := by
  obtain ⟨-, hv, hx, -⟩ := h
  rw [Bool.eq_iff_iff, List.all_eq_true, Option.isNone_iff_eq_none]
  constructor
  · intro hn
    by_contra hs
    obtain ⟨y, hy, rfl⟩ := hx x (Option.isSome_iff_ne_none.2 hs)
    simpa using hn y hy
  · intro hn y hy
    rw [bne_iff_ne]
    rintro rfl
    rw [hv y hy] at hn
    simp at hn
/-- What is still due of writes to the same registers, one for each, is all of the new ones. -/
theorem takenWrites_all (old due : List RegWrite) (h : old.map (·.dest) = due.map (·.dest))
    (hi : ∀ x ∈ due, ∀ y ∈ due, y.dest = x.dest → y = x) : takenWrites old due = due := by
  have e : ∀ xs : List RegWrite, takenWrites xs due = (xs.map (·.dest)).filterMap fun d => due.find? fun y => y.dest == d := by
    intro xs
    rw [takenWrites, List.filterMap_map]; rfl
  rw [e old, h, ← e due, takenWrites]
  have hf : ∀ x ∈ due, (due.find? fun y => y.dest == x.dest) = some x := by
    intro x hx
    have hs : (due.find? fun y => y.dest == x.dest).isSome = true := List.find?_isSome.2 ⟨x, hx, by simp⟩
    obtain ⟨y, hy⟩ := Option.isSome_iff_exists.1 hs
    rw [hy, hi x hx y (List.mem_of_find?_eq_some hy) (by simpa using List.find?_some hy)]
  rw [List.filterMap_congr (g := some) hf, List.filterMap_some]
theorem takenWrites_none (old : List RegWrite) : takenWrites old [] = [] := by simp [takenWrites]
/-- Writes that a register's value determines are determined by their register. -/
theorem covers_inj (xs : List RegWrite) (v : Dest → Option Word) (rows : List Nat) (h : covers xs v rows)
    (hn : ∀ y ∈ xs, normVal y.dest y.val = y.val) : ∀ x ∈ xs, ∀ y ∈ xs, y.dest = x.dest → y = x := by
  intro x hx y hy he
  have h1 := h.2.1 x hx
  have h2 := h.2.1 y hy
  rw [hn x hx] at h1
  rw [hn y hy, he, h1] at h2
  cases x; cases y
  simp only [Option.some.injEq] at h2
  simp only at he
  rw [he, h2]
theorem warpWrites_dests (d : Reg) (pair : Bool) (u v : DWord) :
    (warpWrites d pair u).map (·.dest) = (warpWrites d pair v).map (·.dest) := by cases pair <;> rfl
theorem plyWrites_dests (d : Reg) (pair : Bool) (p : Nat) (u v : DWord) :
    (plyWrites d pair p u).map (·.dest) = (plyWrites d pair p v).map (·.dest) := by cases pair <;> rfl
theorem plyAll_dests (s : State) (d : Reg) (pair : Bool) (f g : Nat → DWord) :
    (plyAll d pair (s.perLane f)).map (·.dest) = (plyAll d pair (s.perLane g)).map (·.dest) := by
  simp only [plyAll, List.map_flatMap, plyVals_perLane]
  refine List.flatMap_congr fun p _ => ?_
  cases (maskLanes s.cur.mask).filter fun l => l / 8 == p with
  | nil => rfl
  | cons l t => exact plyWrites_dests d pair p (f l) (g l)
theorem plyAll_norm (s : State) (d : Reg) (pair : Bool) (f : Nat → DWord) :
    ∀ y ∈ plyAll d pair (s.perLane f), normVal y.dest y.val = y.val := by
  intro y hy
  obtain ⟨p, -, l, -, hy⟩ := (mem_plyAll _ _ _ _ _).1 hy
  rcases (mem_plyWrites _ _ _ _ _).1 hy with rfl | ⟨-, rfl⟩ <;> rfl
theorem warpWrites_norm (d : Reg) (pair : Bool) (v : DWord) : ∀ y ∈ warpWrites d pair v, normVal y.dest y.val = y.val := by
  intro y hy
  rcases (mem_warpWrites _ _ _ _).1 hy with rfl | ⟨-, rfl⟩ <;> rfl
/-- The writes of a compared result: none, or those of its destination's registers. -/
theorem dueWrites_ply (s : State) (d : Reg) (pair : Bool) (f : Nat → DWord) (hd : 88 ≤ d.toNat) (hd' : d.toNat < 92) :
    dueWrites d pair (s.perLane f) = none ∨ dueWrites d pair (s.perLane f) = some (plyAll d pair (s.perLane f)) := by
  rw [dueWrites, if_neg (by omega), if_pos (by omega), agreeWrites, if_pos hd']
  split
  · exact .inr rfl
  · exact .inl rfl
theorem dueWrites_warp (s : State) (hm : s.cur.mask ≠ 0) (d : Reg) (pair : Bool) (f : Nat → DWord) (hd : 92 ≤ d.toNat)
    (hd' : d.toNat < 108) : dueWrites d pair (s.perLane f) = none ∨
      dueWrites d pair (s.perLane f) = some (warpWrites d pair (f (lowLane s.cur.mask))) := by
  rw [dueWrites, if_neg (by omega), if_pos hd', agreeWrites, if_neg (by omega), perLane_head s f hm]
  split
  · exact .inr rfl
  · exact .inl rfl
theorem dueWrites_bank (d : Reg) (pair : Bool) (vals : List (Nat × DWord)) (hd : 108 ≤ d.toNat) :
    dueWrites d pair vals = some [] := by rw [dueWrites, if_neg (by omega), if_neg (by omega)]
/-- Lanes that all bring 0 agree. -/
theorem allAgree_zero (s : State) (p : Nat × DWord → Bool) : allAgree ((s.perLane fun _ => 0).filter p) = true := by
  rw [allAgree_iff]
  intro x hx y hy
  rw [((mem_perLane _ _ _).1 (List.mem_filter.1 hx).1).2.2, ((mem_perLane _ _ _).1 (List.mem_filter.1 hy).1).2.2]
theorem dueWrites_zero_ply (s : State) (d : Reg) (pair : Bool) (hd : 88 ≤ d.toNat) (hd' : d.toNat < 92) :
    dueWrites d pair (s.perLane fun _ => 0) = some (plyAll d pair (s.perLane fun _ => 0)) := by
  rw [dueWrites, if_neg (by omega), if_pos (by omega), agreeWrites, if_pos hd']
  exact if_pos (List.all_eq_true.2 fun p _ => allAgree_zero s fun x => x.1 / 8 == p)
theorem dueWrites_zero_warp (s : State) (hm : s.cur.mask ≠ 0) (d : Reg) (pair : Bool) (hd : 92 ≤ d.toNat) (hd' : d.toNat < 108) :
    dueWrites d pair (s.perLane fun _ => 0) = some (warpWrites d pair 0) := by
  have ha : allAgree (s.perLane fun _ => 0) = true := by
    have := allAgree_zero s fun _ => true
    rwa [List.filter_eq_self.2 fun _ _ => rfl] at this
  rw [dueWrites, if_neg (by omega), if_pos hd', agreeWrites, if_neg (by omega), ha, perLane_head s _ hm]
  rfl
/-- THE WRITES OF A COMPARED LOAD once it has its values. -/
theorem taken_compare (s : State) (hm : s.cur.mask ≠ 0) (d : Reg) (pair : Bool) (f : Nat → DWord) (hd : 88 ≤ d.toNat)
    (hp : pair = true → d.toNat % 2 = 0) :
    takenWrites ((dueWrites d pair (s.perLane fun _ => 0)).getD []) ((dueWrites d pair (s.perLane f)).getD []) =
      (dueWrites d pair (s.perLane f)).getD [] := by
  rcases Nat.lt_or_ge d.toNat 92 with h1 | h1
  · rcases dueWrites_ply s d pair f hd h1 with h | h
    · rw [h]; exact takenWrites_none _
    · rw [h, dueWrites_zero_ply s d pair hd h1]
      exact takenWrites_all _ _ (plyAll_dests s d pair _ _) (covers_inj _ _ _ (plyResult d pair f s hd h1 hp) (plyAll_norm s d pair f))
  · rcases Nat.lt_or_ge d.toNat 108 with h2 | h2
    · rcases dueWrites_warp s hm d pair f h1 h2 with h | h
      · rw [h]; exact takenWrites_none _
      · rw [h, dueWrites_zero_warp s hm d pair h1 h2]
        exact takenWrites_all _ _ (warpWrites_dests d pair _ _)
          (covers_inj _ _ _ (warpResult d pair f s h1 h2 hp) (warpWrites_norm d pair _))
    · rw [dueWrites_bank d pair (s.perLane f) h2]; exact takenWrites_none _
theorem memReg_pair (dst : Bool) (n : Nat) (t : Reg) (h : memReg dst n t = true) : (n == 8) = true → t.toNat % 2 = 0 := by
  intro hn
  rw [memReg, if_pos (by simpa using hn), evenCode, Bool.and_eq_true] at h
  simpa using h.1
/-- A wider register is no register of the warp. -/
theorem resultDest_bank (d : Reg) (pair : Bool) (m : Word) (f : Nat → DWord) (hd : 108 ≤ d.toNat) (x : Dest) :
    resultDest d pair m f x = none := by
  cases x with
  | lane r l => rw [resultDest, if_neg (by omega)]
  | ply r p => rw [resultDest, if_neg (by omega)]
  | warp r => rw [resultDest, if_neg (by omega)]
  | pred p l => rfl
/-- The zeros of a load's issue stand for the registers of its destination. -/
theorem zeros_cover (s : State) (h : s.inBundle = true) (n : Nat) (t : Reg) (hp : memReg true n t = true)
    (hr : rowsFit s (laneRows t (n == 8)) = true) :
    covers (if t = 124 then [] else (dueWrites t (n == 8) (s.perLane fun _ => 0)).getD [])
      (resultDest t (n == 8) s.cur.mask fun _ => 0) (laneRows t (n == 8)) := by
  have hm := ((inBundle_iff s).1 h).2.2.2
  have hpair : (n == 8) = true → t.toNat % 2 = 0 := memReg_pair true n t hp
  by_cases hz : t = 124
  · rw [if_pos hz, hz]; exact zResult _ _ _
  rw [if_neg hz]
  rcases Nat.lt_or_ge t.toNat 88 with h0 | h0
  · rw [dueWrites, if_pos h0]
    exact (laneResult .plain t (n == 8) (fun _ => 0) 0 s h h0 hpair hr).2
  rcases Nat.lt_or_ge t.toNat 92 with h1 | h1
  · rw [dueWrites_zero_ply s t _ h0 h1]; exact plyResult t _ _ s h0 h1 hpair
  rcases Nat.lt_or_ge t.toNat 108 with h2 | h2
  · rw [dueWrites_zero_warp s hm t _ h1 h2]; exact warpResult t _ (fun _ => 0) s h1 h2 hpair
  · rw [dueWrites_bank t _ _ h2]
    exact ⟨by simp, by simp, fun x hx => absurd hx (by rw [resultDest_bank t _ _ _ h2 x]; simp), fun r _ => by
      rw [laneRows, if_neg (by omega)]; rfl⟩

/-! ### The end of a load's issue -/
/-- A load's result with the values it has taken, as it stands at the end of its issue. -/
theorem loadIssue_hb (o : Out) (zs : List RegWrite) (rs : List Nat) (m : Word) (pc : DWord) (h : List Nat) (w : Warp) :
    loadIssue o zs rs m pc { w with hb := h } = { loadIssue o zs rs m pc w with hb := h } := by
  rw [loadIssue, loadIssue]
  split <;> rfl
/-- A LOAD WHOSE RESULT IS OUTSTANDING: into lane registers, or into none. -/
theorem load_due (s : State) (h : s.inBundle = true) (k : LoadKind) (n : Nat) (t : Reg) (accs : List LaneAcc)
    (vals : List (Nat × DWord)) (v : Dest → Option Word) (pc : DWord) (ht : t.toNat < 88 ∨ t = 124)
    (o : Out) (ho : o = takenOut (loadOut k n t accs (freshId s) s.cur.mask pc) vals) (zs : List RegWrite)
    (hv : ∀ x, (o.writes.find? fun y => y.dest == x).map (·.val) = v x) :
    resultDue v (laneRows t (n == 8)) 0 s (s.updCw (loadIssue o zs (laneRows t (n == 8)) s.cur.mask s.cur.pc)) := by
  have ha : o.agree = false := by
    have : ¬ (88 ≤ t.toNat ∧ t.toNat < 124) := by
      rintro ⟨h1, h2⟩
      rcases ht with ht | rfl
      · omega
      · exact absurd h2 (by decide)
    rw [ho]
    exact decide_eq_false this
  have e : loadIssue o zs (laneRows t (n == 8)) s.cur.mask s.cur.pc = dueIssue o (laneRows t (n == 8)) s.cur.mask s.cur.pc :=
    funext fun w => by rw [loadIssue, ha]; rfl
  rw [e]
  have hd := due_spec v o (laneRows t (n == 8)) s h (by rw [ho]; rfl) (by rw [ho]; rfl) (by rw [ho]; rfl) hv
  rw [show o.flags = 0 by rw [ho]; rfl] at hd
  exact hd
/-- A LOAD WHOSE RESULT IS COMPARED: into a ply, warp or wider register. -/
theorem load_compare (s : State) (h : s.inBundle = true) (k : LoadKind) (n : Nat) (t : Reg) (accs : List LaneAcc)
    (vals : List (Nat × DWord)) (f : Nat → DWord) (ht : 88 ≤ t.toNat) (ht' : t.toNat < 124) (hp : memReg true n t = true)
    (hacc : accs.map (·.lane) = s.bl) (hv : vals = s.perLane f)
    (hcov : covers (if t = 124 then [] else (dueWrites t (n == 8) (s.perLane fun _ => 0)).getD [])
      (resultDest t (n == 8) s.cur.mask fun _ => 0) (laneRows t (n == 8))) (o0 o : Out) (h0 : o0 = loadOut k n t accs (freshId s) s.cur.mask s.cur.pc) (ho : o = takenOut o0 vals) :
    compareDue t (n == 8) vals 0 s (s.updCw (loadIssue o o0.writes (laneRows t (n == 8)) s.cur.mask s.cur.pc)) := by
  obtain ⟨h1, h2, h3, h4⟩ := (inBundle_iff s).1 h
  have hz : ¬ t = 124 := by rintro rfl; exact absurd ht' (by decide)
  have ha : o.agree = true := by
    rw [ho, h0]
    exact decide_eq_true ⟨ht, ht'⟩
  have hz0 : accs.map (fun a => (a.lane, (0 : DWord))) = s.perLane fun _ => 0 := by
    rw [State.perLane, ← hacc, List.map_map]; rfl
  have hw0 : o0.writes = if t = 124 then [] else (dueWrites t (n == 8) (s.perLane fun _ => 0)).getD [] := by
    rw [h0, ← hz0]; rfl
  rw [← hw0] at hcov
  have hw : o.writes = (dueWrites t (n == 8) vals).getD [] := by
    have e : o.writes = takenWrites o0.writes ((dueWrites t (n == 8) vals).getD []) := by rw [ho, h0]; rfl
    rw [e, hw0, if_neg hz, hv]
    exact taken_compare s h4 t (n == 8) f ht (memReg_pair true n t hp)
  have e : loadIssue o o0.writes (laneRows t (n == 8)) s.cur.mask s.cur.pc = cmpIssue o o0.writes s.cur.mask s.cur.pc :=
    funext fun w => by rw [loadIssue, ha, if_pos rfl]
  have hgone : ∀ x, (o0.writes.all fun y => x != y.dest) = !(resultDest t (n == 8) s.cur.mask (fun _ => 0) x).isSome :=
    fun x => (covers_none _ _ _ hcov x).trans (Option.not_isSome _).symm
  rw [e]
  refine ⟨o, fun x => (resultDest t (n == 8) s.cur.mask (fun _ => 0) x).isSome, by rw [ho, h0]; rfl, by rw [ho, h0]; rfl,
    by rw [ho, h0]; rfl, by rw [ho, h0]; rfl, by rw [ho]; rfl, ha, by rw [ho, h0]; rfl, by rw [ho, h0]; rfl, hw,
    by rw [ho, h0]; rfl, fun y hy => ?_, fun x hx => hx, rfl, (onlyWarp_upd s _ s.cur.flags).2, ?_⟩
  · rw [hw] at hy
    exact dueWrites_dest t (n == 8) vals s.cur.mask ht (memReg_pair true n t hp)
      (fun x hx => by rw [hv] at hx; exact ((mem_perLane _ _ _).1 hx).2.1) y hy
  · rw [updCw_cw s _ h1, cmpIssue]
    simp only [hgone]
    rw [show o.id = freshId s by rw [ho, h0]; rfl]

/-! ### Loads from the local spaces -/
/-- The kinds of local loads: of a space, or an acquire at the scratchpad. -/
def localKind (k : LoadKind) (q : LSpace) (acq : Option Scope) : Prop :=
  (k = .loc q ∧ acq = none) ∨ (q = .sp ∧ ∃ sc, k = .locAcq sc ∧ acq = some sc)
theorem localKind_source (k : LoadKind) (q : LSpace) (acq : Option Scope) (h : localKind k q acq) (wk id n : Nat)
    (accs : List LaneAcc) (s : State) :
    k.acquires = acq ∧ loadSource wk id k n accs s = (loadLocal (s.block (s.warp wk).bk) q n accs, s) := by
  rcases h with ⟨rfl, rfl⟩ | ⟨rfl, sc, rfl, rfl⟩ <;> exact ⟨rfl, rfl⟩
/-- The snapshots an acquire drops. -/
theorem acquireDrop_drops (core : Nat) (sc : Scope) (s t : State) (h : coresDropped core (scopeWide sc) s t) :
    coresDropped core (scopeWide sc) s (acquireDrop core sc t) := by
  intro k
  rw [acquireDrop]
  split
  · rename_i hw
    rw [State.updCore_coreAt, h k]
    by_cases hk : core = k
    · subst hk; rw [if_pos rfl, h core, if_pos ⟨rfl, hw⟩]
    · rw [if_neg hk]
  · exact h k
theorem acquireDrop_cores (core : Nat) (sc : Scope) (s t : State) (h : t.cores = s.cores) :
    coresDropped core (scopeWide sc) s (acquireDrop core sc t) := by
  have hk : ∀ k, t.coreAt k = s.coreAt k := fun k => by rw [State.coreAt, State.coreAt, h]
  intro k
  rw [acquireDrop]
  split
  · rename_i hw
    rw [State.updCore_coreAt]
    by_cases hc : core = k
    · subst hc; rw [if_pos rfl, if_pos ⟨rfl, hw⟩, hk]
    · rw [if_neg hc, if_neg fun hx => hc hx.1.symm, hk]
  · rename_i hw
    rw [if_neg fun hx => hw hx.2, hk]
theorem coresDropped_refl (core : Nat) (drop : Bool) (s : State) (hd : drop = false) : coresDropped core drop s s := fun k => by
  rw [hd]; simp
/-- THE ISSUE OF A LOCAL LOAD behind an empty stream. -/
theorem localLoad_run (s : State) (h : s.inBundle = true) (he : streamEmpty s) (k : LoadKind) (q : LSpace) (acq : Option Scope)
    (hk : localKind k q acq) (n : Nat) (t : Reg) (addr : Nat → Word) (hw : windowOk s q true n addr) (o0 : Out)
    (h0 : o0 = loadOut k n t (s.bl.map fun l => localAcc l (addr l).toNat) (freshId s) s.cur.mask s.cur.pc) :
    ∃ c hb, coresDropped (s.block s.cw.bk).core (acq.any scopeWide) s (s.setCores c) ∧
      (acq = none → c = s.cores ∧ hb = s.cw.hb) ∧
      issueLoad k true n t (localLanes q true n addr s) = (((numbered s).setCores c).updCw fun w => { w with hb := hb }).updCw
        (loadIssue (takenOut o0 (s.perLane (windowVal s q n addr))) o0.writes (laneRows t (n == 8)) s.cur.mask s.cur.pc) := by
  obtain ⟨hq, ha, -, hh⟩ := he
  obtain ⟨g1, g2, g3, g4⟩ := (inBundle_iff s).1 h
  have hlanes : (s.bl.map fun l => localAcc l (addr l).toNat).map (·.lane) = s.bl := by
    rw [List.map_map]; exact List.map_id _
  have hroom : LoadSrc.room { kind := k, accs := s.bl.map fun l => localAcc l (addr l).toNat, size := n } s = true := by
    have : (s.bl.map fun l => localAcc l (addr l).toNat).filterMap (·.peer) = [] := by
      rw [List.filterMap_map]
      exact List.filterMap_eq_nil_iff.2 fun _ _ => rfl
    rw [LoadSrc.room, this]; rfl
  obtain ⟨Y, hb, T1, m, T2, o1, hT1, hsrc, ho1, hnone, hsome, hrun⟩ := issueLoad_run k true n t
    ⟨s.bl.map fun l => localAcc l (addr l).toNat, [], s⟩ s (memSide.refl s) h rfl hlanes hq ha hh hroom
  obtain ⟨hacq, hload⟩ := localKind_source k q acq hk s.cur.wk (freshId s) n (s.bl.map fun l => localAcc l (addr l).toNat) T1
  simp only at hT1 hsrc ho1 hrun
  rw [← h0] at hT1 ho1 hrun
  rw [hload] at hsrc
  obtain ⟨rfl, rfl⟩ := Prod.mk.inj hsrc
  set L := loadIssue o0 o0.writes (laneRows t (n == 8)) s.cur.mask s.cur.pc with hL
  have hside : memSide ((numbered s).updCw L) T2 := by
    rw [hT1]; split
    · exact acquireDrop_side _ _ _
    · exact .refl _
  have hcw : T2.warp s.cur.wk = L s.cw := by
    have := updCw_cw (numbered s) L g1
    rw [hside.warp]; exact this
  have hspace : (T2.block (T2.warp s.cur.wk).bk).space q = s.cb.space q := by
    have hbk : (L s.cw).bk = s.cw.bk := by rw [hL, loadIssue]; split <;> rfl
    rw [hcw, hbk, hside.block]; rfl
  have hvals := loadLocal_vals (T2.block (T2.warp s.cur.wk).bk) q n s addr hspace
  rw [hvals] at ho1
  have hfin : ∀ c, Y = (numbered s).setCores c → issueLoad k true n t (localLanes q true n addr s) =
      (((numbered s).setCores c).updCw fun w => { w with hb := hb }).updCw
        (loadIssue (takenOut o0 (s.perLane (windowVal s q n addr))) o0.writes (laneRows t (n == 8)) s.cur.mask s.cur.pc) := by
    rintro c rfl
    rw [localLanes_ok q true n addr s hw, hrun, updCw_updCw, ho1]
    exact congrArg _ (funext fun w => (loadIssue_hb _ _ _ _ _ hb w).symm)
  cases acq with
  | none =>
    obtain ⟨hY, rfl⟩ := hnone hacq
    refine ⟨s.cores, s.cw.hb, coresDropped_refl _ _ _ rfl, fun _ => ⟨rfl, rfl⟩, hfin s.cores ?_⟩
    rw [hY, hT1, hacq]; rfl
  | some sc =>
    have hY := hsome sc hacq
    rw [hacq] at hT1
    refine ⟨(acquireDrop (s.block s.cw.bk).core sc T2).cores, hb, ?_, fun hn => absurd hn (by simp), hfin _ ?_⟩
    · refine coresDropped_congr _ _ s _ (acquireDrop (s.block s.cw.bk).core sc T2) rfl ?_
      rw [hT1]
      exact acquireDrop_drops _ _ _ _ (acquireDrop_cores _ _ s ((numbered s).updCw L) rfl)
    · rw [hY, acquireDrop_eq_setCores, hT1]
      simp only
      rw [acquireDrop_eq_setCores (s := (numbered s).updCw L)]
      rfl

theorem inBundle_hb (s : State) (h : s.inBundle = true) (c : Map Core) (hb : List Nat) :
    (((numbered s).setCores c).updCw fun w => { w with hb := hb }).inBundle = true :=
  inBundle_updCw _ _ (inBundle_congr s _ h rfl rfl) rfl
/-- Settles O26: a local load takes its bytes from the window at its issue. -/
theorem localLoads : Obligations.LocalLoads := by
  unfold Obligations.LocalLoads
  intro s i q n t a addr acq hi h ht ha hr he hw
  obtain ⟨k, hk, hexec⟩ : ∃ k, localKind k q acq ∧ exec i s = .next (issueLoad k true n t (localLanes q true n addr s)) := by
    rcases hi with ⟨sw, sz, q', off, rfl, rfl, rfl, rfl, rfl⟩ | ⟨sw, b64, sc, off, rfl, rfl, rfl, rfl, rfl⟩
    · exact ⟨.loc (ldsSpace q'), .inl ⟨rfl, rfl⟩, congrArg Host.Outcome.next (localLoad_issues _ _ _ _ _ _ _ ht ha hr)⟩
    · exact ⟨.locAcq sc, .inr ⟨rfl, sc, rfl, rfl⟩, congrArg Host.Outcome.next (localLoad_issues _ _ _ _ _ _ _ ht ha hr)⟩
  obtain ⟨c, hb, hdrop, hplain, hrun⟩ := localLoad_run s h he k q acq hk n t addr hw _ rfl
  rw [hrun] at hexec
  have hB := inBundle_hb s h c hb
  have hlanes : (s.bl.map fun l => localAcc l (addr l).toNat).map (·.lane) = s.bl := by
    rw [List.map_map]; exact List.map_id _
  set B := ((numbered s).setCores c).updCw fun w => { w with hb := hb } with hBdef
  have hcw : B.cw = { s.cw with hb := hb } := updCw_cw ((numbered s).setCores c) _ ((inBundle_iff s).1 h).1
  have hid : freshId B = freshId s := by rw [freshId, hcw]; rfl
  rw [← hid] at hexec
  refine ⟨_, c, hb, hexec, hdrop, hplain, fun hd => ?_, fun h1 h2 => ?_⟩
  · exact load_due B hB k n t _ _ _ s.cur.pc hd _ rfl _
      (load_writes t n s h (windowVal s q n addr) ht hr hd _ k (freshId B) s.cur.pc hlanes _ rfl)
  · exact load_compare B hB k n t _ _ (windowVal s q n addr) h1 h2 ht hlanes rfl (zeros_cover s h n t ht hr) _ _ rfl rfl

end Sys2Proof.Machine
end

section
/-! Loads from global memory (O27), and what a translation leaves as it was. -/
namespace Sys2Proof.Machine

/-! ### What is on its way to the homes -/
/-- The atomics and the stores on their way stay. -/
structure Mem.keepsTraffic (m t : Mem) : Prop where
  atoms : t.atoms = m.atoms
  flights : t.flights = m.flights
  nextFid : t.nextFid = m.nextFid
theorem keepsTraffic_refl (m : Mem) : m.keepsTraffic m := ⟨rfl, rfl, rfl⟩
theorem Mem.keepsTraffic.trans {m t u : Mem} (h1 : m.keepsTraffic t) (h2 : t.keepsTraffic u) : m.keepsTraffic u :=
  ⟨h2.atoms.trans h1.atoms, h2.flights.trans h1.flights, h2.nextFid.trans h1.nextFid⟩
theorem countRead_traffic (m : Mem) (ln : Nat) : m.keepsTraffic (m.countRead ln) := by
  rw [Mem.countRead]
  split
  · exact keepsTraffic_refl m
  · split
    · exact keepsTraffic_refl m
    · split
      · obtain ⟨h, sk, ls, e, -⟩ := dropLine_rest m (!_) ln
        rw [e]; exact ⟨rfl, rfl, rfl⟩
      · exact ⟨rfl, rfl, rfl⟩
theorem countReads_traffic (ads : List Nat) (m : Mem) : m.keepsTraffic (m.countReads ads) := by
  induction ads generalizing m with
  | nil => exact keepsTraffic_refl m
  | cons x t ih => exact (countRead_traffic m (x / 1024)).trans (ih _)
theorem walkAccess_traffic (c : Option Nat) (part : Nat) (k : Acc) (l va : Nat) (s : State) :
    s.mem.keepsTraffic (walkAccess c part k l va s).2.mem := by
  rw [walkAccess]
  split
  · exact countReads_traffic _ _
  · rename_i pa level x _
    have h1 : s.mem.keepsTraffic (if withAD k x = x then s else homeStore PageAttr.none pa (leBytes (withAD k x).toNat 8) s).mem := by
      split
      · exact keepsTraffic_refl _
      · obtain ⟨hb, sk, ls, ar, e, -⟩ := homeStore_spec PageAttr.none pa (leBytes (withAD k x).toNat 8) s
        rw [e]; exact ⟨rfl, rfl, rfl⟩
    split
    · exact countReads_traffic _ _
    · cases c <;> exact h1.trans (countReads_traffic _ _)
theorem translate_traffic (c : Option Nat) (part : Nat) (k : Acc) (l va : Nat) (s : State) :
    s.mem.keepsTraffic (translate c part k l va s).2.mem := by
  rw [translate]
  split
  · exact keepsTraffic_refl _
  · split
    · exact walkAccess_traffic _ _ _ _ _ _
    · split
      · exact walkAccess_traffic _ _ _ _ _ _
      · split <;> exact keepsTraffic_refl _
theorem globalLane_traffic (k : Acc) (n : Nat) (addr : Nat → DWord) (chk : AccCheck) (r : LaneRes) (l : Nat) :
    r.s.mem.keepsTraffic (globalLane k n addr chk r l).s.mem := by
  have h := translate_traffic (some r.s.cur.core) r.s.cb.part k l (addr l).toNat r.s
  simp only [globalLane]
  split
  · exact keepsTraffic_refl _
  · split
    · rename_i e; rw [e] at h; exact h
    · rename_i e; rw [e] at h
      split
      · exact keepsTraffic_refl _
      · exact h
/-- THE TRANSLATIONS OF AN INSTRUCTION leave what is on its way to the homes. -/
theorem globalLanes_traffic (k : Acc) (n : Nat) (addr : Nat → DWord) (chk : AccCheck) (s : State) :
    s.mem.keepsTraffic (globalLanes k n addr chk s).s.mem := by
  have : ∀ (ls : List Nat) (r : LaneRes), r.s.mem.keepsTraffic (ls.foldl (globalLane k n addr chk) r).s.mem := by
    intro ls
    induction ls with
    | nil => exact fun r => keepsTraffic_refl _
    | cons l t ih => exact fun r => (globalLane_traffic k n addr chk r l).trans (ih _)
  exact this s.bl ⟨[], [], s⟩

/-! ### The warp of a load -/
/-- A list of writes names no register where none is found for it. -/
theorem all_ne_isNone (xs : List RegWrite) (x : Dest) :
    (xs.all fun y => x != y.dest) = ((xs.find? fun y => y.dest == x).map (·.val)).isNone := by
  rw [Bool.eq_iff_iff, List.all_eq_true]
  simp only [Option.isNone_iff_eq_none, Option.map_eq_none_iff, List.find?_eq_none, bne_iff_ne, beq_iff_eq]
  exact ⟨fun hx y hy he => hx y hy he.symm, fun hx y hy he => hx y hy he.symm⟩
theorem resultDest_isNone (d : Reg) (pair : Bool) (m : Word) (f g : Nat → DWord) (x : Dest) :
    (resultDest d pair m f x).isNone = (resultDest d pair m g x).isNone := by
  rw [← Option.not_isSome, ← Option.not_isSome, resultDest_some d pair m f g]
/-- A load's accesses, where no lane faults: on the memory side, one for each lane. -/
theorem accesses_spec (x : LoadForm) (s : State) : memSide s (x.accesses s).s ∧
    ((x.accesses s).faults = [] → (x.accesses s).accs.map (·.lane) = s.bl) := by
  obtain ⟨h1, h2⟩ := globalLanes_spec .read x.n x.addr x.chk s
  refine ⟨h1, fun hf => ?_⟩
  have hl : ∀ (q : LdgQ) (r : LaneRes), (withPolicy q r).accs.map (·.lane) = r.accs.map (·.lane) := by
    intro q r
    rw [withPolicy, List.map_map]
    refine List.map_congr_left fun a _ => ?_
    show (if a.attr.pol = 3 then a else _ : LaneAcc).lane = _
    split
    · rfl
    · split <;> rfl
  rw [LoadForm.accesses, hl]
  exact h2 hf
/-- A load's issue with a result to compare, and with a plain one. -/
theorem loadIssue_agree (o : Out) (zs : List RegWrite) (rs : List Nat) (m : Word) (pc : DWord) (h : o.agree = true) :
    loadIssue o zs rs m pc = cmpIssue o zs m pc := funext fun w => by rw [loadIssue, h, if_pos rfl]
theorem loadIssue_plain (o : Out) (zs : List RegWrite) (rs : List Nat) (m : Word) (pc : DWord) (h : o.agree = false) :
    loadIssue o zs rs m pc = dueIssue o rs m pc := funext fun w => by rw [loadIssue, h]; rfl
theorem memReg_le (n : Nat) (t : Reg) (h : memReg true n t = true) : t.toNat ≤ 124 := by
  rw [memReg] at h
  split at h
  · rw [evenCode, Bool.and_eq_true] at h
    exact of_decide_eq_true h.2
  · rw [if_pos rfl, laneDst] at h
    exact of_decide_eq_true h
/-- THE WARP OF A LOAD that has issued and taken its bytes. -/
theorem load_issued (s t' : State) (h : s.inBundle = true) (k : LoadKind) (n : Nat) (t : Reg) (accs : List LaneAcc) (f : Nat → DWord)
    (hb : List Nat) (ht : memReg true n t = true) (hr : rowsFit s (laneRows t (n == 8)) = true)
    (hacc : accs.map (·.lane) = s.bl) (o0 o : Out) (h0 : o0 = loadOut k n t accs (freshId s) s.cur.mask s.cur.pc)
    (ho : o = takenOut o0 (s.perLane f))
    (hcw : t'.cw = { loadIssue o o0.writes (laneRows t (n == 8)) s.cur.mask s.cur.pc s.cw with hb := hb }) :
    t'.cw.memq = s.cw.memq ∧ (∀ y, destExists y = true → regAt t'.cw y = regAt s.cw y) ∧
      t'.cw.outs = (s.cw.outs.map fun p => { p with writes := p.writes.filter fun w =>
        (resultDest t (n == 8) s.cur.mask (fun _ => 0) w.dest).isNone }) ++ [o] ∧
      (t.toNat < 88 ∨ t = 124 → lanesWentOn s t' ∧ rowsBecome (laneRows t (n == 8)) s t' ∧
        t'.cw = { s.cw with lanes := t'.cw.lanes, mapped := t'.cw.mapped, outs := t'.cw.outs, hb := t'.cw.hb,
                            nextId := freshId s + 1, retired := s.cw.retired + 1 }) ∧
      (88 ≤ t.toNat → t.toNat < 124 →
        t'.cw = { s.cw with outs := t'.cw.outs, hb := t'.cw.hb, nextId := freshId s + 1,
                            parks := s.cw.parks ++ [{ mask := s.cur.mask, pc := s.cur.pc, why := .compare o.id }] }) := by
  obtain ⟨g1, g2, g3, g4⟩ := (inBundle_iff s).1 h
  have hid : o.id = freshId s := by rw [ho, h0]; rfl
  have hag : o.agree = decide (88 ≤ t.toNat ∧ t.toNat < 124) := by rw [ho, h0]; rfl
  have hz0 : accs.map (fun a => (a.lane, (0 : DWord))) = s.perLane fun _ => 0 := by
    rw [State.perLane, ← hacc, List.map_map]; rfl
  have hcov := zeros_cover s h n t ht hr
  have hzs : ∀ x, (o0.writes.all fun y => x != y.dest) = (resultDest t (n == 8) s.cur.mask (fun _ => 0) x).isNone := by
    have : o0.writes = if t = 124 then [] else (dueWrites t (n == 8) (s.perLane fun _ => 0)).getD [] := by rw [h0, ← hz0]; rfl
    rw [this]
    exact covers_none _ _ _ hcov
  by_cases hc : 88 ≤ t.toNat ∧ t.toNat < 124
  · rw [loadIssue_agree _ _ _ _ _ (hag.trans (decide_eq_true hc)), cmpIssue] at hcw
    simp only [hzs] at hcw
    rw [hcw]
    refine ⟨rfl, fun y hy => regAt_congr _ _ _ rfl rfl rfl (fun _ _ => rfl) hy, rfl, fun hx => ?_, fun _ _ => ?_⟩
    · obtain hx | rfl := hx
      · exact absurd hx (by omega)
      · exact absurd hc.2 (by decide)
    · rw [hid]
  · have hlane : t.toNat < 88 ∨ t = 124 := by
      have : t.toNat ≤ 124 := memReg_le n t ht
      rcases Nat.lt_or_ge t.toNat 88 with hl | hl
      · exact .inl hl
      · exact .inr (BitVec.eq_of_toNat_eq (by show t.toNat = 124; omega))
    have hos : ∀ x, (o.writes.all fun y => x != y.dest) = (resultDest t (n == 8) s.cur.mask (fun _ => 0) x).isNone := by
      intro x
      have hw := load_writes t n s h f ht hr hlane accs k (freshId s) s.cur.pc hacc _ rfl x
      rw [← h0, ← ho] at hw
      rw [all_ne_isNone, hw]
      exact resultDest_isNone _ _ _ _ _ x
    rw [loadIssue_plain _ _ _ _ _ (hag.trans (decide_eq_false hc)), dueIssue] at hcw
    simp only [hos] at hcw
    obtain ⟨w, hw⟩ : ∃ w : Warp, w = { s.cw with
        outs := (s.cw.outs.map fun p => { p with writes := p.writes.filter fun x =>
          (resultDest t (n == 8) s.cur.mask (fun _ => 0) x.dest).isNone }) ++ [o]
        nextId := o.id + 1
        mapped := (laneRows t (n == 8)).foldl (fun m r => m ||| (1#88 <<< r)) s.cw.mapped
        hb := hb } := ⟨_, rfl⟩
    have hend : t'.cw = endIssue s.cur.mask s.cur.pc w := by rw [hcw, hw]; rfl
    obtain ⟨hwent, hregs⟩ := endIssue_went s t' w h (by rw [hw]; exact ⟨rfl, rfl, rfl, rfl, rfl⟩) hend
    refine ⟨by rw [hend, hw]; rfl, hregs, by rw [hend, hw]; rfl, fun _ => ⟨hwent, fun r hr' => ?_, ?_⟩,
      fun h1 h2 => absurd ⟨h1, h2⟩ hc⟩
    · rw [hend, hw]
      exact mapRows_bits _ s.cw.mapped r hr'
    · rw [hend, hw, hid]; rfl
/-- The memory side after a change of the warp, with the warps of before. -/
theorem memSide_setWarps {s u z : State} (hs : memSide s u) (F : Warp → Warp) (h : memSide (u.updCw F) z) :
    memSide s (z.setWarps s.warps) :=
  ⟨h.cur.trans hs.cur, h.agenda.trans hs.agenda, h.nextSched.trans hs.nextSched, rfl, h.blocks.trans hs.blocks,
    h.clusters.trans hs.clusters, h.dies.trans hs.dies, h.faults.trans hs.faults, h.launch.trans hs.launch, h.wd.trans hs.wd,
    h.rel.trans hs.rel⟩
/-- Settles O27: a global load takes its bytes at its issue; LDR.use of no reads is illegal. -/
theorem globalLoads : Obligations.GlobalLoads := by
  unfold Obligations.GlobalLoads
  refine ⟨fun s i x hx h ht ha hr he hf hroom => ?_, fun s sw sz d t a h =>
    ⟨raiseIllegal s, rfl, raiseMask_taken _ _ _ _ s h⟩⟩
  obtain ⟨hq, hat, -, hh⟩ := he
  obtain ⟨hside, hacc⟩ := accesses_spec x s
  have hacc := hacc hf
  have hat' : ∀ a ∈ (x.accesses s).s.mem.atoms, a.wk ≠ s.cur.wk := by
    rw [LoadForm.accesses, withPolicy, (globalLanes_traffic .read x.n x.addr x.chk s).atoms]; exact hat
  obtain ⟨Y, hb, T1, m, T2, o, hT1, hsrc, ho, hnone, hsome, hrun⟩ :=
    issueLoad_run x.kind false x.n x.t (x.accesses s) s hside h hf hacc hq hat' hh hroom
  set o0 := loadOut x.kind x.n x.t (x.accesses s).accs (freshId s) s.cur.mask s.cur.pc with h0
  set f : Nat → DWord := fun l => loadVal (mGet m [] l) with hfdef
  have hvals : (x.accesses s).accs.map (fun a => (a.lane, loadVal (mGet m [] a.lane))) = s.perLane f := by
    rw [State.perLane, ← hacc, List.map_map]; rfl
  rw [hvals] at ho
  have hY : memSide s Y := by
    have hn : memSide s (numbered (x.accesses s).s) := hside.trans (memSide_setMem _ _)
    have h2 : memSide T1 T2 := by
      have := loadSource_side s.cur.wk (freshId s) x.kind x.n (x.accesses s).accs T1
      rw [← hsrc] at this; exact this
    cases hac : x.kind.acquires with
    | none =>
      rw [hac] at hT1
      rw [(hnone hac).1]
      rw [hT1] at h2
      exact memSide_setWarps hn _ h2
    | some sc =>
      rw [hac] at hT1
      rw [hsome sc hac]
      rw [hT1] at h2
      exact memSide_setWarps hn _ (((acquireDrop_side _ _ _).trans h2).trans (acquireDrop_side _ _ _))
  have hexec := exec_load s i x hx ht ha hr
  rw [hrun] at hexec
  have hcw := updCw_cw Y (fun w => { loadIssue o o0.writes (laneRows x.t (x.n == 8)) s.cur.mask s.cur.pc w with hb := hb })
    ((inBundle_iff Y).1 (hY.inBundle h)).1
  rw [hY.cw] at hcw
  obtain ⟨hm, hregs, houts, hlane, hcmp⟩ := load_issued s _ h x.kind x.n x.t _ f hb ht hr hacc o0 o h0 ho hcw
  refine ⟨_, o, hexec, memWarp_updCw hY _, hm.trans hq, ?_, ?_, ?_, ?_, ?_, ?_, hregs, houts, hlane, hcmp⟩
  all_goals rw [ho, h0]; rfl

end Sys2Proof.Machine
end

section
/-! Stores to the local spaces (O30). -/
namespace Sys2Proof.Machine

/-! ### An operation that nothing holds back -/
/-- THE ONLY OPERATION OF ITS STREAM, with nothing before it: a release has nothing to wait for where the core's stores
have arrived. -/
theorem performOp_quiet (wk : Nat) (o : MemOp) (s : State) (h : (s.warp wk).memq = [o]) (ha : ∀ a ∈ s.mem.atoms, a.wk ≠ wk)
    (hh : hbHeld s wk o.wid = false) (hl : o.load = none) (hd : o.drain = false)
    (hg : o.gate = none ∨ ∃ sc, o.gate = some (.begin sc) ∧
      (scopeWide sc = true → (s.coreAt (s.block (s.warp wk).bk).core).pool = [] ∧ s.mem.flights = [])) :
    ∃ c, performOp wk o.id s = finishOp wk o (s.setCores c) := by
  have hroom : o.noRoom wk s = false := by rw [MemOp.noRoom, hl]; rfl
  have hperf := performOp_free wk o s h ha hh hroom
  rcases hg with hg | ⟨sc, hg, hq⟩
  · exact ⟨s.cores, by rw [hperf, hg]; rfl⟩
  · obtain ⟨c, e, -⟩ := releaseBegin_quiet (s.block (s.warp wk).bk).core sc s fun hs => (hq hs).1
    have hfids : releaseFids (s.block (s.warp wk).bk).core sc (s.setCores c) = [] := releaseFids_quiet _ _ _ fun hs => (hq hs).2
    refine ⟨c, ?_⟩
    rw [hperf, hg]
    simp only [hd, Bool.false_and, Bool.false_eq_true, if_false, e, hfids, List.isEmpty_nil, if_true]
/-- A releasing store's note for its homes (R225). -/
def relNoted (rel : Option Scope) (wid : Nat) (s : State) : State :=
  match rel with
  | some sc => s.updMem fun m => { m with rels := mSet m.rels wid (relInfo s sc) }
  | none => s
/-- An operation joins its stream, and the issue ends. -/
def pushedWarp (o : MemOp) (m : Word) (pc : DWord) (w : Warp) : Warp :=
  endIssue m pc { (if o.fence || o.gate.isSome then settleOuts w else if o.isLocal && o.load.isNone then settleLocal w else w) with
    memq := w.memq ++ [o], nextId := o.id + 1 }
theorem done_pushOp (o : MemOp) (s : State) (h : s.inBundle = true) :
    done (pushOp o s) = s.updCw (pushedWarp o s.cur.mask s.cur.pc) := by
  have hp : (pushOp o s).cur = s.cur := rfl
  rw [done_eq _ (by rw [hp]; exact ((inBundle_iff s).1 h).2.2.1), hp, pushOp, updCw_updCw]
  rfl
/-- What is settled is of results alone. -/
theorem settled_sameFile (c d : Bool) (w : Warp) (q : List MemOp) (n : Nat) : Warp.sameFile
    { (if c then settleOuts w else if d then settleLocal w else w) with memq := q, nextId := n } w := by
  cases c <;> cases d <;> exact ⟨rfl, rfl, rfl, rfl, rfl⟩
theorem pushedWarp_keeps (o : MemOp) (m : Word) (pc : DWord) (w : Warp) : (pushedWarp o m pc w).memq = w.memq ++ [o] ∧
    (pushedWarp o m pc w).bk = w.bk ∧ (pushedWarp o m pc w).hb = w.hb := by
  rw [pushedWarp]
  cases o.fence || o.gate.isSome <;> cases o.isLocal && o.load.isNone <;> exact ⟨rfl, rfl, rfl⟩

/-! ### Local stores -/
theorem mem_mapIdxFrom {α β : Type} (f : Nat → α → β) (i : Nat) (xs : List α) (y : β) (h : y ∈ mapIdxFrom f i xs) :
    ∃ k x, x ∈ xs ∧ k < xs.length ∧ y = f (i + k) x := by
  induction xs generalizing i with
  | nil => cases h
  | cons x t ih =>
    rw [mapIdxFrom, List.mem_cons] at h
    rcases h with rfl | h
    · exact ⟨0, x, List.mem_cons_self, by simp, rfl⟩
    · obtain ⟨k, z, hz, hk, rfl⟩ := ih (i + 1) h
      exact ⟨k + 1, z, List.mem_cons_of_mem _ hz, by simp [hk], by rw [Nat.add_assoc, Nat.add_comm 1]⟩
theorem mem_laneLStores (s : State) (t : Reg) (n : Nat) (q : LSpace) (accs : List LaneAcc) (w : LWrite)
    (h : w ∈ laneLStores s t n q accs) : w.space = q ∧ ∃ a ∈ accs, a.va ≤ w.off ∧ w.off < a.va + n := by
  rw [laneLStores, List.mem_flatMap] at h
  obtain ⟨a, ha, hw⟩ := h
  obtain ⟨k, x, -, hk, rfl⟩ := mem_mapIdxFrom _ _ _ _ hw
  rw [storeBytes, leBytes_length] at hk
  exact ⟨rfl, a, ha, by simp, by simp only [Nat.zero_add]; omega⟩
/-- A local store's operation. -/
def lstoreOp (s : State) (q : LSpace) (n : Nat) (t : Reg) (rel : Option Scope) (accs : List LaneAcc) : MemOp :=
  { MemOp.blank (freshId s) s.mem.nextWid with
    lws := laneLStores s t n q accs, isLocal := true, gate := rel.map Gate.begin, rel := rel.map fun sc => (sc, s.mem.nextWid) }
theorem issueLStore_eq (q : LSpace) (n : Nat) (t : Reg) (rel : Option Scope) (accs : List LaneAcc) (s : State)
    (hne : accs.isEmpty = false) : issueLStore q n t rel ⟨accs, [], s⟩ =
      performOp s.cur.wk (freshId s) (done (pushOp (lstoreOp s q n t rel accs) (relNoted rel s.mem.nextWid (numbered s)))) := by
  simp only [issueLStore, raiseLanes, hne, Bool.false_eq_true, if_false]
  cases rel <;> rfl
/-- The effect of a local store's operation. -/
theorem finishOp_lstore (wk : Nat) (s u : State) (q : LSpace) (n : Nat) (t : Reg) (rel : Option Scope) (accs : List LaneAcc)
    (hne : (laneLStores s t n q accs).isEmpty = false) : finishOp wk (lstoreOp s q n t rel accs) u =
      localStore (u.warp wk).bk (laneLStores s t n q accs) (rel.map fun sc => (sc, s.mem.nextWid))
        (u.updWarp wk fun w => { w with memq := w.memq.filter fun x => x.id != freshId s }) := by
  have e : (lstoreOp s q n t rel accs).lws = laneLStores s t n q accs := rfl
  simp only [finishOp, e, hne, Bool.false_eq_true, if_false]
  rfl
theorem laneLStores_ne (s : State) (t : Reg) (n : Nat) (hn : 0 < n) (q : LSpace) (accs : List LaneAcc) (h : accs ≠ []) :
    (laneLStores s t n q accs).isEmpty = false := by
  obtain ⟨a, as, rfl⟩ := List.exists_cons_of_ne_nil h
  have : (storeBytes s t n a.lane).length = n := leBytes_length _ _
  rw [laneLStores, List.flatMap_cons, List.isEmpty_eq_false_iff, ← List.length_pos_iff, List.length_append, mapIdxFrom_length, this]
  omega
/-- The warp of a local store that has issued and performed. -/
def lstoreLeft (s : State) (o : MemOp) (w : Warp) : Warp :=
  { pushedWarp o s.cur.mask s.cur.pc w with memq := (pushedWarp o s.cur.mask s.cur.pc w).memq.filter fun x => x.id != freshId s }
/-- A LOCAL STORE behind an empty stream: its window takes the bytes, and the issue is over. -/
theorem localStore_run (s : State) (h : s.inBlock = true) (he : streamEmpty s) (q : LSpace) (n : Nat) (hn : 0 < n) (t : Reg)
    (addr : Nat → Word) (rel : Option Scope) (hw : windowOk s q false n addr) (hq : rel.any scopeWide = true → coreQuiet s)
    (hnn : q = .sp → noNotify s.cb fun o => ∃ l < 32, s.cur.mask.getLsbD l = true ∧ (addr l).toNat ≤ o ∧ o < (addr l).toNat + n) :
    ∃ (V : State) (F : Block → Block), issueLStore q n t rel (localLanes q false n addr s) = V.updBlock s.cw.bk F ∧
      V.cur = s.cur ∧ V.blocks = s.blocks ∧ (∀ k pa, V.mem.byteUnder k pa = s.mem.byteUnder k pa) ∧
      V.warps = mMod s.warps s.cur.wk (fun w => lstoreLeft s (lstoreOp s q n t rel (s.bl.map fun l => localAcc l (addr l).toNat)) w) ∧
      ∀ b q', (F b).space q' = if q' = q then (laneLStores s t n q (s.bl.map fun l => localAcc l (addr l).toNat)).foldl
        (fun m w => memWrite m w.off w.val) (b.space q) else b.space q' := by
  have hb := inBundle_of_inBlock h
  obtain ⟨g1, g2, g3, g4⟩ := (inBundle_iff s).1 hb
  obtain ⟨hm, hat, -, hh⟩ := he
  set accs := s.bl.map fun l => localAcc l (addr l).toNat with haccs
  have hacc : accs ≠ [] := by rw [haccs]; simpa using bl_cons s hb
  set o := lstoreOp s q n t rel accs with ho
  -- the store alone in its stream
  obtain ⟨X, hX⟩ : ∃ X, X = relNoted rel s.mem.nextWid (numbered s) := ⟨_, rfl⟩
  have hXw : X.warps = s.warps := by rw [hX]; cases rel <;> rfl
  have hXc : X.cur = s.cur := by rw [hX]; cases rel <;> rfl
  have hXb : X.blocks = s.blocks := by rw [hX]; cases rel <;> rfl
  have hXk : X.cores = s.cores := by rw [hX]; cases rel <;> rfl
  have hXa : X.mem.atoms = s.mem.atoms := by rw [hX]; cases rel <;> rfl
  have hXf : X.mem.flights = s.mem.flights := by rw [hX]; cases rel <;> rfl
  have hXm : ∀ k pa, X.mem.byteUnder k pa = s.mem.byteUnder k pa := by rw [hX]; cases rel <;> exact fun _ _ => rfl
  have hXin : X.inBundle = true := inBundle_congr s X hb hXw hXc
  set G := pushedWarp o s.cur.mask s.cur.pc with hG
  have hP : done (pushOp o X) = X.updWarp s.cur.wk G := by
    rw [done_pushOp o X hXin, hXc, ← hG, State.updCw, hXc]
  obtain ⟨hGq, hGb, hGh⟩ := pushedWarp_keeps o s.cur.mask s.cur.pc s.cw
  rw [hm, List.nil_append] at hGq
  have hXl : (mFind X.warps s.cur.wk).isSome = true := by rw [hXw]; exact g1
  have hXcw : X.warp s.cur.wk = s.cw := by rw [State.warp, hXw]; rfl
  have hPw : (X.updWarp s.cur.wk G).warp s.cur.wk = G s.cw := by rw [State.updWarp_warp _ _ _ hXl, hXcw]
  have hcore : ((X.updWarp s.cur.wk G).block ((X.updWarp s.cur.wk G).warp s.cur.wk).bk).core = (s.block s.cw.bk).core := by
    rw [hPw, hGb]; show (X.block s.cw.bk).core = _; rw [State.block, hXb]; rfl
  obtain ⟨c, hperf⟩ := performOp_quiet s.cur.wk o (X.updWarp s.cur.wk G) (by rw [hPw, hGq])
    (by show ∀ a ∈ X.mem.atoms, _; rw [hXa]; exact hat)
    (by rw [hbHeld_upd X _ _ G hXl (by rw [hXcw]; exact hGh), hbHeld_congr _ _ hXw]; exact hh _) rfl rfl (by
      cases rel with
      | none => exact .inl rfl
      | some sc =>
        refine .inr ⟨sc, rfl, fun hs => ?_⟩
        obtain ⟨h1, h2⟩ := hq hs
        rw [hcore]
        refine ⟨?_, (show X.mem.flights = [] from hXf.trans h2)⟩
        show (X.coreAt _).pool = []
        rw [State.coreAt, hXk]; exact h1)
  have hfin := finishOp_lstore s.cur.wk s ((X.updWarp s.cur.wk G).setCores c) q n t rel accs (laneLStores_ne s t n hn q accs hacc)
  set V := ((X.updWarp s.cur.wk G).setCores c).updWarp s.cur.wk (fun w => { w with memq := w.memq.filter fun x => x.id != freshId s })
    with hV
  have hVb : V.blocks = s.blocks := hXb
  have hbk : (((X.updWarp s.cur.wk G).setCores c).warp s.cur.wk).bk = s.cw.bk := (congrArg Warp.bk hPw).trans hGb
  have hVblk : ∀ k, V.block k = s.block k := fun k => by rw [State.block, hVb]; rfl
  obtain ⟨F, hF, hFs⟩ := localStore_upd s.cw.bk q (laneLStores s t n q accs) (rel.map fun sc => (sc, s.mem.nextWid)) V
    (fun w hw' => (mem_laneLStores _ _ _ _ _ _ hw').1) (by rw [hVb]; exact block_of_inBlock h) (by
      intro hsp ch hch hl w hw'
      rw [hVblk] at hl ⊢
      obtain ⟨-, a, ha, h1, h2⟩ := mem_laneLStores _ _ _ _ _ _ hw'
      rw [haccs] at ha
      obtain ⟨l, hl', rfl⟩ := List.mem_map.1 ha
      obtain ⟨h3, h4⟩ := (mem_maskLanes _ _).1 hl'
      exact hnn hsp ch hch hl w.off ⟨l, h3, h4, h1, h2⟩)
  have hiss : issueLStore q n t rel (localLanes q false n addr s) = V.updBlock s.cw.bk F := by
    rw [localLanes_ok q false n addr s hw, ← haccs, issueLStore_eq q n t rel accs s (List.isEmpty_eq_false_iff.2 hacc), ← ho, ← hX, hP]
    rw [show freshId s = o.id from rfl, hperf, hfin, hbk, hF]
  refine ⟨V, F, hiss, hXc, hVb, hXm, ?_, fun b => (hFs b).2.2⟩
  show mMod (mMod X.warps s.cur.wk G) s.cur.wk _ = _
  rw [mMod_mMod, hXw]
  rfl
/-- Settles O30: a local store performs at once in its window. -/
theorem localStores : Obligations.LocalStores := by
  unfold Obligations.LocalStores
  intro s i q n t a addr rel hi h ht ha he hw hq hnn
  have hb := inBundle_of_inBlock h
  obtain ⟨g1, g2, g3, g4⟩ := (inBundle_iff s).1 hb
  obtain ⟨hn, hexec⟩ : 0 < n ∧ exec i s = .next (issueLStore q n t rel (localLanes q false n addr s)) := by
    rcases hi with ⟨sw, sz, q', off, rfl, hq', rfl, rfl, rfl, rfl⟩ | ⟨sw, b64, sc, off, rfl, rfl, rfl, rfl, rfl⟩
    · exact ⟨by cases sz <;> decide, exec_sts s sw sz q' t a off ht ha hq'⟩
    · exact ⟨by cases b64 <;> decide, exec_stl s sw b64 sc true t a off ht ha⟩
  obtain ⟨V, F, hrun, hVc, hVb, hVm, hVw, hF⟩ := localStore_run s h he q n hn t addr rel hw hq hnn
  rw [hrun] at hexec
  set o := lstoreOp s q n t rel (s.bl.map fun l => localAcc l (addr l).toNat) with ho
  have hcw : (V.updBlock s.cw.bk F).cw = lstoreLeft s o s.cw := by
    show (V.updBlock s.cw.bk F).warp V.cur.wk = _
    rw [State.warp, show (V.updBlock s.cw.bk F).warps = _ from hVw, hVc, mGet_mMod _ _ _ _ _ g1, if_pos rfl]
    rfl
  have hmemq : (lstoreLeft s o s.cw).memq = [] := by
    show ((s.cw.memq ++ [o]).filter fun x => x.id != freshId s) = []
    rw [he.1]
    simp [ho, lstoreOp, MemOp.blank]
  obtain ⟨hwent, hregs⟩ := endIssue_went s (V.updBlock s.cw.bk F) _ hb
    (settled_sameFile (o.fence || o.gate.isSome) (o.isLocal && o.load.isNone) s.cw [] (o.id + 1)) (by
      rw [hcw, ← hmemq]; rfl)
  refine ⟨_, hexec, hwent, hregs, by rw [hcw, hmemq], fun k hk => ?_, hVm, fun bk' q' off => ?_⟩
  · rw [show (V.updBlock s.cw.bk F).warps = _ from hVw, mFind_mMod, if_neg fun e => hk e.symm]
  · have hblk : (mFind V.blocks s.cw.bk).isSome = true := by rw [hVb]; exact block_of_inBlock h
    have hV : ∀ k, V.block k = s.block k := fun k => by rw [State.block, hVb]; rfl
    rw [updBlock_any _ _ _ _ hblk, hV, hV]
    by_cases e : bk' = s.cw.bk
    · rw [if_pos e, hF]
      by_cases eq : q' = q
      · rw [if_pos eq, if_pos ⟨e, eq⟩]; rfl
      · rw [if_neg eq, if_neg fun x => eq x.2, e]
    · rw [if_neg e, if_neg fun x => e x.1]

end Sys2Proof.Machine
end

section
/-! Stores to global memory (O29). -/
namespace Sys2Proof.Machine

/-! ### Writes that leave a core -/
/-- Flights more, and nothing else on the memory side. -/
def flightsAdded (s : State) (new : List Flight) (nf : Nat) : State :=
  s.setMem { s.mem with flights := s.mem.flights ++ new, nextFid := nf }
theorem flightsAdded_twice (s : State) (a b : List Flight) (n m : Nat) :
    flightsAdded (flightsAdded s a n) b m = flightsAdded s (a ++ b) m := by
  have : (flightsAdded s a n).mem.flights ++ b = s.mem.flights ++ (a ++ b) := List.append_assoc _ _ _
  rw [flightsAdded, this]; rfl
/-- The flight of some writes to one place. -/
def flightTo (src : Nat) (nt : Bool) (ws : List PWrite) (fid : Nat) (h : Nat × Nat) : Flight where
  fid := fid
  src := src
  home := h.1
  ws := ws.filter fun w => (homeOfWrite w, peerSector w) == h
  nt := nt
/-- Writes that leave together: each stands in a flight to its home. -/
theorem sendWrites_adds (src : Nat) (nt : Bool) (ws : List PWrite) (s : State) :
    ∃ new nf, sendWrites src nt ws s = flightsAdded s new nf ∧ (∀ f ∈ new, f.nt = nt ∧ f.src = src ∧ ∀ w ∈ f.ws, w ∈ ws) ∧
      ∀ w ∈ ws, ∃ f ∈ new, f.home = homeOfWrite w ∧ w ∈ f.ws := by
  have key : ∀ (hs : List (Nat × Nat)) (s : State), ∃ new nf,
      hs.foldl (fun s h => addFlight src h.1 nt (ws.filter fun w => (homeOfWrite w, peerSector w) == h) s) s = flightsAdded s new nf ∧
      (∀ f ∈ new, f.nt = nt ∧ f.src = src ∧ ∀ w ∈ f.ws, w ∈ ws) ∧
      ∀ h ∈ hs, ∃ f ∈ new, f.home = h.1 ∧ f.ws = ws.filter fun w => (homeOfWrite w, peerSector w) == h := by
    intro hs
    induction hs with
    | nil => intro s; exact ⟨[], s.mem.nextFid, by rw [flightsAdded, List.append_nil]; rfl, by simp, by simp⟩
    | cons h t ih =>
      intro s
      obtain ⟨new, nf, e, h1, h2⟩ := ih (addFlight src h.1 nt (ws.filter fun w => (homeOfWrite w, peerSector w) == h) s)
      obtain ⟨f, hf⟩ : ∃ f, f = flightTo src nt ws s.mem.nextFid h := ⟨_, rfl⟩
      refine ⟨f :: new, nf, ?_, fun g hg => ?_, fun k hk => ?_⟩
      · rw [List.foldl_cons, e, hf, ← List.singleton_append, ← flightsAdded_twice s _ new (s.mem.nextFid + 1)]
        rfl
      · rcases List.mem_cons.1 hg with rfl | hg
        · rw [hf]; exact ⟨rfl, rfl, fun w hw => (List.mem_filter.1 hw).1⟩
        · exact h1 g hg
      · rcases List.mem_cons.1 hk with rfl | hk
        · exact ⟨f, List.mem_cons_self, by rw [hf]; rfl, by rw [hf]; rfl⟩
        · obtain ⟨g, hg, hg'⟩ := h2 k hk
          exact ⟨g, List.mem_cons_of_mem _ hg, hg'⟩
  obtain ⟨new, nf, e, h1, h2⟩ := key ((ws.map fun w => (homeOfWrite w, peerSector w)).dedup) s
  refine ⟨new, nf, e, h1, fun w hw => ?_⟩
  obtain ⟨f, hf, hh, hws⟩ := h2 (homeOfWrite w, peerSector w) (List.mem_dedup.2 (List.mem_map.2 ⟨w, hw, rfl⟩))
  exact ⟨f, hf, hh, by rw [hws]; exact List.mem_filter.2 ⟨hw, by simp⟩⟩
/-- An eviction sends plain stores. -/
theorem evictWhere_adds (core : Nat) (p : Nat → Bool) (s : State) :
    ∃ new nf c, evictWhere core p s = (flightsAdded s new nf).setCores c ∧ ∀ f ∈ new, f.nt = false := by
  have key : ∀ (ws : List PWrite) (secs : List Nat) (s : State), ∃ new nf,
      secs.foldl (fun s sec => sendWrites core false (ws.filter fun w => w.key / 128 == sec) s) s = flightsAdded s new nf ∧
      ∀ f ∈ new, f.nt = false := by
    intro ws secs
    induction secs with
    | nil => intro s; exact ⟨[], s.mem.nextFid, by rw [flightsAdded, List.append_nil]; rfl, by simp⟩
    | cons x t ih =>
      intro s
      obtain ⟨a, nf, e, h1, -⟩ := sendWrites_adds core false (ws.filter fun w => w.key / 128 == x) s
      obtain ⟨b, nf', e', h2⟩ := ih (flightsAdded s a nf)
      refine ⟨a ++ b, nf', ?_, fun f hf => ?_⟩
      · rw [List.foldl_cons, e, e', flightsAdded_twice]
      · exact (List.mem_append.1 hf).elim (fun h => (h1 f h).1) (h2 f)
  obtain ⟨new, nf, e, h⟩ := key (poolWrites (s.coreAt core) fun k => p (k / 128))
    (((poolWrites (s.coreAt core) fun k => p (k / 128)).map fun w => w.key / 128).dedup) _
  exact ⟨new, nf, _, e, h⟩
/-- A core without the snapshots of the sectors that some writes are in. -/
def snapsDropped (ws : List PWrite) (c : Core) : Core :=
  { c with snaps := c.snaps.filter fun kv => !((ws.map fun w => w.key / 128).dedup).contains kv.1 }
/-- A NON-TEMPORAL STORE LEAVES: each of its writes is in a flight to its home. -/
theorem ntStore_adds (wk core : Nat) (ws : List PWrite) (s : State) :
    ∃ new nf c fids, ntStore wk core ws s =
        ((flightsAdded s new nf).setCores c).updWarp wk (fun w => { w with ntFids := w.ntFids ++ fids }) ∧
      (∀ f ∈ new, f.nt = false ∨ ∀ w ∈ f.ws, w ∈ ws) ∧
      ∀ w ∈ ws, ∃ f ∈ new, f.nt = true ∧ f.src = core ∧ f.home = homeOfWrite w ∧ w ∈ f.ws := by
  obtain ⟨hit, hhit⟩ : ∃ hit : List Nat, hit = ((s.coreAt core).pool.filter fun kb => ws.any fun w => w.key == kb.1).map
    fun kb => kb.1 / 128 := ⟨_, rfl⟩
  obtain ⟨a, nf, c, e, h1⟩ := evictWhere_adds core hit.contains s
  obtain ⟨b, nf', e', h2, h3⟩ := sendWrites_adds core true ws ((evictWhere core hit.contains s).updCore core (snapsDropped ws))
  obtain ⟨fids, hfids⟩ : ∃ fids, ntStore wk core ws s = (sendWrites core true ws ((evictWhere core hit.contains s).updCore core (snapsDropped ws))).updWarp wk
        (fun w => { w with ntFids := w.ntFids ++ fids }) := by
    rw [hhit]; exact ⟨_, rfl⟩
  rw [e', e] at hfids
  refine ⟨a ++ b, nf', mUpd c Core.init core (snapsDropped ws), fids, ?_, fun f hf => ?_, fun w hw => ?_⟩
  · rw [hfids, ← flightsAdded_twice]
    rfl
  · exact (List.mem_append.1 hf).elim (fun h => .inl (h1 f h)) fun h => .inr (h2 f h).2.2
  · obtain ⟨f, hf, hh, hws⟩ := h3 w hw
    exact ⟨f, List.mem_append_right _ hf, (h2 f hf).1, (h2 f hf).2.1, hh, hws⟩

/-! ### A store joins its stream -/
theorem mem_prune (s : State) (l : List Nat) (x : Nat) (h : x ∈ s.prune l) : x ∈ l := by
  rw [State.prune] at h
  split at h
  · cases h
  · exact (List.mem_filter.1 (List.mem_dedup.1 h)).1
/-- A write that takes its place in its warp's order holds nothing of the warp back. -/
theorem hbHeld_ordered (s u : State) (wk n : Nat) (f : Warp → Warp) (hu : u.warps = s.warps) (hw : (mFind s.warps wk).isSome = true)
    (hf : ∀ x ∈ (f (s.warp wk)).hb, x = n ∨ x ∈ (s.warp wk).hb) (h : hbHeld s wk n = false) :
    hbHeld (u.updWarp wk f) wk n = false := by
  have huw : u.warp wk = s.warp wk := by rw [State.warp, hu]; rfl
  have hx : (u.updWarp wk f).warp wk = f (s.warp wk) := by rw [State.updWarp_warp _ _ _ (by rw [hu]; exact hw), huw]
  rw [hbHeld, hx, Bool.and_eq_false_iff]
  refine .inr (List.any_eq_false.2 fun kw hkw => ?_)
  rw [Bool.and_eq_true, not_and, bne_iff_ne]
  intro hk ha
  obtain ⟨x, hxm, hc⟩ := List.any_eq_true.1 ha
  rw [Bool.and_eq_true, decide_eq_true_eq, List.contains_iff_mem] at hc
  have hin : kw ∈ s.warps := by
    rcases mem_mMod _ _ _ _ (show kw ∈ mMod u.warps wk f from hkw) with hm | ⟨v, -, rfl⟩
    · rwa [hu] at hm
    · exact absurd rfl hk
  have hold : x.wid ∈ (s.warp wk).hb := (hf _ hc.2).resolve_left (by omega)
  have : hbHeld s wk n = true := by
    rw [hbHeld, Bool.and_eq_true]
    refine ⟨?_, List.any_eq_true.2 ⟨kw, hin, ?_⟩⟩
    · cases he : (s.warp wk).hb with
      | nil => rw [he] at hold; cases hold
      | cons a t => rfl
    · rw [Bool.and_eq_true, bne_iff_ne]
      exact ⟨hk, List.any_eq_true.2 ⟨x, hxm, by simp [hc.1, hold]⟩⟩
  rw [this] at h
  exact absurd h (by decide)
/-- A warp whose writes `hb` stand before what it does next. -/
def withHb (hb : List Nat) (w : Warp) : Warp := { w with hb := hb }
/-- The memory side of a store that takes its place in the order: a write number more, and notes of it. -/
structure noted (u v : State) : Prop where
  rest : v = u.setMem v.mem
  flights : v.mem.flights = u.mem.flights
  nextFid : v.mem.nextFid = u.mem.nextFid
  atoms : v.mem.atoms = u.mem.atoms
  bytes : ∀ k pa, v.mem.byteUnder k pa = u.mem.byteUnder k pa
theorem noted.side {u v : State} (h : noted u v) : memSide u v := by rw [h.rest]; exact memSide_setMem u _
theorem noted.trans {u v w : State} (h1 : noted u v) (h2 : noted v w) : noted u w :=
  ⟨h2.rest.trans (show v.setMem w.mem = u.setMem w.mem by rw [h1.rest]; rfl), h2.flights.trans h1.flights, h2.nextFid.trans h1.nextFid,
    h2.atoms.trans h1.atoms, fun k pa => (h2.bytes k pa).trans (h1.bytes k pa)⟩
/-- A write's place in its warp's order. -/
theorem orderWrite_notes (wid : Nat) (u : State) :
    ∃ v hb, orderWrite wid u = v.updCw (withHb (wid :: hb)) ∧ noted u v ∧ ∀ x ∈ hb, x ∈ u.cw.hb := by
  refine ⟨if (u.prune u.cw.hb).isEmpty then u else u.updMem fun m => { m with preds := mSet m.preds wid (u.prune u.cw.hb) },
    u.prune u.cw.hb, rfl, ?_, fun x hx => mem_prune u _ x hx⟩
  split <;> exact ⟨rfl, rfl, rfl, rfl, fun _ _ => rfl⟩
theorem relNoted_notes (rel : Option Scope) (wid : Nat) (u : State) : noted u (relNoted rel wid (numbered u)) := by
  cases rel <;> exact ⟨rfl, rfl, rfl, rfl, fun _ _ => rfl⟩
/-- A global store's operation. -/
def storeOp (s u : State) (n : Nat) (t : Reg) (nt : Bool) (rel : Option Scope) (accs : List LaneAcc) : MemOp :=
  { MemOp.blank (freshId s) u.mem.nextWid with
    ws := laneStores s t n u.mem.nextWid accs, nt := nt, gate := rel.map Gate.begin, rel := rel.map fun sc => (sc, u.mem.nextWid) }
/-- The warp of a global store that has joined its stream. -/
def storeJoined (s : State) (o : MemOp) (hb : List Nat) (w : Warp) : Warp :=
  pushedWarp o s.cur.mask s.cur.pc (withHb (o.wid :: hb) w)
theorem issueStore_joins (s u : State) (h : s.inBundle = true) (hs : memSide s u) (n : Nat) (t : Reg) (nt : Bool)
    (rel : Option Scope) (accs : List LaneAcc) (hne : accs ≠ []) (hsb : storeBytes u t n = storeBytes s t n) (o : MemOp)
    (ho : o = storeOp s u n t nt rel accs) :
    ∃ v hb, noted u v ∧ (∀ x ∈ hb, x ∈ s.cw.hb) ∧ issueStore n t nt rel ⟨accs, [], u⟩ =
      if nt then performOp s.cur.wk o.id (performOverwritten s.cur.wk o.id (v.updCw (storeJoined s o hb)))
      else v.updCw (storeJoined s o hb) := by
  obtain ⟨v, hb, hv, hn1, hsub⟩ := orderWrite_notes u.mem.nextWid (relNoted rel u.mem.nextWid (numbered u))
  have hn0 := relNoted_notes rel u.mem.nextWid u
  have hn := hn0.trans hn1
  refine ⟨v, hb, hn, fun x hx => by rw [← hs.cw, ← hn0.side.cw]; exact hsub x hx, ?_⟩
  have hws : laneStores u t n u.mem.nextWid accs = laneStores s t n u.mem.nextWid accs := by rw [laneStores, laneStores, hsb]
  have hid : freshId u = freshId s := congrArg Warp.fresh hs.cw
  have hvs : memSide s v := hs.trans hn.side
  have hin : (v.updCw (withHb (u.mem.nextWid :: hb))).inBundle = true := inBundle_updCw _ _ (hvs.inBundle h) rfl
  have hcur : (v.updCw (withHb (u.mem.nextWid :: hb))).cur = s.cur := hvs.cur
  have hdone : done (pushOp o (v.updCw (withHb (u.mem.nextWid :: hb)))) = v.updCw (storeJoined s o hb) := by
    rw [done_pushOp _ _ hin, hcur, updCw_updCw, ho]; rfl
  have hop : { MemOp.blank (freshId u) u.mem.nextWid with
      ws := laneStores u t n u.mem.nextWid accs, nt := nt, gate := rel.map Gate.begin,
      rel := rel.map fun sc => (sc, u.mem.nextWid) } = o := by rw [ho, storeOp, hws, hid]
  have hid' : freshId s = o.id := by rw [ho]; rfl
  have hstep : issueStore n t nt rel ⟨accs, [], u⟩ =
      (if nt then fun x : State => performOp u.cur.wk (freshId u) (performOverwritten u.cur.wk (freshId u) x) else id)
        (done (pushOp { MemOp.blank (freshId u) u.mem.nextWid with
          ws := laneStores u t n u.mem.nextWid accs, nt := nt, gate := rel.map Gate.begin,
          rel := rel.map fun sc => (sc, u.mem.nextWid) } (orderWrite u.mem.nextWid (relNoted rel u.mem.nextWid (numbered u))))) := by
    simp only [issueStore, raiseLanes, List.isEmpty_eq_false_iff.2 hne, Bool.false_eq_true, if_false]
    cases rel <;> cases nt <;> rfl
  rw [hstep, hop, hv, hdone, hid, hid', hs.cur]
  cases nt <;> rfl

/-! ### The warp and the memory of a store -/
theorem settled_rest (c d : Bool) (w : Warp) :
    ∃ os, (if c then settleOuts w else if d then settleLocal w else w) = { w with outs := os } := by
  cases c <;> cases d <;> exact ⟨_, rfl⟩
/-- The warp of a global store, whatever is left of its stream. -/
theorem storeJoined_warp (s t' : State) (h : s.inBundle = true) (o : MemOp) (hid : o.id = freshId s) (hb fids : List Nat) (q : List MemOp)
    (hcw : t'.cw = { storeJoined s o hb s.cw with memq := q, ntFids := fids }) :
    lanesWentOn s t' ∧ (∀ y, destExists y = true → regAt t'.cw y = regAt s.cw y) ∧
      t'.cw = { s.cw with lanes := t'.cw.lanes, outs := t'.cw.outs, memq := t'.cw.memq, hb := t'.cw.hb, ntFids := t'.cw.ntFids,
                          nextId := freshId s + 1, retired := s.cw.retired + 1 } := by
  obtain ⟨os, hend⟩ : ∃ os, t'.cw = endIssue s.cur.mask s.cur.pc
      { s.cw with outs := os, memq := q, hb := o.wid :: hb, ntFids := fids, nextId := freshId s + 1 } := by
    obtain ⟨os, e⟩ := settled_rest (o.fence || o.gate.isSome) (o.isLocal && o.load.isNone) (withHb (o.wid :: hb) s.cw)
    refine ⟨os, ?_⟩
    rw [hcw, storeJoined, pushedWarp, e, hid]
    rfl
  obtain ⟨hwent, hregs⟩ := endIssue_went s t' _ h (by exact ⟨rfl, rfl, rfl, rfl, rfl⟩) hend
  exact ⟨hwent, hregs, by rw [hend]; rfl⟩
/-- A STORE THAT STAYS IN ITS STREAM. -/
theorem store_waits (s u t' : State) (h : s.inBundle = true) (hs : memSide s u) (o : MemOp) (hid : o.id = freshId s) (v : State)
    (hb : List Nat) (hv : noted u v) (ht : t' = v.updCw (storeJoined s o hb)) :
    sameMemory u t' ∧ memWarp s t' ∧ lanesWentOn s t' ∧ (∀ y, destExists y = true → regAt t'.cw y = regAt s.cw y) ∧
      t'.cw = { s.cw with lanes := t'.cw.lanes, outs := t'.cw.outs, memq := t'.cw.memq, hb := t'.cw.hb, ntFids := t'.cw.ntFids,
                          nextId := freshId s + 1, retired := s.cw.retired + 1 } ∧
      t'.cw.memq = s.cw.memq ++ [o] ∧ t'.mem.flights = u.mem.flights ∧ t'.cores = u.cores := by
  have hvs : memSide s v := hs.trans hv.side
  have hl : (mFind v.warps v.cur.wk).isSome = true := ((inBundle_iff v).1 (hvs.inBundle h)).1
  have hcw : t'.cw = storeJoined s o hb s.cw := by rw [ht, updCw_cw _ _ hl, hvs.cw]
  obtain ⟨hwent, hregs, hrest⟩ := storeJoined_warp s t' h o hid hb (storeJoined s o hb s.cw).ntFids (storeJoined s o hb s.cw).memq hcw
  refine ⟨?_, by rw [ht]; exact memWarp_updCw hvs _, hwent, hregs, hrest, ?_, ?_, ?_⟩
  · rw [ht]
    refine ⟨hv.bytes, fun bk q off => ?_⟩
    rw [show (v.updCw (storeJoined s o hb)).block bk = u.block bk from hv.side.block bk]
  · rw [hcw]; exact (pushedWarp_keeps o s.cur.mask s.cur.pc _).1
  · rw [ht]; exact hv.flights
  · rw [ht, show (v.updCw (storeJoined s o hb)).cores = v.cores from rfl, hv.rest]; rfl
/-- A NON-TEMPORAL STORE that nothing holds back leaves its stream at once. -/
theorem store_leaves (s u t' : State) (h : s.inBundle = true) (hs : memSide s u) (he : streamEmpty s)
    (hat : u.mem.atoms = s.mem.atoms) (n : Nat) (t : Reg) (accs : List LaneAcc) (o : MemOp) (ho : o = storeOp s u n t true none accs)
    (hne : o.ws ≠ []) (v : State) (hb : List Nat) (hv : noted u v) (hsub : ∀ x ∈ hb, x ∈ s.cw.hb)
    (ht : t' = performOp s.cur.wk o.id (performOverwritten s.cur.wk o.id (v.updCw (storeJoined s o hb)))) :
    sameMemory u t' ∧ memWarp s t' ∧ lanesWentOn s t' ∧ (∀ y, destExists y = true → regAt t'.cw y = regAt s.cw y) ∧
      t'.cw = { s.cw with lanes := t'.cw.lanes, outs := t'.cw.outs, memq := t'.cw.memq, hb := t'.cw.hb, ntFids := t'.cw.ntFids,
                          nextId := freshId s + 1, retired := s.cw.retired + 1 } ∧ t'.cw.memq = [] ∧
      (∀ w ∈ o.ws, ∃ f ∈ t'.mem.flights, f.nt = true ∧ f.src = (s.block s.cw.bk).core ∧ f.home = homeOfWrite w ∧ w ∈ f.ws) ∧
      ∀ f ∈ t'.mem.flights, f ∈ u.mem.flights ∨ f.nt = false ∨ ∀ w ∈ f.ws, w ∈ o.ws := by
  obtain ⟨hm, ha, -, hh⟩ := he
  have hvs : memSide s v := hs.trans hv.side
  have hvc : v.cur = s.cur := hvs.cur
  have hlive := ((inBundle_iff s).1 h).1
  have hl : (mFind v.warps s.cur.wk).isSome = true := by rw [hvs.warps]; exact hlive
  set J := storeJoined s o hb with hJ
  obtain ⟨jq, jb, -⟩ := pushedWarp_keeps o s.cur.mask s.cur.pc (withHb (o.wid :: hb) s.cw)
  have hq1 : (J s.cw).memq = [o] := by rw [hJ, storeJoined, jq]; show s.cw.memq ++ [o] = _; rw [hm]; rfl
  have hJh : (J s.cw).hb = o.wid :: hb := (pushedWarp_keeps o s.cur.mask s.cur.pc (withHb (o.wid :: hb) s.cw)).2.2
  have hP : v.updCw J = v.updWarp s.cur.wk J := by rw [State.updCw, hvc]
  have hPw : (v.updWarp s.cur.wk J).warp s.cur.wk = J s.cw := by
    rw [State.updWarp_warp _ _ _ hl, hvs.warp]; rfl
  have hover : performOverwritten s.cur.wk o.id (v.updWarp s.cur.wk J) = v.updWarp s.cur.wk J := by
    simp only [performOverwritten, hPw, hq1, find_own, take_own, List.any_nil, Bool.false_eq_true, if_false]
  have hheld := hbHeld_ordered s v s.cur.wk o.wid J hvs.warps hlive (fun x hx => by
    rw [show s.warp s.cur.wk = s.cw from rfl, hJh] at hx
    exact (List.mem_cons.1 hx).imp_right (hsub x)) (hh o.wid)
  have hload : o.load = none := by rw [ho]; rfl
  have hperf := performOp_free s.cur.wk o (v.updWarp s.cur.wk J) (by rw [hPw, hq1])
    (by show ∀ a ∈ v.mem.atoms, _; rw [hv.atoms, hat]; exact ha) hheld (by rw [MemOp.noRoom, hload]; rfl)
  rw [show o.gate = none by rw [ho]; rfl] at hperf
  set V := (v.updWarp s.cur.wk J).updWarp s.cur.wk (fun w => { w with memq := w.memq.filter fun x => x.id != o.id }) with hV
  have hcore : ((v.updWarp s.cur.wk J).block ((v.updWarp s.cur.wk J).warp s.cur.wk).bk).core = (s.block s.cw.bk).core := by
    rw [hPw, hJ, storeJoined, jb]
    exact congrArg Block.core (hvs.block s.cw.bk)
  have hfin : finishOp s.cur.wk o (v.updWarp s.cur.wk J) = ntStore s.cur.wk (s.block s.cw.bk).core o.ws V := by
    rw [← hcore]
    have e1 : o.acq = none := by rw [ho]; rfl
    have e2 : o.roinv = false := by rw [ho]; rfl
    have e3 : o.lws = [] := by rw [ho]; rfl
    have e4 : o.nt = true := by rw [ho]; rfl
    simp only [finishOp, e1, e2, e3, e4, hload, List.isEmpty_eq_false_iff.2 hne, List.isEmpty_nil, Bool.false_eq_true, if_false, if_true]
    rfl
  obtain ⟨new, nf, c, fids, hnt, hnew, hall⟩ := ntStore_adds s.cur.wk (s.block s.cw.bk).core o.ws V
  set L : Warp → Warp := fun w => { J w with memq := (J w).memq.filter fun x => x.id != o.id, ntFids := (J w).ntFids ++ fids } with hL
  have ht2 : t' = ((flightsAdded v new nf).setCores c).updCw L := by
    rw [ht, hP, hover, hperf]
    show finishOp s.cur.wk o (v.updWarp s.cur.wk J) = _
    rw [hfin, hnt]
    have e : ((flightsAdded V new nf).setCores c).updWarp s.cur.wk (fun w => { w with ntFids := w.ntFids ++ fids }) =
        ((((flightsAdded v new nf).setCores c).updWarp s.cur.wk J).updWarp s.cur.wk
          (fun w => { w with memq := w.memq.filter fun x => x.id != o.id })).updWarp s.cur.wk
            (fun w => { w with ntFids := w.ntFids ++ fids }) := rfl
    rw [e, updWarp_updWarp, updWarp_updWarp, State.updCw]
    rw [show ((flightsAdded v new nf).setCores c).cur = s.cur from hvc]
  have hside : memSide s ((flightsAdded v new nf).setCores c) :=
    ⟨hvs.cur, hvs.agenda, hvs.nextSched, hvs.warps, hvs.blocks, hvs.clusters, hvs.dies, hvs.faults, hvs.launch, hvs.wd, hvs.rel⟩
  have hcw : t'.cw = L s.cw := by
    rw [ht2, updCw_cw _ _ ((inBundle_iff _).1 (hside.inBundle h)).1, hside.cw]
  have hLq : (L s.cw).memq = [] := by rw [hL]; simp only [hq1]; simp
  obtain ⟨hwent, hregs, hrest⟩ := storeJoined_warp s t' h o (by rw [ho]; rfl) hb ((J s.cw).ntFids ++ fids) (L s.cw).memq hcw
  have hfl : t'.mem.flights = u.mem.flights ++ new := by
    rw [ht2, ← hv.flights]; rfl
  refine ⟨?_, by rw [ht2]; exact memWarp_updCw hside _, hwent, hregs, hrest, by rw [hcw, hLq], fun w hw => ?_, fun f hf => ?_⟩
  · rw [ht2]
    refine ⟨hv.bytes, fun bk q off => ?_⟩
    rw [show (((flightsAdded v new nf).setCores c).updCw L).block bk = u.block bk from hv.side.block bk]
  · obtain ⟨f, hf, hf'⟩ := hall w hw
    exact ⟨f, by rw [hfl]; exact List.mem_append_right _ hf, hf'⟩
  · rw [hfl] at hf
    exact (List.mem_append.1 hf).imp_right (hnew f)
/-- What the lanes store does not depend on the memory side. -/
theorem storeBytes_onlyMem {s u : State} (h : onlyMem s u) (t : Reg) (n : Nat) : storeBytes u t n = storeBytes s t n := by
  obtain ⟨m, c, rfl⟩ := h
  rfl
theorem laneStores_ne (s : State) (t : Reg) (n : Nat) (hn : 0 < n) (wid : Nat) (accs : List LaneAcc) (h : accs ≠ []) :
    laneStores s t n wid accs ≠ [] := by
  obtain ⟨a, as, rfl⟩ := List.exists_cons_of_ne_nil h
  have : (storeBytes s t n a.lane).length = n := leBytes_length _ _
  rw [laneStores, List.flatMap_cons, ← List.length_pos_iff, List.length_append, mapIdxFrom_length, this]
  omega
/-- Settles O29: a global store joins its stream, and a non-temporal one leaves it at once. -/
theorem globalStores : Obligations.GlobalStores := by
  unfold Obligations.GlobalStores
  intro s i n t a addr nt rel hi h ht ha
  obtain ⟨hn, hrel, hexec⟩ : 0 < n ∧ (nt = true → rel = none) ∧ exec i s = .next (if nt && !s.cg.stream then raisePriv s
      else issueStore n t nt rel (globalLanes .write n addr noCheck s)) := by
    rcases hi with ⟨sw, sz, off, rfl, rfl, rfl, rfl⟩ | ⟨sw, b64, sc, off, rfl, rfl, rfl, rfl, rfl⟩
    · exact ⟨by cases sz <;> decide, fun _ => rfl, exec_stg s sw sz nt t a off ht ha⟩
    · exact ⟨by cases b64 <;> decide, fun hc => absurd hc (by decide), exec_stl s sw b64 sc false t a off ht ha⟩
  refine ⟨fun h1 h2 => ⟨raisePriv s, by rw [hexec, h1, h2]; rfl, raiseMask_taken _ _ _ _ s h⟩, fun hnt hf => ?_⟩
  have hgo : ¬ (nt && !s.cg.stream) = true := by
    rintro hc
    rw [Bool.and_eq_true, Bool.not_eq_true'] at hc
    rw [(hnt hc.1).1] at hc
    exact absurd hc.2 (by decide)
  rw [if_neg hgo] at hexec
  obtain ⟨hs, hacc⟩ := globalLanes_spec .write n addr noCheck s
  obtain ⟨hat, -, -⟩ := globalLanes_traffic .write n addr noCheck s
  have honly := globalLanes_only .write n addr noCheck s
  obtain ⟨accs, hr⟩ : ∃ accs, globalLanes .write n addr noCheck s = ⟨accs, [], (globalLanes .write n addr noCheck s).s⟩ :=
    ⟨(globalLanes .write n addr noCheck s).accs, by rw [← hf]⟩
  rw [hr] at hacc
  generalize (globalLanes .write n addr noCheck s).s = u at *
  rw [hr] at hexec ⊢
  have hne : accs ≠ [] := by
    rintro rfl
    exact bl_cons s h (hacc rfl).symm
  obtain ⟨o, ho⟩ : ∃ o, o = storeOp s u n t nt rel accs := ⟨_, rfl⟩
  obtain ⟨v, hb, hv, hsub, hjoin⟩ := issueStore_joins s u h hs n t nt rel accs hne (storeBytes_onlyMem honly t n) o ho
  have hid : o.id = freshId s := by rw [ho]; rfl
  refine ⟨_, o.ws, u, hexec, rfl, by rw [ho]; rfl, ?_⟩
  cases nt with
  | false =>
    obtain ⟨a1, a2, a3, a4, a5, a6, a7, a8⟩ := store_waits s u _ h hs o hid v hb hv (hjoin.trans (if_neg Bool.false_ne_true))
    refine ⟨a1, a2, a3, a4, a5, fun _ => ⟨?_, a7, a8⟩, fun hc => absurd hc (by decide)⟩
    rw [a6, ho]; rfl
  | true =>
    obtain rfl := hrel rfl
    have hows : o.ws ≠ [] := by rw [ho]; exact laneStores_ne s t n hn _ accs hne
    obtain ⟨a1, a2, a3, a4, a5, a6, a7, a8⟩ :=
      store_leaves s u _ h hs (hnt rfl).2 hat n t accs o ho hows v hb hv hsub (hjoin.trans (if_pos rfl))
    exact ⟨a1, a2, a3, a4, a5, fun hc => absurd hc (by decide), fun _ => ⟨a6, a7, a8⟩⟩

end Sys2Proof.Machine
end

section
/-! Atomics set out toward their homes, or perform at the scratchpad (O32). -/
namespace Sys2Proof.Machine

/-! ### The issue of an atomic -/
/-- An atomic's outstanding result as it is issued. -/
def atomOut (t : Reg) (b64 : Bool) (accs : List LaneAcc) (id : Nat) (mask : Word) (pc : DWord) : Out :=
  { Out.blank id mask t b64 with
    waitAtom := true, writes := if t = 124 then [] else laneWrites t b64 (accs.map fun a => (a.lane, 0)),
    peer := accs.findSome? (·.peer), pc := pc }
/-- The warp with an atomic's result outstanding; .comm has none. -/
def atomIssued (u : Use) (o : Out) (rows : List Nat) (w : Warp) : Warp :=
  if u = .comm then { w with nextId := o.id + 1 } else
    { w with
      outs := (w.outs.map fun p => { p with writes := p.writes.filter fun x => o.writes.all fun y => x.dest != y.dest }) ++ [o]
      nextId := o.id + 1, mapped := rows.foldl (fun m r => m ||| (1#88 <<< r)) w.mapped }
theorem addOut_mapRows (o : Out) (rows : List Nat) (u : Use) (s : State) :
    (if u = .comm then s.updCw fun w => { w with nextId := o.id + 1 } else mapRows rows (addOut o s)) =
      s.updCw (atomIssued u o rows) := by
  by_cases hu : u = .comm
  · rw [if_pos hu]
    exact congrArg s.updCw (funext fun w => by rw [atomIssued, if_pos hu])
  · rw [if_neg hu, mapRows, addOut, updCw_updCw]
    refine congrArg s.updCw (funext fun w => ?_)
    rw [atomIssued, if_neg hu, dropAll_eq]
/-- An atomic is a committing instruction, but for .spec of global memory. -/
def atomEnd (u : Use) (sp : Bool) (m : Word) (pc : DWord) (w : Warp) : Warp :=
  if u = .spec && !sp then endIssue m pc w else Warp.boundary m (endIssue m pc w)
/-- Atomics join those under way. -/
def atomsAdded (v : State) (reqs : List AtomReq) : State :=
  v.updMem fun m => { m with atoms := m.atoms ++ reqs, nextAtom := m.nextAtom + reqs.length }
/-- The requests of an atomic instruction. -/
def atomReqs (s u : State) (aop : Aop) (b64 : Bool) (use : Use) (sp : Bool) (t : Reg) (accs : List LaneAcc) : List AtomReq :=
  mapIdxFrom (atomReq u aop b64 use sp t u.mem.nextWid (freshId s) (if use = .comm then none else some (freshId s))) 0 accs
/-- The warp of an atomic instruction when its requests have set out; `H` gives it its place in the warp's order. -/
def atomWarp (s : State) (use : Use) (sp : Bool) (o : Out) (rows : List Nat) (H : Warp → Warp) (w : Warp) : Warp :=
  atomEnd use sp s.cur.mask s.cur.pc (H (atomIssued use o rows w))
/-- A local atomic stands behind the warp's local loads, a global one behind its writes. -/
def atomPlaced (sp : Bool) (wid : Nat) (H : Warp → Warp) : Prop := if sp then H = settleLocal else ∃ hb, H = withHb (wid :: hb)
theorem atomIssued_lanes (u : Use) (o : Out) (rows : List Nat) (w : Warp) : (atomIssued u o rows w).lanes = w.lanes := by
  rw [atomIssued]; split <;> rfl
theorem atomPlaced_sameFile {sp : Bool} {wid : Nat} {H : Warp → Warp} (h : atomPlaced sp wid H) (w : Warp) : (H w).sameFile w := by
  rw [atomPlaced] at h
  split at h
  · rw [h]; exact ⟨rfl, rfl, rfl, rfl, rfl⟩
  · obtain ⟨hb, rfl⟩ := h; exact ⟨rfl, rfl, rfl, rfl, rfl⟩
/-- THE ISSUE OF AN ATOMIC: its result, its requests, and the end of the issue. -/
theorem issueAtom_sets (s u : State) (h : s.inBundle = true) (hs : memSide s u) (aop : Aop) (b64 : Bool) (use : Use) (sp : Bool)
    (t : Reg) (accs : List LaneAcc) (hne : accs ≠ []) (o : Out) (ho : o = atomOut t b64 accs (freshId s) s.cur.mask s.cur.pc) :
    ∃ v H, noted u v ∧ atomPlaced sp u.mem.nextWid H ∧ issueAtom aop b64 use sp t ⟨accs, [], u⟩ =
      (if sp then tryLocalAtoms s.cur.wk o.id 32 else id)
        ((atomsAdded v (atomReqs s u aop b64 use sp t accs)).updCw (atomWarp s use sp o (laneRows t b64) H)) := by
  obtain ⟨g1, g2, g3, g4⟩ := (inBundle_iff s).1 h
  have hid : freshId u = freshId s := congrArg Warp.fresh hs.cw
  have hoid : o.id = freshId s := by rw [ho]; rfl
  set F := atomIssued use o (laneRows t b64) with hF
  -- the place in the warp's order
  obtain ⟨v, H, hn, hH, hplace⟩ : ∃ v H, noted u v ∧ atomPlaced sp u.mem.nextWid H ∧
      (if sp then ((numbered u).updCw F).updCw settleLocal else orderWrite u.mem.nextWid ((numbered u).updCw F)) =
        v.updCw fun w => H (F w) := by
    cases sp with
    | true => exact ⟨numbered u, settleLocal, ⟨rfl, rfl, rfl, rfl, fun _ _ => rfl⟩, rfl, by rw [if_pos rfl, updCw_updCw]⟩
    | false =>
      obtain ⟨v, hb, hv, hn, -⟩ := orderWrite_notes u.mem.nextWid ((numbered u).updCw F)
      refine ⟨u.setMem v.mem, withHb (u.mem.nextWid :: hb), ⟨rfl, hn.flights, hn.nextFid, hn.atoms, hn.bytes⟩, ⟨hb, rfl⟩, ?_⟩
      rw [if_neg Bool.false_ne_true, hv]
      exact (congrArg (fun x : State => x.updCw (withHb (u.mem.nextWid :: hb))) hn.rest).trans
        (updCw_updCw (u.setMem v.mem) F (withHb (u.mem.nextWid :: hb)))
  refine ⟨v, H, hn, hH, ?_⟩
  have hvs : memSide s v := hs.trans hn.side
  set S := (atomsAdded v (atomReqs s u aop b64 use sp t accs)).updCw (fun w => H (F w)) with hS
  have hSin : S.inBundle = true := by
    refine inBundle_updCw _ _ (inBundle_congr _ _ (hvs.inBundle h) rfl rfl) ?_
    rw [(atomPlaced_sameFile hH _).lanes, hF, atomIssued_lanes]
  have hScur : S.cur = s.cur := hvs.cur
  have hend : (if use = .spec && !sp then done S else doneB S) =
      (atomsAdded v (atomReqs s u aop b64 use sp t accs)).updCw (atomWarp s use sp o (laneRows t b64) H) := by
    have e : S.updCw (atomEnd use sp s.cur.mask s.cur.pc) = (atomsAdded v (atomReqs s u aop b64 use sp t accs)).updCw
        (atomWarp s use sp o (laneRows t b64) H) := updCw_updCw _ _ _
    rw [← e]
    cases hc : (use = .spec && !sp : Bool) with
    | true =>
      rw [if_pos rfl, done_eq _ ((inBundle_iff S).1 hSin).2.2.1, hScur]
      exact congrArg S.updCw (funext fun w => by rw [atomEnd, hc]; rfl)
    | false =>
      rw [if_neg Bool.false_ne_true, doneB_eq _ hSin, hScur]
      exact congrArg S.updCw (funext fun w => by rw [atomEnd, hc]; rfl)
  have hO : { Out.blank (freshId u) u.live t b64 with
      waitAtom := true, writes := if t = 124 then [] else laneWrites t b64 (accs.map fun a => (a.lane, 0)),
      peer := accs.findSome? (·.peer), pc := u.cur.pc, fin := { Ending.plain with counts := u.cur.faulted == 0 } } = o := by
    have hl : u.live = s.cur.mask := by rw [live_eq u (by rw [hs.cur]; exact g3), hs.cur]
    rw [ho, hid, hl, hs.cur, g3]
    rfl
  have hcode : issueAtom aop b64 use sp t ⟨accs, [], u⟩ = (if sp then tryLocalAtoms u.cur.wk (freshId u) 32 else id)
      ((fun x : State => if use = .spec && !sp then done x else doneB x) (atomsAdded
        ((fun x : State => if sp then x.updCw settleLocal else orderWrite u.mem.nextWid x)
          (if use = .comm then (numbered u).updCw fun w => { w with nextId := freshId u + 1 } else
            mapRows (laneRows t b64) (addOut { Out.blank (freshId u) u.live t b64 with
              waitAtom := true, writes := if t = 124 then [] else laneWrites t b64 (accs.map fun a => (a.lane, 0)),
              peer := accs.findSome? (·.peer), pc := u.cur.pc, fin := { Ending.plain with counts := u.cur.faulted == 0 } } (numbered u))))
        (mapIdxFrom (atomReq u aop b64 use sp t u.mem.nextWid (freshId u) (if use = .comm then none else some (freshId u))) 0 accs))) := by
    simp only [issueAtom, raiseLanes, List.isEmpty_eq_false_iff.2 hne, Bool.false_eq_true, if_false]
    cases sp <;> rfl
  have hset := addOut_mapRows o (laneRows t b64) use (numbered u)
  rw [hcode, hO, hid, ← hoid, hset, ← hF]
  simp only [hplace]
  rw [hs.cur, ← hend, hoid]
  rfl

/-! ### The warp of an atomic -/
theorem atomIssued_sameFile (u : Use) (o : Out) (rows : List Nat) (w : Warp) : (atomIssued u o rows w).sameFile w := by
  rw [atomIssued]; split <;> exact ⟨rfl, rfl, rfl, rfl, rfl⟩
theorem Warp.sameFile.trans {u v w : Warp} (h1 : u.sameFile v) (h2 : v.sameFile w) : u.sameFile w :=
  ⟨h1.lanes.trans h2.lanes, h1.vregs.trans h2.vregs, h1.sregs.trans h2.sregs, h1.wregs.trans h2.wregs, h1.retired.trans h2.retired⟩
/-- The warp before the end of the issue. -/
theorem atomPlaced_issued {sp : Bool} {wid : Nat} {H : Warp → Warp} (hH : atomPlaced sp wid H) (s : State) (u : Use) (o : Out)
    (rows : List Nat) : (H (atomIssued u o rows s.cw)).sameFile s.cw :=
  (atomPlaced_sameFile hH _).trans (atomIssued_sameFile u o rows s.cw)
/-- The rows of an atomic's result. -/
theorem atomWarp_mapped {sp : Bool} {wid : Nat} {H : Warp → Warp} (hH : atomPlaced sp wid H) (s : State) (u : Use) (o : Out)
    (rows : List Nat) : (atomWarp s u sp o rows H s.cw).mapped = (atomIssued u o rows s.cw).mapped := by
  have e : ∀ w : Warp, (H w).mapped = w.mapped := by
    intro w
    rw [atomPlaced] at hH
    split at hH
    · rw [hH]; rfl
    · obtain ⟨hb, rfl⟩ := hH; rfl
  rw [atomWarp, atomEnd]
  split <;> exact e _
/-- A result that notes the regions that a committing instruction has ended (R248). -/
def keptOut (m : Word) (o : Out) : Out := { o with kept := o.kept ||| (o.mask &&& m) }
/-- The results of a global atomic's warp. -/
theorem atomWarp_outs (s : State) (u : Use) (o : Out) (rows : List Nat) (hb : List Nat) :
    (atomWarp s u false o rows (withHb hb) s.cw).outs =
      if u = .spec then (atomIssued u o rows s.cw).outs else (atomIssued u o rows s.cw).outs.map (keptOut s.cur.mask) := by
  rw [atomWarp, atomEnd]
  by_cases hu : u = .spec
  · rw [if_pos hu, if_pos (by simp [hu])]; rfl
  · rw [if_neg hu, if_neg (by simp [hu])]; rfl
/-- A GLOBAL ATOMIC has set out: its warp and its requests. -/
theorem globalAtom_issued (s u t' : State) (h : s.inBundle = true) (hs : memSide s u) (b64 : Bool) (use : Use) (t : Reg)
    (accs : List LaneAcc) (reqs : List AtomReq) (o : Out) (ho : o = atomOut t b64 accs (freshId s) s.cur.mask s.cur.pc) (v : State)
    (H : Warp → Warp) (hv : noted u v) (wid : Nat) (hH : atomPlaced false wid H)
    (ht : t' = (atomsAdded v reqs).updCw (atomWarp s use false o (laneRows t b64) H)) :
    sameMemory u t' ∧ memWarp s t' ∧ t'.mem.atoms = u.mem.atoms ++ reqs ∧
      (∀ y, destExists y = true → regAt t'.cw y = regAt s.cw y) ∧
      (if use = .spec then lanesWentOn s t' else lanesCommitted s t') ∧
      (use ≠ .comm → rowsBecome (laneRows t b64) s t' ∧
        ∃ o ∈ t'.cw.outs, o.id = freshId s ∧ o.waitAtom = true ∧ o.mask = s.cur.mask ∧ o.dest = t) ∧
      (use = .comm → rowsBecome [] s t' ∧ t'.cw.outs.length = s.cw.outs.length) := by
  have hvs : memSide s v := hs.trans hv.side
  have hside : memSide s (atomsAdded v reqs) := hvs.trans (memSide_updMem v _)
  have hcw : t'.cw = atomWarp s use false o (laneRows t b64) H s.cw := by
    rw [ht, updCw_cw _ _ ((inBundle_iff _).1 (hside.inBundle h)).1, hside.cw]
  have hfile := atomPlaced_issued hH s use o (laneRows t b64)
  obtain ⟨hb, rfl⟩ : ∃ hb, H = withHb hb := by
    obtain ⟨hb, e⟩ := hH
    exact ⟨wid :: hb, e⟩
  have houts := atomWarp_outs s use o (laneRows t b64) hb
  have hmap := atomWarp_mapped hH s use o (laneRows t b64)
  rw [← hcw] at houts hmap
  have hends : (if use = .spec then lanesWentOn s t' else lanesCommitted s t') ∧
      ∀ y, destExists y = true → regAt t'.cw y = regAt s.cw y := by
    rw [atomWarp, atomEnd] at hcw
    by_cases hu : use = .spec
    · rw [if_pos hu]
      rw [if_pos (by simp [hu])] at hcw
      exact endIssue_went s t' _ h hfile hcw
    · rw [if_neg hu]
      rw [if_neg (by simp [hu])] at hcw
      exact endIssue_committed s t' _ h hfile (.of_eq hcw)
  refine ⟨?_, by rw [ht]; exact memWarp_updCw hside _, ?_, hends.2, hends.1, fun hu => ⟨fun r hr => ?_, ?_⟩, fun hu => ⟨fun r hr => ?_, ?_⟩⟩
  · rw [ht]
    refine ⟨hv.bytes, fun bk q off => ?_⟩
    rw [show ((atomsAdded v reqs).updCw (atomWarp s use false o (laneRows t b64) (withHb hb))).block bk = u.block bk from hv.side.block bk]
  · rw [ht, ← hv.atoms]; rfl
  · rw [hmap, atomIssued, if_neg hu]
    exact mapRows_bits _ s.cw.mapped r hr
  · have hin : o ∈ (atomIssued use o (laneRows t b64) s.cw).outs := by
      rw [atomIssued, if_neg hu]
      exact List.mem_append_right _ List.mem_cons_self
    rw [houts]
    split
    · exact ⟨o, hin, by rw [ho]; rfl, by rw [ho]; rfl, by rw [ho]; rfl, by rw [ho]; rfl⟩
    · exact ⟨keptOut s.cur.mask o, List.mem_map.2 ⟨o, hin, rfl⟩, by rw [ho]; rfl, by rw [ho]; rfl, by rw [ho]; rfl, by rw [ho]; rfl⟩
  · rw [hmap, atomIssued, if_pos hu]
    simp
  · rw [houts, atomIssued, if_pos hu]
    split
    · rfl
    · exact List.length_map _

/-! ### Atomics of the scratchpad -/
theorem maskLanes_laneBit : ∀ l < 32, maskLanes (laneBit l) = [l] := by decide
/-- Bytes stored one after the other are the bytes of a run. -/
theorem foldl_memWrite (q : LSpace) (off : Nat) (bs : List Byte) (i : Nat) (m : Memory) :
    (mapIdxFrom (fun i (b : Byte) => ({ space := q, off := off + i, val := b } : LWrite)) i bs).foldl
      (fun m w => memWrite m w.off w.val) m = memWriteBytes m (off + i) bs := by
  induction bs generalizing i m with
  | nil => rfl
  | cons b t ih => rw [mapIdxFrom, List.foldl_cons, ih, memWriteBytes, Nat.add_assoc]
/-- A window after an atomic on it: `r` is what the atomic writes, if anything. -/
def atomStored (r : Option DWord) (off n : Nat) (m : Memory) : Memory :=
  r.elim m fun v => memWriteBytes m off (leBytes v.toNat n)
theorem updBlock_self (s : State) (k : Nat) : (s.updBlock k fun b => b) = s := by
  rw [State.updBlock, mMod_id]; rfl
/-- THE SCRATCHPAD'S BYTES AFTER AN ATOMIC that meets no notify word. -/
theorem performLocalAtom_leaves (a : AtomReq) (s : State) (bk off n : Nat) (old : DWord) (hbk : (s.warp a.wk).bk = bk)
    (hn : n = atomSize a.b64) (hoff : off = a.acc.va) (hb : (mFind s.blocks bk).isSome = true)
    (hnn : noNotify (s.block bk) fun o => off ≤ o ∧ o < off + n)
    (hold : old = BitVec.ofNat 64 (leNat (memReadBytes (s.block bk).sp off n))) :
    ∃ F : Block → Block, performLocalAtom a s = returnAtom a old (s.updBlock bk F) ∧
      ∀ b q, (F b).space q = if q = .sp then atomStored (atomNew a.aop a.b64 old a.x a.y) off n b.sp else b.space q := by
  subst hbk hn hoff hold
  simp only [performLocalAtom]
  cases atomNew a.aop a.b64 (BitVec.ofNat 64 (leNat (memReadBytes (s.block (s.warp a.wk).bk).sp a.acc.va (atomSize a.b64)))) a.x a.y with
  | none =>
    refine ⟨fun b => b, by rw [updBlock_self], fun b q => ?_⟩
    cases q <;> rfl
  | some v =>
    obtain ⟨F, hF, hFs⟩ := localStore_upd (s.warp a.wk).bk .sp
      (mapIdxFrom (fun i (b : Byte) => ({ space := .sp, off := a.acc.va + i, val := b } : LWrite)) 0 (leBytes v.toNat (atomSize a.b64)))
      none s (fun w hw => by obtain ⟨k, x, -, -, rfl⟩ := mem_mapIdxFrom _ _ _ _ hw; rfl) hb (fun _ ch hch hl w hw => by
        obtain ⟨k, x, -, hk, rfl⟩ := mem_mapIdxFrom _ _ _ _ hw
        rw [leBytes_length] at hk
        exact hnn ch hch hl _ ⟨by simp, by simp only [Nat.zero_add]; omega⟩)
    refine ⟨F, by rw [← hF], fun b q => ?_⟩
    rw [(hFs b).2.2 q, foldl_memWrite]
    rfl
/-- The last of the warp's atomics performs, and none is left to try. -/
theorem tryLocalAtoms_one (wk id n : Nat) (s : State) (a : AtomReq) (rest : List AtomReq) (hat : s.mem.atoms = rest ++ [a])
    (hr : ∀ x ∈ rest, x.wk ≠ wk) (hl : a.loc = true) (hw : a.wk = wk) (hi : a.opId = id) (hfree : atomBlocked s a = false)
    (hleft : ∀ x ∈ (performAtom a s).mem.atoms, x.wk ≠ wk) : tryLocalAtoms wk id (n + 2) s = performAtom a s := by
  have none_of : ∀ xs : List AtomReq, (∀ x ∈ xs, x.wk ≠ wk) → (xs.find? fun a => a.loc && a.wk == wk && a.opId == id) = none :=
    fun xs h => List.find?_eq_none.2 fun x hx => by simp [h x hx]
  have hf : (s.mem.atoms.find? fun a => a.loc && a.wk == wk && a.opId == id) = some a := by
    rw [hat, List.find?_append, none_of rest hr]
    simp [hl, hw, hi]
  rw [tryLocalAtoms, hf]
  simp only [hfree, Bool.false_eq_true, if_false]
  rw [tryLocalAtoms, none_of _ hleft]
/-- A scratchpad atomic behind an empty stream is not held back. -/
theorem atomBlocked_quiet (s : State) (a : AtomReq) (rest : List AtomReq) (hat : s.mem.atoms = rest ++ [a])
    (hr : ∀ x ∈ rest, x.wk ≠ a.wk) (hm : (s.warp a.wk).memq = []) (hh : hbHeld s a.wk a.wid = false) : atomBlocked s a = false := by
  have ht : (s.mem.atoms.takeWhile (fun x => x.id != a.id)).any (fun x =>
      x.wk == a.wk && x.loc == a.loc && (a.loc || x.keys.any a.keys.contains)) = false := by
    refine List.any_eq_false.2 fun x hx => ?_
    have hx' : x ∈ rest ++ [a] := by rw [← hat]; exact (List.takeWhile_sublist _).subset hx
    rcases List.mem_append.1 hx' with hx' | hx'
    · simp [hr x hx']
    · have := List.mem_takeWhile_imp hx
      rw [List.mem_singleton.1 hx'] at this
      simp at this
  simp only [atomBlocked, hm, hh, ht, List.any_nil, Bool.or_self]
/-- A local atomic alone: it leaves the list, and acts on its window. -/
theorem performAtom_local (a : AtomReq) (s : State) (hl : a.loc = true) : performAtom a s =
    performLocalAtom a (s.updMem fun m => { m with atoms := m.atoms.filter fun x => !([a.id].contains x.id) }) := by
  have hc : commMates a s = [] := by rw [commMates, hl]; rfl
  simp only [performAtom, hc, hl, if_true]
  rfl
/-- The writes of an atomic's result have the old value. -/
theorem refreshWrites_lane (t : Reg) (b64 : Bool) (l : Nat) (u v : DWord) :
    refreshWrites (laneWrites t b64 [(l, u)]) (laneWrites t b64 [(l, v)]) = laneWrites t b64 [(l, v)] := by
  cases b64 <;> simp [refreshWrites, laneWrites]
/-- An atomic's old value, in its result. -/
def returnedOut (o : Out) (ws : List RegWrite) : Out := { o with waitAtom := false, writes := refreshWrites o.writes ws }
def answeredWarp (id : Nat) (ws : List RegWrite) (w : Warp) : Warp :=
  { w with outs := w.outs.map fun o => if o.id = id then returnedOut o ws else o }
theorem returnAtom_last (a : AtomReq) (old : DWord) (s : State) (h : ∀ x ∈ s.mem.atoms, x.wk ≠ a.wk) : returnAtom a old s =
    match a.out with
    | none => s
    | some id => updOut a.wk id (fun o => returnedOut o (laneWrites a.dest a.b64 [(a.acc.lane, old)])) s := by
  have hm : ∀ id, (s.mem.atoms.any fun x => x.wk == a.wk && x.out == some id) = false := fun id =>
    List.any_eq_false.2 fun x hx => by simp [h x hx]
  rw [returnAtom]
  cases a.out with
  | none => rfl
  | some id => simp only [hm]; rfl
/-- A result of a local load takes no other bytes. -/
def settledOut (o : Out) : Out := if o.load.any (·.kind.isLoc) then { o with seen := true } else o
theorem settledOut_noLoad (o : Out) (h : o.load = none) : settledOut o = o := by rw [settledOut, h]; rfl
theorem atomT_lane (aop : Aop) (b64 : Bool) (t : Reg) (h : atomT aop b64 t = true) (hz : t ≠ 124) :
    t.toNat < 88 ∧ (b64 = true → t.toNat % 2 = 0) := by
  rw [atomT, beq_false_of_ne hz, Bool.false_or] at h
  cases b64 with
  | false =>
    refine ⟨?_, fun hb => absurd hb (by decide)⟩
    split at h
    · rw [if_neg Bool.false_ne_true, Bool.and_eq_true, decide_eq_true_eq] at h; omega
    · rw [if_neg Bool.false_ne_true, decide_eq_true_eq] at h; omega
  | true =>
    split at h
    · rw [if_pos rfl, Bool.and_eq_true, decide_eq_true_eq, beq_iff_eq] at h
      exact ⟨by omega, fun _ => by omega⟩
    · rw [if_pos rfl, Bool.and_eq_true, decide_eq_true_eq, beq_iff_eq] at h
      exact ⟨by omega, fun _ => by omega⟩
/-- The result of a scratchpad atomic of one lane has the old value for its destination's registers. -/
theorem returned_finds (s : State) (h : s.inBundle = true) (l : Nat) (hbl : s.bl = [l]) (aop : Aop) (b64 : Bool) (t : Reg)
    (ht : atomT aop b64 t = true) (hr : rowsFit s (laneRows t b64) = true) (o : Out) (accs : List LaneAcc) (hacc : accs.map (·.lane) = [l])
    (id : Nat) (pc : DWord) (ho : o = atomOut t b64 accs id s.cur.mask pc) (old : DWord) (m : Word) (x : Dest) :
    pendingWrite [returnedOut (keptOut m o) (laneWrites t b64 [(l, old)])] x = resultDest t b64 s.cur.mask (fun _ => old) x := by
  have hz : accs.map (fun a => (a.lane, (0 : DWord))) = [(l, 0)] := by
    have : accs.map (fun a => (a.lane, (0 : DWord))) = (accs.map (·.lane)).map fun k => (k, (0 : DWord)) := by rw [List.map_map]; rfl
    rw [this, hacc]; rfl
  have hu : (returnedOut (keptOut m o) (laneWrites t b64 [(l, old)])).unknown = false := by rw [ho]; rfl
  have hw : (returnedOut (keptOut m o) (laneWrites t b64 [(l, old)])).writes = if t = 124 then [] else laneWrites t b64 [(l, old)] := by
    have e : (returnedOut (keptOut m o) (laneWrites t b64 [(l, old)])).writes =
        refreshWrites (if t = 124 then [] else laneWrites t b64 [(l, 0)]) (laneWrites t b64 [(l, old)]) := by rw [ho, ← hz]; rfl
    rw [e]
    split
    · rfl
    · exact refreshWrites_lane t b64 l 0 old
  simp only [pendingWrite, hu, hw]
  by_cases h124 : t = 124
  · subst h124
    cases x <;> simp [resultDest]
  · obtain ⟨hlt, hpair⟩ := atomT_lane aop b64 t ht h124
    have hper : (s.perLane fun _ => old) = [(l, old)] := by rw [State.perLane, hbl]; rfl
    have hcov := (laneResult .plain t b64 (fun _ => old) 0 s h hlt hpair hr).2
    rw [hper] at hcov
    rw [if_neg h124]
    refine covers_find _ _ _ hcov (fun y hy => ?_) x
    obtain ⟨z, -, rfl | ⟨-, rfl⟩⟩ := (mem_laneWrites _ _ _ _).1 hy <;> rfl
theorem atomWarp_keeps (s : State) (u : Use) (o : Out) (rows : List Nat) (w : Warp) :
    (atomWarp s u true o rows settleLocal w).memq = w.memq ∧ (atomWarp s u true o rows settleLocal w).hb = w.hb ∧
      (atomWarp s u true o rows settleLocal w).bk = w.bk := by
  rw [atomWarp, atomEnd, Bool.not_true, Bool.and_false, if_neg Bool.false_ne_true, atomIssued]
  split <;> exact ⟨rfl, rfl, rfl⟩
/-- A SCRATCHPAD ATOMIC OF ONE LANE behind an empty stream. -/
theorem localAtom_run (s : State) (h : s.inBlock = true) (he : streamEmpty s) (aop : Aop) (b64 : Bool) (use : Use) (t : Reg)
    (l n off : Nat) (hn : n = atomSize b64) (old : DWord)
    (hold : old = BitVec.ofNat 64 (leNat (memReadBytes s.cb.sp off n)))
    (hnn : noNotify s.cb fun o => off ≤ o ∧ o < off + n) (o : Out)
    (ho : o = atomOut t b64 [localAcc l off] (freshId s) s.cur.mask s.cur.pc) :
    ∃ (v : State) (F : Block → Block) (R : Warp → Warp), memSide s v ∧ (∀ k pa, v.mem.byteUnder k pa = s.mem.byteUnder k pa) ∧
      (∀ b q, (F b).space q = if q = .sp then atomStored (atomNew aop b64 old (atomArgs s aop b64 t l).1 (atomArgs s aop b64 t l).2)
        off n b.sp else b.space q) ∧
      (if use = .comm then R = id else R = answeredWarp (freshId s) (laneWrites t b64 [(l, old)])) ∧
      issueAtom aop b64 use true t ⟨[localAcc l off], [], s⟩ =
        ((v.updCw (atomWarp s use true o (laneRows t b64) settleLocal)).updBlock s.cw.bk F).updWarp s.cur.wk R := by
  have hb := inBundle_of_inBlock h
  obtain ⟨g1, g2, g3, g4⟩ := (inBundle_iff s).1 hb
  obtain ⟨hq, hat, -, hh⟩ := he
  obtain ⟨v, H, hn0, hH, hrun⟩ := issueAtom_sets s s hb (memSide.refl s) aop b64 use true t [localAcc l off] (by simp) o ho
  obtain rfl : H = settleLocal := (if_pos rfl).mp hH
  rw [if_pos rfl] at hrun
  set W := atomWarp s use true o (laneRows t b64) settleLocal with hW
  obtain ⟨a, ha⟩ : ∃ a, a = atomReq s aop b64 use true t s.mem.nextWid (freshId s) (if use = .comm then none else some (freshId s)) 0
    (localAcc l off) := ⟨_, rfl⟩
  have hreqs : atomReqs s s aop b64 use true t [localAcc l off] = [a] := by rw [ha]; rfl
  have hwk : a.wk = s.cur.wk := by rw [ha]; rfl
  have hloc : a.loc = true := by rw [ha]; rfl
  rw [hreqs] at hrun
  set S := (atomsAdded v [a]).updCw W with hS
  have hSa : S.mem.atoms = s.mem.atoms ++ [a] := by rw [← hn0.atoms]; rfl
  have hside : memSide s (atomsAdded v [a]) := hn0.side.trans (memSide_updMem v _)
  have hSw : S.warp s.cur.wk = W s.cw := by
    have := updCw_cw (atomsAdded v [a]) W ((inBundle_iff _).1 (hside.inBundle hb)).1
    rw [hside.cw] at this
    rw [← this]
    show S.warp s.cur.wk = S.warp (atomsAdded v [a]).cur.wk
    rw [hside.cur]
  obtain ⟨hWq, hWh, hWb⟩ := atomWarp_keeps s use o (laneRows t b64) s.cw
  rw [← hW] at hWq hWh hWb
  have hlive : (mFind (atomsAdded v [a]).warps s.cur.wk).isSome = true := by rw [hside.warps]; exact g1
  have hSu : S = (atomsAdded v [a]).updWarp s.cur.wk W := by rw [hS, State.updCw, hside.cur]
  have hheld : hbHeld S s.cur.wk a.wid = false := by
    rw [hSu, hbHeld_upd _ _ _ _ hlive (by rw [hside.warp]; exact hWh), hbHeld_congr _ _ hside.warps]
    exact hh _
  have hfree : atomBlocked S a = false :=
    atomBlocked_quiet S a s.mem.atoms hSa (by rw [hwk]; exact hat) (by rw [hwk, hSw, hWq, hq]) (by rw [hwk]; exact hheld)
  -- the window takes the bytes
  set U := S.updMem fun m => { m with atoms := m.atoms.filter fun x => !([a.id].contains x.id) } with hU
  have hUa : ∀ x ∈ U.mem.atoms, x.wk ≠ a.wk := by
    intro x hx
    obtain ⟨hx1, hx2⟩ := List.mem_filter.1 (show x ∈ S.mem.atoms.filter _ from hx)
    rw [hSa] at hx1
    rcases List.mem_append.1 hx1 with hx1 | hx1
    · rw [hwk]; exact hat x hx1
    · rw [List.mem_singleton.1 hx1] at hx2
      simp at hx2
  have hUb : ∀ k, U.block k = s.block k := hside.block
  obtain ⟨F, hF, hFs⟩ := performLocalAtom_leaves a U s.cw.bk off n old (by rw [hwk]; show (S.warp s.cur.wk).bk = _; rw [hSw, hWb])
    (by rw [ha, hn]; rfl) (by rw [ha]; rfl) (by show (mFind (atomsAdded v [a]).blocks _).isSome = true; rw [hside.blocks]; exact block_of_inBlock h)
    (by rw [hUb]; exact hnn) (by rw [hUb]; exact hold)
  have hperf : performAtom a S = returnAtom a old (U.updBlock s.cw.bk F) := (performAtom_local a S hloc).trans hF
  have hret := returnAtom_last a old (U.updBlock s.cw.bk F) hUa
  have hleft : ∀ x ∈ (performAtom a S).mem.atoms, x.wk ≠ s.cur.wk := by
    rw [hperf, hret, ← hwk]
    cases a.out <;> exact hUa
  have htry := tryLocalAtoms_one s.cur.wk o.id 30 S a s.mem.atoms hSa hat hloc hwk (by rw [ha, ho]; rfl) hfree hleft
  refine ⟨(atomsAdded v [a]).updMem fun m => { m with atoms := m.atoms.filter fun x => !([a.id].contains x.id) }, F,
    if use = .comm then id else answeredWarp (freshId s) (laneWrites t b64 [(l, old)]),
    hside.trans (memSide_updMem _ _), hn0.bytes, ?_, ?_, ?_⟩
  · rw [ha] at hFs; exact hFs
  · split <;> rfl
  · rw [hrun, htry, hperf, hret]
    have hout : a.out = if use = .comm then none else some (freshId s) := by rw [ha]; rfl
    have hbase : U.updBlock s.cw.bk F = (((atomsAdded v [a]).updMem fun m => { m with
        atoms := m.atoms.filter fun x => !([a.id].contains x.id) }).updCw W).updBlock s.cw.bk F := rfl
    by_cases hu : use = .comm
    · rw [if_pos hu] at hout ⊢
      rw [hout, ← hbase]
      exact (updWarp_id _ _).symm
    · rw [if_neg hu] at hout ⊢
      rw [hout, ← hbase, hwk]
      rw [show a.dest = t by rw [ha]; rfl, show a.b64 = b64 by rw [ha]; rfl, show a.acc.lane = l by rw [ha]; rfl]
      rfl
/-- The results of a scratchpad atomic's warp. -/
theorem atomWarp_localOuts (s : State) (u : Use) (o : Out) (rows : List Nat) (hu : u ≠ .comm) :
    (atomWarp s u true o rows settleLocal s.cw).outs =
      (((s.cw.outs.map fun (p : Out) => { p with writes := p.writes.filter fun x => o.writes.all fun y => x.dest != y.dest }) ++ [o]).map
        settledOut).map (keptOut s.cur.mask) := by
  rw [atomWarp, atomEnd, Bool.not_true, Bool.and_false, if_neg Bool.false_ne_true, atomIssued, if_neg hu]
  rfl
/-- Settles O32: a global atomic sets out, and a scratchpad atomic of one lane performs at once. -/
theorem atomics : Obligations.Atomics := by
  unfold Obligations.Atomics
  intro s sw aop u ty sp t a h hcombo ht ha hr
  have hexec := exec_atom s sw aop u ty sp t a hcombo ht ha hr
  constructor
  · rintro rfl r hr0 hf
    obtain ⟨hs, hacc⟩ := globalLanes_spec .write (atomSize (ty == .b64)) (fun l => s.src64 a l) (atomCheck u (atomSize (ty == .b64))) s
    rw [if_neg Bool.false_ne_true] at hexec
    obtain rfl : r = globalLanes .write (atomSize (ty == .b64)) (fun l => s.src64 a l) (atomCheck u (atomSize (ty == .b64))) s := hr0
    generalize globalLanes .write (atomSize (ty == .b64)) (fun l => s.src64 a l) (atomCheck u (atomSize (ty == .b64))) s = r at *
    obtain ⟨accs, fs, w⟩ := r
    obtain rfl : fs = [] := hf
    have hne : accs ≠ [] := by
      rintro rfl
      exact bl_cons s h (hacc rfl).symm
    obtain ⟨v, H, hv, hH, hrun⟩ := issueAtom_sets s w h hs aop (ty == .b64) u false t accs hne _ rfl
    rw [if_neg Bool.false_ne_true] at hrun
    exact ⟨_, hexec, globalAtom_issued s w _ h hs (ty == .b64) u t accs _ _ rfl v H hv _ hH hrun⟩
  · rintro rfl l hblk hm hl he hw hnn
    rw [if_pos rfl] at hexec
    have hbl : s.bl = [l] := by rw [State.bl, hm, maskLanes_laneBit l hl]
    rw [localLanes_ok .sp true _ _ s hw, hbl] at hexec
    obtain ⟨v, F, R, hv, hbytes, hF, hR, hrun⟩ := localAtom_run s hblk he aop (ty == .b64) u t l (atomSize (ty == .b64))
      (s.src a l).toNat rfl (windowVal s .sp (atomSize (ty == .b64)) (fun l => s.src a l) l) rfl hnn _ rfl
    set o := atomOut t (ty == .b64) [localAcc l (s.src a l).toNat] (freshId s) s.cur.mask s.cur.pc with ho
    set W := atomWarp s u true o (laneRows t (ty == .b64)) settleLocal with hW
    set old := windowVal s .sp (atomSize (ty == .b64)) (fun l => s.src a l) l with hold
    set T := ((v.updCw W).updBlock s.cw.bk F).updWarp s.cur.wk R with hT
    have hlive : (mFind v.warps v.cur.wk).isSome = true := ((inBundle_iff v).1 (hv.inBundle h)).1
    have hTcw : T.cw = R (W s.cw) := by
      have hVw : (v.updCw W).warp s.cur.wk = W s.cw := by
        rw [← hv.cw, ← updCw_cw v W hlive, ← hv.cur]; rfl
      show T.warp v.cur.wk = _
      rw [hT, hv.cur, State.updWarp_warp _ _ _ (by
        show (mFind (mMod v.warps v.cur.wk W) s.cur.wk).isSome = true
        rw [← hv.cur, mFind_mMod, if_pos rfl, Option.isSome_map]; exact hlive)]
      exact congrArg R hVw
    have hRfile : ∀ w, (R w).sameFile w := by
      intro w
      split at hR <;> rw [hR] <;> exact ⟨rfl, rfl, rfl, rfl, rfl⟩
    have hWfile : (settleLocal (atomIssued u o (laneRows t (ty == .b64)) s.cw)).sameFile s.cw :=
      atomPlaced_issued (wid := 0) (sp := true) rfl s u o _
    obtain ⟨hcom, hregs⟩ := endIssue_committed s T _ h hWfile (by
      rw [hTcw]
      refine (hRfile _).trans (.of_eq ?_)
      rw [hW, atomWarp, atomEnd, Bool.not_true, Bool.and_false, if_neg Bool.false_ne_true])
    refine ⟨T, old, hexec.trans (congrArg Host.Outcome.next hrun), rfl, ⟨hbytes, fun bk' q' off => ?_⟩, hregs, hcom, fun hu => ?_⟩
    · have hVb : ∀ k, (v.updCw W).block k = s.block k := hv.block
      have hT : T.block bk' = if bk' = s.cw.bk then F (s.block s.cw.bk) else s.block bk' := by
        rw [← hVb, ← hVb bk', ← updBlock_any _ _ _ _ (by
          show (mFind v.blocks s.cw.bk).isSome = true; rw [hv.blocks]; exact block_of_inBlock hblk)]
        rfl
      rw [hT]
      generalize atomNew aop (ty == .b64) old (atomArgs s aop (ty == .b64) t l).1 (atomArgs s aop (ty == .b64) t l).2 = new at hF ⊢
      by_cases hbk : bk' = s.cw.bk
      · by_cases hq : q' = .sp
        · rw [if_pos hbk, if_pos ⟨hbk, hq⟩, hF, if_pos hq]
          cases new <;> rfl
        · rw [if_pos hbk, if_neg fun x => hq x.2, hF, if_neg hq, hbk]
      · rw [if_neg hbk, if_neg fun x => hbk x.1]
    · rw [if_neg hu] at hR
      refine ⟨returnedOut (keptOut s.cur.mask o) (laneWrites t (ty == .b64) [(l, old)]), ?_, rfl, rfl, rfl, fun x =>
        returned_finds s h l hbl aop (ty == .b64) t ht (hr.resolve_left hu) o _ rfl _ _ rfl old s.cur.mask x⟩
      have hin : keptOut s.cur.mask o ∈ (W s.cw).outs := by
        rw [hW, atomWarp_localOuts s u o _ hu]
        refine List.mem_map.2 ⟨o, List.mem_map.2 ⟨o, List.mem_append_right _ List.mem_cons_self, settledOut_noLoad o rfl⟩, rfl⟩
      rw [hTcw, hR]
      exact List.mem_map.2 ⟨keptOut s.cur.mask o, hin, if_pos rfl⟩
end Sys2Proof.Machine
end

section
/-! Atomics at their home (O39). -/
namespace Sys2Proof.Machine

/-! ### What stands before an atomic at its home -/
/-- Only snapshots of cores have gone. -/
structure snapsGone (s t : State) : Prop where
  rest : t = s.setCores t.cores
  pools : ∀ k, (t.coreAt k).pool = (s.coreAt k).pool
theorem snapsGone_refl (s : State) : snapsGone s s := ⟨rfl, fun _ => rfl⟩
theorem snapsGone.trans {s t u : State} (h1 : snapsGone s t) (h2 : snapsGone t u) : snapsGone s u :=
  ⟨h2.rest.trans (show t.setCores u.cores = s.setCores u.cores by rw [h1.rest]; rfl), fun k => (h2.pools k).trans (h1.pools k)⟩
theorem snapsGone.mem {s t : State} (h : snapsGone s t) : t.mem = s.mem := by rw [h.rest]; rfl
theorem evictWhere_gone (core : Nat) (p : Nat → Bool) (s : State) (h : (s.coreAt core).pool = []) :
    snapsGone s (evictWhere core p s) :=
  ⟨by rw [evict_empty core p s h]; rfl, fun k => by rw [evict_empty_cores core p s h k]⟩
theorem drainForAtom_quiet (a : AtomReq) (s : State) (hf : s.mem.flights = []) : drainForAtom a s = s := by
  rw [drainForAtom, drainHome, hf]; rfl
/-- A core whose stores have arrived has nothing to put ahead of its atomic. -/
theorem flushForAtom_quiet (x : AtomReq) (s : State) (hp : (s.coreAt x.core).pool = []) (hf : s.mem.flights = []) :
    snapsGone s (flushForAtom x s) := by
  have he := evictWhere_gone x.core (fun y => y == pkey x.acc.peer x.acc.pa / 128) s hp
  have hf' : (evictWhere x.core (fun y => y == pkey x.acc.peer x.acc.pa / 128) s).mem.flights = [] := by rw [he.mem, hf]
  refine he.trans ?_
  rw [flushForAtom]
  simp only [drainForAtom_quiet x _ hf', arriveNt, hf', List.filter_nil, List.foldl_nil]
  refine ⟨rfl, fun k => ?_⟩
  rw [updCore_coreAt]
  split
  · rename_i hk; rw [hk]
  · rfl
theorem flushAll_quiet (xs : List AtomReq) (s : State) (hp : ∀ x ∈ xs, (s.coreAt x.core).pool = []) (hf : s.mem.flights = []) :
    snapsGone s (xs.foldl (fun s x => flushForAtom x s) s) := by
  induction xs generalizing s with
  | nil => exact snapsGone_refl s
  | cons x t ih =>
    have h1 := flushForAtom_quiet x s (hp x List.mem_cons_self) hf
    exact h1.trans (ih _ (fun y hy => by rw [h1.pools]; exact hp y (List.mem_cons_of_mem _ hy)) (by rw [h1.mem, hf]))
/-- The state of the machine without some atomics. -/
def atomsLeft (a : AtomReq) (ms : List AtomReq) (s : State) : State :=
  s.updMem fun m => { m with atoms := m.atoms.filter fun x => !(a.id :: ms.map (·.id)).contains x.id }
/-- AN ATOMIC OF ITS OWN HOME, with those combined with it, of cores with no store on their way. -/
theorem performAtom_home (a : AtomReq) (ms : List AtomReq) (s : State) (hms : ms = commMates a s) (hl : a.loc = false)
    (hq : a.use ≠ .quantum) (hp : ∀ x ∈ a :: ms, (s.coreAt x.core).pool = []) (hf : s.mem.flights = []) :
    ∃ u, snapsGone (atomsLeft a ms s) u ∧ performAtom a s =
      returnAtom a (homeAtom a.acc a.b64 (a.aop, a.x, a.y) a.wid (combinedNew a ms) u).1
        (homeAtom a.acc a.b64 (a.aop, a.x, a.y) a.wid (combinedNew a ms) u).2 := by
  have hf' : (atomsLeft a ms s).mem.flights = [] := hf
  refine ⟨if a.use = .nonord then drainForAtom a (atomsLeft a ms s) else
    (a :: ms).foldl (fun s x => flushForAtom x s) (atomsLeft a ms s), ?_, ?_⟩
  · split
    · rw [drainForAtom_quiet a _ hf']; exact snapsGone_refl _
    · exact flushAll_quiet (a :: ms) _ hp hf'
  · simp only [performAtom, ← hms, hl, Bool.false_eq_true, if_false, if_neg hq]
    rfl
theorem returnAtom_mem (a : AtomReq) (old : DWord) (s : State) :
    (returnAtom a old s).mem = s.mem ∧ (returnAtom a old s).blocks = s.blocks := by
  rw [returnAtom]; split <;> exact ⟨rfl, rfl⟩
/-- Settles O39: the home's bytes change once, and the old value goes to its result. -/
theorem atomicsAtTheHome : Obligations.AtomicsAtTheHome := by
  unfold Obligations.AtomicsAtTheHome
  intro s a ms n old hfind hready hfault hl hq hpeer hn hal hms hp hf huse hold
  have hexec : exec (.atomicPerformAtHome a.id) s = .next (performAtom a s) := by
    show execAtomicPerformAtHome a.id s = _
    have hlate : performAtomLate a s = performAtom a s := by
      rw [performAtomLate]
      rcases hfault with h | h
      · rw [h]; rfl
      · rw [h]; cases a.out.bind fun id => (s.warp a.wk).outs.find? fun o => o.id == id <;> rfl
    simp only [execAtomicPerformAtHome, hfind, hready, if_true, hlate]
  obtain ⟨u, hu, hperf⟩ := performAtom_home a ms s hms hl hq hp hf
  have hum : u.mem = (atomsLeft a ms s).mem := hu.mem
  have hbyte : u.mem.byteUnder = s.mem.byteUnder := by rw [hum]; rfl
  have hkey : u.mem.keyOf a.acc.attr.key = s.mem.keyOf a.acc.attr.key := by rw [hum]; rfl
  obtain ⟨m, hhome, hatoms, hbytes⟩ := homeAtom_spec a.acc a.b64 (a.aop, a.x, a.y) a.wid (combinedNew a ms) u n hn hpeer hal
    (by rw [hum]; exact huse) old (by rw [hkey, hbyte]; exact hold)
  rw [hhome] at hperf
  obtain ⟨hrm, hrb⟩ := returnAtom_mem a old (u.setMem m)
  rw [hkey, hbyte] at hbytes
  rw [hperf] at hexec
  refine ⟨_, hexec, ?_, fun pa => ?_, fun bk q o => ?_, fun id hid hw => ?_⟩
  · rw [hrm]
    refine hatoms.trans (hum ▸ List.filter_congr fun x _ => ?_)
    rw [← List.map_cons, List.contains_eq_any_beq, List.any_map]
    congr 2
    funext y
    exact Bool.beq_comm
  · rw [hrm]
    exact hbytes pa
  · rw [State.block, hrb, hu.rest]; rfl
  · have huw : u.warps = s.warps := by rw [hu.rest]; rfl
    have hret : returnAtom a old (u.setMem m) = updOut a.wk id (fun o => { o with
        waitAtom := m.atoms.any (fun x => x.wk == a.wk && x.out == some id),
        writes := refreshWrites o.writes (laneWrites a.dest a.b64 [(a.acc.lane, old)]) }) (u.setMem m) := by
      rw [returnAtom, hid]; rfl
    rw [hret, updOut, State.updWarp_warp _ _ _ (by show (mFind u.warps a.wk).isSome = true; rw [huw]; exact hw)]
    show ((u.warp a.wk).outs.map _) = _
    rw [State.warp, huw]
    rfl

end Sys2Proof.Machine
end

section
/-! Global barrier objects at their homes, and completion signals (O47). -/
namespace Sys2Proof.Machine

/-! ### The words of an object -/
theorem flatMap_wordBytes_length (ws : List Word) : (ws.flatMap wordBytes).length = 4 * ws.length := by
  induction ws with
  | nil => rfl
  | cons w t ih =>
    have hl : (wordBytes w).length = 4 := leBytes_length _ _
    rw [List.flatMap_cons, List.length_append, ih, List.length_cons, hl]
    omega
/-- The bytes of a list of words, four to a word. -/
theorem flatMap_wordBytes_getD (ws : List Word) (j r : Nat) (hr : r < 4) :
    (ws.flatMap wordBytes).getD (4 * j + r) 0 = (wordBytes (ws.getD j 0)).getD r 0 := by
  induction ws generalizing j with
  | nil =>
    rw [List.flatMap_nil, List.getD_nil, List.getD_nil]
    obtain rfl | rfl | rfl | rfl : r = 0 ∨ r = 1 ∨ r = 2 ∨ r = 3 := by omega
    all_goals rfl
  | cons w t ih =>
    have hl : (wordBytes w).length = 4 := leBytes_length _ _
    rw [List.flatMap_cons]
    cases j with
    | zero => rw [List.getD_append _ _ _ _ (by omega), Nat.mul_zero, Nat.zero_add]; rfl
    | succ j =>
      rw [List.getD_append_right _ _ _ _ (by omega), hl, show 4 * (j + 1) + r - 4 = 4 * j + r by omega, ih]
      rfl
/-- The bytes of a word make the word. -/
theorem leWord_wordBytes (w : Word) : leWord ((rangeFrom 0 4).map fun r => (wordBytes w).getD r 0) = w := by
  apply BitVec.eq_of_toNat_eq
  have := w.isLt
  simp only [leWord, rangeFrom, List.map, leNat, wordBytes, leBytes, List.getD_eq_getElem?_getD]
  simp
  omega
/-- A word among words that have been written. -/
theorem leWord_written (ws : List Word) (f : Nat → Byte) (a j : Nat)
    (hf : ∀ r < 4, f (a + r) = (ws.flatMap wordBytes).getD (4 * j + r) 0) :
    leWord ((rangeFrom a 4).map f) = ws.getD j 0 := by
  have h : (rangeFrom a 4).map f = (rangeFrom 0 4).map fun r => (wordBytes (ws.getD j 0)).getD r 0 := by
    have hg : ∀ r < 4, f (a + r) = (wordBytes (ws.getD j 0)).getD r 0 := fun r hr =>
      (hf r hr).trans (flatMap_wordBytes_getD ws j r hr)
    simp only [rangeFrom, List.map, Nat.add_assoc]
    rw [← hg 0 (by omega), ← hg (0 + 1) (by omega), ← hg (0 + (1 + 1)) (by omega), ← hg (0 + (1 + (1 + 1))) (by omega)]
    rfl
  rw [h, leWord_wordBytes]

/-! ### What an op at its home leaves as it was -/
/-- Of the machine's bytes only those of an object's changing words differ, and neither blocks, ops on their way nor keys do. -/
structure objectOnly (o : ObjOp) (s t : State) : Prop where
  blocks : t.blocks = s.blocks
  objq : t.mem.objq = s.mem.objq
  keys : t.mem.keys = s.mem.keys
  own : ∀ pa, pa < o.pa ∨ (o.pa + 16 ≤ pa ∧ pa < o.pa + 24) ∨ o.pa + 28 ≤ pa →
    t.mem.byteUnder (s.mem.keyOf o.attr.key) pa = s.mem.byteUnder (s.mem.keyOf o.attr.key) pa
  away : ∀ k pa, pa / 1024 ≠ o.pa / 1024 → t.mem.byteUnder k pa = s.mem.byteUnder k pa

theorem keyOf_congr {m n : Mem} (h : n.keys = m.keys) (i : Nat) : n.keyOf i = m.keyOf i := by rw [Mem.keyOf, Mem.keyOf, h]
theorem objectOnly.trans {o : ObjOp} {s t u : State} (h : objectOnly o s t) (h' : objectOnly o t u) : objectOnly o s u := by
  have hk := keyOf_congr h.keys o.attr.key
  have h2 := h'.own
  rw [hk] at h2
  exact ⟨h'.blocks.trans h.blocks, h'.objq.trans h.objq, h'.keys.trans h.keys, fun pa hp => (h2 pa hp).trans (h.own pa hp),
    fun k pa hp => (h'.away k pa hp).trans (h.away k pa hp)⟩
/-- A change of neither blocks nor the bytes of memory. -/
theorem objectOnly_of_eq {o : ObjOp} {s t : State} (hb : t.blocks = s.blocks) (hq : t.mem.objq = s.mem.objq) (hk : t.mem.keys = s.mem.keys)
    (hm : t.mem.byteUnder = s.mem.byteUnder) : objectOnly o s t :=
  ⟨hb, hq, hk, fun pa _ => congrFun (congrFun hm _) pa, fun k pa _ => congrFun (congrFun hm k) pa⟩
theorem objWord_congr {s t : State} (o : ObjOp) (hk : t.mem.keys = s.mem.keys) (hm : t.mem.byteUnder = s.mem.byteUnder) (i : Nat) :
    objWord t o i = objWord s o i := by rw [objWord, objWord, hm, keyOf_congr hk]
/-- The three words of R202. -/
theorem objOf_eq (s : State) (o : ObjOp) (b : BarObj) (h0 : objWord s o 0 = b.w0) (h1 : objWord s o 1 = b.pending)
    (h2 : objWord s o 2 = b.bytes) : objOf s o = b := by rw [objOf, h0, h1, h2]

theorem objOf_congr {s t : State} (o : ObjOp) (h : ∀ j < 3, objWord t o j = objWord s o j) : objOf t o = objOf s o := by
  rw [objOf, objOf, h 0 (by omega), h 1 (by omega), h 2 (by omega)]

/-! ### Words written at the home -/
theorem putObjWords_warps (o : ObjOp) (i : Nat) (ws : List Word) (s : State) : (putObjWords o i ws s).warps = s.warps := rfl
/-- WORDS WRITTEN read back; every other word, and all else, stays. -/
theorem putObjWords_spec (o : ObjOp) (i : Nat) (ws : List Word) (s : State) (ha : o.pa % 32 = 0)
    (hi : i + ws.length ≤ 4 ∨ (i = 6 ∧ ws.length = 1)) :
    objectOnly o s (putObjWords o i ws s) ∧
      ∀ j < 8, objWord (putObjWords o i ws s) o j = if i ≤ j ∧ j < i + ws.length then ws.getD (j - i) 0 else objWord s o j := by
  obtain ⟨hb, sk, ls, ar, e, hown, hoff, -⟩ := homeStore_spec o.attr (o.pa + 4 * i) (ws.flatMap wordBytes) s
  rw [flatMap_wordBytes_length] at hown hoff
  have hkeys : (putObjWords o i ws s).mem.keys = s.mem.keys := by rw [putObjWords, e]; rfl
  refine ⟨⟨by rw [putObjWords, e]; rfl, by rw [putObjWords, e]; rfl, hkeys, fun pa hp => ?_, fun k pa hp => hoff k pa (by omega)⟩,
    fun j hj => ?_⟩
  · exact (hown pa).trans (if_neg (by omega))
  · rw [objWord, keyOf_congr hkeys]
    split
    · rename_i hin
      refine leWord_written ws _ _ (j - i) fun r hr => (hown _).trans ?_
      rw [if_pos (by omega), show o.pa + 4 * j + r - (o.pa + 4 * i) = 4 * (j - i) + r by omega]
    · rename_i hout
      refine congrArg leWord (List.map_congr_left fun q hq => ?_)
      have hq' := (mem_rangeFrom _ _ _).1 hq
      exact (hown q).trans (if_neg (by omega))

/-! ### An op that changes its object (R202) -/
theorem serveObj_unused (o : ObjOp) (s : State) (hu : ∀ l, mFind s.mem.lines (o.pa / 1024) = some l → l.use = none) :
    serveObj o s = s := by
  have hc : s.mem.countRead (o.pa / 1024) = s.mem := by
    rw [Mem.countRead]
    cases hl : mFind s.mem.lines (o.pa / 1024) with
    | none => rfl
    | some l => dsimp only; rw [hu l hl]
  rw [serveObj]
  split
  · rfl
  · exact congrArg s.setMem hc
/-- Whether an op is its phase's first arrival. -/
def firstArrival (s : State) (o : ObjOp) : Bool := barxArrives o.op && (objOf s o).pending == (objOf s o).expected
/-- The words an op writes, before a phase that it may complete. -/
def enteredObj (o : ObjOp) (s : State) : State :=
  let r := (objOf s o).step o.op o.val
  let s1 := putObjWords o 0 ([r.1.w0, r.1.pending, r.1.bytes] ++ if o.op = .init then [0] else []) (claimObj o (serveObj o s))
  if firstArrival s o then putObjWords o 6 [BitVec.ofNat 32 (homeNow s o)] s1 else s1
/-- What the home notes of an arrival beside the object's words. -/
def notedObj (o : ObjOp) (old : BarObj) (s : State) : State :=
  s.updMem fun m =>
    { m with objHb := if o.hbs.isEmpty then m.objHb else mUpd m.objHb [] o.pa (fun l => (o.hbs ++ l).dedup),
             objLast := if old.pending = 1 then mSet m.objLast o.pa (o.dev, o.blkx) else m.objLast }
/-- The words and the notes of an op. -/
def arrivedObj (o : ObjOp) (s : State) : State :=
  if barxArrives o.op then logArrival o (lagOf s o (firstArrival s o)) (notedObj o (objOf s o) (enteredObj o s)) else enteredObj o s
theorem changeObj_eq (o : ObjOp) (s : State) : changeObj o s =
    (let s4 := if ((objOf s o).step o.op o.val).2 then completeObj o (arrivedObj o s) else arrivedObj o s
     if ((objOf s o).step o.op o.val).2 || o.op == .init then openC0 o s4 else s4) := rfl

theorem notedObj_leaves (o : ObjOp) (old : BarObj) (s : State) : objectOnly o s (notedObj o old s) ∧
    (notedObj o old s).warps = s.warps ∧ ∀ i, objWord (notedObj o old s) o i = objWord s o i :=
  ⟨objectOnly_of_eq rfl rfl rfl rfl, rfl, objWord_congr o rfl rfl⟩
/-- An object whose words 4 and 5 name no record logs nothing (R329). -/
theorem logPlace_none (s : State) (o : ObjOp) (h4 : objWord s o 4 = 0) (h5 : objWord s o 5 = 0) : logPlace s o = none := by
  rw [logPlace, h4, h5]; rfl
theorem logArrival_none (o : ObjOp) (lag : Nat) (s : State) (h4 : objWord s o 4 = 0) (h5 : objWord s o 5 = 0) :
    logArrival o lag s = s := by rw [logArrival, logPlace_none s o h4 h5]
theorem logCompletion_none (o : ObjOp) (s : State) (h4 : objWord s o 4 = 0) (h5 : objWord s o 5 = 0) :
    logCompletion o s = s := by rw [logCompletion, logPlace_none s o h4 h5]
theorem sendSignal_none (o : ObjOp) (s : State) (h7 : (objWord s o 7).getLsbD 11 = false) : sendSignal o s = s := by
  rw [sendSignal, h7]; rfl

/-- An op's words stand, its phase not yet completed. -/
structure opEntered (o : ObjOp) (s t : State) : Prop where
  only : objectOnly o s t
  warps : t.warps = s.warps
  obj : objOf t o = ((objOf s o).step o.op o.val).1
  phase : objWord t o 3 = if o.op = .init then 0 else objWord s o 3
  first : objWord t o 6 = if firstArrival s o then BitVec.ofNat 32 (homeNow s o) else objWord s o 6
  record : objWord t o 4 = objWord s o 4 ∧ objWord t o 5 = objWord s o 5
  signal : objWord t o 7 = objWord s o 7

theorem claimObj_leaves (o : ObjOp) (s : State) : objectOnly o s (claimObj o s) ∧ (claimObj o s).warps = s.warps ∧
    ∀ i, objWord (claimObj o s) o i = objWord s o i := by
  rw [claimObj]
  split
  · exact ⟨objectOnly_of_eq rfl rfl rfl rfl, rfl, fun i => objWord_congr o rfl rfl i⟩
  · exact ⟨objectOnly_of_eq rfl rfl rfl rfl, rfl, fun _ => rfl⟩
/-- Words 0 to 2, and word 3 of an `.init`, as an op writes them. -/
theorem opWords_spec (o : ObjOp) (u : State) (ha : o.pa % 32 = 0) (r : BarObj) :
    let t := putObjWords o 0 ([r.w0, r.pending, r.bytes] ++ if o.op = .init then [0] else []) u
    objectOnly o u t ∧ objOf t o = r ∧ objWord t o 3 = (if o.op = .init then 0 else objWord u o 3) ∧
      ∀ j, 4 ≤ j → j < 8 → objWord t o j = objWord u o j := by
  by_cases h : o.op = .init
  · obtain ⟨ho, hw⟩ := putObjWords_spec o 0 [r.w0, r.pending, r.bytes, 0] u ha (by simp)
    rw [if_pos h, if_pos h]
    exact ⟨ho, objOf_eq _ o r (hw 0 (by omega)) (hw 1 (by omega)) (hw 2 (by omega)), hw 3 (by omega), fun j h4 h8 =>
      (hw j h8).trans (if_neg (by simp only [List.length_cons, List.length_nil]; omega))⟩
  · obtain ⟨ho, hw⟩ := putObjWords_spec o 0 [r.w0, r.pending, r.bytes] u ha (by simp)
    rw [if_neg h, if_neg h, List.append_nil]
    exact ⟨ho, objOf_eq _ o r (hw 0 (by omega)) (hw 1 (by omega)) (hw 2 (by omega)), hw 3 (by omega), fun j h4 h8 =>
      (hw j h8).trans (if_neg (by simp only [List.length_cons, List.length_nil]; omega))⟩
/-- One word written behind the object's words of R202. -/
theorem putWord_spec (o : ObjOp) (i : Nat) (w : Word) (s : State) (ha : o.pa % 32 = 0) (hi : i = 3 ∨ i = 6) :
    objectOnly o s (putObjWords o i [w] s) ∧ objWord (putObjWords o i [w] s) o i = w ∧
      objOf (putObjWords o i [w] s) o = objOf s o ∧
      ∀ j < 8, j ≠ i → objWord (putObjWords o i [w] s) o j = objWord s o j := by
  obtain ⟨ho, hw⟩ := putObjWords_spec o i [w] s ha (by obtain rfl | rfl := hi <;> simp)
  rw [List.length_cons, List.length_nil] at hw
  have hold : ∀ j < 8, j ≠ i → objWord (putObjWords o i [w] s) o j = objWord s o j := fun j h8 hj => by
    rw [hw j h8, if_neg (by omega)]
  refine ⟨ho, (hw i (by omega)).trans ?_, objOf_congr o fun j hj => hold j (by omega) (by omega), hold⟩
  rw [if_pos (by omega), Nat.sub_self]; rfl
/-- Word 6 takes the cycle of a phase's first arrival. -/
theorem firstCycle_spec (o : ObjOp) (n : Word) (first : Bool) (v : State) (ha : o.pa % 32 = 0) :
    let t := if first then putObjWords o 6 [n] v else v
    objectOnly o v t ∧ t.warps = v.warps ∧ objOf t o = objOf v o ∧ objWord t o 6 = (if first then n else objWord v o 6) ∧
      ∀ j < 8, j ≠ 6 → objWord t o j = objWord v o j := by
  cases first with
  | true =>
    obtain ⟨f1, f2, f3, f4⟩ := putWord_spec o 6 n v ha (.inr rfl)
    simp only [if_true]
    exact ⟨f1, putObjWords_warps o 6 [n] v, f3, f2, f4⟩
  | false =>
    simp only [Bool.false_eq_true, if_false]
    exact ⟨objectOnly_of_eq rfl rfl rfl rfl, trivial, trivial, trivial, fun _ _ _ => trivial⟩
theorem enteredObj_spec (o : ObjOp) (s : State) (ha : o.pa % 32 = 0)
    (hu : ∀ l, mFind s.mem.lines (o.pa / 1024) = some l → l.use = none) : opEntered o s (enteredObj o s) := by
  obtain ⟨c1, c2, c3⟩ := claimObj_leaves o s
  obtain ⟨p1, p2, p3, p4⟩ := opWords_spec o (claimObj o s) ha ((objOf s o).step o.op o.val).1
  rw [enteredObj, serveObj_unused o s hu]
  generalize hv : putObjWords o 0 _ (claimObj o s) = v at p1 p2 p3 p4 ⊢
  obtain ⟨f1, f2, f3, f4, f5⟩ := firstCycle_spec o (BitVec.ofNat 32 (homeNow s o)) (firstArrival s o) v ha
  have hw : v.warps = s.warps := by rw [← hv, putObjWords_warps, c2]
  have h4 : ∀ j, 4 ≤ j → j < 8 → objWord v o j = objWord s o j := fun j h h' => (p4 j h h').trans (c3 j)
  exact {
    only := (c1.trans p1).trans f1
    warps := f2.trans hw
    obj := f3.trans p2
    phase := by rw [f5 3 (by omega) (by omega), p3, c3]
    first := by rw [f4, h4 6 (by omega) (by omega)]
    record := ⟨(f5 4 (by omega) (by omega)).trans (h4 4 (by omega) (by omega)), (f5 5 (by omega) (by omega)).trans (h4 5 (by omega) (by omega))⟩
    signal := (f5 7 (by omega) (by omega)).trans (h4 7 (by omega) (by omega)) }
/-- What changes neither warps nor words leaves an op's words standing. -/
theorem opEntered.of_words {o : ObjOp} {s t u : State} (h : opEntered o s t) (ho : objectOnly o t u) (hw : u.warps = t.warps)
    (hj : ∀ j, objWord u o j = objWord t o j) : opEntered o s u := {
  only := h.only.trans ho
  warps := hw.trans h.warps
  obj := (objOf_congr o fun j _ => hj j).trans h.obj
  phase := (hj 3).trans h.phase
  first := (hj 6).trans h.first
  record := ⟨(hj 4).trans h.record.1, (hj 5).trans h.record.2⟩
  signal := (hj 7).trans h.signal }
theorem arrivedObj_spec (o : ObjOp) (s : State) (ha : o.pa % 32 = 0)
    (hu : ∀ l, mFind s.mem.lines (o.pa / 1024) = some l → l.use = none) (h4 : objWord s o 4 = 0) (h5 : objWord s o 5 = 0) :
    opEntered o s (arrivedObj o s) := by
  have he := enteredObj_spec o s ha hu
  rw [arrivedObj]
  split
  · obtain ⟨n1, n2, n3⟩ := notedObj_leaves o (objOf s o) (enteredObj o s)
    have hn := he.of_words n1 n2 n3
    obtain ⟨r4, r5⟩ := hn.record
    rw [logArrival_none _ _ _ (r4.trans h4) (r5.trans h5)]
    exact hn
  · exact he

/-! ### A phase completes (R322) -/
/-- The acquires of the woken waits change cores alone. -/
theorem acquireDrops_cores (l : List (Nat × Warp)) (s : State) :
    ∃ c, l.foldl (fun s kw => acquireDrop (s.block kw.2.bk).core .p s) s = s.setCores c := by
  induction l generalizing s with
  | nil => exact ⟨s.cores, rfl⟩
  | cons x t ih =>
    obtain ⟨c, hc⟩ := ih (acquireDrop (s.block x.2.bk).core .p s)
    refine ⟨c, ?_⟩
    rw [List.foldl_cons, hc, acquireDrop_eq_setCores]
    rfl
theorem wakeObj_leaves (o : ObjOp) (parity : Bool) (s : State) :
    ∃ c, wakeObj o parity s =
      (s.setWarps (s.warps.map fun kw => (kw.1, satisfyObj false o.pa parity (mGet s.mem.objHb [] o.pa) kw.2))).setCores c := by
  rw [wakeObj]
  exact acquireDrops_cores _ _
theorem completeObj_spec (o : ObjOp) (s : State) (ha : o.pa % 32 = 0) (h4 : objWord s o 4 = 0) (h5 : objWord s o 5 = 0)
    (h7 : (objWord s o 7).getLsbD 11 = false) :
    objectOnly o s (completeObj o s) ∧ objOf (completeObj o s) o = objOf s o ∧ objWord (completeObj o s) o 3 = objWord s o 3 + 1 ∧
      ∃ hb, (completeObj o s).warps = s.warps.map fun kw => (kw.1, satisfyObj false o.pa (objOf s o).parity hb kw.2) := by
  obtain ⟨p1, p2, p3, p4⟩ := putWord_spec o 3 (objWord s o 3 + 1) s ha (.inl rfl)
  rw [completeObj, logCompletion_none o s h4 h5]
  generalize hu : putObjWords o 3 [objWord s o 3 + 1] s = u at p1 p2 p3 p4 ⊢
  have hw : u.warps = s.warps := by rw [← hu, putObjWords_warps]
  rw [sendSignal_none o u (by rw [p4 7 (by omega) (by omega), h7]), p3]
  obtain ⟨c, hc⟩ := wakeObj_leaves o (objOf s o).parity u
  rw [hc]
  refine ⟨p1.trans (objectOnly_of_eq rfl rfl rfl rfl), (objOf_congr o fun j _ => objWord_congr o rfl rfl j).trans p3,
    (objWord_congr o rfl rfl 3).trans p2, mGet u.mem.objHb [] o.pa, ?_⟩
  rw [← hw]; rfl
/-- The next phase's first arrival finds word 6 undefined (R329). -/
theorem openC0_spec (o : ObjOp) (s : State) (ha : o.pa % 32 = 0) :
    objectOnly o s (openC0 o s) ∧ (openC0 o s).warps = s.warps ∧ objOf (openC0 o s) o = objOf s o ∧
      objWord (openC0 o s) o 3 = objWord s o 3 := by
  obtain ⟨p1, -, p3, p4⟩ := putWord_spec o 6 (Config.undefinedWord s.tick) s ha (.inr rfl)
  rw [openC0]
  generalize hu : putObjWords o 6 [Config.undefinedWord s.tick] s = u at p1 p3 p4 ⊢
  have hw : u.warps = s.warps := by rw [← hu, putObjWords_warps]
  exact ⟨p1.trans (objectOnly_of_eq rfl rfl rfl rfl), hw, (objOf_congr o fun j _ => objWord_congr o rfl rfl j).trans p3,
    (objWord_congr o rfl rfl 3).trans (p4 3 (by omega) (by omega))⟩
/-- What an op with the outcome `r` has made of its object, and of the warps that wait on it. -/
structure opPerformed (o : ObjOp) (s : State) (r : BarObj × Bool) (t : State) : Prop where
  only : objectOnly o s t
  obj : objOf t o = r.1
  phase : objWord t o 3 = if o.op = .init then 0 else if r.2 then objWord s o 3 + 1 else objWord s o 3
  first : o.op ≠ .init → r.2 = false → objWord t o 6 = if firstArrival s o then BitVec.ofNat 32 (homeNow s o) else objWord s o 6
  warps : ∃ hb, t.warps = if r.2 then s.warps.map (fun kw => (kw.1, satisfyObj false o.pa r.1.parity hb kw.2)) else s.warps
/-- AN OP CHANGES ITS OBJECT: its words, and where it completes a phase the count of phases and the waits. -/
theorem changeObj_spec (o : ObjOp) (s : State) (ha : o.pa % 32 = 0)
    (hu : ∀ l, mFind s.mem.lines (o.pa / 1024) = some l → l.use = none) (h4 : objWord s o 4 = 0) (h5 : objWord s o 5 = 0)
    (h7 : (objWord s o 7).getLsbD 11 = false) : opPerformed o s ((objOf s o).step o.op o.val) (changeObj o s) := by
  obtain ⟨a1, a2, a3, a4, a5, ⟨a6, a7⟩, a8⟩ := arrivedObj_spec o s ha hu h4 h5
  rw [changeObj_eq]
  generalize arrivedObj o s = u at a1 a2 a3 a4 a5 a6 a7 a8 ⊢
  have hinit : o.op = .init → ((objOf s o).step o.op o.val).2 = false := fun h => by rw [h]; rfl
  generalize (objOf s o).step o.op o.val = r at a3 hinit ⊢
  cases hr : r.2 with
  | true =>
    have hop : o.op ≠ .init := fun h => by simp [hinit h] at hr
    obtain ⟨c1, c2, c3, hb, c4⟩ := completeObj_spec o u ha (a6.trans h4) (a7.trans h5) (by rw [a8, h7])
    obtain ⟨d1, d2, d3, d4⟩ := openC0_spec o (completeObj o u) ha
    simp only [if_true, Bool.true_or]
    exact {
      only := (a1.trans c1).trans d1
      obj := d3.trans (c2.trans a3)
      phase := by rw [d4, c3, a4, if_neg hop, if_neg hop, hr]; rfl
      first := fun _ hf => absurd (hr.symm.trans hf) (by decide)
      warps := ⟨hb, by rw [d2, c4, a2, a3, hr]; rfl⟩ }
  | false =>
    simp only [Bool.false_or, Bool.false_eq_true, if_false, beq_iff_eq]
    by_cases hop : o.op = .init
    · obtain ⟨d1, d2, d3, d4⟩ := openC0_spec o u ha
      rw [if_pos hop]
      exact ⟨a1.trans d1, d3.trans a3, by rw [d4, a4, if_pos hop, if_pos hop], fun h => absurd hop h,
        [], by rw [d2, a2, hr]; rfl⟩
    · rw [if_neg hop]
      exact ⟨a1, a3, by rw [a4, if_neg hop, if_neg hop, hr]; rfl, fun _ _ => a5, [], by rw [a2, hr]; rfl⟩

/-! ### The op leaves the network -/
/-- The machine without an op on its way. -/
def opLeft (o : ObjOp) (s : State) : State := s.updMem fun m => { m with objq := m.objq.filter fun y => y.id != o.id }
/-- What its core sent ahead of an op has arrived already where nothing of the core is on its way. -/
theorem drainForObj_quiet (o : ObjOp) (s : State) (hf : ∀ c, o.core s = some c → ∀ f ∈ s.mem.flights, f.src ≠ c) :
    drainForObj o s = s := by
  rw [drainForObj]
  cases hc : o.core s with
  | none => rfl
  | some c =>
    have hnone : (s.mem.flights.filter fun f => !f.nt && f.src == c && f.home == o.home) = [] := by
      refine List.filter_eq_nil_iff.2 fun f hf' => ?_
      have := hf c hc f hf'
      simp [this]
    dsimp only
    rw [drainHome, hnone]; rfl
theorem exec_arrivalLog (s : State) (o : ObjOp) (hq : s.mem.objq.find? (fun y => y.id == o.id) = some o) (hf : objFirst s o = true)
    (hp : o.peer = none) (hfl : ∀ c, o.core s = some c → ∀ f ∈ s.mem.flights, f.src ≠ c) :
    exec (.arrivalLog o.id) s =
      .next (if barxWrites o.op then changeObj o (opLeft o s) else readObj o (opLeft o s)) := by
  have hd : drainForObj o (opLeft o s) = opLeft o s := drainForObj_quiet o (opLeft o s) hfl
  have ha : ∀ u, applyObj o u = if barxWrites o.op then changeObj o u else readObj o u := fun u => by rw [applyObj, hp]
  show execArrivalLog o.id s = _
  rw [execArrivalLog, hq]
  dsimp only
  rw [if_pos hf]
  exact congrArg Host.Outcome.next ((congrArg (applyObj o) hd).trans (ha _))
/-- An op that leaves the network changes no object. -/
theorem opLeft_leaves (o : ObjOp) (s : State) : (∀ i, objWord (opLeft o s) o i = objWord s o i) ∧
    objOf (opLeft o s) o = objOf s o ∧ homeNow (opLeft o s) o = homeNow s o ∧ firstArrival (opLeft o s) o = firstArrival s o :=
  ⟨fun _ => rfl, rfl, rfl, rfl⟩

/-! ### An op that sees its object -/
/-- The acquire of a `.test` or `.wait` leaves memory, blocks and every result as they were. -/
theorem objAcquire_leaves (wk pa : Nat) (s : State) : ∃ c h, objAcquire wk pa s = (s.updWarp wk fun w => { w with hb := h }).setCores c := by
  obtain ⟨h, e⟩ := addHb_updWarp wk (mGet s.mem.objHb [] pa) s
  rw [objAcquire, e, acquireDrop_eq_setCores]
  exact ⟨_, h, rfl⟩
theorem updWarp_outs (s : State) (wk : Nat) (f : Warp → Warp) (g : List Out → List Out) (hg : g [] = [])
    (hf : ∀ w, (f w).outs = g w.outs) : ((s.updWarp wk f).warp wk).outs = g (s.warp wk).outs := by
  cases hw : mFind s.warps wk with
  | some w => rw [State.updWarp_warp s wk f (by rw [hw]; rfl), hf]
  | none =>
    have h1 : (s.updWarp wk f).warp wk = Warp.none := by simp [State.warp, State.updWarp, mGet, hw]
    have h2 : s.warp wk = Warp.none := by simp [State.warp, mGet, hw]
    rw [h1, h2]
    exact hg.symm
/-- What the object answers, at the result of the op. -/
def answeredOut (op : BarxOp) (w : ObjWait) (ok : Bool) (x : Out) : Out :=
  if op = .test then
    { x with waitOp := false, vals := x.vals.map fun y => (y.1, z64 (if ok then 1 else 0)),
             writes := x.writes.map fun y => { y with val := if ok then 1 else 0 } }
  else { x with waitOp := false, obj := if ok then none else some w }
/-- A `.test` or `.wait` at the home changes no memory, and of its warp's results its own. -/
theorem readObj_leaves (o : ObjOp) (s : State) (wk id : Nat) (ok : Bool) (hwk : o.wk = some wk) (hid : o.out = some id)
    (hz : o.zero = false) (hu : ∀ l, mFind s.mem.lines (o.pa / 1024) = some l → l.use = none)
    (hok : ok = ((objOf s o).parity != o.val.getLsbD 0)) :
    sameMemory s (readObj o s) ∧ ((readObj o s).warp wk).outs = (s.warp wk).outs.map fun x =>
      if x.id = id then answeredOut o.op { loc := false, addr := o.pa, parity := o.val.getLsbD 0 } ok x else x := by
  have hr : readObj o s = updOut wk id (answeredOut o.op { loc := false, addr := o.pa, parity := o.val.getLsbD 0 } ok)
      (if ok then objAcquire wk o.pa s else s) := by
    rw [readObj, hwk, hid, serveObj_unused o s hu, hok]
    simp only [hz, Bool.false_eq_true, if_false, Bool.not_false, Bool.true_and]
    rfl
  have hacq : ∃ c h, (if ok then objAcquire wk o.pa s else s) = (s.updWarp wk fun w => { w with hb := h }).setCores c ∨
      (if ok then objAcquire wk o.pa s else s) = s := by
    cases ok with
    | true =>
      obtain ⟨c, h, e⟩ := objAcquire_leaves wk o.pa s
      exact ⟨c, h, .inl e⟩
    | false => exact ⟨[], [], .inr rfl⟩
  rw [hr]
  obtain ⟨c, h, e | e⟩ := hacq
  · rw [e]
    refine ⟨⟨fun _ _ => rfl, fun _ _ _ => rfl⟩, (updWarp_outs _ wk _ (fun l => l.map _) rfl fun _ => rfl).trans (congrArg (List.map _) ?_)⟩
    exact updWarp_outs s wk _ (fun l => l) rfl fun _ => rfl
  · rw [e]
    exact ⟨⟨fun _ _ => rfl, fun _ _ _ => rfl⟩, updWarp_outs _ wk _ (fun l => l.map _) rfl fun _ => rfl⟩

/-! ### A completion signal reaches its counter -/
/-- A decrement by 1 of a counter that no set of this cycle has written (R309). -/
theorem decrement_one (q c : Nat) (s : State) (hs : mFind (s.quad q).sets c = none) :
    (1 < (s.ctr q c).value.toNat →
      decrement q c 1 .no 0 s = putCtr q c { s.ctr q c with value := (s.ctr q c).value - 1 } s) ∧
    ((s.ctr q c).value = 0 → decrement q c 1 .no 0 s =
      postRecord (engineRecord 0x11 c 4 0 0 0 (4 * q) 0 .none) (putCtr q c (s.ctr q c) s)) := by
  have hb : (s.quad q).before c = s.ctr q c := by rw [Quad.before, hs]; rfl
  have hput : ∀ y, s.updQuad q (Quad.putBefore c y) = putCtr q c y s := fun y => by
    refine updQuad_congr s q _ _ ?_
    rw [Quad.putBefore, hs]
  rw [decrement]
  simp only [hb, hput, Ctr.mark]
  generalize hx : s.ctr q c = x
  constructor
  · intro h1
    have hv : BitVec.ofNat 32 (x.value.toNat - 1) = x.value - 1 := by
      have := x.value.isLt
      apply BitVec.eq_of_toNat_eq
      rw [BitVec.toNat_ofNat, BitVec.toNat_sub_of_le (BitVec.le_def.2 (show (1 : Nat) ≤ _ by omega))]
      exact Nat.mod_eq_of_lt (by omega)
    rw [if_neg (by omega), if_neg (by omega), hv]
  · intro h0
    have h0' : x.value.toNat = 0 := by rw [h0]; rfl
    have hv : ({ x with value := BitVec.ofNat 32 (0 - 1) } : Ctr) = x := by
      obtain ⟨v, a, b, c, d⟩ := x
      dsimp only at h0
      subst h0
      rfl
    rw [h0', if_neg (by decide), if_pos (by decide), hv]
/-- THE STEP OF A SIGNAL of this package: one on its way, or one from another package. -/
theorem exec_completionSignal (s u : State) (quad ctr : Nat)
    (h : (∃ x, s.mem.signals.find? (fun x => x.2.1 == quad && x.2.2.1 == ctr) = some x ∧
        u = s.updMem fun m => { m with signals := m.signals.erase x }) ∨
      (s.mem.signals.find? (fun x => x.2.1 == quad && x.2.2.1 == ctr) = none ∧ quad < 128 ∧ ctr < 2048 ∧
        (s.ctr quad ctr).owner.isSome = true ∧ u = s)) :
    exec (.completionSignal s.host.device quad ctr) s = .next (decrement quad ctr 1 .no 0 u) := by
  show execCompletionSignal _ quad ctr s = _
  rw [execCompletionSignal, if_neg (not_not_intro rfl)]
  obtain ⟨x, hx, rfl⟩ | ⟨hx, hq, hc, ho, rfl⟩ := h
  · rw [hx]
  · rw [hx]
    dsimp only
    rw [signalFromPeer, if_pos ⟨hq, hc, ho⟩]

/-- Settles O47: an op at its object's home, and a signal at its counter. -/
theorem objectsAndSignals : Obligations.ObjectsAndSignals := by
  unfold Obligations.ObjectsAndSignals
  refine ⟨fun s o hq hf ha hp hfl hu => ⟨fun hw h4 h5 h7 => ?_, fun wk id hwk hid hz ok hok => ?_⟩, fun s u quad ctr hs h => ?_⟩
  · have hex := exec_arrivalLog s o hq hf hp hfl
    rw [if_pos hw] at hex
    obtain ⟨hword, hobj, hnow, hfirst⟩ := opLeft_leaves o s
    obtain ⟨ho, h1, h2, h3, hb, hwarps⟩ := changeObj_spec o (opLeft o s) ha hu ((hword 4).trans h4) ((hword 5).trans h5)
      (by rw [hword, h7])
    rw [hobj] at h1 h2 h3 hwarps
    rw [hword] at h2 h3
    rw [hnow, hfirst] at h3
    refine ⟨_, hb, hex, h1, h2, fun hi hr => ?_, ho.own, ho.away, ho.blocks, ho.objq, hwarps⟩
    rw [h3 hi hr, firstArrival]
    simp only [Bool.and_eq_true, beq_iff_eq]
  · have hex : (o.op = .test ∨ o.op = .wait) → exec (.arrivalLog o.id) s = .next (readObj o (opLeft o s)) := fun h => by
      rw [exec_arrivalLog s o hq hf hp hfl, if_neg (by obtain h | h := h <;> rw [h] <;> decide)]
    obtain ⟨hm, houts⟩ := readObj_leaves o (opLeft o s) wk id ok hwk hid hz hu hok
    refine ⟨fun hop => ⟨_, hex (.inl hop), hm, houts.trans ?_⟩, fun hop => ⟨_, hex (.inr hop), hm, houts.trans ?_⟩⟩
    · rw [hop]
      have hz64 : z64 (if ok = true then 1 else 0) = if ok = true then 1 else 0 := by cases ok <;> rfl
      simp only [answeredOut, if_true, hz64]
      rfl
    · rw [hop]
      rfl
  · rw [exec_completionSignal s u quad ctr h]
    have hquads : u.quads = s.quads := by
      obtain ⟨x, -, rfl⟩ | ⟨-, -, -, -, rfl⟩ := h <;> rfl
    have hquad : u.quad quad = s.quad quad := by rw [State.quad, State.quad, hquads]
    have hctr : u.ctr quad ctr = s.ctr quad ctr := by rw [State.ctr, State.ctr, hquad]
    obtain ⟨d1, d2⟩ := decrement_one quad ctr u (by rw [hquad, hs])
    rw [hctr] at d1 d2
    exact ⟨fun h1 => congrArg Host.Outcome.next (d1 h1), fun h0 => congrArg Host.Outcome.next (d2 h0)⟩

end Sys2Proof.Machine
end

section
/-! What a load reads (O28): the core's own stored bytes, then a snapshot, then the home. -/
namespace Sys2Proof.Machine

/-! ### Accesses lie within their sectors -/
theorem walkAccess_leaf {c : Option Nat} {part : Nat} {k : Acc} {l va : Nat} {s s1 : State} {a : LaneAcc}
    (h : walkAccess c part k l va s = (.ok a, s1)) : ∃ level x, a = leafAcc level x l va := by
  rw [walkAccess] at h
  split at h
  · cases h
  · split at h
    · cases h
    · exact ⟨_, _, (Except.ok.inj (Prod.mk.inj h).1).symm⟩
/-- A translated access is what some leaf gives for its address. -/
theorem translate_leaf {c : Option Nat} {part : Nat} {k : Acc} {l va : Nat} {s s1 : State} {a : LaneAcc}
    (h : translate c part k l va s = (.ok a, s1)) : ∃ level x, a = leafAcc level x l va := by
  rw [translate] at h
  split at h
  · cases h
  · split at h
    · exact walkAccess_leaf h
    · split at h
      · exact walkAccess_leaf h
      · split at h
        · cases h
        · exact ⟨_, _, (Except.ok.inj (Prod.mk.inj h).1).symm⟩
/-- A page starts at a multiple of 64 KiB (R362). -/
theorem leafPa_mod (level : Nat) (x : DWord) (va n : Nat) (hn : n ∣ 2 ^ 16) : leafPa level x va % n = va % n := by
  have page : ∀ p k, n ∣ 2 ^ k → (p * 2 ^ k + va % 2 ^ k) % n = va % n := fun p k hk => by
    rw [Nat.add_mod, Nat.mod_eq_zero_of_dvd (Dvd.dvd.mul_left hk p), Nat.zero_add, Nat.mod_mod, Nat.mod_mod_of_dvd _ hk]
  rw [leafPa]
  split
  · exact page _ 29 (hn.trans (by decide))
  · exact page _ 16 hn
/-- An access past its checks is aligned in the physical space too (R183). -/
theorem globalLanes_aligned (k : Acc) (n : Nat) (addr : Nat → DWord) (chk : AccCheck) (s : State) (hn : n ∣ 2 ^ 16) :
    ∀ y ∈ (globalLanes k n addr chk s).accs, y.pa % n = 0 := by
  have lane : ∀ (r : LaneRes) (l : Nat), (∀ y ∈ r.accs, y.pa % n = 0) → ∀ y ∈ (globalLane k n addr chk r l).accs, y.pa % n = 0 := by
    intro r l hr
    simp only [globalLane]
    split
    · exact hr
    · rename_i hal
      split
      · exact hr
      · rename_i e
        split
        · exact hr
        · obtain ⟨level, x, rfl⟩ := translate_leaf e
          intro y hy
          rcases List.mem_append.1 hy with hy | hy
          · exact hr y hy
          · rw [List.mem_singleton.1 hy]
            exact (leafPa_mod level x _ n hn).trans (not_not.1 hal)
  have lanes : ∀ (ls : List Nat) (r : LaneRes), (∀ y ∈ r.accs, y.pa % n = 0) →
      ∀ y ∈ (ls.foldl (globalLane k n addr chk) r).accs, y.pa % n = 0 := by
    intro ls
    induction ls with
    | nil => exact fun r hr => hr
    | cons l t ih => exact fun r hr => ih _ (lane r l hr)
  exact lanes s.bl ⟨[], [], s⟩ (by simp)
theorem accesses_aligned (x : LoadForm) (s : State) (hn : x.n ∣ 2 ^ 16) : ∀ y ∈ (x.accesses s).accs, y.pa % x.n = 0 := by
  intro y hy
  obtain ⟨z, hz, rfl⟩ := List.mem_map.1 hy
  have hpa : ∀ q : LdgQ, (if z.attr.pol = 3 then z else match q with
      | .ef => { z with attr := { z.attr with pol := 1 } }
      | .retain => { z with attr := { z.attr with pol := 2 } }
      | _ => z : LaneAcc).pa = z.pa := fun q => by
    split
    · rfl
    · cases q <;> rfl
  exact (congrArg (· % x.n) (hpa x.pol)).trans (globalLanes_aligned .read x.n x.addr x.chk s hn z hz)
/-- An aligned access stays within one sector. -/
theorem access_sector {pa n p : Nat} (hn : n ∣ 128) (ha : pa % n = 0) (hp : p ∈ rangeFrom pa n) : p / 128 = pa / 128 := by
  obtain ⟨d, hd⟩ := hn
  obtain ⟨c, rfl⟩ := Nat.dvd_of_mod_eq_zero ha
  obtain ⟨h1, h2⟩ := (mem_rangeFrom _ _ _).1 hp
  have hpos : 0 < n := by omega
  have hc : p / n = c := Nat.div_eq_of_lt_le (by rw [Nat.mul_comm]; exact h1) (by rw [Nat.succ_mul, Nat.mul_comm]; exact h2)
  rw [hd, ← Nat.div_div_eq_div_mul, ← Nat.div_div_eq_div_mul, hc, Nat.mul_div_cancel_left _ hpos]

/-! ### The bytes of a lane -/
/-- A table written entry after entry finds at a key the last entry written there. -/
theorem mFind_foldl_mSet {α β : Type} (key : α → Nat) (g : α → β) (xs : List α) (m : Map β) (k : Nat) :
    mFind (xs.foldl (fun m a => mSet m (key a) (g a)) m) k =
      ((xs.reverse.find? fun a => key a == k).map g).or (mFind m k) := by
  induction xs using List.reverseRecOn with
  | nil => rfl
  | append_singleton xs x ih =>
    rw [List.foldl_append, List.foldl_cons, List.foldl_nil, mFind_mSet, List.reverse_append, List.reverse_singleton,
      List.singleton_append, List.find?_cons]
    by_cases hx : key x = k
    · rw [if_pos hx, beq_iff_eq.2 hx]
      rfl
    · rw [if_neg hx, beq_eq_false_iff_ne.2 hx, ih]
/-- Where every entry written at a key says the same, that is what the key finds. -/
theorem mGet_foldl_mSet {α β : Type} (key : α → Nat) (g : α → β) (d : β) (xs : List α) (m : Map β) (x : α) (hx : x ∈ xs)
    (hg : ∀ y ∈ xs, key y = key x → g y = g x) : mGet (xs.foldl (fun m a => mSet m (key a) (g a)) m) d (key x) = g x := by
  have hfound : (xs.reverse.find? fun a => key a == key x).isSome = true :=
    List.find?_isSome.2 ⟨x, List.mem_reverse.2 hx, beq_self_eq_true _⟩
  obtain ⟨y, hy⟩ := Option.isSome_iff_exists.1 hfound
  rw [mGet, mFind_foldl_mSet, hy]
  exact hg y (List.mem_reverse.1 (List.mem_of_find?_eq_some hy)) (by simpa using List.find?_some hy)
/-- With nothing of the warp left to perform, a byte is the core's stored one, or its sector's (R220, R221). -/
theorem pickByte_val (s : State) (w : Warp) (core before : Nat) (bs : List HByte) (key : Nat) (hq : w.memq = []) :
    (pickByte s w core before false bs key).val =
      ((mFind (s.coreAt core).pool key).map (·.val)).getD (bs.getD (key % 128) ⟨0, 0⟩).val := by
  have hown : ownByte w before key = none := by rw [ownByte, hq]; rfl
  rw [pickByte, frontByte, hown]
  cases mFind (s.coreAt core).pool key <;> rfl
/-- The bytes of a lane's access, given those of its sector. -/
def pickedBytes (s : State) (wk core before n : Nat) (bs : List HByte) (a : LaneAcc) : List HByte :=
  (a.keys n).map (pickByte s (s.warp wk) core before false bs)
theorem loadVal_pickedBytes (s : State) (wk core before n : Nat) (bs : List HByte) (y : LaneAcc) (f : Nat → Byte)
    (hq : (s.warp wk).memq = []) (hp : y.peer = none) (hf : ∀ p ∈ rangeFrom y.pa n, (bs.getD (p % 128) ⟨0, 0⟩).val = f p) :
    loadVal (pickedBytes s wk core before n bs y) = readVal s core y n f := by
  have hkeys : y.keys n = rangeFrom y.pa n := by rw [LaneAcc.keys, hp]; rfl
  rw [loadVal, readVal, pickedBytes, hkeys, List.map_map]
  congr 2
  refine List.map_congr_left fun p hm => ?_
  rw [← hf p hm]
  exact pickByte_val s _ core before bs p hq

/-! ### The bytes of a sector -/
/-- The lanes' accesses in a sector. -/
def inSector (sec : Nat) (accs : List LaneAcc) : List LaneAcc := accs.filter fun a => a.pa / 128 == sec
/-- The page attributes a sector is read with: its first access's. -/
def sectorAttr (sec : Nat) (accs : List LaneAcc) : PageAttr := ((inSector sec accs).headD (leafAcc 3 0 0 0)).attr
/-- Every access lies in the package, in no discarded page. -/
def allLocal (accs : List LaneAcc) : Prop := ∀ y ∈ accs, y.peer = none ∧ y.zero = false
/-- The accesses of a sector take its bytes; where the core's own stores hold all of them, the sector is not read. -/
theorem loadSector_run (wk core before : Nat) (k : LoadKind) (n sec : Nat) (accs : List LaneAcc) (m : Map (List HByte)) (s : State)
    (bs : List HByte) (hk : k.isRo = false) (hl : allLocal accs) (h : (sectorBytes core k (sectorAttr sec accs) sec s).1 = bs) :
    ∃ u, (u = s ∨ u = (sectorBytes core k (sectorAttr sec accs) sec s).2) ∧ loadSector wk core before k n sec accs (m, s) =
      ((inSector sec accs).foldl (fun m a => mSet m a.lane (pickedBytes s wk core before n bs a)) m, u) := by
  have hmine : (accs.filter fun a => a.peer.isNone && !a.zero && a.pa / 128 == sec) = inSector sec accs :=
    List.filter_congr fun a ha => by rw [(hl a ha).1, (hl a ha).2]; rfl
  rw [loadSector]
  simp only [hmine, hk]
  split
  · exact ⟨_, .inr rfl, by rw [← h]; rfl⟩
  · rename_i hneed
    refine ⟨s, .inl rfl, congrArg (·, s) (List.foldl_ext _ _ _ fun m a ha => congrArg (mSet m a.lane) ?_)⟩
    refine List.map_congr_left fun key hkey => ?_
    have hfront : frontByte s (s.warp wk) core before key ≠ none := fun hn =>
      hneed (by
        simp only [Bool.or_eq_true, List.any_eq_true]
        exact .inr ⟨a, ha, key, hkey, by rw [hn]; rfl⟩)
    obtain ⟨b, hb⟩ := Option.ne_none_iff_exists'.1 hfront
    rw [pickByte, pickByte, hb]
    rfl
/-- A load of the package's own pages, with no store on its way, is made sector by sector. -/
theorem loadGlobal_sectors (wk core before : Nat) (k : LoadKind) (n : Nat) (accs : List LaneAcc) (s : State) (hk : k.isRo = false)
    (hl : allLocal accs) (hf : s.mem.flights = []) : loadGlobal wk core before k n accs s =
      ((accs.map fun a => a.pa / 128).dedup).foldl (fun r sec => loadSector wk core before k n sec accs r) ([], s) := by
  have hnt : arriveNt wk (accs.flatMap fun a => a.keys n) s = s := by rw [arriveNt, hf]; rfl
  have hlocal : (accs.filter fun a => a.peer.isNone && !a.zero) = accs :=
    List.filter_eq_self.2 fun a ha => by rw [(hl a ha).1, (hl a ha).2]; rfl
  have hask : ∀ u, askPeers wk core before k n accs u = u := fun u => by
    have : (accs.filter fun a => a.peer.isSome && !a.zero &&
        (k.isRo || (a.keys n).any fun key => (frontByte u (u.warp wk) core before key).isNone)) = [] :=
      List.filter_eq_nil_iff.2 fun a ha => by rw [(hl a ha).1]; simp
    simp only [askPeers, this]
    rfl
  have hother : ∀ r, accs.foldl (loadOther wk core before k n) r = r := fun r =>
    (List.foldl_ext _ (fun r _ => r) r fun r a ha => by
      simp only [loadOther, (hl a ha).1, (hl a ha).2]
      rfl).trans (List.foldl_fixed' (fun _ => rfl) _)
  rw [loadGlobal]
  simp only [hk, Bool.false_eq_true, if_false, hnt, hlocal, hask]
  exact hother _
/-- What a core's snapshot of an access's sector holds. -/
def snapBytes (s : State) (core : Nat) (a : LaneAcc) : List HByte := (mFind (s.coreAt core).snaps (a.pa / 128)).getD []
/-- A LOAD WHOSE SECTORS THE CORE HAS SNAPSHOTS OF takes its bytes from them and changes nothing (R220). -/
theorem loadGlobal_snapshots (wk core before n : Nat) (accs : List LaneAcc) (s : State) (hl : allLocal accs) (hf : s.mem.flights = [])
    (hd : (accs.map (·.lane)).Nodup) (hs : ∀ y ∈ accs, (mFind (s.coreAt core).snaps (y.pa / 128)).isSome = true) :
    (loadGlobal wk core before .normal n accs s).2 = s ∧ ∀ y ∈ accs,
      mGet (loadGlobal wk core before .normal n accs s).1 [] y.lane = pickedBytes s wk core before n (snapBytes s core y) y := by
  obtain ⟨g, hg⟩ : ∃ g : LaneAcc → List HByte, g = fun a => pickedBytes s wk core before n (snapBytes s core a) a := ⟨_, rfl⟩
  have sectors : ∀ (secs : List Nat) (m : Map (List HByte)),
      (∀ sec ∈ secs, (mFind (s.coreAt core).snaps sec).isSome = true) →
      secs.foldl (fun r sec => loadSector wk core before .normal n sec accs r) (m, s) =
        ((secs.flatMap fun sec => inSector sec accs).foldl (fun m a => mSet m a.lane (g a)) m, s) := by
    intro secs
    induction secs with
    | nil => exact fun _ _ => rfl
    | cons sec t ih =>
      intro m hs
      obtain ⟨bs, hbs⟩ := Option.isSome_iff_exists.1 (hs sec List.mem_cons_self)
      have hread : sectorBytes core .normal (sectorAttr sec accs) sec s = (bs, s) := by simp only [sectorBytes, hbs]
      obtain ⟨u, hu, hrun⟩ := loadSector_run wk core before .normal n sec accs m s bs rfl hl (congrArg Prod.fst hread)
      obtain rfl : u = s := hu.elim id fun e => e.trans (congrArg Prod.snd hread)
      have hsame : (inSector sec accs).foldl (fun m a => mSet m a.lane (pickedBytes u wk core before n bs a)) m =
          (inSector sec accs).foldl (fun m a => mSet m a.lane (g a)) m :=
        List.foldl_ext _ _ _ fun m a ha => by
          have : a.pa / 128 = sec := by simpa using (List.mem_filter.1 ha).2
          simp only [hg, snapBytes, this, hbs, Option.getD_some]
      rw [List.foldl_cons, hrun, hsame, ih _ fun x hx => hs x (List.mem_cons_of_mem _ hx), List.flatMap_cons, List.foldl_append]
  have hrun := loadGlobal_sectors wk core before .normal n accs s rfl hl hf
  rw [sectors _ _ fun sec hsec => by
    obtain ⟨y, hy, rfl⟩ := List.mem_map.1 (List.mem_dedup.1 hsec)
    exact hs y hy] at hrun
  rw [hrun]
  refine ⟨rfl, fun y hy => ?_⟩
  have hmem : ∀ z ∈ ((accs.map fun a => a.pa / 128).dedup).flatMap (fun sec => inSector sec accs), z ∈ accs := fun z hz => by
    obtain ⟨sec, -, hz⟩ := List.mem_flatMap.1 hz
    exact (List.mem_filter.1 hz).1
  refine (mGet_foldl_mSet (·.lane) g [] _ [] y ?_ fun z hz he => ?_).trans (congrFun hg y)
  · exact List.mem_flatMap.2 ⟨y.pa / 128, List.mem_dedup.2 (List.mem_map.2 ⟨y, hy, rfl⟩), List.mem_filter.2 ⟨hy, by simp⟩⟩
  · rw [List.inj_on_of_nodup_map hd (hmem z hz) hy he]
/-- A load of a kind reads a sector at its home: past the L1, or with no snapshot and room for one (R219, R220). -/
def readsHome (s : State) (core : Nat) (k : LoadKind) (sec : Nat) : Prop :=
  k = .nol1 ∨ k = .normal ∧ mFind (s.coreAt core).snaps sec = none ∧ (s.coreAt core).full 1 = false
/-- A SECTOR READ AT ITS HOME by a core with no store on its way: the home's bytes under the page's key. -/
theorem sectorBytes_home (core : Nat) (k : LoadKind) (a : PageAttr) (sec : Nat) (s : State) (hf : s.mem.flights = [])
    (hk : readsHome s core k sec) (p : Nat) (hp : p / 128 = sec) :
    ((sectorBytes core k a sec s).1.getD (p % 128) ⟨0, 0⟩).val = s.mem.byteUnder (s.mem.keyOf a.key) p := by
  have hserve : (serveFor core a none sec s).1 =
      (rangeFrom (128 * sec) 128).map ((s.mem.fillLine a none (sec / 8)).2.homeByte a.key) := by
    have hdrain : drainHome core (Config.homeOf (sec / 8)) s = s := by rw [drainHome, hf]; rfl
    rw [serveFor, hdrain]
    rfl
  have hread : (sectorBytes core k a sec s).1 = (serveFor core a none sec s).1 := by
    obtain rfl | ⟨rfl, hsnap, hroom⟩ := hk
    · rfl
    · have hmake : makeL1Room core 1 s = s := by rw [makeL1Room, hroom]; rfl
      simp only [sectorBytes, hsnap, hmake]
  obtain ⟨⟨_, _, _, e⟩, hview, -⟩ := fillLine_view s.mem a none (sec / 8)
  have hkey : (s.mem.fillLine a none (sec / 8)).2.keyOf a.key = s.mem.keyOf a.key := keyOf_congr (by rw [e]) a.key
  rw [hread, hserve, rangeFrom_getD _ _ _ _ _ (by omega), show 128 * sec + p % 128 = p by omega]
  exact (congrArg (fun j => (s.mem.fillLine a none (sec / 8)).2.byteUnder j p) hkey).trans (hview _ p)
/-- A LOAD OF ONE SECTOR AT ITS HOME takes the bytes of that sector (R220). -/
theorem loadGlobal_home (wk core before : Nat) (k : LoadKind) (n sec : Nat) (accs : List LaneAcc) (s : State) (hl : allLocal accs)
    (hf : s.mem.flights = []) (hd : (accs.map (·.lane)).Nodup) (hsec : ∀ y ∈ accs, y.pa / 128 = sec)
    (ha : ∀ y ∈ accs, ∀ z ∈ accs, y.attr = z.attr) (hk : readsHome s core k sec) : ∀ y ∈ accs, ∃ bs,
      mGet (loadGlobal wk core before k n accs s).1 [] y.lane = pickedBytes s wk core before n bs y ∧
      ∀ p, p / 128 = sec → (bs.getD (p % 128) ⟨0, 0⟩).val = s.mem.byteUnder (s.mem.keyOf y.attr.key) p := by
  intro y hy
  have hro : k.isRo = false := by obtain rfl | ⟨rfl, -⟩ := hk <;> rfl
  have hone : (accs.map fun a => a.pa / 128).dedup = [sec] := by
    rw [List.map_congr_left hsec, List.map_const']
    exact List.replicate_dedup (by rintro h; rw [List.length_eq_zero_iff.1 h] at hy; cases hy)
  have hall : inSector sec accs = accs := List.filter_eq_self.2 fun a h => by simpa using hsec a h
  have hattr : sectorAttr sec accs = y.attr := by
    rw [sectorAttr, hall]
    cases accs with
    | nil => cases hy
    | cons z t => exact ha z List.mem_cons_self y hy
  obtain ⟨u, -, hrun⟩ := loadSector_run wk core before k n sec accs [] s _ hro hl (by rw [hattr])
  refine ⟨_, ?_, sectorBytes_home core k y.attr sec s hf hk⟩
  rw [loadGlobal_sectors wk core before k n accs s hro hl hf, hone, List.foldl_cons, List.foldl_nil, hrun, hall]
  exact foldl_mSet accs (·.lane) _ [] [] hd y hy

/-! ### The issue of a load that takes its bytes -/
/-- A load's result as its issue makes it. -/
def issuedOut (s : State) (x : LoadForm) : Out :=
  loadOut x.kind x.n x.t (x.accesses s).accs (freshId s) s.cur.mask s.cur.pc
/-- A load as it has been issued, before it takes its bytes. -/
def loadIssued (s : State) (x : LoadForm) : State :=
  (numbered (x.accesses s).s).updCw
    (loadIssue (issuedOut s x) (issuedOut s x).writes (laneRows x.t (x.n == 8)) s.cur.mask s.cur.pc)
theorem loadIssue_keeps (o : Out) (zs : List RegWrite) (rs : List Nat) (m : Word) (pc : DWord) (w : Warp) :
    (loadIssue o zs rs m pc w).bk = w.bk ∧ (loadIssue o zs rs m pc w).memq = w.memq := by
  rw [loadIssue]
  split <;> exact ⟨rfl, rfl⟩
theorem loadIssue_outs (o : Out) (zs : List RegWrite) (rs : List Nat) (m : Word) (pc : DWord) (w : Warp) :
    o ∈ (loadIssue o zs rs m pc w).outs := by
  rw [loadIssue]
  split <;> exact List.mem_append_right _ List.mem_cons_self
/-- A load of pages here, behind an empty stream, with its translations held and nothing on its way to the homes. -/
structure loadReady (s : State) (i : Instr) (x : LoadForm) : Prop where
  form : loadForm s i = some x
  kind : x.kind = .normal ∨ x.kind = .nol1
  size : x.n ∣ 128
  bundle : s.inBundle = true
  dest : memReg true x.n x.t = true
  address : evenCode x.a = true
  rows : rowsFit s (laneRows x.t (x.n == 8)) = true
  stream : streamEmpty s
  flights : s.mem.flights = []
  faults : (x.accesses s).faults = []
  held : (x.accesses s).s = s
  here : allLocal (x.accesses s).accs
theorem loadReady.lanes {s : State} {i : Instr} {x : LoadForm} (h : loadReady s i x) : (x.accesses s).accs.map (·.lane) = s.bl :=
  (accesses_spec x s).2 h.faults
theorem loadReady.issued_warp {s : State} {i : Instr} {x : LoadForm} (h : loadReady s i x) :
    ((loadIssued s x).warp s.cur.wk).bk = s.cw.bk ∧ ((loadIssued s x).warp s.cur.wk).memq = [] := by
  have hw : (loadIssued s x).warp s.cur.wk =
      loadIssue (issuedOut s x) (issuedOut s x).writes (laneRows x.t (x.n == 8)) s.cur.mask s.cur.pc s.cw := by
    rw [loadIssued, h.held]
    exact updCw_cw (numbered s) _ ((inBundle_iff s).1 h.bundle).1
  obtain ⟨hbk, hq⟩ := loadIssue_keeps (issuedOut s x) (issuedOut s x).writes (laneRows x.t (x.n == 8)) s.cur.mask s.cur.pc s.cw
  rw [hw]
  exact ⟨hbk, hq.trans h.stream.1⟩
/-- THE LOAD'S RESULT holds the bytes that it finds in the state of its issue. -/
theorem loadReady.takes {s : State} {i : Instr} {x : LoadForm} (h : loadReady s i x) (r : Map (List HByte) × State)
    (hr : r = loadGlobal s.cur.wk (s.block s.cw.bk).core (freshId s) x.kind x.n (x.accesses s).accs (loadIssued s x)) :
    ∃ t o, exec i s = .next t ∧ o ∈ t.cw.outs ∧ o.id = freshId s ∧ t.mem = r.2.mem ∧
      o.vals = (x.accesses s).accs.map fun y => (y.lane, loadVal (mGet r.1 [] y.lane)) := by
  obtain ⟨hq, hat, -, hh⟩ := h.stream
  have hside := (accesses_spec x s).1
  have hroom : LoadSrc.room { kind := x.kind, accs := (x.accesses s).accs, size := x.n } (x.accesses s).s = true := by
    have : (x.accesses s).accs.filterMap (·.peer) = [] := List.filterMap_eq_nil_iff.2 fun y hy => (h.here y hy).1
    rw [LoadSrc.room, this]
    rfl
  have hacq : x.kind.acquires = none := by obtain e | e := h.kind <;> rw [e] <;> rfl
  obtain ⟨Y, hb, T1, m, T2, o, hT1, hsrc, ho, hnone, -, hrun⟩ := issueLoad_run x.kind false x.n x.t (x.accesses s) s hside
    h.bundle h.faults h.lanes hq (by rw [h.held]; exact hat) hh hroom
  rw [hacq] at hT1
  obtain ⟨rfl, -⟩ := hnone hacq
  obtain rfl : T1 = loadIssued s x := hT1
  have hblock : ((loadIssued s x).block ((loadIssued s x).warp s.cur.wk).bk).core = (s.block s.cw.bk).core := by
    rw [h.issued_warp.1, loadIssued, h.held]
    rfl
  have hload : (m, T2) = r := by
    rw [hsrc, hr, ← hblock]
    obtain e | e := h.kind <;> rw [e] <;> rfl
  obtain rfl : m = r.1 := congrArg Prod.fst hload
  obtain rfl : T2 = r.2 := congrArg Prod.snd hload
  have hY : memSide s (r.2.setWarps s.warps) := by
    rw [hr]
    exact memSide_setWarps (hside.trans (memSide_setMem _ _)) _ (loadGlobal_side _ _ _ _ _ _ _)
  refine ⟨_, o, (exec_load s i x h.form h.dest h.address h.rows).trans (congrArg Host.Outcome.next hrun), ?_, ?_, rfl, ?_⟩
  · rw [updCw_cw _ _ ((inBundle_iff _).1 (hY.inBundle h.bundle)).1]
    exact loadIssue_outs o _ _ _ _ _
  all_goals rw [ho]; rfl
theorem loadReady.issued_memory {s : State} {i : Instr} {x : LoadForm} (h : loadReady s i x) :
    (loadIssued s x).mem = (numbered s).mem ∧ (loadIssued s x).cores = s.cores := by
  rw [loadIssued, h.held]
  exact ⟨rfl, rfl⟩
/-- A lane's value, where the bytes of its sector are known. -/
theorem loadReady.value {s : State} {i : Instr} {x : LoadForm} (h : loadReady s i x) (core before : Nat) (bs : List HByte) (f : Nat → Byte)
    (y : LaneAcc) (hy : y ∈ (x.accesses s).accs)
    (hf : ∀ p, p / 128 = y.pa / 128 → (bs.getD (p % 128) ⟨0, 0⟩).val = f p) :
    loadVal (pickedBytes (loadIssued s x) s.cur.wk core before x.n bs y) = readVal s core y x.n f := by
  have hal := accesses_aligned x s (h.size.trans (by decide)) y hy
  rw [loadVal_pickedBytes _ _ _ _ _ _ _ f h.issued_warp.2 (h.here y hy).1 fun p hp => hf p (access_sector h.size hal hp),
    readVal, State.coreAt, h.issued_memory.2]
  rfl
theorem loadReady.nodup {s : State} {i : Instr} {x : LoadForm} (h : loadReady s i x) : ((x.accesses s).accs.map (·.lane)).Nodup := by
  rw [h.lanes]
  exact maskLanes_nodup _
theorem loadReady.issued_flights {s : State} {i : Instr} {x : LoadForm} (h : loadReady s i x) : (loadIssued s x).mem.flights = [] := by
  rw [h.issued_memory.1]
  exact h.flights
theorem loadReady.issued_coreAt {s : State} {i : Instr} {x : LoadForm} (h : loadReady s i x) (c : Nat) :
    (loadIssued s x).coreAt c = s.coreAt c := by
  rw [State.coreAt, h.issued_memory.2]
  rfl
/-- A load whose sectors the core has snapshots of. -/
theorem loadReady.takes_snapshots {s : State} {i : Instr} {x : LoadForm} (h : loadReady s i x) (hk : x.kind = .normal) (core : Nat)
    (hc : core = (s.block s.cw.bk).core) (hs : ∀ y ∈ (x.accesses s).accs, (mFind (s.coreAt core).snaps (y.pa / 128)).isSome = true) :
    ∃ t o, exec i s = .next t ∧ o ∈ t.cw.outs ∧ o.id = freshId s ∧ t.mem = (numbered s).mem ∧
      o.vals = (x.accesses s).accs.map fun y => (y.lane, readVal s core y x.n
        fun p => (((mFind (s.coreAt core).snaps (p / 128)).getD []).getD (p % 128) ⟨0, 0⟩).val) := by
  obtain ⟨t, o, hexec, ho, hid, hmem, hvals⟩ := h.takes _ rfl
  obtain ⟨hstate, hbytes⟩ := loadGlobal_snapshots s.cur.wk core (freshId s) x.n _ (loadIssued s x) h.here h.issued_flights h.nodup
    (by rw [h.issued_coreAt]; exact hs)
  rw [← hk, hc] at hstate hbytes
  refine ⟨t, o, hexec, ho, hid, by rw [hmem, hstate, h.issued_memory.1], hvals.trans (List.map_congr_left fun y hy => ?_)⟩
  rw [hbytes y hy, hc]
  refine congrArg (y.lane, ·) (h.value _ _ _ _ y hy fun p hp => ?_)
  rw [snapBytes, h.issued_coreAt, hp]
/-- A load of one sector at its home. -/
theorem loadReady.takes_home {s : State} {i : Instr} {x : LoadForm} (h : loadReady s i x) (core sec : Nat)
    (hc : core = (s.block s.cw.bk).core) (hsec : ∀ y ∈ (x.accesses s).accs, y.pa / 128 = sec) (hk : readsHome s core x.kind sec)
    (ha : ∀ y ∈ (x.accesses s).accs, ∀ z ∈ (x.accesses s).accs, y.attr = z.attr) :
    ∃ t o, exec i s = .next t ∧ o ∈ t.cw.outs ∧ o.id = freshId s ∧
      o.vals = (x.accesses s).accs.map fun y => (y.lane, readVal s core y x.n (s.mem.byteUnder (s.mem.keyOf y.attr.key))) := by
  obtain ⟨t, o, hexec, ho, hid, -, hvals⟩ := h.takes _ rfl
  refine ⟨t, o, hexec, ho, hid, hvals.trans (List.map_congr_left fun y hy => ?_)⟩
  obtain ⟨bs, htaken, hbytes⟩ := loadGlobal_home s.cur.wk core (freshId s) x.kind x.n sec _ (loadIssued s x) h.here h.issued_flights
    h.nodup hsec ha (by rw [readsHome, h.issued_coreAt]; exact hk) y hy
  rw [h.issued_memory.1] at hbytes
  rw [← hc, htaken]
  exact congrArg (y.lane, ·) (h.value core _ bs _ y hy fun p hp => hbytes p (hp.trans (hsec y hy)))
theorem sizeBytes_dvd (sz : Size) : sizeBytes sz ∣ 128 := by cases sz <;> decide
/-- Settles O28: the lanes' values as the load finds them in the state of its issue, in snapshots or at one home. -/
theorem loadsReadPoolSnapshotHome : Obligations.LoadsReadPoolSnapshotHome := by
  unfold Obligations.LoadsReadPoolSnapshotHome
  intro s sw sz q t a off x hx hb ht ha hr he hfl hf hheld hhere
  obtain rfl := Option.some.inj hx
  by_cases hq : q = .nol1
  · subst hq
    have h : loadReady s _ _ := ⟨hx, .inr rfl, sizeBytes_dvd sz, hb, ht, ha, hr, he, hfl, hf, hheld, hhere⟩
    exact ⟨fun hne => absurd rfl hne, fun sec hsec _ hattr => h.takes_home _ sec rfl hsec (.inl rfl) hattr⟩
  · have hk : (if q = .nol1 then .nol1 else .normal : LoadKind) = .normal := if_neg hq
    have h : loadReady s _ _ := ⟨hx, .inl hk, sizeBytes_dvd sz, hb, ht, ha, hr, he, hfl, hf, hheld, hhere⟩
    exact ⟨fun _ hs => h.takes_snapshots hk _ rfl hs,
      fun sec hsec hread hattr => h.takes_home _ sec rfl hsec (.inr ⟨hk, hread.resolve_left hq⟩) hattr⟩

end Sys2Proof.Machine
end

section
/-! Steps of the ordering machine (O38): a store into the pool, a sector out of it, a write at its home, lines that make way. -/
namespace Sys2Proof.Machine

/-! ### What reads as before -/
theorem sameMemory_of_eq {s t : State} (hm : t.mem.byteUnder = s.mem.byteUnder) (hb : t.blocks = s.blocks) : sameMemory s t :=
  ⟨fun k pa => congrFun (congrFun hm k) pa, fun bk q o => by rw [State.block, hb]; rfl⟩
/-- The entries whose keys pass a test. -/
theorem mFind_filter_key {α : Type} (p : Nat → Bool) (m : Map α) (k : Nat) :
    mFind (m.filter fun x => p x.1) k = if p k = true then mFind m k else none := by
  induction m with
  | nil => simp [mFind]
  | cons x t ih =>
    obtain ⟨j, v⟩ := x
    rw [List.filter_cons]
    by_cases hj : j = k
    · subst hj
      by_cases hp : p j = true
      · simp only [hp, if_true, mFind]
      · simp only [hp, ih, if_false, Bool.false_eq_true]
    · split
      · simp only [mFind, if_neg hj, ih]
      · simp only [mFind, if_neg hj, ih]

/-! ### PERFORM_STORE (R219) -/
/-- An operation that stores to global memory and does nothing else. -/
structure MemOp.plainStore (o : MemOp) : Prop where
  fence : o.fence = false
  gate : o.gate = none
  acq : o.acq = none
  roinv : o.roinv = false
  lws : o.lws = []
  load : o.load = none
  nt : o.nt = false
  isLocal : o.isLocal = false
theorem MemOp.plainStore.noRoom {o : MemOp} (h : o.plainStore) (wk : Nat) (s : State) : o.noRoom wk s = false := by
  rw [MemOp.noRoom, h.load]
  rfl
/-- It performs first in its stream, unless an atomic or another warp's operation stands before it. -/
theorem performLate_first (wk : Nat) (o : MemOp) (rest : List MemOp) (s : State) (h : o.plainStore)
    (hq : (s.warp wk).memq = o :: rest) (ha : o.atomAhead wk s = false) (hh : hbHeld s wk o.wid = false) :
    performLate wk o.id s = finishOp wk o s := by
  have hfind : (s.warp wk).memq.find? (fun x => x.id == o.id) = some o := by rw [hq]; simp
  have hahead : (s.warp wk).memq.takeWhile (fun x => x.id != o.id) = [] := by rw [hq]; simp
  have hfree : o.held wk s = false := by
    have hblk : o.blockedBy [] = false := by simp [MemOp.blockedBy]
    rw [MemOp.held, hahead, hblk, ha, hh, h.noRoom]
    rfl
  simp only [performLate, performOp, hfind, hfree, h.load, h.gate, Bool.false_eq_true, if_false]
/-- It waits behind any operation that is not a load. -/
theorem performLate_second (wk : Nat) (p o : MemOp) (rest : List MemOp) (s : State) (h : o.plainStore)
    (hq : (s.warp wk).memq = p :: o :: rest) (hid : p.id ≠ o.id) (hp : p.load = none) : performLate wk o.id s = s := by
  have hfind : (s.warp wk).memq.find? (fun x => x.id == o.id) = some o := by rw [hq]; simp [hid]
  have hahead : (s.warp wk).memq.takeWhile (fun x => x.id != o.id) = [p] := by rw [hq]; simp [hid]
  have hblk : o.blockedBy [p] = true := by
    simp [MemOp.blockedBy, MemOp.pureLoad, h.load, h.fence, h.nt, h.isLocal, hp]
  have hheld : o.held wk s = true := by rw [MemOp.held, hahead, hblk]; rfl
  simp only [performLate, hfind, hheld, if_true]
/-- The store pool with a store's bytes in it. -/
def pooled (ws : List PWrite) (pool : Map PoolByte) : Map PoolByte :=
  ws.foldl (fun m w => mSet m w.key { val := w.val, wid := w.wid, attr := w.attr, peer := w.peer }) pool
/-- A warp whose stream an operation has left. -/
def streamWithout (o : MemOp) (w : Warp) : Warp := { w with memq := w.memq.filter fun x => x.id != o.id }
/-- A STORE PERFORMS INTO ITS CORE'S POOL, where that has room, and leaves its stream (R219). -/
theorem finishOp_pools (wk core : Nat) (o : MemOp) (s : State) (h : o.plainStore) (hc : core = (s.block (s.warp wk).bk).core)
    (hroom : (s.coreAt core).full (o.ws.map fun w => w.key / 128).dedup.length = false) :
    ∃ c, finishOp wk o s = (s.updWarp wk (streamWithout o)).setCores c ∧
      mGet c Core.init core = { s.coreAt core with pool := pooled o.ws (s.coreAt core).pool } := by
  have hfin : finishOp wk o s =
      if o.ws.isEmpty then s.updWarp wk (streamWithout o)
      else poolStore core o.ws (s.updWarp wk (streamWithout o)) := by
    simp only [finishOp, h.acq, h.roinv, h.nt, h.lws, h.load, hc, List.isEmpty_nil, Bool.false_eq_true, if_false, if_true]
    rfl
  cases hws : o.ws with
  | nil =>
    rw [hws] at hfin
    exact ⟨s.cores, hfin, rfl⟩
  | cons w t =>
    have hmake : makeL1Room core (o.ws.map fun w => w.key / 128).dedup.length (s.updWarp wk (streamWithout o)) =
        s.updWarp wk (streamWithout o) := if_neg (by rw [Bool.not_eq_true]; exact hroom)
    rw [hws, List.isEmpty_cons, if_neg Bool.false_ne_true, poolStore, ← hws, hmake] at hfin
    rw [← hws]
    exact ⟨_, hfin, (mGet_mUpd _ _ _ _ _ _).trans (if_pos rfl)⟩

/-! ### EVICT (R219) -/
/-- A core's dirty bytes of some sectors leave it, with the snapshots of the sectors they are in. -/
def sectorsLeft (p : Nat → Bool) (c : Core) : Core :=
  { snapsDropped (poolWrites c fun k => p (k / 128)) c with pool := c.pool.filter fun kb => !p (kb.1 / 128) }
/-- Some writes stand in plain flights of a core, each to its home. -/
def inFlights (core : Nat) (new : List Flight) (w : PWrite) : Prop :=
  ∃ f ∈ new, f.src = core ∧ f.nt = false ∧ w ∈ f.ws ∧ f.home = homeOfWrite w
/-- Writes sent sector by sector. -/
theorem sendSectors_adds (core : Nat) (ws : List PWrite) (secs : List Nat) (s : State) : ∃ new nf,
    secs.foldl (fun s sec => sendWrites core false (ws.filter fun w => w.key / 128 == sec) s) s = flightsAdded s new nf ∧
      ∀ w ∈ ws, w.key / 128 ∈ secs → inFlights core new w := by
  induction secs generalizing s with
  | nil => exact ⟨[], s.mem.nextFid, by rw [flightsAdded, List.append_nil]; rfl, fun _ _ h => absurd h List.not_mem_nil⟩
  | cons sec t ih =>
    obtain ⟨a, nf, ea, hplain, hsent⟩ := sendWrites_adds core false (ws.filter fun w => w.key / 128 == sec) s
    obtain ⟨b, nf', eb, hb⟩ := ih (flightsAdded s a nf)
    refine ⟨a ++ b, nf', by rw [List.foldl_cons, ea, eb, flightsAdded_twice], fun w hw hsec => ?_⟩
    rcases List.mem_cons.1 hsec with he | hsec
    · obtain ⟨f, hf, hhome, hwf⟩ := hsent w (List.mem_filter.2 ⟨hw, by simpa using he⟩)
      exact ⟨f, List.mem_append_left _ hf, (hplain f hf).2.1, (hplain f hf).1, hwf, hhome⟩
    · obtain ⟨f, hf, hr⟩ := hb w hw hsec
      exact ⟨f, List.mem_append_right _ hf, hr⟩
/-- AN EVICTION sends every dirty byte of its sectors to its home and takes it from the core (R219, R223). -/
theorem evictWhere_sends (core : Nat) (p : Nat → Bool) (s : State) : ∃ new nf,
    evictWhere core p s = flightsAdded (s.updCore core (sectorsLeft p)) new nf ∧
      ∀ w ∈ poolWrites (s.coreAt core) fun k => p (k / 128), inFlights core new w := by
  obtain ⟨new, nf, e, h⟩ := sendSectors_adds core (poolWrites (s.coreAt core) fun k => p (k / 128))
    (((poolWrites (s.coreAt core) fun k => p (k / 128)).map fun w => w.key / 128).dedup) (s.updCore core (sectorsLeft p))
  exact ⟨new, nf, e, fun w hw => h w hw (List.mem_dedup.2 (List.mem_map.2 ⟨w, hw, rfl⟩))⟩
/-- The write of a byte of the pool. -/
theorem mem_poolWrites (c : Core) (p : Nat → Bool) (w : PWrite) : w ∈ poolWrites c p ↔ ∃ kb ∈ c.pool, p kb.1 = true ∧
    w = { pa := kb.1 % 2 ^ 52, val := kb.2.val, wid := kb.2.wid, attr := kb.2.attr, peer := kb.2.peer } := by
  simp only [poolWrites, List.mem_map, List.mem_filter, and_assoc, eq_comm (a := w)]
/-- Of a pool whose bytes stand at their own places, one sector leaves: its snapshot goes where the pool has a byte of it. -/
theorem sectorsLeft_snaps (c : Core) (sec x : Nat) (h : ∀ kb ∈ c.pool, pkey kb.2.peer (kb.1 % 2 ^ 52) = kb.1) :
    mFind (sectorsLeft (fun y => y == sec) c).snaps x =
      if x = sec ∧ c.pool.any (fun kb => kb.1 / 128 == sec) = true then none else mFind c.snaps x := by
  have hgone : (((poolWrites c fun k => k / 128 == sec).map fun w => w.key / 128).dedup.contains x = true) ↔
      x = sec ∧ c.pool.any (fun kb => kb.1 / 128 == sec) = true := by
    simp only [List.contains_iff_mem, List.mem_dedup, List.mem_map, mem_poolWrites, List.any_eq_true, beq_iff_eq]
    constructor
    · rintro ⟨w, ⟨kb, hkb, hsec, rfl⟩, rfl⟩
      have hkey : PWrite.key ⟨kb.1 % 2 ^ 52, kb.2.val, kb.2.wid, kb.2.attr, kb.2.peer⟩ = kb.1 := h kb hkb
      rw [hkey]
      exact ⟨hsec, kb, hkb, hsec⟩
    · rintro ⟨rfl, kb, hkb, hsec⟩
      exact ⟨_, ⟨kb, hkb, hsec, rfl⟩, (congrArg (· / 128) (h kb hkb)).trans hsec⟩
  refine (mFind_filter_key (fun k => !((poolWrites c fun k => k / 128 == sec).map fun w => w.key / 128).dedup.contains k) c.snaps x).trans ?_
  by_cases hx : x = sec ∧ c.pool.any (fun kb => kb.1 / 128 == sec) = true
  · rw [if_pos hx, hgone.2 hx]
    rfl
  · rw [if_neg hx, Bool.eq_false_iff.2 fun hc => hx (hgone.1 hc)]
    rfl

/-! ### ARRIVE (R219) -/
theorem recordScope_view (m : Mem) (pa : Nat) (r : RelInfo) (k q : Nat) : (m.recordScope pa r).byteUnder k q = m.byteUnder k q := by
  by_cases hq : pa / 1024 = q / 1024
  · obtain ⟨c, hl⟩ : ∃ c, mFind (m.recordScope pa r).lines (q / 1024) =
        (mFind m.lines (q / 1024)).map fun l => { l with srec := c } := ⟨_, (mFind_mMod _ _ _ _).trans (if_pos hq)⟩
    rw [Mem.byteUnder, Mem.byteUnder, hl]
    cases mFind m.lines (q / 1024) <;> rfl
  · exact byteUnder_ext _ _ k q ((mFind_mMod _ _ _ _).trans (if_neg hq)) rfl fun _ _ _ => rfl
/-- ONE BYTE ARRIVES AT ITS HOME, no later write being there: it is the home's byte, and others read as before (R218). -/
theorem arriveByte_view (m : Mem) (w : PWrite) (h : m.superseded w.pa w.wid = false) : (m.arriveByte w).flights = m.flights ∧
    ∀ k pa, pa / 128 ≠ w.pa / 128 ∨ k = m.keyOf w.attr.key →
      (m.arriveByte w).byteUnder k pa = if pa = w.pa then w.val else m.byteUnder k pa := by
  obtain ⟨⟨hb, sk, ls, ar, e, -⟩, hview, -⟩ := homeWrite_spec m w.attr w.pa w.val w.wid
  rw [Mem.arriveByte, if_neg (by rw [h]; decide)]
  dsimp only
  split
  · refine ⟨?_, fun k pa hk => (recordScope_view _ _ _ _ _).trans (hview k pa hk)⟩
    rw [e]
    rfl
  · exact ⟨by rw [e], hview⟩
/-- An acknowledgement is the host's alone. -/
theorem ackFlight_host (fid : Nat) (s : State) : ∃ h, ackFlight fid s = s.setHost h := by
  rw [ackFlight]
  split
  · exact ⟨s.host, rfl⟩
  · exact ⟨_, rfl⟩
theorem ackFlight_none (fid : Nat) (s : State) (h : ∀ x ∈ s.host.posted, x.1 ≠ fid) : ackFlight fid s = s := by
  have : s.host.posted.find? (fun x => x.1 == fid) = none := List.find?_eq_none.2 fun x hx => by simpa using h x hx
  rw [ackFlight, this]
theorem pickWrite_le (tick n : Nat) : pickWrite tick n ≤ n := by
  induction n with
  | zero => exact Nat.le_refl 0
  | succ n ih =>
    rw [pickWrite]
    split
    · exact Nat.le_refl _
    · exact Nat.le_succ_of_le ih
/-- The flights after the i-th write of one has arrived. -/
def flightsLeft (f : Flight) (i : Nat) (l : List Flight) : List Flight :=
  if f.ws.length = 1 then l.filter fun g => g.fid != f.fid
  else l.map fun g => if g.fid = f.fid then { g with ws := f.ws.eraseIdx i } else g
/-- The i-th write of a flight has arrived at its home. -/
def writeArrived (f : Flight) (i : Nat) (w : PWrite) (s : State) : State :=
  s.setMem (Mem.arriveByte { s.mem with flights := flightsLeft f i s.mem.flights } w)
/-- ONE WRITE OF A FLIGHT ARRIVES at a home here; beside it the host may be told, and a choice is used up. -/
theorem arriveOne_local (f : Flight) (s : State) (hp : f.peer = none) (hne : f.ws ≠ []) (hw : ∀ w ∈ f.ws, w.peer = none) :
    ∃ i w, f.ws[i]? = some w ∧ ((∃ h, arriveOne f s = (writeArrived f i w s).setHost h) ∨ arriveOne f s = (writeArrived f i w s).bump) := by
  obtain ⟨i, hi⟩ : ∃ i, i = pickWrite s.tick (f.ws.length - 1) := ⟨_, rfl⟩
  have hlt : i < f.ws.length := by
    have := pickWrite_le s.tick (f.ws.length - 1)
    have := List.length_pos_iff.2 hne
    omega
  have htake : (f.ws.drop i).take 1 = [f.ws[i]] := by rw [List.drop_eq_getElem_cons hlt]; rfl
  have hrest : (f.ws.eraseIdx i).isEmpty = decide (f.ws.length = 1) := by
    rw [Bool.eq_iff_iff, List.isEmpty_iff_length_eq_zero, List.length_eraseIdx_of_lt hlt, decide_eq_true_eq]
    omega
  have hstep : arriveOne f s = if f.ws.length = 1 then ackFlight f.fid (writeArrived f i f.ws[i] s) else (writeArrived f i f.ws[i] s).bump := by
    simp only [arriveOne, hp, Option.isSome_none, Bool.false_eq_true, if_false, ← hi, hrest, htake, arriveWrites, List.foldl_cons,
      List.foldl_nil, arriveWrite, hw _ (List.getElem_mem hlt), decide_eq_true_eq]
    rfl
  refine ⟨i, f.ws[i], List.getElem?_eq_getElem hlt, ?_⟩
  rw [hstep]
  split
  · exact .inl (ackFlight_host _ _)
  · exact .inr rfl
theorem arriveFlight_peer (f : Flight) (p : Nat) (s : State) (hp : f.peer = some p) (hn : ∀ x ∈ s.host.posted, x.1 ≠ f.fid) :
    arriveFlight f s = reachPeer p f.ws (s.updMem fun m => { m with flights := m.flights.filter fun g => g.fid != f.fid }) := by
  rw [arriveFlight, hp]
  refine ackFlight_none _ _ fun x hx => hn x ?_
  simp only [arriveWrites, reachPeer] at hx
  split at hx <;> exact hx

/-! ### LLC_FILL (R369) -/
theorem mem_waysOf (m : Mem) (way k : Nat) : k ∈ m.waysOf way ↔ (mGet m.ways 0xFFFF way).getLsbD k = true := by
  rw [Mem.waysOf, List.mem_filter, mem_rangeFrom]
  exact ⟨fun h => h.2, fun h => ⟨by have := BitVec.lt_of_getLsbD h; omega, h⟩⟩
/-- The lines that a fill may displace. -/
theorem mem_victims (m : Mem) (way ln victim : Nat) : victim ∈ m.victims way ln ↔ ∃ v, (victim, v) ∈ m.lines ∧ victim ≠ ln ∧
    sameSet victim ln = true ∧ (mGet m.ways 0xFFFF way).getLsbD v.slot = true ∧
    ∀ x ∈ m.lines, x.1 ≠ ln → sameSet x.1 ln = true → (mGet m.ways 0xFFFF way).getLsbD x.2.slot = true →
      polRank v.pol ≤ polRank x.2.pol := by
  have hline : ∀ x, x ∈ ((m.mates ln).filter fun kl => (m.waysOf way).contains kl.2.slot) ↔
      x ∈ m.lines ∧ x.1 ≠ ln ∧ sameSet x.1 ln = true ∧ (mGet m.ways 0xFFFF way).getLsbD x.2.slot = true := by
    intro x
    rw [List.mem_filter, Mem.mates, List.mem_filter, List.contains_iff_mem, mem_waysOf, Bool.and_eq_true, bne_iff_ne, and_assoc,
      and_assoc]
  simp only [Mem.victims, List.mem_map, List.mem_filter (p := fun kl => List.all _ _), hline, List.all_eq_true, decide_eq_true_eq]
  constructor
  · rintro ⟨x, ⟨⟨hx, hne, hset, hway⟩, hpol⟩, rfl⟩
    exact ⟨x.2, hx, hne, hset, hway, fun y hy h1 h2 h3 => hpol y ⟨hy, h1, h2, h3⟩⟩
  · rintro ⟨v, hv, hne, hset, hway, hpol⟩
    exact ⟨(victim, v), ⟨⟨hv, hne, hset, hway⟩, fun y hy => hpol y hy.1 hy.2.1 hy.2.2.1 hy.2.2.2⟩, rfl⟩

/-! ### The clauses of O38 -/
theorem performStore_first (s : State) (wk core : Nat) (o : MemOp) (rest : List MemOp) (hw : (mFind s.warps wk).isSome = true)
    (hc : core = (s.block (s.warp wk).bk).core) (h : o.plainStore) (hq : (s.warp wk).memq = o :: rest)
    (ha : o.atomAhead wk s = false) (hh : hbHeld s wk o.wid = false)
    (hroom : (s.coreAt core).full (o.ws.map fun w => w.key / 128).dedup.length = false) :
    ∃ t, exec (.performStore wk 0) s = .next t ∧ sameMemory s t ∧
      (t.warp wk).memq = rest.filter (fun x => x.id != o.id) ∧ (t.coreAt core).snaps = (s.coreAt core).snaps ∧
      (t.coreAt core).pool = pooled o.ws (s.coreAt core).pool := by
  obtain ⟨c, hfin, hcore⟩ := finishOp_pools wk core o s h hc hroom
  have hexec : exec (.performStore wk 0) s = .next (performLate wk o.id s) := by
    show execPerformStore wk 0 s = _
    rw [execPerformStore, opAt, hq]
    rfl
  rw [performLate_first wk o rest s h hq ha hh, hfin] at hexec
  refine ⟨_, hexec, sameMemory_of_eq rfl rfl, ?_, (congrArg Core.snaps hcore).trans rfl, (congrArg Core.pool hcore).trans rfl⟩
  refine (congrArg Warp.memq (State.updWarp_warp s wk _ hw)).trans ?_
  rw [streamWithout, hq]
  simp
theorem exec_evict (s : State) (core sec : Nat) : ∃ t new, exec (.evict core sec) s = .next t ∧ sameMemory s t ∧
    t.coreAt core = sectorsLeft (fun y => y == sec) (s.coreAt core) ∧ t.mem.flights = s.mem.flights ++ new ∧
    ∀ w ∈ poolWrites (s.coreAt core) fun k => k / 128 == sec, inFlights core new w := by
  obtain ⟨new, nf, e, h⟩ := evictWhere_sends core (fun y => y == sec) s
  refine ⟨_, new, congrArg Host.Outcome.next e, sameMemory_of_eq rfl rfl, ?_, rfl, h⟩
  exact (mGet_mUpd _ _ _ _ _ _).trans (if_pos rfl)
theorem exec_arrive (s : State) (f : Flight) (hf : s.mem.flights.find? (fun g => g.fid == f.fid) = some f)
    (hfirst : flightFirst s f = true) : exec (.arrive f.fid) s = .next (arriveOne f s) := by
  show execArrive f.fid s = _
  simp only [execArrive, hf, hfirst, if_true]
theorem lose_one (m : Mem) (p : Nat) : (mGet (m.lose p 1).peers Peer.init p).lost = (mGet m.peers Peer.init p).lost + 1 := by
  rw [Mem.lose, if_neg (by decide)]
  dsimp only
  rw [mGet_mUpd, if_pos rfl]
/-- A write reaches its home: what its step leaves of the machine. -/
theorem arrive_home (s : State) (f : Flight) (hf : s.mem.flights.find? (fun g => g.fid == f.fid) = some f)
    (hfirst : flightFirst s f = true) (hp : f.peer = none) (hne : f.ws ≠ [])
    (hw : ∀ w ∈ f.ws, w.peer = none ∧ s.mem.superseded w.pa w.wid = false) :
    ∃ t i w, exec (.arrive f.fid) s = .next t ∧ f.ws[i]? = some w ∧ t.mem.flights = flightsLeft f i s.mem.flights ∧
      (∀ k pa, pa / 128 ≠ w.pa / 128 ∨ k = s.mem.keyOf w.attr.key →
        t.mem.byteUnder k pa = if pa = w.pa then w.val else s.mem.byteUnder k pa) ∧
      t.warps = s.warps ∧ t.blocks = s.blocks ∧ t.cores = s.cores := by
  obtain ⟨i, w, hi, hrun⟩ := arriveOne_local f s hp hne fun w h => (hw w h).1
  obtain ⟨hflights, hview⟩ := arriveByte_view { s.mem with flights := flightsLeft f i s.mem.flights } w
    (hw w (List.mem_of_getElem? hi)).2
  refine ⟨_, i, w, exec_arrive s f hf hfirst, hi, ?_⟩
  obtain ⟨h, e⟩ | e := hrun <;> rw [e] <;> exact ⟨hflights, hview, rfl, rfl, rfl⟩
/-- A request reaches its peer, or is lost at one cut off. -/
theorem arrive_peer (s : State) (f : Flight) (p : Nat) (hf : s.mem.flights.find? (fun g => g.fid == f.fid) = some f)
    (hfirst : flightFirst s f = true) (hp : f.peer = some p) (hn : ∀ x ∈ s.host.posted, x.1 ≠ f.fid) :
    ∃ t, exec (.arrive f.fid) s = .next t ∧ t.mem.flights = (s.mem.flights.filter fun g => g.fid != f.fid) ∧ sameMemory s t ∧
      (s.mem.cutOff p = false → t.host.out = s.host.out ++ [.writeToPeer p (f.ws.map fun w => (w.pa, w.val))]) ∧
      (s.mem.cutOff p = true → t.host.out = s.host.out ∧
        (mGet t.mem.peers Peer.init p).lost = (mGet s.mem.peers Peer.init p).lost + 1) := by
  have hone : arriveOne f s = reachPeer p f.ws (s.updMem fun m => { m with flights := m.flights.filter fun g => g.fid != f.fid }) := by
    rw [arriveOne, hp]
    exact arriveFlight_peer f p s hp hn
  refine ⟨_, (exec_arrive s f hf hfirst).trans (congrArg Host.Outcome.next hone), ?_⟩
  have hcut : Mem.cutOff { s.mem with flights := s.mem.flights.filter fun g => g.fid != f.fid } p = s.mem.cutOff p := rfl
  rw [reachPeer, State.updMem_mem, hcut]
  cases s.mem.cutOff p
  · exact ⟨rfl, sameMemory_of_eq rfl rfl, fun _ => rfl, fun h => absurd h Bool.false_ne_true⟩
  · refine ⟨rfl, sameMemory_of_eq rfl rfl, fun h => absurd h.symm Bool.false_ne_true, fun _ => ⟨rfl, ?_⟩⟩
    exact lose_one _ p
/-- A line makes way for a fill that may displace it. -/
theorem llcFill_displaces (s : State) (line victim : Nat) (l v : Line) (hl : mFind s.mem.lines line = some l)
    (hv : mFind s.mem.lines victim = some v) (hne : line ≠ victim) (hset : sameSet victim line = true)
    (hway : (mGet s.mem.ways 0xFFFF l.way).getLsbD v.slot = true)
    (hpol : ∀ x ∈ s.mem.lines, x.1 ≠ line → sameSet x.1 line = true → (mGet s.mem.ways 0xFFFF l.way).getLsbD x.2.slot = true →
      polRank v.pol ≤ polRank x.2.pol) :
    ∃ t, exec (.llcFill line victim) s = .next t ∧ sameMemory s t ∧
      ∀ x, mFind t.mem.lines x = if x = victim then none else mFind s.mem.lines x := by
  have hvic : (s.mem.victims l.way line).contains victim = true :=
    List.contains_iff_mem.2 ((mem_victims _ _ _ _).2 ⟨v, mem_of_mFind _ _ _ hv, hne.symm, hset, hway, hpol⟩)
  have hexec : exec (.llcFill line victim) s = .next (s.updMem fun m => m.dropLine true victim) := by
    show execLlcFill line victim s = _
    simp only [execLlcFill, hl, hvic, if_true]
  obtain ⟨_, _, ls, e, hls⟩ := dropLine_rest s.mem true victim
  refine ⟨_, hexec, ⟨dropLine_view s.mem victim, fun _ _ _ => rfl⟩, fun x => ?_⟩
  rw [State.updMem_mem, e]
  exact hls x
/-- A line in a way that the fill's partition may not fill stays. -/
theorem llcFill_stays (s : State) (line victim : Nat) (l : Line) (hl : mFind s.mem.lines line = some l)
    (h : ∀ x ∈ s.mem.lines, x.1 = victim → (mGet s.mem.ways 0xFFFF l.way).getLsbD x.2.slot = false) :
    exec (.llcFill line victim) s = .next s := by
  have hvic : (s.mem.victims l.way line).contains victim = false := Bool.eq_false_iff.2 fun hc => by
    obtain ⟨v, hv, -, -, hway, -⟩ := (mem_victims _ _ _ _).1 (List.contains_iff_mem.1 hc)
    rw [h _ hv rfl] at hway
    exact absurd hway Bool.false_ne_true
  show execLlcFill line victim s = _
  simp only [execLlcFill, hl, hvic, Bool.false_eq_true, if_false]
/-- Settles O38, step by step. -/
theorem orderingSteps : Obligations.OrderingSteps := by
  unfold Obligations.OrderingSteps
  refine ⟨fun s wk core o rest hw hc hf hg ha hr hl hld hnt hloc => ?_, fun s core sec => ?_, fun s f hf hfirst => ⟨fun hp hne hws => ?_,
    fun p hp hn => arrive_peer s f p hf hfirst hp hn⟩, fun s unit sec => ⟨?_, ?_⟩, fun s line victim l hl =>
    ⟨fun v hv hne hset hway hpol => llcFill_displaces s line victim l v hl hv hne hset hway hpol, llcFill_stays s line victim l hl⟩⟩
  · have h : o.plainStore := ⟨hf, hg, ha, hr, hl, hld, hnt, hloc⟩
    refine ⟨fun hq hat hhb hroom => ?_, fun p hq hid hp => ?_⟩
    · obtain ⟨t, hexec, hmem, hstream, hsnaps, hpool⟩ := performStore_first s wk core o rest hw hc h hq hat hhb hroom
      refine ⟨t, hexec, hmem, hstream, hsnaps, fun k => ?_⟩
      rw [hpool, pooled, mFind_foldl_mSet PWrite.key fun w => ({ val := w.val, wid := w.wid, attr := w.attr, peer := w.peer } : PoolByte)]
      cases o.ws.reverse.find? fun w => w.key == k <;> rfl
    · show execPerformStore wk 1 s = _
      rw [execPerformStore, opAt, hq]
      exact congrArg Host.Outcome.next (performLate_second wk p o rest s h hq hid hp)
  · obtain ⟨t, new, hexec, hmem, hcore, hflights, hsent⟩ := exec_evict s core sec
    refine ⟨t, hexec, hmem, fun k => ?_, fun hplace x => ?_, fun kb hkb hsec => ?_, fun f hf => ?_⟩
    · rw [hcore]
      refine (mFind_filter_key (fun k => !(k / 128 == sec)) _ k).trans ?_
      by_cases hk : k / 128 = sec <;> simp [hk]
    · rw [hcore]
      exact sectorsLeft_snaps _ sec x hplace
    · obtain ⟨f, hf, hsrc, hnt, hw, hhome⟩ := hsent _ ((mem_poolWrites _ _ _).2 ⟨kb, hkb, by simpa using hsec, rfl⟩)
      exact ⟨f, hflights ▸ List.mem_append_right _ hf, hsrc, hnt, _, hw, rfl, rfl, rfl, rfl, hhome⟩
    · exact hflights ▸ List.mem_append_left _ hf
  · exact arrive_home s f hf hfirst hp hne hws
  · refine ⟨s.updCore unit fun c => { c with snaps := mErase c.snaps sec }, rfl, sameMemory_of_eq rfl rfl, ?_, fun x => ?_⟩
    · rw [State.updCore_coreAt, if_pos rfl]
    · rw [State.updCore_coreAt, if_pos rfl, mFind_mErase]
      simp only [eq_comm]
  · refine ⟨s.updQuad unit fun q => { q with roSnaps := mErase q.roSnaps sec }, rfl, sameMemory_of_eq rfl rfl, fun x => ?_⟩
    rw [State.updQuad_quad, if_pos rfl, mFind_mErase]
    simp only [eq_comm]

end Sys2Proof.Machine
end

section
/-! A grid that is killed while one block of it is resident and nothing of it is on its way (O42, O44). -/
namespace Sys2Proof.Machine

/-! ### Tables -/
theorem mErase_mMod {α : Type} (m : Map α) (k : Nat) (f : α → α) : mErase (mMod m k f) k = mErase m k := by
  induction m with
  | nil => rfl
  | cons x t ih =>
    obtain ⟨j, v⟩ := x
    by_cases hj : j = k <;> simp [mMod, mErase, hj, ih]
/-- A change at a key whose value a test leaves out, before and after, leaves what the test picks. -/
theorem filter_mMod {α : Type} (p : α → Bool) (m : Map α) (k : Nat) (f : α → α)
    (h : ∀ v, mFind m k = some v → p v = false ∧ p (f v) = false) :
    (mMod m k f).filter (fun x => p x.2) = m.filter fun x => p x.2 := by
  induction m with
  | nil => rfl
  | cons x t ih =>
    obtain ⟨j, v⟩ := x
    by_cases hj : j = k
    · obtain ⟨h1, h2⟩ := h v (by simp [mFind, hj])
      simp [mMod, hj, h1, h2]
    · have := ih fun w hw => h w (by simp [mFind, hj, hw])
      simp [mMod, hj, List.filter_cons, this]

/-! ### Warps of the block -/
/-- A warp of a block that has no store on its way and runs no task. -/
structure Warp.quietOf (bk : Nat) (w : Warp) : Prop where
  bk : w.bk = bk
  nts : w.ntFids = []
  tasks : ∀ l, (w.lane l).isTask = false
/-- Warps of the block, none of which has a store or an atomic on its way. -/
structure warpsQuiet (bk : Nat) (ks : List Nat) (s : State) : Prop where
  warps : ∀ k ∈ ks, ∃ w, mFind s.warps k = some w ∧ w.quietOf bk
  atoms : ∀ a ∈ s.mem.atoms, a.wk ∉ ks
  flights : s.mem.flights = []
/-- Beside the work on its way only warps of the block have changed. -/
structure workDropped (bk : Nat) (s t : State) : Prop where
  blocks : t.blocks = s.blocks
  cores : t.cores = s.cores
  quads : t.quads = s.quads
  rest : t.launch = s.launch ∧ t.faults = s.faults ∧ t.dies = s.dies
  others : t.warps.filter (fun kw => kw.2.bk != bk) = s.warps.filter fun kw => kw.2.bk != bk
  view : t.mem.byteUnder = s.mem.byteUnder
theorem workDropped.refl (bk : Nat) (s : State) : workDropped bk s s := ⟨rfl, rfl, rfl, ⟨rfl, rfl, rfl⟩, rfl, rfl⟩
theorem workDropped.trans {bk : Nat} {s t u : State} (h : workDropped bk s t) (h' : workDropped bk t u) : workDropped bk s u :=
  ⟨h'.blocks.trans h.blocks, h'.cores.trans h.cores, h'.quads.trans h.quads,
    ⟨h'.rest.1.trans h.rest.1, h'.rest.2.1.trans h.rest.2.1, h'.rest.2.2.trans h.rest.2.2⟩, h'.others.trans h.others, h'.view.trans h.view⟩
/-- One warp of the block changes, and stays quiet; so may the work on its way. -/
theorem quiet_updWarp {bk : Nat} {ks : List Nat} {s : State} (h : warpsQuiet bk ks s) (k : Nat) (hk : k ∈ ks) (f : Warp → Warp)
    (m : Mem) (hf : ∀ w, w.quietOf bk → (f w).quietOf bk) (hv : m.byteUnder = s.mem.byteUnder) (ha : m.atoms = s.mem.atoms)
    (hfl : m.flights = s.mem.flights) :
    workDropped bk s ((s.updWarp k f).setMem m) ∧ warpsQuiet bk ks ((s.updWarp k f).setMem m) := by
  obtain ⟨w, hw, hq⟩ := h.warps k hk
  refine ⟨⟨rfl, rfl, rfl, ⟨rfl, rfl, rfl⟩, filter_mMod (fun w => w.bk != bk) s.warps k f fun v hv => ?_, hv⟩, ⟨fun j hj => ?_, ?_, ?_⟩⟩
  · obtain rfl := Option.some.inj (hw.symm.trans hv)
    simp [hq.bk, (hf _ hq).bk]
  · obtain ⟨v, hv, hqv⟩ := h.warps j hj
    show ∃ w, mFind (s.updWarp k f).warps j = some w ∧ _
    by_cases hkj : k = j
    · exact ⟨f v, by simp [hkj, hv], hf v hqv⟩
    · exact ⟨v, by simp [hkj, hv], hqv⟩
  · show ∀ a ∈ m.atoms, _
    rw [ha]; exact h.atoms
  · exact hfl.trans h.flights
/-- A warp that has no atomic loses the rest of its work, and nothing else. -/
theorem dropWork_quiet {bk : Nat} {ks : List Nat} {s : State} (h : warpsQuiet bk ks s) (k : Nat) (hk : k ∈ ks) :
    workDropped bk s (dropWarpWork k (killAtoms k s)) ∧ warpsQuiet bk ks (dropWarpWork k (killAtoms k s)) := by
  have hmine : (s.mem.atoms.filter fun a => a.wk == k) = [] :=
    List.filter_eq_nil_iff.2 fun a ha hc => h.atoms a ha (by rw [beq_iff_eq] at hc; rwa [hc])
  have hall : (s.mem.atoms.filter fun a => a.wk != k) = s.mem.atoms :=
    List.filter_eq_self.2 fun a ha => by
      rw [bne_iff_ne]; intro e; exact h.atoms a ha (by rwa [e])
  have hka : killAtoms k s = s.updMem fun m => { m with atoms := m.atoms.filter fun a => a.wk != k } := by
    simp only [killAtoms, hmine, List.filter_nil, List.foldl_nil]
  rw [hka]
  exact quiet_updWarp h k hk (fun w => { w with outs := [], memq := [], refill := none }) _
    (fun w hw => ⟨hw.bk, hw.nts, hw.tasks⟩) rfl hall rfl
/-- Steps for the warps of a list, each of which drops work of its warp. -/
theorem foldl_workDropped {bk : Nat} {ks : List Nat} (step : State → Nat → State) (js : List Nat) (s : State)
    (h : warpsQuiet bk ks s) (hjs : ∀ k ∈ js, k ∈ ks)
    (hstep : ∀ u, warpsQuiet bk ks u → ∀ k ∈ ks, workDropped bk u (step u k) ∧ warpsQuiet bk ks (step u k)) :
    workDropped bk s (js.foldl step s) ∧ warpsQuiet bk ks (js.foldl step s) := by
  induction js generalizing s with
  | nil => exact ⟨.refl bk s, h⟩
  | cons k t ih =>
    obtain ⟨h1, h2⟩ := hstep s h k (hjs k (List.mem_cons_self ..))
    obtain ⟨h3, h4⟩ := ih (step s k) h2 fun j hj => hjs j (List.mem_cons_of_mem _ hj)
    exact ⟨h1.trans h3, h4⟩
/-- The lanes of a warp of the block leave; no task ends with them. -/
theorem vacateLanes_quiet {bk : Nat} {ks : List Nat} {s : State} (h : warpsQuiet bk ks s) (k : Nat) (hk : k ∈ ks) (m : Word)
    (mark : Word → FailMark) : workDropped bk s (vacateLanes k m mark s) ∧ warpsQuiet bk ks (vacateLanes k m mark s) := by
  obtain ⟨w, hw, hq⟩ := h.warps k hk
  rw [vacateLanes_plain k m mark s fun l _ _ => by rw [warp_of_mFind hw]; exact hq.tasks l]
  refine quiet_updWarp h k hk (fun w => w.updLanes m fun _ x => x.vacate) s.mem (fun w hw => ⟨hw.bk, hw.nts, fun l => ?_⟩) rfl rfl rfl
  by_cases hl : l < w.lanes.length
  · rw [updLanes_lane _ _ _ _ hl]
    split
    · rfl
    · exact hw.tasks l
  · have hlen : ¬ l < (w.updLanes m fun _ x => x.vacate).lanes.length := by rwa [updLanes_length]
    rw [Warp.lane, List.getD_eq_getElem?_getD, List.getElem?_eq_none (by omega)]; rfl

/-! ### What a block of a killed grid leaves (R248, R257) -/
/-- Nothing that has left the cores has yet to arrive, and no core holds a byte. -/
def nothingFlies (s : State) : Prop := s.mem.flights = [] ∧ ∀ c, (s.coreAt c).pool = []
theorem coreAt_of_cores {s t : State} (h : t.cores = s.cores) (k : Nat) : t.coreAt k = s.coreAt k := by
  simp only [State.coreAt, h]
theorem forceFlights_none (p : Flight → Bool) (s : State) (h : s.mem.flights = []) : forceFlights p s = s := by
  rw [forceFlights, h]; rfl
/-- A core that holds nothing has nothing to release. -/
theorem releaseCore_quiet (core : Nat) (wks : List Nat) (s : State) (h : nothingFlies s) :
    ∃ c, releaseCore core wks s = s.setCores c ∧ nothingFlies (s.setCores c) := by
  obtain ⟨c, e, hc⟩ := releaseBegin_quiet core .p s fun _ => h.2 core
  refine ⟨c, ?_, h.1, fun k => ?_⟩
  · rw [releaseCore, e]
    exact forceFlights_none _ (s.setCores c) h.1
  · rw [← e, hc]; exact h.2 k
/-- The yard of a quad keeps its jobs where the test picks none. -/
theorem removeJobs_none (q : Nat) (p : Job → Bool) (s : State) (h : ∀ j ∈ (s.quad q).jobs, p j = false) : removeJobs q p s = s := by
  have : (s.quad q).jobs.filter p = [] := List.filter_eq_nil_iff.2 fun j hj => by simp [h j hj]
  rw [removeJobs, this]; rfl
/-- No task of the grid or the block stands in a pool. -/
def noTasks (gid bk : Nat) (s : State) : Prop := ∀ kq ∈ s.quads, ∀ x ∈ kq.2.tasks, x.gid ≠ gid ∧ x.bk ≠ bk
/-- A change of a quad that keeps its tasks. -/
theorem noTasks_updQuad (gid bk q : Nat) (f : Quad → Quad) (s : State) (h : noTasks gid bk s) (hf : ∀ x, (f x).tasks = x.tasks) :
    noTasks gid bk (s.updQuad q f) := by
  intro kq hkq x hx
  rcases mem_mSet _ _ _ _ hkq with rfl | hkq
  · rw [hf, mGet] at hx
    cases hq : mFind s.quads q with
    | none => rw [hq] at hx; cases hx
    | some y => rw [hq] at hx; exact h (q, y) (mem_of_mFind _ _ _ hq) x hx
  · exact h kq hkq x hx
/-- No job of the block stands in the yard of a quad. -/
def noJobs (bk q : Nat) (s : State) : Prop := ∀ j ∈ (s.quad q).jobs, j.bk ≠ bk
@[simp] theorem invalidateBanks_mem (q : Nat) (p : LatchBank → Bool) (s : State) : (invalidateBanks q p s).mem = s.mem := rfl
@[simp] theorem invalidateBanks_blocks (q : Nat) (p : LatchBank → Bool) (s : State) : (invalidateBanks q p s).blocks = s.blocks := rfl
@[simp] theorem invalidateBanks_launch (q : Nat) (p : LatchBank → Bool) (s : State) : (invalidateBanks q p s).launch = s.launch := rfl
/-- Latch banks that become invalid leave tasks and jobs. -/
theorem invalidateBanks_keeps (gid bk q k : Nat) (p : LatchBank → Bool) (s : State) (ht : noTasks gid bk s) (hj : noJobs bk k s) :
    noTasks gid bk (invalidateBanks q p s) ∧ noJobs bk k (invalidateBanks q p s) := by
  refine ⟨noTasks_updQuad gid bk q _ s ht fun _ => rfl, ?_⟩
  intro j h
  have e : ((invalidateBanks q p s).quad k).jobs = (s.quad k).jobs := by
    rw [invalidateBanks, State.updQuad_quad]
    split
    · next hq => rw [hq]
    · rfl
  rw [e] at h
  exact hj j h
/-- A block of a grid that can be killed: its channels are empty, nothing of it stands in a yard or flies. -/
structure idleBlock (gid bk : Nat) (b : Block) (s : State) : Prop where
  found : mFind s.blocks bk = some b
  chans : ∀ kc ∈ b.chans, kc.2.cmds = []
  jobs : noJobs bk (quadOf b.core) s
  tasks : noTasks gid bk s
  flies : nothingFlies s
theorem idleBlock.of_eq {gid bk : Nat} {b : Block} {s t : State} (h : idleBlock gid bk b s) (hb : t.blocks = s.blocks)
    (hq : t.quads = s.quads) (hf : nothingFlies t) : idleBlock gid bk b t := by
  refine ⟨hb ▸ h.found, h.chans, ?_, ?_, hf⟩
  · rw [noJobs, State.quad, hq]; exact h.jobs
  · rw [noTasks, hq]; exact h.tasks
/-- What the end of the block's work leaves: the block with its engines stopped, no warp of it, and no byte changed. -/
structure blockKilled (gid bk : Nat) (b : Block) (s t : State) : Prop where
  warps : t.warps = s.warps.filter fun kw => kw.2.bk != bk
  launch : t.launch = s.launch
  faults : t.faults = s.faults
  dies : t.dies = s.dies
  view : t.mem.byteUnder = s.mem.byteUnder
  others : mErase t.blocks bk = mErase s.blocks bk
  quiet : ∃ b', b'.gid = b.gid ∧ idleBlock gid bk b' t
/-- The block whose engines a kill has stopped. -/
def enginesStopped (b : Block) : Block :=
  { b with chans := b.chans.map fun kc => (kc.1, { kc.2 with cmds := kc.2.cmds.filter fun x =>
             x.started && !x.parked && x.delivered % 1024 != 0 }),
           stop := .stopped 0 0 }
/-- A block's engines have stopped, and nothing else has changed. -/
structure jobsKilled (gid bk : Nat) (b : Block) (s t : State) : Prop where
  warps : t.warps = s.warps
  mem : t.mem = s.mem
  rest : t.launch = s.launch ∧ t.faults = s.faults ∧ t.dies = s.dies
  others : mErase t.blocks bk = mErase s.blocks bk
  quiet : idleBlock gid bk (enginesStopped b) t
theorem killJobs_quiet (gid bk : Nat) (b : Block) (s : State) (h : idleBlock gid bk b s) :
    jobsKilled gid bk b s (killJobs bk s) := by
  have hb : s.block bk = b := block_of_mFind h.found
  have e : killJobs bk s = invalidateBanks (quadOf b.core) (fun x => x.bk == bk) (s.updBlock bk enginesStopped) := by
    rw [killJobs, hb]
    refine congrArg (invalidateBanks _ _) (removeJobs_none _ _ _ fun j hj => ?_)
    simp [h.jobs j hj]
  obtain ⟨ht, hj⟩ := invalidateBanks_keeps gid bk (quadOf b.core) (quadOf b.core) (fun x => x.bk == bk)
    (s.updBlock bk enginesStopped) h.tasks h.jobs
  rw [e]
  refine ⟨rfl, rfl, ⟨rfl, rfl, rfl⟩, mErase_mMod _ _ _, ⟨?_, fun kc hkc => ?_, hj, ht, h.flies⟩⟩
  · exact (State.updBlock_find ..).trans (by rw [if_pos rfl, h.found]; rfl)
  · obtain ⟨x, hx, rfl⟩ := List.mem_map.1 hkc
    show x.2.cmds.filter _ = []
    rw [h.chans x hx]; rfl
/-- ONE RESIDENT BLOCK OF A KILLED GRID discards: its warps are gone, and no byte has changed. -/
theorem killBlock_quiet (gid bk : Nat) (b : Block) (s : State) (h : idleBlock gid bk b s)
    (hw : warpsQuiet bk ((s.warps.filter fun kw => kw.2.bk == bk).map (·.1)) s) : blockKilled gid bk b s (killBlock bk s) := by
  generalize hks : (s.warps.filter fun kw => kw.2.bk == bk).map (·.1) = ks at hw
  obtain ⟨d1, q1⟩ := foldl_workDropped (fun s k => dropWarpWork k (killAtoms k s)) ks s hw (fun _ hk => hk)
    fun u hu k hk => dropWork_quiet hu k hk
  generalize h1 : ks.foldl (fun s k => dropWarpWork k (killAtoms k s)) s = s1 at d1 q1
  have f1 : nothingFlies s1 := ⟨q1.flights, fun k => by rw [coreAt_of_cores d1.cores]; exact h.flies.2 k⟩
  obtain ⟨c, e2, f2⟩ := releaseCore_quiet b.core ks s1 f1
  have x3 := killJobs_quiet gid bk b (s1.setCores c) (h.of_eq d1.blocks d1.quads f2)
  generalize h3 : killJobs bk (s1.setCores c) = s3 at x3
  have q3 : warpsQuiet bk ks s3 := ⟨x3.warps ▸ q1.warps, x3.mem ▸ q1.atoms, x3.mem ▸ q1.flights⟩
  obtain ⟨d4, q4⟩ := foldl_workDropped (fun s k => vacateLanes k 0xFFFFFFFF .task s) ks s3 q3 (fun _ hk => hk)
    fun u hu k hk => vacateLanes_quiet hu k hk _ _
  generalize h4 : ks.foldl (fun s k => vacateLanes k 0xFFFFFFFF .task s) s3 = s4 at d4 q4
  have e : killBlock bk s = s4.setWarps (s4.warps.filter fun kw => kw.2.bk != bk) := by
    rw [killBlock, hks, block_of_mFind h.found, h1, e2, h3, h4]
  have ew : s4.warps.filter (fun kw => kw.2.bk != bk) = s.warps.filter fun kw => kw.2.bk != bk := by
    rw [d4.others, x3.warps]; exact d1.others
  have f4 : nothingFlies s4 := ⟨q4.flights, fun k => by rw [coreAt_of_cores d4.cores]; exact x3.quiet.flies.2 k⟩
  have q5 : idleBlock gid bk (enginesStopped b) (s4.setWarps (s.warps.filter fun kw => kw.2.bk != bk)) :=
    x3.quiet.of_eq d4.blocks d4.quads f4
  rw [e, ew]
  exact ⟨rfl, d4.rest.1.trans (x3.rest.1.trans d1.rest.1), d4.rest.2.1.trans (x3.rest.2.1.trans d1.rest.2.1),
    d4.rest.2.2.trans (x3.rest.2.2.trans d1.rest.2.2), d4.view.trans ((congrArg _ x3.mem).trans d1.view),
    (congrArg (mErase · bk) d4.blocks).trans (x3.others.trans (congrArg (mErase · bk) d1.blocks)), enginesStopped b, rfl, q5⟩

/-! ### The end of a block with no warp left (R113, R379) -/
/-- A block has ended: it is gone, and its grid counts it. -/
structure blockEnded (bk gid : Nat) (s t : State) : Prop where
  mem : t.mem = s.mem
  warps : t.warps = s.warps
  blocks : t.blocks = mErase s.blocks bk
  grids : t.launch.grids = mMod s.launch.grids gid fun g => { g with ended := g.ended + 1 }
  faults : t.faults = s.faults
  dies : t.dies = s.dies
theorem updGrid_id (s : State) (gid : Nat) (f : Grid → Grid) (h : ∀ g, f g = g) : s.updGrid gid f = s := by
  obtain rfl : f = fun g => g := funext h
  exact congrArg (fun g => s.setLaunch { s.launch with grids := g }) (mMod_id s.launch.grids gid)
/-- A resident block whose warps are gone leaves its core, and its grid counts it. -/
theorem countRemoved (bk gid : Nat) (s : State) (hw : s.warps.filter (fun kw => kw.2.bk != bk) = s.warps) :
    blockEnded bk gid s (countEnded gid (removeBlock bk s)) := ⟨rfl, hw, rfl, rfl, rfl, rfl⟩
/-- A BLOCK ENDS that has no warp left, no command, no job and no task (R113). -/
theorem blockEnd_ends (gid bk : Nat) (b : Block) (s : State) (h : idleBlock gid bk b s) (hg : b.gid = gid)
    (hw : ∀ kw ∈ s.warps, kw.2.bk ≠ bk) : blockEnded bk gid s (blockEnd bk s) := by
  have hb : s.block bk = b := block_of_mFind h.found
  have hnone : (s.warps.filter fun kw => kw.2.bk == bk) = [] :=
    List.filter_eq_nil_iff.2 fun kw hkw => by simpa using hw kw hkw
  have hall : (s.warps.filter fun kw => kw.2.bk != bk) = s.warps :=
    List.filter_eq_self.2 fun kw hkw => by simpa using hw kw hkw
  have hbusy : b.copyBusy = false := List.any_eq_false.2 fun kc hkc => by simp [h.chans kc hkc]
  have hlive : blockWarps s bk = [] := List.eq_nil_iff_forall_not_mem.2 fun kw hkw =>
    hw kw (mem_blockWarps s bk kw hkw).1 (mem_blockWarps s bk kw hkw).2
  have hjobs : ((s.quad (quadOf b.core)).jobs.any fun j => j.bk == bk) = false :=
    List.any_eq_false.2 fun j hj => by simpa using h.jobs j hj
  have htasks : (s.quads.any fun kq => kq.2.tasks.any fun t => t.bk == bk) = false :=
    List.any_eq_false.2 fun kq hkq => by simpa using fun t ht => (h.tasks kq hkq t ht).2
  obtain ⟨c, ec, -⟩ := releaseBegin_quiet b.core .p s fun _ => h.flies.2 b.core
  have hflush : flushBlock bk s = s.setCores c := by
    rw [flushBlock, hb, hnone]
    simp only [List.map_nil, List.foldl_nil, List.flatMap_nil, ec, List.filter_nil, List.append_nil]
    rw [releaseFids_quiet b.core .p (s.setCores c) fun _ => h.flies.1]
    exact updGrid_id (s.setCores c) b.gid _ fun g => by simp only [List.append_nil]
  have e : blockEnd bk s = countEnded gid (removeBlock bk (invalidateBanks (quadOf b.core) (fun x => x.bk == bk) (flushBlock bk s))) := by
    rw [blockEnd, hb, h.found, hbusy, hlive, hjobs, htasks, hg]; rfl
  rw [e, hflush]
  have := countRemoved bk gid (invalidateBanks (quadOf b.core) (fun x => x.bk == bk) (s.setCores c)) hall
  exact ⟨this.mem, this.warps, this.blocks, this.grids, this.faults, this.dies⟩

/-! ### The grid (R257) -/
/-- A change of a listed grid. -/
theorem State.updGrid_grid (s : State) (k j : Nat) (f : Grid → Grid) (h : (mFind s.launch.grids k).isSome = true) :
    (s.updGrid k f).grid j = if k = j then f (s.grid k) else s.grid j := mGet_mMod _ _ _ _ _ h
/-- Nothing saved of the grid ends with it. -/
theorem killSavedLanes_none (gid : Nat) (s : State) (h : s.launch.saved.filter (fun kv => kv.2.gid == gid) = []) :
    killSavedLanes gid s = s := by rw [killSavedLanes, h]; rfl
/-- The grid's mark: nothing more of it is dispatched. -/
def Grid.markKilled (code : Nat) (g : Grid) : Grid := { g with killed := some code, next := g.blocks }
/-- What the launch unit, the distributor and the fault queue hold of a killed grid is withdrawn. -/
def withdrawGrid (gid : Nat) (s : State) : State :=
  let s1 := s.setQuads (s.quads.map fun kq => (kq.1, { kq.2 with areas := kq.2.areas.map fun ka => (ka.1, killSavedTasks gid ka.2) }))
  let s2 := s1.updLaunch fun l => { l with saved := l.saved.filter fun kv => kv.2.gid != gid }
  withdraw (fun r => r.gid == gid) (s2.setWd { s2.wd with queries := s2.wd.queries.filter fun x => !(x.gid == gid && x.held) })
theorem withdrawGrid_rest (gid : Nat) (s : State) : (withdrawGrid gid s).mem = s.mem ∧ (withdrawGrid gid s).warps = s.warps ∧
    (withdrawGrid gid s).blocks = s.blocks ∧ (withdrawGrid gid s).launch.grids = s.launch.grids ∧ (withdrawGrid gid s).dies = s.dies ∧
    (withdrawGrid gid s).faults = { s.faults with pend := s.faults.pend.filter fun r => r.gid != gid,
                                                  queue := s.faults.queue.filter fun r => r.gid != gid } :=
  ⟨rfl, rfl, rfl, rfl, rfl, rfl⟩
theorem withdrawGrid_quiet (gid bk : Nat) (b : Block) (s : State) (h : idleBlock gid bk b s) :
    idleBlock gid bk b (withdrawGrid gid s) := by
  refine ⟨h.found, h.chans, fun j hj => ?_, fun kq hkq => ?_, h.flies⟩
  · have e : ((withdrawGrid gid s).quad (quadOf b.core)).jobs = (s.quad (quadOf b.core)).jobs := by
      refine (congrArg (fun o => (Option.getD o Quad.init).jobs) (mFind_mapAll s.quads (quadOf b.core) fun q =>
        { q with areas := q.areas.map fun ka => (ka.1, killSavedTasks gid ka.2) })).trans ?_
      rw [State.quad, mGet]
      cases mFind s.quads (quadOf b.core) <;> rfl
    rw [e] at hj
    exact h.jobs j hj
  · obtain ⟨x, hx, rfl⟩ := List.mem_map.1 hkq
    exact h.tasks x hx
/-- A kill of a running grid with one block resident, where no task and no saved context of it is left. -/
theorem killGrid_one (s u : State) (gid bk code : Nat) (b : Block) (hrun : (s.grid gid).gid ≠ 0 ∧ (s.grid gid).done = false ∧ (s.grid gid).killed = none)
    (hbs : (s.blocks.filter fun kb => kb.2.gid == gid) = [(bk, b)])
    (hu : killBlock bk (killColls gid (s.updGrid gid (Grid.markKilled code))) = u) (htasks : ∀ kq ∈ u.quads, ∀ x ∈ kq.2.tasks, x.gid ≠ gid)
    (hsaved : ∀ kv ∈ u.launch.saved, kv.2.gid ≠ gid) : killGrid gid code s = blockEnd bk (withdrawGrid gid u) := by
  have htk : (u.quads.flatMap fun kq => (kq.2.tasks.filter fun t => t.gid == gid).map fun t => (kq.1, t)) = [] :=
    List.flatMap_eq_nil_iff.2 fun kq hkq => by simpa using htasks kq hkq
  have hsv : u.launch.saved.filter (fun kv => kv.2.gid == gid) = [] :=
    List.filter_eq_nil_iff.2 fun kv hkv => by simpa using hsaved kv hkv
  obtain ⟨hgid, hdone, hkilled⟩ := hrun
  rw [killGrid, hdone, hkilled, if_neg (by simp [hgid])]
  extract_lets t1 bks t2 t3 t4 gone t5 wd t6 n t7
  have h0 : bks = [bk] := congrArg (List.map (·.1)) hbs
  have h2 : t2 = u := by rw [← hu]; simp only [t2, h0, List.foldl_cons, List.foldl_nil]; rfl
  have h3 : t3 = u := by simp only [t3, h2, htk, List.foldl_nil]
  have h4 : t4 = t3.setQuads (t3.quads.map fun kq => (kq.1, { kq.2 with areas := kq.2.areas.map fun ka => (ka.1, killSavedTasks gid ka.2) })) :=
    killSavedLanes_none gid _ (by rw [← hsv, ← h3]; rfl)
  have hl : t4.launch.saved.filter (fun kv => kv.2.gid == gid) = [] := by rw [h4, h3]; exact hsv
  have hgone : gone = [] := by simp only [gone, hl, List.map_nil]
  have hn : n = 0 := by simp only [n, hl, List.map_nil, List.sum_nil]
  have hkept : ∀ rs : List (Nat × Option (List Nat)), rs.filter (fun r => !([] : List Nat).contains r.1) = rs := fun rs => by simp
  have h7 : t7 = withdrawGrid gid u := by
    simp only [t7, hn, t6, wd, t5, hgone, hkept, h4, h3]
    rfl
  rw [h0, h7]
  rfl
/-- The warps of a block that can be killed. -/
theorem killQuiet.warpsQuiet {s : State} {gid bk : Nat} (h : killQuiet s gid bk) :
    warpsQuiet bk ((s.warps.filter fun kw => kw.2.bk == bk).map (·.1)) s := by
  obtain ⟨-, -, hn, hws, -, hfl, -⟩ := h
  have hmem : ∀ k ∈ (s.warps.filter fun kw => kw.2.bk == bk).map (·.1), ∃ w, (k, w) ∈ s.warps ∧ w.bk = bk := fun k hk => by
    obtain ⟨kw, hkw, rfl⟩ := List.mem_map.1 hk
    obtain ⟨hm, hb⟩ := List.mem_filter.1 hkw
    exact ⟨kw.2, hm, beq_iff_eq.1 hb⟩
  have hlane : ∀ w : Warp, (∀ x ∈ w.lanes, x.isTask = false) → ∀ l, (w.lane l).isTask = false := fun w h l => by
    rw [Warp.lane, List.getD_eq_getElem?_getD]
    cases hx : w.lanes[l]? with
    | none => rfl
    | some x => exact h x (List.mem_of_getElem? hx)
  refine ⟨fun k hk => ?_, fun a ha hk => ?_, hfl⟩
  · obtain ⟨w, hm, hb⟩ := hmem k hk
    obtain ⟨-, hnt, hta, -⟩ := hws _ hm hb
    exact ⟨w, mFind_eq_of_mem s.warps hn _ hm, hb, hnt, hlane w hta⟩
  · obtain ⟨w, hm, hb⟩ := hmem _ hk
    obtain ⟨-, -, -, hat⟩ := hws _ hm hb
    exact hat a ha rfl
/-- A killed grid with one block resident: the block discards, and what is held of the grid is withdrawn. -/
theorem killGrid_steps (s : State) (gid bk code : Nat) (h : killQuiet s gid bk) : ∃ b u, b.gid = gid ∧
    blockKilled gid bk b (killColls gid (s.updGrid gid (Grid.markKilled code))) u ∧
    killGrid gid code s = blockEnd bk (withdrawGrid gid u) := by
  have hwarps := h.warpsQuiet
  obtain ⟨⟨g, hg, hrun⟩, ⟨b, hb, hbs, hch, hjobs⟩, -, -, hpool, hfl, htasks, hsaved⟩ := h
  have hgrid : s.grid gid = g := by rw [State.grid, mGet, hg]; rfl
  have hbg : b.gid = gid := by
    have : (bk, b) ∈ s.blocks.filter fun kb => kb.2.gid == gid := by rw [hbs]; exact List.mem_singleton_self _
    simpa using (List.mem_filter.1 this).2
  have k := killBlock_quiet gid bk b (killColls gid (s.updGrid gid (Grid.markKilled code))) ⟨hb, hch, hjobs, htasks, hfl, hpool⟩
    ⟨hwarps.warps, hwarps.atoms, hwarps.flights⟩
  obtain ⟨b', -, q⟩ := k.quiet
  exact ⟨b, _, hbg, k, killGrid_one s _ gid bk code b (hgrid ▸ hrun) hbs rfl (fun kq hkq x hx => (q.tasks kq hkq x hx).1)
    fun kv hkv => hsaved kv (by rw [k.launch] at hkv; exact hkv)⟩
/-- A GRID IS KILLED (R257): no task, job or saved context of it is left to end with it. -/
theorem killGrid_quiet (s : State) (gid bk code : Nat) (h : killQuiet s gid bk) : gridKilled gid bk code [] s (killGrid gid code s) := by
  obtain ⟨b, u, hb, k, e⟩ := killGrid_steps s gid bk code h
  obtain ⟨b', hb', q⟩ := k.quiet
  have hgrid : (mFind s.launch.grids gid).isSome = true := by
    obtain ⟨⟨g, hg, -⟩, -⟩ := h
    rw [hg]; rfl
  have hended := blockEnd_ends gid bk b' _ (withdrawGrid_quiet gid bk b' u q) (hb'.trans hb) fun kw hkw => by
    have hkw : kw ∈ u.warps := hkw
    rw [k.warps] at hkw
    simpa using (List.mem_filter.1 hkw).2
  rw [e]
  obtain ⟨wm, ww, wb, wg, wd, wf⟩ := withdrawGrid_rest gid u
  generalize blockEnd bk (withdrawGrid gid u) = t at hended
  have hgrids : t.launch.grids = mMod s.launch.grids gid fun g => { g.markKilled code with ended := g.ended + 1 } := by
    rw [hended.grids, wg, k.launch]
    exact mMod_mMod _ _ _ _
  have hfaults : t.faults = { s.faults with pend := s.faults.pend.filter fun r => r.gid != gid,
                                            queue := s.faults.queue.filter fun r => r.gid != gid } := by
    rw [hended.faults, wf, k.faults]; rfl
  refine ⟨fun kk pa => ?_, ?_, ?_, ?_, fun g hg => ?_, ?_, fun x hx => ?_, fun kd hkd x hx => ?_⟩
  · rw [hended.mem, wm, k.view]; rfl
  · rw [hended.warps, ww, k.warps]; rfl
  · rw [hended.blocks, wb, k.others]; rfl
  · rw [State.grid, hgrids]
    exact (mGet_mMod _ _ _ _ _ hgrid).trans (if_pos rfl)
  · rw [State.grid, hgrids]
    exact (mGet_mMod _ _ _ _ _ hgrid).trans (if_neg (Ne.symm hg))
  · rw [hfaults, List.append_nil]
  · rw [hfaults] at hx
    simpa using (List.mem_filter.1 hx).2
  · rw [hended.dies, wd, k.dies] at hkd
    obtain ⟨y, hy, rfl⟩ := List.mem_map.1 hkd
    simpa using (List.mem_filter.1 hx).2

end Sys2Proof.Machine
end

section
/-! The launch unit's limits (O44). -/
namespace Sys2Proof.Machine

/-- The launch unit's kill posts its record behind those that the kill has left (R255, R256). -/
theorem unitKill_quiet (s : State) (gid bk code : Nat) (h : killQuiet s gid bk) :
    gridKilled gid bk code [engineRecord (BitVec.ofNat 8 code) 0 5 gid 0 0 0 0 .none] s (unitKill gid code s) := by
  obtain ⟨hmem, hwarps, hblocks, hgrid, hgrids, hpend, hqueue, hcolls⟩ := killGrid_quiet s gid bk code h
  refine ⟨hmem, hwarps, hblocks, hgrid, hgrids, ?_, hqueue, hcolls⟩
  show (killGrid gid code s).faults.pend ++ _ = _
  rw [hpend, List.append_nil]

/-- Settles O44: both limits are the launch unit's kill with its record; a reduction changes the one grid. -/
theorem launchUnitLimits : Obligations.LaunchUnitLimits := by
  unfold Obligations.LaunchUnitLimits
  refine ⟨fun s gid bk hdue hq => ⟨_, ?_, unitKill_quiet s gid bk 0x12 hq⟩,
    fun s gid bk hgid hdue hq => ⟨_, ?_, unitKill_quiet s gid bk 0x13 hq⟩, fun s gid v hgrid => ?_⟩
  · exact congrArg Host.Outcome.next (if_pos hdue)
  · exact congrArg Host.Outcome.next (if_pos ⟨hgid, hdue⟩)
  · have hg := fun j => State.updGrid_grid s gid j
      (fun g => if g.budget ≠ 0 ∧ 0 < v ∧ v < g.watchdog then { g with watchdog := v } else g) hgrid
    refine ⟨_, rfl, rfl, ?_, fun g hne => (hg g).trans (if_neg (Ne.symm hne))⟩
    rw [hg gid, if_pos rfl]
    by_cases hc : (s.grid gid).budget ≠ 0 ∧ 0 < v ∧ v < (s.grid gid).watchdog
    · rw [if_pos hc, if_pos hc]
    · rw [if_neg hc, if_neg hc]

end Sys2Proof.Machine
end

section
/-! Firmware's dispositions of a fault record (O42). -/
namespace Sys2Proof.Machine

/-! ### The lanes of a record -/
/-- A lane stands parked at the fault of a record. -/
def parkedOf (s : State) (r : FaultRec) (wk l : Nat) : Prop := r.lanes.getLsbD l = true ∧ ((s.warp wk).lane l).st = .parkedFault
theorem recordLanes_bits (s : State) (r : FaultRec) (wk l : Nat) (hl : l < 32) :
    (recordLanes s r wk).getLsbD l = true ↔ parkedOf s r wk l := by
  have hm : ((s.warp wk).maskOf fun x => x.st == .parkedFault).getLsbD l = true ↔ ((s.warp wk).lane l).st = .parkedFault := by
    have h1 := mem_maskLanes ((s.warp wk).maskOf fun x => x.st == .parkedFault) l
    rw [maskOf_lanes, List.mem_filter, mem_rangeFrom, beq_iff_eq] at h1
    exact ⟨fun h => (h1.2 ⟨hl, h⟩).2, fun h => (h1.1 ⟨⟨by omega, by omega⟩, h⟩).2⟩
  rw [recordLanes, BitVec.getLsbD_and, Bool.and_eq_true, hm, parkedOf]
/-- A change of the lanes of a record, lane by lane. -/
theorem updRecordLanes_lane (s : State) (r : FaultRec) (wk : Nat) (w : Warp) (g : Lane → Lane) (hw : w.lanes.length = 32) (l : Nat)
    (hl : l < 32) : (w.updLanes (recordLanes s r wk) fun _ x => g x).lane l =
      if r.lanes.getLsbD l = true ∧ ((s.warp wk).lane l).st = .parkedFault then g (w.lane l) else w.lane l := by
  rw [updLanes_lane _ _ _ _ (by omega)]
  simp only [recordLanes_bits s r wk l hl, parkedOf]

/-! ### A record that is disposed of -/
/-- A disposition of the record that is due acts on it. -/
theorem disposeOf_due (seq : Nat) (f : FaultRec → State → State) (s : State) (r : FaultRec) (h : dueRecord s seq = some r)
    (hw : r.waiting = false) : disposeOf seq f s = f r s := by
  rw [disposeOf, h]; simp [hw]
/-- Handler acts alike on a record that has waited. -/
theorem disposeOf_handler (seq : Nat) (s : State) (r : FaultRec) (h : dueRecord s seq = some r) :
    disposeOf seq disposeHandler s = disposeHandler r s := by
  simp only [disposeOf, h, ite_self]
theorem recordWarp_lanes {r : FaultRec} {wk : Nat} (h : r.ref = .lanes wk) : recordWarp r = some wk := by rw [recordWarp, h]
/-- The record leaves the queue, and its warp changes. -/
theorem dropRecord_leaves (r : FaultRec) (wk : Nat) (f : Warp → Warp) (s : State) :
    recordLeaves r wk s ((dropRecord r s).updWarp wk f) :=
  ⟨rfl, rfl, rfl, rfl, fun _ hk => (State.updWarp_find ..).trans (if_neg (Ne.symm hk))⟩
/-- RESUME lets the lanes of a record execute again (R242). -/
theorem disposeResume_lanes (r : FaultRec) (wk : Nat) (s : State) (h : r.ref = .lanes wk) :
    disposeResume r s = (dropRecord r s).updWarp wk fun w => w.updLanes (recordLanes s r wk) fun _ x => { x with st := .active } := by
  rw [disposeResume, h]

/-! ### The trap handler (R243) -/
/-- A warp at the entry of its handler: FAULT and FADDR are told, and results outstanding were issued before the entry. -/
def trapBase (r : FaultRec) (m : Word) (w : Warp) : Warp :=
  { w with outs := w.outs.map fun o => { o with kept := o.kept ||| (o.mask &&& m) },
           fault := (r.detail.setWidth 32 <<< 8) ||| r.code.setWidth 32, faddr := r.faddr }
/-- The writes of v87, the address at which each lane enters. -/
def trapWrites (m : Word) (w : Warp) : List RegWrite := (maskLanes m).map fun l => { dest := .lane 87 l, val := (w.lane l).pc.setWidth 32 }
/-- The warp whose lanes enter the handler, but for the lanes. -/
def trapWarp (r : FaultRec) (m : Word) (w : Warp) : Warp := writeAll (trapWrites m w) (trapBase r m w)
theorem mem_trapWrites (m : Word) (w : Warp) (y : RegWrite) (h : y ∈ trapWrites m w) :
    ∃ l < 32, y = { dest := .lane 87 l, val := (w.lane l).pc.setWidth 32 } := by
  obtain ⟨l, hl, rfl⟩ := List.mem_map.1 h
  exact ⟨l, ((mem_maskLanes m l).1 hl).1, rfl⟩
theorem trapWarp_rest (r : FaultRec) (m : Word) (w : Warp) : (trapWarp r m w).lanes = w.lanes ∧
    (trapWarp r m w).fault = (r.detail.setWidth 32 <<< 8) ||| r.code.setWidth 32 ∧ (trapWarp r m w).faddr = r.faddr := by
  refine ⟨writeAll_lanes _ _ fun y hy => ?_, ?_⟩
  · obtain ⟨l, -, rfl⟩ := mem_trapWrites m w y hy
    exact ⟨87, l, rfl⟩
  · rw [trapWarp, writeAll_rest]; exact ⟨rfl, rfl⟩
/-- v87 of a lane that enters takes its address; every other register of a lane keeps its value. -/
theorem trapWarp_reg (r : FaultRec) (m : Word) (w : Warp) (hw : w.lanes.length = 32) (i l : Nat) (hi : i < 88) (hl : l < 32) :
    regAt (trapWarp r m w) (.lane i l) = if i = 87 ∧ m.getLsbD l = true then (w.lane l).pc.setWidth 32 else regAt w (.lane i l) := by
  have hany : (trapWrites m w).any (fun y => y.dest == .lane i l) = true ↔ i = 87 ∧ m.getLsbD l = true := by
    simp only [trapWrites, List.any_map, List.any_eq_true, mem_maskLanes, Function.comp, beq_iff_eq, Dest.lane.injEq]
    exact ⟨fun ⟨x, hx, h1, h2⟩ => ⟨h1.symm, h2 ▸ hx.2⟩, fun ⟨h1, h2⟩ => ⟨l, ⟨hl, h2⟩, h1.symm, rfl⟩⟩
  have h := writeAll_reg (fun _ => some ((w.lane l).pc.setWidth 32)) (trapWrites m w) (trapBase r m w) (.lane i l)
    (fun y hy => ?_) (by simp [destExists, hi, hl]) hw fun y hy hd => ?_
  · simp only [hany] at h
    exact h
  · obtain ⟨k, hk, rfl⟩ := mem_trapWrites m w y hy
    simpa [destExists] using hk
  · obtain ⟨k, -, rfl⟩ := mem_trapWrites m w y hy
    obtain ⟨-, rfl⟩ := Dest.lane.inj hd
    rfl
/-- The warp whose lanes have entered the handler. -/
def enteredWarp (s : State) (r : FaultRec) (wk : Nat) (w : Warp) : Warp :=
  (trapWarp r (recordLanes s r wk) w).updLanes (recordLanes s r wk) fun _ x => enterHandler (s.grid r.gid).handler w.retired x
theorem enterAll_eq (r : FaultRec) (wk : Nat) (s : State) : enterAll r wk (dropRecord r s) = (dropRecord r s).updWarp wk (enteredWarp s r wk) :=
  rfl
/-- THE LANES OF A RECORD ENTER THE HANDLER (R243). -/
theorem enteredWarp_spec (s : State) (r : FaultRec) (wk : Nat) (w : Warp) (hw : s.warp wk = w) (hl : w.lanes.length = 32) :
    (enteredWarp s r wk w).fault = (r.detail.setWidth 32 <<< 8) ||| r.code.setWidth 32 ∧ (enteredWarp s r wk w).faddr = r.faddr ∧
    (∀ l < 32, (enteredWarp s r wk w).lane l = if r.lanes.getLsbD l = true ∧ (w.lane l).st = .parkedFault
      then enterHandler (s.grid r.gid).handler w.retired (w.lane l) else w.lane l) ∧
    ∀ i l, i < 88 → l < 32 → regAt (enteredWarp s r wk w) (.lane i l) =
      if i = 87 ∧ r.lanes.getLsbD l = true ∧ (w.lane l).st = .parkedFault then (w.lane l).pc.setWidth 32 else regAt w (.lane i l) := by
  obtain ⟨h1, h2, h3⟩ := trapWarp_rest r (recordLanes s r wk) w
  have hlen : (trapWarp r (recordLanes s r wk) w).lanes.length = 32 := by rw [h1, hl]
  refine ⟨h2, h3, fun l h32 => ?_, fun i l hi h32 => ?_⟩
  · have h := updRecordLanes_lane s r wk _ (enterHandler (s.grid r.gid).handler w.retired) hlen l h32
    rw [lane_congr h1, hw] at h
    exact h
  · rw [enteredWarp, updLanes_reg _ _ (fun _ x => enterHandler (s.grid r.gid).handler w.retired x) (.lane i l) hlen (fun _ _ => rfl)
        (by simp [destExists, hi, h32]), trapWarp_reg r _ w hl i l hi h32]
    simp only [recordLanes_bits s r wk l h32, parkedOf, hw]
theorem disposeHandler_enters (r : FaultRec) (wk : Nat) (s : State) (h : r.ref = .lanes wk) (ha : handlerAllowed s r = true)
    (hp : (s.warp wk).privileged = false) : disposeHandler r s = enterAll r wk (dropRecord r s) := by
  rw [disposeHandler, recordWarp_lanes h]
  simp [ha, hp]
theorem disposeHandler_waits (r : FaultRec) (wk : Nat) (s : State) (h : r.ref = .lanes wk) (ha : handlerAllowed s r = true)
    (hp : (s.warp wk).privileged = true) : disposeHandler r s = s.setFaults { s.faults with
      queue := s.faults.queue.map fun x => if x.seq = r.seq then { x with waiting := true } else x } := by
  rw [disposeHandler, recordWarp_lanes h]
  simp [ha, hp]

/-! ### Dropped tasks (R315) -/
theorem warpsBecome_rest {P : Warp → Warp → Prop} {ks : List Nat} {s t : State} (h : warpsBecome P ks s t) :
    t.faults = s.faults ∧ t.mem = s.mem ∧ t.blocks = s.blocks ∧ t.launch = s.launch := by
  rw [h.1]; exact ⟨rfl, rfl, rfl, rfl⟩
/-- Releases of one warp, one after another, are one. -/
theorem released_trans {wk : Nat} {s t u : State} (h : warpsBecome released [wk] s t) (h' : warpsBecome released [wk] t u) :
    warpsBecome released [wk] s u := by
  obtain ⟨e1, o1, c1⟩ := h
  obtain ⟨e2, o2, c2⟩ := h'
  refine ⟨by rw [e2, e1]; rfl, fun j hj => (o2 j hj).trans (o1 j hj), fun k hk w hw => ?_⟩
  obtain ⟨v, hv, o, rfl⟩ := c1 k hk w hw
  obtain ⟨x, hx, o', rfl⟩ := c2 k hk _ hv
  exact ⟨_, hx, o', rfl⟩
/-- The warp of a release keeps all but its results. -/
theorem released_warp {wk : Nat} {s t : State} (h : warpsBecome released [wk] s t) (hw : (mFind s.warps wk).isSome = true) :
    (mFind t.warps wk).isSome = true ∧ released (s.warp wk) (t.warp wk) := by
  obtain ⟨w, hf⟩ := Option.isSome_iff_exists.1 hw
  obtain ⟨v, hv, hr⟩ := h.2.2 wk (List.mem_singleton_self wk) w hf
  rw [warp_of_mFind hf, warp_of_mFind hv, hv]
  exact ⟨rfl, hr⟩
/-- Ends of tasks without a join counter, with nothing on its way, are releases. -/
theorem taskEnds_quiet (wk : Nat) (mark : Word → FailMark) (ls : List Nat) (s : State) (hq : releasesQuiet [wk] s)
    (hj : ∀ l ∈ ls, ((s.warp wk).lane l).joinEn = false) :
    warpsBecome released [wk] s (ls.foldl (fun s l => taskEnd wk l mark s) s) := by
  induction ls generalizing s with
  | nil => exact ⟨rfl, fun _ _ => rfl, fun k _ w hw => ⟨w, hw, w.outs, rfl⟩⟩
  | cons l t ih =>
    rw [List.foldl_cons]
    by_cases ht : ((s.warp wk).lane l).isTask = true
    · have e : taskEnd wk l mark s = forceRelease wk .d s := by
        simp [taskEnd, ht, hj l (List.mem_cons_self ..)]
      obtain ⟨b, q⟩ := forceRelease_becomes [wk] .d s hq wk (List.mem_singleton_self wk)
      obtain ⟨-, o, ho⟩ := released_warp b (hq.2.2 wk (List.mem_singleton_self wk)).1
      rw [e]
      refine released_trans b (ih _ q fun k hk => ?_)
      rw [ho]
      exact hj k (List.mem_cons_of_mem _ hk)
    · rw [taskEnd_id wk l mark s (by simpa using ht)]
      exact ih s hq fun k hk => hj k (List.mem_cons_of_mem _ hk)
/-- Lanes whose tasks end so leave; of the warp nothing else changes but its results. -/
theorem vacateLanes_quietTasks (wk : Nat) (m : Word) (mark : Word → FailMark) (s : State) (hq : releasesQuiet [wk] s)
    (hj : ∀ l < 32, ((s.warp wk).lane l).joinEn = false) : ∃ u, warpsBecome released [wk] s u ∧
      vacateLanes wk m mark s = u.updWarp wk fun w => w.updLanes m fun _ x => x.vacate :=
  ⟨_, taskEnds_quiet wk mark (maskLanes m) s hq fun l hl => hj l ((mem_maskLanes m l).1 hl).1, rfl⟩
theorem disposeDrop_lanes (r : FaultRec) (wk : Nat) (s : State) (h : r.ref = .lanes wk) (ha : dropAllowed s r = true) :
    disposeDrop r s = afterLanes wk (vacateLanes wk (recordLanes s r wk) .task (dropRecord r s)) := by
  rw [disposeDrop, recordWarp_lanes h]
  simp [ha]
/-- TASK_DROP ends the tasks of a record's lanes (R315), where other lanes of the warp go on. -/
theorem disposeDrop_quiet (s : State) (r : FaultRec) (wk : Nat) (href : r.ref = .lanes wk) (hw : (mFind s.warps wk).isSome = true)
    (hl : (s.warp wk).lanes.length = 32) (ha : dropAllowed s r = true) (hj : ∀ l < 32, ((s.warp wk).lane l).joinEn = false)
    (hq : releasesQuiet [wk] (dropRecord r s))
    (hother : ∃ l < 32, r.lanes.getLsbD l = false ∧ ((s.warp wk).lane l).st = .active) :
    ∃ u w, disposeDrop r s = u ∧ recordLeaves r wk s u ∧ u.warp wk = joinFree w ∧ w.lanes.length = 32 ∧
      ∀ l < 32, w.lane l = if r.lanes.getLsbD l = true ∧ ((s.warp wk).lane l).st = .parkedFault
        then ((s.warp wk).lane l).vacate else (s.warp wk).lane l := by
  obtain ⟨k, hk, hkr, hkst⟩ := hother
  obtain ⟨u, hu, e⟩ := vacateLanes_quietTasks wk (recordLanes s r wk) .task (dropRecord r s) hq hj
  obtain ⟨hf, o, ho⟩ := released_warp hu hw
  have hf2 : (mFind (u.updWarp wk fun w => w.updLanes (recordLanes s r wk) fun _ x => x.vacate).warps wk).isSome = true := by simp [hf]
  have hw2 := State.updWarp_warp u wk (fun w => w.updLanes (recordLanes s r wk) fun _ x => x.vacate) hf
  have hlanes := updRecordLanes_lane s r wk (u.warp wk) Lane.vacate (by rw [ho]; exact hl)
  have hlane : ∀ l, (u.warp wk).lane l = (s.warp wk).lane l := fun l => by rw [ho]; rfl
  simp only [hlane] at hlanes
  have hk2 := hlanes k hk
  rw [if_neg (by simp [hkr])] at hk2
  rw [disposeDrop_lanes r wk s href ha, e, afterLanes_plain wk _ hf2 (by rw [hw2, updLanes_length, ho]; exact hl) k hk
    (by rw [hw2, hk2, hkst]; decide) (by rw [hw2, hk2, hkst]; decide)]
  obtain ⟨hfaults, hmem, hblocks, hlaunch⟩ := warpsBecome_rest hu
  refine ⟨_, _, rfl, ⟨hfaults, hmem, hblocks, hlaunch, fun j hj => ?_⟩, (State.updWarp_warp _ _ _ hf2).trans (congrArg joinFree hw2),
    by rw [updLanes_length, ho]; exact hl, hlanes⟩
  simp only [State.updWarp_find, if_neg (Ne.symm hj)]
  exact hu.2.1 j (by simpa using hj)

/-- Settles O42, disposition by disposition. -/
theorem faultDispositions : Obligations.FaultDispositions := by
  unfold Obligations.FaultDispositions
  refine ⟨fun s r rest hp => ⟨fun hlen => ?_, fun hlen => ?_⟩, fun s seq wk r hdue href hw hl => ⟨fun hwait ho => ?_, fun ha hp => ?_,
    fun ha hp => ?_, fun hwait ha hj hst hpool hfl hother => ?_⟩, fun s seq bk r hdue hwait hq => ?_⟩
  · show execFaultRecordPost s = _
    rw [execFaultRecordPost, hp]
    exact congrArg Host.Outcome.next (if_pos hlen)
  · show execFaultRecordPost s = _
    rw [execFaultRecordPost, hp]
    exact congrArg Host.Outcome.next (if_neg (by omega))
  · have e : exec (.resume seq) s = .next ((dropRecord r s).updWarp wk fun w => w.updLanes (recordLanes s r wk) fun _ x => { x with st := .active }) := by
      show Host.Outcome.next (disposeOf seq _ s) = _
      rw [disposeOf_due seq _ s r hdue hwait, if_neg ho, disposeResume_lanes r wk s href]
    have hwk := State.updWarp_warp (dropRecord r s) wk (fun w => w.updLanes (recordLanes s r wk) fun _ x => { x with st := .active }) hw
    refine ⟨_, e, dropRecord_leaves r wk _ s, by rw [hwk]; rfl, fun l h32 => ?_⟩
    rw [hwk]
    exact updRecordLanes_lane s r wk (s.warp wk) (fun x => { x with st := .active }) hl l h32
  · have e : exec (.handler seq) s = .next (enterAll r wk (dropRecord r s)) := by
      show Host.Outcome.next (disposeOf seq disposeHandler s) = _
      rw [disposeOf_handler seq s r hdue, disposeHandler_enters r wk s href ha hp]
    have hwk : (enterAll r wk (dropRecord r s)).warp wk = enteredWarp s r wk (s.warp wk) := State.updWarp_warp (dropRecord r s) wk _ hw
    refine ⟨_, e, dropRecord_leaves r wk _ s, ?_⟩
    rw [hwk]
    exact enteredWarp_spec s r wk _ rfl hl
  · show Host.Outcome.next (disposeOf seq disposeHandler s) = _
    rw [disposeOf_handler seq s r hdue, disposeHandler_waits r wk s href ha hp]
  · have hq : releasesQuiet [wk] (dropRecord r s) := ⟨hfl, hpool, fun k hk => by
      rw [List.mem_singleton.1 hk]; exact ⟨hw, hst⟩⟩
    obtain ⟨t, w, e, hleaves, hwk, hlen, hlanes⟩ := disposeDrop_quiet s r wk href hw hl ha hj hq hother
    refine ⟨t, ?_, hleaves, fun l h32 => ⟨fun hs hb => ?_, fun hb hs => ?_⟩⟩
    · show Host.Outcome.next (disposeOf seq disposeDrop s) = _
      rw [disposeOf_due seq _ s r hdue hwait, e]
    · have hl2 := hlanes l h32
      rw [if_pos ⟨hb, hs⟩] at hl2
      rw [hwk, joinFree_lane w hlen l h32 (by rw [hl2]; simp [Lane.vacate]), hl2]
    · have hl2 := hlanes l h32
      rw [if_neg (by simp [hb])] at hl2
      rw [hwk, joinFree_lane w hlen l h32 (by rw [hl2]; exact hs), hl2]
  · have e : exec (.kill seq) s = .next (killGrid r.gid r.code.toNat (dropRecord r s)) := by
      show Host.Outcome.next (disposeOf seq disposeKill s) = _
      rw [disposeOf_due seq _ s r hdue hwait]; rfl
    exact ⟨_, e, killGrid_quiet (dropRecord r s) r.gid bk r.code.toNat hq⟩

end Sys2Proof.Machine
end

section
/-! Pre-emption: blocks that stop, and clusters that are discarded (O43). -/
namespace Sys2Proof.Machine

/-! ### Blocks that stop (R248, R262) -/
/-- Where the resident blocks stand, and of which grids they are. -/
def blockSites (s : State) : List (Nat × Nat) := s.blocks.map fun kb => (kb.2.core, kb.2.gid)
theorem coreDet_sites (s : State) (core : Nat) :
    coreDet s core = (blockSites s).any fun x => x.1 == core && (s.grid x.2).det := by
  rw [coreDet, blockSites, List.any_map]; rfl
/-- Memory, cores and launches stand, and of the blocks one alone has changed, without a move. -/
structure blockAlone (bk : Nat) (s t : State) : Prop where
  mem : t.mem = s.mem
  cores : t.cores = s.cores
  launch : t.launch = s.launch
  sites : blockSites t = blockSites s
  found : (mFind t.blocks bk).isSome = (mFind s.blocks bk).isSome
  others : ∀ k, k ≠ bk → mFind t.blocks k = mFind s.blocks k
theorem blockAlone.trans {bk : Nat} {s t u : State} (h : blockAlone bk s t) (h' : blockAlone bk t u) : blockAlone bk s u :=
  ⟨h'.mem.trans h.mem, h'.cores.trans h.cores, h'.launch.trans h.launch, h'.sites.trans h.sites, h'.found.trans h.found,
    fun k hk => (h'.others k hk).trans (h.others k hk)⟩
/-- Changes outside memory, cores, launches and blocks. -/
theorem blockAlone.of_eq {bk : Nat} {s t : State} (hm : t.mem = s.mem) (hc : t.cores = s.cores) (hl : t.launch = s.launch)
    (hb : t.blocks = s.blocks) : blockAlone bk s t := ⟨hm, hc, hl, by rw [blockSites, hb]; rfl, by rw [hb], fun k _ => by rw [hb]⟩
theorem map_mMod {α β : Type} (m : Map α) (k : Nat) (f : α → α) (g : α → β) (h : ∀ v, g (f v) = g v) :
    (mMod m k f).map (fun x => g x.2) = m.map fun x => g x.2 := by
  induction m with
  | nil => rfl
  | cons x t ih =>
    obtain ⟨j, v⟩ := x
    rw [mMod]
    split
    · simp only [List.map_cons, h]
    · simp only [List.map_cons, ih]
theorem updBlock_alone (bk : Nat) (f : Block → Block) (s : State) (h : ∀ b, (f b).core = b.core ∧ (f b).gid = b.gid) :
    blockAlone bk s (s.updBlock bk f) :=
  ⟨rfl, rfl, rfl, map_mMod s.blocks bk f (fun b => (b.core, b.gid)) fun b => by rw [(h b).1, (h b).2],
    by simp, fun k hk => (State.updBlock_find ..).trans (if_neg (Ne.symm hk))⟩
/-- A change of a block that keeps how far its pre-emption has come. -/
theorem updBlock_stop (bk : Nat) (f : Block → Block) (s : State) (h : ∀ b, (f b).stop = b.stop) :
    ((s.updBlock bk f).block bk).stop = (s.block bk).stop := by
  rw [State.block, mGet, State.updBlock_find, if_pos rfl, State.block, mGet]
  cases mFind s.blocks bk with
  | none => rfl
  | some b => exact h b
/-- One block alone has changed, and its pre-emption has come as far as told. -/
def blockStops (bk : Nat) (st : StopSt) (s t : State) : Prop := blockAlone bk s t ∧ (t.block bk).stop = st
theorem writeHeader_stops (bk ch : Nat) (s : State) : blockStops bk (s.block bk).stop s (writeHeader bk ch s) := by
  refine ⟨updBlock_alone bk _ s fun b => ?_, updBlock_stop bk _ s fun b => ?_⟩
  · dsimp only; split <;> exact ⟨rfl, rfl⟩
  · dsimp only; split <;> rfl
theorem parkHeaders_stops (bk : Nat) (s : State) : blockStops bk (s.block bk).stop s (parkHeaders bk s) := by
  rw [parkHeaders]
  generalize (s.block bk).chans = cs
  induction cs generalizing s with
  | nil => exact ⟨.of_eq rfl rfl rfl rfl, rfl⟩
  | cons kc t ih =>
    rw [List.foldl_cons]
    by_cases hf : kc.2.flags true = kc.2.flags false
    · rw [if_pos hf]; exact ih s
    · rw [if_neg hf]
      obtain ⟨h1, h2⟩ := writeHeader_stops bk kc.1 s
      obtain ⟨h3, h4⟩ := ih (writeHeader bk kc.1 s)
      exact ⟨h1.trans h3, h4.trans h2⟩
/-- Jobs that leave a yard leave the blocks as they are. -/
theorem foldl_removeJob_alone (bk q : Nat) (js : List Job) (s : State) : blockAlone bk s (js.foldl (fun s j => removeJob q j.jid s) s) ∧
    (js.foldl (fun s j => removeJob q j.jid s) s).blocks = s.blocks := by
  induction js generalizing s with
  | nil => exact ⟨.of_eq rfl rfl rfl rfl, rfl⟩
  | cons j t ih =>
    obtain ⟨h1, h2⟩ := ih (removeJob q j.jid s)
    have h0 : blockAlone bk s (removeJob q j.jid s) := .of_eq rfl rfl rfl rfl
    exact ⟨h0.trans h1, h2⟩
/-- A BLOCK STOPS (R248, step 1). -/
theorem stopBlock_stops (bk a p : Nat) (s : State) (h : (mFind s.blocks bk).isSome = true) :
    blockStops bk (.stopped a p) s (stopBlock bk a p s) := by
  unfold stopBlock
  extract_lets q mine s1 s2 s3
  have h1 : blockAlone bk s s1 := updBlock_alone bk _ s fun _ => ⟨rfl, rfl⟩
  have e1 : (s1.block bk).stop = .stopped a p := congrArg Block.stop (State.updBlock_block s bk _ h)
  obtain ⟨h2, hb2⟩ := foldl_removeJob_alone bk q mine s1
  have h3 : blockAlone bk _ s2 := .of_eq (invalidateBanks_mem ..) rfl (invalidateBanks_launch ..) (invalidateBanks_blocks ..)
  have e2 : s2.block bk = s1.block bk := congrArg (fun m => mGet m Block.none bk) hb2
  obtain ⟨h4, e4⟩ := parkHeaders_stops bk s2
  have h5 : blockAlone bk s3 (s3.setWarps (s3.warps.map fun kw => if kw.2.bk = bk then (kw.1, barBoundary true (barBoundary false kw.2)) else kw)) :=
    .of_eq rfl rfl rfl rfl
  exact ⟨(((h1.trans h2).trans h3).trans h4).trans h5, e4.trans ((congrArg Block.stop e2).trans e1)⟩
/-- How a block that is asked to stop stands then (R262). -/
def stopFor (s : State) (bk area parea : Nat) : StopSt :=
  if coreDet s (s.block bk).core then
    .asked area parea (s.schedAt (s.block bk).core 0).cycle.toNat (s.schedAt (s.block bk).core 1).cycle.toNat
  else .stopped area parea
theorem askStop_stops (bk a p : Nat) (s : State) (h : (mFind s.blocks bk).isSome = true) :
    blockStops bk (stopFor s bk a p) s (askStop bk a p s) := by
  rw [askStop, stopFor]
  by_cases hd : coreDet s (s.block bk).core = true
  · simp only [if_pos hd]
    exact ⟨updBlock_alone bk _ s fun _ => ⟨rfl, rfl⟩, by rw [State.updBlock_block _ _ _ h]⟩
  · simp only [if_neg hd]
    exact stopBlock_stops bk a p s h
/-- What another block is asked to does not turn on a block that has been asked. -/
theorem stopFor_alone {j : Nat} {s t : State} (h : blockAlone j s t) (k a p : Nat) (hk : k ≠ j) : stopFor t k a p = stopFor s k a p := by
  have hb : t.block k = s.block k := by rw [State.block, mGet, h.others k hk]; rfl
  have hs : ∀ c i, t.schedAt c i = s.schedAt c i := fun c i => by rw [State.schedAt, coreAt_of_cores h.cores]; rfl
  have hd : ∀ c, coreDet t c = coreDet s c := fun c => by
    rw [coreDet_sites, coreDet_sites, h.sites]
    simp only [State.grid, h.launch]
  rw [stopFor, hb, hd, hs, hs]; rfl
/-- THE BLOCKS OF A LIST ARE ASKED TO STOP, one after another. -/
theorem askStops (p : Nat) (xs : List (Nat × Nat)) (s : State) (hn : (xs.map (·.1)).Nodup)
    (hf : ∀ x ∈ xs, (mFind s.blocks x.1).isSome = true) :
    let t := xs.foldl (fun s x => askStop x.1 x.2 p s) s
    t.mem = s.mem ∧ (∀ x ∈ xs, (t.block x.1).stop = stopFor s x.1 x.2 p) ∧
      ∀ k, k ∉ xs.map (·.1) → mFind t.blocks k = mFind s.blocks k := by
  induction xs generalizing s with
  | nil => exact ⟨rfl, by simp, fun _ _ => rfl⟩
  | cons x l ih =>
    rw [List.map_cons, List.nodup_cons] at hn
    obtain ⟨h1, h2⟩ := askStop_stops x.1 x.2 p s (hf x (List.mem_cons_self ..))
    have hne : ∀ y ∈ l, y.1 ≠ x.1 := fun y hy e => hn.1 (List.mem_map.2 ⟨y, hy, e⟩)
    obtain ⟨m, hs, ho⟩ := ih (askStop x.1 x.2 p s) hn.2 fun y hy => by
      rw [h1.others y.1 (hne y hy)]; exact hf y (List.mem_cons_of_mem _ hy)
    refine ⟨m.trans h1.mem, fun y hy => ?_, fun k hk => ?_⟩
    · rcases List.mem_cons.1 hy with rfl | hy
      · rw [List.foldl_cons, State.block, mGet, ho y.1 hn.1]; exact h2
      · exact (hs y hy).trans (stopFor_alone h1 y.1 y.2 p (hne y hy))
    · rw [List.map_cons, List.mem_cons, not_or] at hk
      exact (ho k hk.2).trans (h1.others k hk.1)

/-! ### Clusters that are discarded (R248) -/
/-- BLOCKS LEAVE their cores with their warps. -/
theorem removeBlocks (ks : List Nat) (s : State) :
    let t := ks.foldl (fun s k => removeBlock k s) s
    (∀ k ∈ ks, mFind t.blocks k = none) ∧ (∀ k, mFind s.blocks k = none → mFind t.blocks k = none) ∧
      ∀ kw ∈ t.warps, kw ∈ s.warps ∧ kw.2.bk ∉ ks := by
  induction ks generalizing s with
  | nil => exact ⟨by simp, fun _ h => h, fun kw h => ⟨h, by simp⟩⟩
  | cons j l ih =>
    obtain ⟨h1, h2, h3⟩ := ih (removeBlock j s)
    have hj : ∀ k, mFind (removeBlock j s).blocks k = if j = k then none else mFind s.blocks k := fun k => mFind_mErase s.blocks j k
    refine ⟨fun k hk => ?_, fun k hk => h2 k (by rw [hj, hk, ite_self]), fun kw hkw => ?_⟩
    · rcases List.mem_cons.1 hk with rfl | hk
      · exact h2 k ((hj k).trans (if_pos rfl))
      · exact h1 k hk
    · obtain ⟨hm, hout⟩ := h3 kw hkw
      obtain ⟨hm, hb⟩ := List.mem_filter.1 hm
      exact ⟨hm, by simp only [List.mem_cons, not_or]; exact ⟨by simpa using hb, hout⟩⟩
/-- The yard's part of a save leaves blocks, warps and saved contexts. -/
theorem saveYard_rest (q part parea : Nat) (s : State) : (saveYard q part parea s).blocks = s.blocks ∧
    (saveYard q part parea s).warps = s.warps ∧ (saveYard q part parea s).launch = s.launch := by
  rw [saveYard]
  split <;> exact ⟨rfl, rfl, rfl⟩
/-- A DISCARDED CLUSTER has left its cores, and its context is saved (R248, steps 3 to 6). -/
theorem discardCluster_spec (bk : Nat) (s : State) :
    (∀ k ∈ clusterBlocks s bk, mFind (discardCluster bk s).blocks k = none) ∧
    (∀ kw ∈ (discardCluster bk s).warps, kw.2.bk ∉ clusterBlocks s bk) ∧
    ∃ sv, mFind (discardCluster bk s).launch.saved s.launch.nextSaved = some sv ∧
      sv.gid = (s.block bk).gid ∧ sv.part = (s.block bk).part ∧ sv.blocks.map (·.bk) = clusterBlocks s bk := by
  generalize ht : discardCluster bk s = t
  unfold discardCluster at ht
  extract_lets bks b s1 sv s2 s3 s4 at ht
  obtain ⟨eb, ew, el⟩ := saveYard_rest sv.quad sv.part b.areas.2 s4
  obtain ⟨h1, -, h3⟩ := removeBlocks bks s2
  rw [← ht, eb, ew, el]
  refine ⟨h1, fun kw hkw => (h3 kw hkw).2, sv, ?_, rfl, rfl, ?_⟩
  · exact (mFind_mSet s3.launch.saved sv.id _ sv).trans (if_pos rfl)
  · show (bks.map _).map _ = bks
    rw [List.map_map]
    exact List.map_id bks

end Sys2Proof.Machine
end

section
/-! Restore: a saved block of a cluster of one becomes resident again (O43). -/
namespace Sys2Proof.Machine

/-! ### What an area says turns on memory alone (R249, R253) -/
theorem areaRead_congr {s t : State} (h : t.mem = s.mem) (pa n : Nat) : areaRead t pa n = areaRead s pa n := by
  rw [areaRead, h]; rfl
theorem savedHead_congr {s t : State} (h : t.mem = s.mem) (sb : SavedBlock) : savedHead t sb = savedHead s sb := areaRead_congr h ..
theorem warpsFrom_congr {s t : State} (h : t.mem = s.mem) (sb : SavedBlock) : warpsFrom t sb = warpsFrom s sb := by
  simp only [warpsFrom, savedHead_congr h, areaRead_congr h]
theorem blockFrom_congr {s t : State} (h : t.mem = s.mem) (hb : t.blocks = s.blocks) (hl : t.launch = s.launch) (sv : Saved)
    (sb : SavedBlock) (core rank : Nat) : blockFrom t sv sb core rank = blockFrom s sv sb core rank := by
  simp only [blockFrom, savedHead_congr h, areaRead_congr h, freeBlockSlot, coreBlocks, hb, hl]

/-! ### The warps of an area -/
/-- A warp with all its lanes, one of which goes on. -/
structure Warp.awake (w : Warp) : Prop where
  length : w.lanes.length = 32
  active : ∃ l < 32, (w.lane l).st = .active
theorem Warp.awake.joinFree {w : Warp} (h : w.awake) : (joinFree w).awake := by
  obtain ⟨l, hl, hs⟩ := h.active
  refine ⟨by simp [Machine.joinFree, h.length], l, hl, ?_⟩
  rw [joinFree_lane w h.length l hl (by rw [hs]; decide), hs]
/-- An area's warps stand at their block's keys, with all their lanes. -/
theorem mem_warpsFrom (s : State) (sb : SavedBlock) (kw : Nat × Warp) (h : kw ∈ warpsFrom s sb) :
    (∃ i < 32, kw.1 = warpKey sb.bk i) ∧ kw.2.lanes.length = 32 := by
  simp only [warpsFrom, List.mem_filterMap] at h
  obtain ⟨i, hi, h⟩ := h
  split at h
  · cases h
  · obtain rfl := Option.some.inj h
    have := (mem_rangeFrom _ _ _).1 hi
    refine ⟨⟨i, by omega, rfl⟩, ?_⟩
    show ((rangeFrom 0 32).map _).length = 32
    rw [List.length_map, rangeFrom_len]
/-- No two of them stand at one key. -/
theorem warpsFrom_inj (s : State) (sb : SavedBlock) (x y : Nat × Warp) (hx : x ∈ warpsFrom s sb) (hy : y ∈ warpsFrom s sb)
    (h : x.1 = y.1) : x.2 = y.2 := by
  simp only [warpsFrom, List.mem_filterMap] at hx hy
  obtain ⟨i, -, hx⟩ := hx
  obtain ⟨j, -, hy⟩ := hy
  split at hx
  · cases hx
  · split at hy
    · cases hy
    · obtain rfl := Option.some.inj hx
      obtain rfl := Option.some.inj hy
      obtain rfl : i = j := by simpa [warpKey] using h
      rfl
/-- The warps of the machine once an area's are back. -/
def warpsBack (s : State) (sb : SavedBlock) : Map Warp := (warpsFrom s sb).foldl (fun m kw => mSet m kw.1 kw.2) s.warps
theorem warpsBack_mem (s : State) (sb : SavedBlock) (kw : Nat × Warp) (h : kw ∈ warpsFrom s sb) :
    mFind (warpsBack s sb) kw.1 = some kw.2 := by
  have hs : ((warpsFrom s sb).reverse.find? fun a => a.1 == kw.1).isSome = true :=
    List.find?_isSome.2 ⟨kw, List.mem_reverse.2 h, beq_self_eq_true _⟩
  obtain ⟨y, hy⟩ := Option.isSome_iff_exists.1 hs
  rw [warpsBack, mFind_foldl_mSet, hy]
  exact congrArg some (warpsFrom_inj s sb y kw (List.mem_reverse.1 (List.mem_of_find?_eq_some hy)) h (by simpa using List.find?_some hy))
theorem warpsBack_other (s : State) (sb : SavedBlock) (k : Nat) (h : ∀ kw ∈ warpsFrom s sb, kw.1 ≠ k) :
    mFind (warpsBack s sb) k = mFind s.warps k := by
  have : ((warpsFrom s sb).reverse.find? fun a => a.1 == k) = none :=
    List.find?_eq_none.2 fun x hx => by simpa using h x (List.mem_reverse.1 hx)
  rw [warpsBack, mFind_foldl_mSet, this]; rfl
/-- What stands at a key of the block is a warp of the area, where nothing stood there before. -/
theorem warpsBack_found (s : State) (sb : SavedBlock) (k : Nat) (w : Warp) (hk : mFind s.warps k = none)
    (h : mFind (warpsBack s sb) k = some w) : (k, w) ∈ warpsFrom s sb := by
  by_contra hc
  have hne : ∀ kw ∈ warpsFrom s sb, kw.1 ≠ k := fun kw hkw e => by
    have h1 := warpsBack_mem s sb kw hkw
    rw [e, h] at h1
    exact hc (by rw [← e, Option.some.inj h1]; exact hkw)
  rw [warpsBack_other s sb k hne, hk] at h
  cases h

/-! ### Steps of a restore that find nothing to do (R253) -/
/-- A channel without a ring and without a parked command. -/
theorem resumeChannel_none (sb : SavedBlock) (h : List Byte) (ch : Nat) (s : State)
    (hp : (fieldAt ((h.drop (0x500 + 32 * ch)).take 32) 12 4).testBit 0 = false) (hr : (s.chan sb.bk ch).log2 = 0) :
    resumeChannel sb h ch s = s := by
  simp only [resumeChannel, hp, hr, Bool.false_eq_true, if_false, if_true]
theorem resumeChannels_none (sb : SavedBlock) (h : List Byte) (chs : List Nat) (s : State)
    (hp : ∀ ch ∈ chs, (fieldAt ((h.drop (0x500 + 32 * ch)).take 32) 12 4).testBit 0 = false)
    (hr : ∀ ch ∈ chs, (s.chan sb.bk ch).log2 = 0) : chs.foldl (fun s ch => resumeChannel sb h ch s) s = s := by
  induction chs with
  | nil => rfl
  | cons c t ih =>
    rw [List.foldl_cons, resumeChannel_none sb h c s (hp c (List.mem_cons_self ..)) (hr c (List.mem_cons_self ..))]
    exact ih (fun ch hc => hp ch (List.mem_cons_of_mem _ hc)) fun ch hc => hr ch (List.mem_cons_of_mem _ hc)
theorem startCatchUp_none (bk : Nat) (h : List Byte) (counts : List (Nat × DWord)) (s : State)
    (hd : (s.grid (s.block bk).gid).det = false) : startCatchUp bk h counts s = s := by
  simp only [startCatchUp, hd, Bool.not_false, if_true]
/-- A table of a function on a range. -/
theorem mFind_rangeMap {α : Type} (f : Nat → α) (a n k : Nat) (hk : k < n) : mFind ((rangeFrom a n).map fun i => (i, f i)) (a + k) = some (f (a + k)) := by
  induction n generalizing a k with
  | zero => omega
  | succ n ih =>
    rw [rangeFrom, List.map_cons, mFind]
    cases k with
    | zero => simp
    | succ k =>
      rw [if_neg (by omega), show a + (k + 1) = a + 1 + k by omega]
      exact ih (a + 1) k (by omega)
/-- JOINs of warps of a list are released, where each goes on (R194). -/
theorem afterLanes_fold (ks : List Nat) (s : State) (hn : ks.Nodup)
    (h : ∀ k ∈ ks, ∃ w, mFind s.warps k = some w ∧ w.awake) :
    warpsBecome (fun w v => v = joinFree w) ks s (ks.foldl (fun s k => afterLanes k s) s) := by
  refine foldl_warpsBecome _ (fun u => ∀ k ∈ ks, ∃ w, mFind u.warps k = some w ∧ w.awake) _ ks s hn h fun u hu k hk => ?_
  obtain ⟨w, hw, ha⟩ := hu k hk
  obtain ⟨l, hl, hs⟩ := ha.active
  have hwk : u.warp k = w := warp_of_mFind hw
  rw [afterLanes_plain k u (by rw [hw]; rfl) (by rw [hwk]; exact ha.length) l hl (by rw [hwk, hs]; decide) (by rw [hwk, hs]; decide)]
  refine ⟨warpsBecome_upd _ k joinFree u.cores u fun _ => rfl, fun j hj => ?_⟩
  obtain ⟨v, hv, hav⟩ := hu j hj
  by_cases hkj : k = j
  · exact ⟨joinFree v, by simp [hkj, hv], hav.joinFree⟩
  · exact ⟨v, by simp [hkj, hv], hav⟩
/-- The rest of a restore, of a block whose area shows no command, card or collective (R253, steps 2 to 6). -/
theorem resumeBlock_plain (s x : State) (sv : Saved) (sb : SavedBlock) (core : Nat) (hp : plainArea s sb) (hm : x.mem = s.mem)
    (hb : x.block sb.bk = blockFrom s sv sb core 0) (hd : (x.grid sv.gid).det = false) :
    ∃ c q, resumeBlock sb x = (warpsWhere x sb.bk fun _ => true).foldl (fun s i => afterLanes (warpKey sb.bk i) s) ((x.setQuads q).setCores c) := by
  obtain ⟨hch, hcards, hcolls⟩ := hp
  have hhead := savedHead_congr hm sb
  have hchan : ∀ ch ∈ rangeFrom 0 8, (x.chan sb.bk ch).log2 = 0 := fun ch hc => by
    have hlt := (mem_rangeFrom _ _ _).1 hc
    have hf := mFind_rangeMap (fun i => chanFrom (savedHead s sb) i) 0 8 ch (by omega)
    rw [Nat.zero_add] at hf
    have : mGet (blockFrom s sv sb core 0).chans Chan.init ch = chanFrom (savedHead s sb) ch := by
      show mGet ((rangeFrom 0 8).map fun ch => (ch, chanFrom (savedHead s sb) ch)) Chan.init ch = _
      rw [mGet, hf]; rfl
    rw [State.chan, hb, this]
    exact (hch ch (by omega)).2
  unfold resumeBlock
  extract_lets h b q s1 s2 at_ s3 live counts
  have e1 : s1 = x := resumeChannels_none sb h _ x (fun ch hc => by
    have hlt := (mem_rangeFrom _ _ _).1 hc
    show (fieldAt (((savedHead x sb).drop _).take 32) 12 4).testBit 0 = false
    rw [hhead]; exact (hch ch (by omega)).1) hchan
  have ec : b.cards = [] := by
    have hcb : (blockFrom s sv sb core 0).cards = savedCards (savedHead s sb) sb.addrs := by simp only [blockFrom]
    show (x.block sb.bk).cards = []
    rw [hb, hcb, hcards]
  have e2 : s2 = invalidateBanks q (fun _ => true) x := by
    show invalidateBanks q _ (arriveCards sb.bk b.cards s1) = _
    rw [ec, e1]; rfl
  have en : fieldAt (areaRead s2 at_ 4) 0 4 = 0 := by
    have : s2.mem = s.mem := by rw [e2]; exact hm
    rw [areaRead_congr this]
    show fieldAt (areaRead s (sb.area + partOff (savedHead x sb) 6) 4) 0 4 = 0
    rw [hhead]; exact hcolls
  have e3 : s3 = invalidateBanks q (fun _ => true) x := by
    show (collsFrom s2 (fieldAt (areaRead s2 at_ 4) 0 4) (at_ + 64)).foldl _ s2 = _
    rw [en, e2]; rfl
  have ed : ∀ u : State, u.launch = x.launch → u.blocks = x.blocks → startCatchUp sb.bk h counts u = u := fun u hl hbl =>
    startCatchUp_none sb.bk h counts u (by
      have e : (u.block sb.bk).gid = sv.gid := by rw [State.block, hbl]; exact congrArg Block.gid hb
      rw [e, State.grid, hl]; exact hd)
  have el : live = warpsWhere x sb.bk fun _ => true := by
    show warpsWhere s3 sb.bk _ = _
    rw [e3]; rfl
  rw [ed _ (by rw [e3]; rfl) (by rw [e3]; rfl), el, e3]
  exact ⟨(acquireDrop b.core .d x).cores, (invalidateBanks q (fun _ => true) x).quads, rfl⟩
/-- A LOADED BLOCK stands where it was placed, with the warps of its area (R253, step 1). -/
theorem loadBlock_rest (sv : Saved) (sb : SavedBlock) (core rank : Nat) (s : State) :
    (loadBlock sv sb core rank s).mem = s.mem ∧
    (loadBlock sv sb core rank s).blocks = mSet s.blocks sb.bk (blockFrom s sv sb core rank) ∧
    (loadBlock sv sb core rank s).warps = warpsBack s sb ∧ (loadBlock sv sb core rank s).launch.saved = s.launch.saved ∧
    (loadBlock sv sb core rank s).launch.grids = s.launch.grids := by
  simp only [loadBlock, State.updLaunch_mem, State.updLaunch_blocks, State.updLaunch_warps, State.updLaunch_launch,
    State.setWarps_mem, State.setWarps_blocks, State.setWarps_warps, State.setWarps_launch, State.setBlocks_mem,
    State.setBlocks_blocks, State.setBlocks_warps, State.setBlocks_launch, warpsBack, and_self]
/-- The state of a cluster of one whose block has been loaded (R253, step 1). -/
theorem restoreCluster_one (s : State) (sv : Saved) (sb : SavedBlock) (core : Nat) (hsv : sv.blocks = [sb]) (hr : sb.rank = 0)
    (hy : mFind (s.quad sv.quad).areas sv.part = none) : ∃ x, restoreCluster sv [core] s = resumeBlock sb x ∧
      x.mem = s.mem ∧ x.blocks = mSet s.blocks sb.bk (blockFrom s sv sb core 0) ∧ x.warps = warpsBack s sb ∧
      x.launch.saved = mErase s.launch.saved sv.id ∧ x.launch.grids = s.launch.grids := by
  unfold restoreCluster
  extract_lets q s0 c s1 s2 s3
  have e0 : s0 = forgetJobs (sv.blocks.map (·.bk)) s := by
    show forgetJobs _ (restoreYard sv.quad sv.part q s) = _
    rw [restoreYard, hy]
  have e2 : s2 = loadBlock sv sb core 0 s1 := by
    show (sv.blocks.zip [core]).foldl _ s1 = _
    rw [hsv, ← hr]; rfl
  have m1 : s1.mem = s.mem ∧ s1.blocks = s.blocks ∧ s1.launch = s.launch ∧ s1.warps = s.warps := by
    show s0.mem = _ ∧ s0.blocks = _ ∧ s0.launch = _ ∧ s0.warps = _
    rw [e0]; exact ⟨rfl, rfl, rfl, rfl⟩
  obtain ⟨mm, mb, ml, mw⟩ := m1
  have efold : ∀ y, sv.blocks.foldl (fun s sb => resumeBlock sb s) y = resumeBlock sb y := fun y => by
    rw [hsv, List.foldl_cons, List.foldl_nil]
  refine ⟨s3, efold s3, ?_⟩
  show s2.mem = _ ∧ s2.blocks = _ ∧ s2.warps = _ ∧ mErase s2.launch.saved sv.id = _ ∧ s2.launch.grids = _
  obtain ⟨lm, lb, lw, ls, lg⟩ := loadBlock_rest sv sb core 0 s1
  have hback : warpsBack s1 sb = warpsBack s sb := by rw [warpsBack, warpsFrom_congr mm, mw, warpsBack]
  rw [e2, lm, lb, lw, ls, lg, blockFrom_congr mm mb ml, mb, ml, hback]
  exact ⟨mm, rfl, rfl, rfl, rfl⟩
/-- A SAVED BLOCK IS RESTORED: its warps are back, and their JOINs that may go on do. -/
theorem restoreCluster_spec (s : State) (sv : Saved) (sb : SavedBlock) (core : Nat) (hsv : sv.blocks = [sb]) (hr : sb.rank = 0)
    (hy : mFind (s.quad sv.quad).areas sv.part = none) (hd : (s.grid sv.gid).det = false) (hp : plainArea s sb)
    (hfree : ∀ i < 32, mFind s.warps (warpKey sb.bk i) = none)
    (hact : ∀ kw ∈ warpsFrom s sb, ∃ l < 32, (kw.2.lane l).st = .active) :
    let t := restoreCluster sv [core] s
    t.mem = s.mem ∧ mFind t.launch.saved sv.id = none ∧ t.blocks = mSet s.blocks sb.bk (blockFrom s sv sb core 0) ∧
      (∀ kw ∈ warpsFrom s sb, t.warp kw.1 = kw.2 ∨ t.warp kw.1 = joinFree kw.2) ∧
      ∀ k, (∀ i < 32, k ≠ warpKey sb.bk i) → mFind t.warps k = mFind s.warps k := by
  obtain ⟨x, e, xm, xb, xw, xs, xg⟩ := restoreCluster_one s sv sb core hsv hr hy
  have hxb : x.block sb.bk = blockFrom s sv sb core 0 := by
    rw [State.block, xb]; exact (mGet_mSet ..).trans (if_pos rfl)
  obtain ⟨c, q, e'⟩ := resumeBlock_plain s x sv sb core hp xm hxb (by rw [State.grid, xg]; exact hd)
  have hks : ((warpsWhere x sb.bk fun _ => true).map (warpKey sb.bk)).Nodup :=
    ((range_nodup 0 32).filter _).map fun i j h => by simpa [warpKey] using h
  generalize hk : (warpsWhere x sb.bk fun _ => true).map (warpKey sb.bk) = ks at hks
  have hin : ∀ k ∈ ks, (∃ i < 32, k = warpKey sb.bk i) ∧ ∃ w, mFind x.warps k = some w ∧ w.awake := fun k hkk => by
    rw [← hk] at hkk
    obtain ⟨i, hi, rfl⟩ := List.mem_map.1 hkk
    obtain ⟨hi, hl⟩ := List.mem_filter.1 hi
    have hlt := (mem_rangeFrom _ _ _).1 hi
    cases hf : mFind x.warps (warpKey sb.bk i) with
    | none => rw [liveWarp, hf] at hl; cases hl
    | some w =>
      rw [xw] at hf
      have hmem := warpsBack_found s sb _ w (hfree i (by omega)) hf
      exact ⟨⟨i, by omega, rfl⟩, w, rfl, (mem_warpsFrom s sb _ hmem).2, hact _ hmem⟩
  obtain ⟨r, o, f⟩ := afterLanes_fold ks ((x.setQuads q).setCores c) hks fun k hkk => (hin k hkk).2
  have ht : restoreCluster sv [core] s = ks.foldl (fun s k => afterLanes k s) ((x.setQuads q).setCores c) := by
    rw [e, e', ← hk, List.foldl_map]
  rw [← ht] at r o f
  generalize restoreCluster sv [core] s = t at r o f
  refine ⟨?_, ?_, ?_, fun kw hkw => ?_, fun k hne => ?_⟩
  · rw [r]; exact xm
  · rw [r]
    show mFind x.launch.saved sv.id = none
    rw [xs]; exact (mFind_mErase ..).trans (if_pos rfl)
  · rw [r]; exact xb
  · have hback := warpsBack_mem s sb kw hkw
    rw [← xw] at hback
    by_cases hkk : kw.1 ∈ ks
    · obtain ⟨v, hv, rfl⟩ := f kw.1 hkk kw.2 hback
      exact .inr (warp_of_mFind hv)
    · exact .inl (warp_of_mFind ((o kw.1 hkk).trans hback))
  · have hkk : k ∉ ks := fun h => by
      obtain ⟨⟨i, hi, e⟩, -⟩ := hin k h
      exact hne i hi e
    refine (o k hkk).trans ?_
    show mFind x.warps k = _
    rw [xw]
    exact warpsBack_other s sb k fun kw hkw e => by
      obtain ⟨⟨i, hi, e2⟩, -⟩ := mem_warpsFrom s sb kw hkw
      exact hne i hi (e.symm.trans e2)

/-- Settles O43, step by step. -/
theorem preemptionAndRestore : Obligations.PreemptionAndRestore := by
  unfold Obligations.PreemptionAndRestore
  refine ⟨fun s bk areas parea hc hn hf => ?_, fun s bk a p c0 c1 hf hs => ⟨fun hd => ?_, fun h0 h1 => ?_⟩, fun s bk hin hq => ?_,
    fun s id sv cores hsv hid hres => ⟨fun hpl => ?_, fun sb core hsb hr hpl hy hd hp hfree hact => ?_⟩⟩
  · have hlen : (clusterBlocks s bk).length = areas.length := by
      simp only [canPreempt, Bool.and_eq_true, beq_iff_eq] at hc
      exact hc.1.1.2
    have hfst : ((clusterBlocks s bk).zip areas).map (·.1) = clusterBlocks s bk := List.map_fst_zip (by omega)
    obtain ⟨hm, hst, ho⟩ := askStops parea ((clusterBlocks s bk).zip areas) s (by rw [hfst]; exact hn) fun x hx =>
      hf x.1 (List.of_mem_zip hx).1
    exact ⟨_, congrArg Host.Outcome.next (if_pos hc), hm, hst, fun k hk => ho k (by rw [hfst]; exact hk)⟩
  · have hover : stopOverdue s (s.block bk) = some (a, p) := by rw [stopOverdue, hs]; exact if_pos hd
    obtain ⟨h1, h2⟩ := stopBlock_stops bk a p s hf
    refine ⟨stopBlock bk a p s, ?_, h1.mem, h2⟩
    show execPreemptTurnTimeout bk s = _
    rw [execPreemptTurnTimeout, hover]
  · have hover : stopOverdue s (s.block bk) = none := by rw [stopOverdue, hs]; exact if_neg (by omega)
    show execPreemptTurnTimeout bk s = _
    rw [execPreemptTurnTimeout, hover]
  · obtain ⟨h1, h2, sv, h3, h4, h5, h6⟩ := discardCluster_spec bk s
    have hgo : ((clusterBlocks s bk).contains bk && (clusterBlocks s bk).all (blockQuiet s)) = true := by
      rw [Bool.and_eq_true, List.contains_iff_mem, List.all_eq_true]; exact ⟨hin, hq⟩
    exact ⟨_, sv, congrArg Host.Outcome.next (if_pos hgo), h1, h2, h3, h4, h5, h6⟩
  · show execRestore id cores s = _
    simp only [execRestore, hsv, hres, hpl]
  · obtain ⟨hm, hsaved, hblocks, hwarps, hothers⟩ := restoreCluster_spec s sv sb core hsb hr hy hd hp hfree hact
    have hset : ∀ k, mFind (restoreCluster sv [core] s).blocks k = if sb.bk = k then some (blockFrom s sv sb core 0) else mFind s.blocks k :=
      fun k => by rw [hblocks, mFind_mSet]
    refine ⟨restoreCluster sv [core] s, ?_, hm, by rw [← hid]; exact hsaved, block_of_mFind ((hset sb.bk).trans (if_pos rfl)),
      fun k hk => (hset k).trans (if_neg (Ne.symm hk)), fun kw hkw => ?_, hothers⟩
    · show execRestore id cores s = _
      simp only [execRestore, hsv, hres, hpl]
    · rcases hwarps kw hkw with e | e
      · rw [e]; exact ⟨rfl, rfl, rfl, fun _ _ _ => rfl⟩
      · rw [e]
        exact ⟨rfl, rfl, rfl, fun l hl hs => joinFree_lane kw.2 (mem_warpsFrom s sb kw hkw).2 l hl hs⟩

end Sys2Proof.Machine
end

section
/-! The copy engine's instructions: CPWP, CPWAIT and CPSTAT (O34). -/
namespace Sys2Proof.Machine

/-! ### One value of the bundle (R49, R123) -/
theorem uniCode_iff (d : Reg) : uniCode d = true ↔ 92 ≤ d.toNat ∧ d.toNat ≤ 124 := by
  rw [uniCode, Bool.and_eq_true, decide_eq_true_eq, decide_eq_true_eq]
/-- A uniform destination is a warp register, z, or a register of a wider scope. -/
theorem uniCode_warpOrZ (d : Reg) (hu : uniCode d = true) (hd : d.toNat < 108 ∨ d = 124) :
    92 ≤ d.toNat ∧ d.toNat < 108 ∨ d = 124 :=
  hd.imp_left fun hd => ⟨((uniCode_iff d).1 hu).1, hd⟩
theorem uniCode_scoped (d : Reg) (hu : uniCode d = true) (hz : d ≠ 124) : d.toNat < 124 :=
  lt_of_le_of_ne ((uniCode_iff d).1 hu).2 fun e => hz (BitVec.eq_of_toNat_eq e)
/-- An outstanding uniform result for a block, cluster or grid register is compared when it returns. -/
theorem outUniform_compare (d : Reg) (pair : Bool) (v : DWord) (s : State) (h : s.inBundle = true)
    (hp : pair = true → d.toNat % 2 = 0) (hd : 108 ≤ d.toNat) (hd' : d.toNat < 124) :
    compareDue d pair [(lowLane s.cur.mask, v)] 0 s
      (outResult .plain false d pair [(lowLane s.cur.mask, v)] (Out.blank (freshId s) s.cur.mask d pair) s) := by
  obtain ⟨-, -, -, hm⟩ := (inBundle_iff s).1 h
  have hw : (!false && decide (92 ≤ d.toNat) && decide (d.toNat < 108)) = false := by
    rw [decide_eq_false (by omega : ¬ d.toNat < 108), Bool.and_false]
  rw [outResult, if_neg (by omega), if_neg (by omega), hw, if_neg Bool.false_ne_true]
  refine compare_due { Out.blank (freshId s) s.cur.mask d pair with
    writes := (dueWrites d pair [(lowLane s.cur.mask, v)]).getD [], vals := [(lowLane s.cur.mask, v)], agree := true, fin := .plain }
    s h rfl (fun x hx => ?_) (by omega : 88 ≤ d.toNat) hp rfl rfl rfl rfl rfl
  rw [List.mem_singleton.1 hx]
  exact (lowLane_mem _ hm).2
/-- AN OUTSTANDING UNIFORM RESULT, for every uniform destination. -/
theorem outUniform_result (d : Reg) (pair : Bool) (v : DWord) (s : State) (h : s.inBundle = true) (hu : uniCode d = true)
    (hp : pair = true → d.toNat % 2 = 0) :
    let t := outResult .plain false d pair [(lowLane s.cur.mask, v)] (Out.blank (freshId s) s.cur.mask d pair) s
    (d.toNat < 108 ∨ d = 124 → resultDue (resultDest d pair s.cur.mask fun _ => v) [] 0 s t) ∧
      (108 ≤ d.toNat → d ≠ 124 → compareDue d pair [(lowLane s.cur.mask, v)] 0 s t) :=
  ⟨fun hd => outUniform_due d pair v s h hp (uniCode_warpOrZ d hu hd),
    fun hd hz => outUniform_compare d pair v s h hp hd (uniCode_scoped d hu hz)⟩
/-- One word of the bundle, written at once: to a warp register or z, to a block register's bank that takes it, or on its way
to a cluster or grid register. -/
theorem writeUniform_result (d : Reg) (x : Word) (s : State) (h : s.inBundle = true) (hu : uniCode d = true) :
    let t := writeNowResult .plain d false [(lowLane s.cur.mask, z64 x)] 0 s
    (d.toNat < 108 ∨ d = 124 → resultNow d false (fun _ => z64 x) 0 s t) ∧
      (108 ≤ d.toNat → d.toNat < 116 → s.inBlock = true → s.cw.isWave = false → bankTakes (scopedOf s s.cb d.toNat) x →
        bankNow d false (z64 x) 0 s t) ∧
      (116 ≤ d.toNat → d ≠ 124 → s.cw.isWave = false ∨ 120 ≤ d.toNat →
        bankSent d false none [(lowLane s.cur.mask, z64 x)] 0 s t) := by
  refine ⟨fun hd => ?_, fun hd hd' hb hw ht => ?_, fun hd hz hw => ?_⟩
  · exact writeNowResult_uniform d false _ s h nofun (uniCode_warpOrZ d hu hd)
  · have hx : (z64 x).setWidth 32 = x := BitVec.setWidth_setWidth_of_le x (by decide)
    exact writeNowResult_bank d false [(lowLane s.cur.mask, z64 x)] 0 s hb hw hd hd' nofun rfl (hx.symm ▸ ht) nofun
  · rw [writeNowResult_sends _ _ _ _ _ s hd (uniCode_scoped d hu hz) hw rfl]
    exact sendBank_sent _ _ _ _ _ _ s h

/-! ### The acquire below a write pointer (R238, its device scope by log 17) -/
theorem copyAcquire_cores (s : State) :
    ∃ k, copyAcquire s = s.setCores k ∧ coresDropped s.cur.core true s (s.setCores k) := by
  have e := acquireDrop_eq_setCores s.cur.core .d s
  exact ⟨_, e, e ▸ acquireDrop_cores s.cur.core .d s s rfl⟩

/-! ### The second word of CPSTAT (R279) -/
theorem getLsbD_of_div {n : Nat} (x : BitVec n) (i : Nat) (b : Bool) (h : x.toNat / 2 ^ i % 2 = b.toNat) : x.getLsbD i = b := by
  rw [BitVec.getLsbD, Nat.testBit_eq_decide_div_mod_eq, h]; cases b <;> rfl
/-- A count of nine bits stands below three flags. -/
theorem chanStatus_fields (c : Chan) :
    (chanStatus c).toNat < 2 ^ 12 ∧ (chanStatus c).toNat % 2 ^ 9 = (c.t - c.c).toNat % 2 ^ 9 ∧
      (chanStatus c).getLsbD 9 = c.cmds.head?.any (·.parked) ∧ (chanStatus c).getLsbD 10 = c.cmds.head?.any (·.held.isSome) ∧
      (chanStatus c).getLsbD 11 = decide (c.log2 ≠ 0) := by
  have hflag : ∀ (b : Bool) (n : Nat), (if b = true then n else 0) = n * b.toNat := fun b n => by cases b <;> simp
  have hring : (if c.log2 = 0 then 0 else 2048) = 2048 * (decide (c.log2 ≠ 0)).toNat := by
    by_cases h : c.log2 = 0 <;> simp [h]
  have hp := Bool.toNat_le (c.cmds.head?.any (·.parked))
  have hh := Bool.toNat_le (c.cmds.head?.any (·.held.isSome))
  have hr := Bool.toNat_le (decide (c.log2 ≠ 0))
  have hsum : (chanStatus c).toNat = (c.t - c.c).toNat % 512 + 512 * (c.cmds.head?.any (·.parked)).toNat +
      1024 * (c.cmds.head?.any (·.held.isSome)).toNat + 2048 * (decide (c.log2 ≠ 0)).toNat := by
    rw [chanStatus, hflag, hflag, hring, BitVec.toNat_ofNat]
    omega
  exact ⟨by omega, by omega, getLsbD_of_div _ 9 _ (by omega), getLsbD_of_div _ 10 _ (by omega), getLsbD_of_div _ 11 _ (by omega)⟩
/-- The halves of a pair of words. -/
theorem pair_halves (hi lo : Word) : (hi ++ lo : BitVec 64).setWidth 32 = lo ∧ (hi ++ lo : BitVec 64).toNat / 2 ^ 32 = hi.toNat ∧
    ∀ i, (hi ++ lo : BitVec 64).getLsbD (32 + i) = hi.getLsbD i := by
  refine ⟨BitVec.setWidth_append_eq_right, ?_, fun i => ?_⟩
  · rw [BitVec.toNat_append, Nat.or_div_two_pow, Nat.shiftLeft_eq, Nat.mul_div_cancel _ (by decide), Nat.div_eq_of_lt lo.isLt,
      Nat.or_zero]
  · rw [BitVec.getLsbD_append, if_neg (by omega), Nat.add_sub_cancel_left]

/-! ### The instructions (R279) -/
theorem exec_cpwp (s : State) (sw : Bool) (ch : BitVec 3) (d : Reg) (hd : uniCode d = true) : exec (.cpwp sw ch d) s =
    .next (outResult .plain false d false [(lowLane s.cur.mask, z64 (s.chan s.cw.bk ch.toNat).wp)]
      (Out.blank (freshId s) s.cur.mask d false) (copyAcquire s)) :=
  congrArg Host.Outcome.next (operandsOr_ok _ _ _ (by simp [hd]))
theorem exec_cpwait (s : State) (sw : Bool) (ch : BitVec 3) (d a : Reg) (hd : uniCode d = true) (ha : uniCode a = true) :
    exec (.cpwait sw ch d a) s =
      .next (if (s.chan s.cw.bk ch.toNat).idle || (s.chan s.cw.bk ch.toNat).reached (s.usrc a) then cpwaitDone ch.toNat d s
        else parkBundle (.cpwait ch.toNat (s.usrc a) d) s) :=
  congrArg Host.Outcome.next (operandsOr_ok _ _ _ (by simp [hd, ha]))
theorem exec_cpstat (s : State) (sw : Bool) (ch : BitVec 3) (d : Reg) (hd : uniCode d = true) (he : evenCode d = true) :
    exec (.cpstat sw ch d) s =
      .next (outResult .plain false d true
        [(lowLane s.cur.mask, (chanStatus (s.chan s.cw.bk ch.toNat) ++ (s.chan s.cw.bk ch.toNat).c : BitVec 64))]
        (Out.blank (freshId s) s.cur.mask d true) s) :=
  congrArg Host.Outcome.next (operandsOr_ok _ _ _ (by simp [hd, he]))
/-- A CPWAIT waits for nothing more: its channel is idle, or has reached the target. -/
theorem cpwait_ready_iff (c : Chan) (target : Word) :
    (c.idle || c.reached target) = true ↔ c.cmds = [] ∨ (c.wp - target).toNat < 2 ^ 31 := by
  rw [Bool.or_eq_true, Chan.idle, Chan.reached, List.isEmpty_iff, decide_eq_true_eq]

/-! ### The obligation -/
/-- Settles O34: CPWP and CPWAIT write one word behind the acquire, at once or outstanding; CPSTAT writes two. -/
theorem ringPointers : Obligations.RingPointers := by
  intro s sw ch d a c hb hd ha hc
  subst hc
  obtain ⟨k, hk, hdrop⟩ := copyAcquire_cores s
  refine ⟨?_, fun hready => ?_, fun hbusy hshort => ?_, fun he => ?_⟩
  · have e := exec_cpwp s sw ch d hd
    rw [hk] at e
    exact ⟨k, _, e, hdrop, outUniform_result d false _ (s.setCores k) hb hd nofun⟩
  · have e := exec_cpwait s sw ch d a hd ha
    rw [if_pos ((cpwait_ready_iff _ _).2 hready), cpwaitDone, hk] at e
    exact ⟨k, _, e, hdrop, writeUniform_result d _ (s.setCores k) hb hd⟩
  · have e := exec_cpwait s sw ch d a hd ha
    rw [if_neg fun h => ((cpwait_ready_iff _ _).1 h).elim hbusy (Nat.not_lt.2 hshort)] at e
    exact ⟨_, e, parkBundle_parked _ s hb⟩
  · have e := exec_cpstat s sw ch d hd he
    have hp : d.toNat % 2 = 0 := by
      rw [evenCode, Bool.and_eq_true, beq_iff_eq] at he; exact he.1
    obtain ⟨hlo, hhi, hbit⟩ := pair_halves (chanStatus (s.chan s.cw.bk ch.toNat)) (s.chan s.cw.bk ch.toNat).c
    obtain ⟨hlt, hcount, hparked, hheld, hring⟩ := chanStatus_fields (s.chan s.cw.bk ch.toNat)
    exact ⟨_, _, e, hlo, hhi.trans_lt hlt, (congrArg (· % 2 ^ 9) hhi).trans hcount, (hbit 9).trans hparked, (hbit 10).trans hheld,
      (hbit 11).trans hring, outUniform_result d true _ s hb hd fun _ => hp⟩

end Sys2Proof.Machine
end

section
/-! The reports on tickets: MXSTAT, CXSTAT and CXRESET (O35). -/
namespace Sys2Proof.Machine

/-! ### A report (R226, R306, R358) -/
/-- The acquire of a report that finds its job complete, and nothing of another report. -/
def reportAcquire (isDone : Bool) (s : State) : State := if isDone then acquireDrop s.cur.core .d s else s
theorem reportAcquire_cores (isDone : Bool) (s : State) :
    ∃ k, reportAcquire isDone s = s.setCores k ∧ coresDropped s.cur.core isDone s (s.setCores k) := by
  cases isDone with
  | true => exact copyAcquire_cores s
  | false => exact ⟨s.cores, rfl, coresDropped_refl _ _ s rfl⟩
/-- A pair behind a report's acquire is one outstanding result of the bundle. -/
theorem outPair_report (d : Reg) (lo hi : Word) (isDone : Bool) (s : State) (h : s.inBundle = true) (hw : warpOrZ d = true)
    (he : evenCode d = true) : ∃ k, coresDropped s.cur.core isDone s (s.setCores k) ∧
      resultDue (resultDest d true s.cur.mask fun _ => (hi ++ lo : BitVec 64)) [] 0 (s.setCores k)
        (outPair d lo hi (reportAcquire isDone s)) := by
  obtain ⟨k, hk, hdrop⟩ := reportAcquire_cores isDone s
  have hp : d.toNat % 2 = 0 := by
    rw [evenCode, Bool.and_eq_true, beq_iff_eq] at he
    exact he.1
  rw [hk]
  exact ⟨k, hdrop, outUniform_due d true _ (s.setCores k) h (fun _ => hp) (warpOrZ_dest d hw)⟩

/-! ### The status of a matrix job (R306) -/
/-- The job that a ticket names in its entry. -/
def ticketJob (s : State) (t : Word) : Option (Job × MxJob) :=
  (s.quad s.cq).mxJobs.find? fun jm => jm.2.entry == bitsAt t 0 6 && jm.2.serial % 2 ^ 19 == bitsAt t 6 19
theorem mxStatus_elsewhere (s : State) (t : Word) (h : bitsAt t 25 7 ≠ s.cq) : mxStatus s t = (3, 0, false) := if_pos h
theorem mxStatus_standing (s : State) (t : Word) (h : bitsAt t 25 7 = s.cq) (j : Job) (m : MxJob)
    (hj : ticketJob s t = some (j, m)) : mxStatus s t =
      (BitVec.ofNat 32 ((if j.admitted then 1 else 0) + (if m.reloads then 8 else 0) + 16 * m.bank +
        256 * (if j.admitted then effPrio m else 0)), BitVec.ofNat 32 (65536 * m.stalled + m.rows), false) := by
  rw [ticketJob] at hj
  simp only [mxStatus, if_neg (not_not_intro h), hj, Bool.false_eq_true, if_false, Nat.add_zero]
theorem mxStatus_completed (s : State) (t : Word) (h : bitsAt t 25 7 = s.cq) (hj : ticketJob s t = none) (x : LastJob)
    (hx : mFind (s.quad s.cq).lastDone (bitsAt t 0 6) = some x) (hs : x.serial % 2 ^ 19 = bitsAt t 6 19) : mxStatus s t =
      (BitVec.ofNat 32 (2 + (if x.failed then 4 else 0) + (if x.reloads then 8 else 0) + 16 * x.bank), 0, true) := by
  rw [ticketJob] at hj
  simp only [mxStatus, if_neg (not_not_intro h), hj, hx, if_pos hs, Nat.mul_zero, Nat.add_zero]
theorem mxStatus_unknown (s : State) (t : Word) (h : bitsAt t 25 7 = s.cq) (hj : ticketJob s t = none)
    (hx : ∀ x, mFind (s.quad s.cq).lastDone (bitsAt t 0 6) = some x → x.serial % 2 ^ 19 ≠ bitsAt t 6 19) :
    mxStatus s t = (3, 0, false) := by
  rw [ticketJob] at hj
  cases hl : mFind (s.quad s.cq).lastDone (bitsAt t 0 6) with
  | none => simp only [mxStatus, if_neg (not_not_intro h), hj, hl]
  | some x => simp only [mxStatus, if_neg (not_not_intro h), hj, hl, if_neg (hx x hl)]
/-- A job that stands no more is the last one completed in its entry, or unknown. -/
theorem mxStatus_gone (s : State) (t : Word) (h : bitsAt t 25 7 = s.cq) (hj : ticketJob s t = none) :
    (∃ x : LastJob, mxStatus s t =
      (BitVec.ofNat 32 (2 + (if x.failed then 4 else 0) + (if x.reloads then 8 else 0) + 16 * x.bank), 0, true)) ∨
    mxStatus s t = (3, 0, false) := by
  by_cases hx : ∃ x, mFind (s.quad s.cq).lastDone (bitsAt t 0 6) = some x ∧ x.serial % 2 ^ 19 = bitsAt t 6 19
  · obtain ⟨x, hl, hs⟩ := hx
    exact .inl ⟨x, mxStatus_completed s t h hj x hl hs⟩
  · exact .inr (mxStatus_unknown s t h hj fun x hl hs => hx ⟨x, hl, hs⟩)
theorem ofNat_mod_four (n : Nat) : (BitVec.ofNat 32 n).toNat % 4 = n % 4 := by
  rw [BitVec.toNat_ofNat]
  omega
/-- A report of a job is one of completion exactly if its STATE, bits [1:0], is 2. -/
theorem mxStatus_isDone (s : State) (t : Word) : (mxStatus s t).2.2 = ((mxStatus s t).1.toNat % 4 == 2) := by
  by_cases h : bitsAt t 25 7 = s.cq
  case neg => rw [mxStatus_elsewhere s t h]; rfl
  cases hj : ticketJob s t with
  | some jm =>
    obtain ⟨j, m⟩ := jm
    rw [mxStatus_standing s t h j m hj, ofNat_mod_four]
    refine (beq_eq_false_iff_ne.2 ?_).symm
    split <;> split <;> omega
  | none =>
    obtain ⟨x, e⟩ | e := mxStatus_gone s t h hj
    · rw [e, ofNat_mod_four]
      refine (beq_iff_eq.2 ?_).symm
      split <;> split <;> omega
    · rw [e]; rfl
theorem exec_mxstat (s : State) (sw : Bool) (d a : Reg) (hw : warpOrZ d = true) (he : evenCode d = true) (ha : uniCode a = true) :
    exec (.mxstat sw d a) s = .next (outPair d (mxStatus s (s.usrc a)).1 (mxStatus s (s.usrc a)).2.1
      (reportAcquire (mxStatus s (s.usrc a)).2.2 s)) :=
  congrArg Host.Outcome.next (operandsOr_ok _ _ _ (by simp [hw, he, ha]))

/-! ### The status of a collective (R358) -/
/-- The collective that a ticket names in its slot. -/
def ticketColl (s : State) (t : Word) : Option Coll :=
  (s.die (dieOf s.cur.core)).colls.find? fun x => x.slot == bitsAt t 24 6 && x.q % 2 ^ 24 == bitsAt t 0 24
/-- What the slot keeps of a ticket's collective that has completed: its number, its status and the members it excluded. -/
def ticketLast (s : State) (t : Word) : Option (Nat × Nat × Nat) :=
  (slotAt s (dieOf s.cur.core) (bitsAt t 24 6)).last.find? fun x => x.1 % 2 ^ 24 == bitsAt t 0 24
theorem cxStatus_elsewhere (s : State) (t : Word) (h : bitsAt t 30 2 ≠ dieOf s.cur.core) : cxStatus s t = (3, 0, false) :=
  if_pos h
theorem cxStatus_standing (s : State) (t : Word) (h : bitsAt t 30 2 = dieOf s.cur.core) (x : Coll)
    (hx : ticketColl s t = some x) : cxStatus s t = (if x.phase = 0 ∧ x.begun = false then 0 else 1, x.q, false) := by
  rw [ticketColl] at hx
  simp only [cxStatus, if_neg (not_not_intro h), hx, Bool.not_eq_true']
theorem cxStatus_completed (s : State) (t : Word) (h : bitsAt t 30 2 = dieOf s.cur.core) (hx : ticketColl s t = none)
    (y : Nat × Nat × Nat) (hy : ticketLast s t = some y) : cxStatus s t = (2 + 256 * y.2.1, y.1, true) := by
  rw [ticketColl] at hx
  rw [ticketLast] at hy
  simp only [cxStatus, if_neg (not_not_intro h), hx, hy]
theorem cxStatus_unknown (s : State) (t : Word) (h : bitsAt t 30 2 = dieOf s.cur.core) (hx : ticketColl s t = none)
    (hy : ticketLast s t = none) : cxStatus s t = (3, 0, false) := by
  rw [ticketColl] at hx
  rw [ticketLast] at hy
  simp only [cxStatus, if_neg (not_not_intro h), hx, hy]
/-- A report of a collective is one of completion exactly if its STATE, bits [1:0], is 2. -/
theorem cxStatus_isDone (s : State) (t : Word) : (cxStatus s t).2.2 = ((cxStatus s t).1 % 4 == 2) := by
  by_cases h : bitsAt t 30 2 = dieOf s.cur.core
  case neg => rw [cxStatus_elsewhere s t h]; rfl
  cases hx : ticketColl s t with
  | some x =>
    rw [cxStatus_standing s t h x hx]
    refine (beq_eq_false_iff_ne.2 ?_).symm
    split <;> omega
  | none =>
    cases hy : ticketLast s t with
    | some y =>
      rw [cxStatus_completed s t h hx y hy]
      refine (beq_iff_eq.2 ?_).symm
      omega
    | none => rw [cxStatus_unknown s t h hx hy]; rfl
theorem exec_cxstat (s : State) (sw : Bool) (d a : Reg) (hw : warpOrZ d = true) (he : evenCode d = true) (ha : uniCode a = true) :
    exec (.cxstat sw d a) s = .next (outPair d (BitVec.ofNat 32 (cxStatus s (s.usrc a)).1)
      (BitVec.ofNat 32 (cxStatus s (s.usrc a)).2.1) (reportAcquire (cxStatus s (s.usrc a)).2.2 s)) :=
  congrArg Host.Outcome.next (operandsOr_ok _ _ _ (by simp [hw, he, ha]))

/-! ### A slot as configured afresh (R359) -/
def GroupSlot.afresh (y : GroupSlot) : GroupSlot := { y with faulted := false, seq := 0, silent := [] }
/-- The die without the packets of a slot that have not left. -/
def Die.dropOutbox (n : Nat) (d : Die) : Die := { d with outbox := d.outbox.filter fun o => hSlot o.2.hdr != n }
/-- Whatever the slot has outstanding, it is afresh in the end. -/
theorem resetSlot_afresh (die n : Nat) (s : State) : ∃ y, slotAt (resetSlot die n s) die n = GroupSlot.afresh y :=
  ⟨_, (updSlot_slotAt _ die n _ die n).trans (if_pos ⟨rfl, rfl⟩)⟩
/-- With no collective outstanding nothing ends. -/
theorem resetSlot_idle (die n : Nat) (s : State) (h : ∀ x ∈ (s.die die).colls, x.slot ≠ n) :
    resetSlot die n s = updSlot die n GroupSlot.afresh (s.updDie die (Die.dropOutbox n)) := by
  have hnone : (s.die die).colls.filter (fun x => x.slot == n) = [] :=
    List.filter_eq_nil_iff.2 fun x hx => by simpa using h x hx
  rw [resetSlot, hnone]
  rfl
theorem dropOutbox_slotAt (die n k : Nat) (s : State) : slotAt (s.updDie die (Die.dropOutbox n)) die k = slotAt s die k := by
  rw [slotAt, State.updDie_die, if_pos rfl]
  rfl
theorem idle_slotAt (die n k : Nat) (s : State) :
    slotAt (updSlot die n GroupSlot.afresh (s.updDie die (Die.dropOutbox n))) die k =
      if k = n then (slotAt s die n).afresh else slotAt s die k := by
  rw [updSlot_slotAt, dropOutbox_slotAt, dropOutbox_slotAt]
  simp only [true_and]
theorem idle_colls (die n : Nat) (s : State) :
    ((updSlot die n GroupSlot.afresh (s.updDie die (Die.dropOutbox n))).die die).colls = (s.die die).colls := by
  rw [updSlot, State.updDie_die, if_pos rfl, State.updDie_die, if_pos rfl]
  rfl
theorem done_dies (s : State) : (done s).dies = s.dies := by
  rw [done, retireIssue]
  split <;> rfl
theorem done_die (s : State) (k : Nat) : (done s).die k = s.die k := by rw [State.die, done_dies, State.die]
theorem done_slotAt (s : State) (die n : Nat) : slotAt (done s) die n = slotAt s die n := by rw [slotAt, done_die, slotAt]

/-! ### CXRESET (R359) -/
/-- A slot that the block may reset: one of the 64, in a group of the block's partition. -/
def resettable (s : State) (n : Nat) : Prop := n < 64 ∧ ∃ g, (slotAt s (dieOf s.cur.core) n).cfg = some g ∧ g.part = s.cb.part
theorem not_resettable_iff (s : State) (n : Nat) : (64 ≤ n ∨
    !((slotAt s (dieOf s.cur.core) n).cfg.any fun g => g.part == s.cb.part)) ↔ ¬ resettable s n := by
  rw [resettable, not_and_or, Nat.not_lt, Bool.not_eq_true', ← Bool.not_eq_true, Option.any_eq_true]
  simp only [beq_iff_eq]
theorem exec_cxreset_ok (s : State) (sw : Bool) (a : Reg) (ha : uniCode a = true) (h : resettable s (s.usrc a).toNat) :
    exec (.cxreset sw a) s = .next (done (resetSlot (dieOf s.cur.core) (s.usrc a).toNat s)) :=
  congrArg Host.Outcome.next ((operandsOr_ok _ _ _ (by simp [ha])).trans
    (if_neg fun hn => (not_resettable_iff _ _).1 hn h))
theorem exec_cxreset_refused (s : State) (sw : Bool) (a : Reg) (ha : uniCode a = true) (h : ¬ resettable s (s.usrc a).toNat) :
    exec (.cxreset sw a) s = .next (raiseEngine 0x53 s.cur.pc s) :=
  congrArg Host.Outcome.next ((operandsOr_ok _ _ _ (by simp [ha])).trans (if_pos ((not_resettable_iff _ _).2 h)))

/-! ### The obligation -/
/-- Settles O35: each report by the cases of its status, whose STATE says whether it acquires; a reset by the slot it leaves. -/
theorem ticketReports : Obligations.TicketReports := by
  intro s sw d a h hw he ha job coll old
  refine ⟨?_, ?_, fun n g hn hlt hg hpart => ?_, fun hbad => ?_⟩
  · obtain ⟨k, hdrop, hdue⟩ := outPair_report d (mxStatus s (s.usrc a)).1 (mxStatus s (s.usrc a)).2.1
      (mxStatus s (s.usrc a)).2.2 s h hw he
    rw [mxStatus_isDone] at hdrop
    refine ⟨k, _, _, _, exec_mxstat s sw d a hw he ha, hdue, hdrop, fun hq => ?_, fun hq => ⟨fun j m hj => ?_, fun hj => ?_⟩⟩
    · rw [mxStatus_elsewhere s _ hq]; exact ⟨rfl, rfl⟩
    · rw [mxStatus_standing s _ hq j m hj]; exact ⟨rfl, rfl⟩
    · refine ⟨?_, fun x hx hs => by rw [mxStatus_completed s _ hq hj x hx hs],
        fun hx => by rw [mxStatus_unknown s _ hq hj hx]⟩
      obtain ⟨x, e⟩ | e := mxStatus_gone s _ hq hj <;> rw [e]
  · obtain ⟨k, hdrop, hdue⟩ := outPair_report d (BitVec.ofNat 32 (cxStatus s (s.usrc a)).1)
      (BitVec.ofNat 32 (cxStatus s (s.usrc a)).2.1) (cxStatus s (s.usrc a)).2.2 s h hw he
    rw [cxStatus_isDone] at hdrop
    refine ⟨k, _, _, _, exec_cxstat s sw d a hw he ha, hdue, hdrop, fun hq => ?_, fun hq => ⟨fun x hx => ?_, fun hx =>
      ⟨fun y hy => ?_, fun hy => ?_⟩⟩⟩
    · rw [cxStatus_elsewhere s _ hq]; exact ⟨rfl, rfl⟩
    · rw [cxStatus_standing s _ hq x hx]; exact ⟨rfl, rfl⟩
    · rw [cxStatus_completed s _ hq hx y hy]; exact ⟨rfl, rfl⟩
    · rw [cxStatus_unknown s _ hq hx hy]; exact ⟨rfl, rfl⟩
  · subst hn
    have e := exec_cxreset_ok s sw a ha ⟨hlt, g, hg, hpart⟩
    refine ⟨⟨_, e, ?_⟩, fun hidle => ?_⟩
    · obtain ⟨y, hy⟩ := resetSlot_afresh (dieOf s.cur.core) (s.usrc a).toNat s
      rw [done_slotAt, hy]
      exact ⟨rfl, rfl⟩
    · rw [resetSlot_idle _ _ s hidle] at e
      refine ⟨_, _, e, done_wentOn (s.setDies _) h, ?_, fun k hk => ?_, ?_⟩
      · rw [done_slotAt, idle_slotAt, if_pos rfl]; rfl
      · rw [done_slotAt, idle_slotAt, if_neg hk]
      · rw [done_die, idle_colls]
  · refine ⟨_, exec_cxreset_refused s sw a ha fun ⟨hlt, g, hg, hpart⟩ => ?_, raiseMask_taken _ _ _ _ s h⟩
    exact hbad.elim (Nat.not_le.2 hlt) fun hother => hother g hg hpart

end Sys2Proof.Machine
end

section
/-! The posts: TKPOST, MXPOST and CXPOST (O36). The entry that a task or a job takes is the lowest free one (log 18). -/
namespace Sys2Proof.Machine

/-! ### The instructions with a record that can be read (R181, R236) -/
section
variable (s u : State) (sw : Bool) (d a : Reg) (r : List Word) (hd : warpOrZ d = true) (ha : uniCode a = true)
  (he : evenCode a = true)
include hd ha he
/-- A post passes its operands' check. -/
theorem post_operands (k : State) : operandsOr [⟨0, d, warpOrZ d⟩, ⟨1, a, uniCode a && evenCode a⟩] s k = k :=
  operandsOr_ok _ s k (by simp [hd, ha, he])
theorem tkpost_refused (hr : recordRead 32 32 a r s u) (n : Nat) (hn : taskCheck u r = some n) :
    exec (.tkpost sw d a) s = .next (raiseEngine n u.cur.pc u) := by
  refine congrArg Host.Outcome.next ((post_operands s d a hd ha he _).trans ?_)
  simp only [(withRecord_read 32 32 a r s u hr).2, hn]
theorem tkpost_enters (hr : recordRead 32 32 a r s u) (hn : taskCheck u r = none) (e : Nat)
    (hf : freeSlot (u.quad u.cq) = some e) : exec (.tkpost sw d a) s = .next (taskEnter r d e u) := by
  refine congrArg Host.Outcome.next ((post_operands s d a hd ha he _).trans ?_)
  simp only [(withRecord_read 32 32 a r s u hr).2, hn, hf]
theorem tkpost_waits (hr : recordRead 32 32 a r s u) (hn : taskCheck u r = none) (hf : freeSlot (u.quad u.cq) = none) :
    exec (.tkpost sw d a) s = .next (parkBundle (.poolEntry r d) u) := by
  refine congrArg Host.Outcome.next ((post_operands s d a hd ha he _).trans ?_)
  simp only [(withRecord_read 32 32 a r s u hr).2, hn, hf]
theorem mxpost_refused (hr : recordRead 64 64 a r s u) (n : Nat) (hn : kCheck u u.cb r = some n) :
    exec (.mxpost sw d a) s = .next (raiseEngine n (s.usrc64 a) u) := by
  refine congrArg Host.Outcome.next ((post_operands s d a hd ha he _).trans ?_)
  simp only [(withRecord_read 64 64 a r s u hr).2, hn]
theorem mxpost_enters (hr : recordRead 64 64 a r s u) (hn : kCheck u u.cb r = none) (e : Nat)
    (hf : freeEntry (u.quad u.cq) = some e) : exec (.mxpost sw d a) s = .next (mxTicket r (s.usrc64 a) d e u) := by
  refine congrArg Host.Outcome.next ((post_operands s d a hd ha he _).trans ?_)
  simp only [(withRecord_read 64 64 a r s u hr).2, hn, hf]
theorem mxpost_waits (hr : recordRead 64 64 a r s u) (hn : kCheck u u.cb r = none) (hf : freeEntry (u.quad u.cq) = none) :
    exec (.mxpost sw d a) s = .next (parkBundle (.mxEntry r (s.usrc64 a) d) u) := by
  refine congrArg Host.Outcome.next ((post_operands s d a hd ha he _).trans ?_)
  simp only [(withRecord_read 64 64 a r s u hr).2, hn, hf]
theorem cxpost_refused (hr : recordRead 64 64 a r s u) (n : Nat) (hn : xCheck u u.cb r = some n) :
    exec (.cxpost sw d a) s = .next (raiseEngine n u.cur.pc u) := by
  refine congrArg Host.Outcome.next ((post_operands s d a hd ha he _).trans ?_)
  simp only [(withRecord_read 64 64 a r s u hr).2, hn]
theorem cxpost_enters (hr : recordRead 64 64 a r s u) (hn : xCheck u u.cb r = none) : exec (.cxpost sw d a) s =
    .next (outWordB d (cxTicket (dieOf u.cur.core) (xSlot r) (slotAt u (dieOf u.cur.core) (xSlot r)).seq)
      (collArrive u.cb r u)) := by
  refine congrArg Host.Outcome.next ((post_operands s d a hd ha he _).trans ?_)
  simp only [(withRecord_read 64 64 a r s u hr).2, hn]
end

/-! ### A collective that enters its slot's order (R356) -/
/-- A post to a slot that is not faulted changes its quad, which gets the job, and its die, whose slot counts on. -/
theorem collArrive_enters (b : Block) (r : List Word) (s : State) (h : (slotAt s (dieOf b.core) (xSlot r)).faulted = false) :
    ∃ v, collArrive b r s = updSlot (dieOf b.core) (xSlot r) (fun y => { y with seq := (y.seq + 1) % 2 ^ 32 }) v ∧
      v.cur = s.cur ∧ v.warps = s.warps ∧ slotAt v (dieOf b.core) (xSlot r) = slotAt s (dieOf b.core) (xSlot r) := by
  refine ⟨_, if_neg (ne_true_of_eq_false h), rfl, rfl, ?_⟩
  rw [slotAt, State.updDie_die, if_pos rfl]
  rfl
theorem outWordB_dies (d : Reg) (v : Word) (s : State) (h : s.inBundle = true) (hw : warpOrZ d = true) :
    (outWordB d v s).dies = s.dies := by
  obtain ⟨⟨e, -⟩, -⟩ := outUniform_dueB d (z64 v) s h hw
  have := congrArg State.dies e
  exact this

/-! ### The obligation -/
/-- Settles O36: the record that a post has read is refused by its first check, enters, or waits for an entry. -/
theorem postsEnter : Obligations.PostsEnter := by
  intro s u sw d a r h hd ha he
  refine ⟨fun hr => ?_, fun hr => ?_⟩
  · have hs := (withRecord_read 32 32 a r s u hr).1
    have hu := inBundle_congr s u h hs.warps hs.cur
    refine ⟨hs, fun hn => ⟨fun e hlt hfree hlow => ?_, fun hfull => ?_⟩, fun n hn => ?_⟩
    · refine ⟨_, tkpost_enters s u sw d a r hd ha he hr hn e (freeSlot_is _ e hlt hfree hlow), ?_⟩
      rw [← hs.cur]
      exact taskEnter_due r d e u hu hd
    · exact ⟨_, tkpost_waits s u sw d a r hd ha he hr hn (freeSlot_none _ hfull), parkBundle_parked _ u hu⟩
    · refine ⟨_, tkpost_refused s u sw d a r hd ha he hr n hn, ?_⟩
      rw [hs.cur]
      exact engine_at s u n _ hs hu
  · have hs := (withRecord_read 64 64 a r s u hr).1
    have hu := inBundle_congr s u h hs.warps hs.cur
    refine ⟨hs, fun hn => ⟨fun e hlt hfree hlow => ?_, fun hfull => ?_⟩, fun n hn => ?_, fun hn hok hcore => ?_, fun n hn => ?_⟩
    · refine ⟨_, mxpost_enters s u sw d a r hd ha he hr hn e (freeEntry_is _ e hlt hfree hlow), ?_⟩
      rw [← hs.cur]
      exact mxTicket_due r _ d e u hu hd
    · exact ⟨_, mxpost_waits s u sw d a r hd ha he hr hn (freeEntry_none _ hfull), parkBundle_parked _ u hu⟩
    · exact ⟨_, mxpost_refused s u sw d a r hd ha he hr n hn, engine_at s u n _ hs hu⟩
    · obtain ⟨v, hv, hcur, hwarps, hslot⟩ := collArrive_enters u.cb r u hok
      have hm : (collArrive u.cb r u).cur = u.cur := by rw [hv]; exact hcur
      have hmw : (collArrive u.cb r u).warps = u.warps := by rw [hv]; exact hwarps
      refine ⟨_, cxpost_enters s u sw d a r hd ha he hr hn, enter_dueB d _ s u _ hs hm hmw hu hd, ?_⟩
      rw [slotAt, State.die, outWordB_dies d _ _ (inBundle_congr u _ hu hmw hm) hd, ← State.die, ← slotAt, hv, hcore.symm,
        updSlot_slotAt, if_pos ⟨rfl, rfl⟩, hslot]
    · refine ⟨_, cxpost_refused s u sw d a r hd ha he hr n hn, ?_⟩
      rw [hs.cur]
      exact engine_at s u n _ hs hu

end Sys2Proof.Machine
end

section
/-! Counters and the distributor's queue: TKSIG, TKJOIN, TKREAD and WDQ (O37). The release of TKSIG settles the results that the
warp has outstanding (log 14, log 32). -/
namespace Sys2Proof.Machine

/-! ### A quad changed twice -/
theorem mSet_mSet {α : Type} (m : Map α) (k : Nat) (v u : α) : mSet (mSet m k v) k u = mSet m k u := by
  induction m with
  | nil => simp [mSet]
  | cons y t ih =>
    obtain ⟨k', v'⟩ := y
    by_cases h : k' = k
    · simp [mSet, h]
    · by_cases hlt : k < k'
      · simp [mSet, h, hlt]
      · simp [mSet, h, hlt, ih]
theorem updQuad_updQuad (s : State) (q : Nat) (f g : Quad → Quad) :
    (s.updQuad q f).updQuad q g = s.updQuad q fun x => g (f x) := by
  simp only [State.updQuad, mUpd, State.setQuads_quads, mGet_mSet, if_pos, mSet_mSet]
  rfl

/-! ### A counter behind a release (R226, R309) -/
/-- A counter as it stands after a change of its own. -/
theorem putCtr_ctr (q c : Nat) (x : Ctr) (s : State) : (putCtr q c x s).ctr q c = x := by
  rw [State.ctr, putCtr, State.updQuad_quad, if_pos rfl, mGet_mSet, if_pos rfl]
/-- With no set of this cycle, a counter is what it was before its sets. -/
theorem before_unset (q c : Nat) (s : State) (h : mFind (s.quad q).sets c = none) : (s.quad q).before c = s.ctr q c := by
  rw [Quad.before, h]; rfl
theorem putBefore_unset (q c : Nat) (y : Ctr) (s : State) (h : mFind (s.quad q).sets c = none) :
    s.updQuad q (Quad.putBefore c y) = putCtr q c y s :=
  updQuad_congr s q _ _ (by rw [Quad.putBefore, h])
/-- A release notes at the counter what is ordered before it, and no set of this cycle. -/
theorem ctrRelease_ctr (q c : Nat) (hb : List Nat) (s : State) :
    (∃ g, (ctrRelease q c hb s).ctr q c = { s.ctr q c with hb := g }) ∧
      ((ctrRelease q c hb s).quad q).sets = (s.quad q).sets ∧
      ∀ f : Quad → Quad, (∀ x y, f { x with ctrs := mSet x.ctrs c y } = f x) →
        (ctrRelease q c hb s).updQuad q f = s.updQuad q f := by
  rw [ctrRelease]
  split
  · exact ⟨⟨_, rfl⟩, rfl, fun _ _ => rfl⟩
  · refine ⟨⟨_, putCtr_ctr q c _ s⟩, ?_, fun f hf => ?_⟩
    · rw [putCtr, State.updQuad_quad, if_pos rfl]
    · rw [putCtr, updQuad_updQuad]
      exact congrArg (s.updQuad q) (funext fun x => hf x _)
/-- A decrement that leaves a counter above zero. -/
theorem decrement_above (q c n gid : Nat) (s : State) (hs : mFind (s.quad q).sets c = none) (hn : n < (s.ctr q c).value.toNat) :
    decrement q c n .no gid s = putCtr q c { s.ctr q c with value := (s.ctr q c).value - BitVec.ofNat 32 n } s := by
  rw [decrement, before_unset q c s hs]
  simp only [putBefore_unset q c _ s hs, Ctr.mark]
  have hv : BitVec.ofNat 32 ((s.ctr q c).value.toNat - n) = (s.ctr q c).value - BitVec.ofNat 32 n := by
    have := (s.ctr q c).value.isLt
    bv_omega
  rw [if_neg (by omega), if_neg (by omega), hv]
theorem decrement_released (q c n gid : Nat) (hb : List Nat) (s : State) (hs : mFind (s.quad q).sets c = none)
    (hn : n < (s.ctr q c).value.toNat) : ∃ g, decrement q c n .no gid (ctrRelease q c hb s) =
      putCtr q c { s.ctr q c with value := (s.ctr q c).value - BitVec.ofNat 32 n, hb := g } s := by
  obtain ⟨⟨g, hg⟩, hsets, hupd⟩ := ctrRelease_ctr q c hb s
  refine ⟨g, ?_⟩
  rw [decrement_above q c n gid _ (by rw [hsets, hs]) (by rw [hg]; exact hn), hg]
  exact hupd _ fun x y => by simp only [mSet_mSet]
/-- A set to a value other than zero, the first of its cycle. -/
theorem setCtr_released (q c key : Nat) (v : Word) (hb : List Nat) (s : State) (hs : mFind (s.quad q).sets c = none)
    (hv : v ≠ 0) : ∃ g, setCtr q c v key (ctrRelease q c hb s) =
      putCtr q c { s.ctr q c with value := v, failed := false, failId := 0xFFFFFFFF, hb := g }
        (s.updQuad q fun x => { x with sets := mSet x.sets c { pre := { s.ctr q c with hb := g }, key := key } }) := by
  obtain ⟨⟨g, hg⟩, hsets, hupd⟩ := ctrRelease_ctr q c hb s
  have hs' : mFind ((ctrRelease q c hb s).quad q).sets c = none := by rw [hsets, hs]
  have hset : (ctrRelease q c hb s).updQuad q (fun x => { x with sets := mSet x.sets c { pre := x.before c, key := key } }) =
      (ctrRelease q c hb s).updQuad q fun x => { x with sets := mSet x.sets c { pre := { s.ctr q c with hb := g }, key := key } } :=
    updQuad_congr _ _ _ _ (by rw [before_unset q c _ hs', hg])
  refine ⟨g, ?_⟩
  rw [setCtr, hs', if_pos Option.all_none, if_neg hv, hg, hset, putCtr, putCtr, updQuad_updQuad, updQuad_updQuad]
  exact hupd _ fun x y => by simp only [mSet_mSet]

/-! ### The instructions (R333, R334) -/
theorem withCtr_owned (s : State) (c : Word) (k : Nat → State) (hn : c.toNat < 2048)
    (ho : (s.ctr s.cq c.toNat).owner = some s.cb.part) : withCtr s c k = k c.toNat := by
  rw [withCtr, if_neg (Nat.not_le.2 hn), ctrOwned, ho, beq_self_eq_true, if_neg (by decide)]
/-- An id beyond 2,047, or a counter of another partition. -/
theorem withCtr_refused (s : State) (c : Word) (m : Nat) (k : Nat → State)
    (h : m = 0x45 ∧ 2048 ≤ c.toNat ∨ m = 0x41 ∧ c.toNat < 2048 ∧ (s.ctr s.cq c.toNat).owner ≠ some s.cb.part) :
    withCtr s c k = raiseEngine m s.cur.pc s := by
  obtain ⟨rfl, h⟩ | ⟨rfl, hn, ho⟩ := h
  · rw [withCtr, if_pos h]
  · rw [withCtr, if_neg (Nat.not_le.2 hn), ctrOwned, beq_false_of_ne ho, Bool.not_false, if_pos rfl]
theorem exec_tksig (s : State) (sw set : Bool) (a b : Reg) (ha : uniCode a = true) (hb : uniCode b = true) :
    exec (.tksig sw set a b) s = .next (withCtr s (s.usrc a) fun c =>
      if !set ∧ (s.usrc b = 0 ∨ 65535 < (s.usrc b).toNat) then raiseEngine 0x44 s.cur.pc s
      else signalCtr set c (s.usrc b) s) :=
  congrArg Host.Outcome.next (operandsOr_ok _ _ _ (by simp [ha, hb]))
theorem exec_tkjoin (s : State) (sw : Bool) (d a : Reg) (hd : warpOrZ d = true) (he : evenCode d = true) (ha : uniCode a = true) :
    exec (.tkjoin sw d a) s = .next (withCtr s (s.usrc a) fun c =>
      if (s.ctr s.cq c).value = 0 then tkjoinDone s.cq c d s else parkBundle (.tkjoin c d) s) :=
  congrArg Host.Outcome.next (operandsOr_ok _ _ _ (by simp [hd, he, ha]))
theorem exec_tkread (s : State) (sw fail : Bool) (d a : Reg) (hd : warpOrZ d = true) (he : evenCode d = true)
    (ha : uniCode a = true) : exec (.tkread sw fail d a) s = .next (withCtr s (s.usrc a) fun c =>
      outPair d (if fail then (s.ctr s.cq c).failId else (s.ctr s.cq c).value) (if (s.ctr s.cq c).failed then 1 else 0) s) :=
  congrArg Host.Outcome.next (operandsOr_ok _ _ _ (by simp [hd, he, ha]))

/-! ### TKSIG behind an empty stream (R226, R333) -/
/-- The release of a quiet warp settles its results, and no core drops a snapshot. -/
theorem signalRelease_quiet (s : State) (h : s.inBundle = true) (he : streamEmpty s) (hq : coreQuiet s) :
    ∃ k, forceRelease s.cur.wk .d s = settled (s.setCores k) ∧ coresDropped s.cur.core false s (s.setCores k) := by
  obtain ⟨-, -, hwids, -⟩ := he
  obtain ⟨k, hk, hcores⟩ := forceRelease_quiet s.cur.wk .d s ((inBundle_iff s).1 h).1 hwids fun _ => hq
  refine ⟨k, hk, fun c => ?_⟩
  rw [if_neg fun hc => Bool.false_ne_true hc.2, ← hcores c, hk]
  rfl
/-- A signal commits behind the counter's change. -/
theorem signalCtr_commits (s v : State) (set : Bool) (c : Nat) (x : Word) (k : Map Core) (h : s.inBundle = true)
    (hr : forceRelease s.cur.wk .d s = settled (s.setCores k)) (hcur : v.cur = s.cur)
    (hw : v.warps = (settled (s.setCores k)).warps)
    (hv : (if set then setCtr s.cq c x (bundleOrder s) else decrement s.cq c x.toNat .no s.cb.gid)
      (ctrRelease s.cq c (settled (s.setCores k)).cw.hb (settled (s.setCores k))) = v) :
    committed (fun _ => none) 0 v (signalCtr set c x s) := by
  have hu : (settled (s.setCores k)).inBundle = true := inBundle_updCw (s.setCores k) _ h rfl
  have e : signalCtr set c x s = doneB v := by
    rw [signalCtr, hr, ← hv]
    cases set <;> rfl
  rw [e]
  exact doneB_committed v (inBundle_congr _ v hu hw hcur)

/-! ### TKJOIN (R334) -/
/-- Writes to registers turn on nothing of what is ordered before the warp. -/
theorem writeAll_hb (xs : List RegWrite) (g : List Nat) (w : Warp) : writeAll xs { w with hb := g } = { writeAll xs w with hb := g } := by
  induction xs generalizing w with
  | nil => rfl
  | cons y t ih =>
    have hy : writeNow y { w with hb := g } = { writeNow y w with hb := g } := by
      obtain ⟨d, v⟩ := y
      cases d <;> rfl
    rw [writeAll_cons, writeAll_cons, hy, ih]
theorem evenCode_even (d : Reg) (h : evenCode d = true) : d.toNat % 2 = 0 := by
  rw [evenCode, Bool.and_eq_true, beq_iff_eq] at h
  exact h.1
/-- A join that finds zero takes its acquire, then writes its pair. -/
theorem tkjoinDone_now (c : Nat) (d : Reg) (s : State) (h : s.inBundle = true) (hw : warpOrZ d = true) (he : evenCode d = true) :
    ∃ k g, coresDropped s.cur.core true s (s.setCores k) ∧
      resultNow d true (fun _ => ((s.ctr s.cq c).failId ++ (if (s.ctr s.cq c).failed then 1#32 else 0#32) : BitVec 64)) 0
        ((s.setCores k).updCw fun w => { w with hb := g }) (tkjoinDone s.cq c d s) := by
  obtain ⟨k, hk, hdrop⟩ := copyAcquire_cores s
  have hacq : ∀ u : State, u.cores = s.cores → acquireDrop s.cur.core .d u = u.setCores k := fun u hu => by
    have := congrArg State.cores hk
    show u.setCores (mUpd u.cores Core.init s.cur.core _) = _
    rw [hu]
    exact congrArg u.setCores this
  obtain ⟨v, hv⟩ : ∃ v : DWord, v = ((s.ctr s.cq c).failId ++ (if (s.ctr s.cq c).failed then 1#32 else 0#32) : BitVec 64) := ⟨_, rfl⟩
  have hnow : ∀ g, resultNow d true (fun _ => v) 0 ((s.setCores k).updCw fun w => { w with hb := g })
      (writeNowResult .plain d true [(lowLane s.cur.mask, v)] 0 ((s.setCores k).updCw fun w => { w with hb := g })) := fun g =>
    writeNowResult_uniform d true v _ (inBundle_updCw (s.setCores k) _ h rfl) (fun _ => evenCode_even d he) (warpOrZ_dest d hw)
  rw [tkjoinDone, ← hv]
  obtain ⟨hd, hd'⟩ | rfl := warpOrZ_dest d hw
  · obtain ⟨g, hg⟩ := addHb_updWarp s.cur.wk (s.ctr s.cq c).hb (s.updCw (writeAll (warpWrites d true v)))
    refine ⟨k, g, hdrop, ?_⟩
    have e : (s.updCw (writeAll (warpWrites d true v))).updWarp s.cur.wk (fun w => { w with hb := g }) =
        (s.updCw fun w => { w with hb := g }).updCw (writeAll (warpWrites d true v)) := by
      rw [updCw_updCw, State.updCw, updWarp_updWarp]
      exact congrArg (s.updWarp s.cur.wk) (funext fun w => (writeAll_hb _ _ _).symm)
    have := hnow g
    rw [writeNow_warp .plain d true _ 0 _ hd hd' (by simp [allAgree]), raiseFlags_zero] at this
    rw [if_neg (by rintro rfl; exact absurd hd' (by decide)), hg, e,
      hacq ((s.updCw fun w => { w with hb := g }).updCw (writeAll (warpWrites d true v))) rfl]
    exact this
  · obtain ⟨g, hg⟩ := addHb_updWarp s.cur.wk (s.ctr s.cq c).hb s
    refine ⟨k, g, hdrop, ?_⟩
    have := hnow g
    rw [writeNow_z, raiseFlags_zero] at this
    rw [if_pos rfl, hg, hacq (s.updWarp s.cur.wk fun w => { w with hb := g }) rfl]
    exact this

/-! ### WDQ (R319, R335) -/
section
variable (s : State) (sw : Bool) (d a b : Reg) (hd : uniCode d = true) (ha : uniCode a = true) (ha' : evenCode a = true)
  (hb : uniCode b = true) (hb' : evenCode b = true) (hp : streamPending s s.cur.wk = false) (h8 : (s.usrc d).toNat % 8 = 0)
  (hsp : (s.usrc d).toNat + 8 ≤ s.cb.spSize) (h64 : (s.usrc64 a).toNat % 64 = 0) (hg : localAlias (s.usrc64 a) = false)
include hd ha ha' hb hb' hp h8 hsp h64 hg
/-- A query with a place for its answer and a descriptor joins the queue, or waits for room there. -/
theorem exec_wdq : exec (.wdq sw d a b) s = .next (
    if decide (1024 ≤ s.wd.queries.length) || s.cw.parks.any (·.why.wdWaits)
    then parkBundle (.wdRoom (s.usrc64 a).toNat (s.usrc d).toNat (completionOf s b)) s
    else queryArrive (s.usrc64 a).toNat (s.usrc d).toNat (completionOf s b) s) := by
  have hf : forceFences s.cur.wk s = s := by rw [forceFences, hp, if_neg Bool.false_ne_true]
  refine congrArg Host.Outcome.next ((operandsOr_ok _ _ _ (by simp [hd, ha, ha', hb, hb'])).trans ?_)
  rw [if_neg (not_not_intro h8), if_neg (Nat.not_lt.2 hsp), if_neg (not_not_intro h64), hg, if_neg Bool.false_ne_true, hf]
end
theorem queryArrive_committed (desc off : Nat) (comp : Option (Word × Word)) (s : State) (h : s.inBundle = true) :
    committed (fun _ => none) 0 (queryJoins desc off comp s) (queryArrive desc off comp s) :=
  doneB_committed _ (inBundle_congr s (queryJoins desc off comp s) h rfl rfl)

/-! ### The obligation -/
/-- Settles O37: a counter of the block's own partition takes its event, and any other is refused alike by all three
instructions; a query joins or waits. -/
theorem counterInstructions : Obligations.CounterInstructions := by
  intro s sw d a b n x h ha hn hx
  subst hn hx
  refine ⟨fun hlt ho => ⟨fun hb he hq => ⟨fun h0 hmax hv hs => ?_, fun h0 hs => ?_⟩, fun hb hbad => ?_, fun hd hde =>
    ⟨fun h0 => ?_, fun h0 => ?_, fun fail => ?_⟩⟩, fun hd hde m hm i hi => ?_,
    fun hd ha' hb hb' hp h8 hsp h64 hg comp hcomp => ⟨fun hroom hpk => ?_, fun hfull => ?_⟩⟩
  · obtain ⟨k, hr, hdrop⟩ := signalRelease_quiet s h he hq
    obtain ⟨g, hg⟩ := decrement_released s.cq (s.usrc a).toNat (s.usrc b).toNat s.cb.gid (settled (s.setCores k)).cw.hb
      (settled (s.setCores k)) hs hv
    rw [BitVec.ofNat_toNat, BitVec.setWidth_eq] at hg
    refine ⟨k, g, _, ?_, hdrop, signalCtr_commits s _ false _ _ k h hr rfl rfl hg⟩
    rw [exec_tksig s sw false a b ha hb, withCtr_owned s _ _ hlt ho, if_neg]
    rintro ⟨-, hz | hz⟩
    · rw [hz] at h0; exact absurd h0 (by decide)
    · omega
  · obtain ⟨k, hr, hdrop⟩ := signalRelease_quiet s h he hq
    obtain ⟨g, hg⟩ := setCtr_released s.cq (s.usrc a).toNat (bundleOrder s) (s.usrc b) (settled (s.setCores k)).cw.hb
      (settled (s.setCores k)) hs h0
    refine ⟨k, g, _, ?_, hdrop, signalCtr_commits s _ true _ _ k h hr rfl rfl hg⟩
    rw [exec_tksig s sw true a b ha hb, withCtr_owned s _ _ hlt ho, if_neg fun hz => absurd hz.1 (by decide)]
  · refine ⟨_, ?_, raiseMask_taken _ _ _ _ s h⟩
    rw [exec_tksig s sw false a b ha hb, withCtr_owned s _ _ hlt ho, if_pos ⟨rfl, hbad⟩]
    rfl
  · obtain ⟨k, g, hdrop, hnow⟩ := tkjoinDone_now (s.usrc a).toNat d s h hd hde
    refine ⟨k, g, _, ?_, hdrop, hnow⟩
    rw [exec_tkjoin s sw d a hd hde ha, withCtr_owned s _ _ hlt ho, if_pos h0]
  · refine ⟨_, ?_, parkBundle_parked _ s h⟩
    rw [exec_tkjoin s sw d a hd hde ha, withCtr_owned s _ _ hlt ho, if_neg h0]
  · refine ⟨_, (exec_tkread s sw fail d a hd hde ha).trans (congrArg _ (withCtr_owned s _ _ hlt ho)), ?_⟩
    exact outUniform_due d true _ s h (fun _ => evenCode_even d hde) (warpOrZ_dest d hd)
  · have hz : uniCode 92 = true := rfl
    refine ⟨raiseEngine m s.cur.pc s, ?_, raiseMask_taken _ _ _ _ s h⟩
    simp only [List.mem_cons, List.not_mem_nil, or_false] at hi
    obtain rfl | rfl | rfl := hi
    · rw [exec_tksig s sw false a 92 ha hz, withCtr_refused s _ m _ hm]
    · rw [exec_tkjoin s sw d a hd hde ha, withCtr_refused s _ m _ hm]
    · rw [exec_tkread s sw false d a hd hde ha, withCtr_refused s _ m _ hm]
  · subst hcomp
    refine ⟨_, ?_, queryArrive_committed _ _ _ s h⟩
    rw [exec_wdq s sw d a b hd ha ha' hb hb' hp h8 hsp h64 hg, if_neg]
    · rfl
    · simpa using ⟨hroom, hpk⟩
  · subst hcomp
    refine ⟨_, ?_, parkBundle_parked _ s h⟩
    rw [exec_wdq s sw d a b hd ha ha' hb hb' hp h8 hsp h64 hg, if_pos]
    · rfl
    · simpa using hfull

end Sys2Proof.Machine
end

section
/-! The work distributor: its answers, its leases, and room in its queue (O46). -/
namespace Sys2Proof.Machine

/-! ### An answer (R320) -/
/-- The four bytes of a word on their way to the scratchpad. -/
def wordWrites (off : Nat) (w : Word) : List LWrite :=
  mapIdxFrom (fun i b => { space := .sp, off := off + i, val := b }) 0 (wordBytes w)
theorem mem_wordWrites (off : Nat) (w : Word) (y : LWrite) (h : y ∈ wordWrites off w) :
    y.space = .sp ∧ off ≤ y.off ∧ y.off < off + 4 := by
  simp only [wordWrites, wordBytes, leBytes, mapIdxFrom, List.mem_cons, List.not_mem_nil, or_false] at h
  obtain rfl | rfl | rfl | rfl := h <;> exact ⟨rfl, by dsimp only; omega, by dsimp only; omega⟩
/-- Two words in a row, byte by byte. -/
theorem wordWrites_fold (off : Nat) (w0 w1 : Word) (m : Memory) :
    (wordWrites (off + 4) w1).foldl (fun m w => memWrite m w.off w.val)
      ((wordWrites off w0).foldl (fun m w => memWrite m w.off w.val) m) = memWriteBytes m off (wordBytes w0 ++ wordBytes w1) := rfl
/-- The state in which the head query has left the queue. -/
def headLeft (u : State) : State := u.setWd { u.wd with queries := u.wd.queries.drop 1 }
theorem answer_eq (x : Query) (w0 w1 : Word) (u : State) (h : answerable u x) : answer x w0 w1 u =
    localStore x.bk (wordWrites (x.off + 4) w1) none (localStore x.bk (wordWrites x.off w0) none (headLeft u)) := by
  obtain ⟨hb, hk, -⟩ := h
  obtain ⟨b, hf⟩ := Option.isSome_iff_exists.1 hb
  have e : u.block x.bk = b := by rw [State.block, mGet, hf]; rfl
  rw [e] at hk
  rw [answer, if_pos (by rw [hf, Option.any_some, hk]; rfl)]
  rfl
/-- An answer's two words stand in the scratchpad, and everything else is as before. -/
theorem answer_answered (x : Query) (w0 w1 : Word) (u : State) (h : answerable u x) : answered x w0 w1 u (answer x w0 w1 u) := by
  rw [answer_eq x w0 w1 u h]
  obtain ⟨hb, -, hn⟩ := h
  have hquiet : ∀ (b : Block) (off : Nat) (w : Word), b.chans = (u.block x.bk).chans → x.off ≤ off → off + 4 ≤ x.off + 8 →
      ∀ ch < 8, (mGet b.chans Chan.init ch).log2 ≠ 0 → ∀ y ∈ wordWrites off w,
        y.off < (mGet b.chans Chan.init ch).base ∨ (mGet b.chans Chan.init ch).base + 4 ≤ y.off := by
    intro b off w hc h1 h2 ch hch hl y hy
    obtain ⟨-, h3, h4⟩ := mem_wordWrites off w y hy
    rw [hc] at hl ⊢
    exact hn ch hch hl y.off ⟨by omega, by omega⟩
  obtain ⟨F, hF, hF'⟩ := localStore_upd x.bk .sp (wordWrites x.off w0) none (headLeft u)
    (fun y hy => (mem_wordWrites _ _ y hy).1) hb fun _ => hquiet _ _ _ rfl (by omega) (by omega)
  have hblk : ((headLeft u).updBlock x.bk F).block x.bk = F (u.block x.bk) := State.updBlock_block _ _ _ hb
  obtain ⟨G, hG, hG'⟩ := localStore_upd x.bk .sp (wordWrites (x.off + 4) w1) none ((headLeft u).updBlock x.bk F)
    (fun y hy => (mem_wordWrites _ _ y hy).1) (by rw [State.updBlock_find, if_pos rfl, Option.isSome_map]; exact hb)
    fun _ => hquiet _ _ _ (by rw [hblk]; exact (hF' _).1) (by omega) (by omega)
  rw [hF, hG, updBlock_twice]
  have hend : ((headLeft u).updBlock x.bk fun b => G (F b)).block x.bk = G (F (u.block x.bk)) := State.updBlock_block _ _ _ hb
  have hsp : (G (F (u.block x.bk))).sp = memWriteBytes (u.block x.bk).sp x.off (wordBytes w0 ++ wordBytes w1) := by
    have h1 := (hG' (F (u.block x.bk))).2.2 .sp
    have h2 := (hF' (u.block x.bk)).2.2 .sp
    rw [if_pos rfl] at h1 h2
    rw [h2] at h1
    exact h1.trans (wordWrites_fold x.off w0 w1 _)
  refine ⟨rfl, ?_, ?_, fun o ho => ?_, fun q hq => ?_, fun k hk => ?_⟩
  · rw [hend, hsp]
    exact bytes_word w0 _ x.off [] (wordBytes w1) x.off rfl
  · rw [hend, hsp]
    have := bytes_word w1 (u.block x.bk).sp x.off (wordBytes w0) [] (x.off + 4) rfl
    rwa [List.append_nil] at this
  · rw [hend, hsp, memRead_memWriteBytes, if_neg]
    have : (wordBytes w0 ++ wordBytes w1).length = 8 := rfl
    omega
  · rw [hend, (hG' _).2.2, if_neg hq, (hF' _).2.2, if_neg hq]
  · rw [State.updBlock_find, if_neg (Ne.symm hk)]
    rfl

/-! ### Serving the head query (R319, R335) -/
theorem exec_wdQuery (s : State) (x : Query) (hx : s.wd.queries.head? = some x) (hh : x.held = false) :
    exec .wdQuery s = .next (serveQuery x s) := by
  obtain ⟨t, ht⟩ := List.head?_eq_some_iff.1 hx
  show execWdQuery s = _
  rw [execWdQuery, ht]
  simp only [hh, Bool.false_eq_true, if_false]
theorem serveQuery_malformed (s u : State) (x : Query) (d : List Word) (hd : readDesc x s = (.ok d, u)) (hm : tMalformed d = true) :
    serveQuery x s = answerEnd x (postRecord (wdRecord x 0x11 0x48 x.desc .none) u) := by
  simp only [serveQuery, hd, WdRes.andThen, hm, if_true]
/-- A query that has just come, without a completion, goes to the front of its set. -/
theorem serveQuery_start (s u : State) (x : Query) (d : List Word) (hd : readDesc x s = (.ok d, u)) (hm : tMalformed d = false)
    (hst : x.stage = .start) (hc : x.comp = none) (t : State)
    (ht : serveFront x d (tEnd d + 2) none (queryAt .front u) = (.ok (), t)) : serveQuery x s = t := by
  have e : serveFrom x d u = (.ok (), t) := by
    rw [serveFrom, hst, hc]
    exact ht
  simp only [serveQuery, hd, WdRes.andThen, hm, Bool.false_eq_true, if_false, e]
/-- The next index lies in a set without a map (R317). -/
theorem serveFront_within (x : Query) (d : List Word) (fuel : Nat) (s u : State) (v : DWord)
    (hv : wdAtom x.part (x.desc + 4) .add false 1 0 s = (.ok v, u)) (hm : tMap d = 0) (hlt : v.toNat < tEnd d) :
    serveFront x d (fuel + 1) none s = (.ok (), answer x (BitVec.ofNat 32 (tCoord d v.toNat)) (BitVec.ofNat 32 (v.toNat + 1))
      (queryAt (.at_ v.toNat) u)) := by
  simp only [serveFront, hv, WdRes.andThen, hlt, if_true, serveIndex, hm]
  rfl
/-- The next index lies past the end of a set that steals nothing and has no entry on the watch list. -/
theorem serveFront_past (x : Query) (d : List Word) (fuel : Nat) (s u : State) (v : DWord)
    (hv : wdAtom x.part (x.desc + 4) .add false 1 0 s = (.ok v, u)) (hlt : tEnd d ≤ v.toNat) (hst : tSteal d = false)
    (hw : watchedBy u x = []) : serveFront x d (fuel + 1) none s = (.ok (), answerEnd x (queryAt .back u)) := by
  have hw' : watchedBy (updQuery (fun y => { y with stage := .back }) u) x = [] := hw
  simp only [serveFront, hv, WdRes.andThen, Nat.not_lt.2 hlt, if_false, serveBack, hw', List.filter_nil, reclaimAny, hst,
    Bool.false_eq_true, List.isEmpty_nil, if_true]
  rfl

/-! ### Leases (R325) -/
theorem exec_leaseExpiry (s u t : State) (i : Nat) (x : Query) (w : Watch) (d : List Word) (ok : Bool)
    (hl : leaseDue s i = some (x, w)) (hd : readDesc x s = (.ok d, u)) (ht : reclaim x d w u = (.ok ok, t)) :
    exec (.leaseExpiry i) s = .next t := by
  show execLeaseExpiry i s = _
  simp only [execLeaseExpiry, hl, hd, WdRes.andThen, ht]
/-- Another has taken or finished the tile. -/
theorem reclaim_lost (x : Query) (d : List Word) (w : Watch) (u u1 : State)
    (h : wdCas x.part (tMap d + 8 * w.i) (takenWord w.d w.s) (queuedWord (nextSeq w.s)) u = (.ok false, u1)) :
    reclaim x d w u = (.ok false, unwatch w u1) := by
  simp only [reclaim, h, WdRes.andThen, Bool.not_false, if_true]
theorem reclaim_taken (x : Query) (d : List Word) (w : Watch) (u u1 u2 : State)
    (h : wdCas x.part (tMap d + 8 * w.i) (takenWord w.d w.s) (queuedWord (nextSeq w.s)) u = (.ok true, u1))
    (h2 : wdCas x.part (tMap d + 8 * w.i) (queuedWord (nextSeq w.s)) (takenWord (unwatch w u1).host.device (nextSeq w.s))
      (unwatch w u1) = (.ok true, u2)) :
    reclaim x d w u = (.ok true, answer x (BitVec.ofNat 32 (tCoord d w.i)) (BitVec.ofNat 32 (nextSeq w.s)) u2) := by
  simp only [reclaim, h, WdRes.andThen, Bool.not_true, Bool.false_eq_true, if_false, h2, if_true]

/-! ### Room in the queue (R335) -/
theorem exec_wdQueueRoom (s : State) (wk desc off : Nat) (p : Park) (comp : Option (Word × Word))
    (h : (waitingQueries s).head? = some (wk, p, desc, off, comp)) (hroom : s.wd.queries.length < 1024) :
    exec .wdQueueRoom s = .next ((queryArrive desc off comp (resumed wk p s)).setCur s.cur) := by
  obtain ⟨t, ht⟩ := List.head?_eq_some_iff.1 h
  show execWdQueueRoom s = _
  simp only [execWdQueueRoom, ht, hroom, if_true]
  rfl

/-! ### The obligation -/
/-- Settles O46: each service of the head query ends in one answer, a lost lease in none. -/
theorem distributorServes : Obligations.DistributorServes := by
  refine ⟨fun s u x d hx hh hd => ⟨fun hm ha => ?_, fun hm hst hc v u' hv ha => ⟨fun hmap hlt => ?_, fun hlt hsteal hw => ?_⟩⟩,
    fun s u u1 i x w d hl hd => ⟨fun h => ?_, fun h u2 h2 ha => ?_⟩, fun s wk desc off p comp h hroom hb => ?_⟩
  · refine ⟨_, exec_wdQuery s x hx hh, ?_⟩
    rw [serveQuery_malformed s u x d hd hm]
    exact answer_answered x _ _ (postRecord _ u) ha
  · refine ⟨_, exec_wdQuery s x hx hh, ?_⟩
    rw [serveQuery_start s u x d hd hm hst hc _ (serveFront_within x d (tEnd d + 1) _ u' v hv hmap hlt)]
    exact answer_answered x _ _ (queryAt _ u') ha
  · refine ⟨_, exec_wdQuery s x hx hh, ?_⟩
    rw [serveQuery_start s u x d hd hm hst hc _ (serveFront_past x d (tEnd d + 1) _ u' v hv hlt hsteal hw)]
    exact answer_answered x _ _ (queryAt _ u') ha
  · exact exec_leaseExpiry s u _ i x w d false hl hd (reclaim_lost x d w u u1 h)
  · exact ⟨_, exec_leaseExpiry s u _ i x w d true hl hd (reclaim_taken x d w u u1 u2 h h2), answer_answered x _ _ u2 ha⟩
  · exact ⟨_, exec_wdQueueRoom s wk desc off p comp h hroom, queryArrive_committed desc off comp _ hb⟩

end Sys2Proof.Machine
end

section
/-! Launches, the dispatch of a block, and completion (O45). -/
namespace Sys2Proof.Machine

/-! ### LAUNCH (R378, R388) -/
/-- A launch as it stands in its record, before its launch values. -/
def launchBare (queue tag : Nat) (r : List Word) (s : State) : Grid :=
  { Grid.none with gid := nextGrid s.launch.accepted, queue := queue, tag := tag, record := r,
                   watchdog := 1024 * ({ Grid.none with record := r } : Grid).budget }
/-- A launch with the launch values that its record names. -/
def launchSeeded (queue tag : Nat) (r : List Word) (s : State) : SeedFrom → Grid
  | .now vs => (launchBare queue tag r s).seed vs
  | .later n => { launchBare queue tag r s with src := some n }
  | .never => neverGrid s.tick (launchBare queue tag r s)
/-- The grid of a launch that is accepted. -/
def launchGrid (queue tag : Nat) (r : List Word) (s : State) : Grid :=
  if badLaunch (launchBare queue tag r s) then neverGrid s.tick (launchBare queue tag r s)
  else launchSeeded queue tag r s (seedOf s (launchBare queue tag r s))
theorem exec_launch_open (s : State) (queue tag : Nat) (r : List Word) (hq : queue < 16) (hc : s.host.chanOpen = true)
    (h : s.rel.stage = 6) : exec (.launch queue tag r) s = .next (acceptLaunch queue tag r s) := by
  show execLaunch queue tag r s = _
  rw [execLaunch, hc, queuesOpen, h, hc, Nat.mod_eq_of_lt hq]
  rfl
theorem exec_launch_held (s : State) (queue tag : Nat) (r : List Word) (hq : queue < 16) (hc : s.host.chanOpen = true)
    (h : s.rel.stage ≠ 6) :
    exec (.launch queue tag r) s = .next (s.updLaunch fun l => { l with held := l.held ++ [(queue, tag, r)] }) := by
  show execLaunch queue tag r s = _
  rw [execLaunch, hc, queuesOpen, beq_false_of_ne h, Nat.mod_eq_of_lt hq]
  rfl
/-- A launch enters with its grid, and its queue where it runs. -/
def launchEnters (queue gid : Nat) (g : Grid) (s : State) : State :=
  s.updLaunch fun l => { l with
    accepted := l.accepted + 1, grids := mSet l.grids gid g,
    queues := if g.never then l.queues else mUpd l.queues [] queue (· ++ [gid]) }
/-- It enters, with four values drawn where a grid that never runs has none of its own (log 3), and is answered. -/
theorem acceptLaunch_enters (queue tag : Nat) (r : List Word) (s : State) : ∃ n, acceptLaunch queue tag r s =
    ((launchEnters queue (nextGrid s.launch.accepted) (launchGrid queue tag r s) s).setTick n).send
      (.launched tag (nextGrid s.launch.accepted)) := by
  have e : acceptLaunch queue tag r s =
      (if (launchGrid queue tag r s).never && (launchGrid queue tag r s).gsrc
        then (launchEnters queue (nextGrid s.launch.accepted) (launchGrid queue tag r s) s).setTick (s.tick + 4)
        else launchEnters queue (nextGrid s.launch.accepted) (launchGrid queue tag r s) s).send
        (.launched tag (nextGrid s.launch.accepted)) := rfl
  rw [e]
  split
  · exact ⟨_, rfl⟩
  · exact ⟨s.tick, rfl⟩
theorem launchEnters_grid (queue gid : Nat) (g : Grid) (s : State) (k : Nat) :
    (launchEnters queue gid g s).grid k = if gid = k then g else s.grid k := mGet_mSet _ _ _ _ _
/-- The fields that every launch takes from its record. -/
theorem launchGrid_fields (queue tag : Nat) (r : List Word) (s : State) :
    (launchGrid queue tag r s).gid = nextGrid s.launch.accepted ∧ (launchGrid queue tag r s).queue = queue ∧
      (launchGrid queue tag r s).tag = tag ∧ (launchGrid queue tag r s).record = r ∧
      (launchGrid queue tag r s).watchdog = 1024 * ({ Grid.none with record := r } : Grid).budget := by
  rw [launchGrid]
  split
  · exact ⟨rfl, rfl, rfl, rfl, rfl⟩
  · cases seedOf s (launchBare queue tag r s) <;> exact ⟨rfl, rfl, rfl, rfl, rfl⟩
theorem launchGrid_bad (queue tag : Nat) (r : List Word) (s : State) (h : badLaunch { Grid.none with record := r } = true) :
    launchGrid queue tag r s = neverGrid s.tick (launchBare queue tag r s) := if_pos h
theorem launchGrid_good (queue tag : Nat) (r : List Word) (s : State) (h : badLaunch { Grid.none with record := r } = false)
    (x : SeedFrom) (hx : seedOf s (launchBare queue tag r s) = x) : launchGrid queue tag r s = launchSeeded queue tag r s x := by
  subst hx
  exact if_neg (ne_true_of_eq_false h)
theorem seedOf_later (s : State) (g : Grid) (h : g.gsrc = true) (hf : (mFind s.launch.grids (recWord g.record 12).toNat).isSome = true) :
    seedOf s g = .later (recWord g.record 12).toNat := by
  simp only [seedOf, h, Bool.not_true, Bool.false_eq_true, if_false, hf, if_true]
theorem seedOf_published (s : State) (g : Grid) (h : g.gsrc = true)
    (hf : (mFind s.launch.grids (recWord g.record 12).toNat).isSome = false) (x : Nat × List Word)
    (hx : s.launch.published.find? (fun x => x.1 == (recWord g.record 12).toNat) = some x) : seedOf s g = .now x.2 := by
  simp only [seedOf, h, Bool.not_true, Bool.false_eq_true, if_false, hf, hx]
theorem seedOf_never (s : State) (g : Grid) (h : g.gsrc = true)
    (hf : (mFind s.launch.grids (recWord g.record 12).toNat).isSome = false)
    (hx : s.launch.published.find? (fun x => x.1 == (recWord g.record 12).toNat) = none) : seedOf s g = .never := by
  simp only [seedOf, h, Bool.not_true, Bool.false_eq_true, if_false, hf, hx]
theorem acceptLaunch_accepted (queue tag : Nat) (r : List Word) (s : State) :
    launchAccepted queue tag r s (acceptLaunch queue tag r s) := by
  obtain ⟨n, e⟩ := acceptLaunch_enters queue tag r s
  obtain ⟨f1, f2, f3, f4, f5⟩ := launchGrid_fields queue tag r s
  have hgrid : ∀ k, (acceptLaunch queue tag r s).grid k =
      if nextGrid s.launch.accepted = k then launchGrid queue tag r s else s.grid k := fun k => by
    rw [e]; exact launchEnters_grid _ _ _ _ _
  have hq : (acceptLaunch queue tag r s).launch.queues = if (launchGrid queue tag r s).never then s.launch.queues
      else mUpd s.launch.queues [] queue (· ++ [nextGrid s.launch.accepted]) := by rw [e]; rfl
  have hg := (hgrid (nextGrid s.launch.accepted)).trans (if_pos rfl)
  rw [launchAccepted]
  dsimp only
  rw [hg]
  refine ⟨by rw [e]; rfl, by rw [e]; rfl, fun k hk => (hgrid k).trans (if_neg (Ne.symm hk)), fun q hne => ?_, f1, f2, f3, f4, f5,
    by rw [e]; rfl, by rw [e]; rfl, by rw [e]; rfl, fun hbad => ?_, fun hgood => ?_⟩
  · rw [hq]
    split
    · rfl
    · rw [mGet_mUpd, if_neg (Ne.symm hne)]
  · rw [hq, launchGrid_bad queue tag r s hbad]
    exact ⟨rfl, rfl⟩
  · have hjoin : (launchGrid queue tag r s).never = false → mGet (acceptLaunch queue tag r s).launch.queues [] queue =
        mGet s.launch.queues [] queue ++ [nextGrid s.launch.accepted] := fun hn => by
      rw [hq, hn, if_neg Bool.false_ne_true, mGet_mUpd, if_pos rfl]
    have hseed := launchGrid_good queue tag r s hgood
    refine ⟨fun hsrc => ?_, fun hsrc hf => ?_, fun hsrc hf => ⟨fun x hx => ?_, fun hx => ?_⟩⟩
    · have e := hseed (.now (launchWords r)) (by rw [seedOf]; exact if_pos (congrArg _ hsrc))
      exact ⟨by rw [e]; rfl, hjoin (by rw [e]; rfl)⟩
    · have e := hseed (.later (recWord r 12).toNat) (seedOf_later s _ hsrc hf)
      exact ⟨by rw [e]; rfl, by rw [e]; rfl, hjoin (by rw [e]; rfl)⟩
    · have e := hseed (.now x.2) (seedOf_published s _ hsrc hf x hx)
      exact ⟨by rw [e]; rfl, hjoin (by rw [e]; rfl)⟩
    · have e := hseed .never (seedOf_never s _ hsrc hf hx)
      rw [hq, e]
      exact ⟨rfl, rfl⟩

/-! ### BLOCK_DISPATCH (R92 to R96, R119) -/
theorem exec_blockDispatch (s : State) (queue : Nat) (pl : Placement) (g : Grid) (cs : List Nat) (ho : queuesOpen s = true)
    (hg : queueHead s queue = some g) (hc : dispatchCores s g pl.cores = some cs) :
    exec (.blockDispatch queue pl) s = .next (dispatch g cs pl.part s) := by
  show execBlockDispatch queue pl s = _
  simp only [execBlockDispatch, ho, Bool.not_true, Bool.false_eq_true, if_false, hg, hc]
/-- The grid of a dispatch: its first block gives it its partition. -/
def placedGrid (g : Grid) (part : Nat) : Grid := if g.firstPlaced then g else { g with part := part % 8, firstPlaced := true }
/-- What a block finds on its core: before the first block of a grid, every snapshot is dropped. -/
def placedOn (g : Grid) (s : State) : State := if g.firstPlaced then s else dropSnapshots s
theorem placedOn_rest (g : Grid) (s : State) : (placedOn g s).mem = s.mem ∧ (placedOn g s).launch = s.launch ∧
    (placedOn g s).blocks = s.blocks ∧ (placedOn g s).warps = s.warps := by
  rw [placedOn]
  split <;> exact ⟨rfl, rfl, rfl, rfl⟩
theorem dropSnapshots_none (s : State) : (∀ k, ((dropSnapshots s).coreAt k).snaps = []) ∧
    ∀ q, ((dropSnapshots s).quad q).roSnaps = [] := by
  refine ⟨fun k => ?_, fun q => ?_⟩
  · show (mGet (s.cores.map _) Core.init k).snaps = []
    rw [mGet, mFind_mapAll s.cores k fun c => { c with snaps := [] }]
    cases mFind s.cores k <;> rfl
  · show (mGet (s.quads.map _) Quad.init q).roSnaps = []
    rw [mGet, mFind_mapAll s.quads q fun c => { c with roSnaps := [] }]
    cases mFind s.quads q <;> rfl
theorem placedGrid_eq (g : Grid) (part : Nat) : placedGrid g part =
    { g with part := if g.firstPlaced then g.part else part % 8, firstPlaced := true } := by
  rw [placedGrid]
  by_cases h : g.firstPlaced = true
  · rw [if_pos h, if_pos h]
    exact congrArg (fun b => { g with firstPlaced := b }) h
  · rw [if_neg h, if_neg h]
/-- The dispatch of a cluster of one, by the cluster that it makes, the queue served next and the queues that it leaves. -/
theorem dispatch_one (g : Grid) (core part : Nat) (s : State) : ∃ (m : Map Cluster) (rr : Nat) (qs : Map (List Nat)),
    dispatch g [core] part s =
      (placeBlockOn (placedGrid g part) (placedOn g s).launch.nextBk 0 core ((placedOn g s).setClusters m)).updLaunch fun l =>
        { l with grids := mSet l.grids (placedGrid g part).gid
                   { placedGrid g part with next := (placedGrid g part).next + (placedGrid g part).csize }, rr := rr, queues := qs } :=
  ⟨_, _, _, rfl⟩

/-- A number is made of its two remainders and the quotient that is left. -/
theorem coords_recompose (n a b : Nat) : n % a + a * (n / a % b + b * (n / a / b)) = n := by
  rw [Nat.mod_add_div, Nat.mod_add_div]
theorem startWregs_wreg (g : Grid) (r : Nat) : mGet (startWregs g) 0 r = if r = 0 then g.params.setWidth 32 else 0 := by
  rw [startWregs]
  split
  · next h => rw [h]; split <;> rfl
  · by_cases hr : r = 0
    · subst hr; rfl
    · rw [if_neg hr]
      simp [mGet, mFind, Ne.symm hr]
/-- A warp at its start. -/
theorem startWarp_fresh (g : Grid) (bk i : Nat) : (∀ l < 32, (startWarp g bk i).lane l = Lane.start g.entry) ∧
    (∀ r l, (startWarp g bk i).vreg r l = 0) ∧ (startWarp g bk i).sregs = [] ∧
    (∀ r, (startWarp g bk i).wreg r = if r = 0 then g.params.setWidth 32 else 0) ∧ (startWarp g bk i).retired = 0 ∧
    (startWarp g bk i).fpflags = 0 := by
  refine ⟨fun l hl => ?_, fun r l => rfl, rfl, startWregs_wreg g, rfl, rfl⟩
  exact List.getD_replicate (x := Lane.start g.entry) hl
theorem warpKey_inj (bk i j : Nat) : warpKey bk i = warpKey bk j ↔ i = j := by
  rw [warpKey, warpKey]
  omega
/-- The warps of a block that is placed, among the others. -/
theorem startWarps_find (g : Grid) (bk n : Nat) (m : Map Warp) :
    (∀ i < n, mFind ((rangeFrom 0 n).foldl (fun m i => mSet m (warpKey bk i) (startWarp g bk i)) m) (warpKey bk i) =
      some (startWarp g bk i)) ∧
    ∀ k, (∀ i < n, k ≠ warpKey bk i) →
      mFind ((rangeFrom 0 n).foldl (fun m i => mSet m (warpKey bk i) (startWarp g bk i)) m) k = mFind m k := by
  obtain ⟨hother, hown⟩ := foldKey (rangeFrom 0 n) (warpKey bk) (startWarp g bk) m
  refine ⟨fun i hi => hown ?_ i ((mem_rangeFrom _ _ _).2 ⟨by omega, by omega⟩), fun k hk => hother k fun i hi => ?_⟩
  · exact (List.nodup_map_iff fun i j h => (warpKey_inj bk i j).1 h).2 (range_nodup 0 n)
  · obtain ⟨-, hi⟩ := (mem_rangeFrom _ _ _).1 hi
    exact (hk i (by omega)).symm
theorem dispatch_placed (g : Grid) (core part : Nat) (s : State) (hc : g.csize = 1) :
    blockPlaced g part core s (dispatch g [core] part s) := by
  obtain ⟨m, rr, qs, e⟩ := dispatch_one g core part s
  obtain ⟨p1, p2, p3, p4⟩ := placedOn_rest g s
  rw [placedGrid_eq] at e
  obtain ⟨G, hG⟩ : ∃ G : Grid, G = { g with part := if g.firstPlaced then g.part else part % 8, firstPlaced := true } := ⟨_, rfl⟩
  rw [← hG] at e
  obtain ⟨t, ht⟩ : ∃ t, t = dispatch g [core] part s := ⟨_, rfl⟩
  rw [← ht] at e ⊢
  have hblock : ∀ k, mFind t.blocks k = if s.launch.nextBk = k
      then some (startBlock ((placedOn g s).setClusters m) G s.launch.nextBk s.launch.nextBk 0 core G.next)
      else mFind s.blocks k := fun k => by
    rw [e, ← p2, ← p3]
    exact mFind_mSet _ _ _ _
  have hwarps : t.warps = (rangeFrom 0 g.nwarps).foldl
      (fun m i => mSet m (warpKey s.launch.nextBk i) (startWarp G s.launch.nextBk i)) s.warps := by
    rw [e, ← p2, ← p4, hG]
    rfl
  have hgrid : ∀ k, t.grid k = if g.gid = k then { G with next := g.next + g.csize } else s.grid k := fun k => by
    have hg : (placedOn g s).grid k = s.grid k := by rw [State.grid, p2, State.grid]
    rw [e, ← hg, hG]
    exact mGet_mSet _ _ _ _ _
  have hown : t.block s.launch.nextBk =
      startBlock ((placedOn g s).setClusters m) G s.launch.nextBk s.launch.nextBk 0 core G.next := by
    rw [State.block, mGet, hblock, if_pos rfl]
    rfl
  obtain ⟨hw, hw'⟩ := startWarps_find G s.launch.nextBk g.nwarps s.warps
  rw [blockPlaced]
  dsimp only
  rw [hown, hG]
  refine ⟨by rw [e, ← p1]; rfl, by rw [e, ← p2]; rfl, rfl, rfl, rfl, rfl, rfl, coords_recompose _ _ _, Nat.mod_lt _,
    Nat.mod_lt _, fun q o => by cases q <;> rfl, rfl, rfl, rfl, rfl, rfl, fun i hi => ?_, fun k hk => ?_, fun k hk => ?_, ?_,
    fun k hk => ?_, fun hf => ?_⟩
  · have hi := hw i hi
    rw [← hwarps] at hi
    rw [warp_of_mFind hi]
    have hentry : G.entry = g.entry := by rw [hG]; rfl
    have hparams : G.params = g.params := by rw [hG]; rfl
    rw [← hentry, ← hparams]
    exact startWarp_fresh G s.launch.nextBk i
  · rw [hblock, if_neg (Ne.symm hk)]
  · rw [hwarps, hw' k hk]
  · rw [hgrid, if_pos rfl, hc]
  · rw [hgrid, if_neg (Ne.symm hk)]
  · have hp : placedOn g s = dropSnapshots s := by rw [placedOn, hf, if_neg Bool.false_ne_true]
    have hcores : t.cores = (dropSnapshots s).cores := by rw [e, hp]; rfl
    have hquads : t.quads = (dropSnapshots s).quads := by rw [e, hp]; rfl
    obtain ⟨h1, h2⟩ := dropSnapshots_none s
    refine ⟨fun k => ?_, fun q => ?_⟩
    · rw [State.coreAt, hcores]; exact h1 k
    · rw [State.quad, hquads]; exact h2 q

/-! ### COMPLETE (R379, R131) -/
theorem exec_complete (s : State) (gid : Nat) (h : canComplete s (s.grid gid) = true) :
    exec (.complete gid) s = .next (completeGrid (s.grid gid) s) := by
  show execComplete gid s = _
  rw [execComplete, if_pos h]
/-- The launch values that a waiting grid takes from a completed one. -/
def takeValues (gid : Nat) (vs : List Word) (x : Grid) : Grid := if x.src = some gid then x.seed vs else x
theorem completeGrid_grids (g : Grid) (s : State) (k : Nat) : mFind (completeGrid g s).launch.grids k =
    if k = g.gid then none else (mFind s.launch.grids k).map (takeValues g.gid g.results) := by
  show mFind ((mErase s.launch.grids g.gid).map fun kx => (kx.1, takeValues g.gid g.results kx.2)) k = _
  rw [mFind_mapAll, mFind_mErase]
  by_cases hk : k = g.gid
  · rw [if_pos hk.symm, if_pos hk]; rfl
  · rw [if_neg (Ne.symm hk), if_neg hk]

/-- A grid that completes leaves the launch unit its values, and those who waited for them take them. -/
theorem completeGrid_grid (g : Grid) (s : State) (k : Nat) (hk : k ≠ g.gid) :
    (completeGrid g s).grid k = takeValues g.gid g.results (s.grid k) := by
  rw [State.grid, mGet, completeGrid_grids, if_neg hk, State.grid, mGet]
  cases mFind s.launch.grids k <;> rfl

/-! ### The obligation -/
/-- Settles O45: a launch by its grid, a dispatch by its block, a completion by the grid that leaves. -/
theorem launchesAndCompletions : Obligations.LaunchesAndCompletions := by
  refine ⟨fun s queue tag r hq hc => ⟨exec_launch_held s queue tag r hq hc, fun h =>
      ⟨_, exec_launch_open s queue tag r hq hc h, acceptLaunch_accepted queue tag r s⟩⟩,
    fun s queue core pl g ho hg hc hd =>
      ⟨_, exec_blockDispatch s queue pl g [core] ho hg hd, dispatch_placed g core pl.part s hc⟩,
    fun s gid h hid => ⟨_, exec_complete s gid h, rfl, ?_, ?_, ?_, fun k hk => ?_⟩⟩
  · show s.host.out ++ _ = _
    rw [hid]
  · rw [completeGrid_grids, if_pos hid.symm]
  · show ((((s.grid gid).gid, (s.grid gid).results) :: s.launch.published).take 256).find? _ = _
    rw [hid, List.take_succ_cons, List.find?_cons, beq_self_eq_true]
  · rw [completeGrid_grid _ s k (by rw [hid]; exact hk), hid]
    rfl

end Sys2Proof.Machine
end

section
/-! The collective engines: permits, packets, timeouts, admission and completion (O49). The payload of a tag token is log 19's, the
member that a collective waits for log 20's. -/
namespace Sys2Proof.Machine

/-! ### One collective of a die changed -/
/-- The engines alone have changed. -/
theorem updColl_dies (die cid : Nat) (f : Coll → Coll) (s : State) :
    updColl die cid f s = s.setDies (updColl die cid f s).dies := rfl
theorem updColl_die (die cid : Nat) (f : Coll → Coll) (s : State) : (updColl die cid f s).die die =
    { s.die die with colls := (s.die die).colls.map fun x => if x.cid = cid then f x else x } := by
  rw [updColl, State.updDie_die, if_pos rfl]
theorem collAt_cid {s : State} {die cid : Nat} {x : Coll} (h : collAt s die cid = some x) : x.cid = cid := by
  simpa using List.find?_some h
/-- A collective that is changed, under its number. -/
theorem updColl_collAt (die cid : Nat) (f : Coll → Coll) (s : State) (hf : ∀ x, (f x).cid = x.cid) :
    collAt (updColl die cid f s) die cid = (collAt s die cid).map f := by
  rw [collAt, updColl_die]
  dsimp only
  rw [List.find?_map]
  have e : ((fun x : Coll => x.cid == cid) ∘ fun x => if x.cid = cid then f x else x) = fun x => x.cid == cid := by
    funext x
    show ((if x.cid = cid then f x else x).cid == cid) = (x.cid == cid)
    split <;> simp [hf]
  rw [e]
  cases h : collAt s die cid with
  | none =>
    rw [collAt] at h
    rw [h]; rfl
  | some x =>
    have hx := collAt_cid h
    rw [collAt] at h
    rw [h, Option.map_some, Option.map_some, if_pos hx]
theorem updColl_some (die cid : Nat) (f : Coll → Coll) (s : State) (x : Coll) (hf : ∀ x, (f x).cid = x.cid)
    (h : collAt s die cid = some x) : collAt (updColl die cid f s) die cid = some (f x) := by
  rw [updColl_collAt die cid f s hf, h]; rfl
@[simp] theorem updColl_slotAt (die cid : Nat) (f : Coll → Coll) (s : State) (n : Nat) :
    slotAt (updColl die cid f s) die n = slotAt s die n := by
  rw [slotAt, updColl_die, slotAt]
@[simp] theorem updColl_collCfg (die cid : Nat) (f : Coll → Coll) (s : State) (x : Coll) :
    collCfg (updColl die cid f s) die x = collCfg s die x := by
  rw [collCfg, updColl_slotAt, collCfg]

/-- A message changes no engine. -/
theorem send_die (s : State) (m : Msg) (k : Nat) : (s.send m).die k = s.die k := rfl
theorem send_collAt (s : State) (m : Msg) (die cid : Nat) : collAt (s.send m) die cid = collAt s die cid := rfl
theorem send_collCfg (s : State) (m : Msg) (die : Nat) (x : Coll) : collCfg (s.send m) die x = collCfg s die x := rfl

/-! ### A collective that cannot go on (R341, R345) -/
/-- The stage that a collective is at is over. -/
def stageOver (v : StageView) (x : Coll) : Bool := if xReduces x.desc && !x.back then reduceOver v x else spreadOver v x
/-- It has ended, its own token is still on its way, or its stage is not over. -/
def Coll.rests (g : GroupCfg) (die : Nat) (x : Coll) : Prop :=
  x.phase = 3 ∨ (x.phase = 1 ∧ gStages g ≠ [] ∧ (viewOf g die x).alone = false) ∨
    (x.phase = 2 ∧ stageOver (viewOf g die x) x = false)
theorem goOn_rests (die cid : Nat) (n : Nat) (s : State) (x : Coll) (g : GroupCfg) (hx : collAt s die cid = some x)
    (hg : collCfg s die x = some g) (h : x.rests g die) : goOn die cid n s = s := by
  cases n with
  | zero => rfl
  | succ n =>
    simp only [goOn, hx, hg]
    obtain h3 | ⟨h1, hne, ha⟩ | ⟨h2, ho⟩ := h
    · simp [h3]
    · simp [h1, ha, hne]
    · rw [stageOver] at ho
      cases hr : (xReduces x.desc && !x.back) <;> simp [h2, hr] at ho ⊢ <;> simp [ho]

/-! ### Permits (R344) -/
theorem transmit_away (p : Pkt) (s : State) (h : p.dev ≠ s.host.device) : transmit p s = s.send (.packet p) := if_neg h
theorem givePermit_sends (die link : Nat) (s : State) (o : Nat × Pkt) (ho : (s.die die).outbox.find? (fun o => o.1 == link) = some o)
    (hd : o.2.dev ≠ s.host.device) : givePermit die link s =
      (s.updDie die fun d => { d with outbox := d.outbox.erase o }).send (.packet o.2) := by
  simp only [givePermit, ho]
  exact transmit_away o.2 _ hd
theorem givePermit_keeps (die link : Nat) (s : State) (ho : (s.die die).outbox.find? (fun o => o.1 == link) = none) :
    givePermit die link s =
      s.updDie die fun d => { d with permits := mSet d.permits link (min 64 (mGet d.permits 64 link + 1)) } := by
  simp only [givePermit, ho]
/-- A packet's cell is free, and its sender's package hears of it. -/
theorem returnPermit_away (die src : Nat) (h : List Word) (s : State) (hd : hDev h ≠ s.host.device) :
    returnPermit die src h s = s.send (.permit (hDev h) die (linkKey s.host.device die)) := if_neg hd

/-! ### Packets (R343, R360) -/
/-- A packet that no cell of the staging holds comes from outside the package. -/
theorem recvPacket_fresh (die mask : Nat) (h : List Word) (pl : List Byte) (s : State) (hn : ∀ p ∈ (s.die die).inbox, p.hdr ≠ h) :
    (pktVerdict s die die h = .drop →
      recvPacket die h mask pl s = s.updDie die fun d => { d with errs := d.errs + 1 }) ∧
    (pktVerdict s die die h = .wait → recvPacket die h mask pl s = s.updDie die fun d => { d with
      inbox := d.inbox ++ [{ dev := s.host.device, die := die, src := die, hdr := h, mask := mask, payload := pl }] }) ∧
    ∀ g, pktVerdict s die die h = .take → (slotAt s die (hSlot h)).cfg = some g →
      recvPacket die h mask pl s = takePacket die die g h mask pl (returnPermit die die h s) := by
  have hnone : ∀ q : Pkt → Bool, (s.die die).inbox.find? (fun p => (p.hdr == h && p.mask == mask && p.payload == pl) && q p) = none :=
    fun q => List.find?_eq_none.2 fun p hp => by simp [beq_false_of_ne (hn p hp)]
  have hnone' : (s.die die).inbox.find? (fun p => p.hdr == h && p.mask == mask && p.payload == pl) = none :=
    List.find?_eq_none.2 fun p hp => by simp [beq_false_of_ne (hn p hp)]
  refine ⟨fun hv => ?_, fun hv => ?_, fun g hv hg => ?_⟩
  · simp only [recvPacket, hnone, hnone', Option.orElse_eq_orElse, Option.orElse_eq_or, Option.or_none, Option.map_none,
      Option.getD_none, hv]
  · simp only [recvPacket, hnone, hnone', Option.orElse_eq_orElse, Option.orElse_eq_or, Option.or_none, Option.map_none,
      Option.getD_none, hv, Option.isSome_none, Bool.false_eq_true, if_false]
  · simp only [recvPacket, hnone, hnone', Option.orElse_eq_orElse, Option.orElse_eq_or, Option.or_none, Option.map_none,
      Option.getD_none, hv, hg]
theorem pktVerdict_foreign (s : State) (die : Nat) (h : List Word) (ho : ownPacket s die h = false) :
    pktVerdict s die die h = .drop := by
  rw [pktVerdict, ho]; rfl
/-- The verdict on a packet of a collective that runs. -/
theorem pktVerdict_running (s : State) (die : Nat) (h : List Word) (g : GroupCfg) (x : Coll) (ho : ownPacket s die h = true)
    (hg : (slotAt s die (hSlot h)).cfg = some g) (hx : collOf s die (hSlot h) (hQ h) = some x) (hs : x.still = false)
    (ht : hStage h = 6 ∨ hStage h ≤ 4 ∧ atStage g x (pktStage g die die h) h = true) : pktVerdict s die die h = .take := by
  simp only [pktVerdict, ho, Bool.not_true, Bool.false_eq_true, if_false, hg, hx, hs]
  obtain h6 | ⟨h4, ha⟩ := ht
  · rw [if_pos h6]
  · rw [if_neg (by omega), if_neg (by omega), if_pos ha]
/-- LATE ends the collective (R347). -/
theorem takePacket_late (die mask : Nat) (g : GroupCfg) (h : List Word) (pl : List Byte) (s : State) (x : Coll)
    (hx : collOf s die (hSlot h) (hQ h) = some x) (h6 : hStage h = 6) :
    takePacket die die g h mask pl s = endColl die x.cid 1 s := by
  simp only [takePacket, h6, hx, if_true, if_neg (by decide : ¬ (6 : Nat) = 7)]
/-- A piece without a mask that comes at its stage, from a member that still counts. -/
theorem takePacket_piece (die : Nat) (g : GroupCfg) (h : List Word) (pl : List Byte) (s : State) (x : Coll)
    (hx : collOf s die (hSlot h) (hQ h) = some x) (hc : collAt s die x.cid = some x) (h4 : hStage h ≤ 4)
    (ha : atStage g x (pktStage g die die h) h = true)
    (hl : xReduces x.desc = true → x.excl.testBit (memberOf g (hDev h)) = false) :
    takePacket die die g h 0 pl s = goOnAll die x.cid
      (if xReduces x.desc && !x.back
        then takeReduce g die { x with timer := 0 } h (unitsOf (xUnit x.desc) (pl.length / xUnit x.desc) pl)
          (updColl die x.cid (fun x => { x with timer := 0 }) s)
        else takeSpread g die { x with timer := 0 } h (unitsOf (xUnit x.desc) (pl.length / xUnit x.desc) pl)
          (updColl die x.cid (fun x => { x with timer := 0 }) s)) := by
  have hy := updColl_some die x.cid (fun x => { x with timer := 0 }) s x (fun _ => rfl) hc
  have ha' : atStage g { x with timer := 0 } (pktStage g die die h) h = true := ha
  have hlate : (x.excl.testBit (memberOf g (hDev h)) && memberOf g (hDev h) != g.own && xReduces x.desc && !x.back) = false := by
    cases hr : xReduces x.desc
    · simp
    · rw [hl hr]; simp
  simp only [takePacket, if_neg (by omega : ¬ hStage h = 7), if_neg (by omega : ¬ hStage h = 6), hx, learnMask, if_true, hy,
    Option.getD_some, ha', Bool.not_true, Bool.false_eq_true, if_false, hlate]
theorem atStage_running {g : GroupCfg} {x : Coll} {st : Nat} {h : List Word} (ha : atStage g x st h = true) : x.phase = 2 := by
  simp only [atStage, Bool.and_eq_true, beq_iff_eq] at ha
  exact ha.1.1
/-- A collective's piece is in, and its stage still misses others. -/
theorem piece_lands (g : GroupCfg) (die j first : Nat) (us : List Nat) (s : State) (x : Coll) (hc : collAt s die x.cid = some x)
    (hg : collCfg s die x = some g) (hp : x.phase = 2)
    (ho : stageOver (viewOf g die x) { putGot j first us x with timer := 0 } = false) :
    ∃ t, goOnAll die x.cid (updColl die x.cid (putGot j first us) (updColl die x.cid (fun x => { x with timer := 0 }) s)) = t ∧
      collAt t die x.cid = some { putGot j first us x with timer := 0 } ∧ t.host = s.host := by
  have h1 := updColl_some die x.cid (fun x => { x with timer := 0 }) s x (fun _ => rfl) hc
  have h2 := updColl_some die x.cid (putGot j first us) _ _ (fun _ => rfl) h1
  exact ⟨_, goOn_rests die x.cid 24 _ _ g h2 (((updColl_collCfg ..).trans (updColl_collCfg ..)).trans hg) (.inr (.inr ⟨hp, ho⟩)), h2, rfl⟩
/-- The last leg of a route that this engine does not build on. -/
theorem sendOn_last (die : Nat) (g : GroupCfg) (x : Coll) (st : Nat) (h : List Word) (bs : List Byte) (leg : State → State) (s : State)
    (hr : hRouteLen (popRoute h) = 0) : sendOn die g x st h bs leg s = leg s := by
  rw [sendOn, hr, if_neg (Nat.lt_irrefl 0)]
/-- The first place of a packet's piece that has not come. -/
theorem freshAt_new (x : Coll) (j n first : Nat) (h : mFind x.got (gotKey j first) = none) : freshAt x j n first = some first := by
  rw [freshAt, rangeFrom, List.map_cons, List.find?_cons]
  simp [h]
/-- A piece is delivered where its round ends. -/
theorem takeSpread_last (g : GroupCfg) (die : Nat) (x : Coll) (h : List Word) (us : List Nat) (s : State)
    (hr : hRouteLen (popRoute h) = 0) (hf : mFind x.got (gotKey (hChunk h) (hFirst h)) = none) (ha : 2 ≤ hAction h)
    (hn : nextOn g die (viewOf g die x).st x.excl (viewOf g die x).me = (viewOf g die x).origin (hChunk h)) :
    takeSpread g die x h us s = updColl die x.cid (putGot (hChunk h) (hFirst h) us) s := by
  simp only [takeSpread, freshAt_new x _ _ _ hf, ha, if_true, sendOn_last _ _ _ _ _ _ _ _ hr, hn, true_or]
/-- A piece of the own chunk is combined with the own contribution, and stays. -/
theorem takeReduce_own (g : GroupCfg) (die : Nat) (x : Coll) (h : List Word) (us : List Nat) (s : State)
    (hr : hRouteLen (popRoute h) = 0) (hf : mFind x.got (gotKey (hChunk h) (hFirst h)) = none)
    (hj : hChunk h = (viewOf g die x).me) (hs : (viewOf g die x).start (viewOf g die x).me ≠ (viewOf g die x).me) (ha : hAction h ≠ 0) :
    takeReduce g die x h us s = updColl die x.cid (putGot (hChunk h) (hFirst h)
      ((us.zip ((ownChunk x (viewOf g die x).l (viewOf g die x).me).drop (hFirst h))).map fun p => combine x.desc p.1 p.2)) s := by
  rw [hj] at hf
  simp only [takeReduce, hj, beq_false_of_ne hs, Bool.false_and, Bool.not_false, Bool.true_and, Bool.false_or, hf, Option.isSome_none,
    Bool.false_eq_true, if_false, false_or, ha, sendOn_last _ _ _ _ _ _ _ _ hr, passOn, true_or, if_true]

/-! ### Timeouts (R347) -/
/-- A change of a die that leaves its collectives leaves each of them. -/
theorem updDie_collAt (die cid : Nat) (f : Die → Die) (s : State) (hf : ∀ d, (f d).colls = d.colls) :
    collAt (s.updDie die f) die cid = collAt s die cid := by
  rw [collAt, State.updDie_die, if_pos rfl, hf, collAt]
theorem updDie_collCfg (die : Nat) (f : Die → Die) (s : State) (x : Coll) (hf : ∀ d, (f d).slots = d.slots) :
    collCfg (s.updDie die f) die x = collCfg s die x := by
  rw [collCfg, slotAt, State.updDie_die, if_pos rfl, hf, collCfg, slotAt]
/-- With nothing waiting to be sent, nothing is sent another way. -/
theorem reroute_empty (die : Nat) (g : GroupCfg) (x : Coll) (c : Nat) (s : State) (h : (s.die die).outbox = []) :
    ∃ f : Die → List (Nat × Pkt), reroute die g x c s = s.updDie die fun d => { d with outbox := f d } := by
  rw [reroute, h]
  exact ⟨_, rfl⟩
/-- Only a combine forwards its sums without the member. -/
theorem forwardOwn_spreads (die cid : Nat) (g : GroupCfg) (gone : List Nat) (s : State) (x : Coll) (hx : collAt s die cid = some x)
    (hr : xReduces x.desc = false) : forwardOwn die cid g gone s = s := by
  simp only [forwardOwn, hx, hr, Bool.and_false, Bool.false_and, Bool.not_false, if_true]
/-- A collective as it goes on without a member. -/
def Coll.without (x : Coll) (c : Nat) : Coll := { x.mark 2 with excl := x.excl ||| 2 ^ c, timer := 0 }
theorem Coll.mark_rest (x : Coll) (n : Nat) : x.mark n = { x with status := (x.mark n).status } := by
  rw [Coll.mark]
  split <;> rfl
theorem Coll.without_rest (x : Coll) (c : Nat) :
    x.without c = { x with status := (x.mark 2).status, excl := x.excl ||| 2 ^ c, timer := 0 } := by
  rw [Coll.without, Coll.mark_rest]
/-- A member is excluded from a collective that spreads, has nothing waiting to be sent, and still misses others. -/
theorem excludeMember_waits (die cid c : Nat) (s : State) (x : Coll) (g : GroupCfg) (hx : collAt s die cid = some x)
    (hg : collCfg s die x = some g) (hp : x.phase = 2) (hout : (s.die die).outbox = []) (hr : xReduces x.desc = false)
    (ho : spreadOver (viewOf g die (x.without c)) (x.without c) = false) :
    excludeMember die cid c s = s.setDies (excludeMember die cid c s).dies ∧
      collAt (excludeMember die cid c s) die cid = some (x.without c) := by
  have hy : collAt (updColl die cid (fun x => { x.mark 2 with excl := x.excl ||| 2 ^ c, timer := 0 }) s) die cid = some (x.without c) :=
    updColl_some die cid (fun x => x.without c) s x (fun x => by rw [Coll.without_rest]) hx
  obtain ⟨hp', hr', hslot⟩ : (x.without c).phase = 2 ∧ xReduces (x.without c).desc = false ∧ (x.without c).slot = x.slot := by
    rw [Coll.without_rest]; exact ⟨hp, hr, rfl⟩
  obtain ⟨f, hf⟩ := reroute_empty die g (x.without c) c (updColl die cid (fun x => { x.mark 2 with excl := x.excl ||| 2 ^ c, timer := 0 }) s)
    (by rw [updColl_die]; exact hout)
  obtain ⟨u, hu⟩ : ∃ u, u = (updColl die cid (fun x => { x.mark 2 with excl := x.excl ||| 2 ^ c, timer := 0 }) s).updDie die
    fun d => { d with outbox := f d } := ⟨_, rfl⟩
  have hux : collAt u die cid = some (x.without c) := by
    rw [hu, updDie_collAt, hy]
    exact fun _ => rfl
  have hug : collCfg u die (x.without c) = some g := by
    rw [hu, updDie_collCfg, updColl_collCfg, collCfg, hslot]
    · exact hg
    · exact fun _ => rfl
  have hrest : (x.without c).rests g die := .inr (.inr ⟨hp', by rw [stageOver, hr']; exact ho⟩)
  have e : excludeMember die cid c s = u := by
    simp only [excludeMember, hx, hg, hy, hf, ← hu, hp', if_neg (by decide : ¬ (2 : Nat) = 1),
      forwardOwn_spreads die cid g _ u _ hux hr', ite_self]
    exact goOn_rests die cid 24 u _ g hux hug hrest
  rw [e]
  exact ⟨by rw [hu]; rfl, hux⟩
theorem stepTimeout_due (die cid : Nat) (s : State) (x : Coll) (g : GroupCfg) (hx : collAt s die cid = some x)
    (hg : collCfg s die x = some g) (hd : timeoutDue s die x = true) (hp : x.phase = 2) :
    (waitedFor s die g x = g.own → stepTimeout die cid s = updColl die cid (fun x => { x with timer := 0 }) s) ∧
      (waitedFor s die g x ≠ g.own → stepTimeout die cid s = excludeMember die cid (waitedFor s die g x) s) := by
  refine ⟨fun h => ?_, fun h => ?_⟩
  · simp only [stepTimeout, hx, hg, hd, Bool.not_true, Bool.false_eq_true, if_false, h, if_true, hp, if_neg (by decide : ¬ (2 : Nat) = 1)]
  · simp only [stepTimeout, hx, hg, hd, Bool.not_true, Bool.false_eq_true, if_false, h]

/-! ### Admission (R340, R345, R356) -/
/-- A collective as it is admitted, with the vector that it has read. -/
def Coll.admitted (x : Coll) (src : List Nat) : Coll :=
  { x with phase := 1, stage := 0, vecs := [src], got := [], begun := true, timer := 0 }
/-- The vector of a rank's source: parts with their sides. -/
def sourceVector (g : GroupCfg) (die : Nat) (r : List Word) (bs ds : List Byte) : List Nat :=
  interleave ((sourceLens g die r).1 / xUnit r / max 1 (xElems r)) (xElems r) (xSides r)
    (unitsOf (xUnit r) ((sourceLens g die r).1 / xUnit r) bs) (ds.map (·.toNat))
/-- The state of an admission whose source has been read in full. -/
def admittedState (die cid : Nat) (x : Coll) (src : List Nat) (v : State) : State :=
  updJob (quadOf x.core) x.jid (fun j => { j with admitted := true }) (updColl die cid (fun x => x.admitted src) v)
theorem admitColl_reads (s u v : State) (die cid : Nat) (x : Coll) (g : GroupCfg) (bs ds : List Byte) (hx : collAt s die cid = some x)
    (hg : collCfg s die x = some g) (hu : readSource x.part (xSrc x.desc) (sourceLens g die x.desc).1 s = (.ok (bs, []), u))
    (hv : readSource x.part (xSside x.desc) (sourceLens g die x.desc).2 u = (.ok (ds, []), v)) :
    admitColl die cid s = goOnAll die cid (if (gStages g).isEmpty then admittedState die cid x (sourceVector g die x.desc bs ds) v
      else beginStage die cid (admittedState die cid x (sourceVector g die x.desc bs ds) v)) := by
  simp only [admitColl, hx, hg, hu, hv, List.any_nil, Bool.and_false, Bool.false_eq_true, if_false, 
    mapIdxFrom_self (fun _ (u : Nat) => u) fun _ _ => rfl, List.isEmpty_nil,
    Bool.and_self, Bool.not_true]
  rfl
theorem exec_collectiveAdmission (s : State) (die cid : Nat) (x : Coll) (hx : collAt s die cid = some x) (hr : collReady s die x = true) :
    exec (.collectiveAdmission die cid) s = .next (admitColl die cid s) := by
  show execCollectiveAdmission die cid s = _
  simp only [execCollectiveAdmission, hx, hr, if_true]
/-- A job that is changed, or that is not there. -/
theorem updJob_map (s : State) (q jid : Nat) (f : Job → Job) (hf : ∀ x, (f x).jid = x.jid) :
    (updJob q jid f s).job q jid = (s.job q jid).map f := by
  cases h : s.job q jid with
  | some j => rw [updJob_job s q jid j f hf h]; rfl
  | none =>
    rw [updJob, State.job, State.updQuad_quad, if_pos rfl, Option.map_none, List.find?_eq_none]
    rw [State.job, List.find?_eq_none] at h
    intro y hy
    obtain ⟨j, hj, rfl⟩ := List.mem_map.1 hy
    have := h j hj
    split
    · simpa [hf] using this
    · exact this
/-- The job of an admitted collective is admitted too. -/
theorem admittedState_job (die cid : Nat) (x : Coll) (src : List Nat) (s v : State) (hq : v.quads = s.quads) :
    (admittedState die cid x src v).job (quadOf x.core) x.jid =
      (s.job (quadOf x.core) x.jid).map fun j => { j with admitted := true } := by
  have hj : s.job (quadOf x.core) x.jid = v.job (quadOf x.core) x.jid := by rw [State.job, State.quad, ← hq]; rfl
  rw [hj]
  exact updJob_map (updColl die cid (fun x => x.admitted src) v) _ _ (fun j => { j with admitted := true }) fun _ => rfl
/-- With no peer isolated, no stage excludes one. -/
theorem noteIsolated_none (g : GroupCfg) (die : Nat) (x : Coll) (s : State) (h : ∀ d, (mGet s.mem.peers Peer.init d).isolated = false) :
    noteIsolated g die x s = s := by
  rw [noteIsolated]
  generalize ((rangeFrom 0 (stageLen g (x.stageNo g))).map fun j => (ringPlace g die (x.stageNo g) j).c).dedup = cs
  induction cs with
  | nil => rfl
  | cons c t ih =>
    rw [List.foldl_cons, if_neg, ih]
    rintro ⟨-, hi, -⟩
    rw [h] at hi
    exact Bool.false_ne_true hi
/-- A packet that finds a permit and nothing before it leaves for the pod. -/
theorem sendPkt_leaves (die : Nat) (p : Pkt) (s : State) (hp : 0 < permitsOf s die (linkKey p.dev p.die)) (ho : (s.die die).outbox = [])
    (hd : p.dev ≠ s.host.device) : sendPkt die p s = (s.updDie die fun d =>
      { d with permits := mSet d.permits (linkKey p.dev p.die) (permitsOf s die (linkKey p.dev p.die) - 1) }).send (.packet p) := by
  rw [sendPkt, ho]
  exact (if_pos ⟨hp, rfl⟩).trans (transmit_away p _ hd)
/-- The packet of a collective's token for a place (R345): its stage, its place of origin, no mismatch, n. -/
def tokenPacket (die : Nat) (x : Coll) (st me dev to_ device : Nat) : Pkt :=
  { dev := dev, die := to_, src := die, hdr := mkHeader device 7 x.slot x.q x.tagBits 0 16 0 dev 1, mask := x.excl,
    payload := leBytes st 4 ++ leBytes me 4 ++ leBytes 0 4 ++ leBytes (xN x.desc) 4 }
/-- The tag round of a stage begins: the own token goes to the next place. -/
theorem beginStage_token (die cid : Nat) (s : State) (x : Coll) (g : GroupCfg) (hx : collAt s die cid = some x)
    (hg : collCfg s die x = some g) (hp : x.phase = 1) (hi : ∀ d, (mGet s.mem.peers Peer.init d).isolated = false)
    (ha : (viewOf g die x).alone = false) (to_ : Place)
    (hto : to_ = ringPlace g die (x.stageNo g) (nextOn g die (x.stageNo g) x.excl (viewOf g die x).me)) :
    beginStage die cid s = sendPkt die
      (tokenPacket die x (x.stageNo g) (viewOf g die x).me (g.devs.getD to_.c 0) to_.die s.host.device)
      (updColl die cid (fun x => { x with timer := 0 }) s) := by
  have hy := updColl_some die cid (fun x => { x with timer := 0 }) s x (fun _ => rfl) hx
  have hn : nextOn g die (x.stageNo g) x.excl (viewOf g die x).me ≠ (viewOf g die x).me := by
    rw [StageView.alone, beq_eq_false_iff_ne] at ha
    exact ha
  subst hto
  simp only [beginStage, hx, hg, noteIsolated_none g die x (updColl die cid _ s) hi, hy, hp, if_true]
  exact if_neg hn
theorem goOn_noStages (die cid n : Nat) (s : State) (x : Coll) (g : GroupCfg) (hx : collAt s die cid = some x)
    (hg : collCfg s die x = some g) (hp : x.phase = 1) (hst : gStages g = []) :
    goOn die cid (n + 1) s = goOn die cid n (updColl die cid (fun x => { x with phase := 3, stage := 0 }) s) := by
  simp only [goOn, hx, hg, hp, hst, List.isEmpty_nil, Bool.true_or, if_true]
/-- An admitted collective of a group without stages has its vector at once. -/
theorem admitted_alone (die cid : Nat) (s v : State) (x : Coll) (g : GroupCfg) (src : List Nat) (hx : collAt v die cid = some x)
    (hg : collCfg v die x = some g) (hs : s = admittedState die cid x src v) (hst : gStages g = []) :
    goOnAll die cid s = updColl die cid (fun x => { x with phase := 3, stage := 0 }) s ∧
      collAt (goOnAll die cid s) die cid = some { x.admitted src with phase := 3 } := by
  have hy : collAt s die cid = some (x.admitted src) := by
    rw [hs]
    exact updColl_some die cid (fun x => x.admitted src) v x (fun _ => rfl) hx
  have hyg : collCfg s die (x.admitted src) = some g := by
    rw [hs]
    exact (updColl_collCfg die cid (fun x => x.admitted src) v x).trans hg
  have hz := updColl_some die cid (fun x => { x with phase := 3, stage := 0 }) s (x.admitted src) (fun _ => rfl) hy
  have e : goOnAll die cid s = updColl die cid (fun x => { x with phase := 3, stage := 0 }) s := by
    rw [goOnAll, goOn_noStages die cid 23 s _ g hy hyg rfl hst]
    exact goOn_rests die cid 23 _ _ g hz ((updColl_collCfg _ _ _ _ _).trans hyg) (.inl rfl)
  exact ⟨e, e ▸ hz⟩
/-- An admitted collective's tag round begins: its token leaves with a permit of the link, and it waits. -/
theorem admitted_tokens (die cid : Nat) (s v : State) (x : Coll) (g : GroupCfg) (src : List Nat) (st : Nat) (sts : List Nat)
    (hx : collAt v die cid = some x) (hg : collCfg v die x = some g) (hs : s = admittedState die cid x src v)
    (hst : gStages g = st :: sts) (hi : ∀ d, (mGet v.mem.peers Peer.init d).isolated = false)
    (ha : (viewOf g die { x with stage := 0 }).alone = false) (hout : (v.die die).outbox = []) (p : Place) (dev : Nat)
    (hp : p = ringPlace g die st (nextOn g die st x.excl (viewOf g die { x with stage := 0 }).me)) (hdev : dev = g.devs.getD p.c 0)
    (haway : dev ≠ v.host.device) (hn : 0 < permitsOf v die (linkKey dev p.die)) :
    ∃ t, goOnAll die cid (beginStage die cid s) = t ∧ collAt t die cid = some (x.admitted src) ∧
      t.quads = s.quads ∧ permitsOf t die (linkKey dev p.die) = permitsOf v die (linkKey dev p.die) - 1 ∧
      t.host.out = v.host.out ++
        [.packet (tokenPacket die x st (viewOf g die { x with stage := 0 }).me dev p.die v.host.device)] := by
  have hy : collAt s die cid = some (x.admitted src) := by
    rw [hs]
    exact updColl_some die cid (fun x => x.admitted src) v x (fun _ => rfl) hx
  have hyg : collCfg s die (x.admitted src) = some g := by
    rw [hs]
    exact (updColl_collCfg die cid (fun x => x.admitted src) v x).trans hg
  have hdie : s.die die = { v.die die with colls := (s.die die).colls } := by
    have e : s.die die = (updColl die cid (fun x => x.admitted src) v).die die := by rw [hs]; rfl
    rw [e, updColl_die]
  have hstage : (x.admitted src).stageNo g = st := by rw [Coll.stageNo, hst]; rfl
  have hview : viewOf g die (x.admitted src) = viewOf g die { x with stage := 0 } := rfl
  have hhost : s.host = v.host := by rw [hs]; rfl
  -- the state whose engine has restarted the collective's timer sends the token
  obtain ⟨u, hu⟩ : ∃ u, u = updColl die cid (fun x => { x with timer := 0 }) s := ⟨_, rfl⟩
  have huy : collAt u die cid = some (x.admitted src) := by
    rw [hu]
    exact updColl_some die cid (fun x => { x with timer := 0 }) s _ (fun _ => rfl) hy
  have hudie : u.die die = { v.die die with colls := (u.die die).colls } := by
    rw [hu, updColl_die, hdie]
  have hperm : permitsOf u die (linkKey dev p.die) = permitsOf v die (linkKey dev p.die) := by rw [permitsOf, hudie, permitsOf]
  obtain ⟨pk, hpk⟩ : ∃ pk, pk = tokenPacket die x st (viewOf g die { x with stage := 0 }).me dev p.die v.host.device := ⟨_, rfl⟩
  have hbegin : beginStage die cid s = (u.updDie die fun d =>
      { d with permits := mSet d.permits (linkKey dev p.die) (permitsOf v die (linkKey dev p.die) - 1) }).send (.packet pk) := by
    have e := beginStage_token die cid s _ g hy hyg rfl (by rw [hs]; exact hi) ha p (by rw [hstage, hview]; exact hp)
    rw [hstage, hview, ← hdev, hhost, ← hu] at e
    rw [e, hpk, ← hperm]
    refine sendPkt_leaves die _ u ?_ (by rw [hudie]; exact hout) ?_
    · rw [← hperm] at hn; exact hn
    · rw [hu]
      show dev ≠ s.host.device
      rw [hhost]; exact haway
  have hcoll : collAt (beginStage die cid s) die cid = some (x.admitted src) := by
    rw [hbegin]
    rw [send_collAt, updDie_collAt, huy]
    exact fun _ => rfl
  have hcfg : collCfg (beginStage die cid s) die (x.admitted src) = some g := by
    rw [hbegin]
    rw [send_collCfg, updDie_collCfg, hu, updColl_collCfg, hyg]
    exact fun _ => rfl
  have hrest : (x.admitted src).rests g die := .inr (.inl ⟨rfl, by rw [hst]; exact List.cons_ne_nil _ _, ha⟩)
  have e : goOnAll die cid (beginStage die cid s) = beginStage die cid s := goOn_rests die cid 24 _ _ g hcoll hcfg hrest
  refine ⟨_, e, hcoll, ?_, ?_, ?_⟩
  · rw [hbegin, hu]; rfl
  · rw [hbegin, permitsOf, send_die, State.updDie_die, if_pos rfl, mGet_mSet, if_pos rfl]
  · rw [hbegin, hpk, ← hhost, hu]
    rfl

/-! ### Completion (R357) -/
theorem exec_collectiveCompletion (s : State) (die cid : Nat) (x : Coll) (hx : collAt s die cid = some x) (hp : x.phase = 3)
    (hs : x.still = false) (ho : ∀ o ∈ (s.die die).outbox, isOf x o = false) :
    exec (.collectiveCompletion die cid) s = .next (completeColl die cid s) := by
  have hd : collDone s die x = true := by
    have : (s.die die).outbox.any (isOf x) = false := List.any_eq_false.2 fun o h => by simp [ho o h]
    rw [collDone, hp, hs, this]; rfl
  show execCollectiveCompletion die cid s = _
  simp only [execCollectiveCompletion, hx, hd, if_true]
/-- A collective whose writes all go through, and that signals no counter. -/
theorem completeColl_retires (s v w : State) (die cid : Nat) (x : Coll) (g : GroupCfg) (hx : collAt s die cid = some x)
    (hg : collCfg s die x = some g) (hv : writeDest x (destOf g die x) s = (none, v))
    (hw : (if xRrec x.desc = 0 then (none, v) else engineWrite x.part (xRrec x.desc) (resultRecord x (destOf g die x)) v) = (none, w))
    (hsig : xSig x.desc = none) : completeColl die cid s = retireColl die x w := by
  simp only [completeColl, hx, hg, hv, hw, hsig]
theorem blockEnd_kept (bk : Nat) (s : State) (h : blockWarps s bk ≠ []) : blockEnd bk s = s := by
  have hw : (blockWarps s bk).isEmpty = false := by simpa using h
  rw [blockEnd, if_pos (by simp [hw])]
/-- A block with warps stays when a collective of it leaves. -/
theorem retireColl_live (die : Nat) (x : Coll) (w : State) (h : blockWarps w x.bk ≠ []) : retireColl die x w =
    removeJob (quadOf x.core) x.jid (updSlot die x.slot (fun sl => { sl with last := ((x.q, finalStatus x, x.excl) :: sl.last).take 16 })
      (w.updDie die fun d => { d with colls := d.colls.filter fun y => y.cid != x.cid })) := by
  rw [retireColl]
  exact blockEnd_kept x.bk _ h
theorem removeJob_job (q jid : Nat) (s : State) : (removeJob q jid s).job q jid = none := by
  rw [removeJob, State.job, State.updQuad_quad, if_pos rfl, List.find?_eq_none]
  intro y hy
  obtain ⟨j, hj, rfl⟩ := List.mem_map.1 hy
  obtain ⟨-, hne⟩ := List.mem_filter.1 hj
  simpa using hne
theorem retireColl_leaves (die : Nat) (x : Coll) (w : State) (h : blockWarps w x.bk ≠ []) :
    retireColl die x w = (w.setDies (retireColl die x w).dies).setQuads (retireColl die x w).quads ∧
      ((retireColl die x w).die die).colls = (w.die die).colls.filter (fun y => y.cid != x.cid) ∧
      (slotAt (retireColl die x w) die x.slot).last = ((x.q, finalStatus x, x.excl) :: (slotAt w die x.slot).last).take 16 ∧
      (retireColl die x w).job (quadOf x.core) x.jid = none := by
  have hslots : ∀ n, slotAt (w.updDie die fun d => { d with colls := d.colls.filter fun y => y.cid != x.cid }) die n =
      slotAt w die n := fun n => by
    rw [slotAt, State.updDie_die, if_pos rfl, slotAt]
  rw [retireColl_live die x w h]
  refine ⟨rfl, ?_, ?_, removeJob_job _ _ _⟩
  · show ((updSlot die x.slot _ _).die die).colls = _
    rw [updSlot, State.updDie_die, if_pos rfl, State.updDie_die, if_pos rfl]
  · show (slotAt (updSlot die x.slot _ _) die x.slot).last = _
    rw [updSlot_slotAt, if_pos ⟨rfl, rfl⟩, hslots]

/-! ### The obligation -/
/-- Settles O49: a permit, a packet by its verdict, a timeout by the member waited for, an admission by the stages of its group,
and a completion. -/
theorem collectiveSteps : Obligations.CollectiveSteps := by
  refine ⟨fun s die link => ⟨fun o ho hd => ?_, fun ho => ?_⟩, fun s die mask h pl hn => ⟨fun ho => ?_, fun hv => ?_, ?_⟩,
    fun s die cid x g hx hg hd hp => ⟨fun hw => ?_, fun c y hw hc hout hr hy ho => ?_⟩,
    fun s u v die cid x g bs ds src hx hg hready hu hv hsrc hvx hvg hq => ⟨fun hst => ?_, ?_⟩,
    fun s v w die cid x g d hx hp hs ho hg hd hv hw hsig hb => ?_⟩
  · refine ⟨_, congrArg Host.Outcome.next (givePermit_sends die link s o ho hd), rfl, rfl, ?_⟩
    rw [send_die, State.updDie_die, if_pos rfl]
  · refine ⟨_, congrArg Host.Outcome.next (givePermit_keeps die link s ho), rfl, ?_⟩
    rw [permitsOf, State.updDie_die, if_pos rfl, mGet_mSet, if_pos rfl, permitsOf]
  · obtain ⟨hdrop, -, -⟩ := recvPacket_fresh die mask h pl s hn
    exact ⟨_, congrArg Host.Outcome.next (hdrop (pktVerdict_foreign s die h ho)), rfl, (State.updDie_die s die die _).trans (if_pos rfl)⟩
  · obtain ⟨-, hwait, -⟩ := recvPacket_fresh die mask h pl s hn
    exact ⟨_, congrArg Host.Outcome.next (hwait hv), rfl, (State.updDie_die s die die _).trans (if_pos rfl)⟩
  · intro g x us ho hd hg hx hc hs hslot hus
    obtain ⟨-, -, htake⟩ := recvPacket_fresh die mask h pl s hn
    have hrun := pktVerdict_running s die h g x ho hg hx hs
    obtain ⟨r, hr⟩ : ∃ r, r = s.send (.permit (hDev h) die (linkKey s.host.device die)) := ⟨_, rfl⟩
    have hret : returnPermit die die h s = r := by rw [hr]; exact returnPermit_away die die h s hd
    have hrx : collOf r die (hSlot h) (hQ h) = some x := by rw [hr]; exact hx
    have hrc : collAt r die x.cid = some x := by rw [hr]; exact hc
    have hrg : ∀ y : Coll, y.slot = x.slot → collCfg r die y = some g := fun y hy => by
      rw [collCfg, hy, hslot, hr]; exact hg
    refine ⟨fun h6 => ?_, fun h4 hm ha hroute hgot => ⟨fun v y hv hy hred hnext hover hact => ?_,
      fun v y hv hy hred hback hexcl hj hstart hact hover => ?_⟩⟩
    · have e := htake g (hrun (.inl h6)) hg
      rw [hret, takePacket_late die mask g h pl r x hrx h6] at e
      refine ⟨_, congrArg Host.Outcome.next e, by rw [hr]; rfl, ?_, by rw [hr]; rfl⟩
      exact updColl_some die x.cid (fun x => { x.mark 1 with phase := 3 }) r x (fun x => by rw [Coll.mark_rest]) hrc
    · subst hm hv hy hus
      have e := htake g (hrun (.inr ⟨h4, ha⟩)) hg
      obtain ⟨t, ht, hcoll, hhost⟩ := piece_lands g die (hChunk h) (hFirst h) (unitsOf (xUnit x.desc) (pl.length / xUnit x.desc) pl)
        r x hrc (hrg x rfl) (atStage_running ha) (by rw [stageOver]; exact (if_neg (by simp [putGot, hred])).trans hover)
      rw [hret, takePacket_piece die g h pl r x hrx hrc h4 ha (by rw [hred]; exact nofun), hred, Bool.false_and,
        if_neg Bool.false_ne_true, takeSpread_last g die { x with timer := 0 } h _ _ hroute hgot hact hnext, ht] at e
      exact ⟨t, congrArg Host.Outcome.next e, hcoll, by rw [hhost, hr]; rfl⟩
    · subst hm hv hy hus
      have e := htake g (hrun (.inr ⟨h4, ha⟩)) hg
      obtain ⟨t, ht, hcoll, hhost⟩ := piece_lands g die (hChunk h) (hFirst h)
        (((unitsOf (xUnit x.desc) (pl.length / xUnit x.desc) pl).zip
          ((ownChunk x (viewOf g die x).l (viewOf g die x).me).drop (hFirst h))).map fun p => combine x.desc p.1 p.2)
        r x hrc (hrg x rfl) (atStage_running ha)
        (by rw [stageOver]; exact (if_pos (by simp [putGot, hred, hback])).trans hover)
      rw [hret, takePacket_piece die g h pl r x hrx hrc h4 ha (fun _ => hexcl), if_pos (by rw [hred, hback]; rfl),
        takeReduce_own g die { x with timer := 0 } h _ _ hroute hgot hj hstart hact] at e
      exact ⟨t, congrArg Host.Outcome.next (e.trans ht), hcoll, by rw [hhost, hr]; rfl⟩
  · obtain ⟨howaits, -⟩ := stepTimeout_due die cid s x g hx hg hd hp
    exact ⟨_, congrArg Host.Outcome.next (howaits hw), rfl, updColl_some die cid (fun x => { x with timer := 0 }) s x (fun _ => rfl) hx⟩
  · subst hy
    obtain ⟨-, hgoes⟩ := stepTimeout_due die cid s x g hx hg hd hp
    obtain ⟨e, hcoll⟩ := excludeMember_waits die cid c s x g hx hg hp hout hr ho
    refine ⟨_, congrArg Host.Outcome.next (hgoes (by rw [hw]; exact hc)), ?_⟩
    rw [hw]
    exact ⟨e, hcoll⟩
  · have e := exec_collectiveAdmission s die cid x hx hready
    rw [admitColl_reads s u v die cid x g bs ds hx hg hu hv, hst, List.isEmpty_nil, if_pos rfl] at e
    have hvec : sourceVector g die x.desc bs ds = src := hsrc.symm
    rw [hvec] at e
    obtain ⟨hgo, hcoll⟩ := admitted_alone die cid (admittedState die cid x src v) v x g src hvx hvg rfl hst
    refine ⟨_, e, hcoll, ?_⟩
    rw [hgo]
    exact admittedState_job die cid x src s v hq
  · intro st sts w hst hw hi ha hout p dev hp hdev haway hn
    subst hw
    have e := exec_collectiveAdmission s die cid x hx hready
    have hne : (gStages g).isEmpty = false := by rw [hst]; rfl
    have hvec : sourceVector g die x.desc bs ds = src := hsrc.symm
    rw [admitColl_reads s u v die cid x g bs ds hx hg hu hv, hne, if_neg Bool.false_ne_true, hvec] at e
    obtain ⟨t, ht, hcoll, hquads, hperm, hsent⟩ := admitted_tokens die cid (admittedState die cid x src v) v x g src st sts hvx hvg rfl
      hst hi ha hout p dev hp hdev haway hn
    rw [ht] at e
    refine ⟨t, e, hcoll, ?_, hperm, hsent⟩
    rw [State.job, State.quad, hquads]
    exact admittedState_job die cid x src s v hq
  · subst hd
    have e := exec_collectiveCompletion s die cid x hx hp hs ho
    rw [completeColl_retires s v w die cid x g hx hg hv hw hsig] at e
    exact ⟨_, e, retireColl_leaves die x w hb⟩

end Sys2Proof.Machine
end

section
/-! The host's messages: FLUSH and FLUSHDONE, ATTEST, STATS, unknown kinds, MEMWRITE and MEMREAD (O50). Addresses from 2^52 on stop
the step (log 4); a channel that is not open stops neither MEMWRITE nor MEMREAD (log 27). -/
namespace Sys2Proof.Machine

/-! ### Messages that an open channel takes (R374, R385, R386) -/
section
variable (s : State) (tag : Nat) (hc : s.host.chanOpen = true) (hv : s.rel.verified = true)
include hc hv
theorem exec_flush (part va len : Nat) : exec (.flush part va len tag) s = .next ((dropTlb (part % 8) va len s).setHost
    { s.host with flushes := s.host.flushes ++
      [{ part := part % 8, va := va, len := len, tag := tag, wid := s.mem.nextWid, q := s.mem.nextQ }] }) :=
  congrArg Host.Outcome.next (if_neg (by simp [hc, hv]))
theorem exec_attest (nonce : Nat) : exec (.attest nonce tag) s = .next (s.send (.report tag nonce s.host.device s.rel.images
    Config.fuseId (Config.signature ([nonce, s.host.device] ++ s.rel.images ++ [Config.fuseId])))) :=
  congrArg Host.Outcome.next (if_neg (by simp [hc, hv]))
theorem exec_otherKind (kind : Nat) (hk : jalliaKinds.contains kind = false) :
    exec (.jalliaOtherKind kind tag) s = .next (s.send (.error tag)) :=
  congrArg Host.Outcome.next (if_neg (by rw [hc, hv, hk]; decide))
/-- STATS sends the counts, and clears them. -/
theorem exec_stats : exec (.stats tag) s = .next
    ((((s.send (.stats tag (statsOf s))).setRel { s.rel with soft := 0, lasting := 0 }).setDies
      (s.dies.map fun kd => (kd.1, { kd.2 with errs := 0 }))).updMem fun m =>
        { m with peers := m.peers.map fun kp => (kp.1, { kp.2 with lost := 0 }) }) :=
  congrArg Host.Outcome.next (if_neg (by simp [hc, hv]))
end
/-- Whatever a flush covers leaves the translations of every core, and nothing else does. -/
theorem mem_dropTlb (part va len : Nat) (s : State) (c : Nat) (x : Nat × TlbEntry) :
    x ∈ ((dropTlb part va len s).coreAt c).tlb ↔ x ∈ (s.coreAt c).tlb ∧ flushCovers part va len x.1 x.2 = false := by
  have e : ((dropTlb part va len s).coreAt c).tlb = (s.coreAt c).tlb.filter fun ke => !flushCovers part va len ke.1 ke.2 := by
    rw [State.coreAt, dropTlb, State.setCores_cores, mGet,
      mFind_mapAll s.cores c fun k => { k with tlb := k.tlb.filter fun ke => !flushCovers part va len ke.1 ke.2 }, State.coreAt, mGet]
    cases mFind s.cores c <;> rfl
  rw [e, List.mem_filter, Bool.not_eq_true']
/-- A table whose every value is changed, by its values; its default is as it would be after the change. -/
theorem mGet_mapAll {α : Type} (m : Map α) (d : α) (g : α → α) (hd : g d = d) (k : Nat) :
    mGet (m.map fun kx => (kx.1, g kx.2)) d k = g (mGet m d k) := by
  rw [mGet, mFind_mapAll, mGet]
  cases mFind m k with
  | none => exact hd.symm
  | some _ => rfl
theorem exec_flushdone (s : State) (f : Flush) (hf : dueFlush s = some f) : exec .flushdone s = .next
    (((s.setWarps (s.warps.map fun kw => (kw.1, settleOuts kw.2))).setHost { s.host with flushes := s.host.flushes.erase f }).send
      (.flushdone f.part f.tag)) := by
  show execFlushdone s = _
  simp only [execFlushdone, hf]
  rfl

/-! ### MEMWRITE (R376, R377) -/
theorem exec_memwrite_beyond (s : State) (pa tag : Nat) (data : List Byte) (h : 2 ^ 52 < pa + data.length) :
    exec (.memwrite pa data tag) s = .fault (.beyondPhysical pa) := if_pos h
theorem exec_memwrite_loads (s : State) (pa tag : Nat) (data : List Byte) (h : pa + data.length ≤ 2 ^ 52)
    (hv : s.rel.verified = false) : exec (.memwrite pa data tag) s =
      .next ((s.setRel { s.rel with loadBuffer := memWriteBytes s.rel.loadBuffer pa data }).send (.written tag)) :=
  (if_neg (Nat.not_lt.2 h)).trans (if_pos (by rw [hv]; rfl))
/-- The flight of a MEMWRITE. -/
def hostFlight (pa : Nat) (data : List Byte) (s : State) : Flight :=
  { fid := s.mem.nextFid, src := hostSrc, home := 0, ws := hostWrites pa s.mem.nextWid data, nt := true }
theorem exec_memwrite_sends (s : State) (pa tag : Nat) (data : List Byte) (h : pa + data.length ≤ 2 ^ 52)
    (hv : s.rel.verified = true) : exec (.memwrite pa data tag) s =
      .next ((s.setMem { s.mem with nextWid := s.mem.nextWid + 1, flights := s.mem.flights ++ [hostFlight pa data s],
                                    nextFid := s.mem.nextFid + 1 }).setHost
        { s.host with posted := s.host.posted ++ [(s.mem.nextFid, tag)] }) :=
  (if_neg (Nat.not_lt.2 h)).trans (if_neg (by rw [hv]; decide))
/-- A flight with one write arrives whole, and is acknowledged. -/
theorem arriveOne_last (f : Flight) (w : PWrite) (s : State) (hp : f.peer = none) (hws : f.ws = [w]) (hw : w.peer = none) :
    arriveOne f s = ackFlight f.fid (writeArrived f 0 w s) := by
  have hpick : pickWrite s.tick 0 = 0 := Nat.le_zero.1 (pickWrite_le s.tick 0)
  simp only [arriveOne, hp, Option.isSome_none, Bool.false_eq_true, if_false, hws, List.length_singleton, Nat.sub_self, hpick,
    List.eraseIdx_zero, List.tail_cons, List.isEmpty_nil, if_true, List.drop_zero, List.take_succ_cons, List.take_zero, arriveWrites,
    List.foldl_cons, List.foldl_nil, arriveWrite, hw, writeArrived, flightsLeft]
  rfl
theorem ackFlight_posted (fid tag : Nat) (s : State) (h : s.host.posted.find? (fun x => x.1 == fid) = some (fid, tag)) :
    ackFlight fid s = (s.setHost { s.host with posted := s.host.posted.filter fun y => y.1 != fid }).send (.written tag) := by
  simp only [ackFlight, h]

/-! ### MEMREAD (R376, R377) -/
/-- The bytes from an address on, in two parts. -/
theorem rangeFrom_append (a k n : Nat) : rangeFrom a (k + n) = rangeFrom a k ++ rangeFrom (a + k) n := by
  induction k generalizing a with
  | zero => rw [Nat.zero_add, Nat.add_zero]; rfl
  | succ k ih =>
    rw [Nat.succ_add, rangeFrom, rangeFrom, ih, List.cons_append, show a + 1 + k = a + (k + 1) by omega]
/-- The pieces of a range lie each within one sector and within the range, and make it up in order. -/
theorem pieces_cover (fuel va n : Nat) (h : n = 0 ∨ n + va % 128 ≤ 128 * fuel) :
    (pieces fuel va n).flatMap (fun p => rangeFrom p.1 p.2) = rangeFrom va n ∧
      ∀ p ∈ pieces fuel va n, p.1 % 128 + p.2 ≤ 128 ∧ va ≤ p.1 ∧ p.1 + p.2 ≤ va + n := by
  induction fuel generalizing va n with
  | zero =>
    obtain rfl : n = 0 := by omega
    exact ⟨rfl, fun p hp => absurd hp List.not_mem_nil⟩
  | succ fuel ih =>
    rw [pieces]
    by_cases hn : n = 0
    · rw [if_pos hn, hn]
      exact ⟨rfl, fun p hp => absurd hp List.not_mem_nil⟩
    · rw [if_neg hn]
      dsimp only
      obtain ⟨k, hk⟩ : ∃ k, k = min n (128 - va % 128) := ⟨_, rfl⟩
      rw [← hk]
      obtain ⟨hall, hin⟩ := ih (va + k) (n - k) (by omega)
      refine ⟨?_, fun p hp => ?_⟩
      · rw [List.flatMap_cons, hall, ← rangeFrom_append]
        congr 1
        omega
      · obtain rfl | hp := List.mem_cons.1 hp
        · exact ⟨by dsimp only; omega, Nat.le_refl _, by dsimp only; omega⟩
        · have := hin p hp
          omega
theorem sectorPieces_cover (va n : Nat) : (sectorPieces va n).flatMap (fun p => rangeFrom p.1 p.2) = rangeFrom va n ∧
    ∀ p ∈ sectorPieces va n, p.1 % 128 + p.2 ≤ 128 ∧ va ≤ p.1 ∧ p.1 + p.2 ≤ va + n :=
  pieces_cover _ va n (.inr (by omega))
/-- One piece of a MEMREAD. -/
def readPiece (r : Option (List Byte) × State) (p : Nat × Nat) : Option (List Byte) × State :=
  match r.1 with
  | none => r
  | some bs =>
    if (rangeFrom p.1 p.2).any r.2.mem.ecc.contains then (none, r.2) else
      let (b, s1) := enginePiece { localAcc 0 p.1 with attr := PageAttr.none } p.2 none r.2
      (some (bs ++ b), s1)
theorem readPhysical_pieces (pa n : Nat) (s : State) : readPhysical pa n s = (sectorPieces pa n).foldl readPiece (some [], s) := rfl
/-- No use count runs at a line (R230). -/
def noUses (m : Mem) : Prop := ∀ ln l, mFind m.lines ln = some l → l.use = none
/-- A piece with no failed byte brings its bytes, and no byte reads otherwise. -/
theorem readPiece_reads (bs : List Byte) (s : State) (p : Nat × Nat) (hp : p.1 % 128 + p.2 ≤ 128) (hu : noUses s.mem)
    (he : ∀ q, p.1 ≤ q → q < p.1 + p.2 → q ∉ s.mem.ecc) : ∃ m,
      readPiece (some bs, s) p = (some (bs ++ (rangeFrom p.1 p.2).map (s.mem.byteUnder 0)), s.setMem m) ∧ noUses m ∧
        m.ecc = s.mem.ecc ∧ m.byteUnder = s.mem.byteUnder := by
  have hecc : (rangeFrom p.1 p.2).any s.mem.ecc.contains = false := List.any_eq_false.2 fun q hq => by
    obtain ⟨h1, h2⟩ := (mem_rangeFrom _ _ _).1 hq
    simpa using he q h1 h2
  obtain ⟨m, e, ⟨h, sk, ls, hm⟩, hb, hl⟩ := piece_read { localAcc 0 p.1 with attr := PageAttr.none } p.2 s rfl rfl hp (hu _)
  refine ⟨m, ?_, fun ln l hf => ?_, by rw [hm], funext fun k => funext (hb k)⟩
  · dsimp only [readPiece]
    rw [hecc, if_neg Bool.false_ne_true]
    exact congrArg (fun r : List Byte × State => (some (bs ++ r.1), r.2)) e
  · exact (hl ln l hf).elim (fun h => h.2.2) (hu ln l)
theorem readPieces_read (ps : List (Nat × Nat)) (bs : List Byte) (s : State) (hp : ∀ p ∈ ps, p.1 % 128 + p.2 ≤ 128)
    (hu : noUses s.mem) (he : ∀ p ∈ ps, ∀ q, p.1 ≤ q → q < p.1 + p.2 → q ∉ s.mem.ecc) : ∃ m,
      ps.foldl readPiece (some bs, s) = (some (bs ++ (ps.flatMap fun p => rangeFrom p.1 p.2).map (s.mem.byteUnder 0)), s.setMem m) ∧
        m.byteUnder = s.mem.byteUnder := by
  induction ps generalizing bs s with
  | nil => exact ⟨s.mem, by rw [List.foldl_nil, List.flatMap_nil, List.map_nil, List.append_nil]; rfl, rfl⟩
  | cons p t ih =>
    obtain ⟨m, e, hu', hecc, hb⟩ := readPiece_reads bs s p (hp p List.mem_cons_self) hu (he p List.mem_cons_self)
    obtain ⟨m', e', hb'⟩ := ih (bs ++ (rangeFrom p.1 p.2).map (s.mem.byteUnder 0)) (s.setMem m)
      (fun x hx => hp x (List.mem_cons_of_mem _ hx)) hu' fun x hx => by
        rw [State.setMem_mem, hecc]
        exact he x (List.mem_cons_of_mem _ hx)
    refine ⟨m', ?_, hb'.trans hb⟩
    rw [List.foldl_cons, e, e', State.setMem_mem, hb, List.append_assoc, ← List.map_append, List.flatMap_cons]
    rfl
theorem exec_memread_beyond (s : State) (pa len tag : Nat) (h : 2 ^ 52 < pa + len) :
    exec (.memread pa len tag) s = .fault (.beyondPhysical pa) := if_pos h
/-- A MEMREAD of memory with no failed byte, while no use count runs. -/
theorem exec_memread (s : State) (pa len tag : Nat) (h : pa + len ≤ 2 ^ 52) (hv : s.rel.verified = true) (hu : noUses s.mem)
    (he : ∀ q, pa ≤ q → q < pa + len → q ∉ s.mem.ecc) : ∃ m, exec (.memread pa len tag) s =
      .next ((s.setMem m).send (.data tag ((rangeFrom pa len).map (s.mem.byteUnder 0)))) ∧ m.byteUnder = s.mem.byteUnder := by
  obtain ⟨hall, hin⟩ := sectorPieces_cover pa len
  obtain ⟨m, e, hb⟩ := readPieces_read (sectorPieces pa len) [] s (fun p hp => (hin p hp).1) hu fun p hp q h1 h2 => by
    obtain ⟨-, h3, h4⟩ := hin p hp
    exact he q (by omega) (by omega)
  rw [hall, List.nil_append, ← readPhysical_pieces] at e
  refine ⟨m, ?_, hb⟩
  show execMemread pa len tag s = _
  rw [execMemread, if_neg (Nat.not_lt.2 h), hv, Bool.not_true, if_neg Bool.false_ne_true, e]

/-! ### The obligation -/
/-- Settles O50, message by message. -/
theorem hostMessages : Obligations.HostMessages := by
  refine ⟨fun s tag hc hv => ⟨fun part va len => ?_, fun nonce => exec_attest s tag hc hv nonce, ?_, exec_otherKind s tag hc hv⟩,
    fun s f hf => ?_, fun s pa tag data => ⟨exec_memwrite_beyond s pa tag data, fun h hv => ?_, fun h hv => ?_⟩,
    fun s f w tag hf hfirst hp hws hw hattr hsup hpost => ?_,
    fun s pa tag len => ⟨exec_memread_beyond s pa len tag, fun h hv hu he => ?_⟩⟩
  · exact ⟨_, _, exec_flush s tag hc hv part va len, rfl, rfl, rfl, rfl, fun c x => mem_dropTlb (part % 8) va len s c x⟩
  · exact ⟨_, exec_stats s tag hc hv, rfl, rfl, fun d => mGet_mapAll s.dies Die.init (fun x => { x with errs := 0 }) rfl d,
      fun p => mGet_mapAll s.mem.peers Peer.init (fun x => { x with lost := 0 }) rfl p, rfl, rfl⟩
  · exact ⟨_, exec_flushdone s f hf, rfl, rfl, fun k => mFind_mapAll s.warps k settleOuts⟩
  · exact ⟨_, exec_memwrite_loads s pa tag data h hv, rfl, rfl, fun q => memRead_memWriteBytes data _ pa q⟩
  · exact ⟨_, hostFlight pa data s, exec_memwrite_sends s pa tag data h hv, rfl, sameMemory_of_eq rfl rfl, rfl, rfl, rfl, rfl, rfl, rfl⟩
  · refine ⟨_, exec_arrive s f hf hfirst, ?_⟩
    obtain ⟨-, hview⟩ := arriveByte_view { s.mem with flights := flightsLeft f 0 s.mem.flights } w hsup
    rw [arriveOne_last f w s hp hws hw, ackFlight_posted f.fid tag (writeArrived f 0 w s) hpost]
    exact ⟨rfl, fun q => hview 0 q (.inr (by rw [hattr]; rfl))⟩
  · obtain ⟨m, e, hb⟩ := exec_memread s pa len tag h hv hu he
    exact ⟨_, e, rfl, rfl, fun q => congrFun (congrFun hb 0) q⟩

end Sys2Proof.Machine
end

section
/-! The pod: requests of peers through the windows, the link's timeout, isolation and the windows' writes (O51). What is lost counts a
store, an atomic without a return and an object operation once each, and lanes park at their load (log 28); the windows' bounds are
rounded and a cleared isolation keeps the lost count (log 30). -/
namespace Sys2Proof.Machine

/-! ### Requests through a window (R381) -/
/-- Where a window puts an address. -/
def windowLane (w : PodWindow) (addr : Nat) : LaneAcc :=
  { localAcc 0 (w.local_ + (addr - w.base)) with attr := { key := w.key, way := 0, pol := 0 } }
theorem windowAcc_some {s : State} {w : PodWindow} {addr n : Nat} {a : LaneAcc} (h : windowAcc s w addr n = some a) :
    a = windowLane w addr ∧ a.pa % 128 + n ≤ 128 := by
  rw [windowAcc] at h
  split at h
  · cases h
  · next hin =>
    cases h
    exact ⟨rfl, Nat.le_of_not_lt fun hlt => hin (.inr (.inl hlt))⟩
theorem exec_ualinkRequest_none (s : State) (peer : Nat) (req : PeerReq) (h : windowFor s peer (reqAddr req) = none) :
    exec (.ualinkRequest peer req) s = .next (s.send (.peerError peer)) := by
  show execUalinkRequest peer req s = _
  simp only [execUalinkRequest, h]
theorem exec_ualinkRequest (s : State) (peer : Nat) (req : PeerReq) (w : PodWindow) (h : windowFor s peer (reqAddr req) = some w) :
    exec (.ualinkRequest peer req) s = .next (serveRequest peer w req s) := by
  show execUalinkRequest peer req s = _
  simp only [execUalinkRequest, h]
section
variable (s : State) (peer addr : Nat) (w : PodWindow) (a : LaneAcc)
theorem serveRequest_read (n : Nat) (ha : windowAcc s w addr n = some a) (hr : w.r = true)
    (hu : ∀ l, mFind s.mem.lines (a.pa / 1024) = some l → l.use = none) (he : ∀ q, a.pa ≤ q → q < a.pa + n → q ∉ s.mem.ecc) :
    ∃ m, serveRequest peer w (.read addr n) s = (s.setMem m).send
        (.peerData peer ((rangeFrom a.pa n).map (s.mem.byteUnder (s.mem.keyOf w.key)))) ∧ m.byteUnder = s.mem.byteUnder := by
  obtain ⟨hlane, hin⟩ := windowAcc_some ha
  have hecc : (rangeFrom a.pa n).any s.mem.ecc.contains = false := List.any_eq_false.2 fun q hq => by
    obtain ⟨h1, h2⟩ := (mem_rangeFrom _ _ _).1 hq
    simpa using he q h1 h2
  obtain ⟨m, e, -, hb, -⟩ := piece_read a n s (by rw [hlane]; rfl) (by rw [hlane]; rfl) hin hu
  refine ⟨m, ?_, funext fun k => funext (hb k)⟩
  have hkey : a.attr.key = w.key := by rw [hlane]; rfl
  rw [hkey] at e
  simp only [serveRequest, hr, ha, serveRequest.readPhysicalAt, hecc, e, Bool.not_true, Bool.false_eq_true, if_false]
theorem serveRequest_write (data : List Byte) (ha : windowAcc s w addr data.length = some a) (hw : w.w = true) :
    serveRequest peer w (.write addr data) s = (homeStore a.attr a.pa data s).send (.peerDone peer) := by
  simp only [serveRequest, hw, ha, Bool.not_true, Bool.false_eq_true, if_false]
/-- An operand of a peer's atomic, at the atomic's width. -/
def atomCut (b64 : Bool) (v : DWord) : DWord := if b64 then v else z64 (v.setWidth 32)
theorem serveRequest_atomic (aop : Aop) (ty : AtomTy) (x y : DWord) (ha : windowAcc s w addr (atomSize (ty == .b64)) = some a)
    (hw : w.atomic = true) (hok : peerAtomOk aop ty = true) (hal : addr % atomSize (ty == .b64) = 0) (old : DWord) (s1 : State)
    (hhome : homeAtom a (ty == .b64) (aop, atomCut (ty == .b64) x, atomCut (ty == .b64) y) s.mem.nextWid
      (fun old => atomNew aop (ty == .b64) old (atomCut (ty == .b64) x) (atomCut (ty == .b64) y)) (freshWid s).2 = (old, s1)) :
    serveRequest peer w (.atomic addr aop ty x y) s = s1.send (.peerData peer (leBytes old.toNat (atomSize (ty == .b64)))) := by
  simp only [serveRequest, hw, hok, hal, ha, Bool.not_true, Bool.or_false, bne_self_eq_false, Bool.false_eq_true, if_false]
  exact congrArg (fun r : DWord × State => r.2.send (.peerData peer (leBytes r.1.toNat (atomSize (ty == .b64))))) hhome
theorem serveRequest_barx (dev blkx : Nat) (op : BarxOp) (val : Word) (ha : windowAcc s w addr 32 = some a)
    (hw : w.atomic = true) (hop : barxWrites op = true) (hal : addr % 32 = 0) :
    serveRequest peer w (.barx addr dev blkx op val) s = (applyObj {
        id := s.mem.nextQ, wk := none, out := none, attr := a.attr, dev := dev, blkx := blkx, part := 0, hbs := [],
        va := 0, pa := a.pa, peer := none, zero := false, op := op, val := val } s).send (.peerDone peer) := by
  simp [serveRequest, hw, hop, hal, ha]
end

/-! ### A peer that does not answer (R382) -/
/-- The peer isolated, its wait begun anew. -/
def isolate (peer : Nat) (s : State) : State :=
  s.updMem fun m => { m with peers := mUpd m.peers Peer.init peer fun x => { x with isolated := true, waited := 0 } }
/-- The peer's lanes at the loads outstanding, warp by warp. -/
def faultPeerLanes (peer : Nat) (ws : Map Warp) (s : State) : State :=
  ws.foldl (fun s kw => kw.2.outs.reverse.foldl (peerLanes peer kw.1) s) s
theorem exec_ualinkTimeout_early (s : State) (peer : Nat) (h : (mGet s.mem.peers Peer.init peer).waited < s.mem.linkTimeout) :
    exec (.ualinkTimeout peer) s = .next s := congrArg Host.Outcome.next (if_pos h)
/-- Dies without collectives have none to time out. -/
theorem collTimeouts_none (peer : Nat) (ds : Map Die) (s : State) (h : ∀ kd ∈ ds, kd.2.colls = []) :
    ds.foldl (fun s kd => kd.2.colls.foldl (fun s x => collTimeout peer kd.1 x.cid s) s) s = s := by
  induction ds generalizing s with
  | nil => rfl
  | cons kd t ih =>
    rw [List.foldl_cons, h kd List.mem_cons_self]
    exact ih s fun x hx => h x (List.mem_cons_of_mem _ hx)
theorem exec_ualinkTimeout (s s1 : State) (peer : Nat) (h : s.mem.linkTimeout ≤ (mGet s.mem.peers Peer.init peer).waited)
    (h1 : faultPeerLanes peer s.warps (isolate peer s) = s1) (hd : ∀ kd ∈ s1.dies, kd.2.colls = []) :
    exec (.ualinkTimeout peer) s = .next (loseStores peer s1) := by
  subst h1
  exact congrArg Host.Outcome.next ((if_neg (Nat.not_lt.2 h)).trans (collTimeouts_none peer _ _ hd))
/-- An outstanding result whose lanes await nothing of the peer keeps them. -/
theorem peerLanes_nil (peer wk : Nat) (s : State) (o : Out) (h : lanesOn s peer wk o = []) : peerLanes peer wk s o = s := by
  rw [peerLanes, h]
  rfl
theorem outsFold_same (peer wk : Nat) (os : List Out) (s : State) (h : ∀ o ∈ os, lanesOn s peer wk o = []) :
    os.foldl (peerLanes peer wk) s = s := by
  induction os with
  | nil => rfl
  | cons o t ih =>
    rw [List.foldl_cons, peerLanes_nil peer wk s o (h o List.mem_cons_self)]
    exact ih fun x hx => h x (List.mem_cons_of_mem _ hx)
theorem faultPeerLanes_same (peer : Nat) (ws : Map Warp) (s : State) (h : ∀ kw ∈ ws, ∀ o ∈ kw.2.outs, lanesOn s peer kw.1 o = []) :
    faultPeerLanes peer ws s = s := by
  induction ws with
  | nil => rfl
  | cons kw t ih =>
    rw [faultPeerLanes, List.foldl_cons, outsFold_same peer kw.1 _ s fun o ho => h kw List.mem_cons_self o (List.mem_reverse.1 ho)]
    exact ih fun x hx => h x (List.mem_cons_of_mem _ hx)
/-- With one outstanding result in all, only its lanes fault. -/
theorem faultPeerLanes_one (peer wk : Nat) (o : Out) (ws : Map Warp) (s : State)
    (h : ws.flatMap (fun kw => kw.2.outs.map fun o => (kw.1, o)) = [(wk, o)]) :
    faultPeerLanes peer ws s = peerLanes peer wk s o := by
  have hnone : ∀ (t : Map Warp) (s : State), t.flatMap (fun kw => kw.2.outs.map fun o => (kw.1, o)) = [] → faultPeerLanes peer t s = s :=
    fun t s ht => faultPeerLanes_same peer t s fun kw hkw o ho =>
      absurd (List.mem_flatMap.2 ⟨kw, hkw, List.mem_map.2 ⟨o, ho, rfl⟩⟩) (ht ▸ List.not_mem_nil)
  induction ws with
  | nil => cases h
  | cons kw t ih =>
    obtain ⟨k, v⟩ := kw
    rw [List.flatMap_cons] at h
    show faultPeerLanes peer t (v.outs.reverse.foldl (peerLanes peer k) s) = _
    cases hv : v.outs with
    | nil =>
      rw [hv] at h
      exact ih h
    | cons x xs =>
      rw [hv, List.map_cons, List.cons_append, List.cons_eq_cons, Prod.mk.injEq, List.append_eq_nil_iff, List.map_eq_nil_iff] at h
      obtain ⟨⟨rfl, rfl⟩, rfl, ht⟩ := h
      exact hnone t _ ht
/-- FAULTS FOUND LATE: the record of the lanes is posted, and they park at their load. -/
theorem lateFaults_parks (wk : Nat) (o : Out) (f : LaneFault) (fs : List LaneFault) (s : State) : ∃ as park r,
    lateFaults wk o (f :: fs) s = postRecord r ((s.updMem fun a => { a with atoms := as }).updWarp wk park) ∧
      r.code = f.code ∧ r.detail = BitVec.ofNat 17 f.detail.toNat ∧ r.lanes = lanesMask ((f :: fs).map (·.lane)) ∧ r.ref = .lanes wk ∧
      ∀ w l, l < w.lanes.length → (park w).lane l =
        if (lanesMask ((f :: fs).map (·.lane))).getLsbD l then { w.lane l with st := .parkedFault, pc := o.pc } else w.lane l :=
  ⟨_, _, _, rfl, rfl, rfl, rfl, rfl, fun _ l hl => updLanes_lane (Warp.unparkLanes _ _) _ _ l hl⟩
theorem peerLanes_parks (peer wk : Nat) (s : State) (o : Out) (h : lanesOn s peer wk o ≠ []) : ∃ as park r,
    peerLanes peer wk s o = postRecord r ((s.updMem fun a => { a with atoms := as }).updWarp wk park) ∧
      r.code = 0x0B ∧ r.detail = BitVec.ofNat 17 peer ∧ r.lanes = lanesMask ((lanesOn s peer wk o).map (·.1)) ∧ r.ref = .lanes wk ∧
      ∀ w l, l < w.lanes.length → (park w).lane l =
        if (lanesMask ((lanesOn s peer wk o).map (·.1))).getLsbD l then { w.lane l with st := .parkedFault, pc := o.pc } else w.lane l := by
  rw [peerLanes]
  cases hl : lanesOn s peer wk o with
  | nil => exact absurd hl h
  | cons x xs =>
    rw [List.map_cons]
    obtain ⟨as, park, r, e, hcode, hdetail, hlanes, href, hpark⟩ := lateFaults_parks wk o
      ⟨x.1, 0x0B, BitVec.ofNat 17 peer, BitVec.ofNat 64 x.2⟩
      (xs.map fun x => ⟨x.1, 0x0B, BitVec.ofNat 17 peer, BitVec.ofNat 64 x.2⟩) s
    rw [List.map_cons, List.map_map] at hlanes hpark
    exact ⟨as, park, r, e, hcode, hdetail.trans (by rw [BitVec.ofNat_toNat, BitVec.setWidth_eq]), hlanes, href, hpark⟩
/-- The peer's lost count after a loss of `n`. -/
theorem lose_peer (m : Mem) (p n : Nat) : mGet (m.lose p n).peers Peer.init p =
    { mGet m.peers Peer.init p with lost := (mGet m.peers Peer.init p).lost + n } := by
  rw [Mem.lose]
  split
  · next hn => rw [hn]; rfl
  · rw [mGet_mUpd, if_pos rfl]
/-- A loss changes the peers' table and nothing else. -/
theorem lose_rest (m : Mem) (p n : Nat) : m.lose p n = { m with peers := (m.lose p n).peers } := by
  rw [Mem.lose]
  split <;> rfl
theorem loseStores_mem (p : Nat) (s : State) : (loseStores p s).mem.flights = s.mem.flights.filter (!·.peer == some p) ∧
    (loseStores p s).mem.atoms = s.mem.atoms.filter (fun a => !(a.acc.peer == some p && a.out.isNone)) ∧
    (loseStores p s).mem.objq = s.mem.objq.filter (!·.peer == some p) := by
  refine ⟨?_, ?_, ?_⟩ <;> exact congrArg _ (lose_rest _ _ _)
theorem loseStores_peer (p : Nat) (s : State) : mGet (loseStores p s).mem.peers Peer.init p =
    { mGet s.mem.peers Peer.init p with lost := (mGet s.mem.peers Peer.init p).lost +
        (storesTo p s.mem.flights + (s.mem.atoms.filter fun a => a.acc.peer == some p && a.out.isNone).length +
          (s.mem.objq.filter fun o => o.peer == some p && barxWrites o.op).length) } := lose_peer _ _ _
theorem isolate_peer (p : Nat) (s : State) :
    mGet (isolate p s).mem.peers Peer.init p = { mGet s.mem.peers Peer.init p with isolated := true, waited := 0 } :=
  (mGet_mUpd s.mem.peers Peer.init Peer.init p p fun x => { x with isolated := true, waited := 0 }).trans (if_pos rfl)

/-! ### Isolation and windows by the firmware (R383) -/
/-- The end of a peer's isolation; a peer not in the table was not isolated. -/
theorem clearIsolation_peer (m : Map Peer) (k p : Nat) : mGet (mMod m k fun x => { x with isolated := false }) Peer.init p =
    { mGet m Peer.init p with isolated := (mGet m Peer.init p).isolated && p != k } := by
  rw [mGet, mFind_mMod, mGet]
  by_cases h : k = p
  · rw [if_pos h, h, bne_self_eq_false, Bool.and_false]
    cases mFind m p <;> rfl
  · rw [if_neg h, bne_iff_ne.2 (Ne.symm h), Bool.and_true]
theorem putWindow_find (m : Map PodWindow) (k i : Nat) (w : Option PodWindow) (hk : k < 256) :
    mFind (putWindow m k w) i = if i = k then w.map windowAligned else mFind m i := by
  rw [putWindow.eq_def, if_neg (Nat.not_le.2 hk)]
  cases w with
  | none => simp only [mFind_mErase, eq_comm, Option.map_none]
  | some w => simp only [mFind_mSet, eq_comm, Option.map_some]

/-! ### The obligation -/
/-- A peer that lanes wait for has timed out: they park at their load, with its record. -/
theorem ualinkTimeout_faults (s : State) (peer wk : Nat) (w : Warp) (o : Out)
    (h : s.mem.linkTimeout ≤ (mGet s.mem.peers Peer.init peer).waited) (hd : ∀ kd ∈ s.dies, kd.2.colls = [])
    (hw : mFind s.warps wk = some w) (h32 : w.lanes.length = 32)
    (hone : s.warps.flatMap (fun kw => kw.2.outs.map fun o => (kw.1, o)) = [(wk, o)]) (hl : lanesOn s peer wk o ≠ []) :
    ∃ t, exec (.ualinkTimeout peer) s = .next t ∧ (mGet t.mem.peers Peer.init peer).isolated = true ∧
      (∀ l < 32, (t.warp wk).lane l = if (lanesMask ((lanesOn s peer wk o).map (·.1))).getLsbD l then
          { w.lane l with st := .parkedFault, pc := o.pc } else w.lane l) ∧
      (∀ k, k ≠ wk → mFind t.warps k = mFind s.warps k) ∧
      ∃ r : FaultRec, t.faults = { s.faults with pend := s.faults.pend ++ [r] } ∧ r.code = 0x0B ∧ r.detail = BitVec.ofNat 17 peer ∧
        r.lanes = lanesMask ((lanesOn s peer wk o).map (·.1)) ∧ r.ref = .lanes wk := by
  obtain ⟨as, park, r, e, hcode, hdetail, hlanes, href, hpark⟩ := peerLanes_parks peer wk (isolate peer s) o hl
  have hfind : ∀ k, mFind (loseStores peer (peerLanes peer wk (isolate peer s) o)).warps k =
      if wk = k then (mFind s.warps k).map park else mFind s.warps k := fun k => by
    rw [e]
    exact mFind_mMod _ _ _ _
  refine ⟨_, exec_ualinkTimeout s _ peer h (faultPeerLanes_one peer wk o s.warps _ hone) (by rw [e]; exact hd), ?_, fun l hl32 => ?_,
    fun k hk => ?_, r, by rw [e]; rfl, hcode, hdetail, hlanes, href⟩
  · rw [loseStores_peer, e]
    exact congrArg Peer.isolated (isolate_peer peer s)
  · have := hfind wk
    rw [if_pos rfl, hw] at this
    rw [warp_of_mFind this]
    exact hpark w l (h32.symm ▸ hl32)
  · rw [hfind, if_neg (Ne.symm hk)]
/-- A peer that no lane waits for has timed out: what is under way to it is lost and counted. -/
theorem ualinkTimeout_loses (s : State) (peer : Nat) (h : s.mem.linkTimeout ≤ (mGet s.mem.peers Peer.init peer).waited)
    (hd : ∀ kd ∈ s.dies, kd.2.colls = []) (hl : ∀ kw ∈ s.warps, ∀ o ∈ kw.2.outs, lanesOn s peer kw.1 o = []) :
    exec (.ualinkTimeout peer) s = .next (loseStores peer (isolate peer s)) :=
  exec_ualinkTimeout s _ peer h (faultPeerLanes_same peer s.warps _ hl) hd
/-- Settles O51, request by request and then the link's timeout and the firmware's writes. -/
theorem podRequests : Obligations.PodRequests := by
  refine ⟨exec_ualinkRequest_none, fun s peer addr n w a hwin ha hu => ?_, exec_ualinkTimeout_early, fun s peer h hd => ⟨fun hl => ?_,
    fun wk w o m hw h32 hone hl hm => ?_⟩, fun s k => ⟨⟨_, rfl, rfl, rfl, fun p => clearIsolation_peer s.mem.peers k p⟩,
    fun w hk => ⟨_, rfl, rfl, rfl, fun i => putWindow_find s.mem.windows k i w hk⟩⟩⟩
  · obtain ⟨hlane, -⟩ := windowAcc_some ha
    have hkey : a.attr.key = w.key := by rw [hlane]; rfl
    refine ⟨by rw [hlane]; rfl, fun hr he => ?_, fun data hn hw => ?_, fun aop ty x y old hn hw hok hal hpa hold => ?_,
      fun dev blkx op val hn hw hop hal => ?_⟩
    · obtain ⟨m, e, hb⟩ := serveRequest_read s peer addr w a n ha hr hu he
      exact ⟨_, (exec_ualinkRequest s peer (.read addr n) w hwin).trans (congrArg Host.Outcome.next e), rfl, rfl,
        fun q => congrFun (congrFun hb _) q⟩
    · subst hn
      obtain ⟨_, _, _, _, e, hb, -⟩ := homeStore_spec a.attr a.pa data s
      rw [hkey] at hb
      refine ⟨_, (exec_ualinkRequest s peer (.write addr data) w hwin).trans
        (congrArg Host.Outcome.next (serveRequest_write s peer addr w a data ha hw)), ?_, ?_, hb⟩
      · rw [e]; rfl
      · rw [e]; rfl
    · subst hn
      obtain ⟨m, e, -, hb⟩ := homeAtom_spec a (ty == .b64) (aop, atomCut (ty == .b64) x, atomCut (ty == .b64) y) s.mem.nextWid
        (fun old => atomNew aop (ty == .b64) old (atomCut (ty == .b64) x) (atomCut (ty == .b64) y)) (freshWid s).2 _ rfl
        (by rw [hlane]; rfl) hpa hu old (by rw [hkey]; exact hold)
      rw [hkey] at hb
      exact ⟨_, (exec_ualinkRequest s peer (.atomic addr aop ty x y) w hwin).trans
        (congrArg Host.Outcome.next (serveRequest_atomic s peer addr w a aop ty x y ha hw hok hal old _ e)), rfl, hb⟩
    · subst hn
      exact (exec_ualinkRequest s peer (.barx addr dev blkx op val) w hwin).trans
        (congrArg Host.Outcome.next (serveRequest_barx s peer addr w a dev blkx op val ha hw hop hal))
  · obtain ⟨hflights, hatoms, hobjs⟩ := loseStores_mem peer (isolate peer s)
    refine ⟨_, ualinkTimeout_loses s peer h hd hl, rfl, ?_, fun f => ?_, fun o => ?_, fun a => ?_⟩
    · rw [loseStores_peer, isolate_peer]
      rfl
    · rw [hflights, List.mem_filter, Bool.not_eq_true', beq_eq_false_iff_ne]
      rfl
    · rw [hobjs, List.mem_filter, Bool.not_eq_true', beq_eq_false_iff_ne]
      rfl
    · rw [hatoms, List.mem_filter, Bool.not_eq_true', Bool.and_eq_false_iff, beq_eq_false_iff_ne, Option.isNone_eq_false_iff,
        Option.isSome_iff_ne_none]
      rfl
  · rw [hm]
    exact ualinkTimeout_faults s peer wk w o h hd hw h32 hone hl

end Sys2Proof.Machine
end
